-- ==== Sys2Proof/Word.lean ====
section
/-! DEFINITION. The word types of the machine and nothing else: the widths the spec fixes
(R14, R16, R21, R22, R26).  Every helper over them stands in `Machine/Bits.lean`. -/
namespace Sys2Proof

/-- One byte of memory. -/
abbrev Byte := BitVec 8
/-- An instruction word, a named register, a predicate mask over 32 lanes (R14, R26). -/
abbrev Word := BitVec 32
/-- A queue entry, an address, a group scalar (R16, R12). -/
abbrev DWord := BitVec 64
/-- The widest operand (R15, R17). -/
abbrev QWord := BitVec 128
/-- A set of lanes of a group: bit `l` is lane `l`. -/
abbrev LaneSet := BitVec 32

end Sys2Proof
end

