-- ==== Sys2Proof/Machine/Aes.lean ====
section
/-! DEFINITION. AES-XTS-256 of IEEE 1619 over one 32-byte sector (R218): AES-256 with its key schedule, the tweak, and the two
blocks of the data unit.  Bytes are naturals below 256.  A key pair is a number of 64 bytes, the first the least significant:
bytes 0 to 31 encrypt the data and bytes 32 to 63 the tweak (log entry 11). -/
namespace Sys2Proof.Machine

/-- Multiplication by x in the field of AES. -/
def aesX (a : Nat) : Nat := if a < 128 then 2 * a else (2 * a) ^^^ 0x11B
/-- Multiplication in the field of AES by a factor of `n` bits. -/
def aesMul : Nat → Nat → Nat → Nat
  | 0, _, _ => 0
  | n + 1, a, b => (if b % 2 = 1 then a else 0) ^^^ aesMul n (aesX a) (b / 2)
/-- The product of `a` squared, squared again, and so on, `n` factors; with seven of them the inverse of `a`. -/
def aesPow : Nat → Nat → Nat
  | 0, _ => 1
  | n + 1, a => let q := aesMul 8 a a; aesMul 8 q (aesPow n q)
/-- A byte rotated left. -/
def rotByte (a n : Nat) : Nat := (a * 2 ^ n) % 256 ||| a / 2 ^ (8 - n)
/-- The substitution box and its inverse. -/
def aesSub (a : Nat) : Nat :=
  let b := aesPow 7 a
  b ^^^ rotByte b 1 ^^^ rotByte b 2 ^^^ rotByte b 3 ^^^ rotByte b 4 ^^^ 0x63
def aesUnsub (a : Nat) : Nat := aesPow 7 (rotByte a 1 ^^^ rotByte a 3 ^^^ rotByte a 6 ^^^ 0x05)
/-- Byte by byte exclusive or. -/
def xorBytes (a b : List Nat) : List Nat := List.zipWith (· ^^^ ·) a b
/-- `n` bytes of a number, the least significant first. -/
def aesBytes : Nat → Nat → List Nat
  | 0, _ => []
  | n + 1, v => v % 256 :: aesBytes n (v / 256)

/-- The words of the key schedule after the first eight, `n` of them, latest first. -/
def aesSchedule (key : List (List Nat)) : Nat → List (List Nat)
  | 0 => key.reverse
  | n + 1 =>
    let ws := aesSchedule key n
    let t := ws.headD []
    let i := n + 8
    let t' :=
      if i % 8 = 0 then xorBytes (((t.drop 1) ++ t.take 1).map aesSub) [2 ^ (i / 8 - 1), 0, 0, 0]
      else if i % 8 = 4 then t.map aesSub
      else t
    xorBytes (ws.getD 7 []) t' :: ws
/-- The fifteen round keys of a 32-byte key. -/
def aesRounds (key : List Nat) : List (List Nat) :=
  let ws := (aesSchedule ((List.range 8).map fun i => (key.drop (4 * i)).take 4) 52).reverse
  (List.range 15).map fun r => ((ws.drop (4 * r)).take 4).flatten
/-- The bytes of a block moved by the row shift, `k` 5, or by its inverse, `k` 13. -/
def aesShift (k : Nat) (b : List Nat) : List Nat := (List.range 16).map fun i => b.getD (k * i % 16) 0
/-- The columns of a block multiplied by the circulant matrix whose first row is `m`. -/
def aesMix (m : List Nat) (b : List Nat) : List Nat :=
  (List.range 16).map fun i => ((List.range 4).map fun j =>
    aesMul 8 (b.getD (4 * (i / 4) + j) 0) (m.getD ((j + 4 - i % 4) % 4) 0)).foldl (· ^^^ ·) 0
/-- One block encrypted and decrypted under round keys. -/
def aesEnc (ks : List (List Nat)) (b : List Nat) : List Nat :=
  let round (b k : List Nat) := xorBytes (aesMix [2, 3, 1, 1] (aesShift 5 (b.map aesSub))) k
  let b := ((ks.drop 1).take 13).foldl round (xorBytes b (ks.getD 0 []))
  xorBytes (aesShift 5 (b.map aesSub)) (ks.getD 14 [])
def aesDec (ks : List (List Nat)) (b : List Nat) : List Nat :=
  let unround (b k : List Nat) := aesMix [14, 11, 13, 9] (xorBytes ((aesShift 13 b).map aesUnsub) k)
  let b := ((ks.drop 1).take 13).reverse.foldl unround (xorBytes b (ks.getD 14 []))
  xorBytes ((aesShift 13 b).map aesUnsub) (ks.getD 0 [])

/-- A sector's 32 bytes encrypted, or decrypted, under a key pair at a device physical address: its tweak is the address, its
second block's that times x in the field of 128 bits. -/
def xtsSector (enc : Bool) (pair dpa : Nat) (bs : List Nat) : List Nat :=
  let k1 := aesRounds (aesBytes 32 pair)
  let t0 := aesEnc (aesRounds (aesBytes 32 (pair / 2 ^ 256))) (aesBytes 16 dpa)
  let v := t0.foldr (fun b n => b + 256 * n) 0
  let t1 := aesBytes 16 ((2 * v % 2 ^ 128) ^^^ (if 2 ^ 127 ≤ v then 0x87 else 0))
  let one (t b : List Nat) := xorBytes ((if enc then aesEnc else aesDec) k1 (xorBytes b t)) t
  one t0 (bs.take 16) ++ one t1 (bs.drop 16)

end Sys2Proof.Machine
end

