-- ==== Sys2Proof/Machine/Tbl.lean ====
section
/-! DEFINITION. Finite tables: lists of (key, value), keys strictly rising.  A key not listed reads as the
default its reader names. -/
namespace Sys2Proof.Machine

/-- A finite table (sparse data by key). -/
abbrev Tbl (α : Type) := List (Nat × α)

/-- The value listed at `k`. -/
def Tbl.find {α : Type} : Tbl α → Nat → Option α
  | [], _ => none
  | (i, v) :: t, k => if i = k then some v else Tbl.find t k
/-- The value at `k`, `d` where none is listed. -/
def Tbl.get {α : Type} (t : Tbl α) (k : Nat) (d : α) : α := (Tbl.find t k).getD d
/-- Replace or insert the value at `k`, keeping the order. -/
def Tbl.put {α : Type} : Tbl α → Nat → α → Tbl α
  | [], k, v => [(k, v)]
  | (i, w) :: t, k, v =>
    if i = k then (k, v) :: t else if k < i then (k, v) :: (i, w) :: t else (i, w) :: Tbl.put t k v
/-- Remove `k`. -/
def Tbl.del {α : Type} : Tbl α → Nat → Tbl α
  | [], _ => []
  | (i, w) :: t, k => if i = k then Tbl.del t k else (i, w) :: Tbl.del t k
/-- Update the value at `k`, starting from `d` where none is listed. -/
def Tbl.upd {α : Type} (t : Tbl α) (k : Nat) (d : α) (f : α → α) : Tbl α := Tbl.put t k (f (Tbl.get t k d))
/-- Apply to every value listed. -/
def Tbl.mapV {α : Type} (t : Tbl α) (f : Nat → α → α) : Tbl α := t.map fun p => (p.1, f p.1 p.2)
/-- Keep the entries that satisfy a test. -/
def Tbl.keep {α : Type} (t : Tbl α) (f : Nat → α → Bool) : Tbl α := t.filter fun p => f p.1 p.2
/-- The keys listed. -/
def Tbl.keys {α : Type} (t : Tbl α) : List Nat := t.map (·.1)
/-- Keys strictly rising. -/
def Tbl.sorted {α : Type} : Tbl α → Bool
  | (i, _) :: (j, w) :: t => decide (i < j) && Tbl.sorted ((j, w) :: t)
  | _ => true
/-- Insert before the first element that it may precede. -/
def insertBy {α : Type} (le : α → α → Bool) (x : α) : List α → List α
  | [] => [x]
  | y :: ys => if le x y then x :: y :: ys else y :: insertBy le x ys
/-- Sort by an order; equals keep their order. -/
def sortBy {α : Type} (le : α → α → Bool) (xs : List α) : List α := xs.foldr (insertBy le) []

end Sys2Proof.Machine
end

