-- ==== Sys2Proof/Machine/Bits.lean ====
section
/-! DEFINITION. Bit-field, sign-extension and byte-order helpers over natural numbers.  A value of
width `w` is a natural number below `2^w`; results are computed exactly and narrowed once. -/
namespace Sys2Proof.Machine

/-- Bits `[hi:lo]` of `x`. -/
def bits (x hi lo : Nat) : Nat := (x >>> lo) % 2 ^ (hi + 1 - lo)
/-- Bit `i` of `x`. -/
def bitAt (x i : Nat) : Bool := Nat.testBit x i
/-- `1` for true. -/
def bit01 (b : Bool) : Nat := if b then 1 else 0
/-- `x` reduced to `w` bits. -/
def trunc (w x : Nat) : Nat := x % 2 ^ w
/-- The two's-complement reading of a `w`-bit value (R79). -/
def sgn (w x : Nat) : Int := if x % 2 ^ w < 2 ^ (w - 1) then (x % 2 ^ w : Nat) else (x % 2 ^ w : Nat) - (2 ^ w : Nat)
/-- The `w`-bit pattern of an integer, wrapping. -/
def wrapI (w : Nat) (x : Int) : Nat := (x % ((2 ^ w : Nat) : Int)).toNat
/-- `SAT(x, lo, hi)` of R7. -/
def satI (x lo hi : Int) : Int := if x < lo then lo else if hi < x then hi else x
/-- Sign-extend `from`-bit `x` to `to` bits. -/
def sext (src dst x : Nat) : Nat := wrapI dst (sgn src x)
/-- Floor division of an integer by a power of two. -/
def floorShift (x : Int) (c : Nat) : Int := x / ((2 ^ c : Nat) : Int)

/-- The little-endian value of a byte list. -/
def ofBytesLE : List Byte → Nat
  | [] => 0
  | b :: bs => b.toNat + 256 * ofBytesLE bs
/-- The `n` bytes of `x`, little-endian. -/
def toBytesLE : Nat → Nat → List Byte
  | 0, _ => []
  | n + 1, x => BitVec.ofNat 8 x :: toBytesLE n (x / 256)

/-- The lanes of a lane set, ascending. -/
def lanesOf (m : LaneSet) : List Nat := (List.range 32).filter fun l => m.getLsbD l
/-- The set of the listed lanes. -/
def laneSetOf (ls : List Nat) : LaneSet := ls.foldl (fun m l => m ||| BitVec.ofNat 32 (1 <<< l)) 0
/-- The lowest-numbered lane of a set. -/
def lowestLane (m : LaneSet) : Option Nat := (lanesOf m).head?
/-- The quarter of a lane (R22). -/
def quarterOf (l : Nat) : Nat := l / 8
/-- The number of one bits among the low `w` bits. -/
def popCount : Nat → Nat → Nat
  | 0, _ => 0
  | w + 1, x => x % 2 + popCount w (x / 2)
/-- `x` with bit `i` moved to bit `w - 1 - i`. -/
def bitReverse : Nat → Nat → Nat
  | 0, _ => 0
  | w + 1, x => (x % 2) * 2 ^ w + bitReverse w (x / 2)
/-- `x` of `n` bytes with its bytes in the opposite order. -/
def byteReverse : Nat → Nat → Nat
  | 0, _ => 0
  | n + 1, x => (x % 256) * 256 ^ n + byteReverse n (x / 256)
/-- Number of trailing zero bits of the low `w` bits, `w` for zero. -/
def trailZeros : Nat → Nat → Nat
  | 0, _ => 0
  | w + 1, x => if x % 2 = 1 then 0 else 1 + trailZeros w (x / 2)
/-- Number of leading zero bits of a `w`-bit value, `w` for zero. -/
def leadZeros (w x : Nat) : Nat := if x % 2 ^ w = 0 then w else w - 1 - Nat.log2 (x % 2 ^ w)
/-- `ceil (a / b)` on naturals. -/
def ceilDiv (a b : Nat) : Nat := (a + b - 1) / b

/-- Update one place of a list; a place beyond the end leaves the list unchanged. -/
def setAt {α : Type} (l : List α) (i : Nat) (v : α) : List α := l.set i v

end Sys2Proof.Machine
end

