-- ==== Sys2Proof/Machine/Fp.lean ====
section
/-! DEFINITION. Exact real values, rounding and the IEEE-style formats (R53, R54, R65, R66, R68, R69,
R103).  A finite value is sign × magnitude × power of two, held exactly; every operation computes
exactly and rounds once. -/
namespace Sys2Proof.Machine

/-- The rounding modes of R65. -/
inductive RMode where
  /-- to nearest, ties to even -/
  | rne
  /-- toward zero -/
  | rtz
  /-- toward −∞ -/
  | rdn
  /-- toward +∞ -/
  | rup
  /-- stochastic -/
  | sr
  deriving DecidableEq, Repr

/-- The mode of a RND value (R25, R65). -/
def rmode (n : Nat) : RMode :=
  if n = 0 then .rne else if n = 1 then .rtz else if n = 2 then .rdn else if n = 3 then .rup else .sr

/-- An exact value or one truncated with a sticky mark: `±(mag + δ) × 2^exp`, with `0 < δ < 1`
exactly when `sticky`. -/
structure Dy where
  neg : Bool
  mag : Nat
  exp : Int
  sticky : Bool := false
  deriving DecidableEq, Repr

/-- A value of any floating format. -/
inductive Val where
  | nan
  | inf (neg : Bool)
  | fin (d : Dy)
  deriving DecidableEq, Repr

/-- The zero of a sign. -/
def Dy.zero (neg : Bool) : Dy := ⟨neg, 0, 0, false⟩
/-- The exact integer `i × 2^e`. -/
def Dy.ofInt (i : Int) (e : Int) : Dy := ⟨decide (i < 0), i.natAbs, e, false⟩
/-- The signed magnitude at exponent `e ≤ d.exp`. -/
def Dy.at (d : Dy) (e : Int) : Int :=
  let m : Int := ((d.mag <<< (d.exp - e).toNat : Nat) : Int)
  if d.neg then -m else m
/-- `floor (log2 |d|)` of a nonzero value. -/
def Dy.log2 (d : Dy) : Int := (Nat.log2 d.mag : Int) + d.exp
/-- Negation. -/
def Dy.neg' (d : Dy) : Dy := { d with neg := !d.neg }
/-- Exact product. -/
def Dy.mul (a b : Dy) : Dy := ⟨xor a.neg b.neg, a.mag * b.mag, a.exp + b.exp, false⟩
/-- `d × 2^n`. -/
def Dy.scale (d : Dy) (n : Int) : Dy := { d with exp := d.exp + n }
/-- Exact comparison: `a < b`, zeros of either sign being equal. -/
def Dy.lt (a b : Dy) : Bool :=
  let e := min a.exp b.exp
  decide (a.at e < b.at e)
/-- Exact comparison: `a = b`. -/
def Dy.eq (a b : Dy) : Bool :=
  let e := min a.exp b.exp
  decide (a.at e = b.at e)
/-- The exact sum of values, with the sign of zero by R103: an exact zero from zeros of one sign keeps
that sign, any other exact zero is −0 under RDN and +0 otherwise. -/
def Dy.sum (mode : RMode) (ds : List Dy) : Dy :=
  let e := ds.foldl (fun m d => min m d.exp) (ds.headD (Dy.zero false)).exp
  let s := ds.foldl (fun acc d => acc + d.at e) (0 : Int)
  if s = 0 then
    if ds.all (fun d => d.mag == 0 && d.neg) && !ds.isEmpty then Dy.zero true
    else if ds.all (fun d => d.mag == 0 && !d.neg) then Dy.zero false
    else Dy.zero (mode == .rdn)
  else Dy.ofInt s e

/-- The sum of values: NaN for a NaN or for infinities of both signs (IEEE 754, R118). -/
def Val.sum (mode : RMode) (vs : List Val) : Val :=
  if vs.any (· == .nan) || (vs.any (· == .inf false) && vs.any (· == .inf true)) then .nan
  else if vs.any (· == .inf false) then .inf false
  else if vs.any (· == .inf true) then .inf true
  else .fin (Dy.sum mode (vs.filterMap fun v => match v with | .fin d => some d | _ => none))
/-- The exact product. -/
def Val.mul : Val → Val → Val
  | .nan, _ => .nan
  | _, .nan => .nan
  | .inf s, .inf t => .inf (xor s t)
  | .inf s, .fin d => if d.mag = 0 then .nan else .inf (xor s d.neg)
  | .fin d, .inf s => if d.mag = 0 then .nan else .inf (xor s d.neg)
  | .fin a, .fin b => .fin (a.mul b)
/-- Negation. -/
def Val.neg : Val → Val
  | .nan => .nan
  | .inf s => .inf (!s)
  | .fin d => .fin d.neg'
/-- Scaling by a power of two. -/
def Val.scale (n : Int) : Val → Val
  | .fin d => .fin (d.scale n)
  | v => v
/-- Whether the value is NaN. -/
def Val.isNan : Val → Bool
  | .nan => true
  | _ => false

/-- Round the magnitude of `d` to a multiple of `2^u` (R65, R68): the multiple `n`.  `r` is the
`SRBITS` value of the stochastic mode. -/
def roundAt (d : Dy) (u : Int) (mode : RMode) (r : Nat) : Nat :=
  let sh := u - d.exp
  if sh ≤ 0 then d.mag <<< (-sh).toNat
  else
    let s := sh.toNat
    let k := d.mag >>> s
    let rem := d.mag % 2 ^ s
    let inexact := rem != 0 || d.sticky
    let up : Bool := match mode with
      | .rne => decide (2 ^ s < 2 * rem) || (decide (2 * rem = 2 ^ s) && (d.sticky || k % 2 == 1))
      | .rtz => false
      | .rdn => d.neg && inexact
      | .rup => !d.neg && inexact
      | .sr => inexact && decide (r < (rem <<< 32) >>> s)
    if up then k + 1 else k

/-- An IEEE-style format (R53): exponent and fraction widths. -/
structure FFmt where
  ebits : Nat
  mbits : Nat
  deriving DecidableEq, Repr
def f32 : FFmt := ⟨8, 23⟩
def f16 : FFmt := ⟨5, 10⟩
def bf16 : FFmt := ⟨8, 7⟩
/-- Width in bits. -/
def FFmt.width (f : FFmt) : Nat := 1 + f.ebits + f.mbits
/-- Exponent of the smallest subnormal. -/
def FFmt.qmin (f : FFmt) : Int := 2 - (2 ^ (f.ebits - 1) : Nat) - f.mbits
/-- The magnitude code of infinity. -/
def FFmt.infCode (f : FFmt) : Nat := (2 ^ f.ebits - 1) <<< f.mbits
/-- The sign bit's weight. -/
def FFmt.signBit (f : FFmt) : Nat := 2 ^ (f.ebits + f.mbits)
/-- The canonical NaN (R54). -/
def FFmt.canonNan (f : FFmt) : Nat := f.infCode + 2 ^ (f.mbits - 1)
/-- The value a code stands for. -/
def FFmt.decode (f : FFmt) (x : Nat) : Val :=
  let neg := bitAt x (f.ebits + f.mbits)
  let e := bits x (f.ebits + f.mbits - 1) f.mbits
  let m := x % 2 ^ f.mbits
  if e = 2 ^ f.ebits - 1 then (if m = 0 then .inf neg else .nan)
  else if e = 0 then .fin ⟨neg, m, f.qmin, false⟩
  else .fin ⟨neg, 2 ^ f.mbits + m, f.qmin + (e - 1 : Nat), false⟩

/-- The magnitude code of a finite value rounded to `mb + 1` bits with smallest exponent `q`, without
an upper bound: the format's unbounded extension (R66, R67). -/
def roundCode (mb : Nat) (q : Int) (d : Dy) (mode : RMode) (r : Nat) : Nat :=
  if d.mag = 0 then 0
  else
    let u := max (d.log2 - mb) q
    (u - q).toNat * 2 ^ mb + roundAt d u mode r

/-- `ROUND(x, fmt, mode, pos)` (R66), with `r` the value of `SRBITS(seed, pos)`. -/
def FFmt.round (f : FFmt) (v : Val) (mode : RMode) (r : Nat) : Nat :=
  match v with
  | .nan => f.canonNan
  | .inf s => bit01 s * f.signBit + f.infCode
  | .fin d =>
    let c := roundCode f.mbits f.qmin d mode r
    let c := if c < f.infCode then c else
      match mode with
      | .rtz => f.infCode - 1
      | .rdn => if d.neg then f.infCode else f.infCode - 1
      | .rup => if d.neg then f.infCode - 1 else f.infCode
      | _ => f.infCode
    bit01 d.neg * f.signBit + c

/-- `SRBITS(seed, pos)` (R69). -/
def srBits (seed pos : Nat) : Nat :=
  let m := 2 ^ 32
  let h := (seed % m) ^^^ ((pos % m) * 0x08020041 % m)
  let h := h ^^^ (((bits seed 63 32) ^^^ (bits pos 63 32)) * 0x40002009 % m)
  let h := h ^^^ (h >>> 15)
  let h := h * 0x08020041 % m
  let h := h ^^^ (h >>> 13)
  let h := h * 0x40002009 % m
  h ^^^ (h >>> 16)

/-- The exact quotient of two nonzero finite values, truncated with a sticky mark far below any
format's precision. -/
def Dy.div (a b : Dy) : Dy :=
  let k := 96 + Nat.log2 b.mag
  let n := a.mag <<< k
  ⟨xor a.neg b.neg, n / b.mag, a.exp - b.exp - k, n % b.mag != 0⟩

/-- Integer square root by bits: `fuel` result bits below `2^fuel`. -/
def isqrtAux : Nat → Nat → Nat → Nat
  | 0, _, r => r
  | fuel + 1, n, r =>
    let c := r + 2 ^ fuel
    isqrtAux fuel n (if c * c ≤ n then c else r)
/-- `floor (sqrt n)`. -/
def isqrt (n : Nat) : Nat := isqrtAux (Nat.log2 n / 2 + 1) n 0
/-- The square root of a positive finite value, truncated with a sticky mark. -/
def Dy.sqrt (a : Dy) : Dy :=
  let odd := a.exp % 2 != 0
  let m := if odd then a.mag * 2 else a.mag
  let e := if odd then a.exp - 1 else a.exp
  let n := m <<< 200
  let s := isqrt n
  ⟨false, s, e / 2 - 100, s * s != n⟩

end Sys2Proof.Machine
end

