-- ==== Sys2Proof/Machine/Formats.lean ====
section
/-! DEFINITION. Element formats, scales, blocks, the lattice code, the outlier escape, block-scale
choice, the accumulation rules and the order functions (R55 to R64, R67, R70 to R74). -/
namespace Sys2Proof.Machine

/-- The six element formats, in the code order of R42 (BLOCK). -/
inductive EFmt where
  | e4m3 | e5m2 | e3m2 | e2m3 | e2m1 | i8
  deriving DecidableEq, Repr
/-- The format of a BLOCK code 0–5. -/
def EFmt.ofNat? (n : Nat) : Option EFmt :=
  [EFmt.e4m3, .e5m2, .e3m2, .e2m3, .e2m1, .i8][n]?
/-- The BLOCK code of a format. -/
def EFmt.code : EFmt → Nat
  | .e4m3 => 0 | .e5m2 => 1 | .e3m2 => 2 | .e2m3 => 3 | .e2m1 => 4 | .i8 => 5
/-- Bits of a code (R55). -/
def EFmt.bits : EFmt → Nat
  | .e4m3 | .e5m2 | .i8 => 8
  | .e3m2 | .e2m3 => 6
  | .e2m1 => 4
/-- Mantissa bits (R55). -/
def EFmt.mant : EFmt → Nat
  | .e4m3 => 3 | .e5m2 => 2 | .e3m2 => 2 | .e2m3 => 3 | .e2m1 => 1 | .i8 => 0
/-- Bias (R55). -/
def EFmt.bias : EFmt → Int
  | .e4m3 => 7 | .e5m2 => 15 | .e3m2 => 3 | .e2m3 => 1 | .e2m1 => 1 | .i8 => 0
/-- emax (R55). -/
def EFmt.emax : EFmt → Int
  | .e4m3 => 8 | .e5m2 => 16 | .e3m2 => 4 | .e2m3 => 2 | .e2m1 => 2 | .i8 => 0
/-- Exponent of the smallest nonzero magnitude's unit: 2^(1 − bias − M) (R56). -/
def EFmt.qmin (f : EFmt) : Int := 1 - f.bias - f.mant

/-- `DEC(fmt, code)` (R56). -/
def dec (f : EFmt) (code : Nat) : Dy :=
  match f with
  | .i8 => Dy.ofInt (sgn 8 code) (-6)
  | _ =>
    let c := code % 2 ^ f.bits
    let neg := bitAt c (f.bits - 1)
    let mag := c % 2 ^ (f.bits - 1)
    let e := mag >>> f.mant
    let m := mag % 2 ^ f.mant
    if e = 0 then ⟨neg && m != 0, m, f.qmin, false⟩
    else ⟨neg, 2 ^ f.mant + m, f.qmin + (e - 1 : Nat), false⟩

/-- The code of ±(largest magnitude) (R67). -/
def EFmt.maxCode (f : EFmt) (neg : Bool) : Nat :=
  match f with
  | .i8 => if neg then 0x80 else 0x7F
  | _ => bit01 neg * 2 ^ (f.bits - 1) + (2 ^ (f.bits - 1) - 1)

/-- `ENC(fmt, x, mode, pos)` of a finite value: the code and whether it saturated (R67). -/
def encFin (f : EFmt) (d : Dy) (mode : RMode) (r : Nat) : Nat × Bool :=
  match f with
  | .i8 =>
    let n := roundAt d (-6) mode r
    if d.neg then (if 128 < n then (0x80, true) else (wrapI 8 (-(n : Int)), false))
    else (if 127 < n then (0x7F, true) else (n, false))
  | _ =>
    let c := roundCode f.mant f.qmin d mode r
    if c = 0 then (0, false)
    else if 2 ^ (f.bits - 1) ≤ c then (f.maxCode d.neg, true)
    else (bit01 d.neg * 2 ^ (f.bits - 1) + c, false)
/-- `ENC` of any value (R67). -/
def enc (f : EFmt) (v : Val) (mode : RMode) (r : Nat) : Nat × Bool :=
  match v with
  | .nan => (0, false)
  | .inf s => (f.maxCode s, true)
  | .fin d => encFin f d mode r

/-- One quantised block: scale, codes, and the flags of R70 and R71. -/
structure QBlock where
  scale : Nat
  codes : List Nat
  clamp : Bool
  snan : Bool
  deriving DecidableEq, Repr

/-- The larger magnitude. -/
def Dy.maxMag (a b : Dy) : Dy :=
  if ({ a with neg := false } : Dy).lt { b with neg := false } then { b with neg := false } else { a with neg := false }
/-- Whether a magnitude is a power of two. -/
def Dy.isPow2 (d : Dy) : Bool := d.mag != 0 && d.mag == 2 ^ Nat.log2 d.mag && !d.sticky

/-- The scale code of a block of largest magnitude `amax` under policy `pol`, and whether the limit
to 254 applied (R70). -/
def scaleOf (f : EFmt) (amax : Dy) (pol : Nat) : Nat × Bool :=
  let x : Int :=
    if amax.mag = 0 then -127
    else if pol = 1 then (if amax.isPow2 then amax.log2 else amax.log2 + 1) - f.emax
    else amax.log2 - f.emax
  ((satI (x + 127) 0 254).toNat, decide (254 < x + 127))

/-- `QBLOCK` of R70 and R71 over the listed values, each with its own position.  `seed` is the context's seed. -/
def qblockAt (f : EFmt) (pol : Nat) (mode : RMode) (seed : Nat) (v : List (Val × Nat)) : QBlock :=
  if v.any (fun x => match x.1 with | .fin _ => false | _ => true) then
    ⟨0xFF, v.map fun _ => 0, false, true⟩
  else
    let ds := v.filterMap fun x => match x.1 with | .fin d => some (d, x.2) | _ => none
    let amax := (ds.map (·.1)).foldl Dy.maxMag (Dy.zero false)
    let (c, limited) := scaleOf f amax pol
    let es := ds.map fun (d, p) => encFin f (d.scale (127 - c)) mode (srBits seed p)
    let sat := es.any (·.2)
    ⟨c, es.map (·.1), if pol = 2 then sat && limited else sat, false⟩
/-- `QBLOCK(v, fmt, P, mode, pos0)`: element i takes position pos0 + i. -/
def qblock (f : EFmt) (pol : Nat) (mode : RMode) (seed pos0 : Nat) (v : List Val) : QBlock :=
  qblockAt f pol mode seed (v.zipIdx.map fun (x, i) => (x, pos0 + i))

/-- The value of one decoded element under a scale (R57). -/
def scaled (d : Dy) (c : Nat) : Val := if c = 0xFF then .nan else .fin (d.scale ((c : Int) - 127))

/-- The base magnitude of the reset lattice table (R62): entry `k`, element `j`. -/
def lc2ResetEntry (k : Nat) : Nat :=
  (List.range 8).foldl (fun acc j =>
    acc + (bit01 (bitAt k j) + bit01 (bitAt k ((j + 1) % 8)) + bit01 (bitAt k ((j + 3) % 8))) * 4 ^ j) 0
/-- The eight weights of an `lc2` codeword under a base-table entry (R61). -/
def lc2Dec (entry : Nat) (cw : Nat) : List Dy :=
  let coset := bit01 (bitAt cw 0)
  let negs := (List.range 7).map fun i => bitAt cw (i + 1)
  let last := (negs.filter id).length % 2 == 1
  (negs ++ [last]).zipIdx.map fun (s, j) =>
    let m := 2 * bits entry (2 * j + 1) (2 * j) + coset
    ⟨s && m != 0, m, -1, false⟩

/-- The value an escape at element `i` takes from the side segment (R63, R64): `none` when the block
becomes NaN. -/
def escapeVal (side : List Nat) (i : Nat) : Option Dy :=
  match side.find? (fun e => bitAt e 21 && bits e 20 16 == i) with
  | none => some (Dy.zero false)
  | some e => match f16.decode (e % 2 ^ 16) with
    | .fin d => some d
    | _ => none

/-- A block as the engines read it: its scale and its exact elements, `none` for an element whose
escape makes the whole block NaN (R57, R64). -/
structure Block where
  scale : Nat
  elems : List (Option Dy)
  deriving DecidableEq, Repr
/-- The scale the block behaves by. -/
def Block.eff (b : Block) : Nat := if b.elems.any (·.isNone) then 0xFF else b.scale
/-- The element values, an absent one reading as zero. -/
def Block.vals (b : Block) : List Dy := b.elems.map fun d => d.getD (Dy.zero false)
/-- The elements as values under the scale. -/
def Block.real (b : Block) : List Val := b.vals.map fun d => scaled d b.eff

/-- Magnitude truncation of a term to a multiple of `2^u`, as a signed count. -/
def truncAt (d : Dy) (u : Int) : Int :=
  let n : Int := (roundAt d u .rtz 0 : Nat)
  if d.neg then -n else n

/-- `WSUM(acc, pairs)` of R72: `acc` is an FP32 code. -/
def wsum (acc : Nat) (pairs : List (Block × Block)) : Nat :=
  let a := f32.decode acc
  if a.isNan || pairs.any (fun p => p.1.eff == 0xFF || p.2.eff == 0xFF) then f32.canonNan
  else match a with
  | .fin d0 =>
    let terms := d0 :: pairs.map fun (x, y) =>
      (Dy.sum .rne ((x.vals.zip y.vals).map fun (p, q) => p.mul q)).scale
        ((x.eff : Int) + y.eff - 254)
    let nz := terms.filter fun t => t.mag != 0
    match nz with
    | [] => 0
    | t0 :: _ =>
      let e := nz.foldl (fun m t => max m t.log2) t0.log2
      let u := e - 27
      let z := nz.foldl (fun s t => s + truncAt t u) (0 : Int)
      f32.round (.fin (Dy.ofInt z u)) .rne 0
  | _ => acc

/-- `TWOSUM(a, b)` on FP32 codes (R73): the sum and its error. -/
def twoSum (a b : Nat) : Nat × Nat :=
  let ex := Val.sum .rne [f32.decode a, f32.decode b]
  let s := f32.round ex .rne 0
  match f32.decode s with
  | .fin ds => (s, f32.round (Val.sum .rne [ex, .fin ds.neg']) .rne 0)
  | _ => (s, 0)

/-- `CACC(hi, lo, p, q)` on FP32 codes and exact products (R73). -/
def cacc (hi lo : Nat) (p q : Val) : Nat × Nat :=
  let e := Val.sum .rne [p, q]
  if e.isNan || (f32.decode hi).isNan || (f32.decode lo).isNan then (f32.canonNan, f32.canonNan)
  else
    let x := f32.round e .rne 0
    let d := match f32.decode x with
      | .fin dx => f32.round (Val.sum .rne [e, .fin dx.neg']) .rne 0
      | _ => 0
    let (s, err) := twoSum hi x
    match f32.decode s with
    | .inf _ => (s, 0)
    | _ => (s, f32.round (Val.sum .rne [f32.decode lo, f32.decode err, f32.decode d]) .rne 0)

/-- Whether `a` orders below `b`, with −0 below +0 (R74). -/
def Val.below (a b : Val) : Bool :=
  match a, b with
  | .nan, _ => false
  | _, .nan => false
  | .inf s, .inf t => s && !t
  | .inf s, .fin _ => s
  | .fin _, .inf t => !t
  | .fin x, .fin y =>
    if x.mag = 0 ∧ y.mag = 0 then x.neg && !y.neg else x.lt y

/-- MAXP, MINP (R74) on codes of a format. -/
def maxP (f : FFmt) (isMax : Bool) (x y : Nat) : Nat :=
  let a := f.decode x
  let b := f.decode y
  if a.isNan || b.isNan then f.canonNan
  else if isMax then (if a.below b then y else x) else (if b.below a then y else x)
/-- MAXN, MINN (R74). -/
def maxN (f : FFmt) (isMax : Bool) (x y : Nat) : Nat :=
  let a := f.decode x
  let b := f.decode y
  if a.isNan && b.isNan then f.canonNan
  else if a.isNan then y
  else if b.isNan then x
  else if isMax then (if a.below b then y else x) else (if b.below a then y else x)
/-- MAXI, MINI (R74): `old` is kept when the values are equal. -/
def maxI (f : FFmt) (isMax : Bool) (old new : Nat) : Nat :=
  match f.decode old, f.decode new with
  | _, .nan => old
  | .nan, _ => new
  | a, b =>
    let zz := match a, b with
      | .fin x, .fin y => x.mag == 0 && y.mag == 0
      | _, _ => false
    if zz then old
    else if isMax then (if a.below b then new else old) else (if b.below a then new else old)
/-- MAXA (R74): the larger magnitude, sign cleared. -/
def maxA (f : FFmt) (old new : Nat) : Nat :=
  if (f.decode old).isNan || (f.decode new).isNan then f.canonNan
  else max (old % f.signBit) (new % f.signBit)

end Sys2Proof.Machine
end

