-- ==== Sys2Proof/Machine/Flags.lean ====
section
/-! DEFINITION. The sticky status flags (R24) and every integer, packed, comparison and conversion
computation that sets one: the pure results of IALU, IIMM, ICMP, QMISC, PACK, QDOT, FALU and CVT
(R79 to R88, R95, R101 to R120). -/
namespace Sys2Proof.Machine

/-- The flags an instruction sets in the status word (R24). -/
structure Flags where
  sat : Bool := false
  dz : Bool := false
  clamp : Bool := false
  snan : Bool := false
  deriving DecidableEq, Repr
/-- The status bits of a set of flags: SAT 0, DZ 1, CLAMP 2, SNAN 3 (R24). -/
def Flags.word (f : Flags) : Word :=
  BitVec.ofNat 32 (bit01 f.sat + 2 * bit01 f.dz + 4 * bit01 f.clamp + 8 * bit01 f.snan)
/-- OR of two flag sets (R24). -/
def Flags.or (f g : Flags) : Flags := ⟨f.sat || g.sat, f.dz || g.dz, f.clamp || g.clamp, f.snan || g.snan⟩
/-- Any flag set. -/
def Flags.any (f : Flags) : Bool := f.sat || f.dz || f.clamp || f.snan

/-- A computed result: its value, and the flags it sets. -/
structure Res where
  v : Nat
  fl : Flags := {}
  deriving DecidableEq, Repr
/-- A result without flags. -/
def Res.of (v : Nat) : Res := ⟨v, {}⟩

/-! ### Integer operations (R81): `w` is the width, `u` unsigned. -/

/-- Saturating narrowing of an exact integer, SAT when it changes the value (R81). -/
def satRes (w : Nat) (u : Bool) (x : Int) : Res :=
  let lo : Int := if u then 0 else -((2 ^ (w - 1) : Nat) : Int)
  let hi : Int := if u then ((2 ^ w - 1 : Nat) : Int) else ((2 ^ (w - 1) - 1 : Nat) : Int)
  let y := satI x lo hi
  ⟨wrapI w y, { sat := decide (y ≠ x) }⟩
/-- The value of an operand as signed or unsigned. -/
def asInt (w : Nat) (u : Bool) (a : Nat) : Int := if u then (a : Int) else sgn w a
def aluAdd (w : Nat) (u s : Bool) (a b : Nat) : Res :=
  if s then satRes w u (asInt w u a + asInt w u b) else .of (trunc w (a + b))
def aluSub (w : Nat) (u s : Bool) (a b : Nat) : Res :=
  if s then satRes w u (asInt w u a - asInt w u b) else .of (wrapI w ((a : Int) - b))
def aluMul (w a b : Nat) : Res := .of (trunc w (a * b))
def aluMulh (w : Nat) (u : Bool) (a b : Nat) : Res :=
  .of (wrapI w (floorShift (asInt w u a * asInt w u b) w))
/-- Division (R81): by zero 0 and DZ; the signed overflow case gives the largest value and SAT. -/
def aluDiv (w : Nat) (u : Bool) (a b : Nat) : Res :=
  if b = 0 then ⟨0, { dz := true }⟩
  else if u then .of (a / b)
  else if sgn w a = -((2 ^ (w - 1) : Nat) : Int) ∧ sgn w b = -1 then ⟨2 ^ (w - 1) - 1, { sat := true }⟩
  else .of (wrapI w (Int.tdiv (sgn w a) (sgn w b)))
def aluRem (w : Nat) (u : Bool) (a b : Nat) : Res :=
  if b = 0 then ⟨0, { dz := true }⟩
  else if u then .of (a % b)
  else .of (wrapI w (Int.tmod (sgn w a) (sgn w b)))
def aluMin (w : Nat) (u : Bool) (a b : Nat) : Res := .of (if asInt w u a ≤ asInt w u b then a else b)
def aluMax (w : Nat) (u : Bool) (a b : Nat) : Res := .of (if asInt w u a ≤ asInt w u b then b else a)
def aluAbs (w a : Nat) : Res := .of (trunc w (sgn w a).natAbs)
def aluNeg (w a : Nat) : Res := .of (wrapI w (-(a : Int)))
def aluAnd (a b : Nat) : Res := .of (a &&& b)
def aluOr (a b : Nat) : Res := .of (a ||| b)
def aluXor (a b : Nat) : Res := .of (a ^^^ b)
def aluAndn (w a b : Nat) : Res := .of (a &&& (2 ^ w - 1 - trunc w b))
def aluNot (w a : Nat) : Res := .of (2 ^ w - 1 - trunc w a)
def aluShl (w a b : Nat) : Res := .of (trunc w (a <<< (b % w)))
def aluShr (w a b : Nat) : Res := .of (a >>> (b % w))
def aluSar (w a b : Nat) : Res := .of (wrapI w (floorShift (sgn w a) (b % w)))
def aluRol (w a b : Nat) : Res := .of (trunc w (a <<< (b % w)) + a >>> (w - b % w))
def aluRor (w a b : Nat) : Res := .of (a >>> (b % w) + trunc w (a <<< (w - b % w)))
def aluClz (w a : Nat) : Res := .of (leadZeros w a)
def aluCtz (w a : Nat) : Res := .of (trailZeros w a)
def aluPopc (w a : Nat) : Res := .of (popCount w a)
def aluBrev (w a : Nat) : Res := .of (bitReverse w a)
def aluBswap (w a : Nat) : Res := .of (byteReverse (w / 8) a)
/-- Position and length of a field descriptor (R82). -/
def fieldPos (x : Nat) : Nat := bits x 7 0
def fieldLen (w x : Nat) : Nat := min (bits x 15 8) w
/-- Bit-field extract (R82). -/
def aluBfe (w : Nat) (u : Bool) (a b : Nat) : Res :=
  let len := fieldLen w b
  let f := trunc len (a >>> fieldPos b)
  .of (if len = 0 then 0 else if u then f else sext len w f)
/-- Bit-field insert at 32 bits (R95). -/
def aluBfi (a b c : Nat) : Res :=
  let m := trunc 32 ((2 ^ fieldLen 32 c - 1) <<< fieldPos c)
  .of ((a &&& (2 ^ 32 - 1 - m)) ||| (trunc 32 (b <<< fieldPos c) &&& m))
def aluMad (a b c : Nat) : Res := .of (trunc 32 (a * b + c))
/-- `lea` (R81): `a` at 64 bits; the 32-bit offset is sign-extended. -/
def aluLea (wide : Bool) (a b : Nat) : Res :=
  .of (trunc 64 (a + (if wide then b else sext 32 64 b)))
/-- Rounding right shift (R81). -/
def aluShrr (w : Nat) (u : Bool) (a b : Nat) : Res :=
  let c := b % w
  .of (if c = 0 then a else wrapI w (floorShift (asInt w u a + (2 ^ (c - 1) : Nat)) c))

/-! ### Comparisons (R86, R87) -/

/-- The conditions of R42. -/
inductive Cond where
  | eq | ne | lt | le | gt | ge | un | or
  deriving DecidableEq, Repr
def Cond.code : Cond → Nat
  | .eq => 0 | .ne => 1 | .lt => 2 | .le => 3 | .gt => 4 | .ge => 5 | .un => 6 | .or => 7
def condOf (n : Nat) : Cond := [Cond.eq, .ne, .lt, .le, .gt, .ge, .un, .or].getD n .or
/-- An integer comparison. -/
def icmpC (c : Cond) (x y : Int) : Bool :=
  match c with
  | .eq => x = y | .ne => x ≠ y | .lt => x < y | .le => x ≤ y | .gt => x > y | .ge => x ≥ y
  | .un => false | .or => true
/-- Value order with −0 = +0. -/
def Val.ltv (a b : Val) : Bool :=
  match a, b with
  | .fin x, .fin y => x.lt y
  | a, b => a.below b
def Val.eqv (a b : Val) : Bool :=
  match a, b with
  | .fin x, .fin y => x.eq y
  | .inf s, .inf t => s == t
  | _, _ => false
/-- A floating comparison (R86). -/
def fcmpC (f : FFmt) (c : Cond) (x y : Nat) : Bool :=
  let a := f.decode (trunc f.width x)
  let b := f.decode (trunc f.width y)
  let nan := a.isNan || b.isNan
  match c with
  | .un => nan
  | .or => !nan
  | .ne => nan || !a.eqv b
  | .eq => !nan && a.eqv b
  | .lt => !nan && a.ltv b
  | .le => !nan && (a.ltv b || a.eqv b)
  | .gt => !nan && b.ltv a
  | .ge => !nan && (b.ltv a || a.eqv b)
/-- The class index of R87. -/
def fclassIdx (f : FFmt) (x : Nat) : Nat :=
  let x := trunc f.width x
  let s := bitAt x (f.ebits + f.mbits)
  let mag := x % f.signBit
  if f.infCode < mag then 8
  else if mag = f.infCode then (if s then 0 else 7)
  else if mag = 0 then (if s then 3 else 4)
  else if mag < 2 ^ f.mbits then (if s then 2 else 5)
  else (if s then 1 else 6)
def fclassC (f : FFmt) (x mask : Nat) : Bool := bitAt mask (fclassIdx f x)
/-- The operations of `plog` (R88). -/
inductive PLog where
  | and | or | xor | andn
  deriving DecidableEq, Repr
def PLog.code : PLog → Nat
  | .and => 0 | .or => 1 | .xor => 2 | .andn => 3
def plogOf (n : Nat) : PLog := [PLog.and, .or, .xor, .andn].getD n .andn
def plogC (o : PLog) (x y : Bool) : Bool :=
  match o with
  | .and => x && y | .or => x || y | .xor => xor x y | .andn => x && !y
/-- The combine of a compare (R85). -/
inductive Comb where
  | set | and | or
  deriving DecidableEq, Repr
def Comb.code : Comb → Nat
  | .set => 0 | .and => 1 | .or => 2
def combC (k : Comb) (old c : Bool) : Bool :=
  match k with
  | .set => c | .and => old && c | .or => old || c

/-! ### Floating-point operations (R101 to R106, R113, R114, R118, R120) -/

/-- Lane float types (R42, FALU). -/
inductive FTy where
  | f32 | f16 | bf16 | f16x2 | bf16x2
  deriving DecidableEq, Repr
def FTy.code : FTy → Nat
  | .f32 => 0 | .f16 => 1 | .bf16 => 2 | .f16x2 => 3 | .bf16x2 => 4
def FTy.fmt : FTy → FFmt
  | .f32 => Machine.f32 | .f16 => Machine.f16 | .bf16 => Machine.bf16
  | .f16x2 => Machine.f16 | .bf16x2 => Machine.bf16
def FTy.packed : FTy → Bool
  | .f16x2 | .bf16x2 => true
  | _ => false
/-- How a lane rounds: mode, seed and the position of element `e` (R102). -/
structure Rnd where
  mode : RMode
  seed : Nat
  pos : Nat
  deriving DecidableEq, Repr
/-- The `SRBITS` value of element `e`: `POS(e)` has `4 × LID + e` in its low word (R102). -/
def Rnd.bits (r : Rnd) (e : Nat) : Nat :=
  srBits r.seed ((r.pos >>> 32) <<< 32 + (r.pos + e) % 2 ^ 32)
/-- Apply an element function over a type: both halves when packed (R101, R104). -/
def overTy (t : FTy) (f : Nat → Nat) : Nat :=
  if t.packed then f 0 + f 1 <<< 16 else f 0
/-- Element `e` of an operand of type `t` (R101). -/
def elemOf (t : FTy) (x e : Nat) : Nat :=
  if t.packed then bits x (16 * e + 15) (16 * e) else trunc t.fmt.width x
def fpAdd (t : FTy) (r : Rnd) (a b : Nat) : Nat :=
  overTy t fun e => t.fmt.round (Val.sum r.mode [t.fmt.decode (elemOf t a e), t.fmt.decode (elemOf t b e)]) r.mode (r.bits e)
/-- `fsub`: the operands whose zero signs decide a zero's sign are a and −b (DESIGN CHOICE, log entry 76; R103). -/
def fpSub (t : FTy) (r : Rnd) (a b : Nat) : Nat :=
  overTy t fun e => t.fmt.round (Val.sum r.mode [t.fmt.decode (elemOf t a e), (t.fmt.decode (elemOf t b e)).neg]) r.mode (r.bits e)
def fpMul (t : FTy) (r : Rnd) (a b : Nat) : Nat :=
  overTy t fun e => t.fmt.round ((t.fmt.decode (elemOf t a e)).mul (t.fmt.decode (elemOf t b e))) r.mode (r.bits e)
def fpMaxP (t : FTy) (isMax : Bool) (a b : Nat) : Nat := overTy t fun e => maxP t.fmt isMax (elemOf t a e) (elemOf t b e)
def fpMaxN (t : FTy) (isMax : Bool) (a b : Nat) : Nat := overTy t fun e => maxN t.fmt isMax (elemOf t a e) (elemOf t b e)
def fpAbs (t : FTy) (a : Nat) : Nat := overTy t fun e => elemOf t a e % t.fmt.signBit
def fpNeg (t : FTy) (a : Nat) : Nat := overTy t fun e => elemOf t a e ^^^ t.fmt.signBit
def fpCopysign (t : FTy) (a b : Nat) : Nat :=
  overTy t fun e => elemOf t a e % t.fmt.signBit + bit01 (bitAt (elemOf t b e) (t.fmt.width - 1)) * t.fmt.signBit
/-- Rounding to an integral value of the same format (R104). -/
def fpRound (t : FTy) (r : Rnd) (a : Nat) : Nat :=
  overTy t fun e =>
    let x := elemOf t a e
    match t.fmt.decode x with
    | .nan => t.fmt.canonNan
    | .inf _ => x
    | .fin d =>
      if 0 ≤ d.exp then x
      else t.fmt.round (.fin ⟨d.neg, roundAt d 0 r.mode (r.bits e), 0, false⟩) .rne 0
/-- Fused multiply-add; `neg` negates the product (R106). -/
def fpFma (t : FTy) (neg : Bool) (r : Rnd) (a b c : Nat) : Nat :=
  overTy t fun e =>
    let p := (t.fmt.decode (elemOf t a e)).mul (t.fmt.decode (elemOf t b e))
    t.fmt.round (Val.sum r.mode [if neg then p.neg else p, t.fmt.decode (elemOf t c e)]) r.mode (r.bits e)
/-- Two-element dot product (R118). -/
def fpDot2 (t : FTy) (r : Rnd) (a b c : Nat) : Nat :=
  let p e := (t.fmt.decode (elemOf t a e)).mul (t.fmt.decode (elemOf t b e))
  f32.round (Val.sum r.mode [f32.decode (trunc 32 c), p 0, p 1]) r.mode (r.bits 0)
/-- Complex multiply-accumulate; `conj` conjugates B (R120). -/
def fpCfma (conj : Bool) (a b c : Nat) : Nat :=
  let re x := f32.decode (bits x 31 0)
  let im x := f32.decode (bits x 63 32)
  let rr := (re a).mul (re b)
  let ii := (im a).mul (im b)
  let ri := (re a).mul (im b)
  let ir := (im a).mul (re b)
  let (rh, rl) := cacc (bits c 31 0) (bits c 63 32) rr (if conj then ii else ii.neg)
  let (ih, il) := cacc (bits c 95 64) (bits c 127 96) (if conj then ri.neg else ri) ir
  rh + rl <<< 32 + ih <<< 64 + il <<< 96
def fpLdexp (t : FTy) (r : Rnd) (a : Nat) : Nat :=
  let n := sgn 32 (bits a 63 32)
  let x := trunc t.fmt.width a
  match t.fmt.decode x with
  | .nan => t.fmt.canonNan
  | .inf _ => x
  | .fin d => if d.mag = 0 then x else
      -- beyond ±2000 every result overflows or underflows alike
      t.fmt.round (.fin (d.scale (satI n (-2000) 2000))) r.mode (r.bits 0)
def fpExpo (t : FTy) (a : Nat) : Nat :=
  match t.fmt.decode (trunc t.fmt.width a) with
  | .nan | .inf _ => 0x7FFFFFFF
  | .fin d => if d.mag = 0 then 0x80000000 else wrapI 32 d.log2

/-! ### Conversions (R75, R110 to R112, R114) -/

/-- A floating conversion between scalar formats (R110). -/
def cvtF (src dst : FFmt) (r : Rnd) (e : Nat) (x : Nat) : Nat :=
  dst.round (src.decode (trunc src.width x)) r.mode (r.bits e)
/-- Integer to float (R110). -/
def cvtIF (w : Nat) (u : Bool) (dst : FFmt) (r : Rnd) (x : Nat) : Nat :=
  dst.round (.fin (Dy.ofInt (asInt w u (trunc w x)) 0)) r.mode (r.bits 0)
/-- Float to integer of width `w` (R111). -/
def cvtFI (src : FFmt) (w : Nat) (u : Bool) (r : Rnd) (x : Nat) : Res :=
  let lo : Int := if u then 0 else -((2 ^ (w - 1) : Nat) : Int)
  let hi : Int := if u then ((2 ^ w - 1 : Nat) : Int) else ((2 ^ (w - 1) - 1 : Nat) : Int)
  match src.decode (trunc src.width x) with
  | .nan => ⟨0, { clamp := true }⟩
  | .inf s => ⟨wrapI w (if s then lo else hi), { clamp := true }⟩
  | .fin d =>
    let n : Int := (roundAt d 0 r.mode (r.bits 0) : Nat)
    let n := if d.neg then -n else n
    let y := satI n lo hi
    ⟨wrapI w y, { clamp := decide (y ≠ n) }⟩
/-- Quantise one value against a scale (R112). -/
def cvtQnt (src : FFmt) (f : EFmt) (c : Nat) (r : Rnd) (x : Nat) : Res :=
  if c = 0xFF then .of 0
  else
    let (code, cl) := enc f ((src.decode (trunc src.width x)).scale (127 - c)) r.mode (r.bits 0)
    ⟨code, { clamp := cl }⟩
/-- Dequantise one code against a scale (R112). -/
def cvtDqnt (f : EFmt) (dst : FFmt) (c : Nat) (r : Rnd) (x : Nat) : Res :=
  .of (dst.round (scaled (dec f (trunc f.bits x)) c) r.mode (r.bits 0))
/-- Round to a narrower float format, widened back (R114). -/
def cvtSrndF (dst : FFmt) (r : Rnd) (x : Nat) : Res :=
  .of (f32.round (dst.decode (dst.round (f32.decode (trunc 32 x)) r.mode (r.bits 0))) .rne 0)
/-- Round to an element format, widened back (R114). -/
def cvtSrndE (f : EFmt) (r : Rnd) (x : Nat) : Res :=
  match f32.decode (trunc 32 x) with
  | .nan => .of f32.canonNan
  | v =>
    let (code, cl) := enc f v r.mode (r.bits 0)
    ⟨f32.round (.fin (dec f code)) .rne 0, { clamp := cl }⟩

/-! ### Packed integers (R115 to R117) -/

/-- Element width. -/
def packW (e8 : Bool) : Nat := if e8 then 8 else 16
/-- The number of elements. -/
def packN (e8 : Bool) : Nat := if e8 then 4 else 2
/-- Element `k`, signed or unsigned (R115). -/
def packEl (ew : Nat) (u : Bool) (x k : Nat) : Int := asInt ew u (bits x (ew * k + ew - 1) (ew * k))
/-- Assemble exact elements into one word, saturating or wrapping (R115). -/
def packOut (ew : Nat) (u s : Bool) (xs : List Int) : Res :=
  let rs := xs.map fun x => if s then satRes ew u x else Res.of (wrapI ew x)
  ⟨rs.zipIdx.foldl (fun acc (r, k) => acc + r.v <<< (ew * k)) 0, { sat := rs.any (·.fl.sat) }⟩
/-- An elementwise packed operation. -/
def packMap (e8 u s : Bool) (f : Int → Int → Int) (a b : Nat) : Res :=
  packOut (packW e8) u s ((List.range (packN e8)).map fun k => f (packEl (packW e8) u a k) (packEl (packW e8) u b k))
def packShr (e8 u : Bool) (a b : Nat) : Res :=
  let ew := packW e8
  packOut ew u false ((List.range (packN e8)).map fun k =>
    floorShift (packEl ew u a k) ((packEl ew true b k).toNat % ew))
def packPack (e8 u s : Bool) (a b : Nat) : Res :=
  if e8 then packOut 8 u s [packEl 16 u a 0, packEl 16 u a 1, packEl 16 u b 0, packEl 16 u b 1]
  else packOut 16 u s [asInt 32 u (trunc 32 a), asInt 32 u (trunc 32 b)]
def packUnpk (e8 u : Bool) (hi : Bool) (a : Nat) : Res :=
  let b := if hi then 1 else 0
  if e8 then packOut 16 u false [packEl 8 u a (2 * b), packEl 8 u a (2 * b + 1)]
  else .of (wrapI 32 (packEl 16 u a b))
def packAbs (e8 s : Bool) (a : Nat) : Res :=
  packOut (packW e8) false s ((List.range (packN e8)).map fun k => ((packEl (packW e8) false a k).natAbs : Int))
/-- Packed multiply-accumulate (R117). -/
def packMac (e8 : Bool) (a b c : Nat) : Res :=
  satRes 32 false (sgn 32 c + ((List.range (packN e8)).map fun k =>
    packEl (packW e8) false a k * packEl (packW e8) false b k).foldl (· + ·) 0)

end Sys2Proof.Machine
end

