-- ==== Sys2Proof/Machine/CrossOps.lean ====
section
/-! DEFINITION. The pure cross-lane and block computations (R164 to R176).  A row holds one entry per
lane of the group, `none` for a lane outside the executing set. -/
namespace Sys2Proof.Machine

/-- One operand of the 32 lanes; `none` outside the executing set (R165). -/
abbrev Row := List (Option Nat)
/-- E(m): the operand of lane `m`, 0 outside the executing set (R165). -/
def Row.e (r : Row) (m : Nat) : Nat := ((r[m]?).join).getD 0
/-- Element `e` of the 64-element row of 16-bit halves (R168). -/
def Row.half (r : Row) (e : Nat) : Nat := bits (r.e (e / 2)) (16 * (e % 2) + 15) (16 * (e % 2))

/-- The fills of R42 (XLANE). -/
inductive Fill where
  | zero | edge | carry | wrap
  deriving DecidableEq, Repr
def Fill.code : Fill → Nat
  | .zero => 0 | .edge => 1 | .carry => 2 | .wrap => 3

/-- `slide.up` and `slide.dn` in lane `l`: 32 bits, or 64 under carry (R168). -/
def slideLane (up : Bool) (fill : Fill) (e f : Row) (l : Nat) : Nat :=
  let first := if up then 0 else 31
  let last := if up then 31 else 0
  let prev := if up then l - 1 else l + 1
  let lo := if l ≠ first then e.e prev else
    match fill with
    | .zero => 0
    | .edge => e.e first
    | .wrap => e.e last
    | .carry => f.e last
  match fill with
  | .carry => lo + (if l ≠ first then f.e prev else 0) <<< 32
  | _ => lo
/-- `slide.h` in lane `l` (R168). -/
def slideH (fill : Fill) (x y : Row) (l : Nat) : Nat :=
  let el (i : Nat) : Nat := if i ≠ 0 then x.half (i - 1) else
    match fill with
    | .zero => 0
    | .edge => x.half 0
    | .wrap => x.half 63
    | .carry => y.half 63
  let yh (i : Nat) : Nat := if i ≠ 0 then y.half (i - 1) else 0
  let lo := el (2 * l) + el (2 * l + 1) <<< 16
  match fill with
  | .carry => lo + (yh (2 * l) + yh (2 * l + 1) <<< 16) <<< 32
  | _ => lo

/-- The reduction operators of R42 and R170. -/
inductive RedOp where
  | add | minS | maxS | minU | maxU | addF | minF | maxF
  deriving DecidableEq, Repr
def RedOp.code : RedOp → Nat
  | .add => 0 | .minS => 1 | .maxS => 2 | .minU => 3 | .maxU => 4 | .addF => 5 | .minF => 6 | .maxF => 7
def redOpOf (n : Nat) : RedOp :=
  [RedOp.add, .minS, .maxS, .minU, .maxU, .addF, .minF, .maxF].getD n .maxF
/-- One combination, `x` first (R170). -/
def RedOp.ap (o : RedOp) (x y : Nat) : Nat :=
  match o with
  | .add => (x + y) % 2 ^ 32
  | .minS => (aluMin 32 false x y).v
  | .maxS => (aluMax 32 false x y).v
  | .minU => (aluMin 32 true x y).v
  | .maxU => (aluMax 32 true x y).v
  | .addF => f32.round (Val.sum .rne [f32.decode x, f32.decode y]) .rne 0
  | .minF => maxN f32 false x y
  | .maxF => maxN f32 true x y
/-- Combination with absent entries (R170). -/
def RedOp.opt (o : RedOp) : Option Nat → Option Nat → Option Nat
  | x, none => x
  | none, y => y
  | some x, some y => some (o.ap x y)
/-- One level of TREE: neighbours combine. -/
def pairUp (o : RedOp) : Row → Row
  | a :: b :: rest => o.opt a b :: pairUp o rest
  | r => r
/-- TREE over the whole row of `2^k` positions (R170). -/
def tree (o : RedOp) : Nat → Row → Option Nat
  | 0, r => r.head?.join
  | k + 1, r => tree o k (pairUp o r)
def gred (o : RedOp) (r : Row) : Nat := (tree o 5 r).getD 0
def qred (o : RedOp) (r : Row) (l : Nat) : Nat := (tree o 3 ((r.drop (8 * quarterOf l)).take 8)).getD 0
def gscan (o : RedOp) (r : Row) (l : Nat) : Nat :=
  ((r.take (l + 1)).foldl (fun acc x => o.opt acc x) none).getD 0
/-- The modes of `vote` (R42, R169). -/
inductive VoteOp where
  | any | all | ballot | uniform
  deriving DecidableEq, Repr
def VoteOp.code : VoteOp → Nat
  | .any => 0 | .all => 1 | .ballot => 2 | .uniform => 3
/-- The mask of lanes present whose operand satisfies `p`. -/
def Row.mask (r : Row) (p : Nat → Bool) : Nat :=
  r.zipIdx.foldl (fun acc (x, m) => match x with
    | some v => if p v then acc + 2 ^ m else acc
    | none => acc) 0
def voteOp (o : VoteOp) (r : Row) : Nat :=
  let present := r.filterMap id
  match o with
  | .any => bit01 (present.any (· != 0))
  | .all => bit01 (present.all (· != 0))
  | .ballot => r.mask (· != 0)
  | .uniform => bit01 (present.all fun v => v == present.headD 0)
def matchOp (r : Row) (l : Nat) : Nat := r.mask (· == r.e l)
/-- The lowest lane of the executing set. -/
def Row.lead (r : Row) : Nat := (r.findIdx? (·.isSome)).getD 0

/-! ### BLOCK (R171 to R176) -/

/-- Elements per lane (R171). -/
def blkN (f : EFmt) : Nat := if f = .e2m1 then 8 else 4
/-- The block of a lane (R171). -/
def blkOf (f : EFmt) (l : Nat) : Nat := if f = .e2m1 then (l % 8) / 4 else 0
/-- The blocks of a quarter. -/
def blksOf (f : EFmt) : List Nat := if f = .e2m1 then [0, 1] else [0]
/-- The members M(q, b) (R171). -/
def blkMembers (f : EFmt) (q b : Nat) : List Nat :=
  if f = .e2m1 then (List.range 4).map (8 * q + 4 * b + ·) else (List.range 8).map (8 * q + ·)
/-- The members in the executing set. -/
def blkPresent (f : EFmt) (q b : Nat) (r : Row) : List Nat :=
  (blkMembers f q b).filter fun m => ((r[m]?).join).isSome
/-- The leader's value of an operand (R171). -/
def blkLead (f : EFmt) (q b : Nat) (es r : Row) : Nat :=
  match blkPresent f q b es with
  | m :: _ => r.e m
  | [] => 0
/-- Element `k` of a real source: its code (R171). -/
def realCode (f : EFmt) (x k : Nat) : Nat :=
  if f = .e2m1 then bits x (16 * k + 15) (16 * k) else bits x (32 * k + 31) (32 * k)
def realFmt (f : EFmt) : FFmt := if f = .e2m1 then bf16 else f32
def realVal (f : EFmt) (x k : Nat) : Val := (realFmt f).decode (realCode f x k)
/-- Element `k` of a code source (R60, R171). -/
def codeAt (f : EFmt) (x k : Nat) : Nat :=
  if f = .e2m1 then bits x (4 * k + 3) (4 * k) else trunc f.bits (bits x (8 * k + 7) (8 * k))
/-- Assemble codes into a lane's word (R60). -/
def codesWord (f : EFmt) (cs : List Nat) : Nat :=
  cs.zipIdx.foldl (fun acc (c, k) => acc + c <<< ((if f = .e2m1 then 4 else 8) * k)) 0
/-- `bmax` in lane `l`: an FP32 code (R173). -/
def bmaxLane (f : EFmt) (a : Row) (l : Nat) : Nat :=
  (blkPresent f (quarterOf l) (blkOf f l) a).foldl (fun d m =>
    (List.range (blkN f)).foldl (fun d k =>
      maxA f32 d (f32.round (realVal f (a.e m) k) .rne 0)) d) 0
/-- `bscale` (R173). -/
def bscaleLane (f : EFmt) (pol : Nat) (a : Nat) : Res :=
  match f32.decode (a % 2 ^ 31) with
  | .fin d => if d.mag = 0 then .of 0 else .of (scaleOf f d pol).1
  | _ => ⟨0xFF, { snan := true }⟩
/-- The scale slot `bqnt` gives a block: 0xFF when a present element is not finite (R173). -/
def bqntScale (f : EFmt) (q b : Nat) (a : Row) (c : Nat) : Nat :=
  if c = 0xFF || (blkPresent f q b a).any (fun m => (List.range (blkN f)).any fun k =>
      match realVal f (a.e m) k with | .fin _ => false | _ => true) then 0xFF else c
/-- The rounding of a lane's block elements: `pos` of element 0 (R175). -/
def bposBits (r : Rnd) (k : Nat) : Nat := r.bits k
/-- `bqnt` in a lane whose block takes scale `c` (R173, R176). -/
def bqntLane (f : EFmt) (c : Nat) (r : Rnd) (a : Nat) : Res :=
  if c = 0xFF then ⟨0, { snan := true }⟩
  else
    let es := (List.range (blkN f)).map fun k => enc f ((realVal f a k).scale (127 - (c : Int))) r.mode (bposBits r k)
    ⟨codesWord f (es.map (·.1)), { clamp := es.any (·.2) }⟩
/-- `bdqnt` in a lane (R174): the 128-bit quad. -/
def bdqntLane (f : EFmt) (c : Nat) (a : Nat) : Nat :=
  let t := realFmt f
  (List.range (blkN f)).foldl (fun acc k =>
    acc + (t.round (scaled (dec f (codeAt f a k)) c) .rne 0) <<< (t.width * k)) 0
/-- The slot `bshift` leaves, and whether it clamped (R174, R176). -/
def bshiftScale (c s : Nat) : Nat × Bool :=
  if c = 0xFF then (0xFF, false)
  else
    let x := (c : Int) + sgn 8 s
    ((satI x 0 254).toNat, decide (satI x 0 254 ≠ x))
/-- `brescale` in a lane (R174, R176). -/
def brescaleLane (f : EFmt) (c c' : Nat) (r : Rnd) (a : Nat) : Res :=
  if c = 0xFF || c' = 0xFF then ⟨0, { snan := true }⟩
  else
    let es := (List.range (blkN f)).map fun k =>
      enc f (.fin ((dec f (codeAt f a k)).scale ((c : Int) - c'))) r.mode (bposBits r k)
    ⟨codesWord f (es.map (·.1)), { clamp := es.any (·.2) }⟩
/-- The block of codes of a quarter's members, absent lanes' codes zero (R174). -/
def codeBlock (f : EFmt) (q b : Nat) (r : Row) (c : Nat) : Block :=
  ⟨c, (blkMembers f q b).flatMap fun m =>
    (List.range (blkN f)).map fun k => some (dec f (codeAt f (r.e m) k))⟩
/-- `bdot` for a quarter (R174): `sa b` and `sb b` are the scales of block `b`. -/
def bdotQuarter (f : EFmt) (q : Nat) (a b : Row) (sa sb : Nat → Nat) : Nat :=
  wsum 0 (((blksOf f).filter fun k => !(blkPresent f q k a).isEmpty).map fun k =>
    (codeBlock f q k a (sa k), codeBlock f q k b (sb k)))

end Sys2Proof.Machine
end

