-- ==== Sys2Proof/Syntax.lean ====
section
/-! DEFINITION. The instruction set as syntax: operand codes, modifiers, the payloads of the events, and the
ONE inductive `Instr` with a constructor for every row of the opcode table. -/
namespace Sys2Proof
open Machine

/-- The pipes of R30. -/
inductive Pipe where
  | i | f | s | m | b | e
  deriving DecidableEq, Repr
/-- A source operand code (R36). -/
inductive Src where
  | n (r : Fin 32) | q (k : Fin 16) | g (r : Fin 8) | zero | ln | lit | mqo | wqi
  deriving DecidableEq, Repr
/-- A destination operand code (R38): `push` is `~`, `drop` is `_`. -/
inductive Dst where
  | n (r : Fin 32) | push | drop | g (r : Fin 8) | mqa | mqb
  deriving DecidableEq, Repr
/-- A raw predicate source (R39). -/
structure PSrc where
  p : BitVec 3
  neg : Bool
  deriving DecidableEq, Repr
/-- A raw predicate destination with its combine bits (R39). -/
structure PDst where
  p : BitVec 3
  comb : BitVec 3
  deriving DecidableEq, Repr
/-- The scopes of R42 and R189. -/
inductive Scope where
  | grp | team | clu | dev | sys | host
  deriving DecidableEq, Repr
/-- The integer atomic operations of R43. -/
inductive AOp where
  | add | minS | minU | maxS | maxU | and | or | xor | xchg
  deriving DecidableEq, Repr
/-- The float atomic operations of R43. -/
inductive AFOp where
  | addF32 | maxF32 | minF32 | maxIeee | minIeee | addF16x2 | addBf16x2 | maxAbs
  deriving DecidableEq, Repr
/-- The output formats of `mdrain` (R42). -/
inductive DrainFmt where
  | f32 | bf16 | e4m3 | e5m2 | i8
  deriving DecidableEq, Repr
/-- The trap causes and the record-only causes (R322, R420). -/
inductive Cause where
  | illegalOp | illegalChain | illegalOperand | privilege | misaligned | pageAbsent | pagePermission
  | aperture | remoteAtomicDenied | modelConflict | queueOrphaned | engineNotReserved | conveneMismatch
  | mooringMisuse | layerWithdrawn | uncorrectable | softwareTrap | windowUnmapped | breakpoint
  | packetRejected | abandoned | recordSkipped | countUnderflow | reflectionError | collectiveFailed
  deriving DecidableEq, Repr

/-! ### Payloads of events -/

/-- What the Keeper's policy does with a parked fault (R323). -/
inductive Service where
  /-- the shipped or loaded policy maps the page with this leaf -/
  | map (leaf : DWord)
  /-- nothing is changed: the lanes re-execute -/
  | retry
  /-- RAP is set in the page's leaf -/
  | setrap
  /-- the page is moved to a local frame, of aperture 1 where `vault` says so -/
  | migrate (vault : Bool)
  /-- the layer is requested (R341) -/
  | request
  /-- the lanes take the trap -/
  | deliver
  /-- the grid is aborted -/
  | abort
  /-- nothing is chosen yet -/
  | leave
  deriving DecidableEq, Repr
/-- Bytes of a layer as its source brings them: offset in the layer, bytes, and sideband slots by sector. -/
structure LayerBytes where
  off : Nat
  bytes : List Byte
  side : List (Nat × Byte × Byte)
  deriving DecidableEq, Repr
/-- A reflected store on its way to a receive window (R355): byte offset, bytes, and for block stores the
slots written as (sector offset, slot, value), the issuing group's batch, the acknowledgement mode, and how many of its
leading bytes are poisoned. -/
structure Reflect where
  src : Nat
  path : Nat
  rxid : Nat
  off : Nat
  bytes : List Byte
  side : List (Nat × Nat × Byte)
  batch : Nat
  ack : Nat
  bad : Nat
  /-- places of the run that the store did not write: a block store of some of its lanes (R131) -/
  gaps : List Nat := []
  deriving DecidableEq, Repr
/-- A reflection that arrives: the next of a path of the device's own loop path, or another device's. -/
inductive ReflArrival where
  | loop (path : Nat)
  | remote (r : Reflect)
  deriving DecidableEq, Repr
/-- A close marker that arrives: the next of the loop path, or another device's, with its number of paths and its batch
(R360). -/
inductive CloseArrival where
  | loop (path : Nat)
  | remote (src path npaths batch : Nat)
  deriving DecidableEq, Repr
/-- The four Beacon operations (R369). -/
inductive BKind where
  | bcas | benq | bchase | bred
  deriving DecidableEq, Repr
/-- A Beacon operation (R367): its target as a frame-numbered physical address, and its block's fields. -/
structure BeaconOp where
  kind : BKind
  src : Nat
  addr : Nat
  rxid : Nat
  rofs : Nat
  cnt : Nat
  rop : Nat
  rkind : Nat
  poff : Nat
  doff : Nat
  opa : Nat
  opb : Nat
  batch : Nat
  deriving DecidableEq, Repr
/-- A Beacon operation that arrives: the next of the loop path, or another device's. -/
inductive BeaconArrival where
  | loop
  | remote (op : BeaconOp)
  deriving DecidableEq, Repr
/-- A collective contribution as it arrives (R378): sender's coordinate, first element, the wire code of each
element and the scale of its block. -/
structure Contribution where
  src : Nat
  e0 : Nat
  codes : List Nat
  scales : List Nat
  deriving DecidableEq, Repr
/-- A host access to HDM 0 (R396). -/
inductive HostAccess where
  | read (n : Nat)
  | write (bytes : List Byte)
  deriving DecidableEq, Repr
/-- The layer source of R336: its pages (virtual address, 256 MiB page) and its leaf template. -/
structure LayerSrc where
  layer : Nat
  pages : List (Nat × Bool)
  rd : Bool
  wr : Bool
  ex : Bool
  key : Nat
  pin : Bool
  /-- the receive entry a peer device's window reflects into; `none` for the host agent -/
  peer : Option Nat
  deriving DecidableEq, Repr
/-- The payload of CTX_CREATE (R398). -/
structure CtxParams where
  root : Nat
  prio : Nat
  eclass : Nat
  nlayer : Nat
  tmbase : Nat
  tvec : DWord
  seed : DWord
  deriving DecidableEq, Repr
/-- The payload of CTX_SET (R398): the fields it changes. -/
structure CtxChange where
  prio : Option Nat
  eclass : Option Nat
  seed : Option DWord
  upmask : Option (BitVec 5)
  fqring : Option DWord
  nfq : Option Nat
  fqnode : Option DWord
  sources : Option (List LayerSrc)
  deriving DecidableEq, Repr
/-- The payload of WIN_SET (R398): an entry number and the entry's bits. -/
inductive WinEntry where
  | tx (k : Nat) (e : BitVec 512)
  | rx (k : Nat) (e : BitVec 256)
  | exposure (k : Nat) (e : BitVec 256)
  | multicast (k : Nat) (ids : List Nat)
  deriving DecidableEq, Repr
/-- The R/W fields of a queue table entry (R288). -/
structure QueueFields where
  base : DWord
  nslot : BitVec 16
  prio : BitVec 4
  en : Bool
  ctx : BitVec 16
  wptr : BitVec 32
  deriving DecidableEq, Repr
/-- What start-up finds (R403, R404): the fused map of logical cores to physical cores, the step that fails if
any, the device id, whether a panel is present, and the vault split of every core. -/
structure StartInputs where
  spares : List Nat
  fails : Option Nat
  devId : BitVec 12
  panel : Bool
  vm : Nat
  deriving DecidableEq, Repr
/-- What the management path reads (R406). -/
inductive MgmtItem where
  | status | corrected | keeperLog | failedCores | temperatures | power
  deriving DecidableEq, Repr

/-- One constructor per row of the opcode table: first the instruction words, `ch` being the chain bit
of R28 (`guard` always has it, R89), then the events of the machine's other agents. -/
inductive Instr where
  /-- NOP (R96): Does nothing; the all-zero word. -/
  | nop (ch : Bool)
  /-- EXIT (R97): Ends the lane, clears its rejoin bits and acts as a device-scope release. -/
  | exit (ch : Bool)
  /-- TRAP (R96): Raises SOFTWARE_TRAP with the given code in taddr. -/
  | trap (ch : Bool) (code : BitVec 6)
  /-- BRK (R96): Raises BREAKPOINT with taddr 0. -/
  | brk (ch : Bool)
  /-- RDSR (R99): Reads a special register as it stood before the chain into D and pushes. -/
  | rdsr (ch : Bool) (d : Dst) (sr : BitVec 6)
  /-- WRSR (R99): Writes a special register at the end of the chain. -/
  | wrsr (ch : Bool) (sr : BitVec 6) (a : Src)
  /-- SLEEP (R96): Stops the lane from issuing for at least the given number of clocks. -/
  | sleep (ch : Bool) (a : Src)
  /-- YIELD (R96): Has no architectural effect; the partition prefers other groups next. -/
  | yield (ch : Bool)
  /-- PRIO (R96): Sets the team's scheduling priority, clamped to its task record's priority. -/
  | prio (ch : Bool) (k : BitVec 4)
  /-- RFE (R319): Privileged return from a trap handler, restoring the queue and predicates from the trap frame. -/
  | rfe (ch : Bool)
  /-- KREQ (R327): Fences, then sends a service request to the Keeper and stalls until it answers. -/
  | kreq (ch : Bool) (d : Dst) (a : Src) (b : Src)
  /-- IADD (R81): Integer add, wrapping or saturating. -/
  | iadd (ch : Bool) (d : Dst) (a : Src) (b : Src) (w : Bool) (u : Bool) (s : Bool)
  /-- ISUB (R81): Integer subtract, wrapping or saturating. -/
  | isub (ch : Bool) (d : Dst) (a : Src) (b : Src) (w : Bool) (u : Bool) (s : Bool)
  /-- IMUL (R81): Integer multiply, low bits of the product. -/
  | imul (ch : Bool) (d : Dst) (a : Src) (b : Src) (w : Bool)
  /-- IMULH (R81): High half of a signed or unsigned product. -/
  | imulh (ch : Bool) (d : Dst) (a : Src) (b : Src) (w : Bool) (u : Bool)
  /-- IDIV (R81): Integer divide, with defined results for division by zero and overflow. -/
  | idiv (ch : Bool) (d : Dst) (a : Src) (b : Src) (w : Bool) (u : Bool)
  /-- IREM (R81): Integer remainder, with a defined result for division by zero. -/
  | irem (ch : Bool) (d : Dst) (a : Src) (b : Src) (w : Bool) (u : Bool)
  /-- IMIN (R81): Smaller of two signed or unsigned integers. -/
  | imin (ch : Bool) (d : Dst) (a : Src) (b : Src) (w : Bool) (u : Bool)
  /-- IMAX (R81): Larger of two signed or unsigned integers. -/
  | imax (ch : Bool) (d : Dst) (a : Src) (b : Src) (w : Bool) (u : Bool)
  /-- IABS (R81): Integer absolute value. -/
  | iabs (ch : Bool) (d : Dst) (a : Src) (w : Bool)
  /-- INEG (R81): Integer negation. -/
  | ineg (ch : Bool) (d : Dst) (a : Src) (w : Bool)
  /-- AND (R81): Bitwise and. -/
  | and (ch : Bool) (d : Dst) (a : Src) (b : Src) (w : Bool)
  /-- OR (R81): Bitwise or. -/
  | or (ch : Bool) (d : Dst) (a : Src) (b : Src) (w : Bool)
  /-- XOR (R81): Bitwise exclusive or. -/
  | xor (ch : Bool) (d : Dst) (a : Src) (b : Src) (w : Bool)
  /-- ANDN (R81): A and not B. -/
  | andn (ch : Bool) (d : Dst) (a : Src) (b : Src) (w : Bool)
  /-- NOT (R81): Bitwise complement. -/
  | not (ch : Bool) (d : Dst) (a : Src) (w : Bool)
  /-- SHL (R81): Shift left by B mod w. -/
  | shl (ch : Bool) (d : Dst) (a : Src) (b : Src) (w : Bool)
  /-- SHR (R81): Logical shift right. -/
  | shr (ch : Bool) (d : Dst) (a : Src) (b : Src) (w : Bool)
  /-- SAR (R81): Arithmetic shift right. -/
  | sar (ch : Bool) (d : Dst) (a : Src) (b : Src) (w : Bool)
  /-- ROL (R81): Rotate left. -/
  | rol (ch : Bool) (d : Dst) (a : Src) (b : Src) (w : Bool)
  /-- ROR (R81): Rotate right. -/
  | ror (ch : Bool) (d : Dst) (a : Src) (b : Src) (w : Bool)
  /-- CLZ (R81): Count leading zero bits. -/
  | clz (ch : Bool) (d : Dst) (a : Src) (w : Bool)
  /-- CTZ (R81): Count trailing zero bits. -/
  | ctz (ch : Bool) (d : Dst) (a : Src) (w : Bool)
  /-- POPC (R81): Count one bits. -/
  | popc (ch : Bool) (d : Dst) (a : Src) (w : Bool)
  /-- BREV (R81): Reverse the bit order. -/
  | brev (ch : Bool) (d : Dst) (a : Src) (w : Bool)
  /-- BSWAP (R81): Reverse the byte order. -/
  | bswap (ch : Bool) (d : Dst) (a : Src) (w : Bool)
  /-- BFE (R82): Extract a bit field, zero- or sign-extended. -/
  | bfe (ch : Bool) (d : Dst) (a : Src) (b : Src) (w : Bool) (u : Bool)
  /-- LEA (R81): 64-bit address add. -/
  | lea (ch : Bool) (d : Dst) (a : Src) (b : Src) (w : Bool)
  /-- MOV (R81): Copy a value, carrying its scale shadow. -/
  | mov (ch : Bool) (d : Dst) (a : Src) (w : Bool)
  /-- SHRR (R81): Rounding shift right. -/
  | shrr (ch : Bool) (d : Dst) (a : Src) (b : Src) (w : Bool) (u : Bool)
  /-- SEL (R83): Selects A where the guard holds and B where it fails, in every active lane. -/
  | sel (ch : Bool) (d : Dst) (a : Src) (b : Src) (w : Bool)
  /-- IADDI (R84): Add a sign-extended immediate. -/
  | iaddi (ch : Bool) (d : Dst) (a : Src) (imm : BitVec 11)
  /-- ANDI (R84): And with an immediate. -/
  | andi (ch : Bool) (d : Dst) (a : Src) (imm : BitVec 11)
  /-- ORI (R84): Or with an immediate. -/
  | ori (ch : Bool) (d : Dst) (a : Src) (imm : BitVec 11)
  /-- XORI (R84): Exclusive or with an immediate. -/
  | xori (ch : Bool) (d : Dst) (a : Src) (imm : BitVec 11)
  /-- SHLI (R84): Shift left by an immediate count. -/
  | shli (ch : Bool) (d : Dst) (a : Src) (h : Bool) (w : Bool) (k : BitVec 5)
  /-- SHRI (R84): Logical shift right by an immediate count. -/
  | shri (ch : Bool) (d : Dst) (a : Src) (h : Bool) (w : Bool) (k : BitVec 5)
  /-- SARI (R84): Arithmetic shift right by an immediate count. -/
  | sari (ch : Bool) (d : Dst) (a : Src) (h : Bool) (w : Bool) (k : BitVec 5)
  /-- MOVI (R84): Load a sign-extended 17-bit immediate. -/
  | movi (ch : Bool) (d : Dst) (imm : BitVec 17)
  /-- ICMP_S (R86): Signed 32-bit compare into a predicate. -/
  | icmpS (ch : Bool) (p : PDst) (a : Src) (b : Src) (cond : Cond)
  /-- ICMP_U (R86): Unsigned 32-bit compare into a predicate. -/
  | icmpU (ch : Bool) (p : PDst) (a : Src) (b : Src) (cond : Cond)
  /-- ICMP_S_W (R86): Signed 64-bit compare into a predicate. -/
  | icmpSW (ch : Bool) (p : PDst) (a : Src) (b : Src) (cond : Cond)
  /-- ICMP_U_W (R86): Unsigned 64-bit compare into a predicate. -/
  | icmpUW (ch : Bool) (p : PDst) (a : Src) (b : Src) (cond : Cond)
  /-- FCMP_F32 (R86): FP32 compare into a predicate. -/
  | fcmpF32 (ch : Bool) (p : PDst) (a : Src) (b : Src) (cond : Cond)
  /-- FCMP_F16 (R86): FP16 compare into a predicate. -/
  | fcmpF16 (ch : Bool) (p : PDst) (a : Src) (b : Src) (cond : Cond)
  /-- FCLASS (R87): Tests a value's class against a mask into a predicate. -/
  | fclass (ch : Bool) (p : PDst) (a : Src) (b : Src) (t : FTy)
  /-- PLOG (R88): Logical operation on two predicates. -/
  | plog (ch : Bool) (p : PDst) (x : PSrc) (y : PSrc) (op : PLog)
  /-- SETP (R88): Sets a predicate from a nonzero test. -/
  | setp (ch : Bool) (p : PDst) (a : Src)
  /-- BRA (R90): Conditional relative branch. -/
  | bra (ch : Bool) (neg : Bool) (p : BitVec 3) (off : BitVec 17)
  /-- BRA_ENROL (R90): Branch that enrols the lane in a rejoin mask. -/
  | braEnrol (ch : Bool) (neg : Bool) (p : BitVec 3) (j : BitVec 3) (off : BitVec 17)
  /-- STRIKE (R90): Branch that removes taken lanes from a rejoin mask. -/
  | strike (ch : Bool) (neg : Bool) (p : BitVec 3) (j : BitVec 3) (off : BitVec 17)
  /-- CALL (R90): Branch that pushes the next packet address. -/
  | call (ch : Bool) (neg : Bool) (p : BitVec 3) (off : BitVec 17)
  /-- BRX (R92): Indirect branch to a 64-bit target. -/
  | brx (ch : Bool) (a : Src)
  /-- JOIN (R93): Parks the lane on a rejoin mask until the release condition holds. -/
  | join (ch : Bool) (j : BitVec 3)
  /-- GUARD (R89): Makes the next word of the chain execute only where the predicate holds. -/
  | guard (x : PSrc)
  /-- RJSET (R94): Writes a rejoin mask once for the group. -/
  | rjset (ch : Bool) (j : BitVec 3) (b : Src)
  /-- RJGET (R94): Reads a rejoin mask. -/
  | rjget (ch : Bool) (d : Dst) (j : BitVec 3)
  /-- FADD (R104): Floating add. -/
  | fadd (ch : Bool) (d : Dst) (a : Src) (b : Src) (t : FTy)
  /-- FSUB (R104): Floating subtract. -/
  | fsub (ch : Bool) (d : Dst) (a : Src) (b : Src) (t : FTy)
  /-- FMUL (R104): Floating multiply. -/
  | fmul (ch : Bool) (d : Dst) (a : Src) (b : Src) (t : FTy)
  /-- FMIN (R104): Floating minimum, NaN-propagating. -/
  | fmin (ch : Bool) (d : Dst) (a : Src) (b : Src) (t : FTy)
  /-- FMAX (R104): Floating maximum, NaN-propagating. -/
  | fmax (ch : Bool) (d : Dst) (a : Src) (b : Src) (t : FTy)
  /-- FMINM (R104): Floating minimum ignoring one NaN. -/
  | fminm (ch : Bool) (d : Dst) (a : Src) (b : Src) (t : FTy)
  /-- FMAXM (R104): Floating maximum ignoring one NaN. -/
  | fmaxm (ch : Bool) (d : Dst) (a : Src) (b : Src) (t : FTy)
  /-- FABS (R104): Clears the sign bit. -/
  | fabs (ch : Bool) (d : Dst) (a : Src) (t : FTy)
  /-- FNEG (R104): Inverts the sign bit. -/
  | fneg (ch : Bool) (d : Dst) (a : Src) (t : FTy)
  /-- FCOPYSIGN (R104): Takes A with the sign of B. -/
  | fcopysign (ch : Bool) (d : Dst) (a : Src) (b : Src) (t : FTy)
  /-- FROUND (R104): Rounds to an integral value in a chosen mode. -/
  | fround (ch : Bool) (d : Dst) (a : Src) (r : BitVec 3) (t : FTy)
  /-- TWOSUM (R105): Exact FP32 sum and error pair. -/
  | twosum (ch : Bool) (d : Dst) (a : Src) (b : Src)
  /-- FFMA_F32 (R106): Fused multiply-add on FP32. -/
  | ffmaF32 (ch : Bool) (d : Dst) (a : Src) (b : Src) (g : Src)
  /-- FFMA_F16X2 (R106): Fused multiply-add on packed FP16. -/
  | ffmaF16x2 (ch : Bool) (d : Dst) (a : Src) (b : Src) (g : Src)
  /-- FFMA_BF16X2 (R106): Fused multiply-add on packed BF16. -/
  | ffmaBf16x2 (ch : Bool) (d : Dst) (a : Src) (b : Src) (g : Src)
  /-- FFNMA_F32 (R106): Fused c minus a times b on FP32. -/
  | ffnmaF32 (ch : Bool) (d : Dst) (a : Src) (b : Src) (g : Src)
  /-- FFNMA_F16X2 (R106): Fused c minus a times b on packed FP16. -/
  | ffnmaF16x2 (ch : Bool) (d : Dst) (a : Src) (b : Src) (g : Src)
  /-- FFNMA_BF16X2 (R106): Fused c minus a times b on packed BF16. -/
  | ffnmaBf16x2 (ch : Bool) (d : Dst) (a : Src) (b : Src) (g : Src)
  /-- FRCP (R107): Correctly rounded reciprocal. -/
  | frcp (ch : Bool) (d : Dst) (a : Src) (half : Bool)
  /-- FRSQ (R107): Correctly rounded reciprocal square root. -/
  | frsq (ch : Bool) (d : Dst) (a : Src) (half : Bool)
  /-- FSQRT (R107): Correctly rounded square root. -/
  | fsqrt (ch : Bool) (d : Dst) (a : Src) (half : Bool)
  /-- FEXP2 (R107): Correctly rounded power of two. -/
  | fexp2 (ch : Bool) (d : Dst) (a : Src) (half : Bool)
  /-- FLOG2 (R107): Correctly rounded base-2 logarithm. -/
  | flog2 (ch : Bool) (d : Dst) (a : Src) (half : Bool)
  /-- FSIN (R107): Correctly rounded sine. -/
  | fsin (ch : Bool) (d : Dst) (a : Src) (half : Bool)
  /-- FCOS (R107): Correctly rounded cosine. -/
  | fcos (ch : Bool) (d : Dst) (a : Src) (half : Bool)
  /-- FTANH (R107): Correctly rounded hyperbolic tangent. -/
  | ftanh (ch : Bool) (d : Dst) (a : Src) (half : Bool)
  /-- FSIGM (R107): Correctly rounded logistic function. -/
  | fsigm (ch : Bool) (d : Dst) (a : Src) (half : Bool)
  /-- FDIV (R107): Correctly rounded division. -/
  | fdiv (ch : Bool) (d : Dst) (a : Src) (b : Src) (half : Bool)
  /-- CVT_F (R110): Converts between floating formats. -/
  | cvtF (ch : Bool) (d : Dst) (a : Src) (pair : BitVec 6) (r : BitVec 3)
  /-- CVT_IF (R110): Converts an integer to floating point. -/
  | cvtIf (ch : Bool) (d : Dst) (a : Src) (pair : BitVec 6) (r : BitVec 3)
  /-- CVT_FI (R111): Converts floating point to a saturated integer. -/
  | cvtFi (ch : Bool) (d : Dst) (a : Src) (pair : BitVec 6) (r : BitVec 3)
  /-- QNT (R112): Quantises one element against the source shadow's scale. -/
  | qnt (ch : Bool) (d : Dst) (a : Src) (pair : BitVec 6) (r : BitVec 3)
  /-- DQNT (R112): Dequantises one element against the source shadow's scale. -/
  | dqnt (ch : Bool) (d : Dst) (a : Src) (pair : BitVec 6) (r : BitVec 3)
  /-- FLDEXP (R113): Scales a float by a power of two. -/
  | fldexp (ch : Bool) (d : Dst) (a : Src) (pair : BitVec 6) (r : BitVec 3)
  /-- FEXPO (R113): Returns the binary exponent of a float. -/
  | fexpo (ch : Bool) (d : Dst) (a : Src) (pair : BitVec 6) (r : BitVec 3)
  /-- SRND (R114): Rounds FP32 to a narrower format's precision and range. -/
  | srnd (ch : Bool) (d : Dst) (a : Src) (pair : BitVec 6) (r : BitVec 3)
  /-- PADD2 (R116): Packed add. -/
  | padd2 (ch : Bool) (d : Dst) (a : Src) (b : Src) (e8 : Bool) (u : Bool) (s : Bool)
  /-- PSUB2 (R116): Packed subtract. -/
  | psub2 (ch : Bool) (d : Dst) (a : Src) (b : Src) (e8 : Bool) (u : Bool) (s : Bool)
  /-- PMUL2 (R116): Packed multiply. -/
  | pmul2 (ch : Bool) (d : Dst) (a : Src) (b : Src) (e8 : Bool) (u : Bool) (s : Bool)
  /-- PMIN2 (R116): Packed minimum. -/
  | pmin2 (ch : Bool) (d : Dst) (a : Src) (b : Src) (e8 : Bool) (u : Bool)
  /-- PMAX2 (R116): Packed maximum. -/
  | pmax2 (ch : Bool) (d : Dst) (a : Src) (b : Src) (e8 : Bool) (u : Bool)
  /-- PSHR2 (R116): Packed shift right. -/
  | pshr2 (ch : Bool) (d : Dst) (a : Src) (b : Src) (e8 : Bool) (u : Bool)
  /-- PPACK (R116): Narrows and packs two sources. -/
  | ppack (ch : Bool) (d : Dst) (a : Src) (b : Src) (e8 : Bool) (u : Bool) (s : Bool)
  /-- PUNPK_LO (R116): Widens the low elements. -/
  | punpkLo (ch : Bool) (d : Dst) (a : Src) (e8 : Bool) (u : Bool)
  /-- PUNPK_HI (R116): Widens the high elements. -/
  | punpkHi (ch : Bool) (d : Dst) (a : Src) (e8 : Bool) (u : Bool)
  /-- PABS2 (R116): Packed absolute value. -/
  | pabs2 (ch : Bool) (d : Dst) (a : Src) (e8 : Bool) (s : Bool)
  /-- PMAC2 (R117): Saturating dot product of two 16-bit pairs into a 32-bit accumulator. -/
  | pmac2 (ch : Bool) (d : Dst) (a : Src) (b : Src) (g : Src)
  /-- PMAC4 (R117): Saturating dot product of four 8-bit pairs into a 32-bit accumulator. -/
  | pmac4 (ch : Bool) (d : Dst) (a : Src) (b : Src) (g : Src)
  /-- FDOT2_F16 (R118): FP16 pair dot product into FP32 with one rounding. -/
  | fdot2F16 (ch : Bool) (d : Dst) (a : Src) (b : Src) (g : Src)
  /-- FDOT2_BF16 (R118): BF16 pair dot product into FP32 with one rounding. -/
  | fdot2Bf16 (ch : Bool) (d : Dst) (a : Src) (b : Src) (g : Src)
  /-- CFMA (R120): Compensated complex FP32 multiply-accumulate. -/
  | cfma (ch : Bool) (d : Dst) (a : Src) (b : Src) (g : Src)
  /-- CFMAJ (R120): Compensated complex multiply-accumulate with B conjugated. -/
  | cfmaj (ch : Bool) (d : Dst) (a : Src) (b : Src) (g : Src)
  /-- BFI (R95): Inserts a bit field. -/
  | bfi (ch : Bool) (d : Dst) (a : Src) (b : Src) (g : Src)
  /-- MAD (R95): 32-bit integer multiply-add. -/
  | mad (ch : Bool) (d : Dst) (a : Src) (b : Src) (g : Src)
  /-- SLIDE_UP (R168): Moves values one lane up with a chosen fill. -/
  | slideUp (ch : Bool) (d : Dst) (a : Src) (b : Src) (fill : Fill)
  /-- SLIDE_DN (R168): Moves values one lane down with a chosen fill. -/
  | slideDn (ch : Bool) (d : Dst) (a : Src) (b : Src) (fill : Fill)
  /-- SLIDE_H (R168): Moves 16-bit elements up by one with a chosen fill. -/
  | slideH (ch : Bool) (d : Dst) (a : Src) (b : Src) (fill : Fill)
  /-- SHFL (R169): Reads another lane's value by index. -/
  | shfl (ch : Bool) (d : Dst) (a : Src) (b : Src)
  /-- SHFLX (R169): Reads another lane's value by xor mask. -/
  | shflx (ch : Bool) (d : Dst) (a : Src) (b : Src)
  /-- BCAST (R169): Broadcasts one lane's value. -/
  | bcast (ch : Bool) (d : Dst) (a : Src) (b : Src)
  /-- VOTE (R169): Any, all, ballot or uniform vote over the executing lanes. -/
  | vote (ch : Bool) (d : Dst) (a : Src) (op : VoteOp)
  /-- GRED (R170): Fixed-order tree reduction over the group. -/
  | gred (ch : Bool) (d : Dst) (a : Src) (op : RedOp)
  /-- GSCAN (R169): Inclusive scan over the group in lane order. -/
  | gscan (ch : Bool) (d : Dst) (a : Src) (op : RedOp)
  /-- QRED (R170): Fixed-order tree reduction over a quarter. -/
  | qred (ch : Bool) (d : Dst) (a : Src) (op : RedOp)
  /-- MATCH (R169): Mask of lanes holding the same value. -/
  | xmatch (ch : Bool) (d : Dst) (a : Src)
  /-- BMAX (R173): Absolute maximum over a block. -/
  | bmax (ch : Bool) (d : Dst) (a : Src) (f : EFmt)
  /-- BSCALE (R173): Chooses a block scale from an amax under a policy. -/
  | bscale (ch : Bool) (d : Dst) (a : Src) (pol : BitVec 2) (f : EFmt)
  /-- BQNT (R173): Quantises a block against a scale. -/
  | bqnt (ch : Bool) (d : Dst) (a : Src) (b : Src) (f : EFmt)
  /-- BDQNT (R174): Dequantises a block. -/
  | bdqnt (ch : Bool) (d : Dst) (a : Src) (f : EFmt)
  /-- BSETSC (R174): Copies codes and installs a block scale. -/
  | bsetsc (ch : Bool) (d : Dst) (a : Src) (b : Src) (f : EFmt)
  /-- BGETSC (R174): Reads a block scale. -/
  | bgetsc (ch : Bool) (d : Dst) (a : Src) (f : EFmt)
  /-- BSHIFT (R174): Shifts a block scale by a signed amount. -/
  | bshift (ch : Bool) (d : Dst) (a : Src) (b : Src) (f : EFmt)
  /-- BRESCALE (R174): Re-encodes a block under a new scale. -/
  | brescale (ch : Bool) (d : Dst) (a : Src) (b : Src) (f : EFmt)
  /-- BDOT (R174): Block dot product by one accumulation step. -/
  | bdot (ch : Bool) (d : Dst) (a : Src) (b : Src) (f : EFmt)
  /-- LD_B8U (R125): Global byte load, zero-extended. -/
  | ldB8u (ch : Bool) (d : Dst) (a : Src) (off : BitVec 10)
  /-- LD_B8S (R125): Global byte load, sign-extended. -/
  | ldB8s (ch : Bool) (d : Dst) (a : Src) (off : BitVec 10)
  /-- LD_B16U (R125): Global halfword load, zero-extended. -/
  | ldB16u (ch : Bool) (d : Dst) (a : Src) (off : BitVec 10)
  /-- LD_B16S (R125): Global halfword load, sign-extended. -/
  | ldB16s (ch : Bool) (d : Dst) (a : Src) (off : BitVec 10)
  /-- LD_B32 (R125): Global word load. -/
  | ldB32 (ch : Bool) (d : Dst) (a : Src) (off : BitVec 10)
  /-- LD_B64 (R125): Global 64-bit load. -/
  | ldB64 (ch : Bool) (d : Dst) (a : Src) (off : BitVec 10)
  /-- LD_B128 (R125): Global 128-bit load. -/
  | ldB128 (ch : Bool) (d : Dst) (a : Src) (off : BitVec 10)
  /-- LDACQ_B32 (R129): Global word load with acquire. -/
  | ldacqB32 (ch : Bool) (d : Dst) (a : Src) (off : BitVec 10)
  /-- LDACQ_B64 (R129): Global 64-bit load with acquire. -/
  | ldacqB64 (ch : Bool) (d : Dst) (a : Src) (off : BitVec 10)
  /-- LDS_B32 (R125): Scratch word load. -/
  | ldsB32 (ch : Bool) (d : Dst) (a : Src) (off : BitVec 10)
  /-- LDS_B64 (R125): Scratch 64-bit load. -/
  | ldsB64 (ch : Bool) (d : Dst) (a : Src) (off : BitVec 10)
  /-- LDS_B128 (R125): Scratch 128-bit load. -/
  | ldsB128 (ch : Bool) (d : Dst) (a : Src) (off : BitVec 10)
  /-- LDB (R130): Global block load with scales into the shadow. -/
  | ldb (ch : Bool) (d : Dst) (a : Src) (f : EFmt) (off : BitVec 7)
  /-- LDBS (R130): Scratch block load with scales into the shadow. -/
  | ldbs (ch : Bool) (d : Dst) (a : Src) (f : EFmt) (off : BitVec 7)
  /-- LDNC_B32 (R128): Word load from the home slice bypassing L1. -/
  | ldncB32 (ch : Bool) (d : Dst) (a : Src) (off : BitVec 10)
  /-- ST_B8 (R126): Global byte store. -/
  | stB8 (ch : Bool) (v : Src) (a : Src) (off : BitVec 10)
  /-- ST_B16 (R126): Global halfword store. -/
  | stB16 (ch : Bool) (v : Src) (a : Src) (off : BitVec 10)
  /-- ST_B32 (R126): Global word store. -/
  | stB32 (ch : Bool) (v : Src) (a : Src) (off : BitVec 10)
  /-- ST_B64 (R126): Global 64-bit store. -/
  | stB64 (ch : Bool) (v : Src) (a : Src) (off : BitVec 10)
  /-- ST_B128 (R126): Global 128-bit store. -/
  | stB128 (ch : Bool) (v : Src) (a : Src) (off : BitVec 10)
  /-- STREL_B32 (R129): Global word store with release. -/
  | strelB32 (ch : Bool) (v : Src) (a : Src) (off : BitVec 10)
  /-- STREL_B64 (R129): Global 64-bit store with release. -/
  | strelB64 (ch : Bool) (v : Src) (a : Src) (off : BitVec 10)
  /-- STS_B8 (R126): Scratch byte store. -/
  | stsB8 (ch : Bool) (v : Src) (a : Src) (off : BitVec 10)
  /-- STS_B32 (R126): Scratch word store. -/
  | stsB32 (ch : Bool) (v : Src) (a : Src) (off : BitVec 10)
  /-- STS_B64 (R126): Scratch 64-bit store. -/
  | stsB64 (ch : Bool) (v : Src) (a : Src) (off : BitVec 10)
  /-- STS_B128 (R126): Scratch 128-bit store. -/
  | stsB128 (ch : Bool) (v : Src) (a : Src) (off : BitVec 10)
  /-- STB (R131): Global block store writing sideband scales. -/
  | stb (ch : Bool) (v : Src) (a : Src) (f : EFmt) (off : BitVec 7)
  /-- STBS (R131): Scratch block store writing sideband scales. -/
  | stbs (ch : Bool) (v : Src) (a : Src) (f : EFmt) (off : BitVec 7)
  /-- ATOM_B32 (R135): 32-bit global integer atomic returning the old value. -/
  | atomB32 (ch : Bool) (d : Dst) (a : Src) (b : Src) (op : AOp)
  /-- ATOM_B64 (R135): 64-bit global integer atomic returning the old value. -/
  | atomB64 (ch : Bool) (d : Dst) (a : Src) (b : Src) (op : AOp)
  /-- RED_B32 (R135): 32-bit global integer reduction without return. -/
  | redB32 (ch : Bool) (a : Src) (b : Src) (op : AOp)
  /-- RED_B64 (R135): 64-bit global integer reduction without return. -/
  | redB64 (ch : Bool) (a : Src) (b : Src) (op : AOp)
  /-- ATOMF (R135): Global float atomic returning the old value. -/
  | atomf (ch : Bool) (d : Dst) (a : Src) (b : Src) (op : AFOp)
  /-- REDF (R135): Global float reduction without return. -/
  | redf (ch : Bool) (a : Src) (b : Src) (op : AFOp)
  /-- CAS_B32 (R136): 32-bit global compare-and-swap. -/
  | casB32 (ch : Bool) (d : Dst) (a : Src) (b : Src)
  /-- CAS_B64 (R136): 64-bit global compare-and-swap. -/
  | casB64 (ch : Bool) (d : Dst) (a : Src) (b : Src)
  /-- CAS2 (R136): 128-bit versioned compare-and-swap. -/
  | cas2 (ch : Bool) (d : Dst) (a : Src) (b : Src)
  /-- AMAXRST (R142): Reads an amax cell and resets it to +0 indivisibly. -/
  | amaxrst (ch : Bool) (d : Dst) (a : Src)
  /-- ATOMS (R135): Scratch integer atomic returning the old value. -/
  | atoms (ch : Bool) (d : Dst) (a : Src) (b : Src) (op : AOp)
  /-- REDS (R135): Scratch integer reduction without return. -/
  | reds (ch : Bool) (a : Src) (b : Src) (op : AOp)
  /-- CASS (R136): Scratch compare-and-swap. -/
  | cass (ch : Bool) (d : Dst) (a : Src) (b : Src)
  /-- ATOMFS (R135): Scratch float atomic, including amax cell updates. -/
  | atomfs (ch : Bool) (d : Dst) (a : Src) (b : Src) (op : AFOp)
  /-- BAR (R179): Stalls the lane at a team or cluster barrier. -/
  | bar (ch : Bool) (clu : Bool)
  /-- MINIT (R183): Posts an initialisation of a mooring. -/
  | minit (ch : Bool) (a : Src) (b : Src) (scr : Bool)
  /-- MARRIVE (R183): Posts an arrival with units on a mooring and reserves the phase token. -/
  | marrive (ch : Bool) (d : Dst) (a : Src) (b : Src) (scr : Bool)
  /-- MEXPECT (R183): Posts added units to a mooring. -/
  | mexpect (ch : Bool) (a : Src) (b : Src) (scr : Bool)
  /-- MWAIT (R185): Waits until a mooring's phase differs from the token. -/
  | mwait (ch : Bool) (a : Src) (b : Src) (scr : Bool)
  /-- MTEST (R185): Tests whether a mooring's phase has turned. -/
  | mtest (ch : Bool) (p : PDst) (a : Src) (b : Src) (scr : Bool)
  /-- FENCE (R189): Starts a fence at a scope and makes the group speculative. -/
  | fence (ch : Bool) (scope : Scope)
  /-- XFENCE (R192): Cross-path-class fence. -/
  | xfence (ch : Bool) (x : BitVec 6) (y : BitVec 6) (scope : Scope)
  /-- WAIT (R188): Stalls until the group's counters fall to the given limits. -/
  | wait (ch : Bool) (ld : BitVec 4) (st : BitVec 4) (cp : BitVec 3) (tl : BitVec 3)
  /-- CINV (R226): Drops L1 lines of a range. -/
  | cinv (ch : Bool) (a : Src) (b : Src)
  /-- CWB (R226): Writes dirty L2 lines of a range to HBM4E. -/
  | cwb (ch : Bool) (a : Src) (b : Src)
  /-- PFETCH (R226): Prefetches a line into L1 or the home slice. -/
  | pfetch (ch : Bool) (a : Src) (l2 : Bool)
  /-- SMAP (R224): Installs a lazy map of scratch onto a global range. -/
  | smap (ch : Bool) (a : Src) (b : Src)
  /-- SUNMAP (R225): Writes back and removes a scratch map. -/
  | sunmap (ch : Bool) (b : Src)
  /-- SFLUSH (R225): Writes back one or all scratch maps. -/
  | sflush (ch : Bool) (b : Src)
  /-- PINFO (R227): Returns translation information without faulting. -/
  | pinfo (ch : Bool) (d : Dst) (a : Src)
  /-- TLBI (R227): Privileged removal of cached translations device-wide. -/
  | tlbi (ch : Bool) (a : Src) (b : Src)
  /-- CPY (R238): Adds a per-lane global-to-scratch copy to the open batch. -/
  | cpy (ch : Bool) (a : Src) (b : Src) (size : BitVec 2)
  /-- SEAL (R239): Closes the open copy batch with a mooring action. -/
  | seal (ch : Bool) (a : Src) (b : Src)
  /-- TILE (R245): Issues a tender tile conversion described by a descriptor. -/
  | tile (ch : Bool) (a : Src) (b : Src)
  /-- RELAY (R250): Issues a hop-by-hop copy along cluster members. -/
  | relay (ch : Bool) (a : Src) (b : Src)
  /-- GATH (R252): Issues an indexed row gather. -/
  | gath (ch : Bool) (a : Src)
  /-- MRSV (R255): Tries to reserve the matrix engine for the team. -/
  | mrsv (ch : Bool) (p : PDst)
  /-- MREL (R255): Waits for matrix work and releases the engine. -/
  | mrel (ch : Bool)
  /-- MCVN (R260): Proposes a convening of groups. -/
  | mcvn (ch : Bool) (a : Src)
  /-- MMA (R268): Joint block-scaled matrix product into a tile. -/
  | mma (ch : Bool) (a : Src)
  /-- MMD (R269): Joint dual backward product into two tiles. -/
  | mmd (ch : Bool) (a : Src)
  /-- MZERO (R271): Zeroes a run of tiles. -/
  | mzero (ch : Bool) (a : Src)
  /-- MDRAIN (R272): Reads a tile out to mqo or scratch in a chosen format. -/
  | mdrain (ch : Bool) (a : Src) (b : Src) (f : DrainFmt)
  /-- MLOAD (R271): Loads a tile from scratch. -/
  | mload (ch : Bool) (a : Src) (b : Src)
  /-- MCFG (R273): Changes the matrix engine configuration item. -/
  | mcfg (ch : Bool) (a : Src) (b : Src)
  /-- MCMPLX (R270): Joint compensated complex FP32 matrix product. -/
  | mcmplx (ch : Bool) (a : Src)
  /-- GLAPP (R286): Appends a tile to a gradient log. -/
  | glapp (ch : Bool) (a : Src) (b : Src)
  /-- GLFOLD (R287): Requests folding of named weight tiles with a mooring. -/
  | glfold (ch : Bool) (a : Src) (b : Src)
  /-- EMIT (R311): Appends a record to a graph node's ring. -/
  | emit (ch : Bool) (a : Src) (b : Src)
  /-- SPAWN (R308): Registers a task record or node as a child. -/
  | spawn (ch : Bool) (a : Src) (b : Src)
  /-- JDEC (R309): Posts a decrement of a join or producer counter. -/
  | jdec (ch : Bool) (a : Src)
  /-- WTAG (R363): Makes a batch tag current. -/
  | wtag (ch : Bool) (a : Src)
  /-- WCLOSE (R363): Closes a batch slot, sending close markers. -/
  | wclose (ch : Bool) (d : Dst) (a : Src) (b : Src)
  /-- WFENCE (R363): Reflection-complete fence. -/
  | wfence (ch : Bool)
  /-- BCAS (R369): Sends a remote compare-and-swap to a Beacon. -/
  | bcas (ch : Bool) (a : Src) (b : Src)
  /-- BENQ (R369): Sends a remote ring enqueue to a Beacon. -/
  | benq (ch : Bool) (a : Src) (b : Src)
  /-- BCHASE (R369): Sends a remote pointer chase to a Beacon. -/
  | bchase (ch : Bool) (a : Src) (b : Src)
  /-- BRED (R369): Sends a remote reduction to a Beacon. -/
  | bred (ch : Bool) (a : Src) (b : Src)
  /-- XEV (R386): Waits for a collective event count. -/
  | xev (ch : Bool) (a : Src) (b : Src)
  /-- XTEST (R386): Tests a collective event count into a predicate. -/
  | xtest (ch : Bool) (p : PDst) (a : Src) (b : Src)
  /-- TMCHK (R346): Tests whether a layer is resident. -/
  | tmchk (ch : Bool) (p : PDst) (a : Src)
  /-- TMWAIT (R346): Requests a layer if needed and waits until resident. -/
  | tmwait (ch : Bool) (a : Src)
  /-- TMPIN (R346): Increments a layer's pin count. -/
  | tmpin (ch : Bool) (a : Src)
  /-- TMUNPIN (R346): Decrements a layer's pin count. -/
  | tmunpin (ch : Bool) (a : Src)
  /-- LOAD_DATA_RETURN (R133): Load data returns and fills its reserved entry, possibly poisoned. -/
  | loadDataReturn (core : Nat) (grp : Nat) (txn : Nat) (bad : Bool)
  /-- FENCE_COMPLETION (R189): A fence's earlier accesses are performed at its scope and speculation ends. -/
  | fenceCompletion (core : Nat) (grp : Nat)
  /-- SPECULATION_ROLLBACK (R191): Another agent's write to a speculatively read sector rolls the group back to the fence. -/
  | speculationRollback (core : Nat) (grp : Nat)
  /-- SLEEP_EXPIRY (R96): A sleeping lane's clock count runs out and it becomes ready. -/
  | sleepExpiry (core : Nat) (grp : Nat) (lane : Nat)
  /-- MOORING_OP_AT_HOME (R183): A posted mooring operation is performed at the mooring's home unit. -/
  | mooringOpAtHome (k : Nat)
  /-- CHUNK_FILL (R211): A mapped scratch chunk's fill from global memory completes. -/
  | chunkFill (team : Nat) (map : Nat) (chunk : Nat)
  /-- SCRATCH_WRITEBACK (R211): Team-end write-back of dirty mapped sectors to global memory. -/
  | scratchWriteback (team : Nat)
  /-- GROUP_END (R157): All lanes have exited and the ld and st counters reach zero. -/
  | groupEnd (core : Nat) (grp : Nat)
  /-- GRID_RETIREMENT (R315): Outstanding work done, the Lantern releases at host scope, signals and clears WATCH. -/
  | gridRetirement (grid : Nat)
  /-- PREEMPTION_REQUEST (R329): Halts every group of a team at a chain boundary within 5,000 clocks. -/
  | preemptionRequest (team : Nat)
  /-- CONTEXT_SAVE (R330): Saves a halted team's state to its save area. -/
  | contextSave (team : Nat)
  /-- FAULT_SERVICE (R323): The Keeper's policy services, delivers or aborts a page-class fault. -/
  | faultService (k : Nat) (how : Service)
  /-- FAULT_RECORD_DELIVERY (R324): The Keeper writes a fault record to the ring and emits it into FQNODE. -/
  | faultRecordDelivery (ctx : Nat)
  /-- RETRY (R328): Keeper service letting parked lanes re-execute unchanged. -/
  | retry (k : Nat)
  /-- REMAP (R328): Keeper service installing the reply's leaf and flushing translations. -/
  | remap (k : Nat)
  /-- SETRAP (R328): Keeper service setting RAP in the page's leaf. -/
  | setrap (k : Nat)
  /-- MIGRATE (R328): Keeper service moving the page to a local frame. -/
  | migrate (k : Nat)
  /-- RESTREAM (R328): Keeper service requesting the page's layer again. -/
  | restream (k : Nat)
  /-- DELIVER (R328): Keeper service delivering the trap to the parked lanes. -/
  | deliver (k : Nat)
  /-- ABORT (R328): Keeper service aborting the grid. -/
  | abort (k : Nat)
  /-- RETURN (R328): Keeper service performing the trap return for a user context. -/
  | ret (k : Nat)
  /-- COPY_BATCH_COMPLETION (R240): A sealed batch completes in order, lowering cp and performing its mooring action. -/
  | copyBatchCompletion (core : Nat) (grp : Nat)
  /-- TILE_COMPLETION (R247): A tile's writes or queue entries and amax update are done; it retires on its mooring. -/
  | tileCompletion (core : Nat) (grp : Nat) (op : Nat)
  /-- RELAY_HOP_COMPLETION (R250): A relay hop's copy is performed, retires an arrival and starts the next hop. -/
  | relayHopCompletion (core : Nat) (grp : Nat) (op : Nat)
  /-- GATHER_COMPLETION (R252): Every gathered row is performed and the gather retires. -/
  | gatherCompletion (core : Nat) (grp : Nat) (op : Nat)
  /-- JOINT_ISSUE (R261): All convened groups and needed headers are present; the joint operation is checked and accepted. -/
  | jointIssue (core : Nat) (part : Nat)
  /-- MATRIX_PASS (R275): One pass of an accepted matrix operation runs once its data has arrived. -/
  | matrixPass (core : Nat) (part : Nat)
  /-- MATRIX_OP_COMPLETION (R276): A matrix operation completes and counts out on tl in issue order. -/
  | matrixOpCompletion (core : Nat) (part : Nat)
  /-- MATRIX_HEADER_FAILURE (R264): A later header fails, poisoning tiles, discarding queues and abandoning operations. -/
  | matrixHeaderFailure (core : Nat) (part : Nat)
  /-- MDRAIN_ENTRY_DELIVERY (R272): A drain entry is placed in mqo once it has room. -/
  | mdrainEntryDelivery (core : Nat) (part : Nat)
  /-- GLAPP_RECORD_WRITE (R286): A glapp writes its log record once a ring slot frees. -/
  | glappRecordWrite (core : Nat) (part : Nat)
  /-- RECORD_FOLD (R282): The merge engine folds a log record row by row under row locks and advances GET. -/
  | recordFold (log : Nat)
  /-- GLFOLD_RETIREMENT (R287): All covered records are folded and a glfold retires its mooring arrival. -/
  | glfoldRetirement (k : Nat)
  /-- DOORBELL (R395): Host write to a doorbell sets a queue's WPTR. -/
  | doorbell (q : Nat) (wptr : BitVec 32)
  /-- PACKET_NOP (R289): Queue packet that completes at start. -/
  | packetNop (q : Nat)
  /-- LAUNCH (R291): Queue packet that checks and registers a grid and writes its argument header. -/
  | launch (q : Nat)
  /-- COLL (R383): Queue packet starting a collective instance. -/
  | coll (q : Nat)
  /-- WAITMEM (R290): Queue packet waiting for a masked memory condition. -/
  | waitmem (q : Nat)
  /-- WAITMEM_REREAD (R290): Periodic re-read of a WAITMEM condition at least every 1 µs. -/
  | waitmemReread (q : Nat)
  /-- SIGNALMEM (R290): Queue packet writing or adding to a memory word with host-scope release. -/
  | signalmem (q : Nat)
  /-- MODEL_REQUEST (R345): MODEL packet fetching a range of layers. -/
  | modelRequest (q : Nat)
  /-- MODEL_WITHDRAW (R345): MODEL packet withdrawing a range of layers. -/
  | modelWithdraw (q : Nat)
  /-- MODEL_PIN (R345): MODEL packet incrementing pins of a range of layers. -/
  | modelPin (q : Nat)
  /-- MODEL_UNPIN (R345): MODEL packet decrementing pins of a range of layers. -/
  | modelUnpin (q : Nat)
  /-- QBARRIER (R289): Queue packet waiting for earlier packets of masked queues. -/
  | qbarrier (q : Nat)
  /-- WORK_TABLE_TIMEOUT (R292): A LAUNCH waiting over 100 ms on a full work table is rejected. -/
  | workTableTimeout (q : Nat)
  /-- PLACEMENT_ATTEMPT (R299): A die's dispatcher places the first fitting team or suspends lower-priority teams. -/
  | placementAttempt (die : Nat)
  /-- CANDIDATE_RESERVATION (R302): After 256 failed attempts the dispatcher reserves a candidate for the head team. -/
  | candidateReservation (die : Nat) (level : Nat)
  /-- THERMAL_MIGRATION (R305): A hot core's longest-resident team is suspended and moved. -/
  | thermalMigration (core : Nat)
  /-- JDEC_AT_HOME (R309): A posted jdec decrements the counter at its home unit and may notify the Lantern. -/
  | jdecAtHome (k : Nat)
  /-- LAYER_ARRIVAL (R340): A fetched layer's leaves are installed and it becomes RESIDENT. -/
  | layerArrival (ctx : Nat) (layer : Nat) (bytes : List LayerBytes)
  /-- LAYER_FETCH_FAILURE (R343): A failed fetch is retried or abandoned, aborting waiting grids. -/
  | layerFetchFailure (ctx : Nat) (layer : Nat) (abandon : Bool)
  /-- LAYER_EVICTION (R348): A victim layer is withdrawn, its translations removed and frames freed. -/
  | layerEviction (ctx : Nat) (layer : Nat)
  /-- REFLECTION_ARRIVAL (R357): A target performs a reflected store into a receive window. -/
  | reflectionArrival (a : ReflArrival)
  /-- REFLECTION_ACKNOWLEDGEMENT (R359): A per-store acknowledgement retires a unit on AMOOR. -/
  | reflectionAcknowledgement (k : Nat) (bitmap : BitVec 16)
  /-- CLOSE_MARKER_ARRIVAL (R360): A target receives close markers and returns a daymark. -/
  | closeMarkerArrival (a : CloseArrival)
  /-- DAYMARK_ARRIVAL (R363): A daymark ORs its bitmap into the error word and retires an arrival. -/
  | daymarkArrival (k : Nat) (tgt : Nat) (bitmap : BitVec 16)
  /-- BEACON_BCAS_STEP (R369): Target Beacon performs a compare-and-swap and replies. -/
  | beaconBcasStep (a : BeaconArrival)
  /-- BEACON_BENQ_STEP (R369): Target Beacon enqueues an item and replies. -/
  | beaconBenqStep (a : BeaconArrival)
  /-- BEACON_BCHASE_STEP (R369): Target Beacon follows pointers and replies. -/
  | beaconBchaseStep (a : BeaconArrival)
  /-- BEACON_BRED_STEP (R369): Target Beacon performs a reduction. -/
  | beaconBredStep (a : BeaconArrival)
  /-- UALINK_READ_RECEIVED (R366): A received transaction-layer read is answered with an error completion. -/
  | ualinkReadReceived (src : Nat)
  /-- SLOT_GRANT (R378): A staging slot grant reaches the sender, which may send a contribution. -/
  | slotGrant (k : Nat) (peer : Nat) (e0 : Nat)
  /-- CONTRIBUTION_ARRIVAL (R379): A contribution arrives and is combined, forwarded or stored. -/
  | contributionArrival (k : Nat) (c : Contribution)
  /-- MEMBER_REPORT (R382): Another member's report arrives, allowing event 2. -/
  | memberReport (k : Nat) (m : Nat)
  /-- READY_WORD_POLL (R384): Periodic re-read of a bucket's ready word at least every 1 µs. -/
  | readyWordPoll (k : Nat)
  /-- COLLECTIVE_FAILURE (R381): An instance fails, writes STAT and a record, and raises its events. -/
  | collectiveFailure (k : Nat) (why : BitVec 8)
  /-- VAULT_ROW_SPARING (R332): A vault row with repeated errors is copied to a spare row. -/
  | vaultRowSparing (vault : Nat) (row : Nat)
  /-- HBM_CHANNEL_FAILURE (R332): A pseudo-channel's contents move to the spare channel. -/
  | hbmChannelFailure (stack : Nat) (ch : Nat)
  /-- DIE_LINK_LANE_FAILURE (R332): A die link retrains on its remaining lanes. -/
  | dieLinkLaneFailure (link : Nat) (lane : Nat)
  /-- UALINK_PORT_FAILURE (R332): Traffic moves to another port with retransmission. -/
  | ualinkPortFailure (port : Nat)
  /-- CORE_FAILURE (R333): A failed core's teams are checked and moved or lost. -/
  | coreFailure (core : Nat) (lost : List Nat)
  /-- VAULT_FAILURE (R334): A failed vault is removed, dirty lines poisoned and homes recomputed. -/
  | vaultFailure (core : Nat)
  /-- HEARTBEAT_TAKEOVER (R335): The standby Lantern and Keeper take over after 1 ms without heartbeat. -/
  | heartbeatTakeover
  /-- CXL_PORT_FAILURE (R335): The host port fails; accepted work continues without host access. -/
  | cxlPortFailure
  /-- PATROL_SCRUB (R216): The patrol scrubber corrects single-bit errors at its set rate. -/
  | patrolScrub (sector : Nat)
  /-- HOST_MEM_ACCESS (R396): A host CXL.mem access to device memory through its home slice. -/
  | hostMemAccess (hpa : Nat) (a : HostAccess)
  /-- SCALE_VIEW_WRITE (R215): A host write to the scale view writes sideband slots. -/
  | scaleViewWrite (hpa : Nat) (v : Byte)
  /-- CTX_CREATE (R398): Mailbox command creating a context. -/
  | ctxCreate (ctx : Nat) (x : CtxParams)
  /-- CTX_SET (R398): Mailbox command changing a context's settings. -/
  | ctxSet (ctx : Nat) (x : CtxChange)
  /-- CTX_DESTROY (R398): Mailbox command destroying a context and aborting its grids. -/
  | ctxDestroy (ctx : Nat)
  /-- MAP (R398): Mailbox command installing a leaf entry. -/
  | map (ctx : Nat) (va : DWord) (leaf : DWord)
  /-- UNMAP (R398): Mailbox command removing a mapping. -/
  | unmap (ctx : Nat) (va : DWord)
  /-- XLATE (R398): Mailbox command returning the pinfo word of an address. -/
  | xlate (ctx : Nat) (va : DWord)
  /-- KEY_LOAD (R398): Mailbox command loading an encryption key. -/
  | keyLoad (key : Nat) (pair : Nat)
  /-- KEY_CLEAR (R398): Mailbox command clearing an encryption key. -/
  | keyClear (key : Nat)
  /-- WIN_SET (R398): Mailbox command writing a window, exposure or multicast entry. -/
  | winSet (x : WinEntry)
  /-- QUEUE_SET (R398): Mailbox command writing a queue table entry. -/
  | queueSet (q : Nat) (x : QueueFields)
  /-- QUEUE_CLEAR (R398): Mailbox command clearing a queue's error and enabling it. -/
  | queueClear (q : Nat)
  /-- LAYER_DONE (R399): Mailbox command completing a host layer fetch. -/
  | layerDone (ctx : Nat) (layer : Nat)
  /-- FW_WRITE (R400): Mailbox command overwriting part of the firmware image. -/
  | fwWrite (off : Nat) (data : List Byte)
  /-- FW_COMMIT (R400): Mailbox command checking the firmware digest. -/
  | fwCommit (digest : Nat)
  /-- WARM (R404): Mailbox command starting a warm start. -/
  | warm (preserve : Bool)
  /-- MAILBOX_UNKNOWN_CODE (R398): A GO with an unlisted command code answers status 2.  `code` is MBCMD[31:0]: the code and, above it, the
  context. -/
  | mailboxUnknownCode (code : BitVec 32)
  /-- BAR0_WRITE_IGNORED (R395): A host write to a BAR0 offset with no behaviour is ignored. -/
  | bar0WriteIgnored (off : Nat) (v : DWord)
  /-- COLD_START (R403): Runs the start-up steps from fuses to firmware load. -/
  | coldStart (x : StartInputs)
  /-- WARM_RESET (R404): A host warm reset runs the warm start sequence. -/
  | warmReset (preserve : Bool) (x : StartInputs)
  /-- MANAGEMENT_READ (R406): MCTP read of status, counters, log, temperatures or power. -/
  | managementRead (what : MgmtItem)
  /-- PLIM_WRITE (R406): MCTP write of the power limit. -/
  | plimWrite (watts : Nat)
  /-- COLD_RESET_REQUEST (R406): MCTP request for a cold reset. -/
  | coldResetRequest
  /-- POWER_WINDOW (R405): Each 1 ms the firmware adjusts the clock to keep power under PLIM. -/
  | powerWindow (watts : Nat)
  /-- TEMPERATURE_HOT (R405): Junction temperature above 105 °C flags cores as hot. -/
  | temperatureHot (core : Nat)
  /-- TEMPERATURE_TRIP (R405): Above 115 °C the device stops all work and enters STATE 5. -/
  | temperatureTrip
  /-- ILLEGAL_OP (R49): A lane reaches a word that decodes to no instruction and takes ILLEGAL_OP or ILLEGAL_CHAIN. Such a word is an erased word, a reserved major, an unassigned operation or modifier, a nonzero reserved field, or a lone guard. -/
  | illegalOp (core : Nat) (grp : Nat) (lanes : LaneSet) (cause : Cause) (sub : Nat)
  /-- PACKET_FETCH (R48): A lane fetches its next packet, and a program counter that is not a multiple of 4 raises MISALIGNED, or a page that denies execution raises its translation cause. -/
  | packetFetch (core : Nat) (grp : Nat) (lanes : LaneSet)
  /-- MBSTS_READ (R398): The host reads MBSTS, and a GO that was ignored while BUSY then writes status 3. -/
  | mbstsRead
  /-- HDM_DECODER_WRITE (R395): The host programs the bases of BAR0, HDM 0 and HDM 1 through the CXL DVSEC and HDM decoder registers. -/
  | hdmDecoderWrite (which : BitVec 2) (base : DWord)
  /-- DIGEST_EXCHANGE (R378): In the first step of a collective instance, a member receives another member's digest of the agreeing fields, and a mismatch fails the instance. -/
  | digestExchange (k : Nat) (m : Nat) (digest : Nat)
  /-- VAULT_SPLIT_CHANGE (R212): The Keeper drains a core's L2 slice and changes its vault split, which changes the home hash device-wide. -/
  | vaultSplitChange (core : Nat) (vm : Nat)
  deriving DecidableEq, Repr

end Sys2Proof
end

