-- ==== Sys2Proof/Machine/State.lean ====
section
/-! DEFINITION. The state of the device as plain data: every piece of state the spec gives the machine, and the
model's own bookkeeping (the chain in progress, the agenda, the counters that number transactions, flights and records). -/
namespace Sys2Proof.Machine

/-! ### Memory -/

/-- What a 32-byte sector carries beside its bytes: the two sideband slots (R58), the poison mark (R217) and
the key it stands encrypted under (R218; 0 is no encryption). -/
structure Sector where
  s0 : Byte := 0x7F
  s1 : Byte := 0x7F
  poison : Bool := false
  key : Nat := 0
  deriving DecidableEq, Repr
/-- A byte memory: the listed bytes, addresses strictly rising, none equal to what an unlisted address reads as;
and the sectors that differ from a fresh one, by sector number. -/
structure Mem where
  bytes : List Host.Cell := []
  sectors : Tbl Sector := []
  deriving DecidableEq, Repr
/-- What an unlisted byte reads as (log entry 5). -/
def Mem.blank : Byte := 0

/-! ### Lanes -/

/-- A named register (R14) with its reservation (R19: 4 × the transaction that will fill it + the part of the value it
takes) and poison mark with the address of the load that poisoned it (R133). -/
structure Reg where
  v : Word := 0
  busy : Option Nat := none
  poison : Bool := false
  from_ : DWord := 0
  deriving DecidableEq, Repr
/-- A result-queue entry (R16). -/
structure QEnt where
  v : DWord := 0
  busy : Option Nat := none
  poison : Bool := false
  from_ : DWord := 0
  deriving DecidableEq, Repr
/-- A scale shadow of one quarter: slots s0 and s1 (R22). -/
structure Shadow where
  s0 : Byte := 0x7F
  s1 : Byte := 0x7F
  deriving DecidableEq, Repr
/-- The trap frame (R318). -/
structure Frame where
  queue : List QEnt := []
  preds : BitVec 8 := 1
  rpPc : DWord := 0
  rpSlot : Nat := 0
  skip : Bool := false
  tpc0 : DWord := 0
  deriving DecidableEq, Repr
/-- Why a lane is stalled (R147). -/
inductive Stall where
  /-- its chain could not issue: a source unfilled, a full table, a queue without room or value, a speculative
  group, a slot closing, a count not reached; it is tried again when its group is next issued -/
  | again
  /-- at `bar` (R179) -/
  | bar
  /-- at `bar.clu` -/
  | barClu
  /-- waiting on the mooring with this identity for its phase to differ from the token (R185); `wide` where the wait acquires at a scope
  wider than the team (R187) -/
  | mwait (moor : Nat) (token wide : Bool)
  /-- at a joint matrix operation or `mcvn` (R260, R261) -/
  | joint
  /-- awaiting the Keeper's answer to `kreq` (R327) -/
  | kreq
  /-- at a chain whose other lanes trap or park (R230) -/
  | held
  /-- waiting at `tmwait` for a layer (R346) -/
  | layer (ctx layer : Nat)
  /-- waiting for a mapped chunk's fill (R211): team, map, chunk -/
  | chunk (team map chunk : Nat)
  deriving DecidableEq, Repr
/-- Why a lane is parked (R156): a cause with its address, or an arriving layer. -/
inductive Park where
  | fault (c : Cause) (va : DWord) (record : Option Nat)
  | layer (ctx : Nat) (layer : Nat)
  deriving DecidableEq, Repr
/-- The states of a lane (R147). -/
inductive LaneMode where
  | ready
  | stalled (why : Stall)
  | joined (j : Nat)
  | parked (why : Park)
  | sleeping (until_ : Nat)
  | exited
  deriving DecidableEq, Repr
/-- One access of an open synchronisation-free region, for conflict detection (R193, R198): sector identity,
whether it was a plain store. -/
structure Access where
  sector : Nat
  store : Bool
  deriving DecidableEq, Repr
/-- A lane (R14 to R25, R98, R143, R147, R150, R318); tcause and tpc start at 0 by the model's choice (log entry 4). -/
structure Lane where
  pc : DWord := 0
  slot : Nat := 0
  regs : Tbl Reg := []
  queue : List QEnt := List.replicate 16 {}
  preds : BitVec 8 := 1
  status : Word := 0
  control : Word := 0
  tcause : Word := 0
  taddr : DWord := 0
  tpc : DWord := 0
  h : Bool := false
  frame : Frame := {}
  mode : LaneMode := .ready
  /-- the time its last chain ended (R148) -/
  since : Nat := 0
  /-- the time at which its chain was last tried and stalled: it is not tried again at that time -/
  tried : Option Nat := none
  /-- the packets its loop buffer holds, by ascending address, each with the copy of its words (R150) -/
  loop : List (DWord × List Word) := []
  region : List Access := []
  /-- a `wfence` in progress waits for the flights numbered below this (R363) -/
  ticket : Option Nat := none
  /-- the next chain takes this trap: UNCORRECTABLE after a core failure (R333), MOORING_MISUSE of a posted operation
  (log entry 15) -/
  pend : Option (Cause × DWord) := none
  /-- the lane's stalled chain pushes onto `mqa` or `mqb`, or pops an empty `mqo`: what it raises when its team's reservation ends (R229, R233) -/
  onRelease : Option (Cause × DWord) := none
  deriving DecidableEq, Repr
/-- A quarter's shadows of named registers and of queue positions (R22, R23). -/
structure Quarter where
  regs : Tbl Shadow := []
  queue : List Shadow := List.replicate 16 {}
  deriving DecidableEq, Repr

/-! ### Groups -/

/-- A place a load fills: named registers or queue entries of a lane (by reservation), or a word of a queue
register's vector entry (R230). -/
structure Fill1 where
  lane : Nat
  /-- the 32-bit parts of the value, least significant first -/
  v : QWord
  bits : Nat
  poison : Bool
  ea : DWord
  deriving DecidableEq, Repr
/-- Where an access goes after translation (R121, R122, R222): device memory under a key, or a core's scratchpad. -/
inductive Loc where
  | dev (pa : Nat) (key : Nat) (va : DWord) (apt : Nat)
  | scr (core : Nat) (off : Nat)
  deriving DecidableEq, Repr
/-- A load that may still read memory, until its data returns: its lane, location, size, whether it extends a sign, whether the L1 data
cache serves it, and its address (R200, R407; log entry 8). -/
structure Late where
  lane : Nat
  loc : Loc
  size : Nat
  sign : Bool
  cached : Bool
  ea : DWord
  deriving DecidableEq, Repr
/-- An entry of the outstanding-transaction table (R127). -/
structure Txn where
  id : Nat
  store : Bool
  fills : List Fill1 := []
  /-- the sectors a load reads, as conflict detection numbers them (R217) -/
  secs : List Nat := []
  /-- a load whose value is not fixed yet -/
  late : Option Late := none
  deriving DecidableEq, Repr
/-- A vector entry of `mqa`, `mqb` or `mqo` (R228): the 32 words, the shadows of the quarters, poison, and the
lanes whose words are still to be filled by transactions (R230) or by a tender (R246). -/
structure VEnt where
  words : List Word
  shadow : List Shadow
  poison : Bool := false
  awaiting : List (Nat × Nat) := []
  deriving DecidableEq, Repr
/-- A graph record handed to a lane (R232). -/
structure WqRec where
  payload : DWord
  popped : Bool := false
  deriving DecidableEq, Repr
/-- A mooring retirement: mooring identity, team scope, units (or one arrival). -/
structure Retire where
  /-- 0 none, 1 retire units, 2 retire one arrival -/
  kind : Nat := 0
  /-- scratch of this core, or global memory -/
  core : Option Nat := none
  addr : Nat := 0
  va : DWord := 0
  key : Nat := 0
  units : Nat := 0
  deriving DecidableEq, Repr
/-- One copy of an open or sealed batch (R238): destination core and address, source physical address, its key,
size, and whether whole sectors with sideband move. -/
structure CopyItem where
  dcore : Nat
  daddr : Nat
  src : Nat
  key : Nat
  size : Nat
  whole : Bool
  /-- performed already, for an `xfence` that names class C -/
  done : Bool := false
  /-- the lane that issued it -/
  lane : Nat := 0
  deriving DecidableEq, Repr
/-- A sealed batch (R239). -/
structure Batch where
  id : Nat := 0
  items : List CopyItem := []
  act : Retire := {}
  /-- the lane that sealed it, and the number of the transaction next issued then (R248) -/
  lane : Nat := 0
  txn : Nat := 0
  deriving DecidableEq, Repr
/-- The kinds of operation on the tl counter (R247, R276, R286). -/
inductive TlKind where
  | tile | relay | gath | matrix | glapp
  deriving DecidableEq, Repr
/-- One write of an accepted tender operation: destination core, address, bytes, slots, poison. -/
structure SecWrite where
  core : Nat
  addr : Nat
  bytes : List Byte
  s0 : Option Byte := none
  s1 : Option Byte := none
  poison : Bool := false
  deriving DecidableEq, Repr
/-- An accepted tender operation (R244, R250, R252): its physical reads are fixed at completion from `desc`. -/
structure TlOp where
  id : Nat
  kind : TlKind
  done : Bool := false
  /-- the descriptor words as read at issue, and the operand B -/
  desc : List Byte := []
  b : DWord := 0
  /-- rounding mode taken at issue -/
  rnd : Nat := 0
  /-- rows of a gather, read at issue -/
  idx : List Nat := []
  /-- hops performed by a relay -/
  hop : Nat := 0
  act : Retire := {}
  /-- queue-register entries (0 `mqa`, 1 `mqb`) this operation delivers, and how many it has delivered -/
  queue : Nat := 0
  entries : Nat := 0
  given : Nat := 0
  /-- translations fixed at issue: page number of 64 KiB to physical address and key -/
  pages : Tbl (Nat × Nat) := []
  /-- destination core and scratch address -/
  dst : Nat × Nat := (0, 0)
  /-- `relay`: where each hop goes and the mooring it retires on -/
  hops : List (Nat × Nat) := []
  moors : List Retire := []
  /-- the lane that issued it, the lowest of those that did -/
  lane : Nat := 0
  deriving DecidableEq, Repr
/-- A batch slot (R360). -/
structure BSlot where
  /-- 0 free, 1 open, 2 closing -/
  st : Nat := 0
  touched : List (Nat × Nat) := []
  /-- the OR of the error bitmaps gathered from each target -/
  errs : Tbl (BitVec 16) := []
  /-- targets whose daymark is awaited -/
  await : List Nat := []
  /-- receive entries of this device that the batch has written over the loop path -/
  rx : List Nat := []
  /-- the close record: physical address, 0 for none; its key and virtual address -/
  record : Nat := 0
  recKey : Nat := 0
  recVa : DWord := 0
  fence : Bool := false
  deriving DecidableEq, Repr
/-- The values a rollback restores in one lane (R191). -/
structure LaneSnap where
  pc : DWord
  slot : Nat
  regs : Tbl Reg
  queue : List QEnt
  preds : BitVec 8
  status : Word
  control : Word
  mode : LaneMode
  region : List Access
  deriving DecidableEq, Repr
/-- A fence in progress (R190 to R192): the fencing lanes, scope, what must be performed first, what a rollback restores, the
sectors read speculatively, and whether another agent wrote one. -/
structure Spec where
  lanes : LaneSet
  scope : Scope
  dropsL1 : Bool
  /-- transactions that must be done first -/
  waits : List Nat
  /-- transactions numbered from here on were issued speculatively -/
  ticket : Nat
  /-- batches, tl operations, engine operations and fold requests that must be complete (`xfence`) -/
  batches : List Nat := []
  tls : List Nat := []
  mxs : List Nat := []
  folds : List Nat := []
  /-- whether class C, and class W with flights numbered below the bound, must be performed -/
  copies : Bool := false
  flights : Option Nat := none
  snap : Tbl LaneSnap
  g : Tbl DWord
  j : Tbl LaneSet
  quarters : Tbl Quarter
  reads : List Nat := []
  hit : Bool := false
  deriving DecidableEq, Repr
/-- A joint matrix word at which a group waits, or a `mcvn` proposal (R260, R261). -/
structure AtJoint where
  /-- MTX index of the word -/
  idx : Nat
  modi : Nat
  a : Word
  b : DWord
  rnd : Nat
  lanes : LaneSet
  /-- the decode report of its word (R52) -/
  report : DWord := 0
  /-- accepted: its chain executes when the lanes issue it again -/
  accepted : Bool := false
  deriving DecidableEq, Repr
/-- A group (R143). -/
structure Group where
  team : Nat := 0
  idx : Nat := 0
  lanes : Tbl Lane := []
  quarters : Tbl Quarter := []
  g : Tbl DWord := []
  j : Tbl LaneSet := []
  ld : Nat := 0
  st : Nat := 0
  cp : Nat := 0
  tl : Nat := 0
  txns : List Txn := []
  mqa : List VEnt := []
  mqb : List VEnt := []
  mqo : List VEnt := []
  wqi : Tbl WqRec := []
  orphaned : Bool := false
  openBatch : List CopyItem := []
  batches : List Batch := []
  tlOps : List TlOp := []
  slots : Tbl BSlot := []
  tag : Nat := 0
  spec : Option Spec := none
  atJoint : Option AtJoint := none
  lastIssue : Nat := 0
  ended : Bool := false
  /-- the slot it had, once it has ended and given it up with work outstanding (R157) -/
  home : Option Nat := none
  deriving DecidableEq, Repr

/-! ### The matrix engine -/

/-- An operand of the engine: the format code, rows of blocks, and poison (R265, R268, R269). -/
structure Operand where
  fmt : Nat := 0
  rows : List (List Block) := []
  poison : Bool := false
  deriving DecidableEq, Repr
/-- An operation the engine has accepted (R276): its MTX index (10 is `glapp`), its words, the convening it was accepted under,
and the entries each group has supplied so far, headers included (R264). -/
structure MxOp where
  id : Nat := 0
  idx : Nat
  modi : Nat := 0
  a : Word := 0
  b : DWord := 0
  rnd : Nat := 0
  /-- group slots in ascending group index -/
  groups : List Nat := []
  /-- by group slot, the lane that issued it -/
  by_ : Tbl Nat := []
  ctx : Nat := 0
  passed : Bool := false
  gotA : Tbl (List VEnt) := []
  gotB : Tbl (List VEnt) := []
  /-- `mdrain` to `mqo`: entries delivered to each group -/
  sent : Tbl Nat := []
  /-- scratch place of `mdrain`, `mload` and `mcfg` -/
  place : Nat × Nat := (0, 0)
  /-- `glapp`: the log descriptor's physical address, key and virtual address, the record's slot, sequence and worker -/
  log : Nat := 0
  logKey : Nat := 0
  va : DWord := 0
  wid : Nat := 0
  seq : Nat := 0
  base : DWord := 0
  deriving DecidableEq, Repr
/-- The matrix engine of a core, or one quarter-engine in partitioned mode (R255 to R278). -/
structure Engine where
  holder : Option Nat := none
  lastCtx : Option Nat := none
  /-- elements of the tiles: key 1024·tile + 32·i + j -/
  acc : Tbl Word := []
  poisoned : List Nat := []
  escape : Bool := false
  /-- the lattice base table: an entry not listed holds its reset value (R62) -/
  base : Tbl (BitVec 16) := []
  dY : Option (Operand × Operand) := none
  conv : BitVec 32 := 0
  proposals : Tbl (BitVec 32) := []
  ops : List MxOp := []
  deriving DecidableEq, Repr

/-! ### Cores, teams, grids -/

/-- A sector held by the L1 data cache (R205, R207). -/
structure L1Sector where
  bytes : List Byte
  s0 : Byte
  s1 : Byte
  poison : Bool
  deriving DecidableEq, Repr
/-- A cached translation (R221): context, page, leaf, large page, and where its entry stands. -/
structure TlbEnt where
  ctx : Nat
  page : Nat
  big : Bool
  leaf : DWord
  entry : Nat
  deriving DecidableEq, Repr
/-- An amax cell with its owner context (R141, R331). -/
structure AmaxCell where
  v : Word := 0
  owner : Option Nat := none
  deriving DecidableEq, Repr
/-- A core (R143, R205, R212). -/
structure Core where
  /-- the clock at the core's last reset: `cycles` counts from it (R100) -/
  resetAt : Nat := 0
  groups : Tbl Group := []
  scr : Mem := {}
  l1 : Tbl L1Sector := []
  /-- the instruction cache: sectors of code as they were when fetched, latest first, at most 128 KiB (R152) -/
  icache : List (Nat × List Byte) := []
  tlb : List TlbEnt := []
  amax : Tbl AmaxCell := []
  /-- engine 0, or quarter-engines 0 to 3 in partitioned mode (R257) -/
  engines : Tbl Engine := []
  partitioned : Bool := false
  /-- MiB of vault memory (R212) -/
  vm : Nat := 0
  /-- groups of each partition's active set, least recently issued first (R146; timing only) -/
  active : Tbl (List Nat) := []
  failed : Bool := false
  vaultFailed : Bool := false
  hot : Bool := false
  lastThermal : Nat := 0
  thermalCount : Nat := 0
  /-- rows of the vault moved to spares (R332) -/
  sparedRows : List Nat := []
  physical : Nat := 0
  deriving DecidableEq, Repr
/-- A scratch map (R210). -/
structure ScrMap where
  sofs : Nat
  nchk : Nat
  va : DWord
  filled : List Nat := []
  dirtyData : List Nat := []
  dirtyScale : List Nat := []
  deriving DecidableEq, Repr
/-- The saved state of a suspended team (R330). -/
structure Saved where
  groups : Tbl Group := []
  scr : Mem := {}
  /-- the engine, or the quarter-engines in partitioned mode, that the team held, by number (R257, R278) -/
  engines : Tbl Engine := []
  partitioned : Bool := false
  amax : Tbl AmaxCell := []
  deriving DecidableEq, Repr
/-- Where a team is. -/
inductive TeamSt where
  | waiting | resident | halted | suspended | ended
  deriving DecidableEq, Repr
/-- A team (R143, R159). -/
structure Team where
  grid : Nat := 0
  idx : Nat := 0
  core : Nat := 0
  slots : List Nat := []
  scrBase : Nat := 0
  scrLen : Nat := 0
  maps : Tbl ScrMap := []
  member : Nat := 0
  cluster : Option Nat := none
  prio : Nat := 0
  placedAt : Nat := 0
  st : TeamSt := .waiting
  saved : Option Saved := none
  /-- team-end write-back still to be done (R211) -/
  flush : Bool := false
  /-- suspended for a hot core: not restored on one (R305) -/
  avoidHot : Bool := false
  /-- the order in which suspended teams were saved (R304) -/
  savedAt : Nat := 0
  deriving DecidableEq, Repr
/-- The states of a registered record (R296). -/
inductive GridSt where
  | waiting | inputs | ready | placing | running | retiring | retired
  deriving DecidableEq, Repr
/-- A registered grid (R295, R296, R298, R315, R337). -/
structure Grid where
  ctx : Nat := 0
  rec_ : DWord := 0
  alen : Nat := 0
  code : DWord := 0
  fp : DWord := 0
  inputs : List (Nat × Nat × Nat) := []
  prio : Nat := 0
  ceiling : Nat := 0
  ngrp : Nat := 1
  clw : Nat := 1
  clh : Nat := 1
  res : Bool := false
  det : Bool := false
  scrk : Nat := 0
  nteam : Nat := 1
  args : DWord := 0
  source : Nat := 0
  parent : Option Nat := none
  node : Option Nat := none
  /-- records for the group of a node (R312) -/
  recs : List DWord := []
  signal : DWord := 0
  sigVal : DWord := 0
  st : GridSt := .waiting
  placed : Nat := 0
  seed : DWord := 0
  coll : Option DWord := none
  collInst : Option Nat := none
  aborted : Bool := false
  /-- the order of entry into READY (R298) -/
  readyAt : Nat := 0
  /-- the address of the packet it came from (R420) -/
  pkt : DWord := 0
  deriving DecidableEq, Repr
/-- A registered graph node (R310 to R312). -/
structure Node where
  ctx : Nat := 0
  addr : DWord := 0
  rec_ : DWord := 0
  args : DWord := 0
  ring : DWord := 0
  nring : Nat := 32
  parent : Nat := 0
  /-- template fields copied at registration -/
  tmpl : Grid := {}
  st : Nat := 0
  /-- its parent's grid was aborted: records not handed to a group are dropped (R321) -/
  dropped : Bool := false
  deriving DecidableEq, Repr

/-! ### Lantern, Keeper, host -/

/-- The packet a queue is serving (R289): read, started, and the effects already performed (R335). -/
structure PktSt where
  started : Bool := false
  words : List DWord := []
  grid : Option Nat := none
  inst : Option Nat := none
  /-- first layer not yet acted on (R335); number of waiting time-outs -/
  progress : Nat := 0
  wrote : Bool := false
  snapshot : Tbl (BitVec 32) := []
  since : Nat := 0
  deriving DecidableEq, Repr
/-- A command queue (R288). -/
structure Queue where
  base : DWord := 0
  nslot : BitVec 16 := 0
  prio : BitVec 4 := 0
  en : Bool := false
  err : Bool := false
  ctx : BitVec 16 := 0
  ecode : BitVec 16 := 0
  wptr : BitVec 32 := 0
  rptr : BitVec 32 := 0
  cptr : BitVec 32 := 0
  pkt : PktSt := {}
  deriving DecidableEq, Repr
/-- A fault record (R324, R420). -/
structure FRec where
  cause : Cause
  src : Nat := 0
  park : Bool := false
  ctx : Nat := 0
  lanes : LaneSet := 0
  core : Nat := 0
  gslot : Nat := 0
  team : Nat := 0
  addr : DWord := 0
  fpc : DWord := 0
  detail : Word := 0
  deriving DecidableEq, Repr
/-- A record written to a ring slot and still holding it, or waiting to be written (R324). -/
structure FSlot where
  id : Nat
  r : FRec
  /-- ring slot number once written, the address written to, and its place in FQNODE's ring -/
  slot : Option Nat := none
  va : DWord := 0
  seq : Nat := 0
  done : Bool := false
  deriving DecidableEq, Repr
/-- A context (R317, R324, R336). -/
structure Ctx where
  priv : Bool := false
  root : Nat := 0
  prio : Nat := 0
  eclass : Nat := 0
  nlayer : Nat := 0
  tmbase : DWord := 0
  tvec : DWord := 0
  seed : DWord := 0
  lastDisp : Nat := 0
  gate : List (Nat × Bool × Nat) := []
  sources : Tbl LayerSrc := []
  upmask : BitVec 5 := 0
  fqring : DWord := 0
  nfq : Nat := 0
  fqnode : DWord := 0
  nextRec : Nat := 0
  pending : List FSlot := []
  /-- frames the Keeper allotted to the context (R323): physical frame numbers -/
  frames : List Nat := []
  /-- frames of each fetched or arriving layer, in the order of its source's pages -/
  layerFrames : Tbl (List Nat) := []
  /-- layers whose fetch waits for frames (R347) -/
  wanted : List Nat := []
  /-- bytes and sideband sectors that have come in of arriving layers, as intervals (R340) -/
  came : Tbl (List (Nat × Nat) × List (Nat × Nat)) := []
  /-- layers whose topmark has had no page to stand on since the context's creation (R338) -/
  tmFresh : List Nat := []
  /-- layers whose every byte has come in, not yet RESIDENT (R343) -/
  landed : List Nat := []
  /-- destroyed, and kept until its aborted grids have retired (R398) -/
  dying : Bool := false
  deriving DecidableEq, Repr
/-- A page-class fault awaiting an outcome (R323). -/
structure ParkRec where
  ctx : Nat
  team : Nat
  gi : Nat
  /-- record in the fault queue, for an upcall -/
  rec_ : Option Nat
  lanes : LaneSet
  cause : Cause
  va : DWord
  /-- a fault of the write-back at the team's end, at which no lane waits (R211) -/
  flush : Bool := false
  deriving DecidableEq, Repr
/-- A `kreq` awaiting its answer (R327, R328). -/
structure KReq where
  team : Nat
  gi : Nat
  lane : Nat
  dst : Dst
  a : DWord
  svc : Nat
  /-- reservation that the status fills -/
  txn : Nat := 0
  /-- when it was issued -/
  at_ : Nat := 0
  deriving DecidableEq, Repr
/-- A posted mooring operation (R186): kind 0 minit, 1 marrive, 2 mexpect. -/
structure Posted where
  core : Nat
  grp : Nat
  lane : Nat
  kind : Nat
  moor : Retire
  units : Word
  /-- reservation that the phase token fills -/
  txn : Nat
  /-- when it was issued (R183) -/
  at_ : Nat
  deriving DecidableEq, Repr
/-- A plain store that counts as outstanding, with the bytes that stood in its place: other cores, and engines, may read these until it
has been performed at device scope or its lane releases (R194 to R200, R407; log entry 9). -/
structure Lag where
  core : Nat
  grp : Nat
  lane : Nat
  txn : Nat
  /-- the core whose scratchpad it writes; `none` is device memory -/
  unit : Option Nat
  addr : Nat
  key : Nat
  old : List Byte
  deriving DecidableEq, Repr
/-- A posted `jdec` (R309): physical address of the word, key, context, and where the record goes. -/
structure PJdec where
  core : Nat
  grp : Nat
  /-- index of the issuing team in its grid -/
  team : Nat
  addr : Nat
  key : Nat
  va : DWord
  ctx : Nat
  /-- the issuing group's slot at issue (R420) -/
  gslot : Nat
  deriving DecidableEq, Repr
/-- What a flight carries (R355, R360, R369). -/
inductive Cargo where
  | refl (r : Reflect)
  | beacon (o : BeaconOp)
  /-- a reply of the device's own Beacon, or of the device for an absent target (R370) -/
  | reply (r : Reflect)
  | close (npaths : Nat)
  deriving DecidableEq, Repr
/-- A message of this device on its way to a target, in the reflection order of its path (R356). -/
structure Flight where
  id : Nat
  tgt : Nat
  path : Nat
  cargo : Cargo
  team : Nat
  /-- index of the issuing group in its team, and its place at issue -/
  gi : Nat
  core : Nat
  grp : Nat
  tag : Nat
  ack : Nat := 0
  amoor : DWord := 0
  va : DWord := 0
  ctx : Nat := 0
  /-- performed at the target, with this bitmap; its acknowledgement or daymark is still due -/
  done : Option (BitVec 16) := none
  deriving DecidableEq, Repr
/-- A message to another device as it left (R359, R360, R366, R369, R378): kind 0 acknowledgement, 1 daymark, 2 reply, 3 read
error completion, 4 grant, 5 contribution, 6 report, 7 digest; its destination and its content. -/
structure Sent where
  kind : Nat
  dst : Nat
  data : List Nat
  deriving DecidableEq, Repr
/-- A `glfold` outstanding (R287): its log, range, S, mooring and the group that issued it. -/
structure Fold where
  log : Nat
  key : Nat
  s : Nat
  w0 : Nat
  wn : Nat
  ctx : Nat
  core : Nat
  grp : Nat
  team : Nat
  /-- the mooring's scratch offset -/
  va : DWord
  /-- the lane that issued it, and its group's slot at issue (R420) -/
  lane : Nat := 0
  gslot : Nat := 0
  deriving DecidableEq, Repr
/-- A record of a gradient log that is reserved and not yet folded (R283, R286): its sequence number and weight-tile id, whether
its `glapp` has completed, and the group that issued it. -/
structure GRec where
  seq : Nat
  wid : Nat
  ready : Bool := false
  core : Nat
  grp : Nat
  team : Nat
  deriving DecidableEq, Repr
/-- A gradient log with work outstanding (R279): key and virtual address of its descriptor, and its unfolded records in
order. -/
structure GLog where
  key : Nat
  ctx : Nat
  va : DWord
  recs : List GRec := []
  /-- of the oldest record, the next row to fold, and when the lock of its master row was asked for (R282) -/
  row : Nat := 0
  asked : Option Nat := none
  deriving DecidableEq, Repr
/-- A sharding layout in bit form (R371, R372): for each index bit whether it names a mesh bit, and which bit; and PART. -/
structure Layout where
  map : List (Bool × Nat) := []
  part : Nat := 0
  deriving DecidableEq, Repr
/-- A collective instance (R378 to R384, R421). -/
structure CollInst where
  q : Nat := 0
  ctx : Nat := 0
  desc : DWord := 0
  /-- the descriptor's R/W fields, layouts and mesh table as read at the start -/
  d : Nat := 0
  slay : Layout := {}
  dlay : Layout := {}
  mesh : List Nat := []
  grid : Option Nat := none
  /-- its number among the instances of its stream (R421) -/
  number : Nat := 0
  /-- this device's coordinate -/
  me : Nat := 0
  seed : Nat := 0
  /-- members whose digests have agreed -/
  digests : List Nat := []
  /-- ready buckets, 0 standing for the whole source where NBKT is 0 -/
  buckets : List Nat := []
  /-- wire code and scale of each element received and kept: key coordinate·2^64 + element -/
  got : Tbl (Nat × Nat) := []
  /-- slots granted to senders and not yet consumed, and runs consumed: coordinate, first element -/
  given : List (Nat × Nat) := []
  taken : List (Nat × Nat) := []
  /-- grants received and not yet used, and runs sent: coordinate, first element -/
  grants : List (Nat × Nat) := []
  sent : List (Nat × Nat) := []
  /-- events raised: bit k -/
  ev : BitVec 3 := 0
  /-- members that have reported events 0 and 1 -/
  reports : List Nat := []
  stat : Nat := 0
  finished : Bool := false
  deriving DecidableEq, Repr
/-- The status block (R397). -/
structure Status where
  st : Nat := 0
  stepNo : Nat := 0
  presv : Bool := false
  fwnew : Bool := false
  ecode : Nat := 0
  ncore : Nat := 0
  deriving DecidableEq, Repr
/-- The mailbox (R398). -/
structure Mailbox where
  cmd : DWord := 0
  busy : Bool := false
  /-- the answer of the running command, not yet written -/
  answer : Nat := 0
  status : Nat := 0
  /-- the answer stands unread -/
  unread : Bool := false
  /-- a GO arrived while BUSY -/
  missed : Bool := false
  /-- the context and the address of a running UNMAP (R227, R398) -/
  unmapping : Option (Nat × Nat) := none
  /-- the 4 KiB payload, by offset; a byte not listed is zero -/
  payload : Tbl Byte := []
  deriving DecidableEq, Repr
/-- The training record (R404): lanes lost on the die links, pseudo-channels moved to spares, ports trained, and the device id with
whether a panel was found. -/
structure Training where
  lanes : List (Nat × Nat) := []
  channels : List (Nat × Nat) := []
  ports : List Nat := []
  devId : BitVec 12 := 0
  noPanel : Bool := false
  deriving DecidableEq, Repr
/-- The firmware flash and what start-up saved (R400, R404): the bytes written over the image as delivered, the digest committed for it,
and the digest of the running image; `none` is the delivered image's own digest. -/
structure Firmware where
  image : Tbl Byte := []
  digest : Option Nat := none
  running : Option Nat := none
  trained : Option Training := none
  deriving DecidableEq, Repr
/-- A start under way (R403, R404): the step is STEP of the status block. -/
structure Starting where
  warm : Bool
  preserve : Bool
  x : StartInputs
  deriving DecidableEq, Repr
/-- Power and temperature (R405, R406). -/
structure Power where
  plim : Nat := 2800
  clockMHz : Nat := 2500
  watts : Nat := 0
  tripped : Bool := false
  coldReq : Bool := false
  deriving DecidableEq, Repr
/-- The Lantern's and Keeper's pair in service (R10, R335). -/
structure Pair where
  standby : Bool := false
  takeovers : Nat := 0
  deriving DecidableEq, Repr
/-- One reservation of a die's dispatcher (R302). -/
structure Reservation where
  level : Nat
  grid : Nat
  cores : List Nat
  deriving DecidableEq, Repr

/-! ### The model's own bookkeeping -/

/-- Which agent moves next (log entry 2). -/
inductive Turn where
  /-- the group in slot `grp` of the core is issued: a fetch slot -/
  | issue (core grp : Nat)
  /-- the start-up step under way is done (R403) -/
  | startStep
  -- BEGIN EVENTS
  | loadDataReturn (core : Nat) (grp : Nat) (txn : Nat) (bad : Bool)
  | fenceCompletion (core : Nat) (grp : Nat)
  | speculationRollback (core : Nat) (grp : Nat)
  | sleepExpiry (core : Nat) (grp : Nat) (lane : Nat)
  | mooringOpAtHome (k : Nat)
  | chunkFill (team : Nat) (map : Nat) (chunk : Nat)
  | scratchWriteback (team : Nat)
  | groupEnd (core : Nat) (grp : Nat)
  | gridRetirement (grid : Nat)
  | preemptionRequest (team : Nat)
  | contextSave (team : Nat)
  | faultService (k : Nat) (how : Service)
  | faultRecordDelivery (ctx : Nat)
  | retry (k : Nat)
  | remap (k : Nat)
  | setrap (k : Nat)
  | migrate (k : Nat)
  | restream (k : Nat)
  | deliver (k : Nat)
  | abort (k : Nat)
  | ret (k : Nat)
  | copyBatchCompletion (core : Nat) (grp : Nat)
  | tileCompletion (core : Nat) (grp : Nat) (op : Nat)
  | relayHopCompletion (core : Nat) (grp : Nat) (op : Nat)
  | gatherCompletion (core : Nat) (grp : Nat) (op : Nat)
  | jointIssue (core : Nat) (part : Nat)
  | matrixPass (core : Nat) (part : Nat)
  | matrixOpCompletion (core : Nat) (part : Nat)
  | matrixHeaderFailure (core : Nat) (part : Nat)
  | mdrainEntryDelivery (core : Nat) (part : Nat)
  | glappRecordWrite (core : Nat) (part : Nat)
  | recordFold (log : Nat)
  | glfoldRetirement (k : Nat)
  | doorbell (q : Nat) (wptr : BitVec 32)
  | packetNop (q : Nat)
  | launch (q : Nat)
  | coll (q : Nat)
  | waitmem (q : Nat)
  | waitmemReread (q : Nat)
  | signalmem (q : Nat)
  | modelRequest (q : Nat)
  | modelWithdraw (q : Nat)
  | modelPin (q : Nat)
  | modelUnpin (q : Nat)
  | qbarrier (q : Nat)
  | workTableTimeout (q : Nat)
  | placementAttempt (die : Nat)
  | candidateReservation (die : Nat) (level : Nat)
  | thermalMigration (core : Nat)
  | jdecAtHome (k : Nat)
  | layerArrival (ctx : Nat) (layer : Nat) (bytes : List LayerBytes)
  | layerFetchFailure (ctx : Nat) (layer : Nat) (abandon : Bool)
  | layerEviction (ctx : Nat) (layer : Nat)
  | reflectionArrival (a : ReflArrival)
  | reflectionAcknowledgement (k : Nat) (bitmap : BitVec 16)
  | closeMarkerArrival (a : CloseArrival)
  | daymarkArrival (k : Nat) (tgt : Nat) (bitmap : BitVec 16)
  | beaconBcasStep (a : BeaconArrival)
  | beaconBenqStep (a : BeaconArrival)
  | beaconBchaseStep (a : BeaconArrival)
  | beaconBredStep (a : BeaconArrival)
  | ualinkReadReceived (src : Nat)
  | slotGrant (k : Nat) (peer : Nat) (e0 : Nat)
  | contributionArrival (k : Nat) (c : Contribution)
  | memberReport (k : Nat) (m : Nat)
  | readyWordPoll (k : Nat)
  | collectiveFailure (k : Nat) (why : BitVec 8)
  | vaultRowSparing (vault : Nat) (row : Nat)
  | hbmChannelFailure (stack : Nat) (ch : Nat)
  | dieLinkLaneFailure (link : Nat) (lane : Nat)
  | ualinkPortFailure (port : Nat)
  | coreFailure (core : Nat) (lost : List Nat)
  | vaultFailure (core : Nat)
  | heartbeatTakeover
  | cxlPortFailure
  | patrolScrub (sector : Nat)
  | hostMemAccess (hpa : Nat) (a : HostAccess)
  | scaleViewWrite (hpa : Nat) (v : Byte)
  | ctxCreate (ctx : Nat) (x : CtxParams)
  | ctxSet (ctx : Nat) (x : CtxChange)
  | ctxDestroy (ctx : Nat)
  | map (ctx : Nat) (va : DWord) (leaf : DWord)
  | unmap (ctx : Nat) (va : DWord)
  | xlate (ctx : Nat) (va : DWord)
  | keyLoad (key : Nat) (pair : Nat)
  | keyClear (key : Nat)
  | winSet (x : WinEntry)
  | queueSet (q : Nat) (x : QueueFields)
  | queueClear (q : Nat)
  | layerDone (ctx : Nat) (layer : Nat)
  | fwWrite (off : Nat) (data : List Byte)
  | fwCommit (digest : Nat)
  | warm (preserve : Bool)
  | mailboxUnknownCode (code : BitVec 32)
  | bar0WriteIgnored (off : Nat) (v : DWord)
  | coldStart (x : StartInputs)
  | warmReset (preserve : Bool) (x : StartInputs)
  | managementRead (what : MgmtItem)
  | plimWrite (watts : Nat)
  | coldResetRequest
  | powerWindow (watts : Nat)
  | temperatureHot (core : Nat)
  | temperatureTrip
  | mbstsRead
  | hdmDecoderWrite (which : BitVec 2) (base : DWord)
  | digestExchange (k : Nat) (m : Nat) (digest : Nat)
  | vaultSplitChange (core : Nat) (vm : Nat)
  -- END EVENTS
  /-- `n` clocks pass on every core -/
  | clock (n : Nat)
  /-- a store, no-return atomic or `cwb` of the group has been performed at device scope and counts out -/
  | storeDone (core grp txn : Nat)
  /-- a core, or the engines (216), come to read behind other cores' outstanding plain stores, or cease to (log entries 9, 20) -/
  | lagging (reader : Nat) (on : Bool)
  /-- an outstanding plain load reads memory (log entry 8) -/
  | loadLate (core grp txn : Nat)
  /-- the L1 data cache of the core drops a sector (replacement) -/
  | l1Drop (core sector : Nat)
  /-- the instruction cache of the core drops a sector (replacement) -/
  | icDrop (core sector : Nat)
  /-- the core drops a cached translation (replacement) -/
  | tlbDrop (core k : Nat)
  /-- an L2 slice writes a dirty line back of its own accord, which ends its mark (R212, R334) -/
  | l2WriteBack (line : Nat)
  /-- the Keeper writes the running mailbox command's answer -/
  | mbAnswer
  /-- an uncorrectable error strikes a sector of device memory or of a scratchpad, numbered as conflict detection does (R217) -/
  | memError (sec : Nat)
  /-- an uncorrectable error strikes the accumulator memory of a tile (R277) -/
  | accError (core part tile : Nat)
  deriving DecidableEq, Repr
/-- An atomic operation (R135, R136, R141). -/
inductive AtomOp where
  | int (w : Nat) (op : AOp)
  | flt (op : AFOp)
  | cas (w : Nat)
  | cas2
  deriving DecidableEq, Repr
/-- The effects of one word of a chain in one lane, taken at the end of the chain in slot order (R28): operands are
evaluated, addresses translated, checks made.  A word performed once per chain gives its effect to the
lowest-numbered executing lane alone (R223). -/
inductive Eff where
  /-- a result of `bits` bits; `shadow` replaces the default slots of the lane's quarter (R23) -/
  | result (d : Dst) (bits : Nat) (v : QWord) (shadow : Option Shadow)
  /-- a result written and pushed when transaction data returns -/
  | load (d : Dst) (size : Nat) (sign : Bool) (loc : Loc) (ea : DWord) (acq : Bool) (nc : Bool)
  | loadBlk (d : Dst) (f : EFmt) (locs : List Loc) (ea : DWord) (sh : Shadow)
  | store (loc : Loc) (bytes : List Byte) (rel : Bool)
  | storeBlk (f : EFmt) (locs : List Loc) (code : Word) (sh : Shadow)
  | atom (d : Option Dst) (op : AtomOp) (loc : Loc) (b : QWord) (ea : DWord)
  | amax (d : Dst) (k : Nat) (reset : Bool) (b : Word)
  | pred (p : Nat) (v : Bool)
  | flags (f : Flags)
  | jump (pc : DWord)
  | enrol (j : Nat)
  | strike (j : Nat)
  | join (j : Nat)
  | setJ (j : Nat) (m : LaneSet)
  | exit
  | sleep (n : Nat)
  | yield
  | prio (k : Nat)
  | rfe
  | special (sr : Nat) (v : DWord)
  | bar (clu : Bool)
  | moor (kind : Nat) (d : Dst) (m : Retire) (units : Word)
  | mwait (m : Retire) (token wide : Bool)
  | acquire (l1 : Bool)
  /-- a `fence` or `xfence`: its scope, the classes it waits for (R178), and whether its completion drops the L1 data cache -/
  | fence (scope : Scope) (classes : Nat) (dropsL1 : Bool)
  /-- a synchronising instruction closes the lane's region and opens the next (R193) -/
  | sync
  | cinv (va : DWord) (n : Nat)
  | cwb (va : DWord) (n : Nat)
  | pfetch (va : DWord) (l2 : Bool)
  | smap (va : DWord) (d : Word)
  | sflush (k : List Nat) (unmap : Bool)
  | tlbi (va : DWord) (sel : Word)
  | cpy (c : CopyItem)
  | seal (act : Retire)
  | tend (o : TlOp)
  | mrsv
  | mrel
  | mcvn (mask : BitVec 32)
  /-- an accepted joint word's chain takes effect: the group's wait is over -/
  | accepted
  | mcfg (o : MxOp)
  | glapp (o : MxOp)
  | glfold (f : Fold)
  | emit (node : Nat) (payload : DWord)
  /-- the object at an address, and where it stands in memory -/
  | spawn (a : DWord) (b : DWord) (obj : Nat)
  | jdec (x : PJdec)
  | wtag (t : Nat)
  | wclose (t : Nat) (rec_ : Retire)
  /-- `wfence` is over -/
  | wfenceEnd
  | beacon (o : BeaconOp) (tgt : Nat) (path : Nat)
  | tmReq (layer : Nat)
  | tmPin (layer : Nat) (up : Bool)
  | kreq (r : KReq)
  /-- a plain store or load recorded for conflict detection (R198) -/
  | touch (a : Access)
  /-- an object that the word reads, or writes, as a lane would: the walker's marks, and a line of the L1 data cache (R207, R221) -/
  | object (l : Loc) (n : Nat) (write : Bool)
  deriving DecidableEq, Repr
/-- What a lane does with one word: traps, parks, stalls, or takes effects. -/
inductive LaneOut where
  | trap (c : Cause) (taddr : DWord)
  | park (c : Cause) (va : DWord)
  | parkLayer (layer : Nat)
  | stall (why : Stall)
  /-- waits at a joint word (R261) or a `mcvn` proposal (R260), before the chain takes effect -/
  | joint (x : AtJoint)
  /-- the write-back of maps of the team: the sectors that can be written are, and the lane ends as the next one fails (R225) -/
  | flush (maps : List Nat)
  /-- begins a `wfence`: the current slot closes, and the lane waits at its chain with a ticket (R363) -/
  | wfence
  | ok (es : List Eff)
  deriving DecidableEq, Repr
/-- One word of the chain: its slot, whether it was guarded off in some lanes, and what each lane does with it. -/
structure WordOut where
  slot : Nat
  /-- queues it pops: bit 0 `mqo`, bit 1 `wqi` -/
  pops : Nat := 0
  /-- the shadows a word that pops `mqo` gives the positions it writes, by quarter (R231) -/
  dflt : List Shadow := []
  outs : Tbl LaneOut := []
  /-- of a word performed once per chain: for each lane that executes it, what it and the lanes above it would do were it the lowest (R223) -/
  own : Tbl (Tbl LaneOut) := []
  /-- of such a word, once it is settled: the lanes that execute it -/
  once : List Nat := []
  deriving DecidableEq, Repr
/-- The chain in progress (R28, R147 to R151): who executes it, the packet, the words decided so far, what a later
word of the chain is checked against (R49, steps 13 to 17), and the shared state as it stood at the start of the
fetch slot. -/
structure Chain where
  active : Bool := false
  core : Nat := 0
  grp : Nat := 0
  lanes : LaneSet := 0
  broadcast : Bool := true
  pc : DWord := 0
  /-- slot of the chain's first word, and of the next word -/
  first : Nat := 0
  slot : Nat := 0
  words : List Word := []
  outs : List WordOut := []
  pipes : List Pipe := []
  /-- named registers written by earlier words: (first, count) -/
  writes : List (Nat × Nat) := []
  pops : List Src := []
  /-- the guard that applies to the next word (R50) -/
  guard : Option PSrc := none
  g : Tbl DWord := []
  j : Tbl LaneSet := []
  quarters : Tbl Quarter := []
  /-- lanes that execute from their loop buffers later in this fetch slot (R151) -/
  later : List Nat := []
  /-- when the group last issued before this fetch slot (R145) -/
  issued : Nat := 0
  deriving DecidableEq, Repr

/-! ### The whole device -/

/-- The window, multicast and exposure tables and the traffic on the way (R352 to R370). -/
structure Fabric where
  devId : BitVec 12 := 0
  noPanel : Bool := false
  /-- devices taken out of the domain (R381) -/
  lost : List Nat := []
  tx : Tbl (BitVec 512) := []
  rx : Tbl (BitVec 256) := []
  mcast : Tbl (List Nat) := []
  expo : Tbl (BitVec 256) := []
  net : List Flight := []
  /-- close markers of other devices' batches received so far: source, batch -/
  marks : List (Nat × Nat) := []
  /-- bitmaps gathered for other devices' batches: source, batch, bitmap -/
  remoteErrs : List (Nat × Nat × BitVec 16) := []
  /-- receive entries other devices' batches have written: source, batch, entry -/
  remoteRx : List (Nat × Nat × Nat) := []
  /-- messages sent to other devices, latest first -/
  sent : List Sent := []
  reads : Nat := 0
  ports : List Nat := []
  deadPorts : List Nat := []
  lostLanes : List (Nat × Nat) := []
  deriving DecidableEq, Repr
/-- The Lantern and the dispatchers (R288 to R316). -/
structure Lantern where
  queues : Tbl Queue := []
  rrPrio : Tbl Nat := []
  grids : Tbl Grid := []
  nodes : Tbl Node := []
  teams : Tbl Team := []
  nextGrid : Nat := 0
  nextTeam : Nat := 0
  nextSave : Nat := 0
  nextReady : Nat := 0
  /-- source last served, per die and level: key 16·die + level -/
  lastSource : Tbl Nat := []
  /-- placement attempts that did not place the head of a level: key 16·die + level, value (head, count) (R302) -/
  attempts : Tbl (Nat × Nat) := []
  reserved : Tbl Reservation := []
  jdecs : List PJdec := []
  insts : Tbl CollInst := []
  nextInst : Nat := 0
  /-- instances started on each stream: (path, mesh) and the count (R421) -/
  streams : List ((Nat × List Nat) × Nat) := []
  deriving DecidableEq, Repr
/-- The Keeper (R317 to R349, R398 to R406). -/
structure Keeper where
  ctxs : Tbl Ctx := []
  /-- loaded keys: number to key pair (R218) -/
  keys : Tbl Nat := []
  parks : Tbl ParkRec := []
  nextPark : Nat := 0
  kreqs : Tbl KReq := []
  nextKreq : Nat := 0
  log : List FRec := []
  nextRec : Nat := 0
  usedFrames : List Nat := []
  status : Status := {}
  mailbox : Mailbox := {}
  fw : Firmware := {}
  starting : Option Starting := none
  power : Power := {}
  pair : Pair := {}
  corrected : Nat := 0
  /-- temperatures as last read (R406) -/
  temps : Tbl Nat := []
  bar0 : DWord := 0
  hdm0 : DWord := 0
  hdm1 : DWord := 0
  cxlDown : Bool := false
  sparedChannels : List (Nat × Nat) := []
  mgmtOut : List Nat := []
  hostOut : List Byte := []
  /-- writes to host memory: 0 a record of the Keeper's log, 1 a SIGNALMEM, 2 a completion signal; the address and the bytes (R394) -/
  d2h : List (Nat × Nat × List Byte) := []
  deriving DecidableEq, Repr
/-- The merge engines (R279 to R287). -/
structure Merge where
  logs : Tbl GLog := []
  folds : Tbl Fold := []
  nextFold : Nat := 0
  deriving DecidableEq, Repr
/-- The whole device. -/
structure State where
  /-- HBM4E and vault memory, one space in the frame numbering of R365 -/
  mem : Mem := {}
  /-- dirty L2 lines with the core whose slice holds them (R334) -/
  dirty : Tbl Nat := []
  cores : Tbl Core := []
  lantern : Lantern := {}
  keeper : Keeper := {}
  fabric : Fabric := {}
  merge : Merge := {}
  posted : Tbl Posted := []
  nextPost : Nat := 0
  /-- outstanding plain stores, and the readers that at present read what stood before them: a core, or 216 for the engines (log entries 9, 20) -/
  lag : List Lag := []
  lagging : List Nat := []
  nextTxn : Nat := 1
  nextFlight : Nat := 0
  now : Nat := 0
  chain : Chain := {}
  agenda : List Turn := []
  deriving DecidableEq, Repr
/-- The ways the machine stops: an address the spec says does not exist.  Safe: nothing is claimed beyond it. -/
inductive Fault where
  /-- raised by a host access outside every range the host decoders map (R395) -/
  | noSuchAddress (hpa : Nat)
  deriving DecidableEq, Repr
/-- The ways the model declines.  Safe. -/
inductive Refusal where
  /-- raised by an arm of `exec` whose instruction has no meaning yet -/
  | notModelled (mnemonic : String)
  deriving DecidableEq, Repr

/-- The device right after reset: STATE 0, no context, every table empty, memory with nothing listed, every
register at the value the spec or a log entry names. -/
def State.reset : State := {}

end Sys2Proof.Machine
end

