-- ==== Sys2Proof/Machine/Mem.lean ====
section
/-! DEFINITION. Byte memories: reading and writing bytes in the canonical form, sectors with their sideband, poison marks
and keys (R4, R58, R59, R206, R216 to R218). -/
namespace Sys2Proof.Machine

/-- The byte listed at an address, or what an unlisted address reads as. -/
def cellGet : List Host.Cell → Nat → Byte
  | [], _ => Mem.blank
  | (i, v) :: t, a => if i = a then v else if a < i then Mem.blank else cellGet t a
/-- Write one byte, keeping addresses strictly rising and no entry equal to the blank byte. -/
def cellPut : List Host.Cell → Nat → Byte → List Host.Cell
  | [], a, v => if v = Mem.blank then [] else [(a, v)]
  | (i, w) :: t, a, v =>
    if i = a then (if v = Mem.blank then t else (a, v) :: t)
    else if a < i then (if v = Mem.blank then (i, w) :: t else (a, v) :: (i, w) :: t)
    else (i, w) :: cellPut t a v
/-- The canonical form: addresses strictly rising, no blank entry. -/
def cellsWf : List Host.Cell → Bool
  | [] => true
  | [(_, v)] => decide (v ≠ Mem.blank)
  | (i, v) :: (j, w) :: t => decide (v ≠ Mem.blank) && decide (i < j) && cellsWf ((j, w) :: t)
/-- Sector numbers strictly rising, no fresh sector listed. -/
def sectorsWf (t : Tbl Sector) : Bool := Tbl.sorted t && t.all fun p => p.2 != {}
/-- A memory in canonical form. -/
def Mem.wf (m : Mem) : Bool := cellsWf m.bytes && sectorsWf m.sectors

/-- One byte. -/
def Mem.get (m : Mem) (a : Nat) : Byte := cellGet m.bytes a
/-- Write one byte; sideband, poison and key stay. -/
def Mem.put (m : Mem) (a : Nat) (v : Byte) : Mem := { m with bytes := cellPut m.bytes a v }
/-- `n` bytes from an address. -/
def Mem.read (m : Mem) (a n : Nat) : List Byte := (List.range n).map fun i => m.get (a + i)
/-- Write a run of bytes. -/
def Mem.write : Mem → Nat → List Byte → Mem
  | m, _, [] => m
  | m, a, b :: bs => Mem.write (m.put a b) (a + 1) bs
/-- The sector holding an address (R58). -/
def Mem.sector (m : Mem) (a : Nat) : Sector := Tbl.get m.sectors (a / 32) {}
/-- Replace what the sector holding an address carries; a fresh sector is not listed. -/
def Mem.setSector (m : Mem) (a : Nat) (x : Sector) : Mem :=
  { m with sectors := if x = {} then Tbl.del m.sectors (a / 32) else Tbl.put m.sectors (a / 32) x }
/-- A sideband slot of the sector holding an address: 0 or 1. -/
def Mem.slot (m : Mem) (a k : Nat) : Byte := if k = 0 then (m.sector a).s0 else (m.sector a).s1
/-- Write a sideband slot (R59). -/
def Mem.setSlot (m : Mem) (a k : Nat) (v : Byte) : Mem :=
  m.setSector a (if k = 0 then { m.sector a with s0 := v } else { m.sector a with s1 := v })
/-- The numbers of the sectors that `[a, a + n)` overlaps. -/
def sectorsOf (a n : Nat) : List Nat :=
  if n = 0 then [] else (List.range ((a + n - 1) / 32 + 1 - a / 32)).map (a / 32 + ·)
/-- Whether any sector of a range is poisoned (R217). -/
def Mem.poisoned (m : Mem) (a n : Nat) : Bool := (sectorsOf a n).any fun k => (Tbl.get m.sectors k {}).poison

/-- The bytes that a sector written under one key reads as under another (R218): encrypted under the first, decrypted under
the second; key identity 0 is no encryption, another is its key pair plus one. -/
def rekeyed (old new dpa : Nat) (bs : List Byte) : List Byte :=
  let c := if old = 0 then bs.map (·.toNat) else xtsSector true (old - 1) dpa (bs.map (·.toNat))
  (if new = 0 then c else xtsSector false (new - 1) dpa c).map (BitVec.ofNat 8)
/-- A byte read under a key: the plain byte when the sector stands under that key, otherwise what decryption under the
wrong key gives (R218). -/
def Mem.getKey (m : Mem) (key a : Nat) : Byte :=
  let x := m.sector a
  if x.key = key then m.get a
  else (rekeyed x.key key (a / 32 * 32) (m.read (a / 32 * 32) 32)).getD (a % 32) 0
/-- `n` bytes under a key. -/
def Mem.readKey (m : Mem) (key a n : Nat) : List Byte := (List.range n).map fun i => m.getKey key (a + i)
/-- Bring a sector under a key: its bytes become what they read as under that key. -/
def Mem.rekey (m : Mem) (key k : Nat) : Mem :=
  let x := Tbl.get m.sectors k {}
  if x.key = key then m
  else ((m.write (32 * k) (m.readKey key (32 * k) 32)).setSector (32 * k) { x with key := key })
/-- Poison of a sector after one request writes `[a, a + n)` of it (R217): a request over all 32 bytes sets the mark to
that of its data, a narrower one leaves a mark standing. -/
def Mem.mark (m : Mem) (a n : Nat) (poison : Bool) (k : Nat) : Mem :=
  let x := Tbl.get m.sectors k {}
  let whole := decide (a ≤ 32 * k) && decide (32 * k + 32 ≤ a + n)
  m.setSector (32 * k) { x with poison := if whole then poison else x.poison || poison }
/-- One write request under a key (R217, R218). -/
def Mem.writeKey (m : Mem) (key a : Nat) (bs : List Byte) (poison : Bool) : Mem :=
  let ks := sectorsOf a bs.length
  let m := ks.foldl (fun m k => m.rekey key k) m
  let m := m.write a bs
  ks.foldl (fun m k => m.mark a bs.length poison k) m
/-- An uncorrectable error in a sector poisons it (R217). -/
def Mem.harm (m : Mem) (k : Nat) : Mem := m.setSector (32 * k) { Tbl.get m.sectors k {} with poison := true }
/-- Clear the marks of the sectors that a set of requests of one instruction covers together (R217). -/
def Mem.clearCovered (m : Mem) (reqs : List (Nat × Nat)) : Mem :=
  let ks := reqs.flatMap fun (a, n) => sectorsOf a n
  ks.foldl (fun m k =>
    if (List.range 32).all (fun i => reqs.any fun (a, n) => decide (a ≤ 32 * k + i) && decide (32 * k + i < a + n)) then
      m.setSector (32 * k) { Tbl.get m.sectors k {} with poison := false }
    else m) m

end Sys2Proof.Machine
end

