-- ==== Sys2Proof/Machine/Xlat.lean ====
section
/-! DEFINITION. Address translation: accessors of the nested state, the home hash, page walks, leaf checks, apertures, the layer
check, and the accessed and dirty bits (R212 to R214, R219 to R222, R339, R341, R365). -/
namespace Sys2Proof.Machine

/-! ### Accessors -/
def State.core (s : State) (c : Nat) : Core := Tbl.get s.cores c {}
def State.setCore (s : State) (c : Nat) (x : Core) : State := { s with cores := Tbl.put s.cores c x }
def State.group (s : State) (c g : Nat) : Group := Tbl.get (s.core c).groups g {}
def State.setGroup (s : State) (c g : Nat) (x : Group) : State :=
  s.setCore c { s.core c with groups := Tbl.put (s.core c).groups g x }
def Group.lane (g : Group) (l : Nat) : Lane := Tbl.get g.lanes l {}
def Group.setLane (g : Group) (l : Nat) (x : Lane) : Group := { g with lanes := Tbl.put g.lanes l x }
def State.lane (s : State) (c g l : Nat) : Lane := (s.group c g).lane l
def State.setLane (s : State) (c g l : Nat) (x : Lane) : State := s.setGroup c g ((s.group c g).setLane l x)
def State.updLane (s : State) (c g l : Nat) (f : Lane → Lane) : State := s.setLane c g l (f (s.lane c g l))
def State.updGroup (s : State) (c g : Nat) (f : Group → Group) : State := s.setGroup c g (f (s.group c g))
def State.team (s : State) (t : Nat) : Team := Tbl.get s.lantern.teams t {}
def State.setTeam (s : State) (t : Nat) (x : Team) : State :=
  { s with lantern := { s.lantern with teams := Tbl.put s.lantern.teams t x } }
def State.grid (s : State) (g : Nat) : Grid := Tbl.get s.lantern.grids g {}
def State.setGrid (s : State) (g : Nat) (x : Grid) : State :=
  { s with lantern := { s.lantern with grids := Tbl.put s.lantern.grids g x } }
def State.ctx (s : State) (c : Nat) : Ctx := Tbl.get s.keeper.ctxs c {}
def State.setCtx (s : State) (c : Nat) (x : Ctx) : State :=
  { s with keeper := { s.keeper with ctxs := Tbl.put s.keeper.ctxs c x } }
/-- The team, grid and context of a group. -/
def State.teamOf (s : State) (c g : Nat) : Team := s.team (s.group c g).team
def State.gridOf (s : State) (c g : Nat) : Grid := s.grid (s.teamOf c g).grid
def State.ctxOf (s : State) (c g : Nat) : Nat := (s.gridOf c g).ctx

/-! ### Physical memory: HBM4E below 768 GB, vault memory at frame 0xC0_0000 + 64c + f (R214, R365) -/
/-- 64 KiB frames of HBM4E (R222). -/
def hbmFrames : Nat := 11718750
/-- First frame of vault memory in the numbering of R365. -/
def vaultFrame0 : Nat := 0xC00000
/-- A device physical address of vault memory. -/
def isVault (pa : Nat) : Bool := decide (vaultFrame0 * 65536 ≤ pa)
/-- The core above which a vault address lies. -/
def vaultCore (pa : Nat) : Nat := (pa / 65536 - vaultFrame0) / 64
/-- Whether a frame of the numbering of R365 exists on this device. -/
def State.frameOk (s : State) (f : Nat) : Bool :=
  decide (f < hbmFrames) ||
    (decide (vaultFrame0 ≤ f ∧ f < vaultFrame0 + 64 * 216) &&
      decide ((f - vaultFrame0) % 64 < 16 * (s.core ((f - vaultFrame0) / 64)).vm) &&
      !(s.core ((f - vaultFrame0) / 64)).vaultFailed)
/-- MiB of a core's vault given to its L2 slice (R212). -/
def State.l2Units (s : State) (c : Nat) : Nat := if (s.core c).vaultFailed then 0 else 4 - (s.core c).vm
/-- The list of L2 units by core (R213). -/
def State.l2List (s : State) : List Nat := (List.range 216).flatMap fun c => List.replicate (s.l2Units c) c
/-- The home slice's core of a device physical address; 0xFF where there is none (R213). -/
def State.homeCore (s : State) (dpa : Nat) : Nat :=
  let l := dpa >>> 7
  let h := (l ^^^ (l >>> 11) ^^^ (l >>> 22)) % 2 ^ 16
  (s.l2List)[h * s.l2List.length / 65536]?.getD 0xFF
/-- The stack of an HBM address (R214). -/
def stackOf (dpa : Nat) : Nat := (dpa >>> 12) % 12

/-! ### Leaves (R219) -/
def leafV (x : Nat) : Bool := bitAt x 0
def leafRd (x : Nat) : Bool := bitAt x 1
def leafWr (x : Nat) : Bool := bitAt x 2
def leafEx (x : Nat) : Bool := bitAt x 3
def leafPrv (x : Nat) : Bool := bitAt x 4
def leafAcc (x : Nat) : Bool := bitAt x 5
def leafDty (x : Nat) : Bool := bitAt x 6
def leafRap (x : Nat) : Bool := bitAt x 7
def leafApt (x : Nat) : Nat := bits x 11 8
def leafKey (x : Nat) : Nat := bits x 21 12
def leafRace (x : Nat) : Bool := bitAt x 22
def leafPin (x : Nat) : Bool := bitAt x 23
def leafGated (x : Nat) : Bool := bitAt x 24
def leafFrame (x : Nat) : Nat := bits x 60 25

/-- What a walk finds: a leaf with its size and the physical address of its entry, a missing entry, or an ill-formed
one. -/
inductive Walk where
  | leaf (x : Nat) (big : Bool) (entry : Nat)
  | absent
  | bad
  deriving DecidableEq, Repr
/-- A 64-bit word of physical memory. -/
def State.phys64 (s : State) (a : Nat) : Nat := ofBytesLE (s.mem.readKey 0 a 8)
/-- The walk from the table at `table` of level `lv` (R219, R220 steps 1 and 2). -/
def State.walkAt (s : State) (va : Nat) : Nat → Nat → Walk
  | 0, _ => .bad
  | lv + 1, table =>
    let entry := table + 8 * bits va (16 + 12 * lv + 11) (16 + 12 * lv)
    let x := s.phys64 entry
    if !bitAt x 0 then .absent
    else if bits x 63 62 != 0 then .bad
    else if lv = 0 then (if bitAt x 61 then .bad else .leaf x false entry)
    else if bitAt x 61 then
      (if lv = 1 ∧ bits x 36 25 = 0 then .leaf x true entry else .bad)
    else if bits x 14 1 != 0 then .bad
    else
      let t := bits x 60 15 * 32768
      if hbmFrames * 65536 ≤ t then .bad else s.walkAt va lv t
/-- The walk of a context's tables (R219). -/
def State.walk (s : State) (ctx va : Nat) : Walk := s.walkAt va 4 (s.ctx ctx).root

/-- The kinds of access R220 and R222 tell apart. -/
inductive Need where
  | load | store | atomic | red | fetch
  /-- a mooring, descriptor or other object that lies on a page of aperture 0, 1 or 2: read only, or read and write -/
  | objR | objRW
  deriving DecidableEq, Repr
/-- The result of a translation. -/
inductive Xl where
  /-- physical address, key pair identity (0 for none), aperture, target device for aperture 5, leaf, size, entry -/
  | ok (pa key apt dev leaf : Nat) (big : Bool) (entry : Nat)
  | fault (c : Cause)
  | arriving (layer : Nat)
  deriving DecidableEq, Repr

/-- Whether a device id stands in the domain (R222, R370). -/
def State.inDomain (s : State) (d : Nat) : Bool :=
  d == s.fabric.devId.toNat || (!s.fabric.noPanel && !s.fabric.lost.contains d)
/-- The identity of a key number: 0 for key 0, the loaded pair plus one, `none` for an unloaded key (R218). -/
def State.keyId (s : State) (k : Nat) : Option Nat := if k = 0 then some 0 else (Tbl.find s.keeper.keys k).map (· + 1)
/-- Permission step of R220 (step 5). -/
def needOk (n : Need) (x : Nat) : Bool :=
  match n with
  | .load | .objR => leafRd x
  | .store => leafWr x
  | .atomic | .red | .objRW => leafRd x && leafWr x
  | .fetch => leafEx x
/-- Aperture step of R220 (step 6): the cause, if any (R222). -/
def State.aptFault (s : State) (n : Need) (x : Nat) (big : Bool) (va : Nat) : Option Cause :=
  let a := leafApt x
  let fr := leafFrame x
  let fr' := if big then fr + bits va 27 16 else fr
  let frameBad : Bool :=
    if a = 1 then big || decide (2 ^ 14 ≤ fr) || !s.frameOk (vaultFrame0 + fr)
    else if a = 5 then
      !s.inDomain (fr / 2 ^ 24) ||
        (let f := (fr % 2 ^ 24) + (if big then bits va 27 16 else 0)
         decide (hbmFrames ≤ f ∧ f < vaultFrame0) || decide (vaultFrame0 + 64 * 216 ≤ f))
    else decide (hbmFrames ≤ fr')
  let forbids : Option Cause := match n with
    | .load | .store => if a = 5 then some .aperture else none
    | .atomic => if a = 3 ∨ a = 5 then some .aperture else none
    | .red => if a = 3 then some .aperture else if a = 5 ∧ !leafRap x then some .remoteAtomicDenied else none
    | .fetch => if 3 ≤ a then some .aperture else none
    | .objR | .objRW => if 3 ≤ a then some .aperture else none
  match forbids with
  | some c => some c
  | none => if frameBad || (a != 1 && a != 5 && s.l2List.isEmpty) then some .aperture else none
/-- The layer a GATED page belongs to (R336). -/
def Ctx.layerOf (c : Ctx) (va : Nat) : Option Nat :=
  (c.gate.find? fun (p, big, _) => if big then va / 2 ^ 28 == p / 2 ^ 28 else va / 2 ^ 16 == p / 2 ^ 16).map (·.2.2)
/-- The physical address of a leaf's page byte. -/
def leafPa (x : Nat) (big : Bool) (va : Nat) : Nat :=
  let off := if big then va % 2 ^ 28 else va % 2 ^ 16
  if leafApt x = 1 then (vaultFrame0 + leafFrame x) * 65536 + off
  else if leafApt x = 5 then (leafFrame x % 2 ^ 24) * 65536 + off
  else leafFrame x * 65536 + off
/-- The topmark word of a layer (R338), read at its physical address through the context's own mapping. -/
def State.topmarkPa (s : State) (ctx layer : Nat) : Option Nat :=
  let va := (s.ctx ctx).tmbase.toNat + 8 * layer
  match s.walk ctx va with
  | .leaf x big _ => some (leafPa x big va)
  | _ => none
/-- The key identity of a topmark's page. -/
def State.topmarkKey (s : State) (ctx layer : Nat) : Nat :=
  match s.walk ctx ((s.ctx ctx).tmbase.toNat + 8 * layer) with
  | .leaf x _ _ => if leafApt x = 1 then 0 else (s.keyId (leafKey x)).getD 0
  | _ => 0
def State.topmark (s : State) (ctx layer : Nat) : Nat :=
  match s.topmarkPa ctx layer with
  | some a => ofBytesLE (s.mem.readKey (s.topmarkKey ctx layer) a 8)
  | none => 0
/-- The checks of a leaf, in the order of R220 (steps 2 for GATED, 3 to 8). -/
def State.checkLeaf (s : State) (ctx : Nat) (n : Need) (va x : Nat) (big : Bool) (entry : Nat) : Xl :=
  let c := s.ctx ctx
  let gateBad := leafGated x && (decide (2 < leafApt x) || (c.layerOf va).isNone)
  if gateBad then .fault .pagePermission
  else if 5 < leafApt x then .fault .aperture
  else if leafPrv x && !c.priv then .fault .pagePermission
  else if !needOk n x then .fault .pagePermission
  else match s.aptFault n x big va with
  | some f => .fault f
  | none =>
    match s.keyId (leafKey x) with
    | none => .fault .pagePermission
    | some k =>
      let k := if leafApt x = 1 then 0 else k
      let ok := Xl.ok (leafPa x big va) k (leafApt x) (if leafApt x = 5 then leafFrame x / 2 ^ 24 else s.fabric.devId.toNat)
        x big entry
      if leafGated x then
        let l := (c.layerOf va).getD 0
        match s.topmark ctx l % 4 with
        | 2 => ok
        | 1 => .arriving l
        | _ => .fault .layerWithdrawn
      else ok
/-- The cached translation a core holds for an address (R221). -/
def State.tlbHit (s : State) (core ctx va : Nat) : Option TlbEnt :=
  (s.core core).tlb.find? fun e => e.ctx == ctx && (if e.big then va / 2 ^ 28 == e.page / 2 ^ 28 else va / 2 ^ 16 == e.page / 2 ^ 16)
/-- Translation of one address for an agent; `core` is the core whose cached translations serve, `none` for the device's
other agents (R220, R221). -/
def State.xlat (s : State) (core : Option Nat) (ctx : Nat) (n : Need) (va : Nat) : Xl :=
  let writes : Bool := n != .load && n != .fetch && n != .objR
  let hit := match core with
    | some c => (s.tlbHit c ctx va).filter fun (e : TlbEnt) => !writes || leafDty e.leaf.toNat
    | none => none
  match hit with
  | some e => s.checkLeaf ctx n va e.leaf.toNat e.big e.entry
  | none => match s.walk ctx va with
    | .absent => .fault .pageAbsent
    | .bad => .fault .pagePermission
    | .leaf x big entry => s.checkLeaf ctx n va x big entry
/-- The walker's marks for an access that is used: ACC, and DTY before a first write, by an indivisible OR in the entry;
and the cached translation (R221). -/
def State.touch (s : State) (core : Option Nat) (ctx : Nat) (write : Bool) (va : Nat) : State :=
  let hit := match core with
    | some c => (s.tlbHit c ctx va).filter fun (e : TlbEnt) => !write || leafDty e.leaf.toNat
    | none => none
  match hit with
  | some _ => s
  | none => match s.walk ctx va with
    | .leaf x big entry =>
      let x' := x ||| 32 ||| (if write then 64 else 0)
      let s := { s with mem := s.mem.writeKey 0 entry (toBytesLE 8 x') false }
      match core with
      | none => s
      | some c =>
        let k := s.core c
        let rest := k.tlb.filter fun (e : TlbEnt) =>
          !(e.ctx == ctx && (if e.big then va / 2 ^ 28 == e.page / 2 ^ 28 else va / 2 ^ 16 == e.page / 2 ^ 16))
        s.setCore c { k with tlb := (⟨ctx, va, big, BitVec.ofNat 64 x', entry⟩ : TlbEnt) :: rest }
    | _ => s
/-- The leaf an access goes by: the cached translation's, or the tables' (R221). -/
def State.leafFor (s : State) (core : Option Nat) (ctx va : Nat) : Option (Nat × Bool) :=
  match core.bind fun c => s.tlbHit c ctx va with
  | some e => some (e.leaf.toNat, e.big)
  | none => match s.walk ctx va with
    | .leaf x big _ => some (x, big)
    | _ => none
/-- The first fault of a range of bytes, page by page, and the address that meets it. -/
def State.rangeFault (s : State) (core : Option Nat) (ctx : Nat) (n : Need) (va len : Nat) : Option (Xl × Nat) :=
  let pages := if len = 0 then [] else (List.range ((va + len - 1) / 65536 + 1 - va / 65536)).map fun i =>
    max va ((va / 65536 + i) * 65536)
  pages.findSome? fun a => match s.xlat core ctx n a with
    | .ok .. => none
    | x => some (x, a)
/-- The physical address and key of a translated address; (0, 0) where it does not translate. -/
def State.pa (s : State) (core : Option Nat) (ctx : Nat) (n : Need) (va : Nat) : Nat × Nat :=
  match s.xlat core ctx n va with
  | .ok pa key _ _ _ _ _ => (pa, key)
  | _ => (0, 0)
/-- `n` bytes read by the device's own agents through a context's translation. -/
def State.vread (s : State) (ctx : Nat) (va n : Nat) : List Byte :=
  (List.range n).map fun i =>
    let (pa, key) := s.pa none ctx .load (va + i)
    s.mem.getKey key pa
def State.vread64 (s : State) (ctx va : Nat) : Nat := ofBytesLE (s.vread ctx va 8)
/-- Drop cached translations of a page: of one context or all, of one address or all, on every core (R227). -/
def State.tlbDrop (s : State) (ctx va : Option Nat) : State :=
  { s with cores := s.cores.mapV fun _ k => { k with tlb := k.tlb.filter fun e =>
      !((match ctx with | some x => e.ctx == x | none => true) &&
        (match va with
          | some a => if e.big then a / 2 ^ 28 == e.page / 2 ^ 28 else a / 2 ^ 16 == e.page / 2 ^ 16
          | none => true)) } }

end Sys2Proof.Machine
end

