-- ==== Sys2Proof/Machine/Place.lean ====
section
/-! DEFINITION. A program placed from outside the machine: the words a host would leave in memory, and a running group that fetches
them (log entry 3). -/
namespace Sys2Proof.Machine

/-- The table chain of address 0: tables at 0x8000, 0x10000, 0x18000 and 0x20000, and a leaf at frame 4 that permits every access. -/
def placedTables : List (Nat × Nat) :=
  [(0x8000, 0x10001), (0x10000, 0x18001), (0x18000, 0x20001), (0x20000, 0x6F + 4 * 2 ^ 25)]
/-- The physical address of the first packet. -/
def placedCode : Nat := 0x40000
/-- Memory with the tables and one packet. -/
def Mem.withPacket (m : Mem) (w : Nat) : Mem :=
  (placedTables.foldl (fun (m : Mem) p => m.writeKey 0 p.1 (toBytesLE 8 p.2) false) m).writeKey 0 placedCode (toBytesLE 12 w) false
/-- A group in which lane 0 stands at address 0 and the other lanes have exited. -/
def placedGroup : Group :=
  { lanes := (0, {}) :: (List.range 31).map fun k => (k + 1, { mode := .exited }) }

end Sys2Proof.Machine
end

