-- ==== Sys2Proof/WellFormed.lean ====
section
/-! DEFINITION. The operand form of every instruction word (R15, R36 to R41, R30) and the well-formedness checks that
follow from it: what the decoder must refuse under steps 8 to 11 of R49. -/
namespace Sys2Proof
open Machine

/-- Operand widths. `quad` is a 128-bit source that may also be `zero`; `quadNZ` may not (R126, R139, R171); `c64` is a
64-bit source that may be a pair, an age, `g0`–`g7`, `zero` or `#` only (R120, R139); `a64` may not be `#` either (R92). -/
inductive Wd where
  | w32 | w64 | w128 | quad | quadNZ | c64 | a64
  deriving DecidableEq, Repr
/-- Which destination codes an operation permits (R38): named and queue codes with `mqa`/`mqb` (`full`), with group
scalars too (`gfull`), group scalars without queues (`gbase`), codes 0–33 only (`base`, `small`). -/
inductive DCls where
  | base | small | full | gfull | gbase
  deriving DecidableEq, Repr
/-- The operand form of a word. `strict` destinations must be a pair or quad, `~` or `_`, the queue codes failing
step 10 (R105, R120). -/
structure Form where
  pipe : Pipe
  srcs : List (Src × Wd) := []
  dst : Option (Dst × DCls × Wd × Bool) := none
  rawOk : Bool := true
  deriving DecidableEq, Repr

def wd (w : Bool) : Wd := if w then .w64 else .w32
def moorWd (scr : Bool) : Wd := if scr then .w32 else .w64
/-- Width of a special register (R98). -/
def srWd (sr : BitVec 6) : Wd := if sr == 0 || sr == 9 || sr == 13 || sr == 14 then .w64 else .w32
/-- The special registers a `wrsr` may name (R98, R99). -/
def srWritable (sr : BitVec 6) : Bool := sr == 10 || sr == 11 || sr == 12 || sr == 13 || sr == 14
/-- The rounding codes of `fround` (R42). -/
def rndOk (r : BitVec 3) : Bool := r != 5 && r != 6
/-- Source width of a CVT type pair (R75). -/
def cvtSrcWd (p : BitVec 6) : Wd := if p == 0x06 || p == 0x07 || p == 0x12 || p == 0x13 then .w64 else .w32
/-- Result width of a CVT type pair (R75). -/
def cvtDstWd (p : BitVec 6) : Wd := if p == 0x08 || p == 0x09 || p == 0x1A || p == 0x1B then .w64 else .w32
/-- A predicate destination: not `p0`, combine 0 to 2 (R39, R85). -/
def PDst.ok (p : PDst) : Bool := p.p != 0 && decide (p.comb.toNat < 3)
/-- A predicate destination outside ICMP: bits [5:3] zero (R39); the subcode of other bits is log entry 70's. -/
def PDst.plainOk (p : PDst) : Bool := p.p != 0 && p.comb == 0

/-- The operand form of a word; `none` for the events, which have no word. -/
def Instr.form : Instr → Option Form
  | .nop _ => some ⟨.b, [], none, true⟩
  | .exit _ => some ⟨.b, [], none, true⟩
  | .trap _ _ => some ⟨.b, [], none, true⟩
  | .brk _ => some ⟨.b, [], none, true⟩
  | .rdsr _ d sr => some ⟨.b, [], some (d, .gbase, srWd sr, false), decide (sr.toNat < 16)⟩
  | .wrsr _ sr a => some ⟨.b, [(a, if sr == 13 || sr == 14 then .w64 else .w32)], none, srWritable sr⟩
  | .sleep _ a => some ⟨.b, [(a, .w32)], none, true⟩
  | .yield _ => some ⟨.b, [], none, true⟩
  | .prio _ _ => some ⟨.b, [], none, true⟩
  | .rfe _ => some ⟨.b, [], none, true⟩
  | .kreq _ d a b => some ⟨.b, [(a, .w64), (b, .w64)], some (d, .small, .w32, false), true⟩
  | .iadd _ d a b w _ _ => some ⟨.i, [(a, wd w), (b, wd w)], some (d, .gfull, wd w, false), true⟩
  | .isub _ d a b w _ _ => some ⟨.i, [(a, wd w), (b, wd w)], some (d, .gfull, wd w, false), true⟩
  | .imul _ d a b w => some ⟨.i, [(a, wd w), (b, wd w)], some (d, .gfull, wd w, false), true⟩
  | .imulh _ d a b w _ => some ⟨.i, [(a, wd w), (b, wd w)], some (d, .gfull, wd w, false), true⟩
  | .idiv _ d a b w _ => some ⟨.i, [(a, wd w), (b, wd w)], some (d, .gfull, wd w, false), true⟩
  | .irem _ d a b w _ => some ⟨.i, [(a, wd w), (b, wd w)], some (d, .gfull, wd w, false), true⟩
  | .imin _ d a b w _ => some ⟨.i, [(a, wd w), (b, wd w)], some (d, .gfull, wd w, false), true⟩
  | .imax _ d a b w _ => some ⟨.i, [(a, wd w), (b, wd w)], some (d, .gfull, wd w, false), true⟩
  | .iabs _ d a w => some ⟨.i, [(a, wd w)], some (d, .gfull, wd w, false), true⟩
  | .ineg _ d a w => some ⟨.i, [(a, wd w)], some (d, .gfull, wd w, false), true⟩
  | .and _ d a b w => some ⟨.i, [(a, wd w), (b, wd w)], some (d, .gfull, wd w, false), true⟩
  | .or _ d a b w => some ⟨.i, [(a, wd w), (b, wd w)], some (d, .gfull, wd w, false), true⟩
  | .xor _ d a b w => some ⟨.i, [(a, wd w), (b, wd w)], some (d, .gfull, wd w, false), true⟩
  | .andn _ d a b w => some ⟨.i, [(a, wd w), (b, wd w)], some (d, .gfull, wd w, false), true⟩
  | .not _ d a w => some ⟨.i, [(a, wd w)], some (d, .gfull, wd w, false), true⟩
  | .shl _ d a b w => some ⟨.i, [(a, wd w), (b, wd w)], some (d, .gfull, wd w, false), true⟩
  | .shr _ d a b w => some ⟨.i, [(a, wd w), (b, wd w)], some (d, .gfull, wd w, false), true⟩
  | .sar _ d a b w => some ⟨.i, [(a, wd w), (b, wd w)], some (d, .gfull, wd w, false), true⟩
  | .rol _ d a b w => some ⟨.i, [(a, wd w), (b, wd w)], some (d, .gfull, wd w, false), true⟩
  | .ror _ d a b w => some ⟨.i, [(a, wd w), (b, wd w)], some (d, .gfull, wd w, false), true⟩
  | .clz _ d a w => some ⟨.i, [(a, wd w)], some (d, .gfull, wd w, false), true⟩
  | .ctz _ d a w => some ⟨.i, [(a, wd w)], some (d, .gfull, wd w, false), true⟩
  | .popc _ d a w => some ⟨.i, [(a, wd w)], some (d, .gfull, wd w, false), true⟩
  | .brev _ d a w => some ⟨.i, [(a, wd w)], some (d, .gfull, wd w, false), true⟩
  | .bswap _ d a w => some ⟨.i, [(a, wd w)], some (d, .gfull, wd w, false), true⟩
  | .bfe _ d a b w _ => some ⟨.i, [(a, wd w), (b, wd w)], some (d, .gfull, wd w, false), true⟩
  | .lea _ d a b w => some ⟨.i, [(a, .w64), (b, wd w)], some (d, .gfull, .w64, false), true⟩
  | .mov _ d a w => some ⟨.i, [(a, wd w)], some (d, .gfull, wd w, false), true⟩
  | .shrr _ d a b w _ => some ⟨.i, [(a, wd w), (b, wd w)], some (d, .gfull, wd w, false), true⟩
  | .sel _ d a b w => some ⟨.i, [(a, wd w), (b, wd w)], some (d, .gfull, wd w, false), true⟩
  | .iaddi _ d a _ => some ⟨.i, [(a, .w32)], some (d, .gfull, .w32, false), true⟩
  | .andi _ d a _ => some ⟨.i, [(a, .w32)], some (d, .gfull, .w32, false), true⟩
  | .ori _ d a _ => some ⟨.i, [(a, .w32)], some (d, .gfull, .w32, false), true⟩
  | .xori _ d a _ => some ⟨.i, [(a, .w32)], some (d, .gfull, .w32, false), true⟩
  | .shli _ d a _ w _ => some ⟨.i, [(a, wd w)], some (d, .gfull, wd w, false), true⟩
  | .shri _ d a _ w _ => some ⟨.i, [(a, wd w)], some (d, .gfull, wd w, false), true⟩
  | .sari _ d a _ w _ => some ⟨.i, [(a, wd w)], some (d, .gfull, wd w, false), true⟩
  | .movi _ d _ => some ⟨.i, [], some (d, .gfull, .w32, false), true⟩
  | .icmpS _ p a b _ => some ⟨.i, [(a, .w32), (b, .w32)], none, p.ok⟩
  | .icmpU _ p a b _ => some ⟨.i, [(a, .w32), (b, .w32)], none, p.ok⟩
  | .icmpSW _ p a b _ => some ⟨.i, [(a, .w64), (b, .w64)], none, p.ok⟩
  | .icmpUW _ p a b _ => some ⟨.i, [(a, .w64), (b, .w64)], none, p.ok⟩
  | .fcmpF32 _ p a b _ => some ⟨.i, [(a, .w32), (b, .w32)], none, p.ok⟩
  | .fcmpF16 _ p a b _ => some ⟨.i, [(a, .w32), (b, .w32)], none, p.ok⟩
  | .fclass _ p a b _ => some ⟨.i, [(a, .w32), (b, .w32)], none, p.ok⟩
  | .plog _ p _ _ _ => some ⟨.i, [], none, p.ok⟩
  | .setp _ p a => some ⟨.i, [(a, .w32)], none, p.ok⟩
  | .bra _ neg p _ => some ⟨.b, [], none, !(p == 0 && neg)⟩
  | .braEnrol _ neg p _ _ => some ⟨.b, [], none, !(p == 0 && neg)⟩
  | .strike _ neg p _ _ => some ⟨.b, [], none, !(p == 0 && neg)⟩
  | .call _ neg p _ => some ⟨.b, [], none, !(p == 0 && neg)⟩
  | .brx _ a => some ⟨.b, [(a, .a64)], none, true⟩
  | .join _ _ => some ⟨.b, [], none, true⟩
  | .guard x => some ⟨.b, [], none, !(x.p == 0 && x.neg)⟩
  | .rjset _ _ b => some ⟨.b, [(b, .w32)], none, true⟩
  | .rjget _ d _ => some ⟨.b, [], some (d, .base, .w32, false), true⟩
  | .fadd _ d a b _ => some ⟨.f, [(a, .w32), (b, .w32)], some (d, .full, .w32, false), true⟩
  | .fsub _ d a b _ => some ⟨.f, [(a, .w32), (b, .w32)], some (d, .full, .w32, false), true⟩
  | .fmul _ d a b _ => some ⟨.f, [(a, .w32), (b, .w32)], some (d, .full, .w32, false), true⟩
  | .fmin _ d a b _ => some ⟨.f, [(a, .w32), (b, .w32)], some (d, .full, .w32, false), true⟩
  | .fmax _ d a b _ => some ⟨.f, [(a, .w32), (b, .w32)], some (d, .full, .w32, false), true⟩
  | .fminm _ d a b _ => some ⟨.f, [(a, .w32), (b, .w32)], some (d, .full, .w32, false), true⟩
  | .fmaxm _ d a b _ => some ⟨.f, [(a, .w32), (b, .w32)], some (d, .full, .w32, false), true⟩
  | .fabs _ d a _ => some ⟨.f, [(a, .w32)], some (d, .full, .w32, false), true⟩
  | .fneg _ d a _ => some ⟨.f, [(a, .w32)], some (d, .full, .w32, false), true⟩
  | .fcopysign _ d a b _ => some ⟨.f, [(a, .w32), (b, .w32)], some (d, .full, .w32, false), true⟩
  | .fround _ d a r _ => some ⟨.f, [(a, .w32)], some (d, .full, .w32, false), rndOk r⟩
  | .twosum _ d a b => some ⟨.f, [(a, .w32), (b, .w32)], some (d, .full, .w64, true), true⟩
  | .ffmaF32 _ d a b g => some ⟨.f, [(a, .w32), (b, .w32), (g, .w32)], some (d, .full, .w32, false), true⟩
  | .ffmaF16x2 _ d a b g => some ⟨.f, [(a, .w32), (b, .w32), (g, .w32)], some (d, .full, .w32, false), true⟩
  | .ffmaBf16x2 _ d a b g => some ⟨.f, [(a, .w32), (b, .w32), (g, .w32)], some (d, .full, .w32, false), true⟩
  | .ffnmaF32 _ d a b g => some ⟨.f, [(a, .w32), (b, .w32), (g, .w32)], some (d, .full, .w32, false), true⟩
  | .ffnmaF16x2 _ d a b g => some ⟨.f, [(a, .w32), (b, .w32), (g, .w32)], some (d, .full, .w32, false), true⟩
  | .ffnmaBf16x2 _ d a b g => some ⟨.f, [(a, .w32), (b, .w32), (g, .w32)], some (d, .full, .w32, false), true⟩
  | .frcp _ d a _ => some ⟨.s, [(a, .w32)], some (d, .base, .w32, false), true⟩
  | .frsq _ d a _ => some ⟨.s, [(a, .w32)], some (d, .base, .w32, false), true⟩
  | .fsqrt _ d a _ => some ⟨.s, [(a, .w32)], some (d, .base, .w32, false), true⟩
  | .fexp2 _ d a _ => some ⟨.s, [(a, .w32)], some (d, .base, .w32, false), true⟩
  | .flog2 _ d a _ => some ⟨.s, [(a, .w32)], some (d, .base, .w32, false), true⟩
  | .fsin _ d a _ => some ⟨.s, [(a, .w32)], some (d, .base, .w32, false), true⟩
  | .fcos _ d a _ => some ⟨.s, [(a, .w32)], some (d, .base, .w32, false), true⟩
  | .ftanh _ d a _ => some ⟨.s, [(a, .w32)], some (d, .base, .w32, false), true⟩
  | .fsigm _ d a _ => some ⟨.s, [(a, .w32)], some (d, .base, .w32, false), true⟩
  | .fdiv _ d a b _ => some ⟨.s, [(a, .w32), (b, .w32)], some (d, .base, .w32, false), true⟩
  | .cvtF _ d a pair _ => some ⟨.f, [(a, cvtSrcWd pair)], some (d, .full, cvtDstWd pair, false), true⟩
  | .cvtIf _ d a pair _ => some ⟨.f, [(a, cvtSrcWd pair)], some (d, .full, cvtDstWd pair, false), true⟩
  | .cvtFi _ d a pair _ => some ⟨.f, [(a, cvtSrcWd pair)], some (d, .full, cvtDstWd pair, false), true⟩
  | .qnt _ d a _ _ => some ⟨.f, [(a, .w32)], some (d, .full, .w32, false), true⟩
  | .dqnt _ d a _ _ => some ⟨.f, [(a, .w32)], some (d, .full, .w32, false), true⟩
  | .fldexp _ d a _ _ => some ⟨.f, [(a, .w64)], some (d, .full, .w32, false), true⟩
  | .fexpo _ d a _ _ => some ⟨.f, [(a, .w32)], some (d, .full, .w32, false), true⟩
  | .srnd _ d a _ _ => some ⟨.f, [(a, .w32)], some (d, .full, .w32, false), true⟩
  | .padd2 _ d a b _ _ _ => some ⟨.i, [(a, .w32), (b, .w32)], some (d, .full, .w32, false), true⟩
  | .psub2 _ d a b _ _ _ => some ⟨.i, [(a, .w32), (b, .w32)], some (d, .full, .w32, false), true⟩
  | .pmul2 _ d a b _ _ _ => some ⟨.i, [(a, .w32), (b, .w32)], some (d, .full, .w32, false), true⟩
  | .pmin2 _ d a b _ _ => some ⟨.i, [(a, .w32), (b, .w32)], some (d, .full, .w32, false), true⟩
  | .pmax2 _ d a b _ _ => some ⟨.i, [(a, .w32), (b, .w32)], some (d, .full, .w32, false), true⟩
  | .pshr2 _ d a b _ _ => some ⟨.i, [(a, .w32), (b, .w32)], some (d, .full, .w32, false), true⟩
  | .ppack _ d a b _ _ _ => some ⟨.i, [(a, .w32), (b, .w32)], some (d, .full, .w32, false), true⟩
  | .punpkLo _ d a _ _ => some ⟨.i, [(a, .w32)], some (d, .full, .w32, false), true⟩
  | .punpkHi _ d a _ _ => some ⟨.i, [(a, .w32)], some (d, .full, .w32, false), true⟩
  | .pabs2 _ d a _ _ => some ⟨.i, [(a, .w32)], some (d, .full, .w32, false), true⟩
  | .pmac2 _ d a b g => some ⟨.i, [(a, .w32), (b, .w32), (g, .w32)], some (d, .full, .w32, false), true⟩
  | .pmac4 _ d a b g => some ⟨.i, [(a, .w32), (b, .w32), (g, .w32)], some (d, .full, .w32, false), true⟩
  | .fdot2F16 _ d a b g => some ⟨.f, [(a, .w32), (b, .w32), (g, .w32)], some (d, .full, .w32, false), true⟩
  | .fdot2Bf16 _ d a b g => some ⟨.f, [(a, .w32), (b, .w32), (g, .w32)], some (d, .full, .w32, false), true⟩
  | .cfma _ d a b g => some ⟨.f, [(a, .c64), (b, .c64), (g, .quad)], some (d, .full, .w128, true), true⟩
  | .cfmaj _ d a b g => some ⟨.f, [(a, .c64), (b, .c64), (g, .quad)], some (d, .full, .w128, true), true⟩
  | .bfi _ d a b g => some ⟨.i, [(a, .w32), (b, .w32), (g, .w32)], some (d, .full, .w32, false), true⟩
  | .mad _ d a b g => some ⟨.i, [(a, .w32), (b, .w32), (g, .w32)], some (d, .full, .w32, false), true⟩
  | .slideUp _ d a b fill => some ⟨.s, (a, .w32) :: (if fill = .carry then [(b, .w32)] else []), some (d, if fill = .carry then .base else .full, if fill = .carry then .w64 else .w32, false), true⟩
  | .slideDn _ d a b fill => some ⟨.s, (a, .w32) :: (if fill = .carry then [(b, .w32)] else []), some (d, if fill = .carry then .base else .full, if fill = .carry then .w64 else .w32, false), true⟩
  | .slideH _ d a b fill => some ⟨.s, (a, .w32) :: (if fill = .carry then [(b, .w32)] else []), some (d, if fill = .carry then .base else .full, if fill = .carry then .w64 else .w32, false), true⟩
  | .shfl _ d a b => some ⟨.s, [(a, .w32), (b, .w32)], some (d, .full, .w32, false), true⟩
  | .shflx _ d a b => some ⟨.s, [(a, .w32), (b, .w32)], some (d, .full, .w32, false), true⟩
  | .bcast _ d a b => some ⟨.s, [(a, .w32), (b, .w32)], some (d, .full, .w32, false), true⟩
  | .vote _ d a _ => some ⟨.s, [(a, .w32)], some (d, .full, .w32, false), true⟩
  | .gred _ d a _ => some ⟨.s, [(a, .w32)], some (d, .full, .w32, false), true⟩
  | .gscan _ d a _ => some ⟨.s, [(a, .w32)], some (d, .full, .w32, false), true⟩
  | .qred _ d a _ => some ⟨.s, [(a, .w32)], some (d, .full, .w32, false), true⟩
  | .xmatch _ d a => some ⟨.s, [(a, .w32)], some (d, .full, .w32, false), true⟩
  | .bmax _ d a _ => some ⟨.f, [(a, .quad)], some (d, .full, .w32, false), true⟩
  | .bscale _ d a pol _ => some ⟨.f, [(a, .w32)], some (d, .full, .w32, false), decide (pol.toNat < 3)⟩
  | .bqnt _ d a b _ => some ⟨.f, [(a, .quad), (b, .w32)], some (d, .full, .w32, false), true⟩
  | .bdqnt _ d a _ => some ⟨.f, [(a, .w32)], some (d, .base, .w128, false), true⟩
  | .bsetsc _ d a b _ => some ⟨.f, [(a, .w32), (b, .w32)], some (d, .full, .w32, false), true⟩
  | .bgetsc _ d a _ => some ⟨.f, [(a, .w32)], some (d, .full, .w32, false), true⟩
  | .bshift _ d a b _ => some ⟨.f, [(a, .w32), (b, .w32)], some (d, .full, .w32, false), true⟩
  | .brescale _ d a b _ => some ⟨.f, [(a, .w32), (b, .w32)], some (d, .full, .w32, false), true⟩
  | .bdot _ d a b _ => some ⟨.f, [(a, .w32), (b, .w32)], some (d, .full, .w32, false), true⟩
  | .ldB8u _ d a _ => some ⟨.m, [(a, .w64)], some (d, .full, .w32, false), true⟩
  | .ldB8s _ d a _ => some ⟨.m, [(a, .w64)], some (d, .full, .w32, false), true⟩
  | .ldB16u _ d a _ => some ⟨.m, [(a, .w64)], some (d, .full, .w32, false), true⟩
  | .ldB16s _ d a _ => some ⟨.m, [(a, .w64)], some (d, .full, .w32, false), true⟩
  | .ldB32 _ d a _ => some ⟨.m, [(a, .w64)], some (d, .full, .w32, false), true⟩
  | .ldB64 _ d a _ => some ⟨.m, [(a, .w64)], some (d, .full, .w64, false), true⟩
  | .ldB128 _ d a _ => some ⟨.m, [(a, .w64)], some (d, .full, .w128, false), true⟩
  | .ldacqB32 _ d a _ => some ⟨.m, [(a, .w64)], some (d, .full, .w32, false), true⟩
  | .ldacqB64 _ d a _ => some ⟨.m, [(a, .w64)], some (d, .full, .w64, false), true⟩
  | .ldsB32 _ d a _ => some ⟨.m, [(a, .w32)], some (d, .full, .w32, false), true⟩
  | .ldsB64 _ d a _ => some ⟨.m, [(a, .w32)], some (d, .full, .w64, false), true⟩
  | .ldsB128 _ d a _ => some ⟨.m, [(a, .w32)], some (d, .full, .w128, false), true⟩
  | .ldb _ d a _ _ => some ⟨.m, [(a, .w64)], some (d, .full, .w32, false), true⟩
  | .ldbs _ d a _ _ => some ⟨.m, [(a, .w32)], some (d, .full, .w32, false), true⟩
  | .ldncB32 _ d a _ => some ⟨.m, [(a, .w64)], some (d, .full, .w32, false), true⟩
  | .stB8 _ v a _ => some ⟨.m, [(a, .w64), (v, .w32)], none, true⟩
  | .stB16 _ v a _ => some ⟨.m, [(a, .w64), (v, .w32)], none, true⟩
  | .stB32 _ v a _ => some ⟨.m, [(a, .w64), (v, .w32)], none, true⟩
  | .stB64 _ v a _ => some ⟨.m, [(a, .w64), (v, .w64)], none, true⟩
  | .stB128 _ v a _ => some ⟨.m, [(a, .w64), (v, .quadNZ)], none, true⟩
  | .strelB32 _ v a _ => some ⟨.m, [(a, .w64), (v, .w32)], none, true⟩
  | .strelB64 _ v a _ => some ⟨.m, [(a, .w64), (v, .w64)], none, true⟩
  | .stsB8 _ v a _ => some ⟨.m, [(a, .w32), (v, .w32)], none, true⟩
  | .stsB32 _ v a _ => some ⟨.m, [(a, .w32), (v, .w32)], none, true⟩
  | .stsB64 _ v a _ => some ⟨.m, [(a, .w32), (v, .w64)], none, true⟩
  | .stsB128 _ v a _ => some ⟨.m, [(a, .w32), (v, .quadNZ)], none, true⟩
  | .stb _ v a _ _ => some ⟨.m, [(a, .w64), (v, .w32)], none, true⟩
  | .stbs _ v a _ _ => some ⟨.m, [(a, .w32), (v, .w32)], none, true⟩
  | .atomB32 _ d a b _ => some ⟨.m, [(a, .w64), (b, .w32)], some (d, .base, .w32, false), true⟩
  | .atomB64 _ d a b _ => some ⟨.m, [(a, .w64), (b, .w64)], some (d, .base, .w64, false), true⟩
  | .redB32 _ a b _ => some ⟨.m, [(a, .w64), (b, .w32)], none, true⟩
  | .redB64 _ a b _ => some ⟨.m, [(a, .w64), (b, .w64)], none, true⟩
  | .atomf _ d a b _ => some ⟨.m, [(a, .w64), (b, .w32)], some (d, .base, .w32, false), true⟩
  | .redf _ a b _ => some ⟨.m, [(a, .w64), (b, .w32)], none, true⟩
  | .casB32 _ d a b => some ⟨.m, [(a, .w64), (b, .c64)], some (d, .base, .w32, false), true⟩
  | .casB64 _ d a b => some ⟨.m, [(a, .w64), (b, .quadNZ)], some (d, .base, .w64, false), true⟩
  | .cas2 _ d a b => some ⟨.m, [(a, .w64), (b, .quadNZ)], some (d, .base, .w128, false), true⟩
  | .amaxrst _ d a => some ⟨.m, [(a, .w32)], some (d, .base, .w32, false), true⟩
  | .atoms _ d a b _ => some ⟨.m, [(a, .w32), (b, .w32)], some (d, .base, .w32, false), true⟩
  | .reds _ a b _ => some ⟨.m, [(a, .w32), (b, .w32)], none, true⟩
  | .cass _ d a b => some ⟨.m, [(a, .w32), (b, .c64)], some (d, .base, .w32, false), true⟩
  | .atomfs _ d a b _ => some ⟨.m, [(a, .w32), (b, .w32)], some (d, .base, .w32, false), true⟩
  | .bar _ _ => some ⟨.b, [], none, true⟩
  | .minit _ a b scr => some ⟨.b, [(a, moorWd scr), (b, .w32)], none, true⟩
  | .marrive _ d a b scr => some ⟨.b, [(a, moorWd scr), (b, .w32)], some (d, .small, .w32, false), true⟩
  | .mexpect _ a b scr => some ⟨.b, [(a, moorWd scr), (b, .w32)], none, true⟩
  | .mwait _ a b scr => some ⟨.b, [(a, moorWd scr), (b, .w32)], none, true⟩
  | .mtest _ p a b scr => some ⟨.b, [(a, moorWd scr), (b, .w32)], none, p.plainOk⟩
  | .fence _ _ => some ⟨.b, [], none, true⟩
  | .xfence _ x y _ => some ⟨.b, [], none, x != 0 && y != 0⟩
  | .wait _ _ _ _ _ => some ⟨.b, [], none, true⟩
  | .cinv _ a b => some ⟨.m, [(a, .w64), (b, .w32)], none, true⟩
  | .cwb _ a b => some ⟨.m, [(a, .w64), (b, .w32)], none, true⟩
  | .pfetch _ a _ => some ⟨.m, [(a, .w64)], none, true⟩
  | .smap _ a b => some ⟨.m, [(a, .w64), (b, .w32)], none, true⟩
  | .sunmap _ b => some ⟨.m, [(b, .w32)], none, true⟩
  | .sflush _ b => some ⟨.m, [(b, .w32)], none, true⟩
  | .pinfo _ d a => some ⟨.m, [(a, .w64)], some (d, .base, .w64, false), true⟩
  | .tlbi _ a b => some ⟨.m, [(a, .w64), (b, .w32)], none, true⟩
  | .cpy _ a b _ => some ⟨.e, [(a, .w32), (b, .w64)], none, true⟩
  | .seal _ a b => some ⟨.e, [(a, .w32), (b, .w32)], none, true⟩
  | .tile _ a b => some ⟨.e, [(a, .w32), (b, .w64)], none, true⟩
  | .relay _ a b => some ⟨.e, [(a, .w32), (b, .w64)], none, true⟩
  | .gath _ a => some ⟨.e, [(a, .w32)], none, true⟩
  | .mrsv _ p => some ⟨.e, [], none, p.plainOk⟩
  | .mrel _ => some ⟨.e, [], none, true⟩
  | .mcvn _ a => some ⟨.e, [(a, .w32)], none, true⟩
  | .mma _ a => some ⟨.e, [(a, .w32)], none, true⟩
  | .mmd _ a => some ⟨.e, [(a, .w32)], none, true⟩
  | .mzero _ a => some ⟨.e, [(a, .w32)], none, true⟩
  | .mdrain _ a b _ => some ⟨.e, [(a, .w32), (b, .w64)], none, true⟩
  | .mload _ a b => some ⟨.e, [(a, .w32), (b, .w64)], none, true⟩
  | .mcfg _ a b => some ⟨.e, [(a, .w32), (b, .w32)], none, true⟩
  | .mcmplx _ a => some ⟨.e, [(a, .w32)], none, true⟩
  | .glapp _ a b => some ⟨.e, [(a, .w64), (b, .w64)], none, true⟩
  | .glfold _ a b => some ⟨.e, [(a, .w64), (b, .w64)], none, true⟩
  | .emit _ a b => some ⟨.b, [(a, .w64), (b, .w64)], none, true⟩
  | .spawn _ a b => some ⟨.b, [(a, .w64), (b, .w64)], none, true⟩
  | .jdec _ a => some ⟨.b, [(a, .w64)], none, true⟩
  | .wtag _ a => some ⟨.b, [(a, .w32)], none, true⟩
  | .wclose _ d a b => some ⟨.b, [(a, .w64), (b, .w32)], some (d, .small, .w32, false), true⟩
  | .wfence _ => some ⟨.b, [], none, true⟩
  | .bcas _ a b => some ⟨.m, [(a, .w64), (b, .w32)], none, true⟩
  | .benq _ a b => some ⟨.m, [(a, .w64), (b, .w32)], none, true⟩
  | .bchase _ a b => some ⟨.m, [(a, .w64), (b, .w32)], none, true⟩
  | .bred _ a b => some ⟨.m, [(a, .w64), (b, .w32)], none, true⟩
  | .xev _ a b => some ⟨.b, [(a, .w64), (b, .w64)], none, true⟩
  | .xtest _ p a b => some ⟨.b, [(a, .w64), (b, .w64)], none, p.plainOk⟩
  | .tmchk _ p a => some ⟨.m, [(a, .w32)], none, p.plainOk⟩
  | .tmwait _ a => some ⟨.m, [(a, .w32)], none, true⟩
  | .tmpin _ a => some ⟨.m, [(a, .w32)], none, true⟩
  | .tmunpin _ a => some ⟨.m, [(a, .w32)], none, true⟩
  | .loadDataReturn _ _ _ _ => none
  | .fenceCompletion _ _ => none
  | .speculationRollback _ _ => none
  | .sleepExpiry _ _ _ => none
  | .mooringOpAtHome _ => none
  | .chunkFill _ _ _ => none
  | .scratchWriteback _ => none
  | .groupEnd _ _ => none
  | .gridRetirement _ => none
  | .preemptionRequest _ => none
  | .contextSave _ => none
  | .faultService _ _ => none
  | .faultRecordDelivery _ => none
  | .retry _ => none
  | .remap _ => none
  | .setrap _ => none
  | .migrate _ => none
  | .restream _ => none
  | .deliver _ => none
  | .abort _ => none
  | .ret _ => none
  | .copyBatchCompletion _ _ => none
  | .tileCompletion _ _ _ => none
  | .relayHopCompletion _ _ _ => none
  | .gatherCompletion _ _ _ => none
  | .jointIssue _ _ => none
  | .matrixPass _ _ => none
  | .matrixOpCompletion _ _ => none
  | .matrixHeaderFailure _ _ => none
  | .mdrainEntryDelivery _ _ => none
  | .glappRecordWrite _ _ => none
  | .recordFold _ => none
  | .glfoldRetirement _ => none
  | .doorbell _ _ => none
  | .packetNop _ => none
  | .launch _ => none
  | .coll _ => none
  | .waitmem _ => none
  | .waitmemReread _ => none
  | .signalmem _ => none
  | .modelRequest _ => none
  | .modelWithdraw _ => none
  | .modelPin _ => none
  | .modelUnpin _ => none
  | .qbarrier _ => none
  | .workTableTimeout _ => none
  | .placementAttempt _ => none
  | .candidateReservation _ _ => none
  | .thermalMigration _ => none
  | .jdecAtHome _ => none
  | .layerArrival _ _ _ => none
  | .layerFetchFailure _ _ _ => none
  | .layerEviction _ _ => none
  | .reflectionArrival _ => none
  | .reflectionAcknowledgement _ _ => none
  | .closeMarkerArrival _ => none
  | .daymarkArrival _ _ _ => none
  | .beaconBcasStep _ => none
  | .beaconBenqStep _ => none
  | .beaconBchaseStep _ => none
  | .beaconBredStep _ => none
  | .ualinkReadReceived _ => none
  | .slotGrant _ _ _ => none
  | .contributionArrival _ _ => none
  | .memberReport _ _ => none
  | .readyWordPoll _ => none
  | .collectiveFailure _ _ => none
  | .vaultRowSparing _ _ => none
  | .hbmChannelFailure _ _ => none
  | .dieLinkLaneFailure _ _ => none
  | .ualinkPortFailure _ => none
  | .coreFailure _ _ => none
  | .vaultFailure _ => none
  | .heartbeatTakeover => none
  | .cxlPortFailure => none
  | .patrolScrub _ => none
  | .hostMemAccess _ _ => none
  | .scaleViewWrite _ _ => none
  | .ctxCreate _ _ => none
  | .ctxSet _ _ => none
  | .ctxDestroy _ => none
  | .map _ _ _ => none
  | .unmap _ _ => none
  | .xlate _ _ => none
  | .keyLoad _ _ => none
  | .keyClear _ => none
  | .winSet _ => none
  | .queueSet _ _ => none
  | .queueClear _ => none
  | .layerDone _ _ => none
  | .fwWrite _ _ => none
  | .fwCommit _ => none
  | .warm _ => none
  | .mailboxUnknownCode _ => none
  | .bar0WriteIgnored _ _ => none
  | .coldStart _ => none
  | .warmReset _ _ => none
  | .managementRead _ => none
  | .plimWrite _ => none
  | .coldResetRequest => none
  | .powerWindow _ => none
  | .temperatureHot _ => none
  | .temperatureTrip => none
  | .illegalOp _ _ _ _ _ => none
  | .packetFetch _ _ _ => none
  | .mbstsRead => none
  | .hdmDecoderWrite _ _ => none
  | .digestExchange _ _ _ => none
  | .vaultSplitChange _ _ => none

/-- The CH bit of a word: another word of its chain follows it (R26); a guard always has one (R50). -/
def Instr.ch : Instr → Bool
  | .guard _ => true
  | .nop ch | .exit ch | .trap ch _ | .brk ch | .rdsr ch _ _ | .wrsr ch _ _ | .sleep ch _ | .yield ch | .prio ch _ | .rfe ch | .kreq ch _ _ _
  | .iadd ch _ _ _ _ _ _ | .isub ch _ _ _ _ _ _ | .imul ch _ _ _ _ | .imulh ch _ _ _ _ _ | .idiv ch _ _ _ _ _ | .irem ch _ _ _ _ _
  | .imin ch _ _ _ _ _ | .imax ch _ _ _ _ _ | .iabs ch _ _ _ | .ineg ch _ _ _ | .and ch _ _ _ _ | .or ch _ _ _ _ | .xor ch _ _ _ _ | .andn ch _ _ _ _
  | .not ch _ _ _ | .shl ch _ _ _ _ | .shr ch _ _ _ _ | .sar ch _ _ _ _ | .rol ch _ _ _ _ | .ror ch _ _ _ _ | .clz ch _ _ _ | .ctz ch _ _ _
  | .popc ch _ _ _ | .brev ch _ _ _ | .bswap ch _ _ _ | .bfe ch _ _ _ _ _ | .lea ch _ _ _ _ | .mov ch _ _ _ | .shrr ch _ _ _ _ _ | .sel ch _ _ _ _
  | .iaddi ch _ _ _ | .andi ch _ _ _ | .ori ch _ _ _ | .xori ch _ _ _ | .shli ch _ _ _ _ _ | .shri ch _ _ _ _ _ | .sari ch _ _ _ _ _ | .movi ch _ _
  | .icmpS ch _ _ _ _ | .icmpU ch _ _ _ _ | .icmpSW ch _ _ _ _ | .icmpUW ch _ _ _ _ | .fcmpF32 ch _ _ _ _ | .fcmpF16 ch _ _ _ _ | .fclass ch _ _ _ _
  | .plog ch _ _ _ _ | .setp ch _ _ | .bra ch _ _ _ | .braEnrol ch _ _ _ _ | .strike ch _ _ _ _ | .call ch _ _ _ | .brx ch _ | .join ch _
  | .rjset ch _ _ | .rjget ch _ _ | .fadd ch _ _ _ _ | .fsub ch _ _ _ _ | .fmul ch _ _ _ _ | .fmin ch _ _ _ _ | .fmax ch _ _ _ _ | .fminm ch _ _ _ _
  | .fmaxm ch _ _ _ _ | .fabs ch _ _ _ | .fneg ch _ _ _ | .fcopysign ch _ _ _ _ | .fround ch _ _ _ _ | .twosum ch _ _ _ | .ffmaF32 ch _ _ _ _
  | .ffmaF16x2 ch _ _ _ _ | .ffmaBf16x2 ch _ _ _ _ | .ffnmaF32 ch _ _ _ _ | .ffnmaF16x2 ch _ _ _ _ | .ffnmaBf16x2 ch _ _ _ _ | .frcp ch _ _ _
  | .frsq ch _ _ _ | .fsqrt ch _ _ _ | .fexp2 ch _ _ _ | .flog2 ch _ _ _ | .fsin ch _ _ _ | .fcos ch _ _ _ | .ftanh ch _ _ _ | .fsigm ch _ _ _
  | .fdiv ch _ _ _ _ | .cvtF ch _ _ _ _ | .cvtIf ch _ _ _ _ | .cvtFi ch _ _ _ _ | .qnt ch _ _ _ _ | .dqnt ch _ _ _ _ | .fldexp ch _ _ _ _
  | .fexpo ch _ _ _ _ | .srnd ch _ _ _ _ | .padd2 ch _ _ _ _ _ _ | .psub2 ch _ _ _ _ _ _ | .pmul2 ch _ _ _ _ _ _ | .pmin2 ch _ _ _ _ _
  | .pmax2 ch _ _ _ _ _ | .pshr2 ch _ _ _ _ _ | .ppack ch _ _ _ _ _ _ | .punpkLo ch _ _ _ _ | .punpkHi ch _ _ _ _ | .pabs2 ch _ _ _ _
  | .pmac2 ch _ _ _ _ | .pmac4 ch _ _ _ _ | .fdot2F16 ch _ _ _ _ | .fdot2Bf16 ch _ _ _ _ | .cfma ch _ _ _ _ | .cfmaj ch _ _ _ _ | .bfi ch _ _ _ _
  | .mad ch _ _ _ _ | .slideUp ch _ _ _ _ | .slideDn ch _ _ _ _ | .slideH ch _ _ _ _ | .shfl ch _ _ _ | .shflx ch _ _ _ | .bcast ch _ _ _
  | .vote ch _ _ _ | .gred ch _ _ _ | .gscan ch _ _ _ | .qred ch _ _ _ | .xmatch ch _ _ | .bmax ch _ _ _ | .bscale ch _ _ _ _ | .bqnt ch _ _ _ _
  | .bdqnt ch _ _ _ | .bsetsc ch _ _ _ _ | .bgetsc ch _ _ _ | .bshift ch _ _ _ _ | .brescale ch _ _ _ _ | .bdot ch _ _ _ _ | .ldB8u ch _ _ _
  | .ldB8s ch _ _ _ | .ldB16u ch _ _ _ | .ldB16s ch _ _ _ | .ldB32 ch _ _ _ | .ldB64 ch _ _ _ | .ldB128 ch _ _ _ | .ldacqB32 ch _ _ _
  | .ldacqB64 ch _ _ _ | .ldsB32 ch _ _ _ | .ldsB64 ch _ _ _ | .ldsB128 ch _ _ _ | .ldb ch _ _ _ _ | .ldbs ch _ _ _ _ | .ldncB32 ch _ _ _
  | .stB8 ch _ _ _ | .stB16 ch _ _ _ | .stB32 ch _ _ _ | .stB64 ch _ _ _ | .stB128 ch _ _ _ | .strelB32 ch _ _ _ | .strelB64 ch _ _ _
  | .stsB8 ch _ _ _ | .stsB32 ch _ _ _ | .stsB64 ch _ _ _ | .stsB128 ch _ _ _ | .stb ch _ _ _ _ | .stbs ch _ _ _ _ | .atomB32 ch _ _ _ _
  | .atomB64 ch _ _ _ _ | .redB32 ch _ _ _ | .redB64 ch _ _ _ | .atomf ch _ _ _ _ | .redf ch _ _ _ | .casB32 ch _ _ _ | .casB64 ch _ _ _
  | .cas2 ch _ _ _ | .amaxrst ch _ _ | .atoms ch _ _ _ _ | .reds ch _ _ _ | .cass ch _ _ _ | .atomfs ch _ _ _ _ | .bar ch _ | .minit ch _ _ _
  | .marrive ch _ _ _ _ | .mexpect ch _ _ _ | .mwait ch _ _ _ | .mtest ch _ _ _ _ | .fence ch _ | .xfence ch _ _ _ | .wait ch _ _ _ _ | .cinv ch _ _
  | .cwb ch _ _ | .pfetch ch _ _ | .smap ch _ _ | .sunmap ch _ | .sflush ch _ | .pinfo ch _ _ | .tlbi ch _ _ | .cpy ch _ _ _ | .seal ch _ _
  | .tile ch _ _ | .relay ch _ _ | .gath ch _ | .mrsv ch _ | .mrel ch | .mcvn ch _ | .mma ch _ | .mmd ch _ | .mzero ch _ | .mdrain ch _ _ _
  | .mload ch _ _ | .mcfg ch _ _ | .mcmplx ch _ | .glapp ch _ _ | .glfold ch _ _ | .emit ch _ _ | .spawn ch _ _ | .jdec ch _ | .wtag ch _
  | .wclose ch _ _ _ | .wfence ch | .bcas ch _ _ | .benq ch _ _ | .bchase ch _ _ | .bred ch _ _ | .xev ch _ _ | .xtest ch _ _ _ | .tmchk ch _ _
  | .tmwait ch _ | .tmpin ch _ | .tmunpin ch _ => ch
  | .loadDataReturn _ _ _ _ | .fenceCompletion _ _ | .speculationRollback _ _ | .sleepExpiry _ _ _ | .mooringOpAtHome _ | .chunkFill _ _ _
  | .scratchWriteback _ | .groupEnd _ _ | .gridRetirement _ | .preemptionRequest _ | .contextSave _ | .faultService _ _ | .faultRecordDelivery _
  | .retry _ | .remap _ | .setrap _ | .migrate _ | .restream _ | .deliver _ | .abort _ | .ret _ | .copyBatchCompletion _ _ | .tileCompletion _ _ _
  | .relayHopCompletion _ _ _ | .gatherCompletion _ _ _ | .jointIssue _ _ | .matrixPass _ _ | .matrixOpCompletion _ _ | .matrixHeaderFailure _ _
  | .mdrainEntryDelivery _ _ | .glappRecordWrite _ _ | .recordFold _ | .glfoldRetirement _ | .doorbell _ _ | .packetNop _ | .launch _ | .coll _
  | .waitmem _ | .waitmemReread _ | .signalmem _ | .modelRequest _ | .modelWithdraw _ | .modelPin _ | .modelUnpin _ | .qbarrier _
  | .workTableTimeout _ | .placementAttempt _ | .candidateReservation _ _ | .thermalMigration _ | .jdecAtHome _ | .layerArrival _ _ _
  | .layerFetchFailure _ _ _ | .layerEviction _ _ | .reflectionArrival _ | .reflectionAcknowledgement _ _ | .closeMarkerArrival _
  | .daymarkArrival _ _ _ | .beaconBcasStep _ | .beaconBenqStep _ | .beaconBchaseStep _ | .beaconBredStep _ | .ualinkReadReceived _ | .slotGrant _ _ _
  | .contributionArrival _ _ | .memberReport _ _ | .readyWordPoll _ | .collectiveFailure _ _ | .vaultRowSparing _ _ | .hbmChannelFailure _ _
  | .dieLinkLaneFailure _ _ | .ualinkPortFailure _ | .coreFailure _ _ | .vaultFailure _ | .heartbeatTakeover | .cxlPortFailure | .patrolScrub _
  | .hostMemAccess _ _ | .scaleViewWrite _ _ | .ctxCreate _ _ | .ctxSet _ _ | .ctxDestroy _ | .map _ _ _ | .unmap _ _ | .xlate _ _ | .keyLoad _ _
  | .keyClear _ | .winSet _ | .queueSet _ _ | .queueClear _ | .layerDone _ _ | .fwWrite _ _ | .fwCommit _ | .warm _ | .mailboxUnknownCode _
  | .bar0WriteIgnored _ _ | .coldStart _ | .warmReset _ _ | .managementRead _ | .plimWrite _ | .coldResetRequest | .powerWindow _ | .temperatureHot _
  | .temperatureTrip | .illegalOp _ _ _ _ _ | .packetFetch _ _ _ | .mbstsRead | .hdmDecoderWrite _ _ | .digestExchange _ _ _ | .vaultSplitChange _ _ => false

/-- An operand code that satisfies the alignment step for its width (R15, R18, R36): step 10 of R49.  `ln`, `mqo` and `wqi` may stand as a
64-bit address and as a tender's B, which R36 admits and the lists of R121 and R235 do not name; a `brx` with #, `ln`, `mqo` or `wqi`, which
R92 does not list, fails here, with subcode 0x12 (DESIGN CHOICE, log entry 76). -/
def srcAligned : Src × Wd → Bool
  | (.n r, .w64) | (.n r, .c64) | (.n r, .a64) => r.val % 2 == 0
  | (.n r, .w128) | (.n r, .quad) | (.n r, .quadNZ) => r.val % 4 == 0
  | (.q k, .w128) | (.q k, .quad) | (.q k, .quadNZ) => k.val != 0
  | (.zero, .quad) => true
  | (_, .quad) | (_, .quadNZ) => false
  | (.lit, .w128) => false
  | (.ln, .c64) | (.mqo, .c64) | (.wqi, .c64) | (.lit, .a64) | (.ln, .a64) | (.mqo, .a64) | (.wqi, .a64) => false
  | _ => true
/-- Destination alignment (R15): step 10 of R49. -/
def dstAligned : Dst × DCls × Wd × Bool → Bool
  | (.n r, _, w, _) => (match w with | .w32 => true | .w64 | .c64 | .a64 => r.val % 2 == 0 | _ => r.val % 4 == 0)
  | (.mqa, _, _, strict) | (.mqb, _, _, strict) => !strict
  | _ => true
/-- A source that a group-scalar write admits (R38). -/
def Src.shared : Src → Bool
  | .g _ | .zero | .lit => true
  | _ => false
/-- Whether the destination code is permitted on the operation (R38): step 9 of R49. -/
def dstPermitted (srcs : List (Src × Wd)) : Dst × DCls × Wd × Bool → Bool
  | (.g _, c, _, _) => (c == .gfull || c == .gbase) && srcs.all (·.1.shared)
  | (.mqa, c, _, _) | (.mqb, c, _, _) => c == .full || c == .gfull
  | _ => true
/-- No queue popped twice by one word (R37): part of step 8 of R49. -/
def popsOnce (srcs : List (Src × Wd)) : Bool :=
  decide ((srcs.filter (·.1 == .mqo)).length ≤ 1) && decide ((srcs.filter (·.1 == .wqi)).length ≤ 1)
/-- The literals a word takes (R27). -/
def Form.lits (f : Form) : Nat := (f.srcs.filter (·.1 == .lit)).length
def Form.srcsOk (f : Form) : Bool := popsOnce f.srcs
def Form.dstOk (f : Form) : Bool := match f.dst with | none => true | some d => dstPermitted f.srcs d
def Form.aligned (f : Form) : Bool :=
  f.srcs.all srcAligned && (match f.dst with | none => true | some d => dstAligned d)

/-- The modifier and type-pair constraints that the operand types do not already hold (R42, R43, R75): steps 3 and
4 of R49. -/
def Instr.modsOk : Instr → Bool
  | .iadd _ _ _ _ _ u s | .isub _ _ _ _ _ u s => !u || s
  | .shli _ _ _ h w _ | .shri _ _ _ h w _ | .sari _ _ _ h w _ => w || !h
  | .icmpS _ _ _ _ c | .icmpU _ _ _ _ c | .icmpSW _ _ _ _ c | .icmpUW _ _ _ _ c => c != .un && c != .or
  | .fclass _ _ _ _ t => !t.packed
  | .cvtF _ _ _ p r => decide (p.toNat ≤ 0x09) && rndOk r
  | .cvtIf _ _ _ p r => decide (0x10 ≤ p.toNat ∧ p.toNat ≤ 0x17) && rndOk r
  | .cvtFi _ _ _ p r => decide (0x18 ≤ p.toNat ∧ p.toNat ≤ 0x1F) && rndOk r
  | .qnt _ _ _ p r | .dqnt _ _ _ p r =>
    decide ((0x20 ≤ p.toNat ∧ p.toNat ≤ 0x25) ∨ (0x28 ≤ p.toNat ∧ p.toNat ≤ 0x2D)) && rndOk r
  | .fldexp _ _ _ p r | .fexpo _ _ _ p r => decide (0x30 ≤ p.toNat ∧ p.toNat ≤ 0x32) && rndOk r
  | .srnd _ _ _ p r => decide (0x38 ≤ p.toNat ∧ p.toNat ≤ 0x3E) && rndOk r
  | .slideUp _ _ _ b f | .slideDn _ _ _ b f | .slideH _ _ _ b f => f == .carry || b == .n 0
  | .cpy _ _ _ s => s != 3
  | _ => true

/-- A well-formed instruction word (R35 to R44). -/
def Instr.wf (i : Instr) : Bool :=
  match i.form with
  | none => false
  | some f => i.modsOk && f.srcsOk && f.dstOk && f.aligned && f.rawOk

end Sys2Proof
end

