-- ==== Sys2Proof/Decode.lean ====
section
/-! DEFINITION. The decoder: an instruction word to the instruction it is, or the subcode of the first check of R49 that
it fails (steps 1 to 5 and 8 to 11; the others depend on the packet and the chain); and the encoder, from the same
formats (R33 to R47). -/
namespace Sys2Proof
open Machine

/-! ### Fields (R33) -/
def fMaj (w : Nat) : Nat := bits w 30 26
def fD (w : Nat) : Nat := bits w 25 20
def fA (w : Nat) : Nat := bits w 19 14
def fB (w : Nat) : Nat := bits w 13 8
def fC (w : Nat) : Nat := bits w 7 2
def fFn (w : Nat) : Nat := bits w 7 0
def fIdx (w : Nat) : Nat := bits w 7 3
def fMod (w : Nat) : Nat := bits w 2 0
def fCh (w : Nat) : Bool := bitAt w 31

/-- The source of a code (R36). -/
def srcOf (c : Nat) : Option Src :=
  if c < 32 then some (.n (Fin.ofNat 32 c))
  else if c < 48 then some (.q (Fin.ofNat 16 (c - 32)))
  else if c < 56 then some (.g (Fin.ofNat 8 (c - 48)))
  else if c = 56 then some .zero
  else if c = 57 then some .ln
  else if c = 58 then some .lit
  else if c = 59 then some .mqo
  else if c = 60 then some .wqi
  else none
/-- The code of a source. -/
def Src.code : Src → Nat
  | .n r => r.val | .q k => 32 + k.val | .g r => 48 + r.val | .zero => 56 | .ln => 57 | .lit => 58 | .mqo => 59 | .wqi => 60
/-- The destination of a code (R38). -/
def dstOf (c : Nat) : Option Dst :=
  if c < 32 then some (.n (Fin.ofNat 32 c))
  else if c = 32 then some .push
  else if c = 33 then some .drop
  else if c < 42 then some (.g (Fin.ofNat 8 (c - 34)))
  else if c = 48 then some .mqa
  else if c = 49 then some .mqb
  else none
/-- The code of a destination. -/
def Dst.code : Dst → Nat
  | .n r => r.val | .push => 32 | .drop => 33 | .g r => 34 + r.val | .mqa => 48 | .mqb => 49
def PSrc.code (x : PSrc) : Nat := x.p.toNat + 8 * bit01 x.neg
def PDst.code (x : PDst) : Nat := x.p.toNat + 8 * x.comb.toNat
def psrcOf (c : Nat) : PSrc := ⟨BitVec.ofNat 3 c, bitAt c 3⟩
def pdstOf (c : Nat) : PDst := ⟨BitVec.ofNat 3 c, BitVec.ofNat 3 (c / 8)⟩
def Scope.code : Scope → Nat
  | .grp => 0 | .team => 1 | .clu => 2 | .dev => 3 | .sys => 4 | .host => 5
def scopeOf (n : Nat) : Scope := [Scope.grp, .team, .clu, .dev, .sys, .host].getD n .host
def AOp.code : AOp → Nat
  | .add => 0 | .minS => 1 | .minU => 2 | .maxS => 3 | .maxU => 4 | .and => 5 | .or => 6 | .xor => 7 | .xchg => 8
def aopOf (n : Nat) : AOp := [AOp.add, .minS, .minU, .maxS, .maxU, .and, .or, .xor, .xchg].getD n .xchg
def AFOp.code : AFOp → Nat
  | .addF32 => 0 | .maxF32 => 1 | .minF32 => 2 | .maxIeee => 3 | .minIeee => 4 | .addF16x2 => 5 | .addBf16x2 => 6 | .maxAbs => 7
def afopOf (n : Nat) : AFOp :=
  [AFOp.addF32, .maxF32, .minF32, .maxIeee, .minIeee, .addF16x2, .addBf16x2, .maxAbs].getD n .maxAbs
def DrainFmt.code : DrainFmt → Nat
  | .f32 => 0 | .bf16 => 1 | .e4m3 => 2 | .e5m2 => 3 | .i8 => 4
def drainOf (n : Nat) : DrainFmt := [DrainFmt.f32, .bf16, .e4m3, .e5m2, .i8].getD n .i8
def ftyOf (n : Nat) : FTy := [FTy.f32, .f16, .bf16, .f16x2, .bf16x2].getD n .f32
def efmtOf (n : Nat) : EFmt := (EFmt.ofNat? n).getD .i8
def fillOf (n : Nat) : Fill := [Fill.zero, .edge, .carry, .wrap].getD n .wrap
def voteOf (n : Nat) : VoteOp := [VoteOp.any, .all, .ballot, .uniform].getD n .uniform

/-! ### The decoder -/

/-- A check that fails with a subcode of R49. -/
def req (b : Bool) (sub : Nat) : Except Nat Unit := if b then .ok () else .error sub
/-- A source field: reserved codes fail step 8. -/
def getSrc (c : Nat) : Except Nat Src := match srcOf c with | some s => .ok s | none => .error 0x10
/-- A destination field: reserved codes fail step 9. -/
def getDst (c : Nat) : Except Nat Dst := match dstOf c with | some d => .ok d | none => .error 0x11
/-- Steps 8 (two pops), 9 (permission), 10 and 11 on the assembled instruction. -/
def finish (i : Instr) : Except Nat Instr :=
  match i.form with
  | none => .error 0x03
  | some f => do
    req f.srcsOk 0x10
    req f.dstOk 0x11
    req f.aligned 0x12
    req f.rawOk 0x13
    return i
/-- Whether a list of sources pops a queue twice (R37). -/
def twice (l : List Src) : Bool :=
  decide (1 < (l.filter (· == .mqo)).length) || decide (1 < (l.filter (· == .wqi)).length)
/-- Destination and three, two, one or no sources. -/
def mk4 (w : Nat) (k : Dst → Src → Src → Src → Instr) : Except Nat Instr := do
  let a ← getSrc (fA w)
  let b ← getSrc (fB w)
  let c ← getSrc (fC w)
  req (!twice [a, b, c]) 0x10
  let d ← getDst (fD w)
  finish (k d a b c)
def mk3 (w : Nat) (k : Dst → Src → Src → Instr) : Except Nat Instr := do
  let a ← getSrc (fA w)
  let b ← getSrc (fB w)
  req (!twice [a, b]) 0x10
  let d ← getDst (fD w)
  finish (k d a b)
def mk2 (w : Nat) (k : Dst → Src → Instr) : Except Nat Instr := do
  let a ← getSrc (fA w)
  let d ← getDst (fD w)
  finish (k d a)
def mk1 (w : Nat) (k : Dst → Instr) : Except Nat Instr := do
  let d ← getDst (fD w)
  finish (k d)
/-- Sources only. -/
def mkAB (w : Nat) (k : Src → Src → Instr) : Except Nat Instr := do
  let a ← getSrc (fA w)
  let b ← getSrc (fB w)
  finish (k a b)
def mkA (w : Nat) (k : Src → Instr) : Except Nat Instr := do
  let a ← getSrc (fA w)
  finish (k a)
def mkB (w : Nat) (k : Src → Instr) : Except Nat Instr := do
  let b ← getSrc (fB w)
  finish (k b)
/-- Step 4 then step 5: the modifier is assigned, the unused fields are zero. -/
def gate (mods res : Bool) : Except Nat Unit := do
  req mods 0x04
  req res 0x05
def noD (w : Nat) : Bool := fD w == 0
def noA (w : Nat) : Bool := fA w == 0
def noB (w : Nat) : Bool := fB w == 0
def noM (w : Nat) : Bool := fMod w == 0

/-- The words of SYS; unused bits of a raw field are refused with 0x13 (log entry 70, as in decCtrl and decIcmp). -/
def decSys (w : Nat) : Except Nat Instr :=
  let c := fCh w
  match fIdx w with
  | 0 => do gate (noM w) (noD w && noA w && noB w); finish (.nop c)
  | 1 => do gate (noM w) (noD w && noA w && noB w); finish (.exit c)
  | 2 => do gate (noM w) (noD w && noA w); finish (.trap c (BitVec.ofNat 6 (fB w)))
  | 3 => do gate (noM w) (noD w && noA w && noB w); finish (.brk c)
  | 4 => do gate (noM w) (noB w); mk1 w fun d => .rdsr c d (BitVec.ofNat 6 (fA w))
  | 5 => do gate (noM w) (noB w); mkA w fun a => .wrsr c (BitVec.ofNat 6 (fD w)) a
  | 6 => do gate (noM w) (noD w && noB w); mkA w fun a => .sleep c a
  | 7 => do gate (noM w) (noD w && noA w && noB w); finish (.yield c)
  | 8 => do
    gate (noM w) (noD w && noB w)
    req (fA w < 16) 0x13
    finish (.prio c (BitVec.ofNat 4 (fA w)))
  | 9 => do gate (noM w) (noD w && noA w && noB w); finish (.rfe c)
  | 10 => do gate (noM w) true; mk3 w fun d a b => .kreq c d a b
  | _ => .error 0x03
def decIalu (w : Nat) : Except Nat Instr :=
  let c := fCh w
  let x := bitAt w 2
  let u := bitAt w 1
  let s := bitAt w 0
  let nu := !u && !s
  let ns := !s
  match fIdx w with
  | 0 => do gate (!u || s) true; mk3 w fun d a b => .iadd c d a b x u s
  | 1 => do gate (!u || s) true; mk3 w fun d a b => .isub c d a b x u s
  | 2 => do gate nu true; mk3 w fun d a b => .imul c d a b x
  | 3 => do gate ns true; mk3 w fun d a b => .imulh c d a b x u
  | 4 => do gate ns true; mk3 w fun d a b => .idiv c d a b x u
  | 5 => do gate ns true; mk3 w fun d a b => .irem c d a b x u
  | 6 => do gate ns true; mk3 w fun d a b => .imin c d a b x u
  | 7 => do gate ns true; mk3 w fun d a b => .imax c d a b x u
  | 8 => do gate nu (noB w); mk2 w fun d a => .iabs c d a x
  | 9 => do gate nu (noB w); mk2 w fun d a => .ineg c d a x
  | 10 => do gate nu true; mk3 w fun d a b => .and c d a b x
  | 11 => do gate nu true; mk3 w fun d a b => .or c d a b x
  | 12 => do gate nu true; mk3 w fun d a b => .xor c d a b x
  | 13 => do gate nu true; mk3 w fun d a b => .andn c d a b x
  | 14 => do gate nu (noB w); mk2 w fun d a => .not c d a x
  | 15 => do gate nu true; mk3 w fun d a b => .shl c d a b x
  | 16 => do gate nu true; mk3 w fun d a b => .shr c d a b x
  | 17 => do gate nu true; mk3 w fun d a b => .sar c d a b x
  | 18 => do gate nu true; mk3 w fun d a b => .rol c d a b x
  | 19 => do gate nu true; mk3 w fun d a b => .ror c d a b x
  | 20 => do gate nu (noB w); mk2 w fun d a => .clz c d a x
  | 21 => do gate nu (noB w); mk2 w fun d a => .ctz c d a x
  | 22 => do gate nu (noB w); mk2 w fun d a => .popc c d a x
  | 23 => do gate nu (noB w); mk2 w fun d a => .brev c d a x
  | 24 => do gate nu (noB w); mk2 w fun d a => .bswap c d a x
  | 25 => do gate ns true; mk3 w fun d a b => .bfe c d a b x u
  | 26 => do gate nu true; mk3 w fun d a b => .lea c d a b x
  | 27 => do gate nu (noB w); mk2 w fun d a => .mov c d a x
  | 28 => do gate ns true; mk3 w fun d a b => .shrr c d a b x u
  | 29 => do gate nu true; mk3 w fun d a b => .sel c d a b x
  | _ => .error 0x03
def decIimm (w : Nat) : Except Nat Instr :=
  let c := fCh w
  let imm := BitVec.ofNat 11 (bits w 10 0)
  let x := bitAt w 5
  let h := bitAt w 10
  let k := BitVec.ofNat 5 (bits w 4 0)
  let ok := bits w 9 6 == 0 && (x || !h)
  match bits w 13 11 with
  | 0 => mk2 w fun d a => .iaddi c d a imm
  | 1 => mk2 w fun d a => .andi c d a imm
  | 2 => mk2 w fun d a => .ori c d a imm
  | 3 => mk2 w fun d a => .xori c d a imm
  | 4 => do req ok 0x05; mk2 w fun d a => .shli c d a h x k
  | 5 => do req ok 0x05; mk2 w fun d a => .shri c d a h x k
  | 6 => do req ok 0x05; mk2 w fun d a => .sari c d a h x k
  | _ => mk1 w fun d => .movi c d (BitVec.ofNat 17 (fA w * 2 ^ 11 + bits w 10 0))
def decIcmp (w : Nat) : Except Nat Instr :=
  let c := fCh w
  let p := pdstOf (fD w)
  let k := fMod w
  match fIdx w with
  | 0 => do gate (k < 6) true; mkAB w fun a b => .icmpS c p a b (condOf k)
  | 1 => do gate (k < 6) true; mkAB w fun a b => .icmpU c p a b (condOf k)
  | 2 => do gate (k < 6) true; mkAB w fun a b => .icmpSW c p a b (condOf k)
  | 3 => do gate (k < 6) true; mkAB w fun a b => .icmpUW c p a b (condOf k)
  | 4 => mkAB w fun a b => .fcmpF32 c p a b (condOf k)
  | 5 => mkAB w fun a b => .fcmpF16 c p a b (condOf k)
  | 6 => do gate (k < 3) true; mkAB w fun a b => .fclass c p a b (ftyOf k)
  | 7 => do
    gate (k < 4) true
    req (fA w < 16 && fB w < 16) 0x13
    finish (.plog c p (psrcOf (fA w)) (psrcOf (fB w)) (plogOf k))
  | 8 => do gate (k == 0) (noB w); mkA w fun a => .setp c p a
  | _ => .error 0x03
def decBranch (w : Nat) : Except Nat Instr :=
  let c := fCh w
  let ng := bitAt w 25
  let p := BitVec.ofNat 3 (bits w 24 22)
  let j := BitVec.ofNat 3 (bits w 21 19)
  let o := BitVec.ofNat 17 (bits w 16 0)
  match bits w 18 17 with
  | 0 => do req (j == 0) 0x05; finish (.bra c ng p o)
  | 1 => finish (.braEnrol c ng p j o)
  | 2 => finish (.strike c ng p j o)
  | _ => do req (j == 0) 0x05; finish (.call c ng p o)
def decCtrl (w : Nat) : Except Nat Instr :=
  let c := fCh w
  let j := BitVec.ofNat 3 (fA w)
  match fIdx w with
  | 0 => do gate (noM w) (noD w && noB w); mkA w fun a => .brx c a
  | 1 => do gate (noM w) (noD w && noB w); req (fA w < 8) 0x13; finish (.join c j)
  | 2 => do
    gate (noM w) (noD w && noB w)
    req (fA w < 16) 0x13
    let i ← finish (.guard (psrcOf (fA w)))
    req c 0x33
    return i
  | 3 => do
    gate (noM w) (noD w)
    let b ← getSrc (fB w)
    req (fA w < 8) 0x13
    finish (.rjset c j b)
  | 4 => do
    gate (noM w) (noB w)
    let d ← getDst (fD w)
    req (dstPermitted [] (d, .base, .w32, false)) 0x11
    req (fA w < 8) 0x13
    finish (.rjget c d j)
  | _ => .error 0x03
def decFalu (w : Nat) : Except Nat Instr :=
  let c := fCh w
  let t := ftyOf (fMod w)
  let ok : Bool := fMod w < 5
  match fIdx w with
  | 0 => do gate ok true; mk3 w fun d a b => .fadd c d a b t
  | 1 => do gate ok true; mk3 w fun d a b => .fsub c d a b t
  | 2 => do gate ok true; mk3 w fun d a b => .fmul c d a b t
  | 3 => do gate ok true; mk3 w fun d a b => .fmin c d a b t
  | 4 => do gate ok true; mk3 w fun d a b => .fmax c d a b t
  | 5 => do gate ok true; mk3 w fun d a b => .fminm c d a b t
  | 6 => do gate ok true; mk3 w fun d a b => .fmaxm c d a b t
  | 7 => do gate ok (noB w); mk2 w fun d a => .fabs c d a t
  | 8 => do gate ok (noB w); mk2 w fun d a => .fneg c d a t
  | 9 => do gate ok true; mk3 w fun d a b => .fcopysign c d a b t
  | 10 => do
    gate ok true
    let a ← getSrc (fA w)
    let d ← getDst (fD w)
    let i := Instr.fround c d a (BitVec.ofNat 3 (fB w)) t
    req (fB w < 8 || !((i.form.map fun f => f.dstOk && f.aligned).getD false)) 0x13
    finish i
  | 11 => do gate (noM w) true; mk3 w fun d a b => .twosum c d a b
  | _ => .error 0x03
def decFfma (neg : Bool) (w : Nat) : Except Nat Instr :=
  let c := fCh w
  match bits w 1 0 with
  | 0 => mk4 w fun d a b e => if neg then .ffnmaF32 c d a b e else .ffmaF32 c d a b e
  | 1 => mk4 w fun d a b e => if neg then .ffnmaF16x2 c d a b e else .ffmaF16x2 c d a b e
  | 2 => mk4 w fun d a b e => if neg then .ffnmaBf16x2 c d a b e else .ffmaBf16x2 c d a b e
  | _ => .error 0x03
def decFspec (w : Nat) : Except Nat Instr :=
  let c := fCh w
  let h := bitAt w 0
  let ok : Bool := fMod w < 2
  match fIdx w with
  | 0 => do gate ok (noB w); mk2 w fun d a => .frcp c d a h
  | 1 => do gate ok (noB w); mk2 w fun d a => .frsq c d a h
  | 2 => do gate ok (noB w); mk2 w fun d a => .fsqrt c d a h
  | 3 => do gate ok (noB w); mk2 w fun d a => .fexp2 c d a h
  | 4 => do gate ok (noB w); mk2 w fun d a => .flog2 c d a h
  | 5 => do gate ok (noB w); mk2 w fun d a => .fsin c d a h
  | 6 => do gate ok (noB w); mk2 w fun d a => .fcos c d a h
  | 7 => do gate ok (noB w); mk2 w fun d a => .ftanh c d a h
  | 8 => do gate ok (noB w); mk2 w fun d a => .fsigm c d a h
  | 9 => do gate ok true; mk3 w fun d a b => .fdiv c d a b h
  | _ => .error 0x03
/-- A CVT word: the type pair is part of step 3, the mode of step 4. -/
def mkCvt (w lo hi : Nat) (k : Dst → Src → Instr) : Except Nat Instr := do
  req (lo ≤ fB w && fB w ≤ hi) 0x03
  gate (rndOk (BitVec.ofNat 3 (fMod w))) true
  mk2 w k
def decCvt (w : Nat) : Except Nat Instr :=
  let c := fCh w
  let p := BitVec.ofNat 6 (fB w)
  let r := BitVec.ofNat 3 (fMod w)
  let q : Bool := fB w ≤ 0x25 || 0x28 ≤ fB w
  match fIdx w with
  | 0 => mkCvt w 0x00 0x09 fun d a => .cvtF c d a p r
  | 1 => mkCvt w 0x10 0x17 fun d a => .cvtIf c d a p r
  | 2 => mkCvt w 0x18 0x1F fun d a => .cvtFi c d a p r
  | 3 => do req q 0x03; mkCvt w 0x20 0x2D fun d a => .qnt c d a p r
  | 4 => do req q 0x03; mkCvt w 0x20 0x2D fun d a => .dqnt c d a p r
  | 5 => mkCvt w 0x30 0x32 fun d a => .fldexp c d a p r
  | 6 => mkCvt w 0x30 0x32 fun d a => .fexpo c d a p r
  | 7 => mkCvt w 0x38 0x3E fun d a => .srnd c d a p r
  | _ => .error 0x03
def decPack (w : Nat) : Except Nat Instr :=
  let c := fCh w
  let e := bitAt w 2
  let u := bitAt w 1
  let s := bitAt w 0
  match fIdx w with
  | 0 => mk3 w fun d a b => .padd2 c d a b e u s
  | 1 => mk3 w fun d a b => .psub2 c d a b e u s
  | 2 => mk3 w fun d a b => .pmul2 c d a b e u s
  | 3 => do gate (!s) true; mk3 w fun d a b => .pmin2 c d a b e u
  | 4 => do gate (!s) true; mk3 w fun d a b => .pmax2 c d a b e u
  | 5 => do gate (!s) true; mk3 w fun d a b => .pshr2 c d a b e u
  | 6 => mk3 w fun d a b => .ppack c d a b e u s
  | 7 => do gate (!s) (noB w); mk2 w fun d a => .punpkLo c d a e u
  | 8 => do gate (!s) (noB w); mk2 w fun d a => .punpkHi c d a e u
  | 9 => do gate (!u) (noB w); mk2 w fun d a => .pabs2 c d a e s
  | _ => .error 0x03
/-- A slide: B is a source under carry, and reserved otherwise (R167). -/
def mkSlide (w : Nat) (k : Dst → Src → Src → Fill → Instr) : Except Nat Instr := do
  gate (fMod w < 4) (fMod w == 2 || noB w)
  mk3 w fun d a b => k d a b (fillOf (fMod w))
def decXlane (w : Nat) : Except Nat Instr :=
  let c := fCh w
  match fIdx w with
  | 0 => mkSlide w fun d a b f => .slideUp c d a b f
  | 1 => mkSlide w fun d a b f => .slideDn c d a b f
  | 2 => mkSlide w fun d a b f => .slideH c d a b f
  | 3 => do gate (noM w) true; mk3 w fun d a b => .shfl c d a b
  | 4 => do gate (noM w) true; mk3 w fun d a b => .shflx c d a b
  | 5 => do gate (noM w) true; mk3 w fun d a b => .bcast c d a b
  | 6 => do gate (fMod w < 4) (noB w); mk2 w fun d a => .vote c d a (voteOf (fMod w))
  | 7 => do gate true (noB w); mk2 w fun d a => .gred c d a (redOpOf (fMod w))
  | 8 => do gate true (noB w); mk2 w fun d a => .gscan c d a (redOpOf (fMod w))
  | 9 => do gate true (noB w); mk2 w fun d a => .qred c d a (redOpOf (fMod w))
  | 10 => do gate (noM w) (noB w); mk2 w fun d a => .xmatch c d a
  | _ => .error 0x03
def decBlock (w : Nat) : Except Nat Instr :=
  let c := fCh w
  let f := efmtOf (fMod w)
  let ok : Bool := fMod w < 6
  match fIdx w with
  | 0 => do gate ok (noB w); mk2 w fun d a => .bmax c d a f
  | 1 => do
    gate ok true
    let a ← getSrc (fA w)
    let d ← getDst (fD w)
    let i := Instr.bscale c d a (BitVec.ofNat 2 (fB w)) f
    req (fB w < 4 || !((i.form.map fun f => f.dstOk && f.aligned).getD false)) 0x13
    finish i
  | 2 => do gate ok true; mk3 w fun d a b => .bqnt c d a b f
  | 3 => do gate ok (noB w); mk2 w fun d a => .bdqnt c d a f
  | 4 => do gate ok true; mk3 w fun d a b => .bsetsc c d a b f
  | 5 => do gate ok (noB w); mk2 w fun d a => .bgetsc c d a f
  | 6 => do gate ok true; mk3 w fun d a b => .bshift c d a b f
  | 7 => do gate ok true; mk3 w fun d a b => .brescale c d a b f
  | 8 => do gate ok true; mk3 w fun d a b => .bdot c d a b f
  | _ => .error 0x03
def decLd (w : Nat) : Except Nat Instr :=
  let c := fCh w
  let o := BitVec.ofNat 10 (bits w 9 0)
  let f := efmtOf (bits w 9 7)
  let ok : Bool := bits w 9 7 < 6
  let ob := BitVec.ofNat 7 (bits w 6 0)
  match bits w 13 10 with
  | 0 => mk2 w fun d a => .ldB8u c d a o
  | 1 => mk2 w fun d a => .ldB8s c d a o
  | 2 => mk2 w fun d a => .ldB16u c d a o
  | 3 => mk2 w fun d a => .ldB16s c d a o
  | 4 => mk2 w fun d a => .ldB32 c d a o
  | 5 => mk2 w fun d a => .ldB64 c d a o
  | 6 => mk2 w fun d a => .ldB128 c d a o
  | 7 => mk2 w fun d a => .ldacqB32 c d a o
  | 8 => mk2 w fun d a => .ldacqB64 c d a o
  | 9 => mk2 w fun d a => .ldsB32 c d a o
  | 10 => mk2 w fun d a => .ldsB64 c d a o
  | 11 => mk2 w fun d a => .ldsB128 c d a o
  | 12 => do req ok 0x04; mk2 w fun d a => .ldb c d a f ob
  | 13 => do req ok 0x04; mk2 w fun d a => .ldbs c d a f ob
  | 14 => mk2 w fun d a => .ldncB32 c d a o
  | _ => .error 0x03
/-- A store: V is a source in the D field (R45). -/
def mkSt (w : Nat) (k : Src → Src → Instr) : Except Nat Instr := do
  let a ← getSrc (fA w)
  let v ← getSrc (fD w)
  finish (k v a)
def decSt (w : Nat) : Except Nat Instr :=
  let c := fCh w
  let o := BitVec.ofNat 10 (bits w 9 0)
  let f := efmtOf (bits w 9 7)
  let ok : Bool := bits w 9 7 < 6
  let ob := BitVec.ofNat 7 (bits w 6 0)
  match bits w 13 10 with
  | 0 => mkSt w fun v a => .stB8 c v a o
  | 1 => mkSt w fun v a => .stB16 c v a o
  | 2 => mkSt w fun v a => .stB32 c v a o
  | 3 => mkSt w fun v a => .stB64 c v a o
  | 4 => mkSt w fun v a => .stB128 c v a o
  | 5 => mkSt w fun v a => .strelB32 c v a o
  | 6 => mkSt w fun v a => .strelB64 c v a o
  | 7 => mkSt w fun v a => .stsB8 c v a o
  | 8 => mkSt w fun v a => .stsB32 c v a o
  | 9 => mkSt w fun v a => .stsB64 c v a o
  | 10 => mkSt w fun v a => .stsB128 c v a o
  | 11 => do req ok 0x04; mkSt w fun v a => .stb c v a f ob
  | 12 => do req ok 0x04; mkSt w fun v a => .stbs c v a f ob
  | _ => .error 0x03
def decAtom (w : Nat) : Except Nat Instr :=
  let c := fCh w
  let o := bits w 3 0
  let ai : Bool := o < 9
  let af : Bool := o < 8
  match bits w 7 4 with
  | 0 => do gate ai true; mk3 w fun d a b => .atomB32 c d a b (aopOf o)
  | 1 => do gate ai true; mk3 w fun d a b => .atomB64 c d a b (aopOf o)
  | 2 => do gate ai (noD w); mkAB w fun a b => .redB32 c a b (aopOf o)
  | 3 => do gate ai (noD w); mkAB w fun a b => .redB64 c a b (aopOf o)
  | 4 => do gate af true; mk3 w fun d a b => .atomf c d a b (afopOf o)
  | 5 => do gate af (noD w); mkAB w fun a b => .redf c a b (afopOf o)
  | 6 => do gate (o == 0) true; mk3 w fun d a b => .casB32 c d a b
  | 7 => do gate (o == 0) true; mk3 w fun d a b => .casB64 c d a b
  | 8 => do gate (o == 0) true; mk3 w fun d a b => .cas2 c d a b
  | 9 => do gate (o == 0) (noB w); mk2 w fun d a => .amaxrst c d a
  | 10 => do gate ai true; mk3 w fun d a b => .atoms c d a b (aopOf o)
  | 11 => do gate ai (noD w); mkAB w fun a b => .reds c a b (aopOf o)
  | 12 => do gate (o == 0) true; mk3 w fun d a b => .cass c d a b
  | 13 => do gate af true; mk3 w fun d a b => .atomfs c d a b (afopOf o)
  | _ => .error 0x03
def decSync (w : Nat) : Except Nat Instr :=
  let c := fCh w
  let s := bitAt w 0
  let ok : Bool := fMod w < 2
  let sc : Bool := fMod w < 6
  match fIdx w with
  | 0 => do gate ok (noD w && noA w && noB w); finish (.bar c s)
  | 1 => do gate ok (noD w); mkAB w fun a b => .minit c a b s
  | 2 => do gate ok true; mk3 w fun d a b => .marrive c d a b s
  | 3 => do gate ok (noD w); mkAB w fun a b => .mexpect c a b s
  | 4 => do gate ok (noD w); mkAB w fun a b => .mwait c a b s
  | 5 => do gate ok true; mkAB w fun a b => .mtest c (pdstOf (fD w)) a b s
  | 6 => do gate sc (noD w && noA w && noB w); finish (.fence c (scopeOf (fMod w)))
  | 7 => do
    gate sc (noD w)
    finish (.xfence c (BitVec.ofNat 6 (fA w)) (BitVec.ofNat 6 (fB w)) (scopeOf (fMod w)))
  | _ => .error 0x03
def decCache (w : Nat) : Except Nat Instr :=
  let c := fCh w
  match fIdx w with
  | 0 => do gate (noM w) (noD w); mkAB w fun a b => .cinv c a b
  | 1 => do gate (noM w) (noD w); mkAB w fun a b => .cwb c a b
  | 2 => do gate (fMod w < 2) (noD w && noB w); mkA w fun a => .pfetch c a (bitAt w 0)
  | 3 => do gate (noM w) (noD w); mkAB w fun a b => .smap c a b
  | 4 => do gate (noM w) (noD w && noA w); mkB w fun b => .sunmap c b
  | 5 => do gate (noM w) (noD w && noA w); mkB w fun b => .sflush c b
  | 6 => do gate (noM w) (noB w); mk2 w fun d a => .pinfo c d a
  | 7 => do gate (noM w) (noD w); mkAB w fun a b => .tlbi c a b
  | _ => .error 0x03
def decTend (w : Nat) : Except Nat Instr :=
  let c := fCh w
  match fIdx w with
  | 0 => do gate (fMod w < 3) (noD w); mkAB w fun a b => .cpy c a b (BitVec.ofNat 2 (fMod w))
  | 1 => do gate (noM w) (noD w); mkAB w fun a b => .seal c a b
  | 2 => do gate (noM w) (noD w); mkAB w fun a b => .tile c a b
  | 3 => do gate (noM w) (noD w); mkAB w fun a b => .relay c a b
  | 4 => do gate (noM w) (noD w && noB w); mkA w fun a => .gath c a
  | _ => .error 0x03
def decMtx (w : Nat) : Except Nat Instr :=
  let c := fCh w
  let nd := noD w && noB w
  match fIdx w with
  | 0 => do gate (noM w) (noA w && noB w); finish (.mrsv c (pdstOf (fD w)))
  | 1 => do gate (noM w) (noD w && noA w && noB w); finish (.mrel c)
  | 2 => do gate (noM w) nd; mkA w fun a => .mcvn c a
  | 3 => do gate (noM w) nd; mkA w fun a => .mma c a
  | 4 => do gate (noM w) nd; mkA w fun a => .mmd c a
  | 5 => do gate (noM w) nd; mkA w fun a => .mzero c a
  | 6 => do gate (fMod w < 5) (noD w); mkAB w fun a b => .mdrain c a b (drainOf (fMod w))
  | 7 => do gate (noM w) (noD w); mkAB w fun a b => .mload c a b
  | 8 => do gate (noM w) (noD w); mkAB w fun a b => .mcfg c a b
  | 9 => do gate (noM w) nd; mkA w fun a => .mcmplx c a
  | _ => .error 0x03
def decGlog (w : Nat) : Except Nat Instr :=
  let c := fCh w
  match fIdx w with
  | 0 => do gate (noM w) (noD w); mkAB w fun a b => .glapp c a b
  | 1 => do gate (noM w) (noD w); mkAB w fun a b => .glfold c a b
  | _ => .error 0x03
def decWork (w : Nat) : Except Nat Instr :=
  let c := fCh w
  match fIdx w with
  | 0 => do gate (noM w) (noD w); mkAB w fun a b => .emit c a b
  | 1 => do gate (noM w) (noD w); mkAB w fun a b => .spawn c a b
  | 2 => do gate (noM w) (noD w && noB w); mkA w fun a => .jdec c a
  | _ => .error 0x03
def decWin (w : Nat) : Except Nat Instr :=
  let c := fCh w
  match fIdx w with
  | 0 => do gate (noM w) (noD w && noB w); mkA w fun a => .wtag c a
  | 1 => do gate (noM w) true; mk3 w fun d a b => .wclose c d a b
  | 2 => do gate (noM w) (noD w && noA w && noB w); finish (.wfence c)
  | _ => .error 0x03
def decBcn (w : Nat) : Except Nat Instr :=
  let c := fCh w
  match fIdx w with
  | 0 => do gate (noM w) (noD w); mkAB w fun a b => .bcas c a b
  | 1 => do gate (noM w) (noD w); mkAB w fun a b => .benq c a b
  | 2 => do gate (noM w) (noD w); mkAB w fun a b => .bchase c a b
  | 3 => do gate (noM w) (noD w); mkAB w fun a b => .bred c a b
  | _ => .error 0x03
def decColl (w : Nat) : Except Nat Instr :=
  let c := fCh w
  match fIdx w with
  | 0 => do gate (noM w) (noD w); mkAB w fun a b => .xev c a b
  | 1 => do gate (noM w) true; mkAB w fun a b => .xtest c (pdstOf (fD w)) a b
  | _ => .error 0x03
def decMdl (w : Nat) : Except Nat Instr :=
  let c := fCh w
  match fIdx w with
  | 0 => do gate (noM w) (noB w); mkA w fun a => .tmchk c (pdstOf (fD w)) a
  | 1 => do gate (noM w) (noD w && noB w); mkA w fun a => .tmwait c a
  | 2 => do gate (noM w) (noD w && noB w); mkA w fun a => .tmpin c a
  | 3 => do gate (noM w) (noD w && noB w); mkA w fun a => .tmunpin c a
  | _ => .error 0x03
def decQdot (w : Nat) : Except Nat Instr :=
  let c := fCh w
  match bits w 1 0 with
  | 0 => mk4 w fun d a b e => .pmac2 c d a b e
  | 1 => mk4 w fun d a b e => .pmac4 c d a b e
  | 2 => mk4 w fun d a b e => .fdot2F16 c d a b e
  | _ => mk4 w fun d a b e => .fdot2Bf16 c d a b e
def decQmisc (w : Nat) : Except Nat Instr :=
  let c := fCh w
  match bits w 1 0 with
  | 0 => mk4 w fun d a b e => .cfma c d a b e
  | 1 => mk4 w fun d a b e => .cfmaj c d a b e
  | 2 => mk4 w fun d a b e => .bfi c d a b e
  | _ => mk4 w fun d a b e => .mad c d a b e
def decWait (w : Nat) : Except Nat Instr := do
  req (bits w 11 0 == 0) 0x05
  finish (.wait (fCh w) (BitVec.ofNat 4 (bits w 25 22)) (BitVec.ofNat 4 (bits w 21 18)) (BitVec.ofNat 3 (bits w 17 15))
    (BitVec.ofNat 3 (bits w 14 12)))

/-- The instruction of a word, or the subcode of the first check it fails (R40, R49). -/
def decodeWord (w : Nat) : Except Nat Instr :=
  if w = 0xFFFFFFFF then .error 0x01 else
  match fMaj w with
  | 0 => decSys w
  | 1 => decIalu w
  | 2 => decIimm w
  | 3 => decIcmp w
  | 4 => decBranch w
  | 5 => decCtrl w
  | 6 => decFalu w
  | 7 => decFfma false w
  | 8 => decFspec w
  | 9 => decCvt w
  | 10 => decPack w
  | 11 => decXlane w
  | 12 => decBlock w
  | 13 => decLd w
  | 14 => decSt w
  | 15 => decAtom w
  | 16 => decSync w
  | 17 => decCache w
  | 18 => decTend w
  | 19 => decMtx w
  | 20 => decGlog w
  | 21 => decWork w
  | 22 => decWin w
  | 23 => decBcn w
  | 24 => decColl w
  | 25 => decMdl w
  | 26 => decFfma true w
  | 27 => decQdot w
  | 28 => decQmisc w
  | 29 => decWait w
  | _ => .error 0x02

/-- The literals a word takes, read from its raw source fields: needed by step 6 when a later step fails. -/
def rawLits (w : Nat) : Nat :=
  let l (c : Nat) : Nat := if c = 58 then 1 else 0
  match fMaj w with
  | 0 => (match fIdx w with | 5 | 6 => l (fA w) | 10 => l (fA w) + l (fB w) | _ => 0)
  | 2 => if bits w 13 11 = 7 then 0 else l (fA w)
  | 3 => if fIdx w = 7 then 0 else l (fA w) + l (fB w)
  | 4 | 29 | 30 | 31 => 0
  | 5 => (match fIdx w with | 0 => l (fA w) | 3 => l (fB w) | _ => 0)
  | 6 => if fIdx w = 10 then l (fA w) else l (fA w) + l (fB w)
  | 7 | 26 | 27 | 28 => l (fA w) + l (fB w) + l (fC w)
  | 9 | 13 => l (fA w)
  | 12 => if fIdx w = 1 then l (fA w) else l (fA w) + l (fB w)
  | 14 => l (fA w) + l (fD w)
  | 16 => if fIdx w = 7 then 0 else l (fA w) + l (fB w)
  | _ => l (fA w) + l (fB w)

/-- The cause of a subcode (R49). -/
def causeOf (sub : Nat) : Cause :=
  if sub < 0x10 then .illegalOp else if sub < 0x20 then .illegalOperand else if sub = 0x20 then .privilege else .illegalChain

/-- The instruction the decoder reads from bits numbered as the opcode table numbers them. -/
def decodeTableWord (nbits w : Nat) : Option Instr :=
  match decodeWord (w % 2 ^ min nbits 32) with
  | .ok i => some i
  | .error _ => none

/-! ### The encoder (R33 to R47) -/

/-- The word of an instruction, CH in bit 31; 0 for the events, which have no word. -/
def encode : Instr → Nat
  | .nop ch => 0x00000000 + bit01 ch <<< 31
  | .exit ch => 0x00000008 + bit01 ch <<< 31
  | .trap ch code => 0x00000010 + bit01 ch <<< 31 + code.toNat <<< 8
  | .brk ch => 0x00000018 + bit01 ch <<< 31
  | .rdsr ch d sr => 0x00000020 + bit01 ch <<< 31 + d.code <<< 20 + sr.toNat <<< 14
  | .wrsr ch sr a => 0x00000028 + bit01 ch <<< 31 + sr.toNat <<< 20 + a.code <<< 14
  | .sleep ch a => 0x00000030 + bit01 ch <<< 31 + a.code <<< 14
  | .yield ch => 0x00000038 + bit01 ch <<< 31
  | .prio ch k => 0x00000040 + bit01 ch <<< 31 + k.toNat <<< 14
  | .rfe ch => 0x00000048 + bit01 ch <<< 31
  | .kreq ch d a b => 0x00000050 + bit01 ch <<< 31 + d.code <<< 20 + a.code <<< 14 + b.code <<< 8
  | .iadd ch d a b w u s => 0x04000000 + bit01 ch <<< 31 + d.code <<< 20 + a.code <<< 14 + b.code <<< 8 + bit01 w <<< 2 + bit01 u <<< 1 + bit01 s
  | .isub ch d a b w u s => 0x04000008 + bit01 ch <<< 31 + d.code <<< 20 + a.code <<< 14 + b.code <<< 8 + bit01 w <<< 2 + bit01 u <<< 1 + bit01 s
  | .imul ch d a b w => 0x04000010 + bit01 ch <<< 31 + d.code <<< 20 + a.code <<< 14 + b.code <<< 8 + bit01 w <<< 2
  | .imulh ch d a b w u => 0x04000018 + bit01 ch <<< 31 + d.code <<< 20 + a.code <<< 14 + b.code <<< 8 + bit01 w <<< 2 + bit01 u <<< 1
  | .idiv ch d a b w u => 0x04000020 + bit01 ch <<< 31 + d.code <<< 20 + a.code <<< 14 + b.code <<< 8 + bit01 w <<< 2 + bit01 u <<< 1
  | .irem ch d a b w u => 0x04000028 + bit01 ch <<< 31 + d.code <<< 20 + a.code <<< 14 + b.code <<< 8 + bit01 w <<< 2 + bit01 u <<< 1
  | .imin ch d a b w u => 0x04000030 + bit01 ch <<< 31 + d.code <<< 20 + a.code <<< 14 + b.code <<< 8 + bit01 w <<< 2 + bit01 u <<< 1
  | .imax ch d a b w u => 0x04000038 + bit01 ch <<< 31 + d.code <<< 20 + a.code <<< 14 + b.code <<< 8 + bit01 w <<< 2 + bit01 u <<< 1
  | .iabs ch d a w => 0x04000040 + bit01 ch <<< 31 + d.code <<< 20 + a.code <<< 14 + bit01 w <<< 2
  | .ineg ch d a w => 0x04000048 + bit01 ch <<< 31 + d.code <<< 20 + a.code <<< 14 + bit01 w <<< 2
  | .and ch d a b w => 0x04000050 + bit01 ch <<< 31 + d.code <<< 20 + a.code <<< 14 + b.code <<< 8 + bit01 w <<< 2
  | .or ch d a b w => 0x04000058 + bit01 ch <<< 31 + d.code <<< 20 + a.code <<< 14 + b.code <<< 8 + bit01 w <<< 2
  | .xor ch d a b w => 0x04000060 + bit01 ch <<< 31 + d.code <<< 20 + a.code <<< 14 + b.code <<< 8 + bit01 w <<< 2
  | .andn ch d a b w => 0x04000068 + bit01 ch <<< 31 + d.code <<< 20 + a.code <<< 14 + b.code <<< 8 + bit01 w <<< 2
  | .not ch d a w => 0x04000070 + bit01 ch <<< 31 + d.code <<< 20 + a.code <<< 14 + bit01 w <<< 2
  | .shl ch d a b w => 0x04000078 + bit01 ch <<< 31 + d.code <<< 20 + a.code <<< 14 + b.code <<< 8 + bit01 w <<< 2
  | .shr ch d a b w => 0x04000080 + bit01 ch <<< 31 + d.code <<< 20 + a.code <<< 14 + b.code <<< 8 + bit01 w <<< 2
  | .sar ch d a b w => 0x04000088 + bit01 ch <<< 31 + d.code <<< 20 + a.code <<< 14 + b.code <<< 8 + bit01 w <<< 2
  | .rol ch d a b w => 0x04000090 + bit01 ch <<< 31 + d.code <<< 20 + a.code <<< 14 + b.code <<< 8 + bit01 w <<< 2
  | .ror ch d a b w => 0x04000098 + bit01 ch <<< 31 + d.code <<< 20 + a.code <<< 14 + b.code <<< 8 + bit01 w <<< 2
  | .clz ch d a w => 0x040000A0 + bit01 ch <<< 31 + d.code <<< 20 + a.code <<< 14 + bit01 w <<< 2
  | .ctz ch d a w => 0x040000A8 + bit01 ch <<< 31 + d.code <<< 20 + a.code <<< 14 + bit01 w <<< 2
  | .popc ch d a w => 0x040000B0 + bit01 ch <<< 31 + d.code <<< 20 + a.code <<< 14 + bit01 w <<< 2
  | .brev ch d a w => 0x040000B8 + bit01 ch <<< 31 + d.code <<< 20 + a.code <<< 14 + bit01 w <<< 2
  | .bswap ch d a w => 0x040000C0 + bit01 ch <<< 31 + d.code <<< 20 + a.code <<< 14 + bit01 w <<< 2
  | .bfe ch d a b w u => 0x040000C8 + bit01 ch <<< 31 + d.code <<< 20 + a.code <<< 14 + b.code <<< 8 + bit01 w <<< 2 + bit01 u <<< 1
  | .lea ch d a b w => 0x040000D0 + bit01 ch <<< 31 + d.code <<< 20 + a.code <<< 14 + b.code <<< 8 + bit01 w <<< 2
  | .mov ch d a w => 0x040000D8 + bit01 ch <<< 31 + d.code <<< 20 + a.code <<< 14 + bit01 w <<< 2
  | .shrr ch d a b w u => 0x040000E0 + bit01 ch <<< 31 + d.code <<< 20 + a.code <<< 14 + b.code <<< 8 + bit01 w <<< 2 + bit01 u <<< 1
  | .sel ch d a b w => 0x040000E8 + bit01 ch <<< 31 + d.code <<< 20 + a.code <<< 14 + b.code <<< 8 + bit01 w <<< 2
  | .iaddi ch d a imm => 0x08000000 + bit01 ch <<< 31 + d.code <<< 20 + a.code <<< 14 + imm.toNat
  | .andi ch d a imm => 0x08000800 + bit01 ch <<< 31 + d.code <<< 20 + a.code <<< 14 + imm.toNat
  | .ori ch d a imm => 0x08001000 + bit01 ch <<< 31 + d.code <<< 20 + a.code <<< 14 + imm.toNat
  | .xori ch d a imm => 0x08001800 + bit01 ch <<< 31 + d.code <<< 20 + a.code <<< 14 + imm.toNat
  | .shli ch d a h w k => 0x08002000 + bit01 ch <<< 31 + d.code <<< 20 + a.code <<< 14 + bit01 h <<< 10 + bit01 w <<< 5 + k.toNat
  | .shri ch d a h w k => 0x08002800 + bit01 ch <<< 31 + d.code <<< 20 + a.code <<< 14 + bit01 h <<< 10 + bit01 w <<< 5 + k.toNat
  | .sari ch d a h w k => 0x08003000 + bit01 ch <<< 31 + d.code <<< 20 + a.code <<< 14 + bit01 h <<< 10 + bit01 w <<< 5 + k.toNat
  | .movi ch d imm => 0x08003800 + bit01 ch <<< 31 + d.code <<< 20 + (imm.toNat >>> 11) <<< 14 + imm.toNat % 2048
  | .icmpS ch p a b cond => 0x0C000000 + bit01 ch <<< 31 + p.code <<< 20 + a.code <<< 14 + b.code <<< 8 + cond.code
  | .icmpU ch p a b cond => 0x0C000008 + bit01 ch <<< 31 + p.code <<< 20 + a.code <<< 14 + b.code <<< 8 + cond.code
  | .icmpSW ch p a b cond => 0x0C000010 + bit01 ch <<< 31 + p.code <<< 20 + a.code <<< 14 + b.code <<< 8 + cond.code
  | .icmpUW ch p a b cond => 0x0C000018 + bit01 ch <<< 31 + p.code <<< 20 + a.code <<< 14 + b.code <<< 8 + cond.code
  | .fcmpF32 ch p a b cond => 0x0C000020 + bit01 ch <<< 31 + p.code <<< 20 + a.code <<< 14 + b.code <<< 8 + cond.code
  | .fcmpF16 ch p a b cond => 0x0C000028 + bit01 ch <<< 31 + p.code <<< 20 + a.code <<< 14 + b.code <<< 8 + cond.code
  | .fclass ch p a b t => 0x0C000030 + bit01 ch <<< 31 + p.code <<< 20 + a.code <<< 14 + b.code <<< 8 + t.code
  | .plog ch p x y op => 0x0C000038 + bit01 ch <<< 31 + p.code <<< 20 + x.code <<< 14 + y.code <<< 8 + op.code
  | .setp ch p a => 0x0C000040 + bit01 ch <<< 31 + p.code <<< 20 + a.code <<< 14
  | .bra ch neg p off => 0x10000000 + bit01 ch <<< 31 + bit01 neg <<< 25 + p.toNat <<< 22 + off.toNat
  | .braEnrol ch neg p j off => 0x10020000 + bit01 ch <<< 31 + bit01 neg <<< 25 + p.toNat <<< 22 + j.toNat <<< 19 + off.toNat
  | .strike ch neg p j off => 0x10040000 + bit01 ch <<< 31 + bit01 neg <<< 25 + p.toNat <<< 22 + j.toNat <<< 19 + off.toNat
  | .call ch neg p off => 0x10060000 + bit01 ch <<< 31 + bit01 neg <<< 25 + p.toNat <<< 22 + off.toNat
  | .brx ch a => 0x14000000 + bit01 ch <<< 31 + a.code <<< 14
  | .join ch j => 0x14000008 + bit01 ch <<< 31 + j.toNat <<< 14
  | .guard x => 0x94000010 + x.code <<< 14
  | .rjset ch j b => 0x14000018 + bit01 ch <<< 31 + j.toNat <<< 14 + b.code <<< 8
  | .rjget ch d j => 0x14000020 + bit01 ch <<< 31 + d.code <<< 20 + j.toNat <<< 14
  | .fadd ch d a b t => 0x18000000 + bit01 ch <<< 31 + d.code <<< 20 + a.code <<< 14 + b.code <<< 8 + t.code
  | .fsub ch d a b t => 0x18000008 + bit01 ch <<< 31 + d.code <<< 20 + a.code <<< 14 + b.code <<< 8 + t.code
  | .fmul ch d a b t => 0x18000010 + bit01 ch <<< 31 + d.code <<< 20 + a.code <<< 14 + b.code <<< 8 + t.code
  | .fmin ch d a b t => 0x18000018 + bit01 ch <<< 31 + d.code <<< 20 + a.code <<< 14 + b.code <<< 8 + t.code
  | .fmax ch d a b t => 0x18000020 + bit01 ch <<< 31 + d.code <<< 20 + a.code <<< 14 + b.code <<< 8 + t.code
  | .fminm ch d a b t => 0x18000028 + bit01 ch <<< 31 + d.code <<< 20 + a.code <<< 14 + b.code <<< 8 + t.code
  | .fmaxm ch d a b t => 0x18000030 + bit01 ch <<< 31 + d.code <<< 20 + a.code <<< 14 + b.code <<< 8 + t.code
  | .fabs ch d a t => 0x18000038 + bit01 ch <<< 31 + d.code <<< 20 + a.code <<< 14 + t.code
  | .fneg ch d a t => 0x18000040 + bit01 ch <<< 31 + d.code <<< 20 + a.code <<< 14 + t.code
  | .fcopysign ch d a b t => 0x18000048 + bit01 ch <<< 31 + d.code <<< 20 + a.code <<< 14 + b.code <<< 8 + t.code
  | .fround ch d a r t => 0x18000050 + bit01 ch <<< 31 + d.code <<< 20 + a.code <<< 14 + r.toNat <<< 8 + t.code
  | .twosum ch d a b => 0x18000058 + bit01 ch <<< 31 + d.code <<< 20 + a.code <<< 14 + b.code <<< 8
  | .ffmaF32 ch d a b g => 0x1C000000 + bit01 ch <<< 31 + d.code <<< 20 + a.code <<< 14 + b.code <<< 8 + g.code <<< 2
  | .ffmaF16x2 ch d a b g => 0x1C000001 + bit01 ch <<< 31 + d.code <<< 20 + a.code <<< 14 + b.code <<< 8 + g.code <<< 2
  | .ffmaBf16x2 ch d a b g => 0x1C000002 + bit01 ch <<< 31 + d.code <<< 20 + a.code <<< 14 + b.code <<< 8 + g.code <<< 2
  | .ffnmaF32 ch d a b g => 0x68000000 + bit01 ch <<< 31 + d.code <<< 20 + a.code <<< 14 + b.code <<< 8 + g.code <<< 2
  | .ffnmaF16x2 ch d a b g => 0x68000001 + bit01 ch <<< 31 + d.code <<< 20 + a.code <<< 14 + b.code <<< 8 + g.code <<< 2
  | .ffnmaBf16x2 ch d a b g => 0x68000002 + bit01 ch <<< 31 + d.code <<< 20 + a.code <<< 14 + b.code <<< 8 + g.code <<< 2
  | .frcp ch d a half => 0x20000000 + bit01 ch <<< 31 + d.code <<< 20 + a.code <<< 14 + bit01 half
  | .frsq ch d a half => 0x20000008 + bit01 ch <<< 31 + d.code <<< 20 + a.code <<< 14 + bit01 half
  | .fsqrt ch d a half => 0x20000010 + bit01 ch <<< 31 + d.code <<< 20 + a.code <<< 14 + bit01 half
  | .fexp2 ch d a half => 0x20000018 + bit01 ch <<< 31 + d.code <<< 20 + a.code <<< 14 + bit01 half
  | .flog2 ch d a half => 0x20000020 + bit01 ch <<< 31 + d.code <<< 20 + a.code <<< 14 + bit01 half
  | .fsin ch d a half => 0x20000028 + bit01 ch <<< 31 + d.code <<< 20 + a.code <<< 14 + bit01 half
  | .fcos ch d a half => 0x20000030 + bit01 ch <<< 31 + d.code <<< 20 + a.code <<< 14 + bit01 half
  | .ftanh ch d a half => 0x20000038 + bit01 ch <<< 31 + d.code <<< 20 + a.code <<< 14 + bit01 half
  | .fsigm ch d a half => 0x20000040 + bit01 ch <<< 31 + d.code <<< 20 + a.code <<< 14 + bit01 half
  | .fdiv ch d a b half => 0x20000048 + bit01 ch <<< 31 + d.code <<< 20 + a.code <<< 14 + b.code <<< 8 + bit01 half
  | .cvtF ch d a pair r => 0x24000000 + bit01 ch <<< 31 + d.code <<< 20 + a.code <<< 14 + pair.toNat <<< 8 + r.toNat
  | .cvtIf ch d a pair r => 0x24000008 + bit01 ch <<< 31 + d.code <<< 20 + a.code <<< 14 + pair.toNat <<< 8 + r.toNat
  | .cvtFi ch d a pair r => 0x24000010 + bit01 ch <<< 31 + d.code <<< 20 + a.code <<< 14 + pair.toNat <<< 8 + r.toNat
  | .qnt ch d a pair r => 0x24000018 + bit01 ch <<< 31 + d.code <<< 20 + a.code <<< 14 + pair.toNat <<< 8 + r.toNat
  | .dqnt ch d a pair r => 0x24000020 + bit01 ch <<< 31 + d.code <<< 20 + a.code <<< 14 + pair.toNat <<< 8 + r.toNat
  | .fldexp ch d a pair r => 0x24000028 + bit01 ch <<< 31 + d.code <<< 20 + a.code <<< 14 + pair.toNat <<< 8 + r.toNat
  | .fexpo ch d a pair r => 0x24000030 + bit01 ch <<< 31 + d.code <<< 20 + a.code <<< 14 + pair.toNat <<< 8 + r.toNat
  | .srnd ch d a pair r => 0x24000038 + bit01 ch <<< 31 + d.code <<< 20 + a.code <<< 14 + pair.toNat <<< 8 + r.toNat
  | .padd2 ch d a b e8 u s => 0x28000000 + bit01 ch <<< 31 + d.code <<< 20 + a.code <<< 14 + b.code <<< 8 + bit01 e8 <<< 2 + bit01 u <<< 1 + bit01 s
  | .psub2 ch d a b e8 u s => 0x28000008 + bit01 ch <<< 31 + d.code <<< 20 + a.code <<< 14 + b.code <<< 8 + bit01 e8 <<< 2 + bit01 u <<< 1 + bit01 s
  | .pmul2 ch d a b e8 u s => 0x28000010 + bit01 ch <<< 31 + d.code <<< 20 + a.code <<< 14 + b.code <<< 8 + bit01 e8 <<< 2 + bit01 u <<< 1 + bit01 s
  | .pmin2 ch d a b e8 u => 0x28000018 + bit01 ch <<< 31 + d.code <<< 20 + a.code <<< 14 + b.code <<< 8 + bit01 e8 <<< 2 + bit01 u <<< 1
  | .pmax2 ch d a b e8 u => 0x28000020 + bit01 ch <<< 31 + d.code <<< 20 + a.code <<< 14 + b.code <<< 8 + bit01 e8 <<< 2 + bit01 u <<< 1
  | .pshr2 ch d a b e8 u => 0x28000028 + bit01 ch <<< 31 + d.code <<< 20 + a.code <<< 14 + b.code <<< 8 + bit01 e8 <<< 2 + bit01 u <<< 1
  | .ppack ch d a b e8 u s => 0x28000030 + bit01 ch <<< 31 + d.code <<< 20 + a.code <<< 14 + b.code <<< 8 + bit01 e8 <<< 2 + bit01 u <<< 1 + bit01 s
  | .punpkLo ch d a e8 u => 0x28000038 + bit01 ch <<< 31 + d.code <<< 20 + a.code <<< 14 + bit01 e8 <<< 2 + bit01 u <<< 1
  | .punpkHi ch d a e8 u => 0x28000040 + bit01 ch <<< 31 + d.code <<< 20 + a.code <<< 14 + bit01 e8 <<< 2 + bit01 u <<< 1
  | .pabs2 ch d a e8 s => 0x28000048 + bit01 ch <<< 31 + d.code <<< 20 + a.code <<< 14 + bit01 e8 <<< 2 + bit01 s
  | .pmac2 ch d a b g => 0x6C000000 + bit01 ch <<< 31 + d.code <<< 20 + a.code <<< 14 + b.code <<< 8 + g.code <<< 2
  | .pmac4 ch d a b g => 0x6C000001 + bit01 ch <<< 31 + d.code <<< 20 + a.code <<< 14 + b.code <<< 8 + g.code <<< 2
  | .fdot2F16 ch d a b g => 0x6C000002 + bit01 ch <<< 31 + d.code <<< 20 + a.code <<< 14 + b.code <<< 8 + g.code <<< 2
  | .fdot2Bf16 ch d a b g => 0x6C000003 + bit01 ch <<< 31 + d.code <<< 20 + a.code <<< 14 + b.code <<< 8 + g.code <<< 2
  | .cfma ch d a b g => 0x70000000 + bit01 ch <<< 31 + d.code <<< 20 + a.code <<< 14 + b.code <<< 8 + g.code <<< 2
  | .cfmaj ch d a b g => 0x70000001 + bit01 ch <<< 31 + d.code <<< 20 + a.code <<< 14 + b.code <<< 8 + g.code <<< 2
  | .bfi ch d a b g => 0x70000002 + bit01 ch <<< 31 + d.code <<< 20 + a.code <<< 14 + b.code <<< 8 + g.code <<< 2
  | .mad ch d a b g => 0x70000003 + bit01 ch <<< 31 + d.code <<< 20 + a.code <<< 14 + b.code <<< 8 + g.code <<< 2
  | .slideUp ch d a b fill => 0x2C000000 + bit01 ch <<< 31 + d.code <<< 20 + a.code <<< 14 + b.code <<< 8 + fill.code
  | .slideDn ch d a b fill => 0x2C000008 + bit01 ch <<< 31 + d.code <<< 20 + a.code <<< 14 + b.code <<< 8 + fill.code
  | .slideH ch d a b fill => 0x2C000010 + bit01 ch <<< 31 + d.code <<< 20 + a.code <<< 14 + b.code <<< 8 + fill.code
  | .shfl ch d a b => 0x2C000018 + bit01 ch <<< 31 + d.code <<< 20 + a.code <<< 14 + b.code <<< 8
  | .shflx ch d a b => 0x2C000020 + bit01 ch <<< 31 + d.code <<< 20 + a.code <<< 14 + b.code <<< 8
  | .bcast ch d a b => 0x2C000028 + bit01 ch <<< 31 + d.code <<< 20 + a.code <<< 14 + b.code <<< 8
  | .vote ch d a op => 0x2C000030 + bit01 ch <<< 31 + d.code <<< 20 + a.code <<< 14 + op.code
  | .gred ch d a op => 0x2C000038 + bit01 ch <<< 31 + d.code <<< 20 + a.code <<< 14 + op.code
  | .gscan ch d a op => 0x2C000040 + bit01 ch <<< 31 + d.code <<< 20 + a.code <<< 14 + op.code
  | .qred ch d a op => 0x2C000048 + bit01 ch <<< 31 + d.code <<< 20 + a.code <<< 14 + op.code
  | .xmatch ch d a => 0x2C000050 + bit01 ch <<< 31 + d.code <<< 20 + a.code <<< 14
  | .bmax ch d a f => 0x30000000 + bit01 ch <<< 31 + d.code <<< 20 + a.code <<< 14 + f.code
  | .bscale ch d a pol f => 0x30000008 + bit01 ch <<< 31 + d.code <<< 20 + a.code <<< 14 + pol.toNat <<< 8 + f.code
  | .bqnt ch d a b f => 0x30000010 + bit01 ch <<< 31 + d.code <<< 20 + a.code <<< 14 + b.code <<< 8 + f.code
  | .bdqnt ch d a f => 0x30000018 + bit01 ch <<< 31 + d.code <<< 20 + a.code <<< 14 + f.code
  | .bsetsc ch d a b f => 0x30000020 + bit01 ch <<< 31 + d.code <<< 20 + a.code <<< 14 + b.code <<< 8 + f.code
  | .bgetsc ch d a f => 0x30000028 + bit01 ch <<< 31 + d.code <<< 20 + a.code <<< 14 + f.code
  | .bshift ch d a b f => 0x30000030 + bit01 ch <<< 31 + d.code <<< 20 + a.code <<< 14 + b.code <<< 8 + f.code
  | .brescale ch d a b f => 0x30000038 + bit01 ch <<< 31 + d.code <<< 20 + a.code <<< 14 + b.code <<< 8 + f.code
  | .bdot ch d a b f => 0x30000040 + bit01 ch <<< 31 + d.code <<< 20 + a.code <<< 14 + b.code <<< 8 + f.code
  | .ldB8u ch d a off => 0x34000000 + bit01 ch <<< 31 + d.code <<< 20 + a.code <<< 14 + off.toNat
  | .ldB8s ch d a off => 0x34000400 + bit01 ch <<< 31 + d.code <<< 20 + a.code <<< 14 + off.toNat
  | .ldB16u ch d a off => 0x34000800 + bit01 ch <<< 31 + d.code <<< 20 + a.code <<< 14 + off.toNat
  | .ldB16s ch d a off => 0x34000C00 + bit01 ch <<< 31 + d.code <<< 20 + a.code <<< 14 + off.toNat
  | .ldB32 ch d a off => 0x34001000 + bit01 ch <<< 31 + d.code <<< 20 + a.code <<< 14 + off.toNat
  | .ldB64 ch d a off => 0x34001400 + bit01 ch <<< 31 + d.code <<< 20 + a.code <<< 14 + off.toNat
  | .ldB128 ch d a off => 0x34001800 + bit01 ch <<< 31 + d.code <<< 20 + a.code <<< 14 + off.toNat
  | .ldacqB32 ch d a off => 0x34001C00 + bit01 ch <<< 31 + d.code <<< 20 + a.code <<< 14 + off.toNat
  | .ldacqB64 ch d a off => 0x34002000 + bit01 ch <<< 31 + d.code <<< 20 + a.code <<< 14 + off.toNat
  | .ldsB32 ch d a off => 0x34002400 + bit01 ch <<< 31 + d.code <<< 20 + a.code <<< 14 + off.toNat
  | .ldsB64 ch d a off => 0x34002800 + bit01 ch <<< 31 + d.code <<< 20 + a.code <<< 14 + off.toNat
  | .ldsB128 ch d a off => 0x34002C00 + bit01 ch <<< 31 + d.code <<< 20 + a.code <<< 14 + off.toNat
  | .ldb ch d a f off => 0x34003000 + bit01 ch <<< 31 + d.code <<< 20 + a.code <<< 14 + f.code <<< 7 + off.toNat
  | .ldbs ch d a f off => 0x34003400 + bit01 ch <<< 31 + d.code <<< 20 + a.code <<< 14 + f.code <<< 7 + off.toNat
  | .ldncB32 ch d a off => 0x34003800 + bit01 ch <<< 31 + d.code <<< 20 + a.code <<< 14 + off.toNat
  | .stB8 ch v a off => 0x38000000 + bit01 ch <<< 31 + v.code <<< 20 + a.code <<< 14 + off.toNat
  | .stB16 ch v a off => 0x38000400 + bit01 ch <<< 31 + v.code <<< 20 + a.code <<< 14 + off.toNat
  | .stB32 ch v a off => 0x38000800 + bit01 ch <<< 31 + v.code <<< 20 + a.code <<< 14 + off.toNat
  | .stB64 ch v a off => 0x38000C00 + bit01 ch <<< 31 + v.code <<< 20 + a.code <<< 14 + off.toNat
  | .stB128 ch v a off => 0x38001000 + bit01 ch <<< 31 + v.code <<< 20 + a.code <<< 14 + off.toNat
  | .strelB32 ch v a off => 0x38001400 + bit01 ch <<< 31 + v.code <<< 20 + a.code <<< 14 + off.toNat
  | .strelB64 ch v a off => 0x38001800 + bit01 ch <<< 31 + v.code <<< 20 + a.code <<< 14 + off.toNat
  | .stsB8 ch v a off => 0x38001C00 + bit01 ch <<< 31 + v.code <<< 20 + a.code <<< 14 + off.toNat
  | .stsB32 ch v a off => 0x38002000 + bit01 ch <<< 31 + v.code <<< 20 + a.code <<< 14 + off.toNat
  | .stsB64 ch v a off => 0x38002400 + bit01 ch <<< 31 + v.code <<< 20 + a.code <<< 14 + off.toNat
  | .stsB128 ch v a off => 0x38002800 + bit01 ch <<< 31 + v.code <<< 20 + a.code <<< 14 + off.toNat
  | .stb ch v a f off => 0x38002C00 + bit01 ch <<< 31 + v.code <<< 20 + a.code <<< 14 + f.code <<< 7 + off.toNat
  | .stbs ch v a f off => 0x38003000 + bit01 ch <<< 31 + v.code <<< 20 + a.code <<< 14 + f.code <<< 7 + off.toNat
  | .atomB32 ch d a b op => 0x3C000000 + bit01 ch <<< 31 + d.code <<< 20 + a.code <<< 14 + b.code <<< 8 + op.code
  | .atomB64 ch d a b op => 0x3C000010 + bit01 ch <<< 31 + d.code <<< 20 + a.code <<< 14 + b.code <<< 8 + op.code
  | .redB32 ch a b op => 0x3C000020 + bit01 ch <<< 31 + a.code <<< 14 + b.code <<< 8 + op.code
  | .redB64 ch a b op => 0x3C000030 + bit01 ch <<< 31 + a.code <<< 14 + b.code <<< 8 + op.code
  | .atomf ch d a b op => 0x3C000040 + bit01 ch <<< 31 + d.code <<< 20 + a.code <<< 14 + b.code <<< 8 + op.code
  | .redf ch a b op => 0x3C000050 + bit01 ch <<< 31 + a.code <<< 14 + b.code <<< 8 + op.code
  | .casB32 ch d a b => 0x3C000060 + bit01 ch <<< 31 + d.code <<< 20 + a.code <<< 14 + b.code <<< 8
  | .casB64 ch d a b => 0x3C000070 + bit01 ch <<< 31 + d.code <<< 20 + a.code <<< 14 + b.code <<< 8
  | .cas2 ch d a b => 0x3C000080 + bit01 ch <<< 31 + d.code <<< 20 + a.code <<< 14 + b.code <<< 8
  | .amaxrst ch d a => 0x3C000090 + bit01 ch <<< 31 + d.code <<< 20 + a.code <<< 14
  | .atoms ch d a b op => 0x3C0000A0 + bit01 ch <<< 31 + d.code <<< 20 + a.code <<< 14 + b.code <<< 8 + op.code
  | .reds ch a b op => 0x3C0000B0 + bit01 ch <<< 31 + a.code <<< 14 + b.code <<< 8 + op.code
  | .cass ch d a b => 0x3C0000C0 + bit01 ch <<< 31 + d.code <<< 20 + a.code <<< 14 + b.code <<< 8
  | .atomfs ch d a b op => 0x3C0000D0 + bit01 ch <<< 31 + d.code <<< 20 + a.code <<< 14 + b.code <<< 8 + op.code
  | .bar ch clu => 0x40000000 + bit01 ch <<< 31 + bit01 clu
  | .minit ch a b scr => 0x40000008 + bit01 ch <<< 31 + a.code <<< 14 + b.code <<< 8 + bit01 scr
  | .marrive ch d a b scr => 0x40000010 + bit01 ch <<< 31 + d.code <<< 20 + a.code <<< 14 + b.code <<< 8 + bit01 scr
  | .mexpect ch a b scr => 0x40000018 + bit01 ch <<< 31 + a.code <<< 14 + b.code <<< 8 + bit01 scr
  | .mwait ch a b scr => 0x40000020 + bit01 ch <<< 31 + a.code <<< 14 + b.code <<< 8 + bit01 scr
  | .mtest ch p a b scr => 0x40000028 + bit01 ch <<< 31 + p.code <<< 20 + a.code <<< 14 + b.code <<< 8 + bit01 scr
  | .fence ch scope => 0x40000030 + bit01 ch <<< 31 + scope.code
  | .xfence ch x y scope => 0x40000038 + bit01 ch <<< 31 + x.toNat <<< 14 + y.toNat <<< 8 + scope.code
  | .wait ch ld st cp tl => 0x74000000 + bit01 ch <<< 31 + ld.toNat <<< 22 + st.toNat <<< 18 + cp.toNat <<< 15 + tl.toNat <<< 12
  | .cinv ch a b => 0x44000000 + bit01 ch <<< 31 + a.code <<< 14 + b.code <<< 8
  | .cwb ch a b => 0x44000008 + bit01 ch <<< 31 + a.code <<< 14 + b.code <<< 8
  | .pfetch ch a l2 => 0x44000010 + bit01 ch <<< 31 + a.code <<< 14 + bit01 l2
  | .smap ch a b => 0x44000018 + bit01 ch <<< 31 + a.code <<< 14 + b.code <<< 8
  | .sunmap ch b => 0x44000020 + bit01 ch <<< 31 + b.code <<< 8
  | .sflush ch b => 0x44000028 + bit01 ch <<< 31 + b.code <<< 8
  | .pinfo ch d a => 0x44000030 + bit01 ch <<< 31 + d.code <<< 20 + a.code <<< 14
  | .tlbi ch a b => 0x44000038 + bit01 ch <<< 31 + a.code <<< 14 + b.code <<< 8
  | .cpy ch a b size => 0x48000000 + bit01 ch <<< 31 + a.code <<< 14 + b.code <<< 8 + size.toNat
  | .seal ch a b => 0x48000008 + bit01 ch <<< 31 + a.code <<< 14 + b.code <<< 8
  | .tile ch a b => 0x48000010 + bit01 ch <<< 31 + a.code <<< 14 + b.code <<< 8
  | .relay ch a b => 0x48000018 + bit01 ch <<< 31 + a.code <<< 14 + b.code <<< 8
  | .gath ch a => 0x48000020 + bit01 ch <<< 31 + a.code <<< 14
  | .mrsv ch p => 0x4C000000 + bit01 ch <<< 31 + p.code <<< 20
  | .mrel ch => 0x4C000008 + bit01 ch <<< 31
  | .mcvn ch a => 0x4C000010 + bit01 ch <<< 31 + a.code <<< 14
  | .mma ch a => 0x4C000018 + bit01 ch <<< 31 + a.code <<< 14
  | .mmd ch a => 0x4C000020 + bit01 ch <<< 31 + a.code <<< 14
  | .mzero ch a => 0x4C000028 + bit01 ch <<< 31 + a.code <<< 14
  | .mdrain ch a b f => 0x4C000030 + bit01 ch <<< 31 + a.code <<< 14 + b.code <<< 8 + f.code
  | .mload ch a b => 0x4C000038 + bit01 ch <<< 31 + a.code <<< 14 + b.code <<< 8
  | .mcfg ch a b => 0x4C000040 + bit01 ch <<< 31 + a.code <<< 14 + b.code <<< 8
  | .mcmplx ch a => 0x4C000048 + bit01 ch <<< 31 + a.code <<< 14
  | .glapp ch a b => 0x50000000 + bit01 ch <<< 31 + a.code <<< 14 + b.code <<< 8
  | .glfold ch a b => 0x50000008 + bit01 ch <<< 31 + a.code <<< 14 + b.code <<< 8
  | .emit ch a b => 0x54000000 + bit01 ch <<< 31 + a.code <<< 14 + b.code <<< 8
  | .spawn ch a b => 0x54000008 + bit01 ch <<< 31 + a.code <<< 14 + b.code <<< 8
  | .jdec ch a => 0x54000010 + bit01 ch <<< 31 + a.code <<< 14
  | .wtag ch a => 0x58000000 + bit01 ch <<< 31 + a.code <<< 14
  | .wclose ch d a b => 0x58000008 + bit01 ch <<< 31 + d.code <<< 20 + a.code <<< 14 + b.code <<< 8
  | .wfence ch => 0x58000010 + bit01 ch <<< 31
  | .bcas ch a b => 0x5C000000 + bit01 ch <<< 31 + a.code <<< 14 + b.code <<< 8
  | .benq ch a b => 0x5C000008 + bit01 ch <<< 31 + a.code <<< 14 + b.code <<< 8
  | .bchase ch a b => 0x5C000010 + bit01 ch <<< 31 + a.code <<< 14 + b.code <<< 8
  | .bred ch a b => 0x5C000018 + bit01 ch <<< 31 + a.code <<< 14 + b.code <<< 8
  | .xev ch a b => 0x60000000 + bit01 ch <<< 31 + a.code <<< 14 + b.code <<< 8
  | .xtest ch p a b => 0x60000008 + bit01 ch <<< 31 + p.code <<< 20 + a.code <<< 14 + b.code <<< 8
  | .tmchk ch p a => 0x64000000 + bit01 ch <<< 31 + p.code <<< 20 + a.code <<< 14
  | .tmwait ch a => 0x64000008 + bit01 ch <<< 31 + a.code <<< 14
  | .tmpin ch a => 0x64000010 + bit01 ch <<< 31 + a.code <<< 14
  | .tmunpin ch a => 0x64000018 + bit01 ch <<< 31 + a.code <<< 14
  | .loadDataReturn _ _ _ _ => 0
  | .fenceCompletion _ _ => 0
  | .speculationRollback _ _ => 0
  | .sleepExpiry _ _ _ => 0
  | .mooringOpAtHome _ => 0
  | .chunkFill _ _ _ => 0
  | .scratchWriteback _ => 0
  | .groupEnd _ _ => 0
  | .gridRetirement _ => 0
  | .preemptionRequest _ => 0
  | .contextSave _ => 0
  | .faultService _ _ => 0
  | .faultRecordDelivery _ => 0
  | .retry _ => 0
  | .remap _ => 0
  | .setrap _ => 0
  | .migrate _ => 0
  | .restream _ => 0
  | .deliver _ => 0
  | .abort _ => 0
  | .ret _ => 0
  | .copyBatchCompletion _ _ => 0
  | .tileCompletion _ _ _ => 0
  | .relayHopCompletion _ _ _ => 0
  | .gatherCompletion _ _ _ => 0
  | .jointIssue _ _ => 0
  | .matrixPass _ _ => 0
  | .matrixOpCompletion _ _ => 0
  | .matrixHeaderFailure _ _ => 0
  | .mdrainEntryDelivery _ _ => 0
  | .glappRecordWrite _ _ => 0
  | .recordFold _ => 0
  | .glfoldRetirement _ => 0
  | .doorbell _ _ => 0
  | .packetNop _ => 0
  | .launch _ => 0
  | .coll _ => 0
  | .waitmem _ => 0
  | .waitmemReread _ => 0
  | .signalmem _ => 0
  | .modelRequest _ => 0
  | .modelWithdraw _ => 0
  | .modelPin _ => 0
  | .modelUnpin _ => 0
  | .qbarrier _ => 0
  | .workTableTimeout _ => 0
  | .placementAttempt _ => 0
  | .candidateReservation _ _ => 0
  | .thermalMigration _ => 0
  | .jdecAtHome _ => 0
  | .layerArrival _ _ _ => 0
  | .layerFetchFailure _ _ _ => 0
  | .layerEviction _ _ => 0
  | .reflectionArrival _ => 0
  | .reflectionAcknowledgement _ _ => 0
  | .closeMarkerArrival _ => 0
  | .daymarkArrival _ _ _ => 0
  | .beaconBcasStep _ => 0
  | .beaconBenqStep _ => 0
  | .beaconBchaseStep _ => 0
  | .beaconBredStep _ => 0
  | .ualinkReadReceived _ => 0
  | .slotGrant _ _ _ => 0
  | .contributionArrival _ _ => 0
  | .memberReport _ _ => 0
  | .readyWordPoll _ => 0
  | .collectiveFailure _ _ => 0
  | .vaultRowSparing _ _ => 0
  | .hbmChannelFailure _ _ => 0
  | .dieLinkLaneFailure _ _ => 0
  | .ualinkPortFailure _ => 0
  | .coreFailure _ _ => 0
  | .vaultFailure _ => 0
  | .heartbeatTakeover => 0
  | .cxlPortFailure => 0
  | .patrolScrub _ => 0
  | .hostMemAccess _ _ => 0
  | .scaleViewWrite _ _ => 0
  | .ctxCreate _ _ => 0
  | .ctxSet _ _ => 0
  | .ctxDestroy _ => 0
  | .map _ _ _ => 0
  | .unmap _ _ => 0
  | .xlate _ _ => 0
  | .keyLoad _ _ => 0
  | .keyClear _ => 0
  | .winSet _ => 0
  | .queueSet _ _ => 0
  | .queueClear _ => 0
  | .layerDone _ _ => 0
  | .fwWrite _ _ => 0
  | .fwCommit _ => 0
  | .warm _ => 0
  | .mailboxUnknownCode _ => 0
  | .bar0WriteIgnored _ _ => 0
  | .coldStart _ => 0
  | .warmReset _ _ => 0
  | .managementRead _ => 0
  | .plimWrite _ => 0
  | .coldResetRequest => 0
  | .powerWindow _ => 0
  | .temperatureHot _ => 0
  | .temperatureTrip => 0
  | .illegalOp _ _ _ _ _ => 0
  | .packetFetch _ _ _ => 0
  | .mbstsRead => 0
  | .hdmDecoderWrite _ _ => 0
  | .digestExchange _ _ _ => 0
  | .vaultSplitChange _ _ => 0

end Sys2Proof
end

