-- ==== Sys2Proof/Config.lean ====
section
/-! DEFINITION. The free values: constants without a body, of which nothing can be proved.  Each is named in a log
entry. -/
namespace Sys2Proof.Config

/-- A special-function result whose enclosure straddles a rounding boundary: the operation's index and the operand's
code select the value (log entry 12). -/
opaque undecidedSpecial (op arg : Nat) : BitVec 32
/-- A byte of a page that a peer device's Keeper sends, by the leaf's FRAME, the offset and the time (log entry 11). -/
opaque peerByte (frame off now : Nat) : BitVec 8
/-- The reading of a core's temperature sensor, in degrees Celsius, by the core and the time (log entry 67). -/
opaque temperature (core now : Nat) : Nat
/-- The SHA-384 digest of a firmware image, given as a number that lists its bytes (log entry 11). -/
opaque sha384 (image : Nat) : Nat
/-- The step at which a warm start that the host asks for by mailbox fails, less one, by the time at which it begins (log entry 55). -/
opaque warmFails (now : Nat) : Option (Fin 6)

end Sys2Proof.Config
end

