-- ==== Sys2Proof/Machine/Atom.lean ====
section
/-! DEFINITION. The new value an atomic operation stores (R135, R136). -/
namespace Sys2Proof.Machine

/-- An integer operation on old `o` and operand `b` of width `w`. -/
def atomInt (w : Nat) (op : AOp) (o b : Nat) : Nat :=
  match op with
  | .add => (o + b) % 2 ^ w
  | .minS => (aluMin w false o b).v
  | .minU => (aluMin w true o b).v
  | .maxS => (aluMax w false o b).v
  | .maxU => (aluMax w true o b).v
  | .and => o &&& b
  | .or => o ||| b
  | .xor => o ^^^ b
  | .xchg => b
/-- A float operation, always RNE. -/
def atomFlt (op : AFOp) (o b : Nat) : Nat :=
  match op with
  | .addF32 => f32.round (Val.sum .rne [f32.decode o, f32.decode b]) .rne 0
  | .maxF32 => maxN f32 true o b
  | .minF32 => maxN f32 false o b
  | .maxIeee => maxI f32 true o b
  | .minIeee => maxI f32 false o b
  | .addF16x2 => fpAdd .f16x2 ⟨.rne, 0, 0⟩ o b
  | .addBf16x2 => fpAdd .bf16x2 ⟨.rne, 0, 0⟩ o b
  | .maxAbs => maxA f32 o b
/-- `cas` on a location of `w` bits: the value stored, if any. -/
def casNew (w o b : Nat) : Option Nat := if o = b % 2 ^ w then some (b / 2 ^ w) else none
/-- `cas2` on 16 bytes (R136). -/
def cas2New (o b : Nat) : Option Nat :=
  if o % 2 ^ 64 = b % 2 ^ 64 then some (b / 2 ^ 64 + (o / 2 ^ 64 + 1) % 2 ^ 64 * 2 ^ 64) else none

end Sys2Proof.Machine
end

