-- ==== Sys2Proof/Machine/Ops.lean ====
section
/-! DEFINITION. The named operations over lanes, queues and memory: registers and the result queue with their reservations
(R14 to R19, R127, R133), loads through the L1 data cache (R207, R208), writes at the home unit (R137, R191, R217), the
scratchpad and its maps (R122, R209 to R211), address checks (R121 to R123), fault records (R324, R420) and the trap
frame (R318, R319). -/
namespace Sys2Proof.Machine

/-- Bytes of a core's scratchpad (R12). -/
def scrSize : Nat := 524288
/-- Die of a device-wide core number, its row and column on the die's mesh (R8). -/
def dieOf (core : Nat) : Nat := core / 24
def rowOf (core : Nat) : Nat := core % 24 / 6
def colOf (core : Nat) : Nat := core % 6
/-- The HBM4E stacks of a die, by number, and how many UALink ports it has (R9). -/
def dieStacks (d : Nat) : List Nat := [[0, 1], [2], [3, 4], [5], [], [6], [7, 8], [9], [10, 11]].getD d []
def diePorts (d : Nat) : Nat := if d = 4 then 0 else 3
/-- The die of a stack (R9). -/
def stackDie (k : Nat) : Nat := ((List.range 9).find? fun d => (dieStacks d).contains k).getD 9
/-- The die of the CXL host port, and that of the Lantern and Keeper in service: the active pair's, or the standby pair's after a takeover
(R9, R10). -/
def hostDie : Nat := 4
def State.pairDie (s : State) : Nat := if s.keeper.pair.standby then 0 else 4
/-- The clock counter of a core (R100). -/
def State.cycles (s : State) (core : Nat) : DWord := BitVec.ofNat 64 (s.now - (s.core core).resetAt)

/-! ### Groups of the device -/
/-- Apply to every group of the device, with its place; groups of suspended teams stand at core 216 (R330). -/
def State.mapGroups (s : State) (f : Nat → Nat → Group → Group) : State :=
  { s with
    cores := s.cores.mapV fun c k => { k with groups := k.groups.mapV fun g x => f c g x }
    lantern := { s.lantern with teams := s.lantern.teams.mapV fun _ t =>
      { t with saved := t.saved.map fun v => { v with groups := v.groups.mapV fun g x => f 216 g x } } } }
/-- Apply to every lane of a group. -/
def Group.mapLanes (g : Group) (f : Nat → Lane → Lane) : Group := { g with lanes := g.lanes.mapV f }
/-- The groups of a team, as (core, slot). -/
def State.groupsOf (s : State) (t : Nat) : List (Nat × Nat) :=
  s.cores.flatMap fun (c, k) => (k.groups.filter fun (_, g) => g.team == t).map fun (g, _) => (c, g)

/-! ### Registers and the result queue -/
def Lane.reg (x : Lane) (r : Nat) : Reg := Tbl.get x.regs r {}
/-- Queue age `k`, 1 to 16 (R16). -/
def Lane.age (x : Lane) (k : Nat) : QEnt := x.queue.getD (k - 1) {}
def Lane.setReg (x : Lane) (r : Nat) (v : Reg) : Lane := { x with regs := Tbl.put x.regs r v }
/-- A push (R16). -/
def Lane.push (x : Lane) (e : QEnt) : Lane := { x with queue := (e :: x.queue).take 16 }
/-- Write `n` named registers from `r`, 32 bits each, least significant first (R15). -/
def Lane.writeRegs (x : Lane) (r : Nat) : Nat → Nat → Lane
  | 0, _ => x
  | n + 1, v => (x.setReg r { v := BitVec.ofNat 32 v }).writeRegs (r + 1) n (v / 2 ^ 32)
/-- Push a result of `bits` bits (R17). -/
def Lane.pushVal (x : Lane) (bits v : Nat) : Lane :=
  if bits ≤ 64 then x.push { v := BitVec.ofNat 64 (v % 2 ^ bits) }
  else (x.push { v := BitVec.ofNat 64 v }).push { v := BitVec.ofNat 64 (v / 2 ^ 64) }
/-- Write a result to a lane's destination and push (R16, R38). -/
def Lane.write (x : Lane) (d : Dst) (bits v : Nat) : Lane :=
  match d with
  | .n r => (x.writeRegs r ((bits + 31) / 32) v).pushVal bits v
  | .push => x.pushVal bits v
  | _ => x
/-- Reserve `n` named registers for transaction `t`. -/
def Lane.reserveRegs (x : Lane) (r t : Nat) : Nat → Nat → Lane
  | 0, _ => x
  | n + 1, part => ((x.setReg r { x.reg r with busy := some (4 * t + part), poison := false }).reserveRegs (r + 1) t n (part + 1))
/-- Reserve a destination for transaction `t` (R19). -/
def Lane.reserve (x : Lane) (d : Dst) (bits t : Nat) : Lane :=
  let ents (x : Lane) : Lane :=
    if bits ≤ 64 then x.push { busy := some (4 * t) }
    else (x.push { busy := some (4 * t) }).push { busy := some (4 * t + 1) }
  match d with
  | .n r => ents (x.reserveRegs r t ((bits + 31) / 32) 0)
  | .push => ents x
  | _ => x
/-- Fill what transaction `t` reserved (R19, R133). -/
def Lane.fill (x : Lane) (t v : Nat) (poison : Bool) (ea : DWord) : Lane :=
  let r (q : Reg) : Reg := match q.busy with
    | some b => if b / 4 = t then ⟨BitVec.ofNat 32 (v / 2 ^ (32 * (b % 4))), none, poison, ea⟩ else q
    | none => q
  let e (q : QEnt) : QEnt := match q.busy with
    | some b => if b / 4 = t then ⟨BitVec.ofNat 64 (v / 2 ^ (64 * (b % 4))), none, poison, ea⟩ else q
    | none => q
  { x with regs := x.regs.map fun (k, q) => (k, r q), queue := x.queue.map e,
           frame := { x.frame with queue := x.frame.queue.map e } }

/-! ### Memory at the home unit -/
/-- Identity of a sector for conflict detection and speculation: device memory even, scratchpad odd. -/
def secDev (pa : Nat) : Nat := 2 * (pa / 32)
def secScr (core off : Nat) : Nat := 2 * (core * 16384 + off / 32) + 1
/-- Another agent's write reaches a sector read speculatively (R191); `who` is a group whose own write it is. -/
def State.noteWrite (s : State) (who : Option (Nat × Nat)) (secs : List Nat) : State :=
  s.mapGroups fun c g x =>
    match x.spec with
    | some sp => if who == some (c, g) then x
      else if sp.reads.any fun k => secs.contains k then { x with spec := some { sp with hit := true } } else x
    | none => x
/-- Room for a dirty line among the `n` lines of 128 bytes that a core's slice holds; where there is none, the lowest other goes back to
memory (R212, R334; which one goes is DESIGN CHOICE, log entry 10). -/
def l2Room (t : Tbl Nat) (c n k : Nat) : Tbl Nat :=
  let ls := (t.filter fun p => p.2 == c && p.1 != k).map (·.1)
  if ls.length < n then t else t.keep fun j _ => j != ls.headD k
/-- A line of HBM4E becomes dirty in its home slice (R212, R334). -/
def State.dirtyLine (s : State) (pa : Nat) : State :=
  if isVault pa || s.homeCore pa == 0xFF then s
  else { s with dirty := Tbl.put (l2Room s.dirty (s.homeCore pa) (8192 * s.l2Units (s.homeCore pa)) (pa / 128)) (pa / 128) (s.homeCore pa) }
/-- A run of bytes of a store on its way meets another run of the same memory. -/
def Lag.meets (x : Lag) (unit : Option Nat) (a n : Nat) : Bool :=
  x.unit == unit && decide (a < x.addr + x.old.length) && decide (x.addr < a + n)
/-- What is left of the stores on their way after a write: those that it meets have been performed for every reader (R200). -/
def State.overtake (s : State) (unit : Option Nat) (a n : Nat) : List Lag :=
  let met := (s.lag.filter fun x => x.meets unit a n).map (·.txn)
  s.lag.filter fun x => !met.contains x.txn
/-- What stood where a store is on its way, for a reader of another core or an engine that reads behind it (R200, R407; log entries 9,
20). -/
def State.behind (s : State) (reader : Nat) (unit : Option Nat) (key a : Nat) : Option Byte :=
  if !s.lagging.contains reader then none
  else (s.lag.find? fun x => x.meets unit a 1 && x.key == key && x.core != reader &&
      (s.group x.core x.grp).txns.any (·.id == x.txn)).bind fun x => x.old[a - x.addr]?
/-- Bytes read at a unit, as a reader sees them. -/
def State.seen (s : State) (reader : Nat) (unit : Option Nat) (key a : Nat) (bs : List Byte) : List Byte :=
  bs.zipIdx.map fun (b, i) => (s.behind reader unit key (a + i)).getD b
/-- What a lane has stored on its way is performed (R129, R193, R195). -/
def State.storesDone (s : State) (core grp lane : Nat) : State :=
  { s with lag := s.lag.filter fun x => x.core != core || x.grp != grp || x.lane != lane }
/-- One write request at its home unit. -/
def State.devWrite (s : State) (who : Option (Nat × Nat)) (key pa : Nat) (bs : List Byte) (poison : Bool) : State :=
  let s := { s with mem := s.mem.writeKey key pa bs poison, lag := s.overtake none pa bs.length }
  let s := ((sectorsOf pa bs.length).foldl (fun s k => s.dirtyLine (32 * k)) s)
  s.noteWrite who ((sectorsOf pa bs.length).map fun k => 2 * k)
/-- `n` bytes and their poison at the home unit. -/
def State.devRead (s : State) (key pa n : Nat) : List Byte × Bool := (s.mem.readKey key pa n, s.mem.poisoned pa n)
def State.devSlot (s : State) (pa k : Nat) : Byte := s.mem.slot pa k
def State.devSetSlot (s : State) (pa k : Nat) (v : Byte) : State :=
  (({ s with mem := s.mem.setSlot pa k v }).dirtyLine pa).noteWrite none [secDev pa]
/-- Write through a context's translation, by the device's own agents; pages are marked (R221). -/
def State.vwrite (s : State) (ctx va : Nat) : List Byte → State
  | [] => s
  | b :: bs =>
    let (pa, key) := s.pa none ctx .store va
    ((s.touch none ctx true va).devWrite none key pa [b] false).vwrite ctx (va + 1) bs

/-! ### Scratchpad -/
/-- The resident team whose region holds a scratch offset of a core. -/
def State.teamAt (s : State) (core off : Nat) : Option Nat :=
  (s.lantern.teams.find? fun (_, t) =>
    t.core == core && (t.st == .resident || t.st == .halted || t.st == .ended) && t.scrBase ≤ off && off < t.scrBase + t.scrLen).map (·.1)
/-- The map and chunk of a team that hold an offset of its region (R210). -/
def Team.mapOf (t : Team) (off : Nat) : Option (Nat × Nat) :=
  (t.maps.find? fun (_, m) => m.sofs ≤ off && off < m.sofs + 4096 * m.nchk).map fun (k, m) => (k, (off - m.sofs) / 4096)
/-- Mark sectors of a core's scratchpad dirty where a map covers them (R211). -/
def State.markDirty (s : State) (core off n : Nat) (scale : Bool) : State :=
  (sectorsOf off n).foldl (fun s k =>
    match s.teamAt core (32 * k) with
    | none => s
    | some t =>
      let x := s.team t
      match x.mapOf (32 * k - x.scrBase) with
      | none => s
      | some (m, _) =>
        s.setTeam t { x with maps := Tbl.upd x.maps m ⟨0, 0, 0, [], [], []⟩ fun y =>
          if scale then { y with dirtyScale := if y.dirtyScale.contains k then y.dirtyScale else k :: y.dirtyScale }
          else { y with dirtyData := if y.dirtyData.contains k then y.dirtyData else k :: y.dirtyData } }) s
def State.scrRead (s : State) (core off n : Nat) : List Byte × Bool :=
  ((s.core core).scr.read off n, (s.core core).scr.poisoned off n)
def State.scrWrite (s : State) (who : Option (Nat × Nat)) (core off : Nat) (bs : List Byte) (poison : Bool) : State :=
  let k := s.core core
  let s := { s with lag := s.overtake (some core) off bs.length }.setCore core { k with scr := k.scr.writeKey 0 off bs poison }
  (s.markDirty core off bs.length false).noteWrite who ((sectorsOf off bs.length).map fun j => secScr core (32 * j))
def State.scrSlot (s : State) (core off k : Nat) : Byte := (s.core core).scr.slot off k
def State.scrSetSlot (s : State) (core off k : Nat) (v : Byte) : State :=
  let c := s.core core
  ((s.setCore core { c with scr := c.scr.setSlot off k v }).markDirty core off 1 true).noteWrite none [secScr core off]
/-- Read, write and sideband at a location. -/
def State.locRead (s : State) (l : Loc) (n : Nat) : List Byte × Bool :=
  match l with
  | .dev pa key _ _ => s.devRead key pa n
  | .scr c off => s.scrRead c off n
def State.locWrite (s : State) (who : Option (Nat × Nat)) (l : Loc) (bs : List Byte) (poison : Bool) : State :=
  match l with
  | .dev pa key _ _ => s.devWrite who key pa bs poison
  | .scr c off => s.scrWrite who c off bs poison
def State.locSlot (s : State) (l : Loc) (k : Nat) : Byte :=
  match l with
  | .dev pa _ _ _ => s.devSlot pa k
  | .scr c off => s.scrSlot c off k
def State.locSetSlot (s : State) (l : Loc) (k : Nat) (v : Byte) : State :=
  match l with
  | .dev pa _ _ _ => s.devSetSlot pa k v
  | .scr c off => s.scrSetSlot c off k v
/-- The sector identity of a location. -/
def Loc.sec : Loc → Nat
  | .dev pa _ _ _ => secDev pa
  | .scr c off => secScr c off

/-! ### The L1 data cache (R205 to R208) -/
/-- The sector as a core's cache would hold it when fetched now. -/
def State.freshL1 (s : State) (core key k : Nat) : L1Sector :=
  ⟨s.seen core none key (32 * k) (s.mem.readKey key (32 * k) 32), s.mem.slot (32 * k) 0, s.mem.slot (32 * k) 1, s.mem.poisoned (32 * k) 1⟩
/-- The sector a cached load reads: the line the core holds, or the home unit's. -/
def State.l1Sector (s : State) (core key k : Nat) : L1Sector :=
  match Tbl.find (s.core core).l1 k with
  | some x => x
  | none => s.freshL1 core key k
/-- Room for a sector's line among the 3,072 lines of 128 bytes that 384 KiB hold; another line goes where there is none (R12, R207;
log entry 10). -/
def l1Room (t : Tbl L1Sector) (k : Nat) : Tbl L1Sector :=
  let ls := (t.map (·.1 / 4)).eraseDups
  if ls.contains (k / 4) || ls.length < 3072 then t else t.keep fun j _ => j / 4 != ls.headD 0
/-- A load allocates the sectors it reads. -/
def State.l1Fill (s : State) (core key : Nat) (ks : List Nat) : State :=
  ks.foldl (fun s k => s.setCore core { s.core core with l1 := Tbl.put (l1Room (s.core core).l1 k) k (s.l1Sector core key k) }) s
/-- Loads of a group that speculates on a fence of scope `clu` or wider are served from the home unit (R208). -/
def State.cachedNow (s : State) (core grp : Nat) : Bool := match (s.group core grp).spec with | some sp => !sp.dropsL1 | none => true
/-- The bytes, slots and poison a lane's load reads. -/
def State.loadBytes (s : State) (core : Nat) (cached : Bool) (l : Loc) (n : Nat) : List Byte × Bool :=
  match l with
  | .scr c off => (s.seen core (some c) 0 off (s.scrRead c off n).1, (s.scrRead c off n).2)
  | .dev pa key _ _ =>
    if cached then
      ((List.range n).map fun i => (s.l1Sector core key ((pa + i) / 32)).bytes.getD ((pa + i) % 32) 0,
       (sectorsOf pa n).any fun k => (s.l1Sector core key k).poison)
    else (s.seen core none key pa (s.devRead key pa n).1, (s.devRead key pa n).2)
def State.loadSlot (s : State) (core : Nat) (cached : Bool) (l : Loc) (k : Nat) : Byte :=
  match l with
  | .scr c off => s.scrSlot c off k
  | .dev pa key _ _ =>
    if cached then (let x := s.l1Sector core key (pa / 32); if k = 0 then x.s0 else x.s1) else s.devSlot pa k
/-- A store updates the sectors of lines already present in its core's cache (R207). -/
def State.l1Update (s : State) (core key : Nat) (ks : List Nat) : State :=
  ks.foldl (fun s k =>
    match Tbl.find (s.core core).l1 k with
    | some _ => s.setCore core { s.core core with l1 := Tbl.put (s.core core).l1 k (s.freshL1 core key k) }
    | none => s) s
/-- Drop the line of an address in every core's cache, or in every other core's, and every line of one core (R207, R208).  A release or an
atomic leaves no other copy of its line, so that a program without plain stores runs as one interleaving of its accesses (R197; log entry
10). -/
def State.l1DropLine (s : State) (pa : Nat) : State :=
  { s with cores := s.cores.mapV fun _ k => { k with l1 := k.l1.keep fun j _ => j / 4 != pa / 128 } }
def State.l1DropOthers (s : State) (core pa : Nat) : State :=
  { s with cores := s.cores.mapV fun c k => if c = core then k else { k with l1 := k.l1.keep fun j _ => j / 4 != pa / 128 } }
def State.l1DropAll (s : State) (core : Nat) : State := s.setCore core { s.core core with l1 := [] }

/-! ### Address checks (R121 to R123, R220) -/
/-- The effective address of a global access with an offset of `w` bits. -/
def eaGlobal (a w off size : Nat) : Nat := wrapI 64 ((a : Int) + sgn w off * (size : Int))
def eaScratch (a w off size : Nat) : Nat := wrapI 32 (((a % 2 ^ 32 : Nat) : Int) + sgn w off * (size : Int))
/-- Alignment, then translation and aperture, of a global access: the answer, or how the lane ends. -/
def State.checkGlobal (s : State) (core grp : Nat) (n : Need) (ea align : Nat) : Except LaneOut Loc :=
  if ea % align ≠ 0 then .error (.trap .misaligned (BitVec.ofNat 64 ea))
  else match s.xlat (some core) (s.ctxOf core grp) n ea with
  | .ok pa key apt _ _ _ _ => .ok (.dev pa key (BitVec.ofNat 64 ea) apt)
  | .fault c => .error (.park c (BitVec.ofNat 64 ea))
  | .arriving l => .error (.parkLayer l)
/-- The member of a cluster that a PEER address names: team identity. -/
def State.peerTeam (s : State) (t : Team) (mbr : Nat) : Option Nat :=
  match t.cluster with
  | none => none
  | some k => (s.lantern.teams.find? fun (_, x) => x.cluster == some k && x.member == mbr).map (·.1)
/-- The form check of R122 for an ordinary scratch address. -/
def scrFormOk (ea : Nat) : Bool := bits ea 23 19 == 0 && !bitAt ea 29 && !bitAt ea 30 && !bitAt ea 31
/-- A cell address of R122: its cell number. -/
def cellOf (ea : Nat) : Option Nat := if bitAt ea 30 then (if ea = 2 ^ 30 + 4 * bits ea 5 2 then some (bits ea 5 2) else none) else none
/-- Fill state of the chunks an access to a team's region touches (R211): how a lane that meets an unfilled one ends. -/
def State.chunkCheck (s : State) (core : Option Nat) (team off n : Nat) : Option LaneOut :=
  let t := s.team team
  ([off, off + n - 1]).findSome? fun o =>
    match t.mapOf o with
    | none => none
    | some (k, c) =>
      let m := Tbl.get t.maps k ⟨0, 0, 0, [], [], []⟩
      if m.filled.contains c then none
      else
        let va := m.va.toNat + 4096 * c
        match s.rangeFault core ((s.grid t.grid).ctx) .load va 4096 with
        | none => some (.stall (.chunk team k c))
        | some (.arriving l, _) => some (.parkLayer l)
        | some (.fault f, _) => some (.park f (BitVec.ofNat 64 va))
        | some _ => none
/-- Form, alignment, region bound and chunk of a scratch access of a lane (R122, R123, R211). -/
def State.checkScratch (s : State) (core grp ea align n : Nat) : Except LaneOut Loc :=
  let bad (c : Cause) : Except LaneOut Loc := .error (.trap c (BitVec.ofNat 64 ea))
  let team := (s.group core grp).team
  let t := s.team team
  let off := bits ea 18 0
  if !scrFormOk ea then bad .misaligned
  else if ea % align ≠ 0 then bad .misaligned
  else
    match (if bitAt ea 28 then s.peerTeam t (bits ea 27 24) else some team) with
    | none => bad .aperture
    | some p =>
      let x := s.team p
      if x.scrLen < off + n then bad .aperture
      else match s.chunkCheck (some core) p off n with
        | some o => .error o
        | none => .ok (.scr x.core (x.scrBase + off))

/-! ### Conflict detection (R198, R199) -/
/-- Whether accesses at a location are detected. -/
def State.detected (s : State) (core grp : Nat) (l : Loc) : Bool :=
  match l with
  | .dev _ _ va _ => match s.leafFor (some core) (s.ctxOf core grp) va.toNat with
    | some (x, _) => leafRace x
    | none => false
  | .scr c off => match s.teamAt c off with
    | some t => (s.grid (s.team t).grid).det
    | none => false
/-- The other access of a conflict: where its lane stands, its kind, and its context. -/
structure Rival where
  core : Nat
  grp : Nat
  lane : Nat
  store : Bool
  ctx : Nat
  deriving DecidableEq, Repr
/-- The first access of open regions of some groups that conflicts with an access (R198): by group, lane, and the latest of the lane's. -/
def rivalIn (a : Access) (core : Nat) (ctx : Group → Nat) (gs : Tbl Group) : Option Rival :=
  gs.findSome? fun (g, x) => x.lanes.findSome? fun (l, y) =>
    (y.region.find? fun b => b.sector == a.sector && (b.store || a.store)).map fun b => ⟨core, x.home.getD g, l, b.store, ctx x⟩
/-- The other lane's access that a new access completes a conflict with; of several, the first by core, group and lane, and then those of
suspended teams, which report the core and the slot they had.  A suspended team's scratchpad has no sector that another lane reaches
(log entry 73). -/
def State.conflict (s : State) (core grp lane : Nat) (a : Access) : Option Rival :=
  let others := s.updLane core grp lane fun x => { x with region := [] }
  let ctx (x : Group) : Nat := (s.grid (s.team x.team).grid).ctx
  match others.cores.findSome? fun (c, k) => rivalIn a c ctx k.groups with
  | some o => some o
  | none =>
    if a.sector % 2 = 1 then none
    else others.lantern.teams.findSome? fun (_, t) => match t.saved with
      | some v => rivalIn a t.core ctx (v.groups.map fun p => (t.slots.getD p.1 0, p.2))
      | none => none
/-- The conflict report of R199. -/
def conflictReport (o : Rival) (scr : Bool) : DWord :=
  BitVec.ofNat 64 (o.lane + o.grp % 32 * 32 + o.core * 2 ^ 10 + bit01 o.store * 2 ^ 18 + bit01 scr * 2 ^ 19 + (o.ctx % 65536) * 2 ^ 32)

/-! ### Fault records (R324, R325, R420) -/
/-- Cause codes (R322, R420). -/
def causeCode : Cause → Nat
  | .illegalOp => 0x01 | .illegalChain => 0x02 | .illegalOperand => 0x03 | .privilege => 0x04 | .misaligned => 0x05
  | .pageAbsent => 0x06 | .pagePermission => 0x07 | .aperture => 0x08 | .remoteAtomicDenied => 0x09
  | .modelConflict => 0x0A | .queueOrphaned => 0x0B | .engineNotReserved => 0x0C | .conveneMismatch => 0x0D
  | .mooringMisuse => 0x0E | .layerWithdrawn => 0x0F | .uncorrectable => 0x10 | .softwareTrap => 0x11
  | .windowUnmapped => 0x12 | .breakpoint => 0x13 | .packetRejected => 0x20 | .abandoned => 0x21
  | .recordSkipped => 0x22 | .countUnderflow => 0x23 | .reflectionError => 0x24 | .collectiveFailed => 0x25
/-- The bit of UPMASK that stands for a page-class cause (R324). -/
def causeUpBit : Cause → Option Nat
  | .pageAbsent => some 0 | .pagePermission => some 1 | .aperture => some 2 | .remoteAtomicDenied => some 3
  | .layerWithdrawn => some 4 | _ => none
/-- Whether a context's fault queue can take records: a ring and an open node (R324, R325). -/
def State.fqOpen (s : State) (ctx : Nat) : Bool :=
  let c := s.ctx ctx
  decide (0 < c.nfq) && s.lantern.nodes.any fun (_, n) => n.ctx == ctx && n.addr == c.fqnode && n.st == 1
/-- A happening that ends its clock: what reaches the same unit after it comes in a later one, so that the order of R408 among happenings of
one clock is kept (log entry 69). -/
def State.tick (s : State) : State := { s with now := s.now + 1 }
/-- The 64 bytes of a record (R324). -/
def FRec.bytes (r : FRec) : List Byte :=
  toBytesLE 64 (causeCode r.cause + r.src * 2 ^ 8 + bit01 r.park * 2 ^ 12 + (r.ctx % 65536) * 2 ^ 16 + r.lanes.toNat * 2 ^ 32 +
    (r.core % 256) * 2 ^ 64 + (r.gslot % 32) * 2 ^ 72 + (r.team % 2 ^ 32) * 2 ^ 96 + r.addr.toNat * 2 ^ 128 + r.fpc.toNat * 2 ^ 192 +
    r.detail.toNat * 2 ^ 384)
/-- A device-to-host write, while the link stands (R394, R335). -/
def State.toHost (s : State) (kind addr : Nat) (bs : List Byte) : State :=
  if s.keeper.cxlDown then s else { s with keeper := { s.keeper with d2h := s.keeper.d2h ++ [(kind, addr, bs)] } }
/-- A record goes to the Keeper's own log, which it also writes to host memory (R325, R394). -/
def State.keepLog (s : State) (r : FRec) : State :=
  { s with keeper := { s.keeper with log := s.keeper.log ++ [r] } }.toHost 0 0 r.bytes
/-- A signal of a context on a page that the host shares, which the host is written (R394; log entry 67). -/
def State.tellHost (s : State) (kind ctx va : Nat) (bs : List Byte) : State :=
  match s.walk ctx va with
  | .leaf x _ _ => if leafApt x = 2 then s.toHost kind va bs else s
  | _ => s
/-- Write a record: to the context's fault queue where it has one open, otherwise to the Keeper's log (R325). -/
def State.record (s : State) (r : FRec) : State :=
  if s.fqOpen r.ctx then
    let c := s.ctx r.ctx
    let s := s.setCtx r.ctx { c with pending := c.pending ++ [⟨s.keeper.nextRec, r, none, 0, 0, false⟩] }
    { s with keeper := { s.keeper with nextRec := s.keeper.nextRec + 1 } }
  else s.keepLog r
/-- A record for work of a group (R420). -/
def State.groupRec (s : State) (core grp : Nat) (c : Cause) (src : Nat) (addr : DWord) (detail : Nat) : FRec :=
  { cause := c, src := src, ctx := s.ctxOf core grp, core := core, gslot := (s.group core grp).home.getD grp, team := (s.teamOf core grp).idx,
    addr := addr, detail := BitVec.ofNat 32 detail }

/-! ### Taking a trap and returning from one (R318, R319) -/
/-- Trap entry: the frame is saved, tcause, taddr, tpc and H are written, and the lane goes to TVEC (R318). -/
def Lane.enterTrap (x : Lane) (tvec : DWord) (c : Cause) (taddr pc : DWord) (slot : Nat) : Lane :=
  { x with
    frame := { queue := x.queue, preds := x.preds, rpPc := pc, rpSlot := slot,
               skip := c == .softwareTrap || c == .breakpoint, tpc0 := pc }
    tcause := BitVec.ofNat 32 (causeCode c), taddr := taddr, tpc := pc, h := true, pc := tvec, slot := 0, mode := .ready, ticket := none }
/-- The trap return of a lane with H = 1; `next` is the place after the chain at RP (R319). -/
def Lane.leaveTrap (x : Lane) (next : DWord × Nat) : Lane :=
  let y := { x with queue := x.frame.queue, preds := x.frame.preds, h := false, frame := {} }
  if x.tpc ≠ x.frame.tpc0 then { y with pc := x.tpc, slot := 0 }
  else if !x.frame.skip then { y with pc := x.frame.rpPc, slot := x.frame.rpSlot }
  else { y with pc := next.1, slot := next.2 }

/-! ### Rejoin masks (R153) -/
/-- The release condition of one mask, and the release. -/
def Group.release1 (g : Group) (j : Nat) : Group :=
  let m := Tbl.get g.j j 0
  let joinedOn := (g.lanes.filter fun (_, x) => x.mode == .joined j).map (·.1)
  if m ≠ 0 && (lanesOf m).all (joinedOn.contains ·) then
    let g := g.mapLanes fun _ x => if x.mode == .joined j then { x with mode := .ready } else x
    { g with j := Tbl.del g.j j }
  else if m = 0 && !joinedOn.isEmpty then
    g.mapLanes fun _ x => if x.mode == .joined j then { x with mode := .ready } else x
  else g
def Group.release (g : Group) : Group := (List.range 8).foldl Group.release1 g
/-- Clear a lane's bit in every rejoin mask, as `exit` does. -/
def Group.clearJ (g : Group) (l : Nat) : Group :=
  { g with j := g.j.map fun (k, m) => (k, m &&& ~~~(BitVec.ofNat 32 (2 ^ l))) }

end Sys2Proof.Machine
end

