-- ==== Sys2Proof/Machine/Layers.lean ====
section
/-! DEFINITION. The Keeper's frames and leaves (R219, R323, R328), and model layers: topmarks, fetches, arrival, pins and
eviction (R336 to R348). -/
namespace Sys2Proof.Machine

/-! ### Frames -/
/-- The highest-numbered HBM4E frame, at or below `f`, that is not in use (log entry 13). -/
def freeBelow (used : List Nat) : Nat → Nat → Option Nat
  | 0, _ => none
  | n + 1, f => if used.contains f then (if f = 0 then none else freeBelow used n (f - 1)) else some f
/-- The highest 256 MiB-aligned run of 4,096 frames none of which is in use. -/
def freeRun (used : List Nat) : Nat → Nat → Option Nat
  | 0, _ => none
  | n + 1, b => if used.any fun u => u / 4096 == b then (if b = 0 then none else freeRun used n (b - 1)) else some (4096 * b)
/-- Take a free frame, or the first frame of a free 256 MiB run. -/
def State.takeFrame (s : State) (big : Bool) : Option (Nat × State) :=
  let u := s.keeper.usedFrames
  let r := if big then freeRun u (u.length + 1) (hbmFrames / 4096 - 1) else freeBelow u (u.length + 1) (hbmFrames - 1)
  r.map fun f => (f, { s with keeper := { s.keeper with
    usedFrames := (if big then (List.range 4096).map (f + ·) else [f]) ++ u } })
/-- Free frames. -/
def State.freeFrames (s : State) (fs : List Nat) : State :=
  { s with keeper := { s.keeper with usedFrames := s.keeper.usedFrames.filter fun f => !fs.contains f } }
/-- Fill a range of physical memory with zeros, sideband 0x7F (R59). -/
def Mem.zero (m : Mem) (a n : Nat) : Mem :=
  { bytes := m.bytes.filter fun (i, _) => !(a ≤ i && i < a + n),
    sectors := m.sectors.filter fun (k, _) => !(a ≤ 32 * k && 32 * k < a + n) }
/-- Frames a layer page or leaf of a frame names. -/
def framesOf (f : Nat) (big : Bool) : List Nat := if big then (List.range 4096).map (f + ·) else [f]

/-! ### Topmarks (R338, R340) -/
def State.setTopmark (s : State) (ctx layer v : Nat) : State :=
  match s.topmarkPa ctx layer with
  | some a => (s.touch none ctx true ((s.ctx ctx).tmbase.toNat + 8 * layer)).devWrite none (s.topmarkKey ctx layer) a (toBytesLE 8 v) false
  | none => s
def tmState (t : Nat) : Nat := t % 4
def tmPins (t : Nat) : Nat := bits t 31 16
def tmEpoch (t : Nat) : Nat := bits t 63 32
def tmWith (st pins epoch : Nat) : Nat := st + (pins % 65536) * 65536 + (epoch % 2 ^ 32) * 2 ^ 32
/-- Change a topmark's state; EPOCH counts the changes to RESIDENT (R340). -/
def State.tmSet (s : State) (ctx layer st : Nat) : State :=
  let t := s.topmark ctx layer
  s.setTopmark ctx layer (tmWith st (tmPins t) (if st = 2 then tmEpoch t + 1 else tmEpoch t))
/-- Change a topmark's pin count (R346). -/
def State.tmPinBy (s : State) (ctx layer : Nat) (up : Bool) : State :=
  let t := s.topmark ctx layer
  s.setTopmark ctx layer (tmWith (tmState t) (if up then tmPins t + 1 else tmPins t - 1) (tmEpoch t))
def Ctx.source (c : Ctx) (layer : Nat) : LayerSrc := Tbl.get c.sources layer ⟨layer, [], false, false, false, 0, false, none⟩

/-! ### Installing leaves -/
/-- Write a leaf into a context's tables, the Keeper adding the tables it needs (R219), or, without a leaf, add those tables; `none` where
no frame is free for one. -/
def State.mapAt (s : State) (va : Nat) (leaf : Option Nat) (big : Bool) : Nat → Nat → Option State
  | 0, _ => some s
  | lv + 1, table =>
    let entry := table + 8 * bits va (16 + 12 * lv + 11) (16 + 12 * lv)
    let x := s.phys64 entry
    if lv = 0 ∨ (big ∧ lv = 1) then
      some (match leaf with | some y => s.devWrite none 0 entry (toBytesLE 8 y) false | none => s)
    else if bitAt x 0 && !bitAt x 61 then s.mapAt va leaf big lv (bits x 60 15 * 32768)
    else match s.takeFrame false with
      | none => none
      | some (f, s) =>
        let s := { s with mem := s.mem.zero (65536 * f) 65536 }
        (s.devWrite none 0 entry (toBytesLE 8 (65536 * f + 1)) false).mapAt va leaf big lv (65536 * f)
/-- The tables that the page of an address needs, as `mapAt` adds them. -/
def State.mapTables (s : State) (ctx va : Nat) (big : Bool) : Option State := s.mapAt va none big 4 (s.ctx ctx).root
/-- A leaf can be installed: no table is missing for want of a frame. -/
def State.canInstall (s : State) (ctx va : Nat) (big : Bool) : Bool := (s.mapTables ctx va big).isSome
/-- The topmarks of a context whose page has just been mapped for the first time are zero, as they are at its creation (R338;
log entry 65). -/
def State.freshTopmarks (s : State) (ctx : Nat) : State :=
  let c := s.ctx ctx
  let now := c.tmFresh.filter fun l => (s.topmarkPa ctx l).isSome
  if now.isEmpty then s
  else now.foldl (fun s l => s.setTopmark ctx l 0) (s.setCtx ctx { c with tmFresh := c.tmFresh.filter fun l => !now.contains l })
/-- Install a leaf for the page of a virtual address and drop its cached translations (R227, R328). -/
def State.install (s : State) (ctx va leaf : Nat) (big : Bool) : State :=
  (((s.mapAt va (some leaf) big 4 (s.ctx ctx).root).getD s).tlbDrop (some ctx) (some va)).freshTopmarks ctx
/-- Replace the entry of an existing leaf. -/
def State.setLeaf (s : State) (ctx va : Nat) (f : Nat → Nat) : State :=
  match s.walk ctx va with
  | .leaf x _ entry => (s.devWrite none 0 entry (toBytesLE 8 (f x)) false).tlbDrop (some ctx) (some va)
  | _ => s
/-- Every valid leaf under a table: (leaf, 256 MiB page). -/
def State.leavesAt (s : State) : Nat → Nat → List (Nat × Bool)
  | 0, _ => []
  | lv + 1, table => (List.range 4096).flatMap fun i =>
    let x := s.phys64 (table + 8 * i)
    if !bitAt x 0 then []
    else if lv = 0 then [(x, false)]
    else if bitAt x 61 then (if lv = 1 then [(x, true)] else [])
    else s.leavesAt lv (bits x 60 15 * 32768)
def State.leaves (s : State) (ctx : Nat) : List (Nat × Bool) := s.leavesAt 4 (s.ctx ctx).root
/-- The frame of a leaf with its aperture class: apertures 0, 2, 3 and 4 name HBM frames alike. -/
def leafNames (x : Nat) (big : Bool) (apt frame : Nat) : Bool :=
  let cls (a : Nat) : Nat := if a = 1 ∨ a = 5 then a else 0
  cls (leafApt x) == cls apt && (if big then leafFrame x / 4096 == frame / 4096 else leafFrame x == frame)
/-- The hardware's limits on a leaf the Keeper installs in a user context (R323). -/
def State.leafAllowed (s : State) (ctx x : Nat) (big : Bool) : Bool :=
  let ls := (s.leaves ctx).filter fun (y, _) => !leafPrv y
  (framesOf (leafFrame x) big).all fun f =>
    let named := ls.filter fun (y, b) => leafNames y b (leafApt x) f
    let own := (s.ctx ctx).frames.contains (if leafApt x = 1 then vaultFrame0 + f else f) && leafApt x != 5
    (!named.isEmpty || own) && !leafPrv x &&
    (!leafWr x || named.any fun (y, _) => leafWr y) && (!leafEx x || named.any fun (y, _) => leafEx y) &&
    (named.any fun (y, _) => leafKey y == leafKey x)

/-! ### Fetching (R343) -/
/-- Frames for every page of a layer, in order. -/
def State.takeFrames (s : State) : List (Nat × Bool) → Option (List Nat × State)
  | [] => some ([], s)
  | (_, big) :: ps => match s.takeFrame big with
    | none => none
    | some (f, s) => (s.takeFrames ps).map fun (fs, s) => (f :: fs, s)
/-- The tables for every page of a layer. -/
def State.takeTables (s : State) (ctx : Nat) : List (Nat × Bool) → Option State
  | [] => some s
  | (va, big) :: ps => (s.mapTables ctx va big).bind fun s => s.takeTables ctx ps
/-- LAYER_FETCH_START: a request for a layer that is ABSENT or WITHDRAWN obtains frames for its pages and for the tables that its leaves
need, and sets ARRIVING; where no frame is free the fetch waits (R343, R347). -/
def State.requestLayer (s : State) (ctx layer : Nat) : State :=
  let st := tmState (s.topmark ctx layer)
  if st = 1 ∨ st = 2 then s
  else
    let c := s.ctx ctx
    match (s.takeFrames (c.source layer).pages).bind fun (fs, s) => (s.takeTables ctx (c.source layer).pages).map fun s => (fs, s) with
    | none => s.setCtx ctx { c with wanted := if c.wanted.contains layer then c.wanted else c.wanted ++ [layer] }
    | some (fs, s) =>
      (s.setCtx ctx { c with
        layerFrames := Tbl.put c.layerFrames layer fs, wanted := c.wanted.filter (· != layer), came := Tbl.del c.came layer }).tmSet ctx layer 1
/-- Try again the fetches that wait for frames. -/
def State.retryWanted (s : State) : State :=
  s.keeper.ctxs.foldl (fun s (c, x) => x.wanted.foldl (fun s l => s.requestLayer c l) s) s
/-- A lane is parked or stalled on a layer. -/
def Lane.wantsLayer (x : Lane) (ctx layer : Nat) : Bool := x.mode == .parked (.layer ctx layer) || x.mode == .stalled (.layer ctx layer)
/-- Lanes parked or waiting on a layer that is RESIDENT now, or fell back to ABSENT, re-execute (R341); what the service wrote comes before
what they then read, so that their cores' L1 goes (R328). -/
def State.wakeLayer (s : State) (ctx layer : Nat) : State :=
  let woken := (s.cores.filter fun k => k.2.groups.any fun g => g.2.lanes.any fun p => p.2.wantsLayer ctx layer).map (·.1)
  (woken.foldl State.l1DropAll s).mapGroups fun _ _ g => g.mapLanes fun _ x => if x.wantsLayer ctx layer then { x with mode := .ready } else x
/-- The leaf of a page of a layer (R343). -/
def layerLeaf (src : LayerSrc) (big : Bool) (frame : Nat) : Nat :=
  1 + 2 * bit01 src.rd + 4 * bit01 src.wr + 8 * bit01 src.ex + (src.key % 1024) * 2 ^ 12 + bit01 src.pin * 2 ^ 23 + 2 ^ 24 +
    frame * 2 ^ 25 + bit01 big * 2 ^ 61
/-- Place the bytes a layer's source brings: offsets run over the layer's pages in order. -/
def State.layerBytes (s : State) (ctx layer : Nat) (xs : List LayerBytes) : State :=
  let c := s.ctx ctx
  let src := c.source layer
  let pages := (src.pages.zip (Tbl.get c.layerFrames layer [])).map fun ((_, big), f) => (f * 65536, if big then 2 ^ 28 else 65536)
  let key := (s.keyId src.key).getD 0
  let place (off : Nat) : Option Nat :=
    (pages.foldl (fun (acc : Nat × Option Nat) (p : Nat × Nat) => match acc.2 with
      | some _ => acc
      | none => if off < acc.1 + p.2 then (acc.1, some (p.1 + (off - acc.1))) else (acc.1 + p.2, none)) (0, none)).2
  xs.foldl (fun s x =>
    let s := x.bytes.zipIdx.foldl (fun s (b, i) => match place (x.off + i) with
      | some a => s.devWrite none key a [b] false
      | none => s) s
    x.side.foldl (fun s (k, a, b) => match place (32 * k) with
      | some p => (s.devSetSlot p 0 a).devSetSlot p 1 b
      | none => s) s) s
/-- The frames a layer's fetch has obtained. -/
def Ctx.heldFrames (c : Ctx) (layer : Nat) : List Nat :=
  ((c.source layer).pages.zip (Tbl.get c.layerFrames layer [])).flatMap fun ((_, big), f) => framesOf f big
/-- What intervals, each a first place and a length, cover from 0 on without a gap. -/
def reach (xs : List (Nat × Nat)) : Nat :=
  (sortBy (fun a b => Nat.ble a.1 b.1) xs).foldl (fun r x => if x.1 ≤ r then max r (x.1 + x.2) else r) 0
/-- Bytes of a layer: those of its pages. -/
def srcSize (x : LayerSrc) : Nat := (x.pages.map fun p => if p.2 then 2 ^ 28 else 65536).sum
/-- Note what has come in of a layer, bytes and sideband (R340). -/
def Ctx.noteCame (c : Ctx) (layer : Nat) (xs : List LayerBytes) : Ctx :=
  let (a, b) := Tbl.get c.came layer ([], [])
  let bytes := a ++ xs.map fun x => (x.off, x.bytes.length)
  let side := b ++ xs.flatMap fun x => x.side.map fun y => (y.1, 1)
  { c with came := Tbl.put c.came layer (bytes, side) }
/-- Every byte and every sideband byte of a layer has come in (R340). -/
def Ctx.allCame (c : Ctx) (layer : Nat) : Bool :=
  let (a, b) := Tbl.get c.came layer ([], [])
  decide (srcSize (c.source layer) ≤ reach a) && decide (srcSize (c.source layer) ≤ 32 * reach b)
/-- A fetched layer is installed and becomes RESIDENT; its waiting lanes become ready (R340, R343). -/
def State.layerReady (s : State) (ctx layer : Nat) : State :=
  let c := s.ctx ctx
  let src := c.source layer
  let fs := Tbl.get c.layerFrames layer []
  let s := (src.pages.zip fs).foldl (fun s ((va, big), f) => s.install ctx va (layerLeaf src big f) big) s
  let c := s.ctx ctx
  let s := s.setCtx ctx { c with frames := c.heldFrames layer ++ c.frames }
  (s.tmSet ctx layer 2).wakeLayer ctx layer

end Sys2Proof.Machine
end

