-- ==== Sys2Proof/Machine/Sched.lean ====
section
/-! DEFINITION. Task records, registration, nodes and their groups, eligibility, fitting and placing teams, barriers, and the
abort of a grid (R143, R144, R159 to R162, R179, R180, R290 to R316, R320, R321, R337, R344). -/
namespace Sys2Proof.Machine

/-! ### Reads by the device's own agents, with their marks (R221) -/
def State.touchRange (s : State) (ctx : Nat) (write : Bool) (va n : Nat) : State :=
  if n = 0 then s else (s.touch none ctx write va).touch none ctx write (va + n - 1)
/-- `n` bytes as a number, and the state with the marks set. -/
def State.vget (s : State) (ctx va n : Nat) : Nat := ofBytesLE (s.vread ctx va n)
/-- Whether a range translates for an agent. -/
def State.vok (s : State) (ctx : Nat) (n : Need) (va len : Nat) : Bool := (s.rangeFault none ctx n va len).isNone

/-- A range that an agent of the device reads, where it may, with its marks (R221). -/
def State.readMark (s : State) (ctx : Nat) (n : Need) (va len : Nat) : State :=
  if (s.rangeFault none ctx n va len).isSome then s else s.touchRange ctx false va len

/-! ### Task records (R293, R294) -/
def recAlen (r : Nat) : Nat := bits r 11 0
def recCode (r : Nat) : Nat := bits r 63 12 * 4096
def recFrame (r : Nat) : Nat := bits r 127 64
def recInputs (r : Nat) : Nat := bits r 191 128
def recJoin (r : Nat) : Nat := bits r 207 192
def recPrio (r : Nat) : Nat := bits r 211 208
def recNgrp (r : Nat) : Nat := bits r 216 212 + 1
def recClw (r : Nat) : Nat := bits r 219 217
def recClh (r : Nat) : Nat := bits r 222 220
def recRes (r : Nat) : Bool := bitAt r 223
def recDet (r : Nat) : Bool := bitAt r 224
def recScrk (r : Nat) : Nat := bits r 232 225
def recNteam (r : Nat) : Nat := bits r 252 233
def recWatch (r : Nat) : Bool := bitAt r 254
def recKind (r : Nat) : Nat := bits r 255 255
/-- Cluster limits (R161). -/
def clusterOk (w h : Nat) : Bool := 1 ≤ w && w ≤ 6 && 1 ≤ h && h ≤ 4 && w * h ≤ 12
/-- A legal task record (R293). -/
def recLegal (r : Nat) : Bool :=
  clusterOk (recClw r) (recClh r) && 1 ≤ recNteam r && recNteam r % (recClw r * recClh r) == 0 &&
    recScrk r ≤ 128 && !bitAt r 253 && recKind r == 0
/-- One entry of a declared-input list: end, illegal, or an input (address, length, kind) (R294). -/
def inputEntry (x nlayer : Nat) : Option (Option (Nat × Nat × Nat)) :=
  let kind := bits x 97 96
  let addr := bits x 63 0
  let len := bits x 95 64
  if kind = 0 then some none
  else if bits x 127 98 != 0 then none
  else if kind = 1 then
    (if addr % 65536 = 0 && len != 0 && len % 65536 == 0 then some (some (addr, len, 1)) else none)
  else if kind = 2 then (if addr < 4096 && len == 0 && addr < nlayer then some (some (addr, 0, 2)) else none)
  else none
/-- Read a declared-input list: `none` for an illegal list (R294, R344). -/
def State.readInputs (s : State) (ctx : Nat) : Nat → Nat → Option (List (Nat × Nat × Nat))
  | 0, _ => none
  | n + 1, a =>
    match inputEntry (s.vget ctx a 16) (s.ctx ctx).nlayer with
    | none => none
    | some none => some []
    | some (some e) => if n = 0 then none else (s.readInputs ctx n (a + 16)).map (e :: ·)
/-- The declared inputs of a record. -/
def State.inputsOf (s : State) (ctx r : Nat) : Option (List (Nat × Nat × Nat)) :=
  if recInputs r = 0 then some [] else s.readInputs ctx 65 (recInputs r)
/-- The input-list page that does not translate, if any, as the list is read. -/
def State.inputsFault (s : State) (ctx : Nat) : Nat → Nat → Option (Xl × Nat)
  | 0, _ => none
  | n + 1, a => match s.rangeFault none ctx .load a 16 with
    | some f => some f
    | none => match inputEntry (s.vget ctx a 16) (s.ctx ctx).nlayer with
      | some (some _) => s.inputsFault ctx n (a + 16)
      | _ => none

/-- The marks of reading a declared-input list, and of reading a record with its list (R221). -/
def State.inputMarks (s : State) (ctx : Nat) : Nat → Nat → State
  | 0, _ => s
  | n + 1, a => match inputEntry (s.vget ctx a 16) (s.ctx ctx).nlayer with
    | some (some _) => (s.readMark ctx .load a 16).inputMarks ctx n (a + 16)
    | _ => s.readMark ctx .load a 16
def State.recordMarks (s : State) (ctx a : Nat) : State :=
  let p := recInputs (s.vget ctx a 32)
  let s := s.readMark ctx .load a 32
  if p = 0 || p % 16 ≠ 0 then s else s.inputMarks ctx 65 p

/-! ### Eligibility (R294, R296, R297) -/
/-- Whether a page is resident as a range input. -/
def State.pageResident (s : State) (ctx va : Nat) : Bool :=
  match s.walk ctx va with
  | .leaf x _ _ => (leafApt x ≤ 2 || leafApt x == 4) && leafRd x &&
      (!leafGated x || (match (s.ctx ctx).layerOf va with | some l => tmState (s.topmark ctx l) == 2 | none => false))
  | _ => false
def pagesOf (va len : Nat) : List Nat := (List.range (len / 65536)).map fun i => va + 65536 * i
def State.inputResident (s : State) (ctx : Nat) (e : Nat × Nat × Nat) : Bool :=
  if e.2.2 = 2 then tmState (s.topmark ctx e.1) == 2 else (pagesOf e.1 e.2.1).all (s.pageResident ctx ·)
def State.inputsResident (s : State) (g : Grid) : Bool := g.inputs.all (s.inputResident g.ctx ·)
/-- The page-class fault of a declared page that is not resident: a leaf of another aperture is APERTURE (R297). -/
def State.inputCause (s : State) (ctx va : Nat) : Option Cause :=
  match s.xlat none ctx .load va with
  | .fault c => some c
  | .arriving _ => none
  | .ok .. => some .aperture
/-- The Keeper is asked to bring in each input not resident (R297): layers are requested; a page whose class is in UPMASK
gives a record; a page of a layer that is not in has its layer requested (R341). -/
def State.askInputs (s : State) (g : Grid) : State :=
  g.inputs.foldl (fun s (a, len, kind) =>
    if kind = 2 then (if tmState (s.topmark g.ctx a) = 2 then s else s.requestLayer g.ctx a)
    else (pagesOf a len).foldl (fun s p =>
      if s.pageResident g.ctx p then s
      else match s.inputCause g.ctx p with
        | some c => match causeUpBit c, (s.ctx g.ctx).layerOf p with
          | some b, l => if (s.ctx g.ctx).upmask.getLsbD b then s.record { cause := c, src := 6, ctx := g.ctx, addr := BitVec.ofNat 64 p }
            else match c, l with | .layerWithdrawn, some l => s.requestLayer g.ctx l | _, _ => s
          | none, _ => s
        | none => s) s) s
/-- Carry a record through WAITING, INPUTS and READY (R296): `joined` says its JOIN word reads 0. -/
def State.advance (s : State) (gid : Nat) (joined : Bool) : State :=
  let g := s.grid gid
  let s := if g.st == .waiting && joined then (s.setGrid gid { g with st := .inputs }).askInputs g else s
  let g := s.grid gid
  if g.st == .inputs && s.inputsResident g then
    let s := s.setGrid gid { g with st := .ready, readyAt := s.lantern.nextReady }
    { s with lantern := { s.lantern with nextReady := s.lantern.nextReady + 1 } }
  else s

/-! ### Registration (R291, R295, R310) -/
/-- The argument block header (R160, R291). -/
def headerOf (g : Grid) : Nat :=
  g.nteam + g.ngrp * 2 ^ 32 + g.clw * 2 ^ 40 + g.clh * 2 ^ 48 + bit01 g.res * 2 ^ 56 + (4096 * g.scrk) * 2 ^ 64 + g.alen * 2 ^ 96
def State.writeHeader (s : State) (ctx : Nat) (args : DWord) (g : Grid) : State :=
  s.vwrite ctx args.toNat (toBytesLE 16 (headerOf g))
/-- Records and nodes in the work table (R308). -/
def State.workTable (s : State) : Nat := (s.lantern.grids.filter fun (_, g) => g.node.isNone).length +
  (s.lantern.nodes.filter fun (_, n) => n.st != 0).length
/-- A LAUNCH that waits for room in the table: its time-out counts from a moment at which the table is full (R292), so it begins anew once
an entry is freed. -/
def State.tableFreed (s : State) : State :=
  if 4096 ≤ s.workTable then s
  else { s with lantern := { s.lantern with queues := s.lantern.queues.mapV fun _ x => if x.pkt.started then x else { x with pkt := {} } } }
/-- The grid a record describes. -/
def recGrid (ctx : Nat) (addr : DWord) (r : Nat) (inputs : List (Nat × Nat × Nat)) (ceiling source : Nat) (parent : Option Nat)
    (args : DWord) (seed : DWord) : Grid :=
  { ctx := ctx, rec_ := addr, alen := recAlen r, code := BitVec.ofNat 64 (recCode r), fp := BitVec.ofNat 64 (recFrame r),
    inputs := inputs, prio := min (recPrio r) ceiling, ceiling := ceiling, ngrp := recNgrp r, clw := recClw r,
    clh := recClh r, res := recRes r, det := recDet r, scrk := recScrk r, nteam := recNteam r, args := args,
    source := source, parent := parent, seed := seed }
/-- Set or clear WATCH in the word at offset 24 of an object. -/
def State.setWatch (s : State) (ctx : Nat) (addr : DWord) (on : Bool) : State :=
  let a := addr.toNat + 24
  let w := s.vget ctx a 8
  let w' := if on then w ||| 2 ^ 62 else w - (if bitAt w 62 then 2 ^ 62 else 0)
  s.vwrite ctx a (toBytesLE 8 w')
/-- Register a record: WATCH is set, JOIN read, the header written (R291, R295, R308). -/
def State.registerGrid (s : State) (g : Grid) : Nat × State :=
  let gid := s.lantern.nextGrid
  let join := s.vget g.ctx (g.rec_.toNat + 24) 2
  let s := ((s.recordMarks g.ctx g.rec_.toNat).setWatch g.ctx g.rec_ true).writeHeader g.ctx g.args g
  let s := { s with lantern := { s.lantern with nextGrid := gid + 1, grids := Tbl.put s.lantern.grids gid g } }
  (gid, s.advance gid (join == 0))
/-- A legal node (R310): its 64 bytes, its RECORD's 32. -/
def nodeLegal (n r : Nat) : Bool :=
  bits n 253 224 == 0 && bitAt n 255 && bits n 511 354 == 0 && bits n 191 128 % 16 == 0 && bits n 127 64 % 16 == 0 &&
    (let k := bits n 223 208; k % 32 == 0 && 32 ≤ k && k ≤ 32768) &&
    recLegal r && recNteam r == 1 && recNgrp r == 1 && recClw r == 1 && recClh r == 1 && !recRes r
/-- The PUT, GET and NGL words and STATE of a node in memory. -/
def State.nodePut (s : State) (n : Node) : Nat := s.vget n.ctx (n.addr.toNat + 32) 4
def State.nodeGet (s : State) (n : Node) : Nat := s.vget n.ctx (n.addr.toNat + 36) 4
def State.nodeNgl (s : State) (n : Node) : Nat := s.vget n.ctx (n.addr.toNat + 40) 4
def State.nodeWrite (s : State) (n : Node) (off v : Nat) : State := s.vwrite n.ctx (n.addr.toNat + off) (toBytesLE 4 v)
def State.setNode (s : State) (k : Nat) (n : Node) : State :=
  { s with lantern := { s.lantern with nodes := Tbl.put s.lantern.nodes k n } }
def State.node (s : State) (k : Nat) : Node := Tbl.get s.lantern.nodes k {}
/-- The node registered at an address of a context. -/
def State.nodeAt (s : State) (ctx : Nat) (addr : DWord) : Option Nat :=
  (s.lantern.nodes.find? fun (_, n) => n.ctx == ctx && n.addr == addr && n.st != 0).map (·.1)
/-- The node registered at a place in memory, by whatever mapping it is named (R309, R311). -/
def State.nodeAtPa (s : State) (pa : Nat) : Option Nat :=
  (s.lantern.nodes.find? fun (_, n) => n.st != 0 && (s.pa none n.ctx .load n.addr.toNat).1 == pa).map (·.1)
/-- Records handed to groups of a node that are not yet placed: GET has not advanced over them (R312). -/
def State.nodeHeld (s : State) (k : Nat) : Nat :=
  (s.lantern.grids.filter fun (_, g) => g.node == some k && g.placed == 0).foldl (fun n (_, g) => n + g.recs.length) 0
/-- Start one group of a node with the `n` oldest unhanded records. -/
def State.nodeGroup (s : State) (k n : Nat) : State :=
  let x := s.node k
  let first := s.nodeGet x + s.nodeHeld k
  let recs := (List.range n).map fun i => BitVec.ofNat 64 (s.vget x.ctx (x.ring.toNat + 16 * ((first + i) % x.nring) + 8) 8)
  let gid := s.lantern.nextGrid
  let g := { x.tmpl with node := some k, recs := recs, parent := some x.parent, seed := (s.ctx x.ctx).seed, pkt := (s.grid x.parent).pkt, st := .waiting }
  let s := { s with lantern := { s.lantern with nextGrid := gid + 1, grids := Tbl.put s.lantern.grids gid g } }
  (s.nodeWrite x 40 (s.nodeNgl x + 1)).advance gid true
/-- NODE_GROUP_START: groups of 32 while that many are unhanded, and the remainder of a closed node (R312). -/
def State.nodeStart (s : State) (k : Nat) : Nat → State
  | 0 => s
  | fuel + 1 =>
    let x := s.node k
    let n := (s.nodePut x + 2 ^ 32 - s.nodeGet x) % 2 ^ 32 - s.nodeHeld k
    if x.st = 0 || x.dropped then s
    else if 32 ≤ n then (s.nodeGroup k 32).nodeStart k fuel
    else if x.st = 2 && 0 < n then s.nodeGroup k n
    else s
/-- An open node whose ring has a free slot (R311). -/
def State.nodeRoom (s : State) (k : Nat) : Bool :=
  let x := s.node k
  x.st == 1 && decide ((s.nodePut x + 2 ^ 32 - s.nodeGet x) % 2 ^ 32 < x.nring)
/-- Append a record to a node's ring and start the groups it completes (R311, R312). -/
def State.nodeEmit (s : State) (k : Nat) (payload : DWord) : State :=
  let x := s.node k
  let p := s.nodePut x
  let s := s.vwrite x.ctx (x.ring.toNat + 16 * (p % x.nring)) (toBytesLE 8 x.addr.toNat ++ toBytesLE 8 payload.toNat)
  (s.nodeWrite x 32 (p + 1)).nodeStart k 1025
/-- A closed node whose every record is handed out, or dropped, and whose groups have all retired is retired (R312, R321). -/
def State.nodeRetire (s : State) (k : Nat) : State :=
  let x := s.node k
  let busy := s.lantern.grids.any fun (_, g) => g.node == some k
  if x.st = 2 && !busy && (x.dropped || s.nodePut x == s.nodeGet x) then
    let s := (s.nodeWrite x 44 0).setWatch x.ctx x.addr false
    { s with lantern := { s.lantern with nodes := Tbl.del s.lantern.nodes k } }.tableFreed
  else s
/-- Close a node (R309, R315). -/
def State.nodeClose (s : State) (k : Nat) : State :=
  let x := s.node k
  if x.st = 1 then (((s.setNode k { x with st := 2 }).nodeWrite x 44 2).nodeStart k 1025).nodeRetire k else s
/-- Register a node (R310). -/
def State.registerNode (s : State) (ctx : Nat) (addr : DWord) (parent : Nat) : State :=
  let n := s.vget ctx addr.toNat 64
  let recA := BitVec.ofNat 64 (bits n 63 0)
  let r := s.vget ctx recA.toNat 32
  let p := s.grid parent
  let tmpl := recGrid ctx recA r ((s.inputsOf ctx r).getD []) p.ceiling p.source (some parent) (BitVec.ofNat 64 (bits n 127 64)) 0
  let k := s.lantern.nextGrid
  let x : Node :=
    { ctx := ctx, addr := addr, rec_ := recA, args := BitVec.ofNat 64 (bits n 127 64),
      ring := BitVec.ofNat 64 (bits n 191 128), nring := bits n 223 208, parent := parent, tmpl := tmpl, st := 1 }
  let s := (((s.readMark ctx .load addr.toNat 64).recordMarks ctx recA.toNat).setWatch ctx addr true).writeHeader ctx x.args { tmpl with nteam := 1, ngrp := 1 }
  let s := ({ s with lantern := { s.lantern with nextGrid := k + 1 } }.setNode k x).nodeWrite x 44 1
  if bits n 207 192 = 0 then s.nodeClose k else s

/-! ### Fitting and placing (R144, R299 to R301) -/
/-- Group slots in use on a core. -/
def State.usedSlots (s : State) (core : Nat) : List Nat := (s.core core).groups.keys
/-- A number from 32 on for a group that has given up its slot (R157). -/
def State.offSlot (s : State) (core : Nat) : Nat := (s.usedSlots core).foldl (fun m k => max m (k + 1)) 32
def State.freeSlots (s : State) (core : Nat) : List Nat := (List.range 32).filter fun k => !(s.usedSlots core).contains k
/-- The regions allotted on a core: (base, length). -/
def State.regions (s : State) (core : Nat) : List (Nat × Nat) :=
  (s.lantern.teams.filter fun (_, t) => t.core == core && 0 < t.scrLen && t.st != .waiting && t.st != .suspended).map fun (_, t) => (t.scrBase, t.scrLen)
/-- The lowest base of a run of `len` bytes free of some regions (R300). -/
def freeIn (rs : List (Nat × Nat)) (len : Nat) : Option Nat :=
  let ok (b : Nat) : Bool := b + len ≤ scrSize && rs.all fun (a, n) => b + len ≤ a || a + n ≤ b
  let cands := 0 :: rs.map fun (a, n) => a + n
  (cands.filter ok).foldl (fun (m : Option Nat) b => match m with | none => some b | some x => some (min x b)) none
def State.freeScr (s : State) (core len : Nat) : Option Nat := freeIn (s.regions core) len
/-- How many runs of `len` bytes lie free of some regions, up to a limit. -/
def runsIn (len : Nat) : Nat → List (Nat × Nat) → Nat
  | 0, _ => 0
  | n + 1, rs => match freeIn rs len with
    | some b => 1 + runsIn len n ((b, len) :: rs)
    | none => 0
/-- Whether a core is reserved for another grid than `gid` (R302). -/
def State.reservedFor (s : State) (core gid : Nat) : Bool :=
  s.lantern.reserved.any fun (_, r) => r.cores.contains core && r.grid != gid
/-- A team of the grid fits on a core (R300). -/
def State.fits (s : State) (gid core : Nat) : Bool :=
  let g := s.grid gid
  !(s.core core).failed && !s.reservedFor core gid && decide (g.ngrp ≤ (s.freeSlots core).length) && (s.freeScr core (4096 * g.scrk)).isSome
/-- The slot a team's group `i` takes among the free ones (R144): the lowest-numbered of its partition, and of any where that has none free
(DESIGN CHOICE, log entry 76). -/
def slotFor (free : List Nat) (i : Nat) : Nat :=
  match free.find? fun k => k / 8 == i % 4 with
  | some k => k
  | none => free.headD 0
def slotsFor : List Nat → Nat → Nat → List Nat
  | _, _, 0 => []
  | free, i, n + 1 => let k := slotFor free i; k :: slotsFor (free.erase k) (i + 1) n
/-- The cores of a die's rectangle with its north-west corner at a core (R161). -/
def rect (nw w h : Nat) : Option (List Nat) :=
  if colOf nw + w ≤ 6 && rowOf nw + h ≤ 4 then
    some ((List.range (w * h)).map fun m => nw + 6 * (m / w) + m % w)
  else none
/-- The first candidate of a die for one team or cluster (R300). -/
def State.candidate (s : State) (gid die : Nat) : Option (List Nat) :=
  let g := s.grid gid
  ((List.range 24).map fun i => 24 * die + i).findSome? fun c =>
    match rect c g.clw g.clh with
    | some cs => if cs.all (s.fits gid ·) then some cs else none
    | none => none
/-- A lane at team start (R159). -/
def startLane (g : Grid) : Lane := { pc := g.code }
/-- A group at team start: registers of R159, and the records of a node's group (R232). -/
def startGroup (g : Grid) (team idx i member : Nat) : Group :=
  { team := team, idx := i, lanes := (List.range 32).map fun l => (l, startLane g),
    g := [(0, g.args), (1, BitVec.ofNat 64 idx), (2, BitVec.ofNat 64 g.nteam), (3, g.fp), (4, BitVec.ofNat 64 member)],
    wqi := g.recs.zipIdx.map fun (r, l) => (l, ⟨r, false⟩) }
/-- Zero a scratchpad region (R209). -/
def State.zeroScr (s : State) (core base len : Nat) : State :=
  (s.setCore core { s.core core with scr := (s.core core).scr.zero base len }).noteWrite none
    ((sectorsOf base len).map fun j => secScr core (32 * j))
/-- The instruction cache of a core is emptied (R152). -/
def State.icDropAll (s : State) (core : Nat) : State := s.setCore core { s.core core with icache := [] }
/-- A grid's reservation is given up: it is placed, or aborted, or has retired (R302). -/
def State.dropReserved (s : State) (gid : Nat) : State :=
  { s with lantern := { s.lantern with reserved := s.lantern.reserved.keep fun _ r => r.grid != gid } }
/-- Place one team of a grid on a core: it starts as after a `fence.dev`, and fetches its code anew (R152, R313). -/
def State.placeTeam (s : State) (gid idx member core : Nat) (cluster : Option Nat) : State :=
  let g := s.grid gid
  let t := s.lantern.nextTeam
  let slots := slotsFor (s.freeSlots core) 0 g.ngrp
  let base := (s.freeScr core (4096 * g.scrk)).getD 0
  let s := s.setTeam t { grid := gid, idx := idx, core := core, slots := slots, scrBase := base, scrLen := 4096 * g.scrk,
                         member := member, cluster := cluster, prio := g.prio, placedAt := s.now, st := .resident }
  let s := ((s.zeroScr core base (4096 * g.scrk)).l1DropAll core).icDropAll core
  let s := slots.zipIdx.foldl (fun s (k, i) => s.setGroup core k (startGroup g t idx i member)) s
  { s with lantern := { s.lantern with nextTeam := t + 1 } }
/-- Place the next `cores.length` teams of a grid, one cluster or one team; a node's group advances GET (R312). -/
def State.placeNext (s : State) (gid : Nat) (cores : List Nat) : State :=
  let g := s.grid gid
  let inClu := decide (1 < g.clw * g.clh)
  let cl := if inClu then some s.lantern.nextTeam else none
  let s := cores.zipIdx.foldl (fun s (c, m) => s.placeTeam gid (g.placed + m) (if inClu then m else 0) c cl) s
  let placed := g.placed + cores.length
  let s := s.setGrid gid { g with placed := placed, st := if placed < g.nteam then .placing else .running }
  let s := s.setCtx g.ctx { s.ctx g.ctx with lastDisp := s.now }
  match g.node with
  | none => s
  | some k => s.nodeWrite (s.node k) 36 (s.nodeGet (s.node k) + g.recs.length)
/-! ### Gangs over the device (R301 to R303)
Rectangles of a die that share no place: `caps` tells for each of its 24 cores how many teams it has room for. -/
/-- Room for teams of a grid on a core. -/
def State.teamsFit (s : State) (gid core : Nat) : Nat :=
  let g := s.grid gid
  if (s.core core).failed || s.reservedFor core gid then 0
  else (fun n => if g.scrk = 0 then n else runsIn (4096 * g.scrk) n (s.regions core)) ((s.freeSlots core).length / g.ngrp)
/-- No more rectangles fit than there is room on the cores that stand at one place of the shape's pattern, since each covers just one of them. -/
def rectBound (caps : List Nat) (w h from_ : Nat) : Nat :=
  ((List.range h).flatMap fun a => (List.range w).map fun b =>
    (((List.range 24).filter fun i => from_ ≤ i && rowOf i % h == a && colOf i % w == b).map fun i => caps.getD i 0).sum).foldl min 1024
/-- `k` rectangles on a die, lowest corners first; several may stand on the same cores. -/
def packDie (w h : Nat) : Nat → List Nat → List Nat → Nat → Option (List (List Nat))
  | _, _, _, 0 => some []
  | 0, _, _, _ => none
  | _, _, [], _ => none
  | fuel + 1, caps, c :: cs, k + 1 =>
    if rectBound caps w h c < k + 1 then none
    else
      let here := match rect c w h with
        | some r => if r.all fun i => 0 < caps.getD i 0 then
            (packDie w h fuel (caps.zipIdx.map fun (n, i) => if r.contains i then n - 1 else n) (c :: cs) k).map (r :: ·) else none
        | none => none
      match here with
      | some x => some x
      | none => packDie w h fuel caps cs (k + 1)
/-- As many rectangles on a die as fit, up to `k`. -/
def packMost (w h : Nat) (caps : List Nat) : Nat → List (List Nat)
  | 0 => []
  | k + 1 => match packDie w h (k + 26) caps (List.range 24) (k + 1) with
    | some x => x
    | none => packMost w h caps k
/-- Cores for `n` gangs of one shape over the device, die by die. -/
def packAll (w h : Nat) (room : Nat → Nat) (n : Nat) : Option (List (List Nat)) :=
  let r := (List.range 9).foldl (fun (acc : Nat × List (List Nat)) d =>
    let caps := (List.range 24).map fun i => room (24 * d + i)
    let here := packMost w h caps (min acc.1 (rectBound caps w h 0))
    (acc.1 - here.length, acc.2 ++ here.map fun r => r.map (24 * d + ·))) (n, [])
  if r.1 = 0 then some r.2 else none
/-- The cores for every team of a resident grid, where all fit at once (R301). -/
def State.packs (s : State) (gid : Nat) : Option (List (List Nat)) :=
  let g := s.grid gid
  packAll g.clw g.clh (s.teamsFit gid ·) ((g.nteam - g.placed) / (g.clw * g.clh))
/-- Place all teams of a resident grid over the device at once (R301). -/
def State.placeAll (s : State) (gid : Nat) : Option State :=
  (s.packs gid).map fun rs => rs.foldl (fun s cs => s.placeNext gid cs) s
/-- The capacity of the device for a resident grid (R301); a die with a failed core counts the most rectangles that its other cores hold
side by side (log entry 75). -/
def State.capacity (s : State) (g : Grid) : Nat :=
  let t := min (32 / g.ngrp) (if g.scrk = 0 then 32 else 128 / g.scrk)
  let up (c : Nat) : Nat := if (s.core c).failed then 0 else 1
  if g.clw * g.clh = 1 then t * ((List.range 216).map up).sum
  else t * g.clw * g.clh * ((List.range 9).map fun d =>
    if (List.range 24).all fun i => up (24 * d + i) = 1 then (4 / g.clh) * (6 / g.clw)
    else (packMost g.clw g.clh ((List.range 24).map fun i => up (24 * d + i)) 24).length).sum

/-! ### Barriers (R179, R180) -/
/-- The teams of a team's cluster, itself alone outside one. -/
def State.clusterOf (s : State) (t : Nat) : List Nat :=
  match (s.team t).cluster with
  | none => [t]
  | some k => (s.lantern.teams.filter fun (_, x) => x.cluster == some k && x.st != .ended).map (·.1)
/-- Whether a group has arrived at the barrier. -/
def Group.arrived (g : Group) (atBar : LaneMode → Bool) : Bool := g.lanes.all fun (_, x) => x.mode == .exited || atBar x.mode
/-- BARRIER_RELEASE over a set of teams: when every group that has not ended has arrived, the stalled lanes become ready;
with `clu` each core drops its L1 data cache (R208). -/
def State.barrier (s : State) (teams : List Nat) (atBar : LaneMode → Bool) (clu : Bool) : State :=
  let gs := teams.flatMap fun t => s.groupsOf t
  let live := gs.filter fun (c, g) => !(s.group c g).ended
  if (live.all fun (c, g) => (s.group c g).arrived atBar) && live.any fun (c, g) => (s.group c g).lanes.any fun (_, x) => atBar x.mode then
    let s := live.foldl (fun s (c, g) => s.updGroup c g fun x => x.mapLanes fun _ y => if atBar y.mode then { y with mode := .ready } else y) s
    if clu then live.foldl (fun s (c, _) => s.l1DropAll c) s else s
  else s
/-- Evaluate the barriers a team takes part in. -/
def State.barriers (s : State) (t : Nat) : State :=
  match (s.team t).cluster with
  | none => s.barrier [t] (fun m => m == .stalled .bar || m == .stalled .barClu) false
  | some _ => (s.barrier [t] (fun m => m == .stalled .bar) false).barrier (s.clusterOf t) (fun m => m == .stalled .barClu) true

/-! ### Rejection and abort (R292, R321) -/
def State.queue (s : State) (q : Nat) : Queue := Tbl.get s.lantern.queues q {}
def State.setQueue (s : State) (q : Nat) (x : Queue) : State :=
  { s with lantern := { s.lantern with queues := Tbl.put s.lantern.queues q x } }
/-- The address of the packet a queue serves or serves next (R288). -/
def State.pktAddr (s : State) (q : Nat) : DWord :=
  let x := s.queue q
  let rp := if x.pkt.started then x.rptr - 1 else x.rptr
  x.base + BitVec.ofNat 64 (64 * (rp.toNat % max 1 x.nslot.toNat))
/-- PACKET_REJECTION: ERR, ECODE and EN, and the record for the Keeper (R292, R420); with `back` the packet in service is given up
and RPTR stays at it. -/
def State.rejectAt (s : State) (q code : Nat) (addr : DWord) (back : Bool) : State :=
  let x := s.queue q
  let x := { x with err := true, en := false, ecode := BitVec.ofNat 16 code }
  let s := s.setQueue q (if back then { x with rptr := if x.pkt.started then x.rptr - 1 else x.rptr, pkt := {} } else x)
  s.record { cause := .packetRejected, src := 6, ctx := x.ctx.toNat, addr := addr, detail := BitVec.ofNat 32 code }
/-- The packet a queue serves is rejected (R292). -/
def State.rejectQueue (s : State) (q code : Nat) : State := s.rejectAt q code (s.pktAddr q) true
/-- A lane whose state is discarded. -/
def Lane.discard (x : Lane) : Lane := { x with mode := .exited, region := [], h := false, frame := {}, ticket := none }
/-- Every lane of a group stops and its state is discarded. -/
def Group.discard (g : Group) : Group :=
  { g.mapLanes fun _ x => x.discard with txns := [], ld := 0, st := 0, spec := none, atJoint := none, j := [] }
/-- A suspended team has accepted work that goes on once it is restored (R278, R314, R321). -/
def Saved.works (v : Saved) : Bool :=
  v.engines.any (fun e => !e.2.ops.isEmpty) || v.groups.any fun g =>
    !g.2.tlOps.isEmpty || !g.2.batches.isEmpty || !g.2.openBatch.isEmpty || g.2.slots.any fun b => b.2.st != 0
/-- The grids and nodes below a grid, itself included, and their nodes. -/
def State.family (s : State) : Nat → List Nat → List Nat
  | 0, gs => gs
  | fuel + 1, gs =>
    let more := (s.lantern.grids.filter fun (k, g) => !gs.contains k && (match g.parent with | some p => gs.contains p | none => false)).map (·.1)
    if more.isEmpty then gs else s.family fuel (gs ++ more)
/-- GRID_ABORT (R321): a suspended team with accepted work is restored for it, without its lanes' state; each grid of the family is aborted and rejects the queue of its source, those below before those above. -/
def State.abortGrid (s : State) (gid : Nat) : State :=
  let gs := s.family s.lantern.grids.length [gid]
  let teamIn (t : Nat) : Bool := gs.contains (s.team t).grid
  let s' := s.mapGroups fun _ _ g => if teamIn g.team then g.discard else g
  let s' := { s' with
    lantern := { s'.lantern with
      teams := s'.lantern.teams.mapV fun _ t =>
        if !gs.contains t.grid then t
        else if t.st == TeamSt.suspended then if t.saved.any Saved.works then t else { t with st := .ended, saved := none, scrLen := 0 }
        else if t.st == TeamSt.halted then { t with st := .resident }
        else t,
      grids := s'.lantern.grids.mapV fun k g => if gs.contains k then { g with aborted := true } else g },
    keeper := { s'.keeper with
      parks := s'.keeper.parks.keep fun _ p => !teamIn p.team,
      kreqs := s'.keeper.kreqs.keep fun _ r => !teamIn r.team } }
  let s' := gs.foldl State.dropReserved s'
  let ns := (s'.lantern.nodes.filter fun (_, n) => gs.contains n.parent && n.st != 0).map (·.1)
  let s' := ns.foldl (fun s k =>
    let x := s.node k
    -- records not handed to a group are dropped, and GET, the records handed to groups, stays
    (s.setNode k { x with st := 2, dropped := true }).nodeWrite x 44 2) s'
  (gs.reverse.filter fun k => (Tbl.find s.lantern.grids k).isSome && !(s.grid k).aborted).foldl (fun y k =>
    let g := s.grid k
    y.rejectAt g.source 9 g.pkt ((y.queue g.source).pkt.grid == some k)) s'

/-! ### Traps of a lane (R318, R320) -/
/-- A lane takes a trap: it enters the handler, or, with H set or without a vector, a record is written and the grid
aborted.  A lane that has ended, as by the abort that another lane's double trap brought, takes none. -/
def State.takeTrap (s : State) (core grp lane : Nat) (c : Cause) (taddr : DWord) (slot : Nat) : State :=
  let x := s.lane core grp lane
  let ctx := s.ctxOf core grp
  let tv := (s.ctx ctx).tvec
  if x.mode == .exited then s
  else if x.h || tv == 0 then
    let r := { s.groupRec core grp c 0 taddr 0 with lanes := BitVec.ofNat 32 (2 ^ lane), fpc := x.pc }
    (s.record r).abortGrid ((s.teamOf core grp).grid)
  else s.setLane core grp lane (x.enterTrap tv c taddr x.pc slot)
/-- Lanes park on a page-class fault at one page, each with the address it used (R156, R323, R324): a record, whose ADDR is that of the
lowest-numbered lane, where the class is in UPMASK and the node is open. -/
def State.parkLanes (s : State) (core grp : Nat) (ls : List (Nat × DWord)) (c : Cause) (pc : DWord) : State :=
  let ctx := s.ctxOf core grp
  let up := match causeUpBit c with | some b => (s.ctx ctx).upmask.getLsbD b | none => false
  let k := s.keeper.nextPark
  let id := s.keeper.nextRec
  let lanes := laneSetOf (ls.map (·.1))
  let va := (ls.headD (0, 0)).2
  let upcall := up && s.fqOpen ctx
  let s := if upcall then
      s.record { s.groupRec core grp c 0 va 0 with park := true, lanes := lanes, fpc := pc }
    else s
  let s := s.updGroup core grp fun g => g.mapLanes fun l x => match ls.find? (·.1 == l) with
    | some p => { x with mode := .parked (.fault c p.2 (if upcall then some id else none)) }
    | none => x
  { s with keeper := { s.keeper with nextPark := k + 1, parks := Tbl.put s.keeper.parks k ⟨ctx, (s.group core grp).team, (s.group core grp).idx, if upcall then some id else none, lanes, c, va, false⟩ } }

end Sys2Proof.Machine
end

