-- ==== Sys2Proof/Machine/Moor.lean ====
section
/-! DEFINITION. Moorings at their home unit: the operations of R183, the phase turn, refused retirements, and the lanes that wait
(R182 to R187, R247, R420). -/
namespace Sys2Proof.Machine

/-! ### The object (R182) -/
/-- Identity of a mooring, by place: device memory even, scratchpad odd. -/
def Retire.id (m : Retire) : Nat := match m.core with | none => 2 * m.addr | some c => 2 * (c * scrSize + m.addr) + 1
def Retire.loc (m : Retire) : Loc := match m.core with | none => .dev m.addr m.key m.va 0 | some c => .scr c m.addr
/-- The mooring a location holds. -/
def Loc.moor (l : Loc) (va : DWord) (kind units : Nat) : Retire :=
  match l with
  | .dev pa key _ _ => { kind := kind, core := none, addr := pa, va := va, key := key, units := units }
  | .scr c off => { kind := kind, core := some c, addr := off, va := va, units := units }
/-- The 16 bytes of a mooring as its fields. -/
structure Mooring where
  phase : Bool
  wtr : Bool
  val : Bool
  expect : Nat
  pend : Nat
  units : Int
  deriving DecidableEq, Repr
def mooringOf (x : Nat) : Mooring := ⟨bitAt x 0, bitAt x 1, bitAt x 2, bits x 63 32, bits x 95 64, sgn 32 (bits x 127 96)⟩
def Mooring.word (m : Mooring) : Nat :=
  bit01 m.phase + 2 * bit01 m.wtr + 4 * bit01 m.val + m.expect * 2 ^ 32 + m.pend * 2 ^ 64 + wrapI 32 m.units * 2 ^ 96
def State.mooring (s : State) (r : Retire) : Mooring := mooringOf (ofBytesLE (s.locRead r.loc 16).1)
def State.setMooring (s : State) (who : Option (Nat × Nat)) (r : Retire) (m : Mooring) : State :=
  s.locWrite who r.loc (toBytesLE 16 m.word) false

/-! ### The operations (R183) -/
def inI32 (x : Int) : Bool := decide (-((2 ^ 31 : Nat) : Int) ≤ x) && decide (x < ((2 ^ 31 : Nat) : Int))
/-- `minit`, `marrive`, `mexpect` (kinds 0, 1, 2): `none` is MOORING_MISUSE. -/
def Mooring.op (m : Mooring) (kind b : Nat) : Option Mooring :=
  match kind with
  | 0 => if (m.val && m.wtr) || b = 0 then none else some ⟨false, m.wtr, true, b, b, 0⟩
  | 1 => if !m.val || m.pend = 0 || !inI32 (m.units + b) then none else some { m with units := m.units + b, pend := m.pend - 1 }
  | _ => if !m.val || !inI32 (m.units + b) then none else some { m with units := m.units + b }
/-- A retirement of one arrival (1) or of units (2): `none` is refused. -/
def Mooring.ret (m : Mooring) (kind units : Nat) : Option Mooring :=
  if !m.val then none
  else if kind = 1 then (if m.pend = 0 then none else some { m with pend := m.pend - 1 })
  else if !inI32 (m.units - units) then none else some { m with units := m.units - units }
/-- Whether ADV turns the phase. -/
def Mooring.turns (m : Mooring) : Bool := m.val && m.pend == 0 && m.units == 0
/-- The mooring after ADV. -/
def Mooring.adv (m : Mooring) : Mooring :=
  if m.turns then { m with phase := !m.phase, pend := m.expect, units := 0, wtr := false } else m
/-- A lane that waits on a mooring ends its wait when the phase differs from its token. -/
def Lane.waitsFor (id : Nat) (phase : Bool) (x : Lane) : Bool :=
  match x.mode with | .stalled (.mwait k t _) => k == id && t == !phase | _ => false
def Lane.endWait (id : Nat) (phase : Bool) (x : Lane) : Lane := if x.waitsFor id phase then { x with mode := .ready } else x
/-- A lane waits on a mooring, whatever its token. -/
def Lane.waitsOn (id : Nat) (x : Lane) : Bool := match x.mode with | .stalled (.mwait k _ _) => k == id | _ => false
/-- Every lane waiting on a mooring for its phase to become `phase` ends its wait, a suspended one too; the cores of lanes that acquire
at a scope wider than the team drop their L1 data cache (R185, R187, R208).  A scratch mooring of a suspended team is with its saved
state, wherever it stood. -/
def State.wake (s : State) (r : Retire) (phase : Bool) : State :=
  let acquires (x : Lane) : Bool := x.waitsFor r.id phase && (match x.mode with | .stalled (.mwait _ _ w) => w | _ => false)
  let drop := (s.cores.filter fun p => p.2.groups.any fun q => q.2.lanes.any fun x => acquires x.2).map (·.1)
  let s := s.mapGroups fun c _ g => if c = 216 && r.core.isSome then g else g.mapLanes fun _ x => x.endWait r.id phase
  drop.foldl (fun s c => s.l1DropAll c) s
/-- The mooring whose 16 bytes hold a location. -/
def Loc.block (l : Loc) : Retire :=
  match l with
  | .dev pa key va _ => { core := none, addr := pa / 16 * 16, key := key, va := va }
  | .scr c off => { core := some c, addr := off / 16 * 16 }
/-- A plain store or atomic over a mooring: the lanes that wait on it, those of suspended teams too, wait for the phase it now holds to
differ from their tokens (R182). -/
def State.rewait (s : State) (l : Loc) : State :=
  let r := l.block
  let waits (gs : Tbl Group) : Bool := gs.any fun q => q.2.lanes.any fun x => x.2.waitsOn r.id
  let any := s.cores.any (fun p => waits p.2.groups) ||
    r.core.isNone && s.lantern.teams.any fun p => match p.2.saved with | some v => waits v.groups | none => false
  if any then s.wake r (s.mooring r).phase else s
/-- Put a mooring's new fields, evaluate ADV and release the waiters when the phase turns. -/
def State.moorPut (s : State) (who : Option (Nat × Nat)) (r : Retire) (m : Mooring) : State :=
  let s := (s.setMooring who r m.adv).tick
  if m.turns then s.wake r m.adv.phase else s
/-- Fill a queue register's entry with what transaction `t` brings to a lane: the part of the value it awaits (R230). -/
def VEnt.fill (e : VEnt) (t : Nat) (f : Fill1) : VEnt :=
  match e.awaiting.find? fun x => x.1 == f.lane && x.2 / 4 == t with
  | some x =>
    { e with
      words := e.words.set f.lane (BitVec.ofNat 32 (f.v.toNat / 2 ^ (32 * (x.2 % 4)))), poison := e.poison || f.poison
      awaiting := e.awaiting.filter (· != x) }
  | none => e
/-- Fill what a rollback would restore. -/
def LaneSnap.fill (x : LaneSnap) (t v : Nat) (poison : Bool) (ea : DWord) : LaneSnap :=
  let y := ({ regs := x.regs, queue := x.queue } : Lane).fill t v poison ea
  { x with regs := y.regs, queue := y.queue }
/-- One value reaches its lane. -/
def Group.fill1 (g : Group) (t : Nat) (f : Fill1) (bad : Bool) : Group :=
  let p := f.poison || bad
  let g := match Tbl.find g.lanes f.lane with
    | some x => g.setLane f.lane (x.fill t f.v.toNat p f.ea)
    | none => g
  { g with
    mqa := g.mqa.map fun e => e.fill t { f with poison := p }
    mqb := g.mqb.map fun e => e.fill t { f with poison := p }
    spec := g.spec.map fun sp => { sp with snap := sp.snap.mapV fun l x => if l = f.lane then x.fill t f.v.toNat p f.ea else x } }
/-- A group stands at a place. -/
def State.hasGroup (s : State) (core grp : Nat) : Bool := (Tbl.find (s.core core).groups grp).isSome
/-- A posted operation is performed: its token fills, or its misuse is kept for the lane's next chain (R183, R186; log entry 15). -/
def State.performPosted (s : State) (k : Nat) (p : Posted) : State :=
  let s := { s with posted := Tbl.del s.posted k }
  let m := s.mooring p.moor
  match m.op p.kind p.units.toNat with
  | some m' =>
    let s := s.moorPut none p.moor m'
    if p.kind = 1 && s.hasGroup p.core p.grp then
      s.updGroup p.core p.grp fun g => g.fill1 p.txn ⟨p.lane, BitVec.ofNat 128 (bit01 m.phase), 32, false, 0⟩ false
    else s
  | none =>
    if s.hasGroup p.core p.grp then
      s.updLane p.core p.grp p.lane fun x => { x with pend := some (.mooringMisuse, p.moor.va) }
    else s
/-- Everything posted on a mooring is performed, in the order in which it was issued: what comes later to the mooring takes its turn after
it (R183; log entry 15). -/
def State.arrive (s : State) (r : Retire) : State :=
  (s.posted.filter fun q => q.2.moor.id == r.id).foldl (fun s q => s.performPosted q.1 q.2) s
/-- An engine's retirement on a mooring for work of a group; a refused one writes a record (R183, R420). -/
def State.retire (s : State) (core grp : Nat) (r : Retire) : State :=
  if r.kind = 0 then s
  else
    let s := s.arrive r
    match (s.mooring r).ret r.kind r.units with
    | some m => s.moorPut none r m
    | none => (s.record (s.groupRec core grp .mooringMisuse 5 r.va 0)).tick
/-- A mooring operation that the lane issued before transaction `t` has still to be performed (R248). -/
def State.postedBefore (s : State) (core grp lane t : Nat) : Bool :=
  s.posted.any fun p => p.2.core == core && p.2.grp == grp && p.2.lane == lane && p.2.txn < t
/-- Set WTR as a lane begins to wait (R185). -/
def State.moorWait (s : State) (who : Option (Nat × Nat)) (r : Retire) : State :=
  s.setMooring who r { s.mooring r with wtr := true }
/-- The mooring as it will stand once the posted operations ahead on it have been performed (R186). -/
def State.mooringAhead (s : State) (r : Retire) : Mooring :=
  s.posted.foldl (fun m p => if p.2.moor.id = r.id then (match m.op p.2.kind p.2.units.toNat with | some x => x.adv | none => m) else m) (s.mooring r)

/-! ### Posted decrements (R309) -/
/-- The Lantern hears that an object's counter is 0 (R296, R309). -/
def State.joinZero (s : State) (pa : Nat) : State :=
  match s.lantern.grids.find? fun p => p.2.node.isNone && p.2.st == .waiting && (s.pa none p.2.ctx .load (p.2.rec_.toNat + 24)).1 == pa with
  | some (k, _) => s.advance k true
  | none =>
    match s.lantern.nodes.find? fun p => p.2.st == 1 && (s.pa none p.2.ctx .load (p.2.addr.toNat + 24)).1 == pa with
    | some (k, _) => s.nodeClose k
    | none => s
/-- JDEC_AT_HOME. -/
def State.jdecHome (s : State) (k : Nat) : State :=
  match s.lantern.jdecs[k]? with
  | none => s
  | some p =>
    let s := { s with lantern := { s.lantern with jdecs := s.lantern.jdecs.eraseIdx k } }
    let w := ofBytesLE (s.devRead p.key p.addr 8).1
    if w % 65536 = 0 then
      s.record { cause := .countUnderflow, src := 9, ctx := p.ctx, core := p.core, gslot := p.gslot, team := p.team, addr := p.va }
    else
      let s := s.devWrite none p.key p.addr (toBytesLE 2 (w % 65536 - 1)) false
      if w % 65536 = 1 ∧ bitAt w 62 then s.joinZero p.addr else s

/-! ### Accesses through a translation that goes (R227, R348) -/
/-- What an outstanding plain load of a lane has read stands: a synchronising instruction of the lane follows, or an access that is ordered
after it, or its translation goes (R129, R132, R197, R227). -/
def Txn.settle (p : Late → Bool) (t : Txn) : Txn := { t with late := t.late.filter fun y => !p y }
def Group.settleLoads (g : Group) (p : Late → Bool) : Group := { g with txns := g.txns.map (Txn.settle p) }
/-- The posted operations and decrements that `pick` names, by context and physical address, are performed, and the outstanding loads of
those places have read them: no access of theirs is left to be made through an old translation (R227, R348). -/
def State.settleUses (s : State) (pick : Nat → Nat → Bool) : State :=
  let s := (s.posted.filter fun q => q.2.moor.core.isNone && pick (s.ctxOf q.2.core q.2.grp) q.2.moor.addr).foldl (fun s q => s.arrive q.2.moor) s
  let s := (List.range s.lantern.jdecs.length).foldl (fun s _ =>
    match s.lantern.jdecs.findIdx? fun p => pick p.ctx p.addr with
    | some k => s.jdecHome k
    | none => s) s
  s.mapGroups fun _ _ g => g.settleLoads fun y => match y.loc with
    | .dev pa _ _ _ => pick (s.grid (s.team g.team).grid).ctx pa
    | .scr .. => false

end Sys2Proof.Machine
end

