-- ==== Sys2Proof/Machine/Tender.lean ====
section
/-! DEFINITION. The tenders: per-lane copies and sealed batches, tiles, relays and gathers, from the checks at issue to
completion, and the tl counter (R235 to R254). -/
namespace Sys2Proof.Machine

/-! ### The tl counter (R247) and the mq queues (R228, R229) -/
/-- Count out the completed operations at the head, in issue order. -/
def Group.countOut (g : Group) : Group :=
  let rest := g.tlOps.dropWhile (·.done)
  { g with tlOps := rest, tl := rest.length }
/-- Change the named operation. -/
def Group.updTl (g : Group) (id : Nat) (f : TlOp → TlOp) : Group :=
  { g with tlOps := g.tlOps.map fun (o : TlOp) => if o.id = id then f o else o }
/-- Mark an operation complete, and count out. -/
def Group.tlDone (g : Group) (id : Nat) : Group := (g.updTl id fun o => { o with done := true }).countOut
def Group.tlAdd (g : Group) (o : TlOp) : Group := { g with tlOps := g.tlOps ++ [o], tl := g.tlOps.length + 1 }
/-- A place held for a tender operation's entry, not yet delivered: awaiting "lane" 32. -/
def VEnt.held (e : VEnt) : Bool := e.awaiting.any (·.1 == 32)
/-- Held places of an operation among the sixteen of the queue register (R228, R246). -/
def heldIn (id : Nat) (q : List VEnt) : Nat := ((q.take 16).filter fun e => e.awaiting.contains (32, id)).length
def noShadow : List Shadow := List.replicate 4 {}
/-- An entry whose 32 words are given. -/
def ventOf (ws : List Nat) (sh : List Shadow) (poison : Bool) : VEnt :=
  ⟨(List.range 32).map fun l => BitVec.ofNat 32 (ws.getD l 0), sh, poison, []⟩
def Group.mq (g : Group) (k : Nat) : List VEnt := if k = 0 then g.mqa else g.mqb
def Group.setMq (g : Group) (k : Nat) (q : List VEnt) : Group := if k = 0 then { g with mqa := q } else { g with mqb := q }
/-- The engine of a group: whole, or the quarter-engine of its partition (R257). -/
def State.partOf (s : State) (core grp : Nat) : Nat := if (s.core core).partitioned then ((s.group core grp).home.getD grp) / 8 else 0
def State.engine (s : State) (core part : Nat) : Engine := Tbl.get (s.core core).engines part {}
def State.setEngine (s : State) (core part : Nat) (e : Engine) : State :=
  s.setCore core { s.core core with engines := Tbl.put (s.core core).engines part e }
/-- The group's team holds the matrix reservation (R229, R255). -/
def State.holds (s : State) (core grp : Nat) : Bool := (s.engine core (s.partOf core grp)).holder == some (s.group core grp).team

/-! ### Amax cells (R141, R331) -/
/-- The value of a cell as a context sees it: +0 to one that is not its owner. -/
def State.cell (s : State) (core k ctx : Nat) : Word :=
  let c := Tbl.get (s.core core).amax k {}
  if c.owner = some ctx then c.v else 0
def State.setCell (s : State) (core k ctx : Nat) (v : Word) : State :=
  s.setCore core { s.core core with amax := Tbl.put (s.core core).amax k ⟨v, some ctx⟩ }
def State.cellMax (s : State) (core k ctx : Nat) (xs : List Nat) : State :=
  s.setCell core k ctx (BitVec.ofNat 32 (xs.foldl (maxA f32) (s.cell core k ctx).toNat))

/-! ### Reads under the translations fixed at issue -/
/-- The page's physical address and key. -/
def opPa (pages : Tbl (Nat × Nat)) (va : Nat) : Nat × Nat :=
  let p := Tbl.get pages (va / 65536) (0, 0)
  (p.1 + va % 65536, p.2)
/-- A byte that an engine reads, which may be what stood before a store on its way (log entry 20). -/
def State.opByte (s : State) (pages : Tbl (Nat × Nat)) (va : Nat) : Nat :=
  let p := opPa pages (va % 2 ^ 64); ((s.behind 216 none p.2 p.1).getD (s.mem.getKey p.2 p.1)).toNat
def State.opSlot (s : State) (pages : Tbl (Nat × Nat)) (va k : Nat) : Nat := (s.devSlot (opPa pages (va % 2 ^ 64)).1 k).toNat
def State.opPoison (s : State) (pages : Tbl (Nat × Nat)) (va : Nat) : Bool := s.mem.poisoned (opPa pages (va % 2 ^ 64)).1 1
/-- Translate sectors at issue: the pages, or how the issuing lanes end (R236 step 5). -/
def State.fixPages (s : State) (core grp : Nat) : List Nat → Tbl (Nat × Nat) → Except LaneOut (Tbl (Nat × Nat))
  | [], ps => .ok ps
  | va :: vs, ps =>
    match Tbl.find ps (va / 65536) with
    | some _ => s.fixPages core grp vs ps
    | none => match s.xlat (some core) (s.ctxOf core grp) .load va with
      | .ok pa key _ _ _ _ _ => s.fixPages core grp vs (Tbl.put ps (va / 65536) (pa - va % 65536, key))
      | .fault c => .error (.park c (BitVec.ofNat 64 va))
      | .arriving l => .error (.parkLayer l)
/-- A scratch offset a command names, in the order form, alignment, bound; with `own` a PEER address of another member is
still admitted where R122 admits it (R236 step 2). -/
def State.cmdOffset (s : State) (core grp a align n : Nat) : Except LaneOut Loc :=
  match s.checkScratch core grp a align n with
  | .error (.stall (.chunk ..)) | .error (.park ..) | .error (.parkLayer _) =>
    -- unfilled chunks come last, at step 5: the place is known
    (let t := s.team (s.group core grp).team
     let p := if bitAt a 28 then (s.peerTeam t (bits a 27 24)).getD 0 else (s.group core grp).team
     .ok (.scr (s.team p).core ((s.team p).scrBase + bits a 18 0)))
  | r => r
def Loc.place : Loc → Nat × Nat
  | .scr c o => (c, o)
  | .dev pa _ _ _ => (0, pa)
/-- The chunks a destination or source range of a scratch place touches must be filled (R211, R236 step 5). -/
def State.chunksOk (s : State) (core grp : Nat) (p : Nat × Nat) (n : Nat) : Except LaneOut Unit :=
  match s.teamAt p.1 p.2 with
  | none => .ok ()
  | some t =>
    match ((List.range (n / 4096 + 2)).map fun i => min (p.2 + 4096 * i) (p.2 + n - 1)).findSome? fun a =>
      s.chunkCheck (some core) t (a - (s.team t).scrBase) 1 with
    | some o => .error o
    | none => let _ := grp; .ok ()

/-! ### `cpy` and `seal` (R238 to R240) -/
def State.planCpy (s : State) (core grp size a b : Nat) : Except LaneOut CopyItem := do
  let l ← s.cmdOffset core grp (a % 2 ^ 32) size size
  if b % size ≠ 0 then .error (.trap .misaligned (BitVec.ofNat 64 b))
  let src ← s.checkGlobal core grp .load b size
  s.chunksOk core grp l.place size
  match src with
  | .dev pa key _ _ => .ok ⟨l.place.1, l.place.2, pa, key, size, false, false, 0⟩
  | .scr .. => .ok ⟨l.place.1, l.place.2, 0, 0, size, false, false, 0⟩
/-- Mark the copies of one instruction that together move a whole aligned sector onto a whole aligned sector (R238). -/
def markWhole (xs : List CopyItem) : List CopyItem :=
  xs.map fun x =>
    let sec := x.src / 32
    let same := xs.filter fun y => y.src / 32 == sec && y.dcore == x.dcore && y.daddr + 32 * sec == y.src + (x.daddr + 32 * sec - x.src)
    let whole := (x.daddr + 32 * sec - x.src) % 32 == 0 &&
      (List.range 32).all fun i => same.any fun y => y.src ≤ 32 * sec + i && 32 * sec + i < y.src + y.size
    { x with whole := whole }
/-- Perform one copy (R237, R238). -/
def State.copy1 (s : State) (x : CopyItem) : State :=
  if x.done then s else
  let (bs, poison) := s.devRead x.key x.src x.size
  let s' := s.scrWrite none x.dcore x.daddr (s.seen 216 none x.key x.src bs) poison
  if x.whole then
    let s' := (s'.scrSetSlot x.dcore x.daddr 0 (s.devSlot x.src 0)).scrSetSlot x.dcore x.daddr 1 (s.devSlot x.src 1)
    let k := s'.core x.dcore
    s'.setCore x.dcore { k with scr := k.scr.setSector x.daddr { k.scr.sector x.daddr with poison := poison } }
  else s'
/-- Seal the open batch (R239). -/
def Group.seal (g : Group) (act : Retire) (lane txn : Nat) : Group :=
  { g with batches := g.batches ++ [⟨(g.batches.map (·.id)).foldl max 0 + 1, g.openBatch, act, lane, txn⟩], cp := g.cp + 1, openBatch := [] }
/-- The last lane of a group has exited: its open batch is sealed with no action, as soon as the cp counter allows. -/
def Group.sealAtExit (g : Group) : Group :=
  if g.openBatch.isEmpty || 7 ≤ g.batches.length || g.lanes.any (fun p => p.2.mode != .exited) then g else g.seal {} 0 0
/-- The oldest sealed batch completes (R240), once the mooring operations its lane issued before it are performed (R248). -/
def State.batchDone (s : State) (core grp : Nat) : State :=
  match (s.group core grp).batches with
  | [] => s
  | b :: rest =>
    if s.postedBefore core grp b.lane b.txn then s else
    let s := b.items.foldl State.copy1 s
    let s := s.updGroup core grp fun g => ({ g with batches := rest, cp := g.cp - 1 }).sealAtExit
    s.retire core grp { b.act with units := if b.act.kind = 2 then (b.items.map (·.size)).sum else 0 }

/-! ### Tile descriptors (R241 to R243) -/
/-- The fields of a tile command: the descriptor's 256 bits and the origin. -/
structure TileD where
  d : Nat
  row0 : Nat
  col0 : Nat
  deriving DecidableEq, Repr
def TileD.gaddr (t : TileD) : Nat := bits t.d 63 0
def TileD.lay (t : TileD) : Nat := bits t.d 127 64
def TileD.dest (t : TileD) : Nat := bits t.d 159 128
def TileD.moor (t : TileD) : Nat := bits t.d 191 160
def TileD.dkind (t : TileD) : Nat := bits t.d 193 192
def TileD.mk' (t : TileD) : Nat := bits t.d 195 194
def TileD.dstr (t : TileD) : Nat := bits t.d 223 208
def TileD.sfmt (t : TileD) : Nat := bits t.lay 3 0
def TileD.tfmt (t : TileD) : Nat := bits t.lay 7 4
def TileD.lrow (t : TileD) : Nat := bits t.lay 10 8
def TileD.lcol (t : TileD) : Nat := bits t.lay 13 11
def TileD.z (t : TileD) : Bool := bitAt t.lay 14
def TileD.tr (t : TileD) : Bool := bitAt t.lay 15
def TileD.esc (t : TileD) : Bool := bitAt t.lay 16
def TileD.rnd (t : TileD) : Nat := bits t.lay 19 17
def TileD.pol (t : TileD) : Nat := bits t.lay 21 20
def TileD.amc (t : TileD) : Nat := bits t.lay 25 22
def TileD.amxe (t : TileD) : Bool := bitAt t.lay 26
def TileD.rstr (t : TileD) : Nat := bits t.lay 39 27
def TileD.vrow (t : TileD) : Nat := bits t.lay 51 40
def TileD.vcol (t : TileD) : Nat := bits t.lay 63 52
/-- Window rows and columns, output rows and row length. -/
def TileD.rows (t : TileD) : Nat := 2 ^ t.lrow
def TileD.cols (t : TileD) : Nat := 2 ^ t.lcol
def TileD.outRows (t : TileD) : Nat := if t.tr then t.cols else t.rows
def TileD.outLen (t : TileD) : Nat := if t.tr then t.rows else t.cols
def TileD.rawLc2 (t : TileD) : Bool := t.sfmt == 6 && t.tfmt == 6
def TileD.rawEsc (t : TileD) : Bool := t.sfmt == 4 && t.tfmt == 4 && t.esc && !t.tr && !t.z && (t.dkind == 0 || t.dkind == 2)
def TileD.raw (t : TileD) : Bool := t.rawLc2 || t.rawEsc
/-- Sectors of one output row of a raw passage, and elements a sector holds. -/
def TileD.rawSecs (t : TileD) : Nat := if t.rawLc2 then ceilDiv t.cols 96 else t.cols / 32
def TileD.rawPer (t : TileD) : Nat := if t.rawLc2 then 96 else 32
/-- Bytes of one output row in the target's memory layout. -/
def TileD.rowBytes (t : TileD) : Nat :=
  if t.raw then 32 * t.rawSecs
  else if t.tfmt = 7 then 4 * t.outLen
  else if t.tfmt = 8 then 2 * t.outLen
  else if t.tfmt = 4 then t.outLen / 2
  else if t.tfmt = 2 ∨ t.tfmt = 3 then t.outLen / 32 * 24
  else t.outLen
/-- Bytes a destination row must cover: whole sectors or 6-bit groups for block targets (R243). -/
def TileD.rowCover (t : TileD) : Nat :=
  if t.tfmt = 7 ∨ t.tfmt = 8 then t.rowBytes
  else if t.tfmt = 2 ∨ t.tfmt = 3 then ceilDiv t.outLen 128 * 96
  else ceilDiv t.rowBytes 32 * 32
/-- The legality of R243. -/
def TileD.legal (t : TileD) : Bool :=
  t.sfmt ≤ 8 && t.tfmt ≤ 8 && (t.sfmt != 6 || t.tfmt == 6) && (t.tfmt != 6 || t.raw) &&
  (!t.raw || (!t.tr && !t.z && !t.amxe && t.row0 + t.rows ≤ t.vrow && t.col0 + t.rawPer * t.rawSecs ≤ t.vcol)) &&
  (!t.rawLc2 || t.col0 % 96 == 0) && (!t.esc || t.sfmt == 4) &&
  (t.dkind != 1 || t.tfmt ≤ 5) && (t.dkind != 2 || t.tfmt ≤ 6) && t.dkind ≤ 2 && t.lrow ≤ 5 && t.lcol ≤ 7 &&
  (!(t.sfmt ≤ 6 && !t.z) || (t.col0 % 32 == 0 && 5 ≤ t.lcol)) && (!(t.sfmt == 2 || t.sfmt == 3) || t.rstr % 3 == 0) &&
  (!(t.tfmt ≤ 6) || (if t.tr then 5 ≤ t.lrow else 5 ≤ t.lcol)) &&
  (!t.z || ((t.sfmt ≤ 1 || t.sfmt == 5 || t.sfmt == 7 || t.sfmt == 8) && t.lrow == 5 && t.lcol == 5 && t.row0 % 32 == 0 && t.col0 % 32 == 0)) &&
  (t.dkind != 0 || t.rowCover ≤ 32 * t.dstr) && t.rnd != 5 && t.rnd != 6 && t.pol ≤ 2 && t.mk' ≤ 2 && 1 ≤ t.rstr &&
  bits t.d 207 196 == 0 && bits t.d 255 224 == 0

/-! ### Source elements (R244, R245) -/
/-- The source element of output element (i, j). -/
def TileD.src (t : TileD) (i j : Nat) : Nat × Nat := if t.tr then (t.row0 + j, t.col0 + i) else (t.row0 + i, t.col0 + j)
def TileD.present (t : TileD) (rc : Nat × Nat) : Bool := rc.1 < t.vrow && rc.2 < t.vcol
/-- Bytes per element in Z-order. -/
def zBytes (fmt : Nat) : Nat := if fmt = 7 then 4 else if fmt = 8 then 2 else 1
/-- Storage position within a 32×32 tile (R244). -/
def zPos (r c : Nat) : Nat :=
  let b (x i : Nat) : Nat := bit01 (bitAt x i)
  16 * (b c 2 + 2 * b r 2 + 4 * b c 3 + 8 * b r 3 + 16 * b c 4 + 32 * b r 4) + 4 * (r % 4) + c % 4
/-- Address of the element's byte group: of its sector (8-bit, `e2m1`, escape), 24-byte block (6-bit) or bytes. -/
def TileD.elemVa (t : TileD) (rc : Nat × Nat) : Nat :=
  let (r, c) := rc
  if t.z then
    (t.gaddr + 1024 * t.rstr * (r / 32) + 1024 * zBytes t.sfmt * (c / 32) + zBytes t.sfmt * zPos (r % 32) (c % 32)) % 2 ^ 64
  else
    let row := t.gaddr + 32 * t.rstr * r
    (match t.sfmt with
    | 7 => row + 4 * c
    | 8 => row + 2 * c
    | 4 => if t.esc then row + 32 * (c / 32) + c % 32 / 2 else row + 16 * (c / 32) + c % 32 / 2
    | 2 | 3 => row + 96 * (c / 128) + 24 * (c / 32 % 4) + 6 * (c % 32) / 8
    | _ => row + c) % 2 ^ 64
/-- The sector and slot of the element's scale. -/
def TileD.scaleAt (t : TileD) (rc : Nat × Nat) : Nat × Nat :=
  let va := t.elemVa rc
  let c := rc.2
  match t.sfmt with
  | 4 => if t.esc then (va / 32 * 32, 0) else (va / 32 * 32, c / 32 % 2)
  | 2 | 3 => ((t.gaddr + 32 * t.rstr * rc.1 + 96 * (c / 128) + 32 * (c / 32 % 4 / 2)) % 2 ^ 64, c / 32 % 2)
  | _ => (va / 32 * 32, 0)
/-- Sectors an element's read touches. -/
def TileD.elemSecs (t : TileD) (rc : Nat × Nat) : List Nat :=
  let va := t.elemVa rc
  if t.sfmt = 2 ∨ t.sfmt = 3 then
    [va / 32 * 32, ((t.gaddr + 32 * t.rstr * rc.1 + 96 * (rc.2 / 128) + 24 * (rc.2 / 32 % 4) + (6 * (rc.2 % 32) + 5) / 8) % 2 ^ 64) / 32 * 32,
     (t.scaleAt rc).1]
  else [va / 32 * 32]
/-- The stored code of an element of a block format. -/
def State.elemCode (s : State) (ps : Tbl (Nat × Nat)) (t : TileD) (rc : Nat × Nat) : Nat :=
  let va := t.elemVa rc
  match t.sfmt with
  | 4 => bits (s.opByte ps va) (4 * (rc.2 % 2) + 3) (4 * (rc.2 % 2))
  | 2 | 3 =>
    let o := 6 * (rc.2 % 32) % 8
    bits (s.opByte ps va + 256 * (if o ≤ 2 then 0 else s.opByte ps (va + 1))) (o + 5) o
  | _ => s.opByte ps va
/-- The exact value of a present element, and whether it came from a poisoned sector (R245). -/
def State.elemVal (s : State) (ps : Tbl (Nat × Nat)) (t : TileD) (rc : Nat × Nat) : Val × Bool :=
  let va := t.elemVa rc
  let poison := (t.elemSecs rc).any (s.opPoison ps ·)
  let word (n : Nat) : Nat := ofBytesLE ((List.range n).map fun i => BitVec.ofNat 8 (s.opByte ps (va + i)))
  if t.sfmt = 7 then (f32.decode (word 4), poison)
  else if t.sfmt = 8 then (bf16.decode (word 2), poison)
  else
    let f := (EFmt.ofNat? t.sfmt).getD .i8
    let (sa, k) := t.scaleAt rc
    let sc := s.opSlot ps sa k
    let code := s.elemCode ps t rc
    if t.esc then
      let side := (List.range 4).map fun e => ofBytesLE ((List.range 4).map fun i => BitVec.ofNat 8 (s.opByte ps (sa + 16 + 4 * e + i)))
      -- a side segment that makes one element NaN makes the whole block NaN (R64)
      let codes := (List.range 32).map fun i => bits (s.opByte ps (sa + i / 2)) (4 * (i % 2) + 3) (4 * (i % 2))
      let bad := codes.zipIdx.any fun (x, i) => x == 8 && (escapeVal side i).isNone
      if bad then (.nan, poison)
      else (scaled (if code = 8 then (escapeVal side (rc.2 % 32)).getD (Dy.zero false) else dec f code) sc, poison)
    else (scaled (dec f code) sc, poison)
/-- The position of a source element under SR (R245). -/
def TileD.pos (t : TileD) (rc : Nat × Nat) : Nat := (t.gaddr % 2 ^ 32) * 2 ^ 32 + (65536 * rc.1 + rc.2) % 2 ^ 32

/-! ### Output (R245, R246) -/
/-- One output block: scale, 32 codes, poison. -/
structure OutBlk where
  scale : Nat
  codes : List Nat
  poison : Bool
  deriving DecidableEq, Repr
/-- The block of outputs (i, 32b .. 32b+31). -/
def State.outBlock (s : State) (ps : Tbl (Nat × Nat)) (seed : Nat) (mode : RMode) (t : TileD) (i b : Nat) : OutBlk :=
  let rcs := (List.range 32).map fun k => t.src i (32 * b + k)
  let pres := rcs.filter (t.present ·)
  if pres.isEmpty then ⟨0, List.replicate 32 0, false⟩
  else if t.sfmt == t.tfmt && !t.z && !t.tr && !t.esc then
    let (sa, k) := t.scaleAt (pres.headD (0, 0))
    ⟨s.opSlot ps sa k, rcs.map fun rc => if t.present rc then s.elemCode ps t rc else 0,
     pres.any fun rc => (t.elemSecs rc).any (s.opPoison ps ·)⟩
  else
    let vs := pres.map fun rc => (s.elemVal ps t rc, t.pos rc)
    let q := qblockAt ((EFmt.ofNat? t.tfmt).getD .i8) t.pol mode seed (vs.map fun ((v, _), p) => (v, p))
    let codes := (rcs.foldl (fun (acc : List Nat × List Nat) rc =>
      if t.present rc then (acc.1 ++ [acc.2.headD 0], acc.2.tail) else (acc.1 ++ [0], acc.2)) ([], q.codes)).1
    ⟨q.scale, codes, vs.any fun x => x.1.2⟩
/-- Bytes of a block of codes in memory (R58). -/
def blkBytes (f : EFmt) (codes : List Nat) : List Byte :=
  let v := codes.zipIdx.foldl (fun acc (c, i) => acc + c <<< (f.bits * i)) 0
  toBytesLE (4 * f.bits) v
/-- The bytes of an output row with their poison, and the slots written: (sector of the row, slot, value).  A raw passage
copies the stored bytes (R243) and both slots (R246), but for the reserved bytes 25 to 31 of an `lc2` sector, which are written as zero
(R59; DESIGN CHOICE, log entry 61, as to both). -/
def State.outRow (s : State) (ps : Tbl (Nat × Nat)) (seed : Nat) (mode : RMode) (t : TileD) (i : Nat) :
    List (Byte × Bool) × List (Nat × Nat × Nat) :=
  if t.raw then
    let va k := t.gaddr + 32 * t.rstr * (t.row0 + i) + 32 * (t.col0 / t.rawPer + k)
    ((List.range t.rawSecs).flatMap fun k => (List.range 32).map fun b =>
      (if t.rawLc2 && 25 ≤ b then 0 else BitVec.ofNat 8 (s.opByte ps (va k + b)), s.opPoison ps (va k)),
     (List.range t.rawSecs).flatMap fun k => [(k, 0, s.opSlot ps (va k) 0), (k, 1, s.opSlot ps (va k) 1)])
  else if t.tfmt = 7 ∨ t.tfmt = 8 then
    let f := if t.tfmt = 7 then f32 else bf16
    ((List.range t.outLen).flatMap fun j =>
      let rc := t.src i j
      let (x, p) := if t.present rc then
          (let v := s.elemVal ps t rc; (f.round v.1 mode (srBits seed (t.pos rc)), v.2)) else (0, false)
      (toBytesLE (if t.tfmt = 7 then 4 else 2) x).map (·, p), [])
  else
    let f := (EFmt.ofNat? t.tfmt).getD .i8
    let bs := (List.range (t.outLen / 32)).map fun b => (s.outBlock ps seed mode t i b, b)
    (bs.flatMap fun (o, _) => (blkBytes f o.codes).map (·, o.poison),
     bs.map fun (o, b) =>
      if t.tfmt = 4 then (b / 2, b % 2, o.scale)
      else if t.tfmt = 2 ∨ t.tfmt = 3 then (3 * (b / 4) + b % 4 / 2, b % 2, o.scale)
      else (b, 0, o.scale))
/-- Write a row's bytes by whole sectors, as an engine does (R217). -/
def State.writeRow (s : State) (core a : Nat) : Nat → List (Byte × Bool) → State
  | 0, _ => s
  | n + 1, bs =>
    let c := bs.take 32
    if c.isEmpty then s
    else (s.scrWrite none core a (c.map (·.1)) (c.any (·.2))).writeRow core (a + 32) n (bs.drop 32)
def State.writeTile (s : State) (ps : Tbl (Nat × Nat)) (seed : Nat) (mode : RMode) (t : TileD) (p : Nat × Nat) : State :=
  (List.range t.outRows).foldl (fun s' i =>
    let (bs, sl) := s.outRow ps seed mode t i
    let a := p.2 + 32 * t.dstr * i
    let s' := s'.writeRow p.1 a 129 bs
    sl.foldl (fun s' (k, w, v) => s'.scrSetSlot p.1 (a + 32 * k) w (BitVec.ofNat 8 v)) s') s
/-- The segment header word a tender writes (R263). -/
def TileD.header (t : TileD) : Nat := t.tfmt + t.outRows * 2 ^ 4 + t.outLen * 2 ^ 12 + bit01 t.rawEsc * 2 ^ 23
/-- Words of one block in its quarter's lanes: eight words (R60); for `e2m1` two blocks make a quarter. -/
def blkWords (f : EFmt) (codes : List Nat) : List Nat :=
  if f = .e2m1 then (List.range 4).map fun j => codesWord f ((codes.drop (8 * j)).take 8)
  else (List.range 8).map fun j => codesWord f ((codes.drop (4 * j)).take 4)
/-- Cut a list into runs of `n`, padding the last. -/
def chunk {α : Type} (n : Nat) (pad : α) : Nat → List α → List (List α)
  | 0, _ => []
  | k + 1, xs => if xs.isEmpty then [] else ((xs.take n ++ List.replicate (n - min n xs.length) pad)) :: chunk n pad k (xs.drop n)
/-- The entries a tile pushes: header, then the output in row-major order (R246). -/
def State.tileEntries (s : State) (ps : Tbl (Nat × Nat)) (seed : Nat) (mode : RMode) (t : TileD) : List VEnt :=
  let hdr := ventOf [t.header] noShadow false
  if t.raw then
    -- one quarter: eight words, slots, poison
    let secs := (List.range t.outRows).flatMap fun i => (List.range t.rawSecs).map fun k =>
      let va := t.gaddr + 32 * t.rstr * (t.row0 + i) + 32 * (t.col0 / t.rawPer + k)
      ((List.range 8).map fun j => ofBytesLE ((List.range 4).map fun b => BitVec.ofNat 8 (s.opByte ps (va + 4 * j + b))),
       (⟨BitVec.ofNat 8 (s.opSlot ps va 0), BitVec.ofNat 8 (s.opSlot ps va 1)⟩ : Shadow), s.opPoison ps va)
    hdr :: (chunk 4 (List.replicate 8 0, ({} : Shadow), false) 2048 secs).map fun qs =>
      ventOf (qs.flatMap (·.1)) (qs.map (·.2.1)) (qs.any (·.2.2))
  else
    let f := (EFmt.ofNat? t.tfmt).getD .i8
    let blks := (List.range t.outRows).flatMap fun i => (List.range (t.outLen / 32)).map fun b => s.outBlock ps seed mode t i b
    let pad : OutBlk := ⟨0x7F, List.replicate 32 0, false⟩
    let per := if f = .e2m1 then 8 else 4
    hdr :: (chunk per pad 2048 blks).map fun bs =>
      let sh : List Shadow := (List.range 4).map fun q =>
        if f = .e2m1 then ⟨BitVec.ofNat 8 ((bs.getD (2 * q) pad).scale), BitVec.ofNat 8 ((bs.getD (2 * q + 1) pad).scale)⟩
        else ⟨BitVec.ofNat 8 ((bs.getD q pad).scale), 0x7F⟩
      ventOf (bs.flatMap fun b => blkWords f b.codes) sh (bs.any (·.poison))
/-- How many entries that is. -/
def TileD.entries (t : TileD) : Nat :=
  1 + (if t.raw then ceilDiv (t.outRows * t.rawSecs) 4
       else ceilDiv (t.outRows * (t.outLen / 32)) (if t.tfmt = 4 then 8 else 4))
/-- Sectors the tile reads, one per present element (R236, R245). -/
def TileD.sectors (t : TileD) : List Nat :=
  if t.raw then (List.range t.rows).flatMap fun i => (List.range t.rawSecs).map fun k =>
    (t.gaddr + 32 * t.rstr * (t.row0 + i) + 32 * (t.col0 / t.rawPer + k)) % 2 ^ 64
  else (List.range t.rows).flatMap fun i => (List.range t.cols).flatMap fun j =>
    let rc := (t.row0 + i, t.col0 + j)
    if t.present rc then t.elemSecs rc else []

/-! ### Issue (R236)
The offsets, and how far their ranges run, stand in the descriptor, so it is read first, and step 2 takes its fields as they are; step 3
then checks them; GADDR's alignment, the last line of R243's list, comes after the others (DEDUCED). -/
/-- The reading of a descriptor: its bytes as a number, and an unfilled chunk's outcome first. -/
def State.readDesc (s : State) (core grp a n : Nat) : Except LaneOut Nat := do
  let l ← s.cmdOffset core grp (a % 2 ^ 32) (min n 32) n
  s.chunksOk core grp l.place n
  let (bs, bad) := s.scrRead l.place.1 l.place.2 n
  if bad then .error (.trap .uncorrectable (BitVec.ofNat 64 (a % 2 ^ 32))) else .ok (ofBytesLE bs)
/-- The form and alignment of an offset, which come before every region bound (R236 step 2). -/
def cmdForm (a align : Nat) : Except LaneOut Unit :=
  if !scrFormOk a || a % align ≠ 0 then .error (.trap .misaligned (BitVec.ofNat 64 a)) else .ok ()
/-- The ILLEGAL_OPERAND of subcode 0x14; the decode report is completed by the word that raises it. -/
def badValue : LaneOut := .trap .illegalOperand 0x14
/-- A mooring a descriptor names in scratch. -/
def State.descMoor (s : State) (core grp mk moor : Nat) (unitsN : Nat) : Except LaneOut Retire :=
  if mk = 0 then .ok {}
  else do
    let l ← s.cmdOffset core grp moor 16 16
    .ok (l.moor (BitVec.ofNat 64 moor) (if mk = 1 then 2 else 1) unitsN)
/-- The chunk that holds a mooring a command names must be filled (R211, R236 step 5). -/
def State.moorChunk (s : State) (core grp : Nat) (r : Retire) : Except LaneOut Unit :=
  match r.core with
  | some c => s.chunksOk core grp (c, r.addr) 16
  | none => .ok ()
def State.planTile (s : State) (core grp rnd a b : Nat) : Except LaneOut TlOp := do
  let d ← s.readDesc core grp a 32
  let t : TileD := ⟨d, b % 2 ^ 32, b / 2 ^ 32⟩
  let ext := 32 * t.dstr * (t.outRows - 1) + t.rowBytes
  if t.dkind = 0 then cmdForm t.dest 32
  if t.mk' ≠ 0 then cmdForm t.moor 16
  let dst ← (if t.dkind = 0 then s.cmdOffset core grp t.dest 32 ext else .ok (.scr 0 0))
  let units := if t.dkind = 0 then t.outRows * (ceilDiv t.rowBytes 32 * 32) else 128 * t.entries
  let act ← s.descMoor core grp t.mk' t.moor units
  if !t.legal then .error badValue
  if t.gaddr % 32 ≠ 0 then .error (.trap .misaligned (BitVec.ofNat 64 t.gaddr))
  if t.dkind ≠ 0 && !s.holds core grp then .error (.trap .engineNotReserved 0)
  let ps ← s.fixPages core grp t.sectors []
  if t.dkind = 0 then s.chunksOk core grp dst.place ext
  s.moorChunk core grp act
  .ok { id := s.nextTxn, kind := .tile, desc := toBytesLE 32 d, b := BitVec.ofNat 64 b, rnd := if t.rnd = 7 then rnd else t.rnd,
        act := act, queue := t.dkind - 1, entries := if t.dkind = 0 then 0 else t.entries, pages := ps, dst := dst.place }
def State.planRelay (s : State) (core grp a b : Nat) : Except LaneOut TlOp := do
  let d ← s.readDesc core grp a 16
  let sofs := bits d 31 0
  let len := bits d 47 32
  let hops := bits d 51 48
  let mem (k : Nat) : Nat := bits d (59 + 4 * k) (56 + 4 * k)
  let dofs := b % 2 ^ 32
  let mofs := b / 2 ^ 32
  let t := s.team (s.group core grp).team
  cmdForm sofs 32; cmdForm dofs 32; cmdForm mofs 16
  if t.cluster.isNone then .error (.trap .aperture (BitVec.ofNat 64 dofs))
  let bound (x n : Nat) : Except LaneOut Unit :=
    if t.scrLen < bits x 18 0 + n then .error (.trap .aperture (BitVec.ofNat 64 x)) else .ok ()
  bound sofs (32 * len); bound dofs (32 * len); bound mofs 16
  let cnt := let g := s.grid t.grid; g.clw * g.clh
  let peers := (List.range hops).all fun k =>
    mem k < cnt && (if k = 0 then mem 0 != t.member else mem k != mem (k - 1))
  if len = 0 || 16384 < len || hops = 0 || 11 < hops || bits d 55 52 != 0 || bits d 127 100 != 0 || bitAt sofs 28 || bitAt dofs 28 ||
      bitAt mofs 28 || !peers || (List.range 11).any (fun k => hops ≤ k && mem k != 0) then .error badValue
  let place (k : Nat) (o : Nat) : Nat × Nat :=
    let p := s.team ((s.peerTeam t (mem k)).getD 0)
    (p.core, p.scrBase + bits o 18 0)
  s.chunksOk core grp (core, t.scrBase + bits sofs 18 0) (32 * len)
  (List.range hops).forM fun k => do
    s.chunksOk core grp (place k dofs) (32 * len)
    s.chunksOk core grp (place k mofs) 16
  .ok { id := s.nextTxn, kind := .relay, idx := [len], b := BitVec.ofNat 64 b,
        dst := (core, t.scrBase + bits sofs 18 0), hops := (List.range hops).map (place · dofs),
        moors := (List.range hops).map fun k => { kind := 1, core := some (place k mofs).1, addr := (place k mofs).2, va := BitVec.ofNat 64 mofs } }
def State.planGath (s : State) (core grp a : Nat) : Except LaneOut TlOp := do
  let d ← s.readDesc core grp a 32
  let gaddr := bits d 63 0
  let rstb := bits d 95 64
  let nrow := bits d 127 96
  let rowu := bits d 231 224
  let nidx := bits d 237 232
  let mk := bits d 239 238
  cmdForm (bits d 159 128) 4; cmdForm (bits d 191 160) 32
  if mk ≠ 0 then cmdForm (bits d 223 192) 16
  let iofs ← s.cmdOffset core grp (bits d 159 128) 4 (4 * nidx)
  let dst ← s.cmdOffset core grp (bits d 191 160) 32 (nidx * rowu * 32)
  let act ← s.descMoor core grp mk (bits d 223 192) (nidx * rowu * 32)
  if rstb = 0 || rstb % 32 != 0 || rowu = 0 || 128 < rowu || nidx = 0 || 32 < nidx || mk = 3 || bits d 255 240 != 0 ||
      bitAt (bits d 159 128) 28 then .error badValue
  if gaddr % 32 ≠ 0 then .error (.trap .misaligned (BitVec.ofNat 64 gaddr))
  s.chunksOk core grp iofs.place (4 * nidx)
  if (s.scrRead iofs.place.1 iofs.place.2 (4 * nidx)).2 then .error (.trap .uncorrectable (BitVec.ofNat 64 (bits d 159 128)))
  let idx := (List.range nidx).map fun k => ofBytesLE (s.scrRead iofs.place.1 (iofs.place.2 + 4 * k) 4).1
  let secs := idx.flatMap fun i => if i < nrow then (List.range rowu).map fun u => (gaddr + i * rstb + 32 * u) % 2 ^ 64 else []
  let ps ← s.fixPages core grp secs []
  s.chunksOk core grp dst.place (nidx * rowu * 32)
  s.moorChunk core grp act
  .ok { id := s.nextTxn, kind := .gath, desc := toBytesLE 32 d, idx := idx, act := act, pages := ps, dst := dst.place }
/-- Acceptance: the pages it reads are marked (R221), the operation counts on tl, and a tile's entries take their places in the queue (R246, R247). -/
def State.acceptTl (s : State) (core grp : Nat) (o : TlOp) : State :=
  let o := { o with id := s.nextTxn }
  let s := { s with nextTxn := s.nextTxn + 1 }
  (o.pages.foldl (fun s p => s.touch (some core) (s.ctxOf core grp) false (65536 * p.1)) s).updGroup core grp fun g =>
    let g := g.tlAdd o
    if o.entries = 0 then g
    else g.setMq o.queue (g.mq o.queue ++ List.replicate o.entries ⟨[], noShadow, false, [(32, o.id)]⟩)

/-! ### Completion -/
/-- Give a queue's held places of an operation their entries, from the `k`-th on, as far as there is room (R246). -/
def deliver (id : Nat) : Nat → List VEnt → List VEnt → List VEnt
  | 0, _, q => q
  | room + 1, es, q =>
    match es with
    | [] => q
    | e :: es =>
      let i := q.findIdx fun x => x.awaiting.contains (32, id)
      deliver id room es (q.set i e)
/-- A tile's amax (R245): ROUND(|v|, f32, RNE, 0) of every present element. -/
def State.tileAmax (s : State) (ps : Tbl (Nat × Nat)) (t : TileD) : List Nat :=
  (List.range t.rows).flatMap fun i => (List.range t.cols).filterMap fun j =>
    let rc := (t.row0 + i, t.col0 + j)
    if t.present rc then some (f32.round (s.elemVal ps t rc).1 .rne 0 % 2 ^ 31) else none
/-- The named operation of a group's tl counter. -/
def Group.tlOp (g : Group) (id : Nat) : Option TlOp := g.tlOps.find? fun o => o.id = id && !o.done
/-- A tile is performed, once the mooring operations its lane issued before it are (R248): its rows are written, or as many of its entries as the queue has room for are delivered; when all
stand, the amax update is made, it counts out and retires (R245 to R247). -/
def State.tileDone (s : State) (core grp id : Nat) : State :=
  match (s.group core grp).tlOp id with
  | none => s
  | some o =>
    if o.kind ≠ .tile || s.postedBefore core grp o.lane id then s
    else
      let t : TileD := ⟨ofBytesLE o.desc, o.b.toNat % 2 ^ 32, o.b.toNat / 2 ^ 32⟩
      let seed := (s.gridOf core grp).seed.toNat
      let finish (s' : State) : State :=
        let s' := if t.amxe then s'.cellMax core t.amc (s.ctxOf core grp) (s.tileAmax o.pages t) else s'
        (s'.updGroup core grp fun g => g.tlDone id).retire core grp o.act
      if o.entries = 0 then finish (s.writeTile o.pages seed (rmode o.rnd) t o.dst)
      else
        let g := s.group core grp
        let q := g.mq o.queue
        let room := min (heldIn o.id q) (o.entries - o.given)
        let es := (s.tileEntries o.pages seed (rmode o.rnd) t).drop o.given
        let s' := s.setGroup core grp ((g.setMq o.queue (deliver id room es q)).updTl id fun x => { x with given := x.given + room })
        if o.given + room = o.entries then finish s' else s'
/-- Copy `n` sectors with sideband between scratch places. -/
def State.copyScr (s : State) (a b : Nat × Nat) (n : Nat) : State :=
  (List.range n).foldl (fun s' k =>
    let (bs, p) := s.scrRead a.1 (a.2 + 32 * k) 32
    ((s'.scrWrite none b.1 (b.2 + 32 * k) (s.seen 216 (some a.1) 0 (a.2 + 32 * k) bs) p).scrSetSlot b.1 (b.2 + 32 * k) 0 (s.scrSlot a.1 (a.2 + 32 * k) 0)).scrSetSlot
      b.1 (b.2 + 32 * k) 1 (s.scrSlot a.1 (a.2 + 32 * k) 1)) s
/-- One hop of a relay: the copy, its retirement, and the end after the last (R250). -/
def State.relayHop (s : State) (core grp id : Nat) : State :=
  match (s.group core grp).tlOp id with
  | none => s
  | some o =>
    if o.kind ≠ .relay || s.postedBefore core grp o.lane id then s
    else
      let src := if o.hop = 0 then o.dst else o.hops.getD (o.hop - 1) (0, 0)
      let s := s.copyScr src (o.hops.getD o.hop (0, 0)) (o.idx.headD 0)
      let s := s.retire core grp (o.moors.getD o.hop {})
      if o.hop + 1 = o.hops.length then s.updGroup core grp fun g => g.tlDone id
      else s.updGroup core grp fun g => g.updTl id fun x => { x with hop := x.hop + 1 }
/-- Sector `u` of row `k` of a gather, read in `s`, which names row `i` of the source; a row past its end is zeros (R252). -/
def State.gatherSec (s s' : State) (o : TlOp) (i k u : Nat) : State :=
  let d := ofBytesLE o.desc
  let a := o.dst.2 + 32 * bits d 231 224 * k + 32 * u
  if i < bits d 127 96 then
    let va := bits d 63 0 + i * bits d 95 64 + 32 * u
    let bs := (List.range 32).map fun b => BitVec.ofNat 8 (s.opByte o.pages (va + b))
    ((s'.scrWrite none o.dst.1 a bs (s.opPoison o.pages va)).scrSetSlot o.dst.1 a 0 (BitVec.ofNat 8 (s.opSlot o.pages va 0))).scrSetSlot
      o.dst.1 a 1 (BitVec.ofNat 8 (s.opSlot o.pages va 1))
  else ((s'.scrWrite none o.dst.1 a (List.replicate 32 0) false).scrSetSlot o.dst.1 a 0 0x7F).scrSetSlot o.dst.1 a 1 0x7F
/-- Every row of a gather. -/
def State.gatherRows (s : State) (o : TlOp) : State :=
  o.idx.zipIdx.foldl (fun s' (i, k) => (List.range (bits (ofBytesLE o.desc) 231 224)).foldl (fun s' u => s.gatherSec s' o i k u) s') s
/-- A gather's rows are performed (R252). -/
def State.gathDone (s : State) (core grp id : Nat) : State :=
  match (s.group core grp).tlOp id with
  | none => s
  | some o =>
    if o.kind ≠ .gath || s.postedBefore core grp o.lane id then s
    else ((s.gatherRows o).updGroup core grp fun g => g.tlDone id).retire core grp o.act

end Sys2Proof.Machine
end

