-- ==== Sys2Proof/Machine/Matrix.lean ====
section
/-! DEFINITION. The matrix engine: reservation, convening, joint issue, operand segments, products, tiles, drains, configuration and
completion (R255 to R278). -/
namespace Sys2Proof.Machine

/-! ### Reservation (R255 to R257) -/
/-- The base table entry at `k` (R62): an entry no `mcfg` has loaded holds its reset value. -/
def baseEntry (base : Tbl (BitVec 16)) (k : Nat) : Nat := ((Tbl.find base k).map (·.toNat)).getD (lc2ResetEntry k)
/-- A successful `mrsv` by a team that did not hold the engine (R256). -/
def Engine.take (e : Engine) (team ctx grpIdx : Nat) : Engine :=
  { e with
    holder := some team, lastCtx := some ctx, escape := false, base := [], dY := none,
    conv := BitVec.ofNat 32 (2 ^ grpIdx), proposals := [], ops := [],
    acc := if e.lastCtx = some ctx then e.acc else [], poisoned := if e.lastCtx = some ctx then e.poisoned else [] }
/-- The groups of a team on its core, by ascending index. -/
def State.teamGroups (s : State) (core team : Nat) : List Nat := ((s.core core).groups.filter fun p => p.2.team == team).map (·.1)
/-- Of these, the groups that an engine serves: in partitioned mode those of its partition (R257). -/
def State.partGroups (s : State) (core part team : Nat) : List Nat := (s.teamGroups core team).filter fun k => s.partOf core k == part
/-- The matrix output queues of a team's groups can receive values again, or can no more (R233). -/
def State.setOrphaned (s : State) (core part team : Nat) (on : Bool) : State :=
  (s.partGroups core part team).foldl (fun s g => s.updGroup core g fun x => { x with orphaned := on }) s
/-- Whether `mrsv` succeeds. -/
def State.mayReserve (s : State) (core grp : Nat) : Bool :=
  let e := s.engine core (s.partOf core grp)
  e.holder.isNone || e.holder == some (s.group core grp).team
def State.reserve (s : State) (core grp : Nat) : State :=
  let p := s.partOf core grp
  let e := s.engine core p
  if e.holder.isNone then
    (s.setEngine core p (e.take (s.group core grp).team (s.ctxOf core grp) (s.group core grp).idx)).setOrphaned core p (s.group core grp).team false
  else s
/-- Trap every lane of a group that waits at a joint word. -/
def State.trapJoint (s : State) (core grp : Nat) (c : Cause) (taddr : DWord) : State :=
  let ls := ((s.group core grp).lanes.filter fun p => p.2.mode == .stalled .joint).map (·.1)
  let s := s.updGroup core grp fun g => { g with atJoint := none }
  ls.foldl (fun s l => s.takeTrap core grp l c taddr (s.lane core grp l).slot) s
/-- A group's team loses the reservation: its streams are discarded, and a lane whose push is stalled, or whose pop of an empty `mqo`, owes
the trap (R229, R233, R255). -/
def Group.loseEngine (g : Group) : Group :=
  let owes (x : Lane) : Bool := x.mode == .stalled .again || x.mode == .stalled .held
  let g := g.mapLanes fun _ x => match x.onRelease with
    | some (c, a) => if owes x && (c != .queueOrphaned || g.mqo.isEmpty) then { x with pend := some (c, a), onRelease := none } else x
    | none => x
  { g with mqa := [], mqb := [], orphaned := false }
/-- The engine is released: the streams of the team's groups are discarded, and a lane waiting at a joint operation raises
ENGINE_NOT_RESERVED (R255); a word already accepted raises nothing (R274). -/
def State.release (s : State) (core part : Nat) : State :=
  let e := s.engine core part
  match e.holder with
  | none => s
  | some t =>
    let s := s.setEngine core part { e with holder := none, ops := [], dY := none, proposals := [], conv := 0 }
    let gs := s.partGroups core part t
    let s := gs.foldl (fun s g => s.updGroup core g Group.loseEngine) s
    gs.foldl (fun s g => match (s.group core g).atJoint with
      | some y => if y.accepted then s else s.trapJoint core g .engineNotReserved 0
      | none => s) s

/-! ### Control words and placements (R259, R260, R273) -/
def cwTile (a : Nat) : Nat := bits a 7 0
def cwTile2 (a : Nat) : Nat := bits a 15 8
def cwClr (a : Nat) : Bool := bitAt a 16
def cwLoad (a : Nat) : Bool := bitAt a 17
def cwConj (a : Nat) : Bool := bitAt a 18
def cwDst (a : Nat) : Bool := bitAt a 19
def cwAmxe (a : Nat) : Bool := bitAt a 20
def cwAmc (a : Nat) : Nat := bits a 24 21
def cwPol (a : Nat) : Nat := bits a 26 25
def cwRnd (a : Nat) : Nat := bits a 29 27
def cwInbf (a : Nat) : Bool := bitAt a 30
/-- Whether every bit of `a` outside the mask is zero. -/
def onlyBits (a mask : Nat) : Bool := a &&& (2 ^ 64 - 1 - mask) == 0
/-- The control word's fields, by MTX index and modifier. -/
def cwOk (idx modi a : Nat) : Bool :=
  match idx with
  | 3 => onlyBits a 0x100FF
  | 4 => onlyBits a 0x3FFFF && cwTile2 a != cwTile a
  | 5 => onlyBits a 0xFFFF && cwTile a + cwTile2 a ≤ 255
  | 6 => onlyBits a 0x3FF900FF && (modi ≥ 2 || cwPol a == 0) && cwPol a ≤ 2 && (modi ≥ 1 || cwRnd a == 0) && cwRnd a != 5 && cwRnd a != 6
  | 7 => onlyBits a 0x400000FF
  | _ => onlyBits a 0x500FF
/-- Tiles an operation names lie in the quarter-engine's range (R257). -/
def State.tilesOk (s : State) (core grp idx a : Nat) : Bool :=
  if (s.core core).partitioned then
    let p := grp / 8
    let inP (t : Nat) : Bool := t / 64 == p
    inP (cwTile a) && (idx != 4 || inP (cwTile2 a)) && (idx != 5 || inP (cwTile a + cwTile2 a))
  else true
/-- Bytes of one row that `mdrain` or `mload` moves. -/
def rowSize (idx modi a : Nat) : Nat :=
  if idx = 7 then (if cwInbf a then 64 else 128) else if modi = 0 then 128 else if modi = 1 then 64 else 32
/-- The scratch place of a placement, or how the lanes end (R259, R271). -/
def State.placeOf (s : State) (core grp idx modi a b : Nat) : Except LaneOut (Nat × Nat) :=
  let ofs := b % 2 ^ 32
  let dstr := bits b 47 32
  if bitAt ofs 28 || bitAt ofs 30 || bits b 63 48 != 0 || 32 * dstr < rowSize idx modi a then .error badValue
  else match s.cmdOffset core grp ofs 32 (32 * dstr * 31 + rowSize idx modi a) with
    | .error o => .error o
    | .ok l => match s.chunksOk core grp l.place (32 * dstr * 31 + rowSize idx modi a) with
      | .error o => .error o
      | .ok () => .ok l.place
/-- A wait is that of these lanes: none other is among them. -/
def AtJoint.holds (y : AtJoint) (lanes : LaneSet) : Bool := (lanes &&& ~~~y.lanes) == 0
/-- Steps 2 to 4 of R274 for a joint word, and its wait (step 5). -/
def State.planJoint (s : State) (core grp idx modi a b rnd : Nat) (lanes : LaneSet) (report : DWord) : LaneOut :=
  let g := s.group core grp
  let x : AtJoint :=
    { idx := idx, modi := modi, a := BitVec.ofNat 32 a, b := BitVec.ofNat 64 b, rnd := if cwRnd a = 7 then rnd else cwRnd a, lanes := lanes, report := report }
  if g.atJoint.any (fun y => y.accepted && y.idx == idx && y.holds lanes) then .ok [.accepted]
  else if !s.holds core grp then .trap .engineNotReserved 0
  else if !cwOk idx modi a || !s.tilesOk core grp idx a then badValue
  else
    let pl := if idx = 7 ∨ (idx = 6 ∧ cwDst a) then s.placeOf core grp idx modi a b
              else if idx = 6 ∧ b ≠ 0 then .error badValue else .ok (0, 0)
    match pl with
    | .error o => o
    | .ok _ => if (s.engine core (s.partOf core grp)).conv.getLsbD g.idx then .joint x else .trap .conveneMismatch 0
/-- `mcvn` (R260). -/
def State.planMcvn (s : State) (core grp a : Nat) (lanes : LaneSet) (report : DWord) : LaneOut :=
  let g := s.group core grp
  let e := s.engine core (s.partOf core grp)
  let n := popCount 32 a
  let slots := (s.team g.team).slots
  if g.atJoint.any (fun y => y.accepted && y.idx == 2 && y.holds lanes) then .ok [.accepted]
  else if !s.holds core grp then .trap .engineNotReserved 0
  else if (n != 1 && n != 2 && n != 4) || !bitAt a g.idx ||
      (List.range 32).any (fun i => bitAt a i && slots.length ≤ i) ||
      ((s.core core).partitioned && slots.zipIdx.any fun m => bitAt a m.2 && m.1 / 8 != grp / 8) then badValue
  else if e.proposals.any fun p => p.1 != g.idx && bitAt p.2.toNat g.idx && p.2.toNat != a then .trap .conveneMismatch 0
  else if (lanesOf (BitVec.ofNat 32 a)).all fun i => i == g.idx || Tbl.find e.proposals i == some (BitVec.ofNat 32 a) then
    .ok [.mcvn (BitVec.ofNat 32 a)]
  else .joint { idx := 2, modi := 0, a := BitVec.ofNat 32 a, b := 0, rnd := 0, lanes := lanes, report := report }
/-- A wait that has ended: its lanes issue the chain again. -/
def Group.acceptJoint (g : Group) : Group :=
  { (g.mapLanes fun _ x => if x.mode == .stalled .joint then { x with mode := .ready } else x) with
    atJoint := g.atJoint.map fun y => { y with accepted := true } }
/-- The convening changes at once (R260). -/
def State.convene (s : State) (core grp : Nat) (mask : BitVec 32) : State :=
  let p := s.partOf core grp
  let e := s.engine core p
  let s := s.setEngine core p { e with conv := mask, proposals := e.proposals.keep fun _ m => m != mask }
  ((s.teamGroups core (s.group core grp).team).filter fun k => k != grp && mask.getLsbD (s.group core k).idx).foldl (fun s k =>
    s.updGroup core k fun g => if g.atJoint.any (·.idx == 2) then g.acceptJoint else g) s
/-- A group begins to wait at a joint word or with a proposal. -/
def State.beginJoint (s : State) (core grp : Nat) (x : AtJoint) : State :=
  let s := s.updGroup core grp fun g => { g with atJoint := some x }
  if x.idx = 2 then
    let p := s.partOf core grp
    let e := s.engine core p
    s.setEngine core p { e with proposals := Tbl.put e.proposals (s.group core grp).idx x.a }
  else s

/-! ### Segments (R263 to R266) -/
def VEnt.word (e : VEnt) (l : Nat) : Nat := (e.words.getD l 0).toNat
def VEnt.slot (e : VEnt) (q k : Nat) : Nat := (let x := e.shadow.getD q {}; if k = 0 then x.s0 else x.s1).toNat
def hFmt (h : Nat) : Nat := bits h 3 0
def hRows (h : Nat) : Nat := bits h 11 4
def hCols (h : Nat) : Nat := bits h 19 12
def hShr (h : Nat) : Bool := bitAt h 20
def hSpb (h : Nat) : Bool := bitAt h 21
def hSp24 (h : Nat) : Bool := bitAt h 22
def hEsc (h : Nat) : Bool := bitAt h 23
/-- Live vectors of a sparse segment, row-major (R266). -/
def liveVecs (h : VEnt) : List (Nat × Nat) :=
  (List.range 32).flatMap fun r => ((List.range 4).filter fun v =>
    !hSpb (h.word 0) || bitAt (h.word (1 + r / 8)) (4 * (r % 8) + v)).map fun v => (r, v)
/-- Data entries that follow a header (R265, R266). -/
def segNeed (h : VEnt) : Nat :=
  let w := h.word 0
  let n := hRows w * hCols w
  if hShr w then 0
  else if hSpb w || hSp24 w then
    let l := (liveVecs h).length
    (if hSp24 w then ceilDiv l 64 else 0) + ceilDiv l (if hSp24 w then 16 else 8)
  else match hFmt w with
    | 4 => if hEsc w then ceilDiv n 128 else ceilDiv n 256
    | 6 => ceilDiv (hRows w * ceilDiv (hCols w) 96) 4
    | 7 => ceilDiv n 16
    | _ => ceilDiv n 128
/-- Whether the entries complete `n` segments. -/
def segsDone : Nat → Nat → List VEnt → Bool
  | _, 0, _ => true
  | 0, _, _ => false
  | fuel + 1, n + 1, got => match got with
    | [] => false
    | h :: rest => decide (segNeed h ≤ rest.length) && segsDone fuel n (rest.drop (segNeed h))
/-- The segment of a stream: the `k`-th, header first. -/
def segment : Nat → List VEnt → List VEnt
  | 0, got => match got with | [] => [] | h :: rest => h :: rest.take (segNeed h)
  | k + 1, got => match got with | [] => [] | h :: rest => segment k (rest.drop (segNeed h))
/-- Segments of each stream that an operation takes (R264). -/
def MxOp.segs (o : MxOp) : Nat := match o.idx with | 3 => 1 | 9 => 1 | 4 => if cwLoad o.a.toNat then 2 else 1 | _ => 0
/-- Rows a group's A segment must have. -/
def MxOp.aRows (o : MxOp) : Nat := (if o.idx = 9 then 16 else 32) / max 1 o.groups.length
/-- The header table of R264: stream 0 `mqa`, 1 `mqb`; the lead's A and B headers fix K. -/
def headerOk (idx g : Nat) (escape lead : Bool) (stream : Nat) (fa fb : Nat) (w : Nat) : Bool :=
  let f := hFmt w
  let k := if idx = 3 then (if fa = 4 ∧ (fb = 4 ∨ fb = 6) then 128 else 64) else if idx = 9 then 8 else 32
  let rows := if stream = 0 then (if idx = 9 then 16 else 32) / g else if idx = 9 then 16 else 32
  let sparse := hSpb w || hSp24 w
  bits w 31 24 == 0 && hRows w == rows && hCols w == k &&
  (if idx = 9 then f == 7 && !sparse && !hEsc w
   else if idx = 3 && stream == 1 then
     f ≤ 6 && (!sparse || ((f == 0 || f == 1 || f == 5) && k == 64)) && (hEsc w == (f == 4 && escape))
   else f ≤ 5 && !sparse && !hEsc w) &&
  (if stream = 0 then !hShr w else !(lead && hShr w))
/-- Whether another group's B header agrees with the lead's: one FMT, ROWS and COLS, and a SHR header in everything but SHR (R264). -/
def bAgrees (lead w : Nat) : Bool :=
  if hShr w then w - 2 ^ 20 == lead else hFmt w == hFmt lead && hRows w == hRows lead && hCols w == hCols lead
/-- Escape mode as the first operations of the engine leave it (R273). -/
def Engine.escapeAfter (e : Engine) (os : List MxOp) : Bool :=
  os.foldl (fun m o => if o.idx = 8 ∧ o.a = 0 then bitAt o.b.toNat 0 else m) e.escape
/-- Blocks of a data entry in register layout (R60, R265). -/
def entBlocks (f : EFmt) (e : VEnt) : List Block :=
  if f = .e2m1 then (List.range 8).map fun n =>
    ⟨e.slot (n / 2) (n % 2), (List.range 4).flatMap fun j => (List.range 8).map fun k =>
      some (dec f (codeAt f (e.word (8 * (n / 2) + 4 * (n % 2) + j)) k))⟩
  else (List.range 4).map fun q =>
    ⟨e.slot q 0, (List.range 8).flatMap fun j => (List.range 4).map fun k => some (dec f (codeAt f (e.word (8 * q + j)) k))⟩
/-- The bytes of the sector a quarter holds. -/
def entSector (e : VEnt) (q : Nat) : List Nat := (List.range 32).map fun b => bits (e.word (8 * q + b / 4)) (8 * (b % 4) + 7) (8 * (b % 4))
/-- The block of an escape sector (R63, R64). -/
def escBlock (bs : List Nat) (scale : Nat) : Block :=
  let side := (List.range 4).map fun k => (List.range 4).foldl (fun acc i => acc + (bs.getD (16 + 4 * k + i) 0) * 256 ^ i) 0
  ⟨scale, (List.range 32).map fun i =>
    let c := bits (bs.getD (i / 2) 0) (4 * (i % 2) + 3) (4 * (i % 2))
    if c = 8 then escapeVal side i else some (dec .e2m1 c)⟩
/-- The three blocks of an `lc2` sector (R58, R61). -/
def lc2Blocks (base : Tbl (BitVec 16)) (bs : List Nat) (s0 s1 : Nat) : List Block :=
  (List.range 3).map fun b =>
    ⟨if b = 0 then s0 else if b = 1 then s1 else bs.getD 24 0, (List.range 4).flatMap fun w =>
      let cw := bs.getD (8 * b + 2 * w) 0 + 256 * bs.getD (8 * b + 2 * w + 1) 0
      (lc2Dec (baseEntry base (cw / 256)) cw).map some⟩
/-- The dense rows a sparse segment describes (R266). -/
def sparseRows (seg : List VEnt) : List (List Block) :=
  match seg with
  | [] => []
  | h :: es =>
    let w := h.word 0
    let f := (EFmt.ofNat? (hFmt w)).getD .i8
    let live := liveVecs h
    let nIdx := if hSp24 w then ceilDiv live.length 64 else 0
    let vals := es.drop nIdx
    let byte (n b : Nat) : Nat :=
      let per := if hSp24 w then 16 else 8
      let p := (if hSp24 w then 8 else 16) * (n % per) + b
      bits ((vals.getD (n / per) ⟨[], [], false, []⟩).word (p / 4)) (8 * (p % 4) + 7) (8 * (p % 4))
    let vec (r v : Nat) : List Nat :=
      match live.findIdx? (· == (r, v)) with
      | none => List.replicate 16 0
      | some n =>
        if hSp24 w then
          let iw := bits ((es.getD (n / 64) ⟨[], [], false, []⟩).word (n % 64 / 2)) (16 * (n % 2) + 15) (16 * (n % 2))
          (List.range 16).map fun e =>
            let g := e / 4
            let x s := bits iw (4 * g + 2 * s + 1) (4 * g + 2 * s)
            if x 1 = e % 4 then byte n (2 * g + 1) else if x 0 = e % 4 then byte n (2 * g) else 0
        else (List.range 16).map (byte n ·)
    (List.range 32).map fun r => (List.range 2).map fun hh =>
      let k := 2 * r + hh
      ⟨bits (h.word (5 + k / 4)) (8 * (k % 4) + 7) (8 * (k % 4)), (vec r (2 * hh) ++ vec r (2 * hh + 1)).map fun c => some (dec f c)⟩
/-- A segment as rows of blocks; poison of any entry poisons it (R265, R277). -/
def segOperand (base : Tbl (BitVec 16)) (seg : List VEnt) : Operand :=
  match seg with
  | [] => {}
  | h :: es =>
    let w := h.word 0
    let per := hCols w / 32
    let rowsOf (bs : List Block) (n : Nat) : List (List Block) := (List.range (hRows w)).map fun r => (bs.drop (n * r)).take per
    let rows :=
      if hSpb w || hSp24 w then sparseRows seg
      else match hFmt w with
        | 4 => if hEsc w then rowsOf (es.flatMap fun e => (List.range 4).map fun q => escBlock (entSector e q) (e.slot q 0)) per
               else rowsOf (es.flatMap (entBlocks .e2m1)) per
        | 6 => rowsOf (es.flatMap fun e => (List.range 4).flatMap fun q => lc2Blocks base (entSector e q) (e.slot q 0) (e.slot q 1))
                 (3 * ceilDiv (hCols w) 96)
        | f => rowsOf (es.flatMap (entBlocks ((EFmt.ofNat? f).getD .i8))) per
    { fmt := hFmt w, rows := rows, poison := seg.any (·.poison) }
/-- Complex value `v` of a segment of format 7: real and imaginary codes. -/
def cplxAt (seg : List VEnt) (v : Nat) : Nat × Nat :=
  let e := (seg.drop 1).getD (v / 16) ⟨[], [], false, []⟩
  (e.word (2 * (v % 16)), e.word (2 * (v % 16) + 1))

/-! ### Joint issue (R261, R264, R274) -/
/-- The convened groups of an engine, by slot, in ascending group index: none where one of them has ended, for which the others wait
for ever (R261). -/
def State.convened (s : State) (core part : Nat) : List Nat :=
  let e := s.engine core part
  match e.holder with
  | none => []
  | some t =>
    let gs := (lanesOf e.conv).filterMap fun i => (s.teamGroups core t).find? fun k => (s.group core k).idx == i
    if gs.length = (lanesOf e.conv).length then gs else []
/-- The header that stands at the head of a stream, delivered and filled. -/
def headOf (q : List VEnt) : Option VEnt := match q with | e :: _ => if e.awaiting.isEmpty then some e else none | [] => none
/-! ### Taking entries (R264) -/
def MxOp.got (o : MxOp) (stream grp : Nat) : List VEnt := Tbl.get (if stream = 0 then o.gotA else o.gotB) grp []
def MxOp.give (o : MxOp) (stream grp : Nat) (e : VEnt) : MxOp :=
  if stream = 0 then { o with gotA := Tbl.put o.gotA grp (o.got 0 grp ++ [e]) } else { o with gotB := Tbl.put o.gotB grp (o.got 1 grp ++ [e]) }
/-- The operation has every entry of a group's stream. -/
def MxOp.streamDone (o : MxOp) (stream grp : Nat) : Bool := segsDone 3 o.segs (o.got stream grp)
def MxOp.dataDone (o : MxOp) : Bool := o.groups.all fun g => o.streamDone 0 g && o.streamDone 1 g
/-- The next entry an operation takes from a stream is a header. -/
def MxOp.wantsHeader (o : MxOp) (stream grp : Nat) : Bool := (List.range (o.segs + 1)).any fun n =>
  segsDone 3 n (o.got stream grp) && (match segment 0 (o.got stream grp) with
    | h :: _ => n == 1 && (o.got stream grp).length == 1 + segNeed h
    | [] => n == 0)
/-- The header of an operation's second segment in a group's stream, once taken. -/
def MxOp.second (o : MxOp) (stream grp : Nat) : Option Nat := ((segment 1 (o.got stream grp)).head?).map fun h => h.word 0
/-- The check of a header of the `i`-th operation that the engine reaches after acceptance: the table's, with the formats of its own
stream, and against those of the other groups that it has reached (R264). -/
def Engine.headerGood (e : Engine) (i : Nat) (o : MxOp) (grp stream : Nat) (w : Nat) : Bool :=
  let lead := o.groups.headD 0
  headerOk o.idx (max 1 o.groups.length) (e.escapeAfter (e.ops.take i)) (lead == grp) stream (hFmt w) (hFmt w) w &&
    o.groups.all fun g => match o.second stream g with
      | none => true
      | some h =>
        if stream = 0 then hFmt h == hFmt w
        else if g = lead then bAgrees h w
        else if grp = lead then bAgrees w h
        else hFmt w == hFmt h
/-- The first accepted operation that still takes entries of a group's stream. -/
def Engine.taker (e : Engine) (stream grp : Nat) : Option Nat :=
  e.ops.findIdx? fun o => o.groups.contains grp && !o.streamDone stream grp
/-- One entry moves from a group's stream to the operation that takes it; a header that fails stays (R264). -/
def State.take1 (s : State) (core part stream grp : Nat) : Option State :=
  let e := s.engine core part
  let g := s.group core grp
  match e.taker stream grp, headOf (g.mq stream) with
  | some i, some x =>
    match e.ops[i]? with
    | none => none
    | some o =>
      if o.wantsHeader stream grp && !e.headerGood i o grp stream (x.word 0) then none
      else some ((s.setEngine core part { e with ops := e.ops.set i (o.give stream grp x) }).updGroup core grp fun g => g.setMq stream ((g.mq stream).drop 1))
  | _, _ => none
def State.takeStream (s : State) (core part stream grp : Nat) : Nat → State
  | 0 => s
  | n + 1 => match s.take1 core part stream grp with
    | some s => s.takeStream core part stream grp n
    | none => s
/-- The engine takes the entries that have arrived. -/
def State.takeEntries (s : State) (core part : Nat) : State :=
  let gs := ((s.engine core part).ops.flatMap (·.groups)).eraseDups
  gs.foldl (fun s g => (s.takeStream core part 0 g 32).takeStream core part 1 g 32) s
/-- JOINT_ISSUE: the data of accepted operations is taken first, so that what stands behind it are headers (R264); when every convened group
has reached a joint word with its headers at the heads of its queues, the words are
checked against one another and the operation is accepted or raises in every convened group. -/
def State.jointIssue (s : State) (core part : Nat) : State :=
  let s := s.takeEntries core part
  let e := s.engine core part
  let gs := s.convened core part
  let ws := gs.filterMap fun k => ((s.group core k).atJoint.filter fun x => x.idx != 2 && !x.accepted)
  if gs.isEmpty || ws.length != gs.length then s
  else
    let w := ws.headD ⟨0, 0, 0, 0, 0, 0, 0, false⟩
    let agree := ws.all fun x => x.idx == w.idx && x.modi == w.modi && x.a == w.a && x.b == w.b
    let counted := w.idx == 3 || w.idx == 4 || w.idx == 6
    let streams := w.idx == 3 || w.idx == 4 || w.idx == 9
    let heads := gs.map fun k => (headOf (s.group core k).mqa, headOf (s.group core k).mqb)
    let trapAll (c : Cause) (f : AtJoint → DWord) : State := (gs.zip ws).foldl (fun s (k, x) => s.trapJoint core k c (f x)) s
    if !agree then trapAll .conveneMismatch fun _ => 0
    else if streams && (gs.any (fun k => (e.taker 0 k).isSome || (e.taker 1 k).isSome) || heads.any fun h => h.1.isNone || h.2.isNone) then s
    else if counted && gs.any (fun k => 7 ≤ (s.group core k).tl) then s
    else
      let ha := heads.map fun h => (h.1.map (·.word 0)).getD 0
      let hb := heads.map fun h => (h.2.map (·.word 0)).getD 0
      let a0 := ha.headD 0
      let b0 := hb.headD 0
      let same := ha.all (fun x => hFmt x == hFmt a0) && (hb.drop 1).all fun x => bAgrees b0 x
      let good (lead : Bool) (stream x : Nat) : Bool := headerOk w.idx gs.length (e.escapeAfter e.ops) lead stream (hFmt a0) (hFmt b0) x
      let bad := (ha.find? fun x => !good false 0 x).or ((hb.zipIdx.find? fun (x, i) => !good (i == 0) 1 x).map (·.1))
      if streams && !same then trapAll .conveneMismatch fun _ => 0
      else if streams && bad.isSome then trapAll .illegalOperand fun _ => BitVec.ofNat 64 (bad.getD 0)
      else if w.idx == 4 && !cwLoad w.a.toNat && e.dY.isNone && !e.ops.any (fun o => o.idx == 4 && cwLoad o.a.toNat) then trapAll .illegalOperand (·.report)
      else
        let t := s.team (e.holder.getD 0)
        let o : MxOp :=
          { id := s.nextTxn, idx := w.idx, modi := w.modi, a := w.a, b := w.b, rnd := w.rnd, groups := gs,
            ctx := s.ctxOf core (gs.headD 0), by_ := (gs.zip ws).map fun (k, x) => (k, (lowestLane x.lanes).getD 0), place := (t.core, t.scrBase + bits w.b.toNat 18 0),
            gotA := if streams then (gs.zip heads).map fun (k, h) => (k, h.1.toList) else [],
            gotB := if streams then (gs.zip heads).map fun (k, h) => (k, h.2.toList) else [] }
        let s := ({ s with nextTxn := s.nextTxn + 1 }).setEngine core part { e with ops := e.ops ++ [o] }
        gs.foldl (fun s k => s.updGroup core k fun g =>
          let g := g.acceptJoint
          let g := if counted then g.tlAdd { id := o.id, kind := .matrix, lane := Tbl.get o.by_ k 0 } else g
          if streams then { g with mqa := g.mqa.drop 1, mqb := g.mqb.drop 1 } else g) s

/-- A group's stream whose next entry is a header that fails (R264): the operation's place. -/
def State.badHeader (s : State) (core part : Nat) : Option (Nat × Nat) :=
  let e := s.engine core part
  let gs := (e.ops.flatMap (·.groups)).eraseDups
  gs.findSome? fun g => [0, 1].findSome? fun st =>
    match e.taker st g, headOf ((s.group core g).mq st) with
    | some i, some x => match e.ops[i]? with
      | some o => if o.wantsHeader st g && !e.headerGood i o g st (x.word 0) then some (i, x.word 0) else none
      | none => none
    | _, _ => none

/-! ### Tiles (R267, R277) -/
def Engine.acc' (e : Engine) (t i j : Nat) : Nat := (Tbl.get e.acc (1024 * t + 32 * i + j) 0).toNat
/-- Set every element of a tile. -/
def Engine.setTile (e : Engine) (t : Nat) (f : Nat → Nat → Nat) : Engine :=
  let new := (List.range 1024).filterMap fun k => let v := f (k / 32) (k % 32); if v = 0 then none else some (1024 * t + k, BitVec.ofNat 32 v)
  { e with acc := (e.acc.filter fun p => p.1 < 1024 * t) ++ new ++ e.acc.filter fun p => 1024 * (t + 1) ≤ p.1 }
def Engine.mark (e : Engine) (t : Nat) (poison : Bool) : Engine :=
  { e with poisoned := if poison then (if e.poisoned.contains t then e.poisoned else t :: e.poisoned) else e.poisoned.filter (· != t) }
def Engine.bad (e : Engine) (t : Nat) : Bool := e.poisoned.contains t
/-- The tiles an operation writes. -/
def MxOp.tiles (o : MxOp) : List Nat :=
  let a := o.a.toNat
  match o.idx with
  | 4 => [cwTile a, cwTile2 a]
  | 5 => (List.range (cwTile2 a + 1)).map (cwTile a + ·)
  | 3 | 7 | 9 => [cwTile a]
  | _ => []

/-! ### Passes (R268 to R270, R275) -/
/-- The band position of tile row `i`: index of its group and the row within the band. -/
def bandOf (rows g i : Nat) : Nat × Nat := (i / (rows / g), i % (rows / g))
/-- The operand a group names on the B stream: its own segment, or the lead's where SHR is set (R262). -/
def MxOp.bSeg (o : MxOp) (grp k : Nat) : List VEnt :=
  let own := segment k (o.got 1 grp)
  match own with
  | h :: _ => if hShr (h.word 0) then segment k (o.got 1 (o.groups.headD 0)) else own
  | [] => own
/-- A poisoned entry has been consumed (R277). -/
def MxOp.tainted (o : MxOp) : Bool := (o.gotA ++ o.gotB).any fun p => p.2.any (·.poison)
def rowOf' (x : Operand) (r : Nat) : List Block := x.rows.getD r []
/-- One pass of an operation whose data has arrived. -/
def Engine.pass (e : Engine) (o : MxOp) : Engine :=
  let n := max 1 o.groups.length
  let a := o.a.toNat
  let t := cwTile a
  let grpAt (i : Nat) : Nat := o.groups.getD i 0
  let aSeg (k : Nat) (g : Nat) : Operand := segOperand e.base (segment k (o.got 0 g))
  let bSeg (k : Nat) (g : Nat) : Operand := segOperand e.base (o.bSeg g k)
  let old (t i j : Nat) : Nat := if cwClr a then 0 else e.acc' t i j
  match o.idx with
  | 3 =>
    let as := o.groups.map (aSeg 0); let bs := o.groups.map (bSeg 0)
    let p := o.tainted || (!cwClr a && e.bad t)
    let rows := (List.range 32).map fun i =>
      let (b, r) := bandOf 32 n i
      (List.range 32).map fun j => wsum (old t i j) ((rowOf' (as.getD b {}) r).zip (rowOf' (bs.getD b {}) j))
    (e.setTile t fun i j => (rows.getD i []).getD j 0).mark t p
  | 4 =>
    let t2 := cwTile2 a
    let load := cwLoad a
    -- the resident pair: dY by tile row, dYᵀ, the lead's, by its row; a load's own rows take the dYᵀ that their group names
    let join (f : Nat → Operand) : Operand :=
      { fmt := (f (grpAt 0)).fmt, rows := o.groups.flatMap fun g => (f g).rows, poison := o.groups.any fun g => (f g).poison }
    let dy := if load then (join (aSeg 0), bSeg 0 (grpAt 0)) else e.dY.getD ({}, {})
    let k := if load then 1 else 0
    let xs := o.groups.map (aSeg k); let wsg := o.groups.map (bSeg k)
    let px := o.tainted || dy.1.poison || dy.2.poison
    let dyT (b : Nat) : Operand := if load then bSeg 0 (grpAt b) else dy.2
    let dX := (List.range 32).map fun i => (List.range 32).map fun j =>
      wsum (old t i j) ((rowOf' dy.1 i).zip (rowOf' (wsg.getD (bandOf 32 n i).1 {}) j))
    let dW := (List.range 32).map fun i =>
      let (b, r) := bandOf 32 n i
      (List.range 32).map fun j => wsum (old t2 i j) ((rowOf' (xs.getD b {}) r).zip (rowOf' (dyT b) j))
    let e' := { e with dY := some dy }
    (((e'.setTile t fun i j => (dX.getD i []).getD j 0).mark t (px || (!cwClr a && e.bad t))).setTile t2 fun i j => (dW.getD i []).getD j 0).mark
      t2 (px || (!cwClr a && e.bad t2))
  | 9 =>
    let as := o.groups.map fun g => segment 0 (o.got 0 g)
    let bs := o.groups.map fun g => o.bSeg g 0
    let p := o.tainted || (!cwClr a && e.bad t)
    let elem (i j : Nat) : Nat × Nat × Nat × Nat :=
      let (b, r) := bandOf 16 n i
      (List.range 8).foldl (fun (x : Nat × Nat × Nat × Nat) k =>
        let (ar, ai) := cplxAt (as.getD b []) (8 * r + k)
        let (br, bi) := cplxAt (bs.getD b []) (8 * j + k)
        let m (u v : Nat) : Val := (f32.decode u).mul (f32.decode v)
        let (rh, rl) := cacc x.1 x.2.1 (m ar br) (if cwConj a then m ai bi else (m ai bi).neg)
        let (ih, il) := cacc x.2.2.1 x.2.2.2 (if cwConj a then (m ar bi).neg else m ar bi) (m ai br)
        (rh, rl, ih, il)) (old t (2 * i) (2 * j), old t (2 * i) (2 * j + 1), old t (2 * i + 1) (2 * j), old t (2 * i + 1) (2 * j + 1))
    let all := (List.range 16).map fun i => (List.range 16).map fun j => elem i j
    (e.setTile t fun i j =>
      let x := (all.getD (i / 2) []).getD (j / 2) (0, 0, 0, 0)
      if i % 2 = 0 then (if j % 2 = 0 then x.1 else x.2.1) else (if j % 2 = 0 then x.2.2.1 else x.2.2.2)).mark t p
  | _ => e
/-- MATRIX_PASS: the first operation of the engine whose passes are not done runs them once its data has arrived. -/
def State.matrixPass (s : State) (core part : Nat) : State :=
  let s := s.takeEntries core part
  let e := s.engine core part
  match e.ops with
  | o :: rest =>
    if !o.passed && 0 < o.segs && o.dataDone then
      let e' := e.pass o
      s.setEngine core part { e' with ops := { o with passed := true } :: rest }
    else s
  | [] => s

/-! ### Drains (R272, R276) -/
/-- Output row `i` of a drain: bytes, and the scale of a block format. -/
def Engine.drainRow (e : Engine) (seed : Nat) (o : MxOp) (i : Nat) : List Nat × Nat :=
  let t := cwTile o.a.toNat
  let pos j := t * 2 ^ 32 + 32 * i + j
  let mode := rmode o.rnd
  let row := (List.range 32).map fun j => e.acc' t i j
  match o.modi with
  | 0 => (row, 0x7F)
  | 1 => (row.zipIdx.map fun (x, j) => bf16.round (f32.decode x) mode (srBits seed (pos j)), 0x7F)
  | m =>
    let f : EFmt := if m = 2 then .e4m3 else if m = 3 then .e5m2 else .i8
    let q := qblock f (cwPol o.a.toNat) mode seed (pos 0) (row.map f32.decode)
    (q.codes, q.scale)
/-- The entries group number `b` of a drain receives. -/
def Engine.drainEntries (e : Engine) (seed : Nat) (o : MxOp) (b : Nat) : List VEnt :=
  let n := 32 / max 1 o.groups.length
  let rows := (List.range n).map fun r => e.drainRow seed o (n * b + r)
  let p := e.bad (cwTile o.a.toNat)
  match o.modi with
  | 0 => rows.map fun r => ventOf r.1 noShadow p
  | 1 => (chunk 2 ([], 0) 16 rows).map fun rs =>
      ventOf (rs.flatMap fun r => (List.range 16).map fun k => r.1.getD (2 * k) 0 + r.1.getD (2 * k + 1) 0 * 65536) noShadow p
  | _ => (chunk 4 ([], 0x7F) 8 rows).map fun rs =>
      ventOf (rs.flatMap fun r => blkWords .e4m3 (r.1 ++ List.replicate (32 - r.1.length) 0)) (rs.map fun r => ⟨BitVec.ofNat 8 r.2, 0x7F⟩) p
/-- MDRAIN_ENTRY_DELIVERY: an entry is placed in the `mqo` of a group that has room. -/
def State.drainDeliver (s : State) (core part : Nat) : State :=
  let e := s.engine core part
  match e.ops with
  | o :: rest =>
    if o.idx = 6 && !cwDst o.a.toNat then
      match o.groups.zipIdx.find? fun (k, b) =>
          decide (Tbl.get o.sent k 0 < (e.drainEntries 0 o b).length) && decide ((s.group core k).mqo.length < 16) with
      | none => s
      | some (k, b) =>
        let es := e.drainEntries (s.gridOf core k).seed.toNat o b
        let i := Tbl.get o.sent k 0
        let s := s.setEngine core part { e with ops := { o with sent := Tbl.put o.sent k (i + 1) } :: rest }
        s.updGroup core k fun g => { g with mqo := g.mqo ++ (es[i]?).toList }
    else s
  | [] => s
/-- The end of a drain: amax, poison's record, CLR (R272, R277). -/
def State.drainEnd (s : State) (core part : Nat) (o : MxOp) : State :=
  let e := s.engine core part
  let t := cwTile o.a.toNat
  let s :=
    if e.bad t then
      s.record (s.groupRec core (o.groups.headD 0) .uncorrectable 2 (if cwDst o.a.toNat then BitVec.ofNat 64 (o.b.toNat % 2 ^ 32) else 0) t)
    else if cwAmxe o.a.toNat then
      s.cellMax core (cwAmc o.a.toNat) o.ctx ((List.range 1024).map fun k => e.acc' t (k / 32) (k % 32) % 2 ^ 31)
    else s
  if cwClr o.a.toNat then s.setEngine core part ((s.engine core part).setTile t fun _ _ => 0) else s
/-- A drain's rows in scratch. -/
def State.drainRows (s : State) (core part : Nat) (o : MxOp) : State :=
  let e := s.engine core part
  let dstr := bits o.b.toNat 47 32
  let seed := (s.gridOf core (o.groups.headD 0)).seed.toNat
  let p := e.bad (cwTile o.a.toNat)
  (List.range 32).foldl (fun s i =>
    let (xs, sc) := e.drainRow seed o i
    let a := o.place.2 + 32 * dstr * i
    let w := if o.modi = 0 then 4 else if o.modi = 1 then 2 else 1
    let s := s.writeRow o.place.1 a 5 ((xs.flatMap fun x => toBytesLE w x).map (·, p))
    if 2 ≤ o.modi then s.scrSetSlot o.place.1 a 0 (BitVec.ofNat 8 sc) else s) s
/-- Set a tile from scratch (R271). -/
def State.loadTile (s : State) (core part : Nat) (o : MxOp) : State :=
  let e := s.engine core part
  let dstr := bits o.b.toNat 47 32
  let bf := cwInbf o.a.toNat
  let n := if bf then 2 else 4
  let rows := (List.range 32).map fun i =>
    s.seen 216 (some o.place.1) 0 (o.place.2 + 32 * dstr * i) (s.scrRead o.place.1 (o.place.2 + 32 * dstr * i) (32 * n)).1
  let p := (List.range 32).any fun i => (s.scrRead o.place.1 (o.place.2 + 32 * dstr * i) (32 * n)).2
  let t := cwTile o.a.toNat
  let v (i j : Nat) : Nat :=
    let x := ofBytesLE (((rows.getD i []).drop (n * j)).take n)
    if bf then x * 65536 else x
  s.setEngine core part ((e.setTile t v).mark t p)
/-- Change the configuration (R273, R277). -/
def State.configure (s : State) (core part : Nat) (o : MxOp) : State :=
  let e := s.engine core part
  match o.a.toNat with
  | 0 => s.setEngine core part { e with escape := bitAt o.b.toNat 0 }
  | 1 =>
    let (bs, p) := s.scrRead o.place.1 o.place.2 512
    let bs := s.seen 216 (some o.place.1) 0 o.place.2 bs
    if p then s.record (s.groupRec core (o.groups.headD 0) .uncorrectable 2 (BitVec.ofNat 64 (o.b.toNat % 2 ^ 32)) 0)
    else s.setEngine core part { e with base := (List.range 256).map fun k => (k, BitVec.ofNat 16 (ofBytesLE ((bs.drop (2 * k)).take 2))) }
  | _ => s.setEngine core part { e with base := [] }
/-- Remove the oldest operation and count it out in its groups (R276). -/
def State.retireOp (s : State) (core part : Nat) (o : MxOp) : State :=
  let e := s.engine core part
  let s := s.setEngine core part { e with ops := e.ops.drop 1 }
  o.groups.foldl (fun s k => s.updGroup core k fun g => g.tlDone o.id) s
/-- MATRIX_OP_COMPLETION: the engine's oldest operation completes. -/
def State.matrixDone (s : State) (core part : Nat) : State :=
  let e := s.engine core part
  match e.ops with
  | [] => s
  | o :: _ =>
    match o.idx with
    | 3 | 4 | 9 => if o.passed then s.retireOp core part o else s
    | 5 =>
      let e' := o.tiles.foldl (fun e t => (e.setTile t fun _ _ => 0).mark t false) e
      (s.setEngine core part e').retireOp core part o
    | 6 =>
      if cwDst o.a.toNat then ((s.drainRows core part o).drainEnd core part o).retireOp core part o
      else if o.groups.zipIdx.all fun (k, b) => Tbl.get o.sent k 0 == (e.drainEntries 0 o b).length then
        (s.drainEnd core part o).retireOp core part o
      else s
    | 7 => (s.loadTile core part o).retireOp core part o
    | 8 => (s.configure core part o).retireOp core part o
    | _ => s
/-- Abandon operations from the `i`-th on: their tiles are poisoned, a record is written for each, and they count out
(R264, R278). -/
def State.abandon (s : State) (core part : Nat) (os : List MxOp) : State :=
  os.foldl (fun s o =>
    let e := s.engine core part
    let e' := o.tiles.foldl (fun e t => e.mark t true) e
    let s := s.setEngine core part { e' with ops := e.ops.filter fun x => x.id != o.id }
    let s := o.groups.foldl (fun s k => s.updGroup core k fun g => g.tlDone o.id) s
    s.record (s.groupRec core (o.groups.headD 0) .abandoned 2 0 (cwTile o.a.toNat))) s
/-- MATRIX_HEADER_FAILURE (R264): `mcfg` and `glapp` are no matrix operations, and stay (R276, R286). -/
def State.headerFailure (s : State) (core part : Nat) : State :=
  match s.badHeader core part with
  | none => s
  | some (i, w) =>
    let e := s.engine core part
    match e.ops[i]? with
    | none => s
    | some o =>
      let s := o.groups.foldl (fun s k => s.updGroup core k fun g => { g with mqa := g.mqa.filter (·.held), mqb := g.mqb.filter (·.held) }) s
      let s := s.record (s.groupRec core (o.groups.headD 0) .illegalOperand 2 0 w)
      s.abandon core part ((e.ops.drop i).filter fun x => x.idx != 8 && x.idx != 10)
/-- Operations short of data are abandoned, as at a team's end (R278). -/
def State.abandonShort (s : State) (core part : Nat) : State :=
  let s := s.takeEntries core part
  s.abandon core part ((s.engine core part).ops.filter fun o => 0 < o.segs && !o.passed && !o.dataDone)

end Sys2Proof.Machine
end

