-- ==== Sys2Proof/Machine/GLog.lean ====
section
/-! DEFINITION. Gradient logs and the merge engines: the checks and acceptance of `glapp` and `glfold`, the record write, FOLD under
the row locks, and the retirement of a fold request (R279 to R287). -/
namespace Sys2Proof.Machine

/-! ### Descriptors and records (R279 to R281) -/
def ldRing (d : Nat) : Nat := bits d 63 0
def ldNrec (d : Nat) : Nat := bits d 79 64
def ldMaster (d : Nat) : Nat := bits d 191 128
def ldNwt (d : Nat) : Nat := bits d 207 192
def ldPut (d : Nat) : Nat := bits d 287 256
def ldGet (d : Nat) : Nat := bits d 319 288
def ldSatc (d : Nat) : Nat := bits d 351 320
/-- Reserved fields zero, NREC and NWT nonzero. -/
def ldLegal (d : Nat) : Bool :=
  bits d 127 80 == 0 && bits d 255 208 == 0 && bits d 511 352 == 0 && ldNrec d != 0 && ldNwt d != 0
/-- The descriptor as it stands at the home unit. -/
def State.logDesc (s : State) (pa key : Nat) : Nat := ofBytesLE (s.devRead key pa 64).1
/-- Write a 32-bit field of a descriptor. -/
def State.logField (s : State) (pa key off v : Nat) : State := s.devWrite none key (pa + off) (toBytesLE 4 v) false
/-- The address of record `q`. -/
def recordVa (d q : Nat) : Nat := (ldRing d + 4128 * (q % ldNrec d)) % 2 ^ 64

/-! ### Issue (R284, R285) -/
/-- Steps 3 and 4 of R285: the descriptor's place and its bits. -/
def State.planLog (s : State) (core grp a : Nat) : Except LaneOut (Nat × Nat × Nat) := do
  let l ← s.checkGlobal core grp .objR a 64
  match l with
  | .dev pa key _ _ =>
    let (bs, bad) := s.loadBytes core (s.cachedNow core grp) l 64
    if bad then .error (.trap .uncorrectable (BitVec.ofNat 64 a)) else .ok (pa, key, ofBytesLE bs)
  | .scr .. => .ok (0, 0, 0)
/-- Step 6: the ring's first page is of aperture 1. -/
def State.planRing (s : State) (core grp d : Nat) : Except LaneOut Unit :=
  match s.xlat (some core) (s.ctxOf core grp) .load (ldRing d) with
  | .ok _ _ apt _ _ _ _ => if apt = 1 then .ok () else .error (.park .aperture (BitVec.ofNat 64 (ldRing d)))
  | .fault c => .error (.park c (BitVec.ofNat 64 (ldRing d)))
  | .arriving l => .error (.parkLayer l)
def State.planGlapp (s : State) (core grp a b : Nat) : Except LaneOut MxOp := do
  if !s.holds core grp then .error (.trap .engineNotReserved 0)
  let (pa, key, d) ← s.planLog core grp a
  let wid := bits b 47 32
  if bits b 31 9 != 0 || bits b 63 48 != 0 || !ldLegal d || ldNwt d ≤ wid || !s.tilesOk core grp 6 b then .error badValue
  s.planRing core grp d
  if 7 ≤ (s.group core grp).tl then .error (.stall .again)
  .ok { id := 0, idx := 10, a := BitVec.ofNat 32 b, groups := [grp], ctx := s.ctxOf core grp, log := pa, logKey := key,
        va := BitVec.ofNat 64 a, wid := wid }
def State.planGlfold (s : State) (core grp a b : Nat) : Except LaneOut Fold := do
  if a % 64 ≠ 0 then .error (.trap .misaligned (BitVec.ofNat 64 a))
  let m ← s.cmdOffset core grp (b % 2 ^ 32) 16 16
  let (pa, key, d) ← s.planLog core grp a
  let w0 := bits b 47 32
  let n := bits b 63 48 + 1
  if !ldLegal d || ldNwt d ≤ w0 || ldNwt d < w0 + n then .error badValue
  s.planRing core grp d
  s.chunksOk core grp m.place 16
  .ok { log := pa, key := key, s := 0, w0 := w0, wn := n, ctx := s.ctxOf core grp, core := core, grp := grp,
        team := (s.group core grp).team, va := BitVec.ofNat 64 (b % 2 ^ 32), gslot := grp }

/-! ### Acceptance (R286, R287) -/
def State.setLog (s : State) (pa : Nat) (x : GLog) : State := { s with merge := { s.merge with logs := Tbl.put s.merge.logs pa x } }
def State.theLog (s : State) (pa key ctx : Nat) (va : DWord) : GLog := Tbl.get s.merge.logs pa ⟨key, ctx, va, [], 0, none⟩
/-- A `glapp` is accepted: it takes the slot PUT and enters the engine's order and the tl counter. -/
def State.acceptGlapp (s : State) (core grp lane : Nat) (o : MxOp) : State :=
  let q := ldPut (s.logDesc o.log o.logKey)
  let o := { o with id := s.nextTxn, seq := q }
  let s := { s with nextTxn := s.nextTxn + 1 }.logField o.log o.logKey 32 (q + 1)
  let x := s.theLog o.log o.logKey o.ctx o.va
  let s := s.setLog o.log { x with recs := x.recs ++ [⟨q, o.wid, false, core, grp, (s.teamOf core grp).idx⟩] }
  let p := s.partOf core grp
  let e := s.engine core p
  (s.setEngine core p { e with ops := e.ops ++ [o] }).updGroup core grp fun g => g.tlAdd { id := o.id, kind := .glapp, lane := lane }
/-- A `glfold` is accepted: it takes S := PUT. -/
def State.acceptGlfold (s : State) (f : Fold) : State :=
  let f := { f with s := ldPut (s.logDesc f.log f.key) }
  { s with merge := { s.merge with folds := Tbl.put s.merge.folds s.merge.nextFold f, nextFold := s.merge.nextFold + 1 } }

/-! ### The record (R280, R286) -/
/-- The bytes of an element sector: elements 8k to 8k + 7 of a tile in storage order. -/
def Engine.tileSector (e : Engine) (t k : Nat) : List Byte :=
  (List.range 8).flatMap fun i => toBytesLE 4 (e.acc' t ((8 * k + i) / 32) ((8 * k + i) % 32))
/-- One engine sector write through a context's translation, with sideband 0x7F. -/
def State.logSector (s : State) (ctx va : Nat) (bs : List Byte) (poison : Bool) : State :=
  let (pa, key) := s.pa none ctx .store va
  let s := (s.touch none ctx true va).devWrite none key pa bs poison
  (s.devSetSlot pa 0 0x7F).devSetSlot pa 1 0x7F
/-- Whether a matrix or merge engine's access to a range may go on: `none`, or what happens while it waits; a layer that is absent or
withdrawn is asked for (R341; log entry 63). -/
def State.engineWait (s : State) (ctx : Nat) (n : Need) (va len : Nat) : Option State :=
  match s.rangeFault none ctx n va len with
  | none => none
  | some (.fault .layerWithdrawn, a) => some (match (s.ctx ctx).layerOf a with | some l => s.requestLayer ctx l | none => s)
  | some _ => some s
/-- GLAPP_RECORD_WRITE: the engine's oldest operation, a `glapp` whose slot is free, writes its record, clears the tile where CLR
asks it, and completes. -/
def State.glappWrite (s : State) (core part : Nat) : State :=
  let e := s.engine core part
  match e.ops with
  | [] => s
  | o :: _ =>
    let d := s.logDesc o.log o.logKey
    if o.idx ≠ 10 ∨ ldNrec d ≤ (o.seq + 2 ^ 32 - ldGet d) % 2 ^ 32 then s
    else
      let t := cwTile o.a.toNat
      let va := recordVa d o.seq
      match s.engineWait o.ctx .store va 4128 with
      | some s' => s'
      | none =>
      let s := s.logSector o.ctx va (toBytesLE 32 (o.wid + o.seq * 2 ^ 32)) false
      let s := (List.range 128).foldl (fun s k => s.logSector o.ctx (va + 32 + 32 * k) (e.tileSector t k) (e.bad t)) s
      let s := if bitAt o.a.toNat 8 then s.setEngine core part (e.setTile t fun _ _ => 0) else s
      let x := s.theLog o.log o.logKey o.ctx o.va
      let s := s.setLog o.log { x with recs := x.recs.map fun (r : GRec) => if r.seq = o.seq then { r with ready := true } else r }
      s.retireOp core part o

/-! ### FOLD (R282) -/
/-- A master row: the shared exponent and the mantissas. -/
structure MRow where
  e : Nat
  m : List Int
  deriving DecidableEq, Repr
def mrowOf (bs : List Byte) : MRow :=
  ⟨(bs.getD 160 0).toNat, (List.range 32).map fun j => sgn 40 (ofBytesLE ((bs.drop (5 * j)).take 5))⟩
def MRow.bytes (r : MRow) : List Byte :=
  (r.m.flatMap fun x => toBytesLE 5 (wrapI 40 x)) ++ toBytesLE 32 r.e
/-- RI(d / 2^u): to an integer with RNE. -/
def roundInt (d : Dy) (u : Int) : Int :=
  let n : Int := (roundAt d u .rne 0 : Nat)
  if d.neg then -n else n
/-- The sums of a fold with growth `k`. -/
def foldSums (r : MRow) (xs : List Dy) (k : Nat) : List Int :=
  (r.m.zip xs).map fun (m, x) => roundInt (Dy.ofInt m 0) k + roundInt x (((r.e + k : Nat) : Int) - 165)
/-- The largest magnitude a mantissa takes. -/
def mantMax : Int := ((2 ^ 39 - 1 : Nat) : Int)
/-- The least `k` at which every sum fits. -/
def foldGrow (r : MRow) (xs : List Dy) : Nat → Nat → Option Nat
  | 0, _ => none
  | n + 1, k =>
    if 0xFE < r.e + k then none
    else if (foldSums r xs k).all fun t => decide (t.natAbs < 2 ^ 39) then some k
    else foldGrow r xs n (k + 1)
/-- FOLD of R282: the row, and whether it saturated. -/
def foldRow (r : MRow) (xs : List Val) : MRow × Bool :=
  if r.e = 0xFF then (r, false)
  else
    let ds := xs.filterMap fun v => match v with | .fin d => some d | _ => none
    if ds.length != xs.length then (⟨0xFF, List.replicate 32 0⟩, false)
    else match foldGrow r ds 256 0 with
      | some k => (⟨r.e + k, foldSums r ds k⟩, false)
      | none =>
        let k := 0xFE - r.e
        (⟨r.e + k, (foldSums r ds k).map fun t => satI t (-mantMax) mantMax⟩, true)

/-! ### Folding a record (R283) -/
/-- Read a sector-aligned range with its poison, through a context's translation. -/
def State.logRead (s : State) (ctx va n : Nat) : List Byte × Bool :=
  (s.vread ctx va n, (List.range (n / 32)).any fun k => s.mem.poisoned (s.pa none ctx .load (va + 32 * k)).1 1)
/-- The address of row `i` of a master tile (R281). -/
def rowVa (d wid i : Nat) : Nat := (ldMaster d + 6144 * wid + 192 * i) % 2 ^ 64
/-- Fold one row under its lock. -/
def State.foldOne (s : State) (x : GLog) (pa d rec_ wid i : Nat) : State :=
  let va := rowVa d wid i
  let (mb, mp) := s.logRead x.ctx va 192
  let (rb, rp) := s.logRead x.ctx (rec_ + 32 + 128 * i) 128
  let (r, sat) := foldRow (mrowOf mb) ((List.range 32).map fun j => f32.decode (ofBytesLE ((rb.drop (4 * j)).take 4)))
  let s := (s.touchRange x.ctx false va 192).touchRange x.ctx false (rec_ + 32 + 128 * i) 128
  let s := (List.range 6).foldl (fun s k =>
    let (p, key) := s.pa none x.ctx .store (va + 32 * k)
    (s.touch none x.ctx true (va + 32 * k)).devWrite none key p ((r.bytes.drop (32 * k)).take 32) (mp || rp)) s
  if sat then s.logField pa x.key 40 (ldSatc (s.logDesc pa x.key) + 1) else s
/-- A fault record of the merge engine for a gradient record (R420). -/
def GLog.fault (x : GLog) (r : GRec) (c : Cause) : FRec :=
  { cause := c, src := 3, ctx := x.ctx, core := r.core, gslot := r.grp, team := r.team, addr := x.va, detail := BitVec.ofNat 32 r.seq }
/-- The die whose merge engine folds a log: that of its ring's vault memory (R11, R279). -/
def State.logDie (s : State) (pa : Nat) (x : GLog) : Nat := dieOf (vaultCore (s.pa none x.ctx .load (ldRing (s.logDesc pa x.key))).1)
/-- The weight tile that the header of a log's oldest record names (R280). -/
def State.recordWid (s : State) (pa : Nat) (x : GLog) (r : GRec) : Nat :=
  bits (ofBytesLE (s.logRead x.ctx (recordVa (s.logDesc pa x.key) r.seq) 32).1) 15 0
/-- Where the master row that a log folds next begins in memory: its lock's place (R282). -/
def State.rowPa (s : State) (pa : Nat) (x : GLog) (r : GRec) : Nat :=
  (s.pa none x.ctx .load (rowVa (s.logDesc pa x.key) (s.recordWid pa x r) x.row)).1
/-- A log's request for its row's lock, made at time `t`, is the next granted: none for the same row arrived before, nor in the same
clock from a merge engine of a lower die (R282). -/
def State.lockFirst (s : State) (pa : Nat) (x : GLog) (r : GRec) (t : Nat) : Bool :=
  !s.merge.logs.any fun p => p.1 != pa && (match p.2.asked, p.2.recs with
    | some u, q :: _ => s.rowPa p.1 p.2 q == s.rowPa pa x r &&
        (u < t || (u == t && (s.logDie p.1 p.2 < s.logDie pa x || (s.logDie p.1 p.2 == s.logDie pa x && p.1 < pa))))
    | _, _ => false)
/-- The oldest record of a log is done with: GET advances (R283). -/
def State.foldEnd (s : State) (pa : Nat) (x : GLog) : State :=
  let s := s.logField pa x.key 36 (ldGet (s.logDesc pa x.key) + 1)
  if x.recs.length ≤ 1 then { s with merge := { s.merge with logs := Tbl.del s.merge.logs pa } }
  else s.setLog pa { x with recs := x.recs.drop 1, row := 0, asked := none }
/-- The next row of a log's oldest record: its lock is asked for, and once it is granted the row is folded; after the last row the record
is done with (R282, R283).  A lock is granted after the clock in which it is asked for, when every request of that clock has come, and a
fold takes a clock (log entry 23). -/
def State.foldNext (s : State) (pa : Nat) (x : GLog) (r : GRec) : State :=
  let d := s.logDesc pa x.key
  let va := recordVa d r.seq
  let wid := s.recordWid pa x r
  match s.engineWait x.ctx .store (rowVa d wid x.row) 192 with
  | some s' => s'
  | none =>
    match x.asked with
    | none => s.setLog pa { x with asked := some s.now }
    | some t =>
      if s.now ≤ t || !s.lockFirst pa x r t then s
      else
        let s' := (s.foldOne x pa d va wid x.row).tick
        if x.row < 31 then s'.setLog pa { x with row := x.row + 1, asked := some s'.now }
        else (if (s.logRead x.ctx va 4128).2 then s'.record (x.fault r .uncorrectable) else s').foldEnd pa x
/-- RECORD_FOLD: the merge engine goes on with the oldest record of a log, once it is eligible: it folds its next row, or skips it. -/
def State.recordFold (s : State) (pa : Nat) : State :=
  match Tbl.find s.merge.logs pa with
  | none => s
  | some x => match x.recs with
    | [] => s
    | r :: _ =>
      if !r.ready then s
      else match s.engineWait x.ctx .load (recordVa (s.logDesc pa x.key) r.seq) 4128 with
        | some s' => s'
        | none =>
          if ldNwt (s.logDesc pa x.key) ≤ s.recordWid pa x r then (s.record (x.fault r .recordSkipped)).foldEnd pa x
          else s.foldNext pa x r
/-- The place a scratch offset of a team names now. -/
def State.scrPlace (s : State) (team ofs : Nat) : Nat × Nat :=
  let t := s.team team
  let p := if bitAt ofs 28 then s.team ((s.peerTeam t (bits ofs 27 24)).getD team) else t
  (p.core, p.scrBase + bits ofs 18 0)
/-- Every record a fold request covers has been folded. -/
def State.foldReady (s : State) (f : Fold) : Bool :=
  match Tbl.find s.merge.logs f.log with
  | none => true
  | some x => x.recs.all fun r => decide ((f.s + 2 ^ 32 - r.seq) % 2 ^ 32 = 0) || decide (2 ^ 31 ≤ (f.s + 2 ^ 32 - r.seq) % 2 ^ 32) ||
      !(decide (f.w0 ≤ r.wid) && decide (r.wid < f.w0 + f.wn))
/-- The L1 data cache of a core keeps no sector of the master rows a fold request names: its retirement makes the folds' writes visible
to the lanes that wait on the mooring (R187, R287). -/
def State.dropRows (s : State) (core : Nat) (f : Fold) : State :=
  let d := s.logDesc f.log f.key
  let va := ldMaster d + 6144 * f.w0
  let n := 6144 * f.wn
  let runs := (List.range ((va + n - 1) / 65536 + 1 - va / 65536)).map fun i =>
    let lo := max va ((va / 65536 + i) * 65536)
    ((s.pa none f.ctx .load (lo % 2 ^ 64)).1, min (va + n) ((va / 65536 + i + 1) * 65536) - lo)
  let k := s.core core
  s.setCore core { k with l1 := k.l1.keep fun j _ => !runs.any fun (pa, m) => pa ≤ 32 * j && 32 * j < pa + m }
/-- GLFOLD_RETIREMENT: one arrival on the mooring; held while the team is pre-empted (R287).  A team whose grid was aborted while it was
suspended has no region any more, and its arrival goes with it (R321). -/
def State.glfoldDone (s : State) (k : Nat) : State :=
  match Tbl.find s.merge.folds k with
  | none => s
  | some f =>
    let t := s.team f.team
    if !s.foldReady f || t.st == .suspended || t.st == .halted then s
    else
      let p := s.scrPlace f.team f.va.toNat
      let s := { s with merge := { s.merge with folds := Tbl.del s.merge.folds k } }
      if t.scrLen = 0 then s else
      let r : Retire := { kind := 1, core := some p.1, addr := p.2, va := f.va }
      let s := s.arrive r
      match (s.mooring r).ret 1 0 with
      | some m => (s.dropRows p.1 f).moorPut none r m
      | none => State.tick <| s.record { cause := .mooringMisuse, src := 5, ctx := f.ctx, core := f.core, gslot := f.gslot, team := t.idx, addr := f.va }

end Sys2Proof.Machine
end

