-- ==== Sys2Proof/Machine/Fabric.lean ====
section
/-! DEFINITION. Windows, reflections, batches with their daymarks, and the Beacons (R350 to R370). -/
namespace Sys2Proof.Machine

/-! ### Groups wherever they are (R361) -/
/-- The place of a team's group while it is resident. -/
def State.memberAt (s : State) (team gi : Nat) : Option (Nat × Nat) := (s.groupsOf team).find? fun p => (s.group p.1 p.2).idx == gi
/-- A team's group, resident or saved. -/
def State.member (s : State) (team gi : Nat) : Group :=
  match s.memberAt team gi with
  | some p => s.group p.1 p.2
  | none => match (s.team team).saved with
    | some v => Tbl.get v.groups gi {}
    | none => {}
def State.updMember (s : State) (team gi : Nat) (f : Group → Group) : State :=
  match s.memberAt team gi with
  | some p => s.updGroup p.1 p.2 f
  | none => match (s.team team).saved with
    | some v => s.setTeam team { s.team team with saved := some { v with groups := Tbl.put v.groups gi (f (Tbl.get v.groups gi {})) } }
    | none => s
def Group.bslot (g : Group) (t : Nat) : BSlot := Tbl.get g.slots t {}
def Group.setBslot (g : Group) (t : Nat) (b : BSlot) : Group := { g with slots := Tbl.put g.slots t b }

/-! ### Retirements on global moorings -/
/-- The mooring at a global address of a context, where one may lie (R182). -/
def State.gmoor (s : State) (ctx : Nat) (va : DWord) : Option Retire :=
  if va.toNat % 16 ≠ 0 then none
  else match s.xlat none ctx .objRW va.toNat with
    | .ok pa key _ _ _ _ _ => some { core := none, addr := pa, va := va, key := key }
    | _ => none
/-- A retirement on a global mooring; a refused one writes the given record as MOORING_MISUSE (R183, R420). -/
def State.retireOn (s : State) (r : Option Retire) (kind units : Nat) (rec_ : FRec) : State :=
  let s := match r with | some r => s.arrive r | none => s
  match r.bind fun r => ((s.mooring r).ret kind units).map fun m => (r, m) with
  | some (r, m) => (s.touch none rec_.ctx true r.va.toNat).moorPut none r m
  | none => (s.record { rec_ with cause := .mooringMisuse, src := 5, detail := 0 }).tick

/-! ### The window mapping table (R352 to R354) -/
def txAt (e : BitVec 512) (hi lo : Nat) : Nat := bits e.toNat hi lo
def rxAt (e : BitVec 256) (hi lo : Nat) : Nat := bits e.toNat hi lo
/-- Whether a valid transmit entry of a context holds every byte of a range. -/
def txHolds (e : BitVec 512) (ctx va n : Nat) : Bool :=
  txAt e 0 0 == 1 && txAt e 47 32 == ctx && decide (txAt e 127 64 ≤ va) && decide (va + n ≤ txAt e 127 64 + 65536 * txAt e 159 128)
/-- The target list of an entry. -/
def txList (e : BitVec 512) : List Nat := (List.range (min 8 (txAt e 11 8))).map fun k => txAt e (267 + 12 * k) (256 + 12 * k)
/-- Whether an entry reflects: reserved fields zero, a defined ACK, and the device's own id only where LOOP allows it (R355). -/
def txGood (e : BitVec 512) (me : Nat) : Bool :=
  txAt e 31 22 == 0 && txAt e 63 48 == 0 && txAt e 191 160 == 0 && txAt e 511 352 == 0 && txAt e 7 6 != 3 &&
    (txAt e 1 1 == 1 || txAt e 2 2 == 1 || !(txList e).contains me)
def State.me (s : State) : Nat := s.fabric.devId.toNat
/-- The entry a store at a page of aperture 3 goes through; `none` is WINDOW_UNMAPPED (R355). -/
def State.txFor (s : State) (ctx va n : Nat) : Option (BitVec 512) :=
  match s.fabric.tx.find? fun p => txHolds p.2 ctx va n with
  | some (_, e) => if txGood e s.me then some e else none
  | none => none
/-- The devices an entry reaches (R354, R355). -/
def State.txTargets (s : State) (e : BitVec 512) : List Nat :=
  if txAt e 1 1 = 1 then (Tbl.get s.fabric.mcast (txAt e 263 256) []).filter fun d => d != s.me || txAt e 2 2 == 1
  else txList e
/-- A target the device serves itself: its own id over the loop path, or an id absent from the domain (R370). -/
def State.localTarget (s : State) (d : Nat) : Bool := d == s.me || !s.inDomain d

/-! ### Sending (R355, R356, R360) -/
/-- The current tag's slot is closing: traffic of a batch does not issue. -/
def State.tagClosing (s : State) (core grp : Nat) : Bool := ((s.group core grp).bslot (s.group core grp).tag).st == 2
/-- Identity of a group's batch as it is carried. -/
def batchId (team gi tag : Nat) : Nat := (team * 32 + gi) * 4 + tag
/-- Put a message into the reflection order of its path. -/
def State.launchFlight (s : State) (f : Flight) : State :=
  { s with fabric := { s.fabric with net := s.fabric.net ++ [{ f with id := s.nextFlight }] }, nextFlight := s.nextFlight + 1 }
/-- Add a (target, path) pair to the current slot, opening it (R360). -/
def Group.touchBatch (g : Group) (tgt path : Nat) : Group :=
  let b := g.bslot g.tag
  let b := if b.st = 0 then { st := 1 } else b
  g.setBslot g.tag { b with touched := if b.touched.contains (tgt, path) then b.touched else b.touched ++ [(tgt, path)] }
/-- Reflect, through an entry, a store of a group already performed on a page of aperture 3: a run of bytes with the places it did
not write, and slots. -/
def State.reflectVia (s : State) (core grp ctx : Nat) (e : BitVec 512) (va : Nat) (bs : List Byte) (side : List (Nat × Nat × Byte)) (poison : Bool)
    (gaps : List Nat) : State :=
  let ack := txAt e 7 6
  let path := txAt e 5 3
  let g := s.group core grp
  (s.txTargets e).foldl (fun s d =>
    let r : Reflect :=
      { src := s.me, path := path, rxid := txAt e 21 12, off := va - txAt e 127 64, bytes := bs, side := side,
        batch := batchId g.team g.idx g.tag, ack := ack, bad := if poison then bs.length else 0, gaps := gaps }
    let s := if ack = 2 then s.updGroup core grp fun g => g.touchBatch d path else s
    s.launchFlight { id := 0, tgt := d, path := path, cargo := .refl r, team := g.team, gi := g.idx, core := core, grp := grp, tag := g.tag,
                     ack := ack, amoor := BitVec.ofNat 64 (txAt e 255 192), va := BitVec.ofNat 64 va, ctx := ctx }) s
/-- Reflect a run of bytes without slots. -/
def State.reflect (s : State) (core grp ctx va : Nat) (bs : List Byte) : State :=
  match s.txFor ctx va bs.length with
  | none => s
  | some e => s.reflectVia core grp ctx e va bs [] false []
/-- Send a Beacon operation of a lane (R360, R369). -/
def State.sendBeacon (s : State) (core grp tgt : Nat) (o : BeaconOp) (va : DWord) : State :=
  let g := s.group core grp
  let s := s.updGroup core grp fun g => g.touchBatch tgt 0
  s.launchFlight { id := 0, tgt := tgt, path := 0, cargo := .beacon { o with batch := batchId g.team g.idx g.tag }, team := g.team, gi := g.idx,
                   core := core, grp := grp, tag := g.tag, ack := 2, va := va, ctx := s.ctxOf core grp }
/-- Close a slot: a marker to each target on each touched path; the number of targets (R360, R363). -/
def State.closeSlot (s : State) (core grp t : Nat) (rec_ : Option Retire) : Nat × State :=
  let g := s.group core grp
  let b := g.bslot t
  if b.st ≠ 1 then (0, s)
  else
    let tgts := (b.touched.map (·.1)).eraseDups
    let r := rec_.getD {}
    let s := s.setGroup core grp (g.setBslot t { b with st := 2, await := tgts, fence := rec_.isNone, record := r.addr, recKey := r.key, recVa := r.va })
    (tgts.length, b.touched.foldl (fun s (d, p) =>
      s.launchFlight { id := 0, tgt := d, path := p, cargo := .close (b.touched.filter (·.1 == d)).length, team := g.team, gi := g.idx,
                       core := core, grp := grp, tag := t, ctx := s.ctxOf core grp }) s)
/-- The last lane of a group exits: every open slot is closed (R361). -/
def State.closeAll (s : State) (core grp : Nat) : State := (List.range 4).foldl (fun s t => (s.closeSlot core grp t none).2) s
/-- `wfence` is over: nothing sent before its ticket is unperformed or unclosed (R363). -/
def State.fenced (s : State) (team gi ticket : Nat) : Bool :=
  s.fabric.net.all fun f => !(f.team == team && f.gi == gi && f.id < ticket) ||
    (f.done.isSome && (match f.cargo with | .close _ => false | _ => true))

/-! ### Performing a reflection (R357) -/
/-- Cut a run at sector boundaries: (address, bytes). -/
def splitSecs : Nat → Nat → List Byte → List (Nat × List Byte)
  | 0, _, _ => []
  | n + 1, a, bs => if bs.isEmpty then [] else
    let k := 32 - a % 32
    (a, bs.take k) :: splitSecs n (a + k) (bs.drop k)
/-- Whether every page of a range is of aperture 4 and writable. -/
def State.rxPages (s : State) (ctx va n : Nat) : Bool :=
  (List.range ((va + n - 1) / 65536 + 1 - va / 65536)).all fun i =>
    let a := max va (65536 * (va / 65536 + i))
    match s.walk ctx a with
    | .leaf x _ _ => leafApt x == 4 && leafWr x && (match s.xlat none ctx .store a with | .ok .. => true | _ => false)
    | _ => false
/-- What a reflection writes, as offsets and sizes: its bytes, and the sectors of its slots. -/
def reflExtents (r : Reflect) : List (Nat × Nat) :=
  (if r.bytes.isEmpty then [] else [(r.off, r.bytes.length)]) ++ r.side.map fun (o, _, _) => (o / 32 * 32, 32)
/-- The runs of bytes it writes from an address on, cut at sector boundaries. -/
def reflRuns (r : Reflect) (va : Nat) : List (Nat × List Byte) :=
  if r.gaps.isEmpty then splitSecs r.bytes.length va r.bytes
  else (r.bytes.zipIdx.filter fun p => !r.gaps.contains p.2).map fun p => (va + p.2, [p.1])
/-- The receive entry. -/
def State.rxEntry (s : State) (k : Nat) : BitVec 256 := Tbl.get s.fabric.rx k 0
/-- A target performs a reflection: its error bitmap. -/
def State.performRefl (s : State) (r : Reflect) : State × BitVec 16 :=
  let e := s.rxEntry r.rxid
  let ctx := rxAt e 31 16
  let va := rxAt e 127 64 + r.off
  if rxAt e 0 0 = 0 then (s, 1)
  else if r.src < rxAt e 171 160 ∨ rxAt e 183 172 < r.src then (s, 4)
  else if (reflExtents r).any fun (o, n) => 65536 * rxAt e 159 128 < o + n then (s, 2)
  else if (reflExtents r).any fun (o, n) => !s.rxPages ctx (rxAt e 127 64 + o) n then (s, 1)
  else
    let (s, bad) := (reflRuns r va).foldl (fun (acc : State × Bool) (a, bs) =>
      let (pa, key) := acc.1.pa none ctx .store a
      let s := (acc.1.touch none ctx true a).devWrite none key pa bs (decide (a - va < r.bad))
      (s, acc.2 || (s.mem.sector pa).poison)) (s, false)
    let s := r.side.foldl (fun s (off, k, v) =>
      (s.touch none ctx true (rxAt e 127 64 + off)).devSetSlot (s.pa none ctx .store (rxAt e 127 64 + off)).1 k v) s
    let s := if rxAt e 2 1 = 1 then
        s.retireOn (s.gmoor ctx (BitVec.ofNat 64 (rxAt e 255 192))) 2 (r.bytes.length - r.gaps.length) { cause := .mooringMisuse, ctx := ctx, addr := BitVec.ofNat 64 (rxAt e 255 192) }
      else s
    (s, if bad then 8 else 0)
/-- NOTE 2: a closed batch retires one arrival for a receive entry it wrote (R353, R360). -/
def State.noteBatch (s : State) (k : Nat) : State :=
  let e := s.rxEntry k
  if rxAt e 2 1 = 2 then
    s.retireOn (s.gmoor (rxAt e 31 16) (BitVec.ofNat 64 (rxAt e 255 192))) 1 0
      { cause := .mooringMisuse, ctx := rxAt e 31 16, addr := BitVec.ofNat 64 (rxAt e 255 192) }
  else s

/-! ### Returns to the issuing group (R359, R360, R363) -/
def Flight.rec_ (s : State) (f : Flight) (addr : DWord) (bitmap : BitVec 16) : FRec :=
  { cause := .reflectionError, src := 7, ctx := f.ctx, core := f.core, gslot := f.grp, team := (s.team f.team).idx, addr := addr,
    detail := bitmap.zeroExtend 32 }
def State.dropFlight (s : State) (id : Nat) : State :=
  { s with fabric := { s.fabric with net := s.fabric.net.filter fun (f : Flight) => f.id != id } }
def State.markFlight (s : State) (id : Nat) (b : BitVec 16) : State :=
  { s with fabric := { s.fabric with net := s.fabric.net.map fun (f : Flight) => if f.id = id then { f with done := some b } else f } }
/-- Gather error bits for a batch's daymark. -/
def State.addErr (s : State) (f : Flight) (b : BitVec 16) : State :=
  if b = 0 then s
  else s.updMember f.team f.gi fun g =>
    let x := g.bslot f.tag
    g.setBslot f.tag { x with errs := Tbl.put x.errs f.tgt (Tbl.get x.errs f.tgt 0 ||| b) }
/-- The target of a flight has performed it, with this bitmap. -/
def State.performed (s : State) (f : Flight) (b : BitVec 16) : State :=
  match f.cargo with
  | .close _ => s.markFlight f.id b
  | _ =>
    if f.ack = 1 then s.markFlight f.id b
    else if f.ack = 2 then (s.addErr f b).dropFlight f.id
    else
      let s := s.dropFlight f.id
      if b = 0 then s else s.record (f.rec_ s f.va b)
/-- The first message of the loop path, or of an absent target, that stands unperformed on a path. -/
def State.loopHead (s : State) (path : Nat) : Option Flight :=
  s.fabric.net.find? fun f => f.path == path && s.localTarget f.tgt && f.done.isNone
/-- Whether the target tells this device when it performs the message by no return of its own: a reflection of ACK 0 or 2, and `bred`. -/
def Flight.silent (f : Flight) : Bool :=
  match f.cargo with
  | .refl r => r.ack != 1
  | .beacon o => o.kind == .bred
  | _ => false
/-- No earlier message of a flight's reflection order stands unperformed.  One that brings a return of its own may have been performed
with its return still on the way (R359, R360, R369). -/
def State.flightFirst (s : State) (f : Flight) : Bool :=
  !s.fabric.net.any fun x => x.id < f.id && x.tgt == f.tgt && x.path == f.path && x.done.isNone && x.silent
/-- Remember that a batch wrote a receive entry over the loop path. -/
def State.noteRx (s : State) (f : Flight) (k : Nat) : State :=
  s.updMember f.team f.gi fun g =>
    let x := g.bslot f.tag
    g.setBslot f.tag { x with rx := if x.rx.contains k then x.rx else x.rx ++ [k] }
/-- Gather a bitmap and a written entry of another device's batch. -/
def State.noteRemote (s : State) (r : Reflect) (b : BitVec 16) : State :=
  { s with fabric := { s.fabric with
      remoteErrs := (r.src, r.batch, b) :: s.fabric.remoteErrs
      remoteRx := if b &&& 7 = 0 && !s.fabric.remoteRx.contains (r.src, r.batch, r.rxid) then (r.src, r.batch, r.rxid) :: s.fabric.remoteRx
                  else s.fabric.remoteRx } }
def State.sendOut (s : State) (kind dst : Nat) (data : List Nat) : State :=
  { s with fabric := { s.fabric with sent := ⟨kind, dst, data⟩ :: s.fabric.sent } }
/-- A Beacon operation of this device that awaits the reply a reflection brings; a reply is no store, and carries acknowledgement mode 3. -/
def State.replyTo (s : State) (r : Reflect) : Option Flight :=
  if r.ack ≠ 3 then none
  else s.fabric.net.find? fun f => f.tgt == r.src && f.done.isNone && (match f.cargo with
    | .beacon o => o.kind != .bred && o.rxid == r.rxid && o.rofs == r.off
    | _ => false)
/-- REFLECTION_ARRIVAL (R357). -/
def State.reflArrive (s : State) (a : ReflArrival) : State :=
  match a with
  | .loop path =>
    match s.loopHead path with
    | none => s
    | some f => match f.cargo with
      | .refl r =>
        if f.tgt = s.me then
          let (s, b) := s.performRefl r
          let s := if f.ack = 2 && b &&& 7 = 0 then s.noteRx f r.rxid else s
          s.performed f b
        else s.performed f 1
      | .reply r =>
        let (s, b) := s.performRefl r
        s.performed f (b &&& 7)
      | _ => s
  | .remote r =>
    match s.replyTo r with
    | some f =>
      let (s, b) := s.performRefl r
      s.performed f (b &&& 7)
    | none =>
      let (s, b) := s.performRefl r
      if r.ack = 1 then s.sendOut 0 r.src [b.toNat]
      else if r.ack = 2 then s.noteRemote r b
      else s
/-- REFLECTION_ACKNOWLEDGEMENT (R359): for a message of the loop path performed under ACK 1, its acknowledgement; for one to
another device, that the target has performed it with this bitmap.  An acknowledgement waits while its team is suspended (R361). -/
def State.ackArrive (s : State) (k : Nat) (b : BitVec 16) : State :=
  match s.fabric.net.find? fun f => f.id == k with
  | none => s
  | some f =>
    let back (s : State) (b : BitVec 16) : State :=
      let s := s.dropFlight k
      let s := s.retireOn (s.gmoor f.ctx f.amoor) 2 1 { f.rec_ s f.amoor 0 with cause := .mooringMisuse, src := 5 }
      if b = 0 then s else s.record (f.rec_ s f.va b)
    if f.ack = 1 && (s.team f.team).st == .suspended then s
    else match f.cargo with
    | .close _ => s
    | .refl _ =>
      if s.localTarget f.tgt then (if f.ack = 1 then (match f.done with | some d => back s d | none => s) else s)
      else if !s.flightFirst f then s
      else if f.ack = 1 then back s b
      else s.performed f b
    | .beacon o => if s.localTarget f.tgt || o.kind != .bred || !s.flightFirst f then s else s.performed f b
    | .reply _ => s
/-- CLOSE_MARKER_ARRIVAL (R360). -/
def State.markerArrive (s : State) (a : CloseArrival) : State :=
  match a with
  | .loop path =>
    match s.loopHead path with
    | none => s
    | some f => match f.cargo with
      | .close _ =>
        let s := s.markFlight f.id 0
        let left := s.fabric.net.any fun x => x.team == f.team && x.gi == f.gi && x.tag == f.tag && x.tgt == f.tgt && x.done.isNone &&
          (match x.cargo with | .close _ => true | _ => false)
        if left || f.tgt ≠ s.me then s
        else ((s.member f.team f.gi).bslot f.tag).rx.foldl State.noteBatch s
      | _ => s
  | .remote src _ npaths batch =>
    let got := (s.fabric.marks.filter (· == (src, batch))).length + 1
    if got < npaths then { s with fabric := { s.fabric with marks := (src, batch) :: s.fabric.marks } }
    else
      let errs := (s.fabric.remoteErrs.filter fun x => x.1 == src && x.2.1 == batch).foldl (fun (m : BitVec 16) x => m ||| x.2.2) 0
      let rxs := (s.fabric.remoteRx.filter fun x => x.1 == src && x.2.1 == batch).map (·.2.2)
      let s := rxs.foldl State.noteBatch s
      { s with fabric := { s.fabric with
          marks := s.fabric.marks.filter (· != (src, batch)),
          remoteErrs := s.fabric.remoteErrs.filter fun x => !(x.1 == src && x.2.1 == batch),
          remoteRx := s.fabric.remoteRx.filter fun x => !(x.1 == src && x.2.1 == batch),
          sent := ⟨1, src, [batch, errs.toNat]⟩ :: s.fabric.sent } }
/-- A slot frees; a slot closed by `wfence` whose bitmaps are not all zero writes its record (R363, R420). -/
def State.freeSlot (s : State) (f : Flight) (b : BSlot) : State :=
  let s := s.updMember f.team f.gi fun g => g.setBslot f.tag {}
  let all := b.errs.foldl (fun (m : BitVec 16) p => m ||| p.2) 0
  if b.fence && all != 0 then s.record (f.rec_ s 0 all) else s
/-- DAYMARK_ARRIVAL (R360, R363): `k` names a close marker of the batch; a daymark waits while its team is suspended (R361). -/
def State.daymark (s : State) (k tgt : Nat) (bitmap : BitVec 16) : State :=
  match s.fabric.net.find? fun f => f.id == k && f.tgt == tgt with
  | none => s
  | some f => match f.cargo with
    | .close _ =>
      let same (x : Flight) : Bool := x.team == f.team && x.gi == f.gi && x.tag == f.tag && x.tgt == tgt
      let isClose (x : Flight) : Bool := match x.cargo with | .close _ => true | _ => false
      let isReturn (x : Flight) : Bool := match x.cargo with | .beacon o => o.kind != .bred | .reply _ => true | _ => false
      let mine := s.fabric.net.filter same
      let batch := mine.filter fun x => isClose x || x.ack == 2
      let due := if s.localTarget tgt then batch.all fun x => isClose x && x.done.isSome else batch.all fun x => !isReturn x
      if !due || (s.team f.team).st == .suspended then s
      else
        let b := (s.member f.team f.gi).bslot f.tag
        let bm := (if s.localTarget tgt then 0 else bitmap) ||| Tbl.get b.errs tgt 0 ||| (if s.inDomain tgt then 0 else 1)
        let ids := batch.map (·.id)
        let s := { s with fabric := { s.fabric with net := s.fabric.net.filter fun (x : Flight) => !ids.contains x.id } }
        let s :=
          if b.fence then s
          else
            let a := b.record + 16
            let w := ofBytesLE (s.devRead b.recKey a 4).1
            let s := s.devWrite none b.recKey a (toBytesLE 4 (w ||| bm.toNat)) false
            s.retireOn (some { core := none, addr := b.record, va := b.recVa, key := b.recKey }) 1 0 (f.rec_ s b.recVa 0)
        let b := { b with errs := Tbl.put b.errs tgt bm, await := b.await.filter (· != tgt) }
        let s := s.updMember f.team f.gi fun g => g.setBslot f.tag b
        if b.await.isEmpty then s.freeSlot f b else s
    | _ => s

/-! ### Beacons (R365 to R369) -/
def beaconBit : BKind → Nat
  | .bcas => 1 | .benq => 2 | .bchase => 3 | .bred => 4
/-- Whether a source is allowed an operation on every byte of a range (R366). -/
def State.exposed (s : State) (src : Nat) (k : BKind) (a n : Nat) : Bool :=
  src == s.me || s.fabric.expo.any fun p =>
    let e := p.2
    rxAt e 0 0 == 1 && bitAt e.toNat (beaconBit k) && decide (rxAt e 27 16 ≤ src) && decide (src ≤ rxAt e 39 28) &&
      decide (rxAt e 127 64 ≤ a) && decide (a + n ≤ rxAt e 127 64 + 65536 * rxAt e 159 128)
/-- The error bit of a Beacon's access: 2 out of range, 4 not exposed, 0 allowed. -/
def State.bcnBit (s : State) (src : Nat) (k : BKind) (a n : Nat) : BitVec 16 :=
  if !s.frameOk (a / 65536) || !s.frameOk ((a + n - 1) / 65536) then 2 else if !s.exposed src k a n then 4 else 0
/-- A Beacon's step reads and writes under the key the sector stands under (log entry 16). -/
def State.bcnRead (s : State) (a n : Nat) : Nat × Bool :=
  (ofBytesLE ((List.range n).map fun i => s.mem.getKey (s.mem.sector (a + i)).key (a + i)), s.mem.poisoned a n)
def State.bcnWrite (s : State) (a n v : Nat) : State := s.devWrite none (s.mem.sector a).key a (toBytesLE n v) false
/-- The reply's 64 bytes: DATA, bitmap, EFF, COUNT. -/
def replyBytes (data : Nat) (b : BitVec 16) (eff : Bool) (count : Nat) : List Byte :=
  toBytesLE 32 data ++ toBytesLE 32 (b.toNat + bit01 eff * 2 ^ 16 + count * 2 ^ 24)
/-- The outcome of an operation at its Beacon: bitmap, DATA, EFF, COUNT, and whether DATA's sector is poisoned. -/
structure BOut where
  b : BitVec 16 := 0
  data : Nat := 0
  eff : Bool := false
  count : Nat := 0
  bad : Bool := false
  deriving DecidableEq, Repr
def State.doBcas (s : State) (o : BeaconOp) : State × BOut :=
  let n := 8 * (o.cnt + 1)
  let b := s.bcnBit o.src .bcas o.addr n
  if b ≠ 0 then (s, { b := b })
  else
    let (old, bad) := s.bcnRead o.addr n
    if bad then (s, { b := 8, data := old })
    else if old = o.opa % 2 ^ (8 * n) then (s.bcnWrite o.addr n o.opb, { data := old, eff := true })
    else (s, { data := old })
def State.doBenq (s : State) (o : BeaconOp) : State × BOut :=
  let b := s.bcnBit o.src .benq o.addr 32
  if b ≠ 0 then (s, { b := b })
  else
    let (h, bad) := s.bcnRead o.addr 32
    let nslot := bits h 31 0
    let put := bits h 63 32
    if bad then (s, { b := 8 })
    else if nslot ≤ (put + 2 ^ 32 - bits h 95 64) % 2 ^ 32 then (s, { data := put })
    else
      let a := o.addr + 32 + 16 * (put % nslot)
      let b := if a / 65536 ≠ o.addr / 65536 then (2 : BitVec 16) else s.bcnBit o.src .benq a 16
      if b ≠ 0 then (s, { b := b, data := put })
      else if (s.bcnRead a 16).2 then (s, { b := 8, data := put })
      else (((s.bcnWrite a 16 (o.opa / 2 ^ 0 % 2 ^ 128)).bcnWrite (o.addr + 4) 4 (put + 1)), { data := put, eff := true })
/-- The pointer chase: hops done, the pointer, and the bitmap; `end_` says a null pointer was read. -/
def State.chase (s : State) (o : BeaconOp) : Nat → Nat → Nat → Nat × Nat × BitVec 16 × Bool
  | 0, p, h => (p, h, 0, false)
  | n + 1, p, h =>
    let a := p + 8 * o.poff
    let b := s.bcnBit o.src .bchase a 8
    if b ≠ 0 then (p, h, b, false)
    else
      let (q, bad) := s.bcnRead a 8
      if bad then (p, h + 1, 8, false)
      else if q = 0 then (p, h + 1, 0, true)
      else
        let b := s.bcnBit o.src .bchase (q + 8 * o.poff) 8
        let b := if s.frameOk (q / 65536) then b else 2
        if b ≠ 0 then (p, h + 1, b, false) else s.chase o n q (h + 1)
def State.doBchase (s : State) (o : BeaconOp) : BOut :=
  let (p, h, b, null) := s.chase o (o.cnt + 1) o.addr 0
  let a := p + 8 * o.doff
  let b2 := s.bcnBit o.src .bchase a 24
  let (x, bad) := if b2 = 0 then s.bcnRead a 24 else (0, false)
  { b := b ||| b2, data := p % 2 ^ 64 + x * 2 ^ 64, eff := null, count := h, bad := bad }
/-- `bred` performs each element indivisibly. -/
def State.doBred (s : State) (o : BeaconOp) : State × BOut :=
  let w := if o.rkind = 1 then 8 else 4
  let b := s.bcnBit o.src .bred o.addr (w * (o.cnt + 1))
  if b ≠ 0 then (s, { b := b })
  else
    (List.range (o.cnt + 1)).foldl (fun (acc : State × BOut) e =>
      let a := o.addr + w * e
      let (old, bad) := acc.1.bcnRead a w
      let v := o.opa / 2 ^ (8 * w * e) % 2 ^ (8 * w)
      let new := if o.rkind = 2 then atomFlt (afopOf o.rop) old v else atomInt (8 * w) (aopOf o.rop) old v
      if bad then (acc.1, { acc.2 with b := acc.2.b ||| 8 }) else (acc.1.bcnWrite a w new, acc.2)) (s, {})
/-- The operation at its Beacon. -/
def State.doBeacon (s : State) (o : BeaconOp) : State × BOut :=
  match o.kind with
  | .bcas => s.doBcas o
  | .benq => s.doBenq o
  | .bchase => (s, s.doBchase o)
  | .bred => s.doBred o
def replyOf (o : BeaconOp) (src : Nat) (x : BOut) : Reflect :=
  { src := src, path := 0, rxid := o.rxid, off := o.rofs, bytes := replyBytes x.data x.b x.eff x.count, side := [], batch := o.batch,
    ack := 3, bad := if x.bad then 32 else 0 }
/-- A Beacon step of one kind (R369): the head of the loop path, or another device's operation.  A reply of the loop path enters
path 0 behind what stands there. -/
def State.beaconStep (s : State) (k : BKind) (a : BeaconArrival) : State :=
  match a with
  | .loop =>
    match s.loopHead 0 with
    | none => s
    | some f => match f.cargo with
      | .beacon o =>
        if o.kind ≠ k then s
        else
          let (s, x) := if f.tgt = s.me then s.doBeacon o else (s, { b := 1, data := if k = .bchase then o.addr else 0 })
          let s := s.addErr f x.b
          if k = .bred then s.dropFlight f.id
          else
            let s := s.dropFlight f.id
            { s with fabric := { s.fabric with net := s.fabric.net ++ [{ f with cargo := .reply (replyOf o s.me x) }] } }
      | _ => s
  | .remote o =>
    if o.kind ≠ k then s
    else
      let (s, x) := s.doBeacon o
      let s := { s with fabric := { s.fabric with remoteErrs := (o.src, o.batch, x.b) :: s.fabric.remoteErrs } }
      if k = .bred then s
      else
        let r := replyOf o s.me x
        s.sendOut 2 o.src ([r.rxid, r.off, r.bad] ++ r.bytes.map (·.toNat))

/-! ### Issue of BCN words and of windowed stores (R355, R368) -/
/-- The check of a store on a page of aperture 3. -/
def State.checkWindow (s : State) (core grp : Nat) (va n : Nat) : Except LaneOut Unit :=
  match s.txFor (s.ctxOf core grp) va n with
  | none => .error (.trap .windowUnmapped (BitVec.ofNat 64 va))
  | some e => if txAt e 7 6 = 2 && s.tagClosing core grp then .error (.stall .again) else .ok ()
/-- The target of a Beacon operation: translation with RD and WR, aperture 3 refused, peer-homed pages under RAP (R368 step 5). -/
def State.beaconTarget (s : State) (core grp ea : Nat) : Except LaneOut (Nat × Nat) :=
  match s.xlat (some core) (s.ctxOf core grp) .red ea with
  | .ok pa _ _ dev _ _ _ => .ok (dev, pa)
  | .fault c => .error (.park c (BitVec.ofNat 64 ea))
  | .arriving l => .error (.parkLayer l)
/-- The checks of R368 and the operation they admit. -/
def State.planBeacon (s : State) (core grp : Nat) (k : BKind) (a b : Nat) : Except LaneOut (BeaconOp × Nat) := do
  let l ← s.checkScratch core grp (b % 2 ^ 32) 32 128
  if bitAt b 28 && s.peerTeam (s.teamOf core grp) (bits b 27 24) != some (s.group core grp).team then
    .error (.trap .aperture (BitVec.ofNat 64 (b % 2 ^ 32)))
  if (s.locRead l 128).2 then .error (.trap .uncorrectable (BitVec.ofNat 64 (b % 2 ^ 32)))
  let x := ofBytesLE (s.locRead l 128).1
  let cnt := bits x 51 48
  let rop := bits x 55 52
  let rkind := bits x 57 56
  let rofs := bits x 47 16
  let cntOk : Bool := match k with
    | .bcas => cnt ≤ 3
    | .bred => cnt ≤ (if rkind = 1 then 3 else 7)
    | .bchase => true
    | .benq => cnt == 0
  let redOk := rkind ≤ 2 && rop ≤ 8 && !(rop == 8 && rkind == 2)
  if bits x 15 10 != 0 || bits x 63 58 != 0 || bits x 255 80 != 0 || bits x 1023 768 != 0 || !cntOk || !redOk ||
      (k != .bred && rofs % 64 != 0) then .error badValue
  let w := if rkind = 1 then 8 else 4
  let aligned : Bool := match k with
    | .bcas => a % 8 == 0 && a % 32 + 8 * (cnt + 1) ≤ 32
    | .benq => a % 32 == 0
    | .bchase => a % 8 == 0
    | .bred => a % w == 0 && a % 128 + w * (cnt + 1) ≤ 128
  if !aligned then .error (.trap .misaligned (BitVec.ofNat 64 a))
  let (dev, pa) ← s.beaconTarget core grp a
  let rxid := bits x 9 0
  let e := s.rxEntry rxid
  if k != .bred && (rxAt e 0 0 == 0 || 65536 * rxAt e 159 128 < rofs + 64) then .error (.trap .windowUnmapped (BitVec.ofNat 64 rofs))
  if s.tagClosing core grp then .error (.stall .again)
  .ok ({ kind := k, src := s.me, addr := pa, rxid := rxid, rofs := rofs, cnt := cnt, rop := rop, rkind := rkind, poff := bits x 71 64,
         doff := bits x 79 72, opa := if k = .benq then bits x 383 256 else bits x 511 256, opb := bits x 767 512, batch := 0 }, dev)

end Sys2Proof.Machine
end

