-- ==== Sys2Proof/Machine/Coll.lean ====
section
/-! DEFINITION. Collectives: sharding layouts, the checks of a descriptor, the exchange, its events and its failure (R371 to R386,
R421).  The plan is the direct one: every contribution goes from its member to each owner, which combines the contributions
in ascending coordinate order (log entry 17). -/
namespace Sys2Proof.Machine

/-! ### How a check ends (R292, R376) -/
/-- How the check of a packet ends. -/
inductive PktCheck where
  | bad (code : Nat)
  /-- it waits, unstarted; a withdrawn layer on its way is named -/
  | wait (layer : Option Nat)
  /-- it waits for room in the work table -/
  | full
  | go
  deriving DecidableEq, Repr
/-- A range a packet, a record or a list names: a page-class fault the Keeper does not service is ECODE 3; a layer's withdrawal
is serviced by requesting it, and a layer's arrival is awaited (R292, R323). -/
def State.pktRange (s : State) (ctx : Nat) (n : Need) (va len : Nat) : PktCheck :=
  match s.rangeFault none ctx n va len with
  | none => .go
  | some (.arriving _, _) => .wait none
  | some (.fault .layerWithdrawn, a) => (match (s.ctx ctx).layerOf a with | some l => .wait (some l) | none => .bad 3)
  | some _ => .bad 3
/-- The first check of a list that does not pass. -/
def firstCheck (xs : List PktCheck) : PktCheck := (xs.find? (· != .go)).getD .go
/-- A condition and its code. -/
def need (ok : Bool) (code : Nat) : PktCheck := if ok then .go else .bad code
/-- What a check that waits for a layer asks for. -/
def State.askFor (s : State) (ctx : Nat) (l : Option Nat) : State := match l with | some l => s.requestLayer ctx l | none => s

/-! ### Layouts (R371 to R373) -/
/-- The bits of a shorthand: per dimension its LOG2, K and X fields; `local_` is the next local bit. -/
def expandDims : List Nat → Nat → List (Bool × Nat)
  | [], _ => []
  | w :: ws, loc =>
    let n := bits w 5 0
    let k := min (bits w 7 6) n
    let here := (List.range n).map fun i =>
      if n - k ≤ i then (let t := n - 1 - i; (true, bits w (11 + 4 * t) (8 + 4 * t))) else (false, loc + i)
    here ++ expandDims ws (loc + (n - k))
/-- Reserved fields and ranges of a shorthand word. -/
def dimOk (w : Nat) : Bool :=
  let k := bits w 7 6
  bits w 31 20 == 0 && k ≤ bits w 5 0 && (List.range 3).all fun t => t < k || bits w (11 + 4 * t) (8 + 4 * t) == 0
/-- Bytes of a layout descriptor with a header word. -/
def layoutBytes (h : Nat) : Nat := if bitAt h 7 then 8 + 4 * bits h 6 0 else 8 + bits h 6 0
/-- The layout a descriptor's bytes describe; `none` for one that is illegal (R373). -/
def layoutOf (nmb : Nat) (bs : List Byte) : Option Layout :=
  let h := ofBytesLE (bs.take 8)
  let cnt := bits h 6 0
  let body := bs.drop 8
  let fields := if bitAt h 7 then
      (let ws := (List.range cnt).map fun j => ofBytesLE ((body.drop (4 * j)).take 4)
       (expandDims ws 0, cnt != 0 && decide (cnt ≤ 8) && ws.all dimOk && decide ((ws.map (bits · 5 0)).sum ≤ 64)))
    else
      (let ws := (List.range cnt).map fun j => (body.getD j 0).toNat
       (ws.map fun w => (bitAt w 7, bits w 5 0), decide (cnt ≤ 64) && ws.all fun w => !bitAt w 6))
  let x : Layout := { map := fields.1, part := bits h 19 8 }
  let locals := (x.map.filter fun p => !p.1).map (·.2)
  let named := (x.map.filter fun p => p.1).map (·.2)
  if fields.2 && bits h 63 20 == 0 && (List.range locals.length).all (locals.contains ·) && named.all (fun k => k < nmb && !bitAt x.part k) &&
      named.eraseDups.length == named.length && decide (x.part < 2 ^ nmb) then some x
  else none
/-- Local bits of a layout. -/
def Layout.localBits (x : Layout) : Nat := (x.map.filter fun p => !p.1).length
/-- Local offset of an element. -/
def Layout.offset (x : Layout) (e : Nat) : Nat :=
  (x.map.zipIdx.map fun (p, i) => if p.1 then 0 else bit01 (bitAt e i) * 2 ^ p.2).sum
/-- Whether a member owns an element (R375). -/
def Layout.owns (x : Layout) (m e : Nat) : Bool := x.map.zipIdx.all fun (p, i) => !p.1 || bitAt m p.2 == bitAt e i
/-- Whether a mesh bit is named by an index bit. -/
def Layout.names (x : Layout) (k : Nat) : Bool := x.map.any fun p => p.1 && p.2 == k

/-! ### The descriptor (R374) -/
def cdSfmt (d : Nat) : Nat := bits d 3 0
def cdWfmt (d : Nat) : Nat := bits d 7 4
def cdDfmt (d : Nat) : Nat := bits d 11 8
def cdRnd (d : Nat) : Nat := bits d 14 12
def cdPol (d : Nat) : Nat := bits d 16 15
def cdPath (d : Nat) : Nat := bits d 19 17
def cdNmb (d : Nat) : Nat := bits d 31 28
def cdNbkt (d : Nat) : Nat := bits d 38 32
def cdSrc (d : Nat) : Nat := bits d 127 64
def cdDst (d : Nat) : Nat := bits d 191 128
def cdSlay (d : Nat) : Nat := bits d 255 192
def cdDlay (d : Nat) : Nat := bits d 319 256
def cdMesh (d : Nat) : Nat := bits d 383 320
def cdStage (d : Nat) : Nat := bits d 447 384
def cdStagen (d : Nat) : Nat := bits d 479 448
def cdGen (d : Nat) : Nat := bits d 511 480
def cdNvalid (d : Nat) : Nat := bits d 575 512
def cdRdy (d : Nat) : Nat := bits d 639 576
def cdBke (d : Nat) : Nat := bits d 671 640
/-- The mooring of event `k`. -/
def cdMoor (d k : Nat) : Nat := bits d (767 + 64 * k) (704 + 64 * k)
def fmtOk (f : Nat) : Bool := f == 0 || f == 1 || f == 5 || f == 7 || f == 8
def isBlk (f : Nat) : Bool := f < 7
/-- Bytes an element takes in memory, and on the wire. -/
def elemSize (f : Nat) : Nat := if f = 7 then 4 else if f = 8 then 2 else 1
/-- Bytes of a segment of `2^l` elements. -/
def segBytes (f l : Nat) : Nat := if isBlk f then ceilDiv (2 ^ l) 32 * 32 else elemSize f * 2 ^ l
/-- A range of a descriptor: as a packet's, with code 12 for an aperture (R376). -/
def State.collRange (s : State) (ctx : Nat) (n : Need) (va len : Nat) : PktCheck :=
  match s.rangeFault none ctx n va len with
  | some (.fault .aperture, _) => .bad 12
  | _ => s.pktRange ctx n va len
/-- Whether every page of a range is of aperture 0 or 1. -/
def State.stageOk (s : State) (ctx va len : Nat) : Bool :=
  (List.range (len / 65536)).all fun i => match s.walk ctx (va + 65536 * i) with
    | .leaf x _ _ => leafApt x ≤ 1
    | _ => true
/-- The element-independent checks of R376. -/
def cdFields (d : Nat) : Bool :=
  fmtOk (cdSfmt d) && fmtOk (cdWfmt d) && fmtOk (cdDfmt d) && cdRnd d ≤ 4 && cdPol d ≤ 2 && cdNmb d ≤ 12 && cdNbkt d ≤ 64 &&
    bits d 63 39 == 0 && bits d 703 672 == 0 && bits d 1023 1000 == 0 && cdSrc d % 32 == 0 && cdDst d % 32 == 0 &&
    cdStage d % 65536 == 0 && cdStagen d != 0 && cdSlay d % 8 == 0 && cdDlay d % 8 == 0 && (cdNbkt d == 0 || cdRdy d % 8 == 0) &&
    (List.range 3).all fun k => cdMoor d k % 16 == 0
/-- Whether the layouts agree with the descriptor (R376). -/
def cdLayouts (d : Nat) (a b : Layout) : Bool :=
  let blk := isBlk (cdSfmt d) || isBlk (cdWfmt d) || isBlk (cdDfmt d)
  let low (x : Layout) : Bool := (List.range 5).all fun i => x.map[i]? == some (false, i)
  a.map.length == b.map.length && (b.part &&& a.part) == b.part && (!blk || (low a && low b)) &&
    (!blk || (cdNvalid d % 32 == 0 && cdBke d % 32 == 0)) && decide (cdNvalid d ≤ 2 ^ a.map.length) &&
    (cdNbkt d == 0 || decide (2 ^ a.localBits ≤ cdNbkt d * cdBke d)) &&
    (let sn := segBytes (cdSfmt d) a.localBits; let dn := segBytes (cdDfmt d) b.localBits
     decide (cdSrc d + sn ≤ cdDst d) || decide (cdDst d + dn ≤ cdSrc d))
def State.readLayout (s : State) (ctx nmb va : Nat) : Option Layout :=
  layoutOf nmb (s.vread ctx va (layoutBytes (s.vget ctx va 8)))
def State.readMesh (s : State) (ctx d : Nat) : List Nat := (List.range (2 ^ cdNmb d)).map fun m => s.vget ctx (cdMesh d + 2 * m) 2
/-- The marks of reading a descriptor, its layouts and its mesh table (R221). -/
def State.collMarks (s : State) (ctx : Nat) (desc : DWord) : State :=
  let d := s.vget ctx desc.toNat 128
  let lay (s : State) (va : Nat) : State := (s.readMark ctx .objR va 8).readMark ctx .objR va (layoutBytes (s.vget ctx va 8))
  let s := s.readMark ctx .objR desc.toNat 128
  if !cdFields d then s else ((lay (lay s (cdSlay d)) (cdDlay d)).readMark ctx .load (cdMesh d) (2 * 2 ^ cdNmb d))
/-- The check of a descriptor (R376): every byte that the instance may touch, and what the descriptor says. -/
def State.collCheck (s : State) (ctx : Nat) (desc : DWord) : PktCheck :=
  match s.collRange ctx .objRW desc.toNat 128 with
  | .go =>
    let d := s.vget ctx desc.toNat 128
    let ln (va : Nat) : Nat := layoutBytes (s.vget ctx va 8)
    if !cdFields d then .bad 12
    else match firstCheck [s.collRange ctx .objR (cdSlay d) 8, s.collRange ctx .objR (cdDlay d) 8] with
    | .go =>
      match firstCheck [s.collRange ctx .objR (cdSlay d) (ln (cdSlay d)), s.collRange ctx .objR (cdDlay d) (ln (cdDlay d)),
                        s.collRange ctx .load (cdMesh d) (2 * 2 ^ cdNmb d)] with
      | .go =>
        let mesh := s.readMesh ctx d
        match s.readLayout ctx (cdNmb d) (cdSlay d), s.readLayout ctx (cdNmb d) (cdDlay d) with
        | some a, some b =>
          if !cdLayouts d a b || mesh.any (fun x => 4096 ≤ x) || (mesh.filter (· == s.me)).length != 1 ||
              !s.stageOk ctx (cdStage d) (65536 * cdStagen d) then .bad 12
          else firstCheck ([s.collRange ctx .load (cdSrc d) (segBytes (cdSfmt d) a.localBits),
                            s.collRange ctx .store (cdDst d) (segBytes (cdDfmt d) b.localBits),
                            s.collRange ctx .store (cdStage d) (65536 * cdStagen d)] ++
                           (if cdNbkt d = 0 then [] else [s.collRange ctx .load (cdRdy d) (8 * cdNbkt d)]) ++
                           (List.range 3).map fun k => if cdMoor d k = 0 then .go else s.collRange ctx .objRW (cdMoor d k) 16)
        | _, _ => .bad 12
      | r => r
    | r => r
  | r => r

/-! ### The exchange (R377 to R379) -/
def CollInst.present (x : CollInst) : List Nat :=
  List.range (if cdNvalid x.d = 0 then 2 ^ x.slay.map.length else cdNvalid x.d)
/-- The members whose values are summed for an owner's element, ascending: replicated bits of SLAY choose coordinate 0. -/
def CollInst.contribs (x : CollInst) (m e : Nat) : List Nat :=
  (List.range x.mesh.length).filter fun c =>
    x.slay.owns c e && (List.range (cdNmb x.d)).all fun k =>
      if x.slay.names k then true
      else if bitAt x.dlay.part k then bitAt c k == bitAt m k
      else if bitAt x.slay.part k then true
      else !bitAt c k
/-- The elements that member `a` gives member `b`, ascending. -/
def CollInst.flow (x : CollInst) (a b : Nat) : List Nat :=
  x.present.filter fun e => x.dlay.owns b e && (x.contribs b e).contains a
/-- Elements one contribution holds: a 64 KiB slot of the wire format. -/
def CollInst.slotElems (x : CollInst) : Nat := 65536 / elemSize (cdWfmt x.d)
/-- The runs of a flow: their elements. -/
def runsOf (n : Nat) : Nat → List Nat → List (List Nat)
  | 0, _ => []
  | k + 1, es => if es.isEmpty then [] else es.take n :: runsOf n k (es.drop n)
def CollInst.runs (x : CollInst) (a b : Nat) : List (List Nat) := let f := x.flow a b; runsOf x.slotElems (f.length + 1) f
def CollInst.others (x : CollInst) : List Nat := (List.range x.mesh.length).filter (· != x.me)
def CollInst.dev (x : CollInst) (m : Nat) : Nat := x.mesh.getD m 0
def CollInst.bucket (x : CollInst) (e : Nat) : Nat := if cdNbkt x.d = 0 then 0 else x.slay.offset e / max 1 (cdBke x.d)
def CollInst.ready (x : CollInst) (e : Nat) : Bool := x.buckets.contains (x.bucket e)
/-- The value of a code in a format under a scale. -/
def collVal (f code scale : Nat) : Val :=
  if f = 7 then f32.decode code else if f = 8 then bf16.decode code
  else scaled (dec ((EFmt.ofNat? f).getD .i8) code) scale
/-- Convert values to a format: whole blocks for a block format; each value with its SR position. -/
def collConv (f pol rnd seed : Nat) (vs : List (Val × Nat)) : List (Nat × Nat) :=
  let mode := rmode rnd
  if f = 7 then vs.map fun (v, p) => (f32.round v mode (srBits seed p), 0x7F)
  else if f = 8 then vs.map fun (v, p) => (bf16.round v mode (srBits seed p), 0x7F)
  else (runsOf' 32 (vs.length + 1) vs).flatMap fun b =>
    let q := qblockAt ((EFmt.ofNat? f).getD .i8) pol mode seed b
    q.codes.map fun c => (c, q.scale)
where
  /-- Consecutive runs of `n`. -/
  runsOf' (n : Nat) : Nat → List (Val × Nat) → List (List (Val × Nat))
    | 0, _ => []
    | k + 1, es => if es.isEmpty then [] else es.take n :: runsOf' n k (es.drop n)
/-- Address and, for a block format, sector of a segment's element (R375). -/
def segAddr (f base o : Nat) : Nat := if isBlk f then base + 32 * (o / 32) + o % 32 else base + elemSize f * o
/-- The stored code and scale of an element of this member's source, and poison. -/
def State.collRead (s : State) (x : CollInst) (e : Nat) : (Nat × Nat) × Bool :=
  let f := cdSfmt x.d
  let va := segAddr f (cdSrc x.d) (x.slay.offset e)
  let (pa, key) := s.pa none x.ctx .load va
  ((ofBytesLE (s.seen 216 none key pa (s.vread x.ctx va (elemSize f))), if isBlk f then (s.devSlot pa 0).toNat else 0x7F), s.mem.poisoned pa (elemSize f))
/-- SR position of an element under a coordinate (R379). -/
def collPos (m e : Nat) : Nat := m * 2 ^ 52 + e % 2 ^ 52
/-- This member's source elements in the wire format (R379). -/
def State.collWire (s : State) (x : CollInst) (es : List Nat) : List (Nat × Nat) :=
  let raw := es.map fun e => (s.collRead x e).1
  if cdSfmt x.d = cdWfmt x.d then raw
  else collConv (cdWfmt x.d) (cdPol x.d) (cdRnd x.d) x.seed
    ((es.zip raw).map fun (e, c) => (collVal (cdSfmt x.d) c.1 c.2, collPos x.me e))
def collKey (m e : Nat) : Nat := m * 2 ^ 64 + e
/-- The final value of an element of this member, in its wire code when nothing was combined. -/
def CollInst.sum (x : CollInst) (e : Nat) : (Nat × Nat) ⊕ Val :=
  let cs := (x.contribs x.me e).map fun m => Tbl.get x.got (collKey m e) (0, 0)
  match cs with
  | [c] => .inl c
  | [] => .inr (.fin (Dy.zero false))
  | c :: rest =>
    let v (y : Nat × Nat) : Val := collVal (cdWfmt x.d) y.1 y.2
    .inr (rest.foldl (fun acc y => f32.decode (f32.round (Val.sum .rne [acc, v y]) .rne 0)) (v c))
/-- The lowest coordinate that owns an element under DLAY. -/
def CollInst.lowOwner (x : CollInst) (e : Nat) : Nat := ((List.range x.mesh.length).find? fun m => x.dlay.owns m e).getD 0
/-- The destination codes of this member: element, code and scale (R379). -/
def CollInst.results (x : CollInst) : List (Nat × Nat × Nat) :=
  let es := x.present.filter fun e => x.dlay.owns x.me e
  let f := cdDfmt x.d
  let out (es : List Nat) : List (Nat × Nat × Nat) :=
    let sums := es.map x.sum
    let plain := sums.filterMap fun y => match y with | .inl c => some c | .inr _ => none
    let cs := if cdWfmt x.d = f && plain.length == es.length then plain
      else collConv f (cdPol x.d) (cdRnd x.d) x.seed ((es.zip sums).map fun (e, y) =>
        (match y with | .inl c => collVal (cdWfmt x.d) c.1 c.2 | .inr v => v, collPos (x.lowOwner e) e))
    (es.zip cs).map fun (e, c) => (e, c.1, c.2)
  if isBlk f then (runsOf 32 (es.length + 1) es).flatMap out else es.flatMap fun e => out [e]
/-- Write bytes through a context's translation, whole sectors in one request. -/
def State.vwriteSecs (s : State) (ctx : Nat) (xs : List (Nat × Byte)) : State :=
  ((xs.map fun p => p.1 / 32).eraseDups).foldl (fun s k =>
    let here := xs.filter fun p => p.1 / 32 == k
    let at_ (i : Nat) : Option Byte := (here.find? fun p => p.1 == 32 * k + i).map (·.2)
    let (pa, key) := s.pa none ctx .store (32 * k)
    let s := s.touch none ctx true (32 * k)
    let all := (List.range 32).filterMap at_
    if all.length = 32 then s.devWrite none key pa all false
    else here.foldl (fun s p => s.devWrite none key (pa + p.1 % 32) [p.2] false) s) s
/-- Write this member's destination. -/
def State.collStore (s : State) (x : CollInst) : State :=
  let f := cdDfmt x.d
  let rs := x.results
  let va (e : Nat) : Nat := segAddr f (cdDst x.d) (x.dlay.offset e)
  let s := s.vwriteSecs x.ctx (rs.flatMap fun (e, c, _) => (toBytesLE (elemSize f) c).zipIdx.map fun (b, i) => (va e + i, b))
  if isBlk f then rs.foldl (fun s (e, _, sc) => s.devSetSlot (s.pa none x.ctx .store (va e)).1 0 (BitVec.ofNat 8 sc)) s else s

/-! ### Events and failure (R381, R382) -/
def State.inst (s : State) (k : Nat) : CollInst := Tbl.get s.lantern.insts k {}
def State.setInst (s : State) (k : Nat) (x : CollInst) : State :=
  { s with lantern := { s.lantern with insts := Tbl.put s.lantern.insts k x } }
/-- Raise event `n` of an instance: its counter, then the arrival on its mooring; what has lost its translation is not written (log entry
57). -/
def State.collEvent (s : State) (k n : Nat) : State :=
  let x := s.inst k
  if x.ev.getLsbD n then s
  else
    let a := x.desc.toNat + 112 + 4 * n
    let s := if s.vok x.ctx .objRW a 4 then s.vwrite x.ctx a (toBytesLE 4 (s.vget x.ctx a 4 + 1)) else s
    let va := BitVec.ofNat 64 (cdMoor x.d n)
    let s := if va = 0 || !s.vok x.ctx .objRW va.toNat 16 then s
      else s.retireOn (s.gmoor x.ctx va) 1 0 { cause := .mooringMisuse, src := 5, ctx := x.ctx, addr := va }
    let ev := x.ev ||| BitVec.ofNat 3 (2 ^ n)
    s.setInst k { x with ev := ev, finished := n == 2 }
/-- COLLECTIVE_FAILURE: STAT, the record, and the events not yet raised. -/
def State.collFail (s : State) (k why : Nat) : State :=
  let x := s.inst k
  if x.finished then s
  else
    let s := if s.vok x.ctx .objRW x.desc.toNat 128 then s.vwrite x.ctx (x.desc.toNat + 124) (toBytesLE 1 why) else s
    let s := s.record { cause := .collectiveFailed, src := 6, ctx := x.ctx, addr := x.desc, detail := BitVec.ofNat 32 why }
    let s := s.setInst k { x with stat := why }
    ((s.collEvent k 0).collEvent k 1).collEvent k 2
/-- Go on with an access of an instance to ranges of the member, with its marks (R221): a layer that is not in is waited for, and a fault
that the Keeper does not service fails the instance with STAT 3 (R381). -/
def State.collAccess (s : State) (k : Nat) (rs : List (Need × Nat × Nat)) (go : State → State) : State :=
  let x := s.inst k
  match firstCheck (rs.map fun (n, va, len) => s.pktRange x.ctx n va len) with
  | .go => go (rs.foldl (fun s (n, va, len) => s.touchRange x.ctx (n == .store) va len) s)
  | .bad _ => s.collFail k 3
  | .wait l => s.askFor x.ctx l
  | .full => s
/-- Raise an event of a running instance, once its counter, STAT and its mooring can be written. -/
def State.collRaise (s : State) (k n : Nat) : State :=
  let x := s.inst k
  let m := cdMoor x.d n
  s.collAccess k ([(.objRW, x.desc.toNat, 128)] ++ if m = 0 then [] else [(.objRW, m, 16)]) fun s => s.collEvent k n
/-- The source elements of a run, as ranges. -/
def CollInst.srcRanges (x : CollInst) (es : List Nat) : List (Need × Nat × Nat) :=
  es.map fun e => (.load, segAddr (cdSfmt x.d) (cdSrc x.d) (x.slay.offset e), elemSize (cdSfmt x.d))
/-- The destination elements that a member writes, as ranges. -/
def CollInst.dstRanges (x : CollInst) : List (Need × Nat × Nat) :=
  (x.present.filter fun e => x.dlay.owns x.me e).map fun e =>
    (.store, segAddr (cdDfmt x.d) (cdDst x.d) (x.dlay.offset e), elemSize (cdDfmt x.d))
/-- Send to every other member. -/
def State.collTell (s : State) (x : CollInst) (kind : Nat) (data : List Nat) : State :=
  x.others.foldl (fun s m => s.sendOut kind (x.dev m) ([cdPath x.d, x.number, x.me] ++ data)) s
def CollInst.agreed (x : CollInst) : Bool := x.others.all (x.digests.contains ·)
/-- Grant staging slots to the senders, as many as stand free (R378). -/
def State.collGrant (s : State) (k : Nat) : State :=
  let x := s.inst k
  if !x.agreed || x.finished then s
  else
    let due := x.others.flatMap fun m => (x.runs m x.me).filterMap fun r =>
      let e0 := r.headD 0
      if x.given.contains (m, e0) || x.taken.contains (m, e0) then none else some (m, e0)
    let now := due.take (cdStagen x.d - x.given.length)
    let s := s.setInst k { x with given := x.given ++ now }
    now.foldl (fun s (m, e0) => s.sendOut 4 (x.dev m) [cdPath x.d, x.number, x.me, e0]) s
/-- Read the member's own contribution to itself as its buckets become ready. -/
def State.collOwn (s : State) (k : Nat) : State :=
  let x := s.inst k
  let runs := runsOf 32 ((x.flow x.me x.me).length + 1) (x.flow x.me x.me)
  runs.foldl (fun s r =>
    let x := s.inst k
    if x.finished || !r.all x.ready || r.all fun e => (Tbl.find x.got (collKey x.me e)).isSome then s
    else s.collAccess k (x.srcRanges r) fun s =>
      if r.any fun e => (s.collRead x e).2 then s.collFail k 2
      else
      let cs := s.collWire x r
      s.setInst k { x with got := (r.zip cs).foldl (fun t (e, c) => Tbl.put t (collKey x.me e) c) x.got }) s
/-- Send the runs that are granted and whose elements are ready. -/
def State.collSend (s : State) (k : Nat) : State :=
  (s.inst k).grants.foldl (fun s (m, e0) =>
    let x := s.inst k
    match (x.runs x.me m).find? fun r => r.headD 0 == e0 with
    | none => s
    | some r =>
      if x.finished || !r.all x.ready || x.sent.contains (m, e0) then s
      else s.collAccess k (x.srcRanges r) fun s =>
        if r.any fun e => (s.collRead x e).2 then s.collFail k 2
        else
        let cs := s.collWire x r
        (s.setInst k { x with sent := (m, e0) :: x.sent, grants := x.grants.filter (· != (m, e0)) }).sendOut 5 (x.dev m)
          ([cdPath x.d, x.number, x.me, e0] ++ cs.map (·.1) ++ cs.map (·.2))) s
/-- Raise event 0 when every read of the source is done (R382). -/
def State.collEv0 (s : State) (k : Nat) : State :=
  let x := s.inst k
  let all := (List.range (cdNbkt x.d)).all (x.buckets.contains ·) && (cdNbkt x.d != 0 || x.buckets.contains 0)
  let own := (x.flow x.me x.me).all fun e => (Tbl.find x.got (collKey x.me e)).isSome
  let out := x.others.all fun m => (x.runs x.me m).all fun r => x.sent.contains (m, r.headD 0)
  if !x.finished && x.agreed && all && own && out then s.collRaise k 0 else s
/-- Write the destination and raise event 1 when every contribution has arrived. -/
def State.collEv1 (s : State) (k : Nat) : State :=
  let x := s.inst k
  let have_ := (x.present.filter fun e => x.dlay.owns x.me e).all fun e =>
    (x.contribs x.me e).all fun m => (Tbl.find x.got (collKey m e)).isSome
  if !x.finished && !x.ev.getLsbD 1 && x.agreed && have_ then
    s.collAccess k x.dstRanges fun s => (s.collStore x).collRaise k 1
  else s
/-- Report to the others once, and raise event 2 when all have reported; a successful instance writes STAT := 0. -/
def State.collEv2 (s : State) (k : Nat) (before : BitVec 3) : State :=
  let x := s.inst k
  let s := if before &&& 3 != 3 && x.ev &&& 3 == 3 && !x.finished then s.collTell x 6 [] else s
  if x.ev &&& 3 == 3 && !x.finished && x.others.all (x.reports.contains ·) then
    s.collAccess k [(.objRW, x.desc.toNat, 128)] fun s => (s.vwrite x.ctx (x.desc.toNat + 124) [0]).collRaise k 2
  else s
/-- Every step of the instance that can be taken now. -/
def State.collRun (s : State) (k : Nat) : State :=
  let ev := (s.inst k).ev
  (((((s.collGrant k).collOwn k).collSend k).collEv0 k).collEv1 k).collEv2 k ev

/-! ### Starting (R378, R383, R421) -/
/-- The agreeing fields as one number: the descriptor without the fields that may differ, the layouts and the mesh. -/
def collDigest (x : CollInst) : Nat :=
  let keep := [bits x.d 19 0, bits x.d 38 28, cdGen x.d, cdNvalid x.d, cdBke x.d]
  let lay (l : Layout) : List Nat := [l.map.length, l.part] ++ l.map.map fun p => bit01 p.1 * 64 + p.2
  (keep ++ lay x.slay ++ lay x.dlay ++ x.mesh).foldl (fun acc v => acc * 2 ^ 64 + v) 1
/-- Whether a descriptor copy runs an instance (R376, R382). -/
def State.collBusy (s : State) (ctx : Nat) (desc : DWord) : Bool :=
  s.lantern.insts.any fun p => p.2.ctx == ctx && p.2.desc == desc && !p.2.finished
/-- Start an instance whose descriptor has been checked; `open_` says the source may be read at once where NBKT is 0. -/
def State.collStart (s : State) (ctx q : Nat) (desc : DWord) (grid : Option Nat) (seed : Nat) (open_ : Bool) : Nat × State :=
  let d := s.vget ctx desc.toNat 128
  let mesh := s.readMesh ctx d
  let key := (cdPath d, mesh)
  let n := ((s.lantern.streams.find? fun p => p.1 == key).map (·.2)).getD 0
  let k := s.lantern.nextInst
  let x : CollInst :=
    { q := q, ctx := ctx, desc := desc, d := d, slay := (s.readLayout ctx (cdNmb d) (cdSlay d)).getD {},
      dlay := (s.readLayout ctx (cdNmb d) (cdDlay d)).getD {}, mesh := mesh, grid := grid, number := n, me := mesh.findIdx (· == s.me),
      seed := seed, buckets := if cdNbkt d = 0 && open_ then [0] else [] }
  let s := { s with lantern := { s.lantern with
    nextInst := k + 1, streams := (key, n + 1) :: s.lantern.streams.filter fun p => p.1 != key } }
  let s := ((s.collMarks ctx desc).setInst k x).collTell x 7 [collDigest x]
  (k, if mesh.all s.inDomain then s.collRun k else s.collFail k 4)
/-- The source of an attached instance without buckets opens when every team of its grid has ended (R384). -/
def State.collOpen (s : State) (k : Nat) : State :=
  let x := s.inst k
  if x.finished || cdNbkt x.d ≠ 0 || x.buckets.contains 0 then s else (s.setInst k { x with buckets := [0] }).collRun k
/-- DIGEST_EXCHANGE (R378). -/
def State.collDigestIn (s : State) (k m digest : Nat) : State :=
  let x := s.inst k
  if (Tbl.find s.lantern.insts k).isNone || x.finished || !x.others.contains m then s
  else if digest ≠ collDigest x then s.collFail k 1
  else (s.setInst k { x with digests := if x.digests.contains m then x.digests else m :: x.digests }).collRun k
/-- SLOT_GRANT (R378): a grant reaches this sender. -/
def State.collGranted (s : State) (k peer e0 : Nat) : State :=
  let x := s.inst k
  if x.finished || !x.agreed || !x.others.contains peer || x.sent.contains (peer, e0) || !(x.runs x.me peer).any (fun r => r.headD 0 == e0) then s
  else (s.setInst k { x with grants := if x.grants.contains (peer, e0) then x.grants else x.grants ++ [(peer, e0)] }).collRun k
/-- CONTRIBUTION_ARRIVAL (R379): a contribution for which a slot stands granted; its slot is consumed. -/
def State.collArrive (s : State) (k : Nat) (c : Contribution) : State :=
  let x := s.inst k
  match (x.runs c.src x.me).find? fun r => r.headD 0 == c.e0 with
  | none => s
  | some r =>
    if x.finished || !x.given.contains (c.src, c.e0) || c.codes.length != r.length then s
    else
      let got := r.zipIdx.foldl (fun t (e, i) => Tbl.put t (collKey c.src e) (c.codes.getD i 0, c.scales.getD i 0x7F)) x.got
      s.collAccess k [(.store, cdStage x.d, 65536 * cdStagen x.d)] fun s => (s.setInst k { x with got := got, given := x.given.filter (· != (c.src, c.e0)), taken := (c.src, c.e0) :: x.taken }).collRun k
/-- MEMBER_REPORT (R382). -/
def State.collReport (s : State) (k m : Nat) : State :=
  let x := s.inst k
  if x.finished || !x.others.contains m then s
  else (s.setInst k { x with reports := if x.reports.contains m then x.reports else m :: x.reports }).collRun k
/-- READY_WORD_POLL (R384): the ready words are read again. -/
def State.collPoll (s : State) (k : Nat) : State :=
  let x := s.inst k
  if x.finished || (Tbl.find s.lantern.insts k).isNone then s
  else
    let now := (List.range (cdNbkt x.d)).filter fun b =>
      !x.buckets.contains b && s.vget x.ctx (cdRdy x.d + 8 * b) 4 == cdGen x.d
    s.collAccess k [(.load, cdRdy x.d, 8 * cdNbkt x.d)] fun s => (s.setInst k { x with buckets := x.buckets ++ now }).collRun k
/-- Whether a range of the instance has lost its translation. -/
def State.collLost (s : State) (x : CollInst) : Bool :=
  !(s.vok x.ctx .load (cdSrc x.d) (segBytes (cdSfmt x.d) x.slay.localBits) &&
    s.vok x.ctx .store (cdDst x.d) (segBytes (cdDfmt x.d) x.dlay.localBits) && s.vok x.ctx .objRW x.desc.toNat 128 &&
    ((List.range 3).all fun k => cdMoor x.d k == 0 || s.vok x.ctx .objRW (cdMoor x.d k) 16) &&
    s.vok x.ctx .store (cdStage x.d) (65536 * cdStagen x.d) && (cdNbkt x.d == 0 || s.vok x.ctx .load (cdRdy x.d) (8 * cdNbkt x.d)))
/-- COLLECTIVE_FAILURE as an event: each code where another member of the mesh has failed with it, and where what it stands for holds here
(R381). -/
def State.collFailure (s : State) (k why : Nat) : State :=
  let x := s.inst k
  let holds : Bool := match why with
    | 2 => x.present.any fun e => x.slay.owns x.me e && x.ready e && (s.collRead x e).2
    | 3 => s.collLost x
    | 4 => !x.mesh.all s.inDomain
    | _ => false
  let other := decide (1 ≤ why) && decide (why ≤ 5) && !x.others.isEmpty
  if (Tbl.find s.lantern.insts k).isNone || x.finished || !(holds || other) then s else s.collFail k why

end Sys2Proof.Machine
end

