-- ==== Sys2Proof/Machine/Evict.lean ====
section
/-! DEFINITION. The eviction of model layers, and the end of a destroyed context (R344, R347, R348, R398). -/
namespace Sys2Proof.Machine

/-! ### Eviction (R347, R348) -/
/-- A declared input names a layer, or a range that holds one of its pages (R297). -/
def Ctx.inputNames (c : Ctx) (e : Nat × Nat × Nat) (layer : Nat) : Bool :=
  if e.2.2 = 2 then e.1 == layer
  else c.gate.any fun (p, big, l) => l == layer && decide (p < e.1 + e.2.1) && decide (e.1 < p + (if big then 2 ^ 28 else 65536))
/-- A grid's reference on a layer that bars eviction: from READY on, but while it has placed teams and all of them are suspended
(R297, R344). -/
def State.layerRef (s : State) (ctx layer : Nat) : Bool :=
  s.lantern.grids.any fun (k, g) =>
    g.ctx == ctx && (g.inputs.any fun e => (s.ctx ctx).inputNames e layer) &&
    (g.st == .ready ||
      (g.st == .placing || g.st == .running || g.st == .retiring) &&
        !(let ts := s.lantern.teams.filter fun (_, t) => t.grid == k && t.st != .ended
          !ts.isEmpty && ts.all fun (_, t) => t.st == .suspended))
/-- The pages of a layer. -/
def Ctx.layerPages (c : Ctx) (layer : Nat) : List (Nat × Bool) := (c.gate.filter (·.2.2 == layer)).map fun (p, b, _) => (p, b)
/-- Whether a page carries PIN. -/
def State.pagePinned (s : State) (ctx va : Nat) : Bool := match s.walk ctx va with | .leaf x _ _ => leafPin x | _ => false
/-- What a gradient log's operations name: its descriptor, its ring and its master tiles (R347). -/
def State.logNames (s : State) (pa key : Nat) (va : DWord) : List (Nat × Nat) :=
  let d := s.logDesc pa key
  [(va.toNat, 64), (ldRing d, 4128 * ldNrec d), (ldMaster d, 6144 * ldNwt d)]
/-- What an instance names: its descriptor, its segments, its staging area, its ready words and its moorings (R347, R376). -/
def CollInst.names (x : CollInst) : List (Nat × Nat) :=
  [(x.desc.toNat, 128), (cdSrc x.d, segBytes (cdSfmt x.d) x.slay.localBits), (cdDst x.d, segBytes (cdDfmt x.d) x.dlay.localBits),
   (cdStage x.d, 65536 * cdStagen x.d), (cdRdy x.d, 8 * cdNbkt x.d)] ++
  (List.range 3).map fun k => (cdMoor x.d k, if cdMoor x.d k = 0 then 0 else 16)
/-- Virtual ranges of a context that its accepted operations name: those of logs, folds, windows and Beacon operations, and collectives. -/
def State.namedVa (s : State) (ctx : Nat) : List (Nat × Nat) :=
  (s.cores.flatMap fun (_, k) => k.engines.flatMap fun (_, e) => e.ops.flatMap fun o =>
    if o.idx = 10 && o.ctx = ctx then s.logNames o.log o.logKey o.va else []) ++
  (s.merge.logs.flatMap fun (pa, l) => if l.ctx = ctx then s.logNames pa l.key l.va else []) ++
  (s.merge.folds.flatMap fun (_, f) => if f.ctx = ctx then s.logNames f.log f.key 0 else []) ++
  (s.fabric.net.flatMap fun f => if f.ctx = ctx then [(f.va.toNat, 1), (f.amoor.toNat, if f.ack = 1 then 16 else 0)] else []) ++
  (s.lantern.insts.flatMap fun (_, i) => if i.ctx = ctx && !i.finished then i.names else [])
/-- A global mooring that a retirement will act on. -/
def Retire.names (r : Retire) : List (Nat × Nat) := if r.kind = 0 || r.core.isSome then [] else [(r.addr, 16)]
/-- Physical ranges that a group's accepted copies, closing batch slots and tender operations name, as translated at issue (log entry 14). -/
def Group.namedPa (g : Group) : List (Nat × Nat) :=
  ((g.openBatch ++ g.batches.flatMap (·.items)).filterMap fun x => if x.done then none else some (x.src, x.size)) ++
  (g.batches.flatMap fun b => b.act.names) ++
  (g.slots.filterMap fun (_, b) => if b.st = 2 && !b.fence && b.record != 0 then some (b.record, 32) else none) ++
  g.tlOps.flatMap fun o => (o.pages.map fun p => (p.2.1, 65536)) ++ o.act.names ++ o.moors.flatMap Retire.names
/-- Physical ranges that accepted operations name: groups', resident or saved, gradient-log descriptors, and Beacon operations at this
device's targets. -/
def State.namedPa (s : State) : List (Nat × Nat) :=
  (s.cores.flatMap fun (_, k) => k.groups.flatMap fun (_, g) => g.namedPa) ++
  (s.lantern.teams.flatMap fun (_, t) => match t.saved with | some v => v.groups.flatMap fun (_, g) => g.namedPa | none => []) ++
  (s.merge.folds.map fun (_, f) => (f.log, 64)) ++
  s.fabric.net.filterMap fun f => match f.cargo with | .beacon o => if f.tgt = s.me then some (o.addr, 128) else none | _ => none
/-- Whether two ranges meet. -/
def meets (a b : Nat × Nat) : Bool := decide (a.1 < b.1 + b.2) && decide (b.1 < a.1 + a.2) && a.2 != 0
/-- Whether an accepted operation that has not completed names a page of a layer: by its address, or by its frame (R347). -/
def State.layerNamed (s : State) (ctx layer : Nat) : Bool :=
  let pages := ((s.ctx ctx).layerPages layer).map fun p => (p.1, if p.2 then 2 ^ 28 else 65536)
  let frames := (s.ctx ctx).heldFrames layer
  ((s.namedVa ctx).any fun r => pages.any (meets r ·)) || s.namedPa.any fun r => frames.any fun f => meets r (65536 * f, 65536)
/-- A candidate for eviction (R347). -/
def State.evictable (s : State) (ctx layer : Nat) : Bool :=
  let t := s.topmark ctx layer
  tmState t == 2 && tmPins t == 0 && !((s.ctx ctx).layerPages layer).any (fun (p, _) => s.pagePinned ctx p) &&
    !s.layerRef ctx layer && !s.layerNamed ctx layer
/-- No cache keeps a line of frames that are freed, and nothing of them is written back (R348). -/
def State.dropLines (s : State) (fs : List Nat) : State :=
  let keep (k : Core) : Tbl L1Sector := k.l1.filter fun (j, _) => !fs.contains (32 * j / 65536)
  { s with
    cores := s.cores.mapV fun _ k => { k with l1 := keep k },
    dirty := s.dirty.filter fun (j, _) => !fs.contains (128 * j / 65536) }
/-- The three steps of R348; the accesses that have passed the check are performed before the frames go. -/
def State.evict (s : State) (ctx layer : Nat) : State :=
  let s := s.tmSet ctx layer 3
  let pages := (s.ctx ctx).layerPages layer
  let all := (s.ctx ctx).heldFrames layer
  let s := s.settleUses fun _ pa => all.contains (pa / 65536)
  let s := pages.foldl (fun s (p, _) => s.tlbDrop (some ctx) (some p)) s
  let s := s.dropLines all
  let c := s.ctx ctx
  (s.setCtx ctx { c with layerFrames := Tbl.del c.layerFrames layer, frames := c.frames.filter fun f => !all.contains f }).freeFrames all
/-- The victim the Keeper takes when a fetch for a context needs frames (R347): lowest ECLASS, oldest LASTDISP, highest
layer. -/
def State.victim (s : State) (forCtx : Nat) : Option (Nat × Nat) :=
  let cs := s.keeper.ctxs.flatMap fun (c, x) =>
    if x.eclass ≤ (s.ctx forCtx).eclass then
      ((List.range x.nlayer).filter fun l => s.evictable c l).map fun l => (x.eclass, x.lastDisp, x.nlayer - l, c, l)
    else []
  let better (a b : Nat × Nat × Nat × Nat × Nat) : Bool :=
    a.1 < b.1 || (a.1 == b.1 && (a.2.1 < b.2.1 || (a.2.1 == b.2.1 && a.2.2.1 < b.2.2.1)))
  (cs.foldl (fun (acc : Option (Nat × Nat × Nat × Nat × Nat)) x => match acc with
    | none => some x
    | some y => if better x y then some x else some y) none).map fun x => (x.2.2.2.1, x.2.2.2.2)
/-- A destroyed context goes once its grids have retired: its translations and frames with it (R398). -/
def State.reapCtx (s : State) (ctx : Nat) : State :=
  let c := s.ctx ctx
  if !c.dying || s.lantern.grids.any fun p => p.2.ctx == ctx then s
  else
    let fs := c.frames ++ c.layerFrames.flatMap fun p => c.heldFrames p.1
    let s := ((s.tlbDrop (some ctx) none).dropLines fs).freeFrames fs
    { s with keeper := { s.keeper with ctxs := Tbl.del s.keeper.ctxs ctx } }.retryWanted


/-! ### Translations that go (R227, R398) -/
/-- What `tlbi` selects: contexts, and a page of an address for either page size (R227). -/
def tlbiCtx (sel ctx : Nat) : Bool := bitAt sel 16 || ctx == sel % 65536
def State.tlbiPage (s : State) (va sel ctx page : Nat) : Bool :=
  tlbiCtx sel ctx && (bitAt sel 17 || page == va / 65536 ||
    (page / 4096 == va / 2 ^ 28 && ((match s.walk ctx (65536 * page) with | .leaf _ big _ => big | _ => false) ||
      s.cores.any fun k => k.2.tlb.any fun e => e.ctx == ctx && e.big && e.page / 2 ^ 28 == page / 4096)))
/-- An accepted operation that has used a translation which goes is still to be performed, by its tender, engine, merge engine or Beacon;
copies of a suspended team wait with its scratchpad (R227). -/
def State.tlbiBusy (s : State) (va sel : Nat) : Bool :=
  let ctxOf (g : Group) : Nat := (s.grid (s.team g.team).grid).ctx
  let tls (g : Group) : Bool := g.tlOps.any fun o => !o.done && o.pages.any fun p => s.tlbiPage va sel (ctxOf g) p.1
  (s.cores.any fun k => k.2.groups.any fun g => tls g.2) ||
    (s.lantern.teams.any fun t => match t.2.saved with
      | some v => v.groups.any fun g => tls g.2 || (tlbiCtx sel (ctxOf g.2) && (g.2.openBatch ++ g.2.batches.flatMap (·.items)).any fun x => !x.done)
      | none => false) ||
    (s.cores.any fun k => k.2.engines.any fun e => e.2.ops.any fun o => o.idx == 10 && s.tlbiPage va sel o.ctx (o.va.toNat / 65536)) ||
    (s.merge.logs.any fun l => s.tlbiPage va sel l.2.ctx (l.2.va.toNat / 65536)) ||
    s.fabric.net.any fun f => s.localTarget f.tgt && f.done.isNone && s.tlbiPage va sel f.ctx (f.va.toNat / 65536) &&
      (match f.cargo with | .beacon _ => true | _ => false)
/-- The accesses that only wait for their turn are performed: copies, posted operations, decrements and outstanding loads of the selected
contexts; then the translations go (R227). -/
def State.doTlbi (s : State) (va sel : Nat) : State :=
  let fin (x : CopyItem) : CopyItem := { x with done := true }
  let s := (s.cores.flatMap fun k => k.2.groups.map fun g => (k.1, g.1)).foldl (fun s p =>
    let g := s.group p.1 p.2
    if !tlbiCtx sel (s.ctxOf p.1 p.2) then s
    else ((g.openBatch ++ g.batches.flatMap (·.items)).foldl State.copy1 s).updGroup p.1 p.2 fun g =>
      { g with openBatch := g.openBatch.map fin, batches := g.batches.map fun (b : Batch) => { b with items := b.items.map fin } }) s
  (s.settleUses fun ctx _ => tlbiCtx sel ctx).tlbDrop (if bitAt sel 16 then none else some (sel % 65536)) (if bitAt sel 17 then none else some va)

end Sys2Proof.Machine
end

