-- ==== Sys2Proof/Machine/Flow.lean ====
section
/-! DEFINITION. Work of lanes that ends later: returning loads, performed stores, sleeps, fences and their rollback, posted
mooring operations and decrements at their home units (R96, R133, R183, R186, R188 to R192, R309, R329). -/
namespace Sys2Proof.Machine

/-! ### Loads and stores (R19, R127, R133) -/
/-- An uncorrectable error poisons the sector it strikes, with its copies in the L1 data caches (R217). -/
def State.harm (s : State) (sec : Nat) : State :=
  if sec % 2 = 0 then
    { s with
      mem := s.mem.harm (sec / 2)
      cores := s.cores.mapV fun _ k => { k with l1 := k.l1.mapV fun j x => if j = sec / 2 then { x with poison := true } else x } }
  else
    let c := sec / 2 / 16384
    s.setCore c { s.core c with scr := (s.core c).scr.harm (sec / 2 % 16384) }
/-- LOAD_DATA_RETURN: an outstanding load's data arrives; where `bad` says so an uncorrectable error has struck the sectors it read. -/
def State.loadReturn (s : State) (core grp t : Nat) (bad : Bool) : State :=
  match (s.group core grp).txns.find? fun x => x.id == t && !x.store with
  | none => s
  | some x => ((if bad then x.secs.foldl State.harm s else s)).updGroup core grp fun g =>
    let g := x.fills.foldl (fun g f => g.fill1 t f bad) g
    { g with txns := g.txns.filter fun (y : Txn) => y.id != t, ld := g.ld - 1 }
/-- A store or no-return atomic has been performed at device scope and counts out (R188). -/
def State.storeDone (s : State) (core grp t : Nat) : State :=
  match (s.group core grp).txns.find? fun x => x.id == t && x.store with
  | none => s
  | some _ => { s with lag := s.lag.filter (·.txn != t) }.updGroup core grp fun g => { g with txns := g.txns.filter fun (y : Txn) => y.id != t, st := g.st - 1 }
/-- SLEEP_EXPIRY (R96). -/
def State.wakeSleep (s : State) (core grp lane : Nat) : State :=
  if !s.hasGroup core grp then s
  else match (s.lane core grp lane).mode with
    | .sleeping u => if u ≤ s.now then s.updLane core grp lane fun x => { x with mode := .ready } else s
    | _ => s

/-! ### Fences (R189 to R192) -/
/-- Every access the fence waits for has been performed. -/
def State.fenceReady (s : State) (core grp : Nat) (sp : Spec) : Bool :=
  let g := s.group core grp
  let e := s.engine core (s.partOf core grp)
  !g.txns.any (fun t => sp.waits.contains t.id) && !g.batches.any (fun b => sp.batches.contains b.id) &&
    !g.tlOps.any (fun o => sp.tls.contains o.id) && !e.ops.any (fun o => sp.mxs.contains o.id) &&
    !s.merge.folds.any (fun f => sp.folds.contains f.1) &&
    (match sp.flights with
      | none => true
      | some n => !s.fabric.net.any fun f => f.team == g.team && f.gi == g.idx && f.id < n && s.localTarget f.tgt && f.done.isNone)
/-- The copies that a fence of class C waits for are performed. -/
def State.fenceCopies (s : State) (core grp : Nat) (sp : Spec) : State :=
  if sp.copies then
    let items := (s.group core grp).openBatch
    (items.foldl State.copy1 s).updGroup core grp fun g => { g with openBatch := items.map fun (x : CopyItem) => { x with done := true } }
  else s
/-- End the speculation. -/
def State.fenceEnd (s : State) (core grp : Nat) (sp : Spec) : State :=
  let s := if sp.dropsL1 then s.l1DropAll core else s
  s.updGroup core grp fun g => { g with spec := none }
/-- A group was hit by a write to a sector it has read speculatively. -/
def Group.isHit (g : Group) : Bool := match g.spec with | some sp => sp.hit | none => false
/-- FENCE_COMPLETION: copies performed for it can hit the group itself, which then rolls back first (R191). -/
def State.fenceDone (s : State) (core grp : Nat) : State :=
  match (s.group core grp).spec with
  | none => s
  | some sp =>
    if sp.hit || !s.fenceReady core grp sp then s
    else
      let s := s.fenceCopies core grp sp
      if (s.group core grp).isHit then s else s.fenceEnd core grp sp
/-- A lane returns to what it held at the end of the fence's chain. -/
def Lane.restore (x : Lane) (y : LaneSnap) : Lane :=
  { x with
    pc := y.pc, slot := y.slot, regs := y.regs, queue := y.queue, preds := y.preds, status := y.status, control := y.control
    region := y.region
    mode := match x.mode with
      | .sleeping _ => (match y.mode with | .sleeping u => .sleeping u | _ => .ready)
      | .stalled .again => .ready
      | m => m }
/-- The group as a rollback leaves it: its speculative loads are discarded. -/
def Group.rollback (g : Group) (sp : Spec) : Group :=
  let gone := g.txns.filter fun (t : Txn) => sp.ticket ≤ t.id && !t.store
  let g := g.mapLanes fun l x => match Tbl.find sp.snap l with | some y => x.restore y | none => x
  { g with
    g := sp.g, j := sp.j, quarters := sp.quarters, txns := g.txns.filter fun (t : Txn) => !(sp.ticket ≤ t.id && !t.store)
    ld := g.ld - gone.length, spec := some { sp with reads := [], hit := false } }
/-- SPECULATION_ROLLBACK. -/
def State.rollback (s : State) (core grp : Nat) : State :=
  match (s.group core grp).spec with
  | none => s
  | some sp => if sp.hit then s.updGroup core grp fun g => g.rollback sp else s

/-! ### Posted mooring operations (R183, R186) -/
/-- An operation on the same mooring stands before this one: they reach their home unit in the order in which they were issued (R183,
R186; log entry 15). -/
def State.postedAhead (s : State) (k : Nat) (p : Posted) : Bool := s.posted.any fun q => q.1 < k && q.2.moor.id == p.moor.id
/-- MOORING_OP_AT_HOME. -/
def State.mooringHome (s : State) (k : Nat) : State :=
  match Tbl.find s.posted k with
  | none => s
  | some p => if s.postedAhead k p then s else s.performPosted k p

/-! ### Quiescing a group (R329) -/
/-- Everything a halt lets complete: loads, stores, the fence, posted operations and decrements of the group.  A speculative group
returns to what a rollback restores (R191). -/
def State.quiesce (s : State) (core grp : Nat) : State :=
  let s := match (s.group core grp).spec with
    | some sp => s.updGroup core grp fun g => g.rollback sp
    | none => s
  let s := (s.group core grp).txns.foldl (fun s t => if t.store then s.storeDone core grp t.id else s.loadReturn core grp t.id false) s
  let s := match (s.group core grp).spec with
    | some sp => if s.fenceReady core grp sp then (s.fenceCopies core grp sp).fenceEnd core grp sp else s
    | none => s
  let s := (s.posted.filter fun p => p.2.core == core && p.2.grp == grp).foldl (fun s p => s.arrive p.2.moor) s
  (List.range s.lantern.jdecs.length).foldl (fun s _ =>
    match s.lantern.jdecs.findIdx? fun p => p.core == core && p.grp == grp with
    | some k => s.jdecHome k
    | none => s) s

end Sys2Proof.Machine
end

