-- ==== Sys2Proof/Machine/Life.lean ====
section
/-! DEFINITION. Lazy maps, the ends of groups, teams and grids, suspension with its save and restore, and the dispatchers'
placement attempts (R157, R162, R209 to R211, R299 to R305, R314 to R316, R329 to R331). -/
namespace Sys2Proof.Machine

/-! ### Chunk fills and write-back (R211, R225, R355) -/
/-- CHUNK_FILL: the fill of a chunk on which a lane waits; a fault of its range is raised in each waiting lane as it executes
again. -/
def State.chunkFill (s : State) (team map chunk : Nat) : State :=
  let t := s.team team
  let waits (x : Lane) : Bool := x.mode == .stalled (.chunk team map chunk)
  let any := s.cores.any fun p => p.2.groups.any fun q => q.2.lanes.any fun l => waits l.2
  match Tbl.find t.maps map with
  | none => s
  | some m =>
    if !any || m.filled.contains chunk || t.st == .suspended then s
    else
      let ctx := (s.grid t.grid).ctx
      let va := m.va.toNat + 4096 * chunk
      let s :=
        match s.rangeFault none ctx .load va 4096 with
        | some _ => s
        | none =>
          let s := s.touchRange ctx false va 4096
          let (pa, key) := s.pa none ctx .load va
          let off := t.scrBase + m.sofs + 4096 * chunk
          let k := s.core t.core
          let scr := (List.range 128).foldl (fun (c : Mem) i =>
            let c := c.writeKey 0 (off + 32 * i) (s.devRead key (pa + 32 * i) 32).1 (s.mem.poisoned (pa + 32 * i) 1)
            (c.setSlot (off + 32 * i) 0 (s.devSlot (pa + 32 * i) 0)).setSlot (off + 32 * i) 1 (s.devSlot (pa + 32 * i) 1)) k.scr
          let s := s.setCore t.core { k with scr := scr }
          s.setTeam team { t with maps := Tbl.put t.maps map { m with filled := chunk :: m.filled } }
      s.mapGroups fun _ _ g => g.mapLanes fun _ x => if waits x then { x with mode := .ready } else x
/-- The global address of a sector of a map. -/
def Team.wbVa (t : Team) (m : ScrMap) (k : Nat) : Nat := (m.va.toNat + (32 * k - t.scrBase - m.sofs)) % 2 ^ 64
/-- The dirty sectors of a map, ascending. -/
def ScrMap.dirty (m : ScrMap) : List Nat := sortBy Nat.ble (m.dirtyData ++ m.dirtyScale.filter fun k => !m.dirtyData.contains k)
/-- How the write-back of a sector fails, if it does; `who` is the group whose store it is (log entry 28).  On a page of aperture 3 it
goes through a window (R355, R360). -/
def State.wbFault (s : State) (who : Nat × Nat) (ctx va : Nat) : Option LaneOut :=
  match s.xlat (some who.1) ctx .store va with
  | .ok _ _ apt _ _ _ _ => if apt = 3 then (match s.checkWindow who.1 who.2 va 32 with | .error o => some o | .ok _ => none) else none
  | .fault c => some (.park c (BitVec.ofNat 64 va))
  | .arriving l => some (.parkLayer l)
/-- Write one sector back, as a store of a group (R211): a poisoned one goes out poisoned, where only its slots go too. -/
def State.wbSector (s : State) (who : Nat × Nat) (core ctx va k : Nat) (data scale : Bool) : State :=
  match s.xlat (some who.1) ctx .store va with
  | .ok pa key apt _ _ _ _ =>
    let s := s.touch (some who.1) ctx true va
    let (bs, p) := s.scrRead core (32 * k) 32
    let s := if data then s.devWrite (some who) key pa bs p else s
    let s := if scale then (s.devSetSlot pa 0 (s.scrSlot core (32 * k) 0)).devSetSlot pa 1 (s.scrSlot core (32 * k) 1) else s
    let s := if scale && p then { s with mem := s.mem.harm (pa / 32) } else s
    let s := s.l1Update core key [pa / 32]
    if apt = 3 then
      match s.txFor ctx va 32 with
      | some e =>
        let off := va - txAt e 127 64
        s.reflectVia who.1 who.2 ctx e va (if data then bs else [])
          (if scale then [(off, 0, s.scrSlot core (32 * k) 0), (off, 1, s.scrSlot core (32 * k) 1)] else []) p []
      | none => s
    else s
  | _ => s
/-- The dirty sectors of maps of a team: map and sector, in the order of their write-back. -/
def Team.dirtyOf (t : Team) (maps : List Nat) : List (Nat × Nat) :=
  maps.flatMap fun k => match Tbl.find t.maps k with
    | none => []
    | some m => m.dirty.map fun j => (k, j)
/-- The global address of a dirty sector. -/
def Team.dirtyVa (t : Team) (p : Nat × Nat) : Nat := t.wbVa (Tbl.get t.maps p.1 ⟨0, 0, 0, [], [], []⟩) p.2
/-- A sector of a map is clean. -/
def State.cleanSector (s : State) (team : Nat) (p : Nat × Nat) : State :=
  let x := s.team team
  s.setTeam team { x with maps := x.maps.mapV fun k m =>
    if k = p.1 then { m with dirtyData := m.dirtyData.filter (· != p.2), dirtyScale := m.dirtyScale.filter (· != p.2) } else m }
/-- The first failure of a write-back of maps of a team. -/
def State.flushFault (s : State) (who : Nat × Nat) (team : Nat) (maps : List Nat) : Option LaneOut :=
  let t := s.team team
  (t.dirtyOf maps).findSome? fun p => s.wbFault who (s.grid t.grid).ctx (t.dirtyVa p)
/-- Write one dirty sector back and clean it (R211). -/
def State.flushSector (s : State) (who : Nat × Nat) (team : Nat) (p : Nat × Nat) : State :=
  let t := s.team team
  let m := Tbl.get t.maps p.1 ⟨0, 0, 0, [], [], []⟩
  (s.wbSector who t.core (s.grid t.grid).ctx (t.dirtyVa p) p.2 (m.dirtyData.contains p.2) (m.dirtyScale.contains p.2)).cleanSector team p
/-- Write back sectors in their order up to the first that fails: what is written stays written and clean (R225). -/
def State.flushList (s : State) (who : Nat × Nat) (team : Nat) : List (Nat × Nat) → State
  | [] => s
  | p :: ps =>
    match s.wbFault who (s.grid (s.team team).grid).ctx ((s.team team).dirtyVa p) with
    | none => (s.flushSector who team p).flushList who team ps
    | some _ => s
/-- Write back maps of a team, up to the first sector that fails. -/
def State.flushMaps (s : State) (who : Nat × Nat) (team : Nat) (maps : List Nat) : State := s.flushList who team ((s.team team).dirtyOf maps)
/-- A sector whose write-back at the team's end cannot be serviced is dropped, and a record written (R211). -/
def State.dropSector (s : State) (team : Nat) (p : Nat × Nat) (c : Cause) : State :=
  let t := s.team team
  (s.cleanSector team p).record
    { cause := c, src := 4, ctx := (s.grid t.grid).ctx, core := t.core, team := t.idx, addr := BitVec.ofNat 64 (t.dirtyVa p) }
/-- SCRATCH_WRITEBACK: the write-back at a team's end, as stores of the first group of the team that still stands; its batch slots
are then closed as at its exit (R361, log entry 28).  A page-class fault goes to the Keeper, and a page of an arriving layer is waited for;
a sector with no window is dropped (R211, R355). -/
def State.teamFlush (s : State) (team : Nat) : State :=
  if !(s.team team).flush || s.keeper.parks.any (fun p => p.2.flush && p.2.team == team) then s
  else
    let all := (s.team team).maps.map (·.1)
    let who := (s.groupsOf team).headD (0, 0)
    let s := s.flushMaps who team all
    let t := s.team team
    let ctx := (s.grid t.grid).ctx
    match (t.dirtyOf all).head? with
    | none => (s.setTeam team { t with flush := false }).closeAll who.1 who.2
    | some p => match s.wbFault who ctx (t.dirtyVa p) with
      | some (.park c a) =>
        { s with keeper := { s.keeper with
          nextPark := s.keeper.nextPark + 1
          parks := Tbl.put s.keeper.parks s.keeper.nextPark ⟨ctx, team, 0, none, 0, c, a, true⟩ } }
      | some (.trap c _) => s.dropSector team p c
      | _ => s
/-- The dirty sectors of an ended team on the page of an address. -/
def State.dirtyOn (s : State) (team va : Nat) : List (Nat × Nat) :=
  let t := s.team team
  (t.dirtyOf (t.maps.map (·.1))).filter fun p => t.dirtyVa p / 65536 == va / 65536

/-! ### The end of groups and teams (R157, R162, R314) -/
/-- Nothing an ended group issued is outstanding, nor a write-back of its team's end. -/
def State.groupClear (s : State) (core grp : Nat) : Bool :=
  let g := s.group core grp
  !(s.team g.team).flush && g.tlOps.isEmpty && g.batches.isEmpty && g.openBatch.isEmpty && g.slots.all (fun b => b.2.st == 0) &&
    !(s.engine core (s.partOf core grp)).ops.any (fun o => o.groups.contains grp) &&
    !s.posted.any (fun p => p.2.core == core && p.2.grp == grp) && !s.lantern.jdecs.any (fun p => p.core == core && p.grp == grp) &&
    !s.fabric.net.any fun f => f.team == g.team && f.gi == g.idx && f.ack != 0
/-- Nothing a team's work names is outstanding. -/
def State.teamClear (s : State) (team : Nat) : Bool :=
  (s.groupsOf team).isEmpty && !(s.team team).flush && !s.merge.folds.any (fun f => f.2.team == team)
/-- An ended team's reservation is released once its operations are over (R314). -/
def State.settleEngine (s : State) (core team : Nat) : State :=
  (List.range 4).foldl (fun s p =>
    let e := s.engine core p
    if e.holder == some team && (s.team team).st == .ended && e.ops.isEmpty then s.release core p else s) s
/-- Free the slots of ended groups, the reservation, and the region, of a team whose outstanding work is over. -/
def State.settle (s : State) (team : Nat) : State :=
  let t := s.team team
  let s := (s.groupsOf team).foldl (fun s (c, g) =>
    if (s.group c g).ended && s.groupClear c g then s.setCore c { s.core c with groups := Tbl.del (s.core c).groups g } else s) s
  let s := s.settleEngine t.core team
  let members : List Nat := match t.cluster with
    | none => [team]
    | some k => (s.lantern.teams.filter fun p => p.2.cluster == some k).map (·.1)
  let finish (m : Nat) : Bool := (s.team m).st == .ended && s.teamClear m && !((List.range 4).any fun p => (s.engine (s.team m).core p).holder == some m)
  if members.all finish then
    { s with lantern := { s.lantern with teams := s.lantern.teams.keep fun k _ => !members.contains k } }
  else s
/-- Settle every ended team. -/
def State.settleAll (s : State) : State :=
  ((s.lantern.teams.filter fun p => p.2.st == .ended || p.2.st == .resident).map (·.1)).foldl State.settle s
/-- A team ends (R157, R314). -/
def State.teamEnd (s : State) (team : Nat) : State :=
  let t := s.team team
  let s := s.setTeam team { t with st := .ended, flush := t.maps.any fun p => !p.2.dirty.isEmpty }
  let s := (List.range 4).foldl (fun s p => if (s.engine t.core p).holder == some team then s.abandonShort t.core p else s) s
  let g := s.grid t.grid
  let live := s.lantern.teams.any fun p => p.2.grid == t.grid && p.2.st != .ended
  let s := if g.placed == g.nteam && !live then s.setGrid t.grid { g with st := .retiring } else s
  (s.barriers team)
/-- Rename the groups an engine's operations name. -/
def MxOp.rename (o : MxOp) (f : Nat → Nat) : MxOp :=
  { o with groups := o.groups.map f, by_ := o.by_.map fun p => (f p.1, p.2), gotA := o.gotA.map fun p => (f p.1, p.2), gotB := o.gotB.map fun p => (f p.1, p.2),
           sent := o.sent.map fun p => (f p.1, p.2) }
/-- An ended group gives up its slot at once; what it left outstanding goes on under a number that is no slot (R157, R314). -/
def State.vacate (s : State) (core grp : Nat) : State :=
  if 32 ≤ grp then s
  else
    let n := s.offSlot core
    let f (k : Nat) : Nat := if k = grp then n else k
    let here (c g : Nat) : Bool := c == core && g == grp
    let k := s.core core
    let s := s.setCore core { k with
      groups := Tbl.put (Tbl.del k.groups grp) n { s.group core grp with home := some grp }
      engines := k.engines.mapV fun _ e => { e with ops := e.ops.map fun o => o.rename f } }
    { s with
      posted := s.posted.mapV fun _ p => if here p.core p.grp then { p with grp := n } else p
      merge := { s.merge with folds := s.merge.folds.mapV fun _ x => if here x.core x.grp then { x with grp := n } else x }
      lantern := { s.lantern with jdecs := s.lantern.jdecs.map fun p => if here p.core p.grp then { p with grp := n } else p } }
/-- GROUP_END. -/
def State.groupEnd (s : State) (core grp : Nat) : State :=
  let g := s.group core grp
  if !s.hasGroup core grp || g.ended || g.ld != 0 || g.st != 0 || g.lanes.any (fun p => p.2.mode != .exited) then s
  else
    let s := (s.setGroup core grp { g.sealAtExit with ended := true }).closeAll core grp
    let s := if (s.groupsOf g.team).all fun p => (s.group p.1 p.2).ended then s.teamEnd g.team else s.barriers g.team
    (if s.groupClear core grp then s else s.vacate core grp).settle g.team

/-! ### Grid retirement (R315, R316, R321) -/
/-- Teams of a grid that stand on a core, with work or without. -/
def State.gridTeams (s : State) (gid : Nat) : List Nat := (s.lantern.teams.filter fun p => p.2.grid == gid).map (·.1)
/-- Step 1 and the outstanding work of step 2 but for children, nodes and the collective. -/
def State.gridIdle (s : State) (gid : Nat) : Bool :=
  let g := s.grid gid
  (g.aborted || g.placed == g.nteam) && (s.gridTeams gid).all fun t =>
    (s.team t).st == .ended && s.teamClear t
/-- Whether a packet of a queue completes with this grid. -/
def State.finishPacket (s : State) (q : Nat) (gid : Nat) : State :=
  let x := s.queue q
  if x.pkt.grid == some gid then s.setQueue q { x with cptr := x.cptr + 1, pkt := {} } else s
/-- Once the first team of a grid is placed its attached collective starts, or fails with STAT 5 (R316, R376); while its descriptor's copy
runs another instance, or a layer it needs is on its way, the start waits (R382). -/
def State.startAttached (s : State) (gid : Nat) : State :=
  let g := s.grid gid
  match g.coll, g.collInst with
  | some d, none =>
    if g.placed = 0 || s.collBusy g.ctx d then s
    else match s.collCheck g.ctx d with
    | .go =>
      let (k, s) := s.collStart g.ctx g.source d (some gid) g.seed.toNat false
      s.setGrid gid { s.grid gid with collInst := some k }
    | .wait l => s.askFor g.ctx l
    | _ =>
      let k := s.lantern.nextInst
      let x : CollInst := { q := g.source, ctx := g.ctx, desc := d, d := s.vget g.ctx d.toNat 128, grid := some gid }
      let s := ({ s.collMarks g.ctx d with lantern := { s.lantern with nextInst := k + 1 } }.setInst k x).collFail k 5
      s.setGrid gid { s.grid gid with collInst := some k }
  | _, _ => s
/-- GRID_RETIREMENT: what ended teams leave is settled, and a grid whose work is over retires. -/
def State.gridRetire (s : State) (gid : Nat) : State :=
  let s := s.settleAll
  match Tbl.find s.lantern.grids gid with
  | none => s
  | some g =>
    if !s.gridIdle gid then s
    else
      -- open nodes are closed first
      let open_ := (s.lantern.nodes.filter fun p => p.2.parent == gid && p.2.st == 1).map (·.1)
      let s := open_.foldl State.nodeClose s
      let s := ((s.lantern.nodes.filter fun p => p.2.parent == gid).map (·.1)).foldl State.nodeRetire s
      let kids := s.lantern.grids.any fun p => p.2.parent == some gid
      let nodes := s.lantern.nodes.any fun p => p.2.parent == gid && p.2.st != 0
      if kids || nodes then s
      else
        let s := if g.aborted then s else s.startAttached gid
        let g := s.grid gid
        let s := match g.collInst with
          | some k => s.collOpen k
          | none => s
        let coll := match g.collInst with
          | some k => (s.inst k).finished
          | none => g.coll.isNone || g.aborted || g.placed == 0
        if !coll then s
        else
          let bad := match g.collInst with
            | some k => (s.inst k).stat != 0
            | none => false
          let s := if !g.aborted && g.signal != 0 && s.vok g.ctx .store g.signal.toNat 8 then
              (s.vwrite g.ctx g.signal.toNat (toBytesLE 8 g.sigVal.toNat)).tellHost 2 g.ctx g.signal.toNat (toBytesLE 8 g.sigVal.toNat) else s
          let s := if g.node.isNone then s.setWatch g.ctx g.rec_ false else s
          let ts := s.gridTeams gid
          let s := { s with lantern := { s.lantern with
            grids := Tbl.del s.lantern.grids gid
            teams := s.lantern.teams.keep fun k _ => !ts.contains k
            insts := match g.collInst with | some k => Tbl.del s.lantern.insts k | none => s.lantern.insts } }
          let s := (s.dropReserved gid).tableFreed
          let s := match g.node with
            | some k => s.nodeRetire k
            | none => s
          let s := if g.parent.isNone && !g.aborted then s.finishPacket g.source gid else s
          let s := if bad && !g.aborted && !(s.queue g.source).err then s.rejectAt g.source 13 g.pkt false else s
          s.reapCtx g.ctx

/-! ### Moving places (R330) -/
/-- Moved regions: old core, old base, length, new core, new base. -/
abbrev Moves := List (Nat × Nat × Nat × Nat × Nat)
def Moves.place (r : Moves) (p : Nat × Nat) : Nat × Nat :=
  match r.find? fun (c, b, n, _, _) => c == p.1 && b ≤ p.2 && p.2 < b + n with
  | some (_, b, _, c', b') => (c', b' + (p.2 - b))
  | none => p
def Moves.retire (r : Moves) (x : Retire) : Retire :=
  match x.core with
  | some c => let p := r.place (c, x.addr); { x with core := some p.1, addr := p.2 }
  | none => x
/-- A scratch identity, of a mooring (`unit` 1) or of a sector (`unit` 32). -/
def Moves.ident (r : Moves) (unit k : Nat) : Nat :=
  if k % 2 = 0 then k
  else
    let per := scrSize / unit
    let p := r.place (k / 2 / per, k / 2 % per * unit)
    2 * (p.1 * per + p.2 / unit) + 1
def Moves.item (r : Moves) (x : CopyItem) : CopyItem := let p := r.place (x.dcore, x.daddr); { x with dcore := p.1, daddr := p.2 }
def Moves.lane (r : Moves) (x : Lane) : Lane :=
  { x with
    mode := match x.mode with
      | .stalled (.mwait k tok w) => .stalled (.mwait (r.ident 1 k) tok w)
      | m => m
    region := x.region.map fun a => { a with sector := r.ident 32 a.sector } }
def Moves.group (r : Moves) (g : Group) : Group :=
  { g.mapLanes fun _ x => r.lane x with
    openBatch := g.openBatch.map r.item
    batches := g.batches.map fun b => { b with items := b.items.map r.item, act := r.retire b.act }
    tlOps := g.tlOps.map fun o =>
      { o with dst := r.place o.dst, act := r.retire o.act, hops := o.hops.map r.place, moors := o.moors.map r.retire } }

/-! ### Suspension (R278, R329 to R331) -/
/-- The teams halted and moved together with a team. -/
def State.gangOf (s : State) (t : Nat) : List Nat :=
  let x := s.team t
  if (s.grid x.grid).res then
    (s.lantern.teams.filter fun p => p.2.grid == x.grid && (p.2.st != .ended || p.2.cluster.isSome)).map (·.1)
  else match x.cluster with
    | none => [t]
    | some k => (s.lantern.teams.filter fun p => p.2.cluster == some k).map (·.1)
/-- PREEMPTION_REQUEST: every team of the gang is halted at a chain boundary, and what a halt lets complete completes (R329). -/
def State.preempt (s : State) (t : Nat) : State :=
  if (s.team t).st != .resident then s
  else (s.gangOf t).foldl (fun s m =>
    let s := (s.groupsOf m).foldl (fun s p => s.quiesce p.1 p.2) s
    s.setTeam m { s.team m with st := if (s.team m).st == .ended then .ended else .halted }) s
/-- A range of a memory, moved to another base. -/
def Mem.slice (m : Mem) (a n b : Nat) : Mem :=
  { bytes := (m.bytes.filter fun p => a ≤ p.1 && p.1 < a + n).map fun p => (p.1 - a + b, p.2)
    sectors := (m.sectors.filter fun p => a ≤ 32 * p.1 && 32 * p.1 < a + n).map fun p => (p.1 - a / 32 + b / 32, p.2) }
/-- Write a moved range into a memory. -/
def Mem.overlay (m : Mem) (x : Mem) (a n : Nat) : Mem :=
  let m := m.zero a n
  let m := x.bytes.foldl (fun m p => m.put p.1 p.2) m
  x.sectors.foldl (fun m p => m.setSector (32 * p.1) p.2) m
/-- What a sleeping lane keeps while its team is saved: its remaining clocks. -/
def Lane.pause (now : Nat) (x : Lane) : Lane :=
  match x.mode with | .sleeping u => { x with mode := .sleeping (u - now) } | _ => x
def Lane.resume (now : Nat) (x : Lane) : Lane :=
  match x.mode with | .sleeping u => { x with mode := .sleeping (u + now) } | _ => x
/-- Save one team and take it off its core. -/
def State.saveTeam (s : State) (t : Nat) : State :=
  let x := s.team t
  let c := x.core
  let ctx := (s.grid x.grid).ctx
  let gs := s.groupsOf t
  let k := s.core c
  let idxOf (slot : Nat) : Nat := (s.group c slot).idx
  let held := k.engines.keep fun _ e => e.holder == some t
  let othersHere := s.lantern.teams.any fun p => p.1 != t && p.2.core == c && (p.2.st == .resident || p.2.st == .halted) && (s.grid p.2.grid).ctx == ctx
  let mine (a : AmaxCell) : Bool := !othersHere && a.owner == some ctx
  let v : Saved :=
    { groups := gs.foldl (fun m p => Tbl.put m (s.group p.1 p.2).idx ((s.group p.1 p.2).mapLanes fun _ y => y.pause s.now)) []
      scr := k.scr.slice x.scrBase x.scrLen 0
      engines := held.mapV fun _ e => { e with ops := e.ops.map fun o => o.rename idxOf }
      partitioned := k.partitioned
      amax := k.amax.keep fun _ a => mine a }
  let k' : Core :=
    { k with
      groups := k.groups.keep fun g _ => !gs.contains (c, g)
      amax := k.amax.mapV fun _ a => if mine a then { a with owner := none } else a
      engines := k.engines.mapV fun _ e =>
        if e.holder == some t then { e with holder := none, ops := [], dY := none, proposals := [], conv := 0 } else e }
  let s := { s with lantern := { s.lantern with nextSave := s.lantern.nextSave + 1 } }
  (s.setCore c k').setTeam t { x with st := .suspended, saved := some v, savedAt := s.lantern.nextSave }
/-- CONTEXT_SAVE. -/
def State.contextSave (s : State) (t : Nat) : State :=
  if (s.team t).st != .halted then s else ((s.gangOf t).foldl State.saveTeam s).askInputs (s.grid (s.team t).grid)
/-- Whether a saved team fits on a core (R278, R300, R304, R305, R331). -/
def State.fitsSaved (s : State) (t core : Nat) : Bool :=
  let x := s.team t
  match x.saved with
  | none => false
  | some v =>
    let k := s.core core
    !k.failed && !s.reservedFor core x.grid && decide ((v.groups.filter (!·.2.ended)).length ≤ (s.freeSlots core).length) &&
      (s.freeScr core x.scrLen).isSome &&
      (v.engines.isEmpty || k.partitioned == v.partitioned) &&
      v.engines.all (fun e => (s.engine core e.1).holder.isNone && (s.engine core e.1).ops.isEmpty) &&
      v.amax.all (fun a => match (Tbl.get k.amax a.1 {}).owner with | none => true | some o => o == (s.grid x.grid).ctx) &&
      !(x.avoidHot && k.hot)
/-- A saved cell merges into a cell of the new core: one that another context's value is left in starts from +0 (R331). -/
def AmaxCell.merged (x a : AmaxCell) : AmaxCell :=
  ⟨BitVec.ofNat 32 (maxA f32 (if x.owner == a.owner then x.v.toNat else 0) a.v.toNat), a.owner⟩
/-- Put a saved team on a core, before its places are moved: its lanes read that core's caches from empty (R152, R194, R330). -/
def State.putTeam (s : State) (t core : Nat) : State × Moves :=
  let x := s.team t
  match x.saved with
  | none => (s, [])
  | some v =>
    let off := s.offSlot core
    let slots := v.groups.foldl (fun (acc : List Nat × List Nat) p =>
      if p.2.ended then (acc.1, acc.2 ++ [off + p.1])
      else
        let k := slotFor acc.1 (if v.partitioned then x.slots.getD p.1 0 / 8 else p.1)
        (acc.1.erase k, acc.2 ++ [k])) (s.freeSlots core, []) |>.2
    let base := (s.freeScr core x.scrLen).getD 0
    let k := s.core core
    let slotOf (i : Nat) : Nat := ((v.groups.zip slots).find? fun p => p.1.1 == i).map (·.2) |>.getD 0
    let k' : Core :=
      { k with
        groups := (v.groups.zip slots).foldl (fun m p => Tbl.put m p.2 (p.1.2.mapLanes fun _ y => y.resume s.now)) k.groups
        scr := k.scr.overlay (v.scr.slice 0 x.scrLen base) base x.scrLen
        engines := v.engines.foldl (fun m e => Tbl.put m e.1 { e.2 with ops := e.2.ops.map fun o => o.rename slotOf }) k.engines
        amax := v.amax.foldl (fun m a => Tbl.put m a.1 ((Tbl.get m a.1 {}).merged a.2)) k.amax
        l1 := []
        icache := [] }
    let ended := v.groups.all fun p => p.2.ended
    let shift (d : List Nat) : List Nat := d.map fun j => j - x.scrBase / 32 + base / 32
    let x' : Team :=
      { x with
        core := core, slots := (List.range x.slots.length).map fun i => if v.groups.any (fun p => p.1 == i && !p.2.ended) then slotOf i else x.slots.getD i 0
        scrBase := base, saved := none, placedAt := s.now, st := if ended then .ended else .resident
        avoidHot := false
        maps := x.maps.mapV fun _ m => { m with dirtyData := shift m.dirtyData, dirtyScale := shift m.dirtyScale } }
    ((s.setCore core k').setTeam t x', [(x.core, x.scrBase, x.scrLen, core, base)])
/-- Restore a gang on given cores. -/
def State.restoreGang (s : State) (ts cores : List Nat) : State :=
  let (s, r) := (ts.zip cores).foldl (fun (acc : State × Moves) p => let y := acc.1.putTeam p.1 p.2; (y.1, acc.2 ++ y.2)) (s, [])
  ts.foldl (fun s t =>
    let s := (s.groupsOf t).foldl (fun s p => s.updGroup p.1 p.2 r.group) s
    let c := (s.team t).core
    let k := s.core c
    let moved (e : Engine) : Engine := if e.holder == some t then { e with ops := e.ops.map fun o => { o with place := r.place o.place } } else e
    let s := s.setCore c { k with engines := k.engines.mapV fun _ e => moved e }
    let ctx := (s.grid (s.team t).grid).ctx
    s.setCtx ctx { s.ctx ctx with lastDisp := s.now }) s
/-- The cores on which a suspended unit (a team, or a cluster in member order) fits on a die. -/
def State.unitCores (s : State) (gid die : Nat) (ts : List Nat) : Option (List Nat) :=
  let g := s.grid gid
  ((List.range 24).map fun i => 24 * die + i).findSome? fun c =>
    if ts.length = 1 && g.clw * g.clh = 1 then (if s.fitsSaved (ts.headD 0) c then some [c] else none)
    else match rect c g.clw g.clh with
      | some cs =>
        let at_ := ts.map fun t => cs.getD (s.team t).member 0
        if (ts.zip at_).all fun p => s.fitsSaved p.1 p.2 then some at_ else none
      | none => none
/-- The units of a suspended gang: its clusters, or its teams. -/
def State.unitsOf (s : State) (ts : List Nat) : List (List Nat) :=
  let keys := (ts.map fun t => (s.team t).cluster.getD (10 ^ 9 + t)).eraseDups
  keys.map fun k => ts.filter fun t => (s.team t).cluster.getD (10 ^ 9 + t) == k
/-- Find cores for every unit of a resident grid over the device. -/
def State.restoreAll (s : State) (gid : Nat) : List (List Nat) → Option (List Nat × List Nat)
  | [] => some ([], [])
  | u :: us =>
    match (List.range 9).findSome? fun d => s.unitCores gid d u with
    | none => none
    | some cs =>
      let s' := (u.zip cs).foldl (fun s p => (s.putTeam p.1 p.2).1) s
      (s'.restoreAll gid us).map fun r => (u ++ r.1, cs ++ r.2)
/-- Try to restore a suspended gang on a die. -/
def State.tryRestore (s : State) (die t : Nat) : Option State :=
  let ts := (s.gangOf t).filter fun m => (s.team m).st == .suspended
  let gid := (s.team t).grid
  if !(s.grid gid).aborted && !s.inputsResident (s.grid gid) then none
  else if (s.grid gid).res then (s.restoreAll gid (s.unitsOf ts)).map fun r => s.restoreGang r.1 r.2
  else (s.unitCores gid die ts).map fun cs => s.restoreGang ts cs

/-! ### Placement attempts (R299, R302 to R304, R316) -/
/-- A dispatchable unit: a suspended gang by one of its teams, or a record. -/
inductive DUnit where
  | gang (t : Nat)
  | grid (gid : Nat)
  deriving DecidableEq, Repr
def State.unitGrid (s : State) : DUnit → Nat
  | .gang t => (s.team t).grid
  | .grid g => g
/-- The order in which suspended gangs stand before their source's records: the last to be suspended first (R304). -/
def bySaved (s : State) (a b : Nat) : Bool := decide ((s.team b).savedAt ≤ (s.team a).savedAt)
/-- The first team of each suspended gang. -/
def State.gangs (s : State) : List Nat :=
  let ts := (s.lantern.teams.filter fun p => p.2.st == .suspended).map (·.1)
  sortBy (bySaved s) (ts.filter fun t => ((s.gangOf t).find? fun m => (s.team m).st == .suspended) == some t)
/-- Insert by order of entry into READY. -/
def byReady (s : State) (a b : Nat) : Bool := decide ((s.grid a).readyAt ≤ (s.grid b).readyAt)
/-- The units of one source at a level: suspended gangs first. -/
def State.unitsIn (s : State) (level src : Nat) : List DUnit :=
  ((s.gangs.filter fun t => (s.team t).prio == level && (s.grid (s.team t).grid).source == src).map .gang) ++
  (sortBy (byReady s) ((s.lantern.grids.filter fun p =>
    p.2.prio == level && p.2.source == src && !p.2.aborted && (p.2.st == .ready || p.2.st == .placing)).map (·.1))).map .grid
/-- Sources of a level in round-robin order after the one a die served last. -/
def State.sources (s : State) (die level : Nat) : List Nat :=
  let all := (List.range 64).filter fun q => !(s.unitsIn level q).isEmpty
  match Tbl.find s.lantern.lastSource (16 * die + level) with
  | none => all
  | some l => (all.filter (l < ·)) ++ all.filter (· ≤ l)
def State.levelUnits (s : State) (die level : Nat) : List (Nat × DUnit) :=
  (s.sources die level).flatMap fun q => (s.unitsIn level q).map fun u => (q, u)
/-- Place a unit's next team or gang on a die. -/
def State.tryUnit (s : State) (die : Nat) : DUnit → Option State
  | .gang t => s.tryRestore die t
  | .grid gid =>
    let r := if (s.grid gid).res then s.placeAll gid else (s.candidate gid die).map fun cs => s.placeNext gid cs
    r.map fun s => s.startAttached gid
/-- Time a team must have been resident before it is suspended for another: 50 µs (R302). -/
def State.minRes (s : State) : Nat := 50 * s.keeper.power.clockMHz
/-- A team may be suspended now for priority `p`. -/
def State.yields (s : State) (t p : Nat) (strict : Bool) : Bool :=
  let x := s.team t
  (s.gangOf t).all (fun m => let y := s.team m; y.st == .ended || (y.st == .resident && y.placedAt + s.minRes ≤ s.now &&
    (if strict then decide (y.prio < p) else decide (y.prio ≤ p)))) && x.st == .resident
/-- Order of victims: lowest priority first, among those the most recently placed. -/
def victimLe (s : State) (a b : Nat) : Bool :=
  let x := s.team a
  let y := s.team b
  decide (x.prio < y.prio) || (x.prio == y.prio && decide (y.placedAt ≤ x.placedAt))
/-- The shortest run of victims that lets a test pass. -/
def State.victimsFor (s : State) (test : State → Bool) : List Nat → List Nat → Option (List Nat)
  | [], acc => if test s then some acc else none
  | v :: vs, acc =>
    if test s then some acc
    else if acc.contains v then s.victimsFor test vs acc
    else
      let gang := s.gangOf v
      (gang.foldl State.saveTeam s).victimsFor test vs (acc ++ gang)
/-- The teams on cores that yield to a priority, in victim order. -/
def State.yielding (s : State) (cores : List Nat) (p : Nat) : List Nat :=
  sortBy (victimLe s) ((s.lantern.teams.filter fun x => cores.contains x.2.core && s.yields x.1 p true).map (·.1))
/-- Cost of a victim set: highest priority, groups. -/
def State.victimCost (s : State) (vs : List Nat) : Nat × Nat :=
  ((vs.map fun v => (s.team v).prio).foldl max 0, (vs.map fun v => (s.groupsOf v).length).sum)
/-- The order of costs. -/
def costLt (a b : Nat × Nat) : Bool := decide (a.1 < b.1) || (a.1 == b.1 && decide (a.2 < b.2))
/-- The first of the cheapest. -/
def cheapest {α : Type} (cost : α → Nat × Nat) (xs : List α) : Option α :=
  xs.foldl (fun (best : Option α) x => match best with
    | none => some x
    | some y => if costLt (cost x) (cost y) then some x else some y) none
/-- Where a grid's next team or cluster is placed once victims are suspended, and those victims: the core or rectangle with the cheapest
ones (R303). -/
def State.bestPlace (s : State) (gid : Nat) (corners : List Nat) : Option (List Nat × List Nat) :=
  let g := s.grid gid
  cheapest (fun p => s.victimCost p.2) (corners.filterMap fun c => match rect c g.clw g.clh with
    | some cs => (s.victimsFor (fun s => cs.all (s.fits gid ·)) (s.yielding cs g.prio) []).map fun vs => (cs, vs)
    | none => none)
/-- The victims that make a resident grid fit over the device (R301, R303): the shortest run of them, without those that the rest does
not need, the least ready to go first (log entry 64). -/
def State.victimsRes (s : State) (gid : Nat) : Option (List Nat) :=
  let fits (vs : List Nat) : Bool := ((vs.foldl State.saveTeam s).packs gid).isSome
  (s.victimsFor (fun s => (s.packs gid).isSome) (s.yielding (List.range 216) (s.grid gid).prio) []).map fun vs =>
    vs.reverse.foldl (fun kept v =>
      let rest := kept.filter fun t => !(s.gangOf v).contains t
      if fits rest then rest else kept) vs
/-- The victims a READY record that fits nowhere on the die has suspended; teams already halted leave their places too (R303). -/
def State.victims (s : State) (die gid : Nat) : List Nat :=
  let s := ((s.lantern.teams.filter fun p => p.2.st == .halted).map (·.1)).foldl State.saveTeam s
  if (s.grid gid).res then (s.victimsRes gid).getD []
  else ((s.bestPlace gid ((List.range 24).map fun i => 24 * die + i)).map (·.2)).getD []
/-- The head of a level. -/
def State.headOf (s : State) (die level : Nat) : Option DUnit := ((s.levelUnits die level).head?).map (·.2)
/-- Teams on a die's reserved cores of priority not above the head's: each is suspended once it has been resident for MINRES (R302). -/
def State.clearReserved (s : State) (die : Nat) : State :=
  match Tbl.find s.lantern.reserved die with
  | none => s
  | some r =>
    let ts := (s.lantern.teams.filter fun x => r.cores.contains x.2.core && s.yields x.1 r.level false).map (·.1)
    ts.foldl State.preempt s
/-- Count, for each level, an attempt that does not place its head (R302); each die's dispatcher has heads of its own. -/
def State.countHeads (s : State) (die : Nat) : State :=
  (List.range 16).foldl (fun s l => match s.headOf die l with
    | none => s
    | some u =>
      let gid := s.unitGrid u
      let a := Tbl.get s.lantern.attempts (16 * die + l) (gid, 0)
      let n := if a.1 = gid then a.2 + 1 else 1
      { s with lantern := { s.lantern with attempts := Tbl.put s.lantern.attempts (16 * die + l) (gid, n) } }) s
/-- The next unit to try, from the highest level down. -/
def State.attemptList (s : State) (die : Nat) : List (Nat × Nat × DUnit) :=
  ((List.range 16).reverse).flatMap fun l => (s.levelUnits die l).map fun x => (l, x.1, x.2)
/-- The first of some records that fits nowhere on a die, and for which teams may be suspended, has them suspended (R303). -/
def State.makeRoom (s : State) (die : Nat) (us : List DUnit) : State :=
  match us.findSome? fun u => match u with
    | .grid gid => let vs := s.victims die gid; if vs.isEmpty then none else some vs
    | .gang _ => none with
  | some vs => vs.foldl State.preempt s
  | none => s
/-- PLACEMENT_ATTEMPT: what ended teams leave is settled first; the first unit that fits is placed, and the records examined before it
did not fit. -/
def State.attempt (s : State) (die : Nat) : State :=
  let s := s.settleAll
  -- inputs are examined again
  let s := ((s.lantern.grids.filter fun p => p.2.st == .inputs).map (·.1)).foldl (fun s g => s.advance g true) s
  let s := s.clearReserved die
  -- attached collectives that wait to start
  let s := (s.lantern.grids.map (·.1)).foldl State.startAttached s
  let us := s.attemptList die
  match us.findSome? fun (l, q, u) => (s.tryUnit die u).map fun s' => (l, q, u, s') with
  | some (l, q, u, s') =>
    let gid := s.unitGrid u
    let s' := s'.dropReserved gid
    { s' with lantern := { s'.lantern with
      lastSource := Tbl.put s'.lantern.lastSource (16 * die + l) q
      attempts := (s.countHeads die).lantern.attempts.keep fun _ a => a.1 != gid } }.makeRoom die
        ((us.takeWhile fun (x : Nat × Nat × DUnit) => x.2.2 != u).map fun (x : Nat × Nat × DUnit) => x.2.2)
  | none => (s.countHeads die).makeRoom die (us.map fun (x : Nat × Nat × DUnit) => x.2.2)
/-- The cores that a resident grid has reserved (R302; log entry 64): those with the lowest highest priority on which all its teams stand
if nothing else does, without those that the rest does not need, the costliest first. -/
def State.reserveSet (s : State) (gid : Nat) (cost : List Nat → Nat × Nat) : Option (List Nat) :=
  let g := s.grid gid
  let per := min (32 / g.ngrp) (if g.scrk = 0 then 32 else 128 / g.scrk)
  let room (cs : List Nat) : Option (List (List Nat)) :=
    packAll g.clw g.clh (fun c => if cs.contains c then per else 0) ((g.nteam - g.placed) / (g.clw * g.clh))
  let all := (List.range 216).filter fun k => !(s.core k).failed && !s.reservedFor k gid
  match (List.range 16).findSome? fun p => (let cs := all.filter fun c => (cost [c]).1 ≤ p; (room cs).map fun _ => cs) with
  | none => none
  | some cs =>
    let least := (sortBy (fun a b => costLt (cost [b]) (cost [a]) || (cost [a] == cost [b] && decide (b ≤ a))) cs).foldl (fun kept c =>
      let rest := kept.filter (· != c)
      if (room rest).isSome then rest else kept) cs
    (room least).map fun rs => (rs.flatMap id).eraseDups
/-- CANDIDATE_RESERVATION (R302): a core or rectangle of the die, or for a resident grid a set of cores over the device. -/
def State.reserveFor (s : State) (die level : Nat) : State :=
  match s.headOf die level with
  | none => s
  | some u =>
    let gid := s.unitGrid u
    let g := s.grid gid
    let a := Tbl.get s.lantern.attempts (16 * die + level) (gid, 0)
    if a.1 ≠ gid ∨ a.2 < 256 ∨ (Tbl.find s.lantern.reserved die).isSome then s
    else
      let cost (cs : List Nat) : Nat × Nat :=
        s.victimCost ((s.lantern.teams.filter fun x => cs.contains x.2.core && (x.2.st == .resident || x.2.st == .halted)).map (·.1))
      let cands := ((List.range 24).map fun i => 24 * die + i).filterMap fun c => match rect c g.clw g.clh with
        | some cs => if cs.all fun k => !(s.core k).failed && !s.reservedFor k gid then some cs else none
        | none => none
      match if g.res then s.reserveSet gid cost else cheapest cost cands with
      | none => s
      | some cs =>
        ({ s with lantern := { s.lantern with reserved := Tbl.put s.lantern.reserved die ⟨level, gid, cs⟩ } }).clearReserved die
/-- THERMAL_MIGRATION (R305): 1 ms of residency and 4 ms between migrations on each core concerned. -/
def State.thermal (s : State) (core : Nat) : State :=
  let ms := 1000 * s.keeper.power.clockMHz
  let here := (s.lantern.teams.filter fun p => p.2.core == core && p.2.st == .resident).map (·.1)
  let oldest := here.foldl (fun (m : Option Nat) t => match m with
    | none => some t
    | some u => if (s.team t).placedAt < (s.team u).placedAt then some t else some u) none
  match oldest with
  | none => s
  | some t =>
    let gang := s.gangOf t
    let cs := (gang.map fun m => (s.team m).core).eraseDups
    let ok := gang.all (fun m => (s.team m).st == .ended || (s.team m).placedAt + ms ≤ s.now) &&
      cs.all fun c => (s.core c).thermalCount == 0 || decide ((s.core c).lastThermal + 4 * ms ≤ s.now)
    if !(s.core core).hot || !ok then s
    else
      let s := s.preempt t
      let s := gang.foldl (fun s m => s.setTeam m { s.team m with avoidHot := true }) s
      cs.foldl (fun s c => s.setCore c { s.core c with lastThermal := s.now, thermalCount := (s.core c).thermalCount + 1 }) s

end Sys2Proof.Machine
end

