-- ==== Sys2Proof/Machine/Lantern.lean ====
section
/-! DEFINITION. The Lantern's command queues: the order packets start in, their checks, their effects and their completion
(R288 to R292, R295, R301, R345, R376, R383). -/
namespace Sys2Proof.Machine

/-- The device serves work: STATE 3 and no temperature trip (R397, R401, R405). -/
def State.serving (s : State) : Bool := s.keeper.status.st == 3 && !s.keeper.power.tripped
/-- A context exists and is not being destroyed. -/
def State.hasCtx (s : State) (c : Nat) : Bool := match Tbl.find s.keeper.ctxs c with | some x => !x.dying | none => false

/-! ### Packets (R290) -/
/-- The eight words of a packet. -/
def State.pktWords (s : State) (q : Nat) : List DWord :=
  (List.range 8).map fun k => BitVec.ofNat 64 (s.vget (s.queue q).ctx.toNat ((s.pktAddr q).toNat + 8 * k) 8)
/-- Word `k` of a packet as a number. -/
def pw (ws : List DWord) (k : Nat) : Nat := (ws.getD k 0).toNat
def pktType (ws : List DWord) : Nat := pw ws 0 % 256
def pktAtt (ws : List DWord) : Bool := bitAt (pw ws 0) 8
def pktAsync (ws : List DWord) : Bool := bitAt (pw ws 0) 9
/-- Fields the packet does not use are zero, and reserved values are absent (ECODE 1). -/
def pktFields (ws : List DWord) : Bool :=
  let z (ks : List Nat) : Bool := ks.all fun k => pw ws k == 0
  let t := pktType ws
  let hi := pw ws 0 / 2 ^ 16
  bits (pw ws 0) 15 10 == 0 && (t == 1 || bits (pw ws 0) 9 8 == 0) &&
  (match t with
    | 0 => hi == 0 && z [1, 2, 3, 4, 5, 6, 7]
    | 1 => hi == 0 && z [6, 7] && (pktAtt ws || pw ws 5 == 0)
    | 2 => hi == 0 && z [2, 3, 4, 5, 6, 7]
    | 3 => decide (hi ≤ 2) && z [4, 5, 6, 7]
    | 4 => decide (hi ≤ 1) && z [3, 4, 5, 6, 7]
    | 5 => decide (hi ≤ 3) && decide (pw ws 1 < 4096) && decide (1 ≤ pw ws 2 ∧ pw ws 2 ≤ 4096) && z [3, 4, 5, 6, 7]
    | 6 => hi == 0 && z [2, 3, 4, 5, 6, 7]
    | _ => false)
/-- Addresses of the packet are aligned (ECODE 2). -/
def pktAligned (ws : List DWord) : Bool :=
  match pktType ws with
  | 1 => pw ws 1 % 32 == 0 && pw ws 2 % 16 == 0 && pw ws 3 % 8 == 0 && (!pktAtt ws || pw ws 5 % 128 == 0)
  | 2 => pw ws 1 % 128 == 0
  | 3 | 4 => pw ws 1 % 8 == 0
  | _ => true
/-- The marks of reading a packet and what its checks read (R221): a LAUNCH's record and input list, and the descriptor of a collective. -/
def State.pktMarks (s : State) (q : Nat) : State :=
  let ctx := (s.queue q).ctx.toNat
  let ws := s.pktWords q
  let s := s.readMark ctx .load (s.pktAddr q).toNat 64
  if !s.hasCtx ctx || !pktFields ws || !pktAligned ws then s
  else match pktType ws with
  | 1 => let s := s.recordMarks ctx (pw ws 1); if pktAtt ws then s.collMarks ctx (ws.getD 5 0) else s
  | 2 => s.collMarks ctx (ws.getD 1 0)
  | _ => s
/-- The record of a LAUNCH (R293 to R297, R301). -/
def State.recordCheck (s : State) (ctx : Nat) (a : Nat) : PktCheck :=
  match s.pktRange ctx .objRW a 32 with
  | .go =>
    let r := s.vget ctx a 32
    let g := recGrid ctx 0 r [] 15 0 none 0 0
    let lists : PktCheck :=
      if recInputs r = 0 then .go
      else if recInputs r % 16 ≠ 0 then .bad 7
      else match s.inputsFault ctx 65 (recInputs r) with
        | some (_, p) => s.pktRange ctx .load p 16
        | none => need (s.inputsOf ctx r).isSome 7
    firstCheck [need (recLegal r) 4, need (!recWatch r) 5, need (!recRes r || decide (recNteam r ≤ s.capacity g)) 6, lists]
  | x => x
/-- Every check of a packet, in order (R292, R345, R376). -/
def State.pktCheck (s : State) (q : Nat) : PktCheck :=
  let x := s.queue q
  let ctx := x.ctx.toNat
  let va := (s.pktAddr q).toNat
  let ring : PktCheck := match s.xlat none ctx .load va with
    | .ok _ _ apt _ _ _ _ => need (apt == 0 || apt == 2) 3
    | _ => s.pktRange ctx .load va 64
  if !s.hasCtx ctx then .bad 3
  else match ring with
  | .go =>
    let ws := s.pktWords q
    if !pktFields ws then .bad 1
    else if !pktAligned ws then .bad 2
    else match pktType ws with
    | 1 =>
      firstCheck [s.recordCheck ctx (pw ws 1), if pktAtt ws then s.collCheck ctx (ws.getD 5 0) else .go,
                  s.pktRange ctx .store (pw ws 2) 16, if pw ws 3 = 0 then .go else s.pktRange ctx .store (pw ws 3) 8,
                  if 4096 ≤ s.workTable then .full else .go]
    | 2 => if s.collBusy ctx (ws.getD 1 0) then .wait none else s.collCheck ctx (ws.getD 1 0)
    | 3 => s.pktRange ctx .load (pw ws 1) 8
    | 4 => s.pktRange ctx (if bitAt (pw ws 0) 16 then .atomic else .store) (pw ws 1) 8
    | 5 =>
      let act := pw ws 0 / 2 ^ 16
      let ls := (List.range (pw ws 2)).map (pw ws 1 + ·)
      if (s.ctx ctx).nlayer < pw ws 1 + pw ws 2 then .bad 10
      else if (act = 2 && ls.any fun l => tmPins (s.topmark ctx l) == 65535) || (act = 3 && ls.any fun l => tmPins (s.topmark ctx l) == 0) then .bad 11
      else .go
    | _ => .go
  | r => r

/-! ### Starting and completing (R289) -/
/-- The queue's next packet may start, but for its own checks. -/
def State.startable (s : State) (q : Nat) : Bool :=
  let x := s.queue q
  x.en && !x.err && !x.pkt.started && x.cptr == x.rptr && x.rptr != x.wptr && s.serving
/-- The queue the Lantern starts a packet of next: highest PRIO, round-robin among equals, passing over those that wait. -/
def State.nextQueue (s : State) : Option Nat :=
  let cs := (s.lantern.queues.filter fun p => s.startable p.1 && (match s.pktCheck p.1 with | .wait _ | .full => false | _ => true)).map (·.1)
  let top := (cs.map fun q => (s.queue q).prio.toNat).foldl max 0
  let cs := cs.filter fun q => (s.queue q).prio.toNat == top
  match Tbl.find s.lantern.rrPrio top with
  | none => cs.head?
  | some l => (cs.filter (l < ·) ++ cs.filter (· ≤ l)).head?
/-- The packet starts. -/
def State.startPkt (s : State) (q : Nat) (ws : List DWord) : State :=
  let x := s.queue q
  let s := s.setQueue q { x with rptr := x.rptr + 1, pkt := { started := true, words := ws, since := s.now } }
  { s with lantern := { s.lantern with rrPrio := Tbl.put s.lantern.rrPrio x.prio.toNat q } }
/-- The packet in service completes. -/
def State.endPkt (s : State) (q : Nat) : State :=
  let x := s.queue q
  s.setQueue q { x with cptr := x.cptr + 1, pkt := {} }
/-- Change the packet in service. -/
def State.updPkt (s : State) (q : Nat) (f : PktSt → PktSt) : State := let x := s.queue q; s.setQueue q { x with pkt := f x.pkt }

/-! ### Effects -/
/-- WAITMEM's condition (R290). -/
def waitCond (ws : List DWord) (v : Nat) : Bool :=
  let m := v &&& pw ws 3
  match bits (pw ws 0) 17 16 with
  | 0 => decide (pw ws 2 ≤ m)
  | 1 => m == pw ws 2
  | _ => m != pw ws 2
/-- One read of a WAITMEM in service. -/
def State.waitRead (s : State) (q : Nat) : State :=
  let x := s.queue q
  let ctx := x.ctx.toNat
  let a := pw x.pkt.words 1
  match s.pktRange ctx .load a 8 with
  | .bad c => s.rejectQueue q c
  | .wait l => (match l with | some l => s.requestLayer ctx l | none => s)
  | .full => s
  | .go =>
    let s := s.touch none ctx false a
    if waitCond x.pkt.words (s.vget ctx a 8) then s.endPkt q else s
/-- A LAUNCH is accepted (R291, R295): with ASYNC its packet completes. -/
def State.acceptLaunch (s : State) (q : Nat) (ws : List DWord) : State :=
  let x := s.queue q
  let ctx := x.ctx.toNat
  let r := s.vget ctx (pw ws 1) 32
  let g := recGrid ctx (ws.getD 1 0) r ((s.inputsOf ctx r).getD []) x.prio.toNat q none (ws.getD 2 0) (s.ctx ctx).seed
  let g := { g with signal := ws.getD 3 0, sigVal := ws.getD 4 0, coll := if pktAtt ws then some (ws.getD 5 0) else none, pkt := s.pktAddr q }
  let s := s.startPkt q ws
  let (gid, s) := s.registerGrid g
  if pktAsync ws then s.endPkt q else s.updPkt q fun p => { p with grid := some gid }
/-- The EPOCH a layer shows until it has been RESIDENT, from now on: for one that is RESIDENT now, the one before (R345). -/
def State.layerSnap (s : State) (ctx l : Nat) : BitVec 32 :=
  let t := s.topmark ctx l
  BitVec.ofNat 32 (tmEpoch t) - (if tmState t = 2 then 1 else 0)
/-- What starting a packet does, by its type. -/
def State.performPkt (s : State) (q : Nat) (ws : List DWord) : State :=
  let x := s.queue q
  let ctx := x.ctx.toNat
  match pktType ws with
  | 0 => (s.startPkt q ws).endPkt q
  | 1 => s.acceptLaunch q ws
  | 2 =>
    let s := s.startPkt q ws
    let (k, s) := s.collStart ctx q (ws.getD 1 0) none (s.ctx ctx).seed.toNat true
    s.updPkt q fun p => { p with inst := some k }
  | 3 => (s.startPkt q ws).waitRead q
  | 4 =>
    let s := s.startPkt q ws
    let a := pw ws 1
    let v := if bitAt (pw ws 0) 16 then (s.vget ctx a 8 + pw ws 2) % 2 ^ 64 else pw ws 2
    let (pa, key) := s.pa none ctx .store a
    (((s.touch none ctx true a).devWrite none key pa (toBytesLE 8 v) false).tellHost 1 ctx a (toBytesLE 8 v)).endPkt q
  | 5 =>
    let act := pw ws 0 / 2 ^ 16
    let ls := (List.range (pw ws 2)).map (pw ws 1 + ·)
    let snap : Tbl (BitVec 32) := ls.map fun l => (l, s.layerSnap ctx l)
    let s := (s.startPkt q ws).updPkt q fun p => { p with snapshot := snap }
    if act = 0 then ls.foldl (fun s l => s.requestLayer ctx l) s
    else if act = 1 then s
    else (ls.foldl (fun s l => s.tmPinBy ctx l (act == 2)) s).endPkt q
  | _ =>
    let snap : Tbl (BitVec 32) := ((List.range 64).filter fun k => bitAt (pw ws 1) k).map fun k => (k, (s.queue k).rptr)
    (s.startPkt q ws).updPkt q fun p => { p with snapshot := snap }
/-- A MODEL request is over: each layer has been RESIDENT at some moment since the start (R345). -/
def State.requestMet (s : State) (q : Nat) : Bool :=
  let x := s.queue q
  x.pkt.snapshot.all fun p => tmEpoch (s.topmark x.ctx.toNat p.1) != p.2.toNat
/-- A MODEL withdraw acts on the layers of its range that may go now, and completes when none is left. -/
def State.withdrawRun (s : State) (q : Nat) : State :=
  let x := s.queue q
  let ctx := x.ctx.toNat
  let s := x.pkt.snapshot.foldl (fun s p => if s.evictable ctx p.1 then s.evict ctx p.1 else s) s
  let s := s.retryWanted
  if x.pkt.snapshot.all fun p => (let t := tmState (s.topmark ctx p.1); t == 0 || t == 3) then s.endPkt q else s
/-- Counter `a` has reached `b`, mod 2³². -/
def reached (a b : BitVec 32) : Bool := decide ((a - b).toNat < 2 ^ 31)
/-- A packet in service goes on: it completes where what it waits for has come. -/
def State.resumePkt (s : State) (q : Nat) : State :=
  let x := s.queue q
  let ws := x.pkt.words
  match pktType ws with
  | 2 => match x.pkt.inst with
    | none => s
    | some k =>
      let c := s.inst k
      if !c.finished then s
      else
        let s := { s with lantern := { s.lantern with insts := Tbl.del s.lantern.insts k } }
        let a := s.pktAddr q
        let s := s.endPkt q
        if c.stat ≠ 0 then s.rejectAt q 13 a false else s
  | 3 => s.waitRead q
  | 5 => if pw ws 0 / 2 ^ 16 = 0 then
      (if s.requestMet q then s.endPkt q
       else x.pkt.snapshot.foldl (fun s p => if tmEpoch (s.topmark x.ctx.toNat p.1) = p.2.toNat then s.requestLayer x.ctx.toNat p.1 else s) s)
    else s.withdrawRun q
  | 6 => if x.pkt.snapshot.all fun p => reached (s.queue p.1).cptr p.2 then s.endPkt q else s
  | _ => s
/-- Whether the packet a queue serves or serves next is of the kind an event names; a packet with a reserved TYPE or ACTION is met by
any of them. -/
def pktKind (ws : List DWord) (type : Nat) (act : Option Nat) : Bool :=
  !decide (pktType ws ≤ 6) || (pktType ws == type && (match act with | some a => pw ws 0 / 2 ^ 16 == a || !pktFields ws | none => true))
/-- One packet event of the Lantern on a queue: a packet in service goes on; otherwise the next packet of that kind starts if it is
the one the Lantern starts, or is rejected, or waits. -/
def State.serve (s : State) (q type : Nat) (act : Option Nat) : State :=
  let x := s.queue q
  if !s.serving || !x.en || x.err then s
  else if x.pkt.started then
    (if pktKind x.pkt.words type act then (let s := s.resumePkt q; s) else s)
  else if !s.startable q then s
  else
    let ws := s.pktWords q
    match s.pktCheck q with
    | .bad c => if s.nextQueue == some q && (c == 3 || pktKind ws type act) then (s.pktMarks q).rejectQueue q c else s
    | .wait l =>
      if !pktKind ws type act then s
      else
        let s := (s.pktMarks q).updPkt q fun _ => {}
        match l with
        | some l => s.requestLayer x.ctx.toNat l
        | none => s
    | .full => if pktKind ws type act && x.pkt.words.isEmpty then (s.pktMarks q).updPkt q fun _ => { words := ws, since := s.now } else s
    | .go => if s.nextQueue == some q && pktKind ws type act then
        (let s := (s.pktMarks q).performPkt q ws
         if type = 5 || type = 6 then (if (s.queue q).pkt.started then s.resumePkt q else s) else s)
      else s
/-- WAITMEM_REREAD (R290). -/
def State.reread (s : State) (q : Nat) : State :=
  let x := s.queue q
  if s.serving && x.en && !x.err && x.pkt.started && pktType x.pkt.words == 3 then s.waitRead q else s
/-- WORK_TABLE_TIMEOUT (R292): the LAUNCH has waited more than 100 ms on a full table. -/
def State.tableTimeout (s : State) (q : Nat) : State :=
  let x := s.queue q
  if s.startable q && !x.pkt.words.isEmpty && s.pktCheck q == .full &&
      decide (x.pkt.since + 100000 * s.keeper.power.clockMHz < s.now) then (s.pktMarks q).rejectQueue q 8
  else s
/-- DOORBELL (R395). -/
def State.ring (s : State) (q : Nat) (wptr : BitVec 32) : State :=
  if 64 ≤ q || s.keeper.cxlDown then s else s.setQueue q { s.queue q with wptr := wptr }

end Sys2Proof.Machine
end

