-- ==== Sys2Proof/Machine/Fetch.lean ====
section
/-! DEFINITION. Packets and chains: the words at a packet address, and where a chain ends (R26 to R29, R48). -/
namespace Sys2Proof.Machine

/-- The byte at an address as instruction fetch reads it: from the instruction cache where it holds the sector, which no store
updates (R152), and else from memory. -/
def State.fetchByte (s : State) (core ctx va : Nat) : Byte :=
  let p := s.pa (some core) ctx .fetch (va % 2 ^ 64)
  match (s.core core).icache.find? (·.1 == p.1 / 32) with
  | some c => c.2.getD (p.1 % 32) 0
  | none => s.mem.getKey p.2 p.1
/-- Sectors the instruction cache holds: 128 KiB (R12). -/
def icacheSectors : Nat := 4096
/-- A fetch brings the sector that holds an address into the instruction cache, in place of the one held longest when it is full (log
entry 53). -/
def State.icFill (s : State) (core ctx va : Nat) : State :=
  let p := s.pa (some core) ctx .fetch (va % 2 ^ 64)
  let k := s.core core
  if k.icache.any (·.1 == p.1 / 32) then s
  else s.setCore core { k with icache := ((p.1 / 32, (List.range 32).map fun i => s.mem.getKey p.2 (p.1 / 32 * 32 + i)) :: k.icache).take icacheSectors }
/-- The packet at an address: three words, word 0 at the lowest address (R48). -/
def State.packetAt (s : State) (core ctx pc : Nat) : List Word :=
  (List.range 3).map fun k => BitVec.ofNat 32 (ofBytesLE ((List.range 4).map fun i => s.fetchByte core ctx (pc + 4 * k + i)))
/-- The slot after the chain that starts at a slot: 3 or more where the packet ends with it (R27, R28). -/
def chainEnd (ws : List Word) : Nat → Nat → Nat
  | 0, slot => slot
  | n + 1, slot =>
    let w := (ws.getD slot 0).toNat
    let next := slot + 1 + rawLits w
    if fCh w && decide (next < 3) then chainEnd ws n next else next
/-- The place that follows a slot: the next packet once this one is used up. -/
def placeAfter (pc : DWord) (slot : Nat) : DWord × Nat := if slot < 3 then (pc, slot) else (pc + 12, 0)
/-- The place after the chain at a place, as a trap return that skips it needs (R319). -/
def State.afterChain (s : State) (core ctx : Nat) (pc : DWord) (slot : Nat) : DWord × Nat :=
  placeAfter pc (chainEnd (s.packetAt core ctx pc.toNat) 3 slot)

end Sys2Proof.Machine
end

