-- ==== Sys2Proof/Machine/Keeper.lean ====
section
/-! DEFINITION. The Keeper: the service of parked faults, the fault queue, the services of `kreq`, layers, and failures in service
(R318 to R349, R420). -/
namespace Sys2Proof.Machine

/-! ### Parked lanes (R156, R323) -/
/-- The lanes of a parked fault that still wait. -/
def State.parkedLanes (s : State) (p : ParkRec) : List Nat :=
  ((s.member p.team p.gi).lanes.filter fun x => p.lanes.getLsbD x.1 && (match x.2.mode with
    | .parked (.fault c v _) => c == p.cause && v.toNat / 65536 == p.va.toNat / 65536
    | _ => false)).map (·.1)
/-- Apply to lanes of a team's group, resident or saved. -/
def State.updLanes (s : State) (team gi : Nat) (ls : List Nat) (f : Lane → Lane) : State :=
  s.updMember team gi fun g => g.mapLanes fun l x => if ls.contains l then f x else x
/-- The context and grid of a team. -/
def State.teamCtx (s : State) (team : Nat) : Nat := (s.grid (s.team team).grid).ctx
/-- A lane of a group takes a trap wherever its group is (R318, R320). -/
def State.trapMember (s : State) (team gi lane : Nat) (c : Cause) (va : DWord) : State :=
  match s.memberAt team gi with
  | some (core, grp) => s.takeTrap core grp lane c va (s.lane core grp lane).slot
  | none =>
    let x := (s.member team gi).lane lane
    let ctx := s.teamCtx team
    let tv := (s.ctx ctx).tvec
    if x.mode == .exited then s
    else if x.h || tv == 0 then
      (s.record { cause := c, src := 0, ctx := ctx, team := (s.team team).idx, addr := va, lanes := BitVec.ofNat 32 (2 ^ lane), fpc := x.pc }).abortGrid
        (s.team team).grid
    else s.updLanes team gi [lane] fun x => x.enterTrap tv c va x.pc x.slot
/-- A fault still waits for its outcome: lanes are parked on it, or a team's last write-back. -/
def State.parkWaits (s : State) (p : ParkRec) : Bool := p.flush || !(s.parkedLanes p).isEmpty
/-- The parked lanes become ready and execute the chain again (R156), after everything that happens before the service: their core's L1
data cache is dropped (R328). -/
def State.unpark (s : State) (p : ParkRec) : State :=
  let s := match s.memberAt p.team p.gi with
    | some (core, _) => s.l1DropAll core
    | none => s
  s.updLanes p.team p.gi (s.parkedLanes p) fun x => { x with mode := .ready }
/-- The parked lanes wait for a layer instead (R341). -/
def State.parkLayer (s : State) (p : ParkRec) (layer : Nat) : State :=
  s.updLanes p.team p.gi (s.parkedLanes p) fun x => { x with mode := .parked (.layer p.ctx layer) }
/-- The parked lanes take the trap, each with its own address (R318); a write-back that is not serviced drops its sectors (R211). -/
def State.deliverPark (s : State) (p : ParkRec) : State :=
  if p.flush then (s.dirtyOn p.team p.va.toNat).foldl (fun s q => s.dropSector p.team q p.cause) s
  else (s.parkedLanes p).foldl (fun s l =>
    let va := match ((s.member p.team p.gi).lane l).mode with | .parked (.fault _ v _) => v | _ => p.va
    s.trapMember p.team p.gi l p.cause va) s
/-- Ask for the layer of an address and let the parked lanes wait for it (R341, R343). -/
def State.serviceLayer (s : State) (p : ParkRec) : State :=
  match (s.ctx p.ctx).layerOf p.va.toNat with
  | none => s
  | some l =>
    let s := s.requestLayer p.ctx l
    if tmState (s.topmark p.ctx l) = 2 then s.unpark p else s.parkLayer p l
def State.dropPark (s : State) (k : Nat) : State := { s with keeper := { s.keeper with parks := Tbl.del s.keeper.parks k } }

/-! ### Judging a leaf (R219, R220, R323) -/
/-- A leaf as R219 forms it. -/
def leafFormed (x : Nat) : Bool := bitAt x 0 && bits x 63 62 == 0 && (!bitAt x 61 || bits x 36 25 == 0)
/-- A leaf that passes R220 for a context, permissions and privilege apart. -/
def State.leafSound (s : State) (ctx va x : Nat) : Bool :=
  let big := bitAt x 61
  let c := s.ctx ctx
  let need : Need := if leafApt x = 5 then .red else .load
  leafFormed x &&
    !(leafGated x && (decide (2 < leafApt x) || (c.layerOf va).isNone)) && leafApt x ≤ 5 &&
    (s.aptFault need (x ||| 128) big va).isNone && (s.keyId (leafKey x)).isSome
/-- A leaf the Keeper may install in a context: status 0, 1 for the limits of R323, 3 for R220. -/
def State.judgeLeaf (s : State) (ctx va x : Nat) : Nat :=
  if !s.leafSound ctx va x then 3
  else if leafPrv x && !(s.ctx ctx).priv then 1
  else if (s.ctx ctx).priv || s.leafAllowed ctx x (bitAt x 61) then 0 else 1

/-! ### The policy (R323) -/
/-- Whether the upcall decides a fault and not the policy (R323, R324, R326): its record has been emitted into FQNODE, or waits to
be while the node is open. -/
def State.upcall (s : State) (p : ParkRec) : Bool :=
  match p.rec_ with
  | none => false
  | some id => s.fqOpen p.ctx || (s.ctx p.ctx).pending.any fun f => f.id == id && f.slot.isSome
/-! ### The fault queue (R324) -/
/-- A parked fault's lanes wait on a record. -/
def State.parkOf (s : State) (id : Nat) : Option (Nat × ParkRec) := s.keeper.parks.find? fun p => p.2.rec_ == some id
/-- A written record holds its slot (R324). -/
def State.slotHeld (s : State) (ctx : Nat) (f : FSlot) : Bool :=
  let handed := match s.nodeAt ctx (s.ctx ctx).fqnode with
    | some k => decide ((s.nodeGet (s.node k) + 2 ^ 32 - (f.seq + 1)) % 2 ^ 32 < 2 ^ 31)
    | none => true
  let waits := match s.parkOf f.id with
    | some (_, p) => !(s.parkedLanes p).isEmpty
    | none => false
  f.slot.isSome && (!handed || (f.r.park && !f.done && waits))
/-- The next record that is not yet written. -/
def Ctx.nextPending (c : Ctx) : Option FSlot := c.pending.find? (·.slot.isNone)
/-- FAULT_RECORD_DELIVERY: the next record is written to its ring slot and emitted into FQNODE; while the slot is held or the node
has no room it is held back; without an open queue it goes to the Keeper's log, or its fault to the policy. -/
def State.deliverRecord (s : State) (ctx : Nat) : State :=
  let c := s.ctx ctx
  match c.nextPending with
  | none => s
  | some f =>
    if !s.fqOpen ctx then
      let s := s.setCtx ctx { c with pending := c.pending.filter fun (y : FSlot) => y.id != f.id }
      if f.r.park then
        { s with keeper := { s.keeper with parks := s.keeper.parks.mapV fun _ p => if p.rec_ == some f.id then { p with rec_ := none } else p } }
      else s.keepLog f.r
    else
      let slot := c.nextRec % c.nfq
      let va := c.fqring.toNat + 64 * slot
      match s.nodeAt ctx c.fqnode with
      | none => s
      | some n =>
        if (c.pending.any fun y => y.slot == some slot && s.slotHeld ctx y) || !s.nodeRoom n || !s.vok ctx .store va 64 then s
        else
          let f' : FSlot := { f with slot := some slot, va := BitVec.ofNat 64 va, seq := s.nodePut (s.node n) }
          let rest := c.pending.filter fun (y : FSlot) => y.slot != some slot
          let s := s.setCtx ctx { c with nextRec := c.nextRec + 1, pending := rest.map fun (y : FSlot) => if y.id = f.id then f' else y }
          (s.vwrite ctx va f.r.bytes).nodeEmit n (BitVec.ofNat 64 va)

/-! ### `kreq` (R327, R328) -/
/-- The Keeper's answer reaches the requesting lane. -/
def State.answer (s : State) (k : Nat) (status : Nat) : State :=
  match Tbl.find s.keeper.kreqs k with
  | none => s
  | some r =>
    let s := s.updLanes r.team r.gi [r.lane] fun x =>
      if x.mode == .stalled .kreq then { x.fill r.txn status false 0 with mode := .ready } else x
    { s with keeper := { s.keeper with kreqs := Tbl.del s.keeper.kreqs k } }
/-- The record a request names: written in the lane's context, with PARK. -/
def State.recordAt (s : State) (ctx : Nat) (a : DWord) : Option FSlot :=
  (s.ctx ctx).pending.find? fun f => f.slot.isSome && f.va == a
/-- A service has been performed: DONE in the record, and the fault is over. -/
def State.serviced (s : State) (ctx : Nat) (f : FSlot) (park : Nat) : State :=
  let c := s.ctx ctx
  let s := s.setCtx ctx { c with pending := c.pending.map fun (y : FSlot) => if y.id = f.id then { y with done := true } else y }
  let w := s.vget ctx f.va.toNat 2
  let s := if s.vok ctx .store f.va.toNat 64 then s.vwrite ctx f.va.toNat (toBytesLE 2 (w ||| 2 ^ 13)) else s
  s.dropPark park
/-- Run a service on the record a request names: the outcome is a status and, for 0, the state with the service performed. -/
def State.onRecord (s : State) (k : Nat) (f : Nat → FSlot → ParkRec → Nat → Except Nat State) : State :=
  match Tbl.find s.keeper.kreqs k with
  | none => s
  | some r =>
    let ctx := s.teamCtx r.team
    match s.recordAt ctx r.a with
    | none => s.answer k 3
    | some x =>
      if !x.r.park then s.answer k 3
      else if x.done then s.answer k 2
      else match s.parkOf x.id with
        | none => s.answer k 2
        | some (pk, p) =>
          if (s.parkedLanes p).isEmpty then s.answer k 2
          else match f ctx x p (s.vget ctx (x.va.toNat + 32) 16) with
            | .error st => s.answer k st
            | .ok s' => (s'.serviced ctx x pk).answer k 0
/-- The request of a lower lane of the same chain stands before this one (R327). -/
def State.reqAhead (s : State) (k : Nat) (r : KReq) : Bool :=
  s.keeper.kreqs.any fun q => q.1 < k && q.2.team == r.team && q.2.gi == r.gi && q.2.at_ == r.at_
/-- The request an event answers has the event's service code, and it is its turn. -/
def State.reqIs (s : State) (k svc : Nat) : Bool :=
  match Tbl.find s.keeper.kreqs k with | some r => r.svc == svc && !s.reqAhead k r | none => false
def State.svcRetry (s : State) : Nat → FSlot → ParkRec → Nat → Except Nat State := fun _ _ p _ => .ok (s.unpark p)
def State.svcRemap (s : State) : Nat → FSlot → ParkRec → Nat → Except Nat State := fun ctx _ p reply =>
  let x := (reply % 2 ^ 64) - ((reply % 2 ^ 64) &&& 96)
  match s.judgeLeaf ctx p.va.toNat x with
  | 0 => if s.canInstall ctx p.va.toNat (bitAt x 61) then .ok ((s.install ctx p.va.toNat x (bitAt x 61)).unpark p) else .error 1
  | st => .error st
def State.svcSetrap (s : State) : Nat → FSlot → ParkRec → Nat → Except Nat State := fun ctx _ p _ =>
  match s.walk ctx p.va.toNat with
  | .leaf .. => .ok ((s.setLeaf ctx p.va.toNat (· ||| 128)).unpark p)
  | _ => .error 3
def State.svcRestream (s : State) : Nat → FSlot → ParkRec → Nat → Except Nat State := fun ctx _ p _ =>
  match (s.ctx ctx).layerOf p.va.toNat with
  | none => .error 3
  | some _ => .ok (s.serviceLayer p)
def State.svcDeliver (s : State) : Nat → FSlot → ParkRec → Nat → Except Nat State := fun _ _ p _ => .ok (s.deliverPark p)
def State.svcAbort (s : State) : Nat → FSlot → ParkRec → Nat → Except Nat State := fun _ _ p _ => .ok (s.abortGrid (s.team p.team).grid)

/-! ### MIGRATE (R328) -/
/-- A free frame of a core's vault memory. -/
def State.takeVault (s : State) (core : Nat) : Option (Nat × State) :=
  let fs := (List.range (16 * (s.core core).vm)).map fun i => vaultFrame0 + 64 * core + i
  if (s.core core).vaultFailed then none
  else (fs.find? fun f => !s.keeper.usedFrames.contains f).map fun f =>
    (f, { s with keeper := { s.keeper with usedFrames := f :: s.keeper.usedFrames } })
/-- A frame for a context, evicting layers one at a time while none is free (R347). -/
def State.getFrame (s : State) (ctx : Nat) (big : Bool) : Nat → Option (Nat × State)
  | 0 => s.takeFrame big
  | n + 1 => match s.takeFrame big with
    | some r => some r
    | none => match s.victim ctx with
      | some (c, l) => (s.evict c l).getFrame ctx big n
      | none => none
/-- Move bytes, sideband and poison of `n` sectors, read under one key and written under another. -/
def State.moveSectors (s : State) (src srcKey dst dstKey : Nat) (n : Nat) : State :=
  (List.range n).foldl (fun s k =>
    let a := src + 32 * k
    let s' := s.devWrite none dstKey (dst + 32 * k) (s.devRead srcKey a 32).1 (s.mem.poisoned a 1)
    (s'.devSetSlot (dst + 32 * k) 0 (s.devSlot a 0)).devSetSlot (dst + 32 * k) 1 (s.devSlot a 1)) s
/-- Fill a page with what a peer device's Keeper sends, bytes and slots: free values (log entry 11); the slots of sector `k` are numbered
on from the page's bytes. -/
def State.fetchPeer (s : State) (leaf dst dstKey : Nat) : State :=
  (List.range 2048).foldl (fun s k =>
    let at_ (i : Nat) : Byte := Config.peerByte (leafFrame leaf) i s.now
    let s' := s.devWrite none dstKey (dst + 32 * k) ((List.range 32).map fun i => at_ (32 * k + i)) false
    (s'.devSetSlot (dst + 32 * k) 0 (at_ (65536 + 2 * k))).devSetSlot (dst + 32 * k) 1 (at_ (65537 + 2 * k))) s
/-- Move the page at an address to a local frame of aperture `kind`; a vault frame is taken on `core`. -/
def State.migratePage (s : State) (ctx core va kind : Nat) : Except Nat State :=
  match s.walk ctx va with
  | .leaf leaf big _ =>
    let apt := leafApt leaf
    let base := if big then va / 2 ^ 28 * 2 ^ 28 else va / 65536 * 65536
    if leafPin leaf then .error 1
    else if big && (kind == 1 || apt == 5 || (apt != 0 && apt != 2)) then .error 3
    else match (if kind = 1 then s.takeVault core else s.getFrame ctx big s.keeper.ctxs.length.succ) with
    | none => .error 1
    | some (f, s) =>
      let key := (s.keyId (leafKey leaf)).getD 0
      let srcKey := if apt = 1 then 0 else key
      let dstKey := if kind = 1 then 0 else key
      let src := leafPa leaf big base
      let local_ := apt != 5 || leafFrame leaf / 2 ^ 24 == s.me
      let s := if local_ then s.moveSectors src srcKey (65536 * f) dstKey (if big then 2 ^ 23 else 2048) else s.fetchPeer leaf (65536 * f) dstKey
      let frame := if kind = 1 then f - vaultFrame0 else f
      let new := leaf % 2 ^ 8 + kind * 2 ^ 8 + (bits leaf 24 12) * 2 ^ 12 + frame * 2 ^ 25 + bit01 big * 2 ^ 61
      let s := s.setLeaf ctx va fun _ => new
      let old := framesOf (src / 65536) big
      let c := s.ctx ctx
      let owned := local_ && old.any (c.frames.contains ·)
      let s := s.setCtx ctx { c with
        frames := (if kind = 1 then [f] else framesOf f big) ++ c.frames.filter fun y => !old.contains y
        layerFrames := if local_ then c.layerFrames.mapV fun _ fs => fs.map fun y => if y = old.headD 0 then f else y else c.layerFrames }
      .ok (if owned then ((s.dropLines old).freeFrames old).retryWanted else s)
  | _ => .error 3
def State.svcMigrate (s : State) : Nat → FSlot → ParkRec → Nat → Except Nat State := fun ctx x p reply =>
  if 1 < reply % 16 || bits reply 127 4 != 0 then .error 3
  else match s.migratePage ctx x.r.core p.va.toNat (reply % 16) with
  | .ok s' => .ok (s'.unpark p)
  | .error e => .error e

/-- FAULT_SERVICE: the policy's choice for a parked fault; what the limits refuse changes nothing. -/
def State.service (s : State) (k : Nat) (how : Service) : State :=
  match Tbl.find s.keeper.parks k with
  | none => s
  | some p =>
    if s.upcall p then s
    else if !s.parkWaits p then s.dropPark k
    else match how with
    | .leave => s
    | .retry => (s.unpark p).dropPark k
    | .setrap => match s.walk p.ctx p.va.toNat with
      | .leaf .. => ((s.setLeaf p.ctx p.va.toNat (· ||| 128)).unpark p).dropPark k
      | _ => s
    | .migrate vault => match s.migratePage p.ctx (s.team p.team).core p.va.toNat (bit01 vault) with
      | .ok s' => (s'.unpark p).dropPark k
      | .error _ => s
    | .deliver => (s.deliverPark p).dropPark k
    | .abort => (s.abortGrid (s.team p.team).grid).dropPark k
    | .request =>
      if p.cause = .layerWithdrawn then (s.serviceLayer p).dropPark k else s
    | .map leaf =>
      let x := leaf.toNat - (leaf.toNat &&& 96)
      if s.judgeLeaf p.ctx p.va.toNat x = 0 && s.canInstall p.ctx p.va.toNat (bitAt x 61) then ((s.install p.ctx p.va.toNat x (bitAt x 61)).unpark p).dropPark k else s

/-- RETURN (R319, R328): the trap return of the requesting lane, which writes no destination. -/
def State.svcReturn (s : State) (k : Nat) : State :=
  match Tbl.find s.keeper.kreqs k with
  | none => s
  | some r =>
    let core := (s.team r.team).core
    let s := s.updLanes r.team r.gi [r.lane] fun x =>
      if x.mode == .stalled .kreq then { x.leaveTrap (s.afterChain core (s.teamCtx r.team) x.frame.rpPc x.frame.rpSlot) with mode := .ready } else x
    { s with keeper := { s.keeper with kreqs := Tbl.del s.keeper.kreqs k } }

/-! ### Layers (R340 to R349) -/
/-- A lower layer of the same request has not been RESIDENT yet: this one waits its turn (R343). -/
def State.landingHeld (s : State) (ctx layer : Nat) : Bool :=
  s.lantern.queues.any fun p => p.2.ctx.toNat == ctx && p.2.pkt.started && pktType p.2.pkt.words == 5 && pw p.2.pkt.words 0 / 2 ^ 16 == 0 &&
    (p.2.pkt.snapshot.any fun y => y.1 == layer) && p.2.pkt.snapshot.any fun y => y.1 < layer && tmEpoch (s.topmark ctx y.1) == y.2.toNat
/-- Every leaf of a layer passes R220, and names a frame that the fetch has allotted: the limits of R323 that a frame no leaf names yet can
meet (log entry 66). -/
def State.layerSound (s : State) (ctx layer : Nat) : Bool :=
  let c := s.ctx ctx
  let src := c.source layer
  (src.pages.zip (Tbl.get c.layerFrames layer [])).all fun ((va, big), f) =>
    s.leafSound ctx va (layerLeaf src big f) && s.canInstall ctx va big
/-- Landed layers become RESIDENT, in ascending layer id; one with a leaf that does not pass waits for a retry, or is abandoned. -/
def State.settleLayers (s : State) (ctx : Nat) : State :=
  (sortBy Nat.ble (s.ctx ctx).landed).foldl (fun s l =>
    if s.landingHeld ctx l || !s.layerSound ctx l then s
    else
      let c := s.ctx ctx
      (s.setCtx ctx { c with landed := c.landed.filter (· != l) }).layerReady ctx l) s
/-- The bytes of an ARRIVING layer are all in. -/
def State.landLayer (s : State) (ctx layer : Nat) : State :=
  let c := s.ctx ctx
  (s.setCtx ctx { c with landed := if c.landed.contains layer then c.landed else layer :: c.landed }).settleLayers ctx
/-- LAYER_ARRIVAL: what a peer's window brings of a layer, which lands once all of it has come; one that the host writes arrives by
LAYER_DONE (R399). -/
def State.layerArrive (s : State) (ctx layer : Nat) (xs : List LayerBytes) : State :=
  if !s.hasCtx ctx || (s.ctx ctx).nlayer ≤ layer || tmState (s.topmark ctx layer) != 1 || (((s.ctx ctx).source layer).peer).isNone then s
  else
    let s := s.layerBytes ctx layer xs
    let s := s.setCtx ctx ((s.ctx ctx).noteCame layer xs)
    if (s.ctx ctx).allCame layer then s.landLayer ctx layer else s
/-- LAYER_FETCH_FAILURE: a retried fetch goes on; an abandoned one falls back to ABSENT, its frames are freed, and every grid with a
lane parked or stalled on the layer is aborted (R340, R343). -/
def State.fetchFailure (s : State) (ctx layer : Nat) (abandon : Bool) : State :=
  if !s.hasCtx ctx || (s.ctx ctx).nlayer ≤ layer || tmState (s.topmark ctx layer) != 1 then s
  else if !abandon then s.settleLayers ctx
  else
    let s := s.tmSet ctx layer 0
    let c := s.ctx ctx
    let s := (s.setCtx ctx { c with
      layerFrames := Tbl.del c.layerFrames layer, landed := c.landed.filter (· != layer), came := Tbl.del c.came layer }).freeFrames (c.heldFrames layer)
    let waits (g : Group) : Bool := g.lanes.any fun p => p.2.mode == .parked (.layer ctx layer) || p.2.mode == .stalled (.layer ctx layer)
    let here := s.cores.flatMap fun p => (p.2.groups.filter fun q => waits q.2).map fun q => (s.team q.2.team).grid
    let away := (s.lantern.teams.filter fun p => match p.2.saved with | some v => v.groups.any fun q => waits q.2 | none => false).map (·.2.grid)
    let s := (here ++ away).eraseDups.foldl (fun s g => s.abortGrid g) s
    (s.wakeLayer ctx layer).retryWanted
/-- LAYER_EVICTION: the victim that a waiting fetch takes (R347, R348). -/
def State.layerEvict (s : State) (ctx layer : Nat) : State :=
  let wants := s.keeper.ctxs.filter fun p => !p.2.wanted.isEmpty
  if wants.any fun p => s.victim p.1 == some (ctx, layer) then (s.evict ctx layer).retryWanted else s

/-! ### Failures in service (R332 to R335) -/
/-- Move a gang off its cores: halted, saved. -/
def State.suspendGang (s : State) (t : Nat) : State :=
  let s := s.preempt t
  let ts := s.gangOf t
  let s := ts.foldl (fun s m => if (s.team m).st == .halted then s.saveTeam m else s) s
  -- on entry into the wait for restore, the inputs that are not resident are asked for (R344)
  if ts.any fun m => (s.team m).st == .suspended then s.askInputs (s.grid (s.team t).grid) else s
/-- A team off a failed core: its tiles are poisoned, every lane's next chain takes UNCORRECTABLE, and its matrix output queue is
orphaned (R233, R333). -/
def State.scarTeam (s : State) (t : Nat) : State :=
  let x := s.team t
  match x.saved with
  | none => s
  | some v => s.setTeam t { x with saved := some { v with
      groups := v.groups.mapV fun _ g =>
        { g.mapLanes fun _ l => if l.mode == .exited then l else { l with pend := some (.uncorrectable, 0xFFFFFFFFFFFFFFFF) } with
          orphaned := !v.engines.isEmpty }
      engines := v.engines.mapV fun _ e => { e with poisoned := List.range 256 } } }
/-- CORE_FAILURE (R333): `lost` names the teams whose state fails the check. -/
def State.coreFail (s : State) (core : Nat) (lost : List Nat) : State :=
  if 216 ≤ core || (s.core core).failed then s
  else
    let ts := (s.lantern.teams.filter fun p => p.2.core == core && (p.2.st == .resident || p.2.st == .halted)).map (·.1)
    let s := s.setCore core { s.core core with failed := true }
    let s := { s with keeper := { s.keeper with status := { s.keeper.status with ncore := s.keeper.status.ncore - 1 } } }
    let s := ts.foldl (fun s t =>
      let s := s.record { cause := .uncorrectable, src := 8, ctx := s.teamCtx t, addr := 0, detail := BitVec.ofNat 32 core }
      if lost.contains t then s.abortGrid (s.team t).grid else (s.suspendGang t).scarTeam t) s
    let k := s.core core
    s.setCore core { k with l1 := [], tlb := [] }
/-- Every page of aperture 1 of a context, below a table: the address and its leaf. -/
def State.vaultPages (s : State) (core : Nat) : Nat → Nat → Nat → List Nat
  | 0, _, _ => []
  | lv + 1, table, va => (List.range 4096).flatMap fun i =>
    let x := s.phys64 (table + 8 * i)
    let va' := va * 4096 + i
    if !bitAt x 0 then []
    else if lv = 0 then (if leafApt x = 1 && leafFrame x / 64 == core then [va' * 65536] else [])
    else if bitAt x 61 then []
    else s.vaultPages core lv (bits x 60 15 * 32768) va'
/-- VAULT_FAILURE (R334). -/
def State.vaultFail (s : State) (core : Nat) : State :=
  if 216 ≤ core || (s.core core).vaultFailed then s
  else
    let s := s.coreFail core []
    let ts := (s.lantern.teams.filter fun p => p.2.st == .resident).map (·.1)
    let s := ts.foldl State.suspendGang s
    let mine := s.dirty.filter fun p => p.2 == core
    let s := { s with dirty := [] }
    let s := mine.foldl (fun s p => (List.range 4).foldl (fun s k =>
      { s with mem := s.mem.setSector (128 * p.1 + 32 * k) { s.mem.sector (128 * p.1 + 32 * k) with poison := true } }) s) s
    let s := s.setCore core { s.core core with vaultFailed := true }
    s.keeper.ctxs.foldl (fun s p => (s.vaultPages core 4 p.2.root 0).foldl (fun s va =>
      (s.setLeaf p.1 va (· - 1)).record { cause := .uncorrectable, src := 8, ctx := p.1, addr := BitVec.ofNat 64 va, detail := BitVec.ofNat 32 core }) s) s
/-- HEARTBEAT_TAKEOVER (R335): the standby pair takes over once; a packet whose restart begins its wait anew does so. -/
def State.takeover (s : State) : State :=
  if s.keeper.pair.standby then s
  else
    let s := { s with keeper := { s.keeper with pair := { standby := true, takeovers := s.keeper.pair.takeovers + 1 } } }
    s.lantern.queues.foldl (fun s p =>
      let ws := p.2.pkt.words
      if !p.2.pkt.started then s
      else if pktType ws = 6 then s.updPkt p.1 fun x => { x with snapshot := x.snapshot.mapV fun k _ => if k = p.1 then (s.queue k).rptr - 1 else (s.queue k).rptr }
      else if pktType ws = 5 then s.updPkt p.1 fun x => { x with snapshot := x.snapshot.mapV fun l _ => s.layerSnap p.2.ctx.toNat l }
      else s) s
/-- VAULT_ROW_SPARING, HBM_CHANNEL_FAILURE, DIE_LINK_LANE_FAILURE and UALINK_PORT_FAILURE (R332): only the hardware's map changes. -/
def State.spareRow (s : State) (vault row : Nat) : State :=
  if 216 ≤ vault then s
  else
    let k := s.core vault
    s.setCore vault { k with sparedRows := if k.sparedRows.contains row then k.sparedRows else row :: k.sparedRows }
def State.spareChannel (s : State) (stack ch : Nat) : State :=
  if 12 ≤ stack || s.keeper.sparedChannels.any (fun p => p.1 == stack) then s
  else { s with keeper := { s.keeper with sparedChannels := (stack, ch) :: s.keeper.sparedChannels } }
def State.loseLane (s : State) (link lane : Nat) : State :=
  if 12 ≤ link || s.fabric.lostLanes.contains (link, lane) then s
  else { s with fabric := { s.fabric with lostLanes := (link, lane) :: s.fabric.lostLanes } }
def State.losePort (s : State) (port : Nat) : State :=
  if 24 ≤ port || s.fabric.deadPorts.contains port then s
  else { s with fabric := { s.fabric with deadPorts := port :: s.fabric.deadPorts, ports := s.fabric.ports.filter (· != port) } }

end Sys2Proof.Machine
end

