-- ==== Sys2Proof/Machine/Host.lean ====
section
/-! DEFINITION. The host attachment: memory access and the scale view, the mailbox and its commands, firmware, start-up, power and
management (R215, R216, R394 to R406). -/
namespace Sys2Proof.Machine

/-! ### The mailbox (R398 to R402) -/
/-- The command register as a GO writes it. -/
def mbCmd (code ctx : Nat) : DWord := BitVec.ofNat 64 (code + ctx % 65536 * 2 ^ 16 + 2 ^ 63)
/-- A GO: one command runs at a time; one that meets BUSY is ignored.  In STATE 4 the ROM serves the firmware commands and WARM
only (R401). -/
def State.mailbox (s : State) (code ctx : Nat) (run : State → State × Nat) : State :=
  let rom := code == 0x60 || code == 0x61 || code == 0x70
  if s.keeper.cxlDown || !(s.keeper.status.st == 3 || (s.keeper.status.st == 4 && rom)) then s
  else if s.keeper.mailbox.busy then { s with keeper := { s.keeper with mailbox := { s.keeper.mailbox with missed := true } } }
  else
    let (s, st) := run s
    { s with keeper := { s.keeper with mailbox := { s.keeper.mailbox with cmd := mbCmd code ctx, busy := true, answer := st } } }
/-- An UNMAP runs on until the accesses that used the translation are performed, as a `tlbi` does (R227, R398). -/
def State.mbHeld (s : State) : Bool :=
  match s.keeper.mailbox.unmapping with
  | some (ctx, va) => s.tlbiBusy va ctx
  | none => false
/-- The Keeper writes the running command's answer. -/
def State.mbAnswer (s : State) : State :=
  let m := { s.keeper.mailbox with unmapping := none }
  if s.mbHeld then s
  else if m.busy then { s with keeper := { s.keeper with mailbox := { m with busy := false, status := m.answer, unread := true } } } else s
/-- MBSTS as the host reads it. -/
def Mailbox.word (m : Mailbox) : DWord := BitVec.ofNat 64 (bit01 m.busy + m.status % 65536 * 2 ^ 16)
/-- After the answer has been read, a GO that was ignored writes status 3. -/
def Mailbox.readOut (m : Mailbox) : Mailbox :=
  if m.busy || !m.unread then m else { m with unread := false, missed := false, status := if m.missed then 3 else m.status }
/-- MBSTS_READ: the host gets the word. -/
def State.mbRead (s : State) : State :=
  if s.keeper.cxlDown then s
  else
    let m := s.keeper.mailbox
    { s with keeper := { s.keeper with hostOut := toBytesLE 8 m.word.toNat, mailbox := m.readOut } }
/-- A status block as its word (R397). -/
def Status.word (x : Status) : Nat :=
  x.st + x.stepNo * 2 ^ 4 + bit01 x.presv * 2 ^ 8 + bit01 x.fwnew * 2 ^ 9 + x.ecode * 2 ^ 16 + x.ncore * 2 ^ 32
/-- The command codes of R398. -/
def mailboxCodes : List Nat := [0x01, 0x02, 0x03, 0x10, 0x11, 0x12, 0x20, 0x21, 0x30, 0x40, 0x41, 0x51, 0x60, 0x61, 0x70]
/-- MAILBOX_UNKNOWN_CODE: status 2. -/
def State.unknownCommand (s : State) (ctx code : Nat) : State :=
  if mailboxCodes.contains code then s else s.mailbox code ctx fun s => (s, 2)

/-! ### BAR0 (R395, R397, R398) -/
/-- A queue table entry as its 32 bytes (R288). -/
def Queue.word (x : Queue) : Nat :=
  x.base.toNat + x.nslot.toNat * 2 ^ 64 + x.prio.toNat * 2 ^ 80 + bit01 x.en * 2 ^ 84 + bit01 x.err * 2 ^ 85 + x.ctx.toNat * 2 ^ 96 +
    x.ecode.toNat * 2 ^ 112 + x.wptr.toNat * 2 ^ 128 + x.rptr.toNat * 2 ^ 160 + x.cptr.toNat * 2 ^ 192
/-- The byte of BAR0 at an offset: the status block, the mailbox and its payload, and the queue table; every other offset reads as zero
(log entry 67 for the doorbells). -/
def State.bar0Byte (s : State) (o : Nat) : Byte :=
  let of (w base : Nat) : Byte := BitVec.ofNat 8 (w / 2 ^ (8 * (o - base)))
  if o < 8 then of s.keeper.status.word 0
  else if 0x1000 ≤ o && o < 0x1008 then of s.keeper.mailbox.cmd.toNat 0x1000
  else if 0x1008 ≤ o && o < 0x1010 then of s.keeper.mailbox.word.toNat 0x1008
  else if 0x2000 ≤ o && o < 0x3000 then Tbl.get s.keeper.mailbox.payload (o - 0x2000) 0
  else if 0x100000 ≤ o && o < 0x100800 then of (s.queue ((o - 0x100000) / 32)).word (0x100000 + (o - 0x100000) / 32 * 32)
  else 0
/-- A host read of BAR0; one that takes in MBSTS is a read of the answer. -/
def State.bar0Read (s : State) (o n : Nat) : State :=
  let out := (List.range n).map fun i => s.bar0Byte (o + i)
  let s := if decide (o < 0x1010) && decide (0x1008 < o + n) then s.mbRead else s
  { s with keeper := { s.keeper with hostOut := out } }
/-- BAR0_WRITE_IGNORED: an offset of BAR0 that R395 does not list, or that is read-only through BAR0, keeps nothing. -/
def State.bar0Write (s : State) (_off : Nat) (_v : DWord) : State := s
/-- A host write to BAR0: a doorbell, the payload, or MBCMD, whose GO with a listed code is the command's own row (log entry 67); a code
that is not listed is status 2. -/
def State.bar0Store (s : State) (o : Nat) (bs : List Byte) : State :=
  let v := ofBytesLE bs
  if 0x10000 ≤ o && o < 0x10200 && o % 8 == 0 && 4 ≤ bs.length then s.ring ((o - 0x10000) / 8) (BitVec.ofNat 32 v)
  else if 0x2000 ≤ o && o + bs.length ≤ 0x3000 then
    { s with keeper := { s.keeper with mailbox := { s.keeper.mailbox with
        payload := bs.zipIdx.foldl (fun t (b, i) => Tbl.put t (o - 0x2000 + i) b) s.keeper.mailbox.payload } } }
  else if o = 0x1000 ∧ bs.length = 8 then
    (if bitAt v 63 then s.unknownCommand (v / 65536 % 65536) (v % 65536)
     else { s with keeper := { s.keeper with mailbox := { s.keeper.mailbox with cmd := BitVec.ofNat 64 (v % 2 ^ 32) } } })
  else s.bar0Write o (BitVec.ofNat 64 v)

/-! ### Host memory access (R215, R395, R396) -/
/-- Sizes of HDM 0, HDM 1 and BAR0. -/
def bar0Size : Nat := 16777216
def hdm0Size : Nat := 768000000000
def hdm1Size : Nat := 48000000000
/-- The unified leaf that names a frame, of any context: its key (R396). -/
def State.hostKey (s : State) (dpa : Nat) : Nat :=
  let f := dpa / 65536
  let k := s.keeper.ctxs.findSome? fun p => ((s.leaves p.1).find? fun (x, big) => leafApt x == 2 &&
    (if big then leafFrame x / 4096 == f / 4096 else leafFrame x == f)).map fun (x, _) => leafKey x
  match k with
  | some k => (s.keyId k).getD 0
  | none => 0
/-- The device address of a host address in a range of a base and a size. -/
def hdmOff (base : DWord) (size hpa n : Nat) : Option Nat :=
  if base.toNat ≤ hpa && decide (hpa + n ≤ base.toNat + size) then some (hpa - base.toNat) else none
/-- Bytes of a host access. -/
def hostLen : HostAccess → Nat
  | .read n => n
  | .write bs => bs.length
/-- HOST_MEM_ACCESS: HDM 0, the scale view, or BAR0; `none` where no range holds the address. -/
def State.hostAccess (s : State) (hpa : Nat) (a : HostAccess) : Option State :=
  if s.keeper.cxlDown then some s
  else match hdmOff s.keeper.hdm0 hdm0Size hpa (hostLen a) with
  | some d =>
    (match a with
    | .read n => some { s with keeper := { s.keeper with
        hostOut := (List.range n).map fun i => s.mem.getKey (s.hostKey (d + i)) (d + i) } }
    | .write bs => some ((splitSecs (bs.length + 1) d bs).foldl (fun s (x, b) => s.devWrite none (s.hostKey x) x b false) s))
  | none => match hdmOff s.keeper.hdm1 hdm1Size hpa (hostLen a) with
    | none => (hdmOff s.keeper.bar0 bar0Size hpa (hostLen a)).map fun o => match a with
      | .read n => s.bar0Read o n
      | .write bs => s.bar0Store o bs
    | some v => match a with
      | .read n => some { s with keeper := { s.keeper with hostOut := (List.range n).map fun i => s.devSlot (32 * ((v + i) / 2)) ((v + i) % 2) } }
      | .write bs => some ((bs.zipIdx).foldl (fun s (b, i) => s.devSetSlot (32 * ((v + i) / 2)) ((v + i) % 2) b) s)
/-- SCALE_VIEW_WRITE (R215): one byte of the scale view. -/
def State.scaleWrite (s : State) (hpa : Nat) (v : Byte) : State :=
  if s.keeper.cxlDown then s
  else match hdmOff s.keeper.hdm1 hdm1Size hpa 1 with
  | some x => s.devSetSlot (32 * (x / 2)) (x % 2) v
  | none => s
/-- HDM_DECODER_WRITE (R395). -/
def State.setDecoder (s : State) (which : BitVec 2) (base : DWord) : State :=
  if s.keeper.cxlDown then s
  else
    let k := s.keeper
    { s with keeper := if which = 0 then { k with bar0 := base } else if which = 1 then { k with hdm0 := base }
                       else if which = 2 then { k with hdm1 := base } else k }

/-! ### Contexts -/
/-- Whether a layer source is well formed for a context (R336, R343). -/
def sourceOk (nlayer : Nat) (x : LayerSrc) : Bool :=
  decide (x.layer < nlayer) && x.pages.all (fun p => if p.2 then p.1 % 2 ^ 28 == 0 else p.1 % 65536 == 0) && decide (x.key < 1024) &&
    (match x.peer with | some e => decide (e < 1024) | none => true)
/-- No queue of a context, enabled or not, has a priority above the context's (R336, R402). -/
def State.queuesUnder (s : State) (ctx p : Nat) : Bool := s.lantern.queues.all fun q => q.2.ctx.toNat != ctx || decide (q.2.prio.toNat ≤ p)
/-- CTX_CREATE (R317, R336). -/
def State.ctxCreate (s : State) (ctx : Nat) (x : CtxParams) : State × Nat :=
  if 65536 ≤ ctx || (Tbl.find s.keeper.ctxs ctx).isSome || x.root % 32768 != 0 || hbmFrames * 65536 < x.root + 32768 || 16 ≤ x.prio || 16 ≤ x.eclass || 4096 < x.nlayer ||
      x.tmbase % 4096 != 0 || x.tvec.toNat % 4 != 0 then (s, 2)
  else if !s.queuesUnder ctx x.prio then (s, 1)
  else
    let c : Ctx := { root := x.root, prio := x.prio, eclass := x.eclass, nlayer := x.nlayer, tmbase := BitVec.ofNat 64 x.tmbase, tvec := x.tvec, seed := x.seed }
    let s := s.setCtx ctx c
    let s := s.setCtx ctx { c with tmFresh := (List.range x.nlayer).filter fun l => (s.topmarkPa ctx l).isNone }
    -- every topmark zero (R338)
    ((List.range x.nlayer).foldl (fun s l => s.setTopmark ctx l 0) s, 0)
/-- CTX_SET. -/
def State.ctxSet (s : State) (ctx : Nat) (x : CtxChange) : State × Nat :=
  let c := s.ctx ctx
  let srcs := x.sources.getD []
  if !s.hasCtx ctx || 16 ≤ x.prio.getD 0 || 16 ≤ x.eclass.getD 0 || !srcs.all (sourceOk c.nlayer) then (s, 2)
  else if !s.queuesUnder ctx (x.prio.getD c.prio) then (s, 1)
  else
    let gate := srcs.flatMap fun y => y.pages.map fun p => (p.1, p.2, y.layer)
    let old := c.gate.filter fun g => !srcs.any fun y => y.layer == g.2.2
    (s.setCtx ctx { c with
      prio := x.prio.getD c.prio, eclass := x.eclass.getD c.eclass, seed := x.seed.getD c.seed, upmask := x.upmask.getD c.upmask
      fqring := x.fqring.getD c.fqring, nfq := x.nfq.getD c.nfq, fqnode := x.fqnode.getD c.fqnode
      sources := srcs.foldl (fun t y => Tbl.put t y.layer y) c.sources, gate := old ++ gate }, 0)
/-- CTX_DESTROY: the context's grids are aborted (R321). -/
def State.ctxDestroy (s : State) (ctx : Nat) : State × Nat :=
  if !s.hasCtx ctx then (s, 2)
  else
    let gs := (s.lantern.grids.filter fun p => p.2.ctx == ctx && p.2.parent.isNone).map (·.1)
    let s := gs.foldl (fun s g => s.abortGrid g) s
    ((s.setCtx ctx { s.ctx ctx with dying := true }).reapCtx ctx, 0)
/-- MAP: the frame counts as allotted to the context (R323, R398). -/
def State.mapLeaf (s : State) (ctx : Nat) (va leaf : DWord) : State × Nat :=
  let x := leaf.toNat - (leaf.toNat &&& 96)
  if !s.hasCtx ctx || !leafFormed x then (s, 2)
  else if !s.leafSound ctx va.toNat x || (leafPrv x && !(s.ctx ctx).priv) || !s.canInstall ctx va.toNat (bitAt x 61) then (s, 1)
  else
    let big := bitAt x 61
    let f := if leafApt x = 1 then vaultFrame0 + leafFrame x else leafFrame x
    let s := s.install ctx va.toNat x big
    if leafApt x = 5 then (s, 0)
    else
      let fs := framesOf f big
      let c := s.ctx ctx
      let s := s.setCtx ctx { c with frames := fs.filter (fun y => !c.frames.contains y) ++ c.frames }
      ({ s with keeper := { s.keeper with usedFrames := fs.filter (fun y => !s.keeper.usedFrames.contains y) ++ s.keeper.usedFrames } }, 0)
/-- UNMAP: the leaf goes, and with it, as at a `tlbi`, every translation by it; the answer waits for the accesses that used one. -/
def State.unmapLeaf (s : State) (ctx : Nat) (va : DWord) : State × Nat :=
  if !s.hasCtx ctx then (s, 2)
  else
    let s := (s.setLeaf ctx va.toNat fun _ => 0).doTlbi va.toNat ctx
    ({ s with keeper := { s.keeper with mailbox := { s.keeper.mailbox with unmapping := some (ctx, va.toNat) } } }, 0)
/-- The `pinfo` word of an address for a context, by the translation a load would use (R227). -/
def State.pinfo (s : State) (core : Option Nat) (ctx va : Nat) : Nat :=
  match s.leafFor core ctx va with
  | some (x, big) =>
    if leafPrv x && !(s.ctx ctx).priv then x &&& 17
    else
      let a := leafApt x
      let pa := leafPa x big va
      let hcore := if a = 1 then vaultCore pa else if a = 0 ∨ a = 2 ∨ a = 4 then s.homeCore pa else 0xFF
      let stack := if a = 0 ∨ a = 2 ∨ a = 4 then stackOf pa else 0xF
      x % 4096 + bit01 big * 2 ^ 12 + bit01 (leafRace x) * 2 ^ 13 + bit01 (leafPin x) * 2 ^ 14 + bit01 (leafGated x) * 2 ^ 15 +
        leafKey x * 2 ^ 16 + hcore % 256 * 2 ^ 32 + stack * 2 ^ 40
  | none => 0
/-- XLATE: the answer stands in the payload's first eight bytes. -/
def State.xlateCmd (s : State) (ctx : Nat) (va : DWord) : State × Nat :=
  if !s.hasCtx ctx then (s, 2)
  else ({ s with keeper := { s.keeper with mailbox := { s.keeper.mailbox with
    payload := (toBytesLE 8 (s.pinfo none ctx va.toNat)).zipIdx.foldl (fun t (b, i) => Tbl.put t i b) s.keeper.mailbox.payload } } }, 0)
/-- KEY_LOAD and KEY_CLEAR (R218). -/
def State.keyLoad (s : State) (k pair : Nat) : State × Nat :=
  if k = 0 ∨ 1024 ≤ k then (s, 2) else ({ s with keeper := { s.keeper with keys := Tbl.put s.keeper.keys k pair } }, 0)
def State.keyClear (s : State) (k : Nat) : State × Nat :=
  if k = 0 ∨ 1024 ≤ k then (s, 2) else ({ s with keeper := { s.keeper with keys := Tbl.del s.keeper.keys k } }, 0)
/-- A transmit entry the Keeper may hold (R352). -/
def State.txOk (s : State) (k : Nat) (e : BitVec 512) : Bool :=
  let lo := txAt e 127 64
  let n := 65536 * txAt e 159 128
  txAt e 0 0 == 0 ||
    (lo % 65536 == 0 && n != 0 && (s.fabric.tx.all fun p => p.1 == k || txAt p.2 0 0 == 0 || txAt p.2 47 32 != txAt e 47 32 ||
      decide (lo + n ≤ txAt p.2 127 64) || decide (txAt p.2 127 64 + 65536 * txAt p.2 159 128 ≤ lo)))
/-- No reflection issued through a transmit entry is outstanding (R354): entries of one context do not overlap, so the address of the
store tells which one it went through (R352). -/
def State.windowIdle (s : State) (e : BitVec 512) : Bool :=
  !s.fabric.net.any fun f => txHolds e f.ctx f.va.toNat 1 && (match f.cargo with | .refl _ => true | _ => false)
/-- No reflection issued through a multicast group is outstanding (R354). -/
def State.groupIdle (s : State) (k : Nat) : Bool := s.fabric.tx.all fun p => !(txAt p.2 1 1 == 1 && txAt p.2 263 256 == k) || s.windowIdle p.2
/-- WIN_SET.  Reserved fields of a receive or an exposure entry are kept as written and mean nothing: the spec gives them no consequence,
as it does those of a transmit entry (DESIGN CHOICE, log entry 76; R6, R353, R355, R366). -/
def State.winSet (s : State) (x : WinEntry) : State × Nat :=
  let f := s.fabric
  match x with
  | .tx k e =>
    if 1024 ≤ k || !s.txOk k e then (s, 2)
    else if !s.windowIdle (Tbl.get f.tx k 0) then (s, 1)
    else ({ s with fabric := { f with tx := Tbl.put f.tx k e } }, 0)
  | .rx k e => if 1024 ≤ k then (s, 2) else ({ s with fabric := { f with rx := Tbl.put f.rx k e } }, 0)
  | .exposure k e => if 256 ≤ k then (s, 2) else ({ s with fabric := { f with expo := Tbl.put f.expo k e } }, 0)
  | .multicast k ids =>
    if 256 ≤ k || 64 < ids.length || ids.any (4096 ≤ ·) then (s, 2)
    else if !s.groupIdle k then (s, 1)
    else ({ s with fabric := { f with mcast := Tbl.put f.mcast k ids } }, 0)
/-- QUEUE_SET (R288, R336). -/
def State.queueSet (s : State) (q : Nat) (x : QueueFields) : State × Nat :=
  if 64 ≤ q || !s.hasCtx x.ctx.toNat || x.base.toNat % 64 != 0 || x.nslot == 0 then (s, 2)
  else if (s.ctx x.ctx.toNat).prio < x.prio.toNat then (s, 1)
  else (s.setQueue q { s.queue q with base := x.base, nslot := x.nslot, prio := x.prio, en := x.en, ctx := x.ctx, wptr := x.wptr }, 0)
/-- QUEUE_CLEAR: enables no queue above its context's priority (R336, R402). -/
def State.queueClear (s : State) (q : Nat) : State × Nat :=
  if 64 ≤ q then (s, 2)
  else if s.hasCtx (s.queue q).ctx.toNat && decide ((s.ctx (s.queue q).ctx.toNat).prio < (s.queue q).prio.toNat) then (s, 1)
  else (s.setQueue q { s.queue q with err := false, ecode := 0, en := true }, 0)
/-- LAYER_DONE (R399). -/
def State.layerDone (s : State) (ctx layer : Nat) : State × Nat :=
  if !s.hasCtx ctx || (s.ctx ctx).nlayer ≤ layer || tmState (s.topmark ctx layer) != 1 || (((s.ctx ctx).source layer).peer).isSome then (s, 2)
  else (s.landLayer ctx layer, 0)

/-! ### The vault split (R212) -/
/-- VAULT_SPLIT_CHANGE (R212).  The spec does not say what the core's vault memory holds after it; the model clears it (DESIGN CHOICE,
log entry 76). -/
def State.splitChange (s : State) (core vm : Nat) : State :=
  let lo := vaultFrame0 + 64 * core
  let named := s.keeper.ctxs.any fun p => (s.leaves p.1).any fun (x, _) => leafApt x == 1 && leafFrame x / 64 == core
  if 216 ≤ core || 4 < vm || named || (s.core core).vaultFailed || s.keeper.usedFrames.any (fun f => lo ≤ f && f < lo + 64) then s
  else
    let s := { s with dirty := s.dirty.filter fun p => p.2 != core, mem := s.mem.zero (65536 * lo) (64 * 65536) }
    s.setCore core { s.core core with vm := vm }

/-! ### Power and management (R405, R406) -/
/-- POWER_WINDOW: the firmware keeps the average at or below PLIM in steps of 100 MHz. -/
def State.powerWindow (s : State) (watts : Nat) : State :=
  let p := s.keeper.power
  let clock := if p.plim < watts then (if 200 ≤ p.clockMHz then p.clockMHz - 100 else p.clockMHz) else min 2500 (p.clockMHz + 100)
  { s with keeper := { s.keeper with power := { p with watts := watts, clockMHz := clock } } }
def State.hotCore (s : State) (core : Nat) : State := if 216 ≤ core then s else s.setCore core { s.core core with hot := true }
/-- TEMPERATURE_TRIP: all work stops until a cold start, which begins anew. -/
def State.trip (s : State) : State :=
  { s with
    cores := s.cores.mapV fun _ k => { k with groups := [], engines := [] }
    lantern := {}, posted := [], merge := {}, chain := {}
    fabric := { s.fabric with net := [] }
    keeper := { s.keeper with starting := none, status := { s.keeper.status with st := 5 }, power := { s.keeper.power with tripped := true } } }
/-- PLIM_WRITE: not in STATE 4, in which the ROM serves management reads only (R401), nor once the link is down. -/
def State.plimWrite (s : State) (watts : Nat) : State :=
  if s.keeper.cxlDown || s.keeper.status.st == 4 then s
  else if 1200 ≤ watts && watts ≤ 2800 then { s with keeper := { s.keeper with power := { s.keeper.power with plim := watts } } } else s
/-- The temperatures now: the sensors' readings (log entry 67). -/
def State.readTemps (s : State) : Tbl Nat := (List.range 216).map fun c => (c, Config.temperature c s.now)
/-- MANAGEMENT_READ, over the CXL link (R406). -/
def State.mgmtRead (s : State) (what : MgmtItem) : State :=
  if s.keeper.cxlDown then s
  else
  let temps := if what == .temperatures then s.readTemps else s.keeper.temps
  let out : List Nat := match what with
    | .status => [s.keeper.status.word]
    | .corrected => [s.keeper.corrected]
    | .keeperLog => s.keeper.log.map fun r => ofBytesLE r.bytes
    | .failedCores => (s.cores.filter fun p => p.2.failed).map (·.1)
    | .temperatures => temps.map (·.2)
    | .power => [s.keeper.power.watts, s.keeper.power.plim]
  { s with keeper := { s.keeper with mgmtOut := out, temps := temps } }

end Sys2Proof.Machine
end

