-- ==== Sys2Proof/Machine/Operands.lean ====
section
/-! DEFINITION. The operands of a word in one lane: what each source code reads, the shadows read with it, the guard, the rounding
of a word, and the results a word gives (R15 to R23, R25, R36 to R39, R89, R102, R231 to R234). -/
namespace Sys2Proof.Machine

/-- Bits read at a width. -/
def wdBits : Wd → Nat
  | .w32 => 32
  | .w64 | .c64 | .a64 => 64
  | .w128 | .quad | .quadNZ => 128

/-! ### The chain's place -/
/-- The group whose chain is in progress. -/
def State.cgroup (s : State) : Group := s.group s.chain.core s.chain.grp
def State.clane (s : State) (l : Nat) : Lane := s.cgroup.lane l
def State.cctx (s : State) : Nat := s.ctxOf s.chain.core s.chain.grp
def State.cteam (s : State) : Team := s.teamOf s.chain.core s.chain.grp

/-! ### Sources -/
/-- Named registers: a reserved one stalls the lane (R19), a poisoned one raises UNCORRECTABLE (R133). -/
def Lane.readRegs (x : Lane) (r n : Nat) : Except LaneOut Nat :=
  let rs := (List.range n).map fun i => x.reg (r + i)
  if rs.any (·.busy.isSome) then .error (.stall .again)
  else match rs.find? (·.poison) with
    | some q => .error (.trap .uncorrectable q.from_)
    | none => .ok (rs.foldr (fun q v => q.v.toNat + 2 ^ 32 * v) 0)
/-- Queue entries: `~k`, and for 128 bits `~(k−1)` above it (R18). -/
def Lane.readAge (x : Lane) (k bits : Nat) : Except LaneOut Nat :=
  let es := if bits = 128 then [x.age k, x.age (k - 1)] else [x.age k]
  if es.any (·.busy.isSome) then .error (.stall .again)
  else match es.find? (·.poison) with
    | some q => .error (.trap .uncorrectable q.from_)
    | none => .ok (es.foldr (fun q v => q.v.toNat + 2 ^ 64 * v) 0 % 2 ^ bits)
/-- A lane's word of the matrix output queue (R231, R233, R234); as a 64-bit operand it is one word with zeros above, which is the
model's choice (log entry 71). -/
def State.readMqo (s : State) (l : Nat) : Except LaneOut Nat :=
  match s.cgroup.mqo with
  | e :: _ => if e.poison then .error (.trap .uncorrectable 0) else .ok ((e.words.getD l 0).toNat)
  | [] => if s.holds s.chain.core s.chain.grp && !s.cgroup.orphaned then .error (.stall .again) else .error (.trap .queueOrphaned 59)
/-- A lane's graph record (R232, R233). -/
def State.readWqi (s : State) (l : Nat) : Except LaneOut Nat :=
  match Tbl.find s.cgroup.wqi l with
  | some r => if r.popped then .error (.trap .queueOrphaned 60) else .ok r.payload.toNat
  | none => .error (.trap .queueOrphaned 60)
/-- One source of a lane at a width; `lit` is the literal of its `#` (R36). -/
def State.readSrc (s : State) (l : Nat) (w : Wd) (lit : Nat) : Src → Except LaneOut Nat
  | .n r => (s.clane l).readRegs r.val (wdBits w / 32)
  | .q k => (s.clane l).readAge (k.val + 1) (wdBits w)
  | .g r => .ok ((Tbl.get s.chain.g r.val 0).toNat % 2 ^ wdBits w)
  | .zero => .ok 0
  | .ln => .ok l
  | .lit => .ok lit
  | .mqo => s.readMqo l
  | .wqi => (s.readWqi l).map (· % 2 ^ wdBits w)
/-- The sources of a word in their order, with its literals (R27). -/
def State.readSrcs (s : State) (l : Nat) : List (Src × Wd) → List Nat → Except LaneOut (List Nat)
  | [], _ => .ok []
  | (c, w) :: t, lits =>
    match s.readSrc l w (lits.headD 0) c with
    | .error e => .error e
    | .ok v => (s.readSrcs l t (if c = .lit then lits.tail else lits)).map (v :: ·)
/-- Whether a lane's sources stand filled; a lane whose do not is stalled (R19, R147). -/
def Lane.filled (x : Lane) : Src × Wd → Bool
  | (.n r, w) => (List.range (wdBits w / 32)).all fun i => (x.reg (r.val + i)).busy.isNone
  | (.q k, w) => (x.age (k.val + 1)).busy.isNone && (wdBits w != 128 || (x.age k.val).busy.isNone)
  | _ => true

/-! ### Shadows (R22, R171, R231) -/
/-- The shadow read with a source in a lane's quarter; of a named pair, that of its even register, which is the model's choice (log
entry 71). -/
def State.srcShadow (s : State) (l : Nat) : Src → Shadow
  | .n r => Tbl.get (Tbl.get s.chain.quarters (quarterOf l) {}).regs r.val {}
  | .q k => (Tbl.get s.chain.quarters (quarterOf l) {}).queue.getD k.val {}
  | .mqo => match s.cgroup.mqo with | e :: _ => e.shadow.getD (quarterOf l) {} | [] => {}
  | _ => {}
/-- Slot `b` of a shadow. -/
def Shadow.slot (x : Shadow) (b : Nat) : Nat := (if b = 0 then x.s0 else x.s1).toNat

/-! ### Guards (R50, R89) -/
/-- A raw predicate source in a lane. -/
def Lane.holds (x : Lane) (p : PSrc) : Bool := x.preds.getLsbD p.p.toNat != p.neg
/-- Whether the guard of the next word holds in a lane. -/
def State.guardOn (s : State) (l : Nat) : Bool := match s.chain.guard with | none => true | some p => (s.clane l).holds p

/-! ### Rounding (R25, R66, R102) -/
def rmodeOf : Nat → RMode
  | 1 => .rtz | 2 => .rdn | 3 => .rup | 4 => .sr | _ => .rne
/-- The control word's RND in a lane. -/
def Lane.rnd (x : Lane) : Nat := x.control.toNat % 8
/-- LID and the position of R102: mode `m`, 7 for the control word's. -/
def State.rndOf (s : State) (l m a b c : Nat) : Rnd :=
  let mode := if m = 7 then (s.clane l).rnd else m
  let lid := (1024 * s.cteam.idx + 32 * s.cgroup.idx + l) % 2 ^ 32
  ⟨rmodeOf mode, (s.gridOf s.chain.core s.chain.grp).seed.toNat, ((a % 2 ^ 32) ^^^ (b % 2 ^ 32) ^^^ (c % 2 ^ 32)) * 2 ^ 32 + 4 * lid % 2 ^ 32⟩

/-! ### Results -/
/-- A result of `bits` bits in D, with flags. -/
def LaneOut.res (d : Dst) (bits : Nat) (r : Res) : LaneOut :=
  .ok (.result d bits (BitVec.ofNat 128 r.v) none :: if r.fl.any then [.flags r.fl] else [])
/-- A result that sets the shadow of the positions it writes. -/
def LaneOut.resSh (d : Dst) (bits : Nat) (r : Res) (sh : Shadow) : LaneOut :=
  .ok (.result d bits (BitVec.ofNat 128 r.v) (some sh) :: if r.fl.any then [.flags r.fl] else [])
/-- A predicate result. -/
def LaneOut.pred (p : PDst) (v : Bool) : LaneOut := .ok [.pred p.p.toNat v]
/-- A predicate result combined with the predicate as it stood before the chain (R85). -/
def State.combine (s : State) (l : Nat) (p : PDst) (c : Bool) : LaneOut :=
  let old := (s.clane l).preds.getLsbD p.p.toNat
  .pred p (combC (match p.comb.toNat with | 1 => .and | 2 => .or | _ => .set) old c)

end Sys2Proof.Machine
end

