-- ==== Sys2Proof/Machine/LaneMem.lean ====
section
/-! DEFINITION. The accesses of lanes: their checks at issue and their effects (R121 to R142, R207, R208, R217, R223 to R227). -/
namespace Sys2Proof.Machine

/-! ### The transaction table (R127) -/
/-- An entry of the group's table, counted on ld or st. -/
def State.newTxn (s : State) (core grp : Nat) (store : Bool) (fills : List Fill1) (secs : List Nat := []) (late : Option Late := none) :
    Nat × State :=
  (s.nextTxn, ({ s with nextTxn := s.nextTxn + 1 }).updGroup core grp fun g =>
    { g with
      txns := g.txns ++ [({ id := s.nextTxn, store := store, fills := fills, secs := secs, late := late } : Txn)]
      ld := if store then g.ld else g.ld + 1
      st := if store then g.st + 1 else g.st })
/-- The walker's marks for an access at a location (R221); one through a GATED leaf has found its layer RESIDENT, and acquires at
device scope (R342). -/
def State.markLoc (s : State) (core grp : Nat) (write : Bool) (l : Loc) : State :=
  match l with
  | .dev _ _ va _ =>
    let s' := s.touch (some core) (s.ctxOf core grp) write va.toNat
    (match s.leafFor (some core) (s.ctxOf core grp) va.toNat with
    | some (x, _) => if leafGated x then s'.l1DropAll core else s'
    | none => s')
  | .scr .. => s
/-- A location `k` bytes further on. -/
def Loc.plus (l : Loc) (k : Nat) : Loc :=
  match l with
  | .dev pa key va apt => .dev (pa + k) key (va + BitVec.ofNat 64 k) apt
  | .scr c off => .scr c (off + k)
/-- A speculative group's reads are remembered (R191). -/
def State.noteRead (s : State) (core grp : Nat) (secs : List Nat) : State :=
  s.updGroup core grp fun g => { g with spec := g.spec.map fun sp => { sp with reads := secs ++ sp.reads } }
/-- The access as conflict detection sees it, where it looks (R198, R199). -/
def State.touches (s : State) (core grp : Nat) (store : Bool) (ls : List Loc) : List Eff :=
  (ls.filter fun l => s.detected core grp l).map fun l => .touch ⟨l.sec, store⟩

/-! ### Releases (R129, R140) -/
/-- The lane's engine work that a release must find performed: accepted operations that reach memory, those that no counter counts too, folds, and its group's
reflections over the loop path; its copies are performed by the release itself. -/
def State.releaseReady (s : State) (core grp l : Nat) : Bool :=
  let g := s.group core grp
  let e := s.engine core (s.partOf core grp)
  !g.tlOps.any (fun o => o.lane == l && !o.done && o.kind != .matrix) &&
    !e.ops.any (fun m => Tbl.find m.by_ grp == some l && (m.idx == 7 || m.idx == 8 || (m.idx == 6 && cwDst m.a.toNat))) && !s.merge.folds.any (fun f => f.2.core == core && f.2.grp == grp && f.2.lane == l) &&
    !s.fabric.net.any fun f => f.team == g.team && f.gi == g.idx && s.localTarget f.tgt && f.done.isNone
/-- Perform the copies the lane has issued. -/
def State.copiesNow (s : State) (core grp l : Nat) : State :=
  let g := s.group core grp
  let mine (x : CopyItem) : Bool := x.lane == l && !x.done
  let s := ((g.batches.flatMap (·.items)) ++ g.openBatch).foldl (fun s x => if mine x then s.copy1 x else s) s
  let fin (x : CopyItem) : CopyItem := if x.lane == l then { x with done := true } else x
  s.updGroup core grp fun g => { g with openBatch := g.openBatch.map fin, batches := g.batches.map fun (b : Batch) => { b with items := b.items.map fin } }

/-! ### Loads (R125, R127 to R129) -/
/-- The checks of a load's address (R123). -/
def State.planAccess (s : State) (core grp : Nat) (n : Need) (scr : Bool) (size a w off : Nat) : Except LaneOut (Loc × Nat) :=
  if scr then
    let ea := eaScratch a w off size
    (s.checkScratch core grp ea size size).map fun l => (l, ea)
  else
    let ea := eaGlobal a w off size
    (s.checkGlobal core grp n ea size).map fun l => (l, ea)
/-- Bits of the result of a load of `size` bytes. -/
def loadBits (size : Nat) : Nat := if size = 16 then 128 else if size = 8 then 64 else 32
/-- The value a load gives: narrow ones extended to 32 bits. -/
def loadVal (size : Nat) (sign : Bool) (bs : List Byte) : Nat :=
  if size < 4 && sign then sext (8 * size) 32 (ofBytesLE bs) else ofBytesLE bs
/-- A synchronising instruction of a lane, or its exit: its region closes, and what it has loaded and stored is performed (R129, R193, R195). -/
def State.syncLane (s : State) (core grp l : Nat) : State :=
  ((s.updLane core grp l fun x => { x with region := [] }).updGroup core grp fun g => g.settleLoads (·.lane == l)).storesDone core grp l
/-- A write of a lane at a location follows its earlier loads of the sector; one by a release or an atomic follows every load that has read
the sector (R132, R197). -/
def State.afterLoads (s : State) (core grp lane : Nat) (loc : Loc) (every : Bool) : State :=
  if every then s.mapGroups fun _ _ g => g.settleLoads (·.loc.sec == loc.sec)
  else s.updGroup core grp fun g => g.settleLoads fun y => y.lane == lane && y.loc.sec == loc.sec
/-- A plain store is on its way: what stood in its place, but for data that is lost (log entry 9). -/
def State.sendStore (s : State) (core grp lane t : Nat) (loc : Loc) (old : List Byte × Bool) : State :=
  if old.2 then s
  else match loc with
  | .dev pa key _ _ => { s with lag := s.lag ++ [⟨core, grp, lane, t, none, pa, key, old.1⟩] }
  | .scr c off => { s with lag := s.lag ++ [⟨core, grp, lane, t, some c, off, 0, old.1⟩] }
/-- LOAD_LATE: an outstanding plain load reads memory, and what it has read so far is forgotten (log entry 8). -/
def State.loadLate (s : State) (core grp t : Nat) : State :=
  match (s.group core grp).txns.findSome? fun x => if x.id == t && !x.fills.isEmpty then x.late else none with
  | none => s
  | some y =>
    let (bs, bad) := s.loadBytes core (y.cached && s.cachedNow core grp) y.loc y.size
    let f : Fill1 := ⟨y.lane, BitVec.ofNat 128 (loadVal y.size y.sign bs), loadBits y.size, bad, y.ea⟩
    s.updGroup core grp fun g => { g with txns := g.txns.map fun (x : Txn) => if x.id = t then { x with fills := [f] } else x }
/-- A load is performed: its value is read, until its data returns again by LOAD_LATE, and its destination reserved (log entry 8).  The
answer is its transaction. -/
def State.doLoad (s : State) (core grp lane : Nat) (d : Dst) (size : Nat) (sign : Bool) (loc : Loc) (ea : DWord) (acq nc : Bool) : Nat × State :=
  let cached := !nc && s.cachedNow core grp
  let s := s.markLoc core grp false loc
  let (bs, bad) := s.loadBytes core cached loc size
  let fill : Fill1 := ⟨lane, BitVec.ofNat 128 (loadVal size sign bs), loadBits size, bad, ea⟩
  let (t, s) := s.newTxn core grp false (if d = .drop then [] else [fill]) [loc.sec]
    (if acq then none else some ⟨lane, loc, size, sign, !nc, ea⟩)
  let s := s.updLane core grp lane fun x => x.reserve d (loadBits size) t
  let s := match loc with
    | .dev pa key _ _ => if cached then s.l1Fill core key (sectorsOf pa size) else s
    | .scr .. => s
  let s := s.noteRead core grp [loc.sec]
  (t, if acq then s.l1DropAll core else s)

/-- A word reads or writes an object in memory as a lane's access would (R207, R221). -/
def State.doObject (s : State) (core grp : Nat) (loc : Loc) (n : Nat) (write : Bool) : State :=
  let s := s.markLoc core grp write loc
  match loc with
  | .dev pa key _ _ => if !write && s.cachedNow core grp then s.l1Fill core key (sectorsOf pa n) else s
  | .scr .. => s
/-- A place in each sector that `n` bytes at a location reach. -/
def Loc.sectorsIn (loc : Loc) (n : Nat) : List Loc :=
  let k := loc.place.2 % 32
  (List.range ((k + n + 31) / 32)).map fun i => loc.plus (32 * i - k)
/-- The effects of reading an object of `n` bytes by class-L loads: its sectors for conflict detection, and the access (R198). -/
def State.objReads (s : State) (core grp : Nat) (loc : Loc) (n : Nat) : List Eff :=
  s.touches core grp false (loc.sectorsIn n) ++ [.object loc n false]

/-! ### Block loads and stores (R130, R131) -/
/-- Bytes a block access touches: a sector, or a group of three. -/
def blkSecs (f : EFmt) : Nat := if f = .e3m2 || f = .e2m3 then 3 else 1
/-- First byte and number of bytes of a lane's part. -/
def blkSpan (f : EFmt) (l : Nat) : Nat × Nat :=
  if blkSecs f = 3 then (24 * quarterOf l + 3 * (l % 8), 3) else (4 * (l % 8), 4)
/-- The sideband slots of a quarter: (sector, slot) of s0 and, for `e2m1`, of s1. -/
def blkSlots (f : EFmt) (q : Nat) : List (Nat × Nat) :=
  if blkSecs f = 3 then [(q / 2, q % 2)] else if f = .e2m1 then [(0, 0), (0, 1)] else [(0, 0)]
/-- The checks of a block access on the leader's address; a 6-bit one reaches all three sectors of its group (log entry 72). -/
def State.planBlock (s : State) (core grp : Nat) (n : Need) (scr : Bool) (f : EFmt) (a off : Nat) : Except LaneOut (List Loc × Nat) :=
  let k := blkSecs f
  if scr then
    let ea := eaScratch a 7 off 32
    (s.checkScratch core grp ea 32 (32 * k)).map fun l => ((List.range k).map fun i => l.plus (32 * i), ea)
  else
    let ea := eaGlobal a 7 off 32
    let go : Except LaneOut (List Loc) := (List.range k).foldr (fun i acc =>
      match s.checkGlobal core grp n ((ea + 32 * i) % 2 ^ 64) 32 with
      | .error e => .error (match e with | .trap c _ => .trap c (BitVec.ofNat 64 ea) | .park c _ => .park c (BitVec.ofNat 64 ea) | x => x)
      | .ok l => acc.map (l :: ·)) (.ok [])
    go.map fun ls => (ls, ea)
/-- The byte of a block's sectors. -/
def blkLoc (locs : List Loc) (o : Nat) : Loc := (locs.getD (o / 32) (.scr 0 0)).plus (o % 32)
/-- A lane's codes, and the poison of the sectors that hold its own bytes (log entry 72). -/
def State.blkCodes (s : State) (core : Nat) (cached : Bool) (f : EFmt) (locs : List Loc) (l : Nat) : Nat × Bool :=
  let (o, n) := blkSpan f l
  let rs := (List.range n).map fun i => s.loadBytes core cached (blkLoc locs (o + i)) 1
  let v := ofBytesLE (rs.map fun r => r.1.headD 0)
  (if n = 3 then ((List.range 4).map fun k => bits v (6 * k + 5) (6 * k) * 2 ^ (8 * k)).sum else v, rs.any (·.2))
/-- The slots a quarter's load brings. -/
def State.blkShadow (s : State) (core : Nat) (cached : Bool) (f : EFmt) (locs : List Loc) (q : Nat) : Shadow :=
  let at_ (p : Nat × Nat) : Byte := s.loadSlot core cached (locs.getD p.1 (.scr 0 0)) p.2
  if blkSecs f = 3 then ⟨at_ (q / 2, q % 2), 0x7F⟩ else ⟨at_ (0, 0), at_ (0, 1)⟩
/-- The block loads of one quarter: one transaction for its lanes. -/
def State.doLoadBlk (s : State) (core grp q : Nat) (lanes : List Nat) (d : Dst) (f : EFmt) (locs : List Loc) (ea : DWord) : Nat × State :=
  let cached := s.cachedNow core grp
  let s := locs.foldl (fun s l => s.markLoc core grp false l) s
  let fills : List Fill1 := lanes.map fun l =>
    let (v, bad) := s.blkCodes core cached f locs l
    ⟨l, BitVec.ofNat 128 v, 32, bad, ea⟩
  let (t, s) := s.newTxn core grp false (if d = .drop then [] else fills) (locs.map (·.sec))
  let s := lanes.foldl (fun s l => s.updLane core grp l fun x => x.reserve d 32 t) s
  let s := locs.foldl (fun s l => match l with
    | .dev pa key _ _ => if cached then s.l1Fill core key [pa / 32] else s
    | .scr .. => s) s
  (t, (let _ := q; s.noteRead core grp (locs.map (·.sec))))
/-- A lane's bytes of a block store. -/
def blkBytesOf (f : EFmt) (code : Nat) : List Byte :=
  if blkSecs f = 3 then toBytesLE 3 ((List.range 4).map fun k => bits code (8 * k + 5) (8 * k) * 2 ^ (6 * k)).sum else toBytesLE 4 code
/-- The sectors that a quarter's block access reaches with its bytes and slots: the first, and how many. -/
def blkTouched (f : EFmt) (q : Nat) : Nat × Nat :=
  if blkSecs f = 3 then (if q = 0 then (0, 1) else if q = 1 then (0, 2) else (1, 2)) else (0, 1)
/-- Whether one of the sectors that a quarter's block store reaches lies on a page of aperture 3; where they begin, and their bytes. -/
def blkWindow (f : EFmt) (q : Nat) (locs : List Loc) : Option (Nat × Nat) :=
  let (k, n) := blkTouched f q
  if (List.range n).any fun i => (match locs.getD (k + i) (.scr 0 0) with | .dev _ _ _ 3 => true | _ => false) then
    match locs.headD (.scr 0 0) with
    | .dev _ _ va _ => some ((va.toNat + 32 * k) % 2 ^ 64, 32 * n)
    | .scr .. => none
  else none
/-- Send on what a quarter's block store wrote, where a sector of it lies on a page of aperture 3: one reflection, with its slots (R355). -/
def State.reflectBlk (s : State) (core grp q : Nat) (f : EFmt) (locs : List Loc) (xs : List (Nat × Word)) (slots : List ((Nat × Nat) × Byte)) : State :=
  match blkWindow f q locs, locs.headD (.scr 0 0) with
  | some (wva, n), .dev _ _ va _ =>
    (match s.txFor (s.ctxOf core grp) wva n with
    | some e =>
      let runs := xs.map fun (l, code) => ((blkSpan f l).1, blkBytesOf f code.toNat)
      let lo := (runs.map (·.1)).foldl min 96
      let hi := (runs.map fun r => r.1 + r.2.length).foldl max 0
      let at_ (i : Nat) : Option Byte := runs.findSome? fun r => if r.1 ≤ i then r.2[i - r.1]? else none
      let places := (List.range (hi - lo)).map fun i => at_ (lo + i)
      s.reflectVia core grp (s.ctxOf core grp) e ((va.toNat + lo) % 2 ^ 64) (places.map fun b => b.getD 0)
        (slots.map fun (p, v) => ((va.toNat + 32 * p.1) % 2 ^ 64 - txAt e 127 64, p.2, v)) false
        ((places.zipIdx.filter fun p => p.1.isNone).map (·.2))
    | none => s)
  | _, _ => s
/-- The block stores of one quarter: each lane its bytes, then the quarter's slots. -/
def State.doStoreBlk (s : State) (core grp q : Nat) (xs : List (Nat × Word)) (f : EFmt) (locs : List Loc) (sh : Shadow) : State :=
  let who := some (core, grp)
  let s := locs.foldl (fun s l => s.markLoc core grp true l) s
  let olds := xs.map fun (l, _) => (l, (List.range (blkSpan f l).2).map fun i => (blkLoc locs ((blkSpan f l).1 + i), s.locRead (blkLoc locs ((blkSpan f l).1 + i)) 1))
  let s := xs.foldl (fun s (l, code) =>
    ((blkBytesOf f code.toNat).zipIdx).foldl (fun s (b, i) => s.locWrite who (blkLoc locs ((blkSpan f l).1 + i)) [b] false) s) s
  let s := xs.foldl (fun s (l, _) =>
    let o := (blkSpan f l).1
    (s.rewait (blkLoc locs o)).rewait (blkLoc locs (o + (blkSpan f l).2 - 1))) s
  let slots := (blkSlots f q).zip [sh.s0, sh.s1]
  let s := slots.foldl (fun s (p, v) => s.locSetSlot (locs.getD p.1 (.scr 0 0)) p.2 v) s
  let s := locs.foldl (fun s l => match l with | .dev pa key _ _ => s.l1Update core key [pa / 32] | .scr .. => s) s
  let s := xs.foldl (fun s (l, _) => (s.afterLoads core grp l (blkLoc locs (blkSpan f l).1) false).afterLoads core grp l
    (blkLoc locs ((blkSpan f l).1 + (blkSpan f l).2 - 1)) false) s
  let (t, s) := (s.reflectBlk core grp q f locs xs slots).newTxn core grp true []
  olds.foldl (fun s (l, os) => os.foldl (fun s (loc, old) => s.sendStore core grp l t loc old) s) s

/-! ### Stores (R126, R129) -/
/-- The window check of a store on a page of aperture 3 (R355). -/
def State.planWindow (s : State) (core grp : Nat) (l : Loc) (n : Nat) : Except LaneOut Unit :=
  match l with
  | .dev _ _ va 3 => s.checkWindow core grp va.toNat n
  | _ => .ok ()
/-- The window check of a quarter's block store. -/
def State.planWindowBlk (s : State) (core grp q : Nat) (f : EFmt) (locs : List Loc) (ea : Nat) : Except LaneOut Unit :=
  match blkWindow f q locs with
  | some (va, n) => (match s.checkWindow core grp va n with
    | .error (.trap c _) => .error (.trap c (BitVec.ofNat 64 ea))
    | x => x)
  | none => .ok ()
/-- A store is performed, and a plain one is on its way to other cores and to engines (log entry 9). -/
def State.doStore (s : State) (core grp lane : Nat) (loc : Loc) (bs : List Byte) (rel : Bool) : State :=
  let s := if rel then s.copiesNow core grp lane else s
  let s := s.markLoc core grp true loc
  let old := s.locRead loc bs.length
  let s := ((s.locWrite (some (core, grp)) loc bs false).rewait loc).afterLoads core grp lane loc rel
  let s := match loc with
    | .dev pa key va apt =>
      let s := (if rel then s.l1DropOthers core pa else s).l1Update core key (sectorsOf pa bs.length)
      if apt = 3 then s.reflect core grp (s.ctxOf core grp) va.toNat bs else s
    | .scr .. => s
  let (t, s) := s.newTxn core grp true []
  if rel then s else s.sendStore core grp lane t loc old
/-- The stores of one instruction clear the poison of the sectors they cover together (R217). -/
def State.clearStores (s : State) (core : Nat) (xs : List (Loc × Nat)) : State :=
  let dev := xs.filterMap fun (l, n) => match l with | .dev pa _ _ _ => some (pa, n) | .scr .. => none
  let s := if dev.isEmpty then s else { s with mem := s.mem.clearCovered dev }
  let s := xs.foldl (fun s (l, n) => match l with | .dev pa key _ _ => s.l1Update core key (sectorsOf pa n) | .scr .. => s) s
  let cores := (xs.filterMap fun (l, _) => match l with | .scr c _ => some c | .dev .. => none).eraseDups
  cores.foldl (fun s c =>
    let k := s.core c
    s.setCore c { k with scr := k.scr.clearCovered (xs.filterMap fun (l, n) => match l with | .scr d o => if d = c then some (o, n) else none | .dev .. => none) }) s

/-! ### Atomics (R134 to R142) -/
/-- Bytes of an atomic's location. -/
def AtomOp.size : AtomOp → Nat
  | .int w _ => w / 8
  | .flt _ => 4
  | .cas w => w / 8
  | .cas2 => 16
/-- The value stored, if any. -/
def AtomOp.new (op : AtomOp) (o b : Nat) : Option Nat :=
  match op with
  | .int w f => some (atomInt w f o b)
  | .flt f => some (atomFlt f o b)
  | .cas w => casNew w o b
  | .cas2 => cas2New o b
/-- Whether the scope of a return-form atomic is wider than the team: global memory, or a scratch address with PEER set, whichever
member it names (R122, R140, R208). -/
def wideAtom (l : Loc) (ea : DWord) : Bool :=
  match l with
  | .dev .. => true
  | .scr .. => bitAt ea.toNat 28
/-- One lane's atomic at its home unit. -/
def State.doAtom (s : State) (core grp lane : Nat) (d : Option Dst) (op : AtomOp) (loc : Loc) (b : QWord) (ea : DWord) : State :=
  let s := if d.isSome then s.copiesNow core grp lane else s
  let s := s.markLoc core grp true loc
  let (bs, bad) := s.locRead loc op.size
  let o := ofBytesLE bs
  let s := if bad then s else match op.new o b.toNat with
    | some v => (s.locWrite (some (core, grp)) loc (toBytesLE op.size v) false).rewait loc
    | none => s
  let s := (match loc with | .dev pa _ _ _ => s.l1DropLine pa | .scr .. => s).afterLoads core grp lane loc true
  match d with
  | none => (s.newTxn core grp true []).2
  | some d =>
    let w := loadBits op.size
    let (t, s) := s.newTxn core grp false (if d = .drop then [] else [⟨lane, BitVec.ofNat 128 o, w, bad, ea⟩]) [loc.sec]
    let s := s.updLane core grp lane fun x => x.reserve d w t
    if wideAtom loc ea then s.l1DropAll core else s
/-- The records of no-return atomics dropped on poisoned data: one for the lanes at each address (R139, R420). -/
def State.droppedAtoms (s : State) (core grp : Nat) (pc : DWord) (xs : List (Nat × DWord)) : State :=
  (xs.map (·.2)).eraseDups.foldl (fun s a =>
    s.record { s.groupRec core grp .uncorrectable 0 a 0 with lanes := laneSetOf ((xs.filter (·.2 == a)).map (·.1)), fpc := pc }) s
/-- An amax cell's read and reset, or its update (R141, R142). -/
def State.doAmax (s : State) (core grp lane : Nat) (d : Dst) (k : Nat) (reset : Bool) (b : Word) : State :=
  let s := s.copiesNow core grp lane
  let ctx := s.ctxOf core grp
  let o := (s.cell core k ctx).toNat
  let s := s.setCell core k ctx (if reset then 0 else BitVec.ofNat 32 (maxA f32 o b.toNat))
  let (t, s) := s.newTxn core grp false (if d = .drop then [] else [⟨lane, BitVec.ofNat 128 o, 32, false, 0⟩])
  let s := s.updLane core grp lane fun x => x.reserve d 32 t
  if reset then s.l1DropAll core else s
/-- The Beacon operation a `red` or `redf` becomes on a page of aperture 5 (R138). -/
def redBeacon (me pa rop rkind b : Nat) : BeaconOp :=
  { kind := .bred, src := me, addr := pa, rxid := 0, rofs := 0, cnt := 0, rop := rop, rkind := rkind, poff := 0, doff := 0, opa := b, opb := 0,
    batch := 0 }
/-- The operation code of R135. -/
def AtomOp.code : AtomOp → Nat × Nat
  | .int w f => (f.code, if w = 64 then 1 else 0)
  | .flt f => (f.code, 2)
  | _ => (0, 0)
/-- The return forms are synchronising (R140, R193). -/
def atomSync (d : Option Dst) : List Eff := if d.isSome then [.sync] else []
/-- A global atomic of a lane: checks and effect (R123, R138, R222). -/
def State.planAtom (s : State) (core grp lane : Nat) (d : Option Dst) (op : AtomOp) (a b : Nat) : LaneOut :=
  let ea := BitVec.ofNat 64 a
  if d.isSome && !s.releaseReady core grp lane then .stall .again
  else match s.checkGlobal core grp (if d.isSome then .atomic else .red) a op.size with
  | .error e => e
  | .ok loc =>
    match loc with
    | .dev pa _ _ 5 =>
      (match s.xlat (some core) (s.ctxOf core grp) .red a with
        | .ok _ _ _ dev _ _ _ =>
          if s.tagClosing core grp then .stall .again
          else .ok [.object loc 0 true, .beacon (redBeacon s.me pa op.code.1 op.code.2 b) dev 0]
        | _ => .stall .again)
    | _ => .ok (s.touches core grp false [loc] ++ atomSync d ++ [.atom d op loc (BitVec.ofNat 128 b) ea])
/-- A scratch atomic of a lane; `cell` admits the amax form (R122, R141). -/
def State.planAtomS (s : State) (core grp lane : Nat) (d : Option Dst) (op : AtomOp) (cell : Bool) (a b : Nat) : LaneOut :=
  let ea := a % 2 ^ 32
  if d.isSome && !s.releaseReady core grp lane then .stall .again
  else if cell && bitAt ea 30 then
    match cellOf ea with
    | some k => .ok (atomSync d ++ [.amax (d.getD .drop) k false (BitVec.ofNat 32 b)])
    | none => .trap .misaligned (BitVec.ofNat 64 ea)
  else match s.checkScratch core grp ea op.size op.size with
    | .error e => e
    | .ok loc => .ok (s.touches core grp false [loc] ++ atomSync d ++ [.atom d op loc (BitVec.ofNat 128 b) (BitVec.ofNat 64 ea)])

/-! ### CACHE (R223 to R227) -/
/-- The runs of device memory that `[va, va + n)` reaches by pages that a load may read and that are not peer-homed. -/
def State.runs (s : State) (core ctx va n : Nat) : List (Nat × Nat) :=
  if n = 0 then [] else
  (List.range ((va + n - 1) / 65536 + 1 - va / 65536)).filterMap fun i =>
    let lo := max va ((va / 65536 + i) * 65536)
    let hi := min (va + n) ((va / 65536 + i + 1) * 65536)
    match s.xlat (some core) ctx .load (lo % 2 ^ 64) with
    | .ok pa _ apt _ _ _ _ => if apt = 5 then none else some (pa, hi - lo)
    | _ => none
/-- A line overlaps one of the runs. -/
def lineIn (runs : List (Nat × Nat)) (line : Nat) : Bool := runs.any fun (pa, n) => decide (pa < 128 * line + 128) && decide (128 * line < pa + n)
/-- `cinv`. -/
def State.doCinv (s : State) (core grp : Nat) (va n : Nat) : State :=
  if n = 0 then s.l1DropAll core
  else
    let rs := s.runs core (s.ctxOf core grp) va n
    s.setCore core { s.core core with l1 := (s.core core).l1.keep fun k _ => !lineIn rs (k / 4) }
/-- `cwb`. -/
def State.doCwb (s : State) (core grp : Nat) (va n : Nat) : State :=
  let rs := s.runs core (s.ctxOf core grp) va n
  (({ s with dirty := s.dirty.keep fun k _ => !lineIn rs k }).newTxn core grp true []).2
/-- `pfetch`: into the home slice it leaves nothing to see. -/
def State.doPfetch (s : State) (core grp : Nat) (va : Nat) (l2 : Bool) : State :=
  if l2 then s
  else match s.xlat (some core) (s.ctxOf core grp) .load va with
    | .ok pa key apt _ _ _ _ => if apt = 5 then s else s.l1Fill core key ((List.range 4).map fun i => pa / 128 * 4 + i)
    | _ => s
/-- `smap`: its checks in order, then the map (R224). -/
def State.planSmap (s : State) (core grp a b : Nat) : LaneOut :=
  let t := s.teamOf core grp
  let sofs := bits b 18 0
  let n := bits b 31 24
  if a % 4096 ≠ 0 then .trap .misaligned (BitVec.ofNat 64 a)
  else if sofs % 4096 ≠ 0 || bits b 23 20 != 0 || n == 0 || 128 < n then badValue
  else if t.scrLen < sofs + 4096 * n then .trap .aperture (BitVec.ofNat 64 sofs)
  else if 8 ≤ t.maps.length || t.maps.any (fun p => p.2.sofs < sofs + 4096 * n && sofs < p.2.sofs + 4096 * p.2.nchk) then badValue
  else .ok [.smap (BitVec.ofNat 64 a) (BitVec.ofNat 32 b)]
def State.doSmap (s : State) (core grp : Nat) (va : DWord) (b : Nat) : State :=
  let tid := (s.group core grp).team
  let t := s.team tid
  let n := bits b 31 24
  let nofill := bitAt b 19
  let s := if nofill then s.zeroScr t.core (t.scrBase + bits b 18 0) (4096 * n) else s
  let k := ((List.range 8).find? fun k => (Tbl.find t.maps k).isNone).getD 8
  s.setTeam tid { t with maps := Tbl.put t.maps k ⟨bits b 18 0, n, va, if nofill then List.range n else [], [], []⟩ }
/-- Where the dirty sectors of maps go, each a class-L access of the lane that is no plain store (R197, R198, R225; log entry 73). -/
def State.flushLocs (s : State) (core grp : Nat) (ks : List Nat) : List Loc :=
  let t := s.teamOf core grp
  (t.dirtyOf ks).filterMap fun p => match s.xlat (some core) (s.ctxOf core grp) .store (t.dirtyVa p) with
    | .ok pa key apt _ _ _ _ => some (.dev pa key (BitVec.ofNat 64 (t.dirtyVa p)) apt)
    | _ => none
/-- The maps `sflush` and `sunmap` name, or their failure (R225). -/
def State.planFlush (s : State) (core grp b : Nat) (unmap : Bool) : LaneOut :=
  let t := s.teamOf core grp
  let all := bitAt b 31 && !unmap
  let ks := if all then t.maps.keys else (t.maps.filter fun p => p.2.sofs == bits b 18 0).map (·.1)
  if bits b 30 19 != 0 || (bitAt b 31 && unmap) || (!all && ks.isEmpty) then badValue
  else match s.flushFault (core, grp) (s.group core grp).team ks with
    | some (.stall w) => .stall w
    | some _ => .flush ks
    | none => .ok (s.touches core grp false (s.flushLocs core grp ks) ++ [.sflush ks unmap])
def State.doFlush (s : State) (core grp : Nat) (ks : List Nat) (unmap : Bool) : State :=
  let tid := (s.group core grp).team
  let s := s.flushMaps (core, grp) tid ks
  if unmap then (let t := s.team tid; s.setTeam tid { t with maps := t.maps.keep fun k _ => !ks.contains k }) else s

end Sys2Proof.Machine
end

