-- ==== Sys2Proof/Machine/Commit.lean ====
section
/-! DEFINITION. The end of a chain: which lanes it takes effect in, its effects in slot order, and what becomes of the lanes that
trap, park or stall (R16, R23, R24, R28, R29, R127, R147 to R158, R190 to R193, R198, R228 to R231). -/
namespace Sys2Proof.Machine

/-! ### One effect of one lane -/
/-- Write a special register (R24, R25, R98, R99): reserved bits are ignored. -/
def Lane.writeSr (x : Lane) (sr : Nat) (v : DWord) : Lane :=
  match sr with
  | 10 => { x with status := BitVec.ofNat 32 (v.toNat % 16) }
  | 11 => { x with control := BitVec.ofNat 32 (v.toNat % 8) }
  | 12 => { x with tcause := BitVec.ofNat 32 (v.toNat % 256) }
  | 13 => { x with taddr := v }
  | 14 => { x with tpc := v }
  | _ => x
/-- A predicate write; `p0` always reads true (R21). -/
def Lane.writePred (x : Lane) (p : Nat) (v : Bool) : Lane :=
  if p = 0 then x
  else { x with preds := if v then x.preds ||| BitVec.ofNat 8 (2 ^ p) else x.preds &&& ~~~(BitVec.ofNat 8 (2 ^ p)) }
/-- Whether the loop buffer holds the packet at an address (R150). -/
def Lane.buffers (x : Lane) (pc : DWord) : Bool := x.loop.any (·.1 == pc)
/-- A taken branch: a target outside the run of the loop buffer empties it (R29, R150). -/
def Lane.jump (x : Lane) (pc : DWord) : Lane := { x with pc := pc, slot := 0, loop := if x.buffers pc then x.loop else [] }
/-- The loop buffer after a packet of these words has been executed (R150): a copy it holds stays. -/
def loopAfter (loop : List (DWord × List Word)) (pc : DWord) (ws : List Word) : List (DWord × List Word) :=
  if loop.any (·.1 == pc) then loop
  else match loop.getLast? with
    | some p => if p.1 + 12 = pc then (let l := loop ++ [(pc, ws)]; if 16 < l.length then l.tail else l) else [(pc, ws)]
    | none => [(pc, ws)]
/-- Set or clear a lane's bit of a rejoin mask (R153). -/
def Group.setBit (g : Group) (j l : Nat) (on : Bool) : Group :=
  let b : LaneSet := BitVec.ofNat 32 (2 ^ l)
  { g with j := Tbl.upd g.j j 0 fun m => if on then m ||| b else m &&& ~~~b }
/-- The queue register a destination names. -/
def mqOf : Dst → Option Nat
  | .mqa => some 0
  | .mqb => some 1
  | _ => none
/-- The newest `n` entries of a queue register await a lane's transaction (R230). -/
def awaitTail (q : List VEnt) (n l t : Nat) : List VEnt :=
  q.zipIdx.map fun (e, i) => if q.length ≤ i + n then { e with awaiting := e.awaiting ++ [(l, 4 * t + (i + n - q.length))] } else e
def Group.awaitMq (g : Group) (d : Dst) (bits l t : Nat) : Group :=
  match mqOf d with
  | none => g
  | some k => g.setMq k (awaitTail (g.mq k) (bits / 32) l t)
/-- An effect of a lane that its word does not give for several lanes together. -/
def State.perform (s : State) (core grp l : Nat) : Eff → State
  | .result d n v _ => s.updLane core grp l fun x => x.write d n v.toNat
  | .load d size sign loc ea acq nc =>
    let (t, s) := s.doLoad core grp l d size sign loc ea acq nc
    s.updGroup core grp fun g => g.awaitMq d (loadBits size) l t
  | .store loc bs rel => s.doStore core grp l loc bs rel
  | .atom d op loc b ea => s.doAtom core grp l d op loc b ea
  | .amax d k reset b => s.doAmax core grp l d k reset b
  | .pred p v => s.updLane core grp l fun x => x.writePred p v
  | .flags f => s.updLane core grp l fun x => { x with status := x.status ||| f.word }
  | .jump pc => s.updLane core grp l fun x => x.jump pc
  | .enrol j => s.updGroup core grp fun g => g.setBit j l true
  | .strike j => s.updGroup core grp fun g => g.setBit j l false
  | .setJ j m => s.updGroup core grp fun g => { g with j := Tbl.put g.j j m }
  | .exit => (s.syncLane core grp l).updGroup core grp fun g => (g.setLane l { g.lane l with mode := .exited, region := [] }).clearJ l
  | .sleep n => s.updLane core grp l fun x => if n = 0 then x else { x with mode := .sleeping (s.now + n) }
  | .prio k =>
    let t := (s.group core grp).team
    s.setTeam t { s.team t with prio := min k (s.gridOf core grp).prio }
  | .special sr v => s.updLane core grp l fun x => x.writeSr sr v
  | .bar clu => s.updLane core grp l fun x => { x with mode := .stalled (if clu then .barClu else .bar) }
  | .moor kind d m units =>
    let t := s.nextTxn
    let s := { s with nextTxn := t + 1, nextPost := s.nextPost + 1, posted := Tbl.put s.posted s.nextPost ⟨core, grp, l, kind, m, units, t, s.now⟩ }
    if kind = 1 then s.updLane core grp l fun x => x.reserve d 32 t else s
  | .mwait m tok wide => (s.moorWait (some (core, grp)) m).updLane core grp l fun x => { x with mode := .stalled (.mwait m.id tok wide) }
  | .acquire l1 => if l1 then s.l1DropAll core else s
  | .sync => s.syncLane core grp l
  | .touch a => s.updLane core grp l fun x => { x with region := a :: x.region }
  | .object loc n write => s.doObject core grp loc n write
  | .cinv va n => s.doCinv core grp va.toNat n
  | .cwb va n => s.doCwb core grp va.toNat n
  | .pfetch va l2 => s.doPfetch core grp va.toNat l2
  | .smap va d => s.doSmap core grp va d.toNat
  | .sflush ks unmap => s.doFlush core grp ks unmap
  | .tlbi va sel => s.doTlbi va.toNat sel.toNat
  | .seal act => s.updGroup core grp fun g => g.seal act l s.nextTxn
  | .tend o => s.acceptTl core grp { o with lane := l }
  | .mrsv => s.reserve core grp
  | .mrel => s.release core (s.partOf core grp)
  | .mcvn mask => s.convene core grp mask
  | .accepted => s.updGroup core grp fun g => { g with atJoint := none }
  | .mcfg o =>
    let p := s.partOf core grp
    let e := s.engine core p
    ({ s with nextTxn := s.nextTxn + 1 }).setEngine core p { e with ops := e.ops ++ [{ o with id := s.nextTxn, by_ := [(grp, l)] }] }
  | .glapp o => s.acceptGlapp core grp l o
  | .glfold f => s.acceptGlfold { f with lane := l }
  | .emit k payload => s.nodeEmit k payload
  | .spawn a b _ =>
    let ctx := s.ctxOf core grp
    let me := (s.teamOf core grp).grid
    if bitAt (s.vget ctx (a.toNat + 24) 8) 63 then s.registerNode ctx a me
    else
      let p := s.grid me
      let r := s.vget ctx a.toNat 32
      (s.registerGrid { recGrid ctx a r ((s.inputsOf ctx r).getD []) p.ceiling p.source (some me) b (s.ctx ctx).seed with pkt := p.pkt }).2
  | .jdec x => { s with lantern := { s.lantern with jdecs := s.lantern.jdecs ++ [x] } }
  | .wtag t => s.updGroup core grp fun g => { g with tag := t }
  | .wclose t r => (s.closeSlot core grp t (some r)).2
  | .wfenceEnd => s.updLane core grp l fun x => { x with ticket := none }
  | .beacon o tgt _ => s.sendBeacon core grp tgt o (BitVec.ofNat 64 o.addr)
  | .tmReq k => s.requestLayer (s.ctxOf core grp) k
  | .tmPin k up => s.tmPinBy (s.ctxOf core grp) k up
  | .kreq r =>
    let t := s.nextTxn
    let s := { s with
      nextTxn := t + 1
      keeper := { s.keeper with nextKreq := s.keeper.nextKreq + 1, kreqs := Tbl.put s.keeper.kreqs s.keeper.nextKreq { r with txn := t, at_ := s.now } } }
    s.updLane core grp l fun x => { x.reserve r.dst 32 t with mode := .stalled .kreq }
  | .loadBlk .. | .storeBlk .. | .cpy .. | .fence .. | .join .. | .rfe | .yield => s

/-! ### What a word does in a lane -/
/-- How a word fails in a lane, where it does. -/
def WordOut.failIn (w : WordOut) (l : Nat) : Option LaneOut :=
  match Tbl.find w.outs l with
  | some (.ok _) => none
  | some x => some x
  | none => none
/-- What a word does in a lane. -/
def WordOut.effsIn (w : WordOut) (l : Nat) : List Eff :=
  match Tbl.find w.outs l with
  | some (.ok es) => es
  | _ => []

/-! ### Results, pushes and shadows (R16, R23, R229, R231) -/
/-- The destination an effect writes: its bits, and the shadow it sets. -/
def Eff.dest : Eff → Option (Dst × Nat × Option Shadow)
  | .result d n _ sh => some (d, n, sh)
  | .load d size .. => some (d, loadBits size, none)
  | .loadBlk d _ _ _ sh => some (d, 32, some sh)
  | .atom (some d) op .. => some (d, loadBits op.size, none)
  | .amax d .. => some (d, 32, none)
  | .moor kind d .. => if kind = 1 then some (d, 32, none) else none
  | .kreq r => some (r.dst, 32, none)
  | _ => none
/-- What the lanes in which a chain takes effect do with one of its words. -/
def WordOut.row (w : WordOut) (l : Nat) : Option (Nat × List Eff) :=
  match Tbl.find w.outs l with
  | some (.ok es) => some (l, es)
  | _ => none
def WordOut.rows (w : WordOut) (oks : List Nat) : List (Nat × List Eff) := oks.filterMap w.row
/-- The shadow an effect of a word gives in a lane's quarter: its own, or the word's default. -/
def WordOut.shadow (w : WordOut) (l : Nat) (sh : Option Shadow) : Shadow := sh.getD (w.dflt.getD (quarterOf l) {})
/-- The entries a word pushes onto a queue register (R229): word `l` of entry `i` is part `i` of lane `l`'s result. -/
def WordOut.entryOf (w : WordOut) (k l : Nat) (e : Eff) : Option (Nat × Nat × Nat × Shadow) :=
  match e.dest with
  | some (d, n, sh) => if mqOf d = some k then some (l, n, (match e with | .result _ _ v _ => v.toNat | _ => 0), w.shadow l sh) else none
  | none => none
def WordOut.entries (w : WordOut) (xs : List (Nat × List Eff)) (k : Nat) : List VEnt :=
  let ds := xs.filterMap fun p => p.2.findSome? (w.entryOf k p.1)
  let n := (ds.map fun (_, n, _, _) => n / 32).foldl max 0
  (List.range n).map fun i =>
    { words := (List.range 32).map fun l => match ds.find? (·.1 == l) with
        | some (_, _, v, _) => BitVec.ofNat 32 (v / 2 ^ (32 * i))
        | none => 0
      shadow := (List.range 4).map fun q => match ds.find? fun x => quarterOf x.1 == q with
        | some (_, _, _, sh) => sh
        | none => {} }
/-- Write the quarter shadows of the named registers a word writes. -/
def Quarter.writeRegs (x : Quarter) (r n : Nat) (sh : Shadow) : Quarter :=
  { x with regs := (List.range n).foldl (fun t i => Tbl.put t (r + i) sh) x.regs }
def WordOut.regShadow (w : WordOut) (l : Nat) (g : Group) (e : Eff) : Group :=
  match e.dest with
  | some (.n r, n, sh) => { g with quarters := Tbl.upd g.quarters (quarterOf l) {} fun q => q.writeRegs r.val ((n + 31) / 32) (w.shadow l sh) }
  | _ => g
def WordOut.regShadows (w : WordOut) (xs : List (Nat × List Eff)) (g : Group) : Group :=
  xs.foldl (fun g p => p.2.foldl (w.regShadow p.1) g) g
/-- The shadows of the entries a word pushes in a lane, first pushed first. -/
def WordOut.pushesOf (w : WordOut) (l : Nat) (e : Eff) : List Shadow :=
  match e.dest with
  | some (.n _, n, sh) | some (.push, n, sh) => List.replicate (if n ≤ 64 then 1 else 2) (w.shadow l sh)
  | _ => []
def WordOut.pushes (w : WordOut) (l : Nat) : List Shadow := (w.effsIn l).flatMap (w.pushesOf l)
/-- A quarter's shadow queue after a chain (R23). -/
def Quarter.pushAll (x : Quarter) (ps : List (List Shadow)) : Quarter :=
  let m := (ps.map (·.length)).foldl max 0
  let new := (List.range m).map fun j => (ps.findSome? (·[j]?)).getD {}
  { x with queue := (new.reverse ++ x.queue).take 16 }
def Group.pushShadows (ws : List WordOut) (oks : List Nat) (g : Group) (q : Nat) : Group :=
  let ps := (oks.filter (quarterOf · == q)).map fun l => ws.flatMap (·.pushes l)
  if ps.all (·.isEmpty) then g else { g with quarters := Tbl.upd g.quarters q {} (·.pushAll ps) }
def State.queueShadows (s : State) (core grp : Nat) (ws : List WordOut) (oks : List Nat) : State :=
  s.updGroup core grp fun g => (List.range 4).foldl (Group.pushShadows ws oks) g
/-- The group-scalar register a word writes, from its lowest-numbered executing lane (R158); a 32-bit result leaves zeros above it,
which is the model's choice (log entry 71). -/
def Group.setScalar (g : Group) (e : Eff) : Group :=
  match e with
  | .result (.g r) _ v _ => { g with g := Tbl.put g.g r.val (v.setWidth 64) }
  | _ => g
def writeScalar (xs : List (Nat × List Eff)) (g : Group) : Group :=
  match xs with
  | [] => g
  | p :: _ => p.2.foldl Group.setScalar g
/-- Pops, at the end of the chain (R231, R232). -/
def WordOut.pop (w : WordOut) (xs : List (Nat × List Eff)) (g : Group) : Group :=
  let g := if bitAt w.pops 0 && !xs.isEmpty then { g with mqo := g.mqo.tail } else g
  if bitAt w.pops 1 then { g with wqi := g.wqi.mapV fun l r => if xs.any (·.1 == l) then { r with popped := true } else r } else g

/-! ### One word (R28) -/
/-- The block loads and stores of a word, quarter by quarter (R130, R131). -/
def Eff.loadBlk? : Eff → Option (Dst × EFmt × List Loc × DWord)
  | .loadBlk d f locs ea _ => some (d, f, locs, ea)
  | _ => none
def Eff.storeBlk? : Eff → Option (EFmt × List Loc × Word × Shadow)
  | .storeBlk f locs code sh => some (f, locs, code, sh)
  | _ => none
/-- The block load of a quarter's lanes. -/
def State.blockLoad (s : State) (core grp q : Nat) (mine : List (Nat × List Eff)) : State :=
  match mine.findSome? fun p => p.2.findSome? Eff.loadBlk? with
  | some (d, f, locs, ea) =>
    let ls := mine.map (·.1)
    let (t, s) := s.doLoadBlk core grp q ls d f locs ea
    s.updGroup core grp fun g => ls.foldl (fun (g : Group) l => g.awaitMq d 32 l t) g
  | none => s
/-- The block store of a quarter's lanes. -/
def State.blockStore (s : State) (core grp q : Nat) (mine : List (Nat × List Eff)) : State :=
  match mine.findSome? fun p => p.2.findSome? Eff.storeBlk? with
  | some (f, locs, _, sh) =>
    s.doStoreBlk core grp q (mine.filterMap fun p => (p.2.findSome? Eff.storeBlk?).map fun x => (p.1, x.2.2.1)) f locs sh
  | none => s
def State.blocks (s : State) (core grp : Nat) (xs : List (Nat × List Eff)) : State :=
  (List.range 4).foldl (fun s q =>
    let mine := xs.filter (quarterOf ·.1 == q)
    (s.blockLoad core grp q mine).blockStore core grp q mine) s
/-- The copies of a word join the open batch (R238). -/
def Eff.copyBy (l : Nat) : Eff → Option CopyItem
  | .cpy c => some { c with lane := l }
  | _ => none
def State.addCopies (s : State) (core grp : Nat) (xs : List (Nat × List Eff)) : State :=
  let cs := xs.flatMap fun p => p.2.filterMap (Eff.copyBy p.1)
  if cs.isEmpty then s else s.updGroup core grp fun g => { g with openBatch := g.openBatch ++ markWhole cs }
/-- The bytes the stores of a word cover (R217). -/
def Eff.stored (l : Nat) : Eff → List (Loc × Nat)
  | .store loc bs _ => [(loc, bs.length)]
  | .storeBlk f locs _ _ => (List.range (blkSpan f l).2).map fun i => (blkLoc locs ((blkSpan f l).1 + i), 1)
  | _ => []
def storedBytes (xs : List (Nat × List Eff)) : List (Loc × Nat) := xs.flatMap fun p => p.2.flatMap (Eff.stored p.1)
/-- The no-return atomics of a word that meet poisoned data and are dropped (R139). -/
def State.atomDropped (s : State) (l : Nat) : Eff → Option (Nat × DWord)
  | .atom none op loc _ ea => if (s.locRead loc op.size).2 then some (l, ea) else none
  | _ => none
def State.atomsDropped (s : State) (xs : List (Nat × List Eff)) : List (Nat × DWord) :=
  xs.flatMap fun p => p.2.filterMap (s.atomDropped p.1)
/-- One word of a chain takes effect. -/
def State.performWord (s : State) (core grp : Nat) (pc : DWord) (w : WordOut) (oks : List Nat) : State :=
  let xs := w.rows oks
  let dropped := s.atomsDropped xs
  let s := s.updGroup core grp fun g =>
    let g := { g with mqa := g.mqa ++ w.entries xs 0, mqb := g.mqb ++ w.entries xs 1 }
    w.regShadows xs g
  let s := (s.blocks core grp xs).addCopies core grp xs
  let s := xs.foldl (fun s p => p.2.foldl (fun s e => s.perform core grp p.1 e) s) s
  let s := s.clearStores core (storedBytes xs)
  let s := s.droppedAtoms core grp pc dropped
  s.updGroup core grp fun g => w.pop xs (writeScalar xs g)

/-! ### Words performed once per chain (R223) -/
/-- Whether a word stops a lane by a check that is the lane's own. -/
def WordOut.stops (w : WordOut) (l : Nat) : Bool := (Tbl.find w.own l).isNone && (w.failIn l).isSome
/-- A word performed once per chain, settled: it does what it would were the first of its lanes that no other word stops the
lowest-numbered; a failure is every lane's (log entry 62). -/
def WordOut.settle (w : WordOut) (stopped : Nat → Bool) : WordOut :=
  match w.own with
  | [] => w
  | p :: rest =>
    let lead := ((p :: rest).find? fun p => !stopped p.1).getD p
    let below : LaneOut := match Tbl.find lead.2 lead.1 with
      | some (.ok _) | none => .ok []
      | some o => o
    { w with
      own := []
      once := w.own.map (·.1)
      outs := w.outs.map fun q => if (Tbl.find w.own q.1).isNone then q else (q.1, (Tbl.find lead.2 q.1).getD below) }
def settleAll (stopped : Nat → Bool) : List WordOut → List WordOut → List WordOut
  | _, [] => []
  | before, w :: ws =>
    let w' := w.settle fun l => stopped l || before.any (fun x => (x.failIn l).isSome) || ws.any (·.stops l)
    w' :: settleAll stopped (before ++ [w']) ws
/-- The object a lane's `spawn` names. -/
def Eff.spawns : Eff → Option Nat
  | .spawn _ _ k => some k
  | _ => none
def LaneOut.spawns : LaneOut → Option Nat
  | .ok es => es.findSome? Eff.spawns
  | _ => none
/-- The decode report of the word at a slot (R52). -/
def Chain.reportAt (c : Chain) (slot sub : Nat) : DWord :=
  BitVec.ofNat 64 (sub + slot * 2 ^ 8 + (c.words.getD slot 0).toNat * 2 ^ 32)
/-- One lane of a word that spawns: the objects registered so far, and what the lanes so far do. -/
def claimStep (report : DWord) (room : Nat) (stopped : Nat → Bool) (acc : List Nat × Tbl LaneOut) (p : Nat × LaneOut) : List Nat × Tbl LaneOut :=
  match p.2.spawns with
  | some k =>
    if stopped p.1 then (acc.1, acc.2 ++ [p])
    else if acc.1.contains k then (acc.1, acc.2 ++ [(p.1, .trap .illegalOperand report)])
    else if room ≤ acc.1.length then (acc.1, acc.2 ++ [(p.1, .stall .again)])
    else (k :: acc.1, acc.2 ++ [p])
  | none => (acc.1, acc.2 ++ [p])
/-- The objects of a `spawn` reach the Lantern lane by lane, but for lanes that another word or a conflict stops: an object that a lower
lane has registered is not free, and one that finds the table full waits (R308). -/
def WordOut.claim (w : WordOut) (report : DWord) (room : Nat) (stopped : Nat → Bool) : WordOut :=
  { w with outs := (w.outs.foldl (claimStep report room stopped) ([], [])).2 }
/-- A word of which a lane spawns. -/
def WordOut.isSpawn (w : WordOut) : Bool := w.outs.any fun p => p.2.spawns.isSome
def Chain.claims (c : Chain) (table : Nat) (out : List Nat) : Chain :=
  { c with outs := c.outs.map fun w =>
      if w.isSpawn then w.claim (c.reportAt w.slot 0x14) (4096 - table) fun l =>
        out.contains l || c.outs.any fun x => x.slot != w.slot && x.stops l
      else w }
/-- The chain with its words settled, where further lanes are stopped by conflicts of their accesses (R199). -/
def Chain.settled (c : Chain) (stopped : Nat → Bool) : Chain := { c with outs := settleAll stopped [] c.outs }

/-! ### Which lanes the chain takes effect in -/
def LaneOut.isOk : LaneOut → Bool
  | .ok _ => true
  | _ => false
/-- A trap or a parking. -/
def LaneOut.faults : LaneOut → Bool
  | .trap .. | .park .. | .parkLayer .. | .flush .. => true
  | _ => false
/-- How a chain ends in a lane: by its lowest word that fails there (R29). -/
def Chain.fate (c : Chain) (l : Nat) : LaneOut := (c.outs.findSome? (·.failIn l)).getD (.ok [])
/-- Everything the words of a chain do in a lane. -/
def Chain.effs (c : Chain) (l : Nat) : List Eff := c.outs.flatMap (·.effsIn l)
def okLanes (fs : Tbl LaneOut) : List Nat := (fs.filter (·.2.isOk)).map (·.1)
/-- The lanes that would complete do something else instead. -/
def insteadOk (fs : Tbl LaneOut) (o : LaneOut) : Tbl LaneOut := fs.map fun p => (p.1, if p.2.isOk then o else p.2)
/-- A trap or a parking of a speculative group is held back (R190). -/
def holdFaults (fs : Tbl LaneOut) : Tbl LaneOut := fs.map fun p => (p.1, if p.2.faults then .stall .again else p.2)
/-- Entries of the transaction table that an effect takes (R127). -/
def Eff.txns : Eff → Nat
  | .load .. | .store .. | .atom .. | .amax .. | .cwb .. => 1
  | _ => 0
def Eff.isBlk : Eff → Bool
  | .loadBlk .. | .storeBlk .. => true
  | _ => false
/-- Entries a chain takes: one for each access, one for each quarter of a block access. -/
def Chain.txns (c : Chain) (oks : List Nat) : Nat :=
  (oks.map fun l => ((c.effs l).map Eff.txns).sum).sum +
    ((List.range 4).filter fun q => oks.any fun l => quarterOf l == q && (c.effs l).any Eff.isBlk).length
/-- Entries a chain pushes onto a queue register. -/
def Chain.mqPushes (c : Chain) (oks : List Nat) (k : Nat) : Nat := (c.outs.map fun w => (w.entries (w.rows oks) k).length).sum
/-- A load into a queue register (R230). -/
def Eff.loadsMq : Eff → Bool
  | .load d .. | .loadBlk d .. => (mqOf d).isSome
  | _ => false
/-- The tables have room for the chain (R127, R229). -/
def State.hasRoom (s : State) (c : Chain) (oks : List Nat) : Bool :=
  let g := s.group c.core c.grp
  let n := c.txns oks
  decide (n = 0 ∨ g.txns.length + n ≤ 48) &&
    [0, 1].all fun k => let m := c.mqPushes oks k; decide (m = 0 ∨ (g.mq k).length + m ≤ 16)
/-- An access or synchronisation of a lane, with the lanes that a conflict of it stops: the lane, or every lane of a word performed once. -/
structure Look where
  lane : Nat
  eff : Eff
  stops : List Nat
  deriving DecidableEq, Repr
/-- The accesses and synchronisations of a chain in the order in which they take effect: word by word, in each lane by lane. -/
def Chain.accesses (c : Chain) (oks : List Nat) : List Look :=
  c.outs.flatMap fun w => oks.flatMap fun l => (w.effsIn l).filterMap fun e => match e with
    | .touch _ | .sync => some ⟨l, e, if w.once.isEmpty then [l] else w.once⟩
    | _ => none
/-- Conflict detection (R198, R199): the first access that completes a conflict, the lanes it stops, and its report. -/
def State.firstRace (s : State) (core grp : Nat) : List Look → Option (List Nat × DWord)
  | [] => none
  | ⟨l, .touch a, ks⟩ :: es =>
    match s.conflict core grp l a with
    | some o => some (ks, conflictReport o (a.sector % 2 == 1))
    | none => (s.updLane core grp l fun x => { x with region := a :: x.region }).firstRace core grp es
  | ⟨l, _, _⟩ :: es => (s.updLane core grp l fun x => { x with region := [] }).firstRace core grp es
/-- The lanes whose accesses complete conflicts, found one after another: a lane that traps makes no access. -/
def State.racesIn (s : State) (c : Chain) : Nat → List Nat → Tbl DWord
  | 0, _ => []
  | n + 1, oks => match s.firstRace c.core c.grp (c.accesses oks) with
    | none => []
    | some (ks, r) => (ks.filter (oks.contains ·)).foldl (fun t l => Tbl.put t l r) (s.racesIn c n (oks.filter fun l => !ks.contains l))
def State.races (s : State) (c : Chain) (oks : List Nat) : Tbl DWord := s.racesIn c oks.length oks
/-- A lane whose access completes a conflict traps. -/
def conflictOr (rs : Tbl DWord) (l : Nat) (o : LaneOut) : LaneOut :=
  match Tbl.find rs l with
  | some r => .trap .modelConflict r
  | none => o
/-- A stall, a joint wait or the start of a `wfence`: the lane is no executing lane of the chain (R147). -/
def LaneOut.stalls : LaneOut → Bool
  | .stall _ | .joint _ | .wfence => true
  | _ => false
/-- A wait for a mapped chunk, which the check of an access begins (R211). -/
def LaneOut.fills : LaneOut → Bool
  | .stall (.chunk ..) => true
  | _ => false
/-- No lane of a chain that loads a queue register pushes while the check of another lane's load has failed or waits (R230). -/
def Chain.holdMq (c : Chain) (fs : Tbl LaneOut) : Tbl LaneOut :=
  if fs.any (fun p => p.2.faults || p.2.fills) && (okLanes fs).any (fun l => (c.effs l).any Eff.loadsMq) then insteadOk fs (.stall .held) else fs
/-- How the chain ends in each of its lanes by its words alone. -/
def State.wordFates (s : State) (c : Chain) : Tbl LaneOut :=
  let fs : Tbl LaneOut := (lanesOf c.lanes).map fun l => (l, c.fate l)
  if (s.group c.core c.grp).spec.isSome then holdFaults fs else fs
/-- A stalled lane is no executing lane: where some stall, the chain is broadcast anew without them (R147, R148, R164). -/
def Chain.waits (c : Chain) (fs : Tbl LaneOut) : Bool := c.broadcast && fs.any (·.2.stalls)
/-- How the chain ends in each of its lanes: with no room all wait (R127, R229); and a lane whose access completes a conflict traps
(R199). -/
def State.fates (s : State) (c : Chain) : Tbl LaneOut :=
  let fs := s.wordFates c
  let oks := okLanes fs
  if c.waits fs then (c.holdMq fs).filter (·.2.stalls)
  else if fs.any (·.2.faults) && oks.any (fun l => (c.effs l).any Eff.loadsMq) then insteadOk fs (.stall .held)
  else if !s.hasRoom c oks then
    insteadOk fs (.stall (if oks.any fun l => (s.lane c.core c.grp l).mode == .stalled .held then .held else .again))
  else
    let rs := s.races c oks
    let fs := fs.map fun p => (p.1, conflictOr rs p.1 p.2)
    if (s.group c.core c.grp).spec.isSome then (let fs := holdFaults fs; if c.waits fs then fs.filter (·.2.stalls) else fs) else c.holdMq fs
/-- The chain settled: a word performed once acts in a lane that no other word stops, nor a conflict of an access of the lane's (R199,
R318). -/
def State.settleRaces (s : State) (c : Chain) : Nat → List Nat → Chain
  | 0, out => (c.claims s.workTable out).settled (out.contains ·)
  | n + 1, out =>
    let d := (c.claims s.workTable out).settled (out.contains ·)
    let ls := (s.races d (okLanes (s.wordFates d))).map (·.1)
    if ls.all (out.contains ·) then d else s.settleRaces c n (out ++ ls)

/-! ### The lanes in which the chain does not take effect -/
/-- What a lane whose chain is stalled raises when its team's reservation ends: its lowest word that pushes onto `mqa` or `mqb`, or pops
`mqo` (R29, R229, R233). -/
def Chain.onRelease (c : Chain) (l : Nat) : Option (Cause × DWord) :=
  c.outs.findSome? fun w =>
    if (Tbl.find w.outs l).isNone then none
    else if bitAt w.pops 0 then some (.queueOrphaned, 59)
    else if (w.effsIn l).any fun e => match e.dest with | some (d, _, _) => (mqOf d).isSome | none => false then some (.engineNotReserved, 0)
    else none
/-- One lane traps, stalls or parks.  A lane that traps waits anew from this chain, and one that parks or stalls from the last chain it
completed (DESIGN CHOICE, log entry 76; R148). -/
def State.failLane (s : State) (c : Chain) (t l : Nat) (o : LaneOut) : State :=
  let x := s.lane c.core c.grp l
  if x.mode == .exited then s
  else
    let hold (s : State) (m : LaneMode) : State := s.updLane c.core c.grp l fun x => { x with mode := m, tried := some t, onRelease := c.onRelease l }
    match o with
    | .trap k a => (s.updLane c.core c.grp l fun x => { x with since := t }).takeTrap c.core c.grp l k a c.first
    | .parkLayer k => hold s (.parked (.layer (s.ctxOf c.core c.grp) k))
    | .stall (.layer k n) => (hold s (.stalled (.layer k n))).requestLayer k n
    | .stall w => hold s (.stalled w)
    | .joint _ => hold s (.stalled .joint)
    | .wfence =>
      let s := (s.closeSlot c.core c.grp (s.group c.core c.grp).tag none).2
      s.updLane c.core c.grp l fun x => { x with mode := .stalled .again, tried := some t, ticket := some s.nextFlight, onRelease := none }
    | .park .. | .flush .. | .ok _ => s
/-- The parked lanes, one sub-group for each cause and page (R156, R323): DEDUCED, since a fault is of one cause at one page. -/
def State.parksIn (s : State) (c : Chain) (l : Nat) : LaneOut → Option (Nat × Cause × DWord)
  | .park k a => if (s.lane c.core c.grp l).mode == .exited then none else some (l, k, a)
  | _ => none
def State.failParks (s : State) (c : Chain) (fs : Tbl LaneOut) : State :=
  let ps := fs.filterMap fun p => s.parksIn c p.1 p.2
  ((ps.map fun p => (p.2.1, p.2.2.toNat / 65536)).eraseDups).foldl (fun s (k, g) =>
    s.parkLanes c.core c.grp ((ps.filter fun p => p.2.1 == k && p.2.2.toNat / 65536 == g).map fun p => (p.1, p.2.2)) k c.pc) s
def LaneOut.joint? : LaneOut → Option AtJoint
  | .joint x => some x
  | _ => none
/-- The write-back that failing lanes began, as far as it goes (R225). -/
def LaneOut.flush? : LaneOut → Option (List Nat)
  | .flush ks => some ks
  | _ => none
/-- How a lane ends whose write-back fails. -/
def State.failsAs (s : State) (c : Chain) (o : LaneOut) : LaneOut :=
  match o with
  | .flush ks => (s.flushFault (c.core, c.grp) (s.group c.core c.grp).team ks).getD (.stall .again)
  | o => o
def State.fail (s : State) (c : Chain) (t : Nat) (fs : Tbl LaneOut) : State :=
  let s := match fs.findSome? fun p => p.2.flush? with
    | some ks => s.flushMaps (c.core, c.grp) (s.group c.core c.grp).team ks
    | none => s
  let fs := fs.map fun p => (p.1, s.failsAs c p.2)
  let s := fs.foldl (fun s p => s.failLane c t p.1 p.2) s
  let s := s.failParks c fs
  match fs.findSome? fun p => p.2.joint? with
  | some x => s.beginJoint c.core c.grp x
  | none => s

/-! ### Fences (R189 to R192) -/
def Lane.snap (x : Lane) : LaneSnap := ⟨x.pc, x.slot, x.regs, x.queue, x.preds, x.status, x.control, x.mode, x.region⟩
/-- The group becomes speculative. -/
def State.beginFence (s : State) (core grp : Nat) (lanes : LaneSet) (scope : Scope) (classes : Nat) (dropsL1 : Bool) : State :=
  let g := s.group core grp
  let has (k : Nat) : Bool := bitAt classes k
  let kind (ks : List TlKind) : List Nat := (g.tlOps.filter fun o => ks.contains o.kind).map (·.id)
  let folds := if has 3 then (s.merge.folds.filter fun p => p.2.core == core && p.2.grp == grp).map (·.1) else []
  let sp : Spec :=
    { lanes := lanes, scope := scope, dropsL1 := dropsL1, waits := if has 0 then g.txns.map (·.id) else [], ticket := s.nextTxn,
      batches := if has 1 then g.batches.map (·.id) else [],
      tls := (if has 1 then kind [.tile, .relay] else []) ++ (if has 2 then kind [.gath] else []) ++ (if has 3 then kind [.matrix, .glapp] else []),
      mxs := if has 3 then ((s.engine core (s.partOf core grp)).ops.filter fun o => o.idx != 10 && o.groups.contains grp).map (·.id) else [],
      folds := folds, copies := has 1, flights := if has 5 then some s.nextFlight else none,
      snap := g.lanes.map fun (l, x) => (l, x.snap), g := g.g, j := g.j, quarters := g.quarters }
  s.updGroup core grp fun g => { g with spec := some sp }

/-! ### The chain takes effect -/
/-- The lanes of a chain stand after it, their wait begins, and their loop buffers hold its packet (R148, R150). -/
def State.advanceLanes (s : State) (c : Chain) (t : Nat) (oks : List Nat) : State :=
  oks.foldl (fun s l => s.updLane c.core c.grp l fun x =>
    { x with pc := (placeAfter c.pc c.slot).1, slot := (placeAfter c.pc c.slot).2, mode := .ready, since := t, tried := none,
             loop := loopAfter x.loop c.pc c.words }) s
/-- The trap returns of a chain: `rfe` acts at its end (R319). -/
def Eff.isRfe : Eff → Bool
  | .rfe => true
  | _ => false
def State.returns (s : State) (c : Chain) (oks : List Nat) : State :=
  oks.foldl (fun s l =>
    if (c.effs l).any Eff.isRfe then
      let x := s.lane c.core c.grp l
      s.setLane c.core c.grp l (x.leaveTrap (s.afterChain c.core (s.ctxOf c.core c.grp) x.frame.rpPc x.frame.rpSlot))
    else s) s
/-- Arrivals at `join`, and the release of the masks (R153). -/
def Group.joinBy (l : Nat) (g : Group) (e : Eff) : Group :=
  match e with
  | .join j => if Tbl.get g.j j 0 = 0 then g else g.setLane l { g.lane l with mode := .joined j }
  | _ => g
def State.joins (s : State) (c : Chain) (oks : List Nat) : State :=
  s.updGroup c.core c.grp fun g => (oks.foldl (fun (g : Group) l => (c.effs l).foldl (Group.joinBy l) g) g).release
/-- Exits and barriers (R157, R179, R239, R361). -/
def Eff.isExit : Eff → Bool
  | .exit => true
  | _ => false
def Eff.isBar : Eff → Bool
  | .bar _ => true
  | _ => false
def State.leaves' (s : State) (c : Chain) (oks : List Nat) : State :=
  let exits := oks.any fun l => (c.effs l).any Eff.isExit
  let bars := oks.any fun l => (c.effs l).any Eff.isBar
  let s := if exits && (s.group c.core c.grp).lanes.all (·.2.mode == .exited) then
      (s.closeAll c.core c.grp).updGroup c.core c.grp fun g => g.sealAtExit
    else s
  if exits || bars then s.barriers (s.group c.core c.grp).team else s
/-- A fence of the chain begins. -/
def Eff.fenceBy (l : Nat) : Eff → Option (Nat × Scope × Nat × Bool)
  | .fence sc k d => some (l, sc, k, d)
  | _ => none
def State.fences (s : State) (c : Chain) (oks : List Nat) : State :=
  let fs := oks.filterMap fun l => (c.effs l).findSome? (Eff.fenceBy l)
  match fs with
  | [] => s
  | (_, sc, k, d) :: _ => s.beginFence c.core c.grp (laneSetOf (fs.map (·.1))) sc k d
/-- The chain as it stands once it is over: what the rest of the fetch slot still needs. -/
def Chain.finished (c : Chain) : Chain :=
  { core := c.core, grp := c.grp, broadcast := false, g := c.g, j := c.j, quarters := c.quarters, later := c.later }
/-- A broadcast chain that stalled in every lane: stalled lanes hold no fetch position (R147, R148), so the fetch slot is not used. -/
def Chain.unused (c : Chain) (fs : Tbl LaneOut) : Bool := c.broadcast && fs.all fun p => p.2.stalls
/-- A chain takes effect in the listed lanes, at the time `t`: they stand after it, its words act in slot order, the queue shadows,
the rejoin masks, exits, barriers and fences follow. -/
def State.effects (s : State) (c : Chain) (t : Nat) (oks : List Nat) : State :=
  let s := s.advanceLanes c t oks
  let s := c.outs.foldl (fun s w => s.performWord c.core c.grp c.pc w oks) s
  let s := s.queueShadows c.core c.grp c.outs oks
  let s := s.returns c oks
  let s := s.joins c oks
  let s := s.leaves' c oks
  s.fences c oks
/-- The groups of a group's partition (R144). -/
def State.partition (s : State) (core grp : Nat) : List Nat := (Tbl.keys (s.core core).groups).filter (· / 8 == grp / 8)
/-- The fetch slot was not used: the group has not issued, and the partition chooses again (R145). -/
def State.reissue (s : State) (c : Chain) : State :=
  let s := s.updGroup c.core c.grp fun g => { g with lastIssue := c.issued }
  { s with chain := {}, agenda := (s.partition c.core c.grp).map (Turn.issue c.core) ++ s.agenda }
/-- The end of the chain in progress; a fetch slot that it did not use serves the next fetch position.  The clock of a fetch slot ends with
its broadcast chain, and that of its buffered lanes with the last of them (log entry 69). -/
def State.endChain (s : State) : State :=
  let c := s.chain
  let fs := s.fates c
  let unused := c.unused fs
  let t := if c.broadcast && !unused then s.now + 1 else s.now
  let s := (s.effects c t (okLanes fs)).fail c t fs
  if unused then s.reissue c else { s with chain := c.finished, now := if !c.broadcast && c.later.isEmpty then t + 1 else t }
/-- The chain in progress with its words performed once settled. -/
def State.settledChain (s : State) : Chain :=
  if s.chain.outs.all fun w => w.own.isEmpty && !w.isSpawn then s.chain else s.settleRaces s.chain 32 []
/-- The chain is over: its words performed once are settled, and it takes effect. -/
def State.commit (s : State) : State := { s with chain := s.settledChain }.endChain

end Sys2Proof.Machine
end

