-- ==== Sys2Proof/Machine/Outcome.lean ====
section
/-! DEFINITION. The outcomes of a step over this machine's states. -/
namespace Sys2Proof.Machine

abbrev Outcome := Host.Outcome State Fault Refusal
/-- In STATE 5 the device does no work until a start: what would reach it then changes nothing (R403, R405). -/
def State.unlessStopped (s t : State) : Outcome := .next (if s.keeper.status.st = 5 then s else t)

end Sys2Proof.Machine
end

