-- ==== Sys2Proof/Machine/Chain.lean ====
section
/-! DEFINITION. One word of the chain in progress: the checks that depend on its chain and on the privilege (R49, steps 6, 7 and 12 to
17), its executing lanes and their operands, what each does, and the end of the chain after its last word (R28, R50, R51, R89,
R190, R223). -/
namespace Sys2Proof.Machine

/-- Executing lanes, ascending, with the values of their sources. -/
abbrev Rows := List (Nat × List Nat)
/-- What a word does in its executing lanes. -/
abbrev Body := State → Rows → Tbl LaneOut

/-- The literals that follow the word. -/
def Chain.lits (c : Chain) (f : Form) : List Nat := (List.range f.lits).map fun k => (c.words.getD (c.slot + 1 + k) 0).toNat
/-- Source `k` of a word in a lane, alone. -/
def State.readNth (s : State) (l : Nat) (f : Form) (k : Nat) : Except LaneOut Nat :=
  match f.srcs[k]? with
  | some (c, w) => s.readSrc l w ((s.chain.lits f).getD ((f.srcs.take k).filter (·.1 == .lit)).length 0) c
  | none => .ok 0
/-- The address of a lane's quarter, source `k` of its leader: the lowest-numbered lane of the quarter that executes the word, whatever
another word of the chain does in it (R130, R147; log entry 62). -/
def State.leadAddr (s : State) (i : Instr) (k l : Nat) : Except LaneOut Nat :=
  match i.form, (lanesOf s.chain.lanes).find? (fun m => quarterOf m == quarterOf l && s.guardOn m) with
  | some f, some m => s.readNth m f k
  | _, _ => .ok 0

/-! ### Ways a word acts on its lanes -/
/-- Each lane by itself. -/
def bodyEach (f : State → Nat → List Nat → LaneOut) : Body := fun s rows => rows.map fun p => (p.1, f s p.1 p.2)
/-- Once per chain: the lowest-numbered executing lane decides, and a failure is every executing lane's (R223); where another word of
the chain stops that lane, the next decides (`WordOut.settle`; log entry 62). -/
def bodyOnce (f : State → Nat → List Nat → LaneOut) : Body := fun s rows =>
  match rows with
  | [] => []
  | (l, vs) :: rest => match f s l vs with
    | .ok es => (l, .ok es) :: rest.map fun p => (p.1, .ok [])
    | o => rows.map fun p => (p.1, o)
/-- Lane by lane in ascending order, each after the effects of those before it. -/
def serialStep (f : State → Nat → List Nat → LaneOut) (x : State × Tbl LaneOut) (p : Nat × List Nat) : State × Tbl LaneOut :=
  let o := f x.1 p.1 p.2
  (match o with | .ok es => es.foldl (fun s e => s.perform s.chain.core s.chain.grp p.1 e) x.1 | _ => x.1, x.2 ++ [(p.1, o)])
def bodySerial (f : State → Nat → List Nat → LaneOut) : Body := fun s rows => (rows.foldl (serialStep f) (s, [])).2

/-! ### Checks of a word in its chain -/
/-- The decode report of the word at the chain's next slot (R52). -/
def State.report (s : State) (sub : Nat) : DWord := s.chain.reportAt s.chain.slot sub
/-- Named registers a word writes: the first and the count. -/
def namedBy (f : Form) : Option (Nat × Nat) :=
  match f.dst with
  | some (.n r, _, w, _) => some (r.val, wdBits w / 32)
  | _ => none
def overlap (a b : Nat × Nat) : Bool := decide (a.1 < b.1 + b.2) && decide (b.1 < a.1 + a.2)
/-- Queues a word pops. -/
def poppedBy (f : Form) : List Src := (f.srcs.map (·.1)).filter fun c => c == .mqo || c == .wqi
def isPrivileged : Instr → Bool
  | .rfe _ | .tlbi .. => true
  | _ => false
def isSel : Instr → Bool
  | .sel .. => true
  | _ => false
/-- The first failing check of steps 6, 7 and 12 to 17 of R49, with its subcode. -/
def State.wordCheck (s : State) (ch : Bool) (i : Instr) (f : Form) : Option (Cause × Nat) :=
  let c := s.chain
  let next := c.slot + 1 + f.lits
  if 3 < next then some (.illegalOp, 0x06)
  else if ch && next == 3 then some (.illegalOp, 0x07)
  else if isPrivileged i && !(s.ctx s.cctx).priv then some (.privilege, 0x20)
  else if c.pipes.contains f.pipe then some (.illegalChain, 0x30)
  else if (match namedBy f with | some w => c.writes.any (overlap w) | none => false) then some (.illegalChain, 0x31)
  else if (poppedBy f).any (c.pops.contains ·) then some (.illegalChain, 0x32)
  else if isSel i && c.guard.isNone then some (.illegalChain, 0x34)
  else none
/-- Words that issue while their group is speculative (R190). -/
def speculates : Instr → Bool
  | .nop _ | .rdsr .. | .wrsr .. | .sleep .. | .yield _ | .bra .. | .call .. | .brx .. | .guard _ | .rjget .. => true
  | .ldB8u .. | .ldB8s .. | .ldB16u .. | .ldB16s .. | .ldB32 .. | .ldB64 .. | .ldB128 .. | .ldacqB32 .. | .ldacqB64 .. => true
  | .ldsB32 .. | .ldsB64 .. | .ldsB128 .. | .ldb .. | .ldbs .. | .ldncB32 .. => true
  | _ => false
def State.held (s : State) (i : Instr) (f : Form) : Bool :=
  s.cgroup.spec.isSome &&
    (((f.pipe == .b || f.pipe == .m || f.pipe == .e) && !speculates i) || !(poppedBy f).isEmpty ||
      (match f.dst with | some (.mqa, _) | some (.mqb, _) | some (.g _, _) => true | _ => false))

/-- Words performed once per chain (R94, R96, R223, R236, R238, R255, R258 to R276, R284, R361, R363). -/
def performedOnce : Instr → Bool
  | .prio .. | .rjset .. | .smap .. | .sunmap .. | .sflush .. | .seal .. | .tile .. | .relay .. | .gath .. | .mrel .. | .mcvn .. => true
  | .mma .. | .mmd .. | .mzero .. | .mdrain .. | .mload .. | .mcfg .. | .mcmplx .. | .glapp .. | .glfold .. | .wtag .. => true
  | .mrsv .. | .wclose .. => true
  | _ => false

/-! ### A word's outcome -/
/-- The lanes of the chain that no earlier word has stopped: those that count in a cross-lane or block word, also where a later word
stops one (DESIGN CHOICE, log entry 62; R164). -/
def Chain.live (c : Chain) : List Nat := (lanesOf c.lanes).filter fun l => (c.fate l).isOk
/-- A data-dependent ILLEGAL_OPERAND reports its word (R51, R52); a push onto a queue register needs the reservation (R229). -/
def State.finish (s : State) (f : Form) (o : LaneOut) : LaneOut :=
  match o with
  | .trap .illegalOperand a => if a = 0x14 then .trap .illegalOperand (s.report 0x14) else o
  | .ok _ => match f.dst with
    | some (.mqa, _) | some (.mqb, _) => if s.holds s.chain.core s.chain.grp then o else .trap .engineNotReserved 0
    | _ => o
  | _ => o
/-- The executing lanes of a word, with their sources or what reading them raises. -/
def State.wordRows (s : State) (i : Instr) (f : Form) : List (Nat × Except LaneOut (List Nat)) :=
  (s.chain.live.filter fun l => isSel i || s.guardOn l).map fun l => (l, s.readSrcs l f.srcs (s.chain.lits f))
/-- A lane whose sources cannot be read, and one whose can. -/
def badRow (p : Nat × Except LaneOut (List Nat)) : Option (Nat × LaneOut) :=
  match p.2 with
  | .error o => some (p.1, o)
  | .ok _ => none
def goodRow (p : Nat × Except LaneOut (List Nat)) : Option (Nat × List Nat) :=
  match p.2 with
  | .ok vs => some (p.1, vs)
  | .error _ => none
/-- What a word performed once per chain would do in each lane and those above it, were that lane the lowest-numbered. -/
def State.ownOuts (s : State) (f : Form) (go : Body) : Rows → Tbl (Tbl LaneOut)
  | [] => []
  | p :: rest => (p.1, (go s (p :: rest)).map fun q => (q.1, s.finish f q.2)) :: s.ownOuts f go rest
/-- What the word does in each of its lanes. -/
def State.wordOut (s : State) (i : Instr) (f : Form) (go : Body) : WordOut :=
  let c := s.chain
  if s.held i f then { slot := c.slot, outs := c.live.map fun l => (l, .stall .again) }
  else
    let rs := s.wordRows i f
    let bad := rs.filterMap badRow
    let rows := rs.filterMap goodRow
    { slot := c.slot, pops := bit01 ((poppedBy f).contains .mqo) + 2 * bit01 ((poppedBy f).contains .wqi)
      dflt := if (poppedBy f).contains .mqo then (match s.cgroup.mqo with | e :: _ => e.shadow | [] => []) else []
      outs := bad ++ (go s rows).map fun p => (p.1, s.finish f p.2)
      own := if performedOnce i then s.ownOuts f go rows else [] }
/-- The guard that a word sets for the next one (R50). -/
def guardBy : Instr → Option PSrc
  | .guard x => some x
  | _ => none
/-- The chain with a word decided. -/
def State.addWord (s : State) (i : Instr) (f : Form) (w : WordOut) : State :=
  let c := s.chain
  { s with
    chain := { c with
      slot := c.slot + 1 + f.lits, outs := c.outs ++ [w], pipes := c.pipes ++ [f.pipe], writes := c.writes ++ (namedBy f).toList,
      pops := c.pops ++ (poppedBy f), guard := guardBy i } }
/-- A word fails a check: it raises its cause in every lane that reaches it (R51), and the chain is over. -/
def State.failWord (s : State) (cause : Cause) (sub : Nat) : State :=
  let c := s.chain
  let w : WordOut := { slot := c.slot, outs := (lanesOf c.lanes).map fun l => (l, .trap cause (s.report sub)) }
  { s with chain := { c with outs := c.outs ++ [w] } }.commit
/-- One word of the chain in progress; with `ch` clear it is the last, and the chain takes effect. -/
def State.runWord (s : State) (ch : Bool) (i : Instr) (f : Form) (go : Body) : State :=
  match s.wordCheck ch i f with
  | some (cause, sub) => s.failWord cause sub
  | none =>
    let s := s.addWord i f (s.wordOut i f go)
    if ch then s else s.commit
/-- The meaning of a word: nothing happens outside a chain. -/
def State.word (s : State) (ch : Bool) (i : Instr) (go : Body) : Outcome :=
  match i.form with
  | some f => .next (if s.chain.active then s.runWord ch i f go else s)
  | none => .next s

/-- Once per chain, with the executing lanes as a set. -/
def bodyGroup (f : State → LaneSet → Nat → List Nat → LaneOut) : Body := fun s rows => bodyOnce (f · (laneSetOf (rows.map (·.1)))) s rows

/-! ### Reading the operand list -/
/-- The `k`-th source value. -/
def arg (vs : List Nat) (k : Nat) : Nat := vs.getD k 0
/-- The bits of a width modifier W. -/
def bw (w : Bool) : Nat := if w then 64 else 32
/-- The value a plan gives, or how its lane ends. -/
def outOf {α : Type} (x : Except LaneOut α) (f : α → LaneOut) : LaneOut :=
  match x with
  | .error o => o
  | .ok v => f v
/-- Core and group slot of the chain in progress. -/
def State.cc (s : State) : Nat := s.chain.core
def State.cg (s : State) : Nat := s.chain.grp
/-- One operand of the 32 lanes, absent outside the executing set (R165). -/
def operandRow (rows : Rows) (k : Nat) : Row := (List.range 32).map fun l => (rows.find? (·.1 == l)).map fun r => arg r.2 k
/-- A word in which each lane's outcome depends on every executing lane's operands. -/
def bodyRow (f : State → Rows → Nat → List Nat → LaneOut) : Body := fun s rows => rows.map fun p => (p.1, f s rows p.1 p.2)

end Sys2Proof.Machine
end

