-- ==== Sys2Proof/Machine/Alu.lean ====
section
/-! DEFINITION. The integer words: IALU, IIMM, `bfi` and `mad` (R81 to R84, R95). -/
namespace Sys2Proof.Machine

/-- `IADD` (R81): Integer add, wrapping or saturating. -/
def execIadd (ch : Bool) (d : Dst) (a : Src) (b : Src) (w : Bool) (u : Bool) (s : Bool) (st' : State) : Outcome :=
  st'.word ch (.iadd ch d a b w u s) (bodyEach fun _ _ v => .res d (bw w) (aluAdd (bw w) u s (arg v 0) (arg v 1)))
/-- `ISUB` (R81): Integer subtract, wrapping or saturating. -/
def execIsub (ch : Bool) (d : Dst) (a : Src) (b : Src) (w : Bool) (u : Bool) (s : Bool) (st' : State) : Outcome :=
  st'.word ch (.isub ch d a b w u s) (bodyEach fun _ _ v => .res d (bw w) (aluSub (bw w) u s (arg v 0) (arg v 1)))
/-- `IMUL` (R81): Integer multiply, low bits of the product. -/
def execImul (ch : Bool) (d : Dst) (a : Src) (b : Src) (w : Bool) (st' : State) : Outcome :=
  st'.word ch (.imul ch d a b w) (bodyEach fun _ _ v => .res d (bw w) (aluMul (bw w) (arg v 0) (arg v 1)))
/-- `IMULH` (R81): High half of a signed or unsigned product. -/
def execImulh (ch : Bool) (d : Dst) (a : Src) (b : Src) (w : Bool) (u : Bool) (st' : State) : Outcome :=
  st'.word ch (.imulh ch d a b w u) (bodyEach fun _ _ v => .res d (bw w) (aluMulh (bw w) u (arg v 0) (arg v 1)))
/-- `IDIV` (R81): Integer divide, with defined results for division by zero and overflow. -/
def execIdiv (ch : Bool) (d : Dst) (a : Src) (b : Src) (w : Bool) (u : Bool) (st' : State) : Outcome :=
  st'.word ch (.idiv ch d a b w u) (bodyEach fun _ _ v => .res d (bw w) (aluDiv (bw w) u (arg v 0) (arg v 1)))
/-- `IREM` (R81): Integer remainder, with a defined result for division by zero. -/
def execIrem (ch : Bool) (d : Dst) (a : Src) (b : Src) (w : Bool) (u : Bool) (st' : State) : Outcome :=
  st'.word ch (.irem ch d a b w u) (bodyEach fun _ _ v => .res d (bw w) (aluRem (bw w) u (arg v 0) (arg v 1)))
/-- `IMIN` (R81): Smaller of two signed or unsigned integers. -/
def execImin (ch : Bool) (d : Dst) (a : Src) (b : Src) (w : Bool) (u : Bool) (st' : State) : Outcome :=
  st'.word ch (.imin ch d a b w u) (bodyEach fun _ _ v => .res d (bw w) (aluMin (bw w) u (arg v 0) (arg v 1)))
/-- `IMAX` (R81): Larger of two signed or unsigned integers. -/
def execImax (ch : Bool) (d : Dst) (a : Src) (b : Src) (w : Bool) (u : Bool) (st' : State) : Outcome :=
  st'.word ch (.imax ch d a b w u) (bodyEach fun _ _ v => .res d (bw w) (aluMax (bw w) u (arg v 0) (arg v 1)))
/-- `IABS` (R81): Integer absolute value. -/
def execIabs (ch : Bool) (d : Dst) (a : Src) (w : Bool) (st' : State) : Outcome :=
  st'.word ch (.iabs ch d a w) (bodyEach fun _ _ v => .res d (bw w) (aluAbs (bw w) (arg v 0)))
/-- `INEG` (R81): Integer negation. -/
def execIneg (ch : Bool) (d : Dst) (a : Src) (w : Bool) (st' : State) : Outcome :=
  st'.word ch (.ineg ch d a w) (bodyEach fun _ _ v => .res d (bw w) (aluNeg (bw w) (arg v 0)))
/-- `AND` (R81): Bitwise and. -/
def execAnd (ch : Bool) (d : Dst) (a : Src) (b : Src) (w : Bool) (st' : State) : Outcome :=
  st'.word ch (.and ch d a b w) (bodyEach fun _ _ v => .res d (bw w) (aluAnd (arg v 0) (arg v 1)))
/-- `OR` (R81): Bitwise or. -/
def execOr (ch : Bool) (d : Dst) (a : Src) (b : Src) (w : Bool) (st' : State) : Outcome :=
  st'.word ch (.or ch d a b w) (bodyEach fun _ _ v => .res d (bw w) (aluOr (arg v 0) (arg v 1)))
/-- `XOR` (R81): Bitwise exclusive or. -/
def execXor (ch : Bool) (d : Dst) (a : Src) (b : Src) (w : Bool) (st' : State) : Outcome :=
  st'.word ch (.xor ch d a b w) (bodyEach fun _ _ v => .res d (bw w) (aluXor (arg v 0) (arg v 1)))
/-- `ANDN` (R81): A and not B. -/
def execAndn (ch : Bool) (d : Dst) (a : Src) (b : Src) (w : Bool) (st' : State) : Outcome :=
  st'.word ch (.andn ch d a b w) (bodyEach fun _ _ v => .res d (bw w) (aluAndn (bw w) (arg v 0) (arg v 1)))
/-- `NOT` (R81): Bitwise complement. -/
def execNot (ch : Bool) (d : Dst) (a : Src) (w : Bool) (st' : State) : Outcome :=
  st'.word ch (.not ch d a w) (bodyEach fun _ _ v => .res d (bw w) (aluNot (bw w) (arg v 0)))
/-- `SHL` (R81): Shift left by B mod w. -/
def execShl (ch : Bool) (d : Dst) (a : Src) (b : Src) (w : Bool) (st' : State) : Outcome :=
  st'.word ch (.shl ch d a b w) (bodyEach fun _ _ v => .res d (bw w) (aluShl (bw w) (arg v 0) (arg v 1)))
/-- `SHR` (R81): Logical shift right. -/
def execShr (ch : Bool) (d : Dst) (a : Src) (b : Src) (w : Bool) (st' : State) : Outcome :=
  st'.word ch (.shr ch d a b w) (bodyEach fun _ _ v => .res d (bw w) (aluShr (bw w) (arg v 0) (arg v 1)))
/-- `SAR` (R81): Arithmetic shift right. -/
def execSar (ch : Bool) (d : Dst) (a : Src) (b : Src) (w : Bool) (st' : State) : Outcome :=
  st'.word ch (.sar ch d a b w) (bodyEach fun _ _ v => .res d (bw w) (aluSar (bw w) (arg v 0) (arg v 1)))
/-- `ROL` (R81): Rotate left. -/
def execRol (ch : Bool) (d : Dst) (a : Src) (b : Src) (w : Bool) (st' : State) : Outcome :=
  st'.word ch (.rol ch d a b w) (bodyEach fun _ _ v => .res d (bw w) (aluRol (bw w) (arg v 0) (arg v 1)))
/-- `ROR` (R81): Rotate right. -/
def execRor (ch : Bool) (d : Dst) (a : Src) (b : Src) (w : Bool) (st' : State) : Outcome :=
  st'.word ch (.ror ch d a b w) (bodyEach fun _ _ v => .res d (bw w) (aluRor (bw w) (arg v 0) (arg v 1)))
/-- `CLZ` (R81): Count leading zero bits. -/
def execClz (ch : Bool) (d : Dst) (a : Src) (w : Bool) (st' : State) : Outcome :=
  st'.word ch (.clz ch d a w) (bodyEach fun _ _ v => .res d (bw w) (aluClz (bw w) (arg v 0)))
/-- `CTZ` (R81): Count trailing zero bits. -/
def execCtz (ch : Bool) (d : Dst) (a : Src) (w : Bool) (st' : State) : Outcome :=
  st'.word ch (.ctz ch d a w) (bodyEach fun _ _ v => .res d (bw w) (aluCtz (bw w) (arg v 0)))
/-- `POPC` (R81): Count one bits. -/
def execPopc (ch : Bool) (d : Dst) (a : Src) (w : Bool) (st' : State) : Outcome :=
  st'.word ch (.popc ch d a w) (bodyEach fun _ _ v => .res d (bw w) (aluPopc (bw w) (arg v 0)))
/-- `BREV` (R81): Reverse the bit order. -/
def execBrev (ch : Bool) (d : Dst) (a : Src) (w : Bool) (st' : State) : Outcome :=
  st'.word ch (.brev ch d a w) (bodyEach fun _ _ v => .res d (bw w) (aluBrev (bw w) (arg v 0)))
/-- `BSWAP` (R81): Reverse the byte order. -/
def execBswap (ch : Bool) (d : Dst) (a : Src) (w : Bool) (st' : State) : Outcome :=
  st'.word ch (.bswap ch d a w) (bodyEach fun _ _ v => .res d (bw w) (aluBswap (bw w) (arg v 0)))
/-- `BFE` (R82): Extract a bit field, zero- or sign-extended. -/
def execBfe (ch : Bool) (d : Dst) (a : Src) (b : Src) (w : Bool) (u : Bool) (st' : State) : Outcome :=
  st'.word ch (.bfe ch d a b w u) (bodyEach fun _ _ v => .res d (bw w) (aluBfe (bw w) u (arg v 0) (arg v 1)))
/-- `LEA` (R81): 64-bit address add. -/
def execLea (ch : Bool) (d : Dst) (a : Src) (b : Src) (w : Bool) (st' : State) : Outcome :=
  st'.word ch (.lea ch d a b w) (bodyEach fun _ _ v => .res d 64 (aluLea w (arg v 0) (arg v 1)))
/-- `MOV` (R81): Copy a value, carrying its scale shadow. -/
def execMov (ch : Bool) (d : Dst) (a : Src) (w : Bool) (st' : State) : Outcome :=
  st'.word ch (.mov ch d a w) (bodyEach fun z l v => .resSh d (bw w) (.of (arg v 0)) (z.srcShadow l a))
/-- `SHRR` (R81): Rounding shift right. -/
def execShrr (ch : Bool) (d : Dst) (a : Src) (b : Src) (w : Bool) (u : Bool) (st' : State) : Outcome :=
  st'.word ch (.shrr ch d a b w u) (bodyEach fun _ _ v => .res d (bw w) (aluShrr (bw w) u (arg v 0) (arg v 1)))
/-- `SEL` (R83): Selects A where the guard holds and B where it fails, in every active lane. -/
def execSel (ch : Bool) (d : Dst) (a : Src) (b : Src) (w : Bool) (st' : State) : Outcome :=
  st'.word ch (.sel ch d a b w) (bodyEach fun z l v => .res d (bw w) (.of (if z.guardOn l then (arg v 0) else (arg v 1))))
/-- `IADDI` (R84): Add a sign-extended immediate. -/
def execIaddi (ch : Bool) (d : Dst) (a : Src) (imm : BitVec 11) (st' : State) : Outcome :=
  st'.word ch (.iaddi ch d a imm) (bodyEach fun _ _ v => .res d 32 (aluAdd 32 false false (arg v 0) (sext 11 32 imm.toNat)))
/-- `ANDI` (R84): And with an immediate. -/
def execAndi (ch : Bool) (d : Dst) (a : Src) (imm : BitVec 11) (st' : State) : Outcome :=
  st'.word ch (.andi ch d a imm) (bodyEach fun _ _ v => .res d 32 (aluAnd (arg v 0) (sext 11 32 imm.toNat)))
/-- `ORI` (R84): Or with an immediate. -/
def execOri (ch : Bool) (d : Dst) (a : Src) (imm : BitVec 11) (st' : State) : Outcome :=
  st'.word ch (.ori ch d a imm) (bodyEach fun _ _ v => .res d 32 (aluOr (arg v 0) (sext 11 32 imm.toNat)))
/-- `XORI` (R84): Exclusive or with an immediate. -/
def execXori (ch : Bool) (d : Dst) (a : Src) (imm : BitVec 11) (st' : State) : Outcome :=
  st'.word ch (.xori ch d a imm) (bodyEach fun _ _ v => .res d 32 (aluXor (arg v 0) (sext 11 32 imm.toNat)))
/-- `SHLI` (R84): Shift left by an immediate count. -/
def execShli (ch : Bool) (d : Dst) (a : Src) (h : Bool) (w : Bool) (k : BitVec 5) (st' : State) : Outcome :=
  st'.word ch (.shli ch d a h w k) (bodyEach fun _ _ v => .res d (bw w) (aluShl (bw w) (arg v 0) (k.toNat + 32 * bit01 h)))
/-- `SHRI` (R84): Logical shift right by an immediate count. -/
def execShri (ch : Bool) (d : Dst) (a : Src) (h : Bool) (w : Bool) (k : BitVec 5) (st' : State) : Outcome :=
  st'.word ch (.shri ch d a h w k) (bodyEach fun _ _ v => .res d (bw w) (aluShr (bw w) (arg v 0) (k.toNat + 32 * bit01 h)))
/-- `SARI` (R84): Arithmetic shift right by an immediate count. -/
def execSari (ch : Bool) (d : Dst) (a : Src) (h : Bool) (w : Bool) (k : BitVec 5) (st' : State) : Outcome :=
  st'.word ch (.sari ch d a h w k) (bodyEach fun _ _ v => .res d (bw w) (aluSar (bw w) (arg v 0) (k.toNat + 32 * bit01 h)))
/-- `MOVI` (R84): Load a sign-extended 17-bit immediate. -/
def execMovi (ch : Bool) (d : Dst) (imm : BitVec 17) (st' : State) : Outcome :=
  st'.word ch (.movi ch d imm) (bodyEach fun _ _ _ => .res d 32 (.of (sext 17 32 imm.toNat)))
/-- `BFI` (R95): Inserts a bit field. -/
def execBfi (ch : Bool) (d : Dst) (a : Src) (b : Src) (g : Src) (st' : State) : Outcome :=
  st'.word ch (.bfi ch d a b g) (bodyEach fun _ _ v => .res d 32 (aluBfi (arg v 0) (arg v 1) (arg v 2)))
/-- `MAD` (R95): 32-bit integer multiply-add. -/
def execMad (ch : Bool) (d : Dst) (a : Src) (b : Src) (g : Src) (st' : State) : Outcome :=
  st'.word ch (.mad ch d a b g) (bodyEach fun _ _ v => .res d 32 (aluMad (arg v 0) (arg v 1) (arg v 2)))

end Sys2Proof.Machine
end

