-- ==== Sys2Proof/Machine/Atomics.lean ====
section
/-! DEFINITION. The atomics (R134 to R142). -/
namespace Sys2Proof.Machine

/-- `ATOM_B32` (R135): 32-bit global integer atomic returning the old value. -/
def execAtomB32 (ch : Bool) (d : Dst) (a : Src) (b : Src) (op : AOp) (st' : State) : Outcome :=
  st'.word ch (.atomB32 ch d a b op) (bodyEach fun z l v => z.planAtom z.cc z.cg l (some d) (.int 32 op) (arg v 0) (arg v 1))
/-- `ATOM_B64` (R135): 64-bit global integer atomic returning the old value. -/
def execAtomB64 (ch : Bool) (d : Dst) (a : Src) (b : Src) (op : AOp) (st' : State) : Outcome :=
  st'.word ch (.atomB64 ch d a b op) (bodyEach fun z l v => z.planAtom z.cc z.cg l (some d) (.int 64 op) (arg v 0) (arg v 1))
/-- `RED_B32` (R135): 32-bit global integer reduction without return. -/
def execRedB32 (ch : Bool) (a : Src) (b : Src) (op : AOp) (st' : State) : Outcome :=
  st'.word ch (.redB32 ch a b op) (bodyEach fun z l v => z.planAtom z.cc z.cg l none (.int 32 op) (arg v 0) (arg v 1))
/-- `RED_B64` (R135): 64-bit global integer reduction without return. -/
def execRedB64 (ch : Bool) (a : Src) (b : Src) (op : AOp) (st' : State) : Outcome :=
  st'.word ch (.redB64 ch a b op) (bodyEach fun z l v => z.planAtom z.cc z.cg l none (.int 64 op) (arg v 0) (arg v 1))
/-- `ATOMF` (R135): Global float atomic returning the old value. -/
def execAtomf (ch : Bool) (d : Dst) (a : Src) (b : Src) (op : AFOp) (st' : State) : Outcome :=
  st'.word ch (.atomf ch d a b op) (bodyEach fun z l v => z.planAtom z.cc z.cg l (some d) (.flt op) (arg v 0) (arg v 1))
/-- `REDF` (R135): Global float reduction without return. -/
def execRedf (ch : Bool) (a : Src) (b : Src) (op : AFOp) (st' : State) : Outcome :=
  st'.word ch (.redf ch a b op) (bodyEach fun z l v => z.planAtom z.cc z.cg l none (.flt op) (arg v 0) (arg v 1))
/-- `CAS_B32` (R136): 32-bit global compare-and-swap. -/
def execCasB32 (ch : Bool) (d : Dst) (a : Src) (b : Src) (st' : State) : Outcome :=
  st'.word ch (.casB32 ch d a b) (bodyEach fun z l v => z.planAtom z.cc z.cg l (some d) (.cas 32) (arg v 0) (arg v 1))
/-- `CAS_B64` (R136): 64-bit global compare-and-swap. -/
def execCasB64 (ch : Bool) (d : Dst) (a : Src) (b : Src) (st' : State) : Outcome :=
  st'.word ch (.casB64 ch d a b) (bodyEach fun z l v => z.planAtom z.cc z.cg l (some d) (.cas 64) (arg v 0) (arg v 1))
/-- `CAS2` (R136): 128-bit versioned compare-and-swap. -/
def execCas2 (ch : Bool) (d : Dst) (a : Src) (b : Src) (st' : State) : Outcome :=
  st'.word ch (.cas2 ch d a b) (bodyEach fun z l v => z.planAtom z.cc z.cg l (some d) (.cas2) (arg v 0) (arg v 1))
/-- `AMAXRST` (R142): Reads an amax cell and resets it to +0 indivisibly. -/
def execAmaxrst (ch : Bool) (d : Dst) (a : Src) (st' : State) : Outcome :=
  st'.word ch (.amaxrst ch d a) (bodyEach fun z l v => 
    if 16 ≤ (arg v 0) then badValue
    else if z.releaseReady z.cc z.cg l then .ok [.sync, .amax d (arg v 0) true 0] else .stall .again)
/-- `ATOMS` (R135): Scratch integer atomic returning the old value. -/
def execAtoms (ch : Bool) (d : Dst) (a : Src) (b : Src) (op : AOp) (st' : State) : Outcome :=
  st'.word ch (.atoms ch d a b op) (bodyEach fun z l v => z.planAtomS z.cc z.cg l (some d) (.int 32 op) false (arg v 0) (arg v 1))
/-- `REDS` (R135): Scratch integer reduction without return. -/
def execReds (ch : Bool) (a : Src) (b : Src) (op : AOp) (st' : State) : Outcome :=
  st'.word ch (.reds ch a b op) (bodyEach fun z l v => z.planAtomS z.cc z.cg l none (.int 32 op) false (arg v 0) (arg v 1))
/-- `CASS` (R136): Scratch compare-and-swap. -/
def execCass (ch : Bool) (d : Dst) (a : Src) (b : Src) (st' : State) : Outcome :=
  st'.word ch (.cass ch d a b) (bodyEach fun z l v => z.planAtomS z.cc z.cg l (some d) (.cas 32) false (arg v 0) (arg v 1))
/-- `ATOMFS` (R135): Scratch float atomic, including amax cell updates. -/
def execAtomfs (ch : Bool) (d : Dst) (a : Src) (b : Src) (op : AFOp) (st' : State) : Outcome :=
  st'.word ch (.atomfs ch d a b op) (bodyEach fun z l v => z.planAtomS z.cc z.cg l (some d) (.flt op) (op == .maxAbs) (arg v 0) (arg v 1))

end Sys2Proof.Machine
end

