-- ==== Sys2Proof/Machine/Blocks.lean ====
section
/-! DEFINITION. The block words (R171 to R176). -/
namespace Sys2Proof.Machine

/-- The shadow that the blocks of a quarter with a lane in the executing set give, slot by slot; 0x7F elsewhere (R173, R174). -/
def blkSlots' (f : EFmt) (q : Nat) (es : Row) (slot : Nat → Nat) : Shadow :=
  let at_ (b : Nat) : Byte := if (blksOf f).contains b && !(blkPresent f q b es).isEmpty then BitVec.ofNat 8 (slot b) else 0x7F
  ⟨at_ 0, at_ 1⟩
/-- How a lane's block elements round (R175). -/
def State.blkRnd (z : State) (l : Nat) (f : EFmt) (a b : Nat) : Rnd :=
  let lid := (1024 * z.cteam.idx + 32 * z.cgroup.idx + l) % 2 ^ 32
  { z.rndOf l 7 a b 0 with pos := ((a % 2 ^ 32) ^^^ (b % 2 ^ 32)) * 2 ^ 32 + blkN f * lid % 2 ^ 32 }
/-- The slot of a lane's block in the shadow of a source (R171). -/
def State.blkScale (z : State) (l : Nat) (f : EFmt) (c : Src) : Nat := (z.srcShadow l c).slot (blkOf f l)
/-- The low byte of an operand of a block's leader (R172). -/
def leadByte (f : EFmt) (q b : Nat) (rows : Rows) (k : Nat) : Nat := blkLead f q b (operandRow rows 0) (operandRow rows k) % 256
/-- The slot `brescale` leaves. -/
def rescaled (c c' : Nat) : Nat := if c = 0xFF || c' = 0xFF then 0xFF else c'

/-- `BMAX` (R173): Absolute maximum over a block. -/
def execBmax (ch : Bool) (d : Dst) (a : Src) (f : EFmt) (st' : State) : Outcome :=
  st'.word ch (.bmax ch d a f) (bodyRow fun _ rows l _ => .res d 32 (.of (bmaxLane f (operandRow rows 0) l)))
/-- `BSCALE` (R173): Chooses a block scale from an amax under a policy. -/
def execBscale (ch : Bool) (d : Dst) (a : Src) (pol : BitVec 2) (f : EFmt) (st' : State) : Outcome :=
  st'.word ch (.bscale ch d a pol f) (bodyRow fun _ _ _ v => .res d 32 (bscaleLane f pol.toNat (arg v 0)))
/-- `BQNT` (R173): Quantises a block against a scale. -/
def execBqnt (ch : Bool) (d : Dst) (a : Src) (b : Src) (f : EFmt) (st' : State) : Outcome :=
  st'.word ch (.bqnt ch d a b f) (bodyRow fun z rows l v => 
    let q := quarterOf l
    let sc (b : Nat) : Nat := bqntScale f q b (operandRow rows 0) (leadByte f q b rows 1)
    .resSh d 32 (bqntLane f (sc (blkOf f l)) (z.blkRnd l f (arg v 0) (arg v 1)) (arg v 0)) (blkSlots' f q (operandRow rows 0) sc))
/-- `BDQNT` (R174): Dequantises a block. -/
def execBdqnt (ch : Bool) (d : Dst) (a : Src) (f : EFmt) (st' : State) : Outcome :=
  st'.word ch (.bdqnt ch d a f) (bodyRow fun z _ l v => .res d 128 (.of (bdqntLane f (z.blkScale l f a) (arg v 0))))
/-- `BSETSC` (R174): Copies codes and installs a block scale. -/
def execBsetsc (ch : Bool) (d : Dst) (a : Src) (b : Src) (f : EFmt) (st' : State) : Outcome :=
  st'.word ch (.bsetsc ch d a b f) (bodyRow fun _ rows l v => 
    let q := quarterOf l
    .resSh d 32 (.of (arg v 0)) (blkSlots' f q (operandRow rows 0) fun k => leadByte f q k rows 1))
/-- `BGETSC` (R174): Reads a block scale. -/
def execBgetsc (ch : Bool) (d : Dst) (a : Src) (f : EFmt) (st' : State) : Outcome :=
  st'.word ch (.bgetsc ch d a f) (bodyRow fun z _ l _ => .res d 32 (.of (z.blkScale l f a)))
/-- `BSHIFT` (R174): Shifts a block scale by a signed amount. -/
def execBshift (ch : Bool) (d : Dst) (a : Src) (b : Src) (f : EFmt) (st' : State) : Outcome :=
  st'.word ch (.bshift ch d a b f) (bodyRow fun z rows l v => 
    let q := quarterOf l
    let sc (k : Nat) : Nat × Bool := bshiftScale ((z.srcShadow l a).slot k) (leadByte f q k rows 1)
    .resSh d 32 ⟨(arg v 0), { clamp := (sc (blkOf f l)).2 }⟩ (blkSlots' f q (operandRow rows 0) fun k => (sc k).1))
/-- `BRESCALE` (R174): Re-encodes a block under a new scale. -/
def execBrescale (ch : Bool) (d : Dst) (a : Src) (b : Src) (f : EFmt) (st' : State) : Outcome :=
  st'.word ch (.brescale ch d a b f) (bodyRow fun z rows l v => 
    let q := quarterOf l
    let c (k : Nat) : Nat := (z.srcShadow l a).slot k
    .resSh d 32 (brescaleLane f (c (blkOf f l)) (leadByte f q (blkOf f l) rows 1) (z.blkRnd l f (arg v 0) (arg v 1)) (arg v 0))
      (blkSlots' f q (operandRow rows 0) fun k => rescaled (c k) (leadByte f q k rows 1)))
/-- `BDOT` (R174): Block dot product by one accumulation step. -/
def execBdot (ch : Bool) (d : Dst) (a : Src) (b : Src) (f : EFmt) (st' : State) : Outcome :=
  st'.word ch (.bdot ch d a b f) (bodyRow fun z rows l _ => .res d 32 (.of (bdotQuarter f (quarterOf l) (operandRow rows 0) (operandRow rows 1) (fun k => (z.srcShadow l a).slot k) fun k => (z.srcShadow l b).slot k)))

end Sys2Proof.Machine
end

