-- ==== Sys2Proof/Machine/CacheOps.lean ====
section
/-! DEFINITION. The cache, map and translation words (R223 to R227). -/
namespace Sys2Proof.Machine

/-- `CINV` (R226): Drops L1 lines of a range. -/
def execCinv (ch : Bool) (a : Src) (b : Src) (st' : State) : Outcome :=
  st'.word ch (.cinv ch a b) (bodyEach fun _ _ v => .ok [.cinv (BitVec.ofNat 64 (arg v 0)) (arg v 1)])
/-- `CWB` (R226): Writes dirty L2 lines of a range to HBM4E. -/
def execCwb (ch : Bool) (a : Src) (b : Src) (st' : State) : Outcome :=
  st'.word ch (.cwb ch a b) (bodyEach fun _ _ v => if (arg v 1) = 0 || 2 ^ 28 < (arg v 1) then badValue else .ok [.cwb (BitVec.ofNat 64 (arg v 0)) (arg v 1)])
/-- `PFETCH` (R226): Prefetches a line into L1 or the home slice. -/
def execPfetch (ch : Bool) (a : Src) (l2 : Bool) (st' : State) : Outcome :=
  st'.word ch (.pfetch ch a l2) (bodyEach fun _ _ v => .ok [.pfetch (BitVec.ofNat 64 (arg v 0)) l2])
/-- `SMAP` (R224): Installs a lazy map of scratch onto a global range. -/
def execSmap (ch : Bool) (a : Src) (b : Src) (st' : State) : Outcome :=
  st'.word ch (.smap ch a b) (bodyOnce fun z _ v => z.planSmap z.cc z.cg (arg v 0) (arg v 1))
/-- `SUNMAP` (R225): Writes back and removes a scratch map. -/
def execSunmap (ch : Bool) (b : Src) (st' : State) : Outcome :=
  st'.word ch (.sunmap ch b) (bodyOnce fun z _ v => z.planFlush z.cc z.cg (arg v 0) true)
/-- `SFLUSH` (R225): Writes back one or all scratch maps. -/
def execSflush (ch : Bool) (b : Src) (st' : State) : Outcome :=
  st'.word ch (.sflush ch b) (bodyOnce fun z _ v => z.planFlush z.cc z.cg (arg v 0) false)
/-- `PINFO` (R227): Returns translation information without faulting. -/
def execPinfo (ch : Bool) (d : Dst) (a : Src) (st' : State) : Outcome :=
  st'.word ch (.pinfo ch d a) (bodyEach fun z _ v => .res d 64 (.of (z.pinfo (some z.cc) z.cctx (arg v 0))))
/-- `TLBI` (R227): Privileged removal of cached translations device-wide. -/
def execTlbi (ch : Bool) (a : Src) (b : Src) (st' : State) : Outcome :=
  st'.word ch (.tlbi ch a b) (bodyEach fun z _ v =>
    if (arg v 1) / 2 ^ 18 ≠ 0 then badValue
    else if z.tlbiBusy (arg v 0) (arg v 1) then .stall .again
    else .ok [.tlbi (BitVec.ofNat 64 (arg v 0)) (BitVec.ofNat 32 (arg v 1))])

end Sys2Proof.Machine
end

