-- ==== Sys2Proof/Machine/Compare.lean ====
section
/-! DEFINITION. The compares and predicate words (R85 to R88). -/
namespace Sys2Proof.Machine

/-- `ICMP_S` (R86): Signed 32-bit compare into a predicate. -/
def execIcmpS (ch : Bool) (p : PDst) (a : Src) (b : Src) (cond : Cond) (st' : State) : Outcome :=
  st'.word ch (.icmpS ch p a b cond) (bodyEach fun z l v => z.combine l p (icmpC cond (sgn 32 (arg v 0)) (sgn 32 (arg v 1))))
/-- `ICMP_U` (R86): Unsigned 32-bit compare into a predicate. -/
def execIcmpU (ch : Bool) (p : PDst) (a : Src) (b : Src) (cond : Cond) (st' : State) : Outcome :=
  st'.word ch (.icmpU ch p a b cond) (bodyEach fun z l v => z.combine l p (icmpC cond (arg v 0) (arg v 1)))
/-- `ICMP_S_W` (R86): Signed 64-bit compare into a predicate. -/
def execIcmpSW (ch : Bool) (p : PDst) (a : Src) (b : Src) (cond : Cond) (st' : State) : Outcome :=
  st'.word ch (.icmpSW ch p a b cond) (bodyEach fun z l v => z.combine l p (icmpC cond (sgn 64 (arg v 0)) (sgn 64 (arg v 1))))
/-- `ICMP_U_W` (R86): Unsigned 64-bit compare into a predicate. -/
def execIcmpUW (ch : Bool) (p : PDst) (a : Src) (b : Src) (cond : Cond) (st' : State) : Outcome :=
  st'.word ch (.icmpUW ch p a b cond) (bodyEach fun z l v => z.combine l p (icmpC cond (arg v 0) (arg v 1)))
/-- `FCMP_F32` (R86): FP32 compare into a predicate. -/
def execFcmpF32 (ch : Bool) (p : PDst) (a : Src) (b : Src) (cond : Cond) (st' : State) : Outcome :=
  st'.word ch (.fcmpF32 ch p a b cond) (bodyEach fun z l v => z.combine l p (fcmpC f32 cond (arg v 0) (arg v 1)))
/-- `FCMP_F16` (R86): FP16 compare into a predicate. -/
def execFcmpF16 (ch : Bool) (p : PDst) (a : Src) (b : Src) (cond : Cond) (st' : State) : Outcome :=
  st'.word ch (.fcmpF16 ch p a b cond) (bodyEach fun z l v => z.combine l p (fcmpC f16 cond (arg v 0) (arg v 1)))
/-- `FCLASS` (R87): Tests a value's class against a mask into a predicate. -/
def execFclass (ch : Bool) (p : PDst) (a : Src) (b : Src) (t : FTy) (st' : State) : Outcome :=
  st'.word ch (.fclass ch p a b t) (bodyEach fun z l v => z.combine l p (fclassC t.fmt (arg v 0) (arg v 1)))
/-- `PLOG` (R88): Logical operation on two predicates. -/
def execPlog (ch : Bool) (p : PDst) (x : PSrc) (y : PSrc) (op : PLog) (st' : State) : Outcome :=
  st'.word ch (.plog ch p x y op) (bodyEach fun z l _ => z.combine l p (plogC op ((z.clane l).holds x) ((z.clane l).holds y)))
/-- `SETP` (R88): Sets a predicate from a nonzero test. -/
def execSetp (ch : Bool) (p : PDst) (a : Src) (st' : State) : Outcome :=
  st'.word ch (.setp ch p a) (bodyEach fun z l v => z.combine l p ((arg v 0) != 0))

end Sys2Proof.Machine
end

