-- ==== Sys2Proof/Machine/Control.lean ====
section
/-! DEFINITION. The system, branch and control words (R89 to R100, R318, R319, R327). -/
namespace Sys2Proof.Machine

/-- A special register as it stands before the chain (R98, R99). -/
def State.readSr (z : State) (l : Nat) : Nat → Nat
  | 0 => (z.cycles z.cc).toNat
  | 1 => l
  | 2 => quarterOf l
  | 3 => z.cgroup.idx
  | 4 => z.cteam.idx
  | 5 => z.cteam.member
  | 6 => z.cc
  | 7 => dieOf z.cc
  | 8 => z.me + 2 ^ 12 * bit01 z.fabric.noPanel
  | 9 => (z.gridOf z.cc z.cg).seed.toNat
  | 10 => (z.clane l).status.toNat
  | 11 => (z.clane l).control.toNat
  | 12 => (z.clane l).tcause.toNat
  | 13 => (z.clane l).taddr.toNat
  | 14 => (z.clane l).tpc.toNat
  | _ => z.cctx % 65536
/-- Where a branch goes (R46, R90). -/
def State.target (z : State) (off : BitVec 17) : DWord := z.chain.pc + BitVec.ofInt 64 (12 * sgn 17 off.toNat)
/-- Whether a branch is taken in a lane (R90). -/
def State.taken (z : State) (l : Nat) (neg : Bool) (p : BitVec 3) : Bool := (z.clane l).holds ⟨p, neg⟩
/-- The checks of `kreq`, and its request (R327, R328). -/
def State.planKreq (z : State) (l : Nat) (d : Dst) (a b : Nat) : LaneOut :=
  let svc := b % 16
  let r : KReq := ⟨z.cgroup.team, z.cgroup.idx, l, if svc = 15 then .drop else d, BitVec.ofNat 64 a, svc, 0, 0⟩
  if b / 16 ≠ 0 || (7 ≤ svc && svc ≤ 14) then badValue
  else if svc = 15 then (if a ≠ 0 || !(z.clane l).h then badValue else .ok [.sync, .acquire true, .kreq r])
  else outOf (z.checkGlobal z.cc z.cg .load a 64) fun _ => .ok [.sync, .acquire true, .kreq r]

/-- `NOP` (R96): Does nothing; the all-zero word. -/
def execNop (ch : Bool) (st' : State) : Outcome :=
  st'.word ch (.nop ch) (bodyEach fun _ _ _ => .ok [])
/-- `EXIT` (R97): Ends the lane, clears its rejoin bits and acts as a device-scope release. -/
def execExit (ch : Bool) (st' : State) : Outcome :=
  st'.word ch (.exit ch) (bodyEach fun _ _ _ => .ok [.exit])
/-- `TRAP` (R96): Raises SOFTWARE_TRAP with the given code in taddr. -/
def execTrap (ch : Bool) (code : BitVec 6) (st' : State) : Outcome :=
  st'.word ch (.trap ch code) (bodyEach fun _ _ _ => .trap .softwareTrap (code.setWidth 64))
/-- `BRK` (R96): Raises BREAKPOINT with taddr 0. -/
def execBrk (ch : Bool) (st' : State) : Outcome :=
  st'.word ch (.brk ch) (bodyEach fun _ _ _ => .trap .breakpoint 0)
/-- `RDSR` (R99): Reads a special register as it stood before the chain into D and pushes. -/
def execRdsr (ch : Bool) (d : Dst) (sr : BitVec 6) (st' : State) : Outcome :=
  st'.word ch (.rdsr ch d sr) (bodyEach fun z l _ => .res d (wdBits (srWd sr)) (.of (z.readSr l sr.toNat)))
/-- `WRSR` (R99): Writes a special register at the end of the chain. -/
def execWrsr (ch : Bool) (sr : BitVec 6) (a : Src) (st' : State) : Outcome :=
  st'.word ch (.wrsr ch sr a) (bodyEach fun _ _ v => if sr = 11 && 5 ≤ (arg v 0) % 8 then badValue else .ok [.special sr.toNat (BitVec.ofNat 64 (arg v 0))])
/-- `SLEEP` (R96): Stops the lane from issuing for at least the given number of clocks. -/
def execSleep (ch : Bool) (a : Src) (st' : State) : Outcome :=
  st'.word ch (.sleep ch a) (bodyEach fun _ _ v => .ok [.sleep (arg v 0)])
/-- `YIELD` (R96): Has no architectural effect; the partition prefers other groups next. -/
def execYield (ch : Bool) (st' : State) : Outcome :=
  st'.word ch (.yield ch) (bodyEach fun _ _ _ => .ok [.yield])
/-- `PRIO` (R96): Sets the team's scheduling priority, clamped to its task record's priority. -/
def execPrio (ch : Bool) (k : BitVec 4) (st' : State) : Outcome :=
  st'.word ch (.prio ch k) (bodyOnce fun _ _ _ => .ok [.prio k.toNat])
/-- `RFE` (R319): Privileged return from a trap handler, restoring the queue and predicates from the trap frame. -/
def execRfe (ch : Bool) (st' : State) : Outcome :=
  st'.word ch (.rfe ch) (bodyEach fun z l _ => if (z.clane l).h then .ok [.rfe] else badValue)
/-- `KREQ` (R327): Fences, then sends a service request to the Keeper and stalls until it answers. -/
def execKreq (ch : Bool) (d : Dst) (a : Src) (b : Src) (st' : State) : Outcome :=
  st'.word ch (.kreq ch d a b) (bodySerial fun z l v => z.planKreq l d (arg v 0) (arg v 1))
/-- `BRA` (R90): Conditional relative branch. -/
def execBra (ch : Bool) (neg : Bool) (p : BitVec 3) (off : BitVec 17) (st' : State) : Outcome :=
  st'.word ch (.bra ch neg p off) (bodyEach fun z l _ => .ok (if z.taken l neg p then [.jump (z.target off)] else []))
/-- `BRA_ENROL` (R90): Branch that enrols the lane in a rejoin mask. -/
def execBraEnrol (ch : Bool) (neg : Bool) (p : BitVec 3) (j : BitVec 3) (off : BitVec 17) (st' : State) : Outcome :=
  st'.word ch (.braEnrol ch neg p j off) (bodyEach fun z l _ => .ok (.enrol j.toNat :: if z.taken l neg p then [.jump (z.target off)] else []))
/-- `STRIKE` (R90): Branch that removes taken lanes from a rejoin mask. -/
def execStrike (ch : Bool) (neg : Bool) (p : BitVec 3) (j : BitVec 3) (off : BitVec 17) (st' : State) : Outcome :=
  st'.word ch (.strike ch neg p j off) (bodyEach fun z l _ => .ok (if z.taken l neg p then [.strike j.toNat, .jump (z.target off)] else []))
/-- `CALL` (R90): Branch that pushes the next packet address. -/
def execCall (ch : Bool) (neg : Bool) (p : BitVec 3) (off : BitVec 17) (st' : State) : Outcome :=
  st'.word ch (.call ch neg p off) (bodyEach fun z l _ => .ok (if z.taken l neg p then [.result .push 64 ((z.chain.pc + 12).setWidth 128) none, .jump (z.target off)] else []))
/-- `BRX` (R92): Indirect branch to a 64-bit target. -/
def execBrx (ch : Bool) (a : Src) (st' : State) : Outcome :=
  st'.word ch (.brx ch a) (bodyEach fun _ _ v => if (arg v 0) % 4 ≠ 0 then .trap .misaligned (BitVec.ofNat 64 (arg v 0)) else .ok [.jump (BitVec.ofNat 64 (arg v 0))])
/-- `JOIN` (R93): Parks the lane on a rejoin mask until the release condition holds. -/
def execJoin (ch : Bool) (j : BitVec 3) (st' : State) : Outcome :=
  st'.word ch (.join ch j) (bodyEach fun _ _ _ => .ok [.join j.toNat])
/-- `GUARD` (R89): Makes the next word of the chain execute only where the predicate holds. -/
def execGuard (x : PSrc) (st' : State) : Outcome :=
  st'.word true (.guard x) (bodyEach fun _ _ _ => .ok [])
/-- `RJSET` (R94): Writes a rejoin mask once for the group. -/
def execRjset (ch : Bool) (j : BitVec 3) (b : Src) (st' : State) : Outcome :=
  st'.word ch (.rjset ch j b) (bodyOnce fun _ _ v => .ok [.setJ j.toNat (BitVec.ofNat 32 (arg v 0))])
/-- `RJGET` (R94): Reads a rejoin mask. -/
def execRjget (ch : Bool) (d : Dst) (j : BitVec 3) (st' : State) : Outcome :=
  st'.word ch (.rjget ch d j) (bodyEach fun z _ _ => .res d 32 (.of (Tbl.get z.chain.j j.toNat 0).toNat))

end Sys2Proof.Machine
end

