-- ==== Sys2Proof/Machine/Cross.lean ====
section
/-! DEFINITION. The cross-lane words (R164 to R170). -/
namespace Sys2Proof.Machine

/-- The bits of a slide's result (R168). -/
def slideBits (fill : Fill) : Nat := if fill = .carry then 64 else 32

/-- `SLIDE_UP` (R168): Moves values one lane up with a chosen fill. -/
def execSlideUp (ch : Bool) (d : Dst) (a : Src) (b : Src) (fill : Fill) (st' : State) : Outcome :=
  st'.word ch (.slideUp ch d a b fill) (bodyRow fun _ rows l _ => .res d (slideBits fill) (.of (slideLane true fill (operandRow rows 0) (operandRow rows 1) l)))
/-- `SLIDE_DN` (R168): Moves values one lane down with a chosen fill. -/
def execSlideDn (ch : Bool) (d : Dst) (a : Src) (b : Src) (fill : Fill) (st' : State) : Outcome :=
  st'.word ch (.slideDn ch d a b fill) (bodyRow fun _ rows l _ => .res d (slideBits fill) (.of (slideLane false fill (operandRow rows 0) (operandRow rows 1) l)))
/-- `SLIDE_H` (R168): Moves 16-bit elements up by one with a chosen fill. -/
def execSlideH (ch : Bool) (d : Dst) (a : Src) (b : Src) (fill : Fill) (st' : State) : Outcome :=
  st'.word ch (.slideH ch d a b fill) (bodyRow fun _ rows l _ => .res d (slideBits fill) (.of (slideH fill (operandRow rows 0) (operandRow rows 1) l)))
/-- `SHFL` (R169): Reads another lane's value by index. -/
def execShfl (ch : Bool) (d : Dst) (a : Src) (b : Src) (st' : State) : Outcome :=
  st'.word ch (.shfl ch d a b) (bodyRow fun _ rows _ v => .res d 32 (.of ((operandRow rows 0).e ((arg v 1) % 32))))
/-- `SHFLX` (R169): Reads another lane's value by xor mask. -/
def execShflx (ch : Bool) (d : Dst) (a : Src) (b : Src) (st' : State) : Outcome :=
  st'.word ch (.shflx ch d a b) (bodyRow fun _ rows l v => .res d 32 (.of ((operandRow rows 0).e (l ^^^ ((arg v 1) % 32)))))
/-- `BCAST` (R169): Broadcasts one lane's value. -/
def execBcast (ch : Bool) (d : Dst) (a : Src) (b : Src) (st' : State) : Outcome :=
  st'.word ch (.bcast ch d a b) (bodyRow fun _ rows _ _ => .res d 32 (.of ((operandRow rows 0).e ((operandRow rows 1).e (operandRow rows 1).lead % 32))))
/-- `VOTE` (R169): Any, all, ballot or uniform vote over the executing lanes. -/
def execVote (ch : Bool) (d : Dst) (a : Src) (op : VoteOp) (st' : State) : Outcome :=
  st'.word ch (.vote ch d a op) (bodyRow fun _ rows _ _ => .res d 32 (.of (voteOp op (operandRow rows 0))))
/-- `GRED` (R170): Fixed-order tree reduction over the group. -/
def execGred (ch : Bool) (d : Dst) (a : Src) (op : RedOp) (st' : State) : Outcome :=
  st'.word ch (.gred ch d a op) (bodyRow fun _ rows _ _ => .res d 32 (.of (gred op (operandRow rows 0))))
/-- `GSCAN` (R169): Inclusive scan over the group in lane order. -/
def execGscan (ch : Bool) (d : Dst) (a : Src) (op : RedOp) (st' : State) : Outcome :=
  st'.word ch (.gscan ch d a op) (bodyRow fun _ rows l _ => .res d 32 (.of (gscan op (operandRow rows 0) l)))
/-- `QRED` (R170): Fixed-order tree reduction over a quarter. -/
def execQred (ch : Bool) (d : Dst) (a : Src) (op : RedOp) (st' : State) : Outcome :=
  st'.word ch (.qred ch d a op) (bodyRow fun _ rows l _ => .res d 32 (.of (qred op (operandRow rows 0) l)))
/-- `MATCH` (R169): Mask of lanes holding the same value. -/
def execXmatch (ch : Bool) (d : Dst) (a : Src) (st' : State) : Outcome :=
  st'.word ch (.xmatch ch d a) (bodyRow fun _ rows l _ => .res d 32 (.of (matchOp (operandRow rows 0) l)))

end Sys2Proof.Machine
end

