-- ==== Sys2Proof/Machine/EngineEvents.lean ====
section
/-! DEFINITION. Events of the tenders, the matrix engines and the merge engines (R238 to R254, R261 to R287). -/
namespace Sys2Proof.Machine

/-- COPY_BATCH_COMPLETION (R240): A sealed batch completes in order, lowering cp and performing its mooring action. -/
def execCopyBatchCompletion (core : Nat) (grp : Nat) (s : State) : Outcome := .next (s.batchDone core grp)
/-- TILE_COMPLETION (R247): A tile's writes or queue entries and amax update are done; it retires on its mooring. -/
def execTileCompletion (core : Nat) (grp : Nat) (op : Nat) (s : State) : Outcome := .next (s.tileDone core grp op)
/-- RELAY_HOP_COMPLETION (R250): A relay hop's copy is performed, retires an arrival and starts the next hop. -/
def execRelayHopCompletion (core : Nat) (grp : Nat) (op : Nat) (s : State) : Outcome := .next (s.relayHop core grp op)
/-- GATHER_COMPLETION (R252): Every gathered row is performed and the gather retires. -/
def execGatherCompletion (core : Nat) (grp : Nat) (op : Nat) (s : State) : Outcome := .next (s.gathDone core grp op)
/-- JOINT_ISSUE (R261): All convened groups and needed headers are present; the joint operation is checked and accepted. -/
def execJointIssue (core : Nat) (part : Nat) (s : State) : Outcome := .next (s.jointIssue core part)
/-- MATRIX_PASS (R275): One pass of an accepted matrix operation runs once its data has arrived. -/
def execMatrixPass (core : Nat) (part : Nat) (s : State) : Outcome := .next (s.matrixPass core part)
/-- MATRIX_OP_COMPLETION (R276): A matrix operation completes and counts out on tl in issue order. -/
def execMatrixOpCompletion (core : Nat) (part : Nat) (s : State) : Outcome := .next (s.matrixDone core part)
/-- MATRIX_HEADER_FAILURE (R264): A later header fails, poisoning tiles, discarding queues and abandoning operations. -/
def execMatrixHeaderFailure (core : Nat) (part : Nat) (s : State) : Outcome := .next (s.headerFailure core part)
/-- MDRAIN_ENTRY_DELIVERY (R272): A drain entry is placed in mqo once it has room. -/
def execMdrainEntryDelivery (core : Nat) (part : Nat) (s : State) : Outcome := .next (s.drainDeliver core part)
/-- GLAPP_RECORD_WRITE (R286): A glapp writes its log record once a ring slot frees. -/
def execGlappRecordWrite (core : Nat) (part : Nat) (s : State) : Outcome := .next (s.glappWrite core part)
/-- RECORD_FOLD (R282): The merge engine folds a log record row by row under row locks and advances GET. -/
def execRecordFold (log : Nat) (s : State) : Outcome := .next (s.recordFold log)
/-- GLFOLD_RETIREMENT (R287): All covered records are folded and a glfold retires its mooring arrival. -/
def execGlfoldRetirement (k : Nat) (s : State) : Outcome := .next (s.glfoldDone k)

end Sys2Proof.Machine
end

