-- ==== Sys2Proof/Machine/FabricEvents.lean ====
section
/-! DEFINITION. Events of the windows, the Beacons and the collective engine (R355 to R370, R378 to R384). -/
namespace Sys2Proof.Machine

/-- UALINK_READ_RECEIVED: an error completion, and a management count (R366). -/
def State.linkRead (s : State) (src : Nat) : State :=
  if s.fabric.noPanel then s else { s with fabric := { s.fabric with reads := s.fabric.reads + 1 } }.sendOut 3 src []
/-- REFLECTION_ARRIVAL (R357): A target performs a reflected store into a receive window. -/
def execReflectionArrival (a : ReflArrival) (s : State) : Outcome := s.unlessStopped (s.reflArrive a)
/-- REFLECTION_ACKNOWLEDGEMENT (R359): A per-store acknowledgement retires a unit on AMOOR. -/
def execReflectionAcknowledgement (k : Nat) (bitmap : BitVec 16) (s : State) : Outcome := s.unlessStopped (s.ackArrive k bitmap)
/-- CLOSE_MARKER_ARRIVAL (R360): A target receives close markers and returns a daymark. -/
def execCloseMarkerArrival (a : CloseArrival) (s : State) : Outcome := s.unlessStopped (s.markerArrive a)
/-- DAYMARK_ARRIVAL (R363): A daymark ORs its bitmap into the error word and retires an arrival. -/
def execDaymarkArrival (k : Nat) (tgt : Nat) (bitmap : BitVec 16) (s : State) : Outcome := s.unlessStopped (s.daymark k tgt bitmap)
/-- BEACON_BCAS_STEP (R369): Target Beacon performs a compare-and-swap and replies. -/
def execBeaconBcasStep (a : BeaconArrival) (s : State) : Outcome := s.unlessStopped (s.beaconStep .bcas a).tick
/-- BEACON_BENQ_STEP (R369): Target Beacon enqueues an item and replies. -/
def execBeaconBenqStep (a : BeaconArrival) (s : State) : Outcome := s.unlessStopped (s.beaconStep .benq a).tick
/-- BEACON_BCHASE_STEP (R369): Target Beacon follows pointers and replies. -/
def execBeaconBchaseStep (a : BeaconArrival) (s : State) : Outcome := s.unlessStopped (s.beaconStep .bchase a).tick
/-- BEACON_BRED_STEP (R369): Target Beacon performs a reduction. -/
def execBeaconBredStep (a : BeaconArrival) (s : State) : Outcome := s.unlessStopped (s.beaconStep .bred a).tick
/-- UALINK_READ_RECEIVED (R366): A received transaction-layer read is answered with an error completion. -/
def execUalinkReadReceived (src : Nat) (s : State) : Outcome := s.unlessStopped (s.linkRead src)
/-- SLOT_GRANT (R378): A staging slot grant reaches the sender, which may send a contribution. -/
def execSlotGrant (k : Nat) (peer : Nat) (e0 : Nat) (s : State) : Outcome := s.unlessStopped (s.collGranted k peer e0)
/-- CONTRIBUTION_ARRIVAL (R379): A contribution arrives and is combined, forwarded or stored. -/
def execContributionArrival (k : Nat) (c : Contribution) (s : State) : Outcome := s.unlessStopped (s.collArrive k c)
/-- MEMBER_REPORT (R382): Another member's report arrives, allowing event 2. -/
def execMemberReport (k : Nat) (m : Nat) (s : State) : Outcome := s.unlessStopped (s.collReport k m)
/-- READY_WORD_POLL (R384): Periodic re-read of a bucket's ready word at least every 1 µs. -/
def execReadyWordPoll (k : Nat) (s : State) : Outcome := s.unlessStopped (s.collPoll k)
/-- COLLECTIVE_FAILURE (R381): An instance fails, writes STAT and a record, and raises its events. -/
def execCollectiveFailure (k : Nat) (why : BitVec 8) (s : State) : Outcome := s.unlessStopped (s.collFailure k why.toNat)
/-- DIGEST_EXCHANGE (R378): In the first step of a collective instance, a member receives another member's digest of the agreeing fields, and a mismatch fails the instance. -/
def execDigestExchange (k : Nat) (m : Nat) (digest : Nat) (s : State) : Outcome := s.unlessStopped (s.collDigestIn k m digest)

end Sys2Proof.Machine
end

