-- ==== Sys2Proof/Machine/FailureEvents.lean ====
section
/-! DEFINITION. Failures in service (R216, R332 to R335). -/
namespace Sys2Proof.Machine

/-- CXL_PORT_FAILURE: the host reaches the device again only after a cold start (R335). -/
def State.hostPortDown (s : State) : State := { s with keeper := { s.keeper with cxlDown := true } }
/-- PATROL_SCRUB: a single-bit error of a sector is corrected and counted; nothing else shows it (R216). -/
def State.scrub (s : State) (_sector : Nat) : State := { s with keeper := { s.keeper with corrected := s.keeper.corrected + 1 } }
/-- VAULT_ROW_SPARING (R332): A vault row with repeated errors is copied to a spare row. -/
def execVaultRowSparing (vault : Nat) (row : Nat) (s : State) : Outcome := .next (s.spareRow vault row)
/-- HBM_CHANNEL_FAILURE (R332): A pseudo-channel's contents move to the spare channel. -/
def execHbmChannelFailure (stack : Nat) (ch : Nat) (s : State) : Outcome := .next (s.spareChannel stack ch)
/-- DIE_LINK_LANE_FAILURE (R332): A die link retrains on its remaining lanes. -/
def execDieLinkLaneFailure (link : Nat) (lane : Nat) (s : State) : Outcome := .next (s.loseLane link lane)
/-- UALINK_PORT_FAILURE (R332): Traffic moves to another port with retransmission. -/
def execUalinkPortFailure (port : Nat) (s : State) : Outcome := .next (s.losePort port)
/-- CORE_FAILURE (R333): A failed core's teams are checked and moved or lost. -/
def execCoreFailure (core : Nat) (lost : List Nat) (s : State) : Outcome := .next (s.coreFail core lost)
/-- VAULT_FAILURE (R334): A failed vault is removed, dirty lines poisoned and homes recomputed. -/
def execVaultFailure (core : Nat) (s : State) : Outcome := .next (s.vaultFail core)
/-- HEARTBEAT_TAKEOVER (R335): The standby Lantern and Keeper take over after 1 ms without heartbeat. -/
def execHeartbeatTakeover (s : State) : Outcome := .next (s.takeover)
/-- CXL_PORT_FAILURE (R335): The host port fails; accepted work continues without host access. -/
def execCxlPortFailure (s : State) : Outcome := .next (s.hostPortDown)
/-- PATROL_SCRUB (R216): The patrol scrubber corrects single-bit errors at its set rate. -/
def execPatrolScrub (sector : Nat) (s : State) : Outcome := .next (s.scrub sector)

end Sys2Proof.Machine
end

