-- ==== Sys2Proof/Machine/Special.lean ====
section
/-! DEFINITION. The special functions (R107, R108): the exact real value of the function, enclosed by
fixed-point arithmetic far below any rounding boundary, then rounded once. -/
namespace Sys2Proof.Machine

/-- Fraction bits of the fixed-point arithmetic. -/
def fxBits : Nat := 832
/-- The enclosure's half width in units of `2^-fxBits`: far above the accumulated truncation. -/
def fxErr : Nat := 2 ^ 150
/-- One in fixed point. -/
def fxOne : Nat := 2 ^ fxBits
/-- Product in fixed point. -/
def fxMul (a b : Nat) : Nat := (a * b) >>> fxBits
/-- `Σ z^(2k+1) / (2k+1)` with signs alternating when `alt`: atan or atanh of `z`, `fuel` terms. -/
def oddSeries : Nat → Bool → Nat → Nat → Nat → Int
  | 0, _, _, _, _ => 0
  | fuel + 1, alt, k, pow, zz =>
    let t : Int := (pow / (2 * k + 1) : Nat)
    (if alt && k % 2 == 1 then -t else t) + oddSeries fuel alt (k + 1) (fxMul pow zz) zz
/-- atanh of a fixed-point value. -/
def fxAtanh (z : Nat) : Nat := (oddSeries 280 false 0 z (fxMul z z)).toNat
/-- ln 2 = 2 atanh(1/3). -/
def fxLn2 : Nat := 2 * fxAtanh (fxOne / 3)
/-- π = 16 atan(1/5) − 4 atan(1/239). -/
def fxPi : Nat :=
  (16 * oddSeries 200 true 0 (fxOne / 5) (fxOne / 25) - 4 * oddSeries 80 true 0 (fxOne / 239) (fxOne / 57121)).toNat
/-- `Σ t_k` of the exponential series from term `k`. -/
def expSeries : Nat → Nat → Nat → Nat → Nat
  | 0, _, t, _ => t
  | fuel + 1, k, t, y => t + expSeries fuel (k + 1) (fxMul t y / k) y
/-- `e^y` for `0 ≤ y < 1`. -/
def fxExp (y : Nat) : Nat := expSeries 200 1 fxOne y
/-- The alternating series of sine (`k` odd start) or cosine. -/
def trigSeries : Nat → Nat → Nat → Nat → Int
  | 0, _, _, _ => 0
  | fuel + 1, k, t, yy => (t : Int) - trigSeries fuel (k + 2) (fxMul t yy / ((k + 1) * (k + 2))) yy
/-- Sine of `0 ≤ y < 2`. -/
def fxSin (y : Nat) : Int := trigSeries 160 1 y (fxMul y y)
/-- Cosine of `0 ≤ y < 2`. -/
def fxCos (y : Nat) : Int := trigSeries 160 0 fxOne (fxMul y y)

/-- A finite magnitude in fixed point, truncated. -/
def fxOf (d : Dy) : Nat :=
  let sh := d.exp + fxBits
  if 0 ≤ sh then d.mag <<< sh.toNat else d.mag >>> (-sh).toNat

/-- Round an enclosed value: the code both ends round to; where they differ, a free value. -/
def roundEnclosed (f : FFmt) (neg : Bool) (v : Int) (scale : Int) (op arg : Nat) : Nat :=
  let lo : Dy := ⟨neg, (v - fxErr).toNat, scale - fxBits, false⟩
  let hi : Dy := ⟨neg, (v + fxErr).toNat, scale - fxBits, false⟩
  let a := f.round (.fin lo) .rne 0
  if a = f.round (.fin hi) .rne 0 then a else (Config.undecidedSpecial op arg).toNat % 2 ^ f.width

/-- `2^x` of a finite value (R107). -/
def exp2Fin (f : FFmt) (d : Dy) (arg : Nat) : Nat :=
  if 12 < d.log2 ∧ d.mag ≠ 0 then (if d.neg then 0 else f.infCode)
  else
    let x := d.at (min d.exp 0)
    let sh := (-(min d.exp 0)).toNat
    let n := floorShift x sh
    let fr := (x - n * (2 ^ sh : Nat)).toNat
    if fr = 0 then f.round (.fin ⟨false, 1, n, false⟩) .rne 0
    else
      let y := fxMul ((fr <<< fxBits) >>> sh) fxLn2
      roundEnclosed f false (fxExp y) n 0 arg
/-- `log2 x` of a positive finite value (R107). -/
def log2Fin (f : FFmt) (d : Dy) (arg : Nat) : Nat :=
  let e := d.log2
  if d.mag = 2 ^ Nat.log2 d.mag then f.round (.fin (Dy.ofInt e 0)) .rne 0
  else
    let y := (d.mag <<< fxBits) >>> Nat.log2 d.mag
    let z := ((y - fxOne) <<< fxBits) / (y + fxOne)
    let l := ((2 * fxAtanh z) <<< fxBits) / fxLn2
    let v : Int := e * fxOne + l
    roundEnclosed f (decide (v < 0)) v.natAbs 0 1 arg
/-- `e^(-y)` of a fixed-point value: fraction in `[1/2, 1]` and the power of two. -/
def fxExpNeg (y : Nat) : Nat × Nat :=
  let n := y / fxLn2 + 1
  (fxExp (n * fxLn2 - y), n)
/-- Sine and cosine of a nonzero finite value (R107). -/
def sinCosFin (f : FFmt) (isCos : Bool) (d : Dy) (arg : Nat) : Nat :=
  let x := fxOf d
  let half := fxPi / 2
  let q := x / half
  let r := x - q * half
  let k := (q + (if isCos then 1 else 0)) % 4
  let v : Int := if k % 2 = 0 then fxSin r else fxCos r
  let neg0 := decide (2 ≤ k)
  let neg := if isCos then neg0 else xor neg0 d.neg
  roundEnclosed f (xor neg (decide (v < 0))) v.natAbs 0 (if isCos then 3 else 2) arg
/-- `tanh x` of a nonzero finite value (R107). -/
def tanhFin (f : FFmt) (d : Dy) (arg : Nat) : Nat :=
  if 6 < d.log2 then f.round (.fin ⟨d.neg, 1, 0, false⟩) .rne 0
  else
    let (e, n) := fxExpNeg (2 * fxOf d)
    let en := e >>> n
    roundEnclosed f d.neg ((((fxOne - en) <<< fxBits) / (fxOne + en) : Nat) : Int) 0 4 arg
/-- The logistic function of a finite value (R107). -/
def sigmFin (f : FFmt) (d : Dy) (arg : Nat) : Nat :=
  if d.mag = 0 then f.round (.fin ⟨false, 1, -1, false⟩) .rne 0
  else if 7 < d.log2 then (if d.neg then 0 else f.round (.fin ⟨false, 1, 0, false⟩) .rne 0)
  else
    let (e, n) := fxExpNeg (fxOf d)
    let en := e >>> n
    if d.neg then roundEnclosed f false (((e <<< fxBits) / (fxOne + en) : Nat) : Int) (-(n : Int)) 5 arg
    else roundEnclosed f false (((fxOne <<< fxBits) / (fxOne + en) : Nat) : Int) 0 5 arg

/-- The special functions by index of R107: `frcp frsq fsqrt fexp2 flog2 fsin fcos ftanh fsigm`. -/
inductive SpecFn where
  | rcp | rsq | sqrt | exp2 | log2 | sin | cos | tanh | sigm
  deriving DecidableEq, Repr

/-- A special function on a code, with the mode of R102 for `frcp` and `fsqrt` (R107, R108). -/
def specFn (fn : SpecFn) (f : FFmt) (mode : RMode) (r : Nat) (x : Nat) : Nat :=
  let x := x % 2 ^ f.width
  let one := f.round (.fin ⟨false, 1, 0, false⟩) .rne 0
  match f.decode x with
  | .nan => f.canonNan
  | .inf s =>
    match fn with
    | .rcp => bit01 s * f.signBit
    | .rsq => if s then f.canonNan else 0
    | .sqrt => if s then f.canonNan else f.infCode
    | .exp2 => if s then 0 else f.infCode
    | .log2 => if s then f.canonNan else f.infCode
    | .sin | .cos => f.canonNan
    | .tanh => bit01 s * f.signBit + one
    | .sigm => if s then 0 else one
  | .fin d =>
    match fn with
    | .rcp => if d.mag = 0 then bit01 d.neg * f.signBit + f.infCode
              else f.round (.fin ((⟨false, 1, 0, false⟩ : Dy).div d)) mode r
    | .rsq => if d.mag = 0 then bit01 d.neg * f.signBit + f.infCode
              else if d.neg then f.canonNan
              else
                -- 1/√a = √(1/a); the quotient keeps 400 more bits than the root needs
                let k := 2 * (200 + Nat.log2 d.mag)
                let odd := d.exp % 2 != 0
                let m := if odd then d.mag * 2 else d.mag
                let e := if odd then d.exp - 1 else d.exp
                let n := (2 ^ k) / m
                let s := isqrt n
                f.round (.fin ⟨false, s, -((k : Int) / 2) - e / 2, s * s * m != 2 ^ k⟩) .rne 0
    | .sqrt => if d.mag = 0 then x else if d.neg then f.canonNan
               else f.round (.fin d.sqrt) mode r
    | .exp2 => if d.mag = 0 then one else exp2Fin f d x
    | .log2 => if d.mag = 0 then f.signBit + f.infCode else if d.neg then f.canonNan else log2Fin f d x
    | .sin => if d.mag = 0 then x else sinCosFin f false d x
    | .cos => if d.mag = 0 then one else sinCosFin f true d x
    | .tanh => if d.mag = 0 then x else tanhFin f d x
    | .sigm => sigmFin f d x

/-- `fdiv` on codes (R107, R108). -/
def fdivOp (f : FFmt) (mode : RMode) (r : Nat) (x y : Nat) : Nat :=
  match f.decode x, f.decode y with
  | .nan, _ => f.canonNan
  | _, .nan => f.canonNan
  | .inf _, .inf _ => f.canonNan
  | .inf s, .fin d => bit01 (xor s d.neg) * f.signBit + f.infCode
  | .fin d, .inf s => bit01 (xor s d.neg) * f.signBit
  | .fin a, .fin b =>
    if b.mag = 0 then (if a.mag = 0 then f.canonNan else bit01 (xor a.neg b.neg) * f.signBit + f.infCode)
    else if a.mag = 0 then bit01 (xor a.neg b.neg) * f.signBit
    else f.round (.fin (a.div b)) mode r

end Sys2Proof.Machine
end

