-- ==== Sys2Proof/Machine/Float.lean ====
section
/-! DEFINITION. The floating-point words: FALU, FFMA, FFNMA, FSPEC, CVT, `fdot2` and `cfma` (R101 to R114, R118, R120). -/
namespace Sys2Proof.Machine

/-- A conversion between floating formats by its type pair (R75, R110). -/
def cvtFPair (p : Nat) (r : Rnd) (x : Nat) : Nat :=
  let two (s t : FFmt) (sw dw : Nat) : Nat := cvtF s t r 0 (bits x (sw - 1) 0) + cvtF s t r 1 (bits x (2 * sw - 1) sw) <<< dw
  match p with
  | 0 => cvtF f16 f32 r 0 x
  | 1 => cvtF bf16 f32 r 0 x
  | 2 => cvtF f32 f16 r 0 x
  | 3 => cvtF f32 bf16 r 0 x
  | 4 => cvtF bf16 f16 r 0 x
  | 5 => cvtF f16 bf16 r 0 x
  | 6 => two f32 f16 32 16
  | 7 => two f32 bf16 32 16
  | 8 => two f16 f32 16 32
  | _ => two bf16 f32 16 32
/-- An integer to a floating format by its type pair (R75, R110). -/
def cvtIfPair (p : Nat) (r : Rnd) (x : Nat) : Nat :=
  match p with
  | 0x10 => cvtIF 32 false f32 r x
  | 0x11 => cvtIF 32 true f32 r x
  | 0x12 => cvtIF 64 false f32 r x
  | 0x13 => cvtIF 64 true f32 r x
  | 0x14 => cvtIF 32 false f16 r x
  | 0x15 => cvtIF 32 false bf16 r x
  | 0x16 => cvtIF 32 true f16 r x
  | _ => cvtIF 32 true bf16 r x
/-- A floating format to an integer by its type pair (R75, R111). -/
def cvtFiPair (p : Nat) (r : Rnd) (x : Nat) : Res :=
  match p with
  | 0x18 => cvtFI f32 32 false r x
  | 0x19 => cvtFI f32 32 true r x
  | 0x1A => cvtFI f32 64 false r x
  | 0x1B => cvtFI f32 64 true r x
  | 0x1C => cvtFI f16 32 false r x
  | 0x1D => cvtFI bf16 32 false r x
  | 0x1E => cvtFI f32 16 false r x
  | _ => cvtFI f32 8 false r x
/-- The float type of `fldexp` and `fexpo` (R75). -/
def ldexpTy (p : Nat) : FTy := if p = 0x30 then .f32 else if p = 0x31 then .f16 else .bf16
/-- `srnd` by its type (R75, R114). -/
def srndPair (p : Nat) (r : Rnd) (x : Nat) : Res :=
  if p = 0x38 then cvtSrndF bf16 r x else if p = 0x39 then cvtSrndF f16 r x else cvtSrndE (efmtOf (p - 0x3A)) r x
/-- The lane type of an FSPEC word (R107). -/
def specFmt (half : Bool) : FFmt := if half then f16 else f32
/-- The rounding of a word with sources A, B and C in the mode of the control word (R102). -/
def State.fRnd (z : State) (l : Nat) (v : List Nat) : Rnd := z.rndOf l 7 (arg v 0) (arg v 1) (arg v 2)
/-- The rounding of a word that reads A alone, in mode `m` (R102). -/
def State.aRnd (z : State) (l m : Nat) (v : List Nat) : Rnd := z.rndOf l m (arg v 0) 0 0

/-- `FADD` (R104): Floating add. -/
def execFadd (ch : Bool) (d : Dst) (a : Src) (b : Src) (t : FTy) (st' : State) : Outcome :=
  st'.word ch (.fadd ch d a b t) (bodyEach fun z l v => .res d 32 (.of (fpAdd t (z.fRnd l v) (arg v 0) (arg v 1))))
/-- `FSUB` (R104): Floating subtract. -/
def execFsub (ch : Bool) (d : Dst) (a : Src) (b : Src) (t : FTy) (st' : State) : Outcome :=
  st'.word ch (.fsub ch d a b t) (bodyEach fun z l v => .res d 32 (.of (fpSub t (z.fRnd l v) (arg v 0) (arg v 1))))
/-- `FMUL` (R104): Floating multiply. -/
def execFmul (ch : Bool) (d : Dst) (a : Src) (b : Src) (t : FTy) (st' : State) : Outcome :=
  st'.word ch (.fmul ch d a b t) (bodyEach fun z l v => .res d 32 (.of (fpMul t (z.fRnd l v) (arg v 0) (arg v 1))))
/-- `FMIN` (R104): Floating minimum, NaN-propagating. -/
def execFmin (ch : Bool) (d : Dst) (a : Src) (b : Src) (t : FTy) (st' : State) : Outcome :=
  st'.word ch (.fmin ch d a b t) (bodyEach fun _ _ v => .res d 32 (.of (fpMaxP t false (arg v 0) (arg v 1))))
/-- `FMAX` (R104): Floating maximum, NaN-propagating. -/
def execFmax (ch : Bool) (d : Dst) (a : Src) (b : Src) (t : FTy) (st' : State) : Outcome :=
  st'.word ch (.fmax ch d a b t) (bodyEach fun _ _ v => .res d 32 (.of (fpMaxP t true (arg v 0) (arg v 1))))
/-- `FMINM` (R104): Floating minimum ignoring one NaN. -/
def execFminm (ch : Bool) (d : Dst) (a : Src) (b : Src) (t : FTy) (st' : State) : Outcome :=
  st'.word ch (.fminm ch d a b t) (bodyEach fun _ _ v => .res d 32 (.of (fpMaxN t false (arg v 0) (arg v 1))))
/-- `FMAXM` (R104): Floating maximum ignoring one NaN. -/
def execFmaxm (ch : Bool) (d : Dst) (a : Src) (b : Src) (t : FTy) (st' : State) : Outcome :=
  st'.word ch (.fmaxm ch d a b t) (bodyEach fun _ _ v => .res d 32 (.of (fpMaxN t true (arg v 0) (arg v 1))))
/-- `FABS` (R104): Clears the sign bit. -/
def execFabs (ch : Bool) (d : Dst) (a : Src) (t : FTy) (st' : State) : Outcome :=
  st'.word ch (.fabs ch d a t) (bodyEach fun _ _ v => .res d 32 (.of (fpAbs t (arg v 0))))
/-- `FNEG` (R104): Inverts the sign bit. -/
def execFneg (ch : Bool) (d : Dst) (a : Src) (t : FTy) (st' : State) : Outcome :=
  st'.word ch (.fneg ch d a t) (bodyEach fun _ _ v => .res d 32 (.of (fpNeg t (arg v 0))))
/-- `FCOPYSIGN` (R104): Takes A with the sign of B. -/
def execFcopysign (ch : Bool) (d : Dst) (a : Src) (b : Src) (t : FTy) (st' : State) : Outcome :=
  st'.word ch (.fcopysign ch d a b t) (bodyEach fun _ _ v => .res d 32 (.of (fpCopysign t (arg v 0) (arg v 1))))
/-- `FROUND` (R104): Rounds to an integral value in a chosen mode. -/
def execFround (ch : Bool) (d : Dst) (a : Src) (r : BitVec 3) (t : FTy) (st' : State) : Outcome :=
  st'.word ch (.fround ch d a r t) (bodyEach fun z l v => .res d 32 (.of (fpRound t (z.aRnd l r.toNat v) (arg v 0))))
/-- `TWOSUM` (R105): Exact FP32 sum and error pair. -/
def execTwosum (ch : Bool) (d : Dst) (a : Src) (b : Src) (st' : State) : Outcome :=
  st'.word ch (.twosum ch d a b) (bodyEach fun _ _ v => .res d 64 (.of ((twoSum (arg v 0) (arg v 1)).1 + (twoSum (arg v 0) (arg v 1)).2 <<< 32)))
/-- `FFMA_F32` (R106): Fused multiply-add on FP32. -/
def execFfmaF32 (ch : Bool) (d : Dst) (a : Src) (b : Src) (g : Src) (st' : State) : Outcome :=
  st'.word ch (.ffmaF32 ch d a b g) (bodyEach fun z l v => .res d 32 (.of (fpFma .f32 false (z.fRnd l v) (arg v 0) (arg v 1) (arg v 2))))
/-- `FFNMA_F32` (R106): Fused c minus a times b on FP32. -/
def execFfnmaF32 (ch : Bool) (d : Dst) (a : Src) (b : Src) (g : Src) (st' : State) : Outcome :=
  st'.word ch (.ffnmaF32 ch d a b g) (bodyEach fun z l v => .res d 32 (.of (fpFma .f32 true (z.fRnd l v) (arg v 0) (arg v 1) (arg v 2))))
/-- `FFMA_F16X2` (R106): Fused multiply-add on packed FP16. -/
def execFfmaF16x2 (ch : Bool) (d : Dst) (a : Src) (b : Src) (g : Src) (st' : State) : Outcome :=
  st'.word ch (.ffmaF16x2 ch d a b g) (bodyEach fun z l v => .res d 32 (.of (fpFma .f16x2 false (z.fRnd l v) (arg v 0) (arg v 1) (arg v 2))))
/-- `FFNMA_F16X2` (R106): Fused c minus a times b on packed FP16. -/
def execFfnmaF16x2 (ch : Bool) (d : Dst) (a : Src) (b : Src) (g : Src) (st' : State) : Outcome :=
  st'.word ch (.ffnmaF16x2 ch d a b g) (bodyEach fun z l v => .res d 32 (.of (fpFma .f16x2 true (z.fRnd l v) (arg v 0) (arg v 1) (arg v 2))))
/-- `FFMA_BF16X2` (R106): Fused multiply-add on packed BF16. -/
def execFfmaBf16x2 (ch : Bool) (d : Dst) (a : Src) (b : Src) (g : Src) (st' : State) : Outcome :=
  st'.word ch (.ffmaBf16x2 ch d a b g) (bodyEach fun z l v => .res d 32 (.of (fpFma .bf16x2 false (z.fRnd l v) (arg v 0) (arg v 1) (arg v 2))))
/-- `FFNMA_BF16X2` (R106): Fused c minus a times b on packed BF16. -/
def execFfnmaBf16x2 (ch : Bool) (d : Dst) (a : Src) (b : Src) (g : Src) (st' : State) : Outcome :=
  st'.word ch (.ffnmaBf16x2 ch d a b g) (bodyEach fun z l v => .res d 32 (.of (fpFma .bf16x2 true (z.fRnd l v) (arg v 0) (arg v 1) (arg v 2))))
/-- `FRCP` (R107): Correctly rounded reciprocal. -/
def execFrcp (ch : Bool) (d : Dst) (a : Src) (half : Bool) (st' : State) : Outcome :=
  st'.word ch (.frcp ch d a half) (bodyEach fun z l v => .res d 32 (.of (specFn .rcp (specFmt half) (z.fRnd l v).mode ((z.fRnd l v).bits 0) (arg v 0))))
/-- `FRSQ` (R107): Correctly rounded reciprocal square root. -/
def execFrsq (ch : Bool) (d : Dst) (a : Src) (half : Bool) (st' : State) : Outcome :=
  st'.word ch (.frsq ch d a half) (bodyEach fun z l v => .res d 32 (.of (specFn .rsq (specFmt half) (z.fRnd l v).mode ((z.fRnd l v).bits 0) (arg v 0))))
/-- `FSQRT` (R107): Correctly rounded square root. -/
def execFsqrt (ch : Bool) (d : Dst) (a : Src) (half : Bool) (st' : State) : Outcome :=
  st'.word ch (.fsqrt ch d a half) (bodyEach fun z l v => .res d 32 (.of (specFn .sqrt (specFmt half) (z.fRnd l v).mode ((z.fRnd l v).bits 0) (arg v 0))))
/-- `FEXP2` (R107): Correctly rounded power of two. -/
def execFexp2 (ch : Bool) (d : Dst) (a : Src) (half : Bool) (st' : State) : Outcome :=
  st'.word ch (.fexp2 ch d a half) (bodyEach fun z l v => .res d 32 (.of (specFn .exp2 (specFmt half) (z.fRnd l v).mode ((z.fRnd l v).bits 0) (arg v 0))))
/-- `FLOG2` (R107): Correctly rounded base-2 logarithm. -/
def execFlog2 (ch : Bool) (d : Dst) (a : Src) (half : Bool) (st' : State) : Outcome :=
  st'.word ch (.flog2 ch d a half) (bodyEach fun z l v => .res d 32 (.of (specFn .log2 (specFmt half) (z.fRnd l v).mode ((z.fRnd l v).bits 0) (arg v 0))))
/-- `FSIN` (R107): Correctly rounded sine. -/
def execFsin (ch : Bool) (d : Dst) (a : Src) (half : Bool) (st' : State) : Outcome :=
  st'.word ch (.fsin ch d a half) (bodyEach fun z l v => .res d 32 (.of (specFn .sin (specFmt half) (z.fRnd l v).mode ((z.fRnd l v).bits 0) (arg v 0))))
/-- `FCOS` (R107): Correctly rounded cosine. -/
def execFcos (ch : Bool) (d : Dst) (a : Src) (half : Bool) (st' : State) : Outcome :=
  st'.word ch (.fcos ch d a half) (bodyEach fun z l v => .res d 32 (.of (specFn .cos (specFmt half) (z.fRnd l v).mode ((z.fRnd l v).bits 0) (arg v 0))))
/-- `FTANH` (R107): Correctly rounded hyperbolic tangent. -/
def execFtanh (ch : Bool) (d : Dst) (a : Src) (half : Bool) (st' : State) : Outcome :=
  st'.word ch (.ftanh ch d a half) (bodyEach fun z l v => .res d 32 (.of (specFn .tanh (specFmt half) (z.fRnd l v).mode ((z.fRnd l v).bits 0) (arg v 0))))
/-- `FSIGM` (R107): Correctly rounded logistic function. -/
def execFsigm (ch : Bool) (d : Dst) (a : Src) (half : Bool) (st' : State) : Outcome :=
  st'.word ch (.fsigm ch d a half) (bodyEach fun z l v => .res d 32 (.of (specFn .sigm (specFmt half) (z.fRnd l v).mode ((z.fRnd l v).bits 0) (arg v 0))))
/-- `FDIV` (R107): Correctly rounded division. -/
def execFdiv (ch : Bool) (d : Dst) (a : Src) (b : Src) (half : Bool) (st' : State) : Outcome :=
  st'.word ch (.fdiv ch d a b half) (bodyEach fun z l v => .res d 32 (.of (fdivOp (specFmt half) (z.fRnd l v).mode ((z.fRnd l v).bits 0) (arg v 0) (arg v 1))))
/-- `CVT_F` (R110): Converts between floating formats. -/
def execCvtF (ch : Bool) (d : Dst) (a : Src) (pair : BitVec 6) (r : BitVec 3) (st' : State) : Outcome :=
  st'.word ch (.cvtF ch d a pair r) (bodyEach fun z l v => .res d (wdBits (cvtDstWd pair)) (.of (cvtFPair pair.toNat (z.aRnd l r.toNat v) (arg v 0))))
/-- `CVT_IF` (R110): Converts an integer to floating point. -/
def execCvtIf (ch : Bool) (d : Dst) (a : Src) (pair : BitVec 6) (r : BitVec 3) (st' : State) : Outcome :=
  st'.word ch (.cvtIf ch d a pair r) (bodyEach fun z l v => .res d 32 (.of (cvtIfPair pair.toNat (z.aRnd l r.toNat v) (arg v 0))))
/-- `CVT_FI` (R111): Converts floating point to a saturated integer. -/
def execCvtFi (ch : Bool) (d : Dst) (a : Src) (pair : BitVec 6) (r : BitVec 3) (st' : State) : Outcome :=
  st'.word ch (.cvtFi ch d a pair r) (bodyEach fun z l v => .res d (wdBits (cvtDstWd pair)) (cvtFiPair pair.toNat (z.aRnd l r.toNat v) (arg v 0)))
/-- `QNT` (R112): Quantises one element against the source shadow's scale. -/
def execQnt (ch : Bool) (d : Dst) (a : Src) (pair : BitVec 6) (r : BitVec 3) (st' : State) : Outcome :=
  st'.word ch (.qnt ch d a pair r) (bodyEach fun z l v => .resSh d 32 (cvtQnt (if pair.toNat < 0x28 then f32 else bf16) (efmtOf (pair.toNat % 8)) ((z.srcShadow l a).slot 0) (z.aRnd l r.toNat v) (arg v 0)) (z.srcShadow l a))
/-- `DQNT` (R112): Dequantises one element against the source shadow's scale. -/
def execDqnt (ch : Bool) (d : Dst) (a : Src) (pair : BitVec 6) (r : BitVec 3) (st' : State) : Outcome :=
  st'.word ch (.dqnt ch d a pair r) (bodyEach fun z l v => .resSh d 32 (cvtDqnt (efmtOf (pair.toNat % 8)) (if pair.toNat < 0x28 then f32 else bf16) ((z.srcShadow l a).slot 0) (z.aRnd l r.toNat v) (arg v 0)) (z.srcShadow l a))
/-- `FLDEXP` (R113): Scales a float by a power of two. -/
def execFldexp (ch : Bool) (d : Dst) (a : Src) (pair : BitVec 6) (r : BitVec 3) (st' : State) : Outcome :=
  st'.word ch (.fldexp ch d a pair r) (bodyEach fun z l v => .res d 32 (.of (fpLdexp (ldexpTy pair.toNat) (z.aRnd l r.toNat v) (arg v 0))))
/-- `FEXPO` (R113): Returns the binary exponent of a float. -/
def execFexpo (ch : Bool) (d : Dst) (a : Src) (pair : BitVec 6) (r : BitVec 3) (st' : State) : Outcome :=
  st'.word ch (.fexpo ch d a pair r) (bodyEach fun _ _ v => .res d 32 (.of (fpExpo (ldexpTy pair.toNat) (arg v 0))))
/-- `SRND` (R114): Rounds FP32 to a narrower format's precision and range. -/
def execSrnd (ch : Bool) (d : Dst) (a : Src) (pair : BitVec 6) (r : BitVec 3) (st' : State) : Outcome :=
  st'.word ch (.srnd ch d a pair r) (bodyEach fun z l v => .res d 32 (srndPair pair.toNat (z.aRnd l r.toNat v) (arg v 0)))
/-- `FDOT2_F16` (R118): FP16 pair dot product into FP32 with one rounding. -/
def execFdot2F16 (ch : Bool) (d : Dst) (a : Src) (b : Src) (g : Src) (st' : State) : Outcome :=
  st'.word ch (.fdot2F16 ch d a b g) (bodyEach fun z l v => .res d 32 (.of (fpDot2 .f16x2 (z.fRnd l v) (arg v 0) (arg v 1) (arg v 2))))
/-- `FDOT2_BF16` (R118): BF16 pair dot product into FP32 with one rounding. -/
def execFdot2Bf16 (ch : Bool) (d : Dst) (a : Src) (b : Src) (g : Src) (st' : State) : Outcome :=
  st'.word ch (.fdot2Bf16 ch d a b g) (bodyEach fun z l v => .res d 32 (.of (fpDot2 .bf16x2 (z.fRnd l v) (arg v 0) (arg v 1) (arg v 2))))
/-- `CFMA` (R120): Compensated complex FP32 multiply-accumulate. -/
def execCfma (ch : Bool) (d : Dst) (a : Src) (b : Src) (g : Src) (st' : State) : Outcome :=
  st'.word ch (.cfma ch d a b g) (bodyEach fun _ _ v => .res d 128 (.of (fpCfma false (arg v 0) (arg v 1) (arg v 2))))
/-- `CFMAJ` (R120): Compensated complex multiply-accumulate with B conjugated. -/
def execCfmaj (ch : Bool) (d : Dst) (a : Src) (b : Src) (g : Src) (st' : State) : Outcome :=
  st'.word ch (.cfmaj ch d a b g) (bodyEach fun _ _ v => .res d 128 (.of (fpCfma true (arg v 0) (arg v 1) (arg v 2))))

end Sys2Proof.Machine
end

