-- ==== Sys2Proof/Machine/Start.lean ====
section
/-! DEFINITION. The firmware image and the starts of the device, step by step (R400 to R405). -/
namespace Sys2Proof.Machine

/-! ### Firmware (R400, R401) -/
/-- The digest of the image as it stands: a function of its bytes that the model does not compute (log entry 11). -/
def State.imageDigest (s : State) : Nat :=
  Config.sha384 (s.keeper.fw.image.foldl (fun acc p => acc * 2 ^ 40 + p.1 * 256 + p.2.toNat + 1) 1)
/-- The image's digest is the one the flash holds for it, as the ROM checks at every start (R401). -/
def State.imageGood (s : State) : Bool :=
  s.keeper.fw.image.isEmpty && s.keeper.fw.digest.isNone || s.keeper.fw.digest.getD (Config.sha384 1) == s.imageDigest
/-- FW_WRITE. -/
def State.fwWrite (s : State) (off : Nat) (data : List Byte) : State × Nat :=
  if 4032 < data.length then (s, 2)
  else ({ s with keeper := { s.keeper with fw := { s.keeper.fw with
    image := data.zipIdx.foldl (fun t (b, i) => Tbl.put t (off + i) b) s.keeper.fw.image } } }, 0)
/-- FW_COMMIT. -/
def State.fwCommit (s : State) (digest : Nat) : State × Nat :=
  if digest = s.imageDigest then ({ s with keeper := { s.keeper with fw := { s.keeper.fw with digest := some digest } } }, 0) else (s, 2)

/-! ### Start-up (R403, R404) -/
/-- Whether a map of logical cores to physical ones binds distinct cores (R8; log entry 68: which numbers it may name). -/
def sparesOk (xs : List Nat) : Bool := xs.isEmpty || (xs.length == 216 && xs.eraseDups.length == 216)
/-- The device as a start begins: contexts, keys, queues, work, vaults, scratchpads and accumulator memory are lost; HBM4E stands. -/
def State.cleared (s : State) : State :=
  let hbm : Mem := { bytes := s.mem.bytes.filter fun p => !isVault p.1, sectors := s.mem.sectors.filter fun p => !isVault (32 * p.1) }
  { mem := hbm
    cores := (List.range 216).map fun c => (c, { resetAt := s.now, vm := (s.core c).vm, physical := (s.core c).physical })
    keeper := {
      fw := s.keeper.fw, bar0 := s.keeper.bar0, hdm0 := s.keeper.hdm0, hdm1 := s.keeper.hdm1, corrected := s.keeper.corrected
      power := { s.keeper.power with tripped := false, coldReq := false }, temps := s.keeper.temps, cxlDown := s.keeper.cxlDown
      log := s.keeper.log, mgmtOut := s.keeper.mgmtOut, hostOut := s.keeper.hostOut, d2h := s.keeper.d2h
      sparedChannels := s.keeper.sparedChannels }
    fabric := { lostLanes := s.fabric.lostLanes, deadPorts := s.fabric.deadPorts }
    now := s.now, nextTxn := s.nextTxn, nextFlight := s.nextFlight, nextPost := s.nextPost, agenda := s.agenda }
/-- A start begins with step 1 under way, in STATE 1 or 2, with every core in service (R301, R332, R397); service is the active pair's
(log entry 68). -/
def State.beginStart (s : State) (b : Starting) : State :=
  let s := s.cleared
  { s with keeper := { s.keeper with starting := some b, status := { st := if b.warm then 2 else 1, stepNo := 1, ncore := 216 } } }
/-- The training that a warm start restores (R404). -/
def State.training (s : State) (b : Starting) : Option Training := if b.warm then s.keeper.fw.trained else none
/-- Steps 1 to 5. -/
def State.startWork (s : State) (b : Starting) (k : Nat) : State :=
  match k with
  | 1 => { s with cores := s.cores.mapV fun c x => { x with physical := b.x.spares.getD c c, vm := min 4 b.x.vm } }
  | 2 => { s with fabric := { s.fabric with lostLanes := match s.training b with
      | some r => s.fabric.lostLanes ++ r.lanes.filter fun l => !s.fabric.lostLanes.contains l
      | none => [] } }
  | 3 => { s with
      mem := if b.preserve then s.mem else {}
      keeper := { s.keeper with
        sparedChannels := match s.training b with
          | some r => s.keeper.sparedChannels ++ r.channels.filter fun l => !s.keeper.sparedChannels.contains l
          | none => []
        status := { s.keeper.status with presv := b.preserve } } }
  | 5 => { s with fabric := { s.fabric with
      devId := match s.training b with
        | some r => if b.x.panel && !r.noPanel then r.devId else if b.x.panel then b.x.devId else 0
        | none => if b.x.panel then b.x.devId else 0
      noPanel := !b.x.panel, ports := if b.x.panel then List.range 24 else [], deadPorts := [] } }
  | _ => s
/-- What a successful start saves for later warm starts (R404). -/
def State.trainedNow (s : State) : Training :=
  ⟨s.fabric.lostLanes, s.keeper.sparedChannels, s.fabric.ports, s.fabric.devId, s.fabric.noPanel⟩
/-- Step 6: STATE 4 for a bad digest; otherwise the firmware is loaded, where it is not the running image, and STATE is 3 (R401, R403, R404). -/
def State.startEnd (s : State) (b : Starting) : State :=
  let fw := s.keeper.fw
  let x := s.keeper.status
  { s with keeper := { s.keeper with
    starting := none
    status := if s.imageGood then { x with st := 3, fwnew := !b.warm || fw.digest != fw.running } else { x with st := 4, ecode := 1 }
    fw := if s.imageGood then { fw with running := fw.digest, trained := some s.trainedNow } else fw } }
/-- The step under way is done: the next is under way, or the start is over; one that fails stops the start in STATE 5 (R403).  A warm start
skips step 4 (R404). -/
def State.startStep (s : State) : State :=
  match s.keeper.starting with
  | none => s
  | some b =>
    let x := s.keeper.status
    if b.x.fails = some x.stepNo ∧ ¬(b.warm ∧ x.stepNo = 4) then
      { s with keeper := { s.keeper with starting := none, status := { x with st := 5, ecode := x.stepNo } } }
    else if x.stepNo < 6 then
      let s := s.startWork b x.stepNo
      { s with keeper := { s.keeper with status := { s.keeper.status with stepNo := x.stepNo + 1 } } }
    else s.startEnd b
/-- What start-up finds is possible. -/
def startsWith (x : StartInputs) : Bool := sparesOk x.spares && (match x.fails with | some k => k != 0 && decide (k ≤ 6) | none => true)
/-- COLD_START (R403): the host port stands again (R335). -/
def State.coldStart (s : State) (x : StartInputs) : State :=
  if !startsWith x then s
  else
    let s := s.beginStart ⟨false, false, x⟩
    { s with keeper := { s.keeper with cxlDown := false } }
/-- A warm start (R404); after a temperature trip only a cold start helps (R405). -/
def State.warmStart (s : State) (preserve : Bool) (x : StartInputs) : State :=
  if !startsWith x || s.keeper.power.tripped then s else s.beginStart ⟨true, preserve, x⟩
/-- The inputs of a warm start that WARM begins: the same binding, device id and panel, and whatever step fails this time (R403, R404). -/
def State.sameInputs (s : State) : StartInputs :=
  { spares := (List.range 216).map fun c => (s.core c).physical, fails := (Config.warmFails s.now).map fun k => k.val + 1, devId := s.fabric.devId, panel := !s.fabric.noPanel, vm := (s.core 0).vm }

end Sys2Proof.Machine
end

