-- ==== Sys2Proof/Machine/HostEvents.lean ====
section
/-! DEFINITION. Events of the host and of management: memory access, the mailbox commands, start-up and power (R215, R395 to R406). -/
namespace Sys2Proof.Machine

/-- COLD_RESET_REQUEST: the host's request for a cold reset stands until one (R406). -/
def State.askCold (s : State) : State :=
  if s.keeper.cxlDown || s.keeper.status.st == 4 then s else { s with keeper := { s.keeper with power := { s.keeper.power with coldReq := true } } }
/-- HOST_MEM_ACCESS: an address that no range of R395 holds does not exist, and the access ends the run by name. -/
def execHostMemAccess (hpa : Nat) (a : HostAccess) (s : State) : Outcome :=
  match s.hostAccess hpa a with
  | some s' => .next s'
  | none => .fault (.noSuchAddress hpa)
/-- SCALE_VIEW_WRITE (R215): A host write to the scale view writes sideband slots. -/
def execScaleViewWrite (hpa : Nat) (v : Byte) (s : State) : Outcome := .next (s.scaleWrite hpa v)
/-- CTX_CREATE (R398): Mailbox command creating a context. -/
def execCtxCreate (ctx : Nat) (x : CtxParams) (s : State) : Outcome := .next (s.mailbox 0x01 ctx fun s => s.ctxCreate ctx x)
/-- CTX_SET (R398): Mailbox command changing a context's settings. -/
def execCtxSet (ctx : Nat) (x : CtxChange) (s : State) : Outcome := .next (s.mailbox 0x02 ctx fun s => s.ctxSet ctx x)
/-- CTX_DESTROY (R398): Mailbox command destroying a context and aborting its grids. -/
def execCtxDestroy (ctx : Nat) (s : State) : Outcome := .next (s.mailbox 0x03 ctx fun s => s.ctxDestroy ctx)
/-- MAP (R398): Mailbox command installing a leaf entry. -/
def execMap (ctx : Nat) (va : DWord) (leaf : DWord) (s : State) : Outcome := .next (s.mailbox 0x10 ctx fun s => s.mapLeaf ctx va leaf)
/-- UNMAP (R398): Mailbox command removing a mapping. -/
def execUnmap (ctx : Nat) (va : DWord) (s : State) : Outcome := .next (s.mailbox 0x11 ctx fun s => s.unmapLeaf ctx va)
/-- XLATE (R398): Mailbox command returning the pinfo word of an address. -/
def execXlate (ctx : Nat) (va : DWord) (s : State) : Outcome := .next (s.mailbox 0x12 ctx fun s => s.xlateCmd ctx va)
/-- KEY_LOAD (R398): Mailbox command loading an encryption key. -/
def execKeyLoad (key : Nat) (pair : Nat) (s : State) : Outcome := .next (s.mailbox 0x20 0 fun s => s.keyLoad key pair)
/-- KEY_CLEAR (R398): Mailbox command clearing an encryption key. -/
def execKeyClear (key : Nat) (s : State) : Outcome := .next (s.mailbox 0x21 0 fun s => s.keyClear key)
/-- WIN_SET (R398): Mailbox command writing a window, exposure or multicast entry. -/
def execWinSet (x : WinEntry) (s : State) : Outcome := .next (s.mailbox 0x30 0 fun s => s.winSet x)
/-- QUEUE_SET (R398): Mailbox command writing a queue table entry. -/
def execQueueSet (q : Nat) (x : QueueFields) (s : State) : Outcome := .next (s.mailbox 0x40 0 fun s => s.queueSet q x)
/-- QUEUE_CLEAR (R398): Mailbox command clearing a queue's error and enabling it. -/
def execQueueClear (q : Nat) (s : State) : Outcome := .next (s.mailbox 0x41 0 fun s => s.queueClear q)
/-- LAYER_DONE (R399): Mailbox command completing a host layer fetch. -/
def execLayerDone (ctx : Nat) (layer : Nat) (s : State) : Outcome := .next (s.mailbox 0x51 ctx fun s => s.layerDone ctx layer)
/-- FW_WRITE (R400): Mailbox command overwriting part of the firmware image. -/
def execFwWrite (off : Nat) (data : List Byte) (s : State) : Outcome := .next (s.mailbox 0x60 0 fun s => s.fwWrite off data)
/-- FW_COMMIT (R400): Mailbox command checking the firmware digest. -/
def execFwCommit (digest : Nat) (s : State) : Outcome := .next (s.mailbox 0x61 0 fun s => s.fwCommit digest)
/-- WARM (R404): Mailbox command starting a warm start. -/
def execWarm (preserve : Bool) (s : State) : Outcome := .next (s.mailbox 0x70 0 fun s => (s.warmStart preserve s.sameInputs, 0))
/-- MAILBOX_UNKNOWN_CODE (R398): A GO with an unlisted command code answers status 2. -/
def execMailboxUnknownCode (code : BitVec 32) (s : State) : Outcome := .next (s.unknownCommand (code.toNat / 65536) (code.toNat % 65536))
/-- BAR0_WRITE_IGNORED (R395): A host write to a BAR0 offset with no behaviour is ignored. -/
def execBar0WriteIgnored (off : Nat) (v : DWord) (s : State) : Outcome := .next (s.bar0Write off v)
/-- COLD_START (R403): Runs the start-up steps from fuses to firmware load. -/
def execColdStart (x : StartInputs) (s : State) : Outcome := .next (s.coldStart x)
/-- WARM_RESET (R404): A host warm reset runs the warm start sequence. -/
def execWarmReset (preserve : Bool) (x : StartInputs) (s : State) : Outcome := .next (s.warmStart preserve x)
/-- MANAGEMENT_READ (R406): MCTP read of status, counters, log, temperatures or power. -/
def execManagementRead (what : MgmtItem) (s : State) : Outcome := .next (s.mgmtRead what)
/-- PLIM_WRITE (R406): MCTP write of the power limit. -/
def execPlimWrite (watts : Nat) (s : State) : Outcome := .next (s.plimWrite watts)
/-- COLD_RESET_REQUEST (R406): MCTP request for a cold reset. -/
def execColdResetRequest (s : State) : Outcome := .next (s.askCold)
/-- POWER_WINDOW (R405): Each 1 ms the firmware adjusts the clock to keep power under PLIM. -/
def execPowerWindow (watts : Nat) (s : State) : Outcome := .next (s.powerWindow watts)
/-- TEMPERATURE_HOT (R405): Junction temperature above 105 °C flags cores as hot. -/
def execTemperatureHot (core : Nat) (s : State) : Outcome := .next (s.hotCore core)
/-- TEMPERATURE_TRIP (R405): Above 115 °C the device stops all work and enters STATE 5. -/
def execTemperatureTrip (s : State) : Outcome := .next (s.trip)
/-- MBSTS_READ (R398): The host reads MBSTS, and a GO that was ignored while BUSY then writes status 3. -/
def execMbstsRead (s : State) : Outcome := .next (s.mbRead)
/-- HDM_DECODER_WRITE (R395): The host programs the bases of BAR0, HDM 0 and HDM 1 through the CXL DVSEC and HDM decoder registers. -/
def execHdmDecoderWrite (which : BitVec 2) (base : DWord) (s : State) : Outcome := .next (s.setDecoder which base)
/-- VAULT_SPLIT_CHANGE (R212): The Keeper drains a core's L2 slice and changes its vault split, which changes the home hash device-wide. -/
def execVaultSplitChange (core : Nat) (vm : Nat) (s : State) : Outcome := .next (s.splitChange core vm)

end Sys2Proof.Machine
end

