-- ==== Sys2Proof/Machine/KeeperEvents.lean ====
section
/-! DEFINITION. Events of the Keeper: fault service, the fault queue, the services of `kreq`, and layers (R323, R324, R327, R328, R340 to R348). -/
namespace Sys2Proof.Machine

/-- FAULT_SERVICE (R323): The Keeper's policy services, delivers or aborts a page-class fault. -/
def execFaultService (k : Nat) (how : Service) (s : State) : Outcome := s.unlessStopped (s.service k how)
/-- FAULT_RECORD_DELIVERY (R324): The Keeper writes a fault record to the ring and emits it into FQNODE. -/
def execFaultRecordDelivery (ctx : Nat) (s : State) : Outcome := s.unlessStopped (s.deliverRecord ctx)
/-- RETRY (R328): Keeper service letting parked lanes re-execute unchanged. -/
def execRetry (k : Nat) (s : State) : Outcome := s.unlessStopped (if s.reqIs k 0 then s.onRecord k s.svcRetry else s)
/-- REMAP (R328): Keeper service installing the reply's leaf and flushing translations. -/
def execRemap (k : Nat) (s : State) : Outcome := s.unlessStopped (if s.reqIs k 1 then s.onRecord k s.svcRemap else s)
/-- SETRAP (R328): Keeper service setting RAP in the page's leaf. -/
def execSetrap (k : Nat) (s : State) : Outcome := s.unlessStopped (if s.reqIs k 2 then s.onRecord k s.svcSetrap else s)
/-- MIGRATE (R328): Keeper service moving the page to a local frame. -/
def execMigrate (k : Nat) (s : State) : Outcome := s.unlessStopped (if s.reqIs k 3 then s.onRecord k s.svcMigrate else s)
/-- RESTREAM (R328): Keeper service requesting the page's layer again. -/
def execRestream (k : Nat) (s : State) : Outcome := s.unlessStopped (if s.reqIs k 4 then s.onRecord k s.svcRestream else s)
/-- DELIVER (R328): Keeper service delivering the trap to the parked lanes. -/
def execDeliver (k : Nat) (s : State) : Outcome := s.unlessStopped (if s.reqIs k 5 then s.onRecord k s.svcDeliver else s)
/-- ABORT (R328): Keeper service aborting the grid. -/
def execAbort (k : Nat) (s : State) : Outcome := s.unlessStopped (if s.reqIs k 6 then s.onRecord k s.svcAbort else s)
/-- RETURN (R328): Keeper service performing the trap return for a user context. -/
def execRet (k : Nat) (s : State) : Outcome := s.unlessStopped (if s.reqIs k 15 then s.svcReturn k else s)
/-- LAYER_ARRIVAL (R340): A fetched layer's leaves are installed and it becomes RESIDENT. -/
def execLayerArrival (ctx : Nat) (layer : Nat) (bytes : List LayerBytes) (s : State) : Outcome := s.unlessStopped (s.layerArrive ctx layer bytes)
/-- LAYER_FETCH_FAILURE (R343): A failed fetch is retried or abandoned, aborting waiting grids. -/
def execLayerFetchFailure (ctx : Nat) (layer : Nat) (abandon : Bool) (s : State) : Outcome := s.unlessStopped (s.fetchFailure ctx layer abandon)
/-- LAYER_EVICTION (R348): A victim layer is withdrawn, its translations removed and frames freed. -/
def execLayerEviction (ctx : Nat) (layer : Nat) (s : State) : Outcome := s.unlessStopped (s.layerEvict ctx layer)

end Sys2Proof.Machine
end

