-- ==== Sys2Proof/Machine/Issue.lean ====
section
/-! DEFINITION. A fetch slot of a group: the lanes that stand ready, the position the fetch unit broadcasts, the packet, and the
instruction at the chain's next word (R26 to R28, R48, R49, R147 to R151, R164). -/
namespace Sys2Proof.Machine

/-! ### Fetching a packet (R48) -/
/-- A packet may be fetched; or how its lanes end: a misaligned program counter, or a page that does not permit execution. -/
def State.fetchCheck (s : State) (core ctx pc : Nat) : Option LaneOut :=
  if pc % 4 ≠ 0 then some (.trap .misaligned (BitVec.ofNat 64 pc))
  else match s.rangeFault (some core) ctx .fetch pc 12 with
    | none => none
    | some (.arriving l, _) => some (.parkLayer l)
    | some (.fault c, a) => some (.park c (BitVec.ofNat 64 a))
    | some _ => none
/-- The walker's marks of a fetch (R221). -/
def State.fetchMark (s : State) (core ctx pc : Nat) : State :=
  (s.touch (some core) ctx false pc).touch (some core) ctx false ((pc + 11) % 2 ^ 64)

/-- The instruction cache holds the packet's sectors after its fetch (R152). -/
def State.fetchFill (s : State) (core ctx pc : Nat) : State := (s.icFill core ctx pc).icFill core ctx ((pc + 11) % 2 ^ 64)

/-! ### Lanes at a fetch slot (R147, R148) -/
/-- A lane waits in the memory or the fault system at the same place: parked, or at a mapped chunk's fill. -/
def Group.parkedAt (g : Group) (x : Lane) : Bool :=
  g.lanes.any fun p => p.2.pc == x.pc && p.2.slot == x.slot && (match p.2.mode with | .parked _ | .stalled (.chunk ..) => true | _ => false)
/-- A lane whose chain may be tried: it is ready, or stalled for a reason that the try itself decides. -/
def Group.tries (g : Group) (x : Lane) : Bool :=
  match x.mode with
  | .ready | .stalled .again => true
  | .stalled .held => !g.parkedAt x
  | _ => false
/-- Whether every source a lane's chain reads stands filled (R19): `n` more words from a slot, under a guard. -/
def Lane.chainFilled (x : Lane) (ws : List Word) : Nat → Nat → Option PSrc → Bool
  | 0, _, _ => true
  | n + 1, slot, gd =>
    let w := (ws.getD slot 0).toNat
    match decodeWord w with
    | .error _ => true
    | .ok i => match i.form with
      | none => true
      | some f =>
        let on := isSel i || (match gd with | none => true | some p => x.holds p)
        (!on || f.srcs.all fun p => x.filled p) &&
          (if fCh w && decide (slot + 1 + rawLits w < 3) then x.chainFilled ws n (slot + 1 + rawLits w) (guardBy i) else true)
/-- The copy of a packet in a lane's loop buffer (R150). -/
def Lane.copyOf (x : Lane) (pc : DWord) : Option (List Word) := (x.loop.find? (·.1 == pc)).map (·.2)
/-- A chain that only a broadcast serves: it holds an XLANE or BLOCK word (R164). -/
def chainCross (ws : List Word) : Nat → Nat → Bool
  | 0, _ => false
  | n + 1, slot =>
    let w := (ws.getD slot 0).toNat
    let maj := bits w 30 26
    maj == 11 || maj == 12 || (fCh w && decide (slot + 1 + rawLits w < 3) && chainCross ws n (slot + 1 + rawLits w))
/-- The copy of its packet that serves a lane: none of a packet that only a broadcast serves (R164), and none for a lane held at a chain
that loads a queue, which its lanes execute once together (R230). -/
def Lane.served (x : Lane) : Option (List Word) :=
  if x.mode == .stalled .held then none
  else match x.copyOf x.pc with
    | some ws => if chainCross ws 3 x.slot then none else some ws
    | none => none
/-- The distinct packets at which lanes stand, with their words where they can be fetched. -/
def State.packetsOf (s : State) (core ctx : Nat) (pcs : List DWord) : List (DWord × Option (List Word)) :=
  pcs.eraseDups.map fun pc => (pc, if (s.fetchCheck core ctx pc.toNat).isSome then none else some (s.packetAt core ctx pc.toNat))
def wordsIn (ps : List (DWord × Option (List Word))) (pc : DWord) : Option (List Word) := (ps.find? (·.1 == pc)).bind (·.2)
/-- The lanes of a group that hold a fetch position: their chain may be tried, its sources stand filled, and it has not just been
tried and stalled. -/
def State.readyLanes (s : State) (core grp : Nat) : List Nat :=
  let g := s.group core grp
  let cs := g.lanes.filter fun p => g.tries p.2 && p.2.tried != some s.now
  let ps := s.packetsOf core (s.ctxOf core grp) (cs.map (·.2.pc))
  (cs.filter fun p => match p.2.served.orElse fun _ => wordsIn ps p.2.pc with
    | none => true
    | some ws => p.2.chainFilled ws 3 p.2.slot none).map (·.1)
/-- Two lanes stand at the same fetch position. -/
def Group.samePlace (g : Group) (a b : Nat) : Bool := (g.lane a).pc == (g.lane b).pc && (g.lane a).slot == (g.lane b).slot
/-- The lanes of the fetch position that is broadcast: the position waited at longest, ties to the lowest-numbered lane (R148). -/
def Group.chosen (g : Group) (ls : List Nat) : List Nat :=
  match (ls.map fun l => (g.lane l).since).min? with
  | none => []
  | some m =>
    match ls.find? fun l => ls.any fun k => g.samePlace k l && (g.lane k).since == m with
    | none => []
    | some l => ls.filter fun k => g.samePlace k l
/-- The lanes that execute from their loop buffers after the broadcast, ascending (R150, R151). -/
def State.bufferedLanes (s : State) (core grp : Nat) (ls : List Nat) : List Nat :=
  let g := s.group core grp
  ls.filter fun l => (g.lane l).served.isSome

/-! ### The chain begins -/
/-- A group's lanes may issue: its team is resident and the device serves work. -/
def State.issues (s : State) (core grp : Nat) : Bool :=
  (Tbl.find (s.core core).groups grp).isSome && (s.teamOf core grp).st == .resident && !(s.core core).failed && s.serving
/-- A chain of lanes at one fetch position, with its packet's words; the shared state it reads is the fetch slot's (R151). -/
def State.openChain (s : State) (core grp : Nat) (ls : List Nat) (broadcast : Bool) (words : List Word) : State :=
  let g := s.group core grp
  let x := g.lane (ls.headD 0)
  let s := s.updGroup core grp fun g => { g.mapLanes fun l y => if ls.contains l && y.mode != .stalled .held then { y with mode := .ready } else y with lastIssue := if broadcast then s.now else g.lastIssue }
  { s with
    chain :=
      { active := true, core := core, grp := grp, lanes := laneSetOf ls, broadcast := broadcast, pc := x.pc, first := x.slot, slot := x.slot
        words := words, g := if broadcast then g.g else s.chain.g, j := if broadcast then g.j else s.chain.j
        quarters := if broadcast then g.quarters else s.chain.quarters, later := s.chain.later, issued := g.lastIssue } }
/-- Lanes that execute later in the fetch slot, each from its buffer. -/
def State.follow (s : State) (ls : List Nat) : State := { s with chain := { s.chain with later := sortBy Nat.ble (ls ++ s.chain.later) } }
/-- Lanes at one fetch position begin its chain with these words; those whose own copies of the packet differ execute from them afterwards
(R150, R152). -/
def State.openWith (s : State) (core grp : Nat) (ls : List Nat) (broadcast : Bool) (ws : List Word) : State :=
  let same (l : Nat) : Bool := match ((s.group core grp).lane l).served with | some c => c == ws | none => true
  (s.openChain core grp (ls.filter same) broadcast ws).follow (ls.filter fun l => !same l)
/-- PACKET_FETCH: lanes at one fetch position begin its next chain: from their copies of the packet where each has one, else by a fetch,
and where it cannot be fetched the lanes without a copy trap or park (R48, R150). -/
def State.fetch (s : State) (core grp : Nat) (ls : List Nat) (broadcast : Bool) : State :=
  let ctx := s.ctxOf core grp
  let pc := (s.lane core grp (ls.headD 0)).pc.toNat
  let out := ls.filter fun l => ((s.group core grp).lane l).served.isNone
  if out.isEmpty then s.openWith core grp ls broadcast ((((s.group core grp).lane (ls.headD 0)).served).getD [])
  else match s.fetchCheck core ctx pc with
    | some o =>
      let s := (s.openChain core grp out broadcast []).follow (ls.filter fun l => !out.contains l)
      { s with chain := { s.chain with outs := [{ slot := s.chain.slot, outs := out.map fun l => (l, o) }] } }.commit
    | none => ((s.fetchMark core ctx pc).fetchFill core ctx pc).openWith core grp ls broadcast (s.packetAt core ctx pc)
/-- The lanes named that can fetch together: those that may be tried and stand where the lowest of them stands. -/
def Group.fetchers (g : Group) (lanes : LaneSet) : List Nat :=
  let ls := (lanesOf lanes).filter fun l => match Tbl.find g.lanes l with | some x => g.tries x | none => false
  match ls with
  | [] => []
  | l :: _ => ls.filter fun k => g.samePlace k l

/-! ### The next word (R49) -/
/-- The failing check of a word that decodes to no instruction: the literals and the chain bit are checked before the operands, and
a lone guard after the pipes. -/
def State.failingCheck (s : State) (w sub : Nat) : Nat :=
  let c := s.chain
  let next := c.slot + 1 + rawLits w
  if sub < 0x10 then sub
  else if 3 < next then 0x06
  else if fCh w && decide (next = 3) then 0x07
  else if sub = 0x33 && c.pipes.contains .b then 0x30
  else sub
/-- The next word of the chain in progress: the instruction it decodes to, or the subcode of the check it fails. -/
def State.nextWord (s : State) : Except Nat Instr :=
  let w := (s.chain.words.getD s.chain.slot 0).toNat
  match decodeWord w with
  | .ok i => .ok i
  | .error sub => .error (s.failingCheck w sub)

/-! ### A fetch slot -/
/-- A lane takes the trap that it owes, if it still can: an earlier one may have ended its grid (R320, R321). -/
def State.payPend (s : State) (core grp l : Nat) : State :=
  let g := s.group core grp
  let x := g.lane l
  match x.pend with
  | some (c, a) =>
    if g.tries x then (s.updLane core grp l fun x => { x with pend := none, mode := .ready, since := s.now }).takeTrap core grp l c a x.slot else s
  | none => s
/-- Traps that lanes owe at their next chains (R229, R233, R333, log entry 15); a speculative group holds them back. -/
def State.payPends (s : State) (core grp : Nat) : State :=
  if (s.group core grp).spec.isSome then s else (s.group core grp).lanes.foldl (fun s p => s.payPend core grp p.1) s
/-- Ready lanes whose sources are unfilled are stalled (R147). -/
def State.markStalled (s : State) (core grp : Nat) (ready : List Nat) : State :=
  s.updGroup core grp fun g => g.mapLanes fun l x => if x.mode == .ready && !ready.contains l then { x with mode := .stalled .again, onRelease := none } else x
/-- The choice of a fetch slot: the lanes of the broadcast, and those that follow from their buffers. -/
def State.beginSlot (s : State) (core grp : Nat) : State × List Nat :=
  if !s.issues core grp then (s, [])
  else
    let s := s.payPends core grp
    let rs := s.readyLanes core grp
    let cs := (s.group core grp).chosen rs
    let s := s.markStalled core grp rs
    ({ s with chain := { later := s.bufferedLanes core grp (rs.filter fun l => !cs.contains l) } }, cs)
/-- The next lane that executes from its buffer in the current fetch slot, if it still can: from the copy of the packet, without a
fetch (R150). -/
def State.nextLater (s : State) : State :=
  let c := s.chain
  match c.later with
  | [] => s
  | l :: rest =>
    let s := { s with chain := { c with later := rest } }
    let g := s.group c.core c.grp
    let x := g.lane l
    match x.served with
    | some ws => if s.issues c.core c.grp && g.tries x then s.openChain c.core c.grp [l] false ws else s
    | none => s

end Sys2Proof.Machine
end

