-- ==== Sys2Proof/Machine/LaneEvents.lean ====
section
/-! DEFINITION. Events of lanes, groups, teams and grids: returning loads, fences, sleeps, moorings, chunks, ends, pre-emption, packets and words that
do not decode (R48, R49, R96, R133, R160, R183, R189 to R192, R211, R329, R330). -/
namespace Sys2Proof.Machine

/-- PACKET_FETCH: of the lanes named, those that stand where the lowest of them stands fetch their packet (R48). -/
def State.packetFetch (s : State) (core grp : Nat) (lanes : LaneSet) : State :=
  let ls := (s.group core grp).fetchers lanes
  if s.chain.active || !s.issues core grp || ls.isEmpty then s else s.fetch core grp ls true
/-- ILLEGAL_OP: the lanes of the chain in progress reach a word that fails a check of R49. -/
def State.illegal (s : State) (core grp : Nat) (lanes : LaneSet) (cause : Cause) (sub : Nat) : State :=
  let c := s.chain
  let here : Bool := match s.nextWord with
    | .error n => n == sub && cause == causeOf sub
    | .ok _ => false
  if c.active && c.core == core && c.grp == grp && c.lanes == lanes && here then s.failWord cause sub else s
/-- LOAD_DATA_RETURN (R133): Load data returns and fills its reserved entry, possibly poisoned. -/
def execLoadDataReturn (core : Nat) (grp : Nat) (txn : Nat) (bad : Bool) (s : State) : Outcome := .next (s.loadReturn core grp txn bad)
/-- FENCE_COMPLETION (R189): A fence's earlier accesses are performed at its scope and speculation ends. -/
def execFenceCompletion (core : Nat) (grp : Nat) (s : State) : Outcome := .next (s.fenceDone core grp)
/-- SPECULATION_ROLLBACK (R191): Another agent's write to a speculatively read sector rolls the group back to the fence. -/
def execSpeculationRollback (core : Nat) (grp : Nat) (s : State) : Outcome := .next (s.rollback core grp)
/-- SLEEP_EXPIRY (R96): A sleeping lane's clock count runs out and it becomes ready. -/
def execSleepExpiry (core : Nat) (grp : Nat) (lane : Nat) (s : State) : Outcome := .next (s.wakeSleep core grp lane)
/-- MOORING_OP_AT_HOME (R183): A posted mooring operation is performed at the mooring's home unit. -/
def execMooringOpAtHome (k : Nat) (s : State) : Outcome := .next (s.mooringHome k)
/-- CHUNK_FILL (R211): A mapped scratch chunk's fill from global memory completes. -/
def execChunkFill (team : Nat) (map : Nat) (chunk : Nat) (s : State) : Outcome := .next (s.chunkFill team map chunk)
/-- SCRATCH_WRITEBACK (R211): Team-end write-back of dirty mapped sectors to global memory. -/
def execScratchWriteback (team : Nat) (s : State) : Outcome := .next (s.teamFlush team)
/-- GROUP_END (R157): All lanes have exited and the ld and st counters reach zero. -/
def execGroupEnd (core : Nat) (grp : Nat) (s : State) : Outcome := .next (s.groupEnd core grp)
/-- GRID_RETIREMENT (R315): Outstanding work done, the Lantern releases at host scope, signals and clears WATCH. -/
def execGridRetirement (grid : Nat) (s : State) : Outcome := .next (s.gridRetire grid)
/-- PREEMPTION_REQUEST (R329): Halts every group of a team at a chain boundary within 5,000 clocks. -/
def execPreemptionRequest (team : Nat) (s : State) : Outcome := .next (s.preempt team)
/-- CONTEXT_SAVE (R330): Saves a halted team's state to its save area. -/
def execContextSave (team : Nat) (s : State) : Outcome := .next (s.contextSave team)
/-- ILLEGAL_OP (R49): A lane reaches a word that decodes to no instruction and takes ILLEGAL_OP or ILLEGAL_CHAIN. Such a word is an erased word, a reserved major, an unassigned operation or modifier, a nonzero reserved field, or a lone guard. -/
def execIllegalOp (core : Nat) (grp : Nat) (lanes : LaneSet) (cause : Cause) (sub : Nat) (s : State) : Outcome := .next (s.illegal core grp lanes cause sub)
/-- PACKET_FETCH (R48): A lane fetches its next packet, and a program counter that is not a multiple of 4 raises MISALIGNED, or a page that denies execution raises its translation cause. -/
def execPacketFetch (core : Nat) (grp : Nat) (lanes : LaneSet) (s : State) : Outcome := .next (s.packetFetch core grp lanes)
/-- JDEC_AT_HOME (R309): A posted jdec decrements the counter at its home unit and may notify the Lantern. -/
def execJdecAtHome (k : Nat) (s : State) : Outcome := .next (s.jdecHome k)

end Sys2Proof.Machine
end

