-- ==== Sys2Proof/Machine/LanternEvents.lean ====
section
/-! DEFINITION. Events of the Lantern and the dispatchers (R288 to R305). -/
namespace Sys2Proof.Machine

/-- DOORBELL (R395): Host write to a doorbell sets a queue's WPTR. -/
def execDoorbell (q : Nat) (wptr : BitVec 32) (s : State) : Outcome := .next (s.ring q wptr)
/-- PACKET_NOP (R289): Queue packet that completes at start. -/
def execPacketNop (q : Nat) (s : State) : Outcome := .next (s.serve q 0 none)
/-- LAUNCH (R291): Queue packet that checks and registers a grid and writes its argument header. -/
def execLaunch (q : Nat) (s : State) : Outcome := .next (s.serve q 1 none)
/-- COLL (R383): Queue packet starting a collective instance. -/
def execColl (q : Nat) (s : State) : Outcome := .next (s.serve q 2 none)
/-- WAITMEM (R290): Queue packet waiting for a masked memory condition. -/
def execWaitmem (q : Nat) (s : State) : Outcome := .next (s.serve q 3 none)
/-- WAITMEM_REREAD (R290): Periodic re-read of a WAITMEM condition at least every 1 µs. -/
def execWaitmemReread (q : Nat) (s : State) : Outcome := .next (s.reread q)
/-- SIGNALMEM (R290): Queue packet writing or adding to a memory word with host-scope release. -/
def execSignalmem (q : Nat) (s : State) : Outcome := .next (s.serve q 4 none)
/-- MODEL_REQUEST (R345): MODEL packet fetching a range of layers. -/
def execModelRequest (q : Nat) (s : State) : Outcome := .next (s.serve q 5 (some 0))
/-- MODEL_WITHDRAW (R345): MODEL packet withdrawing a range of layers. -/
def execModelWithdraw (q : Nat) (s : State) : Outcome := .next (s.serve q 5 (some 1))
/-- MODEL_PIN (R345): MODEL packet incrementing pins of a range of layers. -/
def execModelPin (q : Nat) (s : State) : Outcome := .next (s.serve q 5 (some 2))
/-- MODEL_UNPIN (R345): MODEL packet decrementing pins of a range of layers. -/
def execModelUnpin (q : Nat) (s : State) : Outcome := .next (s.serve q 5 (some 3))
/-- QBARRIER (R289): Queue packet waiting for earlier packets of masked queues. -/
def execQbarrier (q : Nat) (s : State) : Outcome := .next (s.serve q 6 none)
/-- WORK_TABLE_TIMEOUT (R292): A LAUNCH waiting over 100 ms on a full work table is rejected. -/
def execWorkTableTimeout (q : Nat) (s : State) : Outcome := .next (s.tableTimeout q)
/-- PLACEMENT_ATTEMPT (R299): A die's dispatcher places the first fitting team or suspends lower-priority teams. -/
def execPlacementAttempt (die : Nat) (s : State) : Outcome := .next (s.attempt die).tick
/-- CANDIDATE_RESERVATION (R302): After 256 failed attempts the dispatcher reserves a candidate for the head team. -/
def execCandidateReservation (die : Nat) (level : Nat) (s : State) : Outcome := .next (s.reserveFor die level)
/-- THERMAL_MIGRATION (R305): A hot core's longest-resident team is suspended and moved. -/
def execThermalMigration (core : Nat) (s : State) : Outcome := .next (s.thermal core)

end Sys2Proof.Machine
end

