-- ==== Sys2Proof/Machine/Loads.lean ====
section
/-! DEFINITION. The loads (R124, R125, R127 to R130). -/
namespace Sys2Proof.Machine

/-- A load of each lane: checks, then its access (R123, R125). -/
def loadBody (scr : Bool) (size : Nat) (sign acq nc : Bool) (d : Dst) (off : BitVec 10) : Body := bodyEach fun z _ v =>
  outOf (z.planAccess z.cc z.cg .load scr size (arg v 0) 10 off.toNat) fun (loc, ea) =>
    .ok (z.touches z.cc z.cg false [loc] ++ (if acq then [.sync] else []) ++ [.load d size sign loc (BitVec.ofNat 64 ea) acq nc])
/-- The locations of a lane's part of a block: its own bytes, and the sectors of its quarter's slots (R130, R131, R198). -/
def blkOwn (f : EFmt) (locs : List Loc) (l : Nat) : List Loc :=
  [blkLoc locs (blkSpan f l).1, blkLoc locs ((blkSpan f l).1 + (blkSpan f l).2 - 1)] ++
    ((blkSlots f (quarterOf l)).map (·.1)).eraseDups.map fun k => blkLoc locs (32 * k)
/-- A block load: each quarter at its leader's address (R130). -/
def loadBlkBody (i : Instr) (scr : Bool) (d : Dst) (f : EFmt) (off : BitVec 7) : Body := bodyEach fun z l _ =>
  outOf (z.leadAddr i 0 l) fun a => outOf (z.planBlock z.cc z.cg .load scr f a off.toNat) fun (locs, ea) =>
    .ok (z.touches z.cc z.cg false (blkOwn f locs l) ++
      [.loadBlk d f locs (BitVec.ofNat 64 ea) (z.blkShadow z.cc (z.cachedNow z.cc z.cg) f locs (quarterOf l))])

/-- `LD_B8U` (R125): Global byte load, zero-extended. -/
def execLdB8u (ch : Bool) (d : Dst) (a : Src) (off : BitVec 10) (st' : State) : Outcome :=
  st'.word ch (.ldB8u ch d a off) (loadBody false 1 false false false d off)
/-- `LD_B8S` (R125): Global byte load, sign-extended. -/
def execLdB8s (ch : Bool) (d : Dst) (a : Src) (off : BitVec 10) (st' : State) : Outcome :=
  st'.word ch (.ldB8s ch d a off) (loadBody false 1 true false false d off)
/-- `LD_B16U` (R125): Global halfword load, zero-extended. -/
def execLdB16u (ch : Bool) (d : Dst) (a : Src) (off : BitVec 10) (st' : State) : Outcome :=
  st'.word ch (.ldB16u ch d a off) (loadBody false 2 false false false d off)
/-- `LD_B16S` (R125): Global halfword load, sign-extended. -/
def execLdB16s (ch : Bool) (d : Dst) (a : Src) (off : BitVec 10) (st' : State) : Outcome :=
  st'.word ch (.ldB16s ch d a off) (loadBody false 2 true false false d off)
/-- `LD_B32` (R125): Global word load. -/
def execLdB32 (ch : Bool) (d : Dst) (a : Src) (off : BitVec 10) (st' : State) : Outcome :=
  st'.word ch (.ldB32 ch d a off) (loadBody false 4 false false false d off)
/-- `LD_B64` (R125): Global 64-bit load. -/
def execLdB64 (ch : Bool) (d : Dst) (a : Src) (off : BitVec 10) (st' : State) : Outcome :=
  st'.word ch (.ldB64 ch d a off) (loadBody false 8 false false false d off)
/-- `LD_B128` (R125): Global 128-bit load. -/
def execLdB128 (ch : Bool) (d : Dst) (a : Src) (off : BitVec 10) (st' : State) : Outcome :=
  st'.word ch (.ldB128 ch d a off) (loadBody false 16 false false false d off)
/-- `LDACQ_B32` (R129): Global word load with acquire. -/
def execLdacqB32 (ch : Bool) (d : Dst) (a : Src) (off : BitVec 10) (st' : State) : Outcome :=
  st'.word ch (.ldacqB32 ch d a off) (loadBody false 4 false true false d off)
/-- `LDACQ_B64` (R129): Global 64-bit load with acquire. -/
def execLdacqB64 (ch : Bool) (d : Dst) (a : Src) (off : BitVec 10) (st' : State) : Outcome :=
  st'.word ch (.ldacqB64 ch d a off) (loadBody false 8 false true false d off)
/-- `LDS_B32` (R125): Scratch word load. -/
def execLdsB32 (ch : Bool) (d : Dst) (a : Src) (off : BitVec 10) (st' : State) : Outcome :=
  st'.word ch (.ldsB32 ch d a off) (loadBody true 4 false false false d off)
/-- `LDS_B64` (R125): Scratch 64-bit load. -/
def execLdsB64 (ch : Bool) (d : Dst) (a : Src) (off : BitVec 10) (st' : State) : Outcome :=
  st'.word ch (.ldsB64 ch d a off) (loadBody true 8 false false false d off)
/-- `LDS_B128` (R125): Scratch 128-bit load. -/
def execLdsB128 (ch : Bool) (d : Dst) (a : Src) (off : BitVec 10) (st' : State) : Outcome :=
  st'.word ch (.ldsB128 ch d a off) (loadBody true 16 false false false d off)
/-- `LDB` (R130): Global block load with scales into the shadow. -/
def execLdb (ch : Bool) (d : Dst) (a : Src) (f : EFmt) (off : BitVec 7) (st' : State) : Outcome :=
  st'.word ch (.ldb ch d a f off) (loadBlkBody (.ldb ch d a f off) false d f off)
/-- `LDBS` (R130): Scratch block load with scales into the shadow. -/
def execLdbs (ch : Bool) (d : Dst) (a : Src) (f : EFmt) (off : BitVec 7) (st' : State) : Outcome :=
  st'.word ch (.ldbs ch d a f off) (loadBlkBody (.ldbs ch d a f off) true d f off)
/-- `LDNC_B32` (R128): Word load from the home slice bypassing L1. -/
def execLdncB32 (ch : Bool) (d : Dst) (a : Src) (off : BitVec 10) (st' : State) : Outcome :=
  st'.word ch (.ldncB32 ch d a off) (loadBody false 4 false false true d off)

end Sys2Proof.Machine
end

