-- ==== Sys2Proof/Machine/ModelOps.lean ====
section
/-! DEFINITION. The collective and model words (R346, R386). -/
namespace Sys2Proof.Machine

/-- The descriptor, and whether its event k has reached a count (R386). -/
def State.planXev (z : State) (a b : Nat) : Except LaneOut (Loc × Bool) := do
  let k := b % 4
  if k = 3 || bits b 31 2 != 0 then .error badValue
  let loc ← z.checkGlobal z.cc z.cg .objR a 128
  match loc with
  | .dev pa key _ _ => .ok (loc, decide ((ofBytesLE (z.devRead key (pa + 112 + 4 * k) 4).1 + 2 ^ 32 - b / 2 ^ 32) % 2 ^ 32 < 2 ^ 31))
  | .scr .. => .ok (loc, false)
/-- The layer an operand names (R346). -/
def State.planLayer (z : State) (a : Nat) : Except LaneOut Nat :=
  if 4096 ≤ a || (z.ctx z.cctx).nlayer ≤ a then .error badValue else .ok a
def State.resident (z : State) (k : Nat) : Bool := tmState (z.topmark z.cctx k) == 2
/-- The acquire of a wait or a true test (R342, R386). -/
def acquires (t : Bool) : List Eff := if t then [.sync, .acquire true] else []

/-- `XEV` (R386): Waits for a collective event count. -/
def execXev (ch : Bool) (a : Src) (b : Src) (st' : State) : Outcome :=
  st'.word ch (.xev ch a b) (bodyEach fun z _ v => outOf (z.planXev (arg v 0) (arg v 1)) fun (loc, t) =>
    if t then .ok (.object loc 0 false :: acquires true) else .stall .again)
/-- `XTEST` (R386): Tests a collective event count into a predicate. -/
def execXtest (ch : Bool) (p : PDst) (a : Src) (b : Src) (st' : State) : Outcome :=
  st'.word ch (.xtest ch p a b) (bodyEach fun z _ v => outOf (z.planXev (arg v 0) (arg v 1)) fun (loc, t) =>
    .ok (.object loc 0 false :: .pred p.p.toNat t :: acquires t))
/-- `TMCHK` (R346): Tests whether a layer is resident. -/
def execTmchk (ch : Bool) (p : PDst) (a : Src) (st' : State) : Outcome :=
  st'.word ch (.tmchk ch p a) (bodyEach fun z _ v => outOf (z.planLayer (arg v 0)) fun k => .ok (.pred p.p.toNat (z.resident k) :: acquires (z.resident k)))
/-- `TMWAIT` (R346): Requests a layer if needed and waits until resident. -/
def execTmwait (ch : Bool) (a : Src) (st' : State) : Outcome :=
  st'.word ch (.tmwait ch a) (bodyEach fun z _ v => outOf (z.planLayer (arg v 0)) fun k => if z.resident k then .ok (acquires true) else .stall (.layer z.cctx k))
/-- `TMPIN` (R346): Increments a layer's pin count. -/
def execTmpin (ch : Bool) (a : Src) (st' : State) : Outcome :=
  st'.word ch (.tmpin ch a) (bodySerial fun z _ v => outOf (z.planLayer (arg v 0)) fun k => if tmPins (z.topmark z.cctx k) = 65535 then badValue else .ok [.tmPin k true])
/-- `TMUNPIN` (R346): Decrements a layer's pin count. -/
def execTmunpin (ch : Bool) (a : Src) (st' : State) : Outcome :=
  st'.word ch (.tmunpin ch a) (bodySerial fun z _ v => outOf (z.planLayer (arg v 0)) fun k => if tmPins (z.topmark z.cctx k) = 0 then badValue else .ok [.tmPin k false])

end Sys2Proof.Machine
end

