-- ==== Sys2Proof/Machine/MtxOps.lean ====
section
/-! DEFINITION. The matrix words (R255 to R274). -/
namespace Sys2Proof.Machine

/-- `mcfg`: its item and value (R273, R274). -/
def State.planMcfg (z : State) (a b : Nat) : LaneOut :=
  let o : MxOp := { idx := 8, a := BitVec.ofNat 32 a, b := BitVec.ofNat 64 b, groups := [z.cg], ctx := z.cctx }
  if !z.holds z.cc z.cg then .trap .engineNotReserved 0
  else match a with
    | 0 => if 1 < b then badValue else .ok [.mcfg o]
    | 1 => outOf (z.cmdOffset z.cc z.cg b 32 512) fun loc =>
      outOf (z.chunksOk z.cc z.cg loc.place 512) fun _ => .ok [.mcfg { o with place := loc.place }]
    | 2 => if b = 0 then .ok [.mcfg o] else badValue
    | _ => badValue
/-- A word at which a group waits: one set of its lanes at a time; lanes that come to such a word while others of their group wait at one, or
have yet to issue an accepted one again, are stalled (R261, R274; log entry 74). -/
def waiters (z : State) (rows : Rows) : Rows :=
  match z.cgroup.atJoint with
  | none => rows
  | some y => rows.filter fun r => y.accepted && y.lanes.getLsbD r.1
def bodyWaiting (f : State → LaneSet → Nat → List Nat → LaneOut) : Body := fun z rows =>
  bodyGroup f z (waiters z rows) ++ (rows.filter fun r => !(waiters z rows).any (·.1 == r.1)).map fun r => (r.1, .stall .again)
/-- A joint word, issued with its lead lane's operands (R258, R261). -/
def jointBody (idx modi : Nat) : Body := bodyWaiting fun z ls l v =>
  z.planJoint z.cc z.cg idx modi (arg v 0) (arg v 1) (z.clane l).rnd ls (z.report 0x14)

/-- `MRSV` (R255): Tries to reserve the matrix engine for the team. -/
def execMrsv (ch : Bool) (p : PDst) (st' : State) : Outcome :=
  st'.word ch (.mrsv ch p) (fun z rows => rows.zipIdx.map fun (r, k) =>
    let ok := z.mayReserve z.cc z.cg
    (r.1, .ok (.pred p.p.toNat ok :: if k = 0 && ok then [.mrsv] else [])))
/-- `MREL` (R255): Waits for matrix work and releases the engine. -/
def execMrel (ch : Bool) (st' : State) : Outcome :=
  st'.word ch (.mrel ch) (bodyOnce fun z _ _ => 
    if !z.holds z.cc z.cg then .trap .engineNotReserved 0
    else if (z.engine z.cc (z.partOf z.cc z.cg)).ops.isEmpty then .ok [.mrel] else .stall .again)
/-- `MCVN` (R260): Proposes a convening of groups. -/
def execMcvn (ch : Bool) (a : Src) (st' : State) : Outcome :=
  st'.word ch (.mcvn ch a) (bodyWaiting fun z ls _ v => z.planMcvn z.cc z.cg (arg v 0) ls (z.report 0x14))
/-- `MMA` (R268): Joint block-scaled matrix product into a tile. -/
def execMma (ch : Bool) (a : Src) (st' : State) : Outcome :=
  st'.word ch (.mma ch a) (jointBody 3 0)
/-- `MMD` (R269): Joint dual backward product into two tiles. -/
def execMmd (ch : Bool) (a : Src) (st' : State) : Outcome :=
  st'.word ch (.mmd ch a) (jointBody 4 0)
/-- `MZERO` (R271): Zeroes a run of tiles. -/
def execMzero (ch : Bool) (a : Src) (st' : State) : Outcome :=
  st'.word ch (.mzero ch a) (jointBody 5 0)
/-- `MDRAIN` (R272): Reads a tile out to mqo or scratch in a chosen format. -/
def execMdrain (ch : Bool) (a : Src) (b : Src) (f : DrainFmt) (st' : State) : Outcome :=
  st'.word ch (.mdrain ch a b f) (jointBody 6 f.code)
/-- `MLOAD` (R271): Loads a tile from scratch. -/
def execMload (ch : Bool) (a : Src) (b : Src) (st' : State) : Outcome :=
  st'.word ch (.mload ch a b) (jointBody 7 0)
/-- `MCMPLX` (R270): Joint compensated complex FP32 matrix product. -/
def execMcmplx (ch : Bool) (a : Src) (st' : State) : Outcome :=
  st'.word ch (.mcmplx ch a) (jointBody 9 0)
/-- `MCFG` (R273): Changes the matrix engine configuration item. -/
def execMcfg (ch : Bool) (a : Src) (b : Src) (st' : State) : Outcome :=
  st'.word ch (.mcfg ch a b) (bodyOnce fun z _ v => z.planMcfg (arg v 0) (arg v 1))

end Sys2Proof.Machine
end

