-- ==== Sys2Proof/Machine/Pack.lean ====
section
/-! DEFINITION. The packed integer words and the integer dot products (R115 to R117). -/
namespace Sys2Proof.Machine

/-- `PADD2` (R116): Packed add. -/
def execPadd2 (ch : Bool) (d : Dst) (a : Src) (b : Src) (e8 : Bool) (u : Bool) (s : Bool) (st' : State) : Outcome :=
  st'.word ch (.padd2 ch d a b e8 u s) (bodyEach fun _ _ v => .res d 32 (packMap e8 u s (· + ·) (arg v 0) (arg v 1)))
/-- `PSUB2` (R116): Packed subtract. -/
def execPsub2 (ch : Bool) (d : Dst) (a : Src) (b : Src) (e8 : Bool) (u : Bool) (s : Bool) (st' : State) : Outcome :=
  st'.word ch (.psub2 ch d a b e8 u s) (bodyEach fun _ _ v => .res d 32 (packMap e8 u s (· - ·) (arg v 0) (arg v 1)))
/-- `PMUL2` (R116): Packed multiply. -/
def execPmul2 (ch : Bool) (d : Dst) (a : Src) (b : Src) (e8 : Bool) (u : Bool) (s : Bool) (st' : State) : Outcome :=
  st'.word ch (.pmul2 ch d a b e8 u s) (bodyEach fun _ _ v => .res d 32 (packMap e8 u s (· * ·) (arg v 0) (arg v 1)))
/-- `PMIN2` (R116): Packed minimum. -/
def execPmin2 (ch : Bool) (d : Dst) (a : Src) (b : Src) (e8 : Bool) (u : Bool) (st' : State) : Outcome :=
  st'.word ch (.pmin2 ch d a b e8 u) (bodyEach fun _ _ v => .res d 32 (packMap e8 u false min (arg v 0) (arg v 1)))
/-- `PMAX2` (R116): Packed maximum. -/
def execPmax2 (ch : Bool) (d : Dst) (a : Src) (b : Src) (e8 : Bool) (u : Bool) (st' : State) : Outcome :=
  st'.word ch (.pmax2 ch d a b e8 u) (bodyEach fun _ _ v => .res d 32 (packMap e8 u false max (arg v 0) (arg v 1)))
/-- `PSHR2` (R116): Packed shift right. -/
def execPshr2 (ch : Bool) (d : Dst) (a : Src) (b : Src) (e8 : Bool) (u : Bool) (st' : State) : Outcome :=
  st'.word ch (.pshr2 ch d a b e8 u) (bodyEach fun _ _ v => .res d 32 (packShr e8 u (arg v 0) (arg v 1)))
/-- `PPACK` (R116): Narrows and packs two sources. -/
def execPpack (ch : Bool) (d : Dst) (a : Src) (b : Src) (e8 : Bool) (u : Bool) (s : Bool) (st' : State) : Outcome :=
  st'.word ch (.ppack ch d a b e8 u s) (bodyEach fun _ _ v => .res d 32 (packPack e8 u s (arg v 0) (arg v 1)))
/-- `PUNPK_LO` (R116): Widens the low elements. -/
def execPunpkLo (ch : Bool) (d : Dst) (a : Src) (e8 : Bool) (u : Bool) (st' : State) : Outcome :=
  st'.word ch (.punpkLo ch d a e8 u) (bodyEach fun _ _ v => .res d 32 (packUnpk e8 u false (arg v 0)))
/-- `PUNPK_HI` (R116): Widens the high elements. -/
def execPunpkHi (ch : Bool) (d : Dst) (a : Src) (e8 : Bool) (u : Bool) (st' : State) : Outcome :=
  st'.word ch (.punpkHi ch d a e8 u) (bodyEach fun _ _ v => .res d 32 (packUnpk e8 u true (arg v 0)))
/-- `PABS2` (R116): Packed absolute value. -/
def execPabs2 (ch : Bool) (d : Dst) (a : Src) (e8 : Bool) (s : Bool) (st' : State) : Outcome :=
  st'.word ch (.pabs2 ch d a e8 s) (bodyEach fun _ _ v => .res d 32 (packAbs e8 s (arg v 0)))
/-- `PMAC2` (R117): Saturating dot product of two 16-bit pairs into a 32-bit accumulator. -/
def execPmac2 (ch : Bool) (d : Dst) (a : Src) (b : Src) (g : Src) (st' : State) : Outcome :=
  st'.word ch (.pmac2 ch d a b g) (bodyEach fun _ _ v => .res d 32 (packMac false (arg v 0) (arg v 1) (arg v 2)))
/-- `PMAC4` (R117): Saturating dot product of four 8-bit pairs into a 32-bit accumulator. -/
def execPmac4 (ch : Bool) (d : Dst) (a : Src) (b : Src) (g : Src) (st' : State) : Outcome :=
  st'.word ch (.pmac4 ch d a b g) (bodyEach fun _ _ v => .res d 32 (packMac true (arg v 0) (arg v 1) (arg v 2)))

end Sys2Proof.Machine
end

