-- ==== Sys2Proof/Machine/Stores.lean ====
section
/-! DEFINITION. The stores (R126, R129, R131, R355). -/
namespace Sys2Proof.Machine

/-- A store of each lane: checks, then its access (R123, R126); a release also waits for the lane's engine work (R129). -/
def storeBody (scr : Bool) (size : Nat) (rel : Bool) (off : BitVec 10) : Body := bodyEach fun z l v =>
  outOf (z.planAccess z.cc z.cg .store scr size (arg v 0) 10 off.toNat) fun (loc, _) =>
    outOf (z.planWindow z.cc z.cg loc size) fun _ =>
      if rel && !z.releaseReady z.cc z.cg l then .stall .again
      else .ok (z.touches z.cc z.cg (!rel) [loc] ++ (if rel then [.sync] else []) ++ [.store loc (toBytesLE size (arg v 1)) rel])
/-- A block store: each quarter at its leader's address, with the slots of V's shadow (R131). -/
def storeBlkBody (i : Instr) (scr : Bool) (c : Src) (f : EFmt) (off : BitVec 7) : Body := bodyEach fun z l v =>
  outOf (z.leadAddr i 0 l) fun a => outOf (z.planBlock z.cc z.cg .store scr f a off.toNat) fun (locs, ea) =>
    outOf (z.planWindowBlk z.cc z.cg (quarterOf l) f locs ea) fun _ =>
      .ok (z.touches z.cc z.cg true (blkOwn f locs l) ++ [.storeBlk f locs (BitVec.ofNat 32 (arg v 1)) (z.srcShadow l c)])

/-- `ST_B8` (R126): Global byte store. -/
def execStB8 (ch : Bool) (v : Src) (a : Src) (off : BitVec 10) (st' : State) : Outcome :=
  st'.word ch (.stB8 ch v a off) (storeBody false 1 false off)
/-- `ST_B16` (R126): Global halfword store. -/
def execStB16 (ch : Bool) (v : Src) (a : Src) (off : BitVec 10) (st' : State) : Outcome :=
  st'.word ch (.stB16 ch v a off) (storeBody false 2 false off)
/-- `ST_B32` (R126): Global word store. -/
def execStB32 (ch : Bool) (v : Src) (a : Src) (off : BitVec 10) (st' : State) : Outcome :=
  st'.word ch (.stB32 ch v a off) (storeBody false 4 false off)
/-- `ST_B64` (R126): Global 64-bit store. -/
def execStB64 (ch : Bool) (v : Src) (a : Src) (off : BitVec 10) (st' : State) : Outcome :=
  st'.word ch (.stB64 ch v a off) (storeBody false 8 false off)
/-- `ST_B128` (R126): Global 128-bit store. -/
def execStB128 (ch : Bool) (v : Src) (a : Src) (off : BitVec 10) (st' : State) : Outcome :=
  st'.word ch (.stB128 ch v a off) (storeBody false 16 false off)
/-- `STREL_B32` (R129): Global word store with release. -/
def execStrelB32 (ch : Bool) (v : Src) (a : Src) (off : BitVec 10) (st' : State) : Outcome :=
  st'.word ch (.strelB32 ch v a off) (storeBody false 4 true off)
/-- `STREL_B64` (R129): Global 64-bit store with release. -/
def execStrelB64 (ch : Bool) (v : Src) (a : Src) (off : BitVec 10) (st' : State) : Outcome :=
  st'.word ch (.strelB64 ch v a off) (storeBody false 8 true off)
/-- `STS_B8` (R126): Scratch byte store. -/
def execStsB8 (ch : Bool) (v : Src) (a : Src) (off : BitVec 10) (st' : State) : Outcome :=
  st'.word ch (.stsB8 ch v a off) (storeBody true 1 false off)
/-- `STS_B32` (R126): Scratch word store. -/
def execStsB32 (ch : Bool) (v : Src) (a : Src) (off : BitVec 10) (st' : State) : Outcome :=
  st'.word ch (.stsB32 ch v a off) (storeBody true 4 false off)
/-- `STS_B64` (R126): Scratch 64-bit store. -/
def execStsB64 (ch : Bool) (v : Src) (a : Src) (off : BitVec 10) (st' : State) : Outcome :=
  st'.word ch (.stsB64 ch v a off) (storeBody true 8 false off)
/-- `STS_B128` (R126): Scratch 128-bit store. -/
def execStsB128 (ch : Bool) (v : Src) (a : Src) (off : BitVec 10) (st' : State) : Outcome :=
  st'.word ch (.stsB128 ch v a off) (storeBody true 16 false off)
/-- `STB` (R131): Global block store writing sideband scales. -/
def execStb (ch : Bool) (v : Src) (a : Src) (f : EFmt) (off : BitVec 7) (st' : State) : Outcome :=
  st'.word ch (.stb ch v a f off) (storeBlkBody (.stb ch v a f off) false v f off)
/-- `STBS` (R131): Scratch block store writing sideband scales. -/
def execStbs (ch : Bool) (v : Src) (a : Src) (f : EFmt) (off : BitVec 7) (st' : State) : Outcome :=
  st'.word ch (.stbs ch v a f off) (storeBlkBody (.stbs ch v a f off) true v f off)

end Sys2Proof.Machine
end

