-- ==== Sys2Proof/Machine/Sync.lean ====
section
/-! DEFINITION. Barriers, moorings, fences and `wait` (R177 to R192). -/
namespace Sys2Proof.Machine

/-- The address check of a mooring operation (R122, R123, R182). -/
def State.planMoor (z : State) (scr : Bool) (a : Nat) : Except LaneOut Loc :=
  if scr then z.checkScratch z.cc z.cg (a % 2 ^ 32) 16 16 else z.checkGlobal z.cc z.cg .objRW a 16
/-- The address a mooring fault reports. -/
def moorAddr (scr : Bool) (a : Nat) : DWord := BitVec.ofNat 64 (if scr then a % 2 ^ 32 else a)
/-- `minit`, `marrive` and `mexpect`: the operation is posted, and its misuse raised while the mooring shows it (R183, R186). -/
def State.postMoor (z : State) (kind : Nat) (d : Dst) (scr : Bool) (a b : Nat) : LaneOut :=
  outOf (z.planMoor scr a) fun loc =>
    let m := loc.moor (moorAddr scr a) 0 0
    match (z.mooringAhead m).op kind b with
    | none => .trap .mooringMisuse (moorAddr scr a)
    | some _ => .ok [.object m.loc 0 true, .sync, .moor kind d m (BitVec.ofNat 32 b)]
/-- Whether the acquire of a wait or test is wider than the team (R187, R208). -/
def moorWide (scr : Bool) (a : Nat) : Bool := !scr || bitAt a 28
/-- `mwait` and `mtest`: whether the phase has turned, once the lane's own posted operations on the mooring are done (R185, R186). -/
def State.turned (z : State) (l : Nat) (scr : Bool) (a b : Nat) : Except LaneOut (Bool × Retire) := do
  let loc ← z.planMoor scr a
  let m := loc.moor (moorAddr scr a) 0 0
  if z.posted.any fun p => p.2.core == z.cc && p.2.grp == z.cg && p.2.lane == l && p.2.moor.id == m.id then .error (.stall .again)
  if !(z.mooring m).val then .error (.trap .mooringMisuse (moorAddr scr a))
  .ok ((z.mooring m).phase != bitAt b 0, m)
/-- A counter is at or below its field; a field of all ones places no limit (R47, R188). -/
def under (n field all : Nat) : Bool := field == all || decide (n ≤ field)
/-- Scopes whose fence drops the L1 data cache (R208). -/
def wideScope : Scope → Bool
  | .grp | .team => false
  | _ => true

/-- `BAR` (R179): Stalls the lane at a team or cluster barrier. -/
def execBar (ch : Bool) (clu : Bool) (st' : State) : Outcome :=
  st'.word ch (.bar ch clu) (bodyEach fun _ _ _ => .ok [.sync, .bar clu])
/-- `MINIT` (R183): Posts an initialisation of a mooring. -/
def execMinit (ch : Bool) (a : Src) (b : Src) (scr : Bool) (st' : State) : Outcome :=
  st'.word ch (.minit ch a b scr) (bodySerial fun z _ v => z.postMoor 0 .drop scr (arg v 0) (arg v 1))
/-- `MARRIVE` (R183): Posts an arrival with units on a mooring and reserves the phase token. -/
def execMarrive (ch : Bool) (d : Dst) (a : Src) (b : Src) (scr : Bool) (st' : State) : Outcome :=
  st'.word ch (.marrive ch d a b scr) (bodySerial fun z _ v => z.postMoor 1 d scr (arg v 0) (arg v 1))
/-- `MEXPECT` (R183): Posts added units to a mooring. -/
def execMexpect (ch : Bool) (a : Src) (b : Src) (scr : Bool) (st' : State) : Outcome :=
  st'.word ch (.mexpect ch a b scr) (bodySerial fun z _ v => z.postMoor 2 .drop scr (arg v 0) (arg v 1))
/-- `MWAIT` (R185): Waits until a mooring's phase differs from the token. -/
def execMwait (ch : Bool) (a : Src) (b : Src) (scr : Bool) (st' : State) : Outcome :=
  st'.word ch (.mwait ch a b scr) (bodyEach fun z l v => outOf (z.turned l scr (arg v 0) (arg v 1)) fun (t, m) => .ok [.object m.loc 0 (!t), .sync, if t then .acquire (moorWide scr (arg v 0)) else .mwait m (bitAt (arg v 1) 0) (moorWide scr (arg v 0))])
/-- `MTEST` (R185): Tests whether a mooring's phase has turned. -/
def execMtest (ch : Bool) (p : PDst) (a : Src) (b : Src) (scr : Bool) (st' : State) : Outcome :=
  st'.word ch (.mtest ch p a b scr) (bodyEach fun z l v => outOf (z.turned l scr (arg v 0) (arg v 1)) fun (t, m) => .ok [.object m.loc 0 false, .sync, .acquire (t && moorWide scr (arg v 0)), .pred p.p.toNat t])
/-- `FENCE` (R189): Starts a fence at a scope and makes the group speculative. -/
def execFence (ch : Bool) (scope : Scope) (st' : State) : Outcome :=
  st'.word ch (.fence ch scope) (bodyEach fun _ _ _ => .ok [.sync, .fence scope 1 (wideScope scope)])
/-- `XFENCE` (R192): Cross-path-class fence. -/
def execXfence (ch : Bool) (x : BitVec 6) (y : BitVec 6) (scope : Scope) (st' : State) : Outcome :=
  st'.word ch (.xfence ch x y scope) (bodyEach fun _ _ _ => .ok [.sync, .fence scope x.toNat (wideScope scope || bitAt y.toNat 0)])
/-- `WAIT` (R188): Stalls until the group's counters fall to the given limits. -/
def execWait (ch : Bool) (ld : BitVec 4) (st : BitVec 4) (cp : BitVec 3) (tl : BitVec 3) (st' : State) : Outcome :=
  st'.word ch (.wait ch ld st cp tl) (bodyEach fun z _ _ => 
    let g := z.cgroup
    if under g.ld ld.toNat 15 && under g.st st.toNat 15 && under g.cp cp.toNat 7 && under g.tl tl.toNat 7 then .ok [.sync, .acquire true] else .stall .again)

end Sys2Proof.Machine
end

