-- ==== Sys2Proof/Machine/TendOps.lean ====
section
/-! DEFINITION. The tender and gradient-log words (R235 to R254, R284 to R287). -/
namespace Sys2Proof.Machine

/-- `seal`: its mooring action (R239). -/
def State.planSeal (z : State) (a b : Nat) : LaneOut :=
  if 3 ≤ b then badValue
  else
    let act : Except LaneOut Retire :=
      if b = 0 then .ok {}
      else do
        let loc ← z.cmdOffset z.cc z.cg a 16 16
        z.chunksOk z.cc z.cg loc.place 16
        .ok (loc.moor (BitVec.ofNat 64 a) b 0)
    outOf act fun r => if 7 ≤ z.cgroup.batches.length then .stall .again else .ok [.seal r]
/-- An eighth operation on the tl counter stalls at issue (R247). -/
def State.tlRoom (z : State) (es : List Eff) : LaneOut := if 7 ≤ z.cgroup.tlOps.length then .stall .again else .ok es

/-- The class-L loads with which the issuing lane reads `n` bytes of scratch that a command names (R198, R236). -/
def State.scrReads (z : State) (a n : Nat) : List Eff :=
  match z.cmdOffset z.cc z.cg (a % 2 ^ 32) 1 n with
  | .ok l => z.objReads z.cc z.cg l n
  | .error _ => []
/-- The class-L loads of a gather's index list (R252). -/
def State.indexReads (z : State) (o : TlOp) : List Eff := let d := ofBytesLE o.desc; z.scrReads (bits d 159 128) (4 * bits d 237 232)
/-- The class-L load of a log descriptor, whose marks also cover the update of PUT (R221, R285). -/
def State.logReads (z : State) (pa key a : Nat) (write : Bool) : List Eff :=
  let l : Loc := .dev pa key (BitVec.ofNat 64 a) 0
  z.objReads z.cc z.cg l 64 ++ (if write then [.object l 0 true] else [])

/-- `CPY` (R238): Adds a per-lane global-to-scratch copy to the open batch. -/
def execCpy (ch : Bool) (a : Src) (b : Src) (size : BitVec 2) (st' : State) : Outcome :=
  st'.word ch (.cpy ch a b size) (bodyEach fun z _ v => outOf (z.planCpy z.cc z.cg (4 <<< size.toNat) (arg v 0) (arg v 1)) fun x =>
    .ok [.object (.dev x.src x.key (BitVec.ofNat 64 (arg v 1)) 0) 0 false, .cpy x])
/-- `SEAL` (R239): Closes the open copy batch with a mooring action. -/
def execSeal (ch : Bool) (a : Src) (b : Src) (st' : State) : Outcome :=
  st'.word ch (.seal ch a b) (bodyOnce fun z _ v => z.planSeal (arg v 0) (arg v 1))
/-- `TILE` (R245): Issues a tender tile conversion described by a descriptor. -/
def execTile (ch : Bool) (a : Src) (b : Src) (st' : State) : Outcome :=
  st'.word ch (.tile ch a b) (bodyOnce fun z l v => outOf (z.planTile z.cc z.cg (z.clane l).rnd (arg v 0) (arg v 1)) fun o =>
    z.tlRoom (z.scrReads (arg v 0) 32 ++ [.tend o]))
/-- `RELAY` (R250): Issues a hop-by-hop copy along cluster members. -/
def execRelay (ch : Bool) (a : Src) (b : Src) (st' : State) : Outcome :=
  st'.word ch (.relay ch a b) (bodyOnce fun z _ v => outOf (z.planRelay z.cc z.cg (arg v 0) (arg v 1)) fun o =>
    z.tlRoom (z.scrReads (arg v 0) 16 ++ [.tend o]))
/-- `GATH` (R252): Issues an indexed row gather. -/
def execGath (ch : Bool) (a : Src) (st' : State) : Outcome :=
  st'.word ch (.gath ch a) (bodyOnce fun z _ v => outOf (z.planGath z.cc z.cg (arg v 0)) fun o =>
    z.tlRoom (z.scrReads (arg v 0) 32 ++ z.indexReads o ++ [.tend o]))
/-- `GLAPP` (R286): Appends a tile to a gradient log. -/
def execGlapp (ch : Bool) (a : Src) (b : Src) (st' : State) : Outcome :=
  st'.word ch (.glapp ch a b) (bodyOnce fun z _ v => outOf (z.planGlapp z.cc z.cg (arg v 0) (arg v 1)) fun o =>
    .ok (z.logReads o.log o.logKey (arg v 0) true ++ [.glapp o]))
/-- `GLFOLD` (R287): Requests folding of named weight tiles with a mooring. -/
def execGlfold (ch : Bool) (a : Src) (b : Src) (st' : State) : Outcome :=
  st'.word ch (.glfold ch a b) (bodyOnce fun z _ v => outOf (z.planGlfold z.cc z.cg (arg v 0) (arg v 1)) fun x =>
    .ok (z.logReads x.log x.key (arg v 0) false ++ [.glfold x]))

end Sys2Proof.Machine
end

