-- ==== Sys2Proof/Machine/WinOps.lean ====
section
/-! DEFINITION. The window and Beacon words (R362, R363, R367, R368). -/
namespace Sys2Proof.Machine

/-- The state of a batch slot. -/
def State.slotSt (z : State) (t : Nat) : Nat := (z.cgroup.bslot t).st
/-- `wclose` at issue: the close record, and the number of targets (R362, R363). -/
def State.planWclose (z : State) (a b : Nat) : Except LaneOut (Retire × Nat) := do
  if 4 ≤ b then .error badValue
  let loc ← z.checkGlobal z.cc z.cg .objRW a 32
  if z.slotSt b = 2 then .error (.stall .again)
  .ok (loc.moor (BitVec.ofNat 64 a) 0 0, if z.slotSt b = 1 then (((z.cgroup.bslot b).touched.map (·.1)).eraseDups).length else 0)
/-- `wclose`: once for the group, and the count in every executing lane (R363). -/
def wcloseBody (d : Dst) : Body := fun z rows =>
  match rows with
  | [] => []
  | (_, v) :: _ => match z.planWclose (arg v 0) (arg v 1) with
    | .error o => rows.map fun r => (r.1, o)
    | .ok (rec_, n) => rows.zipIdx.map fun (r, k) =>
      (r.1, .ok ((if k = 0 then [.wclose (arg v 1) rec_] else []) ++ [.result d 32 (BitVec.ofNat 128 n) none]))
/-- `wfence` in a lane: it begins, waits, or is over (R363). -/
def State.planWfence (z : State) (l : Nat) : LaneOut :=
  match (z.clane l).ticket with
  | none => .wfence
  | some t => if z.fenced z.cgroup.team z.cgroup.idx t then .ok [.sync, .wfenceEnd] else .stall .again
/-- The sectors of an operation block that a lane reads (R368). -/
def State.blockTouches (z : State) (b : Nat) : List Eff :=
  match z.checkScratch z.cc z.cg (b % 2 ^ 32) 32 128 with
  | .ok loc => z.touches z.cc z.cg false ((List.range 4).map fun i => loc.plus (32 * i))
  | .error _ => []
def beaconBody (k : BKind) : Body := bodyEach fun z _ v =>
  outOf (z.planBeacon z.cc z.cg k (arg v 0) (arg v 1)) fun (o, tgt) =>
    .ok (z.blockTouches (arg v 1) ++ [.object (.dev o.addr 0 (BitVec.ofNat 64 (arg v 0)) 5) 0 (k != .bchase), .beacon o tgt 0])

/-- `WTAG` (R363): Makes a batch tag current. -/
def execWtag (ch : Bool) (a : Src) (st' : State) : Outcome :=
  st'.word ch (.wtag ch a) (bodyOnce fun z _ v => 
    if 4 ≤ (arg v 0) then badValue
    else if z.slotSt (arg v 0) = 2 then .stall .again else .ok [.wtag (arg v 0)])
/-- `WCLOSE` (R363): Closes a batch slot, sending close markers. -/
def execWclose (ch : Bool) (d : Dst) (a : Src) (b : Src) (st' : State) : Outcome :=
  st'.word ch (.wclose ch d a b) (wcloseBody d)
/-- `WFENCE` (R363): Reflection-complete fence. -/
def execWfence (ch : Bool) (st' : State) : Outcome :=
  st'.word ch (.wfence ch) (bodyEach fun z l _ => z.planWfence l)
/-- `BCAS` (R369): Sends a remote compare-and-swap to a Beacon. -/
def execBcas (ch : Bool) (a : Src) (b : Src) (st' : State) : Outcome :=
  st'.word ch (.bcas ch a b) (beaconBody .bcas)
/-- `BENQ` (R369): Sends a remote ring enqueue to a Beacon. -/
def execBenq (ch : Bool) (a : Src) (b : Src) (st' : State) : Outcome :=
  st'.word ch (.benq ch a b) (beaconBody .benq)
/-- `BCHASE` (R369): Sends a remote pointer chase to a Beacon. -/
def execBchase (ch : Bool) (a : Src) (b : Src) (st' : State) : Outcome :=
  st'.word ch (.bchase ch a b) (beaconBody .bchase)
/-- `BRED` (R369): Sends a remote reduction to a Beacon. -/
def execBred (ch : Bool) (a : Src) (b : Src) (st' : State) : Outcome :=
  st'.word ch (.bred ch a b) (beaconBody .bred)

end Sys2Proof.Machine
end

