-- ==== Sys2Proof/Machine/WorkOps.lean ====
section
/-! DEFINITION. The work-creation words (R306 to R313). -/
namespace Sys2Proof.Machine

/-- The effects of a word that reads its object, then acts as a `fence.dev` before its write (R307, R313). -/
def fenced1 (reads : List Eff) (e : Eff) : LaneOut := .ok (reads ++ [.sync, .acquire true, e])
/-- The location a lane loads from an address that translates. -/
def State.laneLoc (z : State) (a : Nat) : Loc :=
  match z.xlat (some z.cc) z.cctx .load a with
  | .ok pa key apt _ _ _ _ => .dev pa key (BitVec.ofNat 64 a) apt
  | _ => .dev 0 0 (BitVec.ofNat 64 a) 0
/-- An object within a page that a lane reads by class-L loads, as a number; a poisoned one raises UNCORRECTABLE (R133, R307). -/
def State.laneGet (z : State) (a n : Nat) : Except LaneOut Nat :=
  let (bs, bad) := z.loadBytes z.cc (z.cachedNow z.cc z.cg) (z.laneLoc a) n
  if bad then .error (.trap .uncorrectable (BitVec.ofNat 64 a)) else .ok (ofBytesLE bs)
/-- Those loads (R198, R207, R221). -/
def State.laneReads (z : State) (a n : Nat) : List Eff := z.objReads z.cc z.cg (z.laneLoc a) n
/-- The loads of a declared-input list, its end among them. -/
def State.listReads (z : State) (r : Nat) : List Eff :=
  if recInputs r = 0 then []
  else (List.range (((z.inputsOf z.cctx r).getD []).length + 1)).flatMap fun i => z.laneReads ((recInputs r + 16 * i) % 2 ^ 64) 16
/-- A range a lane reads translates, or how the lane ends. -/
def State.laneRange (z : State) (n : Need) (a len : Nat) : Except LaneOut Unit :=
  match z.rangeFault (some z.cc) z.cctx n a len with
  | none => .ok ()
  | some (.arriving k, _) => .error (.parkLayer k)
  | some (.fault c, va) => .error (.park c (BitVec.ofNat 64 va))
  | some (.ok .., _) => .ok ()
/-- A declared-input list a lane reads (R294, R307). -/
def State.laneInputs (z : State) (r : Nat) : Except LaneOut Unit :=
  if recInputs r = 0 then .ok ()
  else if recInputs r % 16 ≠ 0 then .error badValue
  else match z.inputsFault z.cctx 65 (recInputs r) with
    | some (.arriving k, _) => .error (.parkLayer k)
    | some (.fault c, a) => .error (.park c (BitVec.ofNat 64 a))
    | _ => if (z.inputsOf z.cctx r).isSome then .ok () else .error badValue
/-- A node descriptor a lane reads, with its record and inputs; the record is 32-byte aligned, on a page of aperture 0, 1 or 2 (R293,
R307, R310).  The answer is the loads. -/
def State.laneNode (z : State) (a : Nat) : Except LaneOut (List Eff) := do
  z.laneRange .objRW a 64
  let n ← z.laneGet a 64
  let p := bits n 63 0
  if p % 32 ≠ 0 then .error badValue
  z.laneRange .load p 32
  if (match z.laneLoc p with | .dev _ _ _ apt => decide (2 < apt) | .scr .. => false) then .error badValue
  let r ← z.laneGet p 32
  if !nodeLegal n r then .error badValue
  z.laneInputs r
  .ok (z.laneReads a 64 ++ [.object (z.laneLoc a) 0 true] ++ z.laneReads p 32 ++ z.listReads r)
/-- `emit` (R307, R311). -/
def State.planEmit (z : State) (a b : Nat) : LaneOut :=
  outOf (z.checkGlobal z.cc z.cg .objRW a 64) fun loc => outOf (z.laneGet a 64) fun d =>
    if !bitAt d 255 then badValue
    else outOf (z.laneNode a) fun reads =>
      match z.nodeAtPa loc.place.2 with
      | none => badValue
      | some k =>
        if (z.node k).st ≠ 1 then badValue
        else if z.nodeRoom k then fenced1 reads (.emit k (BitVec.ofNat 64 b)) else .stall .again
/-- Whether an object at a location is free, as its home unit holds it when the Lantern asks (R295, R308). -/
def State.objFree (z : State) (loc : Loc) (node : Bool) : Bool :=
  !bitAt (ofBytesLE (z.locRead (loc.plus 24) 8).1) 62 && (!node || bits (ofBytesLE (z.locRead (loc.plus 44) 4).1) 1 0 == 0)
/-- `spawn` (R307, R308); of several lanes that name one object the lowest registers it (`WordOut.claim`). -/
def State.planSpawn (z : State) (a b : Nat) : LaneOut :=
  if a % 32 ≠ 0 then .trap .misaligned (BitVec.ofNat 64 a)
  else if b % 16 ≠ 0 then .trap .misaligned (BitVec.ofNat 64 b)
  else outOf (z.checkGlobal z.cc z.cg .objRW a 32) fun loc => outOf (z.laneGet a 32) fun r =>
    let go (reads : List Eff) : LaneOut :=
      if !z.objFree loc (bitAt r 255) then badValue
      else if 4096 ≤ z.workTable then .stall .again
      else fenced1 reads (.spawn (BitVec.ofNat 64 a) (BitVec.ofNat 64 b) loc.place.2)
    if bitAt r 255 then
      (if a % 64 ≠ 0 || b ≠ 0 then badValue
      else outOf (z.laneNode a) fun reads => go reads)
    else if b = 0 || !recLegal r then badValue
    else outOf (z.laneInputs r) fun _ => go (z.laneReads a 32 ++ [.object (z.laneLoc a) 0 true] ++ z.listReads r)
/-- `jdec` (R307, R309). -/
def State.planJdec (z : State) (a : Nat) : LaneOut :=
  outOf (z.checkGlobal z.cc z.cg .objRW a 32) fun loc =>
    match loc with
    | .dev pa key _ _ => fenced1 [.object loc 0 true] (.jdec ⟨z.cc, z.cg, z.cteam.idx, pa + 24, key, BitVec.ofNat 64 a, z.cctx, z.cg⟩)
    | .scr .. => badValue

/-- `EMIT` (R311): Appends a record to a graph node's ring. -/
def execEmit (ch : Bool) (a : Src) (b : Src) (st' : State) : Outcome :=
  st'.word ch (.emit ch a b) (bodySerial fun z _ v => z.planEmit (arg v 0) (arg v 1))
/-- `SPAWN` (R308): Registers a task record or node as a child. -/
def execSpawn (ch : Bool) (a : Src) (b : Src) (st' : State) : Outcome :=
  st'.word ch (.spawn ch a b) (bodyEach fun z _ v => z.planSpawn (arg v 0) (arg v 1))
/-- `JDEC` (R309): Posts a decrement of a join or producer counter. -/
def execJdec (ch : Bool) (a : Src) (st' : State) : Outcome :=
  st'.word ch (.jdec ch a) (bodySerial fun z _ v => z.planJdec (arg v 0))

end Sys2Proof.Machine
end

