-- ==== Sys2Proof/Machine/Dispatch.lean ====
section
/-! DEFINITION. The dispatch: one arm for each constructor of `Instr`, each a call of its meaning. -/
namespace Sys2Proof.Machine

def exec (i : Instr) (s : State) : Host.Outcome State Fault Refusal :=
  match i with
  | .nop ch => Sys2Proof.Machine.execNop ch s
  | .exit ch => Sys2Proof.Machine.execExit ch s
  | .trap ch code => Sys2Proof.Machine.execTrap ch code s
  | .brk ch => Sys2Proof.Machine.execBrk ch s
  | .rdsr ch d sr => Sys2Proof.Machine.execRdsr ch d sr s
  | .wrsr ch sr a => Sys2Proof.Machine.execWrsr ch sr a s
  | .sleep ch a => Sys2Proof.Machine.execSleep ch a s
  | .yield ch => Sys2Proof.Machine.execYield ch s
  | .prio ch k => Sys2Proof.Machine.execPrio ch k s
  | .rfe ch => Sys2Proof.Machine.execRfe ch s
  | .kreq ch d a b => Sys2Proof.Machine.execKreq ch d a b s
  | .iadd ch d a b w u s1 => Sys2Proof.Machine.execIadd ch d a b w u s1 s
  | .isub ch d a b w u s1 => Sys2Proof.Machine.execIsub ch d a b w u s1 s
  | .imul ch d a b w => Sys2Proof.Machine.execImul ch d a b w s
  | .imulh ch d a b w u => Sys2Proof.Machine.execImulh ch d a b w u s
  | .idiv ch d a b w u => Sys2Proof.Machine.execIdiv ch d a b w u s
  | .irem ch d a b w u => Sys2Proof.Machine.execIrem ch d a b w u s
  | .imin ch d a b w u => Sys2Proof.Machine.execImin ch d a b w u s
  | .imax ch d a b w u => Sys2Proof.Machine.execImax ch d a b w u s
  | .iabs ch d a w => Sys2Proof.Machine.execIabs ch d a w s
  | .ineg ch d a w => Sys2Proof.Machine.execIneg ch d a w s
  | .and ch d a b w => Sys2Proof.Machine.execAnd ch d a b w s
  | .or ch d a b w => Sys2Proof.Machine.execOr ch d a b w s
  | .xor ch d a b w => Sys2Proof.Machine.execXor ch d a b w s
  | .andn ch d a b w => Sys2Proof.Machine.execAndn ch d a b w s
  | .not ch d a w => Sys2Proof.Machine.execNot ch d a w s
  | .shl ch d a b w => Sys2Proof.Machine.execShl ch d a b w s
  | .shr ch d a b w => Sys2Proof.Machine.execShr ch d a b w s
  | .sar ch d a b w => Sys2Proof.Machine.execSar ch d a b w s
  | .rol ch d a b w => Sys2Proof.Machine.execRol ch d a b w s
  | .ror ch d a b w => Sys2Proof.Machine.execRor ch d a b w s
  | .clz ch d a w => Sys2Proof.Machine.execClz ch d a w s
  | .ctz ch d a w => Sys2Proof.Machine.execCtz ch d a w s
  | .popc ch d a w => Sys2Proof.Machine.execPopc ch d a w s
  | .brev ch d a w => Sys2Proof.Machine.execBrev ch d a w s
  | .bswap ch d a w => Sys2Proof.Machine.execBswap ch d a w s
  | .bfe ch d a b w u => Sys2Proof.Machine.execBfe ch d a b w u s
  | .lea ch d a b w => Sys2Proof.Machine.execLea ch d a b w s
  | .mov ch d a w => Sys2Proof.Machine.execMov ch d a w s
  | .shrr ch d a b w u => Sys2Proof.Machine.execShrr ch d a b w u s
  | .sel ch d a b w => Sys2Proof.Machine.execSel ch d a b w s
  | .iaddi ch d a imm => Sys2Proof.Machine.execIaddi ch d a imm s
  | .andi ch d a imm => Sys2Proof.Machine.execAndi ch d a imm s
  | .ori ch d a imm => Sys2Proof.Machine.execOri ch d a imm s
  | .xori ch d a imm => Sys2Proof.Machine.execXori ch d a imm s
  | .shli ch d a h w k => Sys2Proof.Machine.execShli ch d a h w k s
  | .shri ch d a h w k => Sys2Proof.Machine.execShri ch d a h w k s
  | .sari ch d a h w k => Sys2Proof.Machine.execSari ch d a h w k s
  | .movi ch d imm => Sys2Proof.Machine.execMovi ch d imm s
  | .icmpS ch p a b cond => Sys2Proof.Machine.execIcmpS ch p a b cond s
  | .icmpU ch p a b cond => Sys2Proof.Machine.execIcmpU ch p a b cond s
  | .icmpSW ch p a b cond => Sys2Proof.Machine.execIcmpSW ch p a b cond s
  | .icmpUW ch p a b cond => Sys2Proof.Machine.execIcmpUW ch p a b cond s
  | .fcmpF32 ch p a b cond => Sys2Proof.Machine.execFcmpF32 ch p a b cond s
  | .fcmpF16 ch p a b cond => Sys2Proof.Machine.execFcmpF16 ch p a b cond s
  | .fclass ch p a b t => Sys2Proof.Machine.execFclass ch p a b t s
  | .plog ch p x y op => Sys2Proof.Machine.execPlog ch p x y op s
  | .setp ch p a => Sys2Proof.Machine.execSetp ch p a s
  | .bra ch neg p off => Sys2Proof.Machine.execBra ch neg p off s
  | .braEnrol ch neg p j off => Sys2Proof.Machine.execBraEnrol ch neg p j off s
  | .strike ch neg p j off => Sys2Proof.Machine.execStrike ch neg p j off s
  | .call ch neg p off => Sys2Proof.Machine.execCall ch neg p off s
  | .brx ch a => Sys2Proof.Machine.execBrx ch a s
  | .join ch j => Sys2Proof.Machine.execJoin ch j s
  | .guard x => Sys2Proof.Machine.execGuard x s
  | .rjset ch j b => Sys2Proof.Machine.execRjset ch j b s
  | .rjget ch d j => Sys2Proof.Machine.execRjget ch d j s
  | .fadd ch d a b t => Sys2Proof.Machine.execFadd ch d a b t s
  | .fsub ch d a b t => Sys2Proof.Machine.execFsub ch d a b t s
  | .fmul ch d a b t => Sys2Proof.Machine.execFmul ch d a b t s
  | .fmin ch d a b t => Sys2Proof.Machine.execFmin ch d a b t s
  | .fmax ch d a b t => Sys2Proof.Machine.execFmax ch d a b t s
  | .fminm ch d a b t => Sys2Proof.Machine.execFminm ch d a b t s
  | .fmaxm ch d a b t => Sys2Proof.Machine.execFmaxm ch d a b t s
  | .fabs ch d a t => Sys2Proof.Machine.execFabs ch d a t s
  | .fneg ch d a t => Sys2Proof.Machine.execFneg ch d a t s
  | .fcopysign ch d a b t => Sys2Proof.Machine.execFcopysign ch d a b t s
  | .fround ch d a r t => Sys2Proof.Machine.execFround ch d a r t s
  | .twosum ch d a b => Sys2Proof.Machine.execTwosum ch d a b s
  | .ffmaF32 ch d a b g => Sys2Proof.Machine.execFfmaF32 ch d a b g s
  | .ffmaF16x2 ch d a b g => Sys2Proof.Machine.execFfmaF16x2 ch d a b g s
  | .ffmaBf16x2 ch d a b g => Sys2Proof.Machine.execFfmaBf16x2 ch d a b g s
  | .ffnmaF32 ch d a b g => Sys2Proof.Machine.execFfnmaF32 ch d a b g s
  | .ffnmaF16x2 ch d a b g => Sys2Proof.Machine.execFfnmaF16x2 ch d a b g s
  | .ffnmaBf16x2 ch d a b g => Sys2Proof.Machine.execFfnmaBf16x2 ch d a b g s
  | .frcp ch d a half => Sys2Proof.Machine.execFrcp ch d a half s
  | .frsq ch d a half => Sys2Proof.Machine.execFrsq ch d a half s
  | .fsqrt ch d a half => Sys2Proof.Machine.execFsqrt ch d a half s
  | .fexp2 ch d a half => Sys2Proof.Machine.execFexp2 ch d a half s
  | .flog2 ch d a half => Sys2Proof.Machine.execFlog2 ch d a half s
  | .fsin ch d a half => Sys2Proof.Machine.execFsin ch d a half s
  | .fcos ch d a half => Sys2Proof.Machine.execFcos ch d a half s
  | .ftanh ch d a half => Sys2Proof.Machine.execFtanh ch d a half s
  | .fsigm ch d a half => Sys2Proof.Machine.execFsigm ch d a half s
  | .fdiv ch d a b half => Sys2Proof.Machine.execFdiv ch d a b half s
  | .cvtF ch d a pair r => Sys2Proof.Machine.execCvtF ch d a pair r s
  | .cvtIf ch d a pair r => Sys2Proof.Machine.execCvtIf ch d a pair r s
  | .cvtFi ch d a pair r => Sys2Proof.Machine.execCvtFi ch d a pair r s
  | .qnt ch d a pair r => Sys2Proof.Machine.execQnt ch d a pair r s
  | .dqnt ch d a pair r => Sys2Proof.Machine.execDqnt ch d a pair r s
  | .fldexp ch d a pair r => Sys2Proof.Machine.execFldexp ch d a pair r s
  | .fexpo ch d a pair r => Sys2Proof.Machine.execFexpo ch d a pair r s
  | .srnd ch d a pair r => Sys2Proof.Machine.execSrnd ch d a pair r s
  | .padd2 ch d a b e8 u s1 => Sys2Proof.Machine.execPadd2 ch d a b e8 u s1 s
  | .psub2 ch d a b e8 u s1 => Sys2Proof.Machine.execPsub2 ch d a b e8 u s1 s
  | .pmul2 ch d a b e8 u s1 => Sys2Proof.Machine.execPmul2 ch d a b e8 u s1 s
  | .pmin2 ch d a b e8 u => Sys2Proof.Machine.execPmin2 ch d a b e8 u s
  | .pmax2 ch d a b e8 u => Sys2Proof.Machine.execPmax2 ch d a b e8 u s
  | .pshr2 ch d a b e8 u => Sys2Proof.Machine.execPshr2 ch d a b e8 u s
  | .ppack ch d a b e8 u s1 => Sys2Proof.Machine.execPpack ch d a b e8 u s1 s
  | .punpkLo ch d a e8 u => Sys2Proof.Machine.execPunpkLo ch d a e8 u s
  | .punpkHi ch d a e8 u => Sys2Proof.Machine.execPunpkHi ch d a e8 u s
  | .pabs2 ch d a e8 s1 => Sys2Proof.Machine.execPabs2 ch d a e8 s1 s
  | .pmac2 ch d a b g => Sys2Proof.Machine.execPmac2 ch d a b g s
  | .pmac4 ch d a b g => Sys2Proof.Machine.execPmac4 ch d a b g s
  | .fdot2F16 ch d a b g => Sys2Proof.Machine.execFdot2F16 ch d a b g s
  | .fdot2Bf16 ch d a b g => Sys2Proof.Machine.execFdot2Bf16 ch d a b g s
  | .cfma ch d a b g => Sys2Proof.Machine.execCfma ch d a b g s
  | .cfmaj ch d a b g => Sys2Proof.Machine.execCfmaj ch d a b g s
  | .bfi ch d a b g => Sys2Proof.Machine.execBfi ch d a b g s
  | .mad ch d a b g => Sys2Proof.Machine.execMad ch d a b g s
  | .slideUp ch d a b fill => Sys2Proof.Machine.execSlideUp ch d a b fill s
  | .slideDn ch d a b fill => Sys2Proof.Machine.execSlideDn ch d a b fill s
  | .slideH ch d a b fill => Sys2Proof.Machine.execSlideH ch d a b fill s
  | .shfl ch d a b => Sys2Proof.Machine.execShfl ch d a b s
  | .shflx ch d a b => Sys2Proof.Machine.execShflx ch d a b s
  | .bcast ch d a b => Sys2Proof.Machine.execBcast ch d a b s
  | .vote ch d a op => Sys2Proof.Machine.execVote ch d a op s
  | .gred ch d a op => Sys2Proof.Machine.execGred ch d a op s
  | .gscan ch d a op => Sys2Proof.Machine.execGscan ch d a op s
  | .qred ch d a op => Sys2Proof.Machine.execQred ch d a op s
  | .xmatch ch d a => Sys2Proof.Machine.execXmatch ch d a s
  | .bmax ch d a f => Sys2Proof.Machine.execBmax ch d a f s
  | .bscale ch d a pol f => Sys2Proof.Machine.execBscale ch d a pol f s
  | .bqnt ch d a b f => Sys2Proof.Machine.execBqnt ch d a b f s
  | .bdqnt ch d a f => Sys2Proof.Machine.execBdqnt ch d a f s
  | .bsetsc ch d a b f => Sys2Proof.Machine.execBsetsc ch d a b f s
  | .bgetsc ch d a f => Sys2Proof.Machine.execBgetsc ch d a f s
  | .bshift ch d a b f => Sys2Proof.Machine.execBshift ch d a b f s
  | .brescale ch d a b f => Sys2Proof.Machine.execBrescale ch d a b f s
  | .bdot ch d a b f => Sys2Proof.Machine.execBdot ch d a b f s
  | .ldB8u ch d a off => Sys2Proof.Machine.execLdB8u ch d a off s
  | .ldB8s ch d a off => Sys2Proof.Machine.execLdB8s ch d a off s
  | .ldB16u ch d a off => Sys2Proof.Machine.execLdB16u ch d a off s
  | .ldB16s ch d a off => Sys2Proof.Machine.execLdB16s ch d a off s
  | .ldB32 ch d a off => Sys2Proof.Machine.execLdB32 ch d a off s
  | .ldB64 ch d a off => Sys2Proof.Machine.execLdB64 ch d a off s
  | .ldB128 ch d a off => Sys2Proof.Machine.execLdB128 ch d a off s
  | .ldacqB32 ch d a off => Sys2Proof.Machine.execLdacqB32 ch d a off s
  | .ldacqB64 ch d a off => Sys2Proof.Machine.execLdacqB64 ch d a off s
  | .ldsB32 ch d a off => Sys2Proof.Machine.execLdsB32 ch d a off s
  | .ldsB64 ch d a off => Sys2Proof.Machine.execLdsB64 ch d a off s
  | .ldsB128 ch d a off => Sys2Proof.Machine.execLdsB128 ch d a off s
  | .ldb ch d a f off => Sys2Proof.Machine.execLdb ch d a f off s
  | .ldbs ch d a f off => Sys2Proof.Machine.execLdbs ch d a f off s
  | .ldncB32 ch d a off => Sys2Proof.Machine.execLdncB32 ch d a off s
  | .stB8 ch v a off => Sys2Proof.Machine.execStB8 ch v a off s
  | .stB16 ch v a off => Sys2Proof.Machine.execStB16 ch v a off s
  | .stB32 ch v a off => Sys2Proof.Machine.execStB32 ch v a off s
  | .stB64 ch v a off => Sys2Proof.Machine.execStB64 ch v a off s
  | .stB128 ch v a off => Sys2Proof.Machine.execStB128 ch v a off s
  | .strelB32 ch v a off => Sys2Proof.Machine.execStrelB32 ch v a off s
  | .strelB64 ch v a off => Sys2Proof.Machine.execStrelB64 ch v a off s
  | .stsB8 ch v a off => Sys2Proof.Machine.execStsB8 ch v a off s
  | .stsB32 ch v a off => Sys2Proof.Machine.execStsB32 ch v a off s
  | .stsB64 ch v a off => Sys2Proof.Machine.execStsB64 ch v a off s
  | .stsB128 ch v a off => Sys2Proof.Machine.execStsB128 ch v a off s
  | .stb ch v a f off => Sys2Proof.Machine.execStb ch v a f off s
  | .stbs ch v a f off => Sys2Proof.Machine.execStbs ch v a f off s
  | .atomB32 ch d a b op => Sys2Proof.Machine.execAtomB32 ch d a b op s
  | .atomB64 ch d a b op => Sys2Proof.Machine.execAtomB64 ch d a b op s
  | .redB32 ch a b op => Sys2Proof.Machine.execRedB32 ch a b op s
  | .redB64 ch a b op => Sys2Proof.Machine.execRedB64 ch a b op s
  | .atomf ch d a b op => Sys2Proof.Machine.execAtomf ch d a b op s
  | .redf ch a b op => Sys2Proof.Machine.execRedf ch a b op s
  | .casB32 ch d a b => Sys2Proof.Machine.execCasB32 ch d a b s
  | .casB64 ch d a b => Sys2Proof.Machine.execCasB64 ch d a b s
  | .cas2 ch d a b => Sys2Proof.Machine.execCas2 ch d a b s
  | .amaxrst ch d a => Sys2Proof.Machine.execAmaxrst ch d a s
  | .atoms ch d a b op => Sys2Proof.Machine.execAtoms ch d a b op s
  | .reds ch a b op => Sys2Proof.Machine.execReds ch a b op s
  | .cass ch d a b => Sys2Proof.Machine.execCass ch d a b s
  | .atomfs ch d a b op => Sys2Proof.Machine.execAtomfs ch d a b op s
  | .bar ch clu => Sys2Proof.Machine.execBar ch clu s
  | .minit ch a b scr => Sys2Proof.Machine.execMinit ch a b scr s
  | .marrive ch d a b scr => Sys2Proof.Machine.execMarrive ch d a b scr s
  | .mexpect ch a b scr => Sys2Proof.Machine.execMexpect ch a b scr s
  | .mwait ch a b scr => Sys2Proof.Machine.execMwait ch a b scr s
  | .mtest ch p a b scr => Sys2Proof.Machine.execMtest ch p a b scr s
  | .fence ch scope => Sys2Proof.Machine.execFence ch scope s
  | .xfence ch x y scope => Sys2Proof.Machine.execXfence ch x y scope s
  | .wait ch ld st cp tl => Sys2Proof.Machine.execWait ch ld st cp tl s
  | .cinv ch a b => Sys2Proof.Machine.execCinv ch a b s
  | .cwb ch a b => Sys2Proof.Machine.execCwb ch a b s
  | .pfetch ch a l2 => Sys2Proof.Machine.execPfetch ch a l2 s
  | .smap ch a b => Sys2Proof.Machine.execSmap ch a b s
  | .sunmap ch b => Sys2Proof.Machine.execSunmap ch b s
  | .sflush ch b => Sys2Proof.Machine.execSflush ch b s
  | .pinfo ch d a => Sys2Proof.Machine.execPinfo ch d a s
  | .tlbi ch a b => Sys2Proof.Machine.execTlbi ch a b s
  | .cpy ch a b size => Sys2Proof.Machine.execCpy ch a b size s
  | .seal ch a b => Sys2Proof.Machine.execSeal ch a b s
  | .tile ch a b => Sys2Proof.Machine.execTile ch a b s
  | .relay ch a b => Sys2Proof.Machine.execRelay ch a b s
  | .gath ch a => Sys2Proof.Machine.execGath ch a s
  | .mrsv ch p => Sys2Proof.Machine.execMrsv ch p s
  | .mrel ch => Sys2Proof.Machine.execMrel ch s
  | .mcvn ch a => Sys2Proof.Machine.execMcvn ch a s
  | .mma ch a => Sys2Proof.Machine.execMma ch a s
  | .mmd ch a => Sys2Proof.Machine.execMmd ch a s
  | .mzero ch a => Sys2Proof.Machine.execMzero ch a s
  | .mdrain ch a b f => Sys2Proof.Machine.execMdrain ch a b f s
  | .mload ch a b => Sys2Proof.Machine.execMload ch a b s
  | .mcfg ch a b => Sys2Proof.Machine.execMcfg ch a b s
  | .mcmplx ch a => Sys2Proof.Machine.execMcmplx ch a s
  | .glapp ch a b => Sys2Proof.Machine.execGlapp ch a b s
  | .glfold ch a b => Sys2Proof.Machine.execGlfold ch a b s
  | .emit ch a b => Sys2Proof.Machine.execEmit ch a b s
  | .spawn ch a b => Sys2Proof.Machine.execSpawn ch a b s
  | .jdec ch a => Sys2Proof.Machine.execJdec ch a s
  | .wtag ch a => Sys2Proof.Machine.execWtag ch a s
  | .wclose ch d a b => Sys2Proof.Machine.execWclose ch d a b s
  | .wfence ch => Sys2Proof.Machine.execWfence ch s
  | .bcas ch a b => Sys2Proof.Machine.execBcas ch a b s
  | .benq ch a b => Sys2Proof.Machine.execBenq ch a b s
  | .bchase ch a b => Sys2Proof.Machine.execBchase ch a b s
  | .bred ch a b => Sys2Proof.Machine.execBred ch a b s
  | .xev ch a b => Sys2Proof.Machine.execXev ch a b s
  | .xtest ch p a b => Sys2Proof.Machine.execXtest ch p a b s
  | .tmchk ch p a => Sys2Proof.Machine.execTmchk ch p a s
  | .tmwait ch a => Sys2Proof.Machine.execTmwait ch a s
  | .tmpin ch a => Sys2Proof.Machine.execTmpin ch a s
  | .tmunpin ch a => Sys2Proof.Machine.execTmunpin ch a s
  | .loadDataReturn core grp txn bad => Sys2Proof.Machine.execLoadDataReturn core grp txn bad s
  | .fenceCompletion core grp => Sys2Proof.Machine.execFenceCompletion core grp s
  | .speculationRollback core grp => Sys2Proof.Machine.execSpeculationRollback core grp s
  | .sleepExpiry core grp lane => Sys2Proof.Machine.execSleepExpiry core grp lane s
  | .mooringOpAtHome k => Sys2Proof.Machine.execMooringOpAtHome k s
  | .chunkFill team map chunk => Sys2Proof.Machine.execChunkFill team map chunk s
  | .scratchWriteback team => Sys2Proof.Machine.execScratchWriteback team s
  | .groupEnd core grp => Sys2Proof.Machine.execGroupEnd core grp s
  | .gridRetirement grid => Sys2Proof.Machine.execGridRetirement grid s
  | .preemptionRequest team => Sys2Proof.Machine.execPreemptionRequest team s
  | .contextSave team => Sys2Proof.Machine.execContextSave team s
  | .faultService k how => Sys2Proof.Machine.execFaultService k how s
  | .faultRecordDelivery ctx => Sys2Proof.Machine.execFaultRecordDelivery ctx s
  | .retry k => Sys2Proof.Machine.execRetry k s
  | .remap k => Sys2Proof.Machine.execRemap k s
  | .setrap k => Sys2Proof.Machine.execSetrap k s
  | .migrate k => Sys2Proof.Machine.execMigrate k s
  | .restream k => Sys2Proof.Machine.execRestream k s
  | .deliver k => Sys2Proof.Machine.execDeliver k s
  | .abort k => Sys2Proof.Machine.execAbort k s
  | .ret k => Sys2Proof.Machine.execRet k s
  | .copyBatchCompletion core grp => Sys2Proof.Machine.execCopyBatchCompletion core grp s
  | .tileCompletion core grp op => Sys2Proof.Machine.execTileCompletion core grp op s
  | .relayHopCompletion core grp op => Sys2Proof.Machine.execRelayHopCompletion core grp op s
  | .gatherCompletion core grp op => Sys2Proof.Machine.execGatherCompletion core grp op s
  | .jointIssue core part => Sys2Proof.Machine.execJointIssue core part s
  | .matrixPass core part => Sys2Proof.Machine.execMatrixPass core part s
  | .matrixOpCompletion core part => Sys2Proof.Machine.execMatrixOpCompletion core part s
  | .matrixHeaderFailure core part => Sys2Proof.Machine.execMatrixHeaderFailure core part s
  | .mdrainEntryDelivery core part => Sys2Proof.Machine.execMdrainEntryDelivery core part s
  | .glappRecordWrite core part => Sys2Proof.Machine.execGlappRecordWrite core part s
  | .recordFold log => Sys2Proof.Machine.execRecordFold log s
  | .glfoldRetirement k => Sys2Proof.Machine.execGlfoldRetirement k s
  | .doorbell q wptr => Sys2Proof.Machine.execDoorbell q wptr s
  | .packetNop q => Sys2Proof.Machine.execPacketNop q s
  | .launch q => Sys2Proof.Machine.execLaunch q s
  | .coll q => Sys2Proof.Machine.execColl q s
  | .waitmem q => Sys2Proof.Machine.execWaitmem q s
  | .waitmemReread q => Sys2Proof.Machine.execWaitmemReread q s
  | .signalmem q => Sys2Proof.Machine.execSignalmem q s
  | .modelRequest q => Sys2Proof.Machine.execModelRequest q s
  | .modelWithdraw q => Sys2Proof.Machine.execModelWithdraw q s
  | .modelPin q => Sys2Proof.Machine.execModelPin q s
  | .modelUnpin q => Sys2Proof.Machine.execModelUnpin q s
  | .qbarrier q => Sys2Proof.Machine.execQbarrier q s
  | .workTableTimeout q => Sys2Proof.Machine.execWorkTableTimeout q s
  | .placementAttempt die => Sys2Proof.Machine.execPlacementAttempt die s
  | .candidateReservation die level => Sys2Proof.Machine.execCandidateReservation die level s
  | .thermalMigration core => Sys2Proof.Machine.execThermalMigration core s
  | .jdecAtHome k => Sys2Proof.Machine.execJdecAtHome k s
  | .layerArrival ctx layer bytes => Sys2Proof.Machine.execLayerArrival ctx layer bytes s
  | .layerFetchFailure ctx layer abandon => Sys2Proof.Machine.execLayerFetchFailure ctx layer abandon s
  | .layerEviction ctx layer => Sys2Proof.Machine.execLayerEviction ctx layer s
  | .reflectionArrival a => Sys2Proof.Machine.execReflectionArrival a s
  | .reflectionAcknowledgement k bitmap => Sys2Proof.Machine.execReflectionAcknowledgement k bitmap s
  | .closeMarkerArrival a => Sys2Proof.Machine.execCloseMarkerArrival a s
  | .daymarkArrival k tgt bitmap => Sys2Proof.Machine.execDaymarkArrival k tgt bitmap s
  | .beaconBcasStep a => Sys2Proof.Machine.execBeaconBcasStep a s
  | .beaconBenqStep a => Sys2Proof.Machine.execBeaconBenqStep a s
  | .beaconBchaseStep a => Sys2Proof.Machine.execBeaconBchaseStep a s
  | .beaconBredStep a => Sys2Proof.Machine.execBeaconBredStep a s
  | .ualinkReadReceived src => Sys2Proof.Machine.execUalinkReadReceived src s
  | .slotGrant k peer e0 => Sys2Proof.Machine.execSlotGrant k peer e0 s
  | .contributionArrival k c => Sys2Proof.Machine.execContributionArrival k c s
  | .memberReport k m => Sys2Proof.Machine.execMemberReport k m s
  | .readyWordPoll k => Sys2Proof.Machine.execReadyWordPoll k s
  | .collectiveFailure k why => Sys2Proof.Machine.execCollectiveFailure k why s
  | .vaultRowSparing vault row => Sys2Proof.Machine.execVaultRowSparing vault row s
  | .hbmChannelFailure stack ch => Sys2Proof.Machine.execHbmChannelFailure stack ch s
  | .dieLinkLaneFailure link lane => Sys2Proof.Machine.execDieLinkLaneFailure link lane s
  | .ualinkPortFailure port => Sys2Proof.Machine.execUalinkPortFailure port s
  | .coreFailure core lost => Sys2Proof.Machine.execCoreFailure core lost s
  | .vaultFailure core => Sys2Proof.Machine.execVaultFailure core s
  | .heartbeatTakeover => Sys2Proof.Machine.execHeartbeatTakeover s
  | .cxlPortFailure => Sys2Proof.Machine.execCxlPortFailure s
  | .patrolScrub sector => Sys2Proof.Machine.execPatrolScrub sector s
  | .hostMemAccess hpa a => Sys2Proof.Machine.execHostMemAccess hpa a s
  | .scaleViewWrite hpa v => Sys2Proof.Machine.execScaleViewWrite hpa v s
  | .ctxCreate ctx x => Sys2Proof.Machine.execCtxCreate ctx x s
  | .ctxSet ctx x => Sys2Proof.Machine.execCtxSet ctx x s
  | .ctxDestroy ctx => Sys2Proof.Machine.execCtxDestroy ctx s
  | .map ctx va leaf => Sys2Proof.Machine.execMap ctx va leaf s
  | .unmap ctx va => Sys2Proof.Machine.execUnmap ctx va s
  | .xlate ctx va => Sys2Proof.Machine.execXlate ctx va s
  | .keyLoad key pair => Sys2Proof.Machine.execKeyLoad key pair s
  | .keyClear key => Sys2Proof.Machine.execKeyClear key s
  | .winSet x => Sys2Proof.Machine.execWinSet x s
  | .queueSet q x => Sys2Proof.Machine.execQueueSet q x s
  | .queueClear q => Sys2Proof.Machine.execQueueClear q s
  | .layerDone ctx layer => Sys2Proof.Machine.execLayerDone ctx layer s
  | .fwWrite off data => Sys2Proof.Machine.execFwWrite off data s
  | .fwCommit digest => Sys2Proof.Machine.execFwCommit digest s
  | .warm preserve => Sys2Proof.Machine.execWarm preserve s
  | .mailboxUnknownCode code => Sys2Proof.Machine.execMailboxUnknownCode code s
  | .bar0WriteIgnored off v => Sys2Proof.Machine.execBar0WriteIgnored off v s
  | .coldStart x => Sys2Proof.Machine.execColdStart x s
  | .warmReset preserve x => Sys2Proof.Machine.execWarmReset preserve x s
  | .managementRead what => Sys2Proof.Machine.execManagementRead what s
  | .plimWrite watts => Sys2Proof.Machine.execPlimWrite watts s
  | .coldResetRequest => Sys2Proof.Machine.execColdResetRequest s
  | .powerWindow watts => Sys2Proof.Machine.execPowerWindow watts s
  | .temperatureHot core => Sys2Proof.Machine.execTemperatureHot core s
  | .temperatureTrip => Sys2Proof.Machine.execTemperatureTrip s
  | .illegalOp core grp lanes cause sub => Sys2Proof.Machine.execIllegalOp core grp lanes cause sub s
  | .packetFetch core grp lanes => Sys2Proof.Machine.execPacketFetch core grp lanes s
  | .mbstsRead => Sys2Proof.Machine.execMbstsRead s
  | .hdmDecoderWrite which base => Sys2Proof.Machine.execHdmDecoderWrite which base s
  | .digestExchange k m digest => Sys2Proof.Machine.execDigestExchange k m digest s
  | .vaultSplitChange core vm => Sys2Proof.Machine.execVaultSplitChange core vm s

end Sys2Proof.Machine
end

