-- ==== Sys2Proof/Machine/Turns.lean ====
section
/-! DEFINITION. What each turn of the agenda does (log entry 2): an event runs by its meaning, and an issue turn gives a group a fetch
slot. -/
namespace Sys2Proof.Machine

/-- The next word of the chain in progress runs. -/
def State.runChain (s : State) : Outcome :=
  let c := s.chain
  match s.nextWord with
  | .ok i => exec i s
  | .error sub => execIllegalOp c.core c.grp c.lanes (causeOf sub) sub s
/-- A group holds an issuable chain. -/
def State.issuable (s : State) (core grp : Nat) : Bool := s.issues core grp && !(s.readyLanes core grp).isEmpty
/-- A group is its partition's choice: of the groups with an issuable chain the one that issued least recently, ties to the lower slot
(R145). -/
def State.firstInPartition (s : State) (core grp : Nat) : Bool :=
  let at_ (g : Nat) : Nat := (s.group core g).lastIssue
  (s.partition core grp).all fun g => g == grp || at_ grp < at_ g || (at_ grp == at_ g && grp < g) || !s.issuable core g
/-- A fetch slot of a group, where its partition chooses it: the fetch, and the first word of the broadcast chain. -/
def State.issue (s : State) (core grp : Nat) : Outcome :=
  if !s.firstInPartition core grp then .next s
  else match s.beginSlot core grp with
  | (s, []) => .next s
  | (s, ls) => match execPacketFetch core grp (laneSetOf ls) s with
    | .next s => if s.chain.active then s.runChain else .next s
    | o => o
/-- A lane that executes from its buffer in the current fetch slot. -/
def State.issueLater (s : State) : Outcome :=
  let s := s.nextLater
  if s.chain.active then s.runChain else .next s
/-- One turn. -/
def State.turn (s : State) (t : Turn) : Outcome :=
  match t with
  | .issue core grp => s.issue core grp
  | .startStep => .next s.startStep
  | .clock n => .next { s with now := s.now + n }
  | .storeDone core grp txn => .next (s.storeDone core grp txn)
  | .lagging r on => .next { s with lagging := if on then r :: s.lagging.erase r else s.lagging.erase r }
  | .loadLate core grp txn => .next (s.loadLate core grp txn)
  | .l1Drop core sector => .next (s.setCore core { s.core core with l1 := Tbl.del (s.core core).l1 sector })
  | .icDrop core sector => .next (s.setCore core { s.core core with icache := (s.core core).icache.filter (·.1 != sector) })
  | .tlbDrop core k => .next (s.setCore core { s.core core with tlb := (s.core core).tlb.eraseIdx k })
  | .l2WriteBack line => .next { s with dirty := Tbl.del s.dirty line }
  | .mbAnswer => .next s.mbAnswer
  | .memError sec => .next (s.harm sec)
  | .accError core part tile => .next (s.setEngine core part { s.engine core part with poisoned := tile :: (s.engine core part).poisoned.erase tile })
  | .loadDataReturn core grp txn bad => execLoadDataReturn core grp txn bad s
  | .fenceCompletion core grp => execFenceCompletion core grp s
  | .speculationRollback core grp => execSpeculationRollback core grp s
  | .sleepExpiry core grp lane => execSleepExpiry core grp lane s
  | .mooringOpAtHome k => execMooringOpAtHome k s
  | .chunkFill team map chunk => execChunkFill team map chunk s
  | .scratchWriteback team => execScratchWriteback team s
  | .groupEnd core grp => execGroupEnd core grp s
  | .gridRetirement grid => execGridRetirement grid s
  | .preemptionRequest team => execPreemptionRequest team s
  | .contextSave team => execContextSave team s
  | .faultService k how => execFaultService k how s
  | .faultRecordDelivery ctx => execFaultRecordDelivery ctx s
  | .retry k => execRetry k s
  | .remap k => execRemap k s
  | .setrap k => execSetrap k s
  | .migrate k => execMigrate k s
  | .restream k => execRestream k s
  | .deliver k => execDeliver k s
  | .abort k => execAbort k s
  | .ret k => execRet k s
  | .copyBatchCompletion core grp => execCopyBatchCompletion core grp s
  | .tileCompletion core grp op => execTileCompletion core grp op s
  | .relayHopCompletion core grp op => execRelayHopCompletion core grp op s
  | .gatherCompletion core grp op => execGatherCompletion core grp op s
  | .jointIssue core part => execJointIssue core part s
  | .matrixPass core part => execMatrixPass core part s
  | .matrixOpCompletion core part => execMatrixOpCompletion core part s
  | .matrixHeaderFailure core part => execMatrixHeaderFailure core part s
  | .mdrainEntryDelivery core part => execMdrainEntryDelivery core part s
  | .glappRecordWrite core part => execGlappRecordWrite core part s
  | .recordFold log => execRecordFold log s
  | .glfoldRetirement k => execGlfoldRetirement k s
  | .doorbell q wptr => execDoorbell q wptr s
  | .packetNop q => execPacketNop q s
  | .launch q => execLaunch q s
  | .coll q => execColl q s
  | .waitmem q => execWaitmem q s
  | .waitmemReread q => execWaitmemReread q s
  | .signalmem q => execSignalmem q s
  | .modelRequest q => execModelRequest q s
  | .modelWithdraw q => execModelWithdraw q s
  | .modelPin q => execModelPin q s
  | .modelUnpin q => execModelUnpin q s
  | .qbarrier q => execQbarrier q s
  | .workTableTimeout q => execWorkTableTimeout q s
  | .placementAttempt die => execPlacementAttempt die s
  | .candidateReservation die level => execCandidateReservation die level s
  | .thermalMigration core => execThermalMigration core s
  | .jdecAtHome k => execJdecAtHome k s
  | .layerArrival ctx layer bytes => execLayerArrival ctx layer bytes s
  | .layerFetchFailure ctx layer abandon => execLayerFetchFailure ctx layer abandon s
  | .layerEviction ctx layer => execLayerEviction ctx layer s
  | .reflectionArrival a => execReflectionArrival a s
  | .reflectionAcknowledgement k bitmap => execReflectionAcknowledgement k bitmap s
  | .closeMarkerArrival a => execCloseMarkerArrival a s
  | .daymarkArrival k tgt bitmap => execDaymarkArrival k tgt bitmap s
  | .beaconBcasStep a => execBeaconBcasStep a s
  | .beaconBenqStep a => execBeaconBenqStep a s
  | .beaconBchaseStep a => execBeaconBchaseStep a s
  | .beaconBredStep a => execBeaconBredStep a s
  | .ualinkReadReceived src => execUalinkReadReceived src s
  | .slotGrant k peer e0 => execSlotGrant k peer e0 s
  | .contributionArrival k c => execContributionArrival k c s
  | .memberReport k m => execMemberReport k m s
  | .readyWordPoll k => execReadyWordPoll k s
  | .collectiveFailure k why => execCollectiveFailure k why s
  | .vaultRowSparing vault row => execVaultRowSparing vault row s
  | .hbmChannelFailure stack ch => execHbmChannelFailure stack ch s
  | .dieLinkLaneFailure link lane => execDieLinkLaneFailure link lane s
  | .ualinkPortFailure port => execUalinkPortFailure port s
  | .coreFailure core lost => execCoreFailure core lost s
  | .vaultFailure core => execVaultFailure core s
  | .heartbeatTakeover => execHeartbeatTakeover s
  | .cxlPortFailure => execCxlPortFailure s
  | .patrolScrub sector => execPatrolScrub sector s
  | .hostMemAccess hpa a => execHostMemAccess hpa a s
  | .scaleViewWrite hpa v => execScaleViewWrite hpa v s
  | .ctxCreate ctx x => execCtxCreate ctx x s
  | .ctxSet ctx x => execCtxSet ctx x s
  | .ctxDestroy ctx => execCtxDestroy ctx s
  | .map ctx va leaf => execMap ctx va leaf s
  | .unmap ctx va => execUnmap ctx va s
  | .xlate ctx va => execXlate ctx va s
  | .keyLoad key pair => execKeyLoad key pair s
  | .keyClear key => execKeyClear key s
  | .winSet x => execWinSet x s
  | .queueSet q x => execQueueSet q x s
  | .queueClear q => execQueueClear q s
  | .layerDone ctx layer => execLayerDone ctx layer s
  | .fwWrite off data => execFwWrite off data s
  | .fwCommit digest => execFwCommit digest s
  | .warm preserve => execWarm preserve s
  | .mailboxUnknownCode code => execMailboxUnknownCode code s
  | .bar0WriteIgnored off v => execBar0WriteIgnored off v s
  | .coldStart x => execColdStart x s
  | .warmReset preserve x => execWarmReset preserve x s
  | .managementRead what => execManagementRead what s
  | .plimWrite watts => execPlimWrite watts s
  | .coldResetRequest => execColdResetRequest s
  | .powerWindow watts => execPowerWindow watts s
  | .temperatureHot core => execTemperatureHot core s
  | .temperatureTrip => execTemperatureTrip s
  | .mbstsRead => execMbstsRead s
  | .hdmDecoderWrite which base => execHdmDecoderWrite which base s
  | .digestExchange k m digest => execDigestExchange k m digest s
  | .vaultSplitChange core vm => execVaultSplitChange core vm s

end Sys2Proof.Machine
end

