-- ==== Sys2Proof/Machine/Round.lean ====
section
/-! DEFINITION. The order in which the device's own agents move when nothing outside it says otherwise (log entry 2): a round names,
once each, every event that is due, a fetch slot of every group, and a placement attempt of every die with work to place. -/
namespace Sys2Proof.Machine

/-- Every group that stands on a core, with its place. -/
def State.places (s : State) : List (Nat × Nat × Group) := s.cores.flatMap fun p => p.2.groups.map fun q => (p.1, q.1, q.2)
/-- What is due in one group: its transactions, its fence, its sleepers, its tenders, its end. -/
def Group.due (core grp : Nat) (g : Group) : List Turn :=
  (g.txns.map fun (t : Txn) => if t.store then Turn.storeDone core grp t.id else Turn.loadDataReturn core grp t.id false) ++
  (match g.spec with
    | some sp => [if sp.hit then Turn.speculationRollback core grp else Turn.fenceCompletion core grp]
    | none => []) ++
  (g.lanes.filterMap fun p => match p.2.mode with
    | .sleeping _ => some (Turn.sleepExpiry core grp p.1)
    | .stalled (.chunk t m c) => some (Turn.chunkFill t m c)
    | _ => none) ++
  (if g.batches.isEmpty then [] else [.copyBatchCompletion core grp]) ++
  (g.tlOps.filterMap fun (o : TlOp) => match o.kind with
    | .tile => some (Turn.tileCompletion core grp o.id)
    | .relay => some (Turn.relayHopCompletion core grp o.id)
    | .gath => some (Turn.gatherCompletion core grp o.id)
    | _ => none) ++
  (if g.lanes.all (fun p => p.2.mode == .exited) && !g.ended then [.groupEnd core grp] else [])
/-- What is due in the engines of a core. -/
def Core.due (core : Nat) (k : Core) : List Turn :=
  k.engines.flatMap fun p =>
    if p.2.holder.isNone && p.2.ops.isEmpty then []
    else [.matrixHeaderFailure core p.1, .jointIssue core p.1, .matrixPass core p.1, .mdrainEntryDelivery core p.1, .matrixOpCompletion core p.1,
      .glappRecordWrite core p.1]
/-- What is due of the teams, grids and gradient logs. -/
def State.teamsDue (s : State) : List Turn :=
  (s.lantern.teams.flatMap fun p =>
    (if p.2.flush then [Turn.scratchWriteback p.1] else []) ++ (if p.2.st == .halted then [.contextSave p.1] else [])) ++
  (s.merge.logs.map fun p => .recordFold p.1) ++ (s.merge.folds.map fun p => .glfoldRetirement p.1) ++
  (s.lantern.grids.map fun p => .gridRetirement p.1)
/-- What is due in the homes of posted operations. -/
def State.postedDue (s : State) : List Turn :=
  (s.posted.map fun p => .mooringOpAtHome p.1) ++ (s.lantern.jdecs.map fun _ => .jdecAtHome 0)
/-- What is due of the messages on the loop paths, in the order in which they entered them. -/
def State.flightsDue (s : State) : List Turn :=
  s.fabric.net.flatMap fun f =>
    if f.done.isSome then
      [match f.cargo with | .close _ => .daymarkArrival f.id f.tgt 0 | _ => .reflectionAcknowledgement f.id 0]
    else if s.localTarget f.tgt then
      [match f.cargo with
        | .refl _ | .reply _ => .reflectionArrival (.loop f.path)
        | .close _ => .closeMarkerArrival (.loop f.path)
        | .beacon o => match o.kind with
          | .bcas => .beaconBcasStep .loop
          | .benq => .beaconBenqStep .loop
          | .bchase => .beaconBchaseStep .loop
          | .bred => .beaconBredStep .loop]
    else []
/-- The packet event that a queue's next or started packet calls for. -/
def packetTurn (q : Nat) (ws : List DWord) : Turn :=
  match pktType ws with
  | 1 => .launch q
  | 2 => .coll q
  | 3 => .waitmem q
  | 4 => .signalmem q
  | 5 => match pw ws 0 / 2 ^ 16 with
    | 1 => .modelWithdraw q
    | 2 => .modelPin q
    | 3 => .modelUnpin q
    | _ => .modelRequest q
  | 6 => .qbarrier q
  | _ => .packetNop q
/-- What is due in the Lantern. -/
def State.lanternDue (s : State) : List Turn :=
  (s.lantern.queues.flatMap fun p =>
    if p.2.pkt.started then [packetTurn p.1 p.2.pkt.words]
    else if s.startable p.1 then [packetTurn p.1 (s.pktWords p.1), .workTableTimeout p.1]
    else []) ++
  (s.lantern.insts.flatMap fun p => .readyWordPoll p.1 :: (if s.collLost p.2 then [.collectiveFailure p.1 3] else [])) ++
  (let waiting := s.lantern.grids.any (fun p => p.2.st == .inputs || p.2.st == .ready || p.2.st == .placing) || s.lantern.teams.any fun p => p.2.st == .suspended
   if waiting then (List.range 9).map (.placementAttempt ·) else []) ++
  (s.lantern.attempts.flatMap fun p => if 256 ≤ p.2.2 then [.candidateReservation (p.1 / 16) (p.1 % 16)] else [])
/-- What the Keeper has to do: records, parked faults without a handler by the policy's first choice, requests, layers to evict for fetches that wait for frames, the mailbox. -/
def State.keeperDue (s : State) : List Turn :=
  (s.keeper.ctxs.flatMap fun p => (p.2.pending.filter (·.slot.isNone)).map fun _ => .faultRecordDelivery p.1) ++
  (s.keeper.parks.map fun p => .faultService p.1 (if p.2.cause = .layerWithdrawn then .request else .deliver)) ++
  (s.keeper.kreqs.map fun p => match p.2.svc with
    | 0 => .retry p.1
    | 1 => .remap p.1
    | 2 => .setrap p.1
    | 3 => .migrate p.1
    | 4 => .restream p.1
    | 5 => .deliver p.1
    | 6 => .abort p.1
    | _ => .ret p.1) ++
  (s.keeper.ctxs.filterMap fun p => if p.2.wanted.isEmpty then none else (s.victim p.1).map fun v => Turn.layerEviction v.1 v.2) ++
  (if s.keeper.mailbox.busy then [.mbAnswer] else [])
/-- A device that has never started starts cold (R403), with no spare bound, one device and no vault memory. -/
def firstStart : StartInputs := { spares := [], fails := none, devId := 0, panel := false, vm := 0 }
/-- A round. -/
def State.round (s : State) : List Turn :=
  if s.keeper.starting.isSome then [.startStep, .clock 1]
  else if s.keeper.status.st = 0 then [.coldStart firstStart]
  else
    s.postedDue ++ (s.places.flatMap fun (c, g, x) => x.due c g) ++ (s.cores.flatMap fun p => p.2.due p.1) ++ s.flightsDue ++ s.teamsDue ++
      s.keeperDue ++ s.lanternDue ++ (s.places.map fun (c, g, _) => .issue c g) ++ [.clock 1]

end Sys2Proof.Machine
end

