-- ==== Sys2Proof/Machine/Step.lean ====
section
/-! DEFINITION. One step: the chain in progress, then the lanes of the fetch slot that execute from their buffers, then the agenda;
and when the agenda is empty, a new round (log entry 2). -/
namespace Sys2Proof.Machine

def step (s : State) : Host.Outcome State Fault Refusal :=
  if s.chain.active then s.runChain
  else if !s.chain.later.isEmpty then s.issueLater
  else match s.agenda with
    | t :: rest => { s with agenda := rest }.turn t
    | [] => .next { s with agenda := s.round }

/-- The state with an instruction where the next step fetches it: context 0 translates address 0 to the packet, grid 0 runs one team
of one group in slot 0 of core 0, its lane 0 stands at address 0, and the agenda gives that group a fetch slot (log entry 3). -/
def State.withFetchWord (s : State) (nbits w : Nat) : State :=
  { s with
    mem := s.mem.withPacket (w % 2 ^ nbits)
    cores := Tbl.put s.cores 0 { groups := [(0, placedGroup)] }
    lantern := { s.lantern with
      grids := Tbl.put s.lantern.grids 0 { placed := 1, st := .running }
      teams := Tbl.put s.lantern.teams 0 { slots := [0], st := .resident } }
    keeper := { s.keeper with
      status := { s.keeper.status with st := 3 }
      starting := none
      power := { s.keeper.power with tripped := false }
      ctxs := Tbl.put s.keeper.ctxs 0 { root := 0x8000, tvec := 0x800 } }
    chain := {}
    agenda := [.issue 0 0] }

end Sys2Proof.Machine
end

