-- ==== Sys2Proof/Safety.lean ====
section
/-! DEFINITION. What counts as a safe run, and the vocabulary in which claims speak of a word and its chain: the states in which a
word completes, the lanes it executes in, and the state after it. -/
namespace Sys2Proof.Safety

open Sys2Proof.Machine

/-- The machine goes on: the step gives a next state. -/
def Runs (s : State) : Prop := ∃ t, step s = .next t
/-- A step gives a next state with a property, whatever it is. -/
def Keeps (p : State → Prop) : Prop := ∀ s t, p s → step s = .next t → p t

/-! ### A word and its chain -/
/-- The earlier words of the chain have given no lane anything to do, as after a `nop` or a `guard`. -/
def Quiet (c : Chain) : Prop := ∀ w ∈ c.outs, w.pops = 0 ∧ w.own = [] ∧ ∀ p ∈ w.outs, p.2 = .ok []
/-- The lanes of the chain in which a word executes (R50, R83, R89). -/
def executing (s : State) (i : Instr) : List Nat := s.chain.live.filter fun l => isSel i || s.guardOn l
/-- A word stands to complete: its chain is in progress in some lanes, no earlier word has done anything, the word passes the checks of
R49, its group is not speculative, and its sources are readable in every executing lane, with the values `vs`. -/
structure Ready (s : State) (i : Instr) (f : Form) (vs : Nat → List Nat) : Prop where
  form : i.form = some f
  active : s.chain.active = true
  lanes : lanesOf s.chain.lanes ≠ []
  quiet : Quiet s.chain
  checks : s.wordCheck false i f = none
  plain : s.cgroup.spec = none
  reads : ∀ l ∈ executing s i, s.readSrcs l f.srcs (s.chain.lits f) = .ok (vs l)
/-- The word of the chain with the effects of each executing lane. -/
def wordWith (s : State) (i : Instr) (f : Form) (es : Nat → List Eff) : WordOut :=
  { slot := s.chain.slot, pops := bit01 ((poppedBy f).contains .mqo) + 2 * bit01 ((poppedBy f).contains .wqi)
    dflt := if (poppedBy f).contains .mqo then (match s.cgroup.mqo with | e :: _ => e.shadow | [] => []) else []
    outs := (executing s i).map fun l => (l, .ok (es l))
    once := if performedOnce i then executing s i else [] }
/-- The state with that word decided. -/
def withWord (s : State) (i : Instr) (f : Form) (es : Nat → List Eff) : State := s.addWord i f (wordWith s i f es)
/-- The time at which lanes stand after the chain. -/
def timeAfter (s : State) : Nat := if s.chain.broadcast then s.now + 1 else s.now
/-- The time after the chain: its clock is over with a broadcast chain, and with the last that runs from a buffer. -/
def clockAfter (s : State) : Nat := if s.chain.broadcast || s.chain.later.isEmpty then s.now + 1 else s.now
/-- The state after a chain whose last word is `i`, when every executing lane takes the effects `es`.  The clocks it counts are the model's
reading (log entries 45 and 69). -/
def after (s : State) (i : Instr) (f : Form) (es : Nat → List Eff) : State :=
  let s1 := withWord s i f es
  { s1.effects s1.chain (timeAfter s) (lanesOf s.chain.lanes) with chain := s1.chain.finished, now := clockAfter s }
/-- The objects that the executing lanes spawn, in lane order. -/
def spawned (s : State) (i : Instr) (es : Nat → List Eff) : List Nat := (executing s i).filterMap fun l => (LaneOut.ok (es l)).spawns
/-- The group's tables and queues take the chain: no conflict is completed (R198), there is room (R127, R229), and the objects it spawns
differ and find room in the Lantern's table (R308). -/
def Room (s : State) (i : Instr) (f : Form) (es : Nat → List Eff) : Prop :=
  let s1 := withWord s i f es
  s1.races s1.chain (lanesOf s.chain.lanes) = [] ∧ s1.hasRoom s1.chain (lanesOf s.chain.lanes) = true ∧
    (spawned s i es).Nodup ∧ (spawned s i es).length ≤ 4096 - s.workTable
/-- A destination can take a result of `bits` bits: a queue register needs the reservation and room (R229). -/
def Takes (s : State) (d : Dst) (bits : Nat) : Prop :=
  match mqOf d with
  | none => True
  | some k => s.holds s.chain.core s.chain.grp = true ∧ (s.cgroup.mq k).length + bits / 32 ≤ 16

/-! ### Effects on one lane -/
/-- The effects that reach no further than their own lane and, for a result, its group's scalars and queue registers. -/
def isLocal : Eff → Bool
  | .result .. | .pred .. | .flags _ | .jump _ | .special .. | .sleep _ | .wfenceEnd | .yield => true
  | _ => false
/-- What such an effect does to its lane. -/
def onLane (now : Nat) (e : Eff) (x : Lane) : Lane :=
  match e with
  | .result d n v _ => x.write d n v.toNat
  | .pred p v => x.writePred p v
  | .flags f => { x with status := x.status ||| f.word }
  | .jump pc => x.jump pc
  | .special sr v => x.writeSr sr v
  | .sleep n => if n = 0 then x else { x with mode := .sleeping (now + n) }
  | .wfenceEnd => { x with ticket := none }
  | _ => x
/-- A lane that has executed a chain: it stands after it, ready (R148, R150). -/
def advanced (c : Chain) (t : Nat) (x : Lane) : Lane :=
  { x with pc := (placeAfter c.pc c.slot).1, slot := (placeAfter c.pc c.slot).2, mode := .ready, since := t, tried := none,
           loop := loopAfter x.loop c.pc c.words }
/-- A lane after a chain that gives it the effects `es`. -/
def laneAfter (s : State) (i : Instr) (f : Form) (es : Nat → List Eff) (l : Nat) : Lane :=
  (if l ∈ executing s i then es l else []).foldl (fun x e => onLane s.now e x)
    (advanced (withWord s i f es).chain (timeAfter s) (s.clane l))

/-! ### What a word leaves when its effects are local -/
/-- A lane that stands after the chain, ready (R148, R150). -/
def stand (s : State) (f : Form) (x : Lane) : Lane :=
  { x with
    pc := (placeAfter s.chain.pc (s.chain.slot + 1 + f.lits)).1, slot := (placeAfter s.chain.pc (s.chain.slot + 1 + f.lits)).2
    mode := .ready, since := timeAfter s, tried := none, loop := loopAfter x.loop s.chain.pc s.chain.words }
/-- The group of the chain, in a later state. -/
def groupIn (s t : State) : Group := t.group s.chain.core s.chain.grp
/-- What such a word leaves alone: everything outside the chain's group; of the group everything but its lanes, shadows, scalars,
rejoin masks and queue registers; a lane of the chain in which the word does not execute only stands after it; a lane outside the
chain is as it was, or is released from a rejoin mask; and `mqo` and `wqi` are popped where the word has them as sources, and else are
as they were. -/
structure Framed (s : State) (i : Instr) (f : Form) (t : State) : Prop where
  whole : t = { s.setGroup s.chain.core s.chain.grp (groupIn s t) with chain := s.chain.finished, now := clockAfter s }
  group : groupIn s t = { s.cgroup with
    lanes := (groupIn s t).lanes, quarters := (groupIn s t).quarters, g := (groupIn s t).g, j := (groupIn s t).j
    mqa := (groupIn s t).mqa, mqb := (groupIn s t).mqb, mqo := (groupIn s t).mqo, wqi := (groupIn s t).wqi }
  idle : ∀ l ∈ lanesOf s.chain.lanes, l ∉ executing s i → (groupIn s t).lane l = stand s f (s.clane l)
  others : ∀ l, l ∉ lanesOf s.chain.lanes → (groupIn s t).lane l = s.clane l ∨
    ((∃ j, (s.clane l).mode = .joined j) ∧ (groupIn s t).lane l = { s.clane l with mode := .ready })
  masks : ∀ j, Tbl.get (groupIn s t).j j 0 = Tbl.get s.cgroup.j j 0 ∨ Tbl.get (groupIn s t).j j 0 = 0
  mqo : (groupIn s t).mqo = if (poppedBy f).contains .mqo && !(executing s i).isEmpty then s.cgroup.mqo.tail else s.cgroup.mqo
  wqi : (groupIn s t).wqi = if (poppedBy f).contains .wqi then
    s.cgroup.wqi.mapV fun l r => if (executing s i).contains l then { r with popped := true } else r else s.cgroup.wqi
/-- Flags are sticky (R24). -/
def Lane.orFlags (x : Lane) (fl : Flags) : Lane := if fl.any then { x with status := x.status ||| fl.word } else x
/-- The words that a result of `n` bits pushes onto a queue register: word `l` of entry `k` is part `k` of lane `l`'s (R229). -/
def pushedWords (ls : List Nat) (n : Nat) (v : Nat → Nat) : List (List Word) :=
  if ls = [] then []
  else (List.range (n / 32)).map fun k => (List.range 32).map fun l => if l ∈ ls then BitVec.ofNat 32 (v l % 2 ^ 128 / 2 ^ (32 * k)) else 0
/-- The group scalars after a result: a scalar destination takes the value of the lowest-numbered executing lane (R158). -/
def scalarsAfter (d : Dst) (g : Tbl DWord) (lowest : Option Nat) (v : Nat → Nat) : Tbl DWord :=
  match d, lowest with
  | .g k, some l => Tbl.put g k.val (BitVec.ofNat 64 (v l))
  | _, _ => g
/-- The shadow a result takes in a quarter where the word gives none of its own: that of the `mqo` entry it pops, else 0x7F twice
(R23, R231). -/
def plainShadow (s : State) (f : Form) (q : Nat) : Shadow :=
  if (poppedBy f).contains .mqo then (match s.cgroup.mqo with | e :: _ => e.shadow.getD q {} | [] => {}) else {}
/-- The shadow of a result of lane `l`. -/
def shadowOf (s : State) (f : Form) (sh : Nat → Option Shadow) (l : Nat) : Shadow := (sh l).getD (plainShadow s f (quarterOf l))
/-- The word gives each executing lane a result of `n` bits in its destination: the lane's own, the group scalar of the lowest
executing lane (R158), or entries of a queue register; its flags are ORed into the lane's status (R24); the shadows of what it writes
are the word's own or the plain ones, in each quarter with an executing lane (R23); and nothing else changes.  Three of its clauses are the
model's choice in part (log entry 71): a 32-bit result leaves zeros above it in a group scalar; a word that pops `mqo` and
has no shadow of its own gives the popped entry's; and a 64-bit result gives one shadow to both registers it writes. -/
structure Gave (s : State) (i : Instr) (f : Form) (d : Dst) (n : Nat) (r : Nat → Res) (sh : Nat → Option Shadow) (t : State) : Prop where
  frame : Framed s i f t
  lanes : ∀ l ∈ executing s i, (groupIn s t).lane l = Lane.orFlags ((stand s f (s.clane l)).write d n ((r l).v % 2 ^ 128)) (r l).fl
  scalars : (groupIn s t).g = scalarsAfter d s.cgroup.g (executing s i).head? fun l => (r l).v
  mqa : (groupIn s t).mqa.map (·.words) = s.cgroup.mqa.map (·.words) ++ (if d = .mqa then pushedWords (executing s i) n fun l => (r l).v else [])
  mqb : (groupIn s t).mqb.map (·.words) = s.cgroup.mqb.map (·.words) ++ (if d = .mqb then pushedWords (executing s i) n fun l => (r l).v else [])
  shadows : (∀ k, d ≠ .n k) → d ≠ .push → (groupIn s t).quarters = s.cgroup.quarters
  regShadows : ∀ q k, (∀ r, d = .n r → k < r.val ∨ r.val + (n + 31) / 32 ≤ k) →
    Tbl.get (Tbl.get (groupIn s t).quarters q {}).regs k {} = Tbl.get (Tbl.get s.cgroup.quarters q {}).regs k {}
  written : ∀ k j, d = .n k → j < (n + 31) / 32 → ∀ l ∈ executing s i, (∀ m ∈ executing s i, quarterOf m = quarterOf l → sh m = sh l) →
    Tbl.get (Tbl.get (groupIn s t).quarters (quarterOf l) {}).regs (k.val + j) {} = shadowOf s f sh l
  pushed : (∃ k, d = .n k) ∨ d = .push → ∀ q, q < 4 → (Tbl.get (groupIn s t).quarters q {}).queue =
    match (executing s i).find? (quarterOf · == q) with
    | some l => (List.replicate (if n ≤ 64 then 1 else 2) (shadowOf s f sh l) ++ (Tbl.get s.cgroup.quarters q {}).queue).take 16
    | none => (Tbl.get s.cgroup.quarters q {}).queue
/-- The word changes each executing lane alone, by a function that leaves its registers' shadows out. -/
structure Did (s : State) (i : Instr) (f : Form) (r : Nat → Lane → Lane) (t : State) : Prop where
  frame : Framed s i f t
  lanes : ∀ l ∈ executing s i, (groupIn s t).lane l = r l (stand s f (s.clane l))
  scalars : (groupIn s t).g = s.cgroup.g
  mqa : (groupIn s t).mqa = s.cgroup.mqa
  mqb : (groupIn s t).mqb = s.cgroup.mqb
  shadows : (groupIn s t).quarters = s.cgroup.quarters
/-- An instruction with a result: wherever it is ready, it completes with the result `r` gives from the state, the lane and the lane's
operands, and the shadow `sh` gives. -/
def GivesShadow (i : Instr) (d : Dst) (n : Nat) (r : State → Nat → List Nat → Res) (sh : State → Nat → Option Shadow) : Prop :=
  ∀ s f vs, Ready s i f vs → Takes s d n →
    ∃ t, Sys2Proof.Machine.exec i s = .next t ∧ Gave s i f d n (fun l => r s l (vs l)) (sh s) t
/-- The same with the plain shadows. -/
def Gives (i : Instr) (d : Dst) (n : Nat) (r : State → Nat → List Nat → Res) : Prop := GivesShadow i d n r fun _ _ => none
/-- The same for a word whose lanes read each other's operands: `r` and `sh` are given the operands of every executing lane. -/
def GivesAcross (i : Instr) (d : Dst) (n : Nat) (r : State → Rows → Nat → List Nat → Res) (sh : State → Rows → Nat → Option Shadow) : Prop :=
  ∀ s f vs, Ready s i f vs → Takes s d n →
    ∃ t, Sys2Proof.Machine.exec i s = .next t ∧
      Gave s i f d n (fun l => r s ((executing s i).map fun l => (l, vs l)) l (vs l)) (sh s ((executing s i).map fun l => (l, vs l))) t
/-- No shadow of its own. -/
def plain (_ : State) (_ : Rows) (_ : Nat) : Option Shadow := none
/-- An instruction that changes each executing lane alone, where `ok` holds of its operands in every executing lane. -/
def Does (i : Instr) (ok : State → Nat → List Nat → Prop) (r : State → Nat → List Nat → Lane → Lane) : Prop :=
  ∀ s f vs, Ready s i f vs → (∀ l ∈ executing s i, ok s l (vs l)) →
    ∃ t, Sys2Proof.Machine.exec i s = .next t ∧ Did s i f (fun l => r s l (vs l)) t
/-- The reservation that a destination `mqa` or `mqb` needs (R229). -/
def Held (s : State) (f : Form) : Prop := ∀ x, f.dst = some x → mqOf x.1 ≠ none → s.holds s.chain.core s.chain.grp = true
/-- A word whose lanes each take the effects that `o` says: wherever it is ready, `o` holds in every executing lane and the group's
tables have room, the chain takes exactly these effects. -/
def PerformsEach (i : Instr) (o : State → Nat → List Nat → List Eff → Prop) : Prop :=
  ∀ s f vs es, Ready s i f vs → Held s f → (∀ l ∈ executing s i, o s l (vs l) (es l)) → Room s i f es →
    Sys2Proof.Machine.exec i s = .next (after s i f es)
/-- A word performed once per chain: the lowest-numbered executing lane takes the effects that `o` says, the others none (R223). -/
def PerformsOnce (i : Instr) (o : State → LaneSet → Nat → List Nat → List Eff → Prop) : Prop :=
  ∀ s f vs l rest es, Ready s i f vs → Held s f → executing s i = l :: rest → o s (laneSetOf (executing s i)) l (vs l) es →
    Room s i f (fun k => if k = l then es else []) →
    Sys2Proof.Machine.exec i s = .next (after s i f fun k => if k = l then es else [])
/-- Lane by lane, each as `o` says in the state after the lanes before it. -/
def InTurn (o : State → Nat → List Nat → List Eff → Prop) (es : Nat → List Eff) : State → Rows → Prop
  | _, [] => True
  | z, p :: rest => o z p.1 p.2 (es p.1) ∧ InTurn o es ((es p.1).foldl (fun z e => z.perform z.chain.core z.chain.grp p.1 e) z) rest
/-- A word whose lanes act in ascending order, each after those before it (R183, R308). -/
def PerformsInTurn (i : Instr) (o : State → Nat → List Nat → List Eff → Prop) : Prop :=
  ∀ s f vs es, Ready s i f vs → Held s f → InTurn o es s ((executing s i).map fun l => (l, vs l)) → Room s i f es →
    Sys2Proof.Machine.exec i s = .next (after s i f es)
/-- A word whose lanes read each other's operands and take the effects that `o` says. -/
def PerformsAcross (i : Instr) (o : State → Rows → Nat → List Nat → List Eff → Prop) : Prop :=
  ∀ s f vs es, Ready s i f vs → Held s f → (∀ l ∈ executing s i, o s ((executing s i).map fun l => (l, vs l)) l (vs l) (es l)) →
    Room s i f es → Sys2Proof.Machine.exec i s = .next (after s i f es)

/-! ### Taking a trap (R318) -/
/-- The lanes enter the handler when they trap: their context has a vector, and none is in a handler or over. -/
def Handles (s : State) (ls : List Nat) : Prop := (s.ctx s.cctx).tvec ≠ 0 ∧ ∀ l ∈ ls, (s.clane l).h = false ∧ (s.clane l).mode ≠ .exited
/-- A lane at the handler's entry. -/
def entered (s : State) (c : Cause) (a : DWord) (x : Lane) : Lane :=
  { x with
    frame := { queue := x.queue, preds := x.preds, rpPc := x.pc, rpSlot := s.chain.first, skip := decide (c = .softwareTrap ∨ c = .breakpoint)
               tpc0 := x.pc }
    tcause := BitVec.ofNat 32 (causeCode c), taddr := a, tpc := x.pc, h := true, pc := (s.ctx s.cctx).tvec, slot := 0, mode := .ready
    ticket := none
    since := timeAfter s }
/-- The chain has no effect in the lanes `ls`, which enter the handler; the other lanes of the chain stand after it; and nothing else
changes. -/
structure Trapped (s : State) (f : Form) (ls : List Nat) (c : Cause) (a : Nat → DWord) (t : State) : Prop where
  whole : t = { s.setGroup s.chain.core s.chain.grp (groupIn s t) with chain := s.chain.finished, now := clockAfter s }
  group : groupIn s t = { s.cgroup with lanes := (groupIn s t).lanes, j := (groupIn s t).j }
  traps : ∀ l ∈ ls, (groupIn s t).lane l = entered s c (a l) (s.clane l)
  idle : ∀ l ∈ lanesOf s.chain.lanes, l ∉ ls → (groupIn s t).lane l = stand s f (s.clane l)
  others : ∀ l, l ∉ lanesOf s.chain.lanes → (groupIn s t).lane l = s.clane l ∨
    ((∃ j, (s.clane l).mode = .joined j) ∧ (groupIn s t).lane l = { s.clane l with mode := .ready })
  masks : ∀ j, Tbl.get (groupIn s t).j j 0 = Tbl.get s.cgroup.j j 0 ∨ Tbl.get (groupIn s t).j j 0 = 0
/-- An instruction whose executing lanes trap on a cause, each with the address `o` says. -/
def Traps (i : Instr) (c : Cause) (o : State → Nat → List Nat → DWord → Prop) : Prop :=
  ∀ s f vs a, Ready s i f vs → Handles s (executing s i) → (∀ l ∈ executing s i, o s l (vs l) (a l)) →
    ∃ t, Sys2Proof.Machine.exec i s = .next t ∧ Trapped s f (executing s i) c a t
/-- The word of the chain where some executing lanes trap on a cause, with the addresses `a` gives, and the others take effects. -/
def mixedWith (s : State) (i : Instr) (f : Form) (es : Nat → List Eff) (c : Cause) (a : Nat → Option DWord) : WordOut :=
  { wordWith s i f es with outs := (executing s i).map fun l => (l, match a l with | some x => .trap c x | none => .ok (es l)) }
/-- The chain has taken effect in the lanes that do not trap, which gives `u`; the others have had none of it, and enter the handler; and
nothing else differs from `u`. -/
structure TrappedSome (s : State) (i : Instr) (c : Cause) (a : Nat → Option DWord) (u t : State) : Prop where
  whole : t = { u.setGroup s.chain.core s.chain.grp (groupIn s t) with chain := s.chain.finished, now := clockAfter s }
  group : groupIn s t = { groupIn s u with lanes := (groupIn s t).lanes, j := (groupIn s t).j }
  traps : ∀ l ∈ executing s i, ∀ x, a l = some x → (groupIn s t).lane l = entered s c x (s.clane l)
  rest : ∀ l ∈ lanesOf s.chain.lanes, l ∉ executing s i ∨ a l = none → (groupIn s t).lane l = (groupIn s u).lane l
  others : ∀ l, l ∉ lanesOf s.chain.lanes → (groupIn s t).lane l = (groupIn s u).lane l ∨
    ((∃ j, ((groupIn s u).lane l).mode = .joined j) ∧ (groupIn s t).lane l = { (groupIn s u).lane l with mode := .ready })
/-- An instruction of which some executing lanes trap on a cause, each with an address that `bad` says, while the others take the effects
that `good` says: no conflict completes, there is room, and no lane loads a queue register, at which all wait together (R230). -/
def TrapsSome (i : Instr) (c : Cause) (bad : State → Rows → Nat → List Nat → DWord → Prop) (good : State → Rows → Nat → List Nat → List Eff → Prop) :
    Prop :=
  ∀ s f vs es a, Ready s i f vs → Held s f →
    (∀ l ∈ executing s i, match a l with
      | some x => bad s ((executing s i).map fun l => (l, vs l)) l (vs l) x ∧ Handles s [l]
      | none => good s ((executing s i).map fun l => (l, vs l)) l (vs l) (es l) ∧ ∀ e ∈ es l, e.loadsMq = false) →
    let s1 := s.addWord i f (mixedWith s i f es c a)
    let ok := (lanesOf s.chain.lanes).filter fun l => !((executing s i).contains l && (a l).isSome)
    s1.races s1.chain ok = [] → s1.hasRoom s1.chain ok = true →
    ∃ t, Sys2Proof.Machine.exec i s = .next t ∧ TrappedSome s i c a (s1.effects s1.chain (timeAfter s) ok) t
/-- A word that fails a check of R49 in a chain whose earlier words have done nothing: every lane of the chain traps, with the decode
report of the word (R51, R52). -/
def Rejects (s : State) (i : Instr) (f : Form) (c : Cause) (sub : Nat) : Prop :=
  i.form = some f → s.chain.active = true → lanesOf s.chain.lanes ≠ [] → Quiet s.chain → s.cgroup.spec = none →
    Handles s (lanesOf s.chain.lanes) →
    ∃ t, Sys2Proof.Machine.exec i s = .next t ∧ Trapped s f (lanesOf s.chain.lanes) c (fun _ => s.report sub) t

end Sys2Proof.Safety
end

