-- ==== Sys2Proof/Certificates/Slice0/Obligations.lean ====
section
/-! DEFINITION. The statements for the provers.  `Gives`, `GivesAcross`, `Does` and the `Performs` family, with `Ready`, `Takes`, `Held`
and `Room`, are defined in Safety.lean; each says of an instruction that it completes, with what effect, and what it leaves alone. -/
open Sys2Proof Sys2Proof.Machine Sys2Proof.Safety

namespace Sys2Proof.Rules

/-- The reading of a `w`-bit operand that U chooses (R79). -/
def read (w : Nat) (u : Bool) (a : Nat) : Int := if u then (a : Int) else sgn w a
/-- An exact integer reduced modulo `2^w`. -/
def wrap (w : Nat) (x : Int) : Nat := (x % (2 ^ w : Nat)).toNat
/-- SAT of an exact integer into the range of a `w`-bit value, with the flag SAT where it changes the value (R81). -/
def saturated (w : Nat) (u : Bool) (x : Int) : Res :=
  let lo : Int := if u then 0 else -(2 ^ (w - 1) : Nat)
  let hi : Int := if u then (2 ^ w - 1 : Nat) else (2 ^ (w - 1) - 1 : Nat)
  let y := max lo (min x hi)
  ⟨wrap w y, { sat := decide (y ≠ x) }⟩
/-- `idiv` (R81). -/
def quotient (w : Nat) (u : Bool) (a b : Nat) : Res :=
  if b = 0 then ⟨0, { dz := true }⟩
  else if u then ⟨a / b, {}⟩
  else if sgn w a = -(2 ^ (w - 1) : Nat) ∧ sgn w b = -1 then ⟨2 ^ (w - 1) - 1, { sat := true }⟩
  else ⟨wrap w ((sgn w a).tdiv (sgn w b)), {}⟩
/-- `irem` (R81). -/
def remainder (w : Nat) (u : Bool) (a b : Nat) : Res :=
  if b = 0 then ⟨0, { dz := true }⟩
  else if u then ⟨a % b, {}⟩
  else ⟨wrap w (sgn w a - sgn w b * (sgn w a).tdiv (sgn w b)), {}⟩
/-- The field of a descriptor, extracted (R82). -/
def field (w : Nat) (u : Bool) (a desc : Nat) : Nat :=
  let pos := desc % 256
  let len := min (desc / 256 % 256) w
  let x := a / 2 ^ pos % 2 ^ len
  if len = 0 then 0 else if u then x else wrap w (sgn len x)
/-- The new value of a predicate under a combine: 1 `and`, 2 `or`, else the condition itself (R85). -/
def combined (k : BitVec 3) (old c : Bool) : Bool := if k = 1 then old && c else if k = 2 then old || c else c
/-- A condition over integers (R42, R86); `icmp` does not admit 6 and 7. -/
def holds (c : Cond) (x y : Int) : Bool :=
  match c with
  | .eq => x == y
  | .ne => x != y
  | .lt => decide (x < y)
  | .le => decide (x ≤ y)
  | .gt => decide (y < x)
  | .ge => decide (y ≤ x)
  | .un => false
  | .or => true
/-- What a compare writes in a lane: the predicate it names, combined with its value before the chain (R85). -/
def compared (p : PDst) (c : State → Nat → List Nat → Bool) (s : State) (l : Nat) (v : List Nat) (x : Lane) : Lane :=
  x.writePred p.p.toNat (combined p.comb ((s.clane l).preds.getLsbD p.p.toNat) (c s l v))
/-- No condition on the operands. -/
def always (_ : State) (_ : Nat) (_ : List Nat) : Prop := True

end Sys2Proof.Rules
open Sys2Proof.Rules

/-! ### Integer words (R81 to R84, R95) -/
/-- R81, rows 0 to 9: the arithmetic of IALU, at both widths, with its flags. -/
def Obligations.IntegerArithmetic : Prop := ∀ (d : Dst) (a b : Src) (w u : Bool),
  Gives (.iadd false d a b w u false) d (bw w) (fun _ _ v => ⟨(arg v 0 + arg v 1) % 2 ^ bw w, {}⟩) ∧
  Gives (.iadd false d a b w u true) d (bw w) (fun _ _ v => saturated (bw w) u (read (bw w) u (arg v 0) + read (bw w) u (arg v 1))) ∧
  Gives (.isub false d a b w u false) d (bw w) (fun _ _ v => ⟨wrap (bw w) ((arg v 0 : Int) - arg v 1), {}⟩) ∧
  Gives (.isub false d a b w u true) d (bw w) (fun _ _ v => saturated (bw w) u (read (bw w) u (arg v 0) - read (bw w) u (arg v 1))) ∧
  Gives (.imul false d a b w) d (bw w) (fun _ _ v => ⟨(arg v 0 * arg v 1) % 2 ^ bw w, {}⟩) ∧
  Gives (.imulh false d a b w u) d (bw w)
    (fun _ _ v => ⟨wrap (bw w) (read (bw w) u (arg v 0) * read (bw w) u (arg v 1) / (2 ^ bw w : Nat)), {}⟩) ∧
  Gives (.idiv false d a b w u) d (bw w) (fun _ _ v => quotient (bw w) u (arg v 0) (arg v 1)) ∧
  Gives (.irem false d a b w u) d (bw w) (fun _ _ v => remainder (bw w) u (arg v 0) (arg v 1)) ∧
  Gives (.imin false d a b w u) d (bw w)
    (fun _ _ v => ⟨if read (bw w) u (arg v 0) ≤ read (bw w) u (arg v 1) then arg v 0 else arg v 1, {}⟩) ∧
  Gives (.imax false d a b w u) d (bw w)
    (fun _ _ v => ⟨if read (bw w) u (arg v 0) ≤ read (bw w) u (arg v 1) then arg v 1 else arg v 0, {}⟩) ∧
  Gives (.iabs false d a w) d (bw w) (fun _ _ v => ⟨(sgn (bw w) (arg v 0)).natAbs % 2 ^ bw w, {}⟩) ∧
  Gives (.ineg false d a w) d (bw w) (fun _ _ v => ⟨wrap (bw w) (-(arg v 0 : Int)), {}⟩)

/-- R81, rows 10 to 24 and 28: the logic, shifts, rotates and bit counts of IALU. -/
def Obligations.IntegerLogicAndShifts : Prop := ∀ (d : Dst) (a b : Src) (w u : Bool),
  Gives (.and false d a b w) d (bw w) (fun _ _ v => ⟨arg v 0 &&& arg v 1, {}⟩) ∧
  Gives (.or false d a b w) d (bw w) (fun _ _ v => ⟨arg v 0 ||| arg v 1, {}⟩) ∧
  Gives (.xor false d a b w) d (bw w) (fun _ _ v => ⟨arg v 0 ^^^ arg v 1, {}⟩) ∧
  Gives (.andn false d a b w) d (bw w) (fun _ _ v => ⟨arg v 0 &&& (~~~BitVec.ofNat (bw w) (arg v 1)).toNat, {}⟩) ∧
  Gives (.not false d a w) d (bw w) (fun _ _ v => ⟨(~~~BitVec.ofNat (bw w) (arg v 0)).toNat, {}⟩) ∧
  Gives (.shl false d a b w) d (bw w) (fun _ _ v => ⟨arg v 0 * 2 ^ (arg v 1 % bw w) % 2 ^ bw w, {}⟩) ∧
  Gives (.shr false d a b w) d (bw w) (fun _ _ v => ⟨arg v 0 / 2 ^ (arg v 1 % bw w), {}⟩) ∧
  Gives (.sar false d a b w) d (bw w) (fun _ _ v => ⟨wrap (bw w) (sgn (bw w) (arg v 0) / (2 ^ (arg v 1 % bw w) : Nat)), {}⟩) ∧
  Gives (.rol false d a b w) d (bw w)
    (fun _ _ v => ⟨arg v 0 * 2 ^ (arg v 1 % bw w) % 2 ^ bw w + arg v 0 / 2 ^ (bw w - arg v 1 % bw w), {}⟩) ∧
  Gives (.ror false d a b w) d (bw w)
    (fun _ _ v => ⟨arg v 0 / 2 ^ (arg v 1 % bw w) + arg v 0 * 2 ^ (bw w - arg v 1 % bw w) % 2 ^ bw w, {}⟩) ∧
  Gives (.clz false d a w) d (bw w) (fun _ _ v => ⟨leadZeros (bw w) (arg v 0), {}⟩) ∧
  Gives (.ctz false d a w) d (bw w) (fun _ _ v => ⟨trailZeros (bw w) (arg v 0), {}⟩) ∧
  Gives (.popc false d a w) d (bw w) (fun _ _ v => ⟨popCount (bw w) (arg v 0), {}⟩) ∧
  Gives (.brev false d a w) d (bw w) (fun _ _ v => ⟨bitReverse (bw w) (arg v 0), {}⟩) ∧
  Gives (.bswap false d a w) d (bw w) (fun _ _ v => ⟨byteReverse (bw w / 8) (arg v 0), {}⟩) ∧
  Gives (.shrr false d a b w u) d (bw w) (fun _ _ v =>
    let c := arg v 1 % bw w
    ⟨if c = 0 then arg v 0 else wrap (bw w) ((read (bw w) u (arg v 0) + (2 ^ (c - 1) : Nat)) / (2 ^ c : Nat)), {}⟩)

/-- R81, rows 20 to 24: what the bit counts and the two reversals count and move, for every operand of the width. -/
def Obligations.BitCountsAndReversals : Prop := ∀ w a : Nat, a < 2 ^ w →
  leadZeros w a ≤ w ∧ (∀ k, k < leadZeros w a → a.testBit (w - 1 - k) = false) ∧ (a ≠ 0 → a.testBit (w - 1 - leadZeros w a) = true) ∧
  trailZeros w a ≤ w ∧ (∀ k, k < trailZeros w a → a.testBit k = false) ∧ (a ≠ 0 → a.testBit (trailZeros w a) = true) ∧
  popCount w a = ((List.range w).filter fun k => a.testBit k).length ∧
  (∀ k, k < w → (bitReverse w a).testBit k = a.testBit (w - 1 - k)) ∧
  (∀ n k, a < 256 ^ n → k < n → byteReverse n a / 256 ^ k % 256 = a / 256 ^ (n - 1 - k) % 256)

/-- R81 rows 25 to 27 and R82, R83, R95: field extraction and insertion, `lea`, `mov`, `sel`, `mad`.  That `mov.w` from a named pair gives the
shadow of the pair's even register to both registers and to the pushed position is log entry 71 (DESIGN CHOICE). -/
def Obligations.FieldsMovesAndSelects : Prop := ∀ (d : Dst) (a b c : Src) (w u : Bool),
  Gives (.bfe false d a b w u) d (bw w) (fun _ _ v => ⟨field (bw w) u (arg v 0) (arg v 1), {}⟩) ∧
  Gives (.lea false d a b w) d 64 (fun _ _ v => ⟨wrap 64 ((arg v 0 : Int) + if w then (arg v 1 : Int) else sgn 32 (arg v 1)), {}⟩) ∧
  GivesShadow (.mov false d a w) d (bw w) (fun _ _ v => ⟨arg v 0, {}⟩) (fun s l => some (s.srcShadow l a)) ∧
  Gives (.sel false d a b w) d (bw w) (fun s l v => ⟨if s.guardOn l then arg v 0 else arg v 1, {}⟩) ∧
  Gives (.mad false d a b c) d 32 (fun _ _ v => ⟨(arg v 0 * arg v 1 + arg v 2) % 2 ^ 32, {}⟩) ∧
  (∀ i ∈ [Instr.bfi false d a b c, .mad false d a b c], i.form.map (·.pipe) = some .i) ∧
  ∃ r : State → Nat → List Nat → Res, Gives (.bfi false d a b c) d 32 r ∧ ∀ s l v, (r s l v).fl = {} ∧ (r s l v).v < 2 ^ 32 ∧
    ∀ k, k < 32 → (r s l v).v.testBit k =
      if arg v 2 % 256 ≤ k ∧ k < arg v 2 % 256 + min (arg v 2 / 256 % 256) 32 then (arg v 1).testBit (k - arg v 2 % 256) else (arg v 0).testBit k

/-- R84: the immediate forms. -/
def Obligations.ImmediateForms : Prop := ∀ (d : Dst) (a : Src) (k : BitVec 11) (h w : Bool) (c : BitVec 5) (m : BitVec 17),
  Gives (.iaddi false d a k) d 32 (fun _ _ v => ⟨wrap 32 ((arg v 0 : Int) + k.toInt), {}⟩) ∧
  Gives (.andi false d a k) d 32 (fun _ _ v => ⟨arg v 0 &&& (k.signExtend 32).toNat, {}⟩) ∧
  Gives (.ori false d a k) d 32 (fun _ _ v => ⟨arg v 0 ||| (k.signExtend 32).toNat, {}⟩) ∧
  Gives (.xori false d a k) d 32 (fun _ _ v => ⟨arg v 0 ^^^ (k.signExtend 32).toNat, {}⟩) ∧
  Gives (.shli false d a h w c) d (bw w) (fun _ _ v => ⟨arg v 0 * 2 ^ ((c.toNat + if h then 32 else 0) % bw w) % 2 ^ bw w, {}⟩) ∧
  Gives (.shri false d a h w c) d (bw w) (fun _ _ v => ⟨arg v 0 / 2 ^ ((c.toNat + if h then 32 else 0) % bw w), {}⟩) ∧
  Gives (.sari false d a h w c) d (bw w)
    (fun _ _ v => ⟨wrap (bw w) (sgn (bw w) (arg v 0) / (2 ^ ((c.toNat + if h then 32 else 0) % bw w) : Nat)), {}⟩) ∧
  Gives (.movi false d m) d 32 (fun _ _ _ => ⟨(m.signExtend 32).toNat, {}⟩) ∧
  ∀ i ∈ [Instr.iaddi false d a k, .andi false d a k, .ori false d a k, .xori false d a k, .shli false d a h w c, .shri false d a h w c,
    .sari false d a h w c, .movi false d m], i.form.map (·.pipe) = some .i

/-! ### Compares and predicates (R85 to R88) -/
/-- R85, R86, R88: the compares, `plog` and `setp` write the predicate they name, combined as D says, and nothing else. -/
def Obligations.Compares : Prop := ∀ (p : PDst) (a b : Src) (c : Cond) (x y : PSrc) (o : PLog),
  Does (.icmpS false p a b c) always (compared p fun _ _ v => holds c (sgn 32 (arg v 0)) (sgn 32 (arg v 1))) ∧
  Does (.icmpU false p a b c) always (compared p fun _ _ v => holds c (arg v 0) (arg v 1)) ∧
  Does (.icmpSW false p a b c) always (compared p fun _ _ v => holds c (sgn 64 (arg v 0)) (sgn 64 (arg v 1))) ∧
  Does (.icmpUW false p a b c) always (compared p fun _ _ v => holds c (arg v 0) (arg v 1)) ∧
  Does (.fcmpF32 false p a b c) always (compared p fun _ _ v => fcmpC f32 c (arg v 0) (arg v 1)) ∧
  Does (.fcmpF16 false p a b c) always (compared p fun _ _ v => fcmpC f16 c (arg v 0) (arg v 1)) ∧
  Does (.plog false p x y o) always (compared p fun s l _ =>
    let m := (s.clane l).preds.getLsbD x.p.toNat != x.neg
    let n := (s.clane l).preds.getLsbD y.p.toNat != y.neg
    match o with | .and => m && n | .or => m || n | .xor => m != n | .andn => m && !n) ∧
  Does (.setp false p a) always (compared p fun _ _ v => decide (arg v 0 ≠ 0)) ∧
  ∀ t : FTy, Does (.fclass false p a b t) always (compared p fun _ _ v => (arg v 1).testBit (fclassIdx t.fmt (arg v 0)))

/-- R21: a write of a predicate changes that predicate alone, and none changes `p0`. -/
def Obligations.PredicateWrites : Prop := ∀ (x : Lane) (p k : Nat) (v : Bool), p < 8 → k < 8 →
  (x.writePred p v).preds.getLsbD k = (if k = p ∧ p ≠ 0 then v else x.preds.getLsbD k) ∧
  { x.writePred p v with preds := x.preds } = x

/-- R86, R87: comparisons of NaN operands, −0 = +0, ordered operands by their magnitudes and signs, for FP32 and FP16, reading the operand's low
bits; and the class of every encoding, for FP32, FP16 and BF16: `w` is the width, `m` the fraction's, `inf` the code of +∞. -/
def Obligations.FloatComparisons : Prop :=
  (∀ f w m inf, (f, w, m, inf) = (f32, 32, 23, 0x7F800000) ∨ (f, w, m, inf) = (f16, 16, 10, 0x7C00) → ∀ a b : Nat, a < 2 ^ w → b < 2 ^ w →
    let x := a % 2 ^ (w - 1)
    let y := b % 2 ^ (w - 1)
    ((inf < x ∨ inf < y) →
      fcmpC f .lt a b = false ∧ fcmpC f .le a b = false ∧ fcmpC f .gt a b = false ∧ fcmpC f .ge a b = false ∧ fcmpC f .eq a b = false ∧
      fcmpC f .ne a b = true ∧ fcmpC f .un a b = true ∧ fcmpC f .or a b = false) ∧
    (x ≤ inf → y ≤ inf →
      let v : Int := if a = x then x else -x
      let u : Int := if b = y then y else -y
      fcmpC f .lt a b = decide (v < u) ∧ fcmpC f .le a b = decide (v ≤ u) ∧ fcmpC f .gt a b = decide (u < v) ∧ fcmpC f .ge a b = decide (u ≤ v) ∧
      fcmpC f .eq a b = decide (v = u) ∧ fcmpC f .ne a b = decide (v ≠ u) ∧ fcmpC f .un a b = false ∧ fcmpC f .or a b = true) ∧
    ∀ c k n, fcmpC f c (a + 2 ^ w * k) (b + 2 ^ w * n) = fcmpC f c a b) ∧
  ∀ f w m inf, (f, w, m, inf) = (f32, 32, 23, 0x7F800000) ∨ (f, w, m, inf) = (f16, 16, 10, 0x7C00) ∨ (f, w, m, inf) = (bf16, 16, 7, 0x7F80) →
    ∀ a k : Nat, a < 2 ^ w →
    let x := a % 2 ^ (w - 1)
    fclassIdx f (a + 2 ^ w * k) = fclassIdx f a ∧ fclassIdx f a ≤ 8 ∧
    (fclassIdx f a = 8 ↔ inf < x) ∧ (fclassIdx f a = 7 ↔ a = inf) ∧ (fclassIdx f a = 0 ↔ a = 2 ^ (w - 1) + inf) ∧
    (fclassIdx f a = 6 ↔ a = x ∧ 2 ^ m ≤ x ∧ x < inf) ∧ (fclassIdx f a = 1 ↔ a ≠ x ∧ 2 ^ m ≤ x ∧ x < inf) ∧
    (fclassIdx f a = 5 ↔ a = x ∧ 0 < x ∧ x < 2 ^ m) ∧ (fclassIdx f a = 2 ↔ a ≠ x ∧ 0 < x ∧ x < 2 ^ m) ∧
    (fclassIdx f a = 4 ↔ a = 0) ∧ (fclassIdx f a = 3 ↔ a = 2 ^ (w - 1))

/-! ### Floating point (R101 to R120) -/
namespace Sys2Proof.Rules
/-- A result computed element by element and rounded once into the word's type (R101, R102): `x` is the exact value of an element. -/
def rounded (t : FTy) (r : Rnd) (x : Nat → Val) : Res := ⟨overTy t fun e => t.fmt.round (x e) r.mode (r.bits e), {}⟩
/-- Element `e` of an operand, as a value. -/
def elem (t : FTy) (a e : Nat) : Val := t.fmt.decode (elemOf t a e)
/-- The value of a finite operand. -/
noncomputable def real (d : Dy) : ℝ := (if d.neg then -1 else 1) * (d.mag : ℝ) * (2 : ℝ) ^ d.exp
/-- The place of a code of `w` bits that is no NaN in the order of R74, in which −0 lies under +0. -/
def place (w x : Nat) : Int := if x < 2 ^ (w - 1) then (x : Int) else (2 ^ (w - 1) : Nat) - (x : Int) - 1
/-- An exact value rounded to FP32, ties to even. -/
def nearest (v : ℝ) (c : Nat) : Prop := ∃ q : Dy, q.sticky = false ∧ real q = v ∧ c = f32.round (.fin q) .rne 0
/-- A step of compensated accumulation of an exact value onto a finite pair (R73): `h` and `l` are the new pair. -/
def compensated (hi lo : Nat) (v : ℝ) (h l : Nat) : Prop := ∀ dh dl, f32.decode hi = .fin dh → f32.decode lo = .fin dl →
  ∃ x d e, nearest v x ∧ ∀ dx, f32.decode x = .fin dx →
    nearest (v - real dx) d ∧ nearest (real dh + real dx) h ∧ (∀ n, f32.decode h = .inf n → l = 0) ∧
    ∀ ds, f32.decode h = .fin ds → nearest (real dh + real dx - real ds) e ∧
      ∀ dd de, f32.decode d = .fin dd → f32.decode e = .fin de → nearest (real dl + real de + real dd) l
end Sys2Proof.Rules

/-- R104, R105: FALU; and what `fround` rounds to, which operand the order of R74 picks, and that `twosum` gives the rounded sum and, where
that is finite, the exact error.  That the zero signs of `fsub` are those of a and −b is log entry 76 (DESIGN CHOICE). -/
def Obligations.FloatArithmetic : Prop := ∀ (d : Dst) (a b : Src) (t : FTy) (m : BitVec 3),
  Gives (.fadd false d a b t) d 32 (fun s l v =>
    rounded t (s.rndOf l 7 (arg v 0) (arg v 1) (arg v 2)) fun e => .sum (s.rndOf l 7 (arg v 0) (arg v 1) (arg v 2)).mode [elem t (arg v 0) e, elem t (arg v 1) e]) ∧
  Gives (.fsub false d a b t) d 32 (fun s l v =>
    rounded t (s.rndOf l 7 (arg v 0) (arg v 1) (arg v 2)) fun e => .sum (s.rndOf l 7 (arg v 0) (arg v 1) (arg v 2)).mode [elem t (arg v 0) e, (elem t (arg v 1) e).neg]) ∧
  Gives (.fmul false d a b t) d 32 (fun s l v =>
    rounded t (s.rndOf l 7 (arg v 0) (arg v 1) (arg v 2)) fun e => (elem t (arg v 0) e).mul (elem t (arg v 1) e)) ∧
  Gives (.fmin false d a b t) d 32 (fun _ _ v => ⟨overTy t fun e => maxP t.fmt false (elemOf t (arg v 0) e) (elemOf t (arg v 1) e), {}⟩) ∧
  Gives (.fmax false d a b t) d 32 (fun _ _ v => ⟨overTy t fun e => maxP t.fmt true (elemOf t (arg v 0) e) (elemOf t (arg v 1) e), {}⟩) ∧
  Gives (.fminm false d a b t) d 32 (fun _ _ v => ⟨overTy t fun e => maxN t.fmt false (elemOf t (arg v 0) e) (elemOf t (arg v 1) e), {}⟩) ∧
  Gives (.fmaxm false d a b t) d 32 (fun _ _ v => ⟨overTy t fun e => maxN t.fmt true (elemOf t (arg v 0) e) (elemOf t (arg v 1) e), {}⟩) ∧
  Gives (.fabs false d a t) d 32 (fun _ _ v => ⟨overTy t fun e => elemOf t (arg v 0) e % 2 ^ (t.fmt.width - 1), {}⟩) ∧
  Gives (.fneg false d a t) d 32 (fun _ _ v => ⟨overTy t fun e => elemOf t (arg v 0) e ^^^ 2 ^ (t.fmt.width - 1), {}⟩) ∧
  Gives (.fcopysign false d a b t) d 32 (fun _ _ v => ⟨overTy t fun e =>
    elemOf t (arg v 0) e % 2 ^ (t.fmt.width - 1) + (if (elemOf t (arg v 1) e).testBit (t.fmt.width - 1) then 2 ^ (t.fmt.width - 1) else 0), {}⟩) ∧
  Gives (.fround false d a m t) d 32 (fun s l v => ⟨fpRound t (s.rndOf l m.toNat (arg v 0) 0 0) (arg v 0), {}⟩) ∧
  Gives (.twosum false d a b) d 64 (fun _ _ v => ⟨(twoSum (arg v 0) (arg v 1)).1 + (twoSum (arg v 0) (arg v 1)).2 <<< 32, {}⟩) ∧
  (∀ (r : Rnd) (x e : Nat), e < (if t.packed then 2 else 1) → let v := elemOf t x e
    let y := elemOf t (fpRound t r x) e
    (t.fmt.decode v = .nan → y = t.fmt.canonNan) ∧ (∀ n, t.fmt.decode v = .inf n → y = v) ∧
    ∀ u, t.fmt.decode v = .fin u → ∃ w, t.fmt.decode y = .fin w ∧ w.neg = u.neg ∧
      real w = (if u.neg then -1 else 1) * (roundAt u 0 r.mode (r.bits e) : ℝ)) ∧
  (∀ f w inf, (f, w, inf) = (f32, 32, 0x7F800000) ∨ (f, w, inf) = (f16, 16, 0x7C00) ∨ (f, w, inf) = (bf16, 16, 0x7F80) →
    ∀ x y : Nat, x < 2 ^ w → y < 2 ^ w → let nan (z : Nat) : Prop := inf < z % 2 ^ (w - 1)
    (nan x ∨ nan y → ∀ k, maxP f k x y = f.canonNan) ∧ (nan x → nan y → ∀ k, maxN f k x y = f.canonNan) ∧
    (nan x → ¬nan y → ∀ k, maxN f k x y = y) ∧ (¬nan x → nan y → ∀ k, maxN f k x y = x) ∧
    (¬nan x → ¬nan y → (∀ k, maxN f k x y = maxP f k x y) ∧ maxP f true x y = (if place w x < place w y then y else x) ∧
      maxP f false x y = if place w y < place w x then y else x)) ∧
  ∀ x y : Nat, x < 2 ^ 32 → y < 2 ^ 32 → let s := (twoSum x y).1
    s = f32.round (.sum .rne [f32.decode x, f32.decode y]) .rne 0 ∧ ((∀ u, f32.decode s ≠ .fin u) → (twoSum x y).2 = 0) ∧
    ∀ u v w, f32.decode x = .fin u → f32.decode y = .fin v → f32.decode s = .fin w →
      ∃ e, f32.decode (twoSum x y).2 = .fin e ∧ real e = real u + real v - real w

/-- R106, R118, R120, R73: the fused multiply-adds and the dot products round the exact value once; the complex ones accumulate the two exact
products of each part with compensation, and a NaN makes its parts canonical NaNs. -/
def Obligations.FusedMultiplyAdds : Prop := ∀ (d : Dst) (a b c : Src),
  let fused (i : Instr) (t : FTy) (neg : Bool) : Prop := Gives i d 32 fun s l v =>
    let r := s.rndOf l 7 (arg v 0) (arg v 1) (arg v 2)
    rounded t r fun e =>
      let p := (elem t (arg v 0) e).mul (elem t (arg v 1) e)
      .sum r.mode [if neg then p.neg else p, elem t (arg v 2) e]
  let dot (i : Instr) (t : FTy) : Prop := Gives i d 32 fun s l v =>
    let r := s.rndOf l 7 (arg v 0) (arg v 1) (arg v 2)
    ⟨f32.round (.sum r.mode [f32.decode (arg v 2 % 2 ^ 32), (elem t (arg v 0) 0).mul (elem t (arg v 1) 0), (elem t (arg v 0) 1).mul (elem t (arg v 1) 1)])
      r.mode (r.bits 0), {}⟩
  fused (.ffmaF32 false d a b c) .f32 false ∧ fused (.ffmaF16x2 false d a b c) .f16x2 false ∧ fused (.ffmaBf16x2 false d a b c) .bf16x2 false ∧
  fused (.ffnmaF32 false d a b c) .f32 true ∧ fused (.ffnmaF16x2 false d a b c) .f16x2 true ∧ fused (.ffnmaBf16x2 false d a b c) .bf16x2 true ∧
  dot (.fdot2F16 false d a b c) .f16x2 ∧ dot (.fdot2Bf16 false d a b c) .bf16x2 ∧
  Gives (.cfma false d a b c) d 128 (fun _ _ v => ⟨fpCfma false (arg v 0) (arg v 1) (arg v 2), {}⟩) ∧
  Gives (.cfmaj false d a b c) d 128 (fun _ _ v => ⟨fpCfma true (arg v 0) (arg v 1) (arg v 2), {}⟩) ∧
  ∀ (conj : Bool) (x y z : Nat), let word (k n : Nat) : Nat := n / 2 ^ (32 * k) % 2 ^ 32
    let out := fpCfma conj x y z
    (∀ ar ai br bi, f32.decode (word 0 x) = .fin ar → f32.decode (word 1 x) = .fin ai → f32.decode (word 0 y) = .fin br →
      f32.decode (word 1 y) = .fin bi →
      compensated (word 0 z) (word 1 z) (real ar * real br + (if conj then 1 else -1) * (real ai * real bi)) (word 0 out) (word 1 out) ∧
      compensated (word 2 z) (word 3 z) ((if conj then -1 else 1) * (real ar * real bi) + real ai * real br) (word 2 out) (word 3 out)) ∧
    ((∃ k, k < 2 ∧ (f32.decode (word k x) = .nan ∨ f32.decode (word k y) = .nan)) → ∀ k, k < 4 → word k out = f32.canonNan) ∧
    (f32.decode (word 0 z) = .nan ∨ f32.decode (word 1 z) = .nan → word 0 out = f32.canonNan ∧ word 1 out = f32.canonNan) ∧
    (f32.decode (word 2 z) = .nan ∨ f32.decode (word 3 z) = .nan → word 2 out = f32.canonNan ∧ word 3 out = f32.canonNan)

namespace Sys2Proof.Rules
/-- What ROUND is given stands for an exact value: its magnitude, of 65 bits or more, is that value's at the exponent, cut off where the mark
says so, and its sign is the value's. -/
def standsFor (q : Dy) (v : ℝ) : Prop :=
  2 ^ 64 ≤ q.mag ∧ (q.mag : ℝ) * (2 : ℝ) ^ q.exp ≤ |v| ∧ |v| < ((q.mag : ℝ) + 1) * (2 : ℝ) ^ q.exp ∧
  (q.sticky = false ↔ |v| = (q.mag : ℝ) * (2 : ℝ) ^ q.exp) ∧ (q.neg = true ↔ v < 0)
/-- A result is the exact value, rounded once (R66). -/
def roundsTo (f : FFmt) (mode : RMode) (r : Nat) (v : ℝ) (c : Nat) : Prop := ∃ q, standsFor q v ∧ c = f.round (.fin q) mode r
end Sys2Proof.Rules

/-- R107, R108, R102: the special functions complete in their type with the control word's rounding; the special operands give the results of
the table; `frcp`, `fsqrt`, `frsq` and `fdiv` round the exact value once, and `fexp2` and `flog2` are exact where the function is: `s` is the
sign's weight, `inf` the code of +∞, `one` and `half'` the codes of 1 and 1/2. -/
def Obligations.SpecialFunctions : Prop :=
  (∀ f s inf one half' w, (f, s, inf, one, half', w) = (f32, 2 ^ 31, 0x7F800000, 0x3F800000, 0x3F000000, 32) ∨
      (f, s, inf, one, half', w) = (f16, 2 ^ 15, 0x7C00, 0x3C00, 0x3800, 16) → ∀ (mode : RMode) (r x y : Nat), x < 2 ^ w → y < 2 ^ w →
    let fn (op : SpecFn) : Nat := specFn op f mode r x
    (inf < x % s → ∀ op, fn op = f.canonNan) ∧
    (x % s = 0 → fn .rcp = x + inf ∧ fn .rsq = x + inf ∧ fn .sqrt = x ∧ fn .exp2 = one ∧ fn .log2 = s + inf ∧ fn .sin = x ∧ fn .cos = one ∧
      fn .tanh = x ∧ fn .sigm = half') ∧
    (x % s = inf → fn .rcp = x - inf ∧ fn .sin = f.canonNan ∧ fn .cos = f.canonNan ∧ fn .tanh = x - inf + one) ∧
    (x = inf → fn .rsq = 0 ∧ fn .sqrt = inf ∧ fn .exp2 = inf ∧ fn .log2 = inf ∧ fn .sigm = one) ∧
    (x = s + inf → fn .exp2 = 0 ∧ fn .sigm = 0) ∧
    (s < x → fn .rsq = f.canonNan ∧ fn .sqrt = f.canonNan ∧ fn .log2 = f.canonNan) ∧
    let quo : Nat := if x / s = y / s then 0 else s
    (((inf < x % s ∨ inf < y % s ∨ (x % s = 0 ∧ y % s = 0) ∨ (x % s = inf ∧ y % s = inf)) → fdivOp f mode r x y = f.canonNan) ∧
      (0 < x % s → x % s ≤ inf → y % s = 0 → fdivOp f mode r x y = quo + inf) ∧
      (x % s = inf → y % s < inf → fdivOp f mode r x y = quo + inf) ∧
      (x % s < inf → y % s = inf → fdivOp f mode r x y = quo) ∧
      (x % s = 0 → 0 < y % s → y % s < inf → fdivOp f mode r x y = quo)) ∧
    ∀ a, f.decode x = .fin a → a.mag ≠ 0 →
      roundsTo f mode r (1 / real a) (fn .rcp) ∧
      (a.neg = false → roundsTo f mode r (Real.sqrt (real a)) (fn .sqrt) ∧ roundsTo f .rne 0 (1 / Real.sqrt (real a)) (fn .rsq)) ∧
      (∀ b, f.decode y = .fin b → b.mag ≠ 0 → roundsTo f mode r (real a / real b) (fdivOp f mode r x y)) ∧
      (∀ n : Int, real a = n → fn .exp2 = f.round (.fin ⟨false, 1, n, false⟩) .rne 0) ∧
      (∀ n : Int, real a = (2 : ℝ) ^ n → fn .log2 = f.round (.fin (Dy.ofInt n 0)) .rne 0)) ∧
  ∀ (d : Dst) (a b : Src) (half : Bool),
  let fn (i : Instr) (op : SpecFn) : Prop := Gives i d 32 fun s l v =>
    let r := s.rndOf l 7 (arg v 0) (arg v 1) (arg v 2)
    ⟨specFn op (if half then f16 else f32) r.mode (r.bits 0) (arg v 0), {}⟩
  fn (.frcp false d a half) .rcp ∧ fn (.frsq false d a half) .rsq ∧ fn (.fsqrt false d a half) .sqrt ∧ fn (.fexp2 false d a half) .exp2 ∧
  fn (.flog2 false d a half) .log2 ∧ fn (.fsin false d a half) .sin ∧ fn (.fcos false d a half) .cos ∧ fn (.ftanh false d a half) .tanh ∧
  fn (.fsigm false d a half) .sigm ∧
  Gives (.fdiv false d a b half) d 32 fun s l v =>
    let r := s.rndOf l 7 (arg v 0) (arg v 1) (arg v 2)
    ⟨fdivOp (if half then f16 else f32) r.mode (r.bits 0) (arg v 0) (arg v 1), {}⟩

/-- R110, R112 to R114, R75: the conversions, with the flag CLAMP where they set it; and the value of each type pair, of a dequantised code, of
`fldexp`, `fexpo` and `srnd`. -/
def Obligations.Conversions : Prop := ∀ (d : Dst) (a : Src) (p : BitVec 6) (m : BitVec 3),
  Gives (.cvtF false d a p m) d (wdBits (cvtDstWd p)) (fun s l v => ⟨cvtFPair p.toNat (s.rndOf l m.toNat (arg v 0) 0 0) (arg v 0), {}⟩) ∧
  Gives (.cvtIf false d a p m) d 32 (fun s l v => ⟨cvtIfPair p.toNat (s.rndOf l m.toNat (arg v 0) 0 0) (arg v 0), {}⟩) ∧
  Gives (.cvtFi false d a p m) d (wdBits (cvtDstWd p)) (fun s l v => cvtFiPair p.toNat (s.rndOf l m.toNat (arg v 0) 0 0) (arg v 0)) ∧
  GivesShadow (.qnt false d a p m) d 32 (fun s l v =>
    let c := ((s.srcShadow l a).s0).toNat
    let x := (if p.toNat < 0x28 then f32 else bf16).decode (arg v 0 % 2 ^ (if p.toNat < 0x28 then 32 else 16))
    let r := s.rndOf l m.toNat (arg v 0) 0 0
    if c = 0xFF then ⟨0, {}⟩
    else ⟨(enc (efmtOf (p.toNat % 8)) (x.scale (127 - c)) r.mode (r.bits 0)).1, { clamp := (enc (efmtOf (p.toNat % 8)) (x.scale (127 - c)) r.mode (r.bits 0)).2 }⟩)
    (fun s l => some (s.srcShadow l a)) ∧
  GivesShadow (.dqnt false d a p m) d 32 (fun s l v =>
    cvtDqnt (efmtOf (p.toNat % 8)) (if p.toNat < 0x28 then f32 else bf16) ((s.srcShadow l a).s0).toNat (s.rndOf l m.toNat (arg v 0) 0 0) (arg v 0))
    (fun s l => some (s.srcShadow l a)) ∧
  Gives (.fldexp false d a p m) d 32 (fun s l v => ⟨fpLdexp (ldexpTy p.toNat) (s.rndOf l m.toNat (arg v 0) 0 0) (arg v 0), {}⟩) ∧
  Gives (.fexpo false d a p m) d 32 (fun _ _ v => ⟨fpExpo (ldexpTy p.toNat) (arg v 0), {}⟩) ∧
  Gives (.srnd false d a p m) d 32 (fun s l v => srndPair p.toNat (s.rndOf l m.toNat (arg v 0) 0 0) (arg v 0)) ∧
  ∀ (r : Rnd) (x : Nat),
  (∀ y ∈ [(0, f16, f32), (1, bf16, f32), (2, f32, f16), (3, f32, bf16), (4, bf16, f16), (5, f16, bf16)],
    cvtFPair y.1 r x = y.2.2.round (y.2.1.decode (x % 2 ^ y.2.1.width)) r.mode (r.bits 0)) ∧
  (∀ y ∈ [(0, f16), (1, bf16)], ∀ u, y.2.decode (x % 2 ^ 16) = .fin u → ∃ w, f32.decode (cvtFPair y.1 r x) = .fin w ∧ w.neg = u.neg ∧ real w = real u) ∧
  (∀ y ∈ [(6, f32, f16), (7, f32, bf16), (8, f16, f32), (9, bf16, f32)], let n := 2 ^ y.2.1.width
    cvtFPair y.1 r x = y.2.2.round (y.2.1.decode (x % n)) r.mode (r.bits 0) +
      y.2.2.round (y.2.1.decode (x / n % n)) r.mode (r.bits 1) * 2 ^ y.2.2.width) ∧
  (∀ y ∈ [(0x10, 32, false, f32), (0x11, 32, true, f32), (0x12, 64, false, f32), (0x13, 64, true, f32), (0x14, 32, false, f16),
      (0x15, 32, false, bf16), (0x16, 32, true, f16), (0x17, 32, true, bf16)],
    cvtIfPair y.1 r x = y.2.2.2.round (.fin (Dy.ofInt (read y.2.1 y.2.2.1 (x % 2 ^ y.2.1)) 0)) r.mode (r.bits 0)) ∧
  (∀ (f : EFmt) (t : FFmt) (c : Nat), (cvtDqnt f t c r x).fl = {} ∧ (cvtDqnt f t c r x).v =
    if c = 0xFF then t.canonNan else t.round (.fin ((dec f (x % 2 ^ f.bits)).scale ((c : Int) - 127))) r.mode (r.bits 0)) ∧
  (∀ t ∈ [FTy.f32, .f16, .bf16], let w := t.fmt.width
    let n := sgn 32 (x / 2 ^ 32 % 2 ^ 32)
    match t.fmt.decode (x % 2 ^ w) with
    | .nan => fpLdexp t r x = t.fmt.canonNan ∧ fpExpo t x = 0x7FFFFFFF
    | .inf _ => fpLdexp t r x = x % 2 ^ w ∧ fpExpo t x = 0x7FFFFFFF
    | .fin u => (u.mag = 0 → fpLdexp t r x = x % 2 ^ w ∧ fpExpo t x = 0x80000000) ∧
      (u.mag ≠ 0 → fpLdexp t r x = t.fmt.round (.fin (u.scale n)) r.mode (r.bits 0) ∧
        ∃ k : Int, (2 : ℝ) ^ k ≤ |real u| ∧ |real u| < (2 : ℝ) ^ (k + 1) ∧ fpExpo t x = wrap 32 k)) ∧
  (∀ y ∈ [(0x38, bf16), (0x39, f16)], let c := y.2.round (f32.decode (x % 2 ^ 32)) r.mode (r.bits 0)
    let z := (srndPair y.1 r x).v
    (srndPair y.1 r x).fl = {} ∧ (y.2.decode c = .nan → z = f32.canonNan) ∧ (∀ k, y.2.decode c = .inf k → f32.decode z = .inf k) ∧
    ∀ u, y.2.decode c = .fin u → ∃ w, f32.decode z = .fin w ∧ w.neg = u.neg ∧ real w = real u) ∧
  ∀ y ∈ [(0x3A, EFmt.e4m3), (0x3B, .e5m2), (0x3C, .e3m2), (0x3D, .e2m3), (0x3E, .e2m1)], let v := f32.decode (x % 2 ^ 32)
    (v = .nan → srndPair y.1 r x = ⟨f32.canonNan, {}⟩) ∧
    (v ≠ .nan → let e := enc y.2 v r.mode (r.bits 0)
      (srndPair y.1 r x).fl = { clamp := e.2 } ∧ ∃ w, f32.decode (srndPair y.1 r x).v = .fin w ∧ real w = real (dec y.2 e.1) ∧
        (real w = 0 → w.neg = false))

/-- R111: a conversion to an integer rounds toward the mode, clamps to the range, gives 0 for NaN, and sets CLAMP exactly there; the
word gives its pair's conversion (R75), and a 64-bit result in named registers is an even pair. -/
def Obligations.FloatToInteger : Prop :=
  (∀ (f : FFmt) (w : Nat) (u : Bool) (r : Rnd) (x : Nat), f = f32 ∨ f = f16 ∨ f = bf16 → w = 8 ∨ w = 16 ∨ w = 32 ∨ w = 64 →
    let lo : Int := if u then 0 else -(2 ^ (w - 1) : Nat)
    let hi : Int := if u then (2 ^ w - 1 : Nat) else (2 ^ (w - 1) - 1 : Nat)
    match f.decode (x % 2 ^ f.width) with
    | .nan => cvtFI f w u r x = ⟨0, { clamp := true }⟩
    | .inf neg => cvtFI f w u r x = ⟨wrap w (if neg then lo else hi), { clamp := true }⟩
    | .fin d =>
      let n : Int := if d.neg then -(roundAt d 0 r.mode (r.bits 0) : Int) else roundAt d 0 r.mode (r.bits 0)
      cvtFI f w u r x = if n < lo then ⟨wrap w lo, { clamp := true }⟩ else if hi < n then ⟨wrap w hi, { clamp := true }⟩ else ⟨wrap w n, {}⟩) ∧
  ∀ (ch : Bool) (d : Dst) (a : Src) (p : BitVec 6) (m : BitVec 3), (Instr.cvtFi ch d a p m).wf = true →
    (∃ x ∈ [(0x18, f32, 32, false), (0x19, f32, 32, true), (0x1A, f32, 64, false), (0x1B, f32, 64, true), (0x1C, f16, 32, false), (0x1D, bf16, 32, false),
        (0x1E, f32, 16, false), (0x1F, f32, 8, false)],
      x.1 = p.toNat ∧ (∀ r v, cvtFiPair p.toNat r v = cvtFI x.2.1 x.2.2.1 x.2.2.2 r v) ∧ (x.2.2.1 = 64 → ∀ n, d = .n n → n.val % 2 = 0)) ∧
    (ch = false → Gives (.cvtFi false d a p m) d (wdBits (cvtDstWd p)) fun s l v => cvtFiPair p.toNat (s.rndOf l m.toNat (arg v 0) 0 0) (arg v 0))

/-- R65, R68: what a magnitude rounds to at a unit `2^u` above its exponent, in each mode; `n` counts units. -/
def Obligations.RoundingModes : Prop := ∀ (neg : Bool) (mag : Nat) (e : Int) (k r : Nat), 0 < k →
  let d : Dy := ⟨neg, mag, e, false⟩
  roundAt d (e + k) .rtz r = mag / 2 ^ k ∧
  roundAt d (e + k) .rdn r = (if neg then (mag + 2 ^ k - 1) / 2 ^ k else mag / 2 ^ k) ∧
  roundAt d (e + k) .rup r = (if neg then mag / 2 ^ k else (mag + 2 ^ k - 1) / 2 ^ k) ∧
  (let n := roundAt d (e + k) .rne r;
    2 * mag ≤ (2 * n + 1) * 2 ^ k ∧ 2 * n * 2 ^ k ≤ 2 * mag + 2 ^ k ∧
    (2 * mag = (2 * n + 1) * 2 ^ k ∨ 2 * n * 2 ^ k = 2 * mag + 2 ^ k → n % 2 = 0)) ∧
  (roundAt d (e + k) .sr r = mag / 2 ^ k ∨ roundAt d (e + k) .sr r = mag / 2 ^ k + 1) ∧
  (roundAt d (e + k) .sr r = mag / 2 ^ k + 1 ↔ mag % 2 ^ k ≠ 0 ∧ r < mag % 2 ^ k * 2 ^ 32 / 2 ^ k)

/-- R54: a NaN result is the canonical NaN of its format, and a NaN operand makes the sum, product and fused product NaN. -/
def Obligations.NanResults : Prop := ∀ (f : FFmt) (mode : RMode) (r : Nat) (x y : Val),
  f.round .nan mode r = f.canonNan ∧ f32.canonNan = 0x7FC00000 ∧ f16.canonNan = 0x7E00 ∧ bf16.canonNan = 0x7FC0 ∧
  Val.nan.mul x = .nan ∧ x.mul .nan = .nan ∧ Val.sum mode [.nan, x] = .nan ∧ Val.sum mode [x, .nan] = .nan ∧
  Val.sum mode [.inf false, .inf true] = .nan ∧ Val.sum mode [.inf true, .inf false] = .nan ∧
  (∀ b, (Val.inf b).mul (.fin (Dy.zero false)) = .nan) ∧ Val.nan.neg = .nan ∧ Val.sum mode [x, y, .nan] = .nan

/-! ### Packed words (R115 to R117) -/
namespace Sys2Proof.Rules
/-- Element `k` of a packed operand of `ew`-bit elements (R115). -/
def packed (ew : Nat) (u : Bool) (x k : Nat) : Int := read ew u (x / 2 ^ (ew * k) % 2 ^ ew)
/-- The elements of a packed result, put together; SAT where saturation changed one (R115). -/
def assembled (ew n : Nat) (u s : Bool) (x : Nat → Int) : Res :=
  let r (k : Nat) : Res := if s then saturated ew u (x k) else ⟨wrap ew (x k), {}⟩
  ⟨((List.range n).map fun k => (r k).v * 2 ^ (ew * k)).sum, { sat := (List.range n).any fun k => (r k).fl.sat }⟩
end Sys2Proof.Rules

/-- R115, R116: PACK. -/
def Obligations.PackedArithmetic : Prop := ∀ (d : Dst) (a b : Src) (e8 u s : Bool),
  let ew := if e8 then 8 else 16
  let n := if e8 then 4 else 2
  let each (i : Instr) (s : Bool) (op : Int → Int → Int) : Prop := Gives i d 32 fun _ _ v =>
    assembled ew n u s fun k => op (packed ew u (arg v 0) k) (packed ew u (arg v 1) k)
  let widened (i : Instr) (h : Nat) : Prop := Gives i d 32 fun _ _ v =>
    if e8 then assembled 16 2 u false fun k => packed 8 u (arg v 0) (2 * h + k) else ⟨wrap 32 (packed 16 u (arg v 0) h), {}⟩
  each (.padd2 false d a b e8 u s) s (· + ·) ∧ each (.psub2 false d a b e8 u s) s (· - ·) ∧ each (.pmul2 false d a b e8 u s) s (· * ·) ∧
  each (.pmin2 false d a b e8 u) false min ∧ each (.pmax2 false d a b e8 u) false max ∧
  Gives (.pshr2 false d a b e8 u) d 32 (fun _ _ v =>
    assembled ew n u false fun k => packed ew u (arg v 0) k / (2 ^ ((packed ew true (arg v 1) k).toNat % ew) : Nat)) ∧
  Gives (.ppack false d a b e8 u s) d 32 (fun _ _ v =>
    if e8 then assembled 8 4 u s fun k => packed 16 u (if k < 2 then arg v 0 else arg v 1) (k % 2)
    else assembled 16 2 u s fun k => read 32 u ((if k = 0 then arg v 0 else arg v 1) % 2 ^ 32)) ∧
  widened (.punpkLo false d a e8 u) 0 ∧ widened (.punpkHi false d a e8 u) 1 ∧
  Gives (.pabs2 false d a e8 s) d 32 (fun _ _ v => assembled ew n false s fun k => ((packed ew false (arg v 0) k).natAbs : Int))

/-- R117: the saturating dot products. -/
def Obligations.PackedDotProducts : Prop := ∀ (d : Dst) (a b c : Src),
  Gives (.pmac2 false d a b c) d 32 (fun _ _ v => saturated 32 false (sgn 32 (arg v 2) +
    packed 16 false (arg v 0) 0 * packed 16 false (arg v 1) 0 + packed 16 false (arg v 0) 1 * packed 16 false (arg v 1) 1)) ∧
  Gives (.pmac4 false d a b c) d 32 (fun _ _ v => saturated 32 false (sgn 32 (arg v 2) +
    packed 8 false (arg v 0) 0 * packed 8 false (arg v 1) 0 + packed 8 false (arg v 0) 1 * packed 8 false (arg v 1) 1 +
    packed 8 false (arg v 0) 2 * packed 8 false (arg v 1) 2 + packed 8 false (arg v 0) 3 * packed 8 false (arg v 1) 3)) ∧
  ∀ i ∈ [Instr.pmac2 false d a b c, .pmac4 false d a b c], i.form.map (·.pipe) = some .i

/-! ### Cross-lane words (R164 to R170) -/
namespace Sys2Proof.Rules
/-- E(m) and F(m): operand `k` of lane `m`, 0 outside the executing set (R165). -/
def of (rows : Rows) (k m : Nat) : Nat := if m < 32 then ((rows.find? (·.1 == m)).map fun r => arg r.2 k).getD 0 else 0
/-- The same, absent outside the executing set. -/
def present (rows : Rows) (k m : Nat) : Option Nat := if m < 32 then (rows.find? (·.1 == m)).map fun r => arg r.2 k else none
/-- Element `e` of the row of 64 halves (R168). -/
def half (rows : Rows) (k e : Nat) : Nat := of rows k (e / 2) / 2 ^ (16 * (e % 2)) % 2 ^ 16
/-- The mask of the executing lanes whose operand passes a test (R169). -/
def maskOf (rows : Rows) (p : Nat → Bool) : Nat := ((List.range 32).map fun m => if (present rows 0 m).any p then 2 ^ m else 0).sum
/-- TREE over `2^k` positions from `p` (R170). -/
def treeAt (o : RedOp) (v : Nat → Option Nat) : Nat → Nat → Option Nat
  | 0, p => v p
  | k + 1, p => o.opt (treeAt o v k p) (treeAt o v k (p + 2 ^ k))
/-- A 32-bit cross-lane result. -/
def across (i : Instr) (d : Dst) (r : Rows → Nat → List Nat → Nat) : Prop := GivesAcross i d 32 (fun _ rows l v => ⟨r rows l v, {}⟩) plain
end Sys2Proof.Rules

/-- R168: the slides; a carry slide gives both halves. -/
def Obligations.Slides : Prop := ∀ (d : Dst) (a b : Src) (fill : Fill),
  let n := if fill = .carry then 64 else 32
  let wide (lo hi : Nat) : Res := ⟨if fill = .carry then lo + hi * 2 ^ 32 else lo, {}⟩
  GivesAcross (.slideUp false d a b fill) d n (fun _ rows l _ =>
    let lo := if l > 0 then of rows 0 (l - 1) else match fill with | .zero => 0 | .edge => of rows 0 0 | .wrap => of rows 0 31 | .carry => of rows 1 31
    wide lo (if l > 0 then of rows 1 (l - 1) else 0)) plain ∧
  GivesAcross (.slideDn false d a b fill) d n (fun _ rows l _ =>
    let lo := if l < 31 then of rows 0 (l + 1) else match fill with | .zero => 0 | .edge => of rows 0 31 | .wrap => of rows 0 0 | .carry => of rows 1 0
    wide lo (if l < 31 then of rows 1 (l + 1) else 0)) plain ∧
  GivesAcross (.slideH false d a b fill) d n (fun _ rows l _ =>
    let el (e : Nat) : Nat := if e ≥ 1 then half rows 0 (e - 1) else
      match fill with | .zero => 0 | .edge => half rows 0 0 | .wrap => half rows 0 63 | .carry => half rows 1 63
    let hi (e : Nat) : Nat := if e ≥ 1 then half rows 1 (e - 1) else 0
    wide (el (2 * l) + el (2 * l + 1) * 2 ^ 16) (hi (2 * l) + hi (2 * l + 1) * 2 ^ 16)) plain

/-- R169, R170: shuffles, votes, reductions, scan and match. -/
def Obligations.ShufflesAndReductions : Prop := ∀ (d : Dst) (a b : Src) (o : RedOp),
  across (.shfl false d a b) d (fun rows _ v => of rows 0 (arg v 1 % 32)) ∧
  across (.shflx false d a b) d (fun rows l v => of rows 0 (l ^^^ (arg v 1 % 32))) ∧
  across (.bcast false d a b) d (fun rows _ _ => of rows 0 ((rows.head?.map fun r => arg r.2 1).getD 0 % 32)) ∧
  across (.vote false d a .any) d (fun rows _ _ => if rows.any fun r => arg r.2 0 != 0 then 1 else 0) ∧
  across (.vote false d a .all) d (fun rows _ _ => if rows.all fun r => arg r.2 0 != 0 then 1 else 0) ∧
  across (.vote false d a .ballot) d (fun rows _ _ => maskOf rows (· != 0)) ∧
  across (.vote false d a .uniform) d (fun rows _ v => if rows.all fun r => arg r.2 0 == arg v 0 then 1 else 0) ∧
  across (.gred false d a o) d (fun rows _ _ => (treeAt o (present rows 0) 5 0).getD 0) ∧
  across (.qred false d a o) d (fun rows l _ => (treeAt o (present rows 0) 3 (8 * (l / 8))).getD 0) ∧
  across (.gscan false d a o) d (fun rows l _ => ((rows.filter (·.1 ≤ l)).foldl (fun acc r => o.opt acc (some (arg r.2 0))) none).getD 0) ∧
  across (.xmatch false d a) d (fun rows _ v => maskOf rows (· == arg v 0))

/-! ### Block words (R171 to R176) -/
namespace Sys2Proof.Rules
/-- The shadow a block word gives in a lane's quarter: slot `b` for each block with a lane in the executing set, 0x7F elsewhere. -/
def slots (f : EFmt) (l : Nat) (rows : Rows) (c : Nat → Nat) : Option Shadow :=
  let at_ (b : Nat) : Byte :=
    if (b = 0 ∨ f = .e2m1) ∧ (blkMembers f (l / 8) b).any (fun m => rows.any (·.1 == m)) then BitVec.ofNat 8 (c b) else 0x7F
  some ⟨at_ 0, at_ 1⟩
/-- Elements of a lane; the bits of a code's container and of a real element (R60, R171). -/
def perLane (f : EFmt) : Nat := if f = .e2m1 then 8 else 4
def codeBits (f : EFmt) : Nat := if f = .e2m1 then 4 else 8
def realBits (f : EFmt) : Nat := if f = .e2m1 then 16 else 32
/-- Element `k` of a code source, and of a real source, which as an FP32 code is the BF16 code for `e2m1` with zeros behind. -/
def codeOf (f : EFmt) (x k : Nat) : Nat := x / 2 ^ (codeBits f * k) % 2 ^ codeBits f % 2 ^ f.bits
def realOf (f : EFmt) (x k : Nat) : Nat := x / 2 ^ (realBits f * k) % 2 ^ realBits f * 2 ^ (32 - realBits f)
/-- The members of a block in the executing set. -/
def members (f : EFmt) (q b : Nat) (rows : Rows) : List Nat :=
  ((List.range (if f = .e2m1 then 4 else 8)).map (8 * q + (if f = .e2m1 then 4 * b else 0) + ·)).filter fun m => (present rows 0 m).isSome
/-- A block's codes under a scale, an absent lane's taken as 0 (R174). -/
def blockOf (f : EFmt) (q b k : Nat) (rows : Rows) (c : Nat) : Block :=
  ⟨c, ((List.range (if f = .e2m1 then 4 else 8)).map (8 * q + (if f = .e2m1 then 4 * b else 0) + ·)).flatMap fun m =>
    (List.range (perLane f)).map fun i => some (dec f (codeOf f (of rows k m) i))⟩
/-- The exact term of a pair of blocks (R72). -/
noncomputable def term (x y : Block) : ℝ :=
  (2 : ℝ) ^ ((x.eff : Int) + y.eff - 254) * ((x.vals.zip y.vals).map fun p => real p.1 * real p.2).sum
/-- B[7:0] of a block's leader (R171). -/
def leader (f : EFmt) (q b : Nat) (rows : Rows) : Nat := (((blkMembers f q b).findSome? fun m => present rows 1 m).getD 0) % 256
end Sys2Proof.Rules

/-- R171 to R174, R56, R72: maxima, scale choice, quantisation and the operations on scales, with the shadows they write; and the values: DEC,
the maximum of magnitudes, each code and element, and the dot product with its truncation to a window of 28 bits. -/
def Obligations.BlockWords : Prop := ∀ (d : Dst) (a b : Src) (f : EFmt) (pol : BitVec 2),
  across (.bmax false d a f) d (fun rows l _ => bmaxLane f (operandRow rows 0) l) ∧
  GivesAcross (.bscale false d a pol f) d 32 (fun _ _ _ v => bscaleLane f pol.toNat (arg v 0)) plain ∧
  GivesAcross (.bqnt false d a b f) d 32
    (fun s rows l v => bqntLane f (bqntScale f (l / 8) (blkOf f l) (operandRow rows 0) (leader f (l / 8) (blkOf f l) rows)) (s.blkRnd l f (arg v 0) (arg v 1)) (arg v 0))
    (fun _ rows l => slots f l rows fun k => bqntScale f (l / 8) k (operandRow rows 0) (leader f (l / 8) k rows)) ∧
  GivesAcross (.bdqnt false d a f) d 128 (fun s _ l v => ⟨bdqntLane f ((s.srcShadow l a).slot (blkOf f l)) (arg v 0), {}⟩) plain ∧
  GivesAcross (.bsetsc false d a b f) d 32 (fun _ _ _ v => ⟨arg v 0, {}⟩) (fun _ rows l => slots f l rows fun k => leader f (l / 8) k rows) ∧
  GivesAcross (.bgetsc false d a f) d 32 (fun s _ l _ => ⟨(s.srcShadow l a).slot (blkOf f l), {}⟩) plain ∧
  GivesAcross (.bshift false d a b f) d 32
    (fun s rows l v =>
      let c := (s.srcShadow l a).slot (blkOf f l)
      let x : Int := c + sgn 8 (leader f (l / 8) (blkOf f l) rows)
      ⟨arg v 0, { clamp := decide (c ≠ 0xFF ∧ (x < 0 ∨ 254 < x)) }⟩)
    (fun s rows l => slots f l rows fun k =>
      let c := (s.srcShadow l a).slot k
      if c = 0xFF then 0xFF else (max 0 (min ((c : Int) + sgn 8 (leader f (l / 8) k rows)) 254)).toNat) ∧
  GivesAcross (.brescale false d a b f) d 32
    (fun s rows l v => brescaleLane f ((s.srcShadow l a).slot (blkOf f l)) (leader f (l / 8) (blkOf f l) rows) (s.blkRnd l f (arg v 0) (arg v 1)) (arg v 0))
    (fun s rows l => slots f l rows fun k =>
      if (s.srcShadow l a).slot k = 0xFF ∨ leader f (l / 8) k rows = 0xFF then 0xFF else leader f (l / 8) k rows) ∧
  GivesAcross (.bdot false d a b f) d 32
    (fun s rows l _ => ⟨bdotQuarter f (l / 8) (operandRow rows 0) (operandRow rows 1) (fun k => (s.srcShadow l a).slot k) fun k => (s.srcShadow l b).slot k, {}⟩) plain ∧
  (∀ c : Nat, let g := c % 2 ^ f.bits % 2 ^ (f.bits - 1)
    real (dec f c) = if f = .i8 then (sgn 8 (c % 256) : ℝ) * (2 : ℝ) ^ (-6 : Int)
      else (if (c % 2 ^ f.bits).testBit (f.bits - 1) then -1 else 1) *
        (if g / 2 ^ f.mant = 0 then ((g % 2 ^ f.mant : Nat) : ℝ) / 2 ^ f.mant * (2 : ℝ) ^ (1 - f.bias)
         else (1 + ((g % 2 ^ f.mant : Nat) : ℝ) / 2 ^ f.mant) * (2 : ℝ) ^ ((g / 2 ^ f.mant : Nat) - f.bias))) ∧
  (∀ (rows : Rows) l, l < 32 →
    let vs := (members f (l / 8) (blkOf f l) rows).flatMap fun m => (List.range (perLane f)).map fun k => realOf f (of rows 0 m) k % 2 ^ 31
    let z := bmaxLane f (operandRow rows 0) l
    ((∃ v ∈ vs, 0x7F800000 < v) → z = f32.canonNan) ∧ ((∀ v ∈ vs, v ≤ 0x7F800000) → (∀ v ∈ vs, v ≤ z) ∧ (z = 0 ∨ z ∈ vs))) ∧
  (∀ (rows : Rows) q k c, q < 4 → k < (if f = .e2m1 then 2 else 1) → c < 256 → bqntScale f q k (operandRow rows 0) c =
    if c = 0xFF ∨ ∃ m ∈ members f q k rows, ∃ i, i < perLane f ∧ 0x7F800000 ≤ realOf f (of rows 0 m) i % 2 ^ 31 then 0xFF else c) ∧
  (∀ c (r : Rnd) x, let y := bqntLane f c r x
    let e (k : Nat) : Nat × Bool := enc f ((f32.decode (realOf f x k)).scale (127 - (c : Int))) r.mode (r.bits k)
    (c = 0xFF → y.v = 0 ∧ y.fl.clamp = false) ∧ (c ≠ 0xFF → (∀ k, k < perLane f → y.v / 2 ^ (codeBits f * k) % 2 ^ codeBits f = (e k).1) ∧ y.v < 2 ^ 32 ∧
      (y.fl.clamp = true ↔ ∃ k, k < perLane f ∧ (e k).2 = true))) ∧
  (∀ c x k, k < perLane f → let t := if f = .e2m1 then bf16 else f32
    bdqntLane f c x / 2 ^ (realBits f * k) % 2 ^ realBits f =
      if c = 0xFF then t.canonNan else t.round (.fin ((dec f (codeOf f x k)).scale ((c : Int) - 127))) .rne 0) ∧
  (∀ c c' (r : Rnd) x, let y := brescaleLane f c c' r x
    let e (k : Nat) : Nat × Bool := enc f (.fin ((dec f (codeOf f x k)).scale ((c : Int) - c'))) r.mode (r.bits k)
    (c = 0xFF ∨ c' = 0xFF → y.v = 0 ∧ y.fl.clamp = false) ∧ (c ≠ 0xFF → c' ≠ 0xFF →
      (∀ k, k < perLane f → y.v / 2 ^ (codeBits f * k) % 2 ^ codeBits f = (e k).1) ∧ y.v < 2 ^ 32 ∧
      (y.fl.clamp = true ↔ ∃ k, k < perLane f ∧ (e k).2 = true))) ∧
  (∀ (rows : Rows) q (x y : Nat → Nat), q < 4 → bdotQuarter f q (operandRow rows 0) (operandRow rows 1) x y =
    wsum 0 (((List.range (if f = .e2m1 then 2 else 1)).filter fun k => members f q k rows ≠ []).map fun k =>
      (blockOf f q k 0 rows (x k), blockOf f q k 1 rows (y k)))) ∧
  ∀ (acc : Nat) (ps : List (Block × Block)), acc < 2 ^ 32 →
    let bad : Prop := f32.decode acc = .nan ∨ ∃ p ∈ ps, p.1.eff = 0xFF ∨ p.2.eff = 0xFF
    (bad → wsum acc ps = f32.canonNan) ∧ (¬bad → ∀ n, f32.decode acc = .inf n → wsum acc ps = acc) ∧
    ∀ u, ¬bad → f32.decode acc = .fin u → let ts : List ℝ := real u :: ps.map fun p => term p.1 p.2
      ((∀ t ∈ ts, t = 0) → wsum acc ps = 0) ∧
      ∀ n : Int, (∃ t ∈ ts, (2 : ℝ) ^ n ≤ |t|) → (∀ t ∈ ts, |t| < (2 : ℝ) ^ (n + 1)) →
        nearest (ts.map fun t => (if t < 0 then -1 else 1) * (⌊|t| / (2 : ℝ) ^ (n - 27)⌋ : ℝ) * (2 : ℝ) ^ (n - 27)).sum (wsum acc ps)

/-- R173: `bscale` picks floor(log2 a) − emax + 127 (policies 0 and 2), within 0 to 254, for normal and subnormal a; ceil for policy 1; 0xFF for
NaN and ∞; 0 for ±0. -/
def Obligations.BlockScales : Prop := ∀ (f : EFmt) (pol a : Nat), pol < 3 → a < 2 ^ 32 →
  (0x7F800000 ≤ a % 2 ^ 31 → (bscaleLane f pol a).v = 0xFF) ∧ (a % 2 ^ 31 = 0 → (bscaleLane f pol a).v = 0) ∧
  (0x00800000 ≤ a % 2 ^ 31 → a % 2 ^ 31 < 0x7F800000 →
    let e : Int := (a % 2 ^ 31 / 2 ^ 23 : Nat) - 127
    let up : Int := if pol = 1 ∧ a % 2 ^ 23 ≠ 0 then 1 else 0
    (bscaleLane f pol a).v = (max 0 (min (e + up - f.emax + 127) 254)).toNat) ∧
  ∀ k : Nat, k < 23 → a % 2 ^ 31 / 2 ^ k = 1 →
    let up : Int := if pol = 1 ∧ a % 2 ^ 31 ≠ 2 ^ k then 1 else 0
    (bscaleLane f pol a).v = (max 0 (min ((k : Int) - 149 + up - f.emax + 127) 254)).toNat

/-! ### System, branch and control words (R89 to R100, R153, R318, R319, R327) -/
namespace Sys2Proof.Rules
/-- A special register as it stands before the chain (R98 to R100, R318). -/
def special (s : State) (l sr : Nat) : Nat :=
  let t := s.cteam
  let x := s.clane l
  match sr with
  | 0 => (s.now - (s.core s.chain.core).resetAt) % 2 ^ 64
  | 1 => l
  | 2 => l / 8
  | 3 => s.cgroup.idx
  | 4 => t.idx
  | 5 => t.member
  | 6 => s.chain.core
  | 7 => s.chain.core / 24
  | 8 => s.fabric.devId.toNat + if s.fabric.noPanel then 4096 else 0
  | 9 => (s.grid t.grid).seed.toNat
  | 10 => x.status.toNat
  | 11 => x.control.toNat
  | 12 => x.tcause.toNat
  | 13 => x.taddr.toNat
  | 14 => x.tpc.toNat
  | _ => (s.grid t.grid).ctx % 65536
/-- A branch's condition in a lane, and its target (R46, R90). -/
def goes (s : State) (l : Nat) (neg : Bool) (p : BitVec 3) : Bool := (s.clane l).preds.getLsbD p.toNat != neg
def dest (s : State) (off : BitVec 17) : DWord := s.chain.pc + BitVec.ofInt 64 (12 * off.toInt)
/-- A lane at a branch's target: it leaves the loop buffer where the target is not in it (R150). -/
def branched (a : DWord) (x : Lane) : Lane := { x with pc := a, slot := 0, loop := if x.loop.any (·.1 == a) then x.loop else [] }
/-- Exactly these effects. -/
def sends (e : State → Nat → List Nat → List Eff) (s : State) (l : Nat) (v : List Nat) (es : List Eff) : Prop := es = e s l v
/-- Exactly these effects, once for the group. -/
def sendsOnce (e : State → Nat → List Nat → List Eff) (s : State) (_ : LaneSet) (l : Nat) (v : List Nat) (es : List Eff) : Prop := es = e s l v
end Sys2Proof.Rules

/-- R99: `rdsr` reads a special register as it stood before the chain; R94, R227: `rjget` and `pinfo`. -/
def Obligations.SpecialRegisterReads : Prop := ∀ (d : Dst) (a : Src) (sr : BitVec 6) (j : BitVec 3),
  (sr.toNat < 16 → Gives (.rdsr false d sr) d (if sr.toNat ∈ [0, 9, 13, 14] then 64 else 32) (fun s l _ => ⟨special s l sr.toNat, {}⟩)) ∧
  Gives (.rjget false d j) d 32 (fun s _ _ => ⟨(Tbl.get s.chain.j j.toNat 0).toNat, {}⟩) ∧
  Gives (.pinfo false d a) d 64 (fun s _ v => ⟨s.pinfo (some s.chain.core) s.cctx (arg v 0), {}⟩)

/-- R96, R99, R90, R92: `nop`, `yield`, `sleep`, `wrsr` and the branches that touch their own lane alone. -/
def Obligations.LaneControl : Prop := ∀ (a : Src) (sr : BitVec 6) (neg : Bool) (p : BitVec 3) (off : BitVec 17),
  Does (.nop false) always (fun _ _ _ x => x) ∧
  Does (.yield false) always (fun _ _ _ x => x) ∧
  Does (.sleep false a) always (fun s _ v x => if arg v 0 = 0 then x else { x with mode := .sleeping (s.now + arg v 0) }) ∧
  Does (.wrsr false sr a) (fun _ _ v => ¬(sr = 11 ∧ 5 ≤ arg v 0 % 8)) (fun _ _ v x =>
    match sr.toNat with
    | 10 => { x with status := BitVec.ofNat 32 (arg v 0 % 16) }
    | 11 => { x with control := BitVec.ofNat 32 (arg v 0 % 8) }
    | 12 => { x with tcause := BitVec.ofNat 32 (arg v 0 % 256) }
    | 13 => { x with taddr := BitVec.ofNat 64 (arg v 0) }
    | 14 => { x with tpc := BitVec.ofNat 64 (arg v 0) }
    | _ => x) ∧
  Does (.bra false neg p off) always (fun s l _ x => if goes s l neg p then branched (dest s off) x else x) ∧
  Does (.brx false a) (fun _ _ v => arg v 0 % 4 = 0) (fun _ _ v x => branched (BitVec.ofNat 64 (arg v 0)) x)

/-- R90, R93, R94, R96, R97, R179: the branches that touch rejoin masks, `call`, `join`, `rjset`, `prio`, `exit` and `bar`. -/
def Obligations.GroupControl : Prop := ∀ (b : Src) (neg clu : Bool) (p j : BitVec 3) (off : BitVec 17) (k : BitVec 4),
  PerformsEach (.braEnrol false neg p j off) (sends fun s l _ => .enrol j.toNat :: if goes s l neg p then [.jump (dest s off)] else []) ∧
  PerformsEach (.strike false neg p j off) (sends fun s l _ => if goes s l neg p then [.strike j.toNat, .jump (dest s off)] else []) ∧
  PerformsEach (.call false neg p off)
    (sends fun s l _ => if goes s l neg p then [.result .push 64 ((s.chain.pc + 12).setWidth 128) none, .jump (dest s off)] else []) ∧
  PerformsEach (.join false j) (sends fun _ _ _ => [.join j.toNat]) ∧
  PerformsEach (.exit false) (sends fun _ _ _ => [.exit]) ∧
  PerformsEach (.bar false clu) (sends fun _ _ _ => [.sync, .bar clu]) ∧
  PerformsOnce (.rjset false j b) (sendsOnce fun _ _ v => [.setJ j.toNat (BitVec.ofNat 32 (arg v 0))]) ∧
  PerformsOnce (.prio false k) (sendsOnce fun _ _ _ => [.prio k.toNat]) ∧
  (∀ (s : State) (c g l n : Nat) (m : Word),
    ((s.perform c g l (.prio n)).team (s.group c g).team).prio = min n (s.gridOf c g).prio ∧ (s.perform c g l (.prio n)).cores = s.cores ∧
    Tbl.get ((s.perform c g l (.setJ n m)).group c g).j n 0 = m ∧
    ∀ i, i ≠ n → Tbl.get ((s.perform c g l (.setJ n m)).group c g).j i 0 = Tbl.get (s.group c g).j i 0) ∧
  ∀ (s : State) (t : Nat), (s.team t).cluster = none →
    let atBar (x : Lane) : Prop := x.mode = .stalled .bar ∨ x.mode = .stalled .barClu
    let live := (s.groupsOf t).filter fun p => !(s.group p.1 p.2).ended
    ((∃ p ∈ live, ∃ y ∈ (s.group p.1 p.2).lanes, y.2.mode ≠ .exited ∧ ¬atBar y.2) → s.barriers t = s) ∧
    ((∀ p ∈ live, ∀ y ∈ (s.group p.1 p.2).lanes, y.2.mode = .exited ∨ atBar y.2) →
      ∀ p ∈ live, ∀ l, atBar (s.lane p.1 p.2 l) → (s.barriers t).lane p.1 p.2 l = { s.lane p.1 p.2 l with mode := .ready })

/-- R96, R92: `trap` and `brk` raise their exceptions; `brx` raises MISALIGNED on a target that is no multiple of 4.  R51, R52: where an operand's
value or the state refuses a word as it executes, among them a `wrsr` that would set RND to 5 or more, the lane takes ILLEGAL_OPERAND with the
decode report of the word and subcode 0x14. -/
def Obligations.TrapWords : Prop := ∀ (code : BitVec 6) (a b : Src) (d : Dst) (p : PDst) (sr : BitVec 6),
  let refuses (i : Instr) (when : State → Nat → List Nat → Prop) : Prop := Traps i .illegalOperand fun s l v t =>
    when s l v ∧ t = BitVec.ofNat 64 (0x14 + 2 ^ 8 * s.chain.slot + 2 ^ 32 * (s.chain.words.getD s.chain.slot 0).toNat)
  let noLayer (s : State) (_ : Nat) (v : List Nat) : Prop := 4096 ≤ arg v 0 ∨ (s.ctx s.cctx).nlayer ≤ arg v 0
  let noEvent (_ : State) (_ : Nat) (v : List Nat) : Prop := arg v 1 % 4 = 3 ∨ arg v 1 / 4 % 2 ^ 30 ≠ 0
  refuses (.wrsr false sr a) (fun _ _ v => sr = 11 ∧ 5 ≤ arg v 0 % 8) ∧
  refuses (.rfe false) (fun s l _ => (s.clane l).h = false) ∧
  refuses (.kreq false d a b) (fun s l v => 16 ≤ arg v 1 ∨ 7 ≤ arg v 1 ∧ arg v 1 ≤ 14 ∨ arg v 1 = 15 ∧ (arg v 0 ≠ 0 ∨ (s.clane l).h = false)) ∧
  refuses (.cwb false a b) (fun _ _ v => arg v 1 = 0 ∨ 2 ^ 28 < arg v 1) ∧
  refuses (.tlbi false a b) (fun _ _ v => 2 ^ 18 ≤ arg v 1) ∧
  refuses (.tmchk false p a) noLayer ∧ refuses (.tmwait false a) noLayer ∧ refuses (.tmpin false a) noLayer ∧ refuses (.tmunpin false a) noLayer ∧
  refuses (.xev false a b) noEvent ∧ refuses (.xtest false p a b) noEvent ∧
  refuses (.wtag false a) (fun _ _ v => 4 ≤ arg v 0) ∧
  refuses (.seal false a b) (fun _ _ v => 3 ≤ arg v 1) ∧
  refuses (.amaxrst false d a) (fun _ _ v => 16 ≤ arg v 0) ∧
  Traps (.trap false code) .softwareTrap (fun _ _ _ t => t = code.setWidth 64) ∧
  Traps (.brk false) .breakpoint (fun _ _ _ t => t = 0) ∧
  Traps (.brx false a) .misaligned (fun _ _ v t => arg v 0 % 4 ≠ 0 ∧ t = BitVec.ofNat 64 (arg v 0))

/-- R318, R319: trap entry saves the queue, the predicates, the place and tpc; a return restores them and goes to the saved place, past
the chain where the trap was software's, or to tpc where the handler wrote it; and `rfe` completes with that return in a lane that is
in a handler. -/
def Obligations.TrapEntryAndReturn : Prop :=
  PerformsEach (.rfe false) (fun s l _ es => (s.clane l).h = true ∧ es = [.rfe]) ∧
  ∀ (x : Lane) (v a pc : DWord) (c : Cause) (slot : Nat) (next : DWord × Nat),
  let y := x.enterTrap v c a pc slot
  y.h = true ∧ y.pc = v ∧ y.slot = 0 ∧ y.mode = .ready ∧ y.tcause = BitVec.ofNat 32 (causeCode c) ∧ y.taddr = a ∧ y.tpc = pc ∧
  y.regs = x.regs ∧ y.queue = x.queue ∧ y.preds = x.preds ∧ y.status = x.status ∧ y.control = x.control ∧
  (∀ z : Lane, z.frame = y.frame → z.tpc = pc →
    let w := z.leaveTrap next
    w.h = false ∧ w.queue = x.queue ∧ w.preds = x.preds ∧ w.regs = z.regs ∧ w.status = z.status ∧
    (w.pc, w.slot) = if c = .softwareTrap ∨ c = .breakpoint then next else (pc, slot)) ∧
  ∀ z : Lane, z.frame = y.frame → z.tpc ≠ pc →
    let w := z.leaveTrap next
    w.h = false ∧ w.queue = x.queue ∧ w.preds = x.preds ∧ w.pc = z.tpc ∧ w.slot = 0

/-- R153: a rejoin mask releases its lanes when every lane of it has joined, and is cleared; a mask with a lane that has not joined
holds; an empty mask releases at once. -/
def Obligations.RejoinRelease : Prop := ∀ (g : Group) (j : Nat), j < 8 →
  let m := Tbl.get g.j j 0
  ((∀ l ∈ lanesOf m, ∃ x, (l, x) ∈ g.lanes ∧ x.mode = .joined j) →
    Tbl.get g.release.j j 0 = 0 ∧ ∀ l, (g.lane l).mode = .joined j → g.release.lane l = { g.lane l with mode := .ready }) ∧
  ((∃ l ∈ lanesOf m, ∀ x, (l, x) ∈ g.lanes → x.mode ≠ .joined j) →
    Tbl.get g.release.j j 0 = m ∧ ∀ l, (g.lane l).mode = .joined j → g.release.lane l = g.lane l)

/-- R97, R153: an exiting lane ends, leaves every rejoin mask, and touches no other lane of its group; `bra` with enrolment adds the
lane's bit and `strike` takes it away. -/
def Obligations.ExitAndMaskBits : Prop := ∀ (s : State) (c g l k j i : Nat), k < 32 → l < 32 →
  let x := s.perform c g l .exit
  ((x.lane c g l).mode = .exited) ∧ (k ≠ l → x.lane c g k = s.lane c g k) ∧
  (Tbl.get (x.group c g).j j 0).getLsbD k = ((Tbl.get (s.group c g).j j 0).getLsbD k && decide (k ≠ l)) ∧
  (Tbl.get ((s.perform c g l (.enrol j)).group c g).j i 0).getLsbD k = ((Tbl.get (s.group c g).j i 0).getLsbD k || decide (i = j ∧ k = l)) ∧
  (Tbl.get ((s.perform c g l (.strike j)).group c g).j i 0).getLsbD k = ((Tbl.get (s.group c g).j i 0).getLsbD k && !decide (i = j ∧ k = l))

/-! ### Memory words (R121 to R142) -/
namespace Sys2Proof.Rules
/-- A translation of an address that an access of a kind may use (R220), as a location. -/
def translated (s : State) (n : Need) (ea : Nat) (loc : Loc) : Prop :=
  ∃ pa key apt dev leaf big entry, s.xlat (some s.chain.core) s.cctx n ea = .ok pa key apt dev leaf big entry ∧ loc = .dev pa key (BitVec.ofNat 64 ea) apt
/-- Where an access of `size` bytes with a base and an offset goes: the effective address (R121, R122), aligned (R123), and its location. -/
def reaches (s : State) (n : Need) (scr : Bool) (size base w off ea : Nat) (loc : Loc) : Prop :=
  if scr then ea = wrap 32 ((base % 2 ^ 32 : Nat) + sgn w off * size) ∧ s.checkScratch s.chain.core s.chain.grp ea size size = .ok loc
  else ea = wrap 64 (base + sgn w off * size) ∧ ea % size = 0 ∧ translated s n ea loc
/-- The effects of a load. -/
def loads (scr : Bool) (size : Nat) (sign acq nc : Bool) (d : Dst) (off : BitVec 10) (s : State) (_ : Nat) (v : List Nat) (es : List Eff) : Prop :=
  ∃ ea loc, reaches s .load scr size (arg v 0) 10 off.toNat ea loc ∧
    es = s.touches s.chain.core s.chain.grp false [loc] ++ (if acq then [.sync] else []) ++ [.load d size sign loc (BitVec.ofNat 64 ea) acq nc]
/-- The effects of a store: a page of aperture 3 needs a window of the team (R355), a release waits for the lane's engine work (R129). -/
def stores (scr : Bool) (size : Nat) (rel : Bool) (off : BitVec 10) (s : State) (l : Nat) (v : List Nat) (es : List Eff) : Prop :=
  ∃ ea loc, reaches s .store scr size (arg v 0) 10 off.toNat ea loc ∧ s.planWindow s.chain.core s.chain.grp loc size = .ok () ∧
    (rel = true → s.releaseReady s.chain.core s.chain.grp l = true) ∧
    es = s.touches s.chain.core s.chain.grp (!rel) [loc] ++ (if rel then [.sync] else []) ++ [.store loc (toBytesLE size (arg v 1)) rel]
/-- The address a lane's quarter uses in a block access: its lowest executing lane's (R130). -/
def quarterBase (rows : Rows) (l : Nat) : Nat := arg ((rows.find? fun r => r.1 / 8 == l / 8).map (·.2) |>.getD []) 0
def blockLoads (scr : Bool) (d : Dst) (f : EFmt) (off : BitVec 7) (s : State) (rows : Rows) (l : Nat) (_ : List Nat) (es : List Eff) : Prop :=
  ∃ locs ea, s.planBlock s.chain.core s.chain.grp .load scr f (quarterBase rows l) off.toNat = .ok (locs, ea) ∧
    es = s.touches s.chain.core s.chain.grp false (blkOwn f locs l) ++
      [.loadBlk d f locs (BitVec.ofNat 64 ea) (s.blkShadow s.chain.core (s.cachedNow s.chain.core s.chain.grp) f locs (l / 8))]
def blockStores (scr : Bool) (c : Src) (f : EFmt) (off : BitVec 7) (s : State) (rows : Rows) (l : Nat) (v : List Nat) (es : List Eff) : Prop :=
  ∃ locs ea, s.planBlock s.chain.core s.chain.grp .store scr f (quarterBase rows l) off.toNat = .ok (locs, ea) ∧
    s.planWindowBlk s.chain.core s.chain.grp (l / 8) f locs ea = .ok () ∧
    es = s.touches s.chain.core s.chain.grp true (blkOwn f locs l) ++ [.storeBlk f locs (BitVec.ofNat 32 (arg v 1)) (s.srcShadow l c)]
/-- A return-form atomic finds the lane's engine work performed (R140). -/
def settled (s : State) (l : Nat) (d : Option Dst) : Prop := d.isSome = true → s.releaseReady s.chain.core s.chain.grp l = true
/-- The effects of a global atomic, on a page that is not aperture 5 (R134, R140). -/
def atomics (d : Option Dst) (op : AtomOp) (s : State) (l : Nat) (v : List Nat) (es : List Eff) : Prop :=
  settled s l d ∧ ∃ pa key apt dev leaf big entry, apt ≠ 5 ∧ arg v 0 % op.size = 0 ∧
    s.xlat (some s.chain.core) s.cctx (if d.isSome then .atomic else .red) (arg v 0) = .ok pa key apt dev leaf big entry ∧
    let loc := Loc.dev pa key (BitVec.ofNat 64 (arg v 0)) apt
    es = s.touches s.chain.core s.chain.grp false [loc] ++ (if d.isSome then [.sync] else []) ++
      [.atom d op loc (BitVec.ofNat 128 (arg v 1)) (BitVec.ofNat 64 (arg v 0))]
/-- The effects of a no-return atomic on a page of aperture 5: a `bred` to the peer (R138). -/
def peerAtomics (op : AtomOp) (s : State) (_ : Nat) (v : List Nat) (es : List Eff) : Prop :=
  arg v 0 % op.size = 0 ∧ s.tagClosing s.chain.core s.chain.grp = false ∧
    ∃ pa key dev leaf big entry, s.xlat (some s.chain.core) s.cctx .red (arg v 0) = .ok pa key 5 dev leaf big entry ∧
      es = [.object (.dev pa key (BitVec.ofNat 64 (arg v 0)) 5) 0 true, .beacon (redBeacon s.me pa op.code.1 op.code.2 (arg v 1)) dev 0]
/-- The effects of a scratch atomic. -/
def scratchAtomics (d : Option Dst) (op : AtomOp) (s : State) (l : Nat) (v : List Nat) (es : List Eff) : Prop :=
  settled s l d ∧ ∃ loc, s.checkScratch s.chain.core s.chain.grp (arg v 0 % 2 ^ 32) op.size op.size = .ok loc ∧
    es = s.touches s.chain.core s.chain.grp false [loc] ++ (if d.isSome then [.sync] else []) ++
      [.atom d op loc (BitVec.ofNat 128 (arg v 1)) (BitVec.ofNat 64 (arg v 0 % 2 ^ 32))]
end Sys2Proof.Rules

/-- R121 to R125, R127 to R130: the loads. -/
def Obligations.Loads : Prop := ∀ (d : Dst) (a : Src) (off : BitVec 10) (f : EFmt) (o7 : BitVec 7),
  PerformsEach (.ldB8u false d a off) (loads false 1 false false false d off) ∧ PerformsEach (.ldB8s false d a off) (loads false 1 true false false d off) ∧
  PerformsEach (.ldB16u false d a off) (loads false 2 false false false d off) ∧ PerformsEach (.ldB16s false d a off) (loads false 2 true false false d off) ∧
  PerformsEach (.ldB32 false d a off) (loads false 4 false false false d off) ∧ PerformsEach (.ldB64 false d a off) (loads false 8 false false false d off) ∧
  PerformsEach (.ldB128 false d a off) (loads false 16 false false false d off) ∧
  PerformsEach (.ldacqB32 false d a off) (loads false 4 false true false d off) ∧ PerformsEach (.ldacqB64 false d a off) (loads false 8 false true false d off) ∧
  PerformsEach (.ldsB32 false d a off) (loads true 4 false false false d off) ∧ PerformsEach (.ldsB64 false d a off) (loads true 8 false false false d off) ∧
  PerformsEach (.ldsB128 false d a off) (loads true 16 false false false d off) ∧
  PerformsEach (.ldncB32 false d a off) (loads false 4 false false true d off) ∧
  PerformsAcross (.ldb false d a f o7) (blockLoads false d f o7) ∧ PerformsAcross (.ldbs false d a f o7) (blockLoads true d f o7)

/-- R121 to R123, R126, R129, R131, R355: the stores. -/
def Obligations.Stores : Prop := ∀ (c a : Src) (off : BitVec 10) (f : EFmt) (o7 : BitVec 7),
  PerformsEach (.stB8 false c a off) (stores false 1 false off) ∧ PerformsEach (.stB16 false c a off) (stores false 2 false off) ∧
  PerformsEach (.stB32 false c a off) (stores false 4 false off) ∧ PerformsEach (.stB64 false c a off) (stores false 8 false off) ∧
  PerformsEach (.stB128 false c a off) (stores false 16 false off) ∧
  PerformsEach (.strelB32 false c a off) (stores false 4 true off) ∧ PerformsEach (.strelB64 false c a off) (stores false 8 true off) ∧
  PerformsEach (.stsB8 false c a off) (stores true 1 false off) ∧ PerformsEach (.stsB32 false c a off) (stores true 4 false off) ∧
  PerformsEach (.stsB64 false c a off) (stores true 8 false off) ∧ PerformsEach (.stsB128 false c a off) (stores true 16 false off) ∧
  PerformsAcross (.stb false c a f o7) (blockStores false c f o7) ∧ PerformsAcross (.stbs false c a f o7) (blockStores true c f o7)

/-- R134 to R142: the atomics. -/
def Obligations.Atomics : Prop := ∀ (d : Dst) (a b : Src) (op : AOp) (fo : AFOp),
  PerformsEach (.atomB32 false d a b op) (atomics (some d) (.int 32 op)) ∧ PerformsEach (.atomB64 false d a b op) (atomics (some d) (.int 64 op)) ∧
  PerformsEach (.redB32 false a b op) (atomics none (.int 32 op)) ∧ PerformsEach (.redB64 false a b op) (atomics none (.int 64 op)) ∧
  PerformsEach (.atomf false d a b fo) (atomics (some d) (.flt fo)) ∧ PerformsEach (.redf false a b fo) (atomics none (.flt fo)) ∧
  PerformsEach (.casB32 false d a b) (atomics (some d) (.cas 32)) ∧ PerformsEach (.casB64 false d a b) (atomics (some d) (.cas 64)) ∧
  PerformsEach (.cas2 false d a b) (atomics (some d) .cas2) ∧
  PerformsEach (.redB32 false a b op) (peerAtomics (.int 32 op)) ∧ PerformsEach (.redB64 false a b op) (peerAtomics (.int 64 op)) ∧
  PerformsEach (.redf false a b fo) (peerAtomics (.flt fo)) ∧
  PerformsEach (.atoms false d a b op) (scratchAtomics (some d) (.int 32 op)) ∧ PerformsEach (.reds false a b op) (scratchAtomics none (.int 32 op)) ∧
  PerformsEach (.cass false d a b) (scratchAtomics (some d) (.cas 32)) ∧
  (fo ≠ .maxAbs → PerformsEach (.atomfs false d a b fo) (scratchAtomics (some d) (.flt fo))) ∧
  PerformsEach (.atomfs false d a b .maxAbs) (fun s l v es =>
    if (arg v 0 % 2 ^ 32).testBit 30 then
      settled s l (some d) ∧ ∃ k, k < 16 ∧ arg v 0 % 2 ^ 32 = 2 ^ 30 + 4 * k ∧ es = [.sync, .amax d k false (BitVec.ofNat 32 (arg v 1))]
    else scratchAtomics (some d) (.flt .maxAbs) s l v es) ∧
  PerformsEach (.amaxrst false d a) (fun s l v es => arg v 0 < 16 ∧ settled s l (some d) ∧ es = [.sync, .amax d (arg v 0) true 0])

namespace Sys2Proof.Rules
/-- The walker may mark the leaf entry of the location's page, which lies in this sector (R221). -/
def mayMark (s : State) (loc : Loc) (k : Nat) : Prop :=
  match loc with
  | .dev _ _ va _ => ∃ x big entry, s.walk s.cctx va.toNat = .leaf x big entry ∧ k ∈ sectorsOf entry 8
  | .scr .. => False
/-- An address of device memory outside the bytes stored at a location; within their sectors, read under the store's key. -/
def outside (loc : Loc) (n b key : Nat) : Prop :=
  match loc with
  | .dev pa k _ _ => (b < pa ∨ pa + n ≤ b) ∧ (b / 32 ∈ sectorsOf pa n → key = k)
  | .scr .. => True
/-- An offset of a core's scratchpad outside the bytes stored at a location. -/
def outsideScr (loc : Loc) (n c x : Nat) : Prop :=
  match loc with
  | .dev .. => True
  | .scr d off => c = d → x < off ∨ off + n ≤ x
/-- Memory after an access that stores `n` bytes at a location: every other byte of device memory, but in a sector in which the walker
marks a page, and every other byte of every scratchpad reads as before. -/
def memoryKept (s t : State) (loc : Loc) (n : Nat) : Prop :=
  (∀ b key, outside loc n b key → ¬mayMark s loc (b / 32) → t.mem.getKey key b = s.mem.getKey key b) ∧
  ∀ c x, outsideScr loc n c x → ((s.core c).scr.sector x).key = 0 → (t.core c).scr.get x = (s.core c).scr.get x
/-- A lane's predicates, status, control word, trap registers, trap frame and named registers outside `n` from `r` are as before. -/
def laneKept (x y : Lane) (r n : Nat) : Prop :=
  y.preds = x.preds ∧ y.status = x.status ∧ y.control = x.control ∧ y.tcause = x.tcause ∧ y.taddr = x.taddr ∧ y.tpc = x.tpc ∧ y.h = x.h ∧
    y.frame = x.frame ∧ ∀ k, k < r ∨ r + n ≤ k → y.reg k = x.reg k
/-- What an access of lane `l` leaves alone: the lanes, but for the destination of lane `l`; the group scalars and the engines of every
core, and all that the Keeper and the merge engines hold; and, but for an access to one, the amax cells. -/
def restKept (s t : State) (l r n : Nat) (pushes : Bool) : Prop :=
  (∀ c g k, (c, g, k) ≠ (s.chain.core, s.chain.grp, l) → laneKept (s.lane c g k) (t.lane c g k) 0 0 ∧ (t.lane c g k).queue = (s.lane c g k).queue) ∧
  laneKept (s.clane l) (t.lane s.chain.core s.chain.grp l) r n ∧
  (pushes = false → (t.lane s.chain.core s.chain.grp l).queue = (s.clane l).queue) ∧
  (∀ c g, (t.group c g).g = (s.group c g).g) ∧ (∀ c, (t.core c).engines = (s.core c).engines) ∧ t.keeper = s.keeper ∧ t.merge = s.merge
def accessKept (s t : State) (l r n : Nat) (pushes : Bool) : Prop := restKept s t l r n pushes ∧ ∀ c, (t.core c).amax = (s.core c).amax
/-- The memories are in canonical form, and the lane has no copies outstanding, which a release would perform (R129). -/
def noCopies (s : State) (l : Nat) : Prop :=
  s.mem.wf = true ∧ (∀ c, (s.core c).scr.wf = true) ∧
    ∀ x ∈ (s.cgroup.batches.flatMap (·.items)) ++ s.cgroup.openBatch, x.lane = l → x.done = true
/-- A word that one lane executes, with the effects `o` says: it completes, and `p` holds of the state after it. -/
def Leaves (i : Instr) (o : State → Nat → List Nat → List Eff → Prop) (p : State → Nat → List Nat → List Eff → State → Prop) : Prop :=
  ∀ s f vs es l, Ready s i f vs → Held s f → executing s i = [l] → o s l (vs l) (es l) → Room s i f es → noCopies s l →
    ∃ t, Sys2Proof.Machine.exec i s = .next t ∧ p s l (vs l) (es l) t
/-- After a store: the bytes stand at the address it computes, and nothing else has changed. -/
def stored (scr : Bool) (size : Nat) (off : BitVec 10) (s : State) (l : Nat) (v : List Nat) (_ : List Eff) (t : State) : Prop :=
  ∀ ea loc, reaches s .store scr size (arg v 0) 10 off.toNat ea loc → memoryKept s t loc size ∧ accessKept s t l 0 0 false ∧
    ∀ k, k < size → match loc with
      | .dev pa key _ _ => t.mem.getKey key (pa + k) = (toBytesLE size (arg v 1)).getD k 0
      | .scr c o => ((s.core c).scr.sector (o + k)).key = 0 → (t.core c).scr.get (o + k) = (toBytesLE size (arg v 1)).getD k 0
/-- The named registers of a destination, and whether it pushes. -/
def firstOf (d : Dst) : Nat := match d with | .n r => r.val | _ => 0
def countOf (d : Dst) (bits : Nat) : Nat := match d with | .n _ => (bits + 31) / 32 | _ => 0
def pushing (d : Dst) : Bool := match d with | .n _ | .push => true | _ => false
/-- The group's newest transaction brings a value to the lane's destination, of which `p` holds (R127, R133). -/
def returned (s t : State) (l : Nat) (d : Dst) (bits : Nat) (ea : DWord) (p : Nat → Prop) : Prop :=
  ∃ x, (t.group s.chain.core s.chain.grp).txns.getLast? = some x ∧ x.id = s.nextTxn ∧ x.store = false ∧ (d = .drop → x.fills = []) ∧
    (d ≠ .drop → ∃ w bad, p w ∧ x.fills = [⟨l, BitVec.ofNat 128 w, bits, bad, ea⟩])
/-- Byte `k` at a location at its home unit, and as a load of the core reads it: from the line its L1 data cache holds, unless the load
bypasses the cache (R128, R207). -/
def homeByte (s : State) (loc : Loc) (k : Nat) : Byte :=
  match loc with
  | .dev pa key _ _ => s.mem.getKey key (pa + k)
  | .scr c o => (s.core c).scr.get (o + k)
def byteRead (s : State) (nc : Bool) (loc : Loc) (k : Nat) : Byte :=
  match loc with
  | .dev pa _ _ _ => (match nc, Tbl.find (s.core s.chain.core).l1 ((pa + k) / 32) with
    | false, some y => y.bytes.getD ((pa + k) % 32) 0
    | _, _ => homeByte s loc k)
  | .scr .. => homeByte s loc k
/-- A load at the locations reads what stands there at its issue: the core reads no store late (log entry 9), the walker marks no sector
read, and no page is GATED, whose use drops the L1 data cache first (R342). -/
def readsPlain (s : State) (locs : List Loc) : Prop :=
  s.chain.core ∉ s.lagging ∧ ∀ loc ∈ locs, match loc with
    | .dev _ _ va _ => (∀ loc' ∈ locs, ¬mayMark s loc' (loc.sec / 2)) ∧
      ∀ x big, s.leafFor (some s.chain.core) s.cctx va.toNat = some (x, big) → x.testBit 24 = false
    | .scr .. => True
/-- A number whose bytes, least significant first, are these (R124). -/
def littleEndian (size : Nat) (bs : Nat → Byte) (n : Nat) : Prop := n < 256 ^ size ∧ ∀ k, k < size → n / 256 ^ k % 256 = (bs k).toNat
/-- After a load: nothing has changed but its destination, to which its transaction brings the bytes at the address, the lowest addressed
least significant, a narrow one zero- or sign-extended to 32 bits (R124, R125).  That it reads as it is issued is log entry 8. -/
def loaded (scr : Bool) (size : Nat) (sign nc : Bool) (d : Dst) (off : BitVec 10) (s : State) (l : Nat) (v : List Nat) (_ : List Eff) (t : State) : Prop :=
  ∀ ea loc, reaches s .load scr size (arg v 0) 10 off.toNat ea loc →
    memoryKept s t loc 0 ∧ accessKept s t l (firstOf d) (countOf d (if size < 4 then 32 else 8 * size)) (pushing d) ∧
    returned s t l d (if size < 4 then 32 else 8 * size) (BitVec.ofNat 64 ea) fun w => readsPlain s [loc] →
      ∃ n, littleEndian size (byteRead s nc loc) n ∧ w = if sign = true ∧ 2 ^ (8 * size - 1) ≤ n then n + 2 ^ 32 - 2 ^ (8 * size) else n
/-- What an atomic stores for what it finds and its operand, if anything (R135, R136). -/
def stores' (op : AtomOp) (o b : Nat) : Option Nat :=
  match op with
  | .int w f => some (atomInt w f o b)
  | .flt f => some (atomFlt f o b)
  | .cas w => casNew w o b
  | .cas2 => cas2New o b
/-- After an atomic at a location of `n` bytes: nothing has changed but the location and its destination (a no-return atomic on poisoned
data writes a record, R139); the location holds what the operation gives for what it held, and a return form's transaction brings that back,
where the data is not poisoned and the walker does not mark its sector. -/
def swapped (n : Nat) (d : Option Dst) (s : State) (l : Nat) (_ : List Nat) (es : List Eff) (t : State) : Prop :=
  ∀ op loc b ea, Eff.atom d op loc b ea ∈ es → (d = none → (s.locRead loc n).2 = false) →
    memoryKept s t loc n ∧ accessKept s t l (firstOf (d.getD .drop)) (countOf (d.getD .drop) (8 * n)) (pushing (d.getD .drop)) ∧
    (¬mayMark s loc (loc.sec / 2) → ∀ o, littleEndian n (homeByte s loc) o →
      ((s.locRead loc n).2 = false → ∀ k, k < n → homeByte t loc k = match stores' op o b.toNat with
        | some v => BitVec.ofNat 8 (v / 256 ^ k)
        | none => homeByte s loc k) ∧
      ∀ x, d = some x → returned s t l x (8 * n) ea (· = o))
/-- After an atomic on an amax cell: the cell is the context's and holds the larger magnitude, or +0 after a reset; a context that does not own
it has found +0; and no other cell, and nothing in memory, has changed (R141, R142, R331). -/
def celled (d : Dst) (s : State) (l : Nat) (_ : List Nat) (es : List Eff) (t : State) : Prop :=
  ∀ k reset b, Eff.amax d k reset b ∈ es → let cell (u : State) (c j : Nat) : AmaxCell := Tbl.get (u.core c).amax j {}
    let o := if (cell s s.chain.core k).owner = some s.cctx then (cell s s.chain.core k).v else 0
    restKept s t l (firstOf d) (countOf d 32) (pushing d) ∧ t.mem = s.mem ∧ (∀ c, (t.core c).scr = (s.core c).scr) ∧
    (∀ c j, (c, j) ≠ (s.chain.core, k) → cell t c j = cell s c j) ∧
    cell t s.chain.core k = ⟨if reset then 0 else BitVec.ofNat 32 (maxA f32 o.toNat b.toNat), some s.cctx⟩ ∧ returned s t l d 32 0 (· = o.toNat)
/-- What stays of memory after a block access that stores `n` bytes from byte `o` of the block. -/
def blockKept (s t : State) (locs : List Loc) (o n : Nat) : Prop :=
  (∀ b key, (∀ i, i < n → outside (blkLoc locs (o + i)) 1 b key) → (∀ loc ∈ locs, ¬mayMark s loc (b / 32)) → t.mem.getKey key b = s.mem.getKey key b) ∧
  ∀ c x, (∀ i, i < n → outsideScr (blkLoc locs (o + i)) 1 c x) → ((s.core c).scr.sector x).key = 0 → (t.core c).scr.get x = (s.core c).scr.get x
/-- A lane's part of a block: four codes of 8 bits as they stand, or of 6 bits packed in three bytes (R58, R130). -/
def packs (f : EFmt) (codes n : Nat) : Prop :=
  codes < 2 ^ 32 ∧ if f = .e3m2 ∨ f = .e2m3 then ∀ j, j < 4 → n / 2 ^ (6 * j) % 64 = codes / 2 ^ (8 * j) % 64 else n = codes
/-- After a block load of one lane: nothing has changed but its destination, to which its transaction brings the codes. -/
def blockLoaded (scr : Bool) (d : Dst) (f : EFmt) (off : BitVec 7) (s : State) (l : Nat) (v : List Nat) (_ : List Eff) (t : State) : Prop :=
  ∀ locs ea, s.planBlock s.chain.core s.chain.grp .load scr f (arg v 0) off.toNat = .ok (locs, ea) → let span := blkSpan f l
    blockKept s t locs 0 0 ∧ accessKept s t l (firstOf d) (countOf d 32) (pushing d) ∧
    returned s t l d 32 (BitVec.ofNat 64 ea) fun w => readsPlain s locs →
      ∃ n, littleEndian span.2 (fun i => byteRead s false (blkLoc locs (span.1 + i)) 0) n ∧ packs f w n ∧
        (f = .e3m2 ∨ f = .e2m3 → ∀ j, j < 4 → w / 2 ^ (8 * j) % 256 < 64)
/-- After a block store of one lane: its bytes and its quarter's slots stand at the places the word computes, and nothing else has changed. -/
def blockStored (scr : Bool) (c : Src) (f : EFmt) (off : BitVec 7) (s : State) (l : Nat) (v : List Nat) (_ : List Eff) (t : State) : Prop :=
  ∀ locs ea, s.planBlock s.chain.core s.chain.grp .store scr f (arg v 0) off.toNat = .ok (locs, ea) → let span := blkSpan f l
    blockKept s t locs span.1 span.2 ∧ accessKept s t l 0 0 false ∧
    (∀ n, packs f (arg v 1 % 2 ^ 32) n → n < 256 ^ span.2 → ∀ i, i < span.2 → homeByte t (blkLoc locs (span.1 + i)) 0 = BitVec.ofNat 8 (n / 256 ^ i)) ∧
    ∀ p k, (blkSlots f (l / 8))[k]? = some p → t.locSlot (locs.getD p.1 (.scr 0 0)) p.2 = if k = 0 then (s.srcShadow l c).s0 else (s.srcShadow l c).s1
end Sys2Proof.Rules

/-- R16, R121, R124 to R126, R129 to R131, R134 to R136, R141, R142, R221: what a load, a store and an atomic of one lane leave: every lane
but the destination of this one, the group scalars, the amax cells and the engines are as they were, and every byte of memory but the bytes
stored at the address the word computes, and the marks ACC and DTY of the page's leaf; the stored bytes stand there, a load's transaction
brings the bytes found, and an atomic's place holds what R135 and R136 give.  That memory holds a store's bytes at the end of its chain, while
another core or an engine may read what stood there until the store is performed, is log entry 9 (DESIGN CHOICE); that a load
reads as it is issued, until it reads again, is log entry 8. -/
def Obligations.AccessFrames : Prop := ∀ (c : Src) (d : Dst) (a b : Src) (off : BitVec 10) (op : AOp) (fo : AFOp) (f : EFmt) (o7 : BitVec 7),
  Leaves (.stB8 false c a off) (stores false 1 false off) (stored false 1 off) ∧ Leaves (.stB16 false c a off) (stores false 2 false off) (stored false 2 off) ∧
  Leaves (.stB32 false c a off) (stores false 4 false off) (stored false 4 off) ∧ Leaves (.stB64 false c a off) (stores false 8 false off) (stored false 8 off) ∧
  Leaves (.stB128 false c a off) (stores false 16 false off) (stored false 16 off) ∧
  Leaves (.strelB32 false c a off) (stores false 4 true off) (stored false 4 off) ∧ Leaves (.strelB64 false c a off) (stores false 8 true off) (stored false 8 off) ∧
  Leaves (.stsB8 false c a off) (stores true 1 false off) (stored true 1 off) ∧ Leaves (.stsB32 false c a off) (stores true 4 false off) (stored true 4 off) ∧
  Leaves (.stsB64 false c a off) (stores true 8 false off) (stored true 8 off) ∧ Leaves (.stsB128 false c a off) (stores true 16 false off) (stored true 16 off) ∧
  Leaves (.ldB8u false d a off) (loads false 1 false false false d off) (loaded false 1 false false d off) ∧
  Leaves (.ldB8s false d a off) (loads false 1 true false false d off) (loaded false 1 true false d off) ∧
  Leaves (.ldB16u false d a off) (loads false 2 false false false d off) (loaded false 2 false false d off) ∧
  Leaves (.ldB16s false d a off) (loads false 2 true false false d off) (loaded false 2 true false d off) ∧
  Leaves (.ldB32 false d a off) (loads false 4 false false false d off) (loaded false 4 false false d off) ∧
  Leaves (.ldB64 false d a off) (loads false 8 false false false d off) (loaded false 8 false false d off) ∧
  Leaves (.ldB128 false d a off) (loads false 16 false false false d off) (loaded false 16 false false d off) ∧
  Leaves (.ldacqB32 false d a off) (loads false 4 false true false d off) (loaded false 4 false false d off) ∧
  Leaves (.ldacqB64 false d a off) (loads false 8 false true false d off) (loaded false 8 false false d off) ∧
  Leaves (.ldncB32 false d a off) (loads false 4 false false true d off) (loaded false 4 false true d off) ∧
  Leaves (.ldsB32 false d a off) (loads true 4 false false false d off) (loaded true 4 false false d off) ∧
  Leaves (.ldsB64 false d a off) (loads true 8 false false false d off) (loaded true 8 false false d off) ∧
  Leaves (.ldsB128 false d a off) (loads true 16 false false false d off) (loaded true 16 false false d off) ∧
  Leaves (.atomB32 false d a b op) (atomics (some d) (.int 32 op)) (swapped 4 (some d)) ∧
  Leaves (.atomB64 false d a b op) (atomics (some d) (.int 64 op)) (swapped 8 (some d)) ∧
  Leaves (.redB32 false a b op) (atomics none (.int 32 op)) (swapped 4 none) ∧ Leaves (.redB64 false a b op) (atomics none (.int 64 op)) (swapped 8 none) ∧
  Leaves (.atomf false d a b fo) (atomics (some d) (.flt fo)) (swapped 4 (some d)) ∧ Leaves (.redf false a b fo) (atomics none (.flt fo)) (swapped 4 none) ∧
  Leaves (.casB32 false d a b) (atomics (some d) (.cas 32)) (swapped 4 (some d)) ∧
  Leaves (.casB64 false d a b) (atomics (some d) (.cas 64)) (swapped 8 (some d)) ∧ Leaves (.cas2 false d a b) (atomics (some d) .cas2) (swapped 16 (some d)) ∧
  Leaves (.atoms false d a b op) (scratchAtomics (some d) (.int 32 op)) (swapped 4 (some d)) ∧
  Leaves (.reds false a b op) (scratchAtomics none (.int 32 op)) (swapped 4 none) ∧
  Leaves (.cass false d a b) (scratchAtomics (some d) (.cas 32)) (swapped 4 (some d)) ∧
  (fo ≠ .maxAbs → Leaves (.atomfs false d a b fo) (scratchAtomics (some d) (.flt fo)) (swapped 4 (some d))) ∧
  Leaves (.atomfs false d a b .maxAbs) (fun s l v es => (arg v 0 % 2 ^ 32).testBit 30 = false ∧ scratchAtomics (some d) (.flt .maxAbs) s l v es)
    (swapped 4 (some d)) ∧
  Leaves (.atomfs false d a b .maxAbs) (fun s l v es => settled s l (some d) ∧
    ∃ k, k < 16 ∧ arg v 0 % 2 ^ 32 = 2 ^ 30 + 4 * k ∧ es = [.sync, .amax d k false (BitVec.ofNat 32 (arg v 1))]) (celled d) ∧
  Leaves (.amaxrst false d a) (fun s l v es => arg v 0 < 16 ∧ settled s l (some d) ∧ es = [.sync, .amax d (arg v 0) true 0]) (celled d) ∧
  Leaves (.ldb false d a f o7) (fun s l v es => blockLoads false d f o7 s [(l, v)] l v es) (blockLoaded false d f o7) ∧
  Leaves (.ldbs false d a f o7) (fun s l v es => blockLoads true d f o7 s [(l, v)] l v es) (blockLoaded true d f o7) ∧
  Leaves (.stb false c a f o7) (fun s l v es => blockStores false c f o7 s [(l, v)] l v es) (blockStored false c f o7) ∧
  Leaves (.stbs false c a f o7) (fun s l v es => blockStores true c f o7 s [(l, v)] l v es) (blockStored true c f o7)

/-- R135, R136: what an atomic stores for the old value `o` and the operand `b`. -/
def Obligations.AtomicValues : Prop :=
  (∀ o b, atomFlt .addF32 o b = f32.round (Val.sum .rne [f32.decode o, f32.decode b]) .rne 0 ∧ atomFlt .maxF32 o b = maxN f32 true o b ∧
    atomFlt .minF32 o b = maxN f32 false o b ∧ atomFlt .maxIeee o b = maxI f32 true o b ∧ atomFlt .minIeee o b = maxI f32 false o b ∧
    atomFlt .addF16x2 o b = fpAdd .f16x2 ⟨.rne, 0, 0⟩ o b ∧ atomFlt .addBf16x2 o b = fpAdd .bf16x2 ⟨.rne, 0, 0⟩ o b ∧ atomFlt .maxAbs o b = maxA f32 o b) ∧
  ∀ (w o b : Nat), w = 32 ∨ w = 64 → o < 2 ^ w → b < 2 ^ w →
  atomInt w .add o b = (o + b) % 2 ^ w ∧ atomInt w .xchg o b = b ∧
  atomInt w .and o b = o &&& b ∧ atomInt w .or o b = o ||| b ∧ atomInt w .xor o b = o ^^^ b ∧
  (atomInt w .minU o b = min o b ∧ atomInt w .maxU o b = max o b) ∧
  (atomInt w .minS o b = if sgn w o ≤ sgn w b then o else b) ∧ (atomInt w .maxS o b = if sgn w o ≤ sgn w b then b else o) ∧
  (∀ n, n < 2 ^ w → casNew w o (b + n * 2 ^ w) = if o = b then some n else none) ∧
  ∀ ver n, ver < 2 ^ 64 → n < 2 ^ 64 → w = 64 → cas2New (o + ver * 2 ^ 64) (b + n * 2 ^ 64) = if o = b then some (n + (ver + 1) % 2 ^ 64 * 2 ^ 64) else none

/-! ### Moorings, fences, caches, engines, work and windows -/
namespace Sys2Proof.Rules
/-- The mooring an operation names: its location (R122, R123, R182), and the address a fault would report. -/
def moorAt (s : State) (scr : Bool) (a : Nat) (m : Retire) : Prop :=
  ∃ loc, (if scr then s.checkScratch s.chain.core s.chain.grp (a % 2 ^ 32) 16 16 = .ok loc else a % 16 = 0 ∧ translated s .objRW a loc) ∧
    m = loc.moor (BitVec.ofNat 64 (if scr then a % 2 ^ 32 else a)) 0 0
/-- `minit`, `marrive` and `mexpect` (R183, R186): no misuse as the mooring will stand after the operations posted before. -/
def posts (kind : Nat) (d : Dst) (scr : Bool) (s : State) (_ : Nat) (v : List Nat) (es : List Eff) : Prop :=
  ∃ m, moorAt s scr (arg v 0) m ∧ ((s.mooringAhead m).op kind (arg v 1)).isSome = true ∧ es = [.object m.loc 0 true, .sync, .moor kind d m (BitVec.ofNat 32 (arg v 1))]
/-- `mwait` and `mtest` (R185, R186): the mooring is valid, and the lane has no operation posted on it; `t` says whether its phase
differs from the token. -/
def looks (s : State) (l : Nat) (scr : Bool) (a b : Nat) (m : Retire) (t : Bool) : Prop :=
  moorAt s scr a m ∧ (s.posted.all fun p => !(p.2.core == s.chain.core && p.2.grp == s.chain.grp && p.2.lane == l && p.2.moor.id == m.id)) = true ∧
    (s.mooring m).val = true ∧ t = ((s.mooring m).phase != b.testBit 0)
/-- The acquire at a wait's end drops the L1 data cache where its scope is wider than the team (R187, R208). -/
def wide (scr : Bool) (a : Nat) : Bool := !scr || a.testBit 28
/-- A counter stands at or below a limit; all ones is no limit (R188). -/
def within (n lim all : Nat) : Prop := lim = all ∨ n ≤ lim
/-- A lane reads `n` bytes of its scratch region by class-L loads: conflict detection sees their sectors, and the access is made (R198, R236). -/
def readsScr (s : State) (a n : Nat) : List Eff :=
  match s.cmdOffset s.chain.core s.chain.grp (a % 2 ^ 32) 1 n with
  | .ok loc => s.touches s.chain.core s.chain.grp false (loc.sectorsIn n) ++ [.object loc n false]
  | .error _ => []
/-- The same of the 64 bytes of a log descriptor (R221, R285). -/
def readsLog (s : State) (pa key a : Nat) : List Eff :=
  let loc : Loc := .dev pa key (BitVec.ofNat 64 a) 0
  s.touches s.chain.core s.chain.grp false (loc.sectorsIn 64) ++ [.object loc 64 false]
/-- A word that issues an operation a plan gives, where the tl counter has room (R247), after the lane's loads. -/
def issues (plan : State → Nat → List Nat → Except LaneOut TlOp) (reads : State → List Nat → TlOp → List Eff) (s : State) (_ : LaneSet) (l : Nat)
    (v : List Nat) (es : List Eff) : Prop :=
  ∃ x, plan s l v = .ok x ∧ s.cgroup.tlOps.length < 7 ∧ es = reads s v x ++ [.tend x]
/-- A joint word whose operation the engine has accepted, which was issued by lanes that the word's executing lanes are among (R258, R261;
log entry 74). -/
def acceptedJoint (idx : Nat) (s : State) (ls : LaneSet) (_ : Nat) (_ : List Nat) (es : List Eff) : Prop :=
  (∃ y, s.cgroup.atJoint = some y ∧ y.accepted = true ∧ y.idx = idx ∧ ∀ k, ls.getLsbD k = true → y.lanes.getLsbD k = true) ∧ es = [.accepted]
/-- The Beacon words: the operation, and the sectors of its block (R367, R368). -/
def beacons (k : BKind) (s : State) (_ : Nat) (v : List Nat) (es : List Eff) : Prop :=
  ∃ o tgt, s.planBeacon s.chain.core s.chain.grp k (arg v 0) (arg v 1) = .ok (o, tgt) ∧ es = s.blockTouches (arg v 1) ++ [.object (.dev o.addr 0 (BitVec.ofNat 64 (arg v 0)) 5) 0 (decide (k ≠ .bchase)), .beacon o tgt 0]
/-- A layer an operand names (R346), and whether it is resident. -/
def layerOk (s : State) (a : Nat) : Prop := a < 4096 ∧ a < (s.ctx s.cctx).nlayer
def here (s : State) (k : Nat) : Bool := s.topmark s.cctx k % 4 == 2
/-- Whether an event of a collective's descriptor has reached a count, in modular order (R386). -/
def event (s : State) (a b : Nat) (loc : Loc) (t : Bool) : Prop :=
  b % 4 < 3 ∧ b / 4 % 2 ^ 30 = 0 ∧ a % 128 = 0 ∧ translated s .objR a loc ∧ ∃ pa key va apt, loc = .dev pa key va apt ∧
    t = decide ((ofBytesLE (s.devRead key (pa + 112 + 4 * (b % 4)) 4).1 + 2 ^ 32 - b / 2 ^ 32) % 2 ^ 32 < 2 ^ 31)
/-- The acquire of a satisfied wait or test (R342, R386). -/
def acquired (t : Bool) : List Eff := if t then [.sync, .acquire true] else []
end Sys2Proof.Rules

/-- R182 to R187: the mooring words. -/
def Obligations.MooringWords : Prop := ∀ (d : Dst) (a b : Src) (scr : Bool) (p : PDst),
  PerformsInTurn (.minit false a b scr) (posts 0 .drop scr) ∧ PerformsInTurn (.marrive false d a b scr) (posts 1 d scr) ∧
  PerformsInTurn (.mexpect false a b scr) (posts 2 .drop scr) ∧
  PerformsEach (.mwait false a b scr) (fun s l v es => ∃ m t, looks s l scr (arg v 0) (arg v 1) m t ∧
    es = [.object m.loc 0 (!t), .sync, if t then .acquire (wide scr (arg v 0)) else .mwait m ((arg v 1).testBit 0) (wide scr (arg v 0))]) ∧
  PerformsEach (.mtest false p a b scr) (fun s l v es => ∃ m t, looks s l scr (arg v 0) (arg v 1) m t ∧
    es = [.object m.loc 0 false, .sync, .acquire (t && wide scr (arg v 0)), .pred p.p.toNat t])

/-- R183: what each operation makes of a mooring, and when it is misuse; R182, ADV: the phase turns when pending and units are 0. -/
def Obligations.MooringOperations : Prop := ∀ (m : Mooring) (n : Nat), n < 2 ^ 32 →
  let fits (x : Int) : Prop := -(2 ^ 31 : Nat) ≤ x ∧ x < (2 ^ 31 : Nat)
  (m.op 0 n = if (m.val = true ∧ m.wtr = true) ∨ n = 0 then none else some { phase := false, wtr := m.wtr, val := true, expect := n, pend := n, units := 0 }) ∧
  (fits (m.units + n) → m.val = true → m.op 2 n = some { m with units := m.units + n } ∧
    (m.pend ≠ 0 → m.op 1 n = some { m with units := m.units + n, pend := m.pend - 1 })) ∧
  (m.val = false ∨ ¬fits (m.units + n) → m.op 1 n = none ∧ m.op 2 n = none) ∧ (m.pend = 0 → m.op 1 n = none) ∧
  (m.val = true → m.pend ≠ 0 → m.ret 1 n = some { m with pend := m.pend - 1 }) ∧
  (m.val = true → fits (m.units - n) → m.ret 2 n = some { m with units := m.units - n }) ∧
  (m.val = true → m.pend = 0 → m.units = 0 → m.adv = { m with phase := !m.phase, pend := m.expect, units := 0, wtr := false }) ∧
  (m.val = false ∨ m.pend ≠ 0 ∨ m.units ≠ 0 → m.adv = m) ∧
  (m.expect < 2 ^ 32 → m.pend < 2 ^ 32 → fits m.units → mooringOf m.word = m)

/-- R188 to R192: fences and `wait`; an acquire or a fence wider than the team drops the L1 data cache (R208). -/
def Obligations.FencesAndWaits : Prop := ∀ (scope : Scope) (x y : BitVec 6) (ld st : BitVec 4) (cp tl : BitVec 3),
  let far : Bool := decide (scope ≠ .grp ∧ scope ≠ .team)
  PerformsEach (.fence false scope) (sends fun _ _ _ => [.sync, .fence scope 1 far]) ∧
  PerformsEach (.xfence false x y scope) (sends fun _ _ _ => [.sync, .fence scope x.toNat (far || y.getLsbD 0)]) ∧
  PerformsEach (.wait false ld st cp tl) (fun s _ _ es =>
    (within s.cgroup.ld ld.toNat 15 ∧ within s.cgroup.st st.toNat 15 ∧ within s.cgroup.cp cp.toNat 7 ∧ within s.cgroup.tl tl.toNat 7) ∧
      es = [.sync, .acquire true])

/-- R223 to R227: cache, map and translation words.  That `sflush` with bit 31 set takes no account of bits 18:0 is log entry 47 (DEDUCED), that
a write-back goes sector by sector up to the first that fails is log entry 28 (DEDUCED), and what `tlbi` waits for is log entry 77 (DEDUCED). -/
def Obligations.CacheAndMapWords : Prop := ∀ (a b : Src) (l2 : Bool),
  PerformsEach (.cinv false a b) (sends fun _ _ v => [.cinv (BitVec.ofNat 64 (arg v 0)) (arg v 1)]) ∧
  PerformsEach (.cwb false a b) (fun _ _ v es => arg v 1 ≠ 0 ∧ arg v 1 ≤ 2 ^ 28 ∧ es = [.cwb (BitVec.ofNat 64 (arg v 0)) (arg v 1)]) ∧
  PerformsEach (.pfetch false a l2) (sends fun _ _ v => [.pfetch (BitVec.ofNat 64 (arg v 0)) l2]) ∧
  PerformsEach (.tlbi false a b) (fun s _ v es => arg v 1 < 2 ^ 18 ∧ s.tlbiBusy (arg v 0) (arg v 1) = false ∧ es = [.tlbi (BitVec.ofNat 64 (arg v 0)) (BitVec.ofNat 32 (arg v 1))]) ∧
  PerformsOnce (.smap false a b) (fun s _ _ v es =>
    let t := s.cteam
    let sofs := arg v 1 % 2 ^ 19
    let n := arg v 1 / 2 ^ 24 % 2 ^ 8
    arg v 0 % 4096 = 0 ∧ sofs % 4096 = 0 ∧ arg v 1 / 2 ^ 20 % 2 ^ 4 = 0 ∧ n ≠ 0 ∧ n ≤ 128 ∧ sofs + 4096 * n ≤ t.scrLen ∧ t.maps.length < 8 ∧
      (∀ p ∈ t.maps, p.2.sofs + 4096 * p.2.nchk ≤ sofs ∨ sofs + 4096 * n ≤ p.2.sofs) ∧
      es = [.smap (BitVec.ofNat 64 (arg v 0)) (BitVec.ofNat 32 (arg v 1))]) ∧
  PerformsOnce (.sunmap false b) (fun s _ _ v es => ∃ ks,
    ks = (s.cteam.maps.filter fun p => p.2.sofs == arg v 0 % 2 ^ 19).map (·.1) ∧ ks ≠ [] ∧ arg v 0 / 2 ^ 19 % 2 ^ 13 = 0 ∧
      s.flushFault (s.chain.core, s.chain.grp) s.cgroup.team ks = none ∧
      es = s.touches s.chain.core s.chain.grp false (s.flushLocs s.chain.core s.chain.grp ks) ++ [.sflush ks true]) ∧
  PerformsOnce (.sflush false b) (fun s _ _ v es => ∃ ks,
    ks = (if (arg v 0).testBit 31 then s.cteam.maps.map (·.1) else (s.cteam.maps.filter fun p => p.2.sofs == arg v 0 % 2 ^ 19).map (·.1)) ∧
      ((arg v 0).testBit 31 = true ∨ ks ≠ []) ∧ arg v 0 / 2 ^ 19 % 2 ^ 12 = 0 ∧ s.flushFault (s.chain.core, s.chain.grp) s.cgroup.team ks = none ∧
      es = s.touches s.chain.core s.chain.grp false (s.flushLocs s.chain.core s.chain.grp ks) ++ [.sflush ks false]) ∧
  (∀ (s : State) (c g l n : Nat) (va : DWord), let rs := s.runs c (s.ctxOf c g) va.toNat n
    ((s.perform c g l (.cinv va 0)).core c).l1 = [] ∧
    (n ≠ 0 → ∀ k, Tbl.find ((s.perform c g l (.cinv va n)).core c).l1 k = if lineIn rs (k / 4) then none else Tbl.find (s.core c).l1 k) ∧
    (∀ k, Tbl.find (s.perform c g l (.cwb va n)).dirty k = if lineIn rs k then none else Tbl.find s.dirty k) ∧
    ((s.perform c g l (.cwb va n)).group c g).st = (s.group c g).st + 1 ∧
    ∀ (sel : Word) core e, (e ∈ ((s.perform c g l (.tlbi va sel)).core core).tlb →
      ¬((sel.getLsbD 16 = true ∨ e.ctx = sel.toNat % 65536) ∧
        (sel.getLsbD 17 = true ∨ if e.big = true then va.toNat / 2 ^ 28 = e.page / 2 ^ 28 else va.toNat / 2 ^ 16 = e.page / 2 ^ 16))) ∧
      (s.posted = [] → s.lantern.jdecs = [] → (∀ p ∈ s.cores, ∀ q ∈ p.2.groups, q.2.openBatch = [] ∧ q.2.batches = []) →
        e ∈ (s.core core).tlb → sel.getLsbD 16 = false → e.ctx ≠ sel.toNat % 65536 → e ∈ ((s.perform c g l (.tlbi va sel)).core core).tlb)) ∧
  (∀ (s : State) (c g l : Nat) (va : DWord) (w : Word), let t := (s.group c g).team
    (s.team t).maps.length < 8 → ∃ k, k < 8 ∧ Tbl.find (s.team t).maps k = none ∧
      Tbl.find ((s.perform c g l (.smap va w)).team t).maps k = some ⟨w.toNat % 2 ^ 19, w.toNat / 2 ^ 24, va,
        if w.getLsbD 19 then List.range (w.toNat / 2 ^ 24) else [], [], []⟩ ∧
      ∀ i, i ≠ k → Tbl.find ((s.perform c g l (.smap va w)).team t).maps i = Tbl.find (s.team t).maps i) ∧
  ∀ (s : State) (c g l : Nat) (ks : List Nat), let t := (s.group c g).team
    let ctx := (s.grid (s.team t).grid).ctx
    (∀ k ∈ ks, Tbl.find ((s.perform c g l (.sflush ks true)).team t).maps k = none) ∧
    ((s.team t).dirtyOf ks = [] → s.perform c g l (.sflush ks false) = s) ∧
    ∀ p ps, (s.team t).dirtyOf ks = p :: ps → s.wbFault (c, g) ctx ((s.team t).dirtyVa p) = none →
      s.perform c g l (.sflush ks false) = (s.flushSector (c, g) t p).flushList (c, g) t ps ∧
      (∀ m, Tbl.find ((s.flushSector (c, g) t p).team t).maps p.1 = some m → p.2 ∉ m.dirtyData ∧ p.2 ∉ m.dirtyScale) ∧
      ∀ m pa key apt dev leaf big entry, Tbl.find (s.team t).maps p.1 = some m → p.2 ∈ m.dirtyData → p.2 ∉ m.dirtyScale →
        s.xlat (some c) ctx .store ((s.team t).dirtyVa p) = .ok pa key apt dev leaf big entry → apt ≠ 3 →
        (s.flushSector (c, g) t p).mem = ((s.touch (some c) ctx true ((s.team t).dirtyVa p)).devWrite (some (c, g)) key pa
          (s.scrRead (s.team t).core (32 * p.2) 32).1 (s.scrRead (s.team t).core (32 * p.2) 32).2).mem

/-- R235 to R254, R284 to R287: the tender and gradient-log words.  That a tender's pages are translated at issue is log entry 20 (DEDUCED), that
a tile's entries have their places in the queue register from the issue, with room or without, is log entry 21 (DEDUCED), and what poison in a
descriptor does is log entry 26 (DEDUCED). -/
def Obligations.TenderWords : Prop := ∀ (a b : Src) (size : BitVec 2),
  PerformsEach (.cpy false a b size) (fun s _ v es =>
    ∃ x, s.planCpy s.chain.core s.chain.grp (4 * 2 ^ size.toNat) (arg v 0) (arg v 1) = .ok x ∧
      es = [.object (.dev x.src x.key (BitVec.ofNat 64 (arg v 1)) 0) 0 false, .cpy x]) ∧
  PerformsOnce (.seal false a b) (fun s _ _ v es => arg v 1 < 3 ∧ s.cgroup.batches.length < 7 ∧ ∃ r,
    (if arg v 1 = 0 then r = {} else ∃ loc, s.cmdOffset s.chain.core s.chain.grp (arg v 0) 16 16 = .ok loc ∧ s.chunksOk s.chain.core s.chain.grp loc.place 16 = .ok () ∧ r = loc.moor (BitVec.ofNat 64 (arg v 0)) (arg v 1) 0) ∧
      es = [.seal r]) ∧
  PerformsOnce (.tile false a b) (issues (fun s l v => s.planTile s.chain.core s.chain.grp (s.clane l).rnd (arg v 0) (arg v 1)) fun s v _ => readsScr s (arg v 0) 32) ∧
  PerformsOnce (.relay false a b) (issues (fun s _ v => s.planRelay s.chain.core s.chain.grp (arg v 0) (arg v 1)) fun s v _ => readsScr s (arg v 0) 16) ∧
  PerformsOnce (.gath false a) (issues (fun s _ v => s.planGath s.chain.core s.chain.grp (arg v 0)) fun s v x =>
    readsScr s (arg v 0) 32 ++ readsScr s (ofBytesLE x.desc / 2 ^ 128 % 2 ^ 32) (4 * (ofBytesLE x.desc / 2 ^ 232 % 2 ^ 6))) ∧
  PerformsOnce (.glapp false a b) (fun s _ _ v es => ∃ x, s.planGlapp s.chain.core s.chain.grp (arg v 0) (arg v 1) = .ok x ∧
    es = readsLog s x.log x.logKey (arg v 0) ++ [.object (.dev x.log x.logKey (BitVec.ofNat 64 (arg v 0)) 0) 0 true, .glapp x]) ∧
  PerformsOnce (.glfold false a b) (fun s _ _ v es => ∃ x, s.planGlfold s.chain.core s.chain.grp (arg v 0) (arg v 1) = .ok x ∧
    es = readsLog s x.log x.key (arg v 0) ++ [.glfold x]) ∧
  ∀ (s : State) (c g l : Nat) (act : Retire) (o : TlOp),
    ((s.perform c g l (.seal act)).group c g).cp = (s.group c g).cp + 1 ∧ ((s.perform c g l (.seal act)).group c g).openBatch = [] ∧
    (∃ x, ((s.perform c g l (.seal act)).group c g).batches = (s.group c g).batches ++ [x] ∧ x.items = (s.group c g).openBatch ∧ x.act = act ∧
      x.lane = l ∧ ∀ y ∈ (s.group c g).batches, y.id < x.id) ∧
    ((s.perform c g l (.tend o)).group c g).tlOps = (s.group c g).tlOps ++ [{ o with lane := l, id := s.nextTxn }] ∧
    ((s.perform c g l (.tend o)).group c g).tl = (s.group c g).tlOps.length + 1 ∧
    ((s.perform c g l (.tend o)).group c g).mq o.queue = (s.group c g).mq o.queue ++
      List.replicate o.entries { words := [], shadow := noShadow, poison := false, awaiting := [(32, s.nextTxn)] }

/-- R255 to R274: the matrix words; a joint word completes once its operation is accepted.  That one set of a group's lanes waits at a joint
word at a time is log entry 74 (DESIGN CHOICE). -/
def Obligations.MatrixWords : Prop := ∀ (p : PDst) (a b : Src) (f : DrainFmt),
  (∀ s fm vs es, Ready s (.mrsv false p) fm vs →
    (∀ l ∈ executing s (.mrsv false p), es l = .pred p.p.toNat (s.mayReserve s.chain.core s.chain.grp) ::
      if (executing s (.mrsv false p)).head? = some l ∧ s.mayReserve s.chain.core s.chain.grp = true then [.mrsv] else []) →
    Room s (.mrsv false p) fm es → Sys2Proof.Machine.exec (.mrsv false p) s = .next (after s (.mrsv false p) fm es)) ∧
  PerformsOnce (.mrel false) (fun s _ _ _ es => s.holds s.chain.core s.chain.grp = true ∧
    (s.engine s.chain.core (s.partOf s.chain.core s.chain.grp)).ops = [] ∧ es = [.mrel]) ∧
  PerformsOnce (.mcvn false a) (acceptedJoint 2) ∧
  PerformsOnce (.mcvn false a) (fun s _ _ v es =>
    let e := s.engine s.chain.core (s.partOf s.chain.core s.chain.grp)
    let slots := s.cteam.slots
    s.cgroup.atJoint = none ∧ s.holds s.chain.core s.chain.grp = true ∧
    popCount 32 (arg v 0) ∈ [1, 2, 4] ∧ (arg v 0).testBit s.cgroup.idx = true ∧
    (∀ i, i < 32 → (arg v 0).testBit i = true → i < slots.length) ∧
    ((s.core s.chain.core).partitioned = true → ∀ i k, slots[i]? = some k → (arg v 0).testBit i = true → k / 8 = s.chain.grp / 8) ∧
    (∀ p ∈ e.proposals, p.1 ≠ s.cgroup.idx → p.2.getLsbD s.cgroup.idx = true → p.2.toNat = arg v 0) ∧
    (∀ i, i < 32 → (arg v 0).testBit i = true → i = s.cgroup.idx ∨ Tbl.find e.proposals i = some (BitVec.ofNat 32 (arg v 0))) ∧
    es = [.mcvn (BitVec.ofNat 32 (arg v 0))]) ∧
  PerformsOnce (.mma false a) (acceptedJoint 3) ∧ PerformsOnce (.mmd false a) (acceptedJoint 4) ∧ PerformsOnce (.mzero false a) (acceptedJoint 5) ∧
  PerformsOnce (.mdrain false a b f) (acceptedJoint 6) ∧ PerformsOnce (.mload false a b) (acceptedJoint 7) ∧
  PerformsOnce (.mcmplx false a) (acceptedJoint 9) ∧
  PerformsOnce (.mcfg false a b) (fun s _ _ v es => s.holds s.chain.core s.chain.grp = true ∧
    ∃ place, ((arg v 0 = 0 ∧ arg v 1 ≤ 1 ∧ place = (0, 0)) ∨ (arg v 0 = 2 ∧ arg v 1 = 0 ∧ place = (0, 0)) ∨
      (arg v 0 = 1 ∧ ∃ loc, s.cmdOffset s.chain.core s.chain.grp (arg v 1) 32 512 = .ok loc ∧ s.chunksOk s.chain.core s.chain.grp loc.place 512 = .ok () ∧
        place = loc.place)) ∧
    es = [.mcfg { idx := 8, a := BitVec.ofNat 32 (arg v 0), b := BitVec.ofNat 64 (arg v 1), groups := [s.chain.grp], ctx := s.cctx, place := place }]) ∧
  ∀ (s : State) (c g l : Nat) (mask : BitVec 32) (o : MxOp), let p := s.partOf c g
    ((s.engine c p).holder = none → ((s.perform c g l .mrsv).engine c p).holder = some (s.group c g).team) ∧
    ((∀ k, (s.group c k).atJoint = none) → ((s.perform c g l .mrel).engine c p).holder = none) ∧
    ((s.perform c g l (.mcvn mask)).engine c p).conv = mask ∧
    ((s.perform c g l (.mcfg o)).engine c p).ops = (s.engine c p).ops ++ [{ o with id := s.nextTxn, by_ := [(g, l)] }]

/-- R306 to R313, R327, R346, R386: work creation, `kreq`, pins, and the words that wait for or test events and layers, each with what its
effect does: the record that `emit` appends (R311), the object that `spawn` registers as the Lantern holds it (R295, R308, R310), the
decrement that `jdec` posts (R309), the request that `kreq` makes (R327), and the pin (R346).  That `emit`, `spawn`, `jdec` and `kreq`
complete with no wait for the group's counters, and that `kreq` needs RD on its block, is log entry 49 (DEDUCED). -/
def Obligations.WorkAndModelWords : Prop := ∀ (d : Dst) (p : PDst) (a b : Src),
  PerformsInTurn (.emit false a b) (fun s _ v es => arg v 0 % 64 = 0 ∧
    (∃ n, s.laneGet (arg v 0) 64 = .ok n ∧ n.testBit 255 = true) ∧ ∃ loc reads, translated s .objRW (arg v 0) loc ∧ s.laneNode (arg v 0) = .ok reads ∧
    ∃ k, s.nodeAtPa loc.place.2 = some k ∧ (s.node k).st = 1 ∧ s.nodeRoom k = true ∧
      es = reads ++ [.sync, .acquire true, .emit k (BitVec.ofNat 64 (arg v 1))]) ∧
  PerformsEach (.spawn false a b) (fun s _ v es => arg v 0 % 32 = 0 ∧ arg v 1 % 16 = 0 ∧
    s.workTable < 4096 ∧ ∃ loc r reads, translated s .objRW (arg v 0) loc ∧ s.laneGet (arg v 0) 32 = .ok r ∧
    (ofBytesLE (s.locRead (loc.plus 24) 8).1).testBit 62 = false ∧ (r.testBit 255 = true → ofBytesLE (s.locRead (loc.plus 44) 4).1 % 4 = 0) ∧
    (if r.testBit 255 then arg v 0 % 64 = 0 ∧ arg v 1 = 0 ∧ s.laneNode (arg v 0) = .ok reads
    else arg v 1 ≠ 0 ∧ recLegal r = true ∧ s.laneInputs r = .ok () ∧
      reads = s.laneReads (arg v 0) 32 ++ [.object (s.laneLoc (arg v 0)) 0 true] ++ s.listReads r) ∧
    es = reads ++ [.sync, .acquire true, .spawn (BitVec.ofNat 64 (arg v 0)) (BitVec.ofNat 64 (arg v 1)) loc.place.2]) ∧
  PerformsInTurn (.jdec false a) (fun s _ v es => arg v 0 % 32 = 0 ∧ ∃ pa key va apt, translated s .objRW (arg v 0) (.dev pa key va apt) ∧
    es = [.object (.dev pa key va apt) 0 true, .sync, .acquire true, .jdec ⟨s.chain.core, s.chain.grp, s.cteam.idx, pa + 24, key, BitVec.ofNat 64 (arg v 0), s.cctx, s.chain.grp⟩]) ∧
  PerformsInTurn (.kreq false d a b) (fun s l v es =>
    let r (x : Dst) : KReq := ⟨s.cgroup.team, s.cgroup.idx, l, x, BitVec.ofNat 64 (arg v 0), arg v 1, 0, 0⟩
    (arg v 1 = 15 ∧ arg v 0 = 0 ∧ (s.clane l).h = true ∧ es = [.sync, .acquire true, .kreq (r .drop)]) ∨
    (arg v 1 < 7 ∧ arg v 0 % 64 = 0 ∧ (∃ loc, translated s .load (arg v 0) loc) ∧ es = [.sync, .acquire true, .kreq (r d)])) ∧
  PerformsInTurn (.tmpin false a) (fun s _ v es => layerOk s (arg v 0) ∧ tmPins (s.topmark s.cctx (arg v 0)) ≠ 65535 ∧ es = [.tmPin (arg v 0) true]) ∧
  PerformsInTurn (.tmunpin false a) (fun s _ v es => layerOk s (arg v 0) ∧ tmPins (s.topmark s.cctx (arg v 0)) ≠ 0 ∧ es = [.tmPin (arg v 0) false]) ∧
  PerformsEach (.tmchk false p a) (fun s _ v es => layerOk s (arg v 0) ∧ es = .pred p.p.toNat (here s (arg v 0)) :: acquired (here s (arg v 0))) ∧
  PerformsEach (.tmwait false a) (fun s _ v es => layerOk s (arg v 0) ∧ here s (arg v 0) = true ∧ es = [.sync, .acquire true]) ∧
  PerformsEach (.xev false a b) (fun s _ v es => ∃ loc, event s (arg v 0) (arg v 1) loc true ∧ es = [.object loc 0 false, .sync, .acquire true]) ∧
  PerformsEach (.xtest false p a b) (fun s _ v es => ∃ loc t, event s (arg v 0) (arg v 1) loc t ∧
    es = .object loc 0 false :: .pred p.p.toNat t :: acquired t) ∧
  ∀ (s : State) (c g l : Nat),
    (∀ k w, let x := s.node k
      let put := s.vget x.ctx (x.addr.toNat + 32) 4
      s.perform c g l (.emit k w) = ((s.vwrite x.ctx (x.ring.toNat + 16 * (put % x.nring)) (toBytesLE 8 x.addr.toNat ++ toBytesLE 8 w.toNat)).vwrite
        x.ctx (x.addr.toNat + 32) (toBytesLE 4 (put + 1))).nodeStart k 1025) ∧
    (∀ (a b : DWord) pa, let ctx := s.ctxOf c g
      let me := (s.teamOf c g).grid
      let t := s.perform c g l (.spawn a b pa)
      ((s.vget ctx (a.toNat + 24) 8).testBit 63 = false → s.vget ctx (a.toNat + 24) 2 ≠ 0 → let r := s.vget ctx a.toNat 32
        t.lantern.nextGrid = s.lantern.nextGrid + 1 ∧ ∃ x, t.lantern.grids = Tbl.put s.lantern.grids s.lantern.nextGrid x ∧
        x.rec_ = a ∧ x.args = b ∧ x.parent = some me ∧ x.ctx = ctx ∧ x.st = .waiting ∧ x.node = none ∧ x.source = (s.grid me).source ∧
        x.ceiling = (s.grid me).ceiling ∧ x.prio = min (recPrio r) (s.grid me).ceiling ∧ x.nteam = recNteam r ∧ x.ngrp = recNgrp r ∧
        x.code = BitVec.ofNat 64 (recCode r) ∧ x.fp = BitVec.ofNat 64 (recFrame r) ∧
        t.mem = (((s.recordMarks ctx a.toNat).setWatch ctx a true).vwrite ctx b.toNat (toBytesLE 16 (headerOf x))).mem) ∧
      ((s.vget ctx (a.toNat + 24) 8).testBit 63 = true → let n := s.vget ctx a.toNat 64
        n / 2 ^ 192 % 65536 ≠ 0 → t.lantern.nextGrid = s.lantern.nextGrid + 1 ∧ ∃ x, t.lantern.nodes = Tbl.put s.lantern.nodes s.lantern.nextGrid x ∧
        x.addr = a ∧ x.ctx = ctx ∧ x.st = 1 ∧ x.parent = me ∧ x.rec_ = BitVec.ofNat 64 n ∧ x.args = BitVec.ofNat 64 (n / 2 ^ 64) ∧
        x.ring = BitVec.ofNat 64 (n / 2 ^ 128) ∧ x.nring = n / 2 ^ 208 % 65536)) ∧
    (∀ x, (s.perform c g l (.jdec x)).lantern.jdecs = s.lantern.jdecs ++ [x]) ∧
    (∀ r, (s.perform c g l (.kreq r)).keeper.kreqs = Tbl.put s.keeper.kreqs s.keeper.nextKreq { r with txn := s.nextTxn, at_ := s.now } ∧
      ((s.perform c g l (.kreq r)).lane c g l).mode = .stalled .kreq) ∧
    ∀ k up at_, let ctx := s.ctxOf c g
      let w := s.topmark ctx k
      s.topmarkPa ctx k = some at_ → (s.perform c g l (.tmPin k up)).mem =
        ((s.touch none ctx true ((s.ctx ctx).tmbase.toNat + 8 * k)).devWrite none (s.topmarkKey ctx k) at_
          (toBytesLE 8 (w % 4 + (if up then w / 65536 + 1 else w / 65536 % 65536 - 1) % 65536 * 65536 + w / 2 ^ 32 % 2 ^ 32 * 2 ^ 32)) false).mem

/-- R361 to R368: the window and Beacon words. -/
def Obligations.WindowWords : Prop := ∀ (d : Dst) (a b : Src),
  PerformsOnce (.wtag false a) (fun s _ _ v es => arg v 0 < 4 ∧ (s.cgroup.bslot (arg v 0)).st ≠ 2 ∧ es = [.wtag (arg v 0)]) ∧
  (∀ s f vs l rest r n es, Ready s (.wclose false d a b) f vs → Held s f → executing s (.wclose false d a b) = l :: rest →
    s.planWclose (arg (vs l) 0) (arg (vs l) 1) = .ok (r, n) →
    (∀ k ∈ executing s (.wclose false d a b),
      es k = (if k = l then [.wclose (arg (vs l) 1) r] else []) ++ [.result d 32 (BitVec.ofNat 128 n) none]) →
    Room s (.wclose false d a b) f es → Sys2Proof.Machine.exec (.wclose false d a b) s = .next (after s (.wclose false d a b) f es)) ∧
  PerformsEach (.wfence false) (fun s l _ es => ∃ t, (s.clane l).ticket = some t ∧ s.fenced s.cgroup.team s.cgroup.idx t = true ∧ es = [.sync, .wfenceEnd]) ∧
  PerformsEach (.bcas false a b) (beacons .bcas) ∧ PerformsEach (.benq false a b) (beacons .benq) ∧
  PerformsEach (.bchase false a b) (beacons .bchase) ∧ PerformsEach (.bred false a b) (beacons .bred) ∧
  ∀ (s : State) (c g l t : Nat), (s.perform c g l (.wtag t)).group c g = { s.group c g with tag := t } ∧ (s.perform c g l (.wtag t)).mem = s.mem

/-! ### Chains, steps and words (R26 to R29, R48 to R52) -/
/-- R50: a `guard` that passes its checks joins its chain: it gives no lane anything to do, and the next word of the chain executes in
the lanes in which the predicate it names, as it stood before the chain, holds. -/
def Obligations.GuardWord : Prop := ∀ (x : PSrc) (s : State) (f : Form), (Instr.guard x).form = some f → s.chain.active = true →
  s.wordCheck true (.guard x) f = none →
  ∃ t, Sys2Proof.Machine.exec (.guard x) s = .next t ∧ { t with chain := s.chain } = s ∧ t.chain.active = true ∧
    t.chain.lanes = s.chain.lanes ∧ t.chain.slot = s.chain.slot + 1 ∧ t.chain.guard = some x ∧
    ∀ l, t.chain.fate l = s.chain.fate l ∧ t.chain.effs l = s.chain.effs l ∧
      t.guardOn l = ((s.clane l).preds.getLsbD x.p.toNat != x.neg)

/-- R28, R29, R49: a word of a chain that passes its checks and has another word after it changes nothing but the chain, to which it
adds its pipe, the registers it writes and the queues it pops; the last word ends the chain, which takes effect whole; and a word that
fails a check ends it with the check's cause. -/
def Obligations.WordsOfAChain : Prop := ∀ (i : Instr) (f : Form) (s : State), i.form = some f → s.chain.active = true →
  (s.wordCheck i.ch i f = none → ∃ w : WordOut,
    let t := s.addWord i f w
    { t with chain := s.chain } = s ∧ t.chain.slot = s.chain.slot + 1 + f.lits ∧ t.chain.pipes = s.chain.pipes ++ [f.pipe] ∧
    t.chain.outs = s.chain.outs ++ [w] ∧
    Sys2Proof.Machine.exec i s = .next (if i.ch then t else t.commit)) ∧
  ∀ c n, s.wordCheck i.ch i f = some (c, n) → Sys2Proof.Machine.exec i s = .next (s.failWord c n)

/-- A step runs the decoded instruction: the next word of the chain in progress, where it decodes; a word that does not decode ends its
chain as an illegal one; otherwise the next turn of the agenda is taken, and an event's turn runs its instruction. -/
def Obligations.StepRunsTheDecodedWord : Prop := ∀ s : State,
  (s.chain.active = true → ∀ i, decodeWord (s.chain.words.getD s.chain.slot 0).toNat = .ok i → step s = Sys2Proof.Machine.exec i s) ∧
  (s.chain.active = true → ∀ n, decodeWord (s.chain.words.getD s.chain.slot 0).toNat = .error n → n < 0x10 →
    step s = Sys2Proof.Machine.exec (.illegalOp s.chain.core s.chain.grp s.chain.lanes .illegalOp n) s) ∧
  (s.chain.active = false → s.chain.later = [] → ∀ t rest, s.agenda = t :: rest → step s = { s with agenda := rest }.turn t) ∧
  (s.chain.active = false → s.chain.later = [] → s.agenda = [] → ∃ ts, step s = .next { s with agenda := ts }) ∧
  (∀ t : Turn, (∃ i : Instr, i.form = none ∧ ∀ s : State, s.turn t = Sys2Proof.Machine.exec i s) ∨
    (∃ core grp, t = .issue core grp) ∨ (∃ n, t = .clock n) ∨ (∃ core grp txn, t = .storeDone core grp txn) ∨
    (∃ core grp txn, t = .loadLate core grp txn) ∨ (∃ r on, t = .lagging r on) ∨ (∃ line, t = .l2WriteBack line) ∨
    (∃ core k, t = .l1Drop core k) ∨ (∃ core k, t = .icDrop core k) ∨ (∃ core k, t = .tlbDrop core k) ∨ (∃ sec, t = .memError sec) ∨
    (∃ core part tile, t = .accError core part tile) ∨ t = .startStep ∨ t = .mbAnswer) ∧
  (∀ core grp txn bad, s.turn (.loadDataReturn core grp txn bad) = Sys2Proof.Machine.exec (.loadDataReturn core grp txn bad) s) ∧
  (∀ core part, s.turn (.jointIssue core part) = Sys2Proof.Machine.exec (.jointIssue core part) s) ∧
  (∀ q, s.turn (.launch q) = Sys2Proof.Machine.exec (.launch q) s) ∧
  (∀ a, s.turn (.reflectionArrival a) = Sys2Proof.Machine.exec (.reflectionArrival a) s) ∧
  (∀ q w, s.turn (.doorbell q w) = Sys2Proof.Machine.exec (.doorbell q w) s)

/-- R40, R49, R50 and the worked encodings: what some words decode to, and the words that decode to no instruction. -/
def Obligations.DecodedWords : Prop :=
  decodeWord 0x04304200 = .ok (.iadd false (.n 3) (.n 1) (.n 2) false false false) ∧
  decodeWord 0x84507A00 = .ok (.iadd true (.n 5) (.n 1) .lit false false false) ∧
  decodeWord 0x1A008310 = .ok (.fmul false .push (.n 2) (.n 3) .f32) ∧
  decodeWord 0x9400C010 = .ok (.guard ⟨3, false⟩) ∧ decodeWord 0x9402C010 = .ok (.guard ⟨3, true⟩) ∧
  decodeWord 0x04000001 = .ok (.iadd false (.n 0) (.n 0) (.n 0) false false true) ∧
  decodeWord 0x00000048 = .ok (.rfe false) ∧ decodeWord 0 = .ok (.nop false) ∧
  decodeWord 0x084FFFFE = .ok (.movi false (.n 4) 0x1FFFE) ∧
  (∀ w, 0x78000000 ≤ w % 2 ^ 31 → w ≠ 0xFFFFFFFF → w < 2 ^ 32 → decodeWord w = .error 0x02) ∧
  decodeWord 0xFFFFFFFF = .error 0x01 ∧ decodeWord 0x040000F0 = .error 0x03 ∧ decodeWord 0x04000002 = .error 0x04 ∧
  decodeWord 0x00000001 = .error 0x04 ∧ decodeWord 0x04003D00 = .error 0x10

/-- R33 to R47: decoding the word of a well-formed instruction gives the instruction back, with every operand at every value. -/
def Obligations.DecodeOfEncode : Prop := ∀ i : Instr, i.wf = true → encode i < 2 ^ 32 ∧ decodeWord (encode i) = .ok i

/-- R49, steps 6, 7 and 12 to 15 and 17: a word that fails one of these checks, having passed those before it, raises its cause in every
lane of the chain, with the decode report of R52. -/
def Obligations.RejectedWords : Prop := ∀ (i : Instr) (f : Form) (s : State),
  let next := s.chain.slot + 1 + f.lits
  let fits : Prop := next < 3 ∨ next = 3 ∧ i.ch = false
  let allowed : Prop := fits ∧ (isPrivileged i = true → (s.ctx s.cctx).priv = true)
  let apart : Prop := allowed ∧ f.pipe ∉ s.chain.pipes
  let clear : Prop := apart ∧ ∀ a b, namedBy f = some a → b ∈ s.chain.writes → a.1 + a.2 ≤ b.1 ∨ b.1 + b.2 ≤ a.1
  (3 < next → Rejects s i f .illegalOp 0x06) ∧
  (next = 3 → i.ch = true → Rejects s i f .illegalOp 0x07) ∧
  (fits → isPrivileged i = true → (s.ctx s.cctx).priv = false → Rejects s i f .privilege 0x20) ∧
  (allowed → f.pipe ∈ s.chain.pipes → Rejects s i f .illegalChain 0x30) ∧
  (apart → (∃ a b, namedBy f = some a ∧ b ∈ s.chain.writes ∧ ¬(a.1 + a.2 ≤ b.1 ∨ b.1 + b.2 ≤ a.1)) → Rejects s i f .illegalChain 0x31) ∧
  (clear → (∃ x ∈ poppedBy f, x ∈ s.chain.pops) → Rejects s i f .illegalChain 0x32) ∧
  (clear → (∀ x ∈ poppedBy f, x ∉ s.chain.pops) → isSel i = true → s.chain.guard = none → Rejects s i f .illegalChain 0x34) ∧
  (isPrivileged i = true ↔ (∃ ch, i = .rfe ch) ∨ ∃ ch a b, i = .tlbi ch a b)

/-! ### Lanes and memory -/
/-- R15 to R18: a result of 64 bits or fewer enters the queue as its newest entry, in the entry's low bits; one of 128 bits enters as
two, its low half first; everything older moves on and the oldest is dropped; a named register's write also pushes, `~` only pushes and
`_` does neither; named registers take the least significant word first; at team start the queue holds 16 zeros. -/
def Obligations.ResultsInTheQueue : Prop :=
  (∀ (x : Lane) (r : Fin 32) (v k : Nat), x.queue.length = 16 → k < 16 →
    (∀ n, n ≤ 64 → (x.write .push n v).age 1 = { v := BitVec.ofNat 64 (v % 2 ^ n) } ∧
      (1 ≤ k → (x.write .push n v).age (k + 1) = x.age k) ∧ (x.write .push n v).queue.length = 16 ∧ (x.write .push n v).regs = x.regs ∧
      (x.write (.n r) n v).queue = (x.write .push n v).queue) ∧
    ((x.write .push 128 v).age 2 = { v := BitVec.ofNat 64 v } ∧ (x.write .push 128 v).age 1 = { v := BitVec.ofNat 64 (v / 2 ^ 64) } ∧
      (1 ≤ k → k < 15 → (x.write .push 128 v).age (k + 2) = x.age k) ∧ (x.write .push 128 v).queue.length = 16 ∧ (x.write .push 128 v).regs = x.regs ∧
      (x.write (.n r) 128 v).queue = (x.write .push 128 v).queue) ∧
    (∀ n j, n = 32 ∨ n = 64 ∨ n = 128 → (x.write (.n r) n v).reg j =
      if r.val ≤ j ∧ j < r.val + n / 32 then { v := BitVec.ofNat 32 (v / 2 ^ (32 * (j - r.val))) } else x.reg j) ∧
    ∀ n, x.write .drop n v = x) ∧
  ∀ (g : Grid) (team idx i member l : Nat), l < 32 →
    ((startGroup g team idx i member).lane l).queue.length = 16 ∧ ∀ e ∈ ((startGroup g team idx i member).lane l).queue, e = {}

/-- R4, R124, R217, R218: after a write at a home unit, every byte written reads as written under the write's key; every other byte,
and every sideband slot, reads as before. -/
def Obligations.MemoryBytes : Prop := ∀ (s : State) (who : Option (Nat × Nat)) (key a : Nat) (bs : List Byte) (p : Bool), s.mem.wf = true →
  let t := s.devWrite who key a bs p
  (∀ k, k < bs.length → t.mem.getKey key (a + k) = bs.getD k 0) ∧
  (∀ b, b < a ∨ a + bs.length ≤ b → t.mem.getKey key b = s.mem.getKey key b) ∧
  (∀ b j, t.devSlot b j = s.devSlot b j) ∧
  (∀ k, k ∉ sectorsOf a bs.length → t.mem.sector (32 * k) = s.mem.sector (32 * k)) ∧
  ∀ b j v, let u := s.devSetSlot b j v
    (∀ c, u.mem.get c = s.mem.get c) ∧ u.devSlot b j = v ∧ ∀ c i, (c / 32 ≠ b / 32 ∨ (i = 0 ↔ j ≠ 0)) → u.devSlot c i = s.devSlot c i

namespace Sys2Proof.Rules
/-- The effective address of an access of `size` bytes (R121, R122). -/
def address (scr : Bool) (size base : Nat) (off : BitVec 10) : Nat :=
  if scr then wrap 32 ((base % 2 ^ 32 : Nat) + sgn 10 off.toNat * size) else wrap 64 (base + sgn 10 off.toNat * size)
/-- An address that its access may not use: not aligned to its size, or, of a scratch access, not of the form of R122. -/
def stray (scr : Bool) (size e : Nat) (a : DWord) : Prop :=
  a = BitVec.ofNat 64 e ∧ (e % size ≠ 0 ∨ (scr = true ∧ (e / 2 ^ 19 % 32 ≠ 0 ∨ e.testBit 29 = true ∨ e.testBit 30 = true ∨ e.testBit 31 = true)))
def strays (scr : Bool) (size : Nat) (off : BitVec 10) (_ : State) (_ : Nat) (v : List Nat) (a : DWord) : Prop :=
  stray scr size (address scr size (arg v 0) off) a
/-- The same of an atomic, which has no offset (R121). -/
def strayAtomic (scr : Bool) (d : Option Dst) (size : Nat) (s : State) (l : Nat) (v : List Nat) (a : DWord) : Prop :=
  settled s l d ∧ stray scr size (if scr then arg v 0 % 2 ^ 32 else arg v 0) a
/-- The same of a block access, at the address of its quarter's leader (R130). -/
def strayBlock (scr : Bool) (off : BitVec 7) (_ : State) (rows : Rows) (l : Nat) (_ : List Nat) (a : DWord) : Prop :=
  stray scr 32 (if scr then wrap 32 ((quarterBase rows l % 2 ^ 32 : Nat) + sgn 7 off.toNat * 32) else wrap 64 (quarterBase rows l + sgn 7 off.toNat * 32)) a
/-- An access of which the stray lanes trap on MISALIGNED, be it all of a chain's lanes or some, while the others take their effects. -/
def misses (i : Instr) (bad : State → Nat → List Nat → DWord → Prop) (good : State → Nat → List Nat → List Eff → Prop) : Prop :=
  Traps i .misaligned bad ∧ TrapsSome i .misaligned (fun s _ l v a => bad s l v a) fun s _ l v es => good s l v es
end Sys2Proof.Rules

/-- R29, R122, R123: a load, store or atomic whose address is not aligned to its size, or, of a scratch access, not of the form of R122, traps
on MISALIGNED with that address, and the access has no effect; where only some lanes of the chain are so, the others complete. -/
def Obligations.MisalignedAccesses : Prop := ∀ (d : Dst) (c a b : Src) (off : BitVec 10) (op : AOp) (fo : AFOp) (f : EFmt) (o7 : BitVec 7),
  misses (.ldB16u false d a off) (strays false 2 off) (loads false 2 false false false d off) ∧
  misses (.ldB16s false d a off) (strays false 2 off) (loads false 2 true false false d off) ∧
  misses (.ldB32 false d a off) (strays false 4 off) (loads false 4 false false false d off) ∧
  misses (.ldB64 false d a off) (strays false 8 off) (loads false 8 false false false d off) ∧
  misses (.ldB128 false d a off) (strays false 16 off) (loads false 16 false false false d off) ∧
  misses (.ldncB32 false d a off) (strays false 4 off) (loads false 4 false false true d off) ∧
  misses (.ldacqB32 false d a off) (strays false 4 off) (loads false 4 false true false d off) ∧
  misses (.ldacqB64 false d a off) (strays false 8 off) (loads false 8 false true false d off) ∧
  misses (.ldsB32 false d a off) (strays true 4 off) (loads true 4 false false false d off) ∧
  misses (.ldsB64 false d a off) (strays true 8 off) (loads true 8 false false false d off) ∧
  misses (.ldsB128 false d a off) (strays true 16 off) (loads true 16 false false false d off) ∧
  misses (.stB16 false c a off) (strays false 2 off) (stores false 2 false off) ∧
  misses (.stB32 false c a off) (strays false 4 off) (stores false 4 false off) ∧
  misses (.stB64 false c a off) (strays false 8 off) (stores false 8 false off) ∧
  misses (.stB128 false c a off) (strays false 16 off) (stores false 16 false off) ∧
  misses (.strelB32 false c a off) (strays false 4 off) (stores false 4 true off) ∧
  misses (.strelB64 false c a off) (strays false 8 off) (stores false 8 true off) ∧
  misses (.stsB8 false c a off) (strays true 1 off) (stores true 1 false off) ∧
  misses (.stsB32 false c a off) (strays true 4 off) (stores true 4 false off) ∧
  misses (.stsB64 false c a off) (strays true 8 off) (stores true 8 false off) ∧
  misses (.stsB128 false c a off) (strays true 16 off) (stores true 16 false off) ∧
  misses (.atomB32 false d a b op) (strayAtomic false (some d) 4) (atomics (some d) (.int 32 op)) ∧
  misses (.atomB64 false d a b op) (strayAtomic false (some d) 8) (atomics (some d) (.int 64 op)) ∧
  misses (.redB32 false a b op) (strayAtomic false none 4) (atomics none (.int 32 op)) ∧
  misses (.redB64 false a b op) (strayAtomic false none 8) (atomics none (.int 64 op)) ∧
  misses (.casB32 false d a b) (strayAtomic false (some d) 4) (atomics (some d) (.cas 32)) ∧
  misses (.casB64 false d a b) (strayAtomic false (some d) 8) (atomics (some d) (.cas 64)) ∧
  misses (.cas2 false d a b) (strayAtomic false (some d) 16) (atomics (some d) .cas2) ∧
  misses (.atomf false d a b fo) (strayAtomic false (some d) 4) (atomics (some d) (.flt fo)) ∧
  misses (.redf false a b fo) (strayAtomic false none 4) (atomics none (.flt fo)) ∧
  misses (.atoms false d a b op) (strayAtomic true (some d) 4) (scratchAtomics (some d) (.int 32 op)) ∧
  misses (.reds false a b op) (strayAtomic true none 4) (scratchAtomics none (.int 32 op)) ∧
  misses (.cass false d a b) (strayAtomic true (some d) 4) (scratchAtomics (some d) (.cas 32)) ∧
  (fo ≠ .maxAbs → misses (.atomfs false d a b fo) (strayAtomic true (some d) 4) (scratchAtomics (some d) (.flt fo))) ∧
  TrapsSome (.ldb false d a f o7) .misaligned (strayBlock false o7) (blockLoads false d f o7) ∧
  TrapsSome (.ldbs false d a f o7) .misaligned (strayBlock true o7) (blockLoads true d f o7) ∧
  TrapsSome (.stb false c a f o7) .misaligned (strayBlock false o7) (blockStores false c f o7) ∧
  TrapsSome (.stbs false c a f o7) .misaligned (strayBlock true o7) (blockStores true c f o7)


/-! ### Invariants and reset -/
/-- Device memory and every core's scratchpad keep their canonical form through every step: addresses strictly rising, no byte listed that
an unlisted address reads as, and no fresh sector listed. -/
def Obligations.MemoryStaysCanonical : Prop := Keeps fun s => s.mem.wf = true ∧ ∀ c, (s.core c).scr.wf = true

namespace Sys2Proof.Rules
/-- A base-table entry at reset (R62). -/
def resetBase (k j : Nat) : Nat := bit01 (k.testBit j) + bit01 (k.testBit ((j + 1) % 8)) + bit01 (k.testBit ((j + 3) % 8))
end Sys2Proof.Rules
/-- R14, R16, R21, R22, R24, R25, R62, R141, R159, R331, R397: the device after reset, and a lane at team start: STATE 0, no work, a memory that
lists nothing; amax cells +0 with no owner and tiles +0; the base table of every engine, at reset and as it is reserved; a lane at the
record's code pointer with zero registers and queue, `p0` true and the other predicates false, clear `status` and `control`, every scale
shadow 0x7F, the rejoin masks zero, and the group scalars of R159. -/
def Obligations.ResetAndTeamStart : Prop :=
  (State.reset.mem.bytes = [] ∧ State.reset.mem.sectors = [] ∧ State.reset.mem.wf = true ∧ (∀ c, (State.reset.core c).scr.wf = true) ∧ State.reset.keeper.status.st = 0 ∧ State.reset.chain.active = false ∧ State.reset.keeper.ctxs = [] ∧
    State.reset.lantern.grids = [] ∧ State.reset.lantern.teams = [] ∧ ∀ core k p e, Tbl.get (State.reset.core core).amax k {} = ⟨0, none⟩ ∧
      Tbl.get (State.reset.engine core p).acc e 0 = 0 ∧
      ∀ i j, i < 256 → j < 8 → baseEntry (State.reset.engine core p).base i / 4 ^ j % 4 = resetBase i j) ∧
  (∀ (g : Grid) (team idx i member l : Nat), l < 32 →
    let x := (startGroup g team idx i member).lane l
    x.pc = g.code ∧ x.slot = 0 ∧ (∀ r, (x.reg r).v = 0) ∧ (∀ k, 1 ≤ k → k ≤ 16 → (x.age k).v = 0) ∧
    x.preds.getLsbD 0 = true ∧ (∀ k, 1 ≤ k → k < 8 → x.preds.getLsbD k = false) ∧ x.status = 0 ∧ x.control = 0 ∧ x.h = false ∧
    x.mode = .ready) ∧
  (∀ (g : Grid) (team idx i member : Nat),
    let x := startGroup g team idx i member
    (∀ q r k, Tbl.get (Tbl.get x.quarters q {}).regs r {} = ⟨0x7F, 0x7F⟩ ∧ (Tbl.get x.quarters q {}).queue.getD k {} = ⟨0x7F, 0x7F⟩) ∧
    (∀ j, Tbl.get x.j j 0 = 0) ∧ Tbl.get x.g 0 0 = g.args ∧ Tbl.get x.g 1 0 = BitVec.ofNat 64 idx ∧ Tbl.get x.g 2 0 = BitVec.ofNat 64 g.nteam ∧
    Tbl.get x.g 3 0 = g.fp ∧ Tbl.get x.g 4 0 = BitVec.ofNat 64 member ∧ ∀ k, 5 ≤ k → k ≤ 7 → Tbl.get x.g k 0 = 0) ∧
  ∀ (e : Engine) (team ctx gi k j : Nat), k < 256 → j < 8 → baseEntry (e.take team ctx gi).base k / 4 ^ j % 4 = resetBase k j

/-! ### Events -/
namespace Sys2Proof.Rules
/-- The group in a slot of a core, changed. -/
def atGroup (s : State) (core grp : Nat) (t : State) : Prop := t = s.setGroup core grp (t.group core grp)
/-- What a returning load brings to a lane: one value at most. -/
def brings (x : Txn) (l : Nat) : List Fill1 := x.fills.filter fun f => f.lane == l
/-- A lane waits for the fill of a chunk (R211). -/
def waitsFor (s : State) (team map chunk : Nat) : Prop :=
  ∃ p ∈ s.cores, ∃ q ∈ p.2.groups, ∃ l ∈ q.2.lanes, l.2.mode = .stalled (.chunk team map chunk)
/-- A posted operation is the first on its mooring (R183, R186; of different lanes' the order is log entry 15's, DEDUCED). -/
def firstPosted (s : State) (k : Nat) (p : Posted) : Prop :=
  Tbl.find s.posted k = some p ∧ ∀ q ∈ s.posted, q.1 < k → q.2.moor.id ≠ p.moor.id
end Sys2Proof.Rules

/-- R19, R133, R217: an outstanding load's data returns: it counts out, its transaction is over, and each lane of it takes its value, poisoned
where the load is, in what it reserved; nothing else of the device changes but that an uncorrectable error poisons the sectors the load read
where they stand.  A reserved register takes the part of the value its reservation names. -/
def Obligations.LoadsReturn : Prop :=
  (∀ (s : State) (core grp txn : Nat) (bad : Bool) (x : Txn), x ∈ (s.group core grp).txns → x.id = txn → x.store = false →
    (∀ y ∈ (s.group core grp).txns, y.id = txn → y = x) →
    ∃ t, Sys2Proof.Machine.exec (.loadDataReturn core grp txn bad) s = .next t ∧
      atGroup (if bad then x.secs.foldl State.harm s else s) core grp t ∧
      (t.group core grp).ld = (s.group core grp).ld - 1 ∧
      (∀ y, y ∈ (t.group core grp).txns ↔ y ∈ (s.group core grp).txns ∧ y.id ≠ txn) ∧
      ∀ l, (brings x l = [] → t.lane core grp l = s.lane core grp l) ∧
        ∀ f, brings x l = [f] → t.lane core grp l = (s.lane core grp l).fill txn f.v.toNat (f.poison || bad) f.ea) ∧
  (∀ (s : State) (sec a : Nat),
    (sec % 2 = 0 → ((s.harm sec).mem.sector a).poison = ((s.mem.sector a).poison || decide (a / 32 = sec / 2)) ∧ (s.harm sec).mem.get a = s.mem.get a) ∧
    (sec % 2 = 1 → (s.harm sec).mem = s.mem ∧ (((s.harm sec).core (sec / 2 / 16384)).scr.sector (32 * (sec / 2 % 16384))).poison = true)) ∧
  (∀ (x : Lane) (t v r k : Nat) (p : Bool) (a : DWord), (x.reg r).busy = some (4 * t + k) → k < 4 →
    (x.fill t v p a).reg r = ⟨BitVec.ofNat 32 (v / 2 ^ (32 * k)), none, p, a⟩) ∧
  (∀ (x : Lane) (t v r : Nat) (p : Bool) (a : DWord), (∀ b, (x.reg r).busy = some b → b / 4 ≠ t) → (x.fill t v p a).reg r = x.reg r) ∧
  ∀ (x : Lane) (t v k j : Nat) (p : Bool) (a : DWord), (x.age j).busy = some (4 * t + k) → k < 4 →
    (x.fill t v p a).age j = ⟨BitVec.ofNat 64 (v / 2 ^ (64 * k)), none, p, a⟩

/-- R49, R96, R133, R183, R186, R189 to R191, R211, R309, R329, R330: the events of lanes, groups and teams.  The model's readings: a fence's
completion performs the copies of the open batch (log entry 30, DEDUCED); the write-back at a team's end is made as stores of the first group
that stands (28, DEDUCED); a pre-emption and a save are one step each (29, DESIGN CHOICE); misuse found at a mooring's home (15, DEDUCED); and
the place of an ended group whose operations go on (18, DEDUCED). -/
def Obligations.LaneEvents : Prop := ∀ (s : State) (core grp team : Nat),
  (∀ sp, (s.group core grp).spec = some sp → sp.hit = false → s.fenceReady core grp sp = true →
    let u := s.fenceCopies core grp sp
    (u.group core grp).isHit = false →
    ∃ t, Sys2Proof.Machine.exec (.fenceCompletion core grp) s = .next t ∧ (t.group core grp).spec = none ∧
      (sp.dropsL1 = false → atGroup u core grp t) ∧ (sp.copies = false → u = s) ∧ (sp.dropsL1 = true → (t.core core).l1 = [])) ∧
  (∀ sp, (s.group core grp).spec = some sp → sp.hit = true →
    ∃ t, Sys2Proof.Machine.exec (.speculationRollback core grp) s = .next t ∧ atGroup s core grp t ∧
      (t.group core grp).spec = some { sp with reads := [], hit := false } ∧
      (∀ x, x ∈ (t.group core grp).txns ↔ x ∈ (s.group core grp).txns ∧ (sp.ticket ≤ x.id → x.store = true)) ∧
      ∀ l x y, Tbl.find (s.group core grp).lanes l = some x → Tbl.find sp.snap l = some y →
        ∃ z, Tbl.find (t.group core grp).lanes l = some z ∧ z.pc = y.pc ∧ z.slot = y.slot ∧ z.regs = y.regs ∧ z.queue = y.queue ∧
          z.preds = y.preds ∧ z.status = y.status ∧ z.control = y.control ∧ z.region = y.region) ∧
  (∀ l u, s.hasGroup core grp = true → (s.lane core grp l).mode = .sleeping u → u ≤ s.now →
    Sys2Proof.Machine.exec (.sleepExpiry core grp l) s = .next (s.updLane core grp l fun x => { x with mode := .ready })) ∧
  (∀ k p m, firstPosted s k p → (s.mooring p.moor).op p.kind p.units.toNat = some m → p.kind ≠ 1 →
    Sys2Proof.Machine.exec (.mooringOpAtHome k) s = .next ({ s with posted := Tbl.del s.posted k }.moorPut none p.moor m)) ∧
  (∀ k p m, firstPosted s k p → (s.mooring p.moor).op p.kind p.units.toNat = some m → p.kind = 1 →
    let t := { s with posted := Tbl.del s.posted k }.moorPut none p.moor m
    t.hasGroup p.core p.grp = true → Sys2Proof.Machine.exec (.mooringOpAtHome k) s =
      .next (t.updGroup p.core p.grp fun g => g.fill1 p.txn ⟨p.lane, BitVec.ofNat 128 (bit01 (s.mooring p.moor).phase), 32, false, 0⟩ false)) ∧
  (∀ k p, firstPosted s k p → (s.mooring p.moor).op p.kind p.units.toNat = none → s.hasGroup p.core p.grp = true →
    Sys2Proof.Machine.exec (.mooringOpAtHome k) s = .next ({ s with posted := Tbl.del s.posted k }.updLane p.core p.grp p.lane fun x =>
      { x with pend := some (.mooringMisuse, p.moor.va) })) ∧
  (∀ map chunk m, waitsFor s team map chunk → Tbl.find (s.team team).maps map = some m → chunk ∉ m.filled → (s.team team).st ≠ .suspended →
    ∃ t, Sys2Proof.Machine.exec (.chunkFill team map chunk) s = .next t ∧ ¬waitsFor t team map chunk ∧
      (s.rangeFault none (s.grid (s.team team).grid).ctx .load (m.va.toNat + 4096 * chunk) 4096 = none →
        ∃ m', Tbl.find (t.team team).maps map = some m' ∧ chunk ∈ m'.filled)) ∧
  ((s.team team).flush = true → (∀ p ∈ s.keeper.parks, p.2.flush = true → p.2.team ≠ team) →
    let all := (s.team team).maps.map (·.1)
    let who := (s.groupsOf team).headD (0, 0)
    let u := s.flushMaps who team all
    ∃ t, Sys2Proof.Machine.exec (.scratchWriteback team) s = .next t ∧
      ((u.team team).dirtyOf all = [] → (t.team team).flush = false ∧ t.mem = (u.closeAll who.1 who.2).mem) ∧
      ∀ p ps c a, (u.team team).dirtyOf all = p :: ps →
        u.wbFault who (u.grid (u.team team).grid).ctx ((u.team team).dirtyVa p) = some (.park c a) →
        t.mem = u.mem ∧ ∃ q ∈ t.keeper.parks, q.2.flush = true ∧ q.2.team = team ∧ q.2.cause = c ∧ q.2.va = a) ∧
  (s.hasGroup core grp = true → (s.group core grp).ended = false → (s.group core grp).ld = 0 → (s.group core grp).st = 0 →
    (∀ p ∈ (s.group core grp).lanes, p.2.mode = .exited) →
    let t := (s.setGroup core grp { (s.group core grp).sealAtExit with ended := true }).closeAll core grp
    let alone : Bool := (t.groupsOf (s.group core grp).team).all fun p => (t.group p.1 p.2).ended
    let u := if alone then t.teamEnd (s.group core grp).team else t.barriers (s.group core grp).team
    Sys2Proof.Machine.exec (.groupEnd core grp) s =
      .next ((if u.groupClear core grp then u else u.vacate core grp).settle (s.group core grp).team)) ∧
  (s.hasGroup core grp = true → grp < 32 → s.hasGroup core (s.offSlot core) = false ∧ grp ∈ (s.vacate core grp).freeSlots core) ∧
  (∀ gid g, Tbl.find s.settleAll.lantern.grids gid = some g → s.settleAll.gridIdle gid = true → g.node = none → g.collInst = none →
    (g.coll = none ∨ g.aborted = true ∨ g.placed = 0) →
    (∀ p ∈ s.settleAll.lantern.grids, p.2.parent ≠ some gid) → (∀ p ∈ s.settleAll.lantern.nodes, p.2.parent ≠ gid) →
    ∃ t, Sys2Proof.Machine.exec (.gridRetirement gid) s = .next t ∧ Tbl.find t.lantern.grids gid = none) ∧
  ((s.team team).st = .resident → s.gangOf team = [team] →
    ∃ t, Sys2Proof.Machine.exec (.preemptionRequest team) s = .next t ∧ ((t.team team).st = .halted ∨ (t.team team).st = .ended)) ∧
  ((s.team team).st = .halted → s.gangOf team = [team] →
    ∃ t, Sys2Proof.Machine.exec (.contextSave team) s = .next t ∧ t = (s.saveTeam team).askInputs (s.grid (s.team team).grid) ∧
      ((s.saveTeam team).team team).st = .suspended ∧ ((s.saveTeam team).team team).saved.isSome = true) ∧
  (∀ lanes k n f, s.chain.active = true → s.chain.core = core → s.chain.grp = grp → s.chain.lanes = lanes → lanesOf lanes ≠ [] → Quiet s.chain →
    s.cgroup.spec = none → Handles s (lanesOf lanes) → s.nextWord = .error n → k = causeOf n →
    ∃ t, Sys2Proof.Machine.exec (.illegalOp core grp lanes k n) s = .next t ∧ Trapped s f (lanesOf lanes) k (fun _ => s.report n) t) ∧
  (∀ lanes, let ls := (s.group core grp).fetchers lanes
    let pc := (s.lane core grp (ls.headD 0)).pc.toNat
    let copies (l : Nat) : Option (List Word) := (s.lane core grp l).served
    s.chain.active = false → s.issues core grp = true → ls ≠ [] →
    (∀ ws, (∀ l ∈ ls, copies l = none) ∧ s.fetchCheck core (s.ctxOf core grp) pc = none ∧ ws = s.packetAt core (s.ctxOf core grp) pc ∨
      (∀ l ∈ ls, copies l = some ws) →
      ∃ t, Sys2Proof.Machine.exec (.packetFetch core grp lanes) s = .next t ∧ t.chain.active = true ∧ t.chain.core = core ∧ t.chain.grp = grp ∧
        t.chain.lanes = laneSetOf ls ∧ t.chain.pc.toNat = pc ∧ t.chain.words = ws ∧ t.chain.outs = [] ∧
        ((∀ l ∈ ls, copies l = some ws) → t.mem = s.mem ∧ (t.core core).icache = (s.core core).icache))) ∧
  (∀ k p, s.lantern.jdecs[k]? = some p →
    let w := ofBytesLE (s.devRead p.key p.addr 8).1
    let u := { s with lantern := { s.lantern with jdecs := s.lantern.jdecs.eraseIdx k } }
    let v := u.devWrite none p.key p.addr (toBytesLE 2 (w % 65536 - 1)) false
    (w % 65536 = 0 → Sys2Proof.Machine.exec (.jdecAtHome k) s = .next (u.record
      { cause := .countUnderflow, src := 9, ctx := p.ctx, core := p.core, gslot := p.gslot, team := p.team, addr := p.va })) ∧
    (1 < w % 65536 → Sys2Proof.Machine.exec (.jdecAtHome k) s = .next v) ∧
    (w % 65536 = 1 → Sys2Proof.Machine.exec (.jdecAtHome k) s = .next (if w.testBit 62 then v.joinZero p.addr else v)))

namespace Sys2Proof.Rules
/-- A request of a service on a record that it may serve: written, with PARK, not yet DONE, its lanes still waiting; and no lower lane's
request of the same chain stands before it (R327, R328). -/
def serves (s : State) (k svc ctx : Nat) (x : FSlot) (pk : Nat) (p : ParkRec) : Prop :=
  ∃ r, Tbl.find s.keeper.kreqs k = some r ∧ r.svc = svc ∧ s.reqAhead k r = false ∧ ctx = s.teamCtx r.team ∧ s.recordAt ctx r.a = some x ∧ x.r.park = true ∧
    x.done = false ∧ s.parkOf x.id = some (pk, p) ∧ s.parkedLanes p ≠ []
/-- The REPLY of a record (R324). -/
def reply (s : State) (ctx : Nat) (x : FSlot) : Nat := s.vget ctx (x.va.toNat + 32) 16
/-- A leaf that RACE and WATCH leave clear, as the Keeper installs it (R219, R328). -/
def plainLeaf (n : Nat) : Nat := n - (n &&& 96)
/-- A page-class fault that the policy decides, with lanes that wait, or a team's last write-back (R211, R323). -/
def undecided (s : State) (k : Nat) (p : ParkRec) : Prop :=
  Tbl.find s.keeper.parks k = some p ∧ s.upcall p = false ∧ (p.flush = true ∨ s.parkedLanes p ≠ [])
/-- A layer of a context that is arriving (R340). -/
def arriving (s : State) (ctx layer : Nat) : Prop := s.hasCtx ctx = true ∧ layer < (s.ctx ctx).nlayer ∧ s.topmark ctx layer % 4 = 1
/-- Some lane on a core waits for a layer (R341). -/
def awaits (s : State) (ctx layer : Nat) : Prop :=
  ∃ c ∈ s.cores, ∃ q ∈ c.2.groups, ∃ l ∈ q.2.lanes, l.2.mode = .parked (.layer ctx layer) ∨ l.2.mode = .stalled (.layer ctx layer)
/-- The events of the Keeper. -/
def keepers (i : Instr) : Prop :=
  (∃ k how, i = .faultService k how) ∨ (∃ c, i = .faultRecordDelivery c) ∨ (∃ c l b, i = .layerArrival c l b) ∨ (∃ c l a, i = .layerFetchFailure c l a) ∨
    (∃ c l, i = .layerEviction c l) ∨ ∃ k, i ∈ [Instr.retry k, .remap k, .setrap k, .migrate k, .restream k, .deliver k, .abort k, .ret k]
end Sys2Proof.Rules

/-- R319, R323 to R328, R340, R343, R347, R348: the events of the Keeper: the policy's choices, the fault queue, the services of `kreq`
with their statuses, and the layers.  In STATE 5 they do nothing (log entry 42, DEDUCED).  That REMAP answers status 1 where no frame
is free for a table is log entry 13 (DESIGN CHOICE), and the parked last write-back of a team is log entry 28 (DEDUCED). -/
def Obligations.KeeperEvents : Prop := ∀ s : State,
  (s.keeper.status.st = 5 → ∀ i, keepers i → Sys2Proof.Machine.exec i s = .next s) ∧ (s.keeper.status.st ≠ 5 →
  (∀ k p, undecided s k p →
    Sys2Proof.Machine.exec (.faultService k .leave) s = .next s ∧
    Sys2Proof.Machine.exec (.faultService k .retry) s = .next ((s.unpark p).dropPark k) ∧
    Sys2Proof.Machine.exec (.faultService k .deliver) s = .next ((s.deliverPark p).dropPark k) ∧
    Sys2Proof.Machine.exec (.faultService k .abort) s = .next ((s.abortGrid (s.team p.team).grid).dropPark k) ∧
    (∀ x big e, s.walk p.ctx p.va.toNat = .leaf x big e → Sys2Proof.Machine.exec (.faultService k .setrap) s =
      .next (((s.setLeaf p.ctx p.va.toNat (· ||| 128)).unpark p).dropPark k)) ∧
    (∀ v t, s.migratePage p.ctx (s.team p.team).core p.va.toNat (bit01 v) = .ok t →
      Sys2Proof.Machine.exec (.faultService k (.migrate v)) s = .next ((t.unpark p).dropPark k)) ∧
    (p.cause = .layerWithdrawn → Sys2Proof.Machine.exec (.faultService k .request) s = .next ((s.serviceLayer p).dropPark k)) ∧
    (∀ leaf : DWord, s.judgeLeaf p.ctx p.va.toNat (plainLeaf leaf.toNat) = 0 →
      s.canInstall p.ctx p.va.toNat ((plainLeaf leaf.toNat).testBit 61) = true → Sys2Proof.Machine.exec (.faultService k (.map leaf)) s =
      .next (((s.install p.ctx p.va.toNat (plainLeaf leaf.toNat) ((plainLeaf leaf.toNat).testBit 61)).unpark p).dropPark k))) ∧
  (∀ p core grp l, s.memberAt p.team p.gi = some (core, grp) → l ∈ s.parkedLanes p →
    (s.unpark p).lane core grp l = { s.lane core grp l with mode := .ready } ∧ ((s.unpark p).core core).l1 = []) ∧
  (∀ k p, undecided s k p → p.flush = true → s.deliverPark p = (s.dirtyOn p.team p.va.toNat).foldl (fun s q => s.dropSector p.team q p.cause) s) ∧
  (∀ ctx f n, let c := s.ctx ctx
    let va := c.fqring.toNat + 64 * (c.nextRec % c.nfq)
    c.nextPending = some f → s.fqOpen ctx = true → s.nodeAt ctx c.fqnode = some n → s.nodeRoom n = true → s.vok ctx .store va 64 = true →
    (∀ y ∈ c.pending, y.slot = some (c.nextRec % c.nfq) → s.slotHeld ctx y = false) →
    let written := { f with slot := some (c.nextRec % c.nfq), va := BitVec.ofNat 64 va, seq := s.nodePut (s.node n) }
    let rest := (c.pending.filter fun (y : FSlot) => y.slot != some (c.nextRec % c.nfq)).map fun (y : FSlot) => if y.id = f.id then written else y
    Sys2Proof.Machine.exec (.faultRecordDelivery ctx) s =
      .next (((s.setCtx ctx { c with nextRec := c.nextRec + 1, pending := rest }).vwrite ctx va f.r.bytes).nodeEmit n (BitVec.ofNat 64 va))) ∧
  (∀ ctx f, (s.ctx ctx).nextPending = some f → s.fqOpen ctx = false → f.r.park = false →
    ∃ t, Sys2Proof.Machine.exec (.faultRecordDelivery ctx) s = .next t ∧ t.keeper.log = s.keeper.log ++ [f.r]) ∧
  (∀ k ctx x pk p, serves s k 0 ctx x pk p → Sys2Proof.Machine.exec (.retry k) s = .next (((s.unpark p).serviced ctx x pk).answer k 0)) ∧
  (∀ k ctx x pk p, serves s k 1 ctx x pk p → let leaf := plainLeaf (reply s ctx x % 2 ^ 64)
    (s.judgeLeaf ctx p.va.toNat leaf = 0 → s.canInstall ctx p.va.toNat (leaf.testBit 61) = true → Sys2Proof.Machine.exec (.remap k) s =
      .next ((((s.install ctx p.va.toNat leaf (leaf.testBit 61)).unpark p).serviced ctx x pk).answer k 0)) ∧
    (s.judgeLeaf ctx p.va.toNat leaf = 0 → s.canInstall ctx p.va.toNat (leaf.testBit 61) = false → Sys2Proof.Machine.exec (.remap k) s =
      .next (s.answer k 1)) ∧
    (s.judgeLeaf ctx p.va.toNat leaf ≠ 0 → Sys2Proof.Machine.exec (.remap k) s = .next (s.answer k (s.judgeLeaf ctx p.va.toNat leaf)))) ∧
  (∀ k ctx x pk p, serves s k 2 ctx x pk p → ∀ y big e, s.walk ctx p.va.toNat = .leaf y big e → Sys2Proof.Machine.exec (.setrap k) s =
    .next ((((s.setLeaf ctx p.va.toNat (· ||| 128)).unpark p).serviced ctx x pk).answer k 0)) ∧
  (∀ k ctx x pk p, serves s k 3 ctx x pk p → reply s ctx x < 2 →
    (∀ t, s.migratePage ctx x.r.core p.va.toNat (reply s ctx x) = .ok t → Sys2Proof.Machine.exec (.migrate k) s =
      .next (((t.unpark p).serviced ctx x pk).answer k 0)) ∧
    ∀ n, s.migratePage ctx x.r.core p.va.toNat (reply s ctx x) = .error n → Sys2Proof.Machine.exec (.migrate k) s = .next (s.answer k n)) ∧
  (∀ k ctx x pk p, serves s k 4 ctx x pk p → ((s.ctx ctx).layerOf p.va.toNat).isSome = true → Sys2Proof.Machine.exec (.restream k) s =
    .next (((s.serviceLayer p).serviced ctx x pk).answer k 0)) ∧
  (∀ k ctx x pk p, serves s k 5 ctx x pk p → Sys2Proof.Machine.exec (.deliver k) s = .next (((s.deliverPark p).serviced ctx x pk).answer k 0)) ∧
  (∀ k ctx x pk p, serves s k 6 ctx x pk p → Sys2Proof.Machine.exec (.abort k) s =
    .next (((s.abortGrid (s.team p.team).grid).serviced ctx x pk).answer k 0)) ∧
  (∀ k r, Tbl.find s.keeper.kreqs k = some r → s.reqAhead k r = true → ∀ i ∈ [Instr.retry k, .remap k, .setrap k, .migrate k, .restream k,
    .deliver k, .abort k, .ret k], Sys2Proof.Machine.exec i s = .next s) ∧
  (∀ k r, Tbl.find s.keeper.kreqs k = some r → r.svc = 0 → s.reqAhead k r = false →
    (s.recordAt (s.teamCtx r.team) r.a = none → Sys2Proof.Machine.exec (.retry k) s = .next (s.answer k 3)) ∧
    ∀ x, s.recordAt (s.teamCtx r.team) r.a = some x →
      (x.r.park = false → Sys2Proof.Machine.exec (.retry k) s = .next (s.answer k 3)) ∧
      (x.r.park = true → x.done = true → Sys2Proof.Machine.exec (.retry k) s = .next (s.answer k 2))) ∧
  (∀ k r core grp n, Tbl.find s.keeper.kreqs k = some r → s.memberAt r.team r.gi = some (core, grp) →
    (Tbl.find (s.group core grp).lanes r.lane).isSome = true → (s.lane core grp r.lane).mode = .stalled .kreq →
    (s.answer k n).lane core grp r.lane = { (s.lane core grp r.lane).fill r.txn n false 0 with mode := .ready } ∧
    Tbl.find (s.answer k n).keeper.kreqs k = none) ∧
  (∀ k r core grp, Tbl.find s.keeper.kreqs k = some r → r.svc = 15 → s.reqAhead k r = false → s.memberAt r.team r.gi = some (core, grp) →
    (Tbl.find (s.group core grp).lanes r.lane).isSome = true → (s.lane core grp r.lane).mode = .stalled .kreq →
    ∃ t next, Sys2Proof.Machine.exec (.ret k) s = .next t ∧ Tbl.find t.keeper.kreqs k = none ∧
      t.lane core grp r.lane = { (s.lane core grp r.lane).leaveTrap next with mode := .ready } ∧
      next = s.afterChain (s.team r.team).core (s.teamCtx r.team) (s.lane core grp r.lane).frame.rpPc (s.lane core grp r.lane).frame.rpSlot) ∧
  (∀ ctx layer bytes, arriving s ctx layer → ((s.ctx ctx).source layer).peer.isSome = true →
    let u := s.layerBytes ctx layer bytes
    let v := u.setCtx ctx ((u.ctx ctx).noteCame layer bytes)
    Sys2Proof.Machine.exec (.layerArrival ctx layer bytes) s = .next (if (v.ctx ctx).allCame layer then v.landLayer ctx layer else v)) ∧
  (∀ ctx layer, arriving s ctx layer → Sys2Proof.Machine.exec (.layerFetchFailure ctx layer false) s = .next (s.settleLayers ctx) ∧
    ∃ t, Sys2Proof.Machine.exec (.layerFetchFailure ctx layer true) s = .next t ∧ ¬awaits t ctx layer) ∧
  (∀ ctx layer c, (∃ x, (c, x) ∈ s.keeper.ctxs ∧ x.wanted ≠ []) → s.victim c = some (ctx, layer) →
    Sys2Proof.Machine.exec (.layerEviction ctx layer) s = .next ((s.evict ctx layer).retryWanted)))

namespace Sys2Proof.Rules
/-- An operation of a group's tender that is not over (R247). -/
def outstanding (s : State) (core grp id : Nat) (k : TlKind) (o : TlOp) : Prop := (s.group core grp).tlOp id = some o ∧ o.kind = k
/-- Every convened group waits at the same joint word, not yet accepted (R260, R261); `w` is the lead's. -/
def agreed (s : State) (core part : Nat) (w : AtJoint) : Prop :=
  s.convened core part ≠ [] ∧ ∀ k ∈ s.convened core part, ∃ x, (s.group core k).atJoint = some x ∧ x.accepted = false ∧ x.idx ≠ 2 ∧
    x.idx = w.idx ∧ x.modi = w.modi ∧ x.a = w.a ∧ x.b = w.b
/-- The headers at the heads of the streams of a convened group. -/
def heads (s : State) (core k : Nat) (a b : VEnt) : Prop := headOf (s.group core k).mqa = some a ∧ headOf (s.group core k).mqb = some b
/-- An accepted operation still takes entries of a group's stream (R264). -/
def takes (s : State) (core part stream k : Nat) : Prop :=
  ∃ o ∈ (s.engine core part).ops, k ∈ o.groups ∧ segsDone 3 o.segs (o.got stream k) = false
/-- The operation is accepted: it is the engine's youngest, and every convened group may go on (R261). -/
def accepted (s : State) (core part : Nat) (w : AtJoint) (t : State) : Prop :=
  (∃ o, (t.engine core part).ops = (s.engine core part).ops ++ [o] ∧ o.idx = w.idx ∧ o.modi = w.modi ∧ o.a = w.a ∧ o.b = w.b ∧
    o.groups = s.convened core part ∧ o.passed = false) ∧
  ∀ k ∈ s.convened core part, ∃ y, (t.group core k).atJoint = some y ∧ y.accepted = true
/-- The place after an operation that an engine's oldest is. -/
def oldest (s : State) (core part : Nat) (o : MxOp) : Prop := ∃ rest, (s.engine core part).ops = o :: rest
/-- Escape mode as it stands for an operation accepted now (R273). -/
def escaping (s : State) (core part : Nat) : Bool := (s.engine core part).escapeAfter (s.engine core part).ops
/-- The values of a record's row are all finite. -/
def finites (xs : List Val) (ds : List Dy) : Prop := xs = ds.map Val.fin
/-- The row that a fold writes in place of the one that stands there, sector by sector, poisoned where it or the record's row is; and SATC
counts one more where it saturates (R282, R283). -/
def folded (s : State) (x : GLog) (pa : Nat) (d va i wid : Nat) : State :=
  let row := rowVa d wid i
  let m := s.logRead x.ctx row 192
  let b := s.logRead x.ctx (va + 32 + 128 * i) 128
  let r := foldRow (mrowOf m.1) ((List.range 32).map fun j => f32.decode (ofBytesLE ((b.1.drop (4 * j)).take 4)))
  let u := (List.range 6).foldl (fun (u : State) k =>
    (u.touch none x.ctx true (row + 32 * k)).devWrite none (u.pa none x.ctx .store (row + 32 * k)).2 (u.pa none x.ctx .store (row + 32 * k)).1
      ((r.1.bytes.drop (32 * k)).take 32) (m.2 || b.2)) ((s.touchRange x.ctx false row 192).touchRange x.ctx false (va + 32 + 128 * i) 128)
  if r.2 then u.logField pa x.key 40 (ldSatc (u.logDesc pa x.key) + 1) else u
/-- The B segment of a group, or the lead's (R262), and its A segment, decoded. -/
def bSide (e : Engine) (o : MxOp) (g : Nat) : Operand := segOperand e.base (o.bSeg g 0)
def aSide (e : Engine) (o : MxOp) (g : Nat) : Operand := segOperand e.base (segment 0 (o.got 0 g))
end Sys2Proof.Rules

/-- R238 to R254: the events of the tenders: a sealed batch, a tile, a hop of a relay and a gather complete, count out and retire, and none
does while a mooring operation that its lane issued before it has still to be performed (R248).  That bytes are read at the completion event
is log entry 20 (DEDUCED), and that entries have their places in the queue register from the issue is log entry 21 (DEDUCED). -/
def Obligations.TenderEvents : Prop := ∀ (s : State) (core grp id : Nat),
  (∀ b rest, (s.group core grp).batches = b :: rest → s.postedBefore core grp b.lane b.txn = false →
    Sys2Proof.Machine.exec (.copyBatchCompletion core grp) s =
      .next (((b.items.foldl State.copy1 s).updGroup core grp fun g => ({ g with batches := rest, cp := g.cp - 1 }).sealAtExit).retire core grp
        { b.act with units := if b.act.kind = 2 then (b.items.map (·.size)).sum else 0 })) ∧
  (∀ o, outstanding s core grp id .tile o → s.postedBefore core grp o.lane id = false → let t : TileD := ⟨ofBytesLE o.desc, o.b.toNat % 2 ^ 32, o.b.toNat / 2 ^ 32⟩
    let seed := (s.gridOf core grp).seed.toNat
    let finish (u : State) : State := ((if t.amxe then u.cellMax core t.amc (s.ctxOf core grp) (s.tileAmax o.pages t) else u).updGroup core grp
      fun g => g.tlDone id).retire core grp o.act
    (o.entries = 0 → Sys2Proof.Machine.exec (.tileCompletion core grp id) s = .next (finish (s.writeTile o.pages seed (rmode o.rnd) t o.dst))) ∧
    (o.entries ≠ 0 → let q := (s.group core grp).mq o.queue
      let n := min (heldIn o.id q) (o.entries - o.given)
      let u := s.setGroup core grp (((s.group core grp).setMq o.queue
        (deliver id n ((s.tileEntries o.pages seed (rmode o.rnd) t).drop o.given) q)).updTl id fun x => { x with given := x.given + n })
      Sys2Proof.Machine.exec (.tileCompletion core grp id) s = .next (if o.given + n = o.entries then finish u else u))) ∧
  (∀ o, outstanding s core grp id .relay o → s.postedBefore core grp o.lane id = false →
    let src := if o.hop = 0 then o.dst else o.hops.getD (o.hop - 1) (0, 0)
    let u := (s.copyScr src (o.hops.getD o.hop (0, 0)) (o.idx.headD 0)).retire core grp (o.moors.getD o.hop {})
    Sys2Proof.Machine.exec (.relayHopCompletion core grp id) s = .next (u.updGroup core grp fun g =>
      if o.hop + 1 = o.hops.length then g.tlDone id else g.updTl id fun x => { x with hop := x.hop + 1 })) ∧
  (∀ o, outstanding s core grp id .gath o → s.postedBefore core grp o.lane id = false →
    Sys2Proof.Machine.exec (.gatherCompletion core grp id) s = .next (((s.gatherRows o).updGroup core grp fun g => g.tlDone id).retire core grp o.act)) ∧
  (∀ b rest, (s.group core grp).batches = b :: rest → s.postedBefore core grp b.lane b.txn = true →
    Sys2Proof.Machine.exec (.copyBatchCompletion core grp) s = .next s) ∧
  ∀ k o, outstanding s core grp id k o → s.postedBefore core grp o.lane id = true →
    Sys2Proof.Machine.exec (.tileCompletion core grp id) s = .next s ∧ Sys2Proof.Machine.exec (.relayHopCompletion core grp id) s = .next s ∧
    Sys2Proof.Machine.exec (.gatherCompletion core grp id) s = .next s

/-- R261 to R287: the events of the matrix engines and the merge engines: the acceptance of a joint operation, its passes, the completion of
the engine's oldest operation, a failing header, the delivery of a drain, and the gradient log: the record written, and its fold, row by row
under the row's lock (that a lock is asked for in one clock and granted in a later one, and that a fold takes a clock, is the model's
structure, log entry 23).  That an accepted `mmd` with LOAD counts as a resident dY, that a group's rows take the dY transpose that the group
named, and that `mcfg` and `glapp` go on after a bad header are log entry 59 (DEDUCED). -/
def Obligations.EngineEvents : Prop := ∀ (s : State) (core part : Nat),
  (∀ w, let u := s.takeEntries core part
    agreed u core part w → w.idx = 5 ∨ w.idx = 7 ∨ w.idx = 8 →
    ∃ t, Sys2Proof.Machine.exec (.jointIssue core part) s = .next t ∧ accepted u core part w t) ∧
  (∀ w, let u := s.takeEntries core part
    agreed u core part w → w.idx = 6 → (∀ k ∈ u.convened core part, (u.group core k).tl < 7) →
    ∃ t, Sys2Proof.Machine.exec (.jointIssue core part) s = .next t ∧ accepted u core part w t) ∧
  (∀ w, let u := s.takeEntries core part
    agreed u core part w → w.idx = 3 ∨ w.idx = 4 ∨ w.idx = 9 → (∃ k ∈ u.convened core part, ∃ st, st < 2 ∧ takes u core part st k) →
    Sys2Proof.Machine.exec (.jointIssue core part) s = .next u) ∧
  (∀ (w : AtJoint) (A B : Nat → VEnt), let u := s.takeEntries core part
    agreed u core part w → w.idx = 3 ∨ w.idx = 9 ∨ w.idx = 4 ∧ (cwLoad w.a.toNat = true ∨ (u.engine core part).dY.isSome = true ∨
      ∃ o ∈ (u.engine core part).ops, o.idx = 4 ∧ cwLoad o.a.toNat = true) →
    (w.idx ≠ 9 → ∀ k ∈ u.convened core part, (u.group core k).tl < 7) → (∀ k ∈ u.convened core part, heads u core k (A k) (B k)) →
    (∀ k ∈ u.convened core part, ∀ st, st < 2 → ¬takes u core part st k) →
    let lead := (u.convened core part).headD 0
    let n := (u.convened core part).length
    (∀ k ∈ u.convened core part, hFmt ((A k).word 0) = hFmt ((A lead).word 0) ∧
      (hShr ((B k).word 0) = true → (B k).word 0 = (B lead).word 0 + 2 ^ 20) ∧
      (hShr ((B k).word 0) = false → hFmt ((B k).word 0) = hFmt ((B lead).word 0) ∧ hRows ((B k).word 0) = hRows ((B lead).word 0) ∧
        hCols ((B k).word 0) = hCols ((B lead).word 0))) →
    (∀ k ∈ u.convened core part, headerOk w.idx n (escaping u core part) false 0 (hFmt ((A lead).word 0)) (hFmt ((B lead).word 0)) ((A k).word 0) = true ∧
      headerOk w.idx n (escaping u core part) (k == lead) 1 (hFmt ((A lead).word 0)) (hFmt ((B lead).word 0)) ((B k).word 0) = true) →
    (u.convened core part).Nodup →
    ∃ t, Sys2Proof.Machine.exec (.jointIssue core part) s = .next t ∧ accepted u core part w t ∧
      ∀ k ∈ u.convened core part, (t.group core k).mqa = (u.group core k).mqa.drop 1 ∧ (t.group core k).mqb = (u.group core k).mqb.drop 1) ∧
  (∀ o, oldest (s.takeEntries core part) core part o → o.passed = false → 0 < o.segs → o.dataDone = true →
    ∃ t, Sys2Proof.Machine.exec (.matrixPass core part) s = .next t ∧ (t.engine core part).acc = (((s.takeEntries core part).engine core part).pass o).acc ∧
      oldest t core part { o with passed := true }) ∧
  (∀ (e : Engine) (o : MxOp) (i j : Nat), o.idx = 3 → i < 32 → j < 32 → o.groups ≠ [] → i / (32 / o.groups.length) < o.groups.length →
    let g := o.groups.getD (i / (32 / o.groups.length)) 0
    (e.pass o).acc' (cwTile o.a.toNat) i j =
      wsum (if cwClr o.a.toNat then 0 else e.acc' (cwTile o.a.toNat) i j)
        (((aSide e o g).rows.getD (i % (32 / o.groups.length)) []).zip ((bSide e o g).rows.getD j [])) % 2 ^ 32) ∧
  (∀ (e : Engine) (o : MxOp) (i j : Nat), o.idx = 4 → cwLoad o.a.toNat = true → cwTile o.a.toNat ≠ cwTile2 o.a.toNat → i < 32 → j < 32 →
    o.groups ≠ [] → i / (32 / o.groups.length) < o.groups.length →
    let g := o.groups.getD (i / (32 / o.groups.length)) 0
    let dY := o.groups.flatMap fun k => (aSide e o k).rows
    let seg (stream : Nat) : Operand := segOperand e.base (if stream = 0 then segment 1 (o.got 0 g) else o.bSeg g 1)
    (e.pass o).acc' (cwTile o.a.toNat) i j =
      wsum (if cwClr o.a.toNat then 0 else e.acc' (cwTile o.a.toNat) i j) ((dY.getD i []).zip ((seg 1).rows.getD j [])) % 2 ^ 32 ∧
    (e.pass o).acc' (cwTile2 o.a.toNat) i j =
      wsum (if cwClr o.a.toNat then 0 else e.acc' (cwTile2 o.a.toNat) i j)
        (((seg 0).rows.getD (i % (32 / o.groups.length)) []).zip ((bSide e o g).rows.getD j [])) % 2 ^ 32) ∧
  (∀ o, oldest s core part o →
    (o.idx = 3 ∨ o.idx = 4 ∨ o.idx = 9 → o.passed = true → Sys2Proof.Machine.exec (.matrixOpCompletion core part) s = .next (s.retireOp core part o)) ∧
    (o.idx = 5 → ∃ t, Sys2Proof.Machine.exec (.matrixOpCompletion core part) s = .next t ∧
      ∀ k i j, k ∈ o.tiles → i < 32 → j < 32 → (t.engine core part).acc' k i j = 0 ∧ k ∉ (t.engine core part).poisoned) ∧
    (o.idx = 6 → cwDst o.a.toNat = true → Sys2Proof.Machine.exec (.matrixOpCompletion core part) s =
      .next (((s.drainRows core part o).drainEnd core part o).retireOp core part o)) ∧
    (o.idx = 6 → cwDst o.a.toNat = false → (∀ p ∈ o.groups.zipIdx, Tbl.get o.sent p.1 0 = ((s.engine core part).drainEntries 0 o p.2).length) →
      Sys2Proof.Machine.exec (.matrixOpCompletion core part) s = .next ((s.drainEnd core part o).retireOp core part o)) ∧
    (o.idx = 7 → Sys2Proof.Machine.exec (.matrixOpCompletion core part) s = .next ((s.loadTile core part o).retireOp core part o)) ∧
    (o.idx = 8 → Sys2Proof.Machine.exec (.matrixOpCompletion core part) s = .next ((s.configure core part o).retireOp core part o)) ∧
    ((s.retireOp core part o).engine core part).ops = (s.engine core part).ops.tail) ∧
  (∀ i w o, s.badHeader core part = some (i, w) → (s.engine core part).ops[i]? = some o →
    let discarded := o.groups.foldl (fun (s : State) k => s.updGroup core k fun g => { g with mqa := g.mqa.filter (·.held), mqb := g.mqb.filter (·.held) }) s
    Sys2Proof.Machine.exec (.matrixHeaderFailure core part) s =
      .next ((discarded.record (discarded.groupRec core (o.groups.headD 0) .illegalOperand 2 0 w)).abandon core part
        (((s.engine core part).ops.drop i).filter fun x => x.idx != 8 && x.idx != 10))) ∧
  (∀ o k b x, oldest s core part o → o.idx = 6 → cwDst o.a.toNat = false →
    o.groups.zipIdx.find? (fun (k, b) => decide (Tbl.get o.sent k 0 < ((s.engine core part).drainEntries 0 o b).length) && decide ((s.group core k).mqo.length < 16)) =
      some (k, b) → ((s.engine core part).drainEntries (s.gridOf core k).seed.toNat o b)[Tbl.get o.sent k 0]? = some x →
    ∃ t, Sys2Proof.Machine.exec (.mdrainEntryDelivery core part) s = .next t ∧ (t.group core k).mqo = (s.group core k).mqo ++ [x] ∧
      oldest t core part { o with sent := Tbl.put o.sent k (Tbl.get o.sent k 0 + 1) }) ∧
  (∀ o, oldest s core part o → o.idx = 10 → (o.seq + 2 ^ 32 - ldGet (s.logDesc o.log o.logKey)) % 2 ^ 32 < ldNrec (s.logDesc o.log o.logKey) →
    s.engineWait o.ctx .store (recordVa (s.logDesc o.log o.logKey) o.seq) 4128 = none →
    ∃ t : State, Sys2Proof.Machine.exec (.glappRecordWrite core part) s = .next t ∧ (t.engine core part).ops = (s.engine core part).ops.tail ∧
      ∃ x : GLog, Tbl.find t.merge.logs o.log = some x ∧ ∀ r ∈ x.recs, r.seq = o.seq → r.ready = true) ∧
  (∀ pa x r rest, Tbl.find s.merge.logs pa = some x → x.recs = r :: rest → r.ready = true →
    let d := s.logDesc pa x.key
    let va := recordVa d r.seq
    let wid := ofBytesLE (s.logRead x.ctx va 32).1 % 2 ^ 16
    let row := (folded s x pa d va x.row wid).tick
    s.engineWait x.ctx .load va 4128 = none →
    (ldNwt d ≤ wid → Sys2Proof.Machine.exec (.recordFold pa) s = .next ((s.record (x.fault r .recordSkipped)).foldEnd pa x)) ∧
    (wid < ldNwt d → s.engineWait x.ctx .store (rowVa d wid x.row) 192 = none →
      (x.asked = none → Sys2Proof.Machine.exec (.recordFold pa) s = .next (s.setLog pa { x with asked := some s.now })) ∧
      ∀ t, x.asked = some t →
        (s.now ≤ t → Sys2Proof.Machine.exec (.recordFold pa) s = .next s) ∧
        (t < s.now → s.lockFirst pa x r t = true → x.row < 31 →
          Sys2Proof.Machine.exec (.recordFold pa) s = .next (row.setLog pa { x with row := x.row + 1, asked := some row.now })) ∧
        (t < s.now → s.lockFirst pa x r t = true → 31 ≤ x.row → Sys2Proof.Machine.exec (.recordFold pa) s =
          .next ((if (s.logRead x.ctx va 4128).2 then row.record (x.fault r .uncorrectable) else row).foldEnd pa x)))) ∧
  (∀ (pa : Nat) (x : GLog), let u := s.logField pa x.key 36 (ldGet (s.logDesc pa x.key) + 1)
    (s.foldEnd pa x).mem = u.mem ∧ Tbl.find (s.foldEnd pa x).merge.logs pa =
      if x.recs.length ≤ 1 then none else some { x with recs := x.recs.drop 1, row := 0, asked := none }) ∧
  (∀ pa x r t pb y q rest u, s.lockFirst pa x r t = true → (pb, y) ∈ s.merge.logs → pb ≠ pa → y.asked = some u → y.recs = q :: rest →
    s.rowPa pb y q = s.rowPa pa x r →
    t < u ∨ t = u ∧ (s.logDie pa x < s.logDie pb y ∨ s.logDie pa x = s.logDie pb y ∧ pa < pb)) ∧
  (∀ (r : MRow) (xs : List Val) (ds : List Dy), r.m.length = 32 → xs.length = 32 →
    (r.e = 0xFF → foldRow r xs = (r, false)) ∧
    (r.e ≠ 0xFF → (∃ v ∈ xs, v = .nan ∨ ∃ b, v = .inf b) → foldRow r xs = (⟨0xFF, List.replicate 32 0⟩, false)) ∧
    (finites xs ds → r.e < 0xFF →
      let sum (k j : Nat) : Int := roundInt (Dy.ofInt (r.m.getD j 0) 0) k + roundInt (ds.getD j (Dy.zero false)) ((r.e + k : Nat) - 165 : Int)
      let fits (k : Nat) : Prop := r.e + k ≤ 0xFE ∧ ∀ j < 32, (sum k j).natAbs < 2 ^ 39
      (∀ k, fits k → (∀ k' < k, ¬fits k') → foldRow r xs = (⟨r.e + k, (List.range 32).map (sum k)⟩, false)) ∧
      ((∀ k, ¬fits k) → foldRow r xs = (⟨0xFE, (List.range 32).map fun j => max (1 - 2 ^ 39) (min (sum (0xFE - r.e) j) (2 ^ 39 - 1))⟩, true)))) ∧
  ∀ k f, Tbl.find s.merge.folds k = some f → s.foldReady f = true → (s.team f.team).st ≠ .suspended → (s.team f.team).st ≠ .halted →
    (s.team f.team).scrLen ≠ 0 →
    let p := s.scrPlace f.team f.va.toNat
    let r : Retire := { kind := 1, core := some p.1, addr := p.2, va := f.va }
    let u := ({ s with merge := { s.merge with folds := Tbl.del s.merge.folds k } } : State).arrive r
    (∀ m, (u.mooring r).ret 1 0 = some m → Sys2Proof.Machine.exec (.glfoldRetirement k) s = .next ((u.dropRows p.1 f).moorPut none r m)) ∧
    ((u.mooring r).ret 1 0 = none → Sys2Proof.Machine.exec (.glfoldRetirement k) s = .next (u.record
      { cause := .mooringMisuse, src := 5, ctx := f.ctx, core := f.core, gslot := f.gslot, team := (s.team f.team).idx, addr := f.va }).tick)

namespace Sys2Proof.Rules
/-- The Lantern starts the next packet of a queue, which has this TYPE and passes every check (R289, R292). -/
def starts (s : State) (q type : Nat) : Prop :=
  s.serving = true ∧ s.startable q = true ∧ s.nextQueue = some q ∧ s.pktCheck q = .go ∧ pktType (s.pktWords q) = type
/-- A packet of this TYPE is in service (R289). -/
def inService (s : State) (q type : Nat) : Prop :=
  s.serving = true ∧ (s.queue q).en = true ∧ (s.queue q).err = false ∧ (s.queue q).pkt.started = true ∧ pktType (s.queue q).pkt.words = type
/-- The ACTION of a MODEL packet, or the operation of another. -/
def actionOf (ws : List DWord) : Nat := pw ws 0 / 2 ^ 16
/-- The layers a MODEL packet names (R345). -/
def layersOf (ws : List DWord) : List Nat := (List.range (pw ws 2)).map (pw ws 1 + ·)
/-- What a MODEL packet remembers of its layers: the EPOCH that each shows until it has been RESIDENT since the start, the one before for a
layer that is RESIDENT then (R345). -/
def epochs (s : State) (ctx : Nat) (ws : List DWord) : Tbl (BitVec 32) :=
  (layersOf ws).map fun l => (l, BitVec.ofNat 32 (tmEpoch (s.topmark ctx l)) - if s.topmark ctx l % 4 = 2 then 1 else 0)
/-- The packet starts and remembers (R289). -/
def begun (s : State) (q : Nat) (snap : Tbl (BitVec 32)) : State :=
  ((s.pktMarks q).startPkt q (s.pktWords q)).updPkt q fun p => { p with snapshot := snap }
/-- The packet events of a queue, each with its TYPE and ACTION. -/
def isPacketEvent (q : Nat) (i : Instr) (type : Nat) (act : Option Nat) : Prop :=
  (i, type, act) ∈ [(Instr.packetNop q, 0, (none : Option Nat)), (.launch q, 1, none), (.coll q, 2, none), (.waitmem q, 3, none), (.signalmem q, 4, none),
   (.modelRequest q, 5, some 0), (.modelWithdraw q, 5, some 1), (.modelPin q, 5, some 2), (.modelUnpin q, 5, some 3), (.qbarrier q, 6, none)]
/-- The teams on some cores that a candidate would have to clear (R302). -/
def inTheWay (s : State) (cs : List Nat) : List Nat :=
  (s.lantern.teams.filter fun x => cs.contains x.2.core && (x.2.st == .resident || x.2.st == .halted)).map (·.1)
/-- A candidate of a die for one team or cluster of a grid, on cores in service (R300, R302). -/
def isCandidate (s : State) (die gid : Nat) (cs : List Nat) : Prop :=
  ∃ c, 24 * die ≤ c ∧ c < 24 * die + 24 ∧ rect c (s.grid gid).clw (s.grid gid).clh = some cs ∧ ∀ k ∈ cs, (s.core k).failed = false ∧ s.reservedFor k gid = false
/-- One cost lies under another (R302, R303). -/
def cheaper (a b : Nat × Nat) : Prop := a.1 < b.1 ∨ a.1 = b.1 ∧ a.2 < b.2
/-- A team is the longest resident of a core (R305). -/
def longest (s : State) (core t : Nat) : Prop :=
  (∃ x, (t, x) ∈ s.lantern.teams ∧ x.core = core ∧ x.st = .resident) ∧
  ∀ p ∈ s.lantern.teams, p.2.core = core → p.2.st = .resident → p.1 ≠ t → (s.team t).placedAt < (s.team p.1).placedAt
end Sys2Proof.Rules

/-- R288 to R305, R345, R383, R395: the events of the Lantern: the doorbell, each packet's effect where it starts, the packets that stay in
service, a rejected packet, and the dispatchers. Reading a packet and what its checks read sets marks alone, first (R221). The model's
choices: log entry 36 (a packet with a reserved TYPE is rejected by whichever packet event runs), 60 (attempts counted for each die, the room
made by suspending teams, and the requests that a MODEL request renews), 67 (a signal is also told to the host) and 69 (the clock's tick). -/
def Obligations.LanternEvents : Prop := ∀ (s : State) (q : Nat),
  let x := s.queue q
  let ctx := x.ctx.toNat
  let ws := s.pktWords q
  let m := s.pktMarks q
  m = { s with mem := m.mem } ∧
  (∀ w, q < 64 → s.keeper.cxlDown = false → Sys2Proof.Machine.exec (.doorbell q w) s = .next (s.setQueue q { x with wptr := w })) ∧
  ((s.startPkt q ws).queue q = { x with rptr := x.rptr + 1, pkt := { started := true, words := ws, since := s.now } } ∧
    (s.endPkt q).queue q = { x with cptr := x.cptr + 1, pkt := {} } ∧
    ∀ k, k ≠ q → (s.startPkt q ws).queue k = s.queue k ∧ (s.endPkt q).queue k = s.queue k) ∧
  (starts s q 0 → Sys2Proof.Machine.exec (.packetNop q) s = .next ((m.startPkt q ws).endPkt q)) ∧
  (starts s q 1 → let r := m.vget ctx (pw ws 1) 32
    let g := recGrid ctx (ws.getD 1 0) r ((m.inputsOf ctx r).getD []) x.prio.toNat q none (ws.getD 2 0) (s.ctx ctx).seed
    let g := { g with signal := ws.getD 3 0, sigVal := ws.getD 4 0, coll := if pktAtt ws then some (ws.getD 5 0) else none, pkt := s.pktAddr q }
    ∃ t, Sys2Proof.Machine.exec (.launch q) s = .next t ∧ let u := ((m.startPkt q ws).registerGrid g).2
      (pktAsync ws = true → t = u.endPkt q) ∧ (pktAsync ws = false → t = u.updPkt q fun p => { p with grid := some s.lantern.nextGrid })) ∧
  (starts s q 2 → let c := (m.startPkt q ws).collStart ctx q (ws.getD 1 0) none (s.ctx ctx).seed.toNat true
    Sys2Proof.Machine.exec (.coll q) s = .next (c.2.updPkt q fun p => { p with inst := some c.1 })) ∧
  (∀ k, inService s q 2 → x.pkt.inst = some k → (s.inst k).finished = true →
    ∃ t, Sys2Proof.Machine.exec (.coll q) s = .next t ∧ Tbl.find t.lantern.insts k = none ∧ (t.queue q).cptr = x.cptr + 1 ∧
      ((s.inst k).stat = 0 → (t.queue q).err = x.err ∧ (t.queue q).en = x.en) ∧
      ((s.inst k).stat ≠ 0 → (t.queue q).err = true ∧ (t.queue q).en = false ∧ (t.queue q).ecode = 13)) ∧
  (starts s q 3 → Sys2Proof.Machine.exec (.waitmem q) s = .next ((m.startPkt q ws).waitRead q)) ∧
  (inService s q 3 → let a := pw x.pkt.words 1
    let u := s.touch none ctx false a
    Sys2Proof.Machine.exec (.waitmemReread q) s = .next (s.waitRead q) ∧
    (s.pktRange ctx .load a 8 = .go →
      (waitCond x.pkt.words (u.vget ctx a 8) = true → s.waitRead q = u.endPkt q) ∧ (waitCond x.pkt.words (u.vget ctx a 8) = false → s.waitRead q = u)) ∧
    ∀ c, s.pktRange ctx .load a 8 = .bad c → s.waitRead q = s.rejectQueue q c) ∧
  (starts s q 4 → let u := m.startPkt q ws
    let a := pw ws 1
    let v := if (pw ws 0).testBit 16 then (u.vget ctx a 8 + pw ws 2) % 2 ^ 64 else pw ws 2
    Sys2Proof.Machine.exec (.signalmem q) s =
      .next (((u.touch none ctx true a).devWrite none (u.pa none ctx .store a).2 (u.pa none ctx .store a).1 (toBytesLE 8 v) false).tellHost 1 ctx a (toBytesLE 8 v)
        |>.endPkt q)) ∧
  (starts s q 5 → let u := begun s q (epochs m ctx ws)
    (actionOf ws = 0 → ∃ t, t = (layersOf ws).foldl (fun s l => s.requestLayer ctx l) u ∧ t.queue q = u.queue q ∧
      Sys2Proof.Machine.exec (.modelRequest q) s = .next (t.resumePkt q)) ∧
    (actionOf ws = 1 → Sys2Proof.Machine.exec (.modelWithdraw q) s = .next (u.withdrawRun q)) ∧
    (actionOf ws = 2 → Sys2Proof.Machine.exec (.modelPin q) s = .next (((layersOf ws).foldl (fun s l => s.tmPinBy ctx l true) u).endPkt q)) ∧
    (actionOf ws = 3 → Sys2Proof.Machine.exec (.modelUnpin q) s = .next (((layersOf ws).foldl (fun s l => s.tmPinBy ctx l false) u).endPkt q))) ∧
  (inService s q 5 →
    (actionOf x.pkt.words = 0 → let was (p : Nat × BitVec 32) : Prop := tmEpoch (s.topmark ctx p.1) ≠ p.2.toNat
      ((∀ p ∈ x.pkt.snapshot, was p) → Sys2Proof.Machine.exec (.modelRequest q) s = .next (s.endPkt q)) ∧
      (¬(∀ p ∈ x.pkt.snapshot, was p) → Sys2Proof.Machine.exec (.modelRequest q) s = .next (x.pkt.snapshot.foldl (fun s p =>
        if tmEpoch (s.topmark ctx p.1) = p.2.toNat then s.requestLayer ctx p.1 else s) s))) ∧
    (actionOf x.pkt.words = 1 → Sys2Proof.Machine.exec (.modelWithdraw q) s = .next (s.withdrawRun q))) ∧
  (starts s q 6 → let snap := ((List.range 64).filter fun k => (pw ws 1).testBit k).map fun k => (k, (s.queue k).rptr)
    let u := begun s q snap
    ((∀ p ∈ snap, reached (u.queue p.1).cptr p.2 = true) → Sys2Proof.Machine.exec (.qbarrier q) s = .next (u.endPkt q)) ∧
    (¬(∀ p ∈ snap, reached (u.queue p.1).cptr p.2 = true) → Sys2Proof.Machine.exec (.qbarrier q) s = .next u)) ∧
  (inService s q 6 → (∀ p ∈ x.pkt.snapshot, reached (s.queue p.1).cptr p.2 = true) → Sys2Proof.Machine.exec (.qbarrier q) s = .next (s.endPkt q)) ∧
  (∀ c, s.serving = true → s.startable q = true → s.nextQueue = some q → s.pktCheck q = .bad c →
    (∀ i type act, isPacketEvent q i type act → c = 3 ∨ pktKind ws type act = true → Sys2Proof.Machine.exec i s = .next (m.rejectQueue q c)) ∧
    (m.rejectQueue q c).queue q = { x with err := true, en := false, ecode := BitVec.ofNat 16 c, pkt := {} }) ∧
  (s.serving = true → s.startable q = true → x.pkt.words ≠ [] → s.pktCheck q = .full →
    x.pkt.since + 100000 * s.keeper.power.clockMHz < s.now → Sys2Proof.Machine.exec (.workTableTimeout q) s = .next (m.rejectQueue q 8)) ∧
  (s.pktCheck q = .full → 4096 ≤ s.workTable) ∧
  (∀ die, let v := (((s.settleAll.lantern.grids.filter fun p => p.2.st == .inputs).map (·.1)).foldl (fun s g => s.advance g true) s.settleAll).clearReserved die
    let u := (v.lantern.grids.map (·.1)).foldl State.startAttached v
    let try_ := (u.attemptList die).findSome? fun (l, k, y) => (u.tryUnit die y).map fun t => (l, k, y, t)
    (∀ l k y t, try_ = some (l, k, y, t) → ∃ t' : State, Sys2Proof.Machine.exec (.placementAttempt die) s =
        .next (t'.makeRoom die (((u.attemptList die).takeWhile fun x => x.2.2 != y).map (·.2.2))).tick ∧ t'.cores = t.cores ∧ t'.mem = t.mem ∧
      t'.lantern.teams = t.lantern.teams ∧ t'.lantern.grids = t.lantern.grids ∧ Tbl.find t'.lantern.lastSource (16 * die + l) = some k ∧
      (∀ p ∈ t'.lantern.reserved, p.2.grid ≠ u.unitGrid y)) ∧
    (try_ = none → Sys2Proof.Machine.exec (.placementAttempt die) s = .next ((u.countHeads die).makeRoom die ((u.attemptList die).map (·.2.2))).tick)) ∧
  (∀ (v : State) die us, (∀ gid, DUnit.grid gid ∈ us → v.victims die gid = []) → v.makeRoom die us = v) ∧
  (∀ (v : State) die gid us, v.victims die gid ≠ [] → v.makeRoom die (.grid gid :: us) = (v.victims die gid).foldl State.preempt v) ∧
  (∀ die level y, s.headOf die level = some y → let gid := s.unitGrid y
    Tbl.find s.lantern.reserved die = none → (Tbl.get s.lantern.attempts (16 * die + level) (gid, 0)).1 = gid → 256 ≤ (Tbl.get s.lantern.attempts (16 * die + level) (gid, 0)).2 →
    (s.grid gid).res = false → (∃ cs, isCandidate s die gid cs) →
    ∃ cs, isCandidate s die gid cs ∧
      (∀ ds, isCandidate s die gid ds → ¬cheaper (s.victimCost (inTheWay s ds)) (s.victimCost (inTheWay s cs))) ∧
      Sys2Proof.Machine.exec (.candidateReservation die level) s =
        .next ({ s with lantern := { s.lantern with reserved := Tbl.put s.lantern.reserved die ⟨level, gid, cs⟩ } }.clearReserved die)) ∧
  ∀ core t, longest s core t → (s.core core).hot = true → let ms := 1000 * s.keeper.power.clockMHz
    (∀ m ∈ s.gangOf t, (s.team m).st = .ended ∨ (s.team m).placedAt + ms ≤ s.now) →
    (∀ m ∈ s.gangOf t, (s.core (s.team m).core).thermalCount = 0 ∨ (s.core (s.team m).core).lastThermal + 4 * ms ≤ s.now) →
    let u := (s.gangOf t).foldl (fun s m => s.setTeam m { s.team m with avoidHot := true }) (s.preempt t)
    Sys2Proof.Machine.exec (.thermalMigration core) s =
      .next ((((s.gangOf t).map fun m => (s.team m).core).eraseDups).foldl (fun u c =>
        u.setCore c { u.core c with lastThermal := u.now, thermalCount := (u.core c).thermalCount + 1 }) u)

namespace Sys2Proof.Rules
/-- The head of the loop path, or of an absent target, on a path (R358, R370). -/
def loopNext (s : State) (path : Nat) (f : Flight) : Prop := s.loopHead path = some f
/-- A message of this device that stands in its reflection order (R358). -/
def flying (s : State) (k : Nat) (f : Flight) : Prop := (s.fabric.net.find? fun x => x.id == k) = some f
/-- The ranges a receive entry and a reflection name, its bytes' and its slots' sectors, with each condition of R357 in its order; the bitmap
of the first that fails. -/
def landing (s : State) (r : Reflect) : BitVec 16 :=
  let e := (s.rxEntry r.rxid).toNat
  if bits e 0 0 = 0 then 1
  else if r.src < bits e 171 160 ∨ bits e 183 172 < r.src then 4
  else if (reflExtents r).any (fun x => 65536 * bits e 159 128 < x.1 + x.2) then 2
  else if (reflExtents r).any (fun x => !s.rxPages (bits e 31 16) (bits e 127 64 + x.1) x.2) then 1
  else 0
/-- A write of an agent of the device at a virtual address of a context, within one sector, under the key of its page. -/
def put (s : State) (ctx a : Nat) (bs : List Byte) (bad : Bool) : State :=
  (s.touch none ctx true a).devWrite none (s.pa none ctx .store a).2 (s.pa none ctx .store a).1 bs bad
/-- A write of one sideband slot there. -/
def putSlot (s : State) (ctx a k : Nat) (v : Byte) : State := (s.touch none ctx true a).devSetSlot (s.pa none ctx .store a).1 k v
/-- What a reflection that passes every condition of R357 writes at RBASE + O: its bytes sector by sector, the first `bad` of them poisoned,
then its slots. -/
def landed (s : State) (r : Reflect) : State :=
  let e := (s.rxEntry r.rxid).toNat
  let ctx := bits e 31 16
  let va := bits e 127 64 + r.off
  let u := (reflRuns r va).foldl (fun t p => put t ctx p.1 p.2 (decide (p.1 - va < r.bad))) s
  r.side.foldl (fun t p => putSlot t ctx (bits e 127 64 + p.1) p.2.1 p.2.2) u
/-- The events of the windows, the Beacons and the collective engine. -/
def fabricEvents (i : Instr) : Prop :=
  (∃ a, i = .reflectionArrival a) ∨ (∃ k b, i = .reflectionAcknowledgement k b) ∨ (∃ a, i = .closeMarkerArrival a) ∨ (∃ k t b, i = .daymarkArrival k t b) ∨
    (∃ a, i ∈ [Instr.beaconBcasStep a, .beaconBenqStep a, .beaconBchaseStep a, .beaconBredStep a]) ∨ (∃ d, i = .ualinkReadReceived d) ∨
    (∃ k p e, i = .slotGrant k p e) ∨ (∃ k c, i = .contributionArrival k c) ∨ (∃ k m, i = .memberReport k m) ∨ (∃ k, i = .readyWordPoll k) ∨
    (∃ k w, i = .collectiveFailure k w) ∨ ∃ k m d, i = .digestExchange k m d
/-- What an acknowledgement does (R359): the message is over; AMOOR retires one unit; a bitmap that is not zero writes a record. -/
def acknowledged (s : State) (f : Flight) (b : BitVec 16) (t : State) : Prop :=
  let u := s.dropFlight f.id
  let u := u.retireOn (u.gmoor f.ctx f.amoor) 2 1 { f.rec_ u f.amoor 0 with cause := .mooringMisuse, src := 5 }
  t = if b = 0 then u else u.record (f.rec_ u f.va b)
/-- The messages of a flight's batch to its target that its daymark covers (R360, R363). -/
def ofBatch (s : State) (f : Flight) : List Flight :=
  s.fabric.net.filter fun x => x.team == f.team && x.gi == f.gi && x.tag == f.tag && x.tgt == f.tgt &&
    ((match x.cargo with | .close _ => true | _ => false) || x.ack == 2)
/-- A collective instance in progress (R376, R382). -/
def running (s : State) (k : Nat) (c : CollInst) : Prop := Tbl.find s.lantern.insts k = some c ∧ c.finished = false
/-- The word of a Beacon's target: a read under the key its sector stands under (R369). -/
def homeWord (s : State) (a n : Nat) : Nat := (s.bcnRead a n).1
/-- The Beacon may perform an operation on a range whose sectors are not poisoned (R366, R369). -/
def allowed (s : State) (o : BeaconOp) (a n : Nat) : Prop := s.bcnBit o.src o.kind a n = 0 ∧ (s.bcnRead a n).2 = false
end Sys2Proof.Rules

/-- R355 to R370, R376 to R384, R421: the events of the windows, the Beacons and the collective engine.  The model's choices: in STATE 5
they do nothing (log entry 42); a Beacon's step reads and writes under the key its sector stands under (16); every failure code is taken from
another member of the mesh at any time (31); an acknowledgement of a mooring that does not stand writes its record (59); and the clock's
tick (69). -/
def Obligations.FabricEvents : Prop := ∀ s : State,
  (s.keeper.status.st = 5 → ∀ i, fabricEvents i → Sys2Proof.Machine.exec i s = .next s) ∧ (s.keeper.status.st ≠ 5 →
  (∀ path f r, loopNext s path f → f.cargo = .refl r → f.tgt = s.me →
    ∃ u b, s.performRefl r = (u, b) ∧ Sys2Proof.Machine.exec (.reflectionArrival (.loop path)) s =
      .next ((if f.ack = 2 ∧ b &&& 7 = 0 then u.noteRx f r.rxid else u).performed f b)) ∧
  (∀ path f r, loopNext s path f → f.cargo = .refl r → f.tgt ≠ s.me →
    Sys2Proof.Machine.exec (.reflectionArrival (.loop path)) s = .next (s.performed f 1)) ∧
  (∀ r : Reflect, landing s r ≠ 0 → s.performRefl r = (s, landing s r)) ∧
  (∀ r : Reflect, landing s r = 0 → ((s.performRefl r).2 = 0 ∨ (s.performRefl r).2 = 8) ∧
    let e := (s.rxEntry r.rxid).toNat
    let u := landed s r
    (bits e 2 1 ≠ 1 → (s.performRefl r).1 = u) ∧
    (bits e 2 1 = 1 → (s.performRefl r).1 = u.retireOn (u.gmoor (bits e 31 16) (BitVec.ofNat 64 (bits e 255 192))) 2 (r.bytes.length - r.gaps.length)
      { cause := .mooringMisuse, ctx := bits e 31 16, addr := BitVec.ofNat 64 (bits e 255 192) })) ∧
  (∀ (r : Reflect) va, (r.gaps = [] → (∀ p ∈ reflRuns r va, p.1 % 32 + p.2.length ≤ 32) ∧
      (reflRuns r va).flatMap (fun p => p.2.zipIdx.map fun b => (p.1 + b.2, b.1)) = r.bytes.zipIdx.map fun b => (va + b.2, b.1)) ∧
    (r.gaps ≠ [] → ∀ a b, (a, [b]) ∈ reflRuns r va ↔ ∃ i, a = va + i ∧ i ∉ r.gaps ∧ r.bytes[i]? = some b)) ∧
  (∀ ctx a bs bad, bs ≠ [] → let p := s.pa none ctx .store a
    let m := (put s ctx a bs bad).mem
    p.1 % 32 + bs.length ≤ 32 → (∀ i, i < bs.length → m.getKey p.2 (p.1 + i) = bs.getD i 0) ∧
      ((m.sector p.1).poison = if bs.length = 32 then bad else (bad || ((s.touch none ctx true a).mem.sector p.1).poison)) ∧
      ∀ b, (b < p.1 ∨ p.1 + bs.length ≤ b) → m.getKey p.2 b = (s.touch none ctx true a).mem.getKey p.2 b) ∧
  (∀ ctx a k v, let p := s.pa none ctx .store a
    (putSlot s ctx a k v).mem.slot p.1 k = v ∧ ∀ b, (putSlot s ctx a k v).mem.get b = (s.touch none ctx true a).mem.get b) ∧
  (∀ r : Reflect, s.replyTo r = none → ∃ u b, s.performRefl r = (u, b) ∧
    Sys2Proof.Machine.exec (.reflectionArrival (.remote r)) s =
      .next (if r.ack = 1 then u.sendOut 0 r.src [b.toNat] else if r.ack = 2 then u.noteRemote r b else u)) ∧
  (∀ k f r, flying s k f → f.cargo = .refl r → f.ack = 1 → (s.team f.team).st = .suspended →
    ∀ b, Sys2Proof.Machine.exec (.reflectionAcknowledgement k b) s = .next s) ∧
  (∀ k f r, flying s k f → f.cargo = .refl r → f.ack ≠ 1 → s.localTarget f.tgt = false → s.flightFirst f = true →
    ∀ b, Sys2Proof.Machine.exec (.reflectionAcknowledgement k b) s = .next (s.performed f b)) ∧
  (∀ k f r, flying s k f → f.cargo = .refl r → f.ack = 1 → (s.team f.team).st ≠ .suspended →
    (s.localTarget f.tgt = true → ∀ d b, f.done = some d → ∃ t, Sys2Proof.Machine.exec (.reflectionAcknowledgement k b) s = .next t ∧ acknowledged s f d t) ∧
    (s.localTarget f.tgt = false → s.flightFirst f = true → ∀ b, ∃ t, Sys2Proof.Machine.exec (.reflectionAcknowledgement k b) s = .next t ∧
      acknowledged s f b t)) ∧
  (∀ src path n batch, let seen := (s.fabric.marks.filter (· == (src, batch))).length + 1
    (seen < n → Sys2Proof.Machine.exec (.closeMarkerArrival (.remote src path n batch)) s =
      .next { s with fabric := { s.fabric with marks := (src, batch) :: s.fabric.marks } }) ∧
    (n ≤ seen → ∃ t : State, Sys2Proof.Machine.exec (.closeMarkerArrival (.remote src path n batch)) s = .next t ∧
      (∀ p, p ∈ t.fabric.marks ↔ p ∈ s.fabric.marks ∧ p ≠ (src, batch)) ∧
      ∃ errs : BitVec 16, t.fabric.sent.head? = some ⟨1, src, [batch, errs.toNat]⟩ ∧
        errs = (s.fabric.remoteErrs.filter fun x => x.1 == src && x.2.1 == batch).foldl (fun m x => m ||| x.2.2) 0)) ∧
  (∀ k tgt f bm, (s.fabric.net.find? fun x => x.id == k && x.tgt == tgt) = some f → (s.team f.team).st = .suspended →
    Sys2Proof.Machine.exec (.daymarkArrival k tgt bm) s = .next s) ∧
  (∀ k tgt f n bm, (s.fabric.net.find? fun x => x.id == k && x.tgt == tgt) = some f → f.cargo = .close n → s.localTarget tgt = false →
    (s.team f.team).st ≠ .suspended →
    (∀ x ∈ ofBatch s f, ∀ r, x.cargo ≠ .reply r) → (∀ x ∈ ofBatch s f, ∀ o, x.cargo = .beacon o → o.kind = .bred) →
    let slot := (s.member f.team f.gi).bslot f.tag
    slot.fence = true → (∃ y ∈ slot.await, y ≠ tgt) →
    let u := { s with fabric := { s.fabric with net := s.fabric.net.filter fun (x : Flight) => !((ofBatch s f).map fun (y : Flight) => y.id).contains x.id } }
    Sys2Proof.Machine.exec (.daymarkArrival k tgt bm) s = .next (u.updMember f.team f.gi fun g => g.setBslot f.tag
      { slot with errs := Tbl.put slot.errs tgt (bm ||| Tbl.get slot.errs tgt 0), await := slot.await.filter (· != tgt) })) ∧
  (∀ f o kind, loopNext s 0 f → f.cargo = .beacon o → o.kind = kind → f.tgt = s.me →
    ∃ (u : State) (y : BOut), s.doBeacon o = (u, y) ∧
      let v := (u.addErr f y.b).dropFlight f.id
      let w := { v with fabric := { v.fabric with net := v.fabric.net ++ [{ f with cargo := .reply (replyOf o v.me y) }] } }
      (kind = .bcas → Sys2Proof.Machine.exec (.beaconBcasStep .loop) s = .next w.tick) ∧
      (kind = .benq → Sys2Proof.Machine.exec (.beaconBenqStep .loop) s = .next w.tick) ∧
      (kind = .bchase → Sys2Proof.Machine.exec (.beaconBchaseStep .loop) s = .next w.tick) ∧
      (kind = .bred → Sys2Proof.Machine.exec (.beaconBredStep .loop) s = .next v.tick)) ∧
  (∀ o : BeaconOp, o.kind = .bcas → let n := 8 * (o.cnt + 1)
    (s.bcnBit o.src .bcas o.addr n ≠ 0 → s.doBeacon o = (s, { b := s.bcnBit o.src .bcas o.addr n })) ∧
    (allowed s o o.addr n → homeWord s o.addr n = o.opa % 2 ^ (8 * n) →
      s.doBeacon o = (s.bcnWrite o.addr n o.opb, { data := homeWord s o.addr n, eff := true })) ∧
    (allowed s o o.addr n → homeWord s o.addr n ≠ o.opa % 2 ^ (8 * n) → s.doBeacon o = (s, { data := homeWord s o.addr n }))) ∧
  (∀ o : BeaconOp, o.kind = .benq → allowed s o o.addr 32 → let h := homeWord s o.addr 32
    let put := h / 2 ^ 32 % 2 ^ 32
    let slot := o.addr + 32 + 16 * (put % (h % 2 ^ 32))
    (h % 2 ^ 32 ≤ (put + 2 ^ 32 - h / 2 ^ 64 % 2 ^ 32) % 2 ^ 32 → s.doBeacon o = (s, { data := put })) ∧
    ((put + 2 ^ 32 - h / 2 ^ 64 % 2 ^ 32) % 2 ^ 32 < h % 2 ^ 32 → slot / 65536 = o.addr / 65536 → allowed s o slot 16 →
      s.doBeacon o = ((s.bcnWrite slot 16 (o.opa % 2 ^ 128)).bcnWrite (o.addr + 4) 4 (put + 1), { data := put, eff := true }))) ∧
  (∀ o : BeaconOp, o.kind = .bchase → (s.doBeacon o).1 = s ∧ (allowed s o (o.addr + 8 * o.poff) 8 → homeWord s (o.addr + 8 * o.poff) 8 = 0 →
    s.bcnBit o.src .bchase (o.addr + 8 * o.doff) 24 = 0 → let y := (s.doBeacon o).2
      y.b = 0 ∧ y.eff = true ∧ y.count = 1 ∧ y.data = o.addr % 2 ^ 64 + homeWord s (o.addr + 8 * o.doff) 24 * 2 ^ 64)) ∧
  (∀ o : BeaconOp, o.kind = .bred → o.cnt = 0 → o.rkind = 0 → allowed s o o.addr 4 →
    s.doBeacon o = (s.bcnWrite o.addr 4 (atomInt 32 (aopOf o.rop) (homeWord s o.addr 4) (o.opa % 2 ^ 32)), {})) ∧
  (∀ src, s.fabric.noPanel = false → Sys2Proof.Machine.exec (.ualinkReadReceived src) s =
    .next { s with fabric := { s.fabric with reads := s.fabric.reads + 1, sent := ⟨3, src, []⟩ :: s.fabric.sent } }) ∧
  (∀ k c peer e0, running s k c → c.agreed = true → peer ∈ c.others → (peer, e0) ∉ c.sent → (peer, e0) ∉ c.grants → (∃ r ∈ c.runs c.me peer, r.headD 0 = e0) →
    Sys2Proof.Machine.exec (.slotGrant k peer e0) s = .next ((s.setInst k { c with grants := c.grants ++ [(peer, e0)] }).collRun k)) ∧
  (∀ k c y r, running s k c → (c.runs y.src c.me).find? (fun r => r.headD 0 == y.e0) = some r → (y.src, y.e0) ∈ c.given → y.codes.length = r.length →
    (∀ n, s.pktRange c.ctx .store (cdStage c.d) (65536 * cdStagen c.d) = .bad n →
      Sys2Proof.Machine.exec (.contributionArrival k y) s = .next (s.collFail k 3)) ∧
    (s.pktRange c.ctx .store (cdStage c.d) (65536 * cdStagen c.d) = .go → ∃ got : Tbl (Nat × Nat), (∀ i, i < r.length → r.Nodup →
        Tbl.find got (collKey y.src (r.getD i 0)) = some (y.codes.getD i 0, y.scales.getD i 0x7F)) ∧
      Sys2Proof.Machine.exec (.contributionArrival k y) s = .next (((s.touchRange c.ctx true (cdStage c.d) (65536 * cdStagen c.d)).setInst k { c with
        got := got, given := c.given.filter (· != (y.src, y.e0)), taken := (y.src, y.e0) :: c.taken }).collRun k))) ∧
  (∀ k c m, running s k c → m ∈ c.others → m ∉ c.reports →
    Sys2Proof.Machine.exec (.memberReport k m) s = .next ((s.setInst k { c with reports := m :: c.reports }).collRun k)) ∧
  (∀ k c, running s k c → ∀ n, s.pktRange c.ctx .load (cdRdy c.d) (8 * cdNbkt c.d) = .bad n →
    Sys2Proof.Machine.exec (.readyWordPoll k) s = .next (s.collFail k 3)) ∧
  (∀ k c, running s k c → s.pktRange c.ctx .load (cdRdy c.d) (8 * cdNbkt c.d) = .go →
    ∃ seen : List Nat, (∀ b, b ∈ seen ↔ b < cdNbkt c.d ∧ b ∉ c.buckets ∧ s.vget c.ctx (cdRdy c.d + 8 * b) 4 = cdGen c.d) ∧
    Sys2Proof.Machine.exec (.readyWordPoll k) s = .next (((s.touchRange c.ctx false (cdRdy c.d) (8 * cdNbkt c.d)).setInst k { c with buckets := c.buckets ++ seen }).collRun k)) ∧
  (∀ k c why, running s k c → c.others ≠ [] → 1 ≤ why → why ≤ 5 →
    Sys2Proof.Machine.exec (.collectiveFailure k (BitVec.ofNat 8 why)) s = .next (s.collFail k why)) ∧
  (∀ k c, running s k c → ¬c.mesh.all s.inDomain = true → Sys2Proof.Machine.exec (.collectiveFailure k 4) s = .next (s.collFail k 4)) ∧
  (∀ k c, running s k c → s.collLost c = true → Sys2Proof.Machine.exec (.collectiveFailure k 3) s = .next (s.collFail k 3)) ∧
  (∀ k c m d, running s k c → m ∈ c.others →
    (d ≠ collDigest c → Sys2Proof.Machine.exec (.digestExchange k m d) s = .next (s.collFail k 1)) ∧
    (d = collDigest c → m ∉ c.digests → Sys2Proof.Machine.exec (.digestExchange k m d) s = .next ((s.setInst k { c with digests := m :: c.digests }).collRun k))))

namespace Sys2Proof.Rules
/-- The mailbox is idle and serves every command: STATE 3, the host attached, no command running (R398, R401). -/
def idle (s : State) : Prop := s.keeper.cxlDown = false ∧ s.keeper.status.st = 3 ∧ s.keeper.mailbox.busy = false
/-- The host's write of some bytes within one sector, under the key of the frame's unified leaf (R396). -/
def hostPut (s : State) (d : Nat) (bs : List Byte) : State := s.devWrite none (s.hostKey d) d bs false
/-- A reflection issued through a transmit entry is outstanding (R354). -/
def stillOut (s : State) (e : BitVec 512) : Prop :=
  ∃ f ∈ s.fabric.net, (∃ r, f.cargo = .refl r) ∧ txHolds e f.ctx f.va.toNat 1 = true
/-- The teams that stand on a core. -/
def teamsOn (s : State) (c : Nat) : List Nat :=
  (s.lantern.teams.filter fun p => p.2.core == c && (p.2.st == .resident || p.2.st == .halted)).map (·.1)
/-- A core out of service, before its teams are looked at (R333, R397). -/
def outOfService (s : State) (c : Nat) : State :=
  { s.setCore c { s.core c with failed := true } with
    keeper := { s.keeper with status := { s.keeper.status with ncore := s.keeper.status.ncore - 1 } } }
/-- A team of a failed core: a record of source 8; a lost one's grid is aborted, another is suspended with its gang and scarred (R333). -/
def offFailed (c : Nat) (lost : List Nat) (s : State) (t : Nat) : State :=
  let u := s.record { cause := .uncorrectable, src := 8, ctx := s.teamCtx t, addr := 0, detail := BitVec.ofNat 32 c }
  if t ∈ lost then u.abortGrid (u.team t).grid else (u.suspendGang t).scarTeam t
/-- The lines of HBM4E that a failed slice held dirty, poisoned (R334). -/
def poisonedLines (m : Mem) (ls : List Nat) : Mem := ls.foldl (fun m l => (List.range 4).foldl (fun m k => m.harm (4 * l + k)) m) m
/-- A command is accepted (R398): its effect is made, MBCMD holds it, BUSY is set, and the status it will answer is this one. -/
def takesCommand (i : Instr) (s : State) (code ctx : Nat) (after : State) (status : Nat) : Prop :=
  Sys2Proof.Machine.exec i s = .next { after with keeper := { after.keeper with
    mailbox := { after.keeper.mailbox with cmd := mbCmd code ctx, busy := true, answer := status } } }
/-- The frames of a leaf that is not a peer's. -/
def leafFrames (x : Nat) : List Nat := framesOf (if leafApt x = 1 then vaultFrame0 + leafFrame x else leafFrame x) (x.testBit 61)
/-- What a start takes (R8, R403): a binding of distinct cores, and a failing step of 1 to 6 if any. -/
def startable (x : StartInputs) : Prop := sparesOk x.spares = true ∧ ∀ k, x.fails = some k → 1 ≤ k ∧ k ≤ 6
/-- What a start that has begun leaves: nothing of contexts, keys, queues, work, engines, scratch or flights (R403, R404). -/
def startBegun (t : State) (b : Starting) : Prop :=
  t.keeper.starting = some b ∧ t.lantern.grids = [] ∧ t.lantern.teams = [] ∧ t.lantern.queues = [] ∧ t.keeper.ctxs = [] ∧ t.keeper.keys = [] ∧
    t.fabric.net = [] ∧ t.posted = [] ∧ ∀ p ∈ t.cores, p.2.groups = [] ∧ p.2.engines = [] ∧ p.2.scr = {}
end Sys2Proof.Rules

/-- R212, R215, R216, R332 to R335, R395 to R406: failures in service, host accesses, the mailbox commands, the starts, power and
management.  The model's choices: MAP answers status 1 where no frame is free for a table (log entry 13), a command on a context that does
not stand answers 2 (59), what a WARM and the starts leave and that the step at which a WARM fails is a free value (55), the trip (42; the
clock's rise back is the model's and is stated as a bound only), that LAYER_DONE, MAP and the rest act when they are accepted (67), that WIN_SET
takes a receive or an exposure entry whatever its reserved fields hold (76, DESIGN CHOICE), and what UNMAP waits for (77). -/
def Obligations.FailureAndHostEvents : Prop := ∀ s : State,
  (∀ v r, v < 216 → r ∉ (s.core v).sparedRows → Sys2Proof.Machine.exec (.vaultRowSparing v r) s =
    .next (s.setCore v { s.core v with sparedRows := r :: (s.core v).sparedRows })) ∧
  (∀ k c, k < 12 → (∀ p ∈ s.keeper.sparedChannels, p.1 ≠ k) → Sys2Proof.Machine.exec (.hbmChannelFailure k c) s =
    .next { s with keeper := { s.keeper with sparedChannels := (k, c) :: s.keeper.sparedChannels } }) ∧
  (∀ k l, k < 12 → (k, l) ∉ s.fabric.lostLanes → Sys2Proof.Machine.exec (.dieLinkLaneFailure k l) s =
    .next { s with fabric := { s.fabric with lostLanes := (k, l) :: s.fabric.lostLanes } }) ∧
  (∀ p, p < 24 → p ∉ s.fabric.deadPorts → Sys2Proof.Machine.exec (.ualinkPortFailure p) s =
    .next { s with fabric := { s.fabric with deadPorts := p :: s.fabric.deadPorts, ports := s.fabric.ports.filter (· != p) } }) ∧
  (∀ c lost, c < 216 → (s.core c).failed = false → (∀ p ∈ s.lantern.teams, p.2.core = c → p.2.st ≠ .resident ∧ p.2.st ≠ .halted) →
    ∃ t : State, Sys2Proof.Machine.exec (.coreFailure c lost) s = .next t ∧ (t.core c).failed = true ∧ (t.core c).l1 = [] ∧ (t.core c).tlb = [] ∧
      t.keeper.status.ncore = s.keeper.status.ncore - 1 ∧ ∀ k, k ≠ c → t.core k = s.core k) ∧
  (∀ c lost, c < 216 → (s.core c).failed = false → let u := (teamsOn s c).foldl (offFailed c lost) (outOfService s c)
    Sys2Proof.Machine.exec (.coreFailure c lost) s = .next (u.setCore c { u.core c with l1 := [], tlb := [] })) ∧
  (∀ t (v : Saved), (s.team t).saved = some v → ∃ w : Saved, ((s.scarTeam t).team t).saved = some w ∧ w.scr = v.scr ∧ w.groups.map (·.1) = v.groups.map (·.1) ∧
    (∀ g ∈ w.groups, ∀ l ∈ g.2.lanes, l.2.mode ≠ .exited → l.2.pend = some (.uncorrectable, 0xFFFFFFFFFFFFFFFF)) ∧
    ∀ e ∈ w.engines, e.2.poisoned = List.range 256) ∧
  (∀ c (u : State), c < 216 → (s.core c).vaultFailed = false →
    ((s.core c).failed = true ∧ u = s ∨ (s.core c).failed = false ∧ Sys2Proof.Machine.exec (.coreFailure c []) s = .next u) →
    let v : State := ((u.lantern.teams.filter fun p => p.2.st == .resident).map (·.1)).foldl State.suspendGang u
    let w : State := { v with dirty := [], mem := poisonedLines v.mem ((v.dirty.filter fun p => p.2 == c).map (·.1)) }
    let w : State := w.setCore c { w.core c with vaultFailed := true }
    Sys2Proof.Machine.exec (.vaultFailure c) s = .next (w.keeper.ctxs.foldl (fun y p => (y.vaultPages c 4 p.2.root 0).foldl (fun y va =>
      (y.setLeaf p.1 va (· - 1)).record
        { cause := .uncorrectable, src := 8, ctx := p.1, addr := BitVec.ofNat 64 va, detail := BitVec.ofNat 32 c }) y) w)) ∧
  (∀ c, c < 216 → (s.core c).vaultFailed = false → (∀ p ∈ s.lantern.teams, p.2.st ≠ .resident ∧ p.2.st ≠ .halted) → s.keeper.ctxs = [] →
    ∃ t : State, Sys2Proof.Machine.exec (.vaultFailure c) s = .next t ∧ (t.core c).vaultFailed = true ∧ (t.core c).failed = true ∧ t.dirty = [] ∧
      ∀ p ∈ s.dirty, p.2 = c → ∀ k, k < 4 → (t.mem.sector (128 * p.1 + 32 * k)).poison = true) ∧
  (s.keeper.pair.standby = false → ∃ t : State, Sys2Proof.Machine.exec .heartbeatTakeover s = .next t ∧ t.keeper.pair.standby = true ∧
    t.keeper.pair.takeovers = s.keeper.pair.takeovers + 1 ∧ t.cores = s.cores ∧ t.mem = s.mem ∧ t.lantern.grids = s.lantern.grids ∧
    t.lantern.teams = s.lantern.teams) ∧
  (Sys2Proof.Machine.exec .cxlPortFailure s = .next { s with keeper := { s.keeper with cxlDown := true } }) ∧
  (∀ k, Sys2Proof.Machine.exec (.patrolScrub k) s = .next { s with keeper := { s.keeper with corrected := s.keeper.corrected + 1 } }) ∧
  (s.keeper.cxlDown = false → ∀ hpa a,
    (∀ d, hdmOff s.keeper.hdm0 hdm0Size hpa (hostLen a) = some d →
      (∀ n, a = .read n → Sys2Proof.Machine.exec (.hostMemAccess hpa a) s = .next { s with keeper := { s.keeper with
        hostOut := (List.range n).map fun i => s.mem.getKey (s.hostKey (d + i)) (d + i) } }) ∧
      ∀ bs, a = .write bs → Sys2Proof.Machine.exec (.hostMemAccess hpa a) s =
        .next ((splitSecs (bs.length + 1) d bs).foldl (fun t p => hostPut t p.1 p.2) s)) ∧
    (hdmOff s.keeper.hdm0 hdm0Size hpa (hostLen a) = none → hdmOff s.keeper.hdm1 hdm1Size hpa (hostLen a) = none →
      (∀ o, hdmOff s.keeper.bar0 bar0Size hpa (hostLen a) = some o →
        (∀ n, a = .read n → ∃ t : State, Sys2Proof.Machine.exec (.hostMemAccess hpa a) s = .next t ∧
          t.keeper.hostOut = (List.range n).map fun i => s.bar0Byte (o + i)) ∧
        ∀ q (w : Word), q < 64 → o = 0x10000 + 8 * q → a = .write (toBytesLE 4 w.toNat) →
          Sys2Proof.Machine.exec (.hostMemAccess hpa a) s = .next (s.ring q w)) ∧
      (hdmOff s.keeper.bar0 bar0Size hpa (hostLen a) = none → Sys2Proof.Machine.exec (.hostMemAccess hpa a) s = .fault (.noSuchAddress hpa)))) ∧
  (∀ d (bs : List Byte), (∀ p ∈ splitSecs (bs.length + 1) d bs, p.2 ≠ [] ∧ p.1 % 32 + p.2.length ≤ 32) ∧
    (splitSecs (bs.length + 1) d bs).flatMap (fun p => p.2.zipIdx.map fun b => (p.1 + b.2, b.1)) = bs.zipIdx.map fun b => (d + b.2, b.1)) ∧
  (∀ d (bs : List Byte), bs ≠ [] → d % 32 + bs.length ≤ 32 → let m := (hostPut s d bs).mem
    (∀ i, i < bs.length → m.getKey (s.hostKey d) (d + i) = bs.getD i 0) ∧
    (∀ a, (a < d ∨ d + bs.length ≤ a) → m.getKey (s.hostKey d) a = s.mem.getKey (s.hostKey d) a) ∧
    ∀ a k, a / 32 ≠ d / 32 → m.getKey k a = s.mem.getKey k a) ∧
  (∀ i, i < 8 → s.bar0Byte i = BitVec.ofNat 8 (s.keeper.status.word / 2 ^ (8 * i))) ∧
  (∀ hpa v x, s.keeper.cxlDown = false → hdmOff s.keeper.hdm1 hdm1Size hpa 1 = some x →
    ∃ t, Sys2Proof.Machine.exec (.scaleViewWrite hpa v) s = .next t ∧ t.devSlot (32 * (x / 2)) (x % 2) = v) ∧
  (idle s →
    (∀ c x, takesCommand (.ctxCreate c x) s 0x01 c (s.ctxCreate c x).1 (s.ctxCreate c x).2) ∧
    (∀ c (x : CtxParams), c < 65536 → Tbl.find s.keeper.ctxs c = none → x.root % 32768 = 0 → x.root + 32768 ≤ hbmFrames * 65536 → x.prio < 16 →
      x.eclass < 16 → x.nlayer ≤ 4096 → x.tmbase % 4096 = 0 → x.tvec.toNat % 4 = 0 →
      ((∃ q ∈ s.lantern.queues, q.2.ctx.toNat = c ∧ x.prio < q.2.prio.toNat) → takesCommand (.ctxCreate c x) s 0x01 c s 1) ∧
      ((∀ q ∈ s.lantern.queues, q.2.ctx.toNat = c → q.2.prio.toNat ≤ x.prio) → ∃ t, takesCommand (.ctxCreate c x) s 0x01 c t 0 ∧
        (t.ctx c).root = x.root ∧ (t.ctx c).prio = x.prio ∧ (t.ctx c).eclass = x.eclass ∧ (t.ctx c).nlayer = x.nlayer ∧ (t.ctx c).tvec = x.tvec ∧
        (t.ctx c).seed = x.seed)) ∧
    (∀ c x, takesCommand (.ctxSet c x) s 0x02 c (s.ctxSet c x).1 (s.ctxSet c x).2) ∧
    (∀ c, s.hasCtx c = false → takesCommand (.ctxDestroy c) s 0x03 c s 2) ∧
    (∀ c, s.hasCtx c = true → (∀ p ∈ s.lantern.grids, p.2.ctx ≠ c) →
      takesCommand (.ctxDestroy c) s 0x03 c ((s.setCtx c { s.ctx c with dying := true }).reapCtx c) 0) ∧
    (∀ c va leaf, let x := leaf.toNat - (leaf.toNat &&& 96)
      (s.hasCtx c = false ∨ leafFormed x = false → takesCommand (.map c va leaf) s 0x10 c s 2) ∧
      (s.hasCtx c = true → leafFormed x = true → s.leafSound c va.toNat x = false → takesCommand (.map c va leaf) s 0x10 c s 1) ∧
      (s.hasCtx c = true → leafFormed x = true → s.canInstall c va.toNat (x.testBit 61) = false → takesCommand (.map c va leaf) s 0x10 c s 1) ∧
      (s.hasCtx c = true → leafFormed x = true → s.leafSound c va.toNat x = true → leafPrv x = false →
        s.canInstall c va.toNat (x.testBit 61) = true → ∃ t, takesCommand (.map c va leaf) s 0x10 c t 0 ∧
          (leafApt x = 5 → t = s.install c va.toNat x (x.testBit 61)) ∧
          (leafApt x ≠ 5 → ∀ f ∈ leafFrames x, f ∈ (t.ctx c).frames ∧ f ∈ t.keeper.usedFrames))) ∧
    (∀ c va, s.hasCtx c = true → let t := (s.setLeaf c va.toNat fun _ => 0).doTlbi va.toNat c
      takesCommand (.unmap c va) s 0x11 c
        { t with keeper := { t.keeper with mailbox := { t.keeper.mailbox with unmapping := some (c, va.toNat) } } } 0) ∧
    (∀ c va, s.hasCtx c = true → takesCommand (.xlate c va) s 0x12 c
      { s with keeper := { s.keeper with mailbox := { s.keeper.mailbox with 
        payload := (toBytesLE 8 (s.pinfo none c va.toNat)).zipIdx.foldl (fun t (b, i) => Tbl.put t i b) s.keeper.mailbox.payload } } } 0) ∧
    (∀ k pair, 1 ≤ k → k < 1024 →
      takesCommand (.keyLoad k pair) s 0x20 0 { s with keeper := { s.keeper with keys := Tbl.put s.keeper.keys k pair } } 0 ∧
      takesCommand (.keyClear k) s 0x21 0 { s with keeper := { s.keeper with keys := Tbl.del s.keeper.keys k } } 0) ∧
    (∀ k e, k < 1024 → takesCommand (.winSet (.rx k e)) s 0x30 0 { s with fabric := { s.fabric with rx := Tbl.put s.fabric.rx k e } } 0) ∧
    (∀ k e, k < 1024 → s.txOk k e = true → (stillOut s (Tbl.get s.fabric.tx k 0) → takesCommand (.winSet (.tx k e)) s 0x30 0 s 1) ∧
      (¬stillOut s (Tbl.get s.fabric.tx k 0) →
        takesCommand (.winSet (.tx k e)) s 0x30 0 { s with fabric := { s.fabric with tx := Tbl.put s.fabric.tx k e } } 0)) ∧
    (∀ k (ids : List Nat), k < 256 → ids.length ≤ 64 → (∀ d ∈ ids, d < 4096) →
      let busy := ∃ p ∈ s.fabric.tx, txAt p.2 1 1 = 1 ∧ txAt p.2 263 256 = k ∧ stillOut s p.2
      (busy → takesCommand (.winSet (.multicast k ids)) s 0x30 0 s 1) ∧
      (¬busy → takesCommand (.winSet (.multicast k ids)) s 0x30 0 { s with fabric := { s.fabric with mcast := Tbl.put s.fabric.mcast k ids } } 0)) ∧
    (∀ k e, k < 256 → takesCommand (.winSet (.exposure k e)) s 0x30 0 { s with fabric := { s.fabric with expo := Tbl.put s.fabric.expo k e } } 0) ∧
    (∀ q (x : QueueFields), q < 64 → s.hasCtx x.ctx.toNat = true → x.base.toNat % 64 = 0 → x.nslot ≠ 0 →
      ((s.ctx x.ctx.toNat).prio < x.prio.toNat → takesCommand (.queueSet q x) s 0x40 0 s 1) ∧
      (x.prio.toNat ≤ (s.ctx x.ctx.toNat).prio → takesCommand (.queueSet q x) s 0x40 0
        (s.setQueue q { s.queue q with base := x.base, nslot := x.nslot, prio := x.prio, en := x.en, ctx := x.ctx, wptr := x.wptr }) 0)) ∧
    (∀ q, q < 64 → let c := (s.queue q).ctx.toNat
      (s.hasCtx c = true → (s.ctx c).prio < (s.queue q).prio.toNat → takesCommand (.queueClear q) s 0x41 0 s 1) ∧
      (s.hasCtx c = false ∨ (s.queue q).prio.toNat ≤ (s.ctx c).prio →
        takesCommand (.queueClear q) s 0x41 0 (s.setQueue q { s.queue q with err := false, ecode := 0, en := true }) 0)) ∧
    (∀ c l, arriving s c l → ((s.ctx c).source l).peer = none → takesCommand (.layerDone c l) s 0x51 c (s.landLayer c l) 0) ∧
    (∀ c l, ¬arriving s c l → takesCommand (.layerDone c l) s 0x51 c s 2) ∧
    (∀ off data, data.length ≤ 4032 → takesCommand (.fwWrite off data) s 0x60 0 { s with keeper := { s.keeper with fw := { s.keeper.fw with
      image := data.zipIdx.foldl (fun t (b, i) => Tbl.put t (off + i) b) s.keeper.fw.image } } } 0) ∧
    (∀ d, (d = s.imageDigest → takesCommand (.fwCommit d) s 0x61 0
        { s with keeper := { s.keeper with fw := { s.keeper.fw with digest := some d } } } 0) ∧
      (d ≠ s.imageDigest → takesCommand (.fwCommit d) s 0x61 0 s 2)) ∧
    (∀ p, takesCommand (.warm p) s 0x70 0 (s.warmStart p s.sameInputs) 0) ∧
    (∀ k, s.sameInputs.fails = some k → 1 ≤ k ∧ k ≤ 6) ∧
    ∀ code : BitVec 32, code.toNat % 65536 ∉ mailboxCodes → takesCommand (.mailboxUnknownCode code) s (code.toNat % 65536) (code.toNat / 65536) s 2) ∧
  (let m := { s.keeper.mailbox with unmapping := none };
    (∀ c va, s.keeper.mailbox.unmapping = some (c, va) → s.tlbiBusy va c = true → s.turn .mbAnswer = .next s) ∧
    (m.busy = true → (∀ c va, s.keeper.mailbox.unmapping = some (c, va) → s.tlbiBusy va c = false) →
      s.turn .mbAnswer = .next { s with keeper := { s.keeper with mailbox := { m with busy := false, status := m.answer, unread := true } } })) ∧
  (∀ c x, s.keeper.cxlDown = false → s.keeper.status.st = 3 → s.keeper.mailbox.busy = true →
    Sys2Proof.Machine.exec (.ctxCreate c x) s = .next { s with keeper := { s.keeper with mailbox := { s.keeper.mailbox with missed := true } } }) ∧
  (∀ off v, Sys2Proof.Machine.exec (.bar0WriteIgnored off v) s = .next s) ∧
  (∀ x, startable x →
    (∃ t : State, Sys2Proof.Machine.exec (.coldStart x) s = .next t ∧ startBegun t ⟨false, false, x⟩ ∧ t.keeper.status = { st := 1, stepNo := 1, ncore := 216 } ∧
      t.keeper.cxlDown = false) ∧
    (∀ keep, s.keeper.power.tripped = false → ∃ t : State, Sys2Proof.Machine.exec (.warmReset keep x) s = .next t ∧ startBegun t ⟨true, keep, x⟩ ∧
      t.keeper.status = { st := 2, stepNo := 1, ncore := 216 } ∧ (∀ p, p ∈ t.mem.bytes ↔ p ∈ s.mem.bytes ∧ isVault p.1 = false) ∧
      ∀ p, p ∈ t.mem.sectors ↔ p ∈ s.mem.sectors ∧ isVault (32 * p.1) = false) ∧
    ∀ keep, s.keeper.power.tripped = true → Sys2Proof.Machine.exec (.warmReset keep x) s = .next s) ∧
  (∀ b, s.keeper.starting = some b → let k := s.keeper.status.stepNo
    (b.x.fails = some k → (b.warm = false ∨ k ≠ 4) → ∃ t : State, s.turn .startStep = .next t ∧ t.keeper.starting = none ∧
      t.keeper.status = { s.keeper.status with st := 5, ecode := k } ∧ t.mem = s.mem) ∧
    ((b.x.fails ≠ some k ∨ (b.warm = true ∧ k = 4)) → k < 6 → ∃ t : State, s.turn .startStep = .next t ∧ t.keeper.starting = some b ∧
      t.keeper.status.st = s.keeper.status.st ∧ t.keeper.status.stepNo = k + 1 ∧
      (k = 3 → t.keeper.status.presv = b.preserve ∧ t.mem = if b.preserve then s.mem else {}) ∧ (k ≠ 3 → t.mem = s.mem) ∧
      (k = 5 → b.warm = false → t.fabric.devId = if b.x.panel then b.x.devId else 0)) ∧
    (b.x.fails ≠ some k → k = 6 → ∃ t : State, s.turn .startStep = .next t ∧ t.keeper.starting = none ∧
      t.keeper.status.presv = s.keeper.status.presv ∧
      (s.imageGood = true → t.keeper.status.st = 3 ∧ t.keeper.status.ncore = s.keeper.status.ncore ∧ t.keeper.fw.running = s.keeper.fw.digest) ∧
      (s.imageGood = false → t.keeper.status.st = 4 ∧ t.keeper.status.ecode = 1))) ∧
  (s.keeper.cxlDown = false →
    Sys2Proof.Machine.exec (.managementRead .status) s = .next { s with keeper := { s.keeper with mgmtOut := [s.keeper.status.word] } } ∧
    Sys2Proof.Machine.exec (.managementRead .power) s =
      .next { s with keeper := { s.keeper with mgmtOut := [s.keeper.power.watts, s.keeper.power.plim] } } ∧
    (∃ t : State, Sys2Proof.Machine.exec (.managementRead .temperatures) s = .next t ∧
      t.keeper.mgmtOut = (List.range 216).map fun c => Config.temperature c s.now)) ∧
  (∀ w, s.keeper.cxlDown = false → s.keeper.status.st ≠ 4 →
    (1200 ≤ w → w ≤ 2800 → Sys2Proof.Machine.exec (.plimWrite w) s =
      .next { s with keeper := { s.keeper with power := { s.keeper.power with plim := w } } }) ∧
    (w < 1200 ∨ 2800 < w → Sys2Proof.Machine.exec (.plimWrite w) s = .next s)) ∧
  (s.keeper.cxlDown = false → s.keeper.status.st ≠ 4 → Sys2Proof.Machine.exec .coldResetRequest s =
    .next { s with keeper := { s.keeper with power := { s.keeper.power with coldReq := true } } }) ∧
  (s.keeper.cxlDown = true → (∀ what, Sys2Proof.Machine.exec (.managementRead what) s = .next s) ∧
    (∀ w, Sys2Proof.Machine.exec (.plimWrite w) s = .next s) ∧ Sys2Proof.Machine.exec .coldResetRequest s = .next s) ∧
  (∀ w, ∃ t : State, Sys2Proof.Machine.exec (.powerWindow w) s = .next t ∧ t.keeper.power.watts = w ∧
    (s.keeper.power.plim < w → 200 ≤ s.keeper.power.clockMHz → t.keeper.power.clockMHz + 100 = s.keeper.power.clockMHz) ∧
    (s.keeper.power.clockMHz ≤ 2500 → t.keeper.power.clockMHz ≤ 2500)) ∧
  (∀ c, c < 216 → Sys2Proof.Machine.exec (.temperatureHot c) s = .next (s.setCore c { s.core c with hot := true })) ∧
  (∃ t : State, Sys2Proof.Machine.exec .temperatureTrip s = .next t ∧ t.keeper.status.st = 5 ∧ t.lantern.teams = [] ∧ t.lantern.grids = [] ∧
    t.serving = false ∧ ∀ p ∈ t.cores, p.2.groups = [] ∧ p.2.engines = []) ∧
  (s.keeper.cxlDown = false → s.keeper.mailbox.busy = false → s.keeper.mailbox.unread = true →
    ∃ t : State, Sys2Proof.Machine.exec .mbstsRead s = .next t ∧ t.keeper.hostOut = toBytesLE 8 s.keeper.mailbox.word.toNat ∧
      t.keeper.mailbox.unread = false ∧ t.keeper.mailbox.missed = false ∧
      t.keeper.mailbox.status = if s.keeper.mailbox.missed then 3 else s.keeper.mailbox.status) ∧
  (∀ base, s.keeper.cxlDown = false →
    Sys2Proof.Machine.exec (.hdmDecoderWrite 0 base) s = .next { s with keeper := { s.keeper with bar0 := base } } ∧
    Sys2Proof.Machine.exec (.hdmDecoderWrite 1 base) s = .next { s with keeper := { s.keeper with hdm0 := base } } ∧
    Sys2Proof.Machine.exec (.hdmDecoderWrite 2 base) s = .next { s with keeper := { s.keeper with hdm1 := base } }) ∧
  ∀ c vm, c < 216 → vm ≤ 4 → (s.core c).vaultFailed = false → s.keeper.ctxs = [] →
    (∀ f ∈ s.keeper.usedFrames, f < vaultFrame0 + 64 * c ∨ vaultFrame0 + 64 * c + 64 ≤ f) →
    ∃ t : State, Sys2Proof.Machine.exec (.vaultSplitChange c vm) s = .next t ∧ (t.core c).vm = vm ∧ (∀ p ∈ t.dirty, p.2 ≠ c) ∧
      ∀ k, k ≠ c → t.core k = s.core k
end

