-- ==== Sys2Proof/Laws/Tbl.lean ====
section
/-! SUPPORT. Finite tables: what is found after an update, and that updates keep the keys rising. -/
namespace Sys2Proof.Machine

variable {α β : Type}

@[simp] theorem Tbl.find_nil (k : Nat) : Tbl.find ([] : Tbl α) k = none := rfl
theorem Tbl.find_cons (i : Nat) (v : α) (t : Tbl α) (k : Nat) : Tbl.find ((i, v) :: t) k = if i = k then some v else Tbl.find t k := rfl
@[simp] theorem Tbl.find_put_same (t : Tbl α) (k : Nat) (v : α) : Tbl.find (Tbl.put t k v) k = some v := by
  induction t with
  | nil => simp [Tbl.put, Tbl.find]
  | cons p t ih =>
    obtain ⟨i, w⟩ := p
    unfold Tbl.put
    split
    · simp [Tbl.find]
    · split
      · simp [Tbl.find]
      · rename_i h _; simp [Tbl.find, h, ih]
theorem Tbl.find_put (t : Tbl α) (k j : Nat) (v : α) : Tbl.find (Tbl.put t k v) j = if k = j then some v else Tbl.find t j := by
  by_cases h : k = j
  · subst h; simp
  · simp only [h, if_false]
    induction t with
    | nil => simp [Tbl.put, Tbl.find, h]
    | cons p t ih =>
      obtain ⟨i, w⟩ := p
      unfold Tbl.put
      split
      · rename_i e; subst e; simp [Tbl.find, h]
      · split
        · simp [Tbl.find, h]
        · simp [Tbl.find, ih]
@[simp] theorem Tbl.find_put_ne {t : Tbl α} {k j : Nat} {v : α} (h : k ≠ j) : Tbl.find (Tbl.put t k v) j = Tbl.find t j := by
  simp [Tbl.find_put, h]
theorem Tbl.find_del (t : Tbl α) (k j : Nat) : Tbl.find (Tbl.del t k) j = if k = j then none else Tbl.find t j := by
  induction t with
  | nil => simp [Tbl.del]
  | cons p t ih =>
    obtain ⟨i, w⟩ := p
    unfold Tbl.del
    split
    · rename_i e; subst e; rw [ih]; simp only [Tbl.find]; split <;> rfl
    · simp only [Tbl.find, ih]
      split
      · rename_i h e; subst e; simp [Ne.symm h]
      · rfl
@[simp] theorem Tbl.get_put_same (t : Tbl α) (k : Nat) (v d : α) : Tbl.get (Tbl.put t k v) k d = v := by simp [Tbl.get]
@[simp] theorem Tbl.get_put_ne {t : Tbl α} {k j : Nat} {v d : α} (h : k ≠ j) : Tbl.get (Tbl.put t k v) j d = Tbl.get t j d := by
  simp [Tbl.get, h]
theorem Tbl.get_put (t : Tbl α) (k j : Nat) (v d : α) : Tbl.get (Tbl.put t k v) j d = if k = j then v else Tbl.get t j d := by
  simp only [Tbl.get, Tbl.find_put]; split <;> rfl
@[simp] theorem Tbl.get_upd_same (t : Tbl α) (k : Nat) (d : α) (f : α → α) : Tbl.get (Tbl.upd t k d f) k d = f (Tbl.get t k d) := by
  simp [Tbl.upd]
@[simp] theorem Tbl.get_upd_ne {t : Tbl α} {k j : Nat} {d e : α} {f : α → α} (h : k ≠ j) : Tbl.get (Tbl.upd t k d f) j e = Tbl.get t j e := by
  simp [Tbl.upd, h]
theorem Tbl.get_del (t : Tbl α) (k j : Nat) (d : α) : Tbl.get (Tbl.del t k) j d = if k = j then d else Tbl.get t j d := by
  simp only [Tbl.get, Tbl.find_del]; split <;> rfl
theorem Tbl.find_mapV (t : Tbl α) (f : Nat → α → α) (k : Nat) : Tbl.find (Tbl.mapV t f) k = (Tbl.find t k).map (f k) := by
  induction t with
  | nil => rfl
  | cons p t ih =>
    obtain ⟨i, w⟩ := p
    simp only [Tbl.mapV, List.map_cons, Tbl.find_cons]
    split
    · rename_i e; subst e; rfl
    · exact ih
/-- A put over a put of the same key. -/
@[simp] theorem Tbl.put_put (t : Tbl α) (k : Nat) (v w : α) : Tbl.put (Tbl.put t k v) k w = Tbl.put t k w := by
  induction t with
  | nil => simp [Tbl.put]
  | cons p t ih =>
    obtain ⟨i, x⟩ := p
    by_cases e : i = k
    · simp [Tbl.put, e]
    · by_cases e2 : k < i
      · simp [Tbl.put, e, e2]
      · simp [Tbl.put, e, e2, ih]

/-! ### Rising keys -/
/-- Every key is above a bound. -/
def Tbl.above (n : Nat) (t : Tbl α) : Prop := ∀ p ∈ t, n < p.1
theorem Tbl.sorted_cons (i : Nat) (v : α) (t : Tbl α) : Tbl.sorted ((i, v) :: t) = true ↔ Tbl.above i t ∧ Tbl.sorted t = true := by
  induction t generalizing i v with
  | nil => simp [Tbl.sorted, Tbl.above]
  | cons p t ih =>
    obtain ⟨j, w⟩ := p
    simp only [Tbl.sorted, Bool.and_eq_true, decide_eq_true_eq]
    constructor
    · intro ⟨h1, h2⟩
      refine ⟨?_, h2⟩
      intro q hq
      rcases List.mem_cons.mp hq with rfl | hq
      · exact h1
      · exact Nat.lt_trans h1 (((ih j w).mp h2).1 q hq)
    · intro ⟨h1, h2⟩
      exact ⟨h1 (j, w) (by simp), h2⟩
theorem Tbl.mem_put {t : Tbl α} {k : Nat} {v : α} {p : Nat × α} (h : p ∈ Tbl.put t k v) : p = (k, v) ∨ p ∈ t := by
  induction t with
  | nil => simpa [Tbl.put] using h
  | cons q t ih =>
    obtain ⟨i, w⟩ := q
    unfold Tbl.put at h
    split at h
    · rcases List.mem_cons.mp h with rfl | h
      · exact .inl rfl
      · exact .inr (List.mem_cons_of_mem _ h)
    · split at h
      · rcases List.mem_cons.mp h with rfl | h
        · exact .inl rfl
        · exact .inr h
      · rcases List.mem_cons.mp h with rfl | h
        · exact .inr (List.mem_cons_self ..)
        · rcases ih h with rfl | h
          · exact .inl rfl
          · exact .inr (List.mem_cons_of_mem _ h)
theorem Tbl.sorted_put {t : Tbl α} (h : Tbl.sorted t = true) (k : Nat) (v : α) : Tbl.sorted (Tbl.put t k v) = true := by
  induction t with
  | nil => rfl
  | cons p t ih =>
    obtain ⟨i, w⟩ := p
    obtain ⟨h1, h2⟩ := (Tbl.sorted_cons i w t).mp h
    unfold Tbl.put
    split
    · rename_i e; subst e; exact (Tbl.sorted_cons ..).mpr ⟨h1, h2⟩
    · split
      · rename_i hlt
        refine (Tbl.sorted_cons ..).mpr ⟨?_, h⟩
        intro q hq
        rcases List.mem_cons.mp hq with rfl | hq
        · exact hlt
        · exact Nat.lt_trans hlt (h1 q hq)
      · refine (Tbl.sorted_cons ..).mpr ⟨?_, ih h2⟩
        intro q hq
        rcases Tbl.mem_put hq with rfl | hq
        · show i < k; omega
        · exact h1 q hq
theorem Tbl.mem_del {t : Tbl α} {k : Nat} {p : Nat × α} (h : p ∈ Tbl.del t k) : p ∈ t := by
  induction t with
  | nil => exact h
  | cons q t ih =>
    obtain ⟨i, w⟩ := q
    unfold Tbl.del at h
    split at h
    · exact List.mem_cons_of_mem _ (ih h)
    · rcases List.mem_cons.mp h with rfl | h
      · exact List.mem_cons_self ..
      · exact List.mem_cons_of_mem _ (ih h)
theorem Tbl.sorted_del {t : Tbl α} (h : Tbl.sorted t = true) (k : Nat) : Tbl.sorted (Tbl.del t k) = true := by
  induction t with
  | nil => rfl
  | cons p t ih =>
    obtain ⟨i, w⟩ := p
    obtain ⟨h1, h2⟩ := (Tbl.sorted_cons i w t).mp h
    unfold Tbl.del
    split
    · exact ih h2
    · exact (Tbl.sorted_cons ..).mpr ⟨fun q hq => h1 q (Tbl.mem_del hq), ih h2⟩
theorem Tbl.sorted_filter {t : Tbl α} (h : Tbl.sorted t = true) (f : Nat × α → Bool) : Tbl.sorted (t.filter f) = true := by
  induction t with
  | nil => rfl
  | cons p t ih =>
    obtain ⟨i, w⟩ := p
    obtain ⟨h1, h2⟩ := (Tbl.sorted_cons i w t).mp h
    simp only [List.filter_cons]
    split
    · exact (Tbl.sorted_cons ..).mpr ⟨fun q hq => h1 q ((List.mem_filter.mp hq).1), ih h2⟩
    · exact ih h2

end Sys2Proof.Machine
end

