-- ==== Sys2Proof/Laws/State.lean ====
section
/-! SUPPORT. What each named update of the state leaves alone, field by field, and what it makes of the part it writes. -/
namespace Sys2Proof.Machine

/-! ### The fields an update leaves alone -/
@[simp] theorem State.setCore_mem (s : State) (c : Nat) (x : Core) : (s.setCore c x).mem = s.mem := rfl
@[simp] theorem State.setCore_dirty (s : State) (c : Nat) (x : Core) : (s.setCore c x).dirty = s.dirty := rfl
@[simp] theorem State.setCore_lantern (s : State) (c : Nat) (x : Core) : (s.setCore c x).lantern = s.lantern := rfl
@[simp] theorem State.setCore_keeper (s : State) (c : Nat) (x : Core) : (s.setCore c x).keeper = s.keeper := rfl
@[simp] theorem State.setCore_fabric (s : State) (c : Nat) (x : Core) : (s.setCore c x).fabric = s.fabric := rfl
@[simp] theorem State.setCore_merge (s : State) (c : Nat) (x : Core) : (s.setCore c x).merge = s.merge := rfl
@[simp] theorem State.setCore_posted (s : State) (c : Nat) (x : Core) : (s.setCore c x).posted = s.posted := rfl
@[simp] theorem State.setCore_nextPost (s : State) (c : Nat) (x : Core) : (s.setCore c x).nextPost = s.nextPost := rfl
@[simp] theorem State.setCore_nextTxn (s : State) (c : Nat) (x : Core) : (s.setCore c x).nextTxn = s.nextTxn := rfl
@[simp] theorem State.setCore_nextFlight (s : State) (c : Nat) (x : Core) : (s.setCore c x).nextFlight = s.nextFlight := rfl
@[simp] theorem State.setCore_now (s : State) (c : Nat) (x : Core) : (s.setCore c x).now = s.now := rfl
@[simp] theorem State.setCore_chain (s : State) (c : Nat) (x : Core) : (s.setCore c x).chain = s.chain := rfl
@[simp] theorem State.setCore_agenda (s : State) (c : Nat) (x : Core) : (s.setCore c x).agenda = s.agenda := rfl
@[simp] theorem State.setGroup_mem (s : State) (c g : Nat) (x : Group) : (s.setGroup c g x).mem = s.mem := rfl
@[simp] theorem State.setGroup_dirty (s : State) (c g : Nat) (x : Group) : (s.setGroup c g x).dirty = s.dirty := rfl
@[simp] theorem State.setGroup_lantern (s : State) (c g : Nat) (x : Group) : (s.setGroup c g x).lantern = s.lantern := rfl
@[simp] theorem State.setGroup_keeper (s : State) (c g : Nat) (x : Group) : (s.setGroup c g x).keeper = s.keeper := rfl
@[simp] theorem State.setGroup_fabric (s : State) (c g : Nat) (x : Group) : (s.setGroup c g x).fabric = s.fabric := rfl
@[simp] theorem State.setGroup_merge (s : State) (c g : Nat) (x : Group) : (s.setGroup c g x).merge = s.merge := rfl
@[simp] theorem State.setGroup_posted (s : State) (c g : Nat) (x : Group) : (s.setGroup c g x).posted = s.posted := rfl
@[simp] theorem State.setGroup_nextPost (s : State) (c g : Nat) (x : Group) : (s.setGroup c g x).nextPost = s.nextPost := rfl
@[simp] theorem State.setGroup_nextTxn (s : State) (c g : Nat) (x : Group) : (s.setGroup c g x).nextTxn = s.nextTxn := rfl
@[simp] theorem State.setGroup_nextFlight (s : State) (c g : Nat) (x : Group) : (s.setGroup c g x).nextFlight = s.nextFlight := rfl
@[simp] theorem State.setGroup_now (s : State) (c g : Nat) (x : Group) : (s.setGroup c g x).now = s.now := rfl
@[simp] theorem State.setGroup_chain (s : State) (c g : Nat) (x : Group) : (s.setGroup c g x).chain = s.chain := rfl
@[simp] theorem State.setGroup_agenda (s : State) (c g : Nat) (x : Group) : (s.setGroup c g x).agenda = s.agenda := rfl
@[simp] theorem State.setLane_mem (s : State) (c g l : Nat) (x : Lane) : (s.setLane c g l x).mem = s.mem := rfl
@[simp] theorem State.setLane_dirty (s : State) (c g l : Nat) (x : Lane) : (s.setLane c g l x).dirty = s.dirty := rfl
@[simp] theorem State.setLane_lantern (s : State) (c g l : Nat) (x : Lane) : (s.setLane c g l x).lantern = s.lantern := rfl
@[simp] theorem State.setLane_keeper (s : State) (c g l : Nat) (x : Lane) : (s.setLane c g l x).keeper = s.keeper := rfl
@[simp] theorem State.setLane_fabric (s : State) (c g l : Nat) (x : Lane) : (s.setLane c g l x).fabric = s.fabric := rfl
@[simp] theorem State.setLane_merge (s : State) (c g l : Nat) (x : Lane) : (s.setLane c g l x).merge = s.merge := rfl
@[simp] theorem State.setLane_posted (s : State) (c g l : Nat) (x : Lane) : (s.setLane c g l x).posted = s.posted := rfl
@[simp] theorem State.setLane_nextPost (s : State) (c g l : Nat) (x : Lane) : (s.setLane c g l x).nextPost = s.nextPost := rfl
@[simp] theorem State.setLane_nextTxn (s : State) (c g l : Nat) (x : Lane) : (s.setLane c g l x).nextTxn = s.nextTxn := rfl
@[simp] theorem State.setLane_nextFlight (s : State) (c g l : Nat) (x : Lane) : (s.setLane c g l x).nextFlight = s.nextFlight := rfl
@[simp] theorem State.setLane_now (s : State) (c g l : Nat) (x : Lane) : (s.setLane c g l x).now = s.now := rfl
@[simp] theorem State.setLane_chain (s : State) (c g l : Nat) (x : Lane) : (s.setLane c g l x).chain = s.chain := rfl
@[simp] theorem State.setLane_agenda (s : State) (c g l : Nat) (x : Lane) : (s.setLane c g l x).agenda = s.agenda := rfl
@[simp] theorem State.updLane_mem (s : State) (c g l : Nat) (f : Lane → Lane) : (s.updLane c g l f).mem = s.mem := rfl
@[simp] theorem State.updLane_dirty (s : State) (c g l : Nat) (f : Lane → Lane) : (s.updLane c g l f).dirty = s.dirty := rfl
@[simp] theorem State.updLane_lantern (s : State) (c g l : Nat) (f : Lane → Lane) : (s.updLane c g l f).lantern = s.lantern := rfl
@[simp] theorem State.updLane_keeper (s : State) (c g l : Nat) (f : Lane → Lane) : (s.updLane c g l f).keeper = s.keeper := rfl
@[simp] theorem State.updLane_fabric (s : State) (c g l : Nat) (f : Lane → Lane) : (s.updLane c g l f).fabric = s.fabric := rfl
@[simp] theorem State.updLane_merge (s : State) (c g l : Nat) (f : Lane → Lane) : (s.updLane c g l f).merge = s.merge := rfl
@[simp] theorem State.updLane_posted (s : State) (c g l : Nat) (f : Lane → Lane) : (s.updLane c g l f).posted = s.posted := rfl
@[simp] theorem State.updLane_nextPost (s : State) (c g l : Nat) (f : Lane → Lane) : (s.updLane c g l f).nextPost = s.nextPost := rfl
@[simp] theorem State.updLane_nextTxn (s : State) (c g l : Nat) (f : Lane → Lane) : (s.updLane c g l f).nextTxn = s.nextTxn := rfl
@[simp] theorem State.updLane_nextFlight (s : State) (c g l : Nat) (f : Lane → Lane) : (s.updLane c g l f).nextFlight = s.nextFlight := rfl
@[simp] theorem State.updLane_now (s : State) (c g l : Nat) (f : Lane → Lane) : (s.updLane c g l f).now = s.now := rfl
@[simp] theorem State.updLane_chain (s : State) (c g l : Nat) (f : Lane → Lane) : (s.updLane c g l f).chain = s.chain := rfl
@[simp] theorem State.updLane_agenda (s : State) (c g l : Nat) (f : Lane → Lane) : (s.updLane c g l f).agenda = s.agenda := rfl
@[simp] theorem State.updGroup_mem (s : State) (c g : Nat) (f : Group → Group) : (s.updGroup c g f).mem = s.mem := rfl
@[simp] theorem State.updGroup_dirty (s : State) (c g : Nat) (f : Group → Group) : (s.updGroup c g f).dirty = s.dirty := rfl
@[simp] theorem State.updGroup_lantern (s : State) (c g : Nat) (f : Group → Group) : (s.updGroup c g f).lantern = s.lantern := rfl
@[simp] theorem State.updGroup_keeper (s : State) (c g : Nat) (f : Group → Group) : (s.updGroup c g f).keeper = s.keeper := rfl
@[simp] theorem State.updGroup_fabric (s : State) (c g : Nat) (f : Group → Group) : (s.updGroup c g f).fabric = s.fabric := rfl
@[simp] theorem State.updGroup_merge (s : State) (c g : Nat) (f : Group → Group) : (s.updGroup c g f).merge = s.merge := rfl
@[simp] theorem State.updGroup_posted (s : State) (c g : Nat) (f : Group → Group) : (s.updGroup c g f).posted = s.posted := rfl
@[simp] theorem State.updGroup_nextPost (s : State) (c g : Nat) (f : Group → Group) : (s.updGroup c g f).nextPost = s.nextPost := rfl
@[simp] theorem State.updGroup_nextTxn (s : State) (c g : Nat) (f : Group → Group) : (s.updGroup c g f).nextTxn = s.nextTxn := rfl
@[simp] theorem State.updGroup_nextFlight (s : State) (c g : Nat) (f : Group → Group) : (s.updGroup c g f).nextFlight = s.nextFlight := rfl
@[simp] theorem State.updGroup_now (s : State) (c g : Nat) (f : Group → Group) : (s.updGroup c g f).now = s.now := rfl
@[simp] theorem State.updGroup_chain (s : State) (c g : Nat) (f : Group → Group) : (s.updGroup c g f).chain = s.chain := rfl
@[simp] theorem State.updGroup_agenda (s : State) (c g : Nat) (f : Group → Group) : (s.updGroup c g f).agenda = s.agenda := rfl
@[simp] theorem State.setTeam_mem (s : State) (t : Nat) (x : Team) : (s.setTeam t x).mem = s.mem := rfl
@[simp] theorem State.setTeam_dirty (s : State) (t : Nat) (x : Team) : (s.setTeam t x).dirty = s.dirty := rfl
@[simp] theorem State.setTeam_cores (s : State) (t : Nat) (x : Team) : (s.setTeam t x).cores = s.cores := rfl
@[simp] theorem State.setTeam_keeper (s : State) (t : Nat) (x : Team) : (s.setTeam t x).keeper = s.keeper := rfl
@[simp] theorem State.setTeam_fabric (s : State) (t : Nat) (x : Team) : (s.setTeam t x).fabric = s.fabric := rfl
@[simp] theorem State.setTeam_merge (s : State) (t : Nat) (x : Team) : (s.setTeam t x).merge = s.merge := rfl
@[simp] theorem State.setTeam_posted (s : State) (t : Nat) (x : Team) : (s.setTeam t x).posted = s.posted := rfl
@[simp] theorem State.setTeam_nextPost (s : State) (t : Nat) (x : Team) : (s.setTeam t x).nextPost = s.nextPost := rfl
@[simp] theorem State.setTeam_nextTxn (s : State) (t : Nat) (x : Team) : (s.setTeam t x).nextTxn = s.nextTxn := rfl
@[simp] theorem State.setTeam_nextFlight (s : State) (t : Nat) (x : Team) : (s.setTeam t x).nextFlight = s.nextFlight := rfl
@[simp] theorem State.setTeam_now (s : State) (t : Nat) (x : Team) : (s.setTeam t x).now = s.now := rfl
@[simp] theorem State.setTeam_chain (s : State) (t : Nat) (x : Team) : (s.setTeam t x).chain = s.chain := rfl
@[simp] theorem State.setTeam_agenda (s : State) (t : Nat) (x : Team) : (s.setTeam t x).agenda = s.agenda := rfl
@[simp] theorem State.setGrid_mem (s : State) (g : Nat) (x : Grid) : (s.setGrid g x).mem = s.mem := rfl
@[simp] theorem State.setGrid_dirty (s : State) (g : Nat) (x : Grid) : (s.setGrid g x).dirty = s.dirty := rfl
@[simp] theorem State.setGrid_cores (s : State) (g : Nat) (x : Grid) : (s.setGrid g x).cores = s.cores := rfl
@[simp] theorem State.setGrid_keeper (s : State) (g : Nat) (x : Grid) : (s.setGrid g x).keeper = s.keeper := rfl
@[simp] theorem State.setGrid_fabric (s : State) (g : Nat) (x : Grid) : (s.setGrid g x).fabric = s.fabric := rfl
@[simp] theorem State.setGrid_merge (s : State) (g : Nat) (x : Grid) : (s.setGrid g x).merge = s.merge := rfl
@[simp] theorem State.setGrid_posted (s : State) (g : Nat) (x : Grid) : (s.setGrid g x).posted = s.posted := rfl
@[simp] theorem State.setGrid_nextPost (s : State) (g : Nat) (x : Grid) : (s.setGrid g x).nextPost = s.nextPost := rfl
@[simp] theorem State.setGrid_nextTxn (s : State) (g : Nat) (x : Grid) : (s.setGrid g x).nextTxn = s.nextTxn := rfl
@[simp] theorem State.setGrid_nextFlight (s : State) (g : Nat) (x : Grid) : (s.setGrid g x).nextFlight = s.nextFlight := rfl
@[simp] theorem State.setGrid_now (s : State) (g : Nat) (x : Grid) : (s.setGrid g x).now = s.now := rfl
@[simp] theorem State.setGrid_chain (s : State) (g : Nat) (x : Grid) : (s.setGrid g x).chain = s.chain := rfl
@[simp] theorem State.setGrid_agenda (s : State) (g : Nat) (x : Grid) : (s.setGrid g x).agenda = s.agenda := rfl
@[simp] theorem State.setCtx_mem (s : State) (c : Nat) (x : Ctx) : (s.setCtx c x).mem = s.mem := rfl
@[simp] theorem State.setCtx_dirty (s : State) (c : Nat) (x : Ctx) : (s.setCtx c x).dirty = s.dirty := rfl
@[simp] theorem State.setCtx_cores (s : State) (c : Nat) (x : Ctx) : (s.setCtx c x).cores = s.cores := rfl
@[simp] theorem State.setCtx_lantern (s : State) (c : Nat) (x : Ctx) : (s.setCtx c x).lantern = s.lantern := rfl
@[simp] theorem State.setCtx_fabric (s : State) (c : Nat) (x : Ctx) : (s.setCtx c x).fabric = s.fabric := rfl
@[simp] theorem State.setCtx_merge (s : State) (c : Nat) (x : Ctx) : (s.setCtx c x).merge = s.merge := rfl
@[simp] theorem State.setCtx_posted (s : State) (c : Nat) (x : Ctx) : (s.setCtx c x).posted = s.posted := rfl
@[simp] theorem State.setCtx_nextPost (s : State) (c : Nat) (x : Ctx) : (s.setCtx c x).nextPost = s.nextPost := rfl
@[simp] theorem State.setCtx_nextTxn (s : State) (c : Nat) (x : Ctx) : (s.setCtx c x).nextTxn = s.nextTxn := rfl
@[simp] theorem State.setCtx_nextFlight (s : State) (c : Nat) (x : Ctx) : (s.setCtx c x).nextFlight = s.nextFlight := rfl
@[simp] theorem State.setCtx_now (s : State) (c : Nat) (x : Ctx) : (s.setCtx c x).now = s.now := rfl
@[simp] theorem State.setCtx_chain (s : State) (c : Nat) (x : Ctx) : (s.setCtx c x).chain = s.chain := rfl
@[simp] theorem State.setCtx_agenda (s : State) (c : Nat) (x : Ctx) : (s.setCtx c x).agenda = s.agenda := rfl
@[simp] theorem State.setNode_mem (s : State) (k : Nat) (x : Node) : (s.setNode k x).mem = s.mem := rfl
@[simp] theorem State.setNode_dirty (s : State) (k : Nat) (x : Node) : (s.setNode k x).dirty = s.dirty := rfl
@[simp] theorem State.setNode_cores (s : State) (k : Nat) (x : Node) : (s.setNode k x).cores = s.cores := rfl
@[simp] theorem State.setNode_keeper (s : State) (k : Nat) (x : Node) : (s.setNode k x).keeper = s.keeper := rfl
@[simp] theorem State.setNode_fabric (s : State) (k : Nat) (x : Node) : (s.setNode k x).fabric = s.fabric := rfl
@[simp] theorem State.setNode_merge (s : State) (k : Nat) (x : Node) : (s.setNode k x).merge = s.merge := rfl
@[simp] theorem State.setNode_posted (s : State) (k : Nat) (x : Node) : (s.setNode k x).posted = s.posted := rfl
@[simp] theorem State.setNode_nextPost (s : State) (k : Nat) (x : Node) : (s.setNode k x).nextPost = s.nextPost := rfl
@[simp] theorem State.setNode_nextTxn (s : State) (k : Nat) (x : Node) : (s.setNode k x).nextTxn = s.nextTxn := rfl
@[simp] theorem State.setNode_nextFlight (s : State) (k : Nat) (x : Node) : (s.setNode k x).nextFlight = s.nextFlight := rfl
@[simp] theorem State.setNode_now (s : State) (k : Nat) (x : Node) : (s.setNode k x).now = s.now := rfl
@[simp] theorem State.setNode_chain (s : State) (k : Nat) (x : Node) : (s.setNode k x).chain = s.chain := rfl
@[simp] theorem State.setNode_agenda (s : State) (k : Nat) (x : Node) : (s.setNode k x).agenda = s.agenda := rfl
@[simp] theorem State.setQueue_mem (s : State) (q : Nat) (x : Queue) : (s.setQueue q x).mem = s.mem := rfl
@[simp] theorem State.setQueue_dirty (s : State) (q : Nat) (x : Queue) : (s.setQueue q x).dirty = s.dirty := rfl
@[simp] theorem State.setQueue_cores (s : State) (q : Nat) (x : Queue) : (s.setQueue q x).cores = s.cores := rfl
@[simp] theorem State.setQueue_keeper (s : State) (q : Nat) (x : Queue) : (s.setQueue q x).keeper = s.keeper := rfl
@[simp] theorem State.setQueue_fabric (s : State) (q : Nat) (x : Queue) : (s.setQueue q x).fabric = s.fabric := rfl
@[simp] theorem State.setQueue_merge (s : State) (q : Nat) (x : Queue) : (s.setQueue q x).merge = s.merge := rfl
@[simp] theorem State.setQueue_posted (s : State) (q : Nat) (x : Queue) : (s.setQueue q x).posted = s.posted := rfl
@[simp] theorem State.setQueue_nextPost (s : State) (q : Nat) (x : Queue) : (s.setQueue q x).nextPost = s.nextPost := rfl
@[simp] theorem State.setQueue_nextTxn (s : State) (q : Nat) (x : Queue) : (s.setQueue q x).nextTxn = s.nextTxn := rfl
@[simp] theorem State.setQueue_nextFlight (s : State) (q : Nat) (x : Queue) : (s.setQueue q x).nextFlight = s.nextFlight := rfl
@[simp] theorem State.setQueue_now (s : State) (q : Nat) (x : Queue) : (s.setQueue q x).now = s.now := rfl
@[simp] theorem State.setQueue_chain (s : State) (q : Nat) (x : Queue) : (s.setQueue q x).chain = s.chain := rfl
@[simp] theorem State.setQueue_agenda (s : State) (q : Nat) (x : Queue) : (s.setQueue q x).agenda = s.agenda := rfl
@[simp] theorem State.setInst_mem (s : State) (k : Nat) (x : CollInst) : (s.setInst k x).mem = s.mem := rfl
@[simp] theorem State.setInst_dirty (s : State) (k : Nat) (x : CollInst) : (s.setInst k x).dirty = s.dirty := rfl
@[simp] theorem State.setInst_cores (s : State) (k : Nat) (x : CollInst) : (s.setInst k x).cores = s.cores := rfl
@[simp] theorem State.setInst_keeper (s : State) (k : Nat) (x : CollInst) : (s.setInst k x).keeper = s.keeper := rfl
@[simp] theorem State.setInst_fabric (s : State) (k : Nat) (x : CollInst) : (s.setInst k x).fabric = s.fabric := rfl
@[simp] theorem State.setInst_merge (s : State) (k : Nat) (x : CollInst) : (s.setInst k x).merge = s.merge := rfl
@[simp] theorem State.setInst_posted (s : State) (k : Nat) (x : CollInst) : (s.setInst k x).posted = s.posted := rfl
@[simp] theorem State.setInst_nextPost (s : State) (k : Nat) (x : CollInst) : (s.setInst k x).nextPost = s.nextPost := rfl
@[simp] theorem State.setInst_nextTxn (s : State) (k : Nat) (x : CollInst) : (s.setInst k x).nextTxn = s.nextTxn := rfl
@[simp] theorem State.setInst_nextFlight (s : State) (k : Nat) (x : CollInst) : (s.setInst k x).nextFlight = s.nextFlight := rfl
@[simp] theorem State.setInst_now (s : State) (k : Nat) (x : CollInst) : (s.setInst k x).now = s.now := rfl
@[simp] theorem State.setInst_chain (s : State) (k : Nat) (x : CollInst) : (s.setInst k x).chain = s.chain := rfl
@[simp] theorem State.setInst_agenda (s : State) (k : Nat) (x : CollInst) : (s.setInst k x).agenda = s.agenda := rfl
@[simp] theorem State.setLog_mem (s : State) (p : Nat) (x : GLog) : (s.setLog p x).mem = s.mem := rfl
@[simp] theorem State.setLog_dirty (s : State) (p : Nat) (x : GLog) : (s.setLog p x).dirty = s.dirty := rfl
@[simp] theorem State.setLog_cores (s : State) (p : Nat) (x : GLog) : (s.setLog p x).cores = s.cores := rfl
@[simp] theorem State.setLog_lantern (s : State) (p : Nat) (x : GLog) : (s.setLog p x).lantern = s.lantern := rfl
@[simp] theorem State.setLog_keeper (s : State) (p : Nat) (x : GLog) : (s.setLog p x).keeper = s.keeper := rfl
@[simp] theorem State.setLog_fabric (s : State) (p : Nat) (x : GLog) : (s.setLog p x).fabric = s.fabric := rfl
@[simp] theorem State.setLog_posted (s : State) (p : Nat) (x : GLog) : (s.setLog p x).posted = s.posted := rfl
@[simp] theorem State.setLog_nextPost (s : State) (p : Nat) (x : GLog) : (s.setLog p x).nextPost = s.nextPost := rfl
@[simp] theorem State.setLog_nextTxn (s : State) (p : Nat) (x : GLog) : (s.setLog p x).nextTxn = s.nextTxn := rfl
@[simp] theorem State.setLog_nextFlight (s : State) (p : Nat) (x : GLog) : (s.setLog p x).nextFlight = s.nextFlight := rfl
@[simp] theorem State.setLog_now (s : State) (p : Nat) (x : GLog) : (s.setLog p x).now = s.now := rfl
@[simp] theorem State.setLog_chain (s : State) (p : Nat) (x : GLog) : (s.setLog p x).chain = s.chain := rfl
@[simp] theorem State.setLog_agenda (s : State) (p : Nat) (x : GLog) : (s.setLog p x).agenda = s.agenda := rfl
@[simp] theorem State.setEngine_mem (s : State) (c p : Nat) (x : Engine) : (s.setEngine c p x).mem = s.mem := rfl
@[simp] theorem State.setEngine_dirty (s : State) (c p : Nat) (x : Engine) : (s.setEngine c p x).dirty = s.dirty := rfl
@[simp] theorem State.setEngine_lantern (s : State) (c p : Nat) (x : Engine) : (s.setEngine c p x).lantern = s.lantern := rfl
@[simp] theorem State.setEngine_keeper (s : State) (c p : Nat) (x : Engine) : (s.setEngine c p x).keeper = s.keeper := rfl
@[simp] theorem State.setEngine_fabric (s : State) (c p : Nat) (x : Engine) : (s.setEngine c p x).fabric = s.fabric := rfl
@[simp] theorem State.setEngine_merge (s : State) (c p : Nat) (x : Engine) : (s.setEngine c p x).merge = s.merge := rfl
@[simp] theorem State.setEngine_posted (s : State) (c p : Nat) (x : Engine) : (s.setEngine c p x).posted = s.posted := rfl
@[simp] theorem State.setEngine_nextPost (s : State) (c p : Nat) (x : Engine) : (s.setEngine c p x).nextPost = s.nextPost := rfl
@[simp] theorem State.setEngine_nextTxn (s : State) (c p : Nat) (x : Engine) : (s.setEngine c p x).nextTxn = s.nextTxn := rfl
@[simp] theorem State.setEngine_nextFlight (s : State) (c p : Nat) (x : Engine) : (s.setEngine c p x).nextFlight = s.nextFlight := rfl
@[simp] theorem State.setEngine_now (s : State) (c p : Nat) (x : Engine) : (s.setEngine c p x).now = s.now := rfl
@[simp] theorem State.setEngine_chain (s : State) (c p : Nat) (x : Engine) : (s.setEngine c p x).chain = s.chain := rfl
@[simp] theorem State.setEngine_agenda (s : State) (c p : Nat) (x : Engine) : (s.setEngine c p x).agenda = s.agenda := rfl
@[simp] theorem State.setCell_mem (s : State) (c k x : Nat) (v : Word) : (s.setCell c k x v).mem = s.mem := rfl
@[simp] theorem State.setCell_dirty (s : State) (c k x : Nat) (v : Word) : (s.setCell c k x v).dirty = s.dirty := rfl
@[simp] theorem State.setCell_lantern (s : State) (c k x : Nat) (v : Word) : (s.setCell c k x v).lantern = s.lantern := rfl
@[simp] theorem State.setCell_keeper (s : State) (c k x : Nat) (v : Word) : (s.setCell c k x v).keeper = s.keeper := rfl
@[simp] theorem State.setCell_fabric (s : State) (c k x : Nat) (v : Word) : (s.setCell c k x v).fabric = s.fabric := rfl
@[simp] theorem State.setCell_merge (s : State) (c k x : Nat) (v : Word) : (s.setCell c k x v).merge = s.merge := rfl
@[simp] theorem State.setCell_posted (s : State) (c k x : Nat) (v : Word) : (s.setCell c k x v).posted = s.posted := rfl
@[simp] theorem State.setCell_nextPost (s : State) (c k x : Nat) (v : Word) : (s.setCell c k x v).nextPost = s.nextPost := rfl
@[simp] theorem State.setCell_nextTxn (s : State) (c k x : Nat) (v : Word) : (s.setCell c k x v).nextTxn = s.nextTxn := rfl
@[simp] theorem State.setCell_nextFlight (s : State) (c k x : Nat) (v : Word) : (s.setCell c k x v).nextFlight = s.nextFlight := rfl
@[simp] theorem State.setCell_now (s : State) (c k x : Nat) (v : Word) : (s.setCell c k x v).now = s.now := rfl
@[simp] theorem State.setCell_chain (s : State) (c k x : Nat) (v : Word) : (s.setCell c k x v).chain = s.chain := rfl
@[simp] theorem State.setCell_agenda (s : State) (c k x : Nat) (v : Word) : (s.setCell c k x v).agenda = s.agenda := rfl

/-! ### The part it writes -/
theorem State.core_setCore (s : State) (c d : Nat) (x : Core) : (s.setCore c x).core d = if c = d then x else s.core d := by
  simp only [State.core, State.setCore, Tbl.get_put]
@[simp] theorem State.core_setCore_same (s : State) (c : Nat) (x : Core) : (s.setCore c x).core c = x := by simp [State.core_setCore]
theorem State.group_setGroup (s : State) (c g d h : Nat) (x : Group) :
    (s.setGroup c g x).group d h = if c = d ∧ g = h then x else s.group d h := by
  simp only [State.group, State.setGroup, State.core_setCore]
  by_cases e : c = d
  · subst e; simp only [if_true, Tbl.get_put, true_and]
  · simp [e]
@[simp] theorem State.group_setGroup_same (s : State) (c g : Nat) (x : Group) : (s.setGroup c g x).group c g = x := by simp [State.group_setGroup]
@[simp] theorem State.group_updGroup_same (s : State) (c g : Nat) (f : Group → Group) : (s.updGroup c g f).group c g = f (s.group c g) := by simp [State.updGroup]
theorem State.group_updGroup (s : State) (c g d h : Nat) (f : Group → Group) :
    (s.updGroup c g f).group d h = if c = d ∧ g = h then f (s.group c g) else s.group d h := by
  simp [State.updGroup, State.group_setGroup]
theorem Group.lane_setLane (g : Group) (l k : Nat) (x : Lane) : (g.setLane l x).lane k = if l = k then x else g.lane k := by
  simp only [Group.lane, Group.setLane, Tbl.get_put]
@[simp] theorem Group.lane_setLane_same (g : Group) (l : Nat) (x : Lane) : (g.setLane l x).lane l = x := by simp [Group.lane_setLane]
theorem State.lane_setLane (s : State) (c g l d h k : Nat) (x : Lane) :
    (s.setLane c g l x).lane d h k = if c = d ∧ g = h ∧ l = k then x else s.lane d h k := by
  simp only [State.lane, State.setLane, State.group_setGroup]
  by_cases e : c = d ∧ g = h
  · obtain ⟨rfl, rfl⟩ := e; simp [Group.lane_setLane]
  · rw [if_neg e, if_neg (fun h => e ⟨h.1, h.2.1⟩)]
theorem State.lane_updLane (s : State) (c g l d h k : Nat) (f : Lane → Lane) :
    (s.updLane c g l f).lane d h k = if c = d ∧ g = h ∧ l = k then f (s.lane c g l) else s.lane d h k := by
  simp only [State.updLane, State.lane_setLane]
@[simp] theorem State.lane_updLane_same (s : State) (c g l : Nat) (f : Lane → Lane) : (s.updLane c g l f).lane c g l = f (s.lane c g l) := by
  simp [State.lane_updLane]
theorem State.group_updLane (s : State) (c g l : Nat) (f : Lane → Lane) :
    (s.updLane c g l f).group c g = (s.group c g).setLane l (f ((s.group c g).lane l)) := by
  simp [State.updLane, State.setLane, State.lane]
theorem State.team_setTeam (s : State) (t u : Nat) (x : Team) : (s.setTeam t x).team u = if t = u then x else s.team u := by
  simp only [State.team, State.setTeam, Tbl.get_put]
theorem State.grid_setGrid (s : State) (t u : Nat) (x : Grid) : (s.setGrid t x).grid u = if t = u then x else s.grid u := by
  simp only [State.grid, State.setGrid, Tbl.get_put]
theorem State.ctx_setCtx (s : State) (t u : Nat) (x : Ctx) : (s.setCtx t x).ctx u = if t = u then x else s.ctx u := by
  simp only [State.ctx, State.setCtx, Tbl.get_put]
@[simp] theorem State.team_setGroup (s : State) (c g t : Nat) (x : Group) : (s.setGroup c g x).team t = s.team t := rfl
@[simp] theorem State.grid_setGroup (s : State) (c g t : Nat) (x : Group) : (s.setGroup c g x).grid t = s.grid t := rfl
@[simp] theorem State.ctx_setGroup (s : State) (c g t : Nat) (x : Group) : (s.setGroup c g x).ctx t = s.ctx t := rfl

end Sys2Proof.Machine
end

