-- ==== Sys2Proof/Laws/Chain.lean ====
section
/-! SUPPORT. The end of a chain: a word that is ready gives exactly its effects to its executing lanes (`exec_ready`), and a chain of
effects local to their lanes changes its group alone, each lane by its own effects (`after_local`). -/
namespace Sys2Proof.Machine
open Sys2Proof.Safety

/-! ### Lanes of a set -/
theorem lanesOf_nodup (m : LaneSet) : (lanesOf m).Nodup := List.nodup_range.filter _
theorem executing_sub (s : State) (i : Instr) {l : Nat} (h : l ∈ executing s i) : l ∈ lanesOf s.chain.lanes :=
  (List.mem_filter.mp (List.mem_filter.mp h).1).1
theorem executing_nodup (s : State) (i : Instr) : (executing s i).Nodup :=
  ((lanesOf_nodup _).filter _).filter _

/-! ### What a table of outcomes gives -/
theorem find_map_pair {α : Type} (ls : List Nat) (f : Nat → α) (l : Nat) :
    Tbl.find (ls.map fun k => (k, f k)) l = if l ∈ ls then some (f l) else none := by
  induction ls with
  | nil => rfl
  | cons k ls ih =>
    simp only [List.map_cons, Tbl.find_cons, ih, List.mem_cons]
    by_cases e : k = l
    · subst e; simp
    · have : ¬ l = k := fun h => e h.symm
      simp [e, this]
theorem find_mem {α : Type} {t : Tbl α} {k : Nat} {v : α} (h : Tbl.find t k = some v) : (k, v) ∈ t := by
  induction t with
  | nil => simp at h
  | cons p t ih =>
    obtain ⟨i, w⟩ := p
    simp only [Tbl.find_cons] at h
    split at h
    · rename_i e; subst e; simp only [Option.some.injEq] at h; subst h; exact List.mem_cons_self ..
    · exact List.mem_cons_of_mem _ (ih h)
theorem quiet_find {c : Chain} (h : Quiet c) {w : WordOut} (hw : w ∈ c.outs) {l : Nat} {o : LaneOut} (e : Tbl.find w.outs l = some o) : o = .ok [] :=
  (h w hw).2.2 (l, o) (find_mem e)

/-! ### The word's outcome -/
theorem quiet_fail {c : Chain} (h : Quiet c) {w : WordOut} (hw : w ∈ c.outs) (l : Nat) : w.failIn l = none := by
  unfold WordOut.failIn
  cases e : Tbl.find w.outs l with
  | none => rfl
  | some o => rw [quiet_find h hw e]
theorem quiet_effs {c : Chain} (h : Quiet c) {w : WordOut} (hw : w ∈ c.outs) (l : Nat) : w.effsIn l = [] := by
  unfold WordOut.effsIn
  cases e : Tbl.find w.outs l with
  | none => rfl
  | some o => rw [quiet_find h hw e]
theorem quiet_fate {c : Chain} (h : Quiet c) (l : Nat) : c.fate l = .ok [] := by
  unfold Chain.fate
  rw [List.findSome?_eq_none_iff.mpr fun w hw => quiet_fail h hw l]; rfl
theorem live_quiet {c : Chain} (h : Quiet c) : c.live = lanesOf c.lanes := by
  unfold Chain.live
  exact List.filter_eq_self.mpr fun l _ => by rw [quiet_fate h]; rfl
variable {s : State} {i : Instr} {f : Form} {vs : Nat → List Nat} {es : Nat → List Eff} {go : Body}
/-- The executing lanes with their operands. -/
def rowsOf (s : State) (i : Instr) (vs : Nat → List Nat) : Rows := (executing s i).map fun l => (l, vs l)
theorem finish_ok_of {o : List Eff} (h : ∀ d c w b, f.dst = some (d, c, w, b) → mqOf d ≠ none → s.holds s.chain.core s.chain.grp = true) :
    s.finish f (.ok o) = .ok o := by
  unfold State.finish
  dsimp only
  split
  · rename_i e2; rw [if_pos (h _ _ _ _ e2 (by simp [mqOf]))]
  · rename_i e2; rw [if_pos (h _ _ _ _ e2 (by simp [mqOf]))]
  · rfl
theorem badRows_ok (ls : List Nat) (vs : Nat → List Nat) : (ls.map fun l => (l, Except.ok (vs l))).filterMap badRow = [] := by
  rw [List.filterMap_map, List.filterMap_eq_nil_iff]; intros; rfl
theorem goodRows_ok (ls : List Nat) (vs : Nat → List Nat) : (ls.map fun l => (l, Except.ok (vs l))).filterMap goodRow = ls.map fun l => (l, vs l) := by
  induction ls with
  | nil => rfl
  | cons l ls ih =>
    have h : goodRow (l, Except.ok (vs l)) = some (l, vs l) := rfl
    rw [List.map_cons, List.filterMap_cons_some h, ih]; rfl
/-- The word as it stands before its chain is settled: one performed once per chain holds what each lane would decide. -/
def wordOwn (s : State) (i : Instr) (f : Form) (vs : Nat → List Nat) (es : Nat → List Eff) (go : Body) : WordOut :=
  { wordWith s i f es with own := if performedOnce i then s.ownOuts f go (rowsOf s i vs) else [], once := [] }
theorem wordOut_ready (R : Ready s i f vs) (hgo : go s (rowsOf s i vs) = (executing s i).map fun l => (l, .ok (es l)))
    (hd : ∀ d c w b, f.dst = some (d, c, w, b) → mqOf d ≠ none → s.holds s.chain.core s.chain.grp = true) :
    s.wordOut i f go = wordOwn s i f vs es go := by
  have hheld : s.held i f = false := by simp [State.held, R.plain]
  have hrs : s.wordRows i f = (executing s i).map fun l => (l, Except.ok (vs l)) := by
    unfold State.wordRows executing
    exact List.map_congr_left fun l hl => by rw [R.reads l hl]
  unfold State.wordOut
  simp only [hheld, hrs, badRows_ok, goodRows_ok]
  rw [if_neg (by decide)]
  unfold wordOwn wordWith
  dsimp only
  congr 1
  rw [List.nil_append]
  show (go s (rowsOf s i vs)).map _ = _
  rw [hgo, List.map_map]
  exact List.map_congr_left fun l _ => by simp only [Function.comp]; rw [finish_ok_of hd]

/-! ### The chain with the word -/
theorem withWord_outs (s : State) (i : Instr) (f : Form) (es : Nat → List Eff) : (withWord s i f es).chain.outs = s.chain.outs ++ [wordWith s i f es] := rfl
theorem find_wordWith (s : State) (i : Instr) (f : Form) (es : Nat → List Eff) (l : Nat) :
    Tbl.find (wordWith s i f es).outs l = if l ∈ executing s i then some (.ok (es l)) else none := find_map_pair _ _ l
theorem mem_withWord {w : WordOut} (h : w ∈ (withWord s i f es).chain.outs) : w ∈ s.chain.outs ∨ w = wordWith s i f es := by
  rw [withWord_outs] at h
  rcases List.mem_append.mp h with h | h
  · exact .inl h
  · exact .inr (List.mem_singleton.mp h)
theorem effsIn_wordWith (s : State) (i : Instr) (f : Form) (es : Nat → List Eff) (l : Nat) :
    (wordWith s i f es).effsIn l = if l ∈ executing s i then es l else [] := by
  unfold WordOut.effsIn
  rw [find_wordWith]
  by_cases h : l ∈ executing s i
  · rw [if_pos h, if_pos h]
  · rw [if_neg h, if_neg h]
theorem fate_withWord (h : Quiet s.chain) (l : Nat) : (withWord s i f es).chain.fate l = .ok [] := by
  unfold Chain.fate
  rw [List.findSome?_eq_none_iff.mpr]; · rfl
  intro w hw
  rcases mem_withWord hw with hw | rfl
  · exact quiet_fail h hw l
  · unfold WordOut.failIn
    rw [find_wordWith]
    by_cases h : l ∈ executing s i
    · rw [if_pos h]
    · rw [if_neg h]
theorem effs_withWord (h : Quiet s.chain) (l : Nat) : (withWord s i f es).chain.effs l = if l ∈ executing s i then es l else [] := by
  unfold Chain.effs
  rw [withWord_outs, List.flatMap_append, List.flatMap_eq_nil_iff.mpr fun w hw => quiet_effs h hw l, List.nil_append]
  simp only [List.flatMap_cons, List.flatMap_nil, List.append_nil, effsIn_wordWith]

/-! ### The end of the chain -/
theorem foldl_id {α β : Type} (l : List β) (a : α) (g : α → β → α) (h : ∀ b ∈ l, g a b = a) : l.foldl g a = a := by
  induction l with
  | nil => rfl
  | cons b l ih => rw [List.foldl_cons, h b (List.mem_cons_self ..)]; exact ih fun c hc => h c (List.mem_cons_of_mem _ hc)
/-- Settling a chain of quiet words and this one leaves the word with its effects: the lowest-numbered executing lane decides. -/
theorem settleAll_quiet (st : Nat → Bool) (before ws : List WordOut) (w v : WordOut) (h : ∀ x ∈ ws, x.own = [])
    (hw : ∀ b : List WordOut, (∀ x ∈ b, x ∈ before ∨ x ∈ ws) →
      w.settle (fun l => st l || b.any (fun x => (x.failIn l).isSome) || ([] : List WordOut).any fun x => x.stops l) = v) :
    settleAll st before (ws ++ [w]) = ws ++ [v] := by
  induction ws generalizing before with
  | nil => simp only [List.nil_append, settleAll]; rw [hw before fun x hx => .inl hx]
  | cons x ws ih =>
    simp only [List.cons_append, settleAll]
    have hx : ∀ q, x.settle q = x := by intro q; unfold WordOut.settle; rw [h x (List.mem_cons_self ..)]
    rw [hx, ih _ (fun y hy => h y (List.mem_cons_of_mem _ hy))]
    intro b hb
    refine hw b fun y hy => ?_
    rcases hb y hy with e | e
    · rcases List.mem_append.mp e with e | e
      · exact .inl e
      · exact .inr (by rw [List.mem_singleton.mp e]; exact List.mem_cons_self ..)
    · exact .inr (List.mem_cons_of_mem _ e)
theorem ownOuts_keys (s : State) (f : Form) (go : Body) (rows : Rows) : (s.ownOuts f go rows).map (·.1) = rows.map (·.1) := by
  induction rows with
  | nil => rfl
  | cons p rest ih => simp only [State.ownOuts, List.map_cons, ih]
theorem rowsOf_keys (s : State) (i : Instr) (vs : Nat → List Nat) : (rowsOf s i vs).map (·.1) = executing s i := by
  unfold rowsOf; rw [List.map_map]; exact List.map_id _
theorem settled_ready (hq : Quiet s.chain) (hgo : go s (rowsOf s i vs) = (executing s i).map fun l => (l, .ok (es l)))
    (hd : ∀ d c w b, f.dst = some (d, c, w, b) → mqOf d ≠ none → s.holds s.chain.core s.chain.grp = true) (st : Nat → Bool)
    (hst : ∀ l, st l = false) :
    (s.addWord i f (wordOwn s i f vs es go)).chain.settled st = (withWord s i f es).chain := by
  have key : settleAll st [] (s.chain.outs ++ [wordOwn s i f vs es go]) = s.chain.outs ++ [wordWith s i f es] := by
    refine settleAll_quiet _ _ _ _ _ (fun x hx => (hq x hx).2.1) fun b hb => ?_
    have hstop : ∀ l, (st l || b.any (fun x => (x.failIn l).isSome) || [].any (fun w : WordOut => w.stops l)) = false := by
      intro l
      rw [List.any_nil, Bool.or_false, hst, Bool.false_or, List.any_eq_false]
      intro x hx
      rcases hb x hx with e | e
      · cases e
      · rw [quiet_fail hq e]; exact Bool.false_ne_true
    unfold WordOut.settle wordOwn
    dsimp only
    by_cases hp : performedOnce i = true
    · rw [if_pos hp]
      cases hl : executing s i with
      | nil =>
        have : rowsOf s i vs = [] := by unfold rowsOf; rw [hl]; rfl
        rw [this]; simp only [State.ownOuts, wordWith, hl, ite_self]
      | cons l0 ls =>
        have hr : rowsOf s i vs = (l0, vs l0) :: ls.map fun l => (l, vs l) := by unfold rowsOf; rw [hl]; rfl
        have hall : (go s (rowsOf s i vs)).map (fun q => (q.1, s.finish f q.2)) = (executing s i).map fun l => (l, .ok (es l)) := by
          rw [hgo, List.map_map]
          exact List.map_congr_left fun l _ => by simp only [Function.comp]; rw [finish_ok_of hd]
        have hown : s.ownOuts f go (rowsOf s i vs) =
            (l0, (executing s i).map fun l => (l, .ok (es l))) :: s.ownOuts f go (ls.map fun l => (l, vs l)) := by
          rw [hr, State.ownOuts, ← hr, hall]
        have hkeys : (s.ownOuts f go (rowsOf s i vs)).map (·.1) = l0 :: ls := by rw [ownOuts_keys, rowsOf_keys, hl]
        rw [hown] at hkeys ⊢
        have honce : ((l0, (executing s i).map fun l => (l, LaneOut.ok (es l))) :: s.ownOuts f go (ls.map fun l => (l, vs l))).map (·.1) = l0 :: ls := hkeys
        simp only [hstop, Bool.not_false, List.find?_cons, Option.getD_some, wordWith, hp, if_true, honce]
        rw [hl]
        congr 1
        rw [List.map_map]
        refine List.map_congr_left fun l h => ?_
        simp only [Function.comp, find_map_pair, if_pos h, Option.getD_some, ite_self]
    · rw [if_neg hp]; simp only [wordWith, hp, Bool.false_eq_true, if_false]
  show { (s.addWord i f (wordOwn s i f vs es go)).chain with outs := settleAll st [] (s.chain.outs ++ [wordOwn s i f vs es go]) } = _
  rw [key]; rfl
/-- A word whose lanes spawn distinct objects that find room keeps them all. -/
theorem claim_fits (w : WordOut) (report : DWord) (room : Nat) (stopped : Nat → Bool) (hs : ∀ l, stopped l = false)
    (hn : (w.outs.filterMap (·.2.spawns)).Nodup) (hr : (w.outs.filterMap (·.2.spawns)).length ≤ room) : w.claim report room stopped = w := by
  have key : ∀ (ps : Tbl LaneOut) (acc : List Nat × Tbl LaneOut), (ps.filterMap (·.2.spawns)).Nodup →
      (∀ k ∈ ps.filterMap (·.2.spawns), k ∉ acc.1) → acc.1.length + (ps.filterMap (·.2.spawns)).length ≤ room →
      (ps.foldl (claimStep report room stopped) acc).2 = acc.2 ++ ps := by
    intro ps
    induction ps with
    | nil => intro acc _ _ _; simp
    | cons p ps ih =>
      intro acc h1 h2 h3
      rw [List.foldl_cons]
      cases hp : p.2.spawns with
      | none =>
        rw [List.filterMap_cons_none (f := fun x : Nat × LaneOut => x.2.spawns) hp] at h1 h2 h3
        have e : claimStep report room stopped acc p = (acc.1, acc.2 ++ [p]) := by unfold claimStep; rw [hp]
        rw [e, ih (acc.1, acc.2 ++ [p]) h1 h2 h3]; simp
      | some k =>
        rw [List.filterMap_cons_some (f := fun x : Nat × LaneOut => x.2.spawns) hp] at h1 h2 h3
        have hk : acc.1.contains k = false := by
          rw [← Bool.not_eq_true, List.contains_iff_mem]; exact h2 k (List.mem_cons_self ..)
        simp only [List.length_cons] at h3
        have e : claimStep report room stopped acc p = (k :: acc.1, acc.2 ++ [p]) := by
          unfold claimStep; rw [hp]; dsimp only; rw [hs, hk, if_neg Bool.false_ne_true, if_neg Bool.false_ne_true, if_neg (by omega)]
        rw [e, ih (k :: acc.1, acc.2 ++ [p]) (List.nodup_cons.mp h1).2 ?_ (by simp only [List.length_cons]; omega)]
        · simp
        · intro x hx hm
          rcases List.mem_cons.mp hm with rfl | hm
          · exact (List.nodup_cons.mp h1).1 hx
          · exact h2 x (List.mem_cons_of_mem _ hx) hm
  unfold WordOut.claim
  rw [key w.outs ([], []) hn (fun _ _ h => nomatch h) (by simpa using hr)]
  rfl
theorem quiet_isSpawn {c : Chain} (h : Quiet c) {w : WordOut} (hw : w ∈ c.outs) : w.isSpawn = false := by
  unfold WordOut.isSpawn
  rw [List.any_eq_false]
  intro p hp
  rw [(h w hw).2.2 p hp]; decide
theorem quiet_stops {c : Chain} (h : Quiet c) {w : WordOut} (hw : w ∈ c.outs) (l : Nat) : w.stops l = false := by
  unfold WordOut.stops; rw [quiet_fail h hw]; simp
theorem spawned_wordWith (s : State) (i : Instr) (f : Form) (es : Nat → List Eff) : (wordWith s i f es).outs.filterMap (·.2.spawns) = spawned s i es := by
  unfold wordWith spawned; dsimp only; rw [List.filterMap_map]; rfl
/-- A chain of quiet words and this one, whose objects differ and fit, keeps what they spawn. -/
theorem claims_ready (hq : Quiet s.chain) (hn : (spawned s i es).Nodup) (table : Nat) (hr : (spawned s i es).length ≤ 4096 - table) :
    (s.addWord i f (wordOwn s i f vs es go)).chain.claims table [] = (s.addWord i f (wordOwn s i f vs es go)).chain := by
  have key : (s.chain.outs ++ [wordOwn s i f vs es go]).map (fun w => if w.isSpawn then
      w.claim ((s.addWord i f (wordOwn s i f vs es go)).chain.reportAt w.slot 0x14) (4096 - table) (fun l =>
        [].contains l || (s.chain.outs ++ [wordOwn s i f vs es go]).any fun x => x.slot != w.slot && x.stops l)
      else w) = s.chain.outs ++ [wordOwn s i f vs es go] := by
    refine List.map_congr_left (g := id) (fun w hw => ?_) |>.trans (List.map_id _)
    rcases List.mem_append.mp hw with hw | hw
    · rw [quiet_isSpawn hq hw]; rfl
    · rw [List.mem_singleton.mp hw]
      rw [claim_fits]
      · simp
      · intro l
        rw [List.contains_nil, Bool.false_or, List.any_eq_false]
        intro x hx
        rcases List.mem_append.mp hx with hx | hx
        · rw [quiet_stops hq hx]; simp
        · rw [List.mem_singleton.mp hx]; simp
      · exact (spawned_wordWith s i f es).symm ▸ hn
      · exact (congrArg List.length (spawned_wordWith s i f es)).symm ▸ hr
  unfold Chain.claims
  exact congrArg (fun o => { (s.addWord i f (wordOwn s i f vs es go)).chain with outs := o }) key
/-- Conflicts do not depend on the chain in progress. -/
theorem firstRace_chain (s : State) (c : Chain) (core grp : Nat) (xs : List Look) :
    ({ s with chain := c } : State).firstRace core grp xs = s.firstRace core grp xs := by
  induction xs generalizing s with
  | nil => rfl
  | cons x xs ih =>
    obtain ⟨l, e, ks⟩ := x
    have up : ∀ g, ({ s with chain := c } : State).updLane core grp l g = { s.updLane core grp l g with chain := c } := fun _ => rfl
    cases e <;> simp only [State.firstRace, up, ih] <;> rfl
theorem races_chain (s : State) (c d : Chain) (oks : List Nat) : ({ s with chain := c } : State).races d oks = s.races d oks := by
  have key : ∀ n oks, ({ s with chain := c } : State).racesIn d n oks = s.racesIn d n oks := by
    intro n
    induction n with
    | zero => intro _; rfl
    | succ n ih =>
      intro oks
      simp only [State.racesIn, firstRace_chain, ih]
  exact key _ _
theorem fail_ok (s : State) (c : Chain) (t : Nat) (ls : List Nat) : s.fail c t (ls.map fun l => (l, .ok [])) = s := by
  have h1 : (ls.map fun l => (l, LaneOut.ok [])).foldl (fun s (p : Nat × LaneOut) => s.failLane c t p.1 p.2) s = s := by
    refine foldl_id _ _ _ fun p hp => ?_
    obtain ⟨l, _, rfl⟩ := List.mem_map.mp hp
    unfold State.failLane; dsimp only; split <;> rfl
  have h2 : s.failParks c (ls.map fun l => (l, .ok [])) = s := by
    have : (ls.map fun l => (l, LaneOut.ok [])).filterMap (fun p => s.parksIn c p.1 p.2) = [] := by
      rw [List.filterMap_map, List.filterMap_eq_nil_iff]; intros; rfl
    unfold State.failParks
    rw [this]; rfl
  have h3 : (ls.map fun l => (l, LaneOut.ok [])).findSome? (fun p => p.2.joint?) = none := by
    rw [List.findSome?_eq_none_iff]
    intro p hp
    obtain ⟨l, _, rfl⟩ := List.mem_map.mp hp
    rfl
  have h4 : (ls.map fun l => (l, LaneOut.ok [])).findSome? (fun p => p.2.flush?) = none := by
    rw [List.findSome?_eq_none_iff]
    intro p hp
    obtain ⟨l, _, rfl⟩ := List.mem_map.mp hp
    rfl
  have h5 : (ls.map fun l => (l, LaneOut.ok [])).map (fun p => (p.1, s.failsAs c p.2)) = ls.map fun l => (l, LaneOut.ok []) := by
    rw [List.map_map]; rfl
  unfold State.fail
  simp only [h4, h5, h1, h2, h3]
theorem okLanes_map (ls : List Nat) : okLanes (ls.map fun l => (l, .ok [])) = ls := by
  unfold okLanes
  rw [List.filter_eq_self.mpr, List.map_map]
  · simp [Function.comp_def]
  · intro p hp
    obtain ⟨l, _, rfl⟩ := List.mem_map.mp hp
    rfl
/-- A chain in which every lane completes. -/
theorem endChain_ok {s : State} (hf : ∀ l ∈ lanesOf s.chain.lanes, s.chain.fate l = .ok []) (hl : lanesOf s.chain.lanes ≠ [])
    (hspec : (s.group s.chain.core s.chain.grp).spec = none) (hr : s.races s.chain (lanesOf s.chain.lanes) = [])
    (hroom : s.hasRoom s.chain (lanesOf s.chain.lanes) = true) :
    s.endChain = { s.effects s.chain (timeAfter s) (lanesOf s.chain.lanes) with chain := s.chain.finished, now := clockAfter s } := by
  have hfs : s.fates s.chain = (lanesOf s.chain.lanes).map fun l => (l, .ok []) := by
    have h0 : (lanesOf s.chain.lanes).map (fun l => (l, s.chain.fate l)) = (lanesOf s.chain.lanes).map fun l => (l, .ok []) :=
      List.map_congr_left fun l hl => by rw [hf l hl]
    have h1 : ((lanesOf s.chain.lanes).map fun l => (l, LaneOut.ok [])).map (fun p => (p.1, conflictOr [] p.1 p.2)) =
        (lanesOf s.chain.lanes).map fun l => (l, .ok []) := by rw [List.map_map]; rfl
    have hno : ∀ q : LaneOut → Bool, q (.ok []) = false → ((lanesOf s.chain.lanes).map fun l => (l, LaneOut.ok [])).any (fun p => q p.2) = false := by
      intro q hq
      rw [List.any_eq_false]; intro p hp
      obtain ⟨l, _, rfl⟩ := List.mem_map.mp hp
      simp [hq]
    have hw : s.wordFates s.chain = (lanesOf s.chain.lanes).map fun l => (l, .ok []) := by
      unfold State.wordFates
      simp only [h0, hspec, Option.isSome_none, Bool.false_eq_true, if_false]
    unfold State.fates
    simp only [hw, okLanes_map, hr, h1, hspec, Option.isSome_none, Chain.waits, hno LaneOut.stalls rfl, hno LaneOut.faults rfl, Bool.and_false,
      Bool.false_and, Bool.false_eq_true, if_false, hroom, Bool.not_true, Chain.holdMq, hno (fun o => o.faults || o.fills) rfl]
  have hu : s.chain.unused (s.fates s.chain) = false := by
    rw [hfs]
    obtain ⟨l, rest, e⟩ := List.exists_cons_of_ne_nil hl
    unfold Chain.unused
    rw [e]; simp [LaneOut.stalls]
  unfold State.endChain
  rw [hfs] at hu
  simp only [hfs, hu, okLanes_map, Bool.not_false, Bool.and_true, fail_ok, Bool.false_eq_true, if_false]
  unfold timeAfter clockAfter
  cases s.chain.broadcast <;> simp
theorem wordFates_ready (R : Ready s i f vs) (t : State) (ht : t.group s.chain.core s.chain.grp = s.cgroup) :
    okLanes (t.wordFates (withWord s i f es).chain) = lanesOf s.chain.lanes := by
  have h0 : (lanesOf (withWord s i f es).chain.lanes).map (fun l => (l, (withWord s i f es).chain.fate l)) =
      (lanesOf s.chain.lanes).map fun l => (l, .ok []) := List.map_congr_left fun l _ => by rw [fate_withWord R.quiet l]
  have h1 : t.group (withWord s i f es).chain.core (withWord s i f es).chain.grp = s.cgroup := ht
  unfold State.wordFates
  simp only [h0, h1, R.plain, Option.isSome_none, Bool.false_eq_true, if_false, okLanes_map]
/-- The chain of a word that is ready, once settled: the word with its effects. -/
theorem settledChain_ready (R : Ready s i f vs) (hgo : go s (rowsOf s i vs) = (executing s i).map fun l => (l, .ok (es l)))
    (hd : ∀ d c w b, f.dst = some (d, c, w, b) → mqOf d ≠ none → s.holds s.chain.core s.chain.grp = true) (hroom : Room s i f es) :
    (s.addWord i f (wordOwn s i f vs es go)).settledChain = (withWord s i f es).chain := by
  have hset := settled_ready R.quiet hgo hd
  unfold State.settledChain
  split
  · rename_i h
    have := (List.all_eq_true.mp h) (wordOwn s i f vs es go) (List.mem_append_right _ (List.mem_singleton.mpr rfl))
    have hown : (wordOwn s i f vs es go).own = [] := List.isEmpty_iff.mp (Bool.and_eq_true_iff.mp this).1
    rw [← hset (fun _ => false) fun _ => rfl]
    have e : (s.addWord i f (wordOwn s i f vs es go)).chain.settled (fun _ => false) = { (s.addWord i f (wordOwn s i f vs es go)).chain with
        outs := settleAll (fun _ => false) [] (s.chain.outs ++ [wordOwn s i f vs es go]) } := rfl
    rw [e]
    rw [settleAll_quiet _ _ _ _ (wordOwn s i f vs es go) (fun x hx => (R.quiet x hx).2.1) fun b _ => by unfold WordOut.settle; rw [hown]]
    rfl
  · have hc := claims_ready (f := f) (vs := vs) (go := go) R.quiet hroom.2.2.1 s.workTable hroom.2.2.2
    have hd' : ((s.addWord i f (wordOwn s i f vs es go)).chain.claims s.workTable []).settled (fun l => ([] : List Nat).contains l) = (withWord s i f es).chain := by
      rw [hc]; exact hset _ fun l => List.contains_nil
    show (if _ then _ else _) = _
    have hw : (s.addWord i f (wordOwn s i f vs es go)).workTable = s.workTable := rfl
    simp only [hw, hd']
    rw [wordFates_ready R (s.addWord i f (wordOwn s i f vs es go)) rfl]
    have hr : (s.addWord i f (wordOwn s i f vs es go)).races (withWord s i f es).chain (lanesOf s.chain.lanes) = [] := by
      have h1 := races_chain s (s.addWord i f (wordOwn s i f vs es go)).chain (withWord s i f es).chain (lanesOf s.chain.lanes)
      have h2 := races_chain s (withWord s i f es).chain (withWord s i f es).chain (lanesOf s.chain.lanes)
      exact h1.trans (h2.symm.trans hroom.1)
    rw [hr]; rfl
/-- A word that is ready, in a group with room, gives its effects to its executing lanes and completes. -/
theorem exec_ready (R : Ready s i f vs) (hgo : go s (rowsOf s i vs) = (executing s i).map fun l => (l, .ok (es l)))
    (hd : ∀ d c w b, f.dst = some (d, c, w, b) → mqOf d ≠ none → s.holds s.chain.core s.chain.grp = true) (hroom : Room s i f es) :
    s.word false i go = .next (after s i f es) := by
  unfold State.word
  rw [R.form]
  dsimp only
  rw [if_pos R.active]
  unfold State.runWord
  rw [R.checks]
  dsimp only
  rw [if_neg (by decide), wordOut_ready R hgo hd]
  have := endChain_ok (s := withWord s i f es) (fun l _ => fate_withWord R.quiet l) R.lanes R.plain hroom.1 hroom.2.1
  have hc : (s.addWord i f (wordOwn s i f vs es go)).commit = (withWord s i f es).endChain := by
    unfold State.commit
    rw [settledChain_ready R hgo hd hroom]; rfl
  show Host.Outcome.next (s.addWord i f (wordOwn s i f vs es go)).commit = _
  rw [hc, this]; rfl

/-! ### Effects local to their lanes -/
theorem setGroup_setGroup (s : State) (c g : Nat) (x y : Group) : (s.setGroup c g x).setGroup c g y = s.setGroup c g y := by
  unfold State.setGroup
  simp only [State.core_setCore_same, Tbl.put_put]
  unfold State.setCore
  simp only [Tbl.put_put]
/-- Update one lane of a group. -/
def Group.updL (g : Group) (l : Nat) (f : Lane → Lane) : Group := g.setLane l (f (g.lane l))
theorem Group.lane_updL (g : Group) (l k : Nat) (f : Lane → Lane) : (g.updL l f).lane k = if l = k then f (g.lane l) else g.lane k := by
  simp only [Group.updL, Group.lane_setLane]
theorem updLane_eq (s : State) (c g l : Nat) (f : Lane → Lane) : s.updLane c g l f = s.setGroup c g ((s.group c g).updL l f) := rfl
theorem updLane_setGroup (s : State) (c g l : Nat) (x : Group) (f : Lane → Lane) : (s.setGroup c g x).updLane c g l f = s.setGroup c g (x.updL l f) := by
  rw [updLane_eq, State.group_setGroup_same, setGroup_setGroup]
theorem updGroup_setGroup (s : State) (c g : Nat) (x : Group) (f : Group → Group) : (s.setGroup c g x).updGroup c g f = s.setGroup c g (f x) := by
  rw [State.updGroup, State.group_setGroup_same, setGroup_setGroup]
/-- A local effect on the group. -/
def isYield : Eff → Bool
  | .yield => true
  | _ => false
theorem onLane_yield (now : Nat) {e : Eff} (h : isYield e = true) (x : Lane) : onLane now e x = x := by
  cases e <;> first | rfl | exact Bool.noConfusion h
def Group.runEff (now l : Nat) (g : Group) (e : Eff) : Group := if isYield e = true then g else g.updL l (onLane now e)
theorem perform_local (s : State) (c g l : Nat) (x : Group) {e : Eff} (h : isLocal e = true) :
    (s.setGroup c g x).perform c g l e = s.setGroup c g (x.runEff s.now l e) := by
  cases e with
  | yield => rfl
  | result d n v sh => exact updLane_setGroup s c g l x (onLane s.now (.result d n v sh))
  | pred p v => exact updLane_setGroup s c g l x (onLane s.now (.pred p v))
  | flags fl => exact updLane_setGroup s c g l x (onLane s.now (.flags fl))
  | jump pc => exact updLane_setGroup s c g l x (onLane s.now (.jump pc))
  | special sr v => exact updLane_setGroup s c g l x (onLane s.now (.special sr v))
  | sleep n => exact updLane_setGroup s c g l x (onLane s.now (.sleep n))
  | wfenceEnd => exact updLane_setGroup s c g l x (onLane s.now .wfenceEnd)
  | _ => exact Bool.noConfusion h
theorem Group.lane_runEff (now l k : Nat) (g : Group) (e : Eff) : (g.runEff now l e).lane k = if l = k then onLane now e (g.lane k) else g.lane k := by
  unfold Group.runEff
  split
  · rename_i h; rw [onLane_yield now h]; split <;> rfl
  · rw [Group.lane_updL]; split
    · rename_i h; subst h; rfl
    · rfl
/-- Groups that differ at most in their lanes. -/
def Group.sameBut (g h : Group) : Prop := h = { g with lanes := h.lanes }
theorem Group.sameBut_refl (g : Group) : g.sameBut g := rfl
theorem Group.sameBut_trans {a b c : Group} (h : a.sameBut b) (k : b.sameBut c) : a.sameBut c := by
  unfold Group.sameBut at *; rw [k, h]
theorem Group.sameBut_updL (g : Group) (l : Nat) (f : Lane → Lane) : g.sameBut (g.updL l f) := rfl
theorem Group.sameBut_runEff (g : Group) (now l : Nat) (e : Eff) : g.sameBut (g.runEff now l e) := by
  unfold Group.runEff; split
  · rfl
  · exact Group.sameBut_updL ..
theorem Group.runEffs (now l : Nat) (es : List Eff) (g : Group) :
    g.sameBut (es.foldl (Group.runEff now l) g) ∧
    ∀ k, (es.foldl (Group.runEff now l) g).lane k = if l = k then es.foldl (fun x e => onLane now e x) (g.lane k) else g.lane k := by
  induction es generalizing g with
  | nil => exact ⟨rfl, fun k => by simp⟩
  | cons e es ih =>
    obtain ⟨i1, i2⟩ := ih (g.runEff now l e)
    refine ⟨Group.sameBut_trans (Group.sameBut_runEff ..) i1, fun k => ?_⟩
    simp only [List.foldl_cons, i2, Group.lane_runEff]
    split <;> rfl
/-- The effects of several lanes. -/
def Group.runRows (now : Nat) (xs : List (Nat × List Eff)) (g : Group) : Group := xs.foldl (fun g p => p.2.foldl (Group.runEff now p.1) g) g
theorem Group.runRows_spec (now : Nat) (xs : List (Nat × List Eff)) (hn : (xs.map (·.1)).Nodup) (g : Group) :
    g.sameBut (g.runRows now xs) ∧
    ∀ k, (g.runRows now xs).lane k = ((Tbl.find xs k).getD []).foldl (fun x e => onLane now e x) (g.lane k) := by
  induction xs generalizing g with
  | nil => exact ⟨rfl, fun k => rfl⟩
  | cons p xs ih =>
    obtain ⟨l, es⟩ := p
    simp only [List.map_cons, List.nodup_cons] at hn
    obtain ⟨a1, a2⟩ := Group.runEffs now l es g
    obtain ⟨i1, i2⟩ := ih hn.2 (es.foldl (Group.runEff now l) g)
    refine ⟨Group.sameBut_trans a1 i1, fun k => ?_⟩
    show (Group.runRows now xs (es.foldl (Group.runEff now l) g)).lane k = _
    rw [i2, a2, Tbl.find_cons]
    by_cases e : l = k
    · subst e
      have : Tbl.find xs l = none := by
        cases h : Tbl.find xs l with
        | none => rfl
        | some v => exact absurd (List.mem_map_of_mem (f := (·.1)) (find_mem h)) hn.1
      simp [this]
    · simp [e]

/-! ### One word of local effects -/
theorem performRows_local (s : State) (c g : Nat) (xs : List (Nat × List Eff)) (h : ∀ p ∈ xs, ∀ e ∈ p.2, isLocal e = true) (x : Group) :
    xs.foldl (fun s p => p.2.foldl (fun s e => s.perform c g p.1 e) s) (s.setGroup c g x) = s.setGroup c g (x.runRows s.now xs) := by
  have one : ∀ (l : Nat) (es : List Eff), (∀ e ∈ es, isLocal e = true) → ∀ x : Group,
      es.foldl (fun s e => s.perform c g l e) (s.setGroup c g x) = s.setGroup c g (es.foldl (Group.runEff s.now l) x) := by
    intro l es
    induction es with
    | nil => intros; rfl
    | cons e es ih =>
      intro h x
      simp only [List.foldl_cons]
      rw [perform_local s c g l x (h e (List.mem_cons_self ..))]
      exact ih (fun e he => h e (List.mem_cons_of_mem _ he)) _
  induction xs generalizing x with
  | nil => rfl
  | cons p xs ih =>
    simp only [List.foldl_cons, Group.runRows]
    rw [one p.1 p.2 (h p (List.mem_cons_self ..)) x]
    exact ih (fun p hp => h p (List.mem_cons_of_mem _ hp)) _
/-- Nothing in a list of local effects answers to a test that no local effect passes. -/
theorem findSome_local {β : Type} {xs : List (Nat × List Eff)} (h : ∀ p ∈ xs, ∀ e ∈ p.2, isLocal e = true) (t : Eff → Option β)
    (ht : ∀ e, isLocal e = true → t e = none) : xs.findSome? (fun p => p.2.findSome? t) = none := by
  rw [List.findSome?_eq_none_iff]; intro p hp
  rw [List.findSome?_eq_none_iff]; intro e he
  exact ht e (h p hp e he)
theorem blocks_local (s : State) (c g : Nat) (xs : List (Nat × List Eff)) (h : ∀ p ∈ xs, ∀ e ∈ p.2, isLocal e = true) : s.blocks c g xs = s := by
  unfold State.blocks
  refine foldl_id _ _ _ fun q _ => ?_
  have hm : ∀ p ∈ xs.filter (fun p => quarterOf p.1 == q), ∀ e ∈ p.2, isLocal e = true := fun p hp => h p (List.mem_filter.mp hp).1
  unfold State.blockLoad State.blockStore
  dsimp only
  rw [findSome_local hm Eff.loadBlk? (fun e he => by cases e <;> first | rfl | exact Bool.noConfusion he)]
  dsimp only
  rw [findSome_local hm Eff.storeBlk? (fun e he => by cases e <;> first | rfl | exact Bool.noConfusion he)]
theorem addCopies_local (s : State) (c g : Nat) (xs : List (Nat × List Eff)) (h : ∀ p ∈ xs, ∀ e ∈ p.2, isLocal e = true) : s.addCopies c g xs = s := by
  have : (xs.flatMap fun p => p.2.filterMap (Eff.copyBy p.1)) = [] := by
    rw [List.flatMap_eq_nil_iff]; intro p hp
    rw [List.filterMap_eq_nil_iff]; intro e he
    have := h p hp e he
    cases e <;> first | rfl | exact Bool.noConfusion this
  unfold State.addCopies
  simp only [this]; rfl
theorem storedBytes_local (xs : List (Nat × List Eff)) (h : ∀ p ∈ xs, ∀ e ∈ p.2, isLocal e = true) : storedBytes xs = [] := by
  unfold storedBytes
  rw [List.flatMap_eq_nil_iff]; intro p hp
  rw [List.flatMap_eq_nil_iff]; intro e he
  have := h p hp e he
  cases e <;> first | rfl | exact Bool.noConfusion this
theorem atomsDropped_local (s : State) (xs : List (Nat × List Eff)) (h : ∀ p ∈ xs, ∀ e ∈ p.2, isLocal e = true) : s.atomsDropped xs = [] := by
  unfold State.atomsDropped
  rw [List.flatMap_eq_nil_iff]; intro p hp
  rw [List.filterMap_eq_nil_iff]; intro e he
  have := h p hp e he
  cases e <;> first | rfl | exact Bool.noConfusion this
@[simp] theorem clearStores_nil (s : State) (c : Nat) : s.clearStores c [] = s := by
  simp only [State.clearStores, List.filterMap_nil, List.isEmpty_nil, List.foldl_nil, List.eraseDups_nil, if_true]
@[simp] theorem droppedAtoms_nil (s : State) (c g : Nat) (pc : DWord) : s.droppedAtoms c g pc [] = s := by
  simp only [State.droppedAtoms, List.map_nil, List.eraseDups_nil, List.foldl_nil]
/-- One word of local effects, on its group. -/
def WordOut.onGroup (w : WordOut) (now : Nat) (oks : List Nat) (g : Group) : Group :=
  let xs := w.rows oks
  let g := w.regShadows xs { g with mqa := g.mqa ++ w.entries xs 0, mqb := g.mqb ++ w.entries xs 1 }
  w.pop xs (writeScalar xs (g.runRows now xs))
theorem performWord_local (s : State) (c g : Nat) (pc : DWord) (w : WordOut) (oks : List Nat)
    (h : ∀ p ∈ w.rows oks, ∀ e ∈ p.2, isLocal e = true) (x : Group) :
    (s.setGroup c g x).performWord c g pc w oks = s.setGroup c g (w.onGroup s.now oks x) := by
  unfold State.performWord WordOut.onGroup
  simp only [updGroup_setGroup, atomsDropped_local _ _ h, blocks_local _ _ _ _ h, addCopies_local _ _ _ _ h, performRows_local _ _ _ _ h,
    storedBytes_local _ h, clearStores_nil, droppedAtoms_nil]

/-! ### The whole chain of local effects -/
/-- The lanes that completed, on their group. -/
def Group.advance (c : Chain) (t : Nat) (oks : List Nat) (g : Group) : Group := oks.foldl (fun g l => g.updL l (advanced c t)) g
theorem advanceLanes_eq (s : State) (c : Chain) (t : Nat) (oks : List Nat) (hne : oks ≠ []) :
    s.advanceLanes c t oks = s.setGroup c.core c.grp ((s.group c.core c.grp).advance c t oks) := by
  have go : ∀ (ls : List Nat) (x : Group), ls.foldl (fun s l => s.updLane c.core c.grp l (advanced c t)) (s.setGroup c.core c.grp x) =
      s.setGroup c.core c.grp (x.advance c t ls) := by
    intro ls
    induction ls with
    | nil => intros; rfl
    | cons l ls ih => intro x; simp only [List.foldl_cons, updLane_setGroup, ih]; rfl
  obtain ⟨l, ls, rfl⟩ := List.exists_cons_of_ne_nil hne
  show ls.foldl (fun s l => s.updLane c.core c.grp l (advanced c t)) (s.updLane c.core c.grp l (advanced c t)) = _
  rw [updLane_eq, go]; rfl
theorem Group.advance_spec (c : Chain) (t : Nat) (oks : List Nat) (hn : oks.Nodup) (g : Group) :
    g.sameBut (g.advance c t oks) ∧ ∀ k, (g.advance c t oks).lane k = if k ∈ oks then advanced c t (g.lane k) else g.lane k := by
  induction oks generalizing g with
  | nil => exact ⟨rfl, fun k => by simp [Group.advance]⟩
  | cons l ls ih =>
    simp only [List.nodup_cons] at hn
    obtain ⟨i1, i2⟩ := ih hn.2 (g.updL l (advanced c t))
    refine ⟨Group.sameBut_trans (Group.sameBut_updL ..) i1, fun k => ?_⟩
    show (Group.advance c t ls (g.updL l (advanced c t))).lane k = _
    rw [i2, Group.lane_updL]
    by_cases e : l = k
    · subst e; simp [hn.1]
    · have : ¬ k = l := fun h => e h.symm
      simp [e, this]
/-- The shadow queues after a chain, on its group. -/
def Group.queueShadows (ws : List WordOut) (oks : List Nat) (g : Group) : Group := (List.range 4).foldl (Group.pushShadows ws oks) g
theorem queueShadows_setGroup (s : State) (c g : Nat) (ws : List WordOut) (oks : List Nat) (x : Group) :
    (s.setGroup c g x).queueShadows c g ws oks = s.setGroup c g (x.queueShadows ws oks) := updGroup_setGroup ..

/-! ### What each stage leaves alone -/
/-- A fold over updates of one field updates that field. -/
theorem foldl_quarters {α : Type} (f : Group → α → Group) (hf : ∀ g a, ∃ q, f g a = { g with quarters := q }) (l : List α) (g : Group) :
    ∃ q, l.foldl f g = { g with quarters := q } := by
  induction l generalizing g with
  | nil => exact ⟨g.quarters, rfl⟩
  | cons a l ih =>
    obtain ⟨q, hq⟩ := hf g a
    rw [List.foldl_cons, hq]
    obtain ⟨q2, hq2⟩ := ih { g with quarters := q }
    exact ⟨q2, hq2⟩
theorem foldl_scalars {α : Type} (f : Group → α → Group) (hf : ∀ g a, ∃ q, f g a = { g with g := q }) (l : List α) (g : Group) :
    ∃ q, l.foldl f g = { g with g := q } := by
  induction l generalizing g with
  | nil => exact ⟨g.g, rfl⟩
  | cons a l ih =>
    obtain ⟨q, hq⟩ := hf g a
    rw [List.foldl_cons, hq]
    obtain ⟨q2, hq2⟩ := ih { g with g := q }
    exact ⟨q2, hq2⟩
theorem Group.queueShadows_same (ws : List WordOut) (oks : List Nat) (g : Group) : ∃ q, g.queueShadows ws oks = { g with quarters := q } := by
  refine foldl_quarters _ (fun g q => ?_) _ g
  unfold Group.pushShadows
  dsimp only
  split
  · exact ⟨g.quarters, rfl⟩
  · exact ⟨_, rfl⟩
theorem regShadows_same (w : WordOut) (xs : List (Nat × List Eff)) (g : Group) : ∃ q, w.regShadows xs g = { g with quarters := q } := by
  refine foldl_quarters _ (fun g p => foldl_quarters _ (fun g e => ?_) _ g) _ g
  unfold WordOut.regShadow
  split
  · exact ⟨_, rfl⟩
  · exact ⟨g.quarters, rfl⟩
theorem writeScalar_same (xs : List (Nat × List Eff)) (g : Group) : ∃ q, writeScalar xs g = { g with g := q } := by
  cases xs with
  | nil => exact ⟨g.g, rfl⟩
  | cons p xs =>
    refine foldl_scalars _ (fun g e => ?_) _ g
    unfold Group.setScalar
    split
    · exact ⟨_, rfl⟩
    · exact ⟨g.g, rfl⟩
theorem pop_same (w : WordOut) (xs : List (Nat × List Eff)) (g : Group) : w.pop xs g = { g with mqo := (w.pop xs g).mqo, wqi := (w.pop xs g).wqi } := by
  unfold WordOut.pop
  dsimp only
  split <;> split <;> rfl
/-- The release of rejoin masks touches modes of joined lanes and the masks alone. -/
theorem Group.lane_mapLanes (g : Group) (f : Nat → Lane → Lane) (l : Nat) (h0 : f l {} = {}) : (g.mapLanes f).lane l = f l (g.lane l) := by
  simp only [Group.mapLanes, Group.lane, Tbl.get, Tbl.find_mapV]
  cases Tbl.find g.lanes l with
  | none => exact h0.symm
  | some x => rfl
/-- What a release can do. -/
def Group.releasedFrom (g h : Group) : Prop :=
  h = { g with lanes := h.lanes, j := h.j } ∧
  ∀ l, h.lane l = g.lane l ∨ ((∃ j, (g.lane l).mode = .joined j) ∧ h.lane l = { g.lane l with mode := .ready })
theorem Group.releasedFrom_trans {a b c : Group} (h : a.releasedFrom b) (k : b.releasedFrom c) : a.releasedFrom c := by
  refine ⟨by rw [k.1, h.1], fun l => ?_⟩
  rcases h.2 l with e | ⟨e1, e2⟩
  · rcases k.2 l with e3 | ⟨e3, e4⟩
    · exact .inl (e3.trans e)
    · exact .inr ⟨by rw [← e]; exact e3, by rw [e4, e]⟩
  · rcases k.2 l with e3 | ⟨⟨j, e3⟩, e4⟩
    · exact .inr ⟨e1, by rw [e3, e2]⟩
    · rw [e2] at e3; cases e3
theorem Group.release1_from (g : Group) (j : Nat) : g.releasedFrom (g.release1 j) := by
  have key : g.releasedFrom (g.mapLanes fun _ x => if x.mode == .joined j then { x with mode := .ready } else x) := by
    refine ⟨rfl, fun l => ?_⟩
    rw [Group.lane_mapLanes _ _ _ (by rfl)]
    split
    · rename_i h; exact .inr ⟨⟨j, by simpa using h⟩, rfl⟩
    · exact .inl rfl
  unfold Group.release1
  dsimp only
  split
  · exact ⟨rfl, key.2⟩
  · split
    · exact key
    · exact ⟨rfl, fun l => .inl rfl⟩
theorem Group.release_from (g : Group) : g.releasedFrom g.release := by
  have : ∀ (l : List Nat) (g : Group), g.releasedFrom (l.foldl Group.release1 g) := by
    intro l
    induction l with
    | nil => intro g; exact ⟨rfl, fun _ => .inl rfl⟩
    | cons j l ih => intro g; exact Group.releasedFrom_trans (Group.release1_from g j) (ih _)
  exact this _ g

/-! ### A chain whose effects are local -/
theorem filterMap_same {α β : Type} (ls : List α) {f g : α → Option β} (h : ∀ a ∈ ls, f a = g a) : ls.filterMap f = ls.filterMap g := by
  induction ls with
  | nil => rfl
  | cons a ls ih => rw [List.filterMap_cons, List.filterMap_cons, h a (List.mem_cons_self ..), ih fun b hb => h b (List.mem_cons_of_mem _ hb)]
theorem filterMap_if {β : Type} (ls : List Nat) (q : Nat → Bool) (g : Nat → β) :
    ls.filterMap (fun l => if q l then some (g l) else none) = (ls.filter q).map g := by
  induction ls with
  | nil => rfl
  | cons l ls ih =>
    by_cases h : q l = true
    · rw [List.filter_cons_of_pos h, List.map_cons, List.filterMap_cons_some (b := g l) (by rw [if_pos h]), ih]
    · rw [List.filter_cons_of_neg h, List.filterMap_cons_none (by rw [if_neg h]), ih]
/-- The rows of the word are its executing lanes. -/
theorem rows_wordWith (h : Quiet s.chain) : (wordWith s i f es).rows (lanesOf s.chain.lanes) = (executing s i).map fun l => (l, es l) := by
  have he : executing s i = (lanesOf s.chain.lanes).filter fun l => isSel i || s.guardOn l := by unfold executing; rw [live_quiet h]
  have hr : ∀ l ∈ lanesOf s.chain.lanes, (wordWith s i f es).row l = if (isSel i || s.guardOn l) = true then some (l, es l) else none := by
    intro l hl
    unfold WordOut.row
    rw [find_wordWith, he]
    by_cases hq : (isSel i || s.guardOn l) = true
    · rw [if_pos (List.mem_filter.mpr ⟨hl, hq⟩), if_pos hq]
    · have hn : ¬ l ∈ (lanesOf s.chain.lanes).filter fun l => isSel i || s.guardOn l := fun h => hq (List.mem_filter.mp h).2
      rw [if_neg hn, if_neg hq]
  unfold WordOut.rows
  rw [filterMap_same _ hr, filterMap_if, ← he]
theorem rows_quiet {c : Chain} (h : Quiet c) {w : WordOut} (hw : w ∈ c.outs) (oks : List Nat) : ∀ p ∈ w.rows oks, p.2 = [] := by
  intro p hp
  obtain ⟨l, _, e⟩ := List.mem_filterMap.mp hp
  unfold WordOut.row at e
  cases e2 : Tbl.find w.outs l with
  | none => rw [e2] at e; cases e
  | some o => rw [e2, quiet_find h hw e2] at e; cases e; rfl
/-- A word that does nothing leaves its group alone. -/
theorem onGroup_quiet {w : WordOut} {oks : List Nat} (h : ∀ p ∈ w.rows oks, p.2 = []) (hp : w.pops = 0) (now : Nat) (g : Group) :
    w.onGroup now oks g = g := by
  have e1 : ∀ k, w.entries (w.rows oks) k = [] := by
    intro k
    have : (w.rows oks).filterMap (fun p => p.2.findSome? (w.entryOf k p.1)) = [] := by
      rw [List.filterMap_eq_nil_iff]; intro p hp; rw [h p hp]; rfl
    unfold WordOut.entries
    rw [this]; rfl
  have e2 : ∀ g, w.regShadows (w.rows oks) g = g := by
    intro g
    refine foldl_id _ _ _ fun p hp => ?_
    rw [h p hp]; rfl
  have e3 : ∀ g, Group.runRows now (w.rows oks) g = g := by
    intro g
    refine foldl_id _ _ _ fun p hp => ?_
    rw [h p hp]; rfl
  have e4 : ∀ g, writeScalar (w.rows oks) g = g := by
    intro g
    cases hx : w.rows oks with
    | nil => rfl
    | cons p xs => show p.2.foldl _ g = g; rw [h p (by rw [hx]; exact List.mem_cons_self ..)]; rfl
  unfold WordOut.onGroup
  dsimp only
  rw [e1, e1, e2, e3, e4]
  unfold WordOut.pop
  rw [hp]
  simp only [List.append_nil]
  rfl
theorem performWords_local (s : State) (c g : Nat) (pc : DWord) (oks : List Nat) (ws : List WordOut)
    (h : ∀ w ∈ ws, ∀ p ∈ w.rows oks, ∀ e ∈ p.2, isLocal e = true) (x : Group) :
    ws.foldl (fun s w => s.performWord c g pc w oks) (s.setGroup c g x) = s.setGroup c g (ws.foldl (fun g w => w.onGroup s.now oks g) x) := by
  induction ws generalizing x with
  | nil => rfl
  | cons w ws ih =>
    simp only [List.foldl_cons]
    rw [performWord_local s c g pc w oks (h w (List.mem_cons_self ..)) x]
    exact ih (fun w hw => h w (List.mem_cons_of_mem _ hw)) _
/-- The group after a chain of local effects. -/
def groupAfter (s : State) (i : Instr) (f : Form) (es : Nat → List Eff) : Group :=
  let s1 := withWord s i f es
  let ls := lanesOf s.chain.lanes
  ((wordWith s i f es).onGroup s.now ls (s.cgroup.advance s1.chain (timeAfter s) ls)
    |>.queueShadows s1.chain.outs ls).release
theorem after_eq (hq : Quiet s.chain) (hl : lanesOf s.chain.lanes ≠ []) (hloc : ∀ l ∈ executing s i, ∀ e ∈ es l, isLocal e = true) :
    after s i f es = { s.setGroup s.chain.core s.chain.grp (groupAfter s i f es) with
      chain := (withWord s i f es).chain.finished, now := clockAfter s } := by
  have heff : ∀ l, ∀ e ∈ (withWord s i f es).chain.effs l, isLocal e = true := by
    intro l e he
    rw [effs_withWord hq] at he
    split at he
    · rename_i h; exact hloc l h e he
    · cases he
  have h1 := advanceLanes_eq (withWord s i f es) (withWord s i f es).chain (timeAfter s) _ hl
  have h2 := performWords_local (withWord s i f es) s.chain.core s.chain.grp s.chain.pc (lanesOf s.chain.lanes) (withWord s i f es).chain.outs (by
    intro w hw p hp e he
    rcases mem_withWord hw with hw | rfl
    · rw [rows_quiet hq hw _ p hp] at he; cases he
    · rw [rows_wordWith hq] at hp
      obtain ⟨l, hl2, rfl⟩ := List.mem_map.mp hp
      exact hloc l hl2 e he)
  have h3 : ∀ x : Group, (withWord s i f es).chain.outs.foldl (fun g w => w.onGroup s.now (lanesOf s.chain.lanes) g) x =
      (wordWith s i f es).onGroup s.now (lanesOf s.chain.lanes) x := by
    intro x
    rw [withWord_outs, List.foldl_append]
    rw [foldl_id _ _ _ fun w hw => onGroup_quiet (rows_quiet hq hw _) (hq w hw).1 _ _]
    rfl
  have hj : ∀ x : Group, ((lanesOf s.chain.lanes).foldl (fun (g : Group) l => ((withWord s i f es).chain.effs l).foldl (Group.joinBy l) g) x) = x := by
    intro x
    refine foldl_id _ _ _ fun l _ => foldl_id _ _ _ fun e he => ?_
    have := heff l e he
    cases e <;> first | rfl | exact Bool.noConfusion this
  have hx : ∀ p : Eff → Bool, (∀ e, isLocal e = true → p e = false) → ((lanesOf s.chain.lanes).any fun l => ((withWord s i f es).chain.effs l).any p) = false := by
    intro p hp
    rw [List.any_eq_false]; intro l _
    rw [Bool.not_eq_true, List.any_eq_false]; intro e he
    rw [hp e (heff l e he)]; exact Bool.false_ne_true
  have hr : ∀ z : State, z.returns (withWord s i f es).chain (lanesOf s.chain.lanes) = z := by
    intro z
    unfold State.returns
    refine foldl_id _ _ _ fun l _ => ?_
    rw [if_neg]
    rw [Bool.not_eq_true, List.any_eq_false]; intro e he
    have := heff l e he
    cases e <;> first | exact Bool.false_ne_true | exact Bool.noConfusion this
  have hf : ((lanesOf s.chain.lanes).filterMap fun l => ((withWord s i f es).chain.effs l).findSome? (Eff.fenceBy l)) = [] := by
    rw [List.filterMap_eq_nil_iff]; intro l _
    rw [List.findSome?_eq_none_iff]; intro e he
    have := heff l e he
    cases e <;> first | rfl | exact Bool.noConfusion this
  have h4 : ∀ z : State, z.leaves' (withWord s i f es).chain (lanesOf s.chain.lanes) = z := by
    intro z
    unfold State.leaves'
    rw [hx Eff.isExit (fun e he => by cases e <;> first | rfl | exact Bool.noConfusion he),
      hx Eff.isBar (fun e he => by cases e <;> first | rfl | exact Bool.noConfusion he)]
    rfl
  have h5 : ∀ z : State, z.fences (withWord s i f es).chain (lanesOf s.chain.lanes) = z := by
    intro z
    unfold State.fences
    rw [hf]
  have key : (withWord s i f es).effects (withWord s i f es).chain (timeAfter s) (lanesOf s.chain.lanes) =
      (withWord s i f es).setGroup s.chain.core s.chain.grp (groupAfter s i f es) := by
    unfold State.effects
    dsimp only
    rw [h1]
    rw [hr]
    show State.fences (State.leaves' (State.joins (State.queueShadows (List.foldl (fun s_1 w => s_1.performWord s.chain.core s.chain.grp s.chain.pc w (lanesOf s.chain.lanes))
      ((withWord s i f es).setGroup s.chain.core s.chain.grp _) (withWord s i f es).chain.outs) s.chain.core s.chain.grp _ _) _ _) _ _) _ _ = _
    rw [h2, queueShadows_setGroup, h5, h4]
    unfold State.joins
    show State.updGroup _ s.chain.core s.chain.grp _ = _
    rw [updGroup_setGroup, hj]
    show (withWord s i f es).setGroup _ _ (Group.release (Group.queueShadows _ _ ((withWord s i f es).chain.outs.foldl (fun g w => w.onGroup s.now (lanesOf s.chain.lanes) g) _))) = _
    rw [h3]
    rfl
  unfold after
  dsimp only
  rw [key]
  rfl

end Sys2Proof.Machine
end

