-- ==== Sys2Proof/Laws/Fields.lean ====
section
/-! SUPPORT. The fields of an encoded word (R33 to R47): what each field of a sum of fields reads back as, the codes of
operands and modifiers read back, and the checks of the decoder on a well-formed instruction. -/
set_option linter.unusedSectionVars false
namespace Sys2Proof.Laws
open Machine

/-! ### The shape of a word -/
/-- A word of the register format: function index and modifier in bits 7..0 (R33). -/
def wordR (maj : Nat) (ch : Bool) (d a b idx md : Nat) : Nat :=
  maj * 2 ^ 26 + bit01 ch * 2 ^ 31 + d * 2 ^ 20 + a * 2 ^ 14 + b * 2 ^ 8 + (8 * idx + md)
/-- A word with `lo` in bits 13..0. -/
def wordI (maj : Nat) (ch : Bool) (d a lo : Nat) : Nat :=
  maj * 2 ^ 26 + bit01 ch * 2 ^ 31 + d * 2 ^ 20 + a * 2 ^ 14 + lo

theorem bit01_le (b : Bool) : bit01 b ≤ 1 := by cases b <;> decide
theorem bit01_lt (b : Bool) : bit01 b < 2 := by cases b <;> decide
@[simp] theorem bit01_testBit (b : Bool) : Nat.testBit (bit01 b) 0 = b := by cases b <;> decide
theorem decide_bit01 (b : Bool) : decide (bit01 b % 2 = 1) = b := by cases b <;> decide

theorem bits_mod (x hi k n : Nat) (h : hi < n) (hk : k ≤ hi) : bits (x % 2 ^ n) hi k = bits x hi k := by
  apply Nat.eq_of_testBit_eq
  intro i
  simp only [bits, Nat.testBit_mod_two_pow, Nat.testBit_shiftRight]
  by_cases h1 : i < hi + 1 - k
  · have : k + i < n := by omega
    simp [h1, this]
  · simp [h1]

theorem wordR_eq (maj : Nat) (ch : Bool) (d a b idx md : Nat) :
    wordR maj ch d a b idx md = wordI maj ch d a (b * 2 ^ 8 + (8 * idx + md)) := by
  simp only [wordR, wordI]; omega

section
variable {maj d a lo : Nat} (ch : Bool) (hm : maj < 32) (hd : d < 64) (ha : a < 64) (hl : lo < 2 ^ 14)
include hm hd ha hl
theorem fMaj_wordI : fMaj (wordI maj ch d a lo) = maj := by
  have := bit01_le ch
  simp only [fMaj, bits, wordI, Nat.shiftRight_eq_div_pow]; omega
theorem fCh_wordI : fCh (wordI maj ch d a lo) = ch := by
  have : (wordI maj ch d a lo) / 2 ^ 31 = bit01 ch := by simp only [wordI]; have := bit01_le ch; omega
  simp only [fCh, bitAt, Nat.testBit_eq_decide_div_mod_eq, this, decide_bit01]
theorem fD_wordI : fD (wordI maj ch d a lo) = d := by
  simp only [fD, bits, wordI, Nat.shiftRight_eq_div_pow]; omega
theorem fA_wordI : fA (wordI maj ch d a lo) = a := by
  simp only [fA, bits, wordI, Nat.shiftRight_eq_div_pow]; omega
theorem bits_wordI {hi k : Nat} (h : hi < 14) (hk : k ≤ hi) : bits (wordI maj ch d a lo) hi k = bits lo hi k := by
  have e : wordI maj ch d a lo % 2 ^ 14 = lo := by simp only [wordI]; omega
  have := bits_mod (wordI maj ch d a lo) hi k 14 (by omega) hk
  rw [e] at this; exact this.symm
theorem bitAt_wordI {k : Nat} (h : k < 14) : bitAt (wordI maj ch d a lo) k = bitAt lo k := by
  have e : wordI maj ch d a lo % 2 ^ 14 = lo := by simp only [wordI]; omega
  have := Nat.testBit_mod_two_pow (wordI maj ch d a lo) 14 k
  rw [e] at this; simp [bitAt, this, h]
theorem wordI_lt : wordI maj ch d a lo < 2 ^ 32 := by
  have := bit01_le ch
  simp only [wordI]; omega
theorem wordI_ne (h31 : maj < 31) : wordI maj ch d a lo ≠ 0xFFFFFFFF := by
  have := bit01_le ch
  simp only [wordI]; omega
end

section
variable {maj d a b idx md : Nat} (ch : Bool) (hm : maj < 31) (hd : d < 64) (ha : a < 64) (hb : b < 64) (hi : idx < 32) (hq : md < 8)
include hm hd ha hb hi hq
theorem fMaj_wordR : fMaj (wordR maj ch d a b idx md) = maj := by
  rw [wordR_eq]; exact fMaj_wordI ch (by omega) hd ha (by omega)
theorem fCh_wordR : fCh (wordR maj ch d a b idx md) = ch := by
  rw [wordR_eq]; exact fCh_wordI ch (by omega) hd ha (by omega)
theorem fD_wordR : fD (wordR maj ch d a b idx md) = d := by
  rw [wordR_eq]; exact fD_wordI ch (by omega) hd ha (by omega)
theorem fA_wordR : fA (wordR maj ch d a b idx md) = a := by
  rw [wordR_eq]; exact fA_wordI ch (by omega) hd ha (by omega)
theorem fB_wordR : fB (wordR maj ch d a b idx md) = b := by
  simp only [fB, bits, wordR, Nat.shiftRight_eq_div_pow]; omega
theorem fC_wordR : fC (wordR maj ch d a b idx md) = 2 * idx + md / 4 := by
  simp only [fC, bits, wordR, Nat.shiftRight_eq_div_pow]; omega
theorem fIdx_wordR : fIdx (wordR maj ch d a b idx md) = idx := by
  simp only [fIdx, bits, wordR, Nat.shiftRight_eq_div_pow]; omega
theorem fMod_wordR : fMod (wordR maj ch d a b idx md) = md := by
  simp only [fMod, bits, wordR, Nat.shiftRight_eq_div_pow]; omega
theorem bitAt_wordR {k : Nat} (hk : k < 3) : bitAt (wordR maj ch d a b idx md) k = bitAt md k := by
  have e : wordR maj ch d a b idx md % 2 ^ 3 = md := by simp only [wordR]; omega
  have := Nat.testBit_mod_two_pow (wordR maj ch d a b idx md) 3 k
  rw [e] at this; simp [bitAt, this, hk]
theorem wordR_lt : wordR maj ch d a b idx md < 2 ^ 32 := by
  have := bit01_le ch
  simp only [wordR]; omega
theorem wordR_ne : wordR maj ch d a b idx md ≠ 0xFFFFFFFF := by
  have := bit01_le ch
  simp only [wordR]; omega
end

/-! ### Codes -/
@[simp] theorem srcOf_code (a : Src) : srcOf a.code = some a := by
  cases a with
  | n r => revert r; decide
  | q k => revert k; decide
  | g r => revert r; decide
  | _ => rfl
@[simp] theorem dstOf_code (d : Dst) : dstOf d.code = some d := by
  cases d with
  | n r => revert r; decide
  | g r => revert r; decide
  | _ => rfl
theorem src_lt (a : Src) : a.code < 64 := by
  cases a with
  | n r => have := r.isLt; simp only [Src.code]; omega
  | q r => have := r.isLt; simp only [Src.code]; omega
  | g r => have := r.isLt; simp only [Src.code]; omega
  | _ => decide
theorem dst_lt (d : Dst) : d.code < 64 := by
  cases d with
  | n r => have := r.isLt; simp only [Dst.code]; omega
  | g r => have := r.isLt; simp only [Dst.code]; omega
  | _ => decide
theorem getSrc_code (a : Src) : getSrc a.code = .ok a := by simp [getSrc]
theorem getDst_code (d : Dst) : getDst d.code = .ok d := by simp [getDst]
theorem psrc_lt (x : PSrc) : x.code < 16 := by
  have := x.p.isLt; have := bit01_le x.neg; simp only [PSrc.code]; omega
theorem psrcOf_code (x : PSrc) : psrcOf x.code = x := by
  obtain ⟨p, n⟩ := x
  revert p n; decide
theorem pdst_lt (x : PDst) : x.code < 64 := by
  have := x.p.isLt; have := x.comb.isLt; simp only [PDst.code]; omega
theorem pdstOf_code (x : PDst) : pdstOf x.code = x := by
  obtain ⟨p, c⟩ := x
  revert p c; decide
theorem scope_lt (x : Scope) : x.code < 6 := by cases x <;> decide
theorem scopeOf_code (x : Scope) : scopeOf x.code = x := by cases x <;> rfl
theorem aop_lt (x : AOp) : x.code < 9 := by cases x <;> decide
theorem aopOf_code (x : AOp) : aopOf x.code = x := by cases x <;> rfl
theorem afop_lt (x : AFOp) : x.code < 8 := by cases x <;> decide
theorem afopOf_code (x : AFOp) : afopOf x.code = x := by cases x <;> rfl
theorem drain_lt (x : DrainFmt) : x.code < 5 := by cases x <;> decide
theorem drainOf_code (x : DrainFmt) : drainOf x.code = x := by cases x <;> rfl
theorem fty_lt (x : FTy) : x.code < 5 := by cases x <;> decide
theorem ftyOf_code (x : FTy) : ftyOf x.code = x := by cases x <;> rfl
theorem efmt_lt (x : EFmt) : x.code < 6 := by cases x <;> decide
theorem efmtOf_code (x : EFmt) : efmtOf x.code = x := by cases x <;> rfl
theorem fill_lt (x : Fill) : x.code < 4 := by cases x <;> decide
theorem fillOf_code (x : Fill) : fillOf x.code = x := by cases x <;> rfl
theorem vote_lt (x : VoteOp) : x.code < 4 := by cases x <;> decide
theorem voteOf_code (x : VoteOp) : voteOf x.code = x := by cases x <;> rfl
theorem cond_lt (x : Cond) : x.code < 8 := by cases x <;> decide
theorem condOf_code (x : Cond) : condOf x.code = x := by cases x <;> rfl
theorem plog_lt (x : PLog) : x.code < 4 := by cases x <;> decide
theorem plogOf_code (x : PLog) : plogOf x.code = x := by cases x <;> rfl
theorem redOp_lt (x : RedOp) : x.code < 8 := by cases x <;> decide
theorem redOpOf_code (x : RedOp) : redOpOf x.code = x := by cases x <;> rfl

/-! ### Modifier bits -/
theorem bits3_lt (x y z : Bool) : bit01 x * 4 + bit01 y * 2 + bit01 z < 8 := by cases x <;> cases y <;> cases z <;> decide
theorem bits3_2 (x y z : Bool) : bitAt (bit01 x * 4 + bit01 y * 2 + bit01 z) 2 = x := by cases x <;> cases y <;> cases z <;> decide
theorem bits3_1 (x y z : Bool) : bitAt (bit01 x * 4 + bit01 y * 2 + bit01 z) 1 = y := by cases x <;> cases y <;> cases z <;> decide
theorem bits3_0 (x y z : Bool) : bitAt (bit01 x * 4 + bit01 y * 2 + bit01 z) 0 = z := by cases x <;> cases y <;> cases z <;> decide

/-! ### The checks of the decoder -/
theorem finish_ok {i : Instr} (h : i.wf = true) : finish i = .ok i := by
  unfold Instr.wf at h
  unfold finish
  split at h
  · exact absurd h (by decide)
  · rename_i f e
    simp only [Bool.and_eq_true] at h
    obtain ⟨⟨⟨⟨_, h1⟩, h2⟩, h3⟩, h4⟩ := h
    simp [e, req, h1, h2, h3, h4, bind, Except.bind, pure, Except.pure]
theorem mods_ok {i : Instr} (h : i.wf = true) : i.modsOk = true := by
  unfold Instr.wf at h
  split at h
  · exact absurd h (by decide)
  · simp only [Bool.and_eq_true] at h; exact h.1.1.1.1
theorem form_ok {i : Instr} {f : Form} (e : i.form = some f) (h : i.wf = true) :
    f.srcsOk = true ∧ f.dstOk = true ∧ f.aligned = true ∧ f.rawOk = true := by
  unfold Instr.wf at h
  rw [e] at h
  simp only [Bool.and_eq_true] at h; exact ⟨h.1.1.1.2, h.1.1.2, h.1.2, h.2⟩
theorem twice_of {l : List (Src × Wd)} (h : popsOnce l = true) : twice (l.map (·.1)) = false := by
  simp only [popsOnce, Bool.and_eq_true, decide_eq_true_eq] at h
  simp only [twice, List.filter_map, List.length_map, Bool.or_eq_false_iff, decide_eq_false_iff_not, Nat.not_lt]
  exact h
theorem once_of {i : Instr} {f : Form} (e : i.form = some f) (h : i.wf = true) : twice (f.srcs.map (·.1)) = false :=
  twice_of (form_ok e h).1
theorem mk4_ok {w : Nat} {k : Dst → Src → Src → Src → Instr} {d a b c} (hd : fD w = d.code) (ha : fA w = a.code) (hb : fB w = b.code)
    (hc : fC w = c.code) (ht : twice [a, b, c] = false) (h : (k d a b c).wf = true) : mk4 w k = .ok (k d a b c) := by
  simp [mk4, hd, ha, hb, hc, getSrc_code, getDst_code, req, ht, finish_ok h, bind, Except.bind]
theorem mk3_ok {w : Nat} {k : Dst → Src → Src → Instr} {d a b} (hd : fD w = d.code) (ha : fA w = a.code) (hb : fB w = b.code)
    (ht : twice [a, b] = false) (h : (k d a b).wf = true) : mk3 w k = .ok (k d a b) := by
  simp [mk3, hd, ha, hb, getSrc_code, getDst_code, req, ht, finish_ok h, bind, Except.bind]
theorem mk2_ok {w : Nat} {k : Dst → Src → Instr} {d a} (hd : fD w = d.code) (ha : fA w = a.code) (h : (k d a).wf = true) :
    mk2 w k = .ok (k d a) := by
  simp [mk2, hd, ha, getSrc_code, getDst_code, finish_ok h, bind, Except.bind]
theorem mk1_ok {w : Nat} {k : Dst → Instr} {d} (hd : fD w = d.code) (h : (k d).wf = true) : mk1 w k = .ok (k d) := by
  simp [mk1, hd, getDst_code, finish_ok h, bind, Except.bind]
theorem mkAB_ok {w : Nat} {k : Src → Src → Instr} {a b} (ha : fA w = a.code) (hb : fB w = b.code) (h : (k a b).wf = true) :
    mkAB w k = .ok (k a b) := by
  simp [mkAB, ha, hb, getSrc_code, finish_ok h, bind, Except.bind]
theorem mkA_ok {w : Nat} {k : Src → Instr} {a} (ha : fA w = a.code) (h : (k a).wf = true) : mkA w k = .ok (k a) := by
  simp [mkA, ha, getSrc_code, finish_ok h, bind, Except.bind]
theorem mkB_ok {w : Nat} {k : Src → Instr} {b} (hb : fB w = b.code) (h : (k b).wf = true) : mkB w k = .ok (k b) := by
  simp [mkB, hb, getSrc_code, finish_ok h, bind, Except.bind]
theorem mkSt_ok {w : Nat} {k : Src → Src → Instr} {v a} (hd : fD w = v.code) (ha : fA w = a.code) (h : (k v a).wf = true) :
    mkSt w k = .ok (k v a) := by
  simp [mkSt, hd, ha, getSrc_code, finish_ok h, bind, Except.bind]
theorem gate_ok {m r : Bool} (hm : m = true) (hr : r = true) : gate m r = .ok () := by simp [gate, req, hm, hr, bind, Except.bind]
theorem gate_bind {m r : Bool} {x : Except Nat Instr} (hm : m = true) (hr : r = true) : (gate m r >>= fun _ => x) = x := by
  rw [gate_ok hm hr]; rfl
theorem req_bind {m : Bool} {n : Nat} {x : Except Nat Instr} (hm : m = true) : (req m n >>= fun _ => x) = x := by
  rw [req, if_pos hm]; rfl

end Sys2Proof.Laws
end

