-- ==== Sys2Proof/Laws/Local.lean ====
section
/-! SUPPORT. What a word of effects local to their lanes leaves, field by field: the frame (`frame_local`), a result (`gives_each`,
`gives_row`), and a change of each lane alone (`does_each`). -/
namespace Sys2Proof.Machine
open Sys2Proof.Safety

/-! ### Lanes -/
@[simp] theorem Lane.setReg_mode (x : Lane) (r : Nat) (v : Reg) : (x.setReg r v).mode = x.mode := rfl
@[simp] theorem Lane.push_mode (x : Lane) (e : QEnt) : (x.push e).mode = x.mode := rfl
@[simp] theorem Lane.writeRegs_mode (x : Lane) (r n v : Nat) : (x.writeRegs r n v).mode = x.mode := by
  induction n generalizing x r v with
  | zero => rfl
  | succ n ih => simp [Lane.writeRegs, ih]
@[simp] theorem Lane.pushVal_mode (x : Lane) (bits v : Nat) : (x.pushVal bits v).mode = x.mode := by
  unfold Lane.pushVal; split <;> rfl
@[simp] theorem Lane.write_mode (x : Lane) (d : Dst) (bits v : Nat) : (x.write d bits v).mode = x.mode := by
  unfold Lane.write; split <;> simp
@[simp] theorem Lane.writePred_mode (x : Lane) (p : Nat) (v : Bool) : (x.writePred p v).mode = x.mode := by
  unfold Lane.writePred; split <;> rfl
@[simp] theorem Lane.writeSr_mode (x : Lane) (sr : Nat) (v : DWord) : (x.writeSr sr v).mode = x.mode := by
  unfold Lane.writeSr; split <;> rfl
@[simp] theorem onLane_result (now : Nat) (d : Dst) (n : Nat) (v : QWord) (sh : Option Shadow) (x : Lane) :
    onLane now (.result d n v sh) x = x.write d n v.toNat := rfl
@[simp] theorem onLane_pred (now p : Nat) (v : Bool) (x : Lane) : onLane now (.pred p v) x = x.writePred p v := rfl
@[simp] theorem onLane_flags (now : Nat) (f : Flags) (x : Lane) : onLane now (.flags f) x = { x with status := x.status ||| f.word } := rfl
@[simp] theorem onLane_jump (now : Nat) (pc : DWord) (x : Lane) : onLane now (.jump pc) x = x.jump pc := rfl
@[simp] theorem onLane_special (now sr : Nat) (v : DWord) (x : Lane) : onLane now (.special sr v) x = x.writeSr sr v := rfl
@[simp] theorem onLane_sleep (now n : Nat) (x : Lane) :
    onLane now (.sleep n) x = if n = 0 then x else { x with mode := .sleeping (now + n) } := rfl
/-- A lane that is at no `join`. -/
def Lane.unjoined (x : Lane) : Prop := ∀ j, x.mode ≠ .joined j
theorem Lane.unjoined_mode {x y : Lane} (h : y.mode = x.mode) (hx : x.unjoined) : y.unjoined := fun j => by rw [h]; exact hx j
theorem onLane_unjoined (now : Nat) {e : Eff} (h : isLocal e = true) {x : Lane} (hx : x.unjoined) : (onLane now e x).unjoined := by
  cases e with
  | result d n v sh => exact Lane.unjoined_mode (Lane.write_mode ..) hx
  | pred p v => exact Lane.unjoined_mode (Lane.writePred_mode ..) hx
  | special sr v => exact Lane.unjoined_mode (Lane.writeSr_mode ..) hx
  | sleep n =>
    unfold onLane; dsimp only; split
    · exact hx
    · intro j h; cases h
  | flags _ | jump _ | sync | wfenceEnd | yield => exact hx
  | _ => exact Bool.noConfusion h
theorem onLanes_unjoined (now : Nat) (es : List Eff) (h : ∀ e ∈ es, isLocal e = true) {x : Lane} (hx : x.unjoined) :
    (es.foldl (fun x e => onLane now e x) x).unjoined := by
  induction es generalizing x with
  | nil => exact hx
  | cons e es ih =>
    exact ih (fun e he => h e (List.mem_cons_of_mem _ he)) (onLane_unjoined now (h e (List.mem_cons_self ..)) hx)

/-! ### The masks -/
theorem Group.release1_masks (g : Group) (k j : Nat) : Tbl.get (g.release1 k).j j 0 = Tbl.get g.j j 0 ∨ Tbl.get (g.release1 k).j j 0 = 0 := by
  unfold Group.release1
  dsimp only
  split
  · by_cases e : k = j
    · right; show Tbl.get (Tbl.del g.j k) j 0 = 0; rw [Tbl.get_del, if_pos e]
    · left; show Tbl.get (Tbl.del g.j k) j 0 = _; rw [Tbl.get_del, if_neg e]
  · split <;> exact .inl rfl
theorem Group.release_masks (g : Group) (j : Nat) : Tbl.get g.release.j j 0 = Tbl.get g.j j 0 ∨ Tbl.get g.release.j j 0 = 0 := by
  have : ∀ (l : List Nat) (g : Group), Tbl.get (l.foldl Group.release1 g).j j 0 = Tbl.get g.j j 0 ∨ Tbl.get (l.foldl Group.release1 g).j j 0 = 0 := by
    intro l
    induction l with
    | nil => exact fun g => .inl rfl
    | cons k l ih =>
      intro g
      rcases ih (g.release1 k) with e | e
      · rcases Group.release1_masks g k j with e2 | e2
        · exact .inl (e.trans e2)
        · exact .inr (e.trans e2)
      · exact .inr e
  exact this _ g

/-! ### The group after the chain -/
variable {s : State} {i : Instr} {f : Form} {vs : Nat → List Nat} {es : Nat → List Eff} {go : Body}
/-- The word's rows. -/
def rowsWith (s : State) (i : Instr) (es : Nat → List Eff) : List (Nat × List Eff) := (executing s i).map fun l => (l, es l)
/-- The group up to the word's own effects on lanes. -/
def groupRun (s : State) (i : Instr) (f : Form) (es : Nat → List Eff) : Group :=
  let w := wordWith s i f es
  let xs := rowsWith s i es
  let g := s.cgroup.advance (withWord s i f es).chain (timeAfter s) (lanesOf s.chain.lanes)
  Group.runRows s.now xs (w.regShadows xs { g with mqa := g.mqa ++ w.entries xs 0, mqb := g.mqb ++ w.entries xs 1 })
theorem groupAfter_run (hq : Quiet s.chain) : groupAfter s i f es =
    (((wordWith s i f es).pop (rowsWith s i es) (writeScalar (rowsWith s i es) (groupRun s i f es))).queueShadows
      (withWord s i f es).chain.outs (lanesOf s.chain.lanes)).release := by
  unfold groupAfter WordOut.onGroup groupRun
  dsimp only
  rw [rows_wordWith hq]; rfl
theorem lane_of_lanes {g h : Group} (e : g.lanes = h.lanes) (l : Nat) : g.lane l = h.lane l := by simp only [Group.lane, e]
theorem find_rowsWith (l : Nat) : Tbl.find (rowsWith s i es) l = if l ∈ executing s i then some (es l) else none := find_map_pair _ _ l
/-- The shadows written depend on the shadows alone. -/
theorem regShadows_quarters (w : WordOut) (xs : List (Nat × List Eff)) {g h : Group} (e : g.quarters = h.quarters) :
    (w.regShadows xs g).quarters = (w.regShadows xs h).quarters := by
  have one : ∀ (l : Nat) (es : List Eff) {g h : Group}, g.quarters = h.quarters →
      (es.foldl (w.regShadow l) g).quarters = (es.foldl (w.regShadow l) h).quarters := by
    intro l es
    induction es with
    | nil => exact fun e => e
    | cons x es ih =>
      intro g h e
      refine ih ?_
      unfold WordOut.regShadow
      split
      · dsimp only; rw [e]
      · exact e
  unfold WordOut.regShadows
  induction xs generalizing g h with
  | nil => exact e
  | cons p xs ih => exact ih (one p.1 p.2 e)
theorem groupRun_spec : (groupRun s i f es) = { s.cgroup with
      lanes := (groupRun s i f es).lanes, quarters := (groupRun s i f es).quarters
      mqa := s.cgroup.mqa ++ (wordWith s i f es).entries (rowsWith s i es) 0, mqb := s.cgroup.mqb ++ (wordWith s i f es).entries (rowsWith s i es) 1 } ∧
    (∀ l, (groupRun s i f es).lane l = (if l ∈ executing s i then es l else []).foldl (fun x e => onLane s.now e x)
      (if l ∈ lanesOf s.chain.lanes then stand s f (s.clane l) else s.clane l)) ∧
    (groupRun s i f es).quarters = ((wordWith s i f es).regShadows (rowsWith s i es) s.cgroup).quarters := by
  obtain ⟨a1, a2⟩ := Group.advance_spec (withWord s i f es).chain (timeAfter s) (lanesOf s.chain.lanes) (lanesOf_nodup _) s.cgroup
  unfold groupRun
  dsimp only
  generalize hg0 : s.cgroup.advance (withWord s i f es).chain (timeAfter s) (lanesOf s.chain.lanes) = g0 at a1 a2 ⊢
  unfold Group.sameBut at a1
  have hnd : ((rowsWith s i es).map (·.1)).Nodup := by
    have : (rowsWith s i es).map (·.1) = executing s i := by simp [rowsWith, Function.comp_def]
    rw [this]; exact executing_nodup s i
  obtain ⟨q, hq⟩ := regShadows_same (wordWith s i f es) (rowsWith s i es)
    { g0 with mqa := g0.mqa ++ (wordWith s i f es).entries (rowsWith s i es) 0, mqb := g0.mqb ++ (wordWith s i f es).entries (rowsWith s i es) 1 }
  rw [hq]
  obtain ⟨b1, b2⟩ := Group.runRows_spec s.now (rowsWith s i es) hnd
    { { g0 with mqa := g0.mqa ++ (wordWith s i f es).entries (rowsWith s i es) 0, mqb := g0.mqb ++ (wordWith s i f es).entries (rowsWith s i es) 1 } with quarters := q }
  unfold Group.sameBut at b1
  refine ⟨?_, fun l => ?_, ?_⟩
  · rw [b1, a1]
  · rw [b2, find_rowsWith]
    have e1 : ∀ l, ({ { g0 with mqa := g0.mqa ++ (wordWith s i f es).entries (rowsWith s i es) 0, mqb := g0.mqb ++ (wordWith s i f es).entries (rowsWith s i es) 1 } with quarters := q } : Group).lane l = g0.lane l := fun l => rfl
    rw [e1, a2]
    congr 1
    split <;> rfl
  · have : (Group.runRows s.now (rowsWith s i es) { { g0 with mqa := g0.mqa ++ (wordWith s i f es).entries (rowsWith s i es) 0, mqb := g0.mqb ++ (wordWith s i f es).entries (rowsWith s i es) 1 } with quarters := q }).quarters = q := by rw [b1]
    rw [this]
    have hqq : q = ((wordWith s i f es).regShadows (rowsWith s i es) { g0 with mqa := g0.mqa ++ (wordWith s i f es).entries (rowsWith s i es) 0, mqb := g0.mqb ++ (wordWith s i f es).entries (rowsWith s i es) 1 }).quarters := by rw [hq]
    rw [hqq]
    exact regShadows_quarters _ _ (by rw [a1])
/-- The shadow queues after a chain whose only word with effects is this one. -/
theorem pushes_quiet {c : Chain} (h : Quiet c) {w : WordOut} (hw : w ∈ c.outs) (l : Nat) : w.pushes l = [] := by
  unfold WordOut.pushes; rw [quiet_effs h hw]; rfl
theorem queueShadows_quarters (ws : List WordOut) (oks : List Nat) {g h : Group} (e : g.quarters = h.quarters) :
    (g.queueShadows ws oks).quarters = (h.queueShadows ws oks).quarters := by
  unfold Group.queueShadows
  generalize List.range 4 = qs
  induction qs generalizing g h with
  | nil => exact e
  | cons q qs ih =>
    refine ih ?_
    unfold Group.pushShadows
    dsimp only
    split
    · exact e
    · dsimp only; rw [e]
/-- What the end of a chain adds to a group whose lanes have run. -/
theorem groupEnd_spec {w : WordOut} {xs : List (Nat × List Eff)} {ws : List WordOut} {oks : List Nat} {g0 gr g : Group}
    (hg : g = ((w.pop xs (writeScalar xs gr)).queueShadows ws oks).release)
    (r1 : gr = { g0 with lanes := gr.lanes, quarters := gr.quarters, mqa := g0.mqa ++ w.entries xs 0, mqb := g0.mqb ++ w.entries xs 1 })
    (r3 : gr.quarters = (w.regShadows xs g0).quarters) :
    g = { g0 with lanes := g.lanes, quarters := g.quarters, g := g.g, j := g.j, mqa := g.mqa, mqb := g.mqb, mqo := g.mqo, wqi := g.wqi } ∧
    (∀ l, g.lane l = gr.lane l ∨ ((∃ j, (gr.lane l).mode = .joined j) ∧ g.lane l = { gr.lane l with mode := .ready })) ∧
    (∀ j, Tbl.get g.j j 0 = Tbl.get g0.j j 0 ∨ Tbl.get g.j j 0 = 0) ∧
    g.mqa = g0.mqa ++ w.entries xs 0 ∧ g.mqb = g0.mqb ++ w.entries xs 1 ∧
    g.g = (writeScalar xs g0).g ∧ g.mqo = (w.pop xs g0).mqo ∧ g.wqi = (w.pop xs g0).wqi ∧
    g.quarters = ((w.regShadows xs g0).queueShadows ws oks).quarters := by
  obtain ⟨q1, hq1⟩ := writeScalar_same xs gr
  have hp := pop_same w xs (writeScalar xs gr)
  have hmqo : (w.pop xs (writeScalar xs gr)).mqo = (w.pop xs g0).mqo ∧ (w.pop xs (writeScalar xs gr)).wqi = (w.pop xs g0).wqi := by
    rw [hq1, r1]
    unfold WordOut.pop
    dsimp only
    constructor
    · split <;> split <;> rfl
    · split <;> split <;> rfl
  have hscal : (writeScalar xs gr).g = (writeScalar xs g0).g := by
    rw [r1]
    cases xs with
    | nil => rfl
    | cons p xs =>
      show (p.2.foldl Group.setScalar _).g = (p.2.foldl Group.setScalar _).g
      have : ∀ (es : List Eff) (g h : Group), g.g = h.g → (es.foldl Group.setScalar g).g = (es.foldl Group.setScalar h).g := by
        intro es
        induction es with
        | nil => exact fun g h e => e
        | cons e es ih =>
          intro g h e2
          refine ih _ _ ?_
          unfold Group.setScalar
          split
          · dsimp only; rw [e2]
          · exact e2
      exact this p.2 _ _ rfl
  generalize hgp : w.pop xs (writeScalar xs gr) = gp at hg hp hmqo
  have e4 : gp.quarters = (w.regShadows xs g0).quarters := by rw [hp, hq1]; exact r3
  have e5 := queueShadows_quarters ws oks e4
  obtain ⟨q2, hq2⟩ := Group.queueShadows_same ws oks gp
  have hrel := Group.release_from (gp.queueShadows ws oks)
  have hmask := Group.release_masks (gp.queueShadows ws oks)
  rw [← hg] at hrel hmask
  generalize gp.queueShadows ws oks = gq at hq2 hrel hmask e5
  obtain ⟨h1, h2⟩ := hrel
  have hlanes : ∀ l, gq.lane l = gr.lane l := by
    intro l; refine lane_of_lanes ?_ l; rw [hq2, hp, hq1]
  have hj : gq.j = g0.j := by rw [hq2, hp, hq1, r1]
  refine ⟨?_, fun l => ?_, fun j => ?_, ?_, ?_, ?_, ?_, ?_, ?_⟩
  · rw [h1, hq2, hp, hq1, r1]
  · have := h2 l; rwa [hlanes] at this
  · have := hmask j; rwa [hj] at this
  · rw [h1, hq2, hp, hq1, r1]
  · rw [h1, hq2, hp, hq1, r1]
  · rw [h1, hq2, hp, ← hscal]
  · rw [h1, hq2]; exact hmqo.1
  · rw [h1, hq2]; exact hmqo.2
  · rw [h1]; exact e5
theorem groupAfter_spec (hq : Quiet s.chain) (hloc : ∀ l ∈ executing s i, ∀ e ∈ es l, isLocal e = true) {g : Group} {w : WordOut}
    {xs : List (Nat × List Eff)} (eg : g = groupAfter s i f es) (ew : w = wordWith s i f es) (ex : xs = rowsWith s i es) :
    g = { s.cgroup with lanes := g.lanes, quarters := g.quarters, g := g.g, j := g.j, mqa := g.mqa, mqb := g.mqb, mqo := g.mqo, wqi := g.wqi } ∧
    (∀ l ∈ lanesOf s.chain.lanes, g.lane l = (if l ∈ executing s i then es l else []).foldl (fun x e => onLane s.now e x) (stand s f (s.clane l))) ∧
    (∀ l, l ∉ lanesOf s.chain.lanes → g.lane l = s.clane l ∨ ((∃ j, (s.clane l).mode = .joined j) ∧ g.lane l = { s.clane l with mode := .ready })) ∧
    (∀ j, Tbl.get g.j j 0 = Tbl.get s.cgroup.j j 0 ∨ Tbl.get g.j j 0 = 0) ∧
    g.mqa = s.cgroup.mqa ++ w.entries xs 0 ∧ g.mqb = s.cgroup.mqb ++ w.entries xs 1 ∧
    g.g = (writeScalar xs s.cgroup).g ∧ g.mqo = (w.pop xs s.cgroup).mqo ∧ g.wqi = (w.pop xs s.cgroup).wqi ∧
    g.quarters = ((w.regShadows xs s.cgroup).queueShadows (withWord s i f es).chain.outs (lanesOf s.chain.lanes)).quarters := by
  rw [groupAfter_run hq] at eg
  obtain ⟨r1, r2, r3⟩ := groupRun_spec (s := s) (i := i) (f := f) (es := es)
  rw [← ew, ← ex] at eg r1 r3
  obtain ⟨h1, h2, h3⟩ := groupEnd_spec eg r1 r3
  refine ⟨h1, fun l hl => ?_, fun l hl => ?_, h3⟩
  · rcases h2 l with e | ⟨⟨j, e⟩, _⟩
    · rw [e, r2, if_pos hl]
    · rw [r2, if_pos hl] at e
      refine absurd e (onLanes_unjoined s.now _ ?_ ?_ j)
      · intro e he
        split at he
        · rename_i h; exact hloc l h e he
        · cases he
      · intro j h; cases h
  · have hx : (groupRun s i f es).lane l = s.clane l := by
      rw [r2, if_neg hl, if_neg fun h => hl (executing_sub s i h)]; rfl
    have := h2 l
    rwa [hx] at this

/-! ### The frame -/
theorem popped_mqo (f : Form) : bitAt (bit01 ((poppedBy f).contains .mqo) + 2 * bit01 ((poppedBy f).contains .wqi)) 0 = (poppedBy f).contains .mqo := by
  cases (poppedBy f).contains Src.mqo <;> cases (poppedBy f).contains Src.wqi <;> rfl
theorem popped_wqi (f : Form) : bitAt (bit01 ((poppedBy f).contains .mqo) + 2 * bit01 ((poppedBy f).contains .wqi)) 1 = (poppedBy f).contains .wqi := by
  cases (poppedBy f).contains Src.mqo <;> cases (poppedBy f).contains Src.wqi <;> rfl
theorem rowsWith_isEmpty : (rowsWith s i es).isEmpty = (executing s i).isEmpty := by
  unfold rowsWith; cases executing s i <;> rfl
theorem rowsWith_any (l : Nat) : (rowsWith s i es).any (·.1 == l) = (executing s i).contains l := by
  unfold rowsWith
  induction executing s i with
  | nil => rfl
  | cons k ls ih =>
    rw [List.map_cons, List.any_cons, ih, List.contains_cons]
    congr 1
    exact Bool.beq_comm
theorem groupIn_after (hq : Quiet s.chain) (hl : lanesOf s.chain.lanes ≠ []) (hloc : ∀ l ∈ executing s i, ∀ e ∈ es l, isLocal e = true) :
    groupIn s (after s i f es) = groupAfter s i f es := by
  unfold groupIn
  rw [after_eq hq hl hloc]
  exact State.group_setGroup_same ..
theorem frame_after (R : Ready s i f vs) (hloc : ∀ l ∈ executing s i, ∀ e ∈ es l, isLocal e = true) : Framed s i f (after s i f es) := by
  have hg := groupIn_after (f := f) R.quiet R.lanes hloc
  obtain ⟨h1, h2, h3, h4, _, _, _, h8, h9, _⟩ := groupAfter_spec (f := f) R.quiet hloc rfl rfl rfl
  constructor
  · rw [hg, after_eq R.quiet R.lanes hloc]; rfl
  · rw [hg]; exact h1
  · intro l hl hn
    rw [hg, h2 l hl, if_neg hn]; rfl
  · rw [hg]; exact h3
  · rw [hg]; exact h4
  · rw [hg, h8]
    unfold WordOut.pop
    rw [show bitAt (wordWith s i f es).pops 0 = _ from popped_mqo f, show bitAt (wordWith s i f es).pops 1 = _ from popped_wqi f, rowsWith_isEmpty]
    dsimp only
    split <;> split <;> rfl
  · rw [hg, h9]
    unfold WordOut.pop
    rw [show bitAt (wordWith s i f es).pops 0 = _ from popped_mqo f, show bitAt (wordWith s i f es).pops 1 = _ from popped_wqi f, rowsWith_isEmpty]
    simp only [rowsWith_any]
    split <;> split <;> rfl
theorem lanes_after (R : Ready s i f vs) (hloc : ∀ l ∈ executing s i, ∀ e ∈ es l, isLocal e = true) {l : Nat} (hl : l ∈ executing s i) :
    (groupIn s (after s i f es)).lane l = (es l).foldl (fun x e => onLane s.now e x) (stand s f (s.clane l)) := by
  obtain ⟨_, h2, _⟩ := groupAfter_spec (f := f) R.quiet hloc rfl rfl rfl
  rw [groupIn_after R.quiet R.lanes hloc, h2 l (executing_sub s i hl), if_pos hl]

/-! ### Room -/
theorem accesses_local (c : Chain) (ls : List Nat) (h : ∀ l ∈ ls, ∀ e ∈ c.effs l, isLocal e = true) : c.accesses ls = [] := by
  unfold Chain.accesses
  rw [List.flatMap_eq_nil_iff]; intro w hw
  rw [List.flatMap_eq_nil_iff]; intro l hl
  rw [List.filterMap_eq_nil_iff]; intro e he
  have := h l hl e (List.mem_flatMap.mpr ⟨w, hw, he⟩)
  cases e <;> first | rfl | exact Bool.noConfusion this
theorem races_local (s : State) (c : Chain) (ls : List Nat) (h : ∀ l ∈ ls, ∀ e ∈ c.effs l, isLocal e = true) : s.races c ls = [] := by
  unfold State.races
  cases ls.length with
  | zero => rfl
  | succ n => unfold State.racesIn; rw [accesses_local c ls h]; rfl
/-- Effects local to their lanes register nothing. -/
theorem spawned_local (h : ∀ l ∈ executing s i, ∀ e ∈ es l, isLocal e = true) : spawned s i es = [] := by
  unfold spawned
  rw [List.filterMap_eq_nil_iff]; intro l hl
  show (es l).findSome? Eff.spawns = none
  rw [List.findSome?_eq_none_iff]; intro e he
  have := h l hl e he
  cases e <;> first | rfl | exact Bool.noConfusion this
theorem sum_zero {α : Type} (ls : List α) (f : α → Nat) (h : ∀ a ∈ ls, f a = 0) : (ls.map f).sum = 0 := by
  induction ls with
  | nil => rfl
  | cons a ls ih => rw [List.map_cons, List.sum_cons, h a (List.mem_cons_self ..), ih fun b hb => h b (List.mem_cons_of_mem _ hb)]
theorem txns_local (c : Chain) (ls : List Nat) (h : ∀ l, ∀ e ∈ c.effs l, isLocal e = true) : c.txns ls = 0 := by
  have h1 : (ls.map fun l => ((c.effs l).map Eff.txns).sum).sum = 0 := sum_zero _ _ fun l _ => sum_zero _ _ fun e he => by
    have := h l e he
    cases e <;> first | rfl | exact Bool.noConfusion this
  have h2 : ((List.range 4).filter fun q => ls.any fun l => quarterOf l == q && (c.effs l).any Eff.isBlk) = [] := by
    rw [List.filter_eq_nil_iff]; intro q _
    rw [Bool.not_eq_true, List.any_eq_false]; intro l _
    have : (c.effs l).any Eff.isBlk = false := by
      rw [List.any_eq_false]; intro e he
      have := h l e he
      cases e <;> first | exact Bool.false_ne_true | exact Bool.noConfusion this
    rw [this, Bool.and_false]; exact Bool.false_ne_true
  unfold Chain.txns
  rw [h1, h2]; rfl
theorem entries_quiet {w : WordOut} {xs : List (Nat × List Eff)} (h : ∀ p ∈ xs, p.2 = []) (k : Nat) : w.entries xs k = [] := by
  have : xs.filterMap (fun p => p.2.findSome? (w.entryOf k p.1)) = [] := by
    rw [List.filterMap_eq_nil_iff]; intro p hp; rw [h p hp]; rfl
  unfold WordOut.entries
  rw [this]; rfl
theorem room_local (hq : Quiet s.chain) (hloc : ∀ l ∈ executing s i, ∀ e ∈ es l, isLocal e = true)
    (hk : ∀ k, k = 0 ∨ k = 1 → let m := ((wordWith s i f es).entries (rowsWith s i es) k).length; m = 0 ∨ (s.cgroup.mq k).length + m ≤ 16) :
    Room s i f es := by
  have heff : ∀ l, ∀ e ∈ (withWord s i f es).chain.effs l, isLocal e = true := by
    intro l e he
    rw [effs_withWord hq] at he
    split at he
    · rename_i h; exact hloc l h e he
    · cases he
  refine ⟨races_local _ _ _ fun l _ => heff l, ?_, by rw [spawned_local hloc]; exact List.nodup_nil, by rw [spawned_local hloc]; exact Nat.zero_le _⟩
  have hm : ∀ k, (withWord s i f es).chain.mqPushes (lanesOf s.chain.lanes) k = ((wordWith s i f es).entries (rowsWith s i es) k).length := by
    intro k
    unfold Chain.mqPushes
    rw [withWord_outs, List.map_append, List.sum_append, sum_zero, rowsWith, ← rows_wordWith (f := f) hq]
    · simp
    · intro w hw
      rw [entries_quiet (rows_quiet hq hw _)]; rfl
  unfold State.hasRoom
  dsimp only
  rw [txns_local _ _ heff]
  simp only [hm, List.all_cons, List.all_nil, Bool.and_true, Bool.and_eq_true, decide_eq_true_eq]
  exact ⟨.inl trivial, hk 0 (.inl rfl), hk 1 (.inr rfl)⟩

/-! ### Results -/
/-- The effects of a result. -/
def resEffs (d : Dst) (n : Nat) (r : Res) (sh : Option Shadow) : List Eff :=
  .result d n (BitVec.ofNat 128 r.v) sh :: if r.fl.any then [.flags r.fl] else []
theorem resEffs_local (d : Dst) (n : Nat) (r : Res) (sh : Option Shadow) : ∀ e ∈ resEffs d n r sh, isLocal e = true := by
  intro e he
  unfold resEffs at he
  rcases List.mem_cons.mp he with rfl | he
  · rfl
  · split at he
    · rw [List.mem_singleton.mp he]; rfl
    · cases he
theorem resEffs_lane (now : Nat) (d : Dst) (n : Nat) (r : Res) (sh : Option Shadow) (x : Lane) :
    (resEffs d n r sh).foldl (fun x e => onLane now e x) x = Lane.orFlags (x.write d n (r.v % 2 ^ 128)) r.fl := by
  unfold resEffs Lane.orFlags
  rw [List.foldl_cons]
  have e : onLane now (.result d n (BitVec.ofNat 128 r.v) sh) x = x.write d n (r.v % 2 ^ 128) := by
    show x.write d n (BitVec.ofNat 128 r.v).toNat = _
    rw [BitVec.toNat_ofNat]
  rw [e]
  split <;> rfl
theorem entryOf_res (w : WordOut) (k l : Nat) (d : Dst) (n : Nat) (r : Res) (sh : Option Shadow) :
    (resEffs d n r sh).findSome? (w.entryOf k l) = if mqOf d = some k then some (l, n, r.v % 2 ^ 128, w.shadow l sh) else none := by
  unfold resEffs
  have e1 : w.entryOf k l (.result d n (BitVec.ofNat 128 r.v) sh) = if mqOf d = some k then some (l, n, r.v % 2 ^ 128, w.shadow l sh) else none := by
    show (if mqOf d = some k then some (l, n, (BitVec.ofNat 128 r.v).toNat, w.shadow l sh) else none) = _
    rw [BitVec.toNat_ofNat]
  have e2 : (if r.fl.any then [Eff.flags r.fl] else []).findSome? (w.entryOf k l) = none := by split <;> rfl
  rw [List.findSome?_cons, e1, e2]
  split
  · rename_i h; split at h
    · rename_i h2; rw [if_pos h2]; exact h.symm
    · cases h
  · rename_i h; split at h
    · cases h
    · rename_i h2; rw [if_neg h2]
theorem find_map_key {α : Type} (ls : List Nat) (f : Nat → α) (l : Nat) :
    (ls.map fun k => (k, f k)).find? (·.1 == l) = if l ∈ ls then some (l, f l) else none := by
  induction ls with
  | nil => rfl
  | cons k ls ih =>
    rw [List.map_cons, List.find?_cons]
    by_cases e : k = l
    · subst e; simp
    · have e2 : ¬ l = k := fun h => e h.symm
      have e3 : (k == l) = false := by simp [e]
      simp [e2, e3, ih]
theorem maxOf_const (ls : List Nat) (n : Nat) (h : ls ≠ []) : (ls.map fun _ => n).foldl max 0 = n := by
  have : ∀ (ls : List Nat) (a : Nat), (ls.map fun _ => n).foldl max a = if ls = [] then a else max a n := by
    intro ls
    induction ls with
    | nil => intro a; rfl
    | cons k ls ih =>
      intro a
      rw [List.map_cons, List.foldl_cons, ih]
      split <;> simp
  rw [this, if_neg h]; simp
theorem entries_res (w : WordOut) (d : Dst) (n k : Nat) (r : Nat → Res) (sh : Nat → Option Shadow) (h : ∀ l ∈ executing s i, es l = resEffs d n (r l) (sh l)) :
    (w.entries (rowsWith s i es) k).map (·.words) = if mqOf d = some k then pushedWords (executing s i) n fun l => (r l).v else [] := by
  have hds : (rowsWith s i es).filterMap (fun p => p.2.findSome? (w.entryOf k p.1)) =
      if mqOf d = some k then (executing s i).map fun l => (l, n, (r l).v % 2 ^ 128, w.shadow l (sh l)) else [] := by
    unfold rowsWith
    rw [List.filterMap_map]
    by_cases hk : mqOf d = some k
    · rw [if_pos hk, ← List.filterMap_eq_map]
      refine filterMap_same _ fun l hl => ?_
      show (es l).findSome? (w.entryOf k l) = _
      rw [h l hl, entryOf_res, if_pos hk]; rfl
    · rw [if_neg hk, List.filterMap_eq_nil_iff]
      intro l hl
      show (es l).findSome? (w.entryOf k l) = _
      rw [h l hl, entryOf_res, if_neg hk]
  unfold WordOut.entries
  rw [hds]
  by_cases hk : mqOf d = some k
  · simp only [if_pos hk]
    unfold pushedWords
    by_cases he : executing s i = []
    · rw [if_pos he, he]; rfl
    · rw [if_neg he, List.map_map]
      have hn : (((executing s i).map fun l => (l, n, (r l).v % 2 ^ 128, w.shadow l (sh l))).map fun (x : Nat × Nat × Nat × Shadow) => x.2.1 / 32).foldl max 0 = n / 32 := by
        rw [List.map_map]; exact maxOf_const (executing s i) (n / 32) he
      rw [hn]
      refine List.map_congr_left fun a _ => ?_
      simp only [Function.comp]
      refine List.map_congr_left fun l _ => ?_
      rw [find_map_key]
      by_cases hl : l ∈ executing s i
      · simp only [if_pos hl]
      · simp only [if_neg hl]
  · simp only [if_neg hk]; rfl

/-! ### Scalars and shadows -/
theorem rowsWith_head : (rowsWith s i es) = [] ↔ executing s i = [] := by
  unfold rowsWith; cases executing s i <;> simp
theorem scalar_res (d : Dst) (n : Nat) (r : Nat → Res) (sh : Nat → Option Shadow) (h : ∀ l ∈ executing s i, es l = resEffs d n (r l) (sh l)) (g : Group) :
    (writeScalar (rowsWith s i es) g).g = scalarsAfter d g.g (executing s i).head? fun l => (r l).v := by
  unfold rowsWith
  cases he : executing s i with
  | nil => cases d <;> rfl
  | cons l ls =>
    have h0 := h l (by rw [he]; exact List.mem_cons_self ..)
    show ((es l).foldl Group.setScalar g).g = _
    rw [h0]
    unfold resEffs
    rw [List.foldl_cons]
    have e1 : ∀ g : Group, (if (r l).fl.any then [Eff.flags (r l).fl] else []).foldl Group.setScalar g = g := by intro g; split <;> rfl
    rw [e1]
    cases d <;> first | rfl | skip
    show Tbl.put g.g _ ((BitVec.ofNat 128 (r l).v).setWidth 64) = _
    congr 1
    apply BitVec.eq_of_toNat_eq
    simp
/-- A result writes no shadow of a named register but those of its destination. -/
theorem writeRegs_get (x : Quarter) (r n : Nat) (sh : Shadow) (k : Nat) (h : k < r ∨ r + n ≤ k) :
    Tbl.get (x.writeRegs r n sh).regs k {} = Tbl.get x.regs k {} := by
  have : ∀ (js : List Nat) (t : Tbl Shadow), (∀ j ∈ js, j < n) → Tbl.get (js.foldl (fun t i => Tbl.put t (r + i) sh) t) k {} = Tbl.get t k {} := by
    intro js
    induction js with
    | nil => intros; rfl
    | cons j js ih =>
      intro t hj
      rw [List.foldl_cons, ih _ fun a ha => hj a (List.mem_cons_of_mem _ ha)]
      have := hj j (List.mem_cons_self ..)
      exact Tbl.get_put_ne (by omega)
  exact this _ _ fun j hj => List.mem_range.mp hj
theorem regShadow_get (w : WordOut) (l : Nat) (g : Group) (e : Eff) (q k : Nat)
    (h : ∀ r n sh, e.dest = some (.n r, n, sh) → k < r.val ∨ r.val + (n + 31) / 32 ≤ k) :
    Tbl.get (Tbl.get (w.regShadow l g e).quarters q {}).regs k {} = Tbl.get (Tbl.get g.quarters q {}).regs k {} := by
  unfold WordOut.regShadow
  split
  · rename_i r n sh e1
    dsimp only
    by_cases hq : quarterOf l = q
    · rw [hq, Tbl.get_upd_same]; exact writeRegs_get _ _ _ _ _ (h r n sh e1)
    · rw [Tbl.get_upd_ne hq]
  · rfl
theorem regShadows_get (w : WordOut) (xs : List (Nat × List Eff)) (g : Group) (q k : Nat)
    (h : ∀ p ∈ xs, ∀ e ∈ p.2, ∀ r n sh, e.dest = some (.n r, n, sh) → k < r.val ∨ r.val + (n + 31) / 32 ≤ k) :
    Tbl.get (Tbl.get (w.regShadows xs g).quarters q {}).regs k {} = Tbl.get (Tbl.get g.quarters q {}).regs k {} := by
  have one : ∀ (l : Nat) (es : List Eff) (g : Group), (∀ e ∈ es, ∀ r n sh, e.dest = some (.n r, n, sh) → k < r.val ∨ r.val + (n + 31) / 32 ≤ k) →
      Tbl.get (Tbl.get (es.foldl (w.regShadow l) g).quarters q {}).regs k {} = Tbl.get (Tbl.get g.quarters q {}).regs k {} := by
    intro l es
    induction es with
    | nil => intros; rfl
    | cons e es ih =>
      intro g h
      rw [List.foldl_cons, ih _ fun e he => h e (List.mem_cons_of_mem _ he)]
      exact regShadow_get w l g e q k (h e (List.mem_cons_self ..))
  unfold WordOut.regShadows
  induction xs generalizing g with
  | nil => rfl
  | cons p xs ih =>
    rw [List.foldl_cons, ih _ fun p hp => h p (List.mem_cons_of_mem _ hp)]
    exact one p.1 p.2 g (h p (List.mem_cons_self ..))
theorem queueShadows_get (ws : List WordOut) (oks : List Nat) (g : Group) (q k : Nat) :
    Tbl.get (Tbl.get (g.queueShadows ws oks).quarters q {}).regs k {} = Tbl.get (Tbl.get g.quarters q {}).regs k {} := by
  unfold Group.queueShadows
  generalize List.range 4 = qs
  induction qs generalizing g with
  | nil => rfl
  | cons p qs ih =>
    rw [List.foldl_cons, ih]
    unfold Group.pushShadows
    dsimp only
    split
    · rfl
    · dsimp only
      by_cases hq : p = q
      · rw [hq, Tbl.get_upd_same]; rfl
      · rw [Tbl.get_upd_ne hq]
/-- Effects that write no named register and push nothing leave the shadows alone. -/
def shadowless (e : Eff) : Prop := (∀ r n sh, e.dest ≠ some (.n r, n, sh)) ∧ ∀ n sh, e.dest ≠ some (.push, n, sh)
theorem pushesOf_none (w : WordOut) (l : Nat) {e : Eff} (h : shadowless e) : w.pushesOf l e = [] := by
  unfold WordOut.pushesOf
  split
  · rename_i e1; exact absurd e1 (h.1 _ _ _)
  · rename_i e1; exact absurd e1 (h.2 _ _)
  · rfl
theorem regShadow_none (w : WordOut) (l : Nat) (g : Group) {e : Eff} (h : shadowless e) : w.regShadow l g e = g := by
  unfold WordOut.regShadow
  split
  · rename_i e1; exact absurd e1 (h.1 _ _ _)
  · rfl
theorem quarters_none (hq : Quiet s.chain) (h : ∀ l ∈ executing s i, ∀ e ∈ es l, shadowless e) (g : Group) :
    (((wordWith s i f es).regShadows (rowsWith s i es) g).queueShadows (withWord s i f es).chain.outs (lanesOf s.chain.lanes)).quarters = g.quarters := by
  have e1 : (wordWith s i f es).regShadows (rowsWith s i es) g = g := by
    refine foldl_id _ _ _ fun p hp => ?_
    obtain ⟨l, hl, rfl⟩ := List.mem_map.mp hp
    exact foldl_id _ _ _ fun e he => regShadow_none _ _ _ (h l hl e he)
  have e2 : ∀ l, ∀ w ∈ (withWord s i f es).chain.outs, w.pushes l = [] := by
    intro l w hw
    rcases mem_withWord hw with hw | rfl
    · exact pushes_quiet hq hw l
    · unfold WordOut.pushes
      rw [effsIn_wordWith, List.flatMap_eq_nil_iff]
      intro e he
      split at he
      · rename_i hl; exact pushesOf_none _ _ (h l hl e he)
      · cases he
  rw [e1]
  have : g.queueShadows (withWord s i f es).chain.outs (lanesOf s.chain.lanes) = g := by
    refine foldl_id _ _ _ fun q _ => ?_
    unfold Group.pushShadows
    dsimp only
    rw [if_pos]
    rw [List.all_eq_true]
    intro x hx
    obtain ⟨l, _, rfl⟩ := List.mem_map.mp hx
    rw [List.flatMap_eq_nil_iff.mpr fun w hw => e2 l w hw]; rfl
  rw [this]

/-! ### The word with a result -/
theorem resEffs_dest {d : Dst} {n : Nat} {r : Res} {sh : Option Shadow} {e : Eff} (he : e ∈ resEffs d n r sh) : e.dest = some (d, n, sh) ∨ e.dest = none := by
  unfold resEffs at he
  rcases List.mem_cons.mp he with rfl | he
  · exact .inl rfl
  · split at he
    · rw [List.mem_singleton.mp he]; exact .inr rfl
    · cases he
theorem takes_holds {d : Dst} {n : Nat} (h : Takes s d n) (hd : mqOf d ≠ none) : s.holds s.chain.core s.chain.grp = true := by
  unfold Takes at h
  cases e : mqOf d with
  | none => exact absurd e hd
  | some k => rw [e] at h; exact h.1
theorem dflt_plain (s : State) (i : Instr) (f : Form) (es : Nat → List Eff) (q : Nat) : (wordWith s i f es).dflt.getD q {} = plainShadow s f q := by
  unfold wordWith plainShadow
  dsimp only
  split
  · split
    · rfl
    · rfl
  · rfl
theorem shadow_of (sh : Nat → Option Shadow) (l : Nat) : (wordWith s i f es).shadow l (sh l) = shadowOf s f sh l := by
  unfold WordOut.shadow shadowOf
  rw [dflt_plain]
/-- The register shadows that results write. -/
theorem regShadows_put {d : Dst} {n : Nat} {r : Nat → Res} {sh : Nat → Option Shadow} {w : WordOut} {k : Fin 32} {j q : Nat} {x : Shadow}
    (hd : d = .n k) (hj : j < (n + 31) / 32) (ls : List Nat) (hes : ∀ l ∈ ls, es l = resEffs d n (r l) (sh l))
    (hx : ∀ l ∈ ls, quarterOf l = q → w.shadow l (sh l) = x) (g : Group) (h0 : (∃ l ∈ ls, quarterOf l = q) ∨
      Tbl.get (Tbl.get g.quarters q {}).regs (k.val + j) {} = x) :
    Tbl.get (Tbl.get (w.regShadows (ls.map fun l => (l, es l)) g).quarters q {}).regs (k.val + j) {} = x := by
  have one : ∀ (l : Nat) (g : Group), l ∈ ls → w.regShadows [(l, es l)] g =
      { g with quarters := Tbl.upd g.quarters (quarterOf l) {} fun q => q.writeRegs k.val ((n + 31) / 32) (w.shadow l (sh l)) } := by
    intro l g hl
    show (es l).foldl (w.regShadow l) g = _
    rw [hes l hl]
    unfold resEffs
    rw [List.foldl_cons, hd]
    have : ∀ g : Group, (if (r l).fl.any then [Eff.flags (r l).fl] else []).foldl (w.regShadow l) g = g := by intro g; split <;> rfl
    rw [this]; rfl
  have written : ∀ (y : Quarter) (v : Shadow), Tbl.get (y.writeRegs k.val ((n + 31) / 32) v).regs (k.val + j) {} = v := by
    intro y v
    have : ∀ (js : List Nat) (t : Tbl Shadow), (j ∈ js ∨ Tbl.get t (k.val + j) {} = v) →
        Tbl.get (js.foldl (fun t i => Tbl.put t (k.val + i) v) t) (k.val + j) {} = v := by
      intro js
      induction js with
      | nil => intro t h; exact h.elim (fun h => by cases h) id
      | cons a js ih =>
        intro t h
        refine ih _ ?_
        by_cases e : a = j
        · right; rw [e, Tbl.get_put_same]
        · rw [Tbl.get_put_ne (by omega)]
          exact h.imp_left fun h => (List.mem_cons.mp h).resolve_left fun h => e h.symm
    exact this _ _ (.inl (List.mem_range.mpr hj))
  have key : ∀ (ms : List Nat) (g : Group), (∀ l ∈ ms, l ∈ ls) → ((∃ l ∈ ms, quarterOf l = q) ∨ Tbl.get (Tbl.get g.quarters q {}).regs (k.val + j) {} = x) →
      Tbl.get (Tbl.get (w.regShadows (ms.map fun l => (l, es l)) g).quarters q {}).regs (k.val + j) {} = x := by
    intro ms
    induction ms with
    | nil => intro g _ h; exact h.elim (fun ⟨_, h, _⟩ => by cases h) id
    | cons l ms ih =>
      intro g hm h
      have e1 : w.regShadows ((l :: ms).map fun l => (l, es l)) g = w.regShadows (ms.map fun l => (l, es l)) (w.regShadows [(l, es l)] g) := rfl
      rw [e1, one l g (hm l (List.mem_cons_self ..))]
      refine ih _ (fun m h => hm m (List.mem_cons_of_mem _ h)) ?_
      by_cases e : quarterOf l = q
      · right; dsimp only; rw [e, Tbl.get_upd_same, written, hx l (hm l (List.mem_cons_self ..)) e]
      · dsimp only; rw [Tbl.get_upd_ne e]
        refine h.imp_left fun ⟨m, h1, h2⟩ => ⟨m, (List.mem_cons.mp h1).resolve_left fun h => e (h ▸ h2), h2⟩
  exact key ls g (fun _ h => h) h0
/-- The shadow queue of a quarter after a chain. -/
theorem queueShadows_queue (ws : List WordOut) (oks : List Nat) (g : Group) (q : Nat) (hq : q < 4) :
    let ps := (oks.filter (quarterOf · == q)).map fun l => ws.flatMap (·.pushes l)
    (Tbl.get (g.queueShadows ws oks).quarters q {}).queue =
      if ps.all (·.isEmpty) then (Tbl.get g.quarters q {}).queue else ((Tbl.get g.quarters q {}).pushAll ps).queue := by
  intro ps
  have step : ∀ (qs : List Nat) (g : Group), qs.Nodup → (Tbl.get (qs.foldl (Group.pushShadows ws oks) g).quarters q {}).queue =
      if q ∈ qs then (if ps.all (·.isEmpty) then (Tbl.get g.quarters q {}).queue else ((Tbl.get g.quarters q {}).pushAll ps).queue)
      else (Tbl.get g.quarters q {}).queue := by
    intro qs
    induction qs with
    | nil => intro g _; rfl
    | cons p qs ih =>
      intro g hn
      rw [List.nodup_cons] at hn
      rw [List.foldl_cons, ih _ hn.2]
      by_cases e : p = q
      · subst e
        rw [if_neg hn.1, if_pos (List.mem_cons_self ..)]
        unfold Group.pushShadows
        dsimp only
        split
        · rfl
        · dsimp only; rw [Tbl.get_upd_same]
      · have e2 : Tbl.get (Group.pushShadows ws oks g p).quarters q {} = Tbl.get g.quarters q {} := by
          unfold Group.pushShadows
          dsimp only
          split
          · rfl
          · dsimp only; rw [Tbl.get_upd_ne e]
        have e3 : (q ∈ p :: qs) = (q ∈ qs) := by
          rw [List.mem_cons]; simp [Ne.symm e]
        rw [e2]; simp only [e3]
  have := step (List.range 4) g List.nodup_range
  rw [if_pos (List.mem_range.mpr hq)] at this
  exact this
theorem regShadows_queue (w : WordOut) (xs : List (Nat × List Eff)) (g : Group) (q : Nat) :
    (Tbl.get (w.regShadows xs g).quarters q {}).queue = (Tbl.get g.quarters q {}).queue := by
  have one : ∀ (l : Nat) (es : List Eff) (g : Group), (Tbl.get (es.foldl (w.regShadow l) g).quarters q {}).queue = (Tbl.get g.quarters q {}).queue := by
    intro l es
    induction es with
    | nil => intros; rfl
    | cons e es ih =>
      intro g
      rw [List.foldl_cons, ih]
      unfold WordOut.regShadow
      split
      · dsimp only
        by_cases hq : quarterOf l = q
        · rw [hq, Tbl.get_upd_same]; rfl
        · rw [Tbl.get_upd_ne hq]
      · rfl
  unfold WordOut.regShadows
  induction xs generalizing g with
  | nil => rfl
  | cons p xs ih => rw [List.foldl_cons, ih, one]
/-- The lanes of a quarter in which the word executes are among those of the chain, in order. -/
theorem executing_filter (s : State) (i : Instr) (q : Nat) (hq : Quiet s.chain) :
    ((lanesOf s.chain.lanes).filter (quarterOf · == q)).filter (· ∈ executing s i) = (executing s i).filter (quarterOf · == q) := by
  have he : executing s i = (lanesOf s.chain.lanes).filter fun l => isSel i || s.guardOn l := by unfold executing; rw [live_quiet hq]
  rw [List.filter_filter, he, List.filter_filter]
  refine List.filter_congr fun l hl => ?_
  rw [Bool.and_comm]
  congr 1
  simp [List.mem_filter, hl]
theorem pushAll_same (ex ls : List Nat) (m : Nat) (v : Nat → Shadow) (x y : Quarter) (q : Nat)
    (hf : (ls.filter (quarterOf · == q)).filter (· ∈ ex) = ex.filter (quarterOf · == q)) (hm : m = 1 ∨ m = 2) (hx : x.queue = y.queue) :
    let ps := (ls.filter (quarterOf · == q)).map fun l => if l ∈ ex then List.replicate m (v l) else []
    (if ps.all (·.isEmpty) then x.queue else (x.pushAll ps).queue) =
      match ex.find? (quarterOf · == q) with
      | some l => (List.replicate m (v l) ++ y.queue).take 16
      | none => y.queue := by
  intro ps
  have hps : ps = (ls.filter (quarterOf · == q)).map fun l => if l ∈ ex then List.replicate m (v l) else [] := rfl
  generalize ls.filter (quarterOf · == q) = A at hf hps
  clear_value ps
  have hm0 : 0 < m := by omega
  have hall : ps.all (·.isEmpty) = (A.filter (· ∈ ex)).isEmpty := by
    rw [hps]; clear hps hf
    induction A with
    | nil => rfl
    | cons a A ih =>
      rw [List.map_cons, List.all_cons, ih, List.filter_cons]
      by_cases h : a ∈ ex
      · simp [h]; omega
      · simp [h]
  have hmax : (ps.map (·.length)).foldl max 0 = if (A.filter (· ∈ ex)).isEmpty then 0 else m := by
    have : ∀ (A : List Nat) (a : Nat), ((A.map fun l => if l ∈ ex then List.replicate m (v l) else []).map (·.length)).foldl max a =
        if (A.filter (· ∈ ex)).isEmpty then a else max a m := by
      intro A
      induction A with
      | nil => intro a; rfl
      | cons b A ih =>
        intro a
        rw [List.map_cons, List.map_cons, List.foldl_cons, ih, List.filter_cons]
        by_cases h : b ∈ ex
        · simp [h]
        · simp [h]
    rw [hps, this]; simp
  have hget : ∀ j, j < m → ps.findSome? (·[j]?) = (A.filter (· ∈ ex)).head?.map v := by
    intro j hj
    rw [hps]; clear hps hf hall hmax
    induction A with
    | nil => rfl
    | cons a A ih =>
      rw [List.map_cons, List.findSome?_cons, List.filter_cons]
      by_cases h : a ∈ ex
      · simp [h, hj]
      · simp [h]; rw [ih, List.head?_filter]
  rw [hall, hf, hx]
  rw [hf] at hmax hget
  rw [← List.head?_filter]
  unfold Quarter.pushAll
  simp only [hmax]
  cases he : ex.filter (quarterOf · == q) with
  | nil => rfl
  | cons l rest =>
    rw [he] at hget
    simp only [List.isEmpty_cons, if_false, Bool.false_eq_true, List.head?_cons]
    rcases hm with rfl | rfl
    · have h0 := hget 0 (by omega)
      show (((List.range 1).map fun j => (ps.findSome? (·[j]?)).getD {}).reverse ++ x.queue).take 16 = _
      rw [List.range_succ, List.range_zero]
      simp only [List.nil_append, List.map_cons, List.map_nil, h0, hx]; rfl
    · have h0 := hget 0 (by omega)
      have h1 := hget 1 (by omega)
      show (((List.range 2).map fun j => (ps.findSome? (·[j]?)).getD {}).reverse ++ x.queue).take 16 = _
      rw [List.range_succ, List.range_succ, List.range_zero]
      simp only [List.nil_append, List.map_cons, List.map_nil, List.cons_append, h0, h1, hx]; rfl
theorem ite_mqa {α : Type} (d : Dst) (x y : α) : (if mqOf d = some 0 then x else y) = if d = .mqa then x else y := by cases d <;> rfl
theorem ite_mqb {α : Type} (d : Dst) (x y : α) : (if mqOf d = some 1 then x else y) = if d = .mqb then x else y := by cases d <;> rfl
theorem gave (R : Ready s i f vs) {d : Dst} {n : Nat} (T : Takes s d n) (hf : (f.dst.map (·.1)) = some d) (r : Nat → Res) (sh : Nat → Option Shadow)
    (hes : ∀ l ∈ executing s i, es l = resEffs d n (r l) (sh l)) (hgo : go s (rowsOf s i vs) = (executing s i).map fun l => (l, .ok (es l))) :
    s.word false i go = .next (after s i f es) ∧ Gave s i f d n r sh (after s i f es) := by
  have hloc : ∀ l ∈ executing s i, ∀ e ∈ es l, isLocal e = true := fun l hl => by rw [hes l hl]; exact resEffs_local _ _ _ _
  have hlen : ∀ k, ((wordWith s i f es).entries (rowsWith s i es) k).length = if mqOf d = some k then (pushedWords (executing s i) n fun l => (r l).v).length else 0 := by
    intro k
    have := congrArg List.length (entries_res (wordWith s i f es) d n k r sh hes)
    rw [List.length_map] at this
    rw [this]; split <;> rfl
  have hpl : (pushedWords (executing s i) n fun l => (r l).v).length ≤ n / 32 := by
    unfold pushedWords; split <;> simp
  have hroom : Room s i f es := room_local R.quiet hloc fun k _ => by
    dsimp only
    rw [hlen k]
    by_cases hk : mqOf d = some k
    · rw [if_pos hk]
      unfold Takes at T
      rw [hk] at T
      right; have := T.2; omega
    · rw [if_neg hk]; exact .inl rfl
  refine ⟨exec_ready R hgo (fun d' c w b e hm => ?_) hroom, ?_⟩
  · rw [e] at hf
    have : d' = d := by simpa using hf
    subst this; exact takes_holds T hm
  obtain ⟨_, _, _, _, h5, h6, h7, _, _, h10⟩ := groupAfter_spec (f := f) R.quiet hloc rfl rfl rfl
  have hg := groupIn_after (f := f) R.quiet R.lanes hloc
  constructor
  · exact frame_after R hloc
  · intro l hl; rw [lanes_after R hloc hl, hes l hl, resEffs_lane]
  · rw [hg, h7]; exact scalar_res d n r sh hes _
  · rw [hg, h5, List.map_append, entries_res _ d n 0 r sh hes, ite_mqa]
  · rw [hg, h6, List.map_append, entries_res _ d n 1 r sh hes, ite_mqb]
  · intro hn hp
    rw [hg, h10]
    refine quarters_none R.quiet (fun l hl e he => ?_) _
    rw [hes l hl] at he
    rcases resEffs_dest he with e1 | e1
    · exact ⟨fun r n sh e2 => hn r (by rw [e1] at e2; cases e2; rfl), fun n sh e2 => hp (by rw [e1] at e2; cases e2; rfl)⟩
    · exact ⟨fun r n sh e2 => (by rw [e1] at e2; cases e2), fun n sh e2 => (by rw [e1] at e2; cases e2)⟩
  · intro q k h
    rw [hg, h10, queueShadows_get]
    refine regShadows_get _ _ _ _ _ fun p hp e he r' n' sh' e2 => ?_
    obtain ⟨l, hl, rfl⟩ := List.mem_map.mp hp
    change e ∈ es l at he
    rw [hes l hl] at he
    rcases resEffs_dest he with e1 | e1
    · rw [e1] at e2; cases e2; exact h r' rfl
    · rw [e1] at e2; cases e2
  · intro k j hk hj l hl hsame
    rw [hg, h10, queueShadows_get]
    refine regShadows_put hk hj _ hes (fun m hm e => ?_) _ (.inl ⟨l, hl, rfl⟩)
    rw [shadow_of]
    unfold shadowOf
    rw [e, hsame m hm e]
  · intro hk q hq
    have hn : ∀ l, ((withWord s i f es).chain.outs.flatMap (·.pushes l)) =
        if l ∈ executing s i then List.replicate (if n ≤ 64 then 1 else 2) (shadowOf s f sh l) else [] := by
      intro l
      rw [withWord_outs, List.flatMap_append, List.flatMap_eq_nil_iff.mpr fun w hw => pushes_quiet R.quiet hw l, List.nil_append]
      simp only [List.flatMap_cons, List.flatMap_nil, List.append_nil]
      unfold WordOut.pushes
      rw [effsIn_wordWith]
      by_cases hl : l ∈ executing s i
      · rw [if_pos hl, if_pos hl, hes l hl]
        unfold resEffs
        rw [List.flatMap_cons]
        have e1 : (if (r l).fl.any then [Eff.flags (r l).fl] else []).flatMap ((wordWith s i f es).pushesOf l) = [] := by split <;> rfl
        rw [e1, List.append_nil, ← shadow_of (i := i) (es := es) sh l]
        rcases hk with ⟨k, rfl⟩ | rfl <;> rfl
      · rw [if_neg hl, if_neg hl]; rfl
    rw [hg, h10, queueShadows_queue _ _ _ _ hq]
    have hqs : (Tbl.get ((wordWith s i f es).regShadows (rowsWith s i es) s.cgroup).quarters q {}).queue = (Tbl.get s.cgroup.quarters q {}).queue :=
      regShadows_queue _ _ _ _
    simp only [hn]
    exact pushAll_same (executing s i) _ _ _ _ _ q (executing_filter s i q R.quiet) (by split <;> simp) hqs

/-! ### The forms a word's body takes -/
theorem rowsOf_map (g : Nat → List Nat → LaneOut) (o : Nat → List Eff) (h : ∀ l ∈ executing s i, g l (vs l) = .ok (o l)) :
    (rowsOf s i vs).map (fun p => (p.1, g p.1 p.2)) = (executing s i).map fun l => (l, .ok (o l)) := by
  unfold rowsOf
  rw [List.map_map]
  exact List.map_congr_left fun l hl => by simp only [Function.comp]; rw [h l hl]
/-- The destination a form names. -/
def formDst (i : Instr) : Option Dst := (i.form.bind (·.dst)).map (·.1)
theorem formDst_of {d : Dst} (h : formDst i = some d) (hf : i.form = some f) : f.dst.map (·.1) = some d := by
  unfold formDst at h; rw [hf] at h; exact h
/-- A word whose lanes each give a result gives it. -/
theorem gives_each {d : Dst} {n : Nat} {r : State → Nat → List Nat → Res} {b : State → Nat → List Nat → LaneOut}
    (hx : ∀ s, exec i s = s.word false i (bodyEach b)) (hd : formDst i = some d) (hb : ∀ z l v, b z l v = .res d n (r z l v)) : Gives i d n r := by
  intro s f vs R T
  obtain ⟨h1, h2⟩ := gave (go := bodyEach b) (es := fun l => resEffs d n (r s l (vs l)) none) R T (formDst_of hd R.form) (fun l => r s l (vs l))
    (fun _ => none) (fun _ _ => rfl) (rowsOf_map (b s) _ fun l _ => hb s l (vs l))
  exact ⟨_, (hx s).trans h1, h2⟩
/-- The same for a result that sets the shadows of what it writes. -/
theorem gives_each_shadow {d : Dst} {n : Nat} {r : State → Nat → List Nat → Res} {sh : State → Nat → Shadow} {b : State → Nat → List Nat → LaneOut}
    (hx : ∀ s, exec i s = s.word false i (bodyEach b)) (hd : formDst i = some d) (hb : ∀ z l v, b z l v = .resSh d n (r z l v) (sh z l)) :
    GivesShadow i d n r fun z l => some (sh z l) := by
  intro s f vs R T
  obtain ⟨h1, h2⟩ := gave (go := bodyEach b) (es := fun l => resEffs d n (r s l (vs l)) (some (sh s l))) R T (formDst_of hd R.form)
    (fun l => r s l (vs l)) (fun l => some (sh s l)) (fun _ _ => rfl) (rowsOf_map (b s) _ fun l _ => hb s l (vs l))
  exact ⟨_, (hx s).trans h1, h2⟩
/-- A word whose lanes read each other's operands. -/
theorem gives_row {d : Dst} {n : Nat} {r : State → Rows → Nat → List Nat → Res} {b : State → Rows → Nat → List Nat → LaneOut}
    (hx : ∀ s, exec i s = s.word false i (bodyRow b)) (hd : formDst i = some d)
    (hb : ∀ s vs, ∀ l ∈ executing s i, b s (rowsOf s i vs) l (vs l) = .res d n (r s (rowsOf s i vs) l (vs l))) : GivesAcross i d n r plain := by
  intro s f vs R T
  obtain ⟨h1, h2⟩ := gave (go := bodyRow b) (es := fun l => resEffs d n (r s (rowsOf s i vs) l (vs l)) none) R T (formDst_of hd R.form)
    (fun l => r s (rowsOf s i vs) l (vs l)) (fun _ => none) (fun _ _ => rfl) (rowsOf_map (b s (rowsOf s i vs)) _ fun l hl => hb s vs l hl)
  exact ⟨_, (hx s).trans h1, h2⟩
theorem gives_row_shadow {d : Dst} {n : Nat} {r : State → Rows → Nat → List Nat → Res} {sh : State → Rows → Nat → Shadow}
    {b : State → Rows → Nat → List Nat → LaneOut} (hx : ∀ s, exec i s = s.word false i (bodyRow b)) (hd : formDst i = some d)
    (hb : ∀ s vs, ∀ l ∈ executing s i, b s (rowsOf s i vs) l (vs l) = .resSh d n (r s (rowsOf s i vs) l (vs l)) (sh s (rowsOf s i vs) l)) :
    GivesAcross i d n r fun z rows l => some (sh z rows l) := by
  intro s f vs R T
  obtain ⟨h1, h2⟩ := gave (go := bodyRow b) (es := fun l => resEffs d n (r s (rowsOf s i vs) l (vs l)) (some (sh s (rowsOf s i vs) l))) R T
    (formDst_of hd R.form) (fun l => r s (rowsOf s i vs) l (vs l)) (fun l => some (sh s (rowsOf s i vs) l)) (fun _ _ => rfl)
    (rowsOf_map (b s (rowsOf s i vs)) _ fun l hl => hb s vs l hl)
  exact ⟨_, (hx s).trans h1, h2⟩

/-! ### A word that changes each lane alone -/
/-- A local effect with no destination. -/
def isInner (e : Eff) : Bool := match e with | .result .. => false | e => isLocal e
theorem isInner_local {e : Eff} (h : isInner e = true) : isLocal e = true := by
  cases e <;> first | exact h | exact Bool.noConfusion h
theorem isInner_dest {e : Eff} (h : isInner e = true) : e.dest = none := by
  cases e <;> first | rfl | exact Bool.noConfusion h
theorem did (R : Ready s i f vs) (hf : f.dst = none) (hin : ∀ l ∈ executing s i, ∀ e ∈ es l, isInner e = true)
    (hgo : go s (rowsOf s i vs) = (executing s i).map fun l => (l, .ok (es l))) :
    s.word false i go = .next (after s i f es) ∧ Did s i f (fun l x => (es l).foldl (fun x e => onLane s.now e x) x) (after s i f es) := by
  have hloc : ∀ l ∈ executing s i, ∀ e ∈ es l, isLocal e = true := fun l hl e he => isInner_local (hin l hl e he)
  have hent : ∀ k, (wordWith s i f es).entries (rowsWith s i es) k = [] := by
    intro k
    have : (rowsWith s i es).filterMap (fun p => p.2.findSome? ((wordWith s i f es).entryOf k p.1)) = [] := by
      rw [List.filterMap_eq_nil_iff]; intro p hp
      obtain ⟨l, hl, rfl⟩ := List.mem_map.mp hp
      rw [List.findSome?_eq_none_iff]; intro e he
      unfold WordOut.entryOf
      rw [isInner_dest (hin l hl e he)]
    unfold WordOut.entries
    rw [this]; rfl
  have hroom : Room s i f es := room_local R.quiet hloc fun k _ => by
    dsimp only; rw [hent k]; exact .inl rfl
  refine ⟨exec_ready R hgo (fun d c w b e _ => by rw [hf] at e; cases e) hroom, ?_⟩
  obtain ⟨_, _, _, _, h5, h6, h7, _, _, h10⟩ := groupAfter_spec (f := f) R.quiet hloc rfl rfl rfl
  have hg := groupIn_after (f := f) R.quiet R.lanes hloc
  constructor
  · exact frame_after R hloc
  · intro l hl; exact lanes_after R hloc hl
  · rw [hg, h7]
    unfold rowsWith
    cases he : executing s i with
    | nil => rfl
    | cons l ls =>
      show ((es l).foldl Group.setScalar s.cgroup).g = _
      rw [foldl_id]
      intro e hm
      have := hin l (by rw [he]; exact List.mem_cons_self ..) e hm
      cases e <;> first | rfl | exact Bool.noConfusion this
  · rw [hg, h5, hent, List.append_nil]
  · rw [hg, h6, hent, List.append_nil]
  · rw [hg, h10]
    refine quarters_none R.quiet (fun l hl e he => ?_) _
    have := isInner_dest (hin l hl e he)
    exact ⟨fun r n sh e2 => (by rw [this] at e2; cases e2), fun n sh e2 => (by rw [this] at e2; cases e2)⟩
/-- A word whose lanes each take inner effects. -/
theorem does_each {ok : State → Nat → List Nat → Prop} {r : State → Nat → List Nat → Lane → Lane} {o : State → Nat → List Nat → List Eff}
    {b : State → Nat → List Nat → LaneOut} (hx : ∀ s, exec i s = s.word false i (bodyEach b)) (hd : formDst i = none)
    (hb : ∀ z l v, ok z l v → b z l v = .ok (o z l v)) (hin : ∀ z l v, ∀ e ∈ o z l v, isInner e = true)
    (hr : ∀ z l v x, (o z l v).foldl (fun x e => onLane z.now e x) x = r z l v x) : Does i ok r := by
  intro s f vs R hok
  have hf : f.dst = none := by
    unfold formDst at hd; rw [R.form] at hd
    cases e : f.dst with
    | none => rfl
    | some x => rw [Option.bind_some, e] at hd; cases hd
  obtain ⟨h1, h2⟩ := did (go := bodyEach b) (es := fun l => o s l (vs l)) R hf (fun l _ => hin s l (vs l)) (rowsOf_map (b s) _ fun l hl => hb s l (vs l) (hok l hl))
  refine ⟨_, (hx s).trans h1, h2.frame, fun l hl => ?_, h2.scalars, h2.mqa, h2.mqb, h2.shadows⟩
  rw [h2.lanes l hl]; exact hr s l (vs l) _

/-! ### A word whose effects reach further -/
theorem performs_each {o : State → Nat → List Nat → List Eff → Prop} {b : State → Nat → List Nat → LaneOut}
    (hx : ∀ s, exec i s = s.word false i (bodyEach b)) (hb : ∀ z l v e, o z l v e → b z l v = .ok e) : PerformsEach i o := by
  intro s f vs es R H ho hroom
  rw [hx]
  exact exec_ready R (rowsOf_map (b s) es fun l hl => hb s l (vs l) (es l) (ho l hl)) (fun d c w x e hm => H _ e hm) hroom
theorem performs_row {o : State → Rows → Nat → List Nat → List Eff → Prop} {b : State → Rows → Nat → List Nat → LaneOut}
    (hx : ∀ s, exec i s = s.word false i (bodyRow b)) (hb : ∀ z rows l v e, o z rows l v e → b z rows l v = .ok e) : PerformsAcross i o := by
  intro s f vs es R H ho hroom
  rw [hx]
  exact exec_ready R (rowsOf_map (b s (rowsOf s i vs)) es fun l hl => hb s _ l (vs l) (es l) (ho l hl)) (fun d c w x e hm => H _ e hm) hroom
theorem once_ok {b : State → Nat → List Nat → LaneOut} {l : Nat} {rest : List Nat} {e : List Eff} (he : executing s i = l :: rest)
    (hb : b s l (vs l) = .ok e) : bodyOnce b s (rowsOf s i vs) = (executing s i).map fun k => (k, .ok (if k = l then e else [])) := by
  have hn := executing_nodup s i
  unfold rowsOf
  rw [he] at hn ⊢
  simp only [List.map_cons, bodyOnce, hb, if_true, List.map_map]
  congr 1
  refine List.map_congr_left fun k hk => ?_
  have : ¬ k = l := fun h => (List.nodup_cons.mp hn).1 (h ▸ hk)
  simp only [Function.comp, if_neg this]
theorem performs_once {o : State → LaneSet → Nat → List Nat → List Eff → Prop} {b : State → Nat → List Nat → LaneOut}
    (hx : ∀ s, exec i s = s.word false i (bodyOnce b)) (hb : ∀ z m l v e, o z m l v e → b z l v = .ok e) : PerformsOnce i o := by
  intro s f vs l rest es R H he ho hroom
  rw [hx]
  exact exec_ready (es := fun k => if k = l then es else []) R (once_ok he (hb s _ l (vs l) es ho)) (fun d c w x e hm => H _ e hm) hroom
theorem performs_group {o : State → LaneSet → Nat → List Nat → List Eff → Prop} {b : State → LaneSet → Nat → List Nat → LaneOut}
    (hx : ∀ s, exec i s = s.word false i (bodyGroup b)) (hb : ∀ z m l v e, o z m l v e → b z m l v = .ok e) : PerformsOnce i o := by
  intro s f vs l rest es R H he ho hroom
  rw [hx]
  refine exec_ready (es := fun k => if k = l then es else []) R ?_ (fun d c w x e hm => H _ e hm) hroom
  have hm : (rowsOf s i vs).map (·.1) = executing s i := by simp [rowsOf, Function.comp_def]
  show bodyOnce (b · (laneSetOf ((rowsOf s i vs).map (·.1)))) s (rowsOf s i vs) = _
  rw [hm]
  exact once_ok he (hb s _ l (vs l) es ho)
theorem serial_ok {o : State → Nat → List Nat → List Eff → Prop} {b : State → Nat → List Nat → LaneOut} (hb : ∀ z l v e, o z l v e → b z l v = .ok e)
    (es : Nat → List Eff) (rows : Rows) (z : State) (acc : Tbl LaneOut) (h : InTurn o es z rows) :
    (rows.foldl (serialStep b) (z, acc)).2 = acc ++ rows.map fun p => (p.1, .ok (es p.1)) := by
  induction rows generalizing z acc with
  | nil => simp
  | cons p rows ih =>
    obtain ⟨h1, h2⟩ := h
    have e1 : serialStep b (z, acc) p = ((es p.1).foldl (fun z e => z.perform z.chain.core z.chain.grp p.1 e) z, acc ++ [(p.1, .ok (es p.1))]) := by
      unfold serialStep
      rw [hb z p.1 p.2 (es p.1) h1]
    rw [List.foldl_cons, e1, ih _ _ h2]
    simp
theorem performs_serial {o : State → Nat → List Nat → List Eff → Prop} {b : State → Nat → List Nat → LaneOut}
    (hx : ∀ s, exec i s = s.word false i (bodySerial b)) (hb : ∀ z l v e, o z l v e → b z l v = .ok e) : PerformsInTurn i o := by
  intro s f vs es R H ho hroom
  rw [hx]
  refine exec_ready R ?_ (fun d c w x e hm => H _ e hm) hroom
  show ((rowsOf s i vs).foldl (serialStep b) (s, [])).2 = _
  rw [rowsOf, serial_ok hb es _ _ _ ho]
  simp [Function.comp_def]
end Sys2Proof.Machine
end

