-- ==== Sys2Proof/Laws/Mem.lean ====
section
/-! SUPPORT. Byte memories: reads after writes, bytes that a write leaves alone, and that every memory operation keeps the canonical
form. -/
namespace Sys2Proof.Machine

/-! ### One byte -/
/-- Every listed address is above a bound. -/
def cellsAbove (n : Nat) (t : List Host.Cell) : Prop := ∀ p ∈ t, n < p.1
theorem cellsWf_cons (i : Nat) (v : Byte) (t : List Host.Cell) :
    cellsWf ((i, v) :: t) = true ↔ v ≠ Mem.blank ∧ cellsAbove i t ∧ cellsWf t = true := by
  induction t generalizing i v with
  | nil => simp [cellsWf, cellsAbove]
  | cons p t ih =>
    obtain ⟨j, w⟩ := p
    simp only [cellsWf, Bool.and_eq_true, decide_eq_true_eq]
    constructor
    · intro ⟨⟨h0, h1⟩, h2⟩
      refine ⟨h0, ?_, h2⟩
      intro q hq
      rcases List.mem_cons.mp hq with rfl | hq
      · exact h1
      · exact Nat.lt_trans h1 (((ih j w).mp h2).2.1 q hq)
    · intro ⟨h0, h1, h2⟩
      exact ⟨⟨h0, h1 (j, w) (by simp)⟩, h2⟩
theorem cellGet_above {t : List Host.Cell} {n a : Nat} (h : cellsAbove n t) (ha : a ≤ n) : cellGet t a = Mem.blank := by
  cases t with
  | nil => rfl
  | cons p t =>
    obtain ⟨i, v⟩ := p
    have := h (i, v) (by simp)
    have h1 : ¬ i = a := by simp only at this; omega
    have h2 : a < i := by simp only at this; omega
    simp [cellGet, h1, h2]
theorem mem_cellPut {t : List Host.Cell} {a : Nat} {v : Byte} {p : Nat × Byte} (h : p ∈ cellPut t a v) : p = (a, v) ∨ p ∈ t := by
  induction t with
  | nil => unfold cellPut at h; split at h <;> simp_all
  | cons q t ih =>
    obtain ⟨i, w⟩ := q
    unfold cellPut at h
    split at h
    · split at h
      · exact .inr (List.mem_cons_of_mem _ h)
      · rcases List.mem_cons.mp h with rfl | h
        · exact .inl rfl
        · exact .inr (List.mem_cons_of_mem _ h)
    · split at h
      · split at h
        · exact .inr h
        · rcases List.mem_cons.mp h with rfl | h
          · exact .inl rfl
          · exact .inr h
      · rcases List.mem_cons.mp h with rfl | h
        · exact .inr (List.mem_cons_self ..)
        · rcases ih h with rfl | h
          · exact .inl rfl
          · exact .inr (List.mem_cons_of_mem _ h)
theorem cellsWf_put {t : List Host.Cell} (h : cellsWf t = true) (a : Nat) (v : Byte) : cellsWf (cellPut t a v) = true := by
  induction t with
  | nil => unfold cellPut; split <;> simp_all [cellsWf]
  | cons p t ih =>
    obtain ⟨i, w⟩ := p
    obtain ⟨h0, h1, h2⟩ := (cellsWf_cons i w t).mp h
    unfold cellPut
    split
    · rename_i e; subst e
      split
      · exact h2
      · rename_i hv; exact (cellsWf_cons ..).mpr ⟨hv, h1, h2⟩
    · split
      · rename_i hlt
        split
        · exact h
        · rename_i hv
          refine (cellsWf_cons ..).mpr ⟨hv, ?_, h⟩
          intro q hq
          rcases List.mem_cons.mp hq with rfl | hq
          · exact hlt
          · exact Nat.lt_trans hlt (h1 q hq)
      · refine (cellsWf_cons ..).mpr ⟨h0, ?_, ih h2⟩
        intro q hq
        rcases mem_cellPut hq with rfl | hq
        · show i < a; omega
        · exact h1 q hq
theorem cellGet_put {t : List Host.Cell} (h : cellsWf t = true) (a b : Nat) (v : Byte) :
    cellGet (cellPut t a v) b = if a = b then v else cellGet t b := by
  induction t with
  | nil =>
    unfold cellPut
    split
    · rename_i hv; subst hv; split <;> rfl
    · simp only [cellGet]; split
      · rfl
      · split <;> rfl
  | cons p t ih =>
    obtain ⟨i, w⟩ := p
    obtain ⟨h0, h1, h2⟩ := (cellsWf_cons i w t).mp h
    unfold cellPut
    split
    · rename_i e; subst e
      split
      · rename_i hv; subst hv
        by_cases e : i = b
        · subst e; simp [cellGet_above h1 (Nat.le_refl _)]
        · by_cases e2 : b < i
          · simp [e, e2, cellGet, cellGet_above h1 (Nat.le_of_lt e2)]
          · simp [e, e2, cellGet]
      · simp only [cellGet]; split <;> rfl
    · rename_i e
      split
      · rename_i hlt
        split
        · rename_i hv; subst hv
          by_cases e1 : a = b
          · subst e1; simp [cellGet, e, hlt]
          · simp [e1]
        · by_cases e1 : a = b
          · subst e1; simp [cellGet]
          · by_cases e2 : b < a
            · have e3 : ¬ i = b := by omega
              have e4 : b < i := by omega
              simp [cellGet, e1, e2, e3, e4]
            · simp only [cellGet, e1, e2, if_false]
      · by_cases e1 : i = b
        · subst e1; simp [cellGet, Ne.symm e]
        · by_cases e2 : b < i
          · have e3 : ¬ a = b := by omega
            simp [cellGet, e1, e2, e3]
          · simp only [cellGet, e1, e2, if_false, ih h2]
theorem cellsWf_filter {t : List Host.Cell} (h : cellsWf t = true) (f : Host.Cell → Bool) : cellsWf (t.filter f) = true := by
  induction t with
  | nil => rfl
  | cons p t ih =>
    obtain ⟨i, w⟩ := p
    obtain ⟨h0, h1, h2⟩ := (cellsWf_cons i w t).mp h
    simp only [List.filter_cons]
    split
    · exact (cellsWf_cons ..).mpr ⟨h0, fun q hq => h1 q (List.mem_filter.mp hq).1, ih h2⟩
    · exact ih h2

/-! ### Memories -/
theorem Mem.wf_iff (m : Mem) : m.wf = true ↔ cellsWf m.bytes = true ∧ sectorsWf m.sectors = true := by
  simp [Mem.wf, Bool.and_eq_true]
theorem sectorsWf_put {t : Tbl Sector} (h : sectorsWf t = true) (k : Nat) {x : Sector} (hx : x ≠ {}) : sectorsWf (Tbl.put t k x) = true := by
  simp only [sectorsWf, Bool.and_eq_true, List.all_eq_true] at h ⊢
  refine ⟨Tbl.sorted_put h.1 k x, ?_⟩
  intro p hp
  rcases Tbl.mem_put hp with rfl | hp
  · simpa using hx
  · exact h.2 p hp
theorem sectorsWf_del {t : Tbl Sector} (h : sectorsWf t = true) (k : Nat) : sectorsWf (Tbl.del t k) = true := by
  simp only [sectorsWf, Bool.and_eq_true, List.all_eq_true] at h ⊢
  exact ⟨Tbl.sorted_del h.1 k, fun p hp => h.2 p (Tbl.mem_del hp)⟩
theorem sectorsWf_filter {t : Tbl Sector} (h : sectorsWf t = true) (f : Nat × Sector → Bool) : sectorsWf (t.filter f) = true := by
  simp only [sectorsWf, Bool.and_eq_true, List.all_eq_true] at h ⊢
  exact ⟨Tbl.sorted_filter h.1 f, fun p hp => h.2 p (List.mem_filter.mp hp).1⟩
@[simp] theorem Mem.put_sectors (m : Mem) (a : Nat) (v : Byte) : (m.put a v).sectors = m.sectors := rfl
@[simp] theorem Mem.setSector_bytes (m : Mem) (a : Nat) (x : Sector) : (m.setSector a x).bytes = m.bytes := rfl
@[simp] theorem Mem.write_sectors (m : Mem) (a : Nat) (bs : List Byte) : (m.write a bs).sectors = m.sectors := by
  induction bs generalizing m a with
  | nil => rfl
  | cons b bs ih => simp [Mem.write, ih]
theorem Mem.wf_put {m : Mem} (h : m.wf = true) (a : Nat) (v : Byte) : (m.put a v).wf = true := by
  rw [Mem.wf_iff] at h ⊢
  exact ⟨cellsWf_put h.1 a v, h.2⟩
theorem Mem.wf_setSector {m : Mem} (h : m.wf = true) (a : Nat) (x : Sector) : (m.setSector a x).wf = true := by
  rw [Mem.wf_iff] at h ⊢
  refine ⟨h.1, ?_⟩
  unfold Mem.setSector
  split
  · exact sectorsWf_del h.2 _
  · rename_i hx; exact sectorsWf_put h.2 _ hx
theorem Mem.wf_write {m : Mem} (h : m.wf = true) (a : Nat) (bs : List Byte) : (m.write a bs).wf = true := by
  induction bs generalizing m a with
  | nil => exact h
  | cons b bs ih => exact ih (Mem.wf_put h a b) (a + 1)
theorem Mem.wf_setSlot {m : Mem} (h : m.wf = true) (a k : Nat) (v : Byte) : (m.setSlot a k v).wf = true := Mem.wf_setSector h _ _
theorem Mem.wf_rekey {m : Mem} (h : m.wf = true) (key k : Nat) : (m.rekey key k).wf = true := by
  unfold Mem.rekey
  dsimp only
  split
  · exact h
  · exact Mem.wf_setSector (Mem.wf_write h _ _) _ _
theorem Mem.wf_mark {m : Mem} (h : m.wf = true) (a n : Nat) (p : Bool) (k : Nat) : (m.mark a n p k).wf = true := Mem.wf_setSector h _ _
theorem Mem.wf_foldl {α : Type} (f : Mem → α → Mem) (hf : ∀ m x, m.wf = true → (f m x).wf = true) (l : List α) {m : Mem} (h : m.wf = true) :
    (l.foldl f m).wf = true := by
  induction l generalizing m with
  | nil => exact h
  | cons x l ih => exact ih (hf m x h)
theorem Mem.wf_writeKey {m : Mem} (h : m.wf = true) (key a : Nat) (bs : List Byte) (p : Bool) : (m.writeKey key a bs p).wf = true :=
  Mem.wf_foldl _ (fun _ k h => Mem.wf_mark h a bs.length p k) _ (Mem.wf_write (Mem.wf_foldl _ (fun _ k h => Mem.wf_rekey h key k) _ h) a bs)
theorem Mem.wf_clearCovered {m : Mem} (h : m.wf = true) (reqs : List (Nat × Nat)) : (m.clearCovered reqs).wf = true := by
  refine Mem.wf_foldl _ ?_ _ h
  intro m k h
  split
  · exact Mem.wf_setSector h _ _
  · exact h
theorem Mem.wf_keep {m : Mem} (h : m.wf = true) (f : Host.Cell → Bool) (g : Nat × Sector → Bool) :
    Mem.wf { bytes := m.bytes.filter f, sectors := m.sectors.filter g } = true := by
  rw [Mem.wf_iff] at h ⊢
  exact ⟨cellsWf_filter h.1 f, sectorsWf_filter h.2 g⟩
theorem Mem.wf_empty : Mem.wf {} = true := by decide

/-! ### Reads after writes -/
theorem Mem.get_put {m : Mem} (h : m.wf = true) (a b : Nat) (v : Byte) : (m.put a v).get b = if a = b then v else m.get b :=
  cellGet_put ((Mem.wf_iff m).mp h).1 a b v
@[simp] theorem Mem.get_setSector (m : Mem) (a b : Nat) (x : Sector) : (m.setSector a x).get b = m.get b := rfl
theorem Mem.get_write {m : Mem} (h : m.wf = true) (a b : Nat) (bs : List Byte) :
    (m.write a bs).get b = if a ≤ b ∧ b < a + bs.length then bs.getD (b - a) 0 else m.get b := by
  induction bs generalizing m a with
  | nil => simp only [Mem.write, List.length_nil]; rw [if_neg (by omega)]
  | cons v bs ih =>
    simp only [Mem.write, List.length_cons]
    rw [ih (Mem.wf_put h a v) (a + 1), Mem.get_put h]
    by_cases e : a = b
    · subst e
      rw [if_neg (by omega), if_pos rfl, if_pos ⟨Nat.le_refl _, by omega⟩]; simp
    · simp only [if_neg e]
      by_cases e2 : a + 1 ≤ b ∧ b < a + 1 + bs.length
      · rw [if_pos e2, if_pos (by omega)]
        have : b - a = (b - (a + 1)) + 1 := by omega
        rw [this]; simp
      · rw [if_neg e2, if_neg (by omega)]
theorem Mem.sector_setSector (m : Mem) (a b : Nat) (x : Sector) : (m.setSector a x).sector b = if a / 32 = b / 32 then x else m.sector b := by
  unfold Mem.setSector Mem.sector
  split
  · rename_i hx
    rw [Tbl.get_del]; split
    · exact hx.symm
    · rfl
  · rw [Tbl.get_put]
theorem Mem.find_setSector (m : Mem) (a k : Nat) (x : Sector) : Tbl.get (m.setSector a x).sectors k {} = if a / 32 = k then x else Tbl.get m.sectors k {} := by
  unfold Mem.setSector
  split
  · rename_i hx
    rw [Tbl.get_del]; split
    · exact hx.symm
    · rfl
  · rw [Tbl.get_put]
@[simp] theorem Mem.sector_write (m : Mem) (a b : Nat) (bs : List Byte) : (m.write a bs).sector b = m.sector b := by
  simp [Mem.sector]
theorem Mem.read_congr {m m' : Mem} {j : Nat} (h : ∀ c, c / 32 = j → m.get c = m'.get c) : m.read (j * 32) 32 = m'.read (j * 32) 32 :=
  List.map_congr_left fun i hi => h _ (by rw [List.mem_range] at hi; omega)
@[simp] theorem Mem.read_setSector (m : Mem) (a b n : Nat) (x : Sector) : (m.setSector a x).read b n = m.read b n := rfl
/-- What a byte of a sector that changes its key reads as under the new key: the same as before (R218). -/
theorem Mem.length_readKey (m : Mem) (key a n : Nat) : (m.readKey key a n).length = n := by simp [Mem.readKey]
theorem Mem.getD_readKey (m : Mem) (key a n i : Nat) (h : i < n) : (m.readKey key a n).getD i 0 = m.getKey key (a + i) := by
  simp [Mem.readKey, List.getD, h]
theorem Mem.getKey_rekey {m : Mem} (h : m.wf = true) (key k b : Nat) : (m.rekey key k).getKey key b = m.getKey key b := by
  unfold Mem.rekey
  dsimp only
  split
  · rfl
  · rename_i hk
    unfold Mem.getKey
    simp only [Mem.sector_setSector, Mem.sector_write, Mem.get_setSector]
    by_cases e : k = b / 32
    · have e1 : 32 * k / 32 = b / 32 := by omega
      rw [if_pos e1]
      simp only [if_true]
      rw [Mem.get_write h, Mem.length_readKey, if_pos (by omega), Mem.getD_readKey _ _ _ _ _ (by omega)]
      have : 32 * k + (b - 32 * k) = b := by omega
      rw [this]; rfl
    · have e1 : ¬ 32 * k / 32 = b / 32 := by omega
      rw [if_neg e1]
      have g : ∀ c, c / 32 = b / 32 → (m.write (32 * k) (m.readKey key (32 * k) 32)).get c = m.get c := by
        intro c hc
        rw [Mem.get_write h, Mem.length_readKey, if_neg (by omega)]
      split
      · exact g b rfl
      · rw [Mem.read_setSector, Mem.read_congr g]
theorem Mem.key_rekey (m : Mem) (key k j : Nat) : (Tbl.get (m.rekey key k).sectors j {}).key = if k = j then key else (Tbl.get m.sectors j {}).key := by
  unfold Mem.rekey
  dsimp only
  split
  · rename_i h; split
    · rename_i e; subst e; exact h
    · rfl
  · rw [Mem.find_setSector, Mem.write_sectors]
    have : 32 * k / 32 = k := by omega
    rw [this]; split <;> rfl
theorem Mem.rekeys {m : Mem} (h : m.wf = true) (key : Nat) (ks : List Nat) :
    (ks.foldl (fun m k => m.rekey key k) m).wf = true ∧ (∀ b, (ks.foldl (fun m k => m.rekey key k) m).getKey key b = m.getKey key b) ∧
    (∀ j, j ∈ ks → (Tbl.get (ks.foldl (fun m k => m.rekey key k) m).sectors j {}).key = key) ∧
    (∀ j, (Tbl.get m.sectors j {}).key = key → (Tbl.get (ks.foldl (fun m k => m.rekey key k) m).sectors j {}).key = key) := by
  induction ks generalizing m with
  | nil => exact ⟨h, fun _ => rfl, fun j hj => absurd hj (List.not_mem_nil), fun _ h => h⟩
  | cons k ks ih =>
    obtain ⟨i1, i2, i3, i4⟩ := ih (Mem.wf_rekey h key k)
    refine ⟨i1, fun b => (i2 b).trans (Mem.getKey_rekey h key k b), ?_, ?_⟩
    · intro j hj
      rcases List.mem_cons.mp hj with rfl | hj
      · exact i4 _ (by rw [Mem.key_rekey, if_pos rfl])
      · exact i3 j hj
    · intro j hj
      exact i4 j (by rw [Mem.key_rekey]; split <;> simp_all)
theorem Mem.getKey_mark (m : Mem) (a n : Nat) (p : Bool) (k key b : Nat) : (m.mark a n p k).getKey key b = m.getKey key b := by
  have hk : ((m.mark a n p k).sector b).key = (m.sector b).key := by
    unfold Mem.mark
    rw [Mem.sector_setSector]
    have : 32 * k / 32 = k := by omega
    rw [this]; split
    · rename_i e; subst e; rfl
    · rfl
  unfold Mem.getKey
  simp only [hk]
  rfl
theorem Mem.getKey_marks (m : Mem) (a n : Nat) (p : Bool) (ks : List Nat) (key b : Nat) :
    (ks.foldl (fun m k => m.mark a n p k) m).getKey key b = m.getKey key b := by
  induction ks generalizing m with
  | nil => rfl
  | cons k ks ih => simp only [List.foldl_cons]; rw [ih, Mem.getKey_mark]
theorem mem_sectorsOf {a n k : Nat} (hn : 0 < n) : k ∈ sectorsOf a n ↔ a / 32 ≤ k ∧ k ≤ (a + n - 1) / 32 := by
  unfold sectorsOf
  rw [if_neg (by omega)]
  simp only [List.mem_map, List.mem_range]
  constructor
  · rintro ⟨i, hi, rfl⟩; omega
  · intro ⟨h1, h2⟩; exact ⟨k - a / 32, by omega, by omega⟩
/-- A read under the key of a write request: the written bytes inside it, and what it read before outside it (R218). -/
theorem Mem.getKey_writeKey {m : Mem} (h : m.wf = true) (key a b : Nat) (bs : List Byte) (p : Bool) :
    (m.writeKey key a bs p).getKey key b = if a ≤ b ∧ b < a + bs.length then bs.getD (b - a) 0 else m.getKey key b := by
  unfold Mem.writeKey
  simp only
  rw [Mem.getKey_marks]
  obtain ⟨i1, i2, i3, _⟩ := Mem.rekeys h key (sectorsOf a bs.length)
  generalize hm : (sectorsOf a bs.length).foldl (fun m k => m.rekey key k) m = m1 at i1 i2 i3 ⊢
  have hs : ((m1.write a bs).sector b).key = (m1.sector b).key := by simp
  by_cases hb : bs.length = 0
  · rw [if_neg (by omega), ← i2 b]
    have : bs = [] := List.eq_nil_of_length_eq_zero hb
    subst this; rfl
  · by_cases hin : b / 32 ∈ sectorsOf a bs.length
    · have hk := i3 _ hin
      have e : ∀ m2 : Mem, (m2.sector b).key = key → m2.getKey key b = m2.get b := by
        intro m2 h2; simp only [Mem.getKey, h2, if_true]
      rw [e _ (by rw [hs]; exact hk), Mem.get_write i1]
      split
      · rfl
      · rw [← i2 b, e _ hk]
    · have hout : ¬ (a ≤ b ∧ b < a + bs.length) := by
        rw [mem_sectorsOf (by omega)] at hin; omega
      rw [if_neg hout, ← i2 b]
      have g : ∀ c, c / 32 = b / 32 → (m1.write a bs).get c = m1.get c := by
        intro c hc
        rw [Mem.get_write i1, if_neg]
        rw [mem_sectorsOf (by omega)] at hin; omega
      unfold Mem.getKey
      simp only [Mem.sector_write, g b rfl]
      rw [Mem.read_congr g]
theorem Mem.readKey_writeKey {m : Mem} (h : m.wf = true) (key a : Nat) (bs : List Byte) (p : Bool) :
    (m.writeKey key a bs p).readKey key a bs.length = bs := by
  apply List.ext_getElem
  · simp [Mem.readKey]
  · intro i h1 h2
    simp only [Mem.readKey, List.getElem_map, List.getElem_range, Mem.getKey_writeKey h]
    rw [if_pos (by omega)]
    simp [List.getD, h2]

end Sys2Proof.Machine
end

