-- ==== Sys2Proof/Laws/Words.lean ====
section
/-! SUPPORT. The other shapes of a word (R33 to R35), and which decoder of the major opcode reads a word (R40). -/
set_option linter.unusedSectionVars false
set_option linter.unusedVariables false
namespace Sys2Proof.Laws
open Machine

theorem bit01_false : bit01 false = 0 := rfl
theorem bit01_true : bit01 true = 1 := rfl
theorem half_lt (x : Bool) : bit01 false * 4 + bit01 false * 2 + bit01 x < 2 := by cases x <;> decide

/-! ### The register format -/
section
variable {d a b idx md : Nat} (ch : Bool)
theorem dec0 (hm : 0 < 31) (hd : d < 64) (ha : a < 64) (hb : b < 64) (hi : idx < 32) (hq : md < 8) :
    decodeWord (wordR 0 ch d a b idx md) = decSys (wordR 0 ch d a b idx md) := by
  simp only [decodeWord, if_neg (wordR_ne ch hm hd ha hb hi hq), fMaj_wordR ch hm hd ha hb hi hq]
theorem dec1 (hm : 1 < 31) (hd : d < 64) (ha : a < 64) (hb : b < 64) (hi : idx < 32) (hq : md < 8) :
    decodeWord (wordR 1 ch d a b idx md) = decIalu (wordR 1 ch d a b idx md) := by
  simp only [decodeWord, if_neg (wordR_ne ch hm hd ha hb hi hq), fMaj_wordR ch hm hd ha hb hi hq]
theorem dec3 (hm : 3 < 31) (hd : d < 64) (ha : a < 64) (hb : b < 64) (hi : idx < 32) (hq : md < 8) :
    decodeWord (wordR 3 ch d a b idx md) = decIcmp (wordR 3 ch d a b idx md) := by
  simp only [decodeWord, if_neg (wordR_ne ch hm hd ha hb hi hq), fMaj_wordR ch hm hd ha hb hi hq]
theorem dec5 (hm : 5 < 31) (hd : d < 64) (ha : a < 64) (hb : b < 64) (hi : idx < 32) (hq : md < 8) :
    decodeWord (wordR 5 ch d a b idx md) = decCtrl (wordR 5 ch d a b idx md) := by
  simp only [decodeWord, if_neg (wordR_ne ch hm hd ha hb hi hq), fMaj_wordR ch hm hd ha hb hi hq]
theorem dec6 (hm : 6 < 31) (hd : d < 64) (ha : a < 64) (hb : b < 64) (hi : idx < 32) (hq : md < 8) :
    decodeWord (wordR 6 ch d a b idx md) = decFalu (wordR 6 ch d a b idx md) := by
  simp only [decodeWord, if_neg (wordR_ne ch hm hd ha hb hi hq), fMaj_wordR ch hm hd ha hb hi hq]
theorem dec8 (hm : 8 < 31) (hd : d < 64) (ha : a < 64) (hb : b < 64) (hi : idx < 32) (hq : md < 8) :
    decodeWord (wordR 8 ch d a b idx md) = decFspec (wordR 8 ch d a b idx md) := by
  simp only [decodeWord, if_neg (wordR_ne ch hm hd ha hb hi hq), fMaj_wordR ch hm hd ha hb hi hq]
theorem dec9 (hm : 9 < 31) (hd : d < 64) (ha : a < 64) (hb : b < 64) (hi : idx < 32) (hq : md < 8) :
    decodeWord (wordR 9 ch d a b idx md) = decCvt (wordR 9 ch d a b idx md) := by
  simp only [decodeWord, if_neg (wordR_ne ch hm hd ha hb hi hq), fMaj_wordR ch hm hd ha hb hi hq]
theorem dec10 (hm : 10 < 31) (hd : d < 64) (ha : a < 64) (hb : b < 64) (hi : idx < 32) (hq : md < 8) :
    decodeWord (wordR 10 ch d a b idx md) = decPack (wordR 10 ch d a b idx md) := by
  simp only [decodeWord, if_neg (wordR_ne ch hm hd ha hb hi hq), fMaj_wordR ch hm hd ha hb hi hq]
theorem dec11 (hm : 11 < 31) (hd : d < 64) (ha : a < 64) (hb : b < 64) (hi : idx < 32) (hq : md < 8) :
    decodeWord (wordR 11 ch d a b idx md) = decXlane (wordR 11 ch d a b idx md) := by
  simp only [decodeWord, if_neg (wordR_ne ch hm hd ha hb hi hq), fMaj_wordR ch hm hd ha hb hi hq]
theorem dec12 (hm : 12 < 31) (hd : d < 64) (ha : a < 64) (hb : b < 64) (hi : idx < 32) (hq : md < 8) :
    decodeWord (wordR 12 ch d a b idx md) = decBlock (wordR 12 ch d a b idx md) := by
  simp only [decodeWord, if_neg (wordR_ne ch hm hd ha hb hi hq), fMaj_wordR ch hm hd ha hb hi hq]
theorem dec16 (hm : 16 < 31) (hd : d < 64) (ha : a < 64) (hb : b < 64) (hi : idx < 32) (hq : md < 8) :
    decodeWord (wordR 16 ch d a b idx md) = decSync (wordR 16 ch d a b idx md) := by
  simp only [decodeWord, if_neg (wordR_ne ch hm hd ha hb hi hq), fMaj_wordR ch hm hd ha hb hi hq]
theorem dec17 (hm : 17 < 31) (hd : d < 64) (ha : a < 64) (hb : b < 64) (hi : idx < 32) (hq : md < 8) :
    decodeWord (wordR 17 ch d a b idx md) = decCache (wordR 17 ch d a b idx md) := by
  simp only [decodeWord, if_neg (wordR_ne ch hm hd ha hb hi hq), fMaj_wordR ch hm hd ha hb hi hq]
theorem dec18 (hm : 18 < 31) (hd : d < 64) (ha : a < 64) (hb : b < 64) (hi : idx < 32) (hq : md < 8) :
    decodeWord (wordR 18 ch d a b idx md) = decTend (wordR 18 ch d a b idx md) := by
  simp only [decodeWord, if_neg (wordR_ne ch hm hd ha hb hi hq), fMaj_wordR ch hm hd ha hb hi hq]
theorem dec19 (hm : 19 < 31) (hd : d < 64) (ha : a < 64) (hb : b < 64) (hi : idx < 32) (hq : md < 8) :
    decodeWord (wordR 19 ch d a b idx md) = decMtx (wordR 19 ch d a b idx md) := by
  simp only [decodeWord, if_neg (wordR_ne ch hm hd ha hb hi hq), fMaj_wordR ch hm hd ha hb hi hq]
theorem dec20 (hm : 20 < 31) (hd : d < 64) (ha : a < 64) (hb : b < 64) (hi : idx < 32) (hq : md < 8) :
    decodeWord (wordR 20 ch d a b idx md) = decGlog (wordR 20 ch d a b idx md) := by
  simp only [decodeWord, if_neg (wordR_ne ch hm hd ha hb hi hq), fMaj_wordR ch hm hd ha hb hi hq]
theorem dec21 (hm : 21 < 31) (hd : d < 64) (ha : a < 64) (hb : b < 64) (hi : idx < 32) (hq : md < 8) :
    decodeWord (wordR 21 ch d a b idx md) = decWork (wordR 21 ch d a b idx md) := by
  simp only [decodeWord, if_neg (wordR_ne ch hm hd ha hb hi hq), fMaj_wordR ch hm hd ha hb hi hq]
theorem dec22 (hm : 22 < 31) (hd : d < 64) (ha : a < 64) (hb : b < 64) (hi : idx < 32) (hq : md < 8) :
    decodeWord (wordR 22 ch d a b idx md) = decWin (wordR 22 ch d a b idx md) := by
  simp only [decodeWord, if_neg (wordR_ne ch hm hd ha hb hi hq), fMaj_wordR ch hm hd ha hb hi hq]
theorem dec23 (hm : 23 < 31) (hd : d < 64) (ha : a < 64) (hb : b < 64) (hi : idx < 32) (hq : md < 8) :
    decodeWord (wordR 23 ch d a b idx md) = decBcn (wordR 23 ch d a b idx md) := by
  simp only [decodeWord, if_neg (wordR_ne ch hm hd ha hb hi hq), fMaj_wordR ch hm hd ha hb hi hq]
theorem dec24 (hm : 24 < 31) (hd : d < 64) (ha : a < 64) (hb : b < 64) (hi : idx < 32) (hq : md < 8) :
    decodeWord (wordR 24 ch d a b idx md) = decColl (wordR 24 ch d a b idx md) := by
  simp only [decodeWord, if_neg (wordR_ne ch hm hd ha hb hi hq), fMaj_wordR ch hm hd ha hb hi hq]
theorem dec25 (hm : 25 < 31) (hd : d < 64) (ha : a < 64) (hb : b < 64) (hi : idx < 32) (hq : md < 8) :
    decodeWord (wordR 25 ch d a b idx md) = decMdl (wordR 25 ch d a b idx md) := by
  simp only [decodeWord, if_neg (wordR_ne ch hm hd ha hb hi hq), fMaj_wordR ch hm hd ha hb hi hq]
end

/-! ### Immediate format -/
theorem dec2 {d a lo : Nat} (ch : Bool) (hm : 2 < 32) (hd : d < 64) (ha : a < 64) (hl : lo < 2 ^ 14) :
    decodeWord (wordI 2 ch d a lo) = decIimm (wordI 2 ch d a lo) := by
  simp only [decodeWord, if_neg (wordI_ne ch hm hd ha hl (by decide)), fMaj_wordI ch hm hd ha hl]
theorem top_lo {k x : Nat} (h : x < 2 ^ 11 ∧ k < 8) : bits (k * 2 ^ 11 + x) 13 11 = k := by
  simp only [bits, Nat.shiftRight_eq_div_pow]; omega
theorem low_lo {k x : Nat} (h : x < 2 ^ 11) : bits (k * 2 ^ 11 + x) 10 0 = x := by
  simp only [bits, Nat.shiftRight_eq_div_pow]; omega
theorem movi_imm (imm : BitVec 17) : BitVec.ofNat 17 (imm.toNat / 2 ^ 11 * 2 ^ 11 + imm.toNat % 2048) = imm := by
  have e : imm.toNat / 2 ^ 11 * 2 ^ 11 + imm.toNat % 2048 = imm.toNat := by omega
  rw [e, BitVec.ofNat_toNat, BitVec.setWidth_eq]
section
variable (m : Nat) (h w : Bool) (k : BitVec 5)
theorem sh_bits : BitVec.ofNat 5 (bits (m * 2 ^ 11 + (bit01 h * 2 ^ 10 + bit01 w * 2 ^ 5 + k.toNat)) 4 0) = k := by
  have := k.isLt
  have e : bits (m * 2 ^ 11 + (bit01 h * 2 ^ 10 + bit01 w * 2 ^ 5 + k.toNat)) 4 0 = k.toNat := by
    simp only [bits, Nat.shiftRight_eq_div_pow]; omega
  rw [e, BitVec.ofNat_toNat, BitVec.setWidth_eq]
theorem sh_mid : bits (m * 2 ^ 11 + (bit01 h * 2 ^ 10 + bit01 w * 2 ^ 5 + k.toNat)) 9 6 = 0 := by
  have := k.isLt; have := bit01_le h; have := bit01_le w
  simp only [bits, Nat.shiftRight_eq_div_pow]; omega
theorem sh_w : bitAt (m * 2 ^ 11 + (bit01 h * 2 ^ 10 + bit01 w * 2 ^ 5 + k.toNat)) 5 = w := by
  have := k.isLt; have := bit01_le h; have := bit01_le w
  have e : (m * 2 ^ 11 + (bit01 h * 2 ^ 10 + bit01 w * 2 ^ 5 + k.toNat)) / 2 ^ 5 % 2 = bit01 w := by omega
  rw [bitAt, Nat.testBit_eq_decide_div_mod_eq, e]; cases w <;> decide
theorem sh_h : bitAt (m * 2 ^ 11 + (bit01 h * 2 ^ 10 + bit01 w * 2 ^ 5 + k.toNat)) 10 = h := by
  have := k.isLt; have := bit01_le h; have := bit01_le w
  have e : (m * 2 ^ 11 + (bit01 h * 2 ^ 10 + bit01 w * 2 ^ 5 + k.toNat)) / 2 ^ 10 % 2 = bit01 h := by omega
  rw [bitAt, Nat.testBit_eq_decide_div_mod_eq, e]; cases h <;> decide
end

/-! ### Three sources -/
def wordQ (maj : Nat) (ch : Bool) (d a b g o : Nat) : Nat :=
  maj * 2 ^ 26 + bit01 ch * 2 ^ 31 + d * 2 ^ 20 + a * 2 ^ 14 + b * 2 ^ 8 + g * 2 ^ 2 + o
section
variable {maj d a b g o : Nat} (ch : Bool) (hm : maj < 31) (hd : d < 64) (ha : a < 64) (hb : b < 64) (hg : g < 64) (ho : o < 4)
include hm hd ha hb hg ho
theorem fMaj_wordQ : fMaj (wordQ maj ch d a b g o) = maj := by
  have := bit01_le ch
  simp only [fMaj, bits, wordQ, Nat.shiftRight_eq_div_pow]; omega
theorem fCh_wordQ : fCh (wordQ maj ch d a b g o) = ch := by
  have : (wordQ maj ch d a b g o) / 2 ^ 31 = bit01 ch := by simp only [wordQ]; have := bit01_le ch; omega
  simp only [fCh, bitAt, Nat.testBit_eq_decide_div_mod_eq, this, decide_bit01]
theorem fD_wordQ : fD (wordQ maj ch d a b g o) = d := by simp only [fD, bits, wordQ, Nat.shiftRight_eq_div_pow]; omega
theorem fA_wordQ : fA (wordQ maj ch d a b g o) = a := by simp only [fA, bits, wordQ, Nat.shiftRight_eq_div_pow]; omega
theorem fB_wordQ : fB (wordQ maj ch d a b g o) = b := by simp only [fB, bits, wordQ, Nat.shiftRight_eq_div_pow]; omega
theorem fC_wordQ : fC (wordQ maj ch d a b g o) = g := by simp only [fC, bits, wordQ, Nat.shiftRight_eq_div_pow]; omega
theorem op_wordQ : bits (wordQ maj ch d a b g o) 1 0 = o := by simp only [bits, wordQ, Nat.shiftRight_eq_div_pow]; omega
theorem wordQ_lt : wordQ maj ch d a b g o < 2 ^ 32 := by have := bit01_le ch; simp only [wordQ]; omega
theorem wordQ_ne : wordQ maj ch d a b g o ≠ 0xFFFFFFFF := by have := bit01_le ch; simp only [wordQ]; omega
end
theorem dec7 {d a b g o : Nat} (ch : Bool) (hm : 7 < 31) (hd : d < 64) (ha : a < 64) (hb : b < 64) (hg : g < 64) (ho : o < 4) :
    decodeWord (wordQ 7 ch d a b g o) = decFfma false (wordQ 7 ch d a b g o) := by
  simp only [decodeWord, if_neg (wordQ_ne ch hm hd ha hb hg ho), fMaj_wordQ ch hm hd ha hb hg ho]
theorem dec26 {d a b g o : Nat} (ch : Bool) (hm : 26 < 31) (hd : d < 64) (ha : a < 64) (hb : b < 64) (hg : g < 64) (ho : o < 4) :
    decodeWord (wordQ 26 ch d a b g o) = decFfma true (wordQ 26 ch d a b g o) := by
  simp only [decodeWord, if_neg (wordQ_ne ch hm hd ha hb hg ho), fMaj_wordQ ch hm hd ha hb hg ho]
theorem dec27 {d a b g o : Nat} (ch : Bool) (hm : 27 < 31) (hd : d < 64) (ha : a < 64) (hb : b < 64) (hg : g < 64) (ho : o < 4) :
    decodeWord (wordQ 27 ch d a b g o) = decQdot (wordQ 27 ch d a b g o) := by
  simp only [decodeWord, if_neg (wordQ_ne ch hm hd ha hb hg ho), fMaj_wordQ ch hm hd ha hb hg ho]
theorem dec28 {d a b g o : Nat} (ch : Bool) (hm : 28 < 31) (hd : d < 64) (ha : a < 64) (hb : b < 64) (hg : g < 64) (ho : o < 4) :
    decodeWord (wordQ 28 ch d a b g o) = decQmisc (wordQ 28 ch d a b g o) := by
  simp only [decodeWord, if_neg (wordQ_ne ch hm hd ha hb hg ho), fMaj_wordQ ch hm hd ha hb hg ho]

/-! ### Atomics -/
def wordA (ch : Bool) (d a b i o : Nat) : Nat :=
  15 * 2 ^ 26 + bit01 ch * 2 ^ 31 + d * 2 ^ 20 + a * 2 ^ 14 + b * 2 ^ 8 + i * 2 ^ 4 + o
section
variable {d a b i o : Nat} (ch : Bool) (hd : d < 64) (ha : a < 64) (hb : b < 64) (hi : i < 16) (ho : o < 16)
include hd ha hb hi ho
theorem fMaj_wordA : fMaj (wordA ch d a b i o) = 15 := by
  have := bit01_le ch
  simp only [fMaj, bits, wordA, Nat.shiftRight_eq_div_pow]; omega
theorem fCh_wordA : fCh (wordA ch d a b i o) = ch := by
  have : (wordA ch d a b i o) / 2 ^ 31 = bit01 ch := by simp only [wordA]; have := bit01_le ch; omega
  simp only [fCh, bitAt, Nat.testBit_eq_decide_div_mod_eq, this, decide_bit01]
theorem fD_wordA : fD (wordA ch d a b i o) = d := by simp only [fD, bits, wordA, Nat.shiftRight_eq_div_pow]; omega
theorem fA_wordA : fA (wordA ch d a b i o) = a := by simp only [fA, bits, wordA, Nat.shiftRight_eq_div_pow]; omega
theorem fB_wordA : fB (wordA ch d a b i o) = b := by simp only [fB, bits, wordA, Nat.shiftRight_eq_div_pow]; omega
theorem idx_wordA : bits (wordA ch d a b i o) 7 4 = i := by simp only [bits, wordA, Nat.shiftRight_eq_div_pow]; omega
theorem op_wordA : bits (wordA ch d a b i o) 3 0 = o := by simp only [bits, wordA, Nat.shiftRight_eq_div_pow]; omega
theorem wordA_lt : wordA ch d a b i o < 2 ^ 32 := by have := bit01_le ch; simp only [wordA]; omega
theorem wordA_ne : wordA ch d a b i o ≠ 0xFFFFFFFF := by have := bit01_le ch; simp only [wordA]; omega
theorem dec15 : decodeWord (wordA ch d a b i o) = decAtom (wordA ch d a b i o) := by
  simp only [decodeWord, if_neg (wordA_ne ch hd ha hb hi ho), fMaj_wordA ch hd ha hb hi ho]
end

/-! ### Loads and stores -/
def wordL (maj : Nat) (ch : Bool) (d a k o : Nat) : Nat := wordI maj ch d a (k * 2 ^ 10 + o)
section
variable {maj d a k o : Nat} (ch : Bool) (hm : maj < 31) (hd : d < 64) (ha : a < 64) (hk : k < 16) (ho : o < 2 ^ 10)
include hm hd ha hk ho
theorem wordL_lo : k * 2 ^ 10 + o < 2 ^ 14 := by omega
theorem fMaj_wordL : fMaj (wordL maj ch d a k o) = maj := fMaj_wordI ch (by omega) hd ha (by omega)
theorem fCh_wordL : fCh (wordL maj ch d a k o) = ch := fCh_wordI ch (by omega) hd ha (by omega)
theorem fD_wordL : fD (wordL maj ch d a k o) = d := fD_wordI ch (by omega) hd ha (by omega)
theorem fA_wordL : fA (wordL maj ch d a k o) = a := fA_wordI ch (by omega) hd ha (by omega)
theorem op_wordL : bits (wordL maj ch d a k o) 13 10 = k := by simp only [bits, wordL, wordI, Nat.shiftRight_eq_div_pow]; omega
theorem off_wordL : bits (wordL maj ch d a k o) 9 0 = o := by simp only [bits, wordL, wordI, Nat.shiftRight_eq_div_pow]; omega
theorem fmt_wordL : bits (wordL maj ch d a k o) 9 7 = o / 2 ^ 7 := by simp only [bits, wordL, wordI, Nat.shiftRight_eq_div_pow]; omega
theorem off7_wordL : bits (wordL maj ch d a k o) 6 0 = o % 2 ^ 7 := by simp only [bits, wordL, wordI, Nat.shiftRight_eq_div_pow]; omega
theorem wordL_lt : wordL maj ch d a k o < 2 ^ 32 := by have := bit01_le ch; simp only [wordL, wordI]; omega
theorem wordL_ne : wordL maj ch d a k o ≠ 0xFFFFFFFF := by have := bit01_le ch; simp only [wordL, wordI]; omega
end
theorem fmt_lo {f : Nat} (h : f < 6) (off : BitVec 7) : (f * 2 ^ 7 + off.toNat) / 2 ^ 7 = f := by have := off.isLt; omega
theorem off_lo {f : Nat} (h : f < 6) (off : BitVec 7) : BitVec.ofNat 7 ((f * 2 ^ 7 + off.toNat) % 2 ^ 7) = off := by
  have := off.isLt
  have e : (f * 2 ^ 7 + off.toNat) % 2 ^ 7 = off.toNat := by omega
  rw [e, BitVec.ofNat_toNat, BitVec.setWidth_eq]
theorem dec13 {d a k o : Nat} (ch : Bool) (hm : 13 < 31) (hd : d < 64) (ha : a < 64) (hk : k < 16) (ho : o < 2 ^ 10) :
    decodeWord (wordL 13 ch d a k o) = decLd (wordL 13 ch d a k o) := by
  simp only [decodeWord, if_neg (wordL_ne ch hm hd ha hk ho), fMaj_wordL ch hm hd ha hk ho]
theorem dec14 {d a k o : Nat} (ch : Bool) (hm : 14 < 31) (hd : d < 64) (ha : a < 64) (hk : k < 16) (ho : o < 2 ^ 10) :
    decodeWord (wordL 14 ch d a k o) = decSt (wordL 14 ch d a k o) := by
  simp only [decodeWord, if_neg (wordL_ne ch hm hd ha hk ho), fMaj_wordL ch hm hd ha hk ho]

/-! ### Branches -/
def wordB (ch neg : Bool) (p j k o : Nat) : Nat :=
  4 * 2 ^ 26 + bit01 ch * 2 ^ 31 + bit01 neg * 2 ^ 25 + p * 2 ^ 22 + j * 2 ^ 19 + k * 2 ^ 17 + o
section
variable {p j k o : Nat} (ch neg : Bool) (hp : p < 8) (hj : j < 8) (hk : k < 4) (ho : o < 2 ^ 17)
include hp hj hk ho
theorem fMaj_wordB : fMaj (wordB ch neg p j k o) = 4 := by
  have := bit01_le ch; have := bit01_le neg
  simp only [fMaj, bits, wordB, Nat.shiftRight_eq_div_pow]; omega
theorem fCh_wordB : fCh (wordB ch neg p j k o) = ch := by
  have : (wordB ch neg p j k o) / 2 ^ 31 = bit01 ch := by simp only [wordB]; have := bit01_le ch; have := bit01_le neg; omega
  simp only [fCh, bitAt, Nat.testBit_eq_decide_div_mod_eq, this, decide_bit01]
theorem neg_wordB : bitAt (wordB ch neg p j k o) 25 = neg := by
  have : (wordB ch neg p j k o) / 2 ^ 25 % 2 = bit01 neg := by simp only [wordB]; have := bit01_le ch; have := bit01_le neg; omega
  rw [bitAt, Nat.testBit_eq_decide_div_mod_eq, this]; cases neg <;> decide
theorem p_wordB : bits (wordB ch neg p j k o) 24 22 = p := by simp only [bits, wordB, Nat.shiftRight_eq_div_pow]; have := bit01_le neg; omega
theorem j_wordB : bits (wordB ch neg p j k o) 21 19 = j := by simp only [bits, wordB, Nat.shiftRight_eq_div_pow]; omega
theorem op_wordB : bits (wordB ch neg p j k o) 18 17 = k := by simp only [bits, wordB, Nat.shiftRight_eq_div_pow]; omega
theorem off_wordB : bits (wordB ch neg p j k o) 16 0 = o := by simp only [bits, wordB, Nat.shiftRight_eq_div_pow]; omega
theorem wordB_lt : wordB ch neg p j k o < 2 ^ 32 := by have := bit01_le ch; have := bit01_le neg; simp only [wordB]; omega
theorem wordB_ne : wordB ch neg p j k o ≠ 0xFFFFFFFF := by have := bit01_le ch; have := bit01_le neg; simp only [wordB]; omega
theorem dec4 : decodeWord (wordB ch neg p j k o) = decBranch (wordB ch neg p j k o) := by
  simp only [decodeWord, if_neg (wordB_ne ch neg hp hj hk ho), fMaj_wordB ch neg hp hj hk ho]
end

/-! ### `wait` -/
def wordW (ch : Bool) (ld st cp tl : Nat) : Nat :=
  29 * 2 ^ 26 + bit01 ch * 2 ^ 31 + ld * 2 ^ 22 + st * 2 ^ 18 + cp * 2 ^ 15 + tl * 2 ^ 12
section
variable {ld st cp tl : Nat} (ch : Bool) (h1 : ld < 16) (h2 : st < 16) (h3 : cp < 8) (h4 : tl < 8)
include h1 h2 h3 h4
theorem fMaj_wordW : fMaj (wordW ch ld st cp tl) = 29 := by
  have := bit01_le ch
  simp only [fMaj, bits, wordW, Nat.shiftRight_eq_div_pow]; omega
theorem fCh_wordW : fCh (wordW ch ld st cp tl) = ch := by
  have : (wordW ch ld st cp tl) / 2 ^ 31 = bit01 ch := by simp only [wordW]; have := bit01_le ch; omega
  simp only [fCh, bitAt, Nat.testBit_eq_decide_div_mod_eq, this, decide_bit01]
theorem ld_wordW : bits (wordW ch ld st cp tl) 25 22 = ld := by simp only [bits, wordW, Nat.shiftRight_eq_div_pow]; omega
theorem st_wordW : bits (wordW ch ld st cp tl) 21 18 = st := by simp only [bits, wordW, Nat.shiftRight_eq_div_pow]; omega
theorem cp_wordW : bits (wordW ch ld st cp tl) 17 15 = cp := by simp only [bits, wordW, Nat.shiftRight_eq_div_pow]; omega
theorem tl_wordW : bits (wordW ch ld st cp tl) 14 12 = tl := by simp only [bits, wordW, Nat.shiftRight_eq_div_pow]; omega
theorem lo_wordW : bits (wordW ch ld st cp tl) 11 0 = 0 := by simp only [bits, wordW, Nat.shiftRight_eq_div_pow]; omega
theorem wordW_lt : wordW ch ld st cp tl < 2 ^ 32 := by have := bit01_le ch; simp only [wordW]; omega
theorem wordW_ne : wordW ch ld st cp tl ≠ 0xFFFFFFFF := by have := bit01_le ch; simp only [wordW]; omega
theorem dec29 : decodeWord (wordW ch ld st cp tl) = decWait (wordW ch ld st cp tl) := by
  simp only [decodeWord, if_neg (wordW_ne ch h1 h2 h3 h4), fMaj_wordW ch h1 h2 h3 h4]
end

/-! ### Modifiers checked by step 4 -/
theorem cond_ok {c : Cond} (h : (c != .un && c != .or) = true) : decide (c.code < 6) = true := by revert h; cases c <;> decide
theorem fclass_ok {t : FTy} (h : (!t.packed) = true) : decide (t.code < 3) = true := by revert h; cases t <;> decide
theorem size_ok {s : BitVec 2} (h : (s != 3) = true) : decide (s.toNat < 3) = true := by revert s; decide
theorem rnd_ofNat (r : BitVec 3) : BitVec.ofNat 3 r.toNat = r := by rw [BitVec.ofNat_toNat, BitVec.setWidth_eq]
theorem rndOk_ofNat {r : BitVec 3} (h : rndOk r = true) : rndOk (BitVec.ofNat 3 r.toNat) = true := by rw [rnd_ofNat]; exact h
theorem mkCvt_ok {w lo hi : Nat} {k : Dst → Src → Instr} {d a} {p r : Nat} (hd : fD w = d.code) (ha : fA w = a.code) (hb : fB w = p) (hr : fMod w = r)
    (h1 : lo ≤ p) (h2 : p ≤ hi) (h3 : rndOk (BitVec.ofNat 3 r) = true) (h : (k d a).wf = true) : mkCvt w lo hi k = .ok (k d a) := by
  unfold mkCvt
  rw [hb, hr]
  exact (req_bind (by simp [h1, h2])).trans ((gate_bind h3 rfl).trans (mk2_ok hd ha h))
theorem mkSlide_ok {w : Nat} {k : Dst → Src → Src → Fill → Instr} {d a b f} (hd : fD w = d.code) (ha : fA w = a.code) (hb : fB w = b.code)
    (hf : fMod w = f.code) (hm : (f == .carry || b == .n 0) = true) (ht : twice [a, b] = false) (h : (k d a b f).wf = true) :
    mkSlide w k = .ok (k d a b f) := by
  unfold mkSlide noB
  rw [hf, hb, fillOf_code]
  refine (gate_bind (decide_eq_true (fill_lt f)) ?_).trans (mk3_ok hd ha hb ht h)
  cases f with
  | carry => rfl
  | _ => simp at hm; subst hm; rfl
theorem slide_once {a b : Src} {f : Fill} (hm : (f == .carry || b == .n 0) = true)
    (h : popsOnce ((a, .w32) :: if f = .carry then [(b, .w32)] else []) = true) : twice [a, b] = false := by
  cases f with
  | carry => exact twice_of (l := [(a, .w32), (b, .w32)]) h
  | _ => simp at hm; subst hm; revert h; cases a <;> simp [popsOnce, twice]
end Sys2Proof.Laws
end

