-- ==== Sys2Proof/Laws/PerInstr.lean ====
section
/-! SUPPORT. Decoding the word of a well-formed instruction gives the instruction back (R33 to R47), one lemma per constructor;
the events have no word, and none of them is well-formed as one. -/
set_option linter.unusedSimpArgs false
namespace Sys2Proof.Laws
open Machine

/-- A well-formed word's encoding has 32 bits, and decodes to it. -/
def RoundTrip.Statement (i : Instr) : Prop := i.wf = true → encode i < 2 ^ 32 ∧ decodeWord (encode i) = .ok i

theorem RoundTrip.nop (ch : Bool) : RoundTrip.Statement (.nop ch) := by
  intro h
  have e0 : encode (.nop ch) = 0x00000000 + bit01 ch <<< 31 := rfl
  have e : encode (.nop ch) = wordR 0 ch 0 0 0 0 0 := by rw [e0]; simp only [wordR, Nat.shiftLeft_eq, bit01_false, bit01_true]; omega
  have hm : 0 < 31 := by decide
  have hi : 0 < 32 := by decide
  have hd : 0 < 64 := (by decide)
  have ha : 0 < 64 := (by decide)
  have hb : 0 < 64 := (by decide)
  have hq := (show 0 < 8 by decide)
  rw [e]; refine ⟨wordR_lt ch hm hd ha hb hi hq, ?_⟩
  rw [dec0 ch hm hd ha hb hi hq]; delta decSys; rw [fIdx_wordR ch hm hd ha hb hi hq]; (try dsimp only)
  simp only [fCh_wordR ch hm hd ha hb hi hq, fMod_wordR ch hm hd ha hb hi hq, fD_wordR ch hm hd ha hb hi hq, fA_wordR ch hm hd ha hb hi hq, fB_wordR ch hm hd ha hb hi hq, noM, noD, noA, noB]
  exact (gate_bind rfl rfl).trans (finish_ok h)
theorem RoundTrip.exit (ch : Bool) : RoundTrip.Statement (.exit ch) := by
  intro h
  have e0 : encode (.exit ch) = 0x00000008 + bit01 ch <<< 31 := rfl
  have e : encode (.exit ch) = wordR 0 ch 0 0 0 1 0 := by rw [e0]; simp only [wordR, Nat.shiftLeft_eq, bit01_false, bit01_true]; omega
  have hm : 0 < 31 := by decide
  have hi : 1 < 32 := by decide
  have hd : 0 < 64 := (by decide)
  have ha : 0 < 64 := (by decide)
  have hb : 0 < 64 := (by decide)
  have hq := (show 0 < 8 by decide)
  rw [e]; refine ⟨wordR_lt ch hm hd ha hb hi hq, ?_⟩
  rw [dec0 ch hm hd ha hb hi hq]; delta decSys; rw [fIdx_wordR ch hm hd ha hb hi hq]; (try dsimp only)
  simp only [fCh_wordR ch hm hd ha hb hi hq, fMod_wordR ch hm hd ha hb hi hq, fD_wordR ch hm hd ha hb hi hq, fA_wordR ch hm hd ha hb hi hq, fB_wordR ch hm hd ha hb hi hq, noM, noD, noA, noB]
  exact (gate_bind rfl rfl).trans (finish_ok h)
theorem RoundTrip.trap (ch : Bool) (code : BitVec 6) : RoundTrip.Statement (.trap ch code) := by
  intro h
  have e0 : encode (.trap ch code) = 0x00000010 + bit01 ch <<< 31 + code.toNat <<< 8 := rfl
  have e : encode (.trap ch code) = wordR 0 ch 0 0 code.toNat 2 0 := by rw [e0]; simp only [wordR, Nat.shiftLeft_eq, bit01_false, bit01_true]; omega
  have hm : 0 < 31 := by decide
  have hi : 2 < 32 := by decide
  have hd : 0 < 64 := (by decide)
  have ha : 0 < 64 := (by decide)
  have hb : code.toNat < 64 := code.isLt
  have hq := (show 0 < 8 by decide)
  rw [e]; refine ⟨wordR_lt ch hm hd ha hb hi hq, ?_⟩
  rw [dec0 ch hm hd ha hb hi hq]; delta decSys; rw [fIdx_wordR ch hm hd ha hb hi hq]; (try dsimp only)
  simp only [fCh_wordR ch hm hd ha hb hi hq, fMod_wordR ch hm hd ha hb hi hq, fD_wordR ch hm hd ha hb hi hq, fA_wordR ch hm hd ha hb hi hq, fB_wordR ch hm hd ha hb hi hq, noM, noD, noA, noB, BitVec.ofNat_toNat, BitVec.setWidth_eq]
  exact (gate_bind rfl rfl).trans (finish_ok h)
theorem RoundTrip.brk (ch : Bool) : RoundTrip.Statement (.brk ch) := by
  intro h
  have e0 : encode (.brk ch) = 0x00000018 + bit01 ch <<< 31 := rfl
  have e : encode (.brk ch) = wordR 0 ch 0 0 0 3 0 := by rw [e0]; simp only [wordR, Nat.shiftLeft_eq, bit01_false, bit01_true]; omega
  have hm : 0 < 31 := by decide
  have hi : 3 < 32 := by decide
  have hd : 0 < 64 := (by decide)
  have ha : 0 < 64 := (by decide)
  have hb : 0 < 64 := (by decide)
  have hq := (show 0 < 8 by decide)
  rw [e]; refine ⟨wordR_lt ch hm hd ha hb hi hq, ?_⟩
  rw [dec0 ch hm hd ha hb hi hq]; delta decSys; rw [fIdx_wordR ch hm hd ha hb hi hq]; (try dsimp only)
  simp only [fCh_wordR ch hm hd ha hb hi hq, fMod_wordR ch hm hd ha hb hi hq, fD_wordR ch hm hd ha hb hi hq, fA_wordR ch hm hd ha hb hi hq, fB_wordR ch hm hd ha hb hi hq, noM, noD, noA, noB]
  exact (gate_bind rfl rfl).trans (finish_ok h)
theorem RoundTrip.rdsr (ch : Bool) (d : Dst) (sr : BitVec 6) : RoundTrip.Statement (.rdsr ch d sr) := by
  intro h
  have e0 : encode (.rdsr ch d sr) = 0x00000020 + bit01 ch <<< 31 + d.code <<< 20 + sr.toNat <<< 14 := rfl
  have e : encode (.rdsr ch d sr) = wordR 0 ch d.code sr.toNat 0 4 0 := by rw [e0]; simp only [wordR, Nat.shiftLeft_eq, bit01_false, bit01_true]; omega
  have hm : 0 < 31 := by decide
  have hi : 4 < 32 := by decide
  have hd : d.code < 64 := dst_lt d
  have ha : sr.toNat < 64 := sr.isLt
  have hb : 0 < 64 := (by decide)
  have hq := (show 0 < 8 by decide)
  rw [e]; refine ⟨wordR_lt ch hm hd ha hb hi hq, ?_⟩
  rw [dec0 ch hm hd ha hb hi hq]; delta decSys; rw [fIdx_wordR ch hm hd ha hb hi hq]; (try dsimp only)
  simp only [fCh_wordR ch hm hd ha hb hi hq, fMod_wordR ch hm hd ha hb hi hq, fD_wordR ch hm hd ha hb hi hq, fA_wordR ch hm hd ha hb hi hq, fB_wordR ch hm hd ha hb hi hq, noM, noD, noA, noB, BitVec.ofNat_toNat, BitVec.setWidth_eq]
  exact (gate_bind rfl rfl).trans (mk1_ok (fD_wordR ch hm hd ha hb hi hq) h)
theorem RoundTrip.wrsr (ch : Bool) (sr : BitVec 6) (a : Src) : RoundTrip.Statement (.wrsr ch sr a) := by
  intro h
  have e0 : encode (.wrsr ch sr a) = 0x00000028 + bit01 ch <<< 31 + sr.toNat <<< 20 + a.code <<< 14 := rfl
  have e : encode (.wrsr ch sr a) = wordR 0 ch sr.toNat a.code 0 5 0 := by rw [e0]; simp only [wordR, Nat.shiftLeft_eq, bit01_false, bit01_true]; omega
  have hm : 0 < 31 := by decide
  have hi : 5 < 32 := by decide
  have hd : sr.toNat < 64 := sr.isLt
  have ha : a.code < 64 := src_lt a
  have hb : 0 < 64 := (by decide)
  have hq := (show 0 < 8 by decide)
  rw [e]; refine ⟨wordR_lt ch hm hd ha hb hi hq, ?_⟩
  rw [dec0 ch hm hd ha hb hi hq]; delta decSys; rw [fIdx_wordR ch hm hd ha hb hi hq]; (try dsimp only)
  simp only [fCh_wordR ch hm hd ha hb hi hq, fMod_wordR ch hm hd ha hb hi hq, fD_wordR ch hm hd ha hb hi hq, fA_wordR ch hm hd ha hb hi hq, fB_wordR ch hm hd ha hb hi hq, noM, noD, noA, noB, BitVec.ofNat_toNat, BitVec.setWidth_eq]
  exact (gate_bind rfl rfl).trans (mkA_ok (fA_wordR ch hm hd ha hb hi hq) h)
theorem RoundTrip.sleep (ch : Bool) (a : Src) : RoundTrip.Statement (.sleep ch a) := by
  intro h
  have e0 : encode (.sleep ch a) = 0x00000030 + bit01 ch <<< 31 + a.code <<< 14 := rfl
  have e : encode (.sleep ch a) = wordR 0 ch 0 a.code 0 6 0 := by rw [e0]; simp only [wordR, Nat.shiftLeft_eq, bit01_false, bit01_true]; omega
  have hm : 0 < 31 := by decide
  have hi : 6 < 32 := by decide
  have hd : 0 < 64 := (by decide)
  have ha : a.code < 64 := src_lt a
  have hb : 0 < 64 := (by decide)
  have hq := (show 0 < 8 by decide)
  rw [e]; refine ⟨wordR_lt ch hm hd ha hb hi hq, ?_⟩
  rw [dec0 ch hm hd ha hb hi hq]; delta decSys; rw [fIdx_wordR ch hm hd ha hb hi hq]; (try dsimp only)
  simp only [fCh_wordR ch hm hd ha hb hi hq, fMod_wordR ch hm hd ha hb hi hq, fD_wordR ch hm hd ha hb hi hq, fA_wordR ch hm hd ha hb hi hq, fB_wordR ch hm hd ha hb hi hq, noM, noD, noA, noB]
  exact (gate_bind rfl rfl).trans (mkA_ok (fA_wordR ch hm hd ha hb hi hq) h)
theorem RoundTrip.yield (ch : Bool) : RoundTrip.Statement (.yield ch) := by
  intro h
  have e0 : encode (.yield ch) = 0x00000038 + bit01 ch <<< 31 := rfl
  have e : encode (.yield ch) = wordR 0 ch 0 0 0 7 0 := by rw [e0]; simp only [wordR, Nat.shiftLeft_eq, bit01_false, bit01_true]; omega
  have hm : 0 < 31 := by decide
  have hi : 7 < 32 := by decide
  have hd : 0 < 64 := (by decide)
  have ha : 0 < 64 := (by decide)
  have hb : 0 < 64 := (by decide)
  have hq := (show 0 < 8 by decide)
  rw [e]; refine ⟨wordR_lt ch hm hd ha hb hi hq, ?_⟩
  rw [dec0 ch hm hd ha hb hi hq]; delta decSys; rw [fIdx_wordR ch hm hd ha hb hi hq]; (try dsimp only)
  simp only [fCh_wordR ch hm hd ha hb hi hq, fMod_wordR ch hm hd ha hb hi hq, fD_wordR ch hm hd ha hb hi hq, fA_wordR ch hm hd ha hb hi hq, fB_wordR ch hm hd ha hb hi hq, noM, noD, noA, noB]
  exact (gate_bind rfl rfl).trans (finish_ok h)
theorem RoundTrip.prio (ch : Bool) (k : BitVec 4) : RoundTrip.Statement (.prio ch k) := by
  intro h
  have e0 : encode (.prio ch k) = 0x00000040 + bit01 ch <<< 31 + k.toNat <<< 14 := rfl
  have e : encode (.prio ch k) = wordR 0 ch 0 k.toNat 0 8 0 := by rw [e0]; simp only [wordR, Nat.shiftLeft_eq, bit01_false, bit01_true]; omega
  have hm : 0 < 31 := by decide
  have hi : 8 < 32 := by decide
  have hd : 0 < 64 := (by decide)
  have ha : k.toNat < 64 := (by have := k.isLt; omega)
  have hb : 0 < 64 := (by decide)
  have hq := (show 0 < 8 by decide)
  rw [e]; refine ⟨wordR_lt ch hm hd ha hb hi hq, ?_⟩
  rw [dec0 ch hm hd ha hb hi hq]; delta decSys; rw [fIdx_wordR ch hm hd ha hb hi hq]; (try dsimp only)
  simp only [fCh_wordR ch hm hd ha hb hi hq, fMod_wordR ch hm hd ha hb hi hq, fD_wordR ch hm hd ha hb hi hq, fA_wordR ch hm hd ha hb hi hq, fB_wordR ch hm hd ha hb hi hq, noM, noD, noA, noB, BitVec.ofNat_toNat, BitVec.setWidth_eq]
  exact (gate_bind rfl rfl).trans ((req_bind (decide_eq_true k.isLt)).trans (finish_ok h))
theorem RoundTrip.rfe (ch : Bool) : RoundTrip.Statement (.rfe ch) := by
  intro h
  have e0 : encode (.rfe ch) = 0x00000048 + bit01 ch <<< 31 := rfl
  have e : encode (.rfe ch) = wordR 0 ch 0 0 0 9 0 := by rw [e0]; simp only [wordR, Nat.shiftLeft_eq, bit01_false, bit01_true]; omega
  have hm : 0 < 31 := by decide
  have hi : 9 < 32 := by decide
  have hd : 0 < 64 := (by decide)
  have ha : 0 < 64 := (by decide)
  have hb : 0 < 64 := (by decide)
  have hq := (show 0 < 8 by decide)
  rw [e]; refine ⟨wordR_lt ch hm hd ha hb hi hq, ?_⟩
  rw [dec0 ch hm hd ha hb hi hq]; delta decSys; rw [fIdx_wordR ch hm hd ha hb hi hq]; (try dsimp only)
  simp only [fCh_wordR ch hm hd ha hb hi hq, fMod_wordR ch hm hd ha hb hi hq, fD_wordR ch hm hd ha hb hi hq, fA_wordR ch hm hd ha hb hi hq, fB_wordR ch hm hd ha hb hi hq, noM, noD, noA, noB]
  exact (gate_bind rfl rfl).trans (finish_ok h)
theorem RoundTrip.kreq (ch : Bool) (d : Dst) (a : Src) (b : Src) : RoundTrip.Statement (.kreq ch d a b) := by
  intro h
  have e0 : encode (.kreq ch d a b) = 0x00000050 + bit01 ch <<< 31 + d.code <<< 20 + a.code <<< 14 + b.code <<< 8 := rfl
  have e : encode (.kreq ch d a b) = wordR 0 ch d.code a.code b.code 10 0 := by rw [e0]; simp only [wordR, Nat.shiftLeft_eq, bit01_false, bit01_true]; omega
  have hm : 0 < 31 := by decide
  have hi : 10 < 32 := by decide
  have hd : d.code < 64 := dst_lt d
  have ha : a.code < 64 := src_lt a
  have hb : b.code < 64 := src_lt b
  have hq := (show 0 < 8 by decide)
  rw [e]; refine ⟨wordR_lt ch hm hd ha hb hi hq, ?_⟩
  rw [dec0 ch hm hd ha hb hi hq]; delta decSys; rw [fIdx_wordR ch hm hd ha hb hi hq]; (try dsimp only)
  simp only [fCh_wordR ch hm hd ha hb hi hq, fMod_wordR ch hm hd ha hb hi hq, fD_wordR ch hm hd ha hb hi hq, fA_wordR ch hm hd ha hb hi hq, fB_wordR ch hm hd ha hb hi hq, noM, noD, noA, noB]
  have ht := once_of (i := .kreq ch d a b) rfl h
  exact (gate_bind rfl rfl).trans (mk3_ok (fD_wordR ch hm hd ha hb hi hq) (fA_wordR ch hm hd ha hb hi hq) (fB_wordR ch hm hd ha hb hi hq) ht h)
theorem RoundTrip.iadd (ch : Bool) (d : Dst) (a : Src) (b : Src) (w : Bool) (u : Bool) (s : Bool) : RoundTrip.Statement (.iadd ch d a b w u s) := by
  intro h
  have e0 : encode (.iadd ch d a b w u s) = 0x04000000 + bit01 ch <<< 31 + d.code <<< 20 + a.code <<< 14 + b.code <<< 8 + bit01 w <<< 2 + bit01 u <<< 1 + bit01 s := rfl
  have e : encode (.iadd ch d a b w u s) = wordR 1 ch d.code a.code b.code 0 (bit01 w * 4 + bit01 u * 2 + bit01 s) := by rw [e0]; simp only [wordR, Nat.shiftLeft_eq, bit01_false, bit01_true]; omega
  have hm : 1 < 31 := by decide
  have hi : 0 < 32 := by decide
  have hd : d.code < 64 := dst_lt d
  have ha : a.code < 64 := src_lt a
  have hb : b.code < 64 := src_lt b
  have hq := (bits3_lt w u s)
  rw [e]; refine ⟨wordR_lt ch hm hd ha hb hi hq, ?_⟩
  rw [dec1 ch hm hd ha hb hi hq]; delta decIalu; rw [fIdx_wordR ch hm hd ha hb hi hq]; (try dsimp only)
  simp only [fCh_wordR ch hm hd ha hb hi hq, bitAt_wordR ch hm hd ha hb hi hq (show 2 < 3 by decide), bitAt_wordR ch hm hd ha hb hi hq (show 1 < 3 by decide), bitAt_wordR ch hm hd ha hb hi hq (show 0 < 3 by decide), bits3_2, bits3_1, bits3_0, fMod_wordR ch hm hd ha hb hi hq, fD_wordR ch hm hd ha hb hi hq, fA_wordR ch hm hd ha hb hi hq, fB_wordR ch hm hd ha hb hi hq, noM, noD, noA, noB]
  have ht := once_of (i := .iadd ch d a b w u s) rfl h
  exact (gate_bind (mods_ok h) rfl).trans (mk3_ok (fD_wordR ch hm hd ha hb hi hq) (fA_wordR ch hm hd ha hb hi hq) (fB_wordR ch hm hd ha hb hi hq) ht h)
theorem RoundTrip.isub (ch : Bool) (d : Dst) (a : Src) (b : Src) (w : Bool) (u : Bool) (s : Bool) : RoundTrip.Statement (.isub ch d a b w u s) := by
  intro h
  have e0 : encode (.isub ch d a b w u s) = 0x04000008 + bit01 ch <<< 31 + d.code <<< 20 + a.code <<< 14 + b.code <<< 8 + bit01 w <<< 2 + bit01 u <<< 1 + bit01 s := rfl
  have e : encode (.isub ch d a b w u s) = wordR 1 ch d.code a.code b.code 1 (bit01 w * 4 + bit01 u * 2 + bit01 s) := by rw [e0]; simp only [wordR, Nat.shiftLeft_eq, bit01_false, bit01_true]; omega
  have hm : 1 < 31 := by decide
  have hi : 1 < 32 := by decide
  have hd : d.code < 64 := dst_lt d
  have ha : a.code < 64 := src_lt a
  have hb : b.code < 64 := src_lt b
  have hq := (bits3_lt w u s)
  rw [e]; refine ⟨wordR_lt ch hm hd ha hb hi hq, ?_⟩
  rw [dec1 ch hm hd ha hb hi hq]; delta decIalu; rw [fIdx_wordR ch hm hd ha hb hi hq]; (try dsimp only)
  simp only [fCh_wordR ch hm hd ha hb hi hq, bitAt_wordR ch hm hd ha hb hi hq (show 2 < 3 by decide), bitAt_wordR ch hm hd ha hb hi hq (show 1 < 3 by decide), bitAt_wordR ch hm hd ha hb hi hq (show 0 < 3 by decide), bits3_2, bits3_1, bits3_0, fMod_wordR ch hm hd ha hb hi hq, fD_wordR ch hm hd ha hb hi hq, fA_wordR ch hm hd ha hb hi hq, fB_wordR ch hm hd ha hb hi hq, noM, noD, noA, noB]
  have ht := once_of (i := .isub ch d a b w u s) rfl h
  exact (gate_bind (mods_ok h) rfl).trans (mk3_ok (fD_wordR ch hm hd ha hb hi hq) (fA_wordR ch hm hd ha hb hi hq) (fB_wordR ch hm hd ha hb hi hq) ht h)
theorem RoundTrip.imul (ch : Bool) (d : Dst) (a : Src) (b : Src) (w : Bool) : RoundTrip.Statement (.imul ch d a b w) := by
  intro h
  have e0 : encode (.imul ch d a b w) = 0x04000010 + bit01 ch <<< 31 + d.code <<< 20 + a.code <<< 14 + b.code <<< 8 + bit01 w <<< 2 := rfl
  have e : encode (.imul ch d a b w) = wordR 1 ch d.code a.code b.code 2 (bit01 w * 4 + bit01 false * 2 + bit01 false) := by rw [e0]; simp only [wordR, Nat.shiftLeft_eq, bit01_false, bit01_true]; omega
  have hm : 1 < 31 := by decide
  have hi : 2 < 32 := by decide
  have hd : d.code < 64 := dst_lt d
  have ha : a.code < 64 := src_lt a
  have hb : b.code < 64 := src_lt b
  have hq := (bits3_lt w false false)
  rw [e]; refine ⟨wordR_lt ch hm hd ha hb hi hq, ?_⟩
  rw [dec1 ch hm hd ha hb hi hq]; delta decIalu; rw [fIdx_wordR ch hm hd ha hb hi hq]; (try dsimp only)
  simp only [fCh_wordR ch hm hd ha hb hi hq, bitAt_wordR ch hm hd ha hb hi hq (show 2 < 3 by decide), bitAt_wordR ch hm hd ha hb hi hq (show 1 < 3 by decide), bitAt_wordR ch hm hd ha hb hi hq (show 0 < 3 by decide), bits3_2, bits3_1, bits3_0, fMod_wordR ch hm hd ha hb hi hq, fD_wordR ch hm hd ha hb hi hq, fA_wordR ch hm hd ha hb hi hq, fB_wordR ch hm hd ha hb hi hq, noM, noD, noA, noB]
  have ht := once_of (i := .imul ch d a b w) rfl h
  exact (gate_bind rfl rfl).trans (mk3_ok (fD_wordR ch hm hd ha hb hi hq) (fA_wordR ch hm hd ha hb hi hq) (fB_wordR ch hm hd ha hb hi hq) ht h)
theorem RoundTrip.imulh (ch : Bool) (d : Dst) (a : Src) (b : Src) (w : Bool) (u : Bool) : RoundTrip.Statement (.imulh ch d a b w u) := by
  intro h
  have e0 : encode (.imulh ch d a b w u) = 0x04000018 + bit01 ch <<< 31 + d.code <<< 20 + a.code <<< 14 + b.code <<< 8 + bit01 w <<< 2 + bit01 u <<< 1 := rfl
  have e : encode (.imulh ch d a b w u) = wordR 1 ch d.code a.code b.code 3 (bit01 w * 4 + bit01 u * 2 + bit01 false) := by rw [e0]; simp only [wordR, Nat.shiftLeft_eq, bit01_false, bit01_true]; omega
  have hm : 1 < 31 := by decide
  have hi : 3 < 32 := by decide
  have hd : d.code < 64 := dst_lt d
  have ha : a.code < 64 := src_lt a
  have hb : b.code < 64 := src_lt b
  have hq := (bits3_lt w u false)
  rw [e]; refine ⟨wordR_lt ch hm hd ha hb hi hq, ?_⟩
  rw [dec1 ch hm hd ha hb hi hq]; delta decIalu; rw [fIdx_wordR ch hm hd ha hb hi hq]; (try dsimp only)
  simp only [fCh_wordR ch hm hd ha hb hi hq, bitAt_wordR ch hm hd ha hb hi hq (show 2 < 3 by decide), bitAt_wordR ch hm hd ha hb hi hq (show 1 < 3 by decide), bitAt_wordR ch hm hd ha hb hi hq (show 0 < 3 by decide), bits3_2, bits3_1, bits3_0, fMod_wordR ch hm hd ha hb hi hq, fD_wordR ch hm hd ha hb hi hq, fA_wordR ch hm hd ha hb hi hq, fB_wordR ch hm hd ha hb hi hq, noM, noD, noA, noB]
  have ht := once_of (i := .imulh ch d a b w u) rfl h
  exact (gate_bind rfl rfl).trans (mk3_ok (fD_wordR ch hm hd ha hb hi hq) (fA_wordR ch hm hd ha hb hi hq) (fB_wordR ch hm hd ha hb hi hq) ht h)
theorem RoundTrip.idiv (ch : Bool) (d : Dst) (a : Src) (b : Src) (w : Bool) (u : Bool) : RoundTrip.Statement (.idiv ch d a b w u) := by
  intro h
  have e0 : encode (.idiv ch d a b w u) = 0x04000020 + bit01 ch <<< 31 + d.code <<< 20 + a.code <<< 14 + b.code <<< 8 + bit01 w <<< 2 + bit01 u <<< 1 := rfl
  have e : encode (.idiv ch d a b w u) = wordR 1 ch d.code a.code b.code 4 (bit01 w * 4 + bit01 u * 2 + bit01 false) := by rw [e0]; simp only [wordR, Nat.shiftLeft_eq, bit01_false, bit01_true]; omega
  have hm : 1 < 31 := by decide
  have hi : 4 < 32 := by decide
  have hd : d.code < 64 := dst_lt d
  have ha : a.code < 64 := src_lt a
  have hb : b.code < 64 := src_lt b
  have hq := (bits3_lt w u false)
  rw [e]; refine ⟨wordR_lt ch hm hd ha hb hi hq, ?_⟩
  rw [dec1 ch hm hd ha hb hi hq]; delta decIalu; rw [fIdx_wordR ch hm hd ha hb hi hq]; (try dsimp only)
  simp only [fCh_wordR ch hm hd ha hb hi hq, bitAt_wordR ch hm hd ha hb hi hq (show 2 < 3 by decide), bitAt_wordR ch hm hd ha hb hi hq (show 1 < 3 by decide), bitAt_wordR ch hm hd ha hb hi hq (show 0 < 3 by decide), bits3_2, bits3_1, bits3_0, fMod_wordR ch hm hd ha hb hi hq, fD_wordR ch hm hd ha hb hi hq, fA_wordR ch hm hd ha hb hi hq, fB_wordR ch hm hd ha hb hi hq, noM, noD, noA, noB]
  have ht := once_of (i := .idiv ch d a b w u) rfl h
  exact (gate_bind rfl rfl).trans (mk3_ok (fD_wordR ch hm hd ha hb hi hq) (fA_wordR ch hm hd ha hb hi hq) (fB_wordR ch hm hd ha hb hi hq) ht h)
theorem RoundTrip.irem (ch : Bool) (d : Dst) (a : Src) (b : Src) (w : Bool) (u : Bool) : RoundTrip.Statement (.irem ch d a b w u) := by
  intro h
  have e0 : encode (.irem ch d a b w u) = 0x04000028 + bit01 ch <<< 31 + d.code <<< 20 + a.code <<< 14 + b.code <<< 8 + bit01 w <<< 2 + bit01 u <<< 1 := rfl
  have e : encode (.irem ch d a b w u) = wordR 1 ch d.code a.code b.code 5 (bit01 w * 4 + bit01 u * 2 + bit01 false) := by rw [e0]; simp only [wordR, Nat.shiftLeft_eq, bit01_false, bit01_true]; omega
  have hm : 1 < 31 := by decide
  have hi : 5 < 32 := by decide
  have hd : d.code < 64 := dst_lt d
  have ha : a.code < 64 := src_lt a
  have hb : b.code < 64 := src_lt b
  have hq := (bits3_lt w u false)
  rw [e]; refine ⟨wordR_lt ch hm hd ha hb hi hq, ?_⟩
  rw [dec1 ch hm hd ha hb hi hq]; delta decIalu; rw [fIdx_wordR ch hm hd ha hb hi hq]; (try dsimp only)
  simp only [fCh_wordR ch hm hd ha hb hi hq, bitAt_wordR ch hm hd ha hb hi hq (show 2 < 3 by decide), bitAt_wordR ch hm hd ha hb hi hq (show 1 < 3 by decide), bitAt_wordR ch hm hd ha hb hi hq (show 0 < 3 by decide), bits3_2, bits3_1, bits3_0, fMod_wordR ch hm hd ha hb hi hq, fD_wordR ch hm hd ha hb hi hq, fA_wordR ch hm hd ha hb hi hq, fB_wordR ch hm hd ha hb hi hq, noM, noD, noA, noB]
  have ht := once_of (i := .irem ch d a b w u) rfl h
  exact (gate_bind rfl rfl).trans (mk3_ok (fD_wordR ch hm hd ha hb hi hq) (fA_wordR ch hm hd ha hb hi hq) (fB_wordR ch hm hd ha hb hi hq) ht h)
theorem RoundTrip.imin (ch : Bool) (d : Dst) (a : Src) (b : Src) (w : Bool) (u : Bool) : RoundTrip.Statement (.imin ch d a b w u) := by
  intro h
  have e0 : encode (.imin ch d a b w u) = 0x04000030 + bit01 ch <<< 31 + d.code <<< 20 + a.code <<< 14 + b.code <<< 8 + bit01 w <<< 2 + bit01 u <<< 1 := rfl
  have e : encode (.imin ch d a b w u) = wordR 1 ch d.code a.code b.code 6 (bit01 w * 4 + bit01 u * 2 + bit01 false) := by rw [e0]; simp only [wordR, Nat.shiftLeft_eq, bit01_false, bit01_true]; omega
  have hm : 1 < 31 := by decide
  have hi : 6 < 32 := by decide
  have hd : d.code < 64 := dst_lt d
  have ha : a.code < 64 := src_lt a
  have hb : b.code < 64 := src_lt b
  have hq := (bits3_lt w u false)
  rw [e]; refine ⟨wordR_lt ch hm hd ha hb hi hq, ?_⟩
  rw [dec1 ch hm hd ha hb hi hq]; delta decIalu; rw [fIdx_wordR ch hm hd ha hb hi hq]; (try dsimp only)
  simp only [fCh_wordR ch hm hd ha hb hi hq, bitAt_wordR ch hm hd ha hb hi hq (show 2 < 3 by decide), bitAt_wordR ch hm hd ha hb hi hq (show 1 < 3 by decide), bitAt_wordR ch hm hd ha hb hi hq (show 0 < 3 by decide), bits3_2, bits3_1, bits3_0, fMod_wordR ch hm hd ha hb hi hq, fD_wordR ch hm hd ha hb hi hq, fA_wordR ch hm hd ha hb hi hq, fB_wordR ch hm hd ha hb hi hq, noM, noD, noA, noB]
  have ht := once_of (i := .imin ch d a b w u) rfl h
  exact (gate_bind rfl rfl).trans (mk3_ok (fD_wordR ch hm hd ha hb hi hq) (fA_wordR ch hm hd ha hb hi hq) (fB_wordR ch hm hd ha hb hi hq) ht h)
theorem RoundTrip.imax (ch : Bool) (d : Dst) (a : Src) (b : Src) (w : Bool) (u : Bool) : RoundTrip.Statement (.imax ch d a b w u) := by
  intro h
  have e0 : encode (.imax ch d a b w u) = 0x04000038 + bit01 ch <<< 31 + d.code <<< 20 + a.code <<< 14 + b.code <<< 8 + bit01 w <<< 2 + bit01 u <<< 1 := rfl
  have e : encode (.imax ch d a b w u) = wordR 1 ch d.code a.code b.code 7 (bit01 w * 4 + bit01 u * 2 + bit01 false) := by rw [e0]; simp only [wordR, Nat.shiftLeft_eq, bit01_false, bit01_true]; omega
  have hm : 1 < 31 := by decide
  have hi : 7 < 32 := by decide
  have hd : d.code < 64 := dst_lt d
  have ha : a.code < 64 := src_lt a
  have hb : b.code < 64 := src_lt b
  have hq := (bits3_lt w u false)
  rw [e]; refine ⟨wordR_lt ch hm hd ha hb hi hq, ?_⟩
  rw [dec1 ch hm hd ha hb hi hq]; delta decIalu; rw [fIdx_wordR ch hm hd ha hb hi hq]; (try dsimp only)
  simp only [fCh_wordR ch hm hd ha hb hi hq, bitAt_wordR ch hm hd ha hb hi hq (show 2 < 3 by decide), bitAt_wordR ch hm hd ha hb hi hq (show 1 < 3 by decide), bitAt_wordR ch hm hd ha hb hi hq (show 0 < 3 by decide), bits3_2, bits3_1, bits3_0, fMod_wordR ch hm hd ha hb hi hq, fD_wordR ch hm hd ha hb hi hq, fA_wordR ch hm hd ha hb hi hq, fB_wordR ch hm hd ha hb hi hq, noM, noD, noA, noB]
  have ht := once_of (i := .imax ch d a b w u) rfl h
  exact (gate_bind rfl rfl).trans (mk3_ok (fD_wordR ch hm hd ha hb hi hq) (fA_wordR ch hm hd ha hb hi hq) (fB_wordR ch hm hd ha hb hi hq) ht h)
theorem RoundTrip.iabs (ch : Bool) (d : Dst) (a : Src) (w : Bool) : RoundTrip.Statement (.iabs ch d a w) := by
  intro h
  have e0 : encode (.iabs ch d a w) = 0x04000040 + bit01 ch <<< 31 + d.code <<< 20 + a.code <<< 14 + bit01 w <<< 2 := rfl
  have e : encode (.iabs ch d a w) = wordR 1 ch d.code a.code 0 8 (bit01 w * 4 + bit01 false * 2 + bit01 false) := by rw [e0]; simp only [wordR, Nat.shiftLeft_eq, bit01_false, bit01_true]; omega
  have hm : 1 < 31 := by decide
  have hi : 8 < 32 := by decide
  have hd : d.code < 64 := dst_lt d
  have ha : a.code < 64 := src_lt a
  have hb : 0 < 64 := (by decide)
  have hq := (bits3_lt w false false)
  rw [e]; refine ⟨wordR_lt ch hm hd ha hb hi hq, ?_⟩
  rw [dec1 ch hm hd ha hb hi hq]; delta decIalu; rw [fIdx_wordR ch hm hd ha hb hi hq]; (try dsimp only)
  simp only [fCh_wordR ch hm hd ha hb hi hq, bitAt_wordR ch hm hd ha hb hi hq (show 2 < 3 by decide), bitAt_wordR ch hm hd ha hb hi hq (show 1 < 3 by decide), bitAt_wordR ch hm hd ha hb hi hq (show 0 < 3 by decide), bits3_2, bits3_1, bits3_0, fMod_wordR ch hm hd ha hb hi hq, fD_wordR ch hm hd ha hb hi hq, fA_wordR ch hm hd ha hb hi hq, fB_wordR ch hm hd ha hb hi hq, noM, noD, noA, noB]
  exact (gate_bind rfl rfl).trans (mk2_ok (fD_wordR ch hm hd ha hb hi hq) (fA_wordR ch hm hd ha hb hi hq) h)
theorem RoundTrip.ineg (ch : Bool) (d : Dst) (a : Src) (w : Bool) : RoundTrip.Statement (.ineg ch d a w) := by
  intro h
  have e0 : encode (.ineg ch d a w) = 0x04000048 + bit01 ch <<< 31 + d.code <<< 20 + a.code <<< 14 + bit01 w <<< 2 := rfl
  have e : encode (.ineg ch d a w) = wordR 1 ch d.code a.code 0 9 (bit01 w * 4 + bit01 false * 2 + bit01 false) := by rw [e0]; simp only [wordR, Nat.shiftLeft_eq, bit01_false, bit01_true]; omega
  have hm : 1 < 31 := by decide
  have hi : 9 < 32 := by decide
  have hd : d.code < 64 := dst_lt d
  have ha : a.code < 64 := src_lt a
  have hb : 0 < 64 := (by decide)
  have hq := (bits3_lt w false false)
  rw [e]; refine ⟨wordR_lt ch hm hd ha hb hi hq, ?_⟩
  rw [dec1 ch hm hd ha hb hi hq]; delta decIalu; rw [fIdx_wordR ch hm hd ha hb hi hq]; (try dsimp only)
  simp only [fCh_wordR ch hm hd ha hb hi hq, bitAt_wordR ch hm hd ha hb hi hq (show 2 < 3 by decide), bitAt_wordR ch hm hd ha hb hi hq (show 1 < 3 by decide), bitAt_wordR ch hm hd ha hb hi hq (show 0 < 3 by decide), bits3_2, bits3_1, bits3_0, fMod_wordR ch hm hd ha hb hi hq, fD_wordR ch hm hd ha hb hi hq, fA_wordR ch hm hd ha hb hi hq, fB_wordR ch hm hd ha hb hi hq, noM, noD, noA, noB]
  exact (gate_bind rfl rfl).trans (mk2_ok (fD_wordR ch hm hd ha hb hi hq) (fA_wordR ch hm hd ha hb hi hq) h)
theorem RoundTrip.and (ch : Bool) (d : Dst) (a : Src) (b : Src) (w : Bool) : RoundTrip.Statement (.and ch d a b w) := by
  intro h
  have e0 : encode (.and ch d a b w) = 0x04000050 + bit01 ch <<< 31 + d.code <<< 20 + a.code <<< 14 + b.code <<< 8 + bit01 w <<< 2 := rfl
  have e : encode (.and ch d a b w) = wordR 1 ch d.code a.code b.code 10 (bit01 w * 4 + bit01 false * 2 + bit01 false) := by rw [e0]; simp only [wordR, Nat.shiftLeft_eq, bit01_false, bit01_true]; omega
  have hm : 1 < 31 := by decide
  have hi : 10 < 32 := by decide
  have hd : d.code < 64 := dst_lt d
  have ha : a.code < 64 := src_lt a
  have hb : b.code < 64 := src_lt b
  have hq := (bits3_lt w false false)
  rw [e]; refine ⟨wordR_lt ch hm hd ha hb hi hq, ?_⟩
  rw [dec1 ch hm hd ha hb hi hq]; delta decIalu; rw [fIdx_wordR ch hm hd ha hb hi hq]; (try dsimp only)
  simp only [fCh_wordR ch hm hd ha hb hi hq, bitAt_wordR ch hm hd ha hb hi hq (show 2 < 3 by decide), bitAt_wordR ch hm hd ha hb hi hq (show 1 < 3 by decide), bitAt_wordR ch hm hd ha hb hi hq (show 0 < 3 by decide), bits3_2, bits3_1, bits3_0, fMod_wordR ch hm hd ha hb hi hq, fD_wordR ch hm hd ha hb hi hq, fA_wordR ch hm hd ha hb hi hq, fB_wordR ch hm hd ha hb hi hq, noM, noD, noA, noB]
  have ht := once_of (i := .and ch d a b w) rfl h
  exact (gate_bind rfl rfl).trans (mk3_ok (fD_wordR ch hm hd ha hb hi hq) (fA_wordR ch hm hd ha hb hi hq) (fB_wordR ch hm hd ha hb hi hq) ht h)
theorem RoundTrip.or (ch : Bool) (d : Dst) (a : Src) (b : Src) (w : Bool) : RoundTrip.Statement (.or ch d a b w) := by
  intro h
  have e0 : encode (.or ch d a b w) = 0x04000058 + bit01 ch <<< 31 + d.code <<< 20 + a.code <<< 14 + b.code <<< 8 + bit01 w <<< 2 := rfl
  have e : encode (.or ch d a b w) = wordR 1 ch d.code a.code b.code 11 (bit01 w * 4 + bit01 false * 2 + bit01 false) := by rw [e0]; simp only [wordR, Nat.shiftLeft_eq, bit01_false, bit01_true]; omega
  have hm : 1 < 31 := by decide
  have hi : 11 < 32 := by decide
  have hd : d.code < 64 := dst_lt d
  have ha : a.code < 64 := src_lt a
  have hb : b.code < 64 := src_lt b
  have hq := (bits3_lt w false false)
  rw [e]; refine ⟨wordR_lt ch hm hd ha hb hi hq, ?_⟩
  rw [dec1 ch hm hd ha hb hi hq]; delta decIalu; rw [fIdx_wordR ch hm hd ha hb hi hq]; (try dsimp only)
  simp only [fCh_wordR ch hm hd ha hb hi hq, bitAt_wordR ch hm hd ha hb hi hq (show 2 < 3 by decide), bitAt_wordR ch hm hd ha hb hi hq (show 1 < 3 by decide), bitAt_wordR ch hm hd ha hb hi hq (show 0 < 3 by decide), bits3_2, bits3_1, bits3_0, fMod_wordR ch hm hd ha hb hi hq, fD_wordR ch hm hd ha hb hi hq, fA_wordR ch hm hd ha hb hi hq, fB_wordR ch hm hd ha hb hi hq, noM, noD, noA, noB]
  have ht := once_of (i := .or ch d a b w) rfl h
  exact (gate_bind rfl rfl).trans (mk3_ok (fD_wordR ch hm hd ha hb hi hq) (fA_wordR ch hm hd ha hb hi hq) (fB_wordR ch hm hd ha hb hi hq) ht h)
theorem RoundTrip.xor (ch : Bool) (d : Dst) (a : Src) (b : Src) (w : Bool) : RoundTrip.Statement (.xor ch d a b w) := by
  intro h
  have e0 : encode (.xor ch d a b w) = 0x04000060 + bit01 ch <<< 31 + d.code <<< 20 + a.code <<< 14 + b.code <<< 8 + bit01 w <<< 2 := rfl
  have e : encode (.xor ch d a b w) = wordR 1 ch d.code a.code b.code 12 (bit01 w * 4 + bit01 false * 2 + bit01 false) := by rw [e0]; simp only [wordR, Nat.shiftLeft_eq, bit01_false, bit01_true]; omega
  have hm : 1 < 31 := by decide
  have hi : 12 < 32 := by decide
  have hd : d.code < 64 := dst_lt d
  have ha : a.code < 64 := src_lt a
  have hb : b.code < 64 := src_lt b
  have hq := (bits3_lt w false false)
  rw [e]; refine ⟨wordR_lt ch hm hd ha hb hi hq, ?_⟩
  rw [dec1 ch hm hd ha hb hi hq]; delta decIalu; rw [fIdx_wordR ch hm hd ha hb hi hq]; (try dsimp only)
  simp only [fCh_wordR ch hm hd ha hb hi hq, bitAt_wordR ch hm hd ha hb hi hq (show 2 < 3 by decide), bitAt_wordR ch hm hd ha hb hi hq (show 1 < 3 by decide), bitAt_wordR ch hm hd ha hb hi hq (show 0 < 3 by decide), bits3_2, bits3_1, bits3_0, fMod_wordR ch hm hd ha hb hi hq, fD_wordR ch hm hd ha hb hi hq, fA_wordR ch hm hd ha hb hi hq, fB_wordR ch hm hd ha hb hi hq, noM, noD, noA, noB]
  have ht := once_of (i := .xor ch d a b w) rfl h
  exact (gate_bind rfl rfl).trans (mk3_ok (fD_wordR ch hm hd ha hb hi hq) (fA_wordR ch hm hd ha hb hi hq) (fB_wordR ch hm hd ha hb hi hq) ht h)
theorem RoundTrip.andn (ch : Bool) (d : Dst) (a : Src) (b : Src) (w : Bool) : RoundTrip.Statement (.andn ch d a b w) := by
  intro h
  have e0 : encode (.andn ch d a b w) = 0x04000068 + bit01 ch <<< 31 + d.code <<< 20 + a.code <<< 14 + b.code <<< 8 + bit01 w <<< 2 := rfl
  have e : encode (.andn ch d a b w) = wordR 1 ch d.code a.code b.code 13 (bit01 w * 4 + bit01 false * 2 + bit01 false) := by rw [e0]; simp only [wordR, Nat.shiftLeft_eq, bit01_false, bit01_true]; omega
  have hm : 1 < 31 := by decide
  have hi : 13 < 32 := by decide
  have hd : d.code < 64 := dst_lt d
  have ha : a.code < 64 := src_lt a
  have hb : b.code < 64 := src_lt b
  have hq := (bits3_lt w false false)
  rw [e]; refine ⟨wordR_lt ch hm hd ha hb hi hq, ?_⟩
  rw [dec1 ch hm hd ha hb hi hq]; delta decIalu; rw [fIdx_wordR ch hm hd ha hb hi hq]; (try dsimp only)
  simp only [fCh_wordR ch hm hd ha hb hi hq, bitAt_wordR ch hm hd ha hb hi hq (show 2 < 3 by decide), bitAt_wordR ch hm hd ha hb hi hq (show 1 < 3 by decide), bitAt_wordR ch hm hd ha hb hi hq (show 0 < 3 by decide), bits3_2, bits3_1, bits3_0, fMod_wordR ch hm hd ha hb hi hq, fD_wordR ch hm hd ha hb hi hq, fA_wordR ch hm hd ha hb hi hq, fB_wordR ch hm hd ha hb hi hq, noM, noD, noA, noB]
  have ht := once_of (i := .andn ch d a b w) rfl h
  exact (gate_bind rfl rfl).trans (mk3_ok (fD_wordR ch hm hd ha hb hi hq) (fA_wordR ch hm hd ha hb hi hq) (fB_wordR ch hm hd ha hb hi hq) ht h)
theorem RoundTrip.not (ch : Bool) (d : Dst) (a : Src) (w : Bool) : RoundTrip.Statement (.not ch d a w) := by
  intro h
  have e0 : encode (.not ch d a w) = 0x04000070 + bit01 ch <<< 31 + d.code <<< 20 + a.code <<< 14 + bit01 w <<< 2 := rfl
  have e : encode (.not ch d a w) = wordR 1 ch d.code a.code 0 14 (bit01 w * 4 + bit01 false * 2 + bit01 false) := by rw [e0]; simp only [wordR, Nat.shiftLeft_eq, bit01_false, bit01_true]; omega
  have hm : 1 < 31 := by decide
  have hi : 14 < 32 := by decide
  have hd : d.code < 64 := dst_lt d
  have ha : a.code < 64 := src_lt a
  have hb : 0 < 64 := (by decide)
  have hq := (bits3_lt w false false)
  rw [e]; refine ⟨wordR_lt ch hm hd ha hb hi hq, ?_⟩
  rw [dec1 ch hm hd ha hb hi hq]; delta decIalu; rw [fIdx_wordR ch hm hd ha hb hi hq]; (try dsimp only)
  simp only [fCh_wordR ch hm hd ha hb hi hq, bitAt_wordR ch hm hd ha hb hi hq (show 2 < 3 by decide), bitAt_wordR ch hm hd ha hb hi hq (show 1 < 3 by decide), bitAt_wordR ch hm hd ha hb hi hq (show 0 < 3 by decide), bits3_2, bits3_1, bits3_0, fMod_wordR ch hm hd ha hb hi hq, fD_wordR ch hm hd ha hb hi hq, fA_wordR ch hm hd ha hb hi hq, fB_wordR ch hm hd ha hb hi hq, noM, noD, noA, noB]
  exact (gate_bind rfl rfl).trans (mk2_ok (fD_wordR ch hm hd ha hb hi hq) (fA_wordR ch hm hd ha hb hi hq) h)
theorem RoundTrip.shl (ch : Bool) (d : Dst) (a : Src) (b : Src) (w : Bool) : RoundTrip.Statement (.shl ch d a b w) := by
  intro h
  have e0 : encode (.shl ch d a b w) = 0x04000078 + bit01 ch <<< 31 + d.code <<< 20 + a.code <<< 14 + b.code <<< 8 + bit01 w <<< 2 := rfl
  have e : encode (.shl ch d a b w) = wordR 1 ch d.code a.code b.code 15 (bit01 w * 4 + bit01 false * 2 + bit01 false) := by rw [e0]; simp only [wordR, Nat.shiftLeft_eq, bit01_false, bit01_true]; omega
  have hm : 1 < 31 := by decide
  have hi : 15 < 32 := by decide
  have hd : d.code < 64 := dst_lt d
  have ha : a.code < 64 := src_lt a
  have hb : b.code < 64 := src_lt b
  have hq := (bits3_lt w false false)
  rw [e]; refine ⟨wordR_lt ch hm hd ha hb hi hq, ?_⟩
  rw [dec1 ch hm hd ha hb hi hq]; delta decIalu; rw [fIdx_wordR ch hm hd ha hb hi hq]; (try dsimp only)
  simp only [fCh_wordR ch hm hd ha hb hi hq, bitAt_wordR ch hm hd ha hb hi hq (show 2 < 3 by decide), bitAt_wordR ch hm hd ha hb hi hq (show 1 < 3 by decide), bitAt_wordR ch hm hd ha hb hi hq (show 0 < 3 by decide), bits3_2, bits3_1, bits3_0, fMod_wordR ch hm hd ha hb hi hq, fD_wordR ch hm hd ha hb hi hq, fA_wordR ch hm hd ha hb hi hq, fB_wordR ch hm hd ha hb hi hq, noM, noD, noA, noB]
  have ht := once_of (i := .shl ch d a b w) rfl h
  exact (gate_bind rfl rfl).trans (mk3_ok (fD_wordR ch hm hd ha hb hi hq) (fA_wordR ch hm hd ha hb hi hq) (fB_wordR ch hm hd ha hb hi hq) ht h)
theorem RoundTrip.shr (ch : Bool) (d : Dst) (a : Src) (b : Src) (w : Bool) : RoundTrip.Statement (.shr ch d a b w) := by
  intro h
  have e0 : encode (.shr ch d a b w) = 0x04000080 + bit01 ch <<< 31 + d.code <<< 20 + a.code <<< 14 + b.code <<< 8 + bit01 w <<< 2 := rfl
  have e : encode (.shr ch d a b w) = wordR 1 ch d.code a.code b.code 16 (bit01 w * 4 + bit01 false * 2 + bit01 false) := by rw [e0]; simp only [wordR, Nat.shiftLeft_eq, bit01_false, bit01_true]; omega
  have hm : 1 < 31 := by decide
  have hi : 16 < 32 := by decide
  have hd : d.code < 64 := dst_lt d
  have ha : a.code < 64 := src_lt a
  have hb : b.code < 64 := src_lt b
  have hq := (bits3_lt w false false)
  rw [e]; refine ⟨wordR_lt ch hm hd ha hb hi hq, ?_⟩
  rw [dec1 ch hm hd ha hb hi hq]; delta decIalu; rw [fIdx_wordR ch hm hd ha hb hi hq]; (try dsimp only)
  simp only [fCh_wordR ch hm hd ha hb hi hq, bitAt_wordR ch hm hd ha hb hi hq (show 2 < 3 by decide), bitAt_wordR ch hm hd ha hb hi hq (show 1 < 3 by decide), bitAt_wordR ch hm hd ha hb hi hq (show 0 < 3 by decide), bits3_2, bits3_1, bits3_0, fMod_wordR ch hm hd ha hb hi hq, fD_wordR ch hm hd ha hb hi hq, fA_wordR ch hm hd ha hb hi hq, fB_wordR ch hm hd ha hb hi hq, noM, noD, noA, noB]
  have ht := once_of (i := .shr ch d a b w) rfl h
  exact (gate_bind rfl rfl).trans (mk3_ok (fD_wordR ch hm hd ha hb hi hq) (fA_wordR ch hm hd ha hb hi hq) (fB_wordR ch hm hd ha hb hi hq) ht h)
theorem RoundTrip.sar (ch : Bool) (d : Dst) (a : Src) (b : Src) (w : Bool) : RoundTrip.Statement (.sar ch d a b w) := by
  intro h
  have e0 : encode (.sar ch d a b w) = 0x04000088 + bit01 ch <<< 31 + d.code <<< 20 + a.code <<< 14 + b.code <<< 8 + bit01 w <<< 2 := rfl
  have e : encode (.sar ch d a b w) = wordR 1 ch d.code a.code b.code 17 (bit01 w * 4 + bit01 false * 2 + bit01 false) := by rw [e0]; simp only [wordR, Nat.shiftLeft_eq, bit01_false, bit01_true]; omega
  have hm : 1 < 31 := by decide
  have hi : 17 < 32 := by decide
  have hd : d.code < 64 := dst_lt d
  have ha : a.code < 64 := src_lt a
  have hb : b.code < 64 := src_lt b
  have hq := (bits3_lt w false false)
  rw [e]; refine ⟨wordR_lt ch hm hd ha hb hi hq, ?_⟩
  rw [dec1 ch hm hd ha hb hi hq]; delta decIalu; rw [fIdx_wordR ch hm hd ha hb hi hq]; (try dsimp only)
  simp only [fCh_wordR ch hm hd ha hb hi hq, bitAt_wordR ch hm hd ha hb hi hq (show 2 < 3 by decide), bitAt_wordR ch hm hd ha hb hi hq (show 1 < 3 by decide), bitAt_wordR ch hm hd ha hb hi hq (show 0 < 3 by decide), bits3_2, bits3_1, bits3_0, fMod_wordR ch hm hd ha hb hi hq, fD_wordR ch hm hd ha hb hi hq, fA_wordR ch hm hd ha hb hi hq, fB_wordR ch hm hd ha hb hi hq, noM, noD, noA, noB]
  have ht := once_of (i := .sar ch d a b w) rfl h
  exact (gate_bind rfl rfl).trans (mk3_ok (fD_wordR ch hm hd ha hb hi hq) (fA_wordR ch hm hd ha hb hi hq) (fB_wordR ch hm hd ha hb hi hq) ht h)
theorem RoundTrip.rol (ch : Bool) (d : Dst) (a : Src) (b : Src) (w : Bool) : RoundTrip.Statement (.rol ch d a b w) := by
  intro h
  have e0 : encode (.rol ch d a b w) = 0x04000090 + bit01 ch <<< 31 + d.code <<< 20 + a.code <<< 14 + b.code <<< 8 + bit01 w <<< 2 := rfl
  have e : encode (.rol ch d a b w) = wordR 1 ch d.code a.code b.code 18 (bit01 w * 4 + bit01 false * 2 + bit01 false) := by rw [e0]; simp only [wordR, Nat.shiftLeft_eq, bit01_false, bit01_true]; omega
  have hm : 1 < 31 := by decide
  have hi : 18 < 32 := by decide
  have hd : d.code < 64 := dst_lt d
  have ha : a.code < 64 := src_lt a
  have hb : b.code < 64 := src_lt b
  have hq := (bits3_lt w false false)
  rw [e]; refine ⟨wordR_lt ch hm hd ha hb hi hq, ?_⟩
  rw [dec1 ch hm hd ha hb hi hq]; delta decIalu; rw [fIdx_wordR ch hm hd ha hb hi hq]; (try dsimp only)
  simp only [fCh_wordR ch hm hd ha hb hi hq, bitAt_wordR ch hm hd ha hb hi hq (show 2 < 3 by decide), bitAt_wordR ch hm hd ha hb hi hq (show 1 < 3 by decide), bitAt_wordR ch hm hd ha hb hi hq (show 0 < 3 by decide), bits3_2, bits3_1, bits3_0, fMod_wordR ch hm hd ha hb hi hq, fD_wordR ch hm hd ha hb hi hq, fA_wordR ch hm hd ha hb hi hq, fB_wordR ch hm hd ha hb hi hq, noM, noD, noA, noB]
  have ht := once_of (i := .rol ch d a b w) rfl h
  exact (gate_bind rfl rfl).trans (mk3_ok (fD_wordR ch hm hd ha hb hi hq) (fA_wordR ch hm hd ha hb hi hq) (fB_wordR ch hm hd ha hb hi hq) ht h)
theorem RoundTrip.ror (ch : Bool) (d : Dst) (a : Src) (b : Src) (w : Bool) : RoundTrip.Statement (.ror ch d a b w) := by
  intro h
  have e0 : encode (.ror ch d a b w) = 0x04000098 + bit01 ch <<< 31 + d.code <<< 20 + a.code <<< 14 + b.code <<< 8 + bit01 w <<< 2 := rfl
  have e : encode (.ror ch d a b w) = wordR 1 ch d.code a.code b.code 19 (bit01 w * 4 + bit01 false * 2 + bit01 false) := by rw [e0]; simp only [wordR, Nat.shiftLeft_eq, bit01_false, bit01_true]; omega
  have hm : 1 < 31 := by decide
  have hi : 19 < 32 := by decide
  have hd : d.code < 64 := dst_lt d
  have ha : a.code < 64 := src_lt a
  have hb : b.code < 64 := src_lt b
  have hq := (bits3_lt w false false)
  rw [e]; refine ⟨wordR_lt ch hm hd ha hb hi hq, ?_⟩
  rw [dec1 ch hm hd ha hb hi hq]; delta decIalu; rw [fIdx_wordR ch hm hd ha hb hi hq]; (try dsimp only)
  simp only [fCh_wordR ch hm hd ha hb hi hq, bitAt_wordR ch hm hd ha hb hi hq (show 2 < 3 by decide), bitAt_wordR ch hm hd ha hb hi hq (show 1 < 3 by decide), bitAt_wordR ch hm hd ha hb hi hq (show 0 < 3 by decide), bits3_2, bits3_1, bits3_0, fMod_wordR ch hm hd ha hb hi hq, fD_wordR ch hm hd ha hb hi hq, fA_wordR ch hm hd ha hb hi hq, fB_wordR ch hm hd ha hb hi hq, noM, noD, noA, noB]
  have ht := once_of (i := .ror ch d a b w) rfl h
  exact (gate_bind rfl rfl).trans (mk3_ok (fD_wordR ch hm hd ha hb hi hq) (fA_wordR ch hm hd ha hb hi hq) (fB_wordR ch hm hd ha hb hi hq) ht h)
theorem RoundTrip.clz (ch : Bool) (d : Dst) (a : Src) (w : Bool) : RoundTrip.Statement (.clz ch d a w) := by
  intro h
  have e0 : encode (.clz ch d a w) = 0x040000A0 + bit01 ch <<< 31 + d.code <<< 20 + a.code <<< 14 + bit01 w <<< 2 := rfl
  have e : encode (.clz ch d a w) = wordR 1 ch d.code a.code 0 20 (bit01 w * 4 + bit01 false * 2 + bit01 false) := by rw [e0]; simp only [wordR, Nat.shiftLeft_eq, bit01_false, bit01_true]; omega
  have hm : 1 < 31 := by decide
  have hi : 20 < 32 := by decide
  have hd : d.code < 64 := dst_lt d
  have ha : a.code < 64 := src_lt a
  have hb : 0 < 64 := (by decide)
  have hq := (bits3_lt w false false)
  rw [e]; refine ⟨wordR_lt ch hm hd ha hb hi hq, ?_⟩
  rw [dec1 ch hm hd ha hb hi hq]; delta decIalu; rw [fIdx_wordR ch hm hd ha hb hi hq]; (try dsimp only)
  simp only [fCh_wordR ch hm hd ha hb hi hq, bitAt_wordR ch hm hd ha hb hi hq (show 2 < 3 by decide), bitAt_wordR ch hm hd ha hb hi hq (show 1 < 3 by decide), bitAt_wordR ch hm hd ha hb hi hq (show 0 < 3 by decide), bits3_2, bits3_1, bits3_0, fMod_wordR ch hm hd ha hb hi hq, fD_wordR ch hm hd ha hb hi hq, fA_wordR ch hm hd ha hb hi hq, fB_wordR ch hm hd ha hb hi hq, noM, noD, noA, noB]
  exact (gate_bind rfl rfl).trans (mk2_ok (fD_wordR ch hm hd ha hb hi hq) (fA_wordR ch hm hd ha hb hi hq) h)
theorem RoundTrip.ctz (ch : Bool) (d : Dst) (a : Src) (w : Bool) : RoundTrip.Statement (.ctz ch d a w) := by
  intro h
  have e0 : encode (.ctz ch d a w) = 0x040000A8 + bit01 ch <<< 31 + d.code <<< 20 + a.code <<< 14 + bit01 w <<< 2 := rfl
  have e : encode (.ctz ch d a w) = wordR 1 ch d.code a.code 0 21 (bit01 w * 4 + bit01 false * 2 + bit01 false) := by rw [e0]; simp only [wordR, Nat.shiftLeft_eq, bit01_false, bit01_true]; omega
  have hm : 1 < 31 := by decide
  have hi : 21 < 32 := by decide
  have hd : d.code < 64 := dst_lt d
  have ha : a.code < 64 := src_lt a
  have hb : 0 < 64 := (by decide)
  have hq := (bits3_lt w false false)
  rw [e]; refine ⟨wordR_lt ch hm hd ha hb hi hq, ?_⟩
  rw [dec1 ch hm hd ha hb hi hq]; delta decIalu; rw [fIdx_wordR ch hm hd ha hb hi hq]; (try dsimp only)
  simp only [fCh_wordR ch hm hd ha hb hi hq, bitAt_wordR ch hm hd ha hb hi hq (show 2 < 3 by decide), bitAt_wordR ch hm hd ha hb hi hq (show 1 < 3 by decide), bitAt_wordR ch hm hd ha hb hi hq (show 0 < 3 by decide), bits3_2, bits3_1, bits3_0, fMod_wordR ch hm hd ha hb hi hq, fD_wordR ch hm hd ha hb hi hq, fA_wordR ch hm hd ha hb hi hq, fB_wordR ch hm hd ha hb hi hq, noM, noD, noA, noB]
  exact (gate_bind rfl rfl).trans (mk2_ok (fD_wordR ch hm hd ha hb hi hq) (fA_wordR ch hm hd ha hb hi hq) h)
theorem RoundTrip.popc (ch : Bool) (d : Dst) (a : Src) (w : Bool) : RoundTrip.Statement (.popc ch d a w) := by
  intro h
  have e0 : encode (.popc ch d a w) = 0x040000B0 + bit01 ch <<< 31 + d.code <<< 20 + a.code <<< 14 + bit01 w <<< 2 := rfl
  have e : encode (.popc ch d a w) = wordR 1 ch d.code a.code 0 22 (bit01 w * 4 + bit01 false * 2 + bit01 false) := by rw [e0]; simp only [wordR, Nat.shiftLeft_eq, bit01_false, bit01_true]; omega
  have hm : 1 < 31 := by decide
  have hi : 22 < 32 := by decide
  have hd : d.code < 64 := dst_lt d
  have ha : a.code < 64 := src_lt a
  have hb : 0 < 64 := (by decide)
  have hq := (bits3_lt w false false)
  rw [e]; refine ⟨wordR_lt ch hm hd ha hb hi hq, ?_⟩
  rw [dec1 ch hm hd ha hb hi hq]; delta decIalu; rw [fIdx_wordR ch hm hd ha hb hi hq]; (try dsimp only)
  simp only [fCh_wordR ch hm hd ha hb hi hq, bitAt_wordR ch hm hd ha hb hi hq (show 2 < 3 by decide), bitAt_wordR ch hm hd ha hb hi hq (show 1 < 3 by decide), bitAt_wordR ch hm hd ha hb hi hq (show 0 < 3 by decide), bits3_2, bits3_1, bits3_0, fMod_wordR ch hm hd ha hb hi hq, fD_wordR ch hm hd ha hb hi hq, fA_wordR ch hm hd ha hb hi hq, fB_wordR ch hm hd ha hb hi hq, noM, noD, noA, noB]
  exact (gate_bind rfl rfl).trans (mk2_ok (fD_wordR ch hm hd ha hb hi hq) (fA_wordR ch hm hd ha hb hi hq) h)
theorem RoundTrip.brev (ch : Bool) (d : Dst) (a : Src) (w : Bool) : RoundTrip.Statement (.brev ch d a w) := by
  intro h
  have e0 : encode (.brev ch d a w) = 0x040000B8 + bit01 ch <<< 31 + d.code <<< 20 + a.code <<< 14 + bit01 w <<< 2 := rfl
  have e : encode (.brev ch d a w) = wordR 1 ch d.code a.code 0 23 (bit01 w * 4 + bit01 false * 2 + bit01 false) := by rw [e0]; simp only [wordR, Nat.shiftLeft_eq, bit01_false, bit01_true]; omega
  have hm : 1 < 31 := by decide
  have hi : 23 < 32 := by decide
  have hd : d.code < 64 := dst_lt d
  have ha : a.code < 64 := src_lt a
  have hb : 0 < 64 := (by decide)
  have hq := (bits3_lt w false false)
  rw [e]; refine ⟨wordR_lt ch hm hd ha hb hi hq, ?_⟩
  rw [dec1 ch hm hd ha hb hi hq]; delta decIalu; rw [fIdx_wordR ch hm hd ha hb hi hq]; (try dsimp only)
  simp only [fCh_wordR ch hm hd ha hb hi hq, bitAt_wordR ch hm hd ha hb hi hq (show 2 < 3 by decide), bitAt_wordR ch hm hd ha hb hi hq (show 1 < 3 by decide), bitAt_wordR ch hm hd ha hb hi hq (show 0 < 3 by decide), bits3_2, bits3_1, bits3_0, fMod_wordR ch hm hd ha hb hi hq, fD_wordR ch hm hd ha hb hi hq, fA_wordR ch hm hd ha hb hi hq, fB_wordR ch hm hd ha hb hi hq, noM, noD, noA, noB]
  exact (gate_bind rfl rfl).trans (mk2_ok (fD_wordR ch hm hd ha hb hi hq) (fA_wordR ch hm hd ha hb hi hq) h)
theorem RoundTrip.bswap (ch : Bool) (d : Dst) (a : Src) (w : Bool) : RoundTrip.Statement (.bswap ch d a w) := by
  intro h
  have e0 : encode (.bswap ch d a w) = 0x040000C0 + bit01 ch <<< 31 + d.code <<< 20 + a.code <<< 14 + bit01 w <<< 2 := rfl
  have e : encode (.bswap ch d a w) = wordR 1 ch d.code a.code 0 24 (bit01 w * 4 + bit01 false * 2 + bit01 false) := by rw [e0]; simp only [wordR, Nat.shiftLeft_eq, bit01_false, bit01_true]; omega
  have hm : 1 < 31 := by decide
  have hi : 24 < 32 := by decide
  have hd : d.code < 64 := dst_lt d
  have ha : a.code < 64 := src_lt a
  have hb : 0 < 64 := (by decide)
  have hq := (bits3_lt w false false)
  rw [e]; refine ⟨wordR_lt ch hm hd ha hb hi hq, ?_⟩
  rw [dec1 ch hm hd ha hb hi hq]; delta decIalu; rw [fIdx_wordR ch hm hd ha hb hi hq]; (try dsimp only)
  simp only [fCh_wordR ch hm hd ha hb hi hq, bitAt_wordR ch hm hd ha hb hi hq (show 2 < 3 by decide), bitAt_wordR ch hm hd ha hb hi hq (show 1 < 3 by decide), bitAt_wordR ch hm hd ha hb hi hq (show 0 < 3 by decide), bits3_2, bits3_1, bits3_0, fMod_wordR ch hm hd ha hb hi hq, fD_wordR ch hm hd ha hb hi hq, fA_wordR ch hm hd ha hb hi hq, fB_wordR ch hm hd ha hb hi hq, noM, noD, noA, noB]
  exact (gate_bind rfl rfl).trans (mk2_ok (fD_wordR ch hm hd ha hb hi hq) (fA_wordR ch hm hd ha hb hi hq) h)
theorem RoundTrip.bfe (ch : Bool) (d : Dst) (a : Src) (b : Src) (w : Bool) (u : Bool) : RoundTrip.Statement (.bfe ch d a b w u) := by
  intro h
  have e0 : encode (.bfe ch d a b w u) = 0x040000C8 + bit01 ch <<< 31 + d.code <<< 20 + a.code <<< 14 + b.code <<< 8 + bit01 w <<< 2 + bit01 u <<< 1 := rfl
  have e : encode (.bfe ch d a b w u) = wordR 1 ch d.code a.code b.code 25 (bit01 w * 4 + bit01 u * 2 + bit01 false) := by rw [e0]; simp only [wordR, Nat.shiftLeft_eq, bit01_false, bit01_true]; omega
  have hm : 1 < 31 := by decide
  have hi : 25 < 32 := by decide
  have hd : d.code < 64 := dst_lt d
  have ha : a.code < 64 := src_lt a
  have hb : b.code < 64 := src_lt b
  have hq := (bits3_lt w u false)
  rw [e]; refine ⟨wordR_lt ch hm hd ha hb hi hq, ?_⟩
  rw [dec1 ch hm hd ha hb hi hq]; delta decIalu; rw [fIdx_wordR ch hm hd ha hb hi hq]; (try dsimp only)
  simp only [fCh_wordR ch hm hd ha hb hi hq, bitAt_wordR ch hm hd ha hb hi hq (show 2 < 3 by decide), bitAt_wordR ch hm hd ha hb hi hq (show 1 < 3 by decide), bitAt_wordR ch hm hd ha hb hi hq (show 0 < 3 by decide), bits3_2, bits3_1, bits3_0, fMod_wordR ch hm hd ha hb hi hq, fD_wordR ch hm hd ha hb hi hq, fA_wordR ch hm hd ha hb hi hq, fB_wordR ch hm hd ha hb hi hq, noM, noD, noA, noB]
  have ht := once_of (i := .bfe ch d a b w u) rfl h
  exact (gate_bind rfl rfl).trans (mk3_ok (fD_wordR ch hm hd ha hb hi hq) (fA_wordR ch hm hd ha hb hi hq) (fB_wordR ch hm hd ha hb hi hq) ht h)
theorem RoundTrip.lea (ch : Bool) (d : Dst) (a : Src) (b : Src) (w : Bool) : RoundTrip.Statement (.lea ch d a b w) := by
  intro h
  have e0 : encode (.lea ch d a b w) = 0x040000D0 + bit01 ch <<< 31 + d.code <<< 20 + a.code <<< 14 + b.code <<< 8 + bit01 w <<< 2 := rfl
  have e : encode (.lea ch d a b w) = wordR 1 ch d.code a.code b.code 26 (bit01 w * 4 + bit01 false * 2 + bit01 false) := by rw [e0]; simp only [wordR, Nat.shiftLeft_eq, bit01_false, bit01_true]; omega
  have hm : 1 < 31 := by decide
  have hi : 26 < 32 := by decide
  have hd : d.code < 64 := dst_lt d
  have ha : a.code < 64 := src_lt a
  have hb : b.code < 64 := src_lt b
  have hq := (bits3_lt w false false)
  rw [e]; refine ⟨wordR_lt ch hm hd ha hb hi hq, ?_⟩
  rw [dec1 ch hm hd ha hb hi hq]; delta decIalu; rw [fIdx_wordR ch hm hd ha hb hi hq]; (try dsimp only)
  simp only [fCh_wordR ch hm hd ha hb hi hq, bitAt_wordR ch hm hd ha hb hi hq (show 2 < 3 by decide), bitAt_wordR ch hm hd ha hb hi hq (show 1 < 3 by decide), bitAt_wordR ch hm hd ha hb hi hq (show 0 < 3 by decide), bits3_2, bits3_1, bits3_0, fMod_wordR ch hm hd ha hb hi hq, fD_wordR ch hm hd ha hb hi hq, fA_wordR ch hm hd ha hb hi hq, fB_wordR ch hm hd ha hb hi hq, noM, noD, noA, noB]
  have ht := once_of (i := .lea ch d a b w) rfl h
  exact (gate_bind rfl rfl).trans (mk3_ok (fD_wordR ch hm hd ha hb hi hq) (fA_wordR ch hm hd ha hb hi hq) (fB_wordR ch hm hd ha hb hi hq) ht h)
theorem RoundTrip.mov (ch : Bool) (d : Dst) (a : Src) (w : Bool) : RoundTrip.Statement (.mov ch d a w) := by
  intro h
  have e0 : encode (.mov ch d a w) = 0x040000D8 + bit01 ch <<< 31 + d.code <<< 20 + a.code <<< 14 + bit01 w <<< 2 := rfl
  have e : encode (.mov ch d a w) = wordR 1 ch d.code a.code 0 27 (bit01 w * 4 + bit01 false * 2 + bit01 false) := by rw [e0]; simp only [wordR, Nat.shiftLeft_eq, bit01_false, bit01_true]; omega
  have hm : 1 < 31 := by decide
  have hi : 27 < 32 := by decide
  have hd : d.code < 64 := dst_lt d
  have ha : a.code < 64 := src_lt a
  have hb : 0 < 64 := (by decide)
  have hq := (bits3_lt w false false)
  rw [e]; refine ⟨wordR_lt ch hm hd ha hb hi hq, ?_⟩
  rw [dec1 ch hm hd ha hb hi hq]; delta decIalu; rw [fIdx_wordR ch hm hd ha hb hi hq]; (try dsimp only)
  simp only [fCh_wordR ch hm hd ha hb hi hq, bitAt_wordR ch hm hd ha hb hi hq (show 2 < 3 by decide), bitAt_wordR ch hm hd ha hb hi hq (show 1 < 3 by decide), bitAt_wordR ch hm hd ha hb hi hq (show 0 < 3 by decide), bits3_2, bits3_1, bits3_0, fMod_wordR ch hm hd ha hb hi hq, fD_wordR ch hm hd ha hb hi hq, fA_wordR ch hm hd ha hb hi hq, fB_wordR ch hm hd ha hb hi hq, noM, noD, noA, noB]
  exact (gate_bind rfl rfl).trans (mk2_ok (fD_wordR ch hm hd ha hb hi hq) (fA_wordR ch hm hd ha hb hi hq) h)
theorem RoundTrip.shrr (ch : Bool) (d : Dst) (a : Src) (b : Src) (w : Bool) (u : Bool) : RoundTrip.Statement (.shrr ch d a b w u) := by
  intro h
  have e0 : encode (.shrr ch d a b w u) = 0x040000E0 + bit01 ch <<< 31 + d.code <<< 20 + a.code <<< 14 + b.code <<< 8 + bit01 w <<< 2 + bit01 u <<< 1 := rfl
  have e : encode (.shrr ch d a b w u) = wordR 1 ch d.code a.code b.code 28 (bit01 w * 4 + bit01 u * 2 + bit01 false) := by rw [e0]; simp only [wordR, Nat.shiftLeft_eq, bit01_false, bit01_true]; omega
  have hm : 1 < 31 := by decide
  have hi : 28 < 32 := by decide
  have hd : d.code < 64 := dst_lt d
  have ha : a.code < 64 := src_lt a
  have hb : b.code < 64 := src_lt b
  have hq := (bits3_lt w u false)
  rw [e]; refine ⟨wordR_lt ch hm hd ha hb hi hq, ?_⟩
  rw [dec1 ch hm hd ha hb hi hq]; delta decIalu; rw [fIdx_wordR ch hm hd ha hb hi hq]; (try dsimp only)
  simp only [fCh_wordR ch hm hd ha hb hi hq, bitAt_wordR ch hm hd ha hb hi hq (show 2 < 3 by decide), bitAt_wordR ch hm hd ha hb hi hq (show 1 < 3 by decide), bitAt_wordR ch hm hd ha hb hi hq (show 0 < 3 by decide), bits3_2, bits3_1, bits3_0, fMod_wordR ch hm hd ha hb hi hq, fD_wordR ch hm hd ha hb hi hq, fA_wordR ch hm hd ha hb hi hq, fB_wordR ch hm hd ha hb hi hq, noM, noD, noA, noB]
  have ht := once_of (i := .shrr ch d a b w u) rfl h
  exact (gate_bind rfl rfl).trans (mk3_ok (fD_wordR ch hm hd ha hb hi hq) (fA_wordR ch hm hd ha hb hi hq) (fB_wordR ch hm hd ha hb hi hq) ht h)
theorem RoundTrip.sel (ch : Bool) (d : Dst) (a : Src) (b : Src) (w : Bool) : RoundTrip.Statement (.sel ch d a b w) := by
  intro h
  have e0 : encode (.sel ch d a b w) = 0x040000E8 + bit01 ch <<< 31 + d.code <<< 20 + a.code <<< 14 + b.code <<< 8 + bit01 w <<< 2 := rfl
  have e : encode (.sel ch d a b w) = wordR 1 ch d.code a.code b.code 29 (bit01 w * 4 + bit01 false * 2 + bit01 false) := by rw [e0]; simp only [wordR, Nat.shiftLeft_eq, bit01_false, bit01_true]; omega
  have hm : 1 < 31 := by decide
  have hi : 29 < 32 := by decide
  have hd : d.code < 64 := dst_lt d
  have ha : a.code < 64 := src_lt a
  have hb : b.code < 64 := src_lt b
  have hq := (bits3_lt w false false)
  rw [e]; refine ⟨wordR_lt ch hm hd ha hb hi hq, ?_⟩
  rw [dec1 ch hm hd ha hb hi hq]; delta decIalu; rw [fIdx_wordR ch hm hd ha hb hi hq]; (try dsimp only)
  simp only [fCh_wordR ch hm hd ha hb hi hq, bitAt_wordR ch hm hd ha hb hi hq (show 2 < 3 by decide), bitAt_wordR ch hm hd ha hb hi hq (show 1 < 3 by decide), bitAt_wordR ch hm hd ha hb hi hq (show 0 < 3 by decide), bits3_2, bits3_1, bits3_0, fMod_wordR ch hm hd ha hb hi hq, fD_wordR ch hm hd ha hb hi hq, fA_wordR ch hm hd ha hb hi hq, fB_wordR ch hm hd ha hb hi hq, noM, noD, noA, noB]
  have ht := once_of (i := .sel ch d a b w) rfl h
  exact (gate_bind rfl rfl).trans (mk3_ok (fD_wordR ch hm hd ha hb hi hq) (fA_wordR ch hm hd ha hb hi hq) (fB_wordR ch hm hd ha hb hi hq) ht h)
theorem RoundTrip.iaddi (ch : Bool) (d : Dst) (a : Src) (imm : BitVec 11) : RoundTrip.Statement (.iaddi ch d a imm) := by
  intro h
  have e0 : encode (.iaddi ch d a imm) = 0x08000000 + bit01 ch <<< 31 + d.code <<< 20 + a.code <<< 14 + imm.toNat := rfl
  have hi := imm.isLt
  have e : encode (.iaddi ch d a imm) = wordI 2 ch d.code a.code (0 * 2 ^ 11 + imm.toNat) := by rw [e0]; simp only [wordI, Nat.shiftLeft_eq]; omega
  have hd := dst_lt d; have ha := src_lt a
  have hl : 0 * 2 ^ 11 + imm.toNat < 2 ^ 14 := by omega
  have hm : 2 < 31 := by decide
  rw [e]; refine ⟨wordI_lt ch (show 2 < 32 by decide) hd ha hl, ?_⟩
  rw [dec2 ch (show 2 < 32 by decide) hd ha hl]; delta decIimm; (try dsimp only); rw [bits_wordI ch (show 2 < 32 by decide) hd ha hl (show 13 < 14 by decide) (by decide), top_lo (by omega)]; (try dsimp only)
  rw [fCh_wordI ch (show 2 < 32 by decide) hd ha hl, bits_wordI ch (show 2 < 32 by decide) hd ha hl (show 10 < 14 by decide) (by decide), low_lo (by omega), BitVec.ofNat_toNat, BitVec.setWidth_eq]
  exact mk2_ok (fD_wordI ch (show 2 < 32 by decide) hd ha hl) (fA_wordI ch (show 2 < 32 by decide) hd ha hl) h
theorem RoundTrip.andi (ch : Bool) (d : Dst) (a : Src) (imm : BitVec 11) : RoundTrip.Statement (.andi ch d a imm) := by
  intro h
  have e0 : encode (.andi ch d a imm) = 0x08000800 + bit01 ch <<< 31 + d.code <<< 20 + a.code <<< 14 + imm.toNat := rfl
  have hi := imm.isLt
  have e : encode (.andi ch d a imm) = wordI 2 ch d.code a.code (1 * 2 ^ 11 + imm.toNat) := by rw [e0]; simp only [wordI, Nat.shiftLeft_eq]; omega
  have hd := dst_lt d; have ha := src_lt a
  have hl : 1 * 2 ^ 11 + imm.toNat < 2 ^ 14 := by omega
  have hm : 2 < 31 := by decide
  rw [e]; refine ⟨wordI_lt ch (show 2 < 32 by decide) hd ha hl, ?_⟩
  rw [dec2 ch (show 2 < 32 by decide) hd ha hl]; delta decIimm; (try dsimp only); rw [bits_wordI ch (show 2 < 32 by decide) hd ha hl (show 13 < 14 by decide) (by decide), top_lo (by omega)]; (try dsimp only)
  rw [fCh_wordI ch (show 2 < 32 by decide) hd ha hl, bits_wordI ch (show 2 < 32 by decide) hd ha hl (show 10 < 14 by decide) (by decide), low_lo (by omega), BitVec.ofNat_toNat, BitVec.setWidth_eq]
  exact mk2_ok (fD_wordI ch (show 2 < 32 by decide) hd ha hl) (fA_wordI ch (show 2 < 32 by decide) hd ha hl) h
theorem RoundTrip.ori (ch : Bool) (d : Dst) (a : Src) (imm : BitVec 11) : RoundTrip.Statement (.ori ch d a imm) := by
  intro h
  have e0 : encode (.ori ch d a imm) = 0x08001000 + bit01 ch <<< 31 + d.code <<< 20 + a.code <<< 14 + imm.toNat := rfl
  have hi := imm.isLt
  have e : encode (.ori ch d a imm) = wordI 2 ch d.code a.code (2 * 2 ^ 11 + imm.toNat) := by rw [e0]; simp only [wordI, Nat.shiftLeft_eq]; omega
  have hd := dst_lt d; have ha := src_lt a
  have hl : 2 * 2 ^ 11 + imm.toNat < 2 ^ 14 := by omega
  have hm : 2 < 31 := by decide
  rw [e]; refine ⟨wordI_lt ch (show 2 < 32 by decide) hd ha hl, ?_⟩
  rw [dec2 ch (show 2 < 32 by decide) hd ha hl]; delta decIimm; (try dsimp only); rw [bits_wordI ch (show 2 < 32 by decide) hd ha hl (show 13 < 14 by decide) (by decide), top_lo (by omega)]; (try dsimp only)
  rw [fCh_wordI ch (show 2 < 32 by decide) hd ha hl, bits_wordI ch (show 2 < 32 by decide) hd ha hl (show 10 < 14 by decide) (by decide), low_lo (by omega), BitVec.ofNat_toNat, BitVec.setWidth_eq]
  exact mk2_ok (fD_wordI ch (show 2 < 32 by decide) hd ha hl) (fA_wordI ch (show 2 < 32 by decide) hd ha hl) h
theorem RoundTrip.xori (ch : Bool) (d : Dst) (a : Src) (imm : BitVec 11) : RoundTrip.Statement (.xori ch d a imm) := by
  intro h
  have e0 : encode (.xori ch d a imm) = 0x08001800 + bit01 ch <<< 31 + d.code <<< 20 + a.code <<< 14 + imm.toNat := rfl
  have hi := imm.isLt
  have e : encode (.xori ch d a imm) = wordI 2 ch d.code a.code (3 * 2 ^ 11 + imm.toNat) := by rw [e0]; simp only [wordI, Nat.shiftLeft_eq]; omega
  have hd := dst_lt d; have ha := src_lt a
  have hl : 3 * 2 ^ 11 + imm.toNat < 2 ^ 14 := by omega
  have hm : 2 < 31 := by decide
  rw [e]; refine ⟨wordI_lt ch (show 2 < 32 by decide) hd ha hl, ?_⟩
  rw [dec2 ch (show 2 < 32 by decide) hd ha hl]; delta decIimm; (try dsimp only); rw [bits_wordI ch (show 2 < 32 by decide) hd ha hl (show 13 < 14 by decide) (by decide), top_lo (by omega)]; (try dsimp only)
  rw [fCh_wordI ch (show 2 < 32 by decide) hd ha hl, bits_wordI ch (show 2 < 32 by decide) hd ha hl (show 10 < 14 by decide) (by decide), low_lo (by omega), BitVec.ofNat_toNat, BitVec.setWidth_eq]
  exact mk2_ok (fD_wordI ch (show 2 < 32 by decide) hd ha hl) (fA_wordI ch (show 2 < 32 by decide) hd ha hl) h
theorem RoundTrip.shli (ch : Bool) (d : Dst) (a : Src) (hh : Bool) (w : Bool) (k : BitVec 5) : RoundTrip.Statement (.shli ch d a hh w k) := by
  intro h
  have e0 : encode (.shli ch d a hh w k) = 0x08002000 + bit01 ch <<< 31 + d.code <<< 20 + a.code <<< 14 + bit01 hh <<< 10 + bit01 w <<< 5 + k.toNat := rfl
  have hi := k.isLt; have h1 := bit01_le hh; have h2 := bit01_le w
  have e : encode (.shli ch d a hh w k) = wordI 2 ch d.code a.code (4 * 2 ^ 11 + (bit01 hh * 2 ^ 10 + bit01 w * 2 ^ 5 + k.toNat)) := by rw [e0]; simp only [wordI, Nat.shiftLeft_eq]; omega
  have hd := dst_lt d; have ha := src_lt a
  have hl : 4 * 2 ^ 11 + (bit01 hh * 2 ^ 10 + bit01 w * 2 ^ 5 + k.toNat) < 2 ^ 14 := by omega
  have hm : 2 < 31 := by decide
  rw [e]; refine ⟨wordI_lt ch (show 2 < 32 by decide) hd ha hl, ?_⟩
  rw [dec2 ch (show 2 < 32 by decide) hd ha hl]; delta decIimm; (try dsimp only); rw [bits_wordI ch (show 2 < 32 by decide) hd ha hl (show 13 < 14 by decide) (by decide), top_lo (by omega)]; (try dsimp only)
  rw [fCh_wordI ch (show 2 < 32 by decide) hd ha hl, bits_wordI ch (show 2 < 32 by decide) hd ha hl (show 9 < 14 by decide) (by decide), bits_wordI ch (show 2 < 32 by decide) hd ha hl (show 4 < 14 by decide) (by decide), bitAt_wordI ch (show 2 < 32 by decide) hd ha hl (show 5 < 14 by decide), bitAt_wordI ch (show 2 < 32 by decide) hd ha hl (show 10 < 14 by decide), sh_bits 4 hh w k, sh_mid 4 hh w k, sh_w 4 hh w k, sh_h 4 hh w k]
  exact (req_bind (mods_ok h)).trans (mk2_ok (fD_wordI ch (show 2 < 32 by decide) hd ha hl) (fA_wordI ch (show 2 < 32 by decide) hd ha hl) h)
theorem RoundTrip.shri (ch : Bool) (d : Dst) (a : Src) (hh : Bool) (w : Bool) (k : BitVec 5) : RoundTrip.Statement (.shri ch d a hh w k) := by
  intro h
  have e0 : encode (.shri ch d a hh w k) = 0x08002800 + bit01 ch <<< 31 + d.code <<< 20 + a.code <<< 14 + bit01 hh <<< 10 + bit01 w <<< 5 + k.toNat := rfl
  have hi := k.isLt; have h1 := bit01_le hh; have h2 := bit01_le w
  have e : encode (.shri ch d a hh w k) = wordI 2 ch d.code a.code (5 * 2 ^ 11 + (bit01 hh * 2 ^ 10 + bit01 w * 2 ^ 5 + k.toNat)) := by rw [e0]; simp only [wordI, Nat.shiftLeft_eq]; omega
  have hd := dst_lt d; have ha := src_lt a
  have hl : 5 * 2 ^ 11 + (bit01 hh * 2 ^ 10 + bit01 w * 2 ^ 5 + k.toNat) < 2 ^ 14 := by omega
  have hm : 2 < 31 := by decide
  rw [e]; refine ⟨wordI_lt ch (show 2 < 32 by decide) hd ha hl, ?_⟩
  rw [dec2 ch (show 2 < 32 by decide) hd ha hl]; delta decIimm; (try dsimp only); rw [bits_wordI ch (show 2 < 32 by decide) hd ha hl (show 13 < 14 by decide) (by decide), top_lo (by omega)]; (try dsimp only)
  rw [fCh_wordI ch (show 2 < 32 by decide) hd ha hl, bits_wordI ch (show 2 < 32 by decide) hd ha hl (show 9 < 14 by decide) (by decide), bits_wordI ch (show 2 < 32 by decide) hd ha hl (show 4 < 14 by decide) (by decide), bitAt_wordI ch (show 2 < 32 by decide) hd ha hl (show 5 < 14 by decide), bitAt_wordI ch (show 2 < 32 by decide) hd ha hl (show 10 < 14 by decide), sh_bits 5 hh w k, sh_mid 5 hh w k, sh_w 5 hh w k, sh_h 5 hh w k]
  exact (req_bind (mods_ok h)).trans (mk2_ok (fD_wordI ch (show 2 < 32 by decide) hd ha hl) (fA_wordI ch (show 2 < 32 by decide) hd ha hl) h)
theorem RoundTrip.sari (ch : Bool) (d : Dst) (a : Src) (hh : Bool) (w : Bool) (k : BitVec 5) : RoundTrip.Statement (.sari ch d a hh w k) := by
  intro h
  have e0 : encode (.sari ch d a hh w k) = 0x08003000 + bit01 ch <<< 31 + d.code <<< 20 + a.code <<< 14 + bit01 hh <<< 10 + bit01 w <<< 5 + k.toNat := rfl
  have hi := k.isLt; have h1 := bit01_le hh; have h2 := bit01_le w
  have e : encode (.sari ch d a hh w k) = wordI 2 ch d.code a.code (6 * 2 ^ 11 + (bit01 hh * 2 ^ 10 + bit01 w * 2 ^ 5 + k.toNat)) := by rw [e0]; simp only [wordI, Nat.shiftLeft_eq]; omega
  have hd := dst_lt d; have ha := src_lt a
  have hl : 6 * 2 ^ 11 + (bit01 hh * 2 ^ 10 + bit01 w * 2 ^ 5 + k.toNat) < 2 ^ 14 := by omega
  have hm : 2 < 31 := by decide
  rw [e]; refine ⟨wordI_lt ch (show 2 < 32 by decide) hd ha hl, ?_⟩
  rw [dec2 ch (show 2 < 32 by decide) hd ha hl]; delta decIimm; (try dsimp only); rw [bits_wordI ch (show 2 < 32 by decide) hd ha hl (show 13 < 14 by decide) (by decide), top_lo (by omega)]; (try dsimp only)
  rw [fCh_wordI ch (show 2 < 32 by decide) hd ha hl, bits_wordI ch (show 2 < 32 by decide) hd ha hl (show 9 < 14 by decide) (by decide), bits_wordI ch (show 2 < 32 by decide) hd ha hl (show 4 < 14 by decide) (by decide), bitAt_wordI ch (show 2 < 32 by decide) hd ha hl (show 5 < 14 by decide), bitAt_wordI ch (show 2 < 32 by decide) hd ha hl (show 10 < 14 by decide), sh_bits 6 hh w k, sh_mid 6 hh w k, sh_w 6 hh w k, sh_h 6 hh w k]
  exact (req_bind (mods_ok h)).trans (mk2_ok (fD_wordI ch (show 2 < 32 by decide) hd ha hl) (fA_wordI ch (show 2 < 32 by decide) hd ha hl) h)
theorem RoundTrip.movi (ch : Bool) (d : Dst) (imm : BitVec 17) : RoundTrip.Statement (.movi ch d imm) := by
  intro h
  have e0 : encode (.movi ch d imm) = 0x08003800 + bit01 ch <<< 31 + d.code <<< 20 + (imm.toNat >>> 11) <<< 14 + imm.toNat % 2048 := rfl
  have hi := imm.isLt
  have e : encode (.movi ch d imm) = wordI 2 ch d.code (imm.toNat / 2 ^ 11) (7 * 2 ^ 11 + imm.toNat % 2048) := by rw [e0]; simp only [wordI, Nat.shiftLeft_eq, Nat.shiftRight_eq_div_pow]; omega
  have hd := dst_lt d; have ha : imm.toNat / 2 ^ 11 < 64 := by omega
  have hl : 7 * 2 ^ 11 + imm.toNat % 2048 < 2 ^ 14 := by omega
  have hm : 2 < 31 := by decide
  rw [e]; refine ⟨wordI_lt ch (show 2 < 32 by decide) hd ha hl, ?_⟩
  rw [dec2 ch (show 2 < 32 by decide) hd ha hl]; delta decIimm; (try dsimp only); rw [bits_wordI ch (show 2 < 32 by decide) hd ha hl (show 13 < 14 by decide) (by decide), top_lo (by omega)]; (try dsimp only)
  rw [fCh_wordI ch (show 2 < 32 by decide) hd ha hl, fA_wordI ch (show 2 < 32 by decide) hd ha hl, bits_wordI ch (show 2 < 32 by decide) hd ha hl (show 10 < 14 by decide) (by decide), low_lo (by omega), movi_imm imm]
  exact mk1_ok (fD_wordI ch (show 2 < 32 by decide) hd ha hl) h
theorem RoundTrip.icmpS (ch : Bool) (p : PDst) (a : Src) (b : Src) (cond : Cond) : RoundTrip.Statement (.icmpS ch p a b cond) := by
  intro h
  have e0 : encode (.icmpS ch p a b cond) = 0x0C000000 + bit01 ch <<< 31 + p.code <<< 20 + a.code <<< 14 + b.code <<< 8 + cond.code := rfl
  have e : encode (.icmpS ch p a b cond) = wordR 3 ch p.code a.code b.code 0 cond.code := by rw [e0]; simp only [wordR, Nat.shiftLeft_eq, bit01_false, bit01_true]; omega
  have hm : 3 < 31 := by decide
  have hi : 0 < 32 := by decide
  have hd : p.code < 64 := pdst_lt p
  have ha : a.code < 64 := src_lt a
  have hb : b.code < 64 := src_lt b
  have hq := (show cond.code < 8 from Nat.lt_of_lt_of_le (cond_lt cond) (by decide))
  rw [e]; refine ⟨wordR_lt ch hm hd ha hb hi hq, ?_⟩
  rw [dec3 ch hm hd ha hb hi hq]; delta decIcmp; rw [fIdx_wordR ch hm hd ha hb hi hq]; (try dsimp only)
  simp only [fCh_wordR ch hm hd ha hb hi hq, fMod_wordR ch hm hd ha hb hi hq, fD_wordR ch hm hd ha hb hi hq, fA_wordR ch hm hd ha hb hi hq, fB_wordR ch hm hd ha hb hi hq, noM, noD, noA, noB, condOf_code, pdstOf_code]
  have hmo := mods_ok h
  exact (gate_bind (cond_ok hmo) rfl).trans (mkAB_ok (fA_wordR ch hm hd ha hb hi hq) (fB_wordR ch hm hd ha hb hi hq) h)
theorem RoundTrip.icmpU (ch : Bool) (p : PDst) (a : Src) (b : Src) (cond : Cond) : RoundTrip.Statement (.icmpU ch p a b cond) := by
  intro h
  have e0 : encode (.icmpU ch p a b cond) = 0x0C000008 + bit01 ch <<< 31 + p.code <<< 20 + a.code <<< 14 + b.code <<< 8 + cond.code := rfl
  have e : encode (.icmpU ch p a b cond) = wordR 3 ch p.code a.code b.code 1 cond.code := by rw [e0]; simp only [wordR, Nat.shiftLeft_eq, bit01_false, bit01_true]; omega
  have hm : 3 < 31 := by decide
  have hi : 1 < 32 := by decide
  have hd : p.code < 64 := pdst_lt p
  have ha : a.code < 64 := src_lt a
  have hb : b.code < 64 := src_lt b
  have hq := (show cond.code < 8 from Nat.lt_of_lt_of_le (cond_lt cond) (by decide))
  rw [e]; refine ⟨wordR_lt ch hm hd ha hb hi hq, ?_⟩
  rw [dec3 ch hm hd ha hb hi hq]; delta decIcmp; rw [fIdx_wordR ch hm hd ha hb hi hq]; (try dsimp only)
  simp only [fCh_wordR ch hm hd ha hb hi hq, fMod_wordR ch hm hd ha hb hi hq, fD_wordR ch hm hd ha hb hi hq, fA_wordR ch hm hd ha hb hi hq, fB_wordR ch hm hd ha hb hi hq, noM, noD, noA, noB, condOf_code, pdstOf_code]
  have hmo := mods_ok h
  exact (gate_bind (cond_ok hmo) rfl).trans (mkAB_ok (fA_wordR ch hm hd ha hb hi hq) (fB_wordR ch hm hd ha hb hi hq) h)
theorem RoundTrip.icmpSW (ch : Bool) (p : PDst) (a : Src) (b : Src) (cond : Cond) : RoundTrip.Statement (.icmpSW ch p a b cond) := by
  intro h
  have e0 : encode (.icmpSW ch p a b cond) = 0x0C000010 + bit01 ch <<< 31 + p.code <<< 20 + a.code <<< 14 + b.code <<< 8 + cond.code := rfl
  have e : encode (.icmpSW ch p a b cond) = wordR 3 ch p.code a.code b.code 2 cond.code := by rw [e0]; simp only [wordR, Nat.shiftLeft_eq, bit01_false, bit01_true]; omega
  have hm : 3 < 31 := by decide
  have hi : 2 < 32 := by decide
  have hd : p.code < 64 := pdst_lt p
  have ha : a.code < 64 := src_lt a
  have hb : b.code < 64 := src_lt b
  have hq := (show cond.code < 8 from Nat.lt_of_lt_of_le (cond_lt cond) (by decide))
  rw [e]; refine ⟨wordR_lt ch hm hd ha hb hi hq, ?_⟩
  rw [dec3 ch hm hd ha hb hi hq]; delta decIcmp; rw [fIdx_wordR ch hm hd ha hb hi hq]; (try dsimp only)
  simp only [fCh_wordR ch hm hd ha hb hi hq, fMod_wordR ch hm hd ha hb hi hq, fD_wordR ch hm hd ha hb hi hq, fA_wordR ch hm hd ha hb hi hq, fB_wordR ch hm hd ha hb hi hq, noM, noD, noA, noB, condOf_code, pdstOf_code]
  have hmo := mods_ok h
  exact (gate_bind (cond_ok hmo) rfl).trans (mkAB_ok (fA_wordR ch hm hd ha hb hi hq) (fB_wordR ch hm hd ha hb hi hq) h)
theorem RoundTrip.icmpUW (ch : Bool) (p : PDst) (a : Src) (b : Src) (cond : Cond) : RoundTrip.Statement (.icmpUW ch p a b cond) := by
  intro h
  have e0 : encode (.icmpUW ch p a b cond) = 0x0C000018 + bit01 ch <<< 31 + p.code <<< 20 + a.code <<< 14 + b.code <<< 8 + cond.code := rfl
  have e : encode (.icmpUW ch p a b cond) = wordR 3 ch p.code a.code b.code 3 cond.code := by rw [e0]; simp only [wordR, Nat.shiftLeft_eq, bit01_false, bit01_true]; omega
  have hm : 3 < 31 := by decide
  have hi : 3 < 32 := by decide
  have hd : p.code < 64 := pdst_lt p
  have ha : a.code < 64 := src_lt a
  have hb : b.code < 64 := src_lt b
  have hq := (show cond.code < 8 from Nat.lt_of_lt_of_le (cond_lt cond) (by decide))
  rw [e]; refine ⟨wordR_lt ch hm hd ha hb hi hq, ?_⟩
  rw [dec3 ch hm hd ha hb hi hq]; delta decIcmp; rw [fIdx_wordR ch hm hd ha hb hi hq]; (try dsimp only)
  simp only [fCh_wordR ch hm hd ha hb hi hq, fMod_wordR ch hm hd ha hb hi hq, fD_wordR ch hm hd ha hb hi hq, fA_wordR ch hm hd ha hb hi hq, fB_wordR ch hm hd ha hb hi hq, noM, noD, noA, noB, condOf_code, pdstOf_code]
  have hmo := mods_ok h
  exact (gate_bind (cond_ok hmo) rfl).trans (mkAB_ok (fA_wordR ch hm hd ha hb hi hq) (fB_wordR ch hm hd ha hb hi hq) h)
theorem RoundTrip.fcmpF32 (ch : Bool) (p : PDst) (a : Src) (b : Src) (cond : Cond) : RoundTrip.Statement (.fcmpF32 ch p a b cond) := by
  intro h
  have e0 : encode (.fcmpF32 ch p a b cond) = 0x0C000020 + bit01 ch <<< 31 + p.code <<< 20 + a.code <<< 14 + b.code <<< 8 + cond.code := rfl
  have e : encode (.fcmpF32 ch p a b cond) = wordR 3 ch p.code a.code b.code 4 cond.code := by rw [e0]; simp only [wordR, Nat.shiftLeft_eq, bit01_false, bit01_true]; omega
  have hm : 3 < 31 := by decide
  have hi : 4 < 32 := by decide
  have hd : p.code < 64 := pdst_lt p
  have ha : a.code < 64 := src_lt a
  have hb : b.code < 64 := src_lt b
  have hq := (show cond.code < 8 from Nat.lt_of_lt_of_le (cond_lt cond) (by decide))
  rw [e]; refine ⟨wordR_lt ch hm hd ha hb hi hq, ?_⟩
  rw [dec3 ch hm hd ha hb hi hq]; delta decIcmp; rw [fIdx_wordR ch hm hd ha hb hi hq]; (try dsimp only)
  simp only [fCh_wordR ch hm hd ha hb hi hq, fMod_wordR ch hm hd ha hb hi hq, fD_wordR ch hm hd ha hb hi hq, fA_wordR ch hm hd ha hb hi hq, fB_wordR ch hm hd ha hb hi hq, noM, noD, noA, noB, condOf_code, pdstOf_code]
  exact mkAB_ok (fA_wordR ch hm hd ha hb hi hq) (fB_wordR ch hm hd ha hb hi hq) h
theorem RoundTrip.fcmpF16 (ch : Bool) (p : PDst) (a : Src) (b : Src) (cond : Cond) : RoundTrip.Statement (.fcmpF16 ch p a b cond) := by
  intro h
  have e0 : encode (.fcmpF16 ch p a b cond) = 0x0C000028 + bit01 ch <<< 31 + p.code <<< 20 + a.code <<< 14 + b.code <<< 8 + cond.code := rfl
  have e : encode (.fcmpF16 ch p a b cond) = wordR 3 ch p.code a.code b.code 5 cond.code := by rw [e0]; simp only [wordR, Nat.shiftLeft_eq, bit01_false, bit01_true]; omega
  have hm : 3 < 31 := by decide
  have hi : 5 < 32 := by decide
  have hd : p.code < 64 := pdst_lt p
  have ha : a.code < 64 := src_lt a
  have hb : b.code < 64 := src_lt b
  have hq := (show cond.code < 8 from Nat.lt_of_lt_of_le (cond_lt cond) (by decide))
  rw [e]; refine ⟨wordR_lt ch hm hd ha hb hi hq, ?_⟩
  rw [dec3 ch hm hd ha hb hi hq]; delta decIcmp; rw [fIdx_wordR ch hm hd ha hb hi hq]; (try dsimp only)
  simp only [fCh_wordR ch hm hd ha hb hi hq, fMod_wordR ch hm hd ha hb hi hq, fD_wordR ch hm hd ha hb hi hq, fA_wordR ch hm hd ha hb hi hq, fB_wordR ch hm hd ha hb hi hq, noM, noD, noA, noB, condOf_code, pdstOf_code]
  exact mkAB_ok (fA_wordR ch hm hd ha hb hi hq) (fB_wordR ch hm hd ha hb hi hq) h
theorem RoundTrip.fclass (ch : Bool) (p : PDst) (a : Src) (b : Src) (t : FTy) : RoundTrip.Statement (.fclass ch p a b t) := by
  intro h
  have e0 : encode (.fclass ch p a b t) = 0x0C000030 + bit01 ch <<< 31 + p.code <<< 20 + a.code <<< 14 + b.code <<< 8 + t.code := rfl
  have e : encode (.fclass ch p a b t) = wordR 3 ch p.code a.code b.code 6 t.code := by rw [e0]; simp only [wordR, Nat.shiftLeft_eq, bit01_false, bit01_true]; omega
  have hm : 3 < 31 := by decide
  have hi : 6 < 32 := by decide
  have hd : p.code < 64 := pdst_lt p
  have ha : a.code < 64 := src_lt a
  have hb : b.code < 64 := src_lt b
  have hq := (show t.code < 8 from Nat.lt_of_lt_of_le (fty_lt t) (by decide))
  rw [e]; refine ⟨wordR_lt ch hm hd ha hb hi hq, ?_⟩
  rw [dec3 ch hm hd ha hb hi hq]; delta decIcmp; rw [fIdx_wordR ch hm hd ha hb hi hq]; (try dsimp only)
  simp only [fCh_wordR ch hm hd ha hb hi hq, fMod_wordR ch hm hd ha hb hi hq, fD_wordR ch hm hd ha hb hi hq, fA_wordR ch hm hd ha hb hi hq, fB_wordR ch hm hd ha hb hi hq, noM, noD, noA, noB, ftyOf_code, pdstOf_code]
  have hmo := mods_ok h
  exact (gate_bind (fclass_ok hmo) rfl).trans (mkAB_ok (fA_wordR ch hm hd ha hb hi hq) (fB_wordR ch hm hd ha hb hi hq) h)
theorem RoundTrip.plog (ch : Bool) (p : PDst) (x : PSrc) (y : PSrc) (op : PLog) : RoundTrip.Statement (.plog ch p x y op) := by
  intro h
  have e0 : encode (.plog ch p x y op) = 0x0C000038 + bit01 ch <<< 31 + p.code <<< 20 + x.code <<< 14 + y.code <<< 8 + op.code := rfl
  have e : encode (.plog ch p x y op) = wordR 3 ch p.code x.code y.code 7 op.code := by rw [e0]; simp only [wordR, Nat.shiftLeft_eq, bit01_false, bit01_true]; omega
  have hm : 3 < 31 := by decide
  have hi : 7 < 32 := by decide
  have hd : p.code < 64 := pdst_lt p
  have ha : x.code < 64 := (by have := psrc_lt x; omega)
  have hb : y.code < 64 := (by have := psrc_lt y; omega)
  have hq := (show op.code < 8 from Nat.lt_of_lt_of_le (plog_lt op) (by decide))
  rw [e]; refine ⟨wordR_lt ch hm hd ha hb hi hq, ?_⟩
  rw [dec3 ch hm hd ha hb hi hq]; delta decIcmp; rw [fIdx_wordR ch hm hd ha hb hi hq]; (try dsimp only)
  simp only [fCh_wordR ch hm hd ha hb hi hq, fMod_wordR ch hm hd ha hb hi hq, fD_wordR ch hm hd ha hb hi hq, fA_wordR ch hm hd ha hb hi hq, fB_wordR ch hm hd ha hb hi hq, noM, noD, noA, noB, plogOf_code, psrcOf_code, pdstOf_code]
  refine (gate_bind (decide_eq_true (plog_lt op)) rfl).trans ((req_bind ?_).trans (finish_ok h))
  simp only [Bool.and_eq_true, decide_eq_true_eq]; exact ⟨psrc_lt x, psrc_lt y⟩
theorem RoundTrip.setp (ch : Bool) (p : PDst) (a : Src) : RoundTrip.Statement (.setp ch p a) := by
  intro h
  have e0 : encode (.setp ch p a) = 0x0C000040 + bit01 ch <<< 31 + p.code <<< 20 + a.code <<< 14 := rfl
  have e : encode (.setp ch p a) = wordR 3 ch p.code a.code 0 8 0 := by rw [e0]; simp only [wordR, Nat.shiftLeft_eq, bit01_false, bit01_true]; omega
  have hm : 3 < 31 := by decide
  have hi : 8 < 32 := by decide
  have hd : p.code < 64 := pdst_lt p
  have ha : a.code < 64 := src_lt a
  have hb : 0 < 64 := (by decide)
  have hq := (show 0 < 8 by decide)
  rw [e]; refine ⟨wordR_lt ch hm hd ha hb hi hq, ?_⟩
  rw [dec3 ch hm hd ha hb hi hq]; delta decIcmp; rw [fIdx_wordR ch hm hd ha hb hi hq]; (try dsimp only)
  simp only [fCh_wordR ch hm hd ha hb hi hq, fMod_wordR ch hm hd ha hb hi hq, fD_wordR ch hm hd ha hb hi hq, fA_wordR ch hm hd ha hb hi hq, fB_wordR ch hm hd ha hb hi hq, noM, noD, noA, noB, pdstOf_code]
  exact (gate_bind rfl rfl).trans (mkA_ok (fA_wordR ch hm hd ha hb hi hq) h)
theorem RoundTrip.bra (ch : Bool) (neg : Bool) (p : BitVec 3) (off : BitVec 17) : RoundTrip.Statement (.bra ch neg p off) := by
  intro h
  have e0 : encode (.bra ch neg p off) = 0x10000000 + bit01 ch <<< 31 + bit01 neg <<< 25 + p.toNat <<< 22 + off.toNat := rfl
  have hp := p.isLt; have ho := off.isLt; have hj : 0 < 8 := by decide
  have hk : 0 < 4 := by decide
  have e : encode (.bra ch neg p off) = wordB ch neg p.toNat 0 0 off.toNat := by rw [e0]; simp only [wordB, Nat.shiftLeft_eq]; omega
  rw [e]; refine ⟨wordB_lt ch neg hp hj hk ho, ?_⟩
  rw [dec4 ch neg hp hj hk ho]; delta decBranch; (try dsimp only); rw [op_wordB ch neg hp hj hk ho]; (try dsimp only)
  rw [fCh_wordB ch neg hp hj hk ho, neg_wordB ch neg hp hj hk ho, p_wordB ch neg hp hj hk ho, j_wordB ch neg hp hj hk ho, off_wordB ch neg hp hj hk ho]
  simp only [BitVec.ofNat_toNat, BitVec.setWidth_eq]
  exact (req_bind rfl).trans (finish_ok h)
theorem RoundTrip.braEnrol (ch : Bool) (neg : Bool) (p : BitVec 3) (j : BitVec 3) (off : BitVec 17) : RoundTrip.Statement (.braEnrol ch neg p j off) := by
  intro h
  have e0 : encode (.braEnrol ch neg p j off) = 0x10020000 + bit01 ch <<< 31 + bit01 neg <<< 25 + p.toNat <<< 22 + j.toNat <<< 19 + off.toNat := rfl
  have hp := p.isLt; have ho := off.isLt; have hj := j.isLt
  have hk : 1 < 4 := by decide
  have e : encode (.braEnrol ch neg p j off) = wordB ch neg p.toNat j.toNat 1 off.toNat := by rw [e0]; simp only [wordB, Nat.shiftLeft_eq]; omega
  rw [e]; refine ⟨wordB_lt ch neg hp hj hk ho, ?_⟩
  rw [dec4 ch neg hp hj hk ho]; delta decBranch; (try dsimp only); rw [op_wordB ch neg hp hj hk ho]; (try dsimp only)
  rw [fCh_wordB ch neg hp hj hk ho, neg_wordB ch neg hp hj hk ho, p_wordB ch neg hp hj hk ho, j_wordB ch neg hp hj hk ho, off_wordB ch neg hp hj hk ho]
  simp only [BitVec.ofNat_toNat, BitVec.setWidth_eq]
  exact finish_ok h
theorem RoundTrip.strike (ch : Bool) (neg : Bool) (p : BitVec 3) (j : BitVec 3) (off : BitVec 17) : RoundTrip.Statement (.strike ch neg p j off) := by
  intro h
  have e0 : encode (.strike ch neg p j off) = 0x10040000 + bit01 ch <<< 31 + bit01 neg <<< 25 + p.toNat <<< 22 + j.toNat <<< 19 + off.toNat := rfl
  have hp := p.isLt; have ho := off.isLt; have hj := j.isLt
  have hk : 2 < 4 := by decide
  have e : encode (.strike ch neg p j off) = wordB ch neg p.toNat j.toNat 2 off.toNat := by rw [e0]; simp only [wordB, Nat.shiftLeft_eq]; omega
  rw [e]; refine ⟨wordB_lt ch neg hp hj hk ho, ?_⟩
  rw [dec4 ch neg hp hj hk ho]; delta decBranch; (try dsimp only); rw [op_wordB ch neg hp hj hk ho]; (try dsimp only)
  rw [fCh_wordB ch neg hp hj hk ho, neg_wordB ch neg hp hj hk ho, p_wordB ch neg hp hj hk ho, j_wordB ch neg hp hj hk ho, off_wordB ch neg hp hj hk ho]
  simp only [BitVec.ofNat_toNat, BitVec.setWidth_eq]
  exact finish_ok h
theorem RoundTrip.call (ch : Bool) (neg : Bool) (p : BitVec 3) (off : BitVec 17) : RoundTrip.Statement (.call ch neg p off) := by
  intro h
  have e0 : encode (.call ch neg p off) = 0x10060000 + bit01 ch <<< 31 + bit01 neg <<< 25 + p.toNat <<< 22 + off.toNat := rfl
  have hp := p.isLt; have ho := off.isLt; have hj : 0 < 8 := by decide
  have hk : 3 < 4 := by decide
  have e : encode (.call ch neg p off) = wordB ch neg p.toNat 0 3 off.toNat := by rw [e0]; simp only [wordB, Nat.shiftLeft_eq]; omega
  rw [e]; refine ⟨wordB_lt ch neg hp hj hk ho, ?_⟩
  rw [dec4 ch neg hp hj hk ho]; delta decBranch; (try dsimp only); rw [op_wordB ch neg hp hj hk ho]; (try dsimp only)
  rw [fCh_wordB ch neg hp hj hk ho, neg_wordB ch neg hp hj hk ho, p_wordB ch neg hp hj hk ho, j_wordB ch neg hp hj hk ho, off_wordB ch neg hp hj hk ho]
  simp only [BitVec.ofNat_toNat, BitVec.setWidth_eq]
  exact (req_bind rfl).trans (finish_ok h)
theorem RoundTrip.brx (ch : Bool) (a : Src) : RoundTrip.Statement (.brx ch a) := by
  intro h
  have e0 : encode (.brx ch a) = 0x14000000 + bit01 ch <<< 31 + a.code <<< 14 := rfl
  have e : encode (.brx ch a) = wordR 5 ch 0 a.code 0 0 0 := by rw [e0]; simp only [wordR, Nat.shiftLeft_eq, bit01_false, bit01_true]; omega
  have hm : 5 < 31 := by decide
  have hi : 0 < 32 := by decide
  have hd : 0 < 64 := (by decide)
  have ha : a.code < 64 := src_lt a
  have hb : 0 < 64 := (by decide)
  have hq := (show 0 < 8 by decide)
  rw [e]; refine ⟨wordR_lt ch hm hd ha hb hi hq, ?_⟩
  rw [dec5 ch hm hd ha hb hi hq]; delta decCtrl; rw [fIdx_wordR ch hm hd ha hb hi hq]; (try dsimp only)
  simp only [fCh_wordR ch hm hd ha hb hi hq, fMod_wordR ch hm hd ha hb hi hq, fD_wordR ch hm hd ha hb hi hq, fA_wordR ch hm hd ha hb hi hq, fB_wordR ch hm hd ha hb hi hq, noM, noD, noA, noB]
  exact (gate_bind rfl rfl).trans (mkA_ok (fA_wordR ch hm hd ha hb hi hq) h)
theorem RoundTrip.join (ch : Bool) (j : BitVec 3) : RoundTrip.Statement (.join ch j) := by
  intro h
  have e0 : encode (.join ch j) = 0x14000008 + bit01 ch <<< 31 + j.toNat <<< 14 := rfl
  have e : encode (.join ch j) = wordR 5 ch 0 j.toNat 0 1 0 := by rw [e0]; simp only [wordR, Nat.shiftLeft_eq, bit01_false, bit01_true]; omega
  have hm : 5 < 31 := by decide
  have hi : 1 < 32 := by decide
  have hd : 0 < 64 := (by decide)
  have ha : j.toNat < 64 := (by have := j.isLt; omega)
  have hb : 0 < 64 := (by decide)
  have hq := (show 0 < 8 by decide)
  rw [e]; refine ⟨wordR_lt ch hm hd ha hb hi hq, ?_⟩
  rw [dec5 ch hm hd ha hb hi hq]; delta decCtrl; rw [fIdx_wordR ch hm hd ha hb hi hq]; (try dsimp only)
  simp only [fCh_wordR ch hm hd ha hb hi hq, fMod_wordR ch hm hd ha hb hi hq, fD_wordR ch hm hd ha hb hi hq, fA_wordR ch hm hd ha hb hi hq, fB_wordR ch hm hd ha hb hi hq, noM, noD, noA, noB, BitVec.ofNat_toNat, BitVec.setWidth_eq]
  exact (gate_bind rfl rfl).trans ((req_bind (decide_eq_true j.isLt)).trans (finish_ok h))
theorem RoundTrip.guard (x : PSrc) : RoundTrip.Statement (.guard x) := by
  intro h
  have e0 : encode (.guard x) = 0x94000010 + x.code <<< 14 := rfl
  have e : encode (.guard x) = wordR 5 true 0 x.code 0 2 0 := by rw [e0]; simp only [wordR, Nat.shiftLeft_eq, bit01_false, bit01_true]; omega
  have hm : 5 < 31 := by decide
  have hi : 2 < 32 := by decide
  have hd : 0 < 64 := (by decide)
  have ha : x.code < 64 := (by have := psrc_lt x; omega)
  have hb : 0 < 64 := (by decide)
  have hq := (show 0 < 8 by decide)
  rw [e]; refine ⟨wordR_lt true hm hd ha hb hi hq, ?_⟩
  rw [dec5 true hm hd ha hb hi hq]; delta decCtrl; rw [fIdx_wordR true hm hd ha hb hi hq]; (try dsimp only)
  simp only [fCh_wordR true hm hd ha hb hi hq, fMod_wordR true hm hd ha hb hi hq, fD_wordR true hm hd ha hb hi hq, fA_wordR true hm hd ha hb hi hq, fB_wordR true hm hd ha hb hi hq, noM, noD, noA, noB, psrcOf_code]
  refine (gate_bind rfl rfl).trans ((req_bind (decide_eq_true (psrc_lt x))).trans ?_)
  rw [finish_ok h]; rfl
theorem RoundTrip.rjset (ch : Bool) (j : BitVec 3) (b : Src) : RoundTrip.Statement (.rjset ch j b) := by
  intro h
  have e0 : encode (.rjset ch j b) = 0x14000018 + bit01 ch <<< 31 + j.toNat <<< 14 + b.code <<< 8 := rfl
  have e : encode (.rjset ch j b) = wordR 5 ch 0 j.toNat b.code 3 0 := by rw [e0]; simp only [wordR, Nat.shiftLeft_eq, bit01_false, bit01_true]; omega
  have hm : 5 < 31 := by decide
  have hi : 3 < 32 := by decide
  have hd : 0 < 64 := (by decide)
  have ha : j.toNat < 64 := (by have := j.isLt; omega)
  have hb : b.code < 64 := src_lt b
  have hq := (show 0 < 8 by decide)
  rw [e]; refine ⟨wordR_lt ch hm hd ha hb hi hq, ?_⟩
  rw [dec5 ch hm hd ha hb hi hq]; delta decCtrl; rw [fIdx_wordR ch hm hd ha hb hi hq]; (try dsimp only)
  simp only [fCh_wordR ch hm hd ha hb hi hq, fMod_wordR ch hm hd ha hb hi hq, fD_wordR ch hm hd ha hb hi hq, fA_wordR ch hm hd ha hb hi hq, fB_wordR ch hm hd ha hb hi hq, noM, noD, noA, noB, BitVec.ofNat_toNat, BitVec.setWidth_eq]
  refine (gate_bind rfl rfl).trans ?_
  rw [getSrc_code]; exact (req_bind (decide_eq_true j.isLt)).trans (finish_ok h)
theorem RoundTrip.rjget (ch : Bool) (d : Dst) (j : BitVec 3) : RoundTrip.Statement (.rjget ch d j) := by
  intro h
  have e0 : encode (.rjget ch d j) = 0x14000020 + bit01 ch <<< 31 + d.code <<< 20 + j.toNat <<< 14 := rfl
  have e : encode (.rjget ch d j) = wordR 5 ch d.code j.toNat 0 4 0 := by rw [e0]; simp only [wordR, Nat.shiftLeft_eq, bit01_false, bit01_true]; omega
  have hm : 5 < 31 := by decide
  have hi : 4 < 32 := by decide
  have hd : d.code < 64 := dst_lt d
  have ha : j.toNat < 64 := (by have := j.isLt; omega)
  have hb : 0 < 64 := (by decide)
  have hq := (show 0 < 8 by decide)
  rw [e]; refine ⟨wordR_lt ch hm hd ha hb hi hq, ?_⟩
  rw [dec5 ch hm hd ha hb hi hq]; delta decCtrl; rw [fIdx_wordR ch hm hd ha hb hi hq]; (try dsimp only)
  simp only [fCh_wordR ch hm hd ha hb hi hq, fMod_wordR ch hm hd ha hb hi hq, fD_wordR ch hm hd ha hb hi hq, fA_wordR ch hm hd ha hb hi hq, fB_wordR ch hm hd ha hb hi hq, noM, noD, noA, noB, BitVec.ofNat_toNat, BitVec.setWidth_eq]
  have hdo := (form_ok (i := .rjget ch d j) rfl h).2.1
  refine (gate_bind rfl rfl).trans ?_
  rw [getDst_code]; exact (req_bind hdo).trans ((req_bind (decide_eq_true j.isLt)).trans (finish_ok h))
theorem RoundTrip.fadd (ch : Bool) (d : Dst) (a : Src) (b : Src) (t : FTy) : RoundTrip.Statement (.fadd ch d a b t) := by
  intro h
  have e0 : encode (.fadd ch d a b t) = 0x18000000 + bit01 ch <<< 31 + d.code <<< 20 + a.code <<< 14 + b.code <<< 8 + t.code := rfl
  have e : encode (.fadd ch d a b t) = wordR 6 ch d.code a.code b.code 0 t.code := by rw [e0]; simp only [wordR, Nat.shiftLeft_eq, bit01_false, bit01_true]; omega
  have hm : 6 < 31 := by decide
  have hi : 0 < 32 := by decide
  have hd : d.code < 64 := dst_lt d
  have ha : a.code < 64 := src_lt a
  have hb : b.code < 64 := src_lt b
  have hq := (show t.code < 8 from Nat.lt_of_lt_of_le (fty_lt t) (by decide))
  rw [e]; refine ⟨wordR_lt ch hm hd ha hb hi hq, ?_⟩
  rw [dec6 ch hm hd ha hb hi hq]; delta decFalu; rw [fIdx_wordR ch hm hd ha hb hi hq]; (try dsimp only)
  simp only [fCh_wordR ch hm hd ha hb hi hq, fMod_wordR ch hm hd ha hb hi hq, fD_wordR ch hm hd ha hb hi hq, fA_wordR ch hm hd ha hb hi hq, fB_wordR ch hm hd ha hb hi hq, noM, noD, noA, noB, ftyOf_code]
  have ht := once_of (i := .fadd ch d a b t) rfl h
  exact (gate_bind (decide_eq_true (fty_lt t)) rfl).trans (mk3_ok (fD_wordR ch hm hd ha hb hi hq) (fA_wordR ch hm hd ha hb hi hq) (fB_wordR ch hm hd ha hb hi hq) ht h)
theorem RoundTrip.fsub (ch : Bool) (d : Dst) (a : Src) (b : Src) (t : FTy) : RoundTrip.Statement (.fsub ch d a b t) := by
  intro h
  have e0 : encode (.fsub ch d a b t) = 0x18000008 + bit01 ch <<< 31 + d.code <<< 20 + a.code <<< 14 + b.code <<< 8 + t.code := rfl
  have e : encode (.fsub ch d a b t) = wordR 6 ch d.code a.code b.code 1 t.code := by rw [e0]; simp only [wordR, Nat.shiftLeft_eq, bit01_false, bit01_true]; omega
  have hm : 6 < 31 := by decide
  have hi : 1 < 32 := by decide
  have hd : d.code < 64 := dst_lt d
  have ha : a.code < 64 := src_lt a
  have hb : b.code < 64 := src_lt b
  have hq := (show t.code < 8 from Nat.lt_of_lt_of_le (fty_lt t) (by decide))
  rw [e]; refine ⟨wordR_lt ch hm hd ha hb hi hq, ?_⟩
  rw [dec6 ch hm hd ha hb hi hq]; delta decFalu; rw [fIdx_wordR ch hm hd ha hb hi hq]; (try dsimp only)
  simp only [fCh_wordR ch hm hd ha hb hi hq, fMod_wordR ch hm hd ha hb hi hq, fD_wordR ch hm hd ha hb hi hq, fA_wordR ch hm hd ha hb hi hq, fB_wordR ch hm hd ha hb hi hq, noM, noD, noA, noB, ftyOf_code]
  have ht := once_of (i := .fsub ch d a b t) rfl h
  exact (gate_bind (decide_eq_true (fty_lt t)) rfl).trans (mk3_ok (fD_wordR ch hm hd ha hb hi hq) (fA_wordR ch hm hd ha hb hi hq) (fB_wordR ch hm hd ha hb hi hq) ht h)
theorem RoundTrip.fmul (ch : Bool) (d : Dst) (a : Src) (b : Src) (t : FTy) : RoundTrip.Statement (.fmul ch d a b t) := by
  intro h
  have e0 : encode (.fmul ch d a b t) = 0x18000010 + bit01 ch <<< 31 + d.code <<< 20 + a.code <<< 14 + b.code <<< 8 + t.code := rfl
  have e : encode (.fmul ch d a b t) = wordR 6 ch d.code a.code b.code 2 t.code := by rw [e0]; simp only [wordR, Nat.shiftLeft_eq, bit01_false, bit01_true]; omega
  have hm : 6 < 31 := by decide
  have hi : 2 < 32 := by decide
  have hd : d.code < 64 := dst_lt d
  have ha : a.code < 64 := src_lt a
  have hb : b.code < 64 := src_lt b
  have hq := (show t.code < 8 from Nat.lt_of_lt_of_le (fty_lt t) (by decide))
  rw [e]; refine ⟨wordR_lt ch hm hd ha hb hi hq, ?_⟩
  rw [dec6 ch hm hd ha hb hi hq]; delta decFalu; rw [fIdx_wordR ch hm hd ha hb hi hq]; (try dsimp only)
  simp only [fCh_wordR ch hm hd ha hb hi hq, fMod_wordR ch hm hd ha hb hi hq, fD_wordR ch hm hd ha hb hi hq, fA_wordR ch hm hd ha hb hi hq, fB_wordR ch hm hd ha hb hi hq, noM, noD, noA, noB, ftyOf_code]
  have ht := once_of (i := .fmul ch d a b t) rfl h
  exact (gate_bind (decide_eq_true (fty_lt t)) rfl).trans (mk3_ok (fD_wordR ch hm hd ha hb hi hq) (fA_wordR ch hm hd ha hb hi hq) (fB_wordR ch hm hd ha hb hi hq) ht h)
theorem RoundTrip.fmin (ch : Bool) (d : Dst) (a : Src) (b : Src) (t : FTy) : RoundTrip.Statement (.fmin ch d a b t) := by
  intro h
  have e0 : encode (.fmin ch d a b t) = 0x18000018 + bit01 ch <<< 31 + d.code <<< 20 + a.code <<< 14 + b.code <<< 8 + t.code := rfl
  have e : encode (.fmin ch d a b t) = wordR 6 ch d.code a.code b.code 3 t.code := by rw [e0]; simp only [wordR, Nat.shiftLeft_eq, bit01_false, bit01_true]; omega
  have hm : 6 < 31 := by decide
  have hi : 3 < 32 := by decide
  have hd : d.code < 64 := dst_lt d
  have ha : a.code < 64 := src_lt a
  have hb : b.code < 64 := src_lt b
  have hq := (show t.code < 8 from Nat.lt_of_lt_of_le (fty_lt t) (by decide))
  rw [e]; refine ⟨wordR_lt ch hm hd ha hb hi hq, ?_⟩
  rw [dec6 ch hm hd ha hb hi hq]; delta decFalu; rw [fIdx_wordR ch hm hd ha hb hi hq]; (try dsimp only)
  simp only [fCh_wordR ch hm hd ha hb hi hq, fMod_wordR ch hm hd ha hb hi hq, fD_wordR ch hm hd ha hb hi hq, fA_wordR ch hm hd ha hb hi hq, fB_wordR ch hm hd ha hb hi hq, noM, noD, noA, noB, ftyOf_code]
  have ht := once_of (i := .fmin ch d a b t) rfl h
  exact (gate_bind (decide_eq_true (fty_lt t)) rfl).trans (mk3_ok (fD_wordR ch hm hd ha hb hi hq) (fA_wordR ch hm hd ha hb hi hq) (fB_wordR ch hm hd ha hb hi hq) ht h)
theorem RoundTrip.fmax (ch : Bool) (d : Dst) (a : Src) (b : Src) (t : FTy) : RoundTrip.Statement (.fmax ch d a b t) := by
  intro h
  have e0 : encode (.fmax ch d a b t) = 0x18000020 + bit01 ch <<< 31 + d.code <<< 20 + a.code <<< 14 + b.code <<< 8 + t.code := rfl
  have e : encode (.fmax ch d a b t) = wordR 6 ch d.code a.code b.code 4 t.code := by rw [e0]; simp only [wordR, Nat.shiftLeft_eq, bit01_false, bit01_true]; omega
  have hm : 6 < 31 := by decide
  have hi : 4 < 32 := by decide
  have hd : d.code < 64 := dst_lt d
  have ha : a.code < 64 := src_lt a
  have hb : b.code < 64 := src_lt b
  have hq := (show t.code < 8 from Nat.lt_of_lt_of_le (fty_lt t) (by decide))
  rw [e]; refine ⟨wordR_lt ch hm hd ha hb hi hq, ?_⟩
  rw [dec6 ch hm hd ha hb hi hq]; delta decFalu; rw [fIdx_wordR ch hm hd ha hb hi hq]; (try dsimp only)
  simp only [fCh_wordR ch hm hd ha hb hi hq, fMod_wordR ch hm hd ha hb hi hq, fD_wordR ch hm hd ha hb hi hq, fA_wordR ch hm hd ha hb hi hq, fB_wordR ch hm hd ha hb hi hq, noM, noD, noA, noB, ftyOf_code]
  have ht := once_of (i := .fmax ch d a b t) rfl h
  exact (gate_bind (decide_eq_true (fty_lt t)) rfl).trans (mk3_ok (fD_wordR ch hm hd ha hb hi hq) (fA_wordR ch hm hd ha hb hi hq) (fB_wordR ch hm hd ha hb hi hq) ht h)
theorem RoundTrip.fminm (ch : Bool) (d : Dst) (a : Src) (b : Src) (t : FTy) : RoundTrip.Statement (.fminm ch d a b t) := by
  intro h
  have e0 : encode (.fminm ch d a b t) = 0x18000028 + bit01 ch <<< 31 + d.code <<< 20 + a.code <<< 14 + b.code <<< 8 + t.code := rfl
  have e : encode (.fminm ch d a b t) = wordR 6 ch d.code a.code b.code 5 t.code := by rw [e0]; simp only [wordR, Nat.shiftLeft_eq, bit01_false, bit01_true]; omega
  have hm : 6 < 31 := by decide
  have hi : 5 < 32 := by decide
  have hd : d.code < 64 := dst_lt d
  have ha : a.code < 64 := src_lt a
  have hb : b.code < 64 := src_lt b
  have hq := (show t.code < 8 from Nat.lt_of_lt_of_le (fty_lt t) (by decide))
  rw [e]; refine ⟨wordR_lt ch hm hd ha hb hi hq, ?_⟩
  rw [dec6 ch hm hd ha hb hi hq]; delta decFalu; rw [fIdx_wordR ch hm hd ha hb hi hq]; (try dsimp only)
  simp only [fCh_wordR ch hm hd ha hb hi hq, fMod_wordR ch hm hd ha hb hi hq, fD_wordR ch hm hd ha hb hi hq, fA_wordR ch hm hd ha hb hi hq, fB_wordR ch hm hd ha hb hi hq, noM, noD, noA, noB, ftyOf_code]
  have ht := once_of (i := .fminm ch d a b t) rfl h
  exact (gate_bind (decide_eq_true (fty_lt t)) rfl).trans (mk3_ok (fD_wordR ch hm hd ha hb hi hq) (fA_wordR ch hm hd ha hb hi hq) (fB_wordR ch hm hd ha hb hi hq) ht h)
theorem RoundTrip.fmaxm (ch : Bool) (d : Dst) (a : Src) (b : Src) (t : FTy) : RoundTrip.Statement (.fmaxm ch d a b t) := by
  intro h
  have e0 : encode (.fmaxm ch d a b t) = 0x18000030 + bit01 ch <<< 31 + d.code <<< 20 + a.code <<< 14 + b.code <<< 8 + t.code := rfl
  have e : encode (.fmaxm ch d a b t) = wordR 6 ch d.code a.code b.code 6 t.code := by rw [e0]; simp only [wordR, Nat.shiftLeft_eq, bit01_false, bit01_true]; omega
  have hm : 6 < 31 := by decide
  have hi : 6 < 32 := by decide
  have hd : d.code < 64 := dst_lt d
  have ha : a.code < 64 := src_lt a
  have hb : b.code < 64 := src_lt b
  have hq := (show t.code < 8 from Nat.lt_of_lt_of_le (fty_lt t) (by decide))
  rw [e]; refine ⟨wordR_lt ch hm hd ha hb hi hq, ?_⟩
  rw [dec6 ch hm hd ha hb hi hq]; delta decFalu; rw [fIdx_wordR ch hm hd ha hb hi hq]; (try dsimp only)
  simp only [fCh_wordR ch hm hd ha hb hi hq, fMod_wordR ch hm hd ha hb hi hq, fD_wordR ch hm hd ha hb hi hq, fA_wordR ch hm hd ha hb hi hq, fB_wordR ch hm hd ha hb hi hq, noM, noD, noA, noB, ftyOf_code]
  have ht := once_of (i := .fmaxm ch d a b t) rfl h
  exact (gate_bind (decide_eq_true (fty_lt t)) rfl).trans (mk3_ok (fD_wordR ch hm hd ha hb hi hq) (fA_wordR ch hm hd ha hb hi hq) (fB_wordR ch hm hd ha hb hi hq) ht h)
theorem RoundTrip.fabs (ch : Bool) (d : Dst) (a : Src) (t : FTy) : RoundTrip.Statement (.fabs ch d a t) := by
  intro h
  have e0 : encode (.fabs ch d a t) = 0x18000038 + bit01 ch <<< 31 + d.code <<< 20 + a.code <<< 14 + t.code := rfl
  have e : encode (.fabs ch d a t) = wordR 6 ch d.code a.code 0 7 t.code := by rw [e0]; simp only [wordR, Nat.shiftLeft_eq, bit01_false, bit01_true]; omega
  have hm : 6 < 31 := by decide
  have hi : 7 < 32 := by decide
  have hd : d.code < 64 := dst_lt d
  have ha : a.code < 64 := src_lt a
  have hb : 0 < 64 := (by decide)
  have hq := (show t.code < 8 from Nat.lt_of_lt_of_le (fty_lt t) (by decide))
  rw [e]; refine ⟨wordR_lt ch hm hd ha hb hi hq, ?_⟩
  rw [dec6 ch hm hd ha hb hi hq]; delta decFalu; rw [fIdx_wordR ch hm hd ha hb hi hq]; (try dsimp only)
  simp only [fCh_wordR ch hm hd ha hb hi hq, fMod_wordR ch hm hd ha hb hi hq, fD_wordR ch hm hd ha hb hi hq, fA_wordR ch hm hd ha hb hi hq, fB_wordR ch hm hd ha hb hi hq, noM, noD, noA, noB, ftyOf_code]
  exact (gate_bind (decide_eq_true (fty_lt t)) rfl).trans (mk2_ok (fD_wordR ch hm hd ha hb hi hq) (fA_wordR ch hm hd ha hb hi hq) h)
theorem RoundTrip.fneg (ch : Bool) (d : Dst) (a : Src) (t : FTy) : RoundTrip.Statement (.fneg ch d a t) := by
  intro h
  have e0 : encode (.fneg ch d a t) = 0x18000040 + bit01 ch <<< 31 + d.code <<< 20 + a.code <<< 14 + t.code := rfl
  have e : encode (.fneg ch d a t) = wordR 6 ch d.code a.code 0 8 t.code := by rw [e0]; simp only [wordR, Nat.shiftLeft_eq, bit01_false, bit01_true]; omega
  have hm : 6 < 31 := by decide
  have hi : 8 < 32 := by decide
  have hd : d.code < 64 := dst_lt d
  have ha : a.code < 64 := src_lt a
  have hb : 0 < 64 := (by decide)
  have hq := (show t.code < 8 from Nat.lt_of_lt_of_le (fty_lt t) (by decide))
  rw [e]; refine ⟨wordR_lt ch hm hd ha hb hi hq, ?_⟩
  rw [dec6 ch hm hd ha hb hi hq]; delta decFalu; rw [fIdx_wordR ch hm hd ha hb hi hq]; (try dsimp only)
  simp only [fCh_wordR ch hm hd ha hb hi hq, fMod_wordR ch hm hd ha hb hi hq, fD_wordR ch hm hd ha hb hi hq, fA_wordR ch hm hd ha hb hi hq, fB_wordR ch hm hd ha hb hi hq, noM, noD, noA, noB, ftyOf_code]
  exact (gate_bind (decide_eq_true (fty_lt t)) rfl).trans (mk2_ok (fD_wordR ch hm hd ha hb hi hq) (fA_wordR ch hm hd ha hb hi hq) h)
theorem RoundTrip.fcopysign (ch : Bool) (d : Dst) (a : Src) (b : Src) (t : FTy) : RoundTrip.Statement (.fcopysign ch d a b t) := by
  intro h
  have e0 : encode (.fcopysign ch d a b t) = 0x18000048 + bit01 ch <<< 31 + d.code <<< 20 + a.code <<< 14 + b.code <<< 8 + t.code := rfl
  have e : encode (.fcopysign ch d a b t) = wordR 6 ch d.code a.code b.code 9 t.code := by rw [e0]; simp only [wordR, Nat.shiftLeft_eq, bit01_false, bit01_true]; omega
  have hm : 6 < 31 := by decide
  have hi : 9 < 32 := by decide
  have hd : d.code < 64 := dst_lt d
  have ha : a.code < 64 := src_lt a
  have hb : b.code < 64 := src_lt b
  have hq := (show t.code < 8 from Nat.lt_of_lt_of_le (fty_lt t) (by decide))
  rw [e]; refine ⟨wordR_lt ch hm hd ha hb hi hq, ?_⟩
  rw [dec6 ch hm hd ha hb hi hq]; delta decFalu; rw [fIdx_wordR ch hm hd ha hb hi hq]; (try dsimp only)
  simp only [fCh_wordR ch hm hd ha hb hi hq, fMod_wordR ch hm hd ha hb hi hq, fD_wordR ch hm hd ha hb hi hq, fA_wordR ch hm hd ha hb hi hq, fB_wordR ch hm hd ha hb hi hq, noM, noD, noA, noB, ftyOf_code]
  have ht := once_of (i := .fcopysign ch d a b t) rfl h
  exact (gate_bind (decide_eq_true (fty_lt t)) rfl).trans (mk3_ok (fD_wordR ch hm hd ha hb hi hq) (fA_wordR ch hm hd ha hb hi hq) (fB_wordR ch hm hd ha hb hi hq) ht h)
theorem RoundTrip.fround (ch : Bool) (d : Dst) (a : Src) (r : BitVec 3) (t : FTy) : RoundTrip.Statement (.fround ch d a r t) := by
  intro h
  have e0 : encode (.fround ch d a r t) = 0x18000050 + bit01 ch <<< 31 + d.code <<< 20 + a.code <<< 14 + r.toNat <<< 8 + t.code := rfl
  have e : encode (.fround ch d a r t) = wordR 6 ch d.code a.code r.toNat 10 t.code := by rw [e0]; simp only [wordR, Nat.shiftLeft_eq, bit01_false, bit01_true]; omega
  have hm : 6 < 31 := by decide
  have hi : 10 < 32 := by decide
  have hd : d.code < 64 := dst_lt d
  have ha : a.code < 64 := src_lt a
  have hb : r.toNat < 64 := (by have := r.isLt; omega)
  have hq := (show t.code < 8 from Nat.lt_of_lt_of_le (fty_lt t) (by decide))
  rw [e]; refine ⟨wordR_lt ch hm hd ha hb hi hq, ?_⟩
  rw [dec6 ch hm hd ha hb hi hq]; delta decFalu; rw [fIdx_wordR ch hm hd ha hb hi hq]; (try dsimp only)
  simp only [fCh_wordR ch hm hd ha hb hi hq, fMod_wordR ch hm hd ha hb hi hq, fD_wordR ch hm hd ha hb hi hq, fA_wordR ch hm hd ha hb hi hq, fB_wordR ch hm hd ha hb hi hq, noM, noD, noA, noB, ftyOf_code, BitVec.ofNat_toNat, BitVec.setWidth_eq]
  refine (gate_bind (decide_eq_true (fty_lt t)) rfl).trans ?_
  rw [getSrc_code, getDst_code]; exact (req_bind (by rw [Bool.or_eq_true]; exact .inl (decide_eq_true r.isLt))).trans (finish_ok h)
theorem RoundTrip.twosum (ch : Bool) (d : Dst) (a : Src) (b : Src) : RoundTrip.Statement (.twosum ch d a b) := by
  intro h
  have e0 : encode (.twosum ch d a b) = 0x18000058 + bit01 ch <<< 31 + d.code <<< 20 + a.code <<< 14 + b.code <<< 8 := rfl
  have e : encode (.twosum ch d a b) = wordR 6 ch d.code a.code b.code 11 0 := by rw [e0]; simp only [wordR, Nat.shiftLeft_eq, bit01_false, bit01_true]; omega
  have hm : 6 < 31 := by decide
  have hi : 11 < 32 := by decide
  have hd : d.code < 64 := dst_lt d
  have ha : a.code < 64 := src_lt a
  have hb : b.code < 64 := src_lt b
  have hq := (show 0 < 8 by decide)
  rw [e]; refine ⟨wordR_lt ch hm hd ha hb hi hq, ?_⟩
  rw [dec6 ch hm hd ha hb hi hq]; delta decFalu; rw [fIdx_wordR ch hm hd ha hb hi hq]; (try dsimp only)
  simp only [fCh_wordR ch hm hd ha hb hi hq, fMod_wordR ch hm hd ha hb hi hq, fD_wordR ch hm hd ha hb hi hq, fA_wordR ch hm hd ha hb hi hq, fB_wordR ch hm hd ha hb hi hq, noM, noD, noA, noB]
  have ht := once_of (i := .twosum ch d a b) rfl h
  exact (gate_bind rfl rfl).trans (mk3_ok (fD_wordR ch hm hd ha hb hi hq) (fA_wordR ch hm hd ha hb hi hq) (fB_wordR ch hm hd ha hb hi hq) ht h)
theorem RoundTrip.ffmaF32 (ch : Bool) (d : Dst) (a : Src) (b : Src) (g : Src) : RoundTrip.Statement (.ffmaF32 ch d a b g) := by
  intro h
  have e0 : encode (.ffmaF32 ch d a b g) = 0x1C000000 + bit01 ch <<< 31 + d.code <<< 20 + a.code <<< 14 + b.code <<< 8 + g.code <<< 2 := rfl
  have e : encode (.ffmaF32 ch d a b g) = wordQ 7 ch d.code a.code b.code g.code 0 := by rw [e0]; simp only [wordQ, Nat.shiftLeft_eq]; omega
  have hd := dst_lt d; have ha := src_lt a; have hb := src_lt b; have hg := src_lt g
  have hm : 7 < 31 := by decide
  have ho : 0 < 4 := by decide
  rw [e]; refine ⟨wordQ_lt ch hm hd ha hb hg ho, ?_⟩
  rw [dec7 ch hm hd ha hb hg ho]; delta decFfma; rw [op_wordQ ch hm hd ha hb hg ho]; (try dsimp only); rw [fCh_wordQ ch hm hd ha hb hg ho]
  have ht := once_of (i := .ffmaF32 ch d a b g) rfl h
  exact mk4_ok (fD_wordQ ch hm hd ha hb hg ho) (fA_wordQ ch hm hd ha hb hg ho) (fB_wordQ ch hm hd ha hb hg ho) (fC_wordQ ch hm hd ha hb hg ho) ht h
theorem RoundTrip.ffmaF16x2 (ch : Bool) (d : Dst) (a : Src) (b : Src) (g : Src) : RoundTrip.Statement (.ffmaF16x2 ch d a b g) := by
  intro h
  have e0 : encode (.ffmaF16x2 ch d a b g) = 0x1C000001 + bit01 ch <<< 31 + d.code <<< 20 + a.code <<< 14 + b.code <<< 8 + g.code <<< 2 := rfl
  have e : encode (.ffmaF16x2 ch d a b g) = wordQ 7 ch d.code a.code b.code g.code 1 := by rw [e0]; simp only [wordQ, Nat.shiftLeft_eq]; omega
  have hd := dst_lt d; have ha := src_lt a; have hb := src_lt b; have hg := src_lt g
  have hm : 7 < 31 := by decide
  have ho : 1 < 4 := by decide
  rw [e]; refine ⟨wordQ_lt ch hm hd ha hb hg ho, ?_⟩
  rw [dec7 ch hm hd ha hb hg ho]; delta decFfma; rw [op_wordQ ch hm hd ha hb hg ho]; (try dsimp only); rw [fCh_wordQ ch hm hd ha hb hg ho]
  have ht := once_of (i := .ffmaF16x2 ch d a b g) rfl h
  exact mk4_ok (fD_wordQ ch hm hd ha hb hg ho) (fA_wordQ ch hm hd ha hb hg ho) (fB_wordQ ch hm hd ha hb hg ho) (fC_wordQ ch hm hd ha hb hg ho) ht h
theorem RoundTrip.ffmaBf16x2 (ch : Bool) (d : Dst) (a : Src) (b : Src) (g : Src) : RoundTrip.Statement (.ffmaBf16x2 ch d a b g) := by
  intro h
  have e0 : encode (.ffmaBf16x2 ch d a b g) = 0x1C000002 + bit01 ch <<< 31 + d.code <<< 20 + a.code <<< 14 + b.code <<< 8 + g.code <<< 2 := rfl
  have e : encode (.ffmaBf16x2 ch d a b g) = wordQ 7 ch d.code a.code b.code g.code 2 := by rw [e0]; simp only [wordQ, Nat.shiftLeft_eq]; omega
  have hd := dst_lt d; have ha := src_lt a; have hb := src_lt b; have hg := src_lt g
  have hm : 7 < 31 := by decide
  have ho : 2 < 4 := by decide
  rw [e]; refine ⟨wordQ_lt ch hm hd ha hb hg ho, ?_⟩
  rw [dec7 ch hm hd ha hb hg ho]; delta decFfma; rw [op_wordQ ch hm hd ha hb hg ho]; (try dsimp only); rw [fCh_wordQ ch hm hd ha hb hg ho]
  have ht := once_of (i := .ffmaBf16x2 ch d a b g) rfl h
  exact mk4_ok (fD_wordQ ch hm hd ha hb hg ho) (fA_wordQ ch hm hd ha hb hg ho) (fB_wordQ ch hm hd ha hb hg ho) (fC_wordQ ch hm hd ha hb hg ho) ht h
theorem RoundTrip.ffnmaF32 (ch : Bool) (d : Dst) (a : Src) (b : Src) (g : Src) : RoundTrip.Statement (.ffnmaF32 ch d a b g) := by
  intro h
  have e0 : encode (.ffnmaF32 ch d a b g) = 0x68000000 + bit01 ch <<< 31 + d.code <<< 20 + a.code <<< 14 + b.code <<< 8 + g.code <<< 2 := rfl
  have e : encode (.ffnmaF32 ch d a b g) = wordQ 26 ch d.code a.code b.code g.code 0 := by rw [e0]; simp only [wordQ, Nat.shiftLeft_eq]; omega
  have hd := dst_lt d; have ha := src_lt a; have hb := src_lt b; have hg := src_lt g
  have hm : 26 < 31 := by decide
  have ho : 0 < 4 := by decide
  rw [e]; refine ⟨wordQ_lt ch hm hd ha hb hg ho, ?_⟩
  rw [dec26 ch hm hd ha hb hg ho]; delta decFfma; rw [op_wordQ ch hm hd ha hb hg ho]; (try dsimp only); rw [fCh_wordQ ch hm hd ha hb hg ho]
  have ht := once_of (i := .ffnmaF32 ch d a b g) rfl h
  exact mk4_ok (fD_wordQ ch hm hd ha hb hg ho) (fA_wordQ ch hm hd ha hb hg ho) (fB_wordQ ch hm hd ha hb hg ho) (fC_wordQ ch hm hd ha hb hg ho) ht h
theorem RoundTrip.ffnmaF16x2 (ch : Bool) (d : Dst) (a : Src) (b : Src) (g : Src) : RoundTrip.Statement (.ffnmaF16x2 ch d a b g) := by
  intro h
  have e0 : encode (.ffnmaF16x2 ch d a b g) = 0x68000001 + bit01 ch <<< 31 + d.code <<< 20 + a.code <<< 14 + b.code <<< 8 + g.code <<< 2 := rfl
  have e : encode (.ffnmaF16x2 ch d a b g) = wordQ 26 ch d.code a.code b.code g.code 1 := by rw [e0]; simp only [wordQ, Nat.shiftLeft_eq]; omega
  have hd := dst_lt d; have ha := src_lt a; have hb := src_lt b; have hg := src_lt g
  have hm : 26 < 31 := by decide
  have ho : 1 < 4 := by decide
  rw [e]; refine ⟨wordQ_lt ch hm hd ha hb hg ho, ?_⟩
  rw [dec26 ch hm hd ha hb hg ho]; delta decFfma; rw [op_wordQ ch hm hd ha hb hg ho]; (try dsimp only); rw [fCh_wordQ ch hm hd ha hb hg ho]
  have ht := once_of (i := .ffnmaF16x2 ch d a b g) rfl h
  exact mk4_ok (fD_wordQ ch hm hd ha hb hg ho) (fA_wordQ ch hm hd ha hb hg ho) (fB_wordQ ch hm hd ha hb hg ho) (fC_wordQ ch hm hd ha hb hg ho) ht h
theorem RoundTrip.ffnmaBf16x2 (ch : Bool) (d : Dst) (a : Src) (b : Src) (g : Src) : RoundTrip.Statement (.ffnmaBf16x2 ch d a b g) := by
  intro h
  have e0 : encode (.ffnmaBf16x2 ch d a b g) = 0x68000002 + bit01 ch <<< 31 + d.code <<< 20 + a.code <<< 14 + b.code <<< 8 + g.code <<< 2 := rfl
  have e : encode (.ffnmaBf16x2 ch d a b g) = wordQ 26 ch d.code a.code b.code g.code 2 := by rw [e0]; simp only [wordQ, Nat.shiftLeft_eq]; omega
  have hd := dst_lt d; have ha := src_lt a; have hb := src_lt b; have hg := src_lt g
  have hm : 26 < 31 := by decide
  have ho : 2 < 4 := by decide
  rw [e]; refine ⟨wordQ_lt ch hm hd ha hb hg ho, ?_⟩
  rw [dec26 ch hm hd ha hb hg ho]; delta decFfma; rw [op_wordQ ch hm hd ha hb hg ho]; (try dsimp only); rw [fCh_wordQ ch hm hd ha hb hg ho]
  have ht := once_of (i := .ffnmaBf16x2 ch d a b g) rfl h
  exact mk4_ok (fD_wordQ ch hm hd ha hb hg ho) (fA_wordQ ch hm hd ha hb hg ho) (fB_wordQ ch hm hd ha hb hg ho) (fC_wordQ ch hm hd ha hb hg ho) ht h
theorem RoundTrip.frcp (ch : Bool) (d : Dst) (a : Src) (half : Bool) : RoundTrip.Statement (.frcp ch d a half) := by
  intro h
  have e0 : encode (.frcp ch d a half) = 0x20000000 + bit01 ch <<< 31 + d.code <<< 20 + a.code <<< 14 + bit01 half := rfl
  have e : encode (.frcp ch d a half) = wordR 8 ch d.code a.code 0 0 (bit01 false * 4 + bit01 false * 2 + bit01 half) := by rw [e0]; simp only [wordR, Nat.shiftLeft_eq, bit01_false, bit01_true]; omega
  have hm : 8 < 31 := by decide
  have hi : 0 < 32 := by decide
  have hd : d.code < 64 := dst_lt d
  have ha : a.code < 64 := src_lt a
  have hb : 0 < 64 := (by decide)
  have hq := (bits3_lt false false half)
  rw [e]; refine ⟨wordR_lt ch hm hd ha hb hi hq, ?_⟩
  rw [dec8 ch hm hd ha hb hi hq]; delta decFspec; rw [fIdx_wordR ch hm hd ha hb hi hq]; (try dsimp only)
  simp only [fCh_wordR ch hm hd ha hb hi hq, bitAt_wordR ch hm hd ha hb hi hq (show 2 < 3 by decide), bitAt_wordR ch hm hd ha hb hi hq (show 1 < 3 by decide), bitAt_wordR ch hm hd ha hb hi hq (show 0 < 3 by decide), bits3_2, bits3_1, bits3_0, fMod_wordR ch hm hd ha hb hi hq, fD_wordR ch hm hd ha hb hi hq, fA_wordR ch hm hd ha hb hi hq, fB_wordR ch hm hd ha hb hi hq, noM, noD, noA, noB]
  exact (gate_bind (decide_eq_true (half_lt half)) rfl).trans (mk2_ok (fD_wordR ch hm hd ha hb hi hq) (fA_wordR ch hm hd ha hb hi hq) h)
theorem RoundTrip.frsq (ch : Bool) (d : Dst) (a : Src) (half : Bool) : RoundTrip.Statement (.frsq ch d a half) := by
  intro h
  have e0 : encode (.frsq ch d a half) = 0x20000008 + bit01 ch <<< 31 + d.code <<< 20 + a.code <<< 14 + bit01 half := rfl
  have e : encode (.frsq ch d a half) = wordR 8 ch d.code a.code 0 1 (bit01 false * 4 + bit01 false * 2 + bit01 half) := by rw [e0]; simp only [wordR, Nat.shiftLeft_eq, bit01_false, bit01_true]; omega
  have hm : 8 < 31 := by decide
  have hi : 1 < 32 := by decide
  have hd : d.code < 64 := dst_lt d
  have ha : a.code < 64 := src_lt a
  have hb : 0 < 64 := (by decide)
  have hq := (bits3_lt false false half)
  rw [e]; refine ⟨wordR_lt ch hm hd ha hb hi hq, ?_⟩
  rw [dec8 ch hm hd ha hb hi hq]; delta decFspec; rw [fIdx_wordR ch hm hd ha hb hi hq]; (try dsimp only)
  simp only [fCh_wordR ch hm hd ha hb hi hq, bitAt_wordR ch hm hd ha hb hi hq (show 2 < 3 by decide), bitAt_wordR ch hm hd ha hb hi hq (show 1 < 3 by decide), bitAt_wordR ch hm hd ha hb hi hq (show 0 < 3 by decide), bits3_2, bits3_1, bits3_0, fMod_wordR ch hm hd ha hb hi hq, fD_wordR ch hm hd ha hb hi hq, fA_wordR ch hm hd ha hb hi hq, fB_wordR ch hm hd ha hb hi hq, noM, noD, noA, noB]
  exact (gate_bind (decide_eq_true (half_lt half)) rfl).trans (mk2_ok (fD_wordR ch hm hd ha hb hi hq) (fA_wordR ch hm hd ha hb hi hq) h)
theorem RoundTrip.fsqrt (ch : Bool) (d : Dst) (a : Src) (half : Bool) : RoundTrip.Statement (.fsqrt ch d a half) := by
  intro h
  have e0 : encode (.fsqrt ch d a half) = 0x20000010 + bit01 ch <<< 31 + d.code <<< 20 + a.code <<< 14 + bit01 half := rfl
  have e : encode (.fsqrt ch d a half) = wordR 8 ch d.code a.code 0 2 (bit01 false * 4 + bit01 false * 2 + bit01 half) := by rw [e0]; simp only [wordR, Nat.shiftLeft_eq, bit01_false, bit01_true]; omega
  have hm : 8 < 31 := by decide
  have hi : 2 < 32 := by decide
  have hd : d.code < 64 := dst_lt d
  have ha : a.code < 64 := src_lt a
  have hb : 0 < 64 := (by decide)
  have hq := (bits3_lt false false half)
  rw [e]; refine ⟨wordR_lt ch hm hd ha hb hi hq, ?_⟩
  rw [dec8 ch hm hd ha hb hi hq]; delta decFspec; rw [fIdx_wordR ch hm hd ha hb hi hq]; (try dsimp only)
  simp only [fCh_wordR ch hm hd ha hb hi hq, bitAt_wordR ch hm hd ha hb hi hq (show 2 < 3 by decide), bitAt_wordR ch hm hd ha hb hi hq (show 1 < 3 by decide), bitAt_wordR ch hm hd ha hb hi hq (show 0 < 3 by decide), bits3_2, bits3_1, bits3_0, fMod_wordR ch hm hd ha hb hi hq, fD_wordR ch hm hd ha hb hi hq, fA_wordR ch hm hd ha hb hi hq, fB_wordR ch hm hd ha hb hi hq, noM, noD, noA, noB]
  exact (gate_bind (decide_eq_true (half_lt half)) rfl).trans (mk2_ok (fD_wordR ch hm hd ha hb hi hq) (fA_wordR ch hm hd ha hb hi hq) h)
theorem RoundTrip.fexp2 (ch : Bool) (d : Dst) (a : Src) (half : Bool) : RoundTrip.Statement (.fexp2 ch d a half) := by
  intro h
  have e0 : encode (.fexp2 ch d a half) = 0x20000018 + bit01 ch <<< 31 + d.code <<< 20 + a.code <<< 14 + bit01 half := rfl
  have e : encode (.fexp2 ch d a half) = wordR 8 ch d.code a.code 0 3 (bit01 false * 4 + bit01 false * 2 + bit01 half) := by rw [e0]; simp only [wordR, Nat.shiftLeft_eq, bit01_false, bit01_true]; omega
  have hm : 8 < 31 := by decide
  have hi : 3 < 32 := by decide
  have hd : d.code < 64 := dst_lt d
  have ha : a.code < 64 := src_lt a
  have hb : 0 < 64 := (by decide)
  have hq := (bits3_lt false false half)
  rw [e]; refine ⟨wordR_lt ch hm hd ha hb hi hq, ?_⟩
  rw [dec8 ch hm hd ha hb hi hq]; delta decFspec; rw [fIdx_wordR ch hm hd ha hb hi hq]; (try dsimp only)
  simp only [fCh_wordR ch hm hd ha hb hi hq, bitAt_wordR ch hm hd ha hb hi hq (show 2 < 3 by decide), bitAt_wordR ch hm hd ha hb hi hq (show 1 < 3 by decide), bitAt_wordR ch hm hd ha hb hi hq (show 0 < 3 by decide), bits3_2, bits3_1, bits3_0, fMod_wordR ch hm hd ha hb hi hq, fD_wordR ch hm hd ha hb hi hq, fA_wordR ch hm hd ha hb hi hq, fB_wordR ch hm hd ha hb hi hq, noM, noD, noA, noB]
  exact (gate_bind (decide_eq_true (half_lt half)) rfl).trans (mk2_ok (fD_wordR ch hm hd ha hb hi hq) (fA_wordR ch hm hd ha hb hi hq) h)
theorem RoundTrip.flog2 (ch : Bool) (d : Dst) (a : Src) (half : Bool) : RoundTrip.Statement (.flog2 ch d a half) := by
  intro h
  have e0 : encode (.flog2 ch d a half) = 0x20000020 + bit01 ch <<< 31 + d.code <<< 20 + a.code <<< 14 + bit01 half := rfl
  have e : encode (.flog2 ch d a half) = wordR 8 ch d.code a.code 0 4 (bit01 false * 4 + bit01 false * 2 + bit01 half) := by rw [e0]; simp only [wordR, Nat.shiftLeft_eq, bit01_false, bit01_true]; omega
  have hm : 8 < 31 := by decide
  have hi : 4 < 32 := by decide
  have hd : d.code < 64 := dst_lt d
  have ha : a.code < 64 := src_lt a
  have hb : 0 < 64 := (by decide)
  have hq := (bits3_lt false false half)
  rw [e]; refine ⟨wordR_lt ch hm hd ha hb hi hq, ?_⟩
  rw [dec8 ch hm hd ha hb hi hq]; delta decFspec; rw [fIdx_wordR ch hm hd ha hb hi hq]; (try dsimp only)
  simp only [fCh_wordR ch hm hd ha hb hi hq, bitAt_wordR ch hm hd ha hb hi hq (show 2 < 3 by decide), bitAt_wordR ch hm hd ha hb hi hq (show 1 < 3 by decide), bitAt_wordR ch hm hd ha hb hi hq (show 0 < 3 by decide), bits3_2, bits3_1, bits3_0, fMod_wordR ch hm hd ha hb hi hq, fD_wordR ch hm hd ha hb hi hq, fA_wordR ch hm hd ha hb hi hq, fB_wordR ch hm hd ha hb hi hq, noM, noD, noA, noB]
  exact (gate_bind (decide_eq_true (half_lt half)) rfl).trans (mk2_ok (fD_wordR ch hm hd ha hb hi hq) (fA_wordR ch hm hd ha hb hi hq) h)
theorem RoundTrip.fsin (ch : Bool) (d : Dst) (a : Src) (half : Bool) : RoundTrip.Statement (.fsin ch d a half) := by
  intro h
  have e0 : encode (.fsin ch d a half) = 0x20000028 + bit01 ch <<< 31 + d.code <<< 20 + a.code <<< 14 + bit01 half := rfl
  have e : encode (.fsin ch d a half) = wordR 8 ch d.code a.code 0 5 (bit01 false * 4 + bit01 false * 2 + bit01 half) := by rw [e0]; simp only [wordR, Nat.shiftLeft_eq, bit01_false, bit01_true]; omega
  have hm : 8 < 31 := by decide
  have hi : 5 < 32 := by decide
  have hd : d.code < 64 := dst_lt d
  have ha : a.code < 64 := src_lt a
  have hb : 0 < 64 := (by decide)
  have hq := (bits3_lt false false half)
  rw [e]; refine ⟨wordR_lt ch hm hd ha hb hi hq, ?_⟩
  rw [dec8 ch hm hd ha hb hi hq]; delta decFspec; rw [fIdx_wordR ch hm hd ha hb hi hq]; (try dsimp only)
  simp only [fCh_wordR ch hm hd ha hb hi hq, bitAt_wordR ch hm hd ha hb hi hq (show 2 < 3 by decide), bitAt_wordR ch hm hd ha hb hi hq (show 1 < 3 by decide), bitAt_wordR ch hm hd ha hb hi hq (show 0 < 3 by decide), bits3_2, bits3_1, bits3_0, fMod_wordR ch hm hd ha hb hi hq, fD_wordR ch hm hd ha hb hi hq, fA_wordR ch hm hd ha hb hi hq, fB_wordR ch hm hd ha hb hi hq, noM, noD, noA, noB]
  exact (gate_bind (decide_eq_true (half_lt half)) rfl).trans (mk2_ok (fD_wordR ch hm hd ha hb hi hq) (fA_wordR ch hm hd ha hb hi hq) h)
theorem RoundTrip.fcos (ch : Bool) (d : Dst) (a : Src) (half : Bool) : RoundTrip.Statement (.fcos ch d a half) := by
  intro h
  have e0 : encode (.fcos ch d a half) = 0x20000030 + bit01 ch <<< 31 + d.code <<< 20 + a.code <<< 14 + bit01 half := rfl
  have e : encode (.fcos ch d a half) = wordR 8 ch d.code a.code 0 6 (bit01 false * 4 + bit01 false * 2 + bit01 half) := by rw [e0]; simp only [wordR, Nat.shiftLeft_eq, bit01_false, bit01_true]; omega
  have hm : 8 < 31 := by decide
  have hi : 6 < 32 := by decide
  have hd : d.code < 64 := dst_lt d
  have ha : a.code < 64 := src_lt a
  have hb : 0 < 64 := (by decide)
  have hq := (bits3_lt false false half)
  rw [e]; refine ⟨wordR_lt ch hm hd ha hb hi hq, ?_⟩
  rw [dec8 ch hm hd ha hb hi hq]; delta decFspec; rw [fIdx_wordR ch hm hd ha hb hi hq]; (try dsimp only)
  simp only [fCh_wordR ch hm hd ha hb hi hq, bitAt_wordR ch hm hd ha hb hi hq (show 2 < 3 by decide), bitAt_wordR ch hm hd ha hb hi hq (show 1 < 3 by decide), bitAt_wordR ch hm hd ha hb hi hq (show 0 < 3 by decide), bits3_2, bits3_1, bits3_0, fMod_wordR ch hm hd ha hb hi hq, fD_wordR ch hm hd ha hb hi hq, fA_wordR ch hm hd ha hb hi hq, fB_wordR ch hm hd ha hb hi hq, noM, noD, noA, noB]
  exact (gate_bind (decide_eq_true (half_lt half)) rfl).trans (mk2_ok (fD_wordR ch hm hd ha hb hi hq) (fA_wordR ch hm hd ha hb hi hq) h)
theorem RoundTrip.ftanh (ch : Bool) (d : Dst) (a : Src) (half : Bool) : RoundTrip.Statement (.ftanh ch d a half) := by
  intro h
  have e0 : encode (.ftanh ch d a half) = 0x20000038 + bit01 ch <<< 31 + d.code <<< 20 + a.code <<< 14 + bit01 half := rfl
  have e : encode (.ftanh ch d a half) = wordR 8 ch d.code a.code 0 7 (bit01 false * 4 + bit01 false * 2 + bit01 half) := by rw [e0]; simp only [wordR, Nat.shiftLeft_eq, bit01_false, bit01_true]; omega
  have hm : 8 < 31 := by decide
  have hi : 7 < 32 := by decide
  have hd : d.code < 64 := dst_lt d
  have ha : a.code < 64 := src_lt a
  have hb : 0 < 64 := (by decide)
  have hq := (bits3_lt false false half)
  rw [e]; refine ⟨wordR_lt ch hm hd ha hb hi hq, ?_⟩
  rw [dec8 ch hm hd ha hb hi hq]; delta decFspec; rw [fIdx_wordR ch hm hd ha hb hi hq]; (try dsimp only)
  simp only [fCh_wordR ch hm hd ha hb hi hq, bitAt_wordR ch hm hd ha hb hi hq (show 2 < 3 by decide), bitAt_wordR ch hm hd ha hb hi hq (show 1 < 3 by decide), bitAt_wordR ch hm hd ha hb hi hq (show 0 < 3 by decide), bits3_2, bits3_1, bits3_0, fMod_wordR ch hm hd ha hb hi hq, fD_wordR ch hm hd ha hb hi hq, fA_wordR ch hm hd ha hb hi hq, fB_wordR ch hm hd ha hb hi hq, noM, noD, noA, noB]
  exact (gate_bind (decide_eq_true (half_lt half)) rfl).trans (mk2_ok (fD_wordR ch hm hd ha hb hi hq) (fA_wordR ch hm hd ha hb hi hq) h)
theorem RoundTrip.fsigm (ch : Bool) (d : Dst) (a : Src) (half : Bool) : RoundTrip.Statement (.fsigm ch d a half) := by
  intro h
  have e0 : encode (.fsigm ch d a half) = 0x20000040 + bit01 ch <<< 31 + d.code <<< 20 + a.code <<< 14 + bit01 half := rfl
  have e : encode (.fsigm ch d a half) = wordR 8 ch d.code a.code 0 8 (bit01 false * 4 + bit01 false * 2 + bit01 half) := by rw [e0]; simp only [wordR, Nat.shiftLeft_eq, bit01_false, bit01_true]; omega
  have hm : 8 < 31 := by decide
  have hi : 8 < 32 := by decide
  have hd : d.code < 64 := dst_lt d
  have ha : a.code < 64 := src_lt a
  have hb : 0 < 64 := (by decide)
  have hq := (bits3_lt false false half)
  rw [e]; refine ⟨wordR_lt ch hm hd ha hb hi hq, ?_⟩
  rw [dec8 ch hm hd ha hb hi hq]; delta decFspec; rw [fIdx_wordR ch hm hd ha hb hi hq]; (try dsimp only)
  simp only [fCh_wordR ch hm hd ha hb hi hq, bitAt_wordR ch hm hd ha hb hi hq (show 2 < 3 by decide), bitAt_wordR ch hm hd ha hb hi hq (show 1 < 3 by decide), bitAt_wordR ch hm hd ha hb hi hq (show 0 < 3 by decide), bits3_2, bits3_1, bits3_0, fMod_wordR ch hm hd ha hb hi hq, fD_wordR ch hm hd ha hb hi hq, fA_wordR ch hm hd ha hb hi hq, fB_wordR ch hm hd ha hb hi hq, noM, noD, noA, noB]
  exact (gate_bind (decide_eq_true (half_lt half)) rfl).trans (mk2_ok (fD_wordR ch hm hd ha hb hi hq) (fA_wordR ch hm hd ha hb hi hq) h)
theorem RoundTrip.fdiv (ch : Bool) (d : Dst) (a : Src) (b : Src) (half : Bool) : RoundTrip.Statement (.fdiv ch d a b half) := by
  intro h
  have e0 : encode (.fdiv ch d a b half) = 0x20000048 + bit01 ch <<< 31 + d.code <<< 20 + a.code <<< 14 + b.code <<< 8 + bit01 half := rfl
  have e : encode (.fdiv ch d a b half) = wordR 8 ch d.code a.code b.code 9 (bit01 false * 4 + bit01 false * 2 + bit01 half) := by rw [e0]; simp only [wordR, Nat.shiftLeft_eq, bit01_false, bit01_true]; omega
  have hm : 8 < 31 := by decide
  have hi : 9 < 32 := by decide
  have hd : d.code < 64 := dst_lt d
  have ha : a.code < 64 := src_lt a
  have hb : b.code < 64 := src_lt b
  have hq := (bits3_lt false false half)
  rw [e]; refine ⟨wordR_lt ch hm hd ha hb hi hq, ?_⟩
  rw [dec8 ch hm hd ha hb hi hq]; delta decFspec; rw [fIdx_wordR ch hm hd ha hb hi hq]; (try dsimp only)
  simp only [fCh_wordR ch hm hd ha hb hi hq, bitAt_wordR ch hm hd ha hb hi hq (show 2 < 3 by decide), bitAt_wordR ch hm hd ha hb hi hq (show 1 < 3 by decide), bitAt_wordR ch hm hd ha hb hi hq (show 0 < 3 by decide), bits3_2, bits3_1, bits3_0, fMod_wordR ch hm hd ha hb hi hq, fD_wordR ch hm hd ha hb hi hq, fA_wordR ch hm hd ha hb hi hq, fB_wordR ch hm hd ha hb hi hq, noM, noD, noA, noB]
  have ht := once_of (i := .fdiv ch d a b half) rfl h
  exact (gate_bind (decide_eq_true (half_lt half)) rfl).trans (mk3_ok (fD_wordR ch hm hd ha hb hi hq) (fA_wordR ch hm hd ha hb hi hq) (fB_wordR ch hm hd ha hb hi hq) ht h)
theorem RoundTrip.cvtF (ch : Bool) (d : Dst) (a : Src) (pair : BitVec 6) (r : BitVec 3) : RoundTrip.Statement (.cvtF ch d a pair r) := by
  intro h
  have e0 : encode (.cvtF ch d a pair r) = 0x24000000 + bit01 ch <<< 31 + d.code <<< 20 + a.code <<< 14 + pair.toNat <<< 8 + r.toNat := rfl
  have e : encode (.cvtF ch d a pair r) = wordR 9 ch d.code a.code pair.toNat 0 r.toNat := by rw [e0]; simp only [wordR, Nat.shiftLeft_eq, bit01_false, bit01_true]; omega
  have hm : 9 < 31 := by decide
  have hi : 0 < 32 := by decide
  have hd : d.code < 64 := dst_lt d
  have ha : a.code < 64 := src_lt a
  have hb : pair.toNat < 64 := pair.isLt
  have hq := (show r.toNat < 8 by have := r.isLt; omega)
  rw [e]; refine ⟨wordR_lt ch hm hd ha hb hi hq, ?_⟩
  rw [dec9 ch hm hd ha hb hi hq]; delta decCvt; rw [fIdx_wordR ch hm hd ha hb hi hq]; (try dsimp only)
  simp only [fCh_wordR ch hm hd ha hb hi hq, fMod_wordR ch hm hd ha hb hi hq, fD_wordR ch hm hd ha hb hi hq, fA_wordR ch hm hd ha hb hi hq, fB_wordR ch hm hd ha hb hi hq, noM, noD, noA, noB, BitVec.ofNat_toNat, BitVec.setWidth_eq]
  have hmo := mods_ok h
  simp only [Instr.modsOk, Bool.and_eq_true, decide_eq_true_eq] at hmo
  exact mkCvt_ok (fD_wordR ch hm hd ha hb hi hq) (fA_wordR ch hm hd ha hb hi hq) (fB_wordR ch hm hd ha hb hi hq) (fMod_wordR ch hm hd ha hb hi hq) (by omega) (by omega) (rndOk_ofNat hmo.2) h
theorem RoundTrip.cvtIf (ch : Bool) (d : Dst) (a : Src) (pair : BitVec 6) (r : BitVec 3) : RoundTrip.Statement (.cvtIf ch d a pair r) := by
  intro h
  have e0 : encode (.cvtIf ch d a pair r) = 0x24000008 + bit01 ch <<< 31 + d.code <<< 20 + a.code <<< 14 + pair.toNat <<< 8 + r.toNat := rfl
  have e : encode (.cvtIf ch d a pair r) = wordR 9 ch d.code a.code pair.toNat 1 r.toNat := by rw [e0]; simp only [wordR, Nat.shiftLeft_eq, bit01_false, bit01_true]; omega
  have hm : 9 < 31 := by decide
  have hi : 1 < 32 := by decide
  have hd : d.code < 64 := dst_lt d
  have ha : a.code < 64 := src_lt a
  have hb : pair.toNat < 64 := pair.isLt
  have hq := (show r.toNat < 8 by have := r.isLt; omega)
  rw [e]; refine ⟨wordR_lt ch hm hd ha hb hi hq, ?_⟩
  rw [dec9 ch hm hd ha hb hi hq]; delta decCvt; rw [fIdx_wordR ch hm hd ha hb hi hq]; (try dsimp only)
  simp only [fCh_wordR ch hm hd ha hb hi hq, fMod_wordR ch hm hd ha hb hi hq, fD_wordR ch hm hd ha hb hi hq, fA_wordR ch hm hd ha hb hi hq, fB_wordR ch hm hd ha hb hi hq, noM, noD, noA, noB, BitVec.ofNat_toNat, BitVec.setWidth_eq]
  have hmo := mods_ok h
  simp only [Instr.modsOk, Bool.and_eq_true, decide_eq_true_eq] at hmo
  exact mkCvt_ok (fD_wordR ch hm hd ha hb hi hq) (fA_wordR ch hm hd ha hb hi hq) (fB_wordR ch hm hd ha hb hi hq) (fMod_wordR ch hm hd ha hb hi hq) (by omega) (by omega) (rndOk_ofNat hmo.2) h
theorem RoundTrip.cvtFi (ch : Bool) (d : Dst) (a : Src) (pair : BitVec 6) (r : BitVec 3) : RoundTrip.Statement (.cvtFi ch d a pair r) := by
  intro h
  have e0 : encode (.cvtFi ch d a pair r) = 0x24000010 + bit01 ch <<< 31 + d.code <<< 20 + a.code <<< 14 + pair.toNat <<< 8 + r.toNat := rfl
  have e : encode (.cvtFi ch d a pair r) = wordR 9 ch d.code a.code pair.toNat 2 r.toNat := by rw [e0]; simp only [wordR, Nat.shiftLeft_eq, bit01_false, bit01_true]; omega
  have hm : 9 < 31 := by decide
  have hi : 2 < 32 := by decide
  have hd : d.code < 64 := dst_lt d
  have ha : a.code < 64 := src_lt a
  have hb : pair.toNat < 64 := pair.isLt
  have hq := (show r.toNat < 8 by have := r.isLt; omega)
  rw [e]; refine ⟨wordR_lt ch hm hd ha hb hi hq, ?_⟩
  rw [dec9 ch hm hd ha hb hi hq]; delta decCvt; rw [fIdx_wordR ch hm hd ha hb hi hq]; (try dsimp only)
  simp only [fCh_wordR ch hm hd ha hb hi hq, fMod_wordR ch hm hd ha hb hi hq, fD_wordR ch hm hd ha hb hi hq, fA_wordR ch hm hd ha hb hi hq, fB_wordR ch hm hd ha hb hi hq, noM, noD, noA, noB, BitVec.ofNat_toNat, BitVec.setWidth_eq]
  have hmo := mods_ok h
  simp only [Instr.modsOk, Bool.and_eq_true, decide_eq_true_eq] at hmo
  exact mkCvt_ok (fD_wordR ch hm hd ha hb hi hq) (fA_wordR ch hm hd ha hb hi hq) (fB_wordR ch hm hd ha hb hi hq) (fMod_wordR ch hm hd ha hb hi hq) (by omega) (by omega) (rndOk_ofNat hmo.2) h
theorem RoundTrip.qnt (ch : Bool) (d : Dst) (a : Src) (pair : BitVec 6) (r : BitVec 3) : RoundTrip.Statement (.qnt ch d a pair r) := by
  intro h
  have e0 : encode (.qnt ch d a pair r) = 0x24000018 + bit01 ch <<< 31 + d.code <<< 20 + a.code <<< 14 + pair.toNat <<< 8 + r.toNat := rfl
  have e : encode (.qnt ch d a pair r) = wordR 9 ch d.code a.code pair.toNat 3 r.toNat := by rw [e0]; simp only [wordR, Nat.shiftLeft_eq, bit01_false, bit01_true]; omega
  have hm : 9 < 31 := by decide
  have hi : 3 < 32 := by decide
  have hd : d.code < 64 := dst_lt d
  have ha : a.code < 64 := src_lt a
  have hb : pair.toNat < 64 := pair.isLt
  have hq := (show r.toNat < 8 by have := r.isLt; omega)
  rw [e]; refine ⟨wordR_lt ch hm hd ha hb hi hq, ?_⟩
  rw [dec9 ch hm hd ha hb hi hq]; delta decCvt; rw [fIdx_wordR ch hm hd ha hb hi hq]; (try dsimp only)
  simp only [fCh_wordR ch hm hd ha hb hi hq, fMod_wordR ch hm hd ha hb hi hq, fD_wordR ch hm hd ha hb hi hq, fA_wordR ch hm hd ha hb hi hq, fB_wordR ch hm hd ha hb hi hq, noM, noD, noA, noB, BitVec.ofNat_toNat, BitVec.setWidth_eq]
  have hmo := mods_ok h
  simp only [Instr.modsOk, Bool.and_eq_true, decide_eq_true_eq] at hmo
  refine (req_bind (by simp only [Bool.or_eq_true, decide_eq_true_eq]; omega)).trans ?_
  exact mkCvt_ok (fD_wordR ch hm hd ha hb hi hq) (fA_wordR ch hm hd ha hb hi hq) (fB_wordR ch hm hd ha hb hi hq) (fMod_wordR ch hm hd ha hb hi hq) (by omega) (by omega) (rndOk_ofNat hmo.2) h
theorem RoundTrip.dqnt (ch : Bool) (d : Dst) (a : Src) (pair : BitVec 6) (r : BitVec 3) : RoundTrip.Statement (.dqnt ch d a pair r) := by
  intro h
  have e0 : encode (.dqnt ch d a pair r) = 0x24000020 + bit01 ch <<< 31 + d.code <<< 20 + a.code <<< 14 + pair.toNat <<< 8 + r.toNat := rfl
  have e : encode (.dqnt ch d a pair r) = wordR 9 ch d.code a.code pair.toNat 4 r.toNat := by rw [e0]; simp only [wordR, Nat.shiftLeft_eq, bit01_false, bit01_true]; omega
  have hm : 9 < 31 := by decide
  have hi : 4 < 32 := by decide
  have hd : d.code < 64 := dst_lt d
  have ha : a.code < 64 := src_lt a
  have hb : pair.toNat < 64 := pair.isLt
  have hq := (show r.toNat < 8 by have := r.isLt; omega)
  rw [e]; refine ⟨wordR_lt ch hm hd ha hb hi hq, ?_⟩
  rw [dec9 ch hm hd ha hb hi hq]; delta decCvt; rw [fIdx_wordR ch hm hd ha hb hi hq]; (try dsimp only)
  simp only [fCh_wordR ch hm hd ha hb hi hq, fMod_wordR ch hm hd ha hb hi hq, fD_wordR ch hm hd ha hb hi hq, fA_wordR ch hm hd ha hb hi hq, fB_wordR ch hm hd ha hb hi hq, noM, noD, noA, noB, BitVec.ofNat_toNat, BitVec.setWidth_eq]
  have hmo := mods_ok h
  simp only [Instr.modsOk, Bool.and_eq_true, decide_eq_true_eq] at hmo
  refine (req_bind (by simp only [Bool.or_eq_true, decide_eq_true_eq]; omega)).trans ?_
  exact mkCvt_ok (fD_wordR ch hm hd ha hb hi hq) (fA_wordR ch hm hd ha hb hi hq) (fB_wordR ch hm hd ha hb hi hq) (fMod_wordR ch hm hd ha hb hi hq) (by omega) (by omega) (rndOk_ofNat hmo.2) h
theorem RoundTrip.fldexp (ch : Bool) (d : Dst) (a : Src) (pair : BitVec 6) (r : BitVec 3) : RoundTrip.Statement (.fldexp ch d a pair r) := by
  intro h
  have e0 : encode (.fldexp ch d a pair r) = 0x24000028 + bit01 ch <<< 31 + d.code <<< 20 + a.code <<< 14 + pair.toNat <<< 8 + r.toNat := rfl
  have e : encode (.fldexp ch d a pair r) = wordR 9 ch d.code a.code pair.toNat 5 r.toNat := by rw [e0]; simp only [wordR, Nat.shiftLeft_eq, bit01_false, bit01_true]; omega
  have hm : 9 < 31 := by decide
  have hi : 5 < 32 := by decide
  have hd : d.code < 64 := dst_lt d
  have ha : a.code < 64 := src_lt a
  have hb : pair.toNat < 64 := pair.isLt
  have hq := (show r.toNat < 8 by have := r.isLt; omega)
  rw [e]; refine ⟨wordR_lt ch hm hd ha hb hi hq, ?_⟩
  rw [dec9 ch hm hd ha hb hi hq]; delta decCvt; rw [fIdx_wordR ch hm hd ha hb hi hq]; (try dsimp only)
  simp only [fCh_wordR ch hm hd ha hb hi hq, fMod_wordR ch hm hd ha hb hi hq, fD_wordR ch hm hd ha hb hi hq, fA_wordR ch hm hd ha hb hi hq, fB_wordR ch hm hd ha hb hi hq, noM, noD, noA, noB, BitVec.ofNat_toNat, BitVec.setWidth_eq]
  have hmo := mods_ok h
  simp only [Instr.modsOk, Bool.and_eq_true, decide_eq_true_eq] at hmo
  exact mkCvt_ok (fD_wordR ch hm hd ha hb hi hq) (fA_wordR ch hm hd ha hb hi hq) (fB_wordR ch hm hd ha hb hi hq) (fMod_wordR ch hm hd ha hb hi hq) (by omega) (by omega) (rndOk_ofNat hmo.2) h
theorem RoundTrip.fexpo (ch : Bool) (d : Dst) (a : Src) (pair : BitVec 6) (r : BitVec 3) : RoundTrip.Statement (.fexpo ch d a pair r) := by
  intro h
  have e0 : encode (.fexpo ch d a pair r) = 0x24000030 + bit01 ch <<< 31 + d.code <<< 20 + a.code <<< 14 + pair.toNat <<< 8 + r.toNat := rfl
  have e : encode (.fexpo ch d a pair r) = wordR 9 ch d.code a.code pair.toNat 6 r.toNat := by rw [e0]; simp only [wordR, Nat.shiftLeft_eq, bit01_false, bit01_true]; omega
  have hm : 9 < 31 := by decide
  have hi : 6 < 32 := by decide
  have hd : d.code < 64 := dst_lt d
  have ha : a.code < 64 := src_lt a
  have hb : pair.toNat < 64 := pair.isLt
  have hq := (show r.toNat < 8 by have := r.isLt; omega)
  rw [e]; refine ⟨wordR_lt ch hm hd ha hb hi hq, ?_⟩
  rw [dec9 ch hm hd ha hb hi hq]; delta decCvt; rw [fIdx_wordR ch hm hd ha hb hi hq]; (try dsimp only)
  simp only [fCh_wordR ch hm hd ha hb hi hq, fMod_wordR ch hm hd ha hb hi hq, fD_wordR ch hm hd ha hb hi hq, fA_wordR ch hm hd ha hb hi hq, fB_wordR ch hm hd ha hb hi hq, noM, noD, noA, noB, BitVec.ofNat_toNat, BitVec.setWidth_eq]
  have hmo := mods_ok h
  simp only [Instr.modsOk, Bool.and_eq_true, decide_eq_true_eq] at hmo
  exact mkCvt_ok (fD_wordR ch hm hd ha hb hi hq) (fA_wordR ch hm hd ha hb hi hq) (fB_wordR ch hm hd ha hb hi hq) (fMod_wordR ch hm hd ha hb hi hq) (by omega) (by omega) (rndOk_ofNat hmo.2) h
theorem RoundTrip.srnd (ch : Bool) (d : Dst) (a : Src) (pair : BitVec 6) (r : BitVec 3) : RoundTrip.Statement (.srnd ch d a pair r) := by
  intro h
  have e0 : encode (.srnd ch d a pair r) = 0x24000038 + bit01 ch <<< 31 + d.code <<< 20 + a.code <<< 14 + pair.toNat <<< 8 + r.toNat := rfl
  have e : encode (.srnd ch d a pair r) = wordR 9 ch d.code a.code pair.toNat 7 r.toNat := by rw [e0]; simp only [wordR, Nat.shiftLeft_eq, bit01_false, bit01_true]; omega
  have hm : 9 < 31 := by decide
  have hi : 7 < 32 := by decide
  have hd : d.code < 64 := dst_lt d
  have ha : a.code < 64 := src_lt a
  have hb : pair.toNat < 64 := pair.isLt
  have hq := (show r.toNat < 8 by have := r.isLt; omega)
  rw [e]; refine ⟨wordR_lt ch hm hd ha hb hi hq, ?_⟩
  rw [dec9 ch hm hd ha hb hi hq]; delta decCvt; rw [fIdx_wordR ch hm hd ha hb hi hq]; (try dsimp only)
  simp only [fCh_wordR ch hm hd ha hb hi hq, fMod_wordR ch hm hd ha hb hi hq, fD_wordR ch hm hd ha hb hi hq, fA_wordR ch hm hd ha hb hi hq, fB_wordR ch hm hd ha hb hi hq, noM, noD, noA, noB, BitVec.ofNat_toNat, BitVec.setWidth_eq]
  have hmo := mods_ok h
  simp only [Instr.modsOk, Bool.and_eq_true, decide_eq_true_eq] at hmo
  exact mkCvt_ok (fD_wordR ch hm hd ha hb hi hq) (fA_wordR ch hm hd ha hb hi hq) (fB_wordR ch hm hd ha hb hi hq) (fMod_wordR ch hm hd ha hb hi hq) (by omega) (by omega) (rndOk_ofNat hmo.2) h
theorem RoundTrip.padd2 (ch : Bool) (d : Dst) (a : Src) (b : Src) (e8 : Bool) (u : Bool) (s : Bool) : RoundTrip.Statement (.padd2 ch d a b e8 u s) := by
  intro h
  have e0 : encode (.padd2 ch d a b e8 u s) = 0x28000000 + bit01 ch <<< 31 + d.code <<< 20 + a.code <<< 14 + b.code <<< 8 + bit01 e8 <<< 2 + bit01 u <<< 1 + bit01 s := rfl
  have e : encode (.padd2 ch d a b e8 u s) = wordR 10 ch d.code a.code b.code 0 (bit01 e8 * 4 + bit01 u * 2 + bit01 s) := by rw [e0]; simp only [wordR, Nat.shiftLeft_eq, bit01_false, bit01_true]; omega
  have hm : 10 < 31 := by decide
  have hi : 0 < 32 := by decide
  have hd : d.code < 64 := dst_lt d
  have ha : a.code < 64 := src_lt a
  have hb : b.code < 64 := src_lt b
  have hq := (bits3_lt e8 u s)
  rw [e]; refine ⟨wordR_lt ch hm hd ha hb hi hq, ?_⟩
  rw [dec10 ch hm hd ha hb hi hq]; delta decPack; rw [fIdx_wordR ch hm hd ha hb hi hq]; (try dsimp only)
  simp only [fCh_wordR ch hm hd ha hb hi hq, bitAt_wordR ch hm hd ha hb hi hq (show 2 < 3 by decide), bitAt_wordR ch hm hd ha hb hi hq (show 1 < 3 by decide), bitAt_wordR ch hm hd ha hb hi hq (show 0 < 3 by decide), bits3_2, bits3_1, bits3_0, fMod_wordR ch hm hd ha hb hi hq, fD_wordR ch hm hd ha hb hi hq, fA_wordR ch hm hd ha hb hi hq, fB_wordR ch hm hd ha hb hi hq, noM, noD, noA, noB]
  have ht := once_of (i := .padd2 ch d a b e8 u s) rfl h
  exact mk3_ok (fD_wordR ch hm hd ha hb hi hq) (fA_wordR ch hm hd ha hb hi hq) (fB_wordR ch hm hd ha hb hi hq) ht h
theorem RoundTrip.psub2 (ch : Bool) (d : Dst) (a : Src) (b : Src) (e8 : Bool) (u : Bool) (s : Bool) : RoundTrip.Statement (.psub2 ch d a b e8 u s) := by
  intro h
  have e0 : encode (.psub2 ch d a b e8 u s) = 0x28000008 + bit01 ch <<< 31 + d.code <<< 20 + a.code <<< 14 + b.code <<< 8 + bit01 e8 <<< 2 + bit01 u <<< 1 + bit01 s := rfl
  have e : encode (.psub2 ch d a b e8 u s) = wordR 10 ch d.code a.code b.code 1 (bit01 e8 * 4 + bit01 u * 2 + bit01 s) := by rw [e0]; simp only [wordR, Nat.shiftLeft_eq, bit01_false, bit01_true]; omega
  have hm : 10 < 31 := by decide
  have hi : 1 < 32 := by decide
  have hd : d.code < 64 := dst_lt d
  have ha : a.code < 64 := src_lt a
  have hb : b.code < 64 := src_lt b
  have hq := (bits3_lt e8 u s)
  rw [e]; refine ⟨wordR_lt ch hm hd ha hb hi hq, ?_⟩
  rw [dec10 ch hm hd ha hb hi hq]; delta decPack; rw [fIdx_wordR ch hm hd ha hb hi hq]; (try dsimp only)
  simp only [fCh_wordR ch hm hd ha hb hi hq, bitAt_wordR ch hm hd ha hb hi hq (show 2 < 3 by decide), bitAt_wordR ch hm hd ha hb hi hq (show 1 < 3 by decide), bitAt_wordR ch hm hd ha hb hi hq (show 0 < 3 by decide), bits3_2, bits3_1, bits3_0, fMod_wordR ch hm hd ha hb hi hq, fD_wordR ch hm hd ha hb hi hq, fA_wordR ch hm hd ha hb hi hq, fB_wordR ch hm hd ha hb hi hq, noM, noD, noA, noB]
  have ht := once_of (i := .psub2 ch d a b e8 u s) rfl h
  exact mk3_ok (fD_wordR ch hm hd ha hb hi hq) (fA_wordR ch hm hd ha hb hi hq) (fB_wordR ch hm hd ha hb hi hq) ht h
theorem RoundTrip.pmul2 (ch : Bool) (d : Dst) (a : Src) (b : Src) (e8 : Bool) (u : Bool) (s : Bool) : RoundTrip.Statement (.pmul2 ch d a b e8 u s) := by
  intro h
  have e0 : encode (.pmul2 ch d a b e8 u s) = 0x28000010 + bit01 ch <<< 31 + d.code <<< 20 + a.code <<< 14 + b.code <<< 8 + bit01 e8 <<< 2 + bit01 u <<< 1 + bit01 s := rfl
  have e : encode (.pmul2 ch d a b e8 u s) = wordR 10 ch d.code a.code b.code 2 (bit01 e8 * 4 + bit01 u * 2 + bit01 s) := by rw [e0]; simp only [wordR, Nat.shiftLeft_eq, bit01_false, bit01_true]; omega
  have hm : 10 < 31 := by decide
  have hi : 2 < 32 := by decide
  have hd : d.code < 64 := dst_lt d
  have ha : a.code < 64 := src_lt a
  have hb : b.code < 64 := src_lt b
  have hq := (bits3_lt e8 u s)
  rw [e]; refine ⟨wordR_lt ch hm hd ha hb hi hq, ?_⟩
  rw [dec10 ch hm hd ha hb hi hq]; delta decPack; rw [fIdx_wordR ch hm hd ha hb hi hq]; (try dsimp only)
  simp only [fCh_wordR ch hm hd ha hb hi hq, bitAt_wordR ch hm hd ha hb hi hq (show 2 < 3 by decide), bitAt_wordR ch hm hd ha hb hi hq (show 1 < 3 by decide), bitAt_wordR ch hm hd ha hb hi hq (show 0 < 3 by decide), bits3_2, bits3_1, bits3_0, fMod_wordR ch hm hd ha hb hi hq, fD_wordR ch hm hd ha hb hi hq, fA_wordR ch hm hd ha hb hi hq, fB_wordR ch hm hd ha hb hi hq, noM, noD, noA, noB]
  have ht := once_of (i := .pmul2 ch d a b e8 u s) rfl h
  exact mk3_ok (fD_wordR ch hm hd ha hb hi hq) (fA_wordR ch hm hd ha hb hi hq) (fB_wordR ch hm hd ha hb hi hq) ht h
theorem RoundTrip.pmin2 (ch : Bool) (d : Dst) (a : Src) (b : Src) (e8 : Bool) (u : Bool) : RoundTrip.Statement (.pmin2 ch d a b e8 u) := by
  intro h
  have e0 : encode (.pmin2 ch d a b e8 u) = 0x28000018 + bit01 ch <<< 31 + d.code <<< 20 + a.code <<< 14 + b.code <<< 8 + bit01 e8 <<< 2 + bit01 u <<< 1 := rfl
  have e : encode (.pmin2 ch d a b e8 u) = wordR 10 ch d.code a.code b.code 3 (bit01 e8 * 4 + bit01 u * 2 + bit01 false) := by rw [e0]; simp only [wordR, Nat.shiftLeft_eq, bit01_false, bit01_true]; omega
  have hm : 10 < 31 := by decide
  have hi : 3 < 32 := by decide
  have hd : d.code < 64 := dst_lt d
  have ha : a.code < 64 := src_lt a
  have hb : b.code < 64 := src_lt b
  have hq := (bits3_lt e8 u false)
  rw [e]; refine ⟨wordR_lt ch hm hd ha hb hi hq, ?_⟩
  rw [dec10 ch hm hd ha hb hi hq]; delta decPack; rw [fIdx_wordR ch hm hd ha hb hi hq]; (try dsimp only)
  simp only [fCh_wordR ch hm hd ha hb hi hq, bitAt_wordR ch hm hd ha hb hi hq (show 2 < 3 by decide), bitAt_wordR ch hm hd ha hb hi hq (show 1 < 3 by decide), bitAt_wordR ch hm hd ha hb hi hq (show 0 < 3 by decide), bits3_2, bits3_1, bits3_0, fMod_wordR ch hm hd ha hb hi hq, fD_wordR ch hm hd ha hb hi hq, fA_wordR ch hm hd ha hb hi hq, fB_wordR ch hm hd ha hb hi hq, noM, noD, noA, noB]
  have ht := once_of (i := .pmin2 ch d a b e8 u) rfl h
  exact (gate_bind rfl rfl).trans (mk3_ok (fD_wordR ch hm hd ha hb hi hq) (fA_wordR ch hm hd ha hb hi hq) (fB_wordR ch hm hd ha hb hi hq) ht h)
theorem RoundTrip.pmax2 (ch : Bool) (d : Dst) (a : Src) (b : Src) (e8 : Bool) (u : Bool) : RoundTrip.Statement (.pmax2 ch d a b e8 u) := by
  intro h
  have e0 : encode (.pmax2 ch d a b e8 u) = 0x28000020 + bit01 ch <<< 31 + d.code <<< 20 + a.code <<< 14 + b.code <<< 8 + bit01 e8 <<< 2 + bit01 u <<< 1 := rfl
  have e : encode (.pmax2 ch d a b e8 u) = wordR 10 ch d.code a.code b.code 4 (bit01 e8 * 4 + bit01 u * 2 + bit01 false) := by rw [e0]; simp only [wordR, Nat.shiftLeft_eq, bit01_false, bit01_true]; omega
  have hm : 10 < 31 := by decide
  have hi : 4 < 32 := by decide
  have hd : d.code < 64 := dst_lt d
  have ha : a.code < 64 := src_lt a
  have hb : b.code < 64 := src_lt b
  have hq := (bits3_lt e8 u false)
  rw [e]; refine ⟨wordR_lt ch hm hd ha hb hi hq, ?_⟩
  rw [dec10 ch hm hd ha hb hi hq]; delta decPack; rw [fIdx_wordR ch hm hd ha hb hi hq]; (try dsimp only)
  simp only [fCh_wordR ch hm hd ha hb hi hq, bitAt_wordR ch hm hd ha hb hi hq (show 2 < 3 by decide), bitAt_wordR ch hm hd ha hb hi hq (show 1 < 3 by decide), bitAt_wordR ch hm hd ha hb hi hq (show 0 < 3 by decide), bits3_2, bits3_1, bits3_0, fMod_wordR ch hm hd ha hb hi hq, fD_wordR ch hm hd ha hb hi hq, fA_wordR ch hm hd ha hb hi hq, fB_wordR ch hm hd ha hb hi hq, noM, noD, noA, noB]
  have ht := once_of (i := .pmax2 ch d a b e8 u) rfl h
  exact (gate_bind rfl rfl).trans (mk3_ok (fD_wordR ch hm hd ha hb hi hq) (fA_wordR ch hm hd ha hb hi hq) (fB_wordR ch hm hd ha hb hi hq) ht h)
theorem RoundTrip.pshr2 (ch : Bool) (d : Dst) (a : Src) (b : Src) (e8 : Bool) (u : Bool) : RoundTrip.Statement (.pshr2 ch d a b e8 u) := by
  intro h
  have e0 : encode (.pshr2 ch d a b e8 u) = 0x28000028 + bit01 ch <<< 31 + d.code <<< 20 + a.code <<< 14 + b.code <<< 8 + bit01 e8 <<< 2 + bit01 u <<< 1 := rfl
  have e : encode (.pshr2 ch d a b e8 u) = wordR 10 ch d.code a.code b.code 5 (bit01 e8 * 4 + bit01 u * 2 + bit01 false) := by rw [e0]; simp only [wordR, Nat.shiftLeft_eq, bit01_false, bit01_true]; omega
  have hm : 10 < 31 := by decide
  have hi : 5 < 32 := by decide
  have hd : d.code < 64 := dst_lt d
  have ha : a.code < 64 := src_lt a
  have hb : b.code < 64 := src_lt b
  have hq := (bits3_lt e8 u false)
  rw [e]; refine ⟨wordR_lt ch hm hd ha hb hi hq, ?_⟩
  rw [dec10 ch hm hd ha hb hi hq]; delta decPack; rw [fIdx_wordR ch hm hd ha hb hi hq]; (try dsimp only)
  simp only [fCh_wordR ch hm hd ha hb hi hq, bitAt_wordR ch hm hd ha hb hi hq (show 2 < 3 by decide), bitAt_wordR ch hm hd ha hb hi hq (show 1 < 3 by decide), bitAt_wordR ch hm hd ha hb hi hq (show 0 < 3 by decide), bits3_2, bits3_1, bits3_0, fMod_wordR ch hm hd ha hb hi hq, fD_wordR ch hm hd ha hb hi hq, fA_wordR ch hm hd ha hb hi hq, fB_wordR ch hm hd ha hb hi hq, noM, noD, noA, noB]
  have ht := once_of (i := .pshr2 ch d a b e8 u) rfl h
  exact (gate_bind rfl rfl).trans (mk3_ok (fD_wordR ch hm hd ha hb hi hq) (fA_wordR ch hm hd ha hb hi hq) (fB_wordR ch hm hd ha hb hi hq) ht h)
theorem RoundTrip.ppack (ch : Bool) (d : Dst) (a : Src) (b : Src) (e8 : Bool) (u : Bool) (s : Bool) : RoundTrip.Statement (.ppack ch d a b e8 u s) := by
  intro h
  have e0 : encode (.ppack ch d a b e8 u s) = 0x28000030 + bit01 ch <<< 31 + d.code <<< 20 + a.code <<< 14 + b.code <<< 8 + bit01 e8 <<< 2 + bit01 u <<< 1 + bit01 s := rfl
  have e : encode (.ppack ch d a b e8 u s) = wordR 10 ch d.code a.code b.code 6 (bit01 e8 * 4 + bit01 u * 2 + bit01 s) := by rw [e0]; simp only [wordR, Nat.shiftLeft_eq, bit01_false, bit01_true]; omega
  have hm : 10 < 31 := by decide
  have hi : 6 < 32 := by decide
  have hd : d.code < 64 := dst_lt d
  have ha : a.code < 64 := src_lt a
  have hb : b.code < 64 := src_lt b
  have hq := (bits3_lt e8 u s)
  rw [e]; refine ⟨wordR_lt ch hm hd ha hb hi hq, ?_⟩
  rw [dec10 ch hm hd ha hb hi hq]; delta decPack; rw [fIdx_wordR ch hm hd ha hb hi hq]; (try dsimp only)
  simp only [fCh_wordR ch hm hd ha hb hi hq, bitAt_wordR ch hm hd ha hb hi hq (show 2 < 3 by decide), bitAt_wordR ch hm hd ha hb hi hq (show 1 < 3 by decide), bitAt_wordR ch hm hd ha hb hi hq (show 0 < 3 by decide), bits3_2, bits3_1, bits3_0, fMod_wordR ch hm hd ha hb hi hq, fD_wordR ch hm hd ha hb hi hq, fA_wordR ch hm hd ha hb hi hq, fB_wordR ch hm hd ha hb hi hq, noM, noD, noA, noB]
  have ht := once_of (i := .ppack ch d a b e8 u s) rfl h
  exact mk3_ok (fD_wordR ch hm hd ha hb hi hq) (fA_wordR ch hm hd ha hb hi hq) (fB_wordR ch hm hd ha hb hi hq) ht h
theorem RoundTrip.punpkLo (ch : Bool) (d : Dst) (a : Src) (e8 : Bool) (u : Bool) : RoundTrip.Statement (.punpkLo ch d a e8 u) := by
  intro h
  have e0 : encode (.punpkLo ch d a e8 u) = 0x28000038 + bit01 ch <<< 31 + d.code <<< 20 + a.code <<< 14 + bit01 e8 <<< 2 + bit01 u <<< 1 := rfl
  have e : encode (.punpkLo ch d a e8 u) = wordR 10 ch d.code a.code 0 7 (bit01 e8 * 4 + bit01 u * 2 + bit01 false) := by rw [e0]; simp only [wordR, Nat.shiftLeft_eq, bit01_false, bit01_true]; omega
  have hm : 10 < 31 := by decide
  have hi : 7 < 32 := by decide
  have hd : d.code < 64 := dst_lt d
  have ha : a.code < 64 := src_lt a
  have hb : 0 < 64 := (by decide)
  have hq := (bits3_lt e8 u false)
  rw [e]; refine ⟨wordR_lt ch hm hd ha hb hi hq, ?_⟩
  rw [dec10 ch hm hd ha hb hi hq]; delta decPack; rw [fIdx_wordR ch hm hd ha hb hi hq]; (try dsimp only)
  simp only [fCh_wordR ch hm hd ha hb hi hq, bitAt_wordR ch hm hd ha hb hi hq (show 2 < 3 by decide), bitAt_wordR ch hm hd ha hb hi hq (show 1 < 3 by decide), bitAt_wordR ch hm hd ha hb hi hq (show 0 < 3 by decide), bits3_2, bits3_1, bits3_0, fMod_wordR ch hm hd ha hb hi hq, fD_wordR ch hm hd ha hb hi hq, fA_wordR ch hm hd ha hb hi hq, fB_wordR ch hm hd ha hb hi hq, noM, noD, noA, noB]
  exact (gate_bind rfl rfl).trans (mk2_ok (fD_wordR ch hm hd ha hb hi hq) (fA_wordR ch hm hd ha hb hi hq) h)
theorem RoundTrip.punpkHi (ch : Bool) (d : Dst) (a : Src) (e8 : Bool) (u : Bool) : RoundTrip.Statement (.punpkHi ch d a e8 u) := by
  intro h
  have e0 : encode (.punpkHi ch d a e8 u) = 0x28000040 + bit01 ch <<< 31 + d.code <<< 20 + a.code <<< 14 + bit01 e8 <<< 2 + bit01 u <<< 1 := rfl
  have e : encode (.punpkHi ch d a e8 u) = wordR 10 ch d.code a.code 0 8 (bit01 e8 * 4 + bit01 u * 2 + bit01 false) := by rw [e0]; simp only [wordR, Nat.shiftLeft_eq, bit01_false, bit01_true]; omega
  have hm : 10 < 31 := by decide
  have hi : 8 < 32 := by decide
  have hd : d.code < 64 := dst_lt d
  have ha : a.code < 64 := src_lt a
  have hb : 0 < 64 := (by decide)
  have hq := (bits3_lt e8 u false)
  rw [e]; refine ⟨wordR_lt ch hm hd ha hb hi hq, ?_⟩
  rw [dec10 ch hm hd ha hb hi hq]; delta decPack; rw [fIdx_wordR ch hm hd ha hb hi hq]; (try dsimp only)
  simp only [fCh_wordR ch hm hd ha hb hi hq, bitAt_wordR ch hm hd ha hb hi hq (show 2 < 3 by decide), bitAt_wordR ch hm hd ha hb hi hq (show 1 < 3 by decide), bitAt_wordR ch hm hd ha hb hi hq (show 0 < 3 by decide), bits3_2, bits3_1, bits3_0, fMod_wordR ch hm hd ha hb hi hq, fD_wordR ch hm hd ha hb hi hq, fA_wordR ch hm hd ha hb hi hq, fB_wordR ch hm hd ha hb hi hq, noM, noD, noA, noB]
  exact (gate_bind rfl rfl).trans (mk2_ok (fD_wordR ch hm hd ha hb hi hq) (fA_wordR ch hm hd ha hb hi hq) h)
theorem RoundTrip.pabs2 (ch : Bool) (d : Dst) (a : Src) (e8 : Bool) (s : Bool) : RoundTrip.Statement (.pabs2 ch d a e8 s) := by
  intro h
  have e0 : encode (.pabs2 ch d a e8 s) = 0x28000048 + bit01 ch <<< 31 + d.code <<< 20 + a.code <<< 14 + bit01 e8 <<< 2 + bit01 s := rfl
  have e : encode (.pabs2 ch d a e8 s) = wordR 10 ch d.code a.code 0 9 (bit01 e8 * 4 + bit01 false * 2 + bit01 s) := by rw [e0]; simp only [wordR, Nat.shiftLeft_eq, bit01_false, bit01_true]; omega
  have hm : 10 < 31 := by decide
  have hi : 9 < 32 := by decide
  have hd : d.code < 64 := dst_lt d
  have ha : a.code < 64 := src_lt a
  have hb : 0 < 64 := (by decide)
  have hq := (bits3_lt e8 false s)
  rw [e]; refine ⟨wordR_lt ch hm hd ha hb hi hq, ?_⟩
  rw [dec10 ch hm hd ha hb hi hq]; delta decPack; rw [fIdx_wordR ch hm hd ha hb hi hq]; (try dsimp only)
  simp only [fCh_wordR ch hm hd ha hb hi hq, bitAt_wordR ch hm hd ha hb hi hq (show 2 < 3 by decide), bitAt_wordR ch hm hd ha hb hi hq (show 1 < 3 by decide), bitAt_wordR ch hm hd ha hb hi hq (show 0 < 3 by decide), bits3_2, bits3_1, bits3_0, fMod_wordR ch hm hd ha hb hi hq, fD_wordR ch hm hd ha hb hi hq, fA_wordR ch hm hd ha hb hi hq, fB_wordR ch hm hd ha hb hi hq, noM, noD, noA, noB]
  exact (gate_bind rfl rfl).trans (mk2_ok (fD_wordR ch hm hd ha hb hi hq) (fA_wordR ch hm hd ha hb hi hq) h)
theorem RoundTrip.pmac2 (ch : Bool) (d : Dst) (a : Src) (b : Src) (g : Src) : RoundTrip.Statement (.pmac2 ch d a b g) := by
  intro h
  have e0 : encode (.pmac2 ch d a b g) = 0x6C000000 + bit01 ch <<< 31 + d.code <<< 20 + a.code <<< 14 + b.code <<< 8 + g.code <<< 2 := rfl
  have e : encode (.pmac2 ch d a b g) = wordQ 27 ch d.code a.code b.code g.code 0 := by rw [e0]; simp only [wordQ, Nat.shiftLeft_eq]; omega
  have hd := dst_lt d; have ha := src_lt a; have hb := src_lt b; have hg := src_lt g
  have hm : 27 < 31 := by decide
  have ho : 0 < 4 := by decide
  rw [e]; refine ⟨wordQ_lt ch hm hd ha hb hg ho, ?_⟩
  rw [dec27 ch hm hd ha hb hg ho]; delta decQdot; rw [op_wordQ ch hm hd ha hb hg ho]; (try dsimp only); rw [fCh_wordQ ch hm hd ha hb hg ho]
  have ht := once_of (i := .pmac2 ch d a b g) rfl h
  exact mk4_ok (fD_wordQ ch hm hd ha hb hg ho) (fA_wordQ ch hm hd ha hb hg ho) (fB_wordQ ch hm hd ha hb hg ho) (fC_wordQ ch hm hd ha hb hg ho) ht h
theorem RoundTrip.pmac4 (ch : Bool) (d : Dst) (a : Src) (b : Src) (g : Src) : RoundTrip.Statement (.pmac4 ch d a b g) := by
  intro h
  have e0 : encode (.pmac4 ch d a b g) = 0x6C000001 + bit01 ch <<< 31 + d.code <<< 20 + a.code <<< 14 + b.code <<< 8 + g.code <<< 2 := rfl
  have e : encode (.pmac4 ch d a b g) = wordQ 27 ch d.code a.code b.code g.code 1 := by rw [e0]; simp only [wordQ, Nat.shiftLeft_eq]; omega
  have hd := dst_lt d; have ha := src_lt a; have hb := src_lt b; have hg := src_lt g
  have hm : 27 < 31 := by decide
  have ho : 1 < 4 := by decide
  rw [e]; refine ⟨wordQ_lt ch hm hd ha hb hg ho, ?_⟩
  rw [dec27 ch hm hd ha hb hg ho]; delta decQdot; rw [op_wordQ ch hm hd ha hb hg ho]; (try dsimp only); rw [fCh_wordQ ch hm hd ha hb hg ho]
  have ht := once_of (i := .pmac4 ch d a b g) rfl h
  exact mk4_ok (fD_wordQ ch hm hd ha hb hg ho) (fA_wordQ ch hm hd ha hb hg ho) (fB_wordQ ch hm hd ha hb hg ho) (fC_wordQ ch hm hd ha hb hg ho) ht h
theorem RoundTrip.fdot2F16 (ch : Bool) (d : Dst) (a : Src) (b : Src) (g : Src) : RoundTrip.Statement (.fdot2F16 ch d a b g) := by
  intro h
  have e0 : encode (.fdot2F16 ch d a b g) = 0x6C000002 + bit01 ch <<< 31 + d.code <<< 20 + a.code <<< 14 + b.code <<< 8 + g.code <<< 2 := rfl
  have e : encode (.fdot2F16 ch d a b g) = wordQ 27 ch d.code a.code b.code g.code 2 := by rw [e0]; simp only [wordQ, Nat.shiftLeft_eq]; omega
  have hd := dst_lt d; have ha := src_lt a; have hb := src_lt b; have hg := src_lt g
  have hm : 27 < 31 := by decide
  have ho : 2 < 4 := by decide
  rw [e]; refine ⟨wordQ_lt ch hm hd ha hb hg ho, ?_⟩
  rw [dec27 ch hm hd ha hb hg ho]; delta decQdot; rw [op_wordQ ch hm hd ha hb hg ho]; (try dsimp only); rw [fCh_wordQ ch hm hd ha hb hg ho]
  have ht := once_of (i := .fdot2F16 ch d a b g) rfl h
  exact mk4_ok (fD_wordQ ch hm hd ha hb hg ho) (fA_wordQ ch hm hd ha hb hg ho) (fB_wordQ ch hm hd ha hb hg ho) (fC_wordQ ch hm hd ha hb hg ho) ht h
theorem RoundTrip.fdot2Bf16 (ch : Bool) (d : Dst) (a : Src) (b : Src) (g : Src) : RoundTrip.Statement (.fdot2Bf16 ch d a b g) := by
  intro h
  have e0 : encode (.fdot2Bf16 ch d a b g) = 0x6C000003 + bit01 ch <<< 31 + d.code <<< 20 + a.code <<< 14 + b.code <<< 8 + g.code <<< 2 := rfl
  have e : encode (.fdot2Bf16 ch d a b g) = wordQ 27 ch d.code a.code b.code g.code 3 := by rw [e0]; simp only [wordQ, Nat.shiftLeft_eq]; omega
  have hd := dst_lt d; have ha := src_lt a; have hb := src_lt b; have hg := src_lt g
  have hm : 27 < 31 := by decide
  have ho : 3 < 4 := by decide
  rw [e]; refine ⟨wordQ_lt ch hm hd ha hb hg ho, ?_⟩
  rw [dec27 ch hm hd ha hb hg ho]; delta decQdot; rw [op_wordQ ch hm hd ha hb hg ho]; (try dsimp only); rw [fCh_wordQ ch hm hd ha hb hg ho]
  have ht := once_of (i := .fdot2Bf16 ch d a b g) rfl h
  exact mk4_ok (fD_wordQ ch hm hd ha hb hg ho) (fA_wordQ ch hm hd ha hb hg ho) (fB_wordQ ch hm hd ha hb hg ho) (fC_wordQ ch hm hd ha hb hg ho) ht h
theorem RoundTrip.cfma (ch : Bool) (d : Dst) (a : Src) (b : Src) (g : Src) : RoundTrip.Statement (.cfma ch d a b g) := by
  intro h
  have e0 : encode (.cfma ch d a b g) = 0x70000000 + bit01 ch <<< 31 + d.code <<< 20 + a.code <<< 14 + b.code <<< 8 + g.code <<< 2 := rfl
  have e : encode (.cfma ch d a b g) = wordQ 28 ch d.code a.code b.code g.code 0 := by rw [e0]; simp only [wordQ, Nat.shiftLeft_eq]; omega
  have hd := dst_lt d; have ha := src_lt a; have hb := src_lt b; have hg := src_lt g
  have hm : 28 < 31 := by decide
  have ho : 0 < 4 := by decide
  rw [e]; refine ⟨wordQ_lt ch hm hd ha hb hg ho, ?_⟩
  rw [dec28 ch hm hd ha hb hg ho]; delta decQmisc; rw [op_wordQ ch hm hd ha hb hg ho]; (try dsimp only); rw [fCh_wordQ ch hm hd ha hb hg ho]
  have ht := once_of (i := .cfma ch d a b g) rfl h
  exact mk4_ok (fD_wordQ ch hm hd ha hb hg ho) (fA_wordQ ch hm hd ha hb hg ho) (fB_wordQ ch hm hd ha hb hg ho) (fC_wordQ ch hm hd ha hb hg ho) ht h
theorem RoundTrip.cfmaj (ch : Bool) (d : Dst) (a : Src) (b : Src) (g : Src) : RoundTrip.Statement (.cfmaj ch d a b g) := by
  intro h
  have e0 : encode (.cfmaj ch d a b g) = 0x70000001 + bit01 ch <<< 31 + d.code <<< 20 + a.code <<< 14 + b.code <<< 8 + g.code <<< 2 := rfl
  have e : encode (.cfmaj ch d a b g) = wordQ 28 ch d.code a.code b.code g.code 1 := by rw [e0]; simp only [wordQ, Nat.shiftLeft_eq]; omega
  have hd := dst_lt d; have ha := src_lt a; have hb := src_lt b; have hg := src_lt g
  have hm : 28 < 31 := by decide
  have ho : 1 < 4 := by decide
  rw [e]; refine ⟨wordQ_lt ch hm hd ha hb hg ho, ?_⟩
  rw [dec28 ch hm hd ha hb hg ho]; delta decQmisc; rw [op_wordQ ch hm hd ha hb hg ho]; (try dsimp only); rw [fCh_wordQ ch hm hd ha hb hg ho]
  have ht := once_of (i := .cfmaj ch d a b g) rfl h
  exact mk4_ok (fD_wordQ ch hm hd ha hb hg ho) (fA_wordQ ch hm hd ha hb hg ho) (fB_wordQ ch hm hd ha hb hg ho) (fC_wordQ ch hm hd ha hb hg ho) ht h
theorem RoundTrip.bfi (ch : Bool) (d : Dst) (a : Src) (b : Src) (g : Src) : RoundTrip.Statement (.bfi ch d a b g) := by
  intro h
  have e0 : encode (.bfi ch d a b g) = 0x70000002 + bit01 ch <<< 31 + d.code <<< 20 + a.code <<< 14 + b.code <<< 8 + g.code <<< 2 := rfl
  have e : encode (.bfi ch d a b g) = wordQ 28 ch d.code a.code b.code g.code 2 := by rw [e0]; simp only [wordQ, Nat.shiftLeft_eq]; omega
  have hd := dst_lt d; have ha := src_lt a; have hb := src_lt b; have hg := src_lt g
  have hm : 28 < 31 := by decide
  have ho : 2 < 4 := by decide
  rw [e]; refine ⟨wordQ_lt ch hm hd ha hb hg ho, ?_⟩
  rw [dec28 ch hm hd ha hb hg ho]; delta decQmisc; rw [op_wordQ ch hm hd ha hb hg ho]; (try dsimp only); rw [fCh_wordQ ch hm hd ha hb hg ho]
  have ht := once_of (i := .bfi ch d a b g) rfl h
  exact mk4_ok (fD_wordQ ch hm hd ha hb hg ho) (fA_wordQ ch hm hd ha hb hg ho) (fB_wordQ ch hm hd ha hb hg ho) (fC_wordQ ch hm hd ha hb hg ho) ht h
theorem RoundTrip.mad (ch : Bool) (d : Dst) (a : Src) (b : Src) (g : Src) : RoundTrip.Statement (.mad ch d a b g) := by
  intro h
  have e0 : encode (.mad ch d a b g) = 0x70000003 + bit01 ch <<< 31 + d.code <<< 20 + a.code <<< 14 + b.code <<< 8 + g.code <<< 2 := rfl
  have e : encode (.mad ch d a b g) = wordQ 28 ch d.code a.code b.code g.code 3 := by rw [e0]; simp only [wordQ, Nat.shiftLeft_eq]; omega
  have hd := dst_lt d; have ha := src_lt a; have hb := src_lt b; have hg := src_lt g
  have hm : 28 < 31 := by decide
  have ho : 3 < 4 := by decide
  rw [e]; refine ⟨wordQ_lt ch hm hd ha hb hg ho, ?_⟩
  rw [dec28 ch hm hd ha hb hg ho]; delta decQmisc; rw [op_wordQ ch hm hd ha hb hg ho]; (try dsimp only); rw [fCh_wordQ ch hm hd ha hb hg ho]
  have ht := once_of (i := .mad ch d a b g) rfl h
  exact mk4_ok (fD_wordQ ch hm hd ha hb hg ho) (fA_wordQ ch hm hd ha hb hg ho) (fB_wordQ ch hm hd ha hb hg ho) (fC_wordQ ch hm hd ha hb hg ho) ht h
theorem RoundTrip.slideUp (ch : Bool) (d : Dst) (a : Src) (b : Src) (fill : Fill) : RoundTrip.Statement (.slideUp ch d a b fill) := by
  intro h
  have e0 : encode (.slideUp ch d a b fill) = 0x2C000000 + bit01 ch <<< 31 + d.code <<< 20 + a.code <<< 14 + b.code <<< 8 + fill.code := rfl
  have e : encode (.slideUp ch d a b fill) = wordR 11 ch d.code a.code b.code 0 fill.code := by rw [e0]; simp only [wordR, Nat.shiftLeft_eq, bit01_false, bit01_true]; omega
  have hm : 11 < 31 := by decide
  have hi : 0 < 32 := by decide
  have hd : d.code < 64 := dst_lt d
  have ha : a.code < 64 := src_lt a
  have hb : b.code < 64 := src_lt b
  have hq := (show fill.code < 8 from Nat.lt_of_lt_of_le (fill_lt fill) (by decide))
  rw [e]; refine ⟨wordR_lt ch hm hd ha hb hi hq, ?_⟩
  rw [dec11 ch hm hd ha hb hi hq]; delta decXlane; rw [fIdx_wordR ch hm hd ha hb hi hq]; (try dsimp only)
  simp only [fCh_wordR ch hm hd ha hb hi hq, fMod_wordR ch hm hd ha hb hi hq, fD_wordR ch hm hd ha hb hi hq, fA_wordR ch hm hd ha hb hi hq, fB_wordR ch hm hd ha hb hi hq, noM, noD, noA, noB, fillOf_code]
  exact mkSlide_ok (k := fun d a b f => .slideUp ch d a b f) (fD_wordR ch hm hd ha hb hi hq) (fA_wordR ch hm hd ha hb hi hq) (fB_wordR ch hm hd ha hb hi hq) (fMod_wordR ch hm hd ha hb hi hq) (mods_ok h) (slide_once (mods_ok h) (form_ok (i := .slideUp ch d a b fill) rfl h).1) h
theorem RoundTrip.slideDn (ch : Bool) (d : Dst) (a : Src) (b : Src) (fill : Fill) : RoundTrip.Statement (.slideDn ch d a b fill) := by
  intro h
  have e0 : encode (.slideDn ch d a b fill) = 0x2C000008 + bit01 ch <<< 31 + d.code <<< 20 + a.code <<< 14 + b.code <<< 8 + fill.code := rfl
  have e : encode (.slideDn ch d a b fill) = wordR 11 ch d.code a.code b.code 1 fill.code := by rw [e0]; simp only [wordR, Nat.shiftLeft_eq, bit01_false, bit01_true]; omega
  have hm : 11 < 31 := by decide
  have hi : 1 < 32 := by decide
  have hd : d.code < 64 := dst_lt d
  have ha : a.code < 64 := src_lt a
  have hb : b.code < 64 := src_lt b
  have hq := (show fill.code < 8 from Nat.lt_of_lt_of_le (fill_lt fill) (by decide))
  rw [e]; refine ⟨wordR_lt ch hm hd ha hb hi hq, ?_⟩
  rw [dec11 ch hm hd ha hb hi hq]; delta decXlane; rw [fIdx_wordR ch hm hd ha hb hi hq]; (try dsimp only)
  simp only [fCh_wordR ch hm hd ha hb hi hq, fMod_wordR ch hm hd ha hb hi hq, fD_wordR ch hm hd ha hb hi hq, fA_wordR ch hm hd ha hb hi hq, fB_wordR ch hm hd ha hb hi hq, noM, noD, noA, noB, fillOf_code]
  exact mkSlide_ok (k := fun d a b f => .slideDn ch d a b f) (fD_wordR ch hm hd ha hb hi hq) (fA_wordR ch hm hd ha hb hi hq) (fB_wordR ch hm hd ha hb hi hq) (fMod_wordR ch hm hd ha hb hi hq) (mods_ok h) (slide_once (mods_ok h) (form_ok (i := .slideDn ch d a b fill) rfl h).1) h
theorem RoundTrip.slideH (ch : Bool) (d : Dst) (a : Src) (b : Src) (fill : Fill) : RoundTrip.Statement (.slideH ch d a b fill) := by
  intro h
  have e0 : encode (.slideH ch d a b fill) = 0x2C000010 + bit01 ch <<< 31 + d.code <<< 20 + a.code <<< 14 + b.code <<< 8 + fill.code := rfl
  have e : encode (.slideH ch d a b fill) = wordR 11 ch d.code a.code b.code 2 fill.code := by rw [e0]; simp only [wordR, Nat.shiftLeft_eq, bit01_false, bit01_true]; omega
  have hm : 11 < 31 := by decide
  have hi : 2 < 32 := by decide
  have hd : d.code < 64 := dst_lt d
  have ha : a.code < 64 := src_lt a
  have hb : b.code < 64 := src_lt b
  have hq := (show fill.code < 8 from Nat.lt_of_lt_of_le (fill_lt fill) (by decide))
  rw [e]; refine ⟨wordR_lt ch hm hd ha hb hi hq, ?_⟩
  rw [dec11 ch hm hd ha hb hi hq]; delta decXlane; rw [fIdx_wordR ch hm hd ha hb hi hq]; (try dsimp only)
  simp only [fCh_wordR ch hm hd ha hb hi hq, fMod_wordR ch hm hd ha hb hi hq, fD_wordR ch hm hd ha hb hi hq, fA_wordR ch hm hd ha hb hi hq, fB_wordR ch hm hd ha hb hi hq, noM, noD, noA, noB, fillOf_code]
  exact mkSlide_ok (k := fun d a b f => .slideH ch d a b f) (fD_wordR ch hm hd ha hb hi hq) (fA_wordR ch hm hd ha hb hi hq) (fB_wordR ch hm hd ha hb hi hq) (fMod_wordR ch hm hd ha hb hi hq) (mods_ok h) (slide_once (mods_ok h) (form_ok (i := .slideH ch d a b fill) rfl h).1) h
theorem RoundTrip.shfl (ch : Bool) (d : Dst) (a : Src) (b : Src) : RoundTrip.Statement (.shfl ch d a b) := by
  intro h
  have e0 : encode (.shfl ch d a b) = 0x2C000018 + bit01 ch <<< 31 + d.code <<< 20 + a.code <<< 14 + b.code <<< 8 := rfl
  have e : encode (.shfl ch d a b) = wordR 11 ch d.code a.code b.code 3 0 := by rw [e0]; simp only [wordR, Nat.shiftLeft_eq, bit01_false, bit01_true]; omega
  have hm : 11 < 31 := by decide
  have hi : 3 < 32 := by decide
  have hd : d.code < 64 := dst_lt d
  have ha : a.code < 64 := src_lt a
  have hb : b.code < 64 := src_lt b
  have hq := (show 0 < 8 by decide)
  rw [e]; refine ⟨wordR_lt ch hm hd ha hb hi hq, ?_⟩
  rw [dec11 ch hm hd ha hb hi hq]; delta decXlane; rw [fIdx_wordR ch hm hd ha hb hi hq]; (try dsimp only)
  simp only [fCh_wordR ch hm hd ha hb hi hq, fMod_wordR ch hm hd ha hb hi hq, fD_wordR ch hm hd ha hb hi hq, fA_wordR ch hm hd ha hb hi hq, fB_wordR ch hm hd ha hb hi hq, noM, noD, noA, noB]
  have ht := once_of (i := .shfl ch d a b) rfl h
  exact (gate_bind rfl rfl).trans (mk3_ok (fD_wordR ch hm hd ha hb hi hq) (fA_wordR ch hm hd ha hb hi hq) (fB_wordR ch hm hd ha hb hi hq) ht h)
theorem RoundTrip.shflx (ch : Bool) (d : Dst) (a : Src) (b : Src) : RoundTrip.Statement (.shflx ch d a b) := by
  intro h
  have e0 : encode (.shflx ch d a b) = 0x2C000020 + bit01 ch <<< 31 + d.code <<< 20 + a.code <<< 14 + b.code <<< 8 := rfl
  have e : encode (.shflx ch d a b) = wordR 11 ch d.code a.code b.code 4 0 := by rw [e0]; simp only [wordR, Nat.shiftLeft_eq, bit01_false, bit01_true]; omega
  have hm : 11 < 31 := by decide
  have hi : 4 < 32 := by decide
  have hd : d.code < 64 := dst_lt d
  have ha : a.code < 64 := src_lt a
  have hb : b.code < 64 := src_lt b
  have hq := (show 0 < 8 by decide)
  rw [e]; refine ⟨wordR_lt ch hm hd ha hb hi hq, ?_⟩
  rw [dec11 ch hm hd ha hb hi hq]; delta decXlane; rw [fIdx_wordR ch hm hd ha hb hi hq]; (try dsimp only)
  simp only [fCh_wordR ch hm hd ha hb hi hq, fMod_wordR ch hm hd ha hb hi hq, fD_wordR ch hm hd ha hb hi hq, fA_wordR ch hm hd ha hb hi hq, fB_wordR ch hm hd ha hb hi hq, noM, noD, noA, noB]
  have ht := once_of (i := .shflx ch d a b) rfl h
  exact (gate_bind rfl rfl).trans (mk3_ok (fD_wordR ch hm hd ha hb hi hq) (fA_wordR ch hm hd ha hb hi hq) (fB_wordR ch hm hd ha hb hi hq) ht h)
theorem RoundTrip.bcast (ch : Bool) (d : Dst) (a : Src) (b : Src) : RoundTrip.Statement (.bcast ch d a b) := by
  intro h
  have e0 : encode (.bcast ch d a b) = 0x2C000028 + bit01 ch <<< 31 + d.code <<< 20 + a.code <<< 14 + b.code <<< 8 := rfl
  have e : encode (.bcast ch d a b) = wordR 11 ch d.code a.code b.code 5 0 := by rw [e0]; simp only [wordR, Nat.shiftLeft_eq, bit01_false, bit01_true]; omega
  have hm : 11 < 31 := by decide
  have hi : 5 < 32 := by decide
  have hd : d.code < 64 := dst_lt d
  have ha : a.code < 64 := src_lt a
  have hb : b.code < 64 := src_lt b
  have hq := (show 0 < 8 by decide)
  rw [e]; refine ⟨wordR_lt ch hm hd ha hb hi hq, ?_⟩
  rw [dec11 ch hm hd ha hb hi hq]; delta decXlane; rw [fIdx_wordR ch hm hd ha hb hi hq]; (try dsimp only)
  simp only [fCh_wordR ch hm hd ha hb hi hq, fMod_wordR ch hm hd ha hb hi hq, fD_wordR ch hm hd ha hb hi hq, fA_wordR ch hm hd ha hb hi hq, fB_wordR ch hm hd ha hb hi hq, noM, noD, noA, noB]
  have ht := once_of (i := .bcast ch d a b) rfl h
  exact (gate_bind rfl rfl).trans (mk3_ok (fD_wordR ch hm hd ha hb hi hq) (fA_wordR ch hm hd ha hb hi hq) (fB_wordR ch hm hd ha hb hi hq) ht h)
theorem RoundTrip.vote (ch : Bool) (d : Dst) (a : Src) (op : VoteOp) : RoundTrip.Statement (.vote ch d a op) := by
  intro h
  have e0 : encode (.vote ch d a op) = 0x2C000030 + bit01 ch <<< 31 + d.code <<< 20 + a.code <<< 14 + op.code := rfl
  have e : encode (.vote ch d a op) = wordR 11 ch d.code a.code 0 6 op.code := by rw [e0]; simp only [wordR, Nat.shiftLeft_eq, bit01_false, bit01_true]; omega
  have hm : 11 < 31 := by decide
  have hi : 6 < 32 := by decide
  have hd : d.code < 64 := dst_lt d
  have ha : a.code < 64 := src_lt a
  have hb : 0 < 64 := (by decide)
  have hq := (show op.code < 8 from Nat.lt_of_lt_of_le (vote_lt op) (by decide))
  rw [e]; refine ⟨wordR_lt ch hm hd ha hb hi hq, ?_⟩
  rw [dec11 ch hm hd ha hb hi hq]; delta decXlane; rw [fIdx_wordR ch hm hd ha hb hi hq]; (try dsimp only)
  simp only [fCh_wordR ch hm hd ha hb hi hq, fMod_wordR ch hm hd ha hb hi hq, fD_wordR ch hm hd ha hb hi hq, fA_wordR ch hm hd ha hb hi hq, fB_wordR ch hm hd ha hb hi hq, noM, noD, noA, noB, voteOf_code]
  exact (gate_bind (decide_eq_true (vote_lt op)) rfl).trans (mk2_ok (fD_wordR ch hm hd ha hb hi hq) (fA_wordR ch hm hd ha hb hi hq) h)
theorem RoundTrip.gred (ch : Bool) (d : Dst) (a : Src) (op : RedOp) : RoundTrip.Statement (.gred ch d a op) := by
  intro h
  have e0 : encode (.gred ch d a op) = 0x2C000038 + bit01 ch <<< 31 + d.code <<< 20 + a.code <<< 14 + op.code := rfl
  have e : encode (.gred ch d a op) = wordR 11 ch d.code a.code 0 7 op.code := by rw [e0]; simp only [wordR, Nat.shiftLeft_eq, bit01_false, bit01_true]; omega
  have hm : 11 < 31 := by decide
  have hi : 7 < 32 := by decide
  have hd : d.code < 64 := dst_lt d
  have ha : a.code < 64 := src_lt a
  have hb : 0 < 64 := (by decide)
  have hq := (show op.code < 8 from Nat.lt_of_lt_of_le (redOp_lt op) (by decide))
  rw [e]; refine ⟨wordR_lt ch hm hd ha hb hi hq, ?_⟩
  rw [dec11 ch hm hd ha hb hi hq]; delta decXlane; rw [fIdx_wordR ch hm hd ha hb hi hq]; (try dsimp only)
  simp only [fCh_wordR ch hm hd ha hb hi hq, fMod_wordR ch hm hd ha hb hi hq, fD_wordR ch hm hd ha hb hi hq, fA_wordR ch hm hd ha hb hi hq, fB_wordR ch hm hd ha hb hi hq, noM, noD, noA, noB, redOpOf_code]
  exact (gate_bind rfl rfl).trans (mk2_ok (fD_wordR ch hm hd ha hb hi hq) (fA_wordR ch hm hd ha hb hi hq) h)
theorem RoundTrip.gscan (ch : Bool) (d : Dst) (a : Src) (op : RedOp) : RoundTrip.Statement (.gscan ch d a op) := by
  intro h
  have e0 : encode (.gscan ch d a op) = 0x2C000040 + bit01 ch <<< 31 + d.code <<< 20 + a.code <<< 14 + op.code := rfl
  have e : encode (.gscan ch d a op) = wordR 11 ch d.code a.code 0 8 op.code := by rw [e0]; simp only [wordR, Nat.shiftLeft_eq, bit01_false, bit01_true]; omega
  have hm : 11 < 31 := by decide
  have hi : 8 < 32 := by decide
  have hd : d.code < 64 := dst_lt d
  have ha : a.code < 64 := src_lt a
  have hb : 0 < 64 := (by decide)
  have hq := (show op.code < 8 from Nat.lt_of_lt_of_le (redOp_lt op) (by decide))
  rw [e]; refine ⟨wordR_lt ch hm hd ha hb hi hq, ?_⟩
  rw [dec11 ch hm hd ha hb hi hq]; delta decXlane; rw [fIdx_wordR ch hm hd ha hb hi hq]; (try dsimp only)
  simp only [fCh_wordR ch hm hd ha hb hi hq, fMod_wordR ch hm hd ha hb hi hq, fD_wordR ch hm hd ha hb hi hq, fA_wordR ch hm hd ha hb hi hq, fB_wordR ch hm hd ha hb hi hq, noM, noD, noA, noB, redOpOf_code]
  exact (gate_bind rfl rfl).trans (mk2_ok (fD_wordR ch hm hd ha hb hi hq) (fA_wordR ch hm hd ha hb hi hq) h)
theorem RoundTrip.qred (ch : Bool) (d : Dst) (a : Src) (op : RedOp) : RoundTrip.Statement (.qred ch d a op) := by
  intro h
  have e0 : encode (.qred ch d a op) = 0x2C000048 + bit01 ch <<< 31 + d.code <<< 20 + a.code <<< 14 + op.code := rfl
  have e : encode (.qred ch d a op) = wordR 11 ch d.code a.code 0 9 op.code := by rw [e0]; simp only [wordR, Nat.shiftLeft_eq, bit01_false, bit01_true]; omega
  have hm : 11 < 31 := by decide
  have hi : 9 < 32 := by decide
  have hd : d.code < 64 := dst_lt d
  have ha : a.code < 64 := src_lt a
  have hb : 0 < 64 := (by decide)
  have hq := (show op.code < 8 from Nat.lt_of_lt_of_le (redOp_lt op) (by decide))
  rw [e]; refine ⟨wordR_lt ch hm hd ha hb hi hq, ?_⟩
  rw [dec11 ch hm hd ha hb hi hq]; delta decXlane; rw [fIdx_wordR ch hm hd ha hb hi hq]; (try dsimp only)
  simp only [fCh_wordR ch hm hd ha hb hi hq, fMod_wordR ch hm hd ha hb hi hq, fD_wordR ch hm hd ha hb hi hq, fA_wordR ch hm hd ha hb hi hq, fB_wordR ch hm hd ha hb hi hq, noM, noD, noA, noB, redOpOf_code]
  exact (gate_bind rfl rfl).trans (mk2_ok (fD_wordR ch hm hd ha hb hi hq) (fA_wordR ch hm hd ha hb hi hq) h)
theorem RoundTrip.xmatch (ch : Bool) (d : Dst) (a : Src) : RoundTrip.Statement (.xmatch ch d a) := by
  intro h
  have e0 : encode (.xmatch ch d a) = 0x2C000050 + bit01 ch <<< 31 + d.code <<< 20 + a.code <<< 14 := rfl
  have e : encode (.xmatch ch d a) = wordR 11 ch d.code a.code 0 10 0 := by rw [e0]; simp only [wordR, Nat.shiftLeft_eq, bit01_false, bit01_true]; omega
  have hm : 11 < 31 := by decide
  have hi : 10 < 32 := by decide
  have hd : d.code < 64 := dst_lt d
  have ha : a.code < 64 := src_lt a
  have hb : 0 < 64 := (by decide)
  have hq := (show 0 < 8 by decide)
  rw [e]; refine ⟨wordR_lt ch hm hd ha hb hi hq, ?_⟩
  rw [dec11 ch hm hd ha hb hi hq]; delta decXlane; rw [fIdx_wordR ch hm hd ha hb hi hq]; (try dsimp only)
  simp only [fCh_wordR ch hm hd ha hb hi hq, fMod_wordR ch hm hd ha hb hi hq, fD_wordR ch hm hd ha hb hi hq, fA_wordR ch hm hd ha hb hi hq, fB_wordR ch hm hd ha hb hi hq, noM, noD, noA, noB]
  exact (gate_bind rfl rfl).trans (mk2_ok (fD_wordR ch hm hd ha hb hi hq) (fA_wordR ch hm hd ha hb hi hq) h)
theorem RoundTrip.bmax (ch : Bool) (d : Dst) (a : Src) (f : EFmt) : RoundTrip.Statement (.bmax ch d a f) := by
  intro h
  have e0 : encode (.bmax ch d a f) = 0x30000000 + bit01 ch <<< 31 + d.code <<< 20 + a.code <<< 14 + f.code := rfl
  have e : encode (.bmax ch d a f) = wordR 12 ch d.code a.code 0 0 f.code := by rw [e0]; simp only [wordR, Nat.shiftLeft_eq, bit01_false, bit01_true]; omega
  have hm : 12 < 31 := by decide
  have hi : 0 < 32 := by decide
  have hd : d.code < 64 := dst_lt d
  have ha : a.code < 64 := src_lt a
  have hb : 0 < 64 := (by decide)
  have hq := (show f.code < 8 from Nat.lt_of_lt_of_le (efmt_lt f) (by decide))
  rw [e]; refine ⟨wordR_lt ch hm hd ha hb hi hq, ?_⟩
  rw [dec12 ch hm hd ha hb hi hq]; delta decBlock; rw [fIdx_wordR ch hm hd ha hb hi hq]; (try dsimp only)
  simp only [fCh_wordR ch hm hd ha hb hi hq, fMod_wordR ch hm hd ha hb hi hq, fD_wordR ch hm hd ha hb hi hq, fA_wordR ch hm hd ha hb hi hq, fB_wordR ch hm hd ha hb hi hq, noM, noD, noA, noB, efmtOf_code]
  exact (gate_bind (decide_eq_true (efmt_lt f)) rfl).trans (mk2_ok (fD_wordR ch hm hd ha hb hi hq) (fA_wordR ch hm hd ha hb hi hq) h)
theorem RoundTrip.bscale (ch : Bool) (d : Dst) (a : Src) (pol : BitVec 2) (f : EFmt) : RoundTrip.Statement (.bscale ch d a pol f) := by
  intro h
  have e0 : encode (.bscale ch d a pol f) = 0x30000008 + bit01 ch <<< 31 + d.code <<< 20 + a.code <<< 14 + pol.toNat <<< 8 + f.code := rfl
  have e : encode (.bscale ch d a pol f) = wordR 12 ch d.code a.code pol.toNat 1 f.code := by rw [e0]; simp only [wordR, Nat.shiftLeft_eq, bit01_false, bit01_true]; omega
  have hm : 12 < 31 := by decide
  have hi : 1 < 32 := by decide
  have hd : d.code < 64 := dst_lt d
  have ha : a.code < 64 := src_lt a
  have hb : pol.toNat < 64 := (by have := pol.isLt; omega)
  have hq := (show f.code < 8 from Nat.lt_of_lt_of_le (efmt_lt f) (by decide))
  rw [e]; refine ⟨wordR_lt ch hm hd ha hb hi hq, ?_⟩
  rw [dec12 ch hm hd ha hb hi hq]; delta decBlock; rw [fIdx_wordR ch hm hd ha hb hi hq]; (try dsimp only)
  simp only [fCh_wordR ch hm hd ha hb hi hq, fMod_wordR ch hm hd ha hb hi hq, fD_wordR ch hm hd ha hb hi hq, fA_wordR ch hm hd ha hb hi hq, fB_wordR ch hm hd ha hb hi hq, noM, noD, noA, noB, efmtOf_code, BitVec.ofNat_toNat, BitVec.setWidth_eq]
  refine (gate_bind (decide_eq_true (efmt_lt f)) rfl).trans ?_
  rw [getSrc_code, getDst_code]; exact (req_bind (by rw [Bool.or_eq_true]; exact .inl (decide_eq_true pol.isLt))).trans (finish_ok h)
theorem RoundTrip.bqnt (ch : Bool) (d : Dst) (a : Src) (b : Src) (f : EFmt) : RoundTrip.Statement (.bqnt ch d a b f) := by
  intro h
  have e0 : encode (.bqnt ch d a b f) = 0x30000010 + bit01 ch <<< 31 + d.code <<< 20 + a.code <<< 14 + b.code <<< 8 + f.code := rfl
  have e : encode (.bqnt ch d a b f) = wordR 12 ch d.code a.code b.code 2 f.code := by rw [e0]; simp only [wordR, Nat.shiftLeft_eq, bit01_false, bit01_true]; omega
  have hm : 12 < 31 := by decide
  have hi : 2 < 32 := by decide
  have hd : d.code < 64 := dst_lt d
  have ha : a.code < 64 := src_lt a
  have hb : b.code < 64 := src_lt b
  have hq := (show f.code < 8 from Nat.lt_of_lt_of_le (efmt_lt f) (by decide))
  rw [e]; refine ⟨wordR_lt ch hm hd ha hb hi hq, ?_⟩
  rw [dec12 ch hm hd ha hb hi hq]; delta decBlock; rw [fIdx_wordR ch hm hd ha hb hi hq]; (try dsimp only)
  simp only [fCh_wordR ch hm hd ha hb hi hq, fMod_wordR ch hm hd ha hb hi hq, fD_wordR ch hm hd ha hb hi hq, fA_wordR ch hm hd ha hb hi hq, fB_wordR ch hm hd ha hb hi hq, noM, noD, noA, noB, efmtOf_code]
  have ht := once_of (i := .bqnt ch d a b f) rfl h
  exact (gate_bind (decide_eq_true (efmt_lt f)) rfl).trans (mk3_ok (fD_wordR ch hm hd ha hb hi hq) (fA_wordR ch hm hd ha hb hi hq) (fB_wordR ch hm hd ha hb hi hq) ht h)
theorem RoundTrip.bdqnt (ch : Bool) (d : Dst) (a : Src) (f : EFmt) : RoundTrip.Statement (.bdqnt ch d a f) := by
  intro h
  have e0 : encode (.bdqnt ch d a f) = 0x30000018 + bit01 ch <<< 31 + d.code <<< 20 + a.code <<< 14 + f.code := rfl
  have e : encode (.bdqnt ch d a f) = wordR 12 ch d.code a.code 0 3 f.code := by rw [e0]; simp only [wordR, Nat.shiftLeft_eq, bit01_false, bit01_true]; omega
  have hm : 12 < 31 := by decide
  have hi : 3 < 32 := by decide
  have hd : d.code < 64 := dst_lt d
  have ha : a.code < 64 := src_lt a
  have hb : 0 < 64 := (by decide)
  have hq := (show f.code < 8 from Nat.lt_of_lt_of_le (efmt_lt f) (by decide))
  rw [e]; refine ⟨wordR_lt ch hm hd ha hb hi hq, ?_⟩
  rw [dec12 ch hm hd ha hb hi hq]; delta decBlock; rw [fIdx_wordR ch hm hd ha hb hi hq]; (try dsimp only)
  simp only [fCh_wordR ch hm hd ha hb hi hq, fMod_wordR ch hm hd ha hb hi hq, fD_wordR ch hm hd ha hb hi hq, fA_wordR ch hm hd ha hb hi hq, fB_wordR ch hm hd ha hb hi hq, noM, noD, noA, noB, efmtOf_code]
  exact (gate_bind (decide_eq_true (efmt_lt f)) rfl).trans (mk2_ok (fD_wordR ch hm hd ha hb hi hq) (fA_wordR ch hm hd ha hb hi hq) h)
theorem RoundTrip.bsetsc (ch : Bool) (d : Dst) (a : Src) (b : Src) (f : EFmt) : RoundTrip.Statement (.bsetsc ch d a b f) := by
  intro h
  have e0 : encode (.bsetsc ch d a b f) = 0x30000020 + bit01 ch <<< 31 + d.code <<< 20 + a.code <<< 14 + b.code <<< 8 + f.code := rfl
  have e : encode (.bsetsc ch d a b f) = wordR 12 ch d.code a.code b.code 4 f.code := by rw [e0]; simp only [wordR, Nat.shiftLeft_eq, bit01_false, bit01_true]; omega
  have hm : 12 < 31 := by decide
  have hi : 4 < 32 := by decide
  have hd : d.code < 64 := dst_lt d
  have ha : a.code < 64 := src_lt a
  have hb : b.code < 64 := src_lt b
  have hq := (show f.code < 8 from Nat.lt_of_lt_of_le (efmt_lt f) (by decide))
  rw [e]; refine ⟨wordR_lt ch hm hd ha hb hi hq, ?_⟩
  rw [dec12 ch hm hd ha hb hi hq]; delta decBlock; rw [fIdx_wordR ch hm hd ha hb hi hq]; (try dsimp only)
  simp only [fCh_wordR ch hm hd ha hb hi hq, fMod_wordR ch hm hd ha hb hi hq, fD_wordR ch hm hd ha hb hi hq, fA_wordR ch hm hd ha hb hi hq, fB_wordR ch hm hd ha hb hi hq, noM, noD, noA, noB, efmtOf_code]
  have ht := once_of (i := .bsetsc ch d a b f) rfl h
  exact (gate_bind (decide_eq_true (efmt_lt f)) rfl).trans (mk3_ok (fD_wordR ch hm hd ha hb hi hq) (fA_wordR ch hm hd ha hb hi hq) (fB_wordR ch hm hd ha hb hi hq) ht h)
theorem RoundTrip.bgetsc (ch : Bool) (d : Dst) (a : Src) (f : EFmt) : RoundTrip.Statement (.bgetsc ch d a f) := by
  intro h
  have e0 : encode (.bgetsc ch d a f) = 0x30000028 + bit01 ch <<< 31 + d.code <<< 20 + a.code <<< 14 + f.code := rfl
  have e : encode (.bgetsc ch d a f) = wordR 12 ch d.code a.code 0 5 f.code := by rw [e0]; simp only [wordR, Nat.shiftLeft_eq, bit01_false, bit01_true]; omega
  have hm : 12 < 31 := by decide
  have hi : 5 < 32 := by decide
  have hd : d.code < 64 := dst_lt d
  have ha : a.code < 64 := src_lt a
  have hb : 0 < 64 := (by decide)
  have hq := (show f.code < 8 from Nat.lt_of_lt_of_le (efmt_lt f) (by decide))
  rw [e]; refine ⟨wordR_lt ch hm hd ha hb hi hq, ?_⟩
  rw [dec12 ch hm hd ha hb hi hq]; delta decBlock; rw [fIdx_wordR ch hm hd ha hb hi hq]; (try dsimp only)
  simp only [fCh_wordR ch hm hd ha hb hi hq, fMod_wordR ch hm hd ha hb hi hq, fD_wordR ch hm hd ha hb hi hq, fA_wordR ch hm hd ha hb hi hq, fB_wordR ch hm hd ha hb hi hq, noM, noD, noA, noB, efmtOf_code]
  exact (gate_bind (decide_eq_true (efmt_lt f)) rfl).trans (mk2_ok (fD_wordR ch hm hd ha hb hi hq) (fA_wordR ch hm hd ha hb hi hq) h)
theorem RoundTrip.bshift (ch : Bool) (d : Dst) (a : Src) (b : Src) (f : EFmt) : RoundTrip.Statement (.bshift ch d a b f) := by
  intro h
  have e0 : encode (.bshift ch d a b f) = 0x30000030 + bit01 ch <<< 31 + d.code <<< 20 + a.code <<< 14 + b.code <<< 8 + f.code := rfl
  have e : encode (.bshift ch d a b f) = wordR 12 ch d.code a.code b.code 6 f.code := by rw [e0]; simp only [wordR, Nat.shiftLeft_eq, bit01_false, bit01_true]; omega
  have hm : 12 < 31 := by decide
  have hi : 6 < 32 := by decide
  have hd : d.code < 64 := dst_lt d
  have ha : a.code < 64 := src_lt a
  have hb : b.code < 64 := src_lt b
  have hq := (show f.code < 8 from Nat.lt_of_lt_of_le (efmt_lt f) (by decide))
  rw [e]; refine ⟨wordR_lt ch hm hd ha hb hi hq, ?_⟩
  rw [dec12 ch hm hd ha hb hi hq]; delta decBlock; rw [fIdx_wordR ch hm hd ha hb hi hq]; (try dsimp only)
  simp only [fCh_wordR ch hm hd ha hb hi hq, fMod_wordR ch hm hd ha hb hi hq, fD_wordR ch hm hd ha hb hi hq, fA_wordR ch hm hd ha hb hi hq, fB_wordR ch hm hd ha hb hi hq, noM, noD, noA, noB, efmtOf_code]
  have ht := once_of (i := .bshift ch d a b f) rfl h
  exact (gate_bind (decide_eq_true (efmt_lt f)) rfl).trans (mk3_ok (fD_wordR ch hm hd ha hb hi hq) (fA_wordR ch hm hd ha hb hi hq) (fB_wordR ch hm hd ha hb hi hq) ht h)
theorem RoundTrip.brescale (ch : Bool) (d : Dst) (a : Src) (b : Src) (f : EFmt) : RoundTrip.Statement (.brescale ch d a b f) := by
  intro h
  have e0 : encode (.brescale ch d a b f) = 0x30000038 + bit01 ch <<< 31 + d.code <<< 20 + a.code <<< 14 + b.code <<< 8 + f.code := rfl
  have e : encode (.brescale ch d a b f) = wordR 12 ch d.code a.code b.code 7 f.code := by rw [e0]; simp only [wordR, Nat.shiftLeft_eq, bit01_false, bit01_true]; omega
  have hm : 12 < 31 := by decide
  have hi : 7 < 32 := by decide
  have hd : d.code < 64 := dst_lt d
  have ha : a.code < 64 := src_lt a
  have hb : b.code < 64 := src_lt b
  have hq := (show f.code < 8 from Nat.lt_of_lt_of_le (efmt_lt f) (by decide))
  rw [e]; refine ⟨wordR_lt ch hm hd ha hb hi hq, ?_⟩
  rw [dec12 ch hm hd ha hb hi hq]; delta decBlock; rw [fIdx_wordR ch hm hd ha hb hi hq]; (try dsimp only)
  simp only [fCh_wordR ch hm hd ha hb hi hq, fMod_wordR ch hm hd ha hb hi hq, fD_wordR ch hm hd ha hb hi hq, fA_wordR ch hm hd ha hb hi hq, fB_wordR ch hm hd ha hb hi hq, noM, noD, noA, noB, efmtOf_code]
  have ht := once_of (i := .brescale ch d a b f) rfl h
  exact (gate_bind (decide_eq_true (efmt_lt f)) rfl).trans (mk3_ok (fD_wordR ch hm hd ha hb hi hq) (fA_wordR ch hm hd ha hb hi hq) (fB_wordR ch hm hd ha hb hi hq) ht h)
theorem RoundTrip.bdot (ch : Bool) (d : Dst) (a : Src) (b : Src) (f : EFmt) : RoundTrip.Statement (.bdot ch d a b f) := by
  intro h
  have e0 : encode (.bdot ch d a b f) = 0x30000040 + bit01 ch <<< 31 + d.code <<< 20 + a.code <<< 14 + b.code <<< 8 + f.code := rfl
  have e : encode (.bdot ch d a b f) = wordR 12 ch d.code a.code b.code 8 f.code := by rw [e0]; simp only [wordR, Nat.shiftLeft_eq, bit01_false, bit01_true]; omega
  have hm : 12 < 31 := by decide
  have hi : 8 < 32 := by decide
  have hd : d.code < 64 := dst_lt d
  have ha : a.code < 64 := src_lt a
  have hb : b.code < 64 := src_lt b
  have hq := (show f.code < 8 from Nat.lt_of_lt_of_le (efmt_lt f) (by decide))
  rw [e]; refine ⟨wordR_lt ch hm hd ha hb hi hq, ?_⟩
  rw [dec12 ch hm hd ha hb hi hq]; delta decBlock; rw [fIdx_wordR ch hm hd ha hb hi hq]; (try dsimp only)
  simp only [fCh_wordR ch hm hd ha hb hi hq, fMod_wordR ch hm hd ha hb hi hq, fD_wordR ch hm hd ha hb hi hq, fA_wordR ch hm hd ha hb hi hq, fB_wordR ch hm hd ha hb hi hq, noM, noD, noA, noB, efmtOf_code]
  have ht := once_of (i := .bdot ch d a b f) rfl h
  exact (gate_bind (decide_eq_true (efmt_lt f)) rfl).trans (mk3_ok (fD_wordR ch hm hd ha hb hi hq) (fA_wordR ch hm hd ha hb hi hq) (fB_wordR ch hm hd ha hb hi hq) ht h)
theorem RoundTrip.ldB8u (ch : Bool) (d : Dst) (a : Src) (off : BitVec 10) : RoundTrip.Statement (.ldB8u ch d a off) := by
  intro h
  have e0 : encode (.ldB8u ch d a off) = 0x34000000 + bit01 ch <<< 31 + d.code <<< 20 + a.code <<< 14 + off.toNat := rfl
  have e : encode (.ldB8u ch d a off) = wordL 13 ch d.code a.code 0 (off.toNat) := by rw [e0]; simp only [wordL, wordI, Nat.shiftLeft_eq]; omega
  have hd : d.code < 64 := dst_lt d
  have ha := src_lt a
  have hk : 0 < 16 := by decide
  have hm : 13 < 31 := by decide
  have ho : off.toNat < 2 ^ 10 := off.isLt
  rw [e]; refine ⟨wordL_lt ch hm hd ha hk ho, ?_⟩
  rw [dec13 ch hm hd ha hk ho]; delta decLd; rw [op_wordL ch hm hd ha hk ho]; (try dsimp only)
  rw [fCh_wordL ch hm hd ha hk ho, off_wordL ch hm hd ha hk ho, BitVec.ofNat_toNat, BitVec.setWidth_eq]
  exact mk2_ok (fD_wordL ch hm hd ha hk ho) (fA_wordL ch hm hd ha hk ho) h
theorem RoundTrip.ldB8s (ch : Bool) (d : Dst) (a : Src) (off : BitVec 10) : RoundTrip.Statement (.ldB8s ch d a off) := by
  intro h
  have e0 : encode (.ldB8s ch d a off) = 0x34000400 + bit01 ch <<< 31 + d.code <<< 20 + a.code <<< 14 + off.toNat := rfl
  have e : encode (.ldB8s ch d a off) = wordL 13 ch d.code a.code 1 (off.toNat) := by rw [e0]; simp only [wordL, wordI, Nat.shiftLeft_eq]; omega
  have hd : d.code < 64 := dst_lt d
  have ha := src_lt a
  have hk : 1 < 16 := by decide
  have hm : 13 < 31 := by decide
  have ho : off.toNat < 2 ^ 10 := off.isLt
  rw [e]; refine ⟨wordL_lt ch hm hd ha hk ho, ?_⟩
  rw [dec13 ch hm hd ha hk ho]; delta decLd; rw [op_wordL ch hm hd ha hk ho]; (try dsimp only)
  rw [fCh_wordL ch hm hd ha hk ho, off_wordL ch hm hd ha hk ho, BitVec.ofNat_toNat, BitVec.setWidth_eq]
  exact mk2_ok (fD_wordL ch hm hd ha hk ho) (fA_wordL ch hm hd ha hk ho) h
theorem RoundTrip.ldB16u (ch : Bool) (d : Dst) (a : Src) (off : BitVec 10) : RoundTrip.Statement (.ldB16u ch d a off) := by
  intro h
  have e0 : encode (.ldB16u ch d a off) = 0x34000800 + bit01 ch <<< 31 + d.code <<< 20 + a.code <<< 14 + off.toNat := rfl
  have e : encode (.ldB16u ch d a off) = wordL 13 ch d.code a.code 2 (off.toNat) := by rw [e0]; simp only [wordL, wordI, Nat.shiftLeft_eq]; omega
  have hd : d.code < 64 := dst_lt d
  have ha := src_lt a
  have hk : 2 < 16 := by decide
  have hm : 13 < 31 := by decide
  have ho : off.toNat < 2 ^ 10 := off.isLt
  rw [e]; refine ⟨wordL_lt ch hm hd ha hk ho, ?_⟩
  rw [dec13 ch hm hd ha hk ho]; delta decLd; rw [op_wordL ch hm hd ha hk ho]; (try dsimp only)
  rw [fCh_wordL ch hm hd ha hk ho, off_wordL ch hm hd ha hk ho, BitVec.ofNat_toNat, BitVec.setWidth_eq]
  exact mk2_ok (fD_wordL ch hm hd ha hk ho) (fA_wordL ch hm hd ha hk ho) h
theorem RoundTrip.ldB16s (ch : Bool) (d : Dst) (a : Src) (off : BitVec 10) : RoundTrip.Statement (.ldB16s ch d a off) := by
  intro h
  have e0 : encode (.ldB16s ch d a off) = 0x34000C00 + bit01 ch <<< 31 + d.code <<< 20 + a.code <<< 14 + off.toNat := rfl
  have e : encode (.ldB16s ch d a off) = wordL 13 ch d.code a.code 3 (off.toNat) := by rw [e0]; simp only [wordL, wordI, Nat.shiftLeft_eq]; omega
  have hd : d.code < 64 := dst_lt d
  have ha := src_lt a
  have hk : 3 < 16 := by decide
  have hm : 13 < 31 := by decide
  have ho : off.toNat < 2 ^ 10 := off.isLt
  rw [e]; refine ⟨wordL_lt ch hm hd ha hk ho, ?_⟩
  rw [dec13 ch hm hd ha hk ho]; delta decLd; rw [op_wordL ch hm hd ha hk ho]; (try dsimp only)
  rw [fCh_wordL ch hm hd ha hk ho, off_wordL ch hm hd ha hk ho, BitVec.ofNat_toNat, BitVec.setWidth_eq]
  exact mk2_ok (fD_wordL ch hm hd ha hk ho) (fA_wordL ch hm hd ha hk ho) h
theorem RoundTrip.ldB32 (ch : Bool) (d : Dst) (a : Src) (off : BitVec 10) : RoundTrip.Statement (.ldB32 ch d a off) := by
  intro h
  have e0 : encode (.ldB32 ch d a off) = 0x34001000 + bit01 ch <<< 31 + d.code <<< 20 + a.code <<< 14 + off.toNat := rfl
  have e : encode (.ldB32 ch d a off) = wordL 13 ch d.code a.code 4 (off.toNat) := by rw [e0]; simp only [wordL, wordI, Nat.shiftLeft_eq]; omega
  have hd : d.code < 64 := dst_lt d
  have ha := src_lt a
  have hk : 4 < 16 := by decide
  have hm : 13 < 31 := by decide
  have ho : off.toNat < 2 ^ 10 := off.isLt
  rw [e]; refine ⟨wordL_lt ch hm hd ha hk ho, ?_⟩
  rw [dec13 ch hm hd ha hk ho]; delta decLd; rw [op_wordL ch hm hd ha hk ho]; (try dsimp only)
  rw [fCh_wordL ch hm hd ha hk ho, off_wordL ch hm hd ha hk ho, BitVec.ofNat_toNat, BitVec.setWidth_eq]
  exact mk2_ok (fD_wordL ch hm hd ha hk ho) (fA_wordL ch hm hd ha hk ho) h
theorem RoundTrip.ldB64 (ch : Bool) (d : Dst) (a : Src) (off : BitVec 10) : RoundTrip.Statement (.ldB64 ch d a off) := by
  intro h
  have e0 : encode (.ldB64 ch d a off) = 0x34001400 + bit01 ch <<< 31 + d.code <<< 20 + a.code <<< 14 + off.toNat := rfl
  have e : encode (.ldB64 ch d a off) = wordL 13 ch d.code a.code 5 (off.toNat) := by rw [e0]; simp only [wordL, wordI, Nat.shiftLeft_eq]; omega
  have hd : d.code < 64 := dst_lt d
  have ha := src_lt a
  have hk : 5 < 16 := by decide
  have hm : 13 < 31 := by decide
  have ho : off.toNat < 2 ^ 10 := off.isLt
  rw [e]; refine ⟨wordL_lt ch hm hd ha hk ho, ?_⟩
  rw [dec13 ch hm hd ha hk ho]; delta decLd; rw [op_wordL ch hm hd ha hk ho]; (try dsimp only)
  rw [fCh_wordL ch hm hd ha hk ho, off_wordL ch hm hd ha hk ho, BitVec.ofNat_toNat, BitVec.setWidth_eq]
  exact mk2_ok (fD_wordL ch hm hd ha hk ho) (fA_wordL ch hm hd ha hk ho) h
theorem RoundTrip.ldB128 (ch : Bool) (d : Dst) (a : Src) (off : BitVec 10) : RoundTrip.Statement (.ldB128 ch d a off) := by
  intro h
  have e0 : encode (.ldB128 ch d a off) = 0x34001800 + bit01 ch <<< 31 + d.code <<< 20 + a.code <<< 14 + off.toNat := rfl
  have e : encode (.ldB128 ch d a off) = wordL 13 ch d.code a.code 6 (off.toNat) := by rw [e0]; simp only [wordL, wordI, Nat.shiftLeft_eq]; omega
  have hd : d.code < 64 := dst_lt d
  have ha := src_lt a
  have hk : 6 < 16 := by decide
  have hm : 13 < 31 := by decide
  have ho : off.toNat < 2 ^ 10 := off.isLt
  rw [e]; refine ⟨wordL_lt ch hm hd ha hk ho, ?_⟩
  rw [dec13 ch hm hd ha hk ho]; delta decLd; rw [op_wordL ch hm hd ha hk ho]; (try dsimp only)
  rw [fCh_wordL ch hm hd ha hk ho, off_wordL ch hm hd ha hk ho, BitVec.ofNat_toNat, BitVec.setWidth_eq]
  exact mk2_ok (fD_wordL ch hm hd ha hk ho) (fA_wordL ch hm hd ha hk ho) h
theorem RoundTrip.ldacqB32 (ch : Bool) (d : Dst) (a : Src) (off : BitVec 10) : RoundTrip.Statement (.ldacqB32 ch d a off) := by
  intro h
  have e0 : encode (.ldacqB32 ch d a off) = 0x34001C00 + bit01 ch <<< 31 + d.code <<< 20 + a.code <<< 14 + off.toNat := rfl
  have e : encode (.ldacqB32 ch d a off) = wordL 13 ch d.code a.code 7 (off.toNat) := by rw [e0]; simp only [wordL, wordI, Nat.shiftLeft_eq]; omega
  have hd : d.code < 64 := dst_lt d
  have ha := src_lt a
  have hk : 7 < 16 := by decide
  have hm : 13 < 31 := by decide
  have ho : off.toNat < 2 ^ 10 := off.isLt
  rw [e]; refine ⟨wordL_lt ch hm hd ha hk ho, ?_⟩
  rw [dec13 ch hm hd ha hk ho]; delta decLd; rw [op_wordL ch hm hd ha hk ho]; (try dsimp only)
  rw [fCh_wordL ch hm hd ha hk ho, off_wordL ch hm hd ha hk ho, BitVec.ofNat_toNat, BitVec.setWidth_eq]
  exact mk2_ok (fD_wordL ch hm hd ha hk ho) (fA_wordL ch hm hd ha hk ho) h
theorem RoundTrip.ldacqB64 (ch : Bool) (d : Dst) (a : Src) (off : BitVec 10) : RoundTrip.Statement (.ldacqB64 ch d a off) := by
  intro h
  have e0 : encode (.ldacqB64 ch d a off) = 0x34002000 + bit01 ch <<< 31 + d.code <<< 20 + a.code <<< 14 + off.toNat := rfl
  have e : encode (.ldacqB64 ch d a off) = wordL 13 ch d.code a.code 8 (off.toNat) := by rw [e0]; simp only [wordL, wordI, Nat.shiftLeft_eq]; omega
  have hd : d.code < 64 := dst_lt d
  have ha := src_lt a
  have hk : 8 < 16 := by decide
  have hm : 13 < 31 := by decide
  have ho : off.toNat < 2 ^ 10 := off.isLt
  rw [e]; refine ⟨wordL_lt ch hm hd ha hk ho, ?_⟩
  rw [dec13 ch hm hd ha hk ho]; delta decLd; rw [op_wordL ch hm hd ha hk ho]; (try dsimp only)
  rw [fCh_wordL ch hm hd ha hk ho, off_wordL ch hm hd ha hk ho, BitVec.ofNat_toNat, BitVec.setWidth_eq]
  exact mk2_ok (fD_wordL ch hm hd ha hk ho) (fA_wordL ch hm hd ha hk ho) h
theorem RoundTrip.ldsB32 (ch : Bool) (d : Dst) (a : Src) (off : BitVec 10) : RoundTrip.Statement (.ldsB32 ch d a off) := by
  intro h
  have e0 : encode (.ldsB32 ch d a off) = 0x34002400 + bit01 ch <<< 31 + d.code <<< 20 + a.code <<< 14 + off.toNat := rfl
  have e : encode (.ldsB32 ch d a off) = wordL 13 ch d.code a.code 9 (off.toNat) := by rw [e0]; simp only [wordL, wordI, Nat.shiftLeft_eq]; omega
  have hd : d.code < 64 := dst_lt d
  have ha := src_lt a
  have hk : 9 < 16 := by decide
  have hm : 13 < 31 := by decide
  have ho : off.toNat < 2 ^ 10 := off.isLt
  rw [e]; refine ⟨wordL_lt ch hm hd ha hk ho, ?_⟩
  rw [dec13 ch hm hd ha hk ho]; delta decLd; rw [op_wordL ch hm hd ha hk ho]; (try dsimp only)
  rw [fCh_wordL ch hm hd ha hk ho, off_wordL ch hm hd ha hk ho, BitVec.ofNat_toNat, BitVec.setWidth_eq]
  exact mk2_ok (fD_wordL ch hm hd ha hk ho) (fA_wordL ch hm hd ha hk ho) h
theorem RoundTrip.ldsB64 (ch : Bool) (d : Dst) (a : Src) (off : BitVec 10) : RoundTrip.Statement (.ldsB64 ch d a off) := by
  intro h
  have e0 : encode (.ldsB64 ch d a off) = 0x34002800 + bit01 ch <<< 31 + d.code <<< 20 + a.code <<< 14 + off.toNat := rfl
  have e : encode (.ldsB64 ch d a off) = wordL 13 ch d.code a.code 10 (off.toNat) := by rw [e0]; simp only [wordL, wordI, Nat.shiftLeft_eq]; omega
  have hd : d.code < 64 := dst_lt d
  have ha := src_lt a
  have hk : 10 < 16 := by decide
  have hm : 13 < 31 := by decide
  have ho : off.toNat < 2 ^ 10 := off.isLt
  rw [e]; refine ⟨wordL_lt ch hm hd ha hk ho, ?_⟩
  rw [dec13 ch hm hd ha hk ho]; delta decLd; rw [op_wordL ch hm hd ha hk ho]; (try dsimp only)
  rw [fCh_wordL ch hm hd ha hk ho, off_wordL ch hm hd ha hk ho, BitVec.ofNat_toNat, BitVec.setWidth_eq]
  exact mk2_ok (fD_wordL ch hm hd ha hk ho) (fA_wordL ch hm hd ha hk ho) h
theorem RoundTrip.ldsB128 (ch : Bool) (d : Dst) (a : Src) (off : BitVec 10) : RoundTrip.Statement (.ldsB128 ch d a off) := by
  intro h
  have e0 : encode (.ldsB128 ch d a off) = 0x34002C00 + bit01 ch <<< 31 + d.code <<< 20 + a.code <<< 14 + off.toNat := rfl
  have e : encode (.ldsB128 ch d a off) = wordL 13 ch d.code a.code 11 (off.toNat) := by rw [e0]; simp only [wordL, wordI, Nat.shiftLeft_eq]; omega
  have hd : d.code < 64 := dst_lt d
  have ha := src_lt a
  have hk : 11 < 16 := by decide
  have hm : 13 < 31 := by decide
  have ho : off.toNat < 2 ^ 10 := off.isLt
  rw [e]; refine ⟨wordL_lt ch hm hd ha hk ho, ?_⟩
  rw [dec13 ch hm hd ha hk ho]; delta decLd; rw [op_wordL ch hm hd ha hk ho]; (try dsimp only)
  rw [fCh_wordL ch hm hd ha hk ho, off_wordL ch hm hd ha hk ho, BitVec.ofNat_toNat, BitVec.setWidth_eq]
  exact mk2_ok (fD_wordL ch hm hd ha hk ho) (fA_wordL ch hm hd ha hk ho) h
theorem RoundTrip.ldb (ch : Bool) (d : Dst) (a : Src) (f : EFmt) (off : BitVec 7) : RoundTrip.Statement (.ldb ch d a f off) := by
  intro h
  have e0 : encode (.ldb ch d a f off) = 0x34003000 + bit01 ch <<< 31 + d.code <<< 20 + a.code <<< 14 + f.code <<< 7 + off.toNat := rfl
  have e : encode (.ldb ch d a f off) = wordL 13 ch d.code a.code 12 (f.code * 2 ^ 7 + off.toNat) := by rw [e0]; simp only [wordL, wordI, Nat.shiftLeft_eq]; omega
  have hd : d.code < 64 := dst_lt d
  have ha := src_lt a
  have hk : 12 < 16 := by decide
  have hm : 13 < 31 := by decide
  have hf := efmt_lt f; have hof := off.isLt
  have ho : f.code * 2 ^ 7 + off.toNat < 2 ^ 10 := by omega
  rw [e]; refine ⟨wordL_lt ch hm hd ha hk ho, ?_⟩
  rw [dec13 ch hm hd ha hk ho]; delta decLd; rw [op_wordL ch hm hd ha hk ho]; (try dsimp only)
  rw [fCh_wordL ch hm hd ha hk ho, fmt_wordL ch hm hd ha hk ho, off7_wordL ch hm hd ha hk ho, fmt_lo hf off, off_lo hf off, efmtOf_code]
  exact (req_bind (decide_eq_true hf)).trans (mk2_ok (fD_wordL ch hm hd ha hk ho) (fA_wordL ch hm hd ha hk ho) h)
theorem RoundTrip.ldbs (ch : Bool) (d : Dst) (a : Src) (f : EFmt) (off : BitVec 7) : RoundTrip.Statement (.ldbs ch d a f off) := by
  intro h
  have e0 : encode (.ldbs ch d a f off) = 0x34003400 + bit01 ch <<< 31 + d.code <<< 20 + a.code <<< 14 + f.code <<< 7 + off.toNat := rfl
  have e : encode (.ldbs ch d a f off) = wordL 13 ch d.code a.code 13 (f.code * 2 ^ 7 + off.toNat) := by rw [e0]; simp only [wordL, wordI, Nat.shiftLeft_eq]; omega
  have hd : d.code < 64 := dst_lt d
  have ha := src_lt a
  have hk : 13 < 16 := by decide
  have hm : 13 < 31 := by decide
  have hf := efmt_lt f; have hof := off.isLt
  have ho : f.code * 2 ^ 7 + off.toNat < 2 ^ 10 := by omega
  rw [e]; refine ⟨wordL_lt ch hm hd ha hk ho, ?_⟩
  rw [dec13 ch hm hd ha hk ho]; delta decLd; rw [op_wordL ch hm hd ha hk ho]; (try dsimp only)
  rw [fCh_wordL ch hm hd ha hk ho, fmt_wordL ch hm hd ha hk ho, off7_wordL ch hm hd ha hk ho, fmt_lo hf off, off_lo hf off, efmtOf_code]
  exact (req_bind (decide_eq_true hf)).trans (mk2_ok (fD_wordL ch hm hd ha hk ho) (fA_wordL ch hm hd ha hk ho) h)
theorem RoundTrip.ldncB32 (ch : Bool) (d : Dst) (a : Src) (off : BitVec 10) : RoundTrip.Statement (.ldncB32 ch d a off) := by
  intro h
  have e0 : encode (.ldncB32 ch d a off) = 0x34003800 + bit01 ch <<< 31 + d.code <<< 20 + a.code <<< 14 + off.toNat := rfl
  have e : encode (.ldncB32 ch d a off) = wordL 13 ch d.code a.code 14 (off.toNat) := by rw [e0]; simp only [wordL, wordI, Nat.shiftLeft_eq]; omega
  have hd : d.code < 64 := dst_lt d
  have ha := src_lt a
  have hk : 14 < 16 := by decide
  have hm : 13 < 31 := by decide
  have ho : off.toNat < 2 ^ 10 := off.isLt
  rw [e]; refine ⟨wordL_lt ch hm hd ha hk ho, ?_⟩
  rw [dec13 ch hm hd ha hk ho]; delta decLd; rw [op_wordL ch hm hd ha hk ho]; (try dsimp only)
  rw [fCh_wordL ch hm hd ha hk ho, off_wordL ch hm hd ha hk ho, BitVec.ofNat_toNat, BitVec.setWidth_eq]
  exact mk2_ok (fD_wordL ch hm hd ha hk ho) (fA_wordL ch hm hd ha hk ho) h
theorem RoundTrip.stB8 (ch : Bool) (v : Src) (a : Src) (off : BitVec 10) : RoundTrip.Statement (.stB8 ch v a off) := by
  intro h
  have e0 : encode (.stB8 ch v a off) = 0x38000000 + bit01 ch <<< 31 + v.code <<< 20 + a.code <<< 14 + off.toNat := rfl
  have e : encode (.stB8 ch v a off) = wordL 14 ch v.code a.code 0 (off.toNat) := by rw [e0]; simp only [wordL, wordI, Nat.shiftLeft_eq]; omega
  have hd : v.code < 64 := src_lt v
  have ha := src_lt a
  have hk : 0 < 16 := by decide
  have hm : 14 < 31 := by decide
  have ho : off.toNat < 2 ^ 10 := off.isLt
  rw [e]; refine ⟨wordL_lt ch hm hd ha hk ho, ?_⟩
  rw [dec14 ch hm hd ha hk ho]; delta decSt; rw [op_wordL ch hm hd ha hk ho]; (try dsimp only)
  rw [fCh_wordL ch hm hd ha hk ho, off_wordL ch hm hd ha hk ho, BitVec.ofNat_toNat, BitVec.setWidth_eq]
  exact mkSt_ok (fD_wordL ch hm hd ha hk ho) (fA_wordL ch hm hd ha hk ho) h
theorem RoundTrip.stB16 (ch : Bool) (v : Src) (a : Src) (off : BitVec 10) : RoundTrip.Statement (.stB16 ch v a off) := by
  intro h
  have e0 : encode (.stB16 ch v a off) = 0x38000400 + bit01 ch <<< 31 + v.code <<< 20 + a.code <<< 14 + off.toNat := rfl
  have e : encode (.stB16 ch v a off) = wordL 14 ch v.code a.code 1 (off.toNat) := by rw [e0]; simp only [wordL, wordI, Nat.shiftLeft_eq]; omega
  have hd : v.code < 64 := src_lt v
  have ha := src_lt a
  have hk : 1 < 16 := by decide
  have hm : 14 < 31 := by decide
  have ho : off.toNat < 2 ^ 10 := off.isLt
  rw [e]; refine ⟨wordL_lt ch hm hd ha hk ho, ?_⟩
  rw [dec14 ch hm hd ha hk ho]; delta decSt; rw [op_wordL ch hm hd ha hk ho]; (try dsimp only)
  rw [fCh_wordL ch hm hd ha hk ho, off_wordL ch hm hd ha hk ho, BitVec.ofNat_toNat, BitVec.setWidth_eq]
  exact mkSt_ok (fD_wordL ch hm hd ha hk ho) (fA_wordL ch hm hd ha hk ho) h
theorem RoundTrip.stB32 (ch : Bool) (v : Src) (a : Src) (off : BitVec 10) : RoundTrip.Statement (.stB32 ch v a off) := by
  intro h
  have e0 : encode (.stB32 ch v a off) = 0x38000800 + bit01 ch <<< 31 + v.code <<< 20 + a.code <<< 14 + off.toNat := rfl
  have e : encode (.stB32 ch v a off) = wordL 14 ch v.code a.code 2 (off.toNat) := by rw [e0]; simp only [wordL, wordI, Nat.shiftLeft_eq]; omega
  have hd : v.code < 64 := src_lt v
  have ha := src_lt a
  have hk : 2 < 16 := by decide
  have hm : 14 < 31 := by decide
  have ho : off.toNat < 2 ^ 10 := off.isLt
  rw [e]; refine ⟨wordL_lt ch hm hd ha hk ho, ?_⟩
  rw [dec14 ch hm hd ha hk ho]; delta decSt; rw [op_wordL ch hm hd ha hk ho]; (try dsimp only)
  rw [fCh_wordL ch hm hd ha hk ho, off_wordL ch hm hd ha hk ho, BitVec.ofNat_toNat, BitVec.setWidth_eq]
  exact mkSt_ok (fD_wordL ch hm hd ha hk ho) (fA_wordL ch hm hd ha hk ho) h
theorem RoundTrip.stB64 (ch : Bool) (v : Src) (a : Src) (off : BitVec 10) : RoundTrip.Statement (.stB64 ch v a off) := by
  intro h
  have e0 : encode (.stB64 ch v a off) = 0x38000C00 + bit01 ch <<< 31 + v.code <<< 20 + a.code <<< 14 + off.toNat := rfl
  have e : encode (.stB64 ch v a off) = wordL 14 ch v.code a.code 3 (off.toNat) := by rw [e0]; simp only [wordL, wordI, Nat.shiftLeft_eq]; omega
  have hd : v.code < 64 := src_lt v
  have ha := src_lt a
  have hk : 3 < 16 := by decide
  have hm : 14 < 31 := by decide
  have ho : off.toNat < 2 ^ 10 := off.isLt
  rw [e]; refine ⟨wordL_lt ch hm hd ha hk ho, ?_⟩
  rw [dec14 ch hm hd ha hk ho]; delta decSt; rw [op_wordL ch hm hd ha hk ho]; (try dsimp only)
  rw [fCh_wordL ch hm hd ha hk ho, off_wordL ch hm hd ha hk ho, BitVec.ofNat_toNat, BitVec.setWidth_eq]
  exact mkSt_ok (fD_wordL ch hm hd ha hk ho) (fA_wordL ch hm hd ha hk ho) h
theorem RoundTrip.stB128 (ch : Bool) (v : Src) (a : Src) (off : BitVec 10) : RoundTrip.Statement (.stB128 ch v a off) := by
  intro h
  have e0 : encode (.stB128 ch v a off) = 0x38001000 + bit01 ch <<< 31 + v.code <<< 20 + a.code <<< 14 + off.toNat := rfl
  have e : encode (.stB128 ch v a off) = wordL 14 ch v.code a.code 4 (off.toNat) := by rw [e0]; simp only [wordL, wordI, Nat.shiftLeft_eq]; omega
  have hd : v.code < 64 := src_lt v
  have ha := src_lt a
  have hk : 4 < 16 := by decide
  have hm : 14 < 31 := by decide
  have ho : off.toNat < 2 ^ 10 := off.isLt
  rw [e]; refine ⟨wordL_lt ch hm hd ha hk ho, ?_⟩
  rw [dec14 ch hm hd ha hk ho]; delta decSt; rw [op_wordL ch hm hd ha hk ho]; (try dsimp only)
  rw [fCh_wordL ch hm hd ha hk ho, off_wordL ch hm hd ha hk ho, BitVec.ofNat_toNat, BitVec.setWidth_eq]
  exact mkSt_ok (fD_wordL ch hm hd ha hk ho) (fA_wordL ch hm hd ha hk ho) h
theorem RoundTrip.strelB32 (ch : Bool) (v : Src) (a : Src) (off : BitVec 10) : RoundTrip.Statement (.strelB32 ch v a off) := by
  intro h
  have e0 : encode (.strelB32 ch v a off) = 0x38001400 + bit01 ch <<< 31 + v.code <<< 20 + a.code <<< 14 + off.toNat := rfl
  have e : encode (.strelB32 ch v a off) = wordL 14 ch v.code a.code 5 (off.toNat) := by rw [e0]; simp only [wordL, wordI, Nat.shiftLeft_eq]; omega
  have hd : v.code < 64 := src_lt v
  have ha := src_lt a
  have hk : 5 < 16 := by decide
  have hm : 14 < 31 := by decide
  have ho : off.toNat < 2 ^ 10 := off.isLt
  rw [e]; refine ⟨wordL_lt ch hm hd ha hk ho, ?_⟩
  rw [dec14 ch hm hd ha hk ho]; delta decSt; rw [op_wordL ch hm hd ha hk ho]; (try dsimp only)
  rw [fCh_wordL ch hm hd ha hk ho, off_wordL ch hm hd ha hk ho, BitVec.ofNat_toNat, BitVec.setWidth_eq]
  exact mkSt_ok (fD_wordL ch hm hd ha hk ho) (fA_wordL ch hm hd ha hk ho) h
theorem RoundTrip.strelB64 (ch : Bool) (v : Src) (a : Src) (off : BitVec 10) : RoundTrip.Statement (.strelB64 ch v a off) := by
  intro h
  have e0 : encode (.strelB64 ch v a off) = 0x38001800 + bit01 ch <<< 31 + v.code <<< 20 + a.code <<< 14 + off.toNat := rfl
  have e : encode (.strelB64 ch v a off) = wordL 14 ch v.code a.code 6 (off.toNat) := by rw [e0]; simp only [wordL, wordI, Nat.shiftLeft_eq]; omega
  have hd : v.code < 64 := src_lt v
  have ha := src_lt a
  have hk : 6 < 16 := by decide
  have hm : 14 < 31 := by decide
  have ho : off.toNat < 2 ^ 10 := off.isLt
  rw [e]; refine ⟨wordL_lt ch hm hd ha hk ho, ?_⟩
  rw [dec14 ch hm hd ha hk ho]; delta decSt; rw [op_wordL ch hm hd ha hk ho]; (try dsimp only)
  rw [fCh_wordL ch hm hd ha hk ho, off_wordL ch hm hd ha hk ho, BitVec.ofNat_toNat, BitVec.setWidth_eq]
  exact mkSt_ok (fD_wordL ch hm hd ha hk ho) (fA_wordL ch hm hd ha hk ho) h
theorem RoundTrip.stsB8 (ch : Bool) (v : Src) (a : Src) (off : BitVec 10) : RoundTrip.Statement (.stsB8 ch v a off) := by
  intro h
  have e0 : encode (.stsB8 ch v a off) = 0x38001C00 + bit01 ch <<< 31 + v.code <<< 20 + a.code <<< 14 + off.toNat := rfl
  have e : encode (.stsB8 ch v a off) = wordL 14 ch v.code a.code 7 (off.toNat) := by rw [e0]; simp only [wordL, wordI, Nat.shiftLeft_eq]; omega
  have hd : v.code < 64 := src_lt v
  have ha := src_lt a
  have hk : 7 < 16 := by decide
  have hm : 14 < 31 := by decide
  have ho : off.toNat < 2 ^ 10 := off.isLt
  rw [e]; refine ⟨wordL_lt ch hm hd ha hk ho, ?_⟩
  rw [dec14 ch hm hd ha hk ho]; delta decSt; rw [op_wordL ch hm hd ha hk ho]; (try dsimp only)
  rw [fCh_wordL ch hm hd ha hk ho, off_wordL ch hm hd ha hk ho, BitVec.ofNat_toNat, BitVec.setWidth_eq]
  exact mkSt_ok (fD_wordL ch hm hd ha hk ho) (fA_wordL ch hm hd ha hk ho) h
theorem RoundTrip.stsB32 (ch : Bool) (v : Src) (a : Src) (off : BitVec 10) : RoundTrip.Statement (.stsB32 ch v a off) := by
  intro h
  have e0 : encode (.stsB32 ch v a off) = 0x38002000 + bit01 ch <<< 31 + v.code <<< 20 + a.code <<< 14 + off.toNat := rfl
  have e : encode (.stsB32 ch v a off) = wordL 14 ch v.code a.code 8 (off.toNat) := by rw [e0]; simp only [wordL, wordI, Nat.shiftLeft_eq]; omega
  have hd : v.code < 64 := src_lt v
  have ha := src_lt a
  have hk : 8 < 16 := by decide
  have hm : 14 < 31 := by decide
  have ho : off.toNat < 2 ^ 10 := off.isLt
  rw [e]; refine ⟨wordL_lt ch hm hd ha hk ho, ?_⟩
  rw [dec14 ch hm hd ha hk ho]; delta decSt; rw [op_wordL ch hm hd ha hk ho]; (try dsimp only)
  rw [fCh_wordL ch hm hd ha hk ho, off_wordL ch hm hd ha hk ho, BitVec.ofNat_toNat, BitVec.setWidth_eq]
  exact mkSt_ok (fD_wordL ch hm hd ha hk ho) (fA_wordL ch hm hd ha hk ho) h
theorem RoundTrip.stsB64 (ch : Bool) (v : Src) (a : Src) (off : BitVec 10) : RoundTrip.Statement (.stsB64 ch v a off) := by
  intro h
  have e0 : encode (.stsB64 ch v a off) = 0x38002400 + bit01 ch <<< 31 + v.code <<< 20 + a.code <<< 14 + off.toNat := rfl
  have e : encode (.stsB64 ch v a off) = wordL 14 ch v.code a.code 9 (off.toNat) := by rw [e0]; simp only [wordL, wordI, Nat.shiftLeft_eq]; omega
  have hd : v.code < 64 := src_lt v
  have ha := src_lt a
  have hk : 9 < 16 := by decide
  have hm : 14 < 31 := by decide
  have ho : off.toNat < 2 ^ 10 := off.isLt
  rw [e]; refine ⟨wordL_lt ch hm hd ha hk ho, ?_⟩
  rw [dec14 ch hm hd ha hk ho]; delta decSt; rw [op_wordL ch hm hd ha hk ho]; (try dsimp only)
  rw [fCh_wordL ch hm hd ha hk ho, off_wordL ch hm hd ha hk ho, BitVec.ofNat_toNat, BitVec.setWidth_eq]
  exact mkSt_ok (fD_wordL ch hm hd ha hk ho) (fA_wordL ch hm hd ha hk ho) h
theorem RoundTrip.stsB128 (ch : Bool) (v : Src) (a : Src) (off : BitVec 10) : RoundTrip.Statement (.stsB128 ch v a off) := by
  intro h
  have e0 : encode (.stsB128 ch v a off) = 0x38002800 + bit01 ch <<< 31 + v.code <<< 20 + a.code <<< 14 + off.toNat := rfl
  have e : encode (.stsB128 ch v a off) = wordL 14 ch v.code a.code 10 (off.toNat) := by rw [e0]; simp only [wordL, wordI, Nat.shiftLeft_eq]; omega
  have hd : v.code < 64 := src_lt v
  have ha := src_lt a
  have hk : 10 < 16 := by decide
  have hm : 14 < 31 := by decide
  have ho : off.toNat < 2 ^ 10 := off.isLt
  rw [e]; refine ⟨wordL_lt ch hm hd ha hk ho, ?_⟩
  rw [dec14 ch hm hd ha hk ho]; delta decSt; rw [op_wordL ch hm hd ha hk ho]; (try dsimp only)
  rw [fCh_wordL ch hm hd ha hk ho, off_wordL ch hm hd ha hk ho, BitVec.ofNat_toNat, BitVec.setWidth_eq]
  exact mkSt_ok (fD_wordL ch hm hd ha hk ho) (fA_wordL ch hm hd ha hk ho) h
theorem RoundTrip.stb (ch : Bool) (v : Src) (a : Src) (f : EFmt) (off : BitVec 7) : RoundTrip.Statement (.stb ch v a f off) := by
  intro h
  have e0 : encode (.stb ch v a f off) = 0x38002C00 + bit01 ch <<< 31 + v.code <<< 20 + a.code <<< 14 + f.code <<< 7 + off.toNat := rfl
  have e : encode (.stb ch v a f off) = wordL 14 ch v.code a.code 11 (f.code * 2 ^ 7 + off.toNat) := by rw [e0]; simp only [wordL, wordI, Nat.shiftLeft_eq]; omega
  have hd : v.code < 64 := src_lt v
  have ha := src_lt a
  have hk : 11 < 16 := by decide
  have hm : 14 < 31 := by decide
  have hf := efmt_lt f; have hof := off.isLt
  have ho : f.code * 2 ^ 7 + off.toNat < 2 ^ 10 := by omega
  rw [e]; refine ⟨wordL_lt ch hm hd ha hk ho, ?_⟩
  rw [dec14 ch hm hd ha hk ho]; delta decSt; rw [op_wordL ch hm hd ha hk ho]; (try dsimp only)
  rw [fCh_wordL ch hm hd ha hk ho, fmt_wordL ch hm hd ha hk ho, off7_wordL ch hm hd ha hk ho, fmt_lo hf off, off_lo hf off, efmtOf_code]
  exact (req_bind (decide_eq_true hf)).trans (mkSt_ok (fD_wordL ch hm hd ha hk ho) (fA_wordL ch hm hd ha hk ho) h)
theorem RoundTrip.stbs (ch : Bool) (v : Src) (a : Src) (f : EFmt) (off : BitVec 7) : RoundTrip.Statement (.stbs ch v a f off) := by
  intro h
  have e0 : encode (.stbs ch v a f off) = 0x38003000 + bit01 ch <<< 31 + v.code <<< 20 + a.code <<< 14 + f.code <<< 7 + off.toNat := rfl
  have e : encode (.stbs ch v a f off) = wordL 14 ch v.code a.code 12 (f.code * 2 ^ 7 + off.toNat) := by rw [e0]; simp only [wordL, wordI, Nat.shiftLeft_eq]; omega
  have hd : v.code < 64 := src_lt v
  have ha := src_lt a
  have hk : 12 < 16 := by decide
  have hm : 14 < 31 := by decide
  have hf := efmt_lt f; have hof := off.isLt
  have ho : f.code * 2 ^ 7 + off.toNat < 2 ^ 10 := by omega
  rw [e]; refine ⟨wordL_lt ch hm hd ha hk ho, ?_⟩
  rw [dec14 ch hm hd ha hk ho]; delta decSt; rw [op_wordL ch hm hd ha hk ho]; (try dsimp only)
  rw [fCh_wordL ch hm hd ha hk ho, fmt_wordL ch hm hd ha hk ho, off7_wordL ch hm hd ha hk ho, fmt_lo hf off, off_lo hf off, efmtOf_code]
  exact (req_bind (decide_eq_true hf)).trans (mkSt_ok (fD_wordL ch hm hd ha hk ho) (fA_wordL ch hm hd ha hk ho) h)
theorem RoundTrip.atomB32 (ch : Bool) (d : Dst) (a : Src) (b : Src) (op : AOp) : RoundTrip.Statement (.atomB32 ch d a b op) := by
  intro h
  have e0 : encode (.atomB32 ch d a b op) = 0x3C000000 + bit01 ch <<< 31 + d.code <<< 20 + a.code <<< 14 + b.code <<< 8 + op.code := rfl
  have e : encode (.atomB32 ch d a b op) = wordA ch d.code a.code b.code 0 op.code := by rw [e0]; simp only [wordA, Nat.shiftLeft_eq]; omega
  have hi : 0 < 16 := by decide
  have hd : d.code < 64 := dst_lt d
  have ha : a.code < 64 := src_lt a
  have hb : b.code < 64 := src_lt b
  have ho := (show op.code < 16 from Nat.lt_of_lt_of_le (aop_lt op) (by decide))
  rw [e]; refine ⟨wordA_lt ch hd ha hb hi ho, ?_⟩
  rw [dec15 ch hd ha hb hi ho]; delta decAtom; rw [idx_wordA ch hd ha hb hi ho]; (try dsimp only)
  simp only [fCh_wordA ch hd ha hb hi ho, op_wordA ch hd ha hb hi ho, noD, noB, fD_wordA ch hd ha hb hi ho, fB_wordA ch hd ha hb hi ho, aopOf_code, afopOf_code]
  have ht := once_of (i := .atomB32 ch d a b op) rfl h
  exact (gate_bind (decide_eq_true (aop_lt op)) rfl).trans (mk3_ok (fD_wordA ch hd ha hb hi ho) (fA_wordA ch hd ha hb hi ho) (fB_wordA ch hd ha hb hi ho) ht h)
theorem RoundTrip.atomB64 (ch : Bool) (d : Dst) (a : Src) (b : Src) (op : AOp) : RoundTrip.Statement (.atomB64 ch d a b op) := by
  intro h
  have e0 : encode (.atomB64 ch d a b op) = 0x3C000010 + bit01 ch <<< 31 + d.code <<< 20 + a.code <<< 14 + b.code <<< 8 + op.code := rfl
  have e : encode (.atomB64 ch d a b op) = wordA ch d.code a.code b.code 1 op.code := by rw [e0]; simp only [wordA, Nat.shiftLeft_eq]; omega
  have hi : 1 < 16 := by decide
  have hd : d.code < 64 := dst_lt d
  have ha : a.code < 64 := src_lt a
  have hb : b.code < 64 := src_lt b
  have ho := (show op.code < 16 from Nat.lt_of_lt_of_le (aop_lt op) (by decide))
  rw [e]; refine ⟨wordA_lt ch hd ha hb hi ho, ?_⟩
  rw [dec15 ch hd ha hb hi ho]; delta decAtom; rw [idx_wordA ch hd ha hb hi ho]; (try dsimp only)
  simp only [fCh_wordA ch hd ha hb hi ho, op_wordA ch hd ha hb hi ho, noD, noB, fD_wordA ch hd ha hb hi ho, fB_wordA ch hd ha hb hi ho, aopOf_code, afopOf_code]
  have ht := once_of (i := .atomB64 ch d a b op) rfl h
  exact (gate_bind (decide_eq_true (aop_lt op)) rfl).trans (mk3_ok (fD_wordA ch hd ha hb hi ho) (fA_wordA ch hd ha hb hi ho) (fB_wordA ch hd ha hb hi ho) ht h)
theorem RoundTrip.redB32 (ch : Bool) (a : Src) (b : Src) (op : AOp) : RoundTrip.Statement (.redB32 ch a b op) := by
  intro h
  have e0 : encode (.redB32 ch a b op) = 0x3C000020 + bit01 ch <<< 31 + a.code <<< 14 + b.code <<< 8 + op.code := rfl
  have e : encode (.redB32 ch a b op) = wordA ch 0 a.code b.code 2 op.code := by rw [e0]; simp only [wordA, Nat.shiftLeft_eq]; omega
  have hi : 2 < 16 := by decide
  have hd : 0 < 64 := (by decide)
  have ha : a.code < 64 := src_lt a
  have hb : b.code < 64 := src_lt b
  have ho := (show op.code < 16 from Nat.lt_of_lt_of_le (aop_lt op) (by decide))
  rw [e]; refine ⟨wordA_lt ch hd ha hb hi ho, ?_⟩
  rw [dec15 ch hd ha hb hi ho]; delta decAtom; rw [idx_wordA ch hd ha hb hi ho]; (try dsimp only)
  simp only [fCh_wordA ch hd ha hb hi ho, op_wordA ch hd ha hb hi ho, noD, noB, fD_wordA ch hd ha hb hi ho, fB_wordA ch hd ha hb hi ho, aopOf_code, afopOf_code]
  exact (gate_bind (decide_eq_true (aop_lt op)) rfl).trans (mkAB_ok (fA_wordA ch hd ha hb hi ho) (fB_wordA ch hd ha hb hi ho) h)
theorem RoundTrip.redB64 (ch : Bool) (a : Src) (b : Src) (op : AOp) : RoundTrip.Statement (.redB64 ch a b op) := by
  intro h
  have e0 : encode (.redB64 ch a b op) = 0x3C000030 + bit01 ch <<< 31 + a.code <<< 14 + b.code <<< 8 + op.code := rfl
  have e : encode (.redB64 ch a b op) = wordA ch 0 a.code b.code 3 op.code := by rw [e0]; simp only [wordA, Nat.shiftLeft_eq]; omega
  have hi : 3 < 16 := by decide
  have hd : 0 < 64 := (by decide)
  have ha : a.code < 64 := src_lt a
  have hb : b.code < 64 := src_lt b
  have ho := (show op.code < 16 from Nat.lt_of_lt_of_le (aop_lt op) (by decide))
  rw [e]; refine ⟨wordA_lt ch hd ha hb hi ho, ?_⟩
  rw [dec15 ch hd ha hb hi ho]; delta decAtom; rw [idx_wordA ch hd ha hb hi ho]; (try dsimp only)
  simp only [fCh_wordA ch hd ha hb hi ho, op_wordA ch hd ha hb hi ho, noD, noB, fD_wordA ch hd ha hb hi ho, fB_wordA ch hd ha hb hi ho, aopOf_code, afopOf_code]
  exact (gate_bind (decide_eq_true (aop_lt op)) rfl).trans (mkAB_ok (fA_wordA ch hd ha hb hi ho) (fB_wordA ch hd ha hb hi ho) h)
theorem RoundTrip.atomf (ch : Bool) (d : Dst) (a : Src) (b : Src) (op : AFOp) : RoundTrip.Statement (.atomf ch d a b op) := by
  intro h
  have e0 : encode (.atomf ch d a b op) = 0x3C000040 + bit01 ch <<< 31 + d.code <<< 20 + a.code <<< 14 + b.code <<< 8 + op.code := rfl
  have e : encode (.atomf ch d a b op) = wordA ch d.code a.code b.code 4 op.code := by rw [e0]; simp only [wordA, Nat.shiftLeft_eq]; omega
  have hi : 4 < 16 := by decide
  have hd : d.code < 64 := dst_lt d
  have ha : a.code < 64 := src_lt a
  have hb : b.code < 64 := src_lt b
  have ho := (show op.code < 16 from Nat.lt_of_lt_of_le (afop_lt op) (by decide))
  rw [e]; refine ⟨wordA_lt ch hd ha hb hi ho, ?_⟩
  rw [dec15 ch hd ha hb hi ho]; delta decAtom; rw [idx_wordA ch hd ha hb hi ho]; (try dsimp only)
  simp only [fCh_wordA ch hd ha hb hi ho, op_wordA ch hd ha hb hi ho, noD, noB, fD_wordA ch hd ha hb hi ho, fB_wordA ch hd ha hb hi ho, aopOf_code, afopOf_code]
  have ht := once_of (i := .atomf ch d a b op) rfl h
  exact (gate_bind (decide_eq_true (afop_lt op)) rfl).trans (mk3_ok (fD_wordA ch hd ha hb hi ho) (fA_wordA ch hd ha hb hi ho) (fB_wordA ch hd ha hb hi ho) ht h)
theorem RoundTrip.redf (ch : Bool) (a : Src) (b : Src) (op : AFOp) : RoundTrip.Statement (.redf ch a b op) := by
  intro h
  have e0 : encode (.redf ch a b op) = 0x3C000050 + bit01 ch <<< 31 + a.code <<< 14 + b.code <<< 8 + op.code := rfl
  have e : encode (.redf ch a b op) = wordA ch 0 a.code b.code 5 op.code := by rw [e0]; simp only [wordA, Nat.shiftLeft_eq]; omega
  have hi : 5 < 16 := by decide
  have hd : 0 < 64 := (by decide)
  have ha : a.code < 64 := src_lt a
  have hb : b.code < 64 := src_lt b
  have ho := (show op.code < 16 from Nat.lt_of_lt_of_le (afop_lt op) (by decide))
  rw [e]; refine ⟨wordA_lt ch hd ha hb hi ho, ?_⟩
  rw [dec15 ch hd ha hb hi ho]; delta decAtom; rw [idx_wordA ch hd ha hb hi ho]; (try dsimp only)
  simp only [fCh_wordA ch hd ha hb hi ho, op_wordA ch hd ha hb hi ho, noD, noB, fD_wordA ch hd ha hb hi ho, fB_wordA ch hd ha hb hi ho, aopOf_code, afopOf_code]
  exact (gate_bind (decide_eq_true (afop_lt op)) rfl).trans (mkAB_ok (fA_wordA ch hd ha hb hi ho) (fB_wordA ch hd ha hb hi ho) h)
theorem RoundTrip.casB32 (ch : Bool) (d : Dst) (a : Src) (b : Src) : RoundTrip.Statement (.casB32 ch d a b) := by
  intro h
  have e0 : encode (.casB32 ch d a b) = 0x3C000060 + bit01 ch <<< 31 + d.code <<< 20 + a.code <<< 14 + b.code <<< 8 := rfl
  have e : encode (.casB32 ch d a b) = wordA ch d.code a.code b.code 6 0 := by rw [e0]; simp only [wordA, Nat.shiftLeft_eq]; omega
  have hi : 6 < 16 := by decide
  have hd : d.code < 64 := dst_lt d
  have ha : a.code < 64 := src_lt a
  have hb : b.code < 64 := src_lt b
  have ho := (show 0 < 16 by decide)
  rw [e]; refine ⟨wordA_lt ch hd ha hb hi ho, ?_⟩
  rw [dec15 ch hd ha hb hi ho]; delta decAtom; rw [idx_wordA ch hd ha hb hi ho]; (try dsimp only)
  simp only [fCh_wordA ch hd ha hb hi ho, op_wordA ch hd ha hb hi ho, noD, noB, fD_wordA ch hd ha hb hi ho, fB_wordA ch hd ha hb hi ho, aopOf_code, afopOf_code]
  have ht := once_of (i := .casB32 ch d a b) rfl h
  exact (gate_bind rfl rfl).trans (mk3_ok (fD_wordA ch hd ha hb hi ho) (fA_wordA ch hd ha hb hi ho) (fB_wordA ch hd ha hb hi ho) ht h)
theorem RoundTrip.casB64 (ch : Bool) (d : Dst) (a : Src) (b : Src) : RoundTrip.Statement (.casB64 ch d a b) := by
  intro h
  have e0 : encode (.casB64 ch d a b) = 0x3C000070 + bit01 ch <<< 31 + d.code <<< 20 + a.code <<< 14 + b.code <<< 8 := rfl
  have e : encode (.casB64 ch d a b) = wordA ch d.code a.code b.code 7 0 := by rw [e0]; simp only [wordA, Nat.shiftLeft_eq]; omega
  have hi : 7 < 16 := by decide
  have hd : d.code < 64 := dst_lt d
  have ha : a.code < 64 := src_lt a
  have hb : b.code < 64 := src_lt b
  have ho := (show 0 < 16 by decide)
  rw [e]; refine ⟨wordA_lt ch hd ha hb hi ho, ?_⟩
  rw [dec15 ch hd ha hb hi ho]; delta decAtom; rw [idx_wordA ch hd ha hb hi ho]; (try dsimp only)
  simp only [fCh_wordA ch hd ha hb hi ho, op_wordA ch hd ha hb hi ho, noD, noB, fD_wordA ch hd ha hb hi ho, fB_wordA ch hd ha hb hi ho, aopOf_code, afopOf_code]
  have ht := once_of (i := .casB64 ch d a b) rfl h
  exact (gate_bind rfl rfl).trans (mk3_ok (fD_wordA ch hd ha hb hi ho) (fA_wordA ch hd ha hb hi ho) (fB_wordA ch hd ha hb hi ho) ht h)
theorem RoundTrip.cas2 (ch : Bool) (d : Dst) (a : Src) (b : Src) : RoundTrip.Statement (.cas2 ch d a b) := by
  intro h
  have e0 : encode (.cas2 ch d a b) = 0x3C000080 + bit01 ch <<< 31 + d.code <<< 20 + a.code <<< 14 + b.code <<< 8 := rfl
  have e : encode (.cas2 ch d a b) = wordA ch d.code a.code b.code 8 0 := by rw [e0]; simp only [wordA, Nat.shiftLeft_eq]; omega
  have hi : 8 < 16 := by decide
  have hd : d.code < 64 := dst_lt d
  have ha : a.code < 64 := src_lt a
  have hb : b.code < 64 := src_lt b
  have ho := (show 0 < 16 by decide)
  rw [e]; refine ⟨wordA_lt ch hd ha hb hi ho, ?_⟩
  rw [dec15 ch hd ha hb hi ho]; delta decAtom; rw [idx_wordA ch hd ha hb hi ho]; (try dsimp only)
  simp only [fCh_wordA ch hd ha hb hi ho, op_wordA ch hd ha hb hi ho, noD, noB, fD_wordA ch hd ha hb hi ho, fB_wordA ch hd ha hb hi ho, aopOf_code, afopOf_code]
  have ht := once_of (i := .cas2 ch d a b) rfl h
  exact (gate_bind rfl rfl).trans (mk3_ok (fD_wordA ch hd ha hb hi ho) (fA_wordA ch hd ha hb hi ho) (fB_wordA ch hd ha hb hi ho) ht h)
theorem RoundTrip.amaxrst (ch : Bool) (d : Dst) (a : Src) : RoundTrip.Statement (.amaxrst ch d a) := by
  intro h
  have e0 : encode (.amaxrst ch d a) = 0x3C000090 + bit01 ch <<< 31 + d.code <<< 20 + a.code <<< 14 := rfl
  have e : encode (.amaxrst ch d a) = wordA ch d.code a.code 0 9 0 := by rw [e0]; simp only [wordA, Nat.shiftLeft_eq]; omega
  have hi : 9 < 16 := by decide
  have hd : d.code < 64 := dst_lt d
  have ha : a.code < 64 := src_lt a
  have hb : 0 < 64 := (by decide)
  have ho := (show 0 < 16 by decide)
  rw [e]; refine ⟨wordA_lt ch hd ha hb hi ho, ?_⟩
  rw [dec15 ch hd ha hb hi ho]; delta decAtom; rw [idx_wordA ch hd ha hb hi ho]; (try dsimp only)
  simp only [fCh_wordA ch hd ha hb hi ho, op_wordA ch hd ha hb hi ho, noD, noB, fD_wordA ch hd ha hb hi ho, fB_wordA ch hd ha hb hi ho, aopOf_code, afopOf_code]
  exact (gate_bind rfl rfl).trans (mk2_ok (fD_wordA ch hd ha hb hi ho) (fA_wordA ch hd ha hb hi ho) h)
theorem RoundTrip.atoms (ch : Bool) (d : Dst) (a : Src) (b : Src) (op : AOp) : RoundTrip.Statement (.atoms ch d a b op) := by
  intro h
  have e0 : encode (.atoms ch d a b op) = 0x3C0000A0 + bit01 ch <<< 31 + d.code <<< 20 + a.code <<< 14 + b.code <<< 8 + op.code := rfl
  have e : encode (.atoms ch d a b op) = wordA ch d.code a.code b.code 10 op.code := by rw [e0]; simp only [wordA, Nat.shiftLeft_eq]; omega
  have hi : 10 < 16 := by decide
  have hd : d.code < 64 := dst_lt d
  have ha : a.code < 64 := src_lt a
  have hb : b.code < 64 := src_lt b
  have ho := (show op.code < 16 from Nat.lt_of_lt_of_le (aop_lt op) (by decide))
  rw [e]; refine ⟨wordA_lt ch hd ha hb hi ho, ?_⟩
  rw [dec15 ch hd ha hb hi ho]; delta decAtom; rw [idx_wordA ch hd ha hb hi ho]; (try dsimp only)
  simp only [fCh_wordA ch hd ha hb hi ho, op_wordA ch hd ha hb hi ho, noD, noB, fD_wordA ch hd ha hb hi ho, fB_wordA ch hd ha hb hi ho, aopOf_code, afopOf_code]
  have ht := once_of (i := .atoms ch d a b op) rfl h
  exact (gate_bind (decide_eq_true (aop_lt op)) rfl).trans (mk3_ok (fD_wordA ch hd ha hb hi ho) (fA_wordA ch hd ha hb hi ho) (fB_wordA ch hd ha hb hi ho) ht h)
theorem RoundTrip.reds (ch : Bool) (a : Src) (b : Src) (op : AOp) : RoundTrip.Statement (.reds ch a b op) := by
  intro h
  have e0 : encode (.reds ch a b op) = 0x3C0000B0 + bit01 ch <<< 31 + a.code <<< 14 + b.code <<< 8 + op.code := rfl
  have e : encode (.reds ch a b op) = wordA ch 0 a.code b.code 11 op.code := by rw [e0]; simp only [wordA, Nat.shiftLeft_eq]; omega
  have hi : 11 < 16 := by decide
  have hd : 0 < 64 := (by decide)
  have ha : a.code < 64 := src_lt a
  have hb : b.code < 64 := src_lt b
  have ho := (show op.code < 16 from Nat.lt_of_lt_of_le (aop_lt op) (by decide))
  rw [e]; refine ⟨wordA_lt ch hd ha hb hi ho, ?_⟩
  rw [dec15 ch hd ha hb hi ho]; delta decAtom; rw [idx_wordA ch hd ha hb hi ho]; (try dsimp only)
  simp only [fCh_wordA ch hd ha hb hi ho, op_wordA ch hd ha hb hi ho, noD, noB, fD_wordA ch hd ha hb hi ho, fB_wordA ch hd ha hb hi ho, aopOf_code, afopOf_code]
  exact (gate_bind (decide_eq_true (aop_lt op)) rfl).trans (mkAB_ok (fA_wordA ch hd ha hb hi ho) (fB_wordA ch hd ha hb hi ho) h)
theorem RoundTrip.cass (ch : Bool) (d : Dst) (a : Src) (b : Src) : RoundTrip.Statement (.cass ch d a b) := by
  intro h
  have e0 : encode (.cass ch d a b) = 0x3C0000C0 + bit01 ch <<< 31 + d.code <<< 20 + a.code <<< 14 + b.code <<< 8 := rfl
  have e : encode (.cass ch d a b) = wordA ch d.code a.code b.code 12 0 := by rw [e0]; simp only [wordA, Nat.shiftLeft_eq]; omega
  have hi : 12 < 16 := by decide
  have hd : d.code < 64 := dst_lt d
  have ha : a.code < 64 := src_lt a
  have hb : b.code < 64 := src_lt b
  have ho := (show 0 < 16 by decide)
  rw [e]; refine ⟨wordA_lt ch hd ha hb hi ho, ?_⟩
  rw [dec15 ch hd ha hb hi ho]; delta decAtom; rw [idx_wordA ch hd ha hb hi ho]; (try dsimp only)
  simp only [fCh_wordA ch hd ha hb hi ho, op_wordA ch hd ha hb hi ho, noD, noB, fD_wordA ch hd ha hb hi ho, fB_wordA ch hd ha hb hi ho, aopOf_code, afopOf_code]
  have ht := once_of (i := .cass ch d a b) rfl h
  exact (gate_bind rfl rfl).trans (mk3_ok (fD_wordA ch hd ha hb hi ho) (fA_wordA ch hd ha hb hi ho) (fB_wordA ch hd ha hb hi ho) ht h)
theorem RoundTrip.atomfs (ch : Bool) (d : Dst) (a : Src) (b : Src) (op : AFOp) : RoundTrip.Statement (.atomfs ch d a b op) := by
  intro h
  have e0 : encode (.atomfs ch d a b op) = 0x3C0000D0 + bit01 ch <<< 31 + d.code <<< 20 + a.code <<< 14 + b.code <<< 8 + op.code := rfl
  have e : encode (.atomfs ch d a b op) = wordA ch d.code a.code b.code 13 op.code := by rw [e0]; simp only [wordA, Nat.shiftLeft_eq]; omega
  have hi : 13 < 16 := by decide
  have hd : d.code < 64 := dst_lt d
  have ha : a.code < 64 := src_lt a
  have hb : b.code < 64 := src_lt b
  have ho := (show op.code < 16 from Nat.lt_of_lt_of_le (afop_lt op) (by decide))
  rw [e]; refine ⟨wordA_lt ch hd ha hb hi ho, ?_⟩
  rw [dec15 ch hd ha hb hi ho]; delta decAtom; rw [idx_wordA ch hd ha hb hi ho]; (try dsimp only)
  simp only [fCh_wordA ch hd ha hb hi ho, op_wordA ch hd ha hb hi ho, noD, noB, fD_wordA ch hd ha hb hi ho, fB_wordA ch hd ha hb hi ho, aopOf_code, afopOf_code]
  have ht := once_of (i := .atomfs ch d a b op) rfl h
  exact (gate_bind (decide_eq_true (afop_lt op)) rfl).trans (mk3_ok (fD_wordA ch hd ha hb hi ho) (fA_wordA ch hd ha hb hi ho) (fB_wordA ch hd ha hb hi ho) ht h)
theorem RoundTrip.bar (ch : Bool) (clu : Bool) : RoundTrip.Statement (.bar ch clu) := by
  intro h
  have e0 : encode (.bar ch clu) = 0x40000000 + bit01 ch <<< 31 + bit01 clu := rfl
  have e : encode (.bar ch clu) = wordR 16 ch 0 0 0 0 (bit01 false * 4 + bit01 false * 2 + bit01 clu) := by rw [e0]; simp only [wordR, Nat.shiftLeft_eq, bit01_false, bit01_true]; omega
  have hm : 16 < 31 := by decide
  have hi : 0 < 32 := by decide
  have hd : 0 < 64 := (by decide)
  have ha : 0 < 64 := (by decide)
  have hb : 0 < 64 := (by decide)
  have hq := (bits3_lt false false clu)
  rw [e]; refine ⟨wordR_lt ch hm hd ha hb hi hq, ?_⟩
  rw [dec16 ch hm hd ha hb hi hq]; delta decSync; rw [fIdx_wordR ch hm hd ha hb hi hq]; (try dsimp only)
  simp only [fCh_wordR ch hm hd ha hb hi hq, bitAt_wordR ch hm hd ha hb hi hq (show 2 < 3 by decide), bitAt_wordR ch hm hd ha hb hi hq (show 1 < 3 by decide), bitAt_wordR ch hm hd ha hb hi hq (show 0 < 3 by decide), bits3_2, bits3_1, bits3_0, fMod_wordR ch hm hd ha hb hi hq, fD_wordR ch hm hd ha hb hi hq, fA_wordR ch hm hd ha hb hi hq, fB_wordR ch hm hd ha hb hi hq, noM, noD, noA, noB]
  exact (gate_bind (decide_eq_true (half_lt clu)) rfl).trans (finish_ok h)
theorem RoundTrip.minit (ch : Bool) (a : Src) (b : Src) (scr : Bool) : RoundTrip.Statement (.minit ch a b scr) := by
  intro h
  have e0 : encode (.minit ch a b scr) = 0x40000008 + bit01 ch <<< 31 + a.code <<< 14 + b.code <<< 8 + bit01 scr := rfl
  have e : encode (.minit ch a b scr) = wordR 16 ch 0 a.code b.code 1 (bit01 false * 4 + bit01 false * 2 + bit01 scr) := by rw [e0]; simp only [wordR, Nat.shiftLeft_eq, bit01_false, bit01_true]; omega
  have hm : 16 < 31 := by decide
  have hi : 1 < 32 := by decide
  have hd : 0 < 64 := (by decide)
  have ha : a.code < 64 := src_lt a
  have hb : b.code < 64 := src_lt b
  have hq := (bits3_lt false false scr)
  rw [e]; refine ⟨wordR_lt ch hm hd ha hb hi hq, ?_⟩
  rw [dec16 ch hm hd ha hb hi hq]; delta decSync; rw [fIdx_wordR ch hm hd ha hb hi hq]; (try dsimp only)
  simp only [fCh_wordR ch hm hd ha hb hi hq, bitAt_wordR ch hm hd ha hb hi hq (show 2 < 3 by decide), bitAt_wordR ch hm hd ha hb hi hq (show 1 < 3 by decide), bitAt_wordR ch hm hd ha hb hi hq (show 0 < 3 by decide), bits3_2, bits3_1, bits3_0, fMod_wordR ch hm hd ha hb hi hq, fD_wordR ch hm hd ha hb hi hq, fA_wordR ch hm hd ha hb hi hq, fB_wordR ch hm hd ha hb hi hq, noM, noD, noA, noB]
  exact (gate_bind (decide_eq_true (half_lt scr)) rfl).trans (mkAB_ok (fA_wordR ch hm hd ha hb hi hq) (fB_wordR ch hm hd ha hb hi hq) h)
theorem RoundTrip.marrive (ch : Bool) (d : Dst) (a : Src) (b : Src) (scr : Bool) : RoundTrip.Statement (.marrive ch d a b scr) := by
  intro h
  have e0 : encode (.marrive ch d a b scr) = 0x40000010 + bit01 ch <<< 31 + d.code <<< 20 + a.code <<< 14 + b.code <<< 8 + bit01 scr := rfl
  have e : encode (.marrive ch d a b scr) = wordR 16 ch d.code a.code b.code 2 (bit01 false * 4 + bit01 false * 2 + bit01 scr) := by rw [e0]; simp only [wordR, Nat.shiftLeft_eq, bit01_false, bit01_true]; omega
  have hm : 16 < 31 := by decide
  have hi : 2 < 32 := by decide
  have hd : d.code < 64 := dst_lt d
  have ha : a.code < 64 := src_lt a
  have hb : b.code < 64 := src_lt b
  have hq := (bits3_lt false false scr)
  rw [e]; refine ⟨wordR_lt ch hm hd ha hb hi hq, ?_⟩
  rw [dec16 ch hm hd ha hb hi hq]; delta decSync; rw [fIdx_wordR ch hm hd ha hb hi hq]; (try dsimp only)
  simp only [fCh_wordR ch hm hd ha hb hi hq, bitAt_wordR ch hm hd ha hb hi hq (show 2 < 3 by decide), bitAt_wordR ch hm hd ha hb hi hq (show 1 < 3 by decide), bitAt_wordR ch hm hd ha hb hi hq (show 0 < 3 by decide), bits3_2, bits3_1, bits3_0, fMod_wordR ch hm hd ha hb hi hq, fD_wordR ch hm hd ha hb hi hq, fA_wordR ch hm hd ha hb hi hq, fB_wordR ch hm hd ha hb hi hq, noM, noD, noA, noB]
  have ht := once_of (i := .marrive ch d a b scr) rfl h
  exact (gate_bind (decide_eq_true (half_lt scr)) rfl).trans (mk3_ok (fD_wordR ch hm hd ha hb hi hq) (fA_wordR ch hm hd ha hb hi hq) (fB_wordR ch hm hd ha hb hi hq) ht h)
theorem RoundTrip.mexpect (ch : Bool) (a : Src) (b : Src) (scr : Bool) : RoundTrip.Statement (.mexpect ch a b scr) := by
  intro h
  have e0 : encode (.mexpect ch a b scr) = 0x40000018 + bit01 ch <<< 31 + a.code <<< 14 + b.code <<< 8 + bit01 scr := rfl
  have e : encode (.mexpect ch a b scr) = wordR 16 ch 0 a.code b.code 3 (bit01 false * 4 + bit01 false * 2 + bit01 scr) := by rw [e0]; simp only [wordR, Nat.shiftLeft_eq, bit01_false, bit01_true]; omega
  have hm : 16 < 31 := by decide
  have hi : 3 < 32 := by decide
  have hd : 0 < 64 := (by decide)
  have ha : a.code < 64 := src_lt a
  have hb : b.code < 64 := src_lt b
  have hq := (bits3_lt false false scr)
  rw [e]; refine ⟨wordR_lt ch hm hd ha hb hi hq, ?_⟩
  rw [dec16 ch hm hd ha hb hi hq]; delta decSync; rw [fIdx_wordR ch hm hd ha hb hi hq]; (try dsimp only)
  simp only [fCh_wordR ch hm hd ha hb hi hq, bitAt_wordR ch hm hd ha hb hi hq (show 2 < 3 by decide), bitAt_wordR ch hm hd ha hb hi hq (show 1 < 3 by decide), bitAt_wordR ch hm hd ha hb hi hq (show 0 < 3 by decide), bits3_2, bits3_1, bits3_0, fMod_wordR ch hm hd ha hb hi hq, fD_wordR ch hm hd ha hb hi hq, fA_wordR ch hm hd ha hb hi hq, fB_wordR ch hm hd ha hb hi hq, noM, noD, noA, noB]
  exact (gate_bind (decide_eq_true (half_lt scr)) rfl).trans (mkAB_ok (fA_wordR ch hm hd ha hb hi hq) (fB_wordR ch hm hd ha hb hi hq) h)
theorem RoundTrip.mwait (ch : Bool) (a : Src) (b : Src) (scr : Bool) : RoundTrip.Statement (.mwait ch a b scr) := by
  intro h
  have e0 : encode (.mwait ch a b scr) = 0x40000020 + bit01 ch <<< 31 + a.code <<< 14 + b.code <<< 8 + bit01 scr := rfl
  have e : encode (.mwait ch a b scr) = wordR 16 ch 0 a.code b.code 4 (bit01 false * 4 + bit01 false * 2 + bit01 scr) := by rw [e0]; simp only [wordR, Nat.shiftLeft_eq, bit01_false, bit01_true]; omega
  have hm : 16 < 31 := by decide
  have hi : 4 < 32 := by decide
  have hd : 0 < 64 := (by decide)
  have ha : a.code < 64 := src_lt a
  have hb : b.code < 64 := src_lt b
  have hq := (bits3_lt false false scr)
  rw [e]; refine ⟨wordR_lt ch hm hd ha hb hi hq, ?_⟩
  rw [dec16 ch hm hd ha hb hi hq]; delta decSync; rw [fIdx_wordR ch hm hd ha hb hi hq]; (try dsimp only)
  simp only [fCh_wordR ch hm hd ha hb hi hq, bitAt_wordR ch hm hd ha hb hi hq (show 2 < 3 by decide), bitAt_wordR ch hm hd ha hb hi hq (show 1 < 3 by decide), bitAt_wordR ch hm hd ha hb hi hq (show 0 < 3 by decide), bits3_2, bits3_1, bits3_0, fMod_wordR ch hm hd ha hb hi hq, fD_wordR ch hm hd ha hb hi hq, fA_wordR ch hm hd ha hb hi hq, fB_wordR ch hm hd ha hb hi hq, noM, noD, noA, noB]
  exact (gate_bind (decide_eq_true (half_lt scr)) rfl).trans (mkAB_ok (fA_wordR ch hm hd ha hb hi hq) (fB_wordR ch hm hd ha hb hi hq) h)
theorem RoundTrip.mtest (ch : Bool) (p : PDst) (a : Src) (b : Src) (scr : Bool) : RoundTrip.Statement (.mtest ch p a b scr) := by
  intro h
  have e0 : encode (.mtest ch p a b scr) = 0x40000028 + bit01 ch <<< 31 + p.code <<< 20 + a.code <<< 14 + b.code <<< 8 + bit01 scr := rfl
  have e : encode (.mtest ch p a b scr) = wordR 16 ch p.code a.code b.code 5 (bit01 false * 4 + bit01 false * 2 + bit01 scr) := by rw [e0]; simp only [wordR, Nat.shiftLeft_eq, bit01_false, bit01_true]; omega
  have hm : 16 < 31 := by decide
  have hi : 5 < 32 := by decide
  have hd : p.code < 64 := pdst_lt p
  have ha : a.code < 64 := src_lt a
  have hb : b.code < 64 := src_lt b
  have hq := (bits3_lt false false scr)
  rw [e]; refine ⟨wordR_lt ch hm hd ha hb hi hq, ?_⟩
  rw [dec16 ch hm hd ha hb hi hq]; delta decSync; rw [fIdx_wordR ch hm hd ha hb hi hq]; (try dsimp only)
  simp only [fCh_wordR ch hm hd ha hb hi hq, bitAt_wordR ch hm hd ha hb hi hq (show 2 < 3 by decide), bitAt_wordR ch hm hd ha hb hi hq (show 1 < 3 by decide), bitAt_wordR ch hm hd ha hb hi hq (show 0 < 3 by decide), bits3_2, bits3_1, bits3_0, fMod_wordR ch hm hd ha hb hi hq, fD_wordR ch hm hd ha hb hi hq, fA_wordR ch hm hd ha hb hi hq, fB_wordR ch hm hd ha hb hi hq, noM, noD, noA, noB, pdstOf_code]
  exact (gate_bind (decide_eq_true (half_lt scr)) rfl).trans (mkAB_ok (fA_wordR ch hm hd ha hb hi hq) (fB_wordR ch hm hd ha hb hi hq) h)
theorem RoundTrip.fence (ch : Bool) (scope : Scope) : RoundTrip.Statement (.fence ch scope) := by
  intro h
  have e0 : encode (.fence ch scope) = 0x40000030 + bit01 ch <<< 31 + scope.code := rfl
  have e : encode (.fence ch scope) = wordR 16 ch 0 0 0 6 scope.code := by rw [e0]; simp only [wordR, Nat.shiftLeft_eq, bit01_false, bit01_true]; omega
  have hm : 16 < 31 := by decide
  have hi : 6 < 32 := by decide
  have hd : 0 < 64 := (by decide)
  have ha : 0 < 64 := (by decide)
  have hb : 0 < 64 := (by decide)
  have hq := (show scope.code < 8 from Nat.lt_of_lt_of_le (scope_lt scope) (by decide))
  rw [e]; refine ⟨wordR_lt ch hm hd ha hb hi hq, ?_⟩
  rw [dec16 ch hm hd ha hb hi hq]; delta decSync; rw [fIdx_wordR ch hm hd ha hb hi hq]; (try dsimp only)
  simp only [fCh_wordR ch hm hd ha hb hi hq, fMod_wordR ch hm hd ha hb hi hq, fD_wordR ch hm hd ha hb hi hq, fA_wordR ch hm hd ha hb hi hq, fB_wordR ch hm hd ha hb hi hq, noM, noD, noA, noB, scopeOf_code]
  exact (gate_bind (decide_eq_true (scope_lt scope)) rfl).trans (finish_ok h)
theorem RoundTrip.xfence (ch : Bool) (x : BitVec 6) (y : BitVec 6) (scope : Scope) : RoundTrip.Statement (.xfence ch x y scope) := by
  intro h
  have e0 : encode (.xfence ch x y scope) = 0x40000038 + bit01 ch <<< 31 + x.toNat <<< 14 + y.toNat <<< 8 + scope.code := rfl
  have e : encode (.xfence ch x y scope) = wordR 16 ch 0 x.toNat y.toNat 7 scope.code := by rw [e0]; simp only [wordR, Nat.shiftLeft_eq, bit01_false, bit01_true]; omega
  have hm : 16 < 31 := by decide
  have hi : 7 < 32 := by decide
  have hd : 0 < 64 := (by decide)
  have ha : x.toNat < 64 := x.isLt
  have hb : y.toNat < 64 := y.isLt
  have hq := (show scope.code < 8 from Nat.lt_of_lt_of_le (scope_lt scope) (by decide))
  rw [e]; refine ⟨wordR_lt ch hm hd ha hb hi hq, ?_⟩
  rw [dec16 ch hm hd ha hb hi hq]; delta decSync; rw [fIdx_wordR ch hm hd ha hb hi hq]; (try dsimp only)
  simp only [fCh_wordR ch hm hd ha hb hi hq, fMod_wordR ch hm hd ha hb hi hq, fD_wordR ch hm hd ha hb hi hq, fA_wordR ch hm hd ha hb hi hq, fB_wordR ch hm hd ha hb hi hq, noM, noD, noA, noB, scopeOf_code, BitVec.ofNat_toNat, BitVec.setWidth_eq]
  exact (gate_bind (decide_eq_true (scope_lt scope)) rfl).trans (finish_ok h)
theorem RoundTrip.wait (ch : Bool) (ld : BitVec 4) (st : BitVec 4) (cp : BitVec 3) (tl : BitVec 3) : RoundTrip.Statement (.wait ch ld st cp tl) := by
  intro h
  have e0 : encode (.wait ch ld st cp tl) = 0x74000000 + bit01 ch <<< 31 + ld.toNat <<< 22 + st.toNat <<< 18 + cp.toNat <<< 15 + tl.toNat <<< 12 := rfl
  have h1 := ld.isLt; have h2 := st.isLt; have h3 := cp.isLt; have h4 := tl.isLt
  have e : encode (.wait ch ld st cp tl) = wordW ch ld.toNat st.toNat cp.toNat tl.toNat := by rw [e0]; simp only [wordW, Nat.shiftLeft_eq] <;> omega
  rw [e]; refine ⟨wordW_lt ch h1 h2 h3 h4, ?_⟩
  rw [dec29 ch h1 h2 h3 h4]; delta decWait; rw [lo_wordW ch h1 h2 h3 h4, ld_wordW ch h1 h2 h3 h4, st_wordW ch h1 h2 h3 h4, cp_wordW ch h1 h2 h3 h4, tl_wordW ch h1 h2 h3 h4, fCh_wordW ch h1 h2 h3 h4]
  simp only [BitVec.ofNat_toNat, BitVec.setWidth_eq]
  exact (req_bind rfl).trans (finish_ok h)
theorem RoundTrip.cinv (ch : Bool) (a : Src) (b : Src) : RoundTrip.Statement (.cinv ch a b) := by
  intro h
  have e0 : encode (.cinv ch a b) = 0x44000000 + bit01 ch <<< 31 + a.code <<< 14 + b.code <<< 8 := rfl
  have e : encode (.cinv ch a b) = wordR 17 ch 0 a.code b.code 0 0 := by rw [e0]; simp only [wordR, Nat.shiftLeft_eq, bit01_false, bit01_true]; omega
  have hm : 17 < 31 := by decide
  have hi : 0 < 32 := by decide
  have hd : 0 < 64 := (by decide)
  have ha : a.code < 64 := src_lt a
  have hb : b.code < 64 := src_lt b
  have hq := (show 0 < 8 by decide)
  rw [e]; refine ⟨wordR_lt ch hm hd ha hb hi hq, ?_⟩
  rw [dec17 ch hm hd ha hb hi hq]; delta decCache; rw [fIdx_wordR ch hm hd ha hb hi hq]; (try dsimp only)
  simp only [fCh_wordR ch hm hd ha hb hi hq, fMod_wordR ch hm hd ha hb hi hq, fD_wordR ch hm hd ha hb hi hq, fA_wordR ch hm hd ha hb hi hq, fB_wordR ch hm hd ha hb hi hq, noM, noD, noA, noB]
  exact (gate_bind rfl rfl).trans (mkAB_ok (fA_wordR ch hm hd ha hb hi hq) (fB_wordR ch hm hd ha hb hi hq) h)
theorem RoundTrip.cwb (ch : Bool) (a : Src) (b : Src) : RoundTrip.Statement (.cwb ch a b) := by
  intro h
  have e0 : encode (.cwb ch a b) = 0x44000008 + bit01 ch <<< 31 + a.code <<< 14 + b.code <<< 8 := rfl
  have e : encode (.cwb ch a b) = wordR 17 ch 0 a.code b.code 1 0 := by rw [e0]; simp only [wordR, Nat.shiftLeft_eq, bit01_false, bit01_true]; omega
  have hm : 17 < 31 := by decide
  have hi : 1 < 32 := by decide
  have hd : 0 < 64 := (by decide)
  have ha : a.code < 64 := src_lt a
  have hb : b.code < 64 := src_lt b
  have hq := (show 0 < 8 by decide)
  rw [e]; refine ⟨wordR_lt ch hm hd ha hb hi hq, ?_⟩
  rw [dec17 ch hm hd ha hb hi hq]; delta decCache; rw [fIdx_wordR ch hm hd ha hb hi hq]; (try dsimp only)
  simp only [fCh_wordR ch hm hd ha hb hi hq, fMod_wordR ch hm hd ha hb hi hq, fD_wordR ch hm hd ha hb hi hq, fA_wordR ch hm hd ha hb hi hq, fB_wordR ch hm hd ha hb hi hq, noM, noD, noA, noB]
  exact (gate_bind rfl rfl).trans (mkAB_ok (fA_wordR ch hm hd ha hb hi hq) (fB_wordR ch hm hd ha hb hi hq) h)
theorem RoundTrip.pfetch (ch : Bool) (a : Src) (l2 : Bool) : RoundTrip.Statement (.pfetch ch a l2) := by
  intro h
  have e0 : encode (.pfetch ch a l2) = 0x44000010 + bit01 ch <<< 31 + a.code <<< 14 + bit01 l2 := rfl
  have e : encode (.pfetch ch a l2) = wordR 17 ch 0 a.code 0 2 (bit01 false * 4 + bit01 false * 2 + bit01 l2) := by rw [e0]; simp only [wordR, Nat.shiftLeft_eq, bit01_false, bit01_true]; omega
  have hm : 17 < 31 := by decide
  have hi : 2 < 32 := by decide
  have hd : 0 < 64 := (by decide)
  have ha : a.code < 64 := src_lt a
  have hb : 0 < 64 := (by decide)
  have hq := (bits3_lt false false l2)
  rw [e]; refine ⟨wordR_lt ch hm hd ha hb hi hq, ?_⟩
  rw [dec17 ch hm hd ha hb hi hq]; delta decCache; rw [fIdx_wordR ch hm hd ha hb hi hq]; (try dsimp only)
  simp only [fCh_wordR ch hm hd ha hb hi hq, bitAt_wordR ch hm hd ha hb hi hq (show 2 < 3 by decide), bitAt_wordR ch hm hd ha hb hi hq (show 1 < 3 by decide), bitAt_wordR ch hm hd ha hb hi hq (show 0 < 3 by decide), bits3_2, bits3_1, bits3_0, fMod_wordR ch hm hd ha hb hi hq, fD_wordR ch hm hd ha hb hi hq, fA_wordR ch hm hd ha hb hi hq, fB_wordR ch hm hd ha hb hi hq, noM, noD, noA, noB]
  exact (gate_bind (decide_eq_true (half_lt l2)) rfl).trans (mkA_ok (fA_wordR ch hm hd ha hb hi hq) h)
theorem RoundTrip.smap (ch : Bool) (a : Src) (b : Src) : RoundTrip.Statement (.smap ch a b) := by
  intro h
  have e0 : encode (.smap ch a b) = 0x44000018 + bit01 ch <<< 31 + a.code <<< 14 + b.code <<< 8 := rfl
  have e : encode (.smap ch a b) = wordR 17 ch 0 a.code b.code 3 0 := by rw [e0]; simp only [wordR, Nat.shiftLeft_eq, bit01_false, bit01_true]; omega
  have hm : 17 < 31 := by decide
  have hi : 3 < 32 := by decide
  have hd : 0 < 64 := (by decide)
  have ha : a.code < 64 := src_lt a
  have hb : b.code < 64 := src_lt b
  have hq := (show 0 < 8 by decide)
  rw [e]; refine ⟨wordR_lt ch hm hd ha hb hi hq, ?_⟩
  rw [dec17 ch hm hd ha hb hi hq]; delta decCache; rw [fIdx_wordR ch hm hd ha hb hi hq]; (try dsimp only)
  simp only [fCh_wordR ch hm hd ha hb hi hq, fMod_wordR ch hm hd ha hb hi hq, fD_wordR ch hm hd ha hb hi hq, fA_wordR ch hm hd ha hb hi hq, fB_wordR ch hm hd ha hb hi hq, noM, noD, noA, noB]
  exact (gate_bind rfl rfl).trans (mkAB_ok (fA_wordR ch hm hd ha hb hi hq) (fB_wordR ch hm hd ha hb hi hq) h)
theorem RoundTrip.sunmap (ch : Bool) (b : Src) : RoundTrip.Statement (.sunmap ch b) := by
  intro h
  have e0 : encode (.sunmap ch b) = 0x44000020 + bit01 ch <<< 31 + b.code <<< 8 := rfl
  have e : encode (.sunmap ch b) = wordR 17 ch 0 0 b.code 4 0 := by rw [e0]; simp only [wordR, Nat.shiftLeft_eq, bit01_false, bit01_true]; omega
  have hm : 17 < 31 := by decide
  have hi : 4 < 32 := by decide
  have hd : 0 < 64 := (by decide)
  have ha : 0 < 64 := (by decide)
  have hb : b.code < 64 := src_lt b
  have hq := (show 0 < 8 by decide)
  rw [e]; refine ⟨wordR_lt ch hm hd ha hb hi hq, ?_⟩
  rw [dec17 ch hm hd ha hb hi hq]; delta decCache; rw [fIdx_wordR ch hm hd ha hb hi hq]; (try dsimp only)
  simp only [fCh_wordR ch hm hd ha hb hi hq, fMod_wordR ch hm hd ha hb hi hq, fD_wordR ch hm hd ha hb hi hq, fA_wordR ch hm hd ha hb hi hq, fB_wordR ch hm hd ha hb hi hq, noM, noD, noA, noB]
  exact (gate_bind rfl rfl).trans (mkB_ok (fB_wordR ch hm hd ha hb hi hq) h)
theorem RoundTrip.sflush (ch : Bool) (b : Src) : RoundTrip.Statement (.sflush ch b) := by
  intro h
  have e0 : encode (.sflush ch b) = 0x44000028 + bit01 ch <<< 31 + b.code <<< 8 := rfl
  have e : encode (.sflush ch b) = wordR 17 ch 0 0 b.code 5 0 := by rw [e0]; simp only [wordR, Nat.shiftLeft_eq, bit01_false, bit01_true]; omega
  have hm : 17 < 31 := by decide
  have hi : 5 < 32 := by decide
  have hd : 0 < 64 := (by decide)
  have ha : 0 < 64 := (by decide)
  have hb : b.code < 64 := src_lt b
  have hq := (show 0 < 8 by decide)
  rw [e]; refine ⟨wordR_lt ch hm hd ha hb hi hq, ?_⟩
  rw [dec17 ch hm hd ha hb hi hq]; delta decCache; rw [fIdx_wordR ch hm hd ha hb hi hq]; (try dsimp only)
  simp only [fCh_wordR ch hm hd ha hb hi hq, fMod_wordR ch hm hd ha hb hi hq, fD_wordR ch hm hd ha hb hi hq, fA_wordR ch hm hd ha hb hi hq, fB_wordR ch hm hd ha hb hi hq, noM, noD, noA, noB]
  exact (gate_bind rfl rfl).trans (mkB_ok (fB_wordR ch hm hd ha hb hi hq) h)
theorem RoundTrip.pinfo (ch : Bool) (d : Dst) (a : Src) : RoundTrip.Statement (.pinfo ch d a) := by
  intro h
  have e0 : encode (.pinfo ch d a) = 0x44000030 + bit01 ch <<< 31 + d.code <<< 20 + a.code <<< 14 := rfl
  have e : encode (.pinfo ch d a) = wordR 17 ch d.code a.code 0 6 0 := by rw [e0]; simp only [wordR, Nat.shiftLeft_eq, bit01_false, bit01_true]; omega
  have hm : 17 < 31 := by decide
  have hi : 6 < 32 := by decide
  have hd : d.code < 64 := dst_lt d
  have ha : a.code < 64 := src_lt a
  have hb : 0 < 64 := (by decide)
  have hq := (show 0 < 8 by decide)
  rw [e]; refine ⟨wordR_lt ch hm hd ha hb hi hq, ?_⟩
  rw [dec17 ch hm hd ha hb hi hq]; delta decCache; rw [fIdx_wordR ch hm hd ha hb hi hq]; (try dsimp only)
  simp only [fCh_wordR ch hm hd ha hb hi hq, fMod_wordR ch hm hd ha hb hi hq, fD_wordR ch hm hd ha hb hi hq, fA_wordR ch hm hd ha hb hi hq, fB_wordR ch hm hd ha hb hi hq, noM, noD, noA, noB]
  exact (gate_bind rfl rfl).trans (mk2_ok (fD_wordR ch hm hd ha hb hi hq) (fA_wordR ch hm hd ha hb hi hq) h)
theorem RoundTrip.tlbi (ch : Bool) (a : Src) (b : Src) : RoundTrip.Statement (.tlbi ch a b) := by
  intro h
  have e0 : encode (.tlbi ch a b) = 0x44000038 + bit01 ch <<< 31 + a.code <<< 14 + b.code <<< 8 := rfl
  have e : encode (.tlbi ch a b) = wordR 17 ch 0 a.code b.code 7 0 := by rw [e0]; simp only [wordR, Nat.shiftLeft_eq, bit01_false, bit01_true]; omega
  have hm : 17 < 31 := by decide
  have hi : 7 < 32 := by decide
  have hd : 0 < 64 := (by decide)
  have ha : a.code < 64 := src_lt a
  have hb : b.code < 64 := src_lt b
  have hq := (show 0 < 8 by decide)
  rw [e]; refine ⟨wordR_lt ch hm hd ha hb hi hq, ?_⟩
  rw [dec17 ch hm hd ha hb hi hq]; delta decCache; rw [fIdx_wordR ch hm hd ha hb hi hq]; (try dsimp only)
  simp only [fCh_wordR ch hm hd ha hb hi hq, fMod_wordR ch hm hd ha hb hi hq, fD_wordR ch hm hd ha hb hi hq, fA_wordR ch hm hd ha hb hi hq, fB_wordR ch hm hd ha hb hi hq, noM, noD, noA, noB]
  exact (gate_bind rfl rfl).trans (mkAB_ok (fA_wordR ch hm hd ha hb hi hq) (fB_wordR ch hm hd ha hb hi hq) h)
theorem RoundTrip.cpy (ch : Bool) (a : Src) (b : Src) (size : BitVec 2) : RoundTrip.Statement (.cpy ch a b size) := by
  intro h
  have e0 : encode (.cpy ch a b size) = 0x48000000 + bit01 ch <<< 31 + a.code <<< 14 + b.code <<< 8 + size.toNat := rfl
  have e : encode (.cpy ch a b size) = wordR 18 ch 0 a.code b.code 0 size.toNat := by rw [e0]; simp only [wordR, Nat.shiftLeft_eq, bit01_false, bit01_true]; omega
  have hm : 18 < 31 := by decide
  have hi : 0 < 32 := by decide
  have hd : 0 < 64 := (by decide)
  have ha : a.code < 64 := src_lt a
  have hb : b.code < 64 := src_lt b
  have hq := (show size.toNat < 8 by have := size.isLt; omega)
  rw [e]; refine ⟨wordR_lt ch hm hd ha hb hi hq, ?_⟩
  rw [dec18 ch hm hd ha hb hi hq]; delta decTend; rw [fIdx_wordR ch hm hd ha hb hi hq]; (try dsimp only)
  simp only [fCh_wordR ch hm hd ha hb hi hq, fMod_wordR ch hm hd ha hb hi hq, fD_wordR ch hm hd ha hb hi hq, fA_wordR ch hm hd ha hb hi hq, fB_wordR ch hm hd ha hb hi hq, noM, noD, noA, noB, BitVec.ofNat_toNat, BitVec.setWidth_eq]
  have hmo := mods_ok h
  exact (gate_bind (size_ok hmo) rfl).trans (mkAB_ok (fA_wordR ch hm hd ha hb hi hq) (fB_wordR ch hm hd ha hb hi hq) h)
theorem RoundTrip.seal (ch : Bool) (a : Src) (b : Src) : RoundTrip.Statement (.seal ch a b) := by
  intro h
  have e0 : encode (.seal ch a b) = 0x48000008 + bit01 ch <<< 31 + a.code <<< 14 + b.code <<< 8 := rfl
  have e : encode (.seal ch a b) = wordR 18 ch 0 a.code b.code 1 0 := by rw [e0]; simp only [wordR, Nat.shiftLeft_eq, bit01_false, bit01_true]; omega
  have hm : 18 < 31 := by decide
  have hi : 1 < 32 := by decide
  have hd : 0 < 64 := (by decide)
  have ha : a.code < 64 := src_lt a
  have hb : b.code < 64 := src_lt b
  have hq := (show 0 < 8 by decide)
  rw [e]; refine ⟨wordR_lt ch hm hd ha hb hi hq, ?_⟩
  rw [dec18 ch hm hd ha hb hi hq]; delta decTend; rw [fIdx_wordR ch hm hd ha hb hi hq]; (try dsimp only)
  simp only [fCh_wordR ch hm hd ha hb hi hq, fMod_wordR ch hm hd ha hb hi hq, fD_wordR ch hm hd ha hb hi hq, fA_wordR ch hm hd ha hb hi hq, fB_wordR ch hm hd ha hb hi hq, noM, noD, noA, noB]
  exact (gate_bind rfl rfl).trans (mkAB_ok (fA_wordR ch hm hd ha hb hi hq) (fB_wordR ch hm hd ha hb hi hq) h)
theorem RoundTrip.tile (ch : Bool) (a : Src) (b : Src) : RoundTrip.Statement (.tile ch a b) := by
  intro h
  have e0 : encode (.tile ch a b) = 0x48000010 + bit01 ch <<< 31 + a.code <<< 14 + b.code <<< 8 := rfl
  have e : encode (.tile ch a b) = wordR 18 ch 0 a.code b.code 2 0 := by rw [e0]; simp only [wordR, Nat.shiftLeft_eq, bit01_false, bit01_true]; omega
  have hm : 18 < 31 := by decide
  have hi : 2 < 32 := by decide
  have hd : 0 < 64 := (by decide)
  have ha : a.code < 64 := src_lt a
  have hb : b.code < 64 := src_lt b
  have hq := (show 0 < 8 by decide)
  rw [e]; refine ⟨wordR_lt ch hm hd ha hb hi hq, ?_⟩
  rw [dec18 ch hm hd ha hb hi hq]; delta decTend; rw [fIdx_wordR ch hm hd ha hb hi hq]; (try dsimp only)
  simp only [fCh_wordR ch hm hd ha hb hi hq, fMod_wordR ch hm hd ha hb hi hq, fD_wordR ch hm hd ha hb hi hq, fA_wordR ch hm hd ha hb hi hq, fB_wordR ch hm hd ha hb hi hq, noM, noD, noA, noB]
  exact (gate_bind rfl rfl).trans (mkAB_ok (fA_wordR ch hm hd ha hb hi hq) (fB_wordR ch hm hd ha hb hi hq) h)
theorem RoundTrip.relay (ch : Bool) (a : Src) (b : Src) : RoundTrip.Statement (.relay ch a b) := by
  intro h
  have e0 : encode (.relay ch a b) = 0x48000018 + bit01 ch <<< 31 + a.code <<< 14 + b.code <<< 8 := rfl
  have e : encode (.relay ch a b) = wordR 18 ch 0 a.code b.code 3 0 := by rw [e0]; simp only [wordR, Nat.shiftLeft_eq, bit01_false, bit01_true]; omega
  have hm : 18 < 31 := by decide
  have hi : 3 < 32 := by decide
  have hd : 0 < 64 := (by decide)
  have ha : a.code < 64 := src_lt a
  have hb : b.code < 64 := src_lt b
  have hq := (show 0 < 8 by decide)
  rw [e]; refine ⟨wordR_lt ch hm hd ha hb hi hq, ?_⟩
  rw [dec18 ch hm hd ha hb hi hq]; delta decTend; rw [fIdx_wordR ch hm hd ha hb hi hq]; (try dsimp only)
  simp only [fCh_wordR ch hm hd ha hb hi hq, fMod_wordR ch hm hd ha hb hi hq, fD_wordR ch hm hd ha hb hi hq, fA_wordR ch hm hd ha hb hi hq, fB_wordR ch hm hd ha hb hi hq, noM, noD, noA, noB]
  exact (gate_bind rfl rfl).trans (mkAB_ok (fA_wordR ch hm hd ha hb hi hq) (fB_wordR ch hm hd ha hb hi hq) h)
theorem RoundTrip.gath (ch : Bool) (a : Src) : RoundTrip.Statement (.gath ch a) := by
  intro h
  have e0 : encode (.gath ch a) = 0x48000020 + bit01 ch <<< 31 + a.code <<< 14 := rfl
  have e : encode (.gath ch a) = wordR 18 ch 0 a.code 0 4 0 := by rw [e0]; simp only [wordR, Nat.shiftLeft_eq, bit01_false, bit01_true]; omega
  have hm : 18 < 31 := by decide
  have hi : 4 < 32 := by decide
  have hd : 0 < 64 := (by decide)
  have ha : a.code < 64 := src_lt a
  have hb : 0 < 64 := (by decide)
  have hq := (show 0 < 8 by decide)
  rw [e]; refine ⟨wordR_lt ch hm hd ha hb hi hq, ?_⟩
  rw [dec18 ch hm hd ha hb hi hq]; delta decTend; rw [fIdx_wordR ch hm hd ha hb hi hq]; (try dsimp only)
  simp only [fCh_wordR ch hm hd ha hb hi hq, fMod_wordR ch hm hd ha hb hi hq, fD_wordR ch hm hd ha hb hi hq, fA_wordR ch hm hd ha hb hi hq, fB_wordR ch hm hd ha hb hi hq, noM, noD, noA, noB]
  exact (gate_bind rfl rfl).trans (mkA_ok (fA_wordR ch hm hd ha hb hi hq) h)
theorem RoundTrip.mrsv (ch : Bool) (p : PDst) : RoundTrip.Statement (.mrsv ch p) := by
  intro h
  have e0 : encode (.mrsv ch p) = 0x4C000000 + bit01 ch <<< 31 + p.code <<< 20 := rfl
  have e : encode (.mrsv ch p) = wordR 19 ch p.code 0 0 0 0 := by rw [e0]; simp only [wordR, Nat.shiftLeft_eq, bit01_false, bit01_true]; omega
  have hm : 19 < 31 := by decide
  have hi : 0 < 32 := by decide
  have hd : p.code < 64 := pdst_lt p
  have ha : 0 < 64 := (by decide)
  have hb : 0 < 64 := (by decide)
  have hq := (show 0 < 8 by decide)
  rw [e]; refine ⟨wordR_lt ch hm hd ha hb hi hq, ?_⟩
  rw [dec19 ch hm hd ha hb hi hq]; delta decMtx; rw [fIdx_wordR ch hm hd ha hb hi hq]; (try dsimp only)
  simp only [fCh_wordR ch hm hd ha hb hi hq, fMod_wordR ch hm hd ha hb hi hq, fD_wordR ch hm hd ha hb hi hq, fA_wordR ch hm hd ha hb hi hq, fB_wordR ch hm hd ha hb hi hq, noM, noD, noA, noB, pdstOf_code]
  exact (gate_bind rfl rfl).trans (finish_ok h)
theorem RoundTrip.mrel (ch : Bool) : RoundTrip.Statement (.mrel ch) := by
  intro h
  have e0 : encode (.mrel ch) = 0x4C000008 + bit01 ch <<< 31 := rfl
  have e : encode (.mrel ch) = wordR 19 ch 0 0 0 1 0 := by rw [e0]; simp only [wordR, Nat.shiftLeft_eq, bit01_false, bit01_true]; omega
  have hm : 19 < 31 := by decide
  have hi : 1 < 32 := by decide
  have hd : 0 < 64 := (by decide)
  have ha : 0 < 64 := (by decide)
  have hb : 0 < 64 := (by decide)
  have hq := (show 0 < 8 by decide)
  rw [e]; refine ⟨wordR_lt ch hm hd ha hb hi hq, ?_⟩
  rw [dec19 ch hm hd ha hb hi hq]; delta decMtx; rw [fIdx_wordR ch hm hd ha hb hi hq]; (try dsimp only)
  simp only [fCh_wordR ch hm hd ha hb hi hq, fMod_wordR ch hm hd ha hb hi hq, fD_wordR ch hm hd ha hb hi hq, fA_wordR ch hm hd ha hb hi hq, fB_wordR ch hm hd ha hb hi hq, noM, noD, noA, noB]
  exact (gate_bind rfl rfl).trans (finish_ok h)
theorem RoundTrip.mcvn (ch : Bool) (a : Src) : RoundTrip.Statement (.mcvn ch a) := by
  intro h
  have e0 : encode (.mcvn ch a) = 0x4C000010 + bit01 ch <<< 31 + a.code <<< 14 := rfl
  have e : encode (.mcvn ch a) = wordR 19 ch 0 a.code 0 2 0 := by rw [e0]; simp only [wordR, Nat.shiftLeft_eq, bit01_false, bit01_true]; omega
  have hm : 19 < 31 := by decide
  have hi : 2 < 32 := by decide
  have hd : 0 < 64 := (by decide)
  have ha : a.code < 64 := src_lt a
  have hb : 0 < 64 := (by decide)
  have hq := (show 0 < 8 by decide)
  rw [e]; refine ⟨wordR_lt ch hm hd ha hb hi hq, ?_⟩
  rw [dec19 ch hm hd ha hb hi hq]; delta decMtx; rw [fIdx_wordR ch hm hd ha hb hi hq]; (try dsimp only)
  simp only [fCh_wordR ch hm hd ha hb hi hq, fMod_wordR ch hm hd ha hb hi hq, fD_wordR ch hm hd ha hb hi hq, fA_wordR ch hm hd ha hb hi hq, fB_wordR ch hm hd ha hb hi hq, noM, noD, noA, noB]
  exact (gate_bind rfl rfl).trans (mkA_ok (fA_wordR ch hm hd ha hb hi hq) h)
theorem RoundTrip.mma (ch : Bool) (a : Src) : RoundTrip.Statement (.mma ch a) := by
  intro h
  have e0 : encode (.mma ch a) = 0x4C000018 + bit01 ch <<< 31 + a.code <<< 14 := rfl
  have e : encode (.mma ch a) = wordR 19 ch 0 a.code 0 3 0 := by rw [e0]; simp only [wordR, Nat.shiftLeft_eq, bit01_false, bit01_true]; omega
  have hm : 19 < 31 := by decide
  have hi : 3 < 32 := by decide
  have hd : 0 < 64 := (by decide)
  have ha : a.code < 64 := src_lt a
  have hb : 0 < 64 := (by decide)
  have hq := (show 0 < 8 by decide)
  rw [e]; refine ⟨wordR_lt ch hm hd ha hb hi hq, ?_⟩
  rw [dec19 ch hm hd ha hb hi hq]; delta decMtx; rw [fIdx_wordR ch hm hd ha hb hi hq]; (try dsimp only)
  simp only [fCh_wordR ch hm hd ha hb hi hq, fMod_wordR ch hm hd ha hb hi hq, fD_wordR ch hm hd ha hb hi hq, fA_wordR ch hm hd ha hb hi hq, fB_wordR ch hm hd ha hb hi hq, noM, noD, noA, noB]
  exact (gate_bind rfl rfl).trans (mkA_ok (fA_wordR ch hm hd ha hb hi hq) h)
theorem RoundTrip.mmd (ch : Bool) (a : Src) : RoundTrip.Statement (.mmd ch a) := by
  intro h
  have e0 : encode (.mmd ch a) = 0x4C000020 + bit01 ch <<< 31 + a.code <<< 14 := rfl
  have e : encode (.mmd ch a) = wordR 19 ch 0 a.code 0 4 0 := by rw [e0]; simp only [wordR, Nat.shiftLeft_eq, bit01_false, bit01_true]; omega
  have hm : 19 < 31 := by decide
  have hi : 4 < 32 := by decide
  have hd : 0 < 64 := (by decide)
  have ha : a.code < 64 := src_lt a
  have hb : 0 < 64 := (by decide)
  have hq := (show 0 < 8 by decide)
  rw [e]; refine ⟨wordR_lt ch hm hd ha hb hi hq, ?_⟩
  rw [dec19 ch hm hd ha hb hi hq]; delta decMtx; rw [fIdx_wordR ch hm hd ha hb hi hq]; (try dsimp only)
  simp only [fCh_wordR ch hm hd ha hb hi hq, fMod_wordR ch hm hd ha hb hi hq, fD_wordR ch hm hd ha hb hi hq, fA_wordR ch hm hd ha hb hi hq, fB_wordR ch hm hd ha hb hi hq, noM, noD, noA, noB]
  exact (gate_bind rfl rfl).trans (mkA_ok (fA_wordR ch hm hd ha hb hi hq) h)
theorem RoundTrip.mzero (ch : Bool) (a : Src) : RoundTrip.Statement (.mzero ch a) := by
  intro h
  have e0 : encode (.mzero ch a) = 0x4C000028 + bit01 ch <<< 31 + a.code <<< 14 := rfl
  have e : encode (.mzero ch a) = wordR 19 ch 0 a.code 0 5 0 := by rw [e0]; simp only [wordR, Nat.shiftLeft_eq, bit01_false, bit01_true]; omega
  have hm : 19 < 31 := by decide
  have hi : 5 < 32 := by decide
  have hd : 0 < 64 := (by decide)
  have ha : a.code < 64 := src_lt a
  have hb : 0 < 64 := (by decide)
  have hq := (show 0 < 8 by decide)
  rw [e]; refine ⟨wordR_lt ch hm hd ha hb hi hq, ?_⟩
  rw [dec19 ch hm hd ha hb hi hq]; delta decMtx; rw [fIdx_wordR ch hm hd ha hb hi hq]; (try dsimp only)
  simp only [fCh_wordR ch hm hd ha hb hi hq, fMod_wordR ch hm hd ha hb hi hq, fD_wordR ch hm hd ha hb hi hq, fA_wordR ch hm hd ha hb hi hq, fB_wordR ch hm hd ha hb hi hq, noM, noD, noA, noB]
  exact (gate_bind rfl rfl).trans (mkA_ok (fA_wordR ch hm hd ha hb hi hq) h)
theorem RoundTrip.mdrain (ch : Bool) (a : Src) (b : Src) (f : DrainFmt) : RoundTrip.Statement (.mdrain ch a b f) := by
  intro h
  have e0 : encode (.mdrain ch a b f) = 0x4C000030 + bit01 ch <<< 31 + a.code <<< 14 + b.code <<< 8 + f.code := rfl
  have e : encode (.mdrain ch a b f) = wordR 19 ch 0 a.code b.code 6 f.code := by rw [e0]; simp only [wordR, Nat.shiftLeft_eq, bit01_false, bit01_true]; omega
  have hm : 19 < 31 := by decide
  have hi : 6 < 32 := by decide
  have hd : 0 < 64 := (by decide)
  have ha : a.code < 64 := src_lt a
  have hb : b.code < 64 := src_lt b
  have hq := (show f.code < 8 from Nat.lt_of_lt_of_le (drain_lt f) (by decide))
  rw [e]; refine ⟨wordR_lt ch hm hd ha hb hi hq, ?_⟩
  rw [dec19 ch hm hd ha hb hi hq]; delta decMtx; rw [fIdx_wordR ch hm hd ha hb hi hq]; (try dsimp only)
  simp only [fCh_wordR ch hm hd ha hb hi hq, fMod_wordR ch hm hd ha hb hi hq, fD_wordR ch hm hd ha hb hi hq, fA_wordR ch hm hd ha hb hi hq, fB_wordR ch hm hd ha hb hi hq, noM, noD, noA, noB, drainOf_code]
  exact (gate_bind (decide_eq_true (drain_lt f)) rfl).trans (mkAB_ok (fA_wordR ch hm hd ha hb hi hq) (fB_wordR ch hm hd ha hb hi hq) h)
theorem RoundTrip.mload (ch : Bool) (a : Src) (b : Src) : RoundTrip.Statement (.mload ch a b) := by
  intro h
  have e0 : encode (.mload ch a b) = 0x4C000038 + bit01 ch <<< 31 + a.code <<< 14 + b.code <<< 8 := rfl
  have e : encode (.mload ch a b) = wordR 19 ch 0 a.code b.code 7 0 := by rw [e0]; simp only [wordR, Nat.shiftLeft_eq, bit01_false, bit01_true]; omega
  have hm : 19 < 31 := by decide
  have hi : 7 < 32 := by decide
  have hd : 0 < 64 := (by decide)
  have ha : a.code < 64 := src_lt a
  have hb : b.code < 64 := src_lt b
  have hq := (show 0 < 8 by decide)
  rw [e]; refine ⟨wordR_lt ch hm hd ha hb hi hq, ?_⟩
  rw [dec19 ch hm hd ha hb hi hq]; delta decMtx; rw [fIdx_wordR ch hm hd ha hb hi hq]; (try dsimp only)
  simp only [fCh_wordR ch hm hd ha hb hi hq, fMod_wordR ch hm hd ha hb hi hq, fD_wordR ch hm hd ha hb hi hq, fA_wordR ch hm hd ha hb hi hq, fB_wordR ch hm hd ha hb hi hq, noM, noD, noA, noB]
  exact (gate_bind rfl rfl).trans (mkAB_ok (fA_wordR ch hm hd ha hb hi hq) (fB_wordR ch hm hd ha hb hi hq) h)
theorem RoundTrip.mcfg (ch : Bool) (a : Src) (b : Src) : RoundTrip.Statement (.mcfg ch a b) := by
  intro h
  have e0 : encode (.mcfg ch a b) = 0x4C000040 + bit01 ch <<< 31 + a.code <<< 14 + b.code <<< 8 := rfl
  have e : encode (.mcfg ch a b) = wordR 19 ch 0 a.code b.code 8 0 := by rw [e0]; simp only [wordR, Nat.shiftLeft_eq, bit01_false, bit01_true]; omega
  have hm : 19 < 31 := by decide
  have hi : 8 < 32 := by decide
  have hd : 0 < 64 := (by decide)
  have ha : a.code < 64 := src_lt a
  have hb : b.code < 64 := src_lt b
  have hq := (show 0 < 8 by decide)
  rw [e]; refine ⟨wordR_lt ch hm hd ha hb hi hq, ?_⟩
  rw [dec19 ch hm hd ha hb hi hq]; delta decMtx; rw [fIdx_wordR ch hm hd ha hb hi hq]; (try dsimp only)
  simp only [fCh_wordR ch hm hd ha hb hi hq, fMod_wordR ch hm hd ha hb hi hq, fD_wordR ch hm hd ha hb hi hq, fA_wordR ch hm hd ha hb hi hq, fB_wordR ch hm hd ha hb hi hq, noM, noD, noA, noB]
  exact (gate_bind rfl rfl).trans (mkAB_ok (fA_wordR ch hm hd ha hb hi hq) (fB_wordR ch hm hd ha hb hi hq) h)
theorem RoundTrip.mcmplx (ch : Bool) (a : Src) : RoundTrip.Statement (.mcmplx ch a) := by
  intro h
  have e0 : encode (.mcmplx ch a) = 0x4C000048 + bit01 ch <<< 31 + a.code <<< 14 := rfl
  have e : encode (.mcmplx ch a) = wordR 19 ch 0 a.code 0 9 0 := by rw [e0]; simp only [wordR, Nat.shiftLeft_eq, bit01_false, bit01_true]; omega
  have hm : 19 < 31 := by decide
  have hi : 9 < 32 := by decide
  have hd : 0 < 64 := (by decide)
  have ha : a.code < 64 := src_lt a
  have hb : 0 < 64 := (by decide)
  have hq := (show 0 < 8 by decide)
  rw [e]; refine ⟨wordR_lt ch hm hd ha hb hi hq, ?_⟩
  rw [dec19 ch hm hd ha hb hi hq]; delta decMtx; rw [fIdx_wordR ch hm hd ha hb hi hq]; (try dsimp only)
  simp only [fCh_wordR ch hm hd ha hb hi hq, fMod_wordR ch hm hd ha hb hi hq, fD_wordR ch hm hd ha hb hi hq, fA_wordR ch hm hd ha hb hi hq, fB_wordR ch hm hd ha hb hi hq, noM, noD, noA, noB]
  exact (gate_bind rfl rfl).trans (mkA_ok (fA_wordR ch hm hd ha hb hi hq) h)
theorem RoundTrip.glapp (ch : Bool) (a : Src) (b : Src) : RoundTrip.Statement (.glapp ch a b) := by
  intro h
  have e0 : encode (.glapp ch a b) = 0x50000000 + bit01 ch <<< 31 + a.code <<< 14 + b.code <<< 8 := rfl
  have e : encode (.glapp ch a b) = wordR 20 ch 0 a.code b.code 0 0 := by rw [e0]; simp only [wordR, Nat.shiftLeft_eq, bit01_false, bit01_true]; omega
  have hm : 20 < 31 := by decide
  have hi : 0 < 32 := by decide
  have hd : 0 < 64 := (by decide)
  have ha : a.code < 64 := src_lt a
  have hb : b.code < 64 := src_lt b
  have hq := (show 0 < 8 by decide)
  rw [e]; refine ⟨wordR_lt ch hm hd ha hb hi hq, ?_⟩
  rw [dec20 ch hm hd ha hb hi hq]; delta decGlog; rw [fIdx_wordR ch hm hd ha hb hi hq]; (try dsimp only)
  simp only [fCh_wordR ch hm hd ha hb hi hq, fMod_wordR ch hm hd ha hb hi hq, fD_wordR ch hm hd ha hb hi hq, fA_wordR ch hm hd ha hb hi hq, fB_wordR ch hm hd ha hb hi hq, noM, noD, noA, noB]
  exact (gate_bind rfl rfl).trans (mkAB_ok (fA_wordR ch hm hd ha hb hi hq) (fB_wordR ch hm hd ha hb hi hq) h)
theorem RoundTrip.glfold (ch : Bool) (a : Src) (b : Src) : RoundTrip.Statement (.glfold ch a b) := by
  intro h
  have e0 : encode (.glfold ch a b) = 0x50000008 + bit01 ch <<< 31 + a.code <<< 14 + b.code <<< 8 := rfl
  have e : encode (.glfold ch a b) = wordR 20 ch 0 a.code b.code 1 0 := by rw [e0]; simp only [wordR, Nat.shiftLeft_eq, bit01_false, bit01_true]; omega
  have hm : 20 < 31 := by decide
  have hi : 1 < 32 := by decide
  have hd : 0 < 64 := (by decide)
  have ha : a.code < 64 := src_lt a
  have hb : b.code < 64 := src_lt b
  have hq := (show 0 < 8 by decide)
  rw [e]; refine ⟨wordR_lt ch hm hd ha hb hi hq, ?_⟩
  rw [dec20 ch hm hd ha hb hi hq]; delta decGlog; rw [fIdx_wordR ch hm hd ha hb hi hq]; (try dsimp only)
  simp only [fCh_wordR ch hm hd ha hb hi hq, fMod_wordR ch hm hd ha hb hi hq, fD_wordR ch hm hd ha hb hi hq, fA_wordR ch hm hd ha hb hi hq, fB_wordR ch hm hd ha hb hi hq, noM, noD, noA, noB]
  exact (gate_bind rfl rfl).trans (mkAB_ok (fA_wordR ch hm hd ha hb hi hq) (fB_wordR ch hm hd ha hb hi hq) h)
theorem RoundTrip.emit (ch : Bool) (a : Src) (b : Src) : RoundTrip.Statement (.emit ch a b) := by
  intro h
  have e0 : encode (.emit ch a b) = 0x54000000 + bit01 ch <<< 31 + a.code <<< 14 + b.code <<< 8 := rfl
  have e : encode (.emit ch a b) = wordR 21 ch 0 a.code b.code 0 0 := by rw [e0]; simp only [wordR, Nat.shiftLeft_eq, bit01_false, bit01_true]; omega
  have hm : 21 < 31 := by decide
  have hi : 0 < 32 := by decide
  have hd : 0 < 64 := (by decide)
  have ha : a.code < 64 := src_lt a
  have hb : b.code < 64 := src_lt b
  have hq := (show 0 < 8 by decide)
  rw [e]; refine ⟨wordR_lt ch hm hd ha hb hi hq, ?_⟩
  rw [dec21 ch hm hd ha hb hi hq]; delta decWork; rw [fIdx_wordR ch hm hd ha hb hi hq]; (try dsimp only)
  simp only [fCh_wordR ch hm hd ha hb hi hq, fMod_wordR ch hm hd ha hb hi hq, fD_wordR ch hm hd ha hb hi hq, fA_wordR ch hm hd ha hb hi hq, fB_wordR ch hm hd ha hb hi hq, noM, noD, noA, noB]
  exact (gate_bind rfl rfl).trans (mkAB_ok (fA_wordR ch hm hd ha hb hi hq) (fB_wordR ch hm hd ha hb hi hq) h)
theorem RoundTrip.spawn (ch : Bool) (a : Src) (b : Src) : RoundTrip.Statement (.spawn ch a b) := by
  intro h
  have e0 : encode (.spawn ch a b) = 0x54000008 + bit01 ch <<< 31 + a.code <<< 14 + b.code <<< 8 := rfl
  have e : encode (.spawn ch a b) = wordR 21 ch 0 a.code b.code 1 0 := by rw [e0]; simp only [wordR, Nat.shiftLeft_eq, bit01_false, bit01_true]; omega
  have hm : 21 < 31 := by decide
  have hi : 1 < 32 := by decide
  have hd : 0 < 64 := (by decide)
  have ha : a.code < 64 := src_lt a
  have hb : b.code < 64 := src_lt b
  have hq := (show 0 < 8 by decide)
  rw [e]; refine ⟨wordR_lt ch hm hd ha hb hi hq, ?_⟩
  rw [dec21 ch hm hd ha hb hi hq]; delta decWork; rw [fIdx_wordR ch hm hd ha hb hi hq]; (try dsimp only)
  simp only [fCh_wordR ch hm hd ha hb hi hq, fMod_wordR ch hm hd ha hb hi hq, fD_wordR ch hm hd ha hb hi hq, fA_wordR ch hm hd ha hb hi hq, fB_wordR ch hm hd ha hb hi hq, noM, noD, noA, noB]
  exact (gate_bind rfl rfl).trans (mkAB_ok (fA_wordR ch hm hd ha hb hi hq) (fB_wordR ch hm hd ha hb hi hq) h)
theorem RoundTrip.jdec (ch : Bool) (a : Src) : RoundTrip.Statement (.jdec ch a) := by
  intro h
  have e0 : encode (.jdec ch a) = 0x54000010 + bit01 ch <<< 31 + a.code <<< 14 := rfl
  have e : encode (.jdec ch a) = wordR 21 ch 0 a.code 0 2 0 := by rw [e0]; simp only [wordR, Nat.shiftLeft_eq, bit01_false, bit01_true]; omega
  have hm : 21 < 31 := by decide
  have hi : 2 < 32 := by decide
  have hd : 0 < 64 := (by decide)
  have ha : a.code < 64 := src_lt a
  have hb : 0 < 64 := (by decide)
  have hq := (show 0 < 8 by decide)
  rw [e]; refine ⟨wordR_lt ch hm hd ha hb hi hq, ?_⟩
  rw [dec21 ch hm hd ha hb hi hq]; delta decWork; rw [fIdx_wordR ch hm hd ha hb hi hq]; (try dsimp only)
  simp only [fCh_wordR ch hm hd ha hb hi hq, fMod_wordR ch hm hd ha hb hi hq, fD_wordR ch hm hd ha hb hi hq, fA_wordR ch hm hd ha hb hi hq, fB_wordR ch hm hd ha hb hi hq, noM, noD, noA, noB]
  exact (gate_bind rfl rfl).trans (mkA_ok (fA_wordR ch hm hd ha hb hi hq) h)
theorem RoundTrip.wtag (ch : Bool) (a : Src) : RoundTrip.Statement (.wtag ch a) := by
  intro h
  have e0 : encode (.wtag ch a) = 0x58000000 + bit01 ch <<< 31 + a.code <<< 14 := rfl
  have e : encode (.wtag ch a) = wordR 22 ch 0 a.code 0 0 0 := by rw [e0]; simp only [wordR, Nat.shiftLeft_eq, bit01_false, bit01_true]; omega
  have hm : 22 < 31 := by decide
  have hi : 0 < 32 := by decide
  have hd : 0 < 64 := (by decide)
  have ha : a.code < 64 := src_lt a
  have hb : 0 < 64 := (by decide)
  have hq := (show 0 < 8 by decide)
  rw [e]; refine ⟨wordR_lt ch hm hd ha hb hi hq, ?_⟩
  rw [dec22 ch hm hd ha hb hi hq]; delta decWin; rw [fIdx_wordR ch hm hd ha hb hi hq]; (try dsimp only)
  simp only [fCh_wordR ch hm hd ha hb hi hq, fMod_wordR ch hm hd ha hb hi hq, fD_wordR ch hm hd ha hb hi hq, fA_wordR ch hm hd ha hb hi hq, fB_wordR ch hm hd ha hb hi hq, noM, noD, noA, noB]
  exact (gate_bind rfl rfl).trans (mkA_ok (fA_wordR ch hm hd ha hb hi hq) h)
theorem RoundTrip.wclose (ch : Bool) (d : Dst) (a : Src) (b : Src) : RoundTrip.Statement (.wclose ch d a b) := by
  intro h
  have e0 : encode (.wclose ch d a b) = 0x58000008 + bit01 ch <<< 31 + d.code <<< 20 + a.code <<< 14 + b.code <<< 8 := rfl
  have e : encode (.wclose ch d a b) = wordR 22 ch d.code a.code b.code 1 0 := by rw [e0]; simp only [wordR, Nat.shiftLeft_eq, bit01_false, bit01_true]; omega
  have hm : 22 < 31 := by decide
  have hi : 1 < 32 := by decide
  have hd : d.code < 64 := dst_lt d
  have ha : a.code < 64 := src_lt a
  have hb : b.code < 64 := src_lt b
  have hq := (show 0 < 8 by decide)
  rw [e]; refine ⟨wordR_lt ch hm hd ha hb hi hq, ?_⟩
  rw [dec22 ch hm hd ha hb hi hq]; delta decWin; rw [fIdx_wordR ch hm hd ha hb hi hq]; (try dsimp only)
  simp only [fCh_wordR ch hm hd ha hb hi hq, fMod_wordR ch hm hd ha hb hi hq, fD_wordR ch hm hd ha hb hi hq, fA_wordR ch hm hd ha hb hi hq, fB_wordR ch hm hd ha hb hi hq, noM, noD, noA, noB]
  have ht := once_of (i := .wclose ch d a b) rfl h
  exact (gate_bind rfl rfl).trans (mk3_ok (fD_wordR ch hm hd ha hb hi hq) (fA_wordR ch hm hd ha hb hi hq) (fB_wordR ch hm hd ha hb hi hq) ht h)
theorem RoundTrip.wfence (ch : Bool) : RoundTrip.Statement (.wfence ch) := by
  intro h
  have e0 : encode (.wfence ch) = 0x58000010 + bit01 ch <<< 31 := rfl
  have e : encode (.wfence ch) = wordR 22 ch 0 0 0 2 0 := by rw [e0]; simp only [wordR, Nat.shiftLeft_eq, bit01_false, bit01_true]; omega
  have hm : 22 < 31 := by decide
  have hi : 2 < 32 := by decide
  have hd : 0 < 64 := (by decide)
  have ha : 0 < 64 := (by decide)
  have hb : 0 < 64 := (by decide)
  have hq := (show 0 < 8 by decide)
  rw [e]; refine ⟨wordR_lt ch hm hd ha hb hi hq, ?_⟩
  rw [dec22 ch hm hd ha hb hi hq]; delta decWin; rw [fIdx_wordR ch hm hd ha hb hi hq]; (try dsimp only)
  simp only [fCh_wordR ch hm hd ha hb hi hq, fMod_wordR ch hm hd ha hb hi hq, fD_wordR ch hm hd ha hb hi hq, fA_wordR ch hm hd ha hb hi hq, fB_wordR ch hm hd ha hb hi hq, noM, noD, noA, noB]
  exact (gate_bind rfl rfl).trans (finish_ok h)
theorem RoundTrip.bcas (ch : Bool) (a : Src) (b : Src) : RoundTrip.Statement (.bcas ch a b) := by
  intro h
  have e0 : encode (.bcas ch a b) = 0x5C000000 + bit01 ch <<< 31 + a.code <<< 14 + b.code <<< 8 := rfl
  have e : encode (.bcas ch a b) = wordR 23 ch 0 a.code b.code 0 0 := by rw [e0]; simp only [wordR, Nat.shiftLeft_eq, bit01_false, bit01_true]; omega
  have hm : 23 < 31 := by decide
  have hi : 0 < 32 := by decide
  have hd : 0 < 64 := (by decide)
  have ha : a.code < 64 := src_lt a
  have hb : b.code < 64 := src_lt b
  have hq := (show 0 < 8 by decide)
  rw [e]; refine ⟨wordR_lt ch hm hd ha hb hi hq, ?_⟩
  rw [dec23 ch hm hd ha hb hi hq]; delta decBcn; rw [fIdx_wordR ch hm hd ha hb hi hq]; (try dsimp only)
  simp only [fCh_wordR ch hm hd ha hb hi hq, fMod_wordR ch hm hd ha hb hi hq, fD_wordR ch hm hd ha hb hi hq, fA_wordR ch hm hd ha hb hi hq, fB_wordR ch hm hd ha hb hi hq, noM, noD, noA, noB]
  exact (gate_bind rfl rfl).trans (mkAB_ok (fA_wordR ch hm hd ha hb hi hq) (fB_wordR ch hm hd ha hb hi hq) h)
theorem RoundTrip.benq (ch : Bool) (a : Src) (b : Src) : RoundTrip.Statement (.benq ch a b) := by
  intro h
  have e0 : encode (.benq ch a b) = 0x5C000008 + bit01 ch <<< 31 + a.code <<< 14 + b.code <<< 8 := rfl
  have e : encode (.benq ch a b) = wordR 23 ch 0 a.code b.code 1 0 := by rw [e0]; simp only [wordR, Nat.shiftLeft_eq, bit01_false, bit01_true]; omega
  have hm : 23 < 31 := by decide
  have hi : 1 < 32 := by decide
  have hd : 0 < 64 := (by decide)
  have ha : a.code < 64 := src_lt a
  have hb : b.code < 64 := src_lt b
  have hq := (show 0 < 8 by decide)
  rw [e]; refine ⟨wordR_lt ch hm hd ha hb hi hq, ?_⟩
  rw [dec23 ch hm hd ha hb hi hq]; delta decBcn; rw [fIdx_wordR ch hm hd ha hb hi hq]; (try dsimp only)
  simp only [fCh_wordR ch hm hd ha hb hi hq, fMod_wordR ch hm hd ha hb hi hq, fD_wordR ch hm hd ha hb hi hq, fA_wordR ch hm hd ha hb hi hq, fB_wordR ch hm hd ha hb hi hq, noM, noD, noA, noB]
  exact (gate_bind rfl rfl).trans (mkAB_ok (fA_wordR ch hm hd ha hb hi hq) (fB_wordR ch hm hd ha hb hi hq) h)
theorem RoundTrip.bchase (ch : Bool) (a : Src) (b : Src) : RoundTrip.Statement (.bchase ch a b) := by
  intro h
  have e0 : encode (.bchase ch a b) = 0x5C000010 + bit01 ch <<< 31 + a.code <<< 14 + b.code <<< 8 := rfl
  have e : encode (.bchase ch a b) = wordR 23 ch 0 a.code b.code 2 0 := by rw [e0]; simp only [wordR, Nat.shiftLeft_eq, bit01_false, bit01_true]; omega
  have hm : 23 < 31 := by decide
  have hi : 2 < 32 := by decide
  have hd : 0 < 64 := (by decide)
  have ha : a.code < 64 := src_lt a
  have hb : b.code < 64 := src_lt b
  have hq := (show 0 < 8 by decide)
  rw [e]; refine ⟨wordR_lt ch hm hd ha hb hi hq, ?_⟩
  rw [dec23 ch hm hd ha hb hi hq]; delta decBcn; rw [fIdx_wordR ch hm hd ha hb hi hq]; (try dsimp only)
  simp only [fCh_wordR ch hm hd ha hb hi hq, fMod_wordR ch hm hd ha hb hi hq, fD_wordR ch hm hd ha hb hi hq, fA_wordR ch hm hd ha hb hi hq, fB_wordR ch hm hd ha hb hi hq, noM, noD, noA, noB]
  exact (gate_bind rfl rfl).trans (mkAB_ok (fA_wordR ch hm hd ha hb hi hq) (fB_wordR ch hm hd ha hb hi hq) h)
theorem RoundTrip.bred (ch : Bool) (a : Src) (b : Src) : RoundTrip.Statement (.bred ch a b) := by
  intro h
  have e0 : encode (.bred ch a b) = 0x5C000018 + bit01 ch <<< 31 + a.code <<< 14 + b.code <<< 8 := rfl
  have e : encode (.bred ch a b) = wordR 23 ch 0 a.code b.code 3 0 := by rw [e0]; simp only [wordR, Nat.shiftLeft_eq, bit01_false, bit01_true]; omega
  have hm : 23 < 31 := by decide
  have hi : 3 < 32 := by decide
  have hd : 0 < 64 := (by decide)
  have ha : a.code < 64 := src_lt a
  have hb : b.code < 64 := src_lt b
  have hq := (show 0 < 8 by decide)
  rw [e]; refine ⟨wordR_lt ch hm hd ha hb hi hq, ?_⟩
  rw [dec23 ch hm hd ha hb hi hq]; delta decBcn; rw [fIdx_wordR ch hm hd ha hb hi hq]; (try dsimp only)
  simp only [fCh_wordR ch hm hd ha hb hi hq, fMod_wordR ch hm hd ha hb hi hq, fD_wordR ch hm hd ha hb hi hq, fA_wordR ch hm hd ha hb hi hq, fB_wordR ch hm hd ha hb hi hq, noM, noD, noA, noB]
  exact (gate_bind rfl rfl).trans (mkAB_ok (fA_wordR ch hm hd ha hb hi hq) (fB_wordR ch hm hd ha hb hi hq) h)
theorem RoundTrip.xev (ch : Bool) (a : Src) (b : Src) : RoundTrip.Statement (.xev ch a b) := by
  intro h
  have e0 : encode (.xev ch a b) = 0x60000000 + bit01 ch <<< 31 + a.code <<< 14 + b.code <<< 8 := rfl
  have e : encode (.xev ch a b) = wordR 24 ch 0 a.code b.code 0 0 := by rw [e0]; simp only [wordR, Nat.shiftLeft_eq, bit01_false, bit01_true]; omega
  have hm : 24 < 31 := by decide
  have hi : 0 < 32 := by decide
  have hd : 0 < 64 := (by decide)
  have ha : a.code < 64 := src_lt a
  have hb : b.code < 64 := src_lt b
  have hq := (show 0 < 8 by decide)
  rw [e]; refine ⟨wordR_lt ch hm hd ha hb hi hq, ?_⟩
  rw [dec24 ch hm hd ha hb hi hq]; delta decColl; rw [fIdx_wordR ch hm hd ha hb hi hq]; (try dsimp only)
  simp only [fCh_wordR ch hm hd ha hb hi hq, fMod_wordR ch hm hd ha hb hi hq, fD_wordR ch hm hd ha hb hi hq, fA_wordR ch hm hd ha hb hi hq, fB_wordR ch hm hd ha hb hi hq, noM, noD, noA, noB]
  exact (gate_bind rfl rfl).trans (mkAB_ok (fA_wordR ch hm hd ha hb hi hq) (fB_wordR ch hm hd ha hb hi hq) h)
theorem RoundTrip.xtest (ch : Bool) (p : PDst) (a : Src) (b : Src) : RoundTrip.Statement (.xtest ch p a b) := by
  intro h
  have e0 : encode (.xtest ch p a b) = 0x60000008 + bit01 ch <<< 31 + p.code <<< 20 + a.code <<< 14 + b.code <<< 8 := rfl
  have e : encode (.xtest ch p a b) = wordR 24 ch p.code a.code b.code 1 0 := by rw [e0]; simp only [wordR, Nat.shiftLeft_eq, bit01_false, bit01_true]; omega
  have hm : 24 < 31 := by decide
  have hi : 1 < 32 := by decide
  have hd : p.code < 64 := pdst_lt p
  have ha : a.code < 64 := src_lt a
  have hb : b.code < 64 := src_lt b
  have hq := (show 0 < 8 by decide)
  rw [e]; refine ⟨wordR_lt ch hm hd ha hb hi hq, ?_⟩
  rw [dec24 ch hm hd ha hb hi hq]; delta decColl; rw [fIdx_wordR ch hm hd ha hb hi hq]; (try dsimp only)
  simp only [fCh_wordR ch hm hd ha hb hi hq, fMod_wordR ch hm hd ha hb hi hq, fD_wordR ch hm hd ha hb hi hq, fA_wordR ch hm hd ha hb hi hq, fB_wordR ch hm hd ha hb hi hq, noM, noD, noA, noB, pdstOf_code]
  exact (gate_bind rfl rfl).trans (mkAB_ok (fA_wordR ch hm hd ha hb hi hq) (fB_wordR ch hm hd ha hb hi hq) h)
theorem RoundTrip.tmchk (ch : Bool) (p : PDst) (a : Src) : RoundTrip.Statement (.tmchk ch p a) := by
  intro h
  have e0 : encode (.tmchk ch p a) = 0x64000000 + bit01 ch <<< 31 + p.code <<< 20 + a.code <<< 14 := rfl
  have e : encode (.tmchk ch p a) = wordR 25 ch p.code a.code 0 0 0 := by rw [e0]; simp only [wordR, Nat.shiftLeft_eq, bit01_false, bit01_true]; omega
  have hm : 25 < 31 := by decide
  have hi : 0 < 32 := by decide
  have hd : p.code < 64 := pdst_lt p
  have ha : a.code < 64 := src_lt a
  have hb : 0 < 64 := (by decide)
  have hq := (show 0 < 8 by decide)
  rw [e]; refine ⟨wordR_lt ch hm hd ha hb hi hq, ?_⟩
  rw [dec25 ch hm hd ha hb hi hq]; delta decMdl; rw [fIdx_wordR ch hm hd ha hb hi hq]; (try dsimp only)
  simp only [fCh_wordR ch hm hd ha hb hi hq, fMod_wordR ch hm hd ha hb hi hq, fD_wordR ch hm hd ha hb hi hq, fA_wordR ch hm hd ha hb hi hq, fB_wordR ch hm hd ha hb hi hq, noM, noD, noA, noB, pdstOf_code]
  exact (gate_bind rfl rfl).trans (mkA_ok (fA_wordR ch hm hd ha hb hi hq) h)
theorem RoundTrip.tmwait (ch : Bool) (a : Src) : RoundTrip.Statement (.tmwait ch a) := by
  intro h
  have e0 : encode (.tmwait ch a) = 0x64000008 + bit01 ch <<< 31 + a.code <<< 14 := rfl
  have e : encode (.tmwait ch a) = wordR 25 ch 0 a.code 0 1 0 := by rw [e0]; simp only [wordR, Nat.shiftLeft_eq, bit01_false, bit01_true]; omega
  have hm : 25 < 31 := by decide
  have hi : 1 < 32 := by decide
  have hd : 0 < 64 := (by decide)
  have ha : a.code < 64 := src_lt a
  have hb : 0 < 64 := (by decide)
  have hq := (show 0 < 8 by decide)
  rw [e]; refine ⟨wordR_lt ch hm hd ha hb hi hq, ?_⟩
  rw [dec25 ch hm hd ha hb hi hq]; delta decMdl; rw [fIdx_wordR ch hm hd ha hb hi hq]; (try dsimp only)
  simp only [fCh_wordR ch hm hd ha hb hi hq, fMod_wordR ch hm hd ha hb hi hq, fD_wordR ch hm hd ha hb hi hq, fA_wordR ch hm hd ha hb hi hq, fB_wordR ch hm hd ha hb hi hq, noM, noD, noA, noB]
  exact (gate_bind rfl rfl).trans (mkA_ok (fA_wordR ch hm hd ha hb hi hq) h)
theorem RoundTrip.tmpin (ch : Bool) (a : Src) : RoundTrip.Statement (.tmpin ch a) := by
  intro h
  have e0 : encode (.tmpin ch a) = 0x64000010 + bit01 ch <<< 31 + a.code <<< 14 := rfl
  have e : encode (.tmpin ch a) = wordR 25 ch 0 a.code 0 2 0 := by rw [e0]; simp only [wordR, Nat.shiftLeft_eq, bit01_false, bit01_true]; omega
  have hm : 25 < 31 := by decide
  have hi : 2 < 32 := by decide
  have hd : 0 < 64 := (by decide)
  have ha : a.code < 64 := src_lt a
  have hb : 0 < 64 := (by decide)
  have hq := (show 0 < 8 by decide)
  rw [e]; refine ⟨wordR_lt ch hm hd ha hb hi hq, ?_⟩
  rw [dec25 ch hm hd ha hb hi hq]; delta decMdl; rw [fIdx_wordR ch hm hd ha hb hi hq]; (try dsimp only)
  simp only [fCh_wordR ch hm hd ha hb hi hq, fMod_wordR ch hm hd ha hb hi hq, fD_wordR ch hm hd ha hb hi hq, fA_wordR ch hm hd ha hb hi hq, fB_wordR ch hm hd ha hb hi hq, noM, noD, noA, noB]
  exact (gate_bind rfl rfl).trans (mkA_ok (fA_wordR ch hm hd ha hb hi hq) h)
theorem RoundTrip.tmunpin (ch : Bool) (a : Src) : RoundTrip.Statement (.tmunpin ch a) := by
  intro h
  have e0 : encode (.tmunpin ch a) = 0x64000018 + bit01 ch <<< 31 + a.code <<< 14 := rfl
  have e : encode (.tmunpin ch a) = wordR 25 ch 0 a.code 0 3 0 := by rw [e0]; simp only [wordR, Nat.shiftLeft_eq, bit01_false, bit01_true]; omega
  have hm : 25 < 31 := by decide
  have hi : 3 < 32 := by decide
  have hd : 0 < 64 := (by decide)
  have ha : a.code < 64 := src_lt a
  have hb : 0 < 64 := (by decide)
  have hq := (show 0 < 8 by decide)
  rw [e]; refine ⟨wordR_lt ch hm hd ha hb hi hq, ?_⟩
  rw [dec25 ch hm hd ha hb hi hq]; delta decMdl; rw [fIdx_wordR ch hm hd ha hb hi hq]; (try dsimp only)
  simp only [fCh_wordR ch hm hd ha hb hi hq, fMod_wordR ch hm hd ha hb hi hq, fD_wordR ch hm hd ha hb hi hq, fA_wordR ch hm hd ha hb hi hq, fB_wordR ch hm hd ha hb hi hq, noM, noD, noA, noB]
  exact (gate_bind rfl rfl).trans (mkA_ok (fA_wordR ch hm hd ha hb hi hq) h)
theorem RoundTrip.loadDataReturn (core : Nat) (grp : Nat) (txn : Nat) (bad : Bool) : RoundTrip.Statement (.loadDataReturn core grp txn bad) := fun h => Bool.noConfusion h
theorem RoundTrip.fenceCompletion (core : Nat) (grp : Nat) : RoundTrip.Statement (.fenceCompletion core grp) := fun h => Bool.noConfusion h
theorem RoundTrip.speculationRollback (core : Nat) (grp : Nat) : RoundTrip.Statement (.speculationRollback core grp) := fun h => Bool.noConfusion h
theorem RoundTrip.sleepExpiry (core : Nat) (grp : Nat) (lane : Nat) : RoundTrip.Statement (.sleepExpiry core grp lane) := fun h => Bool.noConfusion h
theorem RoundTrip.mooringOpAtHome (k : Nat) : RoundTrip.Statement (.mooringOpAtHome k) := fun h => Bool.noConfusion h
theorem RoundTrip.chunkFill (team : Nat) (map : Nat) (chunk : Nat) : RoundTrip.Statement (.chunkFill team map chunk) := fun h => Bool.noConfusion h
theorem RoundTrip.scratchWriteback (team : Nat) : RoundTrip.Statement (.scratchWriteback team) := fun h => Bool.noConfusion h
theorem RoundTrip.groupEnd (core : Nat) (grp : Nat) : RoundTrip.Statement (.groupEnd core grp) := fun h => Bool.noConfusion h
theorem RoundTrip.gridRetirement (grid : Nat) : RoundTrip.Statement (.gridRetirement grid) := fun h => Bool.noConfusion h
theorem RoundTrip.preemptionRequest (team : Nat) : RoundTrip.Statement (.preemptionRequest team) := fun h => Bool.noConfusion h
theorem RoundTrip.contextSave (team : Nat) : RoundTrip.Statement (.contextSave team) := fun h => Bool.noConfusion h
theorem RoundTrip.faultService (k : Nat) (how : Service) : RoundTrip.Statement (.faultService k how) := fun h => Bool.noConfusion h
theorem RoundTrip.faultRecordDelivery (ctx : Nat) : RoundTrip.Statement (.faultRecordDelivery ctx) := fun h => Bool.noConfusion h
theorem RoundTrip.retry (k : Nat) : RoundTrip.Statement (.retry k) := fun h => Bool.noConfusion h
theorem RoundTrip.remap (k : Nat) : RoundTrip.Statement (.remap k) := fun h => Bool.noConfusion h
theorem RoundTrip.setrap (k : Nat) : RoundTrip.Statement (.setrap k) := fun h => Bool.noConfusion h
theorem RoundTrip.migrate (k : Nat) : RoundTrip.Statement (.migrate k) := fun h => Bool.noConfusion h
theorem RoundTrip.restream (k : Nat) : RoundTrip.Statement (.restream k) := fun h => Bool.noConfusion h
theorem RoundTrip.deliver (k : Nat) : RoundTrip.Statement (.deliver k) := fun h => Bool.noConfusion h
theorem RoundTrip.abort (k : Nat) : RoundTrip.Statement (.abort k) := fun h => Bool.noConfusion h
theorem RoundTrip.ret (k : Nat) : RoundTrip.Statement (.ret k) := fun h => Bool.noConfusion h
theorem RoundTrip.copyBatchCompletion (core : Nat) (grp : Nat) : RoundTrip.Statement (.copyBatchCompletion core grp) := fun h => Bool.noConfusion h
theorem RoundTrip.tileCompletion (core : Nat) (grp : Nat) (op : Nat) : RoundTrip.Statement (.tileCompletion core grp op) := fun h => Bool.noConfusion h
theorem RoundTrip.relayHopCompletion (core : Nat) (grp : Nat) (op : Nat) : RoundTrip.Statement (.relayHopCompletion core grp op) := fun h => Bool.noConfusion h
theorem RoundTrip.gatherCompletion (core : Nat) (grp : Nat) (op : Nat) : RoundTrip.Statement (.gatherCompletion core grp op) := fun h => Bool.noConfusion h
theorem RoundTrip.jointIssue (core : Nat) (part : Nat) : RoundTrip.Statement (.jointIssue core part) := fun h => Bool.noConfusion h
theorem RoundTrip.matrixPass (core : Nat) (part : Nat) : RoundTrip.Statement (.matrixPass core part) := fun h => Bool.noConfusion h
theorem RoundTrip.matrixOpCompletion (core : Nat) (part : Nat) : RoundTrip.Statement (.matrixOpCompletion core part) := fun h => Bool.noConfusion h
theorem RoundTrip.matrixHeaderFailure (core : Nat) (part : Nat) : RoundTrip.Statement (.matrixHeaderFailure core part) := fun h => Bool.noConfusion h
theorem RoundTrip.mdrainEntryDelivery (core : Nat) (part : Nat) : RoundTrip.Statement (.mdrainEntryDelivery core part) := fun h => Bool.noConfusion h
theorem RoundTrip.glappRecordWrite (core : Nat) (part : Nat) : RoundTrip.Statement (.glappRecordWrite core part) := fun h => Bool.noConfusion h
theorem RoundTrip.recordFold (log : Nat) : RoundTrip.Statement (.recordFold log) := fun h => Bool.noConfusion h
theorem RoundTrip.glfoldRetirement (k : Nat) : RoundTrip.Statement (.glfoldRetirement k) := fun h => Bool.noConfusion h
theorem RoundTrip.doorbell (q : Nat) (wptr : BitVec 32) : RoundTrip.Statement (.doorbell q wptr) := fun h => Bool.noConfusion h
theorem RoundTrip.packetNop (q : Nat) : RoundTrip.Statement (.packetNop q) := fun h => Bool.noConfusion h
theorem RoundTrip.launch (q : Nat) : RoundTrip.Statement (.launch q) := fun h => Bool.noConfusion h
theorem RoundTrip.coll (q : Nat) : RoundTrip.Statement (.coll q) := fun h => Bool.noConfusion h
theorem RoundTrip.waitmem (q : Nat) : RoundTrip.Statement (.waitmem q) := fun h => Bool.noConfusion h
theorem RoundTrip.waitmemReread (q : Nat) : RoundTrip.Statement (.waitmemReread q) := fun h => Bool.noConfusion h
theorem RoundTrip.signalmem (q : Nat) : RoundTrip.Statement (.signalmem q) := fun h => Bool.noConfusion h
theorem RoundTrip.modelRequest (q : Nat) : RoundTrip.Statement (.modelRequest q) := fun h => Bool.noConfusion h
theorem RoundTrip.modelWithdraw (q : Nat) : RoundTrip.Statement (.modelWithdraw q) := fun h => Bool.noConfusion h
theorem RoundTrip.modelPin (q : Nat) : RoundTrip.Statement (.modelPin q) := fun h => Bool.noConfusion h
theorem RoundTrip.modelUnpin (q : Nat) : RoundTrip.Statement (.modelUnpin q) := fun h => Bool.noConfusion h
theorem RoundTrip.qbarrier (q : Nat) : RoundTrip.Statement (.qbarrier q) := fun h => Bool.noConfusion h
theorem RoundTrip.workTableTimeout (q : Nat) : RoundTrip.Statement (.workTableTimeout q) := fun h => Bool.noConfusion h
theorem RoundTrip.placementAttempt (die : Nat) : RoundTrip.Statement (.placementAttempt die) := fun h => Bool.noConfusion h
theorem RoundTrip.candidateReservation (die : Nat) (level : Nat) : RoundTrip.Statement (.candidateReservation die level) := fun h => Bool.noConfusion h
theorem RoundTrip.thermalMigration (core : Nat) : RoundTrip.Statement (.thermalMigration core) := fun h => Bool.noConfusion h
theorem RoundTrip.jdecAtHome (k : Nat) : RoundTrip.Statement (.jdecAtHome k) := fun h => Bool.noConfusion h
theorem RoundTrip.layerArrival (ctx : Nat) (layer : Nat) (bytes : List LayerBytes) : RoundTrip.Statement (.layerArrival ctx layer bytes) := fun h => Bool.noConfusion h
theorem RoundTrip.layerFetchFailure (ctx : Nat) (layer : Nat) (abandon : Bool) : RoundTrip.Statement (.layerFetchFailure ctx layer abandon) := fun h => Bool.noConfusion h
theorem RoundTrip.layerEviction (ctx : Nat) (layer : Nat) : RoundTrip.Statement (.layerEviction ctx layer) := fun h => Bool.noConfusion h
theorem RoundTrip.reflectionArrival (a : ReflArrival) : RoundTrip.Statement (.reflectionArrival a) := fun h => Bool.noConfusion h
theorem RoundTrip.reflectionAcknowledgement (k : Nat) (bitmap : BitVec 16) : RoundTrip.Statement (.reflectionAcknowledgement k bitmap) := fun h => Bool.noConfusion h
theorem RoundTrip.closeMarkerArrival (a : CloseArrival) : RoundTrip.Statement (.closeMarkerArrival a) := fun h => Bool.noConfusion h
theorem RoundTrip.daymarkArrival (k : Nat) (tgt : Nat) (bitmap : BitVec 16) : RoundTrip.Statement (.daymarkArrival k tgt bitmap) := fun h => Bool.noConfusion h
theorem RoundTrip.beaconBcasStep (a : BeaconArrival) : RoundTrip.Statement (.beaconBcasStep a) := fun h => Bool.noConfusion h
theorem RoundTrip.beaconBenqStep (a : BeaconArrival) : RoundTrip.Statement (.beaconBenqStep a) := fun h => Bool.noConfusion h
theorem RoundTrip.beaconBchaseStep (a : BeaconArrival) : RoundTrip.Statement (.beaconBchaseStep a) := fun h => Bool.noConfusion h
theorem RoundTrip.beaconBredStep (a : BeaconArrival) : RoundTrip.Statement (.beaconBredStep a) := fun h => Bool.noConfusion h
theorem RoundTrip.ualinkReadReceived (src : Nat) : RoundTrip.Statement (.ualinkReadReceived src) := fun h => Bool.noConfusion h
theorem RoundTrip.slotGrant (k : Nat) (peer : Nat) (e0 : Nat) : RoundTrip.Statement (.slotGrant k peer e0) := fun h => Bool.noConfusion h
theorem RoundTrip.contributionArrival (k : Nat) (c : Contribution) : RoundTrip.Statement (.contributionArrival k c) := fun h => Bool.noConfusion h
theorem RoundTrip.memberReport (k : Nat) (m : Nat) : RoundTrip.Statement (.memberReport k m) := fun h => Bool.noConfusion h
theorem RoundTrip.readyWordPoll (k : Nat) : RoundTrip.Statement (.readyWordPoll k) := fun h => Bool.noConfusion h
theorem RoundTrip.collectiveFailure (k : Nat) (why : BitVec 8) : RoundTrip.Statement (.collectiveFailure k why) := fun h => Bool.noConfusion h
theorem RoundTrip.vaultRowSparing (vault : Nat) (row : Nat) : RoundTrip.Statement (.vaultRowSparing vault row) := fun h => Bool.noConfusion h
theorem RoundTrip.hbmChannelFailure (stack : Nat) (ch : Nat) : RoundTrip.Statement (.hbmChannelFailure stack ch) := fun h => Bool.noConfusion h
theorem RoundTrip.dieLinkLaneFailure (link : Nat) (lane : Nat) : RoundTrip.Statement (.dieLinkLaneFailure link lane) := fun h => Bool.noConfusion h
theorem RoundTrip.ualinkPortFailure (port : Nat) : RoundTrip.Statement (.ualinkPortFailure port) := fun h => Bool.noConfusion h
theorem RoundTrip.coreFailure (core : Nat) (lost : List Nat) : RoundTrip.Statement (.coreFailure core lost) := fun h => Bool.noConfusion h
theorem RoundTrip.vaultFailure (core : Nat) : RoundTrip.Statement (.vaultFailure core) := fun h => Bool.noConfusion h
theorem RoundTrip.heartbeatTakeover : RoundTrip.Statement (.heartbeatTakeover) := fun h => absurd h (by decide)
theorem RoundTrip.cxlPortFailure : RoundTrip.Statement (.cxlPortFailure) := fun h => absurd h (by decide)
theorem RoundTrip.patrolScrub (sector : Nat) : RoundTrip.Statement (.patrolScrub sector) := fun h => Bool.noConfusion h
theorem RoundTrip.hostMemAccess (hpa : Nat) (a : HostAccess) : RoundTrip.Statement (.hostMemAccess hpa a) := fun h => Bool.noConfusion h
theorem RoundTrip.scaleViewWrite (hpa : Nat) (v : Byte) : RoundTrip.Statement (.scaleViewWrite hpa v) := fun h => Bool.noConfusion h
theorem RoundTrip.ctxCreate (ctx : Nat) (x : CtxParams) : RoundTrip.Statement (.ctxCreate ctx x) := fun h => Bool.noConfusion h
theorem RoundTrip.ctxSet (ctx : Nat) (x : CtxChange) : RoundTrip.Statement (.ctxSet ctx x) := fun h => Bool.noConfusion h
theorem RoundTrip.ctxDestroy (ctx : Nat) : RoundTrip.Statement (.ctxDestroy ctx) := fun h => Bool.noConfusion h
theorem RoundTrip.map (ctx : Nat) (va : DWord) (leaf : DWord) : RoundTrip.Statement (.map ctx va leaf) := fun h => Bool.noConfusion h
theorem RoundTrip.unmap (ctx : Nat) (va : DWord) : RoundTrip.Statement (.unmap ctx va) := fun h => Bool.noConfusion h
theorem RoundTrip.xlate (ctx : Nat) (va : DWord) : RoundTrip.Statement (.xlate ctx va) := fun h => Bool.noConfusion h
theorem RoundTrip.keyLoad (key : Nat) (pair : Nat) : RoundTrip.Statement (.keyLoad key pair) := fun h => Bool.noConfusion h
theorem RoundTrip.keyClear (key : Nat) : RoundTrip.Statement (.keyClear key) := fun h => Bool.noConfusion h
theorem RoundTrip.winSet (x : WinEntry) : RoundTrip.Statement (.winSet x) := fun h => Bool.noConfusion h
theorem RoundTrip.queueSet (q : Nat) (x : QueueFields) : RoundTrip.Statement (.queueSet q x) := fun h => Bool.noConfusion h
theorem RoundTrip.queueClear (q : Nat) : RoundTrip.Statement (.queueClear q) := fun h => Bool.noConfusion h
theorem RoundTrip.layerDone (ctx : Nat) (layer : Nat) : RoundTrip.Statement (.layerDone ctx layer) := fun h => Bool.noConfusion h
theorem RoundTrip.fwWrite (off : Nat) (data : List Byte) : RoundTrip.Statement (.fwWrite off data) := fun h => Bool.noConfusion h
theorem RoundTrip.fwCommit (digest : Nat) : RoundTrip.Statement (.fwCommit digest) := fun h => Bool.noConfusion h
theorem RoundTrip.warm (preserve : Bool) : RoundTrip.Statement (.warm preserve) := fun h => Bool.noConfusion h
theorem RoundTrip.mailboxUnknownCode (code : BitVec 32) : RoundTrip.Statement (.mailboxUnknownCode code) := fun h => Bool.noConfusion h
theorem RoundTrip.bar0WriteIgnored (off : Nat) (v : DWord) : RoundTrip.Statement (.bar0WriteIgnored off v) := fun h => Bool.noConfusion h
theorem RoundTrip.coldStart (x : StartInputs) : RoundTrip.Statement (.coldStart x) := fun h => Bool.noConfusion h
theorem RoundTrip.warmReset (preserve : Bool) (x : StartInputs) : RoundTrip.Statement (.warmReset preserve x) := fun h => Bool.noConfusion h
theorem RoundTrip.managementRead (what : MgmtItem) : RoundTrip.Statement (.managementRead what) := fun h => Bool.noConfusion h
theorem RoundTrip.plimWrite (watts : Nat) : RoundTrip.Statement (.plimWrite watts) := fun h => Bool.noConfusion h
theorem RoundTrip.coldResetRequest : RoundTrip.Statement (.coldResetRequest) := fun h => absurd h (by decide)
theorem RoundTrip.powerWindow (watts : Nat) : RoundTrip.Statement (.powerWindow watts) := fun h => Bool.noConfusion h
theorem RoundTrip.temperatureHot (core : Nat) : RoundTrip.Statement (.temperatureHot core) := fun h => Bool.noConfusion h
theorem RoundTrip.temperatureTrip : RoundTrip.Statement (.temperatureTrip) := fun h => absurd h (by decide)
theorem RoundTrip.illegalOp (core : Nat) (grp : Nat) (lanes : LaneSet) (cause : Cause) (sub : Nat) : RoundTrip.Statement (.illegalOp core grp lanes cause sub) := fun h => Bool.noConfusion h
theorem RoundTrip.packetFetch (core : Nat) (grp : Nat) (lanes : LaneSet) : RoundTrip.Statement (.packetFetch core grp lanes) := fun h => Bool.noConfusion h
theorem RoundTrip.mbstsRead : RoundTrip.Statement (.mbstsRead) := fun h => absurd h (by decide)
theorem RoundTrip.hdmDecoderWrite (which : BitVec 2) (base : DWord) : RoundTrip.Statement (.hdmDecoderWrite which base) := fun h => Bool.noConfusion h
theorem RoundTrip.digestExchange (k : Nat) (m : Nat) (digest : Nat) : RoundTrip.Statement (.digestExchange k m digest) := fun h => Bool.noConfusion h
theorem RoundTrip.vaultSplitChange (core : Nat) (vm : Nat) : RoundTrip.Statement (.vaultSplitChange core vm) := fun h => Bool.noConfusion h

end Sys2Proof.Laws
end

