-- ==== Sys2Proof/Laws/Trap.lean ====
section
/-! SUPPORT. The end of a chain in which lanes trap: they enter the handler, the others stand after the chain, and nothing else
happens. -/
namespace Sys2Proof.Machine
open Sys2Proof.Safety

/-- A fate that is either completion without effects or a trap. -/
def plainFate : LaneOut → Bool
  | .ok es => es.isEmpty
  | .trap .. => true
  | _ => false
variable {s : State} {c : Chain}
theorem okLanes_sub {fs : Tbl LaneOut} {l : Nat} (h : l ∈ okLanes fs) : ∃ es, (l, LaneOut.ok es) ∈ fs := by
  obtain ⟨p, hp, rfl⟩ := List.mem_map.mp h
  obtain ⟨h1, h2⟩ := List.mem_filter.mp hp
  obtain ⟨k, o⟩ := p
  cases o with
  | ok es => exact ⟨es, h1⟩
  | _ => cases h2
/-- The lanes of a chain and how each ends, when each completes without effects or traps. -/
theorem fates_plain (he : ∀ l ∈ lanesOf c.lanes, (c.fate l).isOk = true → c.effs l = [])
    (hw : ∀ w ∈ c.outs, ∀ p ∈ w.rows (okLanes ((lanesOf c.lanes).map fun l => (l, c.fate l))), p.2 = [])
    (hspec : (s.group c.core c.grp).spec = none) (hpl : ∀ l ∈ lanesOf c.lanes, plainFate (c.fate l) = true) : s.fates c = (lanesOf c.lanes).map fun l => (l, c.fate l) := by
  generalize hfs : (lanesOf c.lanes).map (fun l => (l, c.fate l)) = fs at hw
  have hok : ∀ l ∈ okLanes fs, c.effs l = [] := by
    intro l hl
    obtain ⟨es, h⟩ := okLanes_sub hl
    rw [← hfs] at h
    obtain ⟨k, hk, e⟩ := List.mem_map.mp h
    obtain ⟨rfl, e2⟩ := Prod.mk.inj e
    exact he k hk (by rw [e2]; rfl)
  have hst : fs.any (fun p => p.2.stalls) = false := by
    rw [List.any_eq_false, ← hfs]; intro p hp
    obtain ⟨l, hl, rfl⟩ := List.mem_map.mp hp
    have := hpl l hl
    dsimp only
    cases h : c.fate l <;> first | exact Bool.false_ne_true | (rw [h] at this; cases this)
  have hr : s.races c (okLanes fs) = [] := races_local s c _ fun l hl e h => by rw [hok l hl] at h; cases h
  have h1 : fs.map (fun p => (p.1, conflictOr [] p.1 p.2)) = fs := by
    have : (fun p : Nat × LaneOut => (p.1, conflictOr [] p.1 p.2)) = id := rfl
    rw [this, List.map_id]
  have h2 : ((okLanes fs).any fun l => (c.effs l).any Eff.loadsMq) = false := by
    rw [List.any_eq_false]; intro l hl; rw [hok l hl]; exact Bool.false_ne_true
  have ht : c.txns (okLanes fs) = 0 := by
    have a1 : ((okLanes fs).map fun l => ((c.effs l).map Eff.txns).sum).sum = 0 := sum_zero _ _ fun l hl => by rw [hok l hl]; rfl
    have a2 : ((List.range 4).filter fun q => (okLanes fs).any fun l => quarterOf l == q && (c.effs l).any Eff.isBlk) = [] := by
      rw [List.filter_eq_nil_iff]; intro q _
      rw [Bool.not_eq_true, List.any_eq_false]; intro l hl
      rw [hok l hl]; simp
    unfold Chain.txns
    rw [a1, a2]; rfl
  have hm : ∀ k, c.mqPushes (okLanes fs) k = 0 := by
    intro k
    unfold Chain.mqPushes
    exact sum_zero _ _ fun w hw' => by rw [entries_quiet (hw w hw')]; rfl
  have hroom : s.hasRoom c (okLanes fs) = true := by
    unfold State.hasRoom
    dsimp only
    rw [ht]
    simp [hm]
  have hw : s.wordFates c = fs := by
    unfold State.wordFates
    simp only [hfs, hspec, Option.isSome_none, Bool.false_eq_true, if_false]
  unfold State.fates
  simp only [hw, hr, h1, hspec, Option.isSome_none, Bool.false_eq_true, if_false, h2, Bool.and_false, hroom, Bool.not_true, Chain.holdMq,
    Chain.waits, hst]
/-- The vector of the group's context does not depend on the group's lanes. -/
theorem vector_setGroup (s : State) (c g : Nat) (x : Group) (h : x.team = (s.group c g).team) :
    ((s.setGroup c g x).ctx ((s.setGroup c g x).ctxOf c g)).tvec = (s.ctx (s.ctxOf c g)).tvec := by
  have e : (s.setGroup c g x).ctxOf c g = s.ctxOf c g := by
    unfold State.ctxOf State.gridOf State.teamOf
    rw [State.group_setGroup_same, h]; rfl
  rw [e]; rfl
/-- One lane traps, on its group. -/
theorem failLane_trap {t l : Nat} {k : Cause} {a : DWord} (g : Group) (hg : g.team = (s.group c.core c.grp).team) (h1 : (g.lane l).h = false)
    (h2 : (g.lane l).mode ≠ .exited) (h3 : (s.ctx (s.ctxOf c.core c.grp)).tvec ≠ 0) :
    (s.setGroup c.core c.grp g).failLane c t l (.trap k a) =
      s.setGroup c.core c.grp (g.updL l fun x => Lane.enterTrap { x with since := t } (s.ctx (s.ctxOf c.core c.grp)).tvec k a x.pc c.first) := by
  have hl : (s.setGroup c.core c.grp g).lane c.core c.grp l = g.lane l := by
    show ((s.setGroup c.core c.grp g).group c.core c.grp).lane l = _
    rw [State.group_setGroup_same]
  unfold State.failLane
  dsimp only
  rw [hl, if_neg (by simpa using h2), updLane_setGroup]
  generalize hG : g.updL l (fun x => { x with since := t }) = G
  have hGl : (s.setGroup c.core c.grp G).lane c.core c.grp l = { g.lane l with since := t } := by
    show ((s.setGroup c.core c.grp G).group c.core c.grp).lane l = _
    rw [State.group_setGroup_same, ← hG, Group.lane_updL, if_pos rfl]
  have hv := vector_setGroup s c.core c.grp G (by rw [← hG]; exact hg)
  have h1' : ({ g.lane l with since := t } : Lane).h = false := h1
  have h4 : ((s.ctx (s.ctxOf c.core c.grp)).tvec == 0) = false := by simpa using h3
  unfold State.takeTrap
  have h2' : ((g.lane l).mode == .exited) = false := by simpa using h2
  simp only [hGl, hv, h4, h1', h2', Bool.or_self, Bool.false_eq_true, if_false]
  show State.setGroup _ c.core c.grp _ = _
  rw [State.group_setGroup_same, setGroup_setGroup, ← hG]
  congr 1
  unfold Group.updL Group.setLane
  simp only [Group.lane, Tbl.put_put]

/-! ### A chain that does nothing in the lanes that complete -/
theorem onGroup_none {w : WordOut} {oks : List Nat} (h : ∀ p ∈ w.rows oks, p.2 = []) (hp : w.pops = 0 ∨ w.rows oks = []) (now : Nat) (g : Group) :
    w.onGroup now oks g = g := by
  rcases hp with hp | hp
  · exact onGroup_quiet h hp now g
  · unfold WordOut.onGroup
    rw [hp]
    have e : ∀ k, w.entries [] k = [] := fun k => rfl
    simp only [e, List.append_nil]
    show w.pop [] g = g
    unfold WordOut.pop
    simp only [List.isEmpty_nil, Bool.not_true, Bool.and_false, Bool.false_eq_true, if_false, List.any_nil]
    split
    · have : g.wqi.mapV (fun l r => r) = g.wqi := by unfold Tbl.mapV; simp
      rw [this]
    · rfl
theorem performWord_self (s : State) (c g : Nat) (pc : DWord) (w : WordOut) (oks : List Nat) (h : ∀ p ∈ w.rows oks, ∀ e ∈ p.2, isLocal e = true) :
    s.performWord c g pc w oks = (s.setGroup c g (s.group c g)).performWord c g pc w oks := by
  unfold State.performWord
  simp only [updGroup_setGroup, atomsDropped_local _ _ h]
  rfl
/-- What such a chain leaves. -/
theorem effects_none {c : Chain} {t : Nat} {oks : List Nat} (hne : c.outs ≠ []) (hw : ∀ w ∈ c.outs, ∀ p ∈ w.rows oks, p.2 = [])
    (hp : ∀ w ∈ c.outs, w.pops = 0 ∨ w.rows oks = []) (heff : ∀ l ∈ oks, c.effs l = []) :
    s.effects c t oks = s.setGroup c.core c.grp ((s.group c.core c.grp).advance c t oks).release := by
  have hloc : ∀ w ∈ c.outs, ∀ p ∈ w.rows oks, ∀ e ∈ p.2, isLocal e = true := fun w h p hp e he => by rw [hw w h p hp] at he; cases he
  have h1 : c.outs.foldl (fun s w => s.performWord c.core c.grp c.pc w oks) (s.advanceLanes c t oks) =
      s.setGroup c.core c.grp ((s.group c.core c.grp).advance c t oks) := by
    have h0 : c.outs.foldl (fun s w => s.performWord c.core c.grp c.pc w oks) (s.advanceLanes c t oks) =
        c.outs.foldl (fun s w => s.performWord c.core c.grp c.pc w oks) (s.setGroup c.core c.grp ((s.group c.core c.grp).advance c t oks)) := by
      by_cases ho : oks = []
      · subst ho
        obtain ⟨w, ws, e⟩ := List.exists_cons_of_ne_nil hne
        show c.outs.foldl _ s = c.outs.foldl _ (s.setGroup c.core c.grp (s.group c.core c.grp))
        rw [e, List.foldl_cons, List.foldl_cons, performWord_self s c.core c.grp c.pc w [] (hloc w (by rw [e]; exact List.mem_cons_self ..))]
      · rw [advanceLanes_eq s c t oks ho]
    rw [h0, performWords_local _ _ _ _ _ _ hloc, foldl_id]
    intro w h
    exact onGroup_none (hw w h) (hp w h) _ _
  have h2 : ∀ x : Group, x.queueShadows c.outs oks = x := by
    intro x
    refine foldl_id _ _ _ fun q _ => ?_
    unfold Group.pushShadows
    dsimp only
    rw [if_pos]
    rw [List.all_eq_true]
    intro y hy
    obtain ⟨l, hl, rfl⟩ := List.mem_map.mp hy
    have : c.outs.flatMap (·.pushes l) = [] := by
      rw [List.flatMap_eq_nil_iff]; intro w h
      unfold WordOut.pushes
      have : w.effsIn l = [] := List.flatMap_eq_nil_iff.mp (heff l (List.mem_filter.mp hl).1) w h
      rw [this]; rfl
    rw [this]; rfl
  have h3 : ∀ x : Group, (oks.foldl (fun (g : Group) l => (c.effs l).foldl (Group.joinBy l) g) x) = x := fun x =>
    foldl_id _ _ _ fun l hl => by rw [heff l hl]; rfl
  have h4 : ∀ p : Eff → Bool, (oks.any fun l => (c.effs l).any p) = false := by
    intro p; rw [List.any_eq_false]; intro l hl; rw [heff l hl]; exact Bool.false_ne_true
  have h5 : (oks.filterMap fun l => (c.effs l).findSome? (Eff.fenceBy l)) = [] := by
    rw [List.filterMap_eq_nil_iff]; intro l hl; rw [heff l hl]; rfl
  unfold State.effects
  dsimp only
  rw [h1, queueShadows_setGroup, h2]
  have h6 : ∀ z : State, z.returns c oks = z := by
    intro z
    unfold State.returns
    exact foldl_id _ _ _ fun l hl => by rw [heff l hl]; rfl
  rw [h6]
  unfold State.joins State.leaves' State.fences
  dsimp only
  rw [updGroup_setGroup, h3, h4, h4, h5]
  rfl

/-! ### The lanes that trap -/
theorem failLane_ok (z : State) (t l : Nat) (es : List Eff) : z.failLane c t l (.ok es) = z := by
  unfold State.failLane; dsimp only; split <;> rfl
/-- The lanes of a list, each trapping or not, on their group. -/
theorem failLanes_trap {t : Nat} (hv : (s.ctx (s.ctxOf c.core c.grp)).tvec ≠ 0) (ls : List Nat) (o : Nat → LaneOut) (ho : ∀ l ∈ ls, plainFate (o l) = true)
    (hn : ls.Nodup) (g : Group) (hg : g.team = (s.group c.core c.grp).team)
    (hl : ∀ l ∈ ls, (o l).isOk = false → (g.lane l).h = false ∧ (g.lane l).mode ≠ .exited) :
    ∃ G : Group, g.sameBut G ∧ ls.foldl (fun z l => z.failLane c t l (o l)) (s.setGroup c.core c.grp g) = s.setGroup c.core c.grp G ∧
      ∀ k, G.lane k = if k ∈ ls then (match o k with
        | .trap w a => Lane.enterTrap { g.lane k with since := t } (s.ctx (s.ctxOf c.core c.grp)).tvec w a (g.lane k).pc c.first
        | _ => g.lane k) else g.lane k := by
  induction ls generalizing g with
  | nil => exact ⟨g, rfl, rfl, fun k => by simp⟩
  | cons l ls ih =>
    rw [List.nodup_cons] at hn
    have hpl := ho l (List.mem_cons_self ..)
    cases hol : o l with
    | ok es =>
      obtain ⟨G, h1, h2, h3⟩ := ih (fun l h => ho l (List.mem_cons_of_mem _ h)) hn.2 g hg (fun l h => hl l (List.mem_cons_of_mem _ h))
      refine ⟨G, h1, ?_, fun k => ?_⟩
      · rw [List.foldl_cons, hol, failLane_ok]; exact h2
      · rw [h3 k]
        by_cases e : k = l
        · subst e; rw [if_neg hn.1, if_pos (List.mem_cons_self ..), hol]
        · simp [e]
    | trap w a =>
      obtain ⟨a1, a2⟩ := hl l (List.mem_cons_self ..) (by rw [hol]; rfl)
      have hstep := failLane_trap (s := s) (c := c) (t := t) (k := w) (a := a) g hg a1 a2 hv
      obtain ⟨G, h1, h2, h3⟩ := ih (fun l h => ho l (List.mem_cons_of_mem _ h)) hn.2
        (g.updL l fun x => Lane.enterTrap { x with since := t } (s.ctx (s.ctxOf c.core c.grp)).tvec w a x.pc c.first) hg (by
          intro m hm hmo
          rw [Group.lane_updL, if_neg (fun e : l = m => hn.1 (e ▸ hm))]
          exact hl m (List.mem_cons_of_mem _ hm) hmo)
      refine ⟨G, Group.sameBut_trans (Group.sameBut_updL ..) h1, ?_, fun k => ?_⟩
      · rw [List.foldl_cons, hol, hstep]; exact h2
      · rw [h3 k]
        by_cases e : k = l
        · subst e; rw [if_neg hn.1, if_pos (List.mem_cons_self ..), hol, Group.lane_updL, if_pos rfl]
        · have e2 : ¬ l = k := fun h => e h.symm
          rw [Group.lane_updL, if_neg e2]; simp [e]
    | _ => rw [hol] at hpl; cases hpl

/-! ### The chain -/
/-- Lanes that trap or complete: neither parks nor stalls. -/
theorem fail_plain (z : State) (t : Nat) (ls : List Nat) (o : Nat → LaneOut) (ho : ∀ l ∈ ls, plainFate (o l) = true) :
    z.fail c t (ls.map fun l => (l, o l)) = ls.foldl (fun z l => z.failLane c t l (o l)) z := by
  have h2 : ∀ z : State, z.failParks c (ls.map fun l => (l, o l)) = z := by
    intro z
    have : (ls.map fun l => (l, o l)).filterMap (fun p => z.parksIn c p.1 p.2) = [] := by
      rw [List.filterMap_eq_nil_iff]
      intro p hp
      obtain ⟨l, hl, rfl⟩ := List.mem_map.mp hp
      have := ho l hl
      dsimp only
      cases h : o l <;> first | rfl | (rw [h] at this; cases this)
    unfold State.failParks
    rw [this]; rfl
  have h3 : (ls.map fun l => (l, o l)).findSome? (fun p => p.2.joint?) = none := by
    rw [List.findSome?_eq_none_iff]
    intro p hp
    obtain ⟨l, hl, rfl⟩ := List.mem_map.mp hp
    have := ho l hl
    dsimp only
    cases h : o l <;> first | rfl | (rw [h] at this; cases this)
  have h4 : (ls.map fun l => (l, o l)).findSome? (fun p => p.2.flush?) = none := by
    rw [List.findSome?_eq_none_iff]
    intro p hp
    obtain ⟨l, hl, rfl⟩ := List.mem_map.mp hp
    have := ho l hl
    dsimp only
    cases h : o l <;> first | rfl | (rw [h] at this; cases this)
  have h5 : (ls.map fun l => (l, o l)).map (fun p => (p.1, z.failsAs c p.2)) = ls.map fun l => (l, o l) := by
    rw [List.map_map]
    refine List.map_congr_left fun l hl => ?_
    have := ho l hl
    simp only [Function.comp]
    cases h : o l <;> first | rfl | (rw [h] at this; cases this)
  unfold State.fail
  simp only [h4, h5, h2, h3, List.foldl_map]
theorem okLanes_fates (ls : List Nat) (o : Nat → LaneOut) : okLanes (ls.map fun l => (l, o l)) = ls.filter fun l => (o l).isOk := by
  unfold okLanes
  rw [List.filter_map, List.map_map]
  simp [Function.comp_def]
/-- What a trapping lane is after the chain. -/
theorem enterTrap_entered (x : Lane) (k : Cause) (a : DWord) :
    Lane.enterTrap { x with since := timeAfter s } (s.ctx s.cctx).tvec k a x.pc s.chain.first = entered s k a x := by
  have : (k == .softwareTrap || k == .breakpoint) = decide (k = .softwareTrap ∨ k = .breakpoint) := by cases k <;> rfl
  unfold Lane.enterTrap entered
  rw [this]
theorem frames {a b x y : Group} (h1 : b = { a with lanes := b.lanes }) (h2 : x = { b with lanes := x.lanes, j := x.j })
    (h3 : y = { x with lanes := y.lanes }) : y = { a with lanes := y.lanes, j := y.j } := by
  rw [h3, h2, h1]
/-- A chain in which each lane completes without effects or traps. -/
theorem endChain_plain (hne : s.chain.outs ≠ []) (hlanes : lanesOf s.chain.lanes ≠ []) (hf : ∀ l ∈ lanesOf s.chain.lanes, plainFate (s.chain.fate l) = true)
    (he : ∀ l ∈ lanesOf s.chain.lanes, (s.chain.fate l).isOk = true → s.chain.effs l = [])
    (hw : ∀ w ∈ s.chain.outs, ∀ p ∈ w.rows ((lanesOf s.chain.lanes).filter fun l => (s.chain.fate l).isOk), p.2 = [])
    (hp : ∀ w ∈ s.chain.outs, w.pops = 0 ∨ w.rows ((lanesOf s.chain.lanes).filter fun l => (s.chain.fate l).isOk) = [])
    (hspec : (s.group s.chain.core s.chain.grp).spec = none)
    (hl : Handles s ((lanesOf s.chain.lanes).filter fun l => !(s.chain.fate l).isOk)) :
    ∃ G : Group, G = { s.cgroup with lanes := G.lanes, j := G.j } ∧
      s.endChain = { s.setGroup s.chain.core s.chain.grp G with chain := s.chain.finished, now := clockAfter s } ∧
      (∀ l ∈ lanesOf s.chain.lanes, ∀ k a, s.chain.fate l = .trap k a → G.lane l = entered s k a (s.clane l)) ∧
      (∀ l ∈ lanesOf s.chain.lanes, (s.chain.fate l).isOk = true → G.lane l = advanced s.chain (timeAfter s) (s.clane l)) ∧
      (∀ l, l ∉ lanesOf s.chain.lanes → G.lane l = s.clane l ∨
        ((∃ j, (s.clane l).mode = .joined j) ∧ G.lane l = { s.clane l with mode := .ready })) ∧
      ∀ j, Tbl.get G.j j 0 = Tbl.get s.cgroup.j j 0 ∨ Tbl.get G.j j 0 = 0 := by
  have hw' := hw; rw [← okLanes_fates] at hw'
  have hfates := fates_plain (c := s.chain) he hw' hspec hf
  have hu : s.chain.unused (s.fates s.chain) = false := by
    rw [hfates]
    obtain ⟨l, rest, e⟩ := List.exists_cons_of_ne_nil hlanes
    have := hf l (by rw [e]; exact List.mem_cons_self ..)
    unfold Chain.unused
    rw [e]
    have hs : (s.chain.fate l).stalls = false := by
      cases h : s.chain.fate l <;> first | rfl | (rw [h] at this; cases this)
    simp [hs]
  generalize hoks : (lanesOf s.chain.lanes).filter (fun l => (s.chain.fate l).isOk) = oks at *
  have hnod : oks.Nodup := by rw [← hoks]; exact (lanesOf_nodup _).filter _
  have hmem : ∀ l, l ∈ oks ↔ l ∈ lanesOf s.chain.lanes ∧ (s.chain.fate l).isOk = true := fun l => by rw [← hoks]; exact List.mem_filter
  have heff := effects_none (s := s) (c := s.chain) (t := timeAfter s) (oks := oks) hne hw hp fun l h => he l ((hmem l).mp h).1 ((hmem l).mp h).2
  obtain ⟨a1, a2⟩ := Group.advance_spec s.chain (timeAfter s) oks hnod (s.group s.chain.core s.chain.grp)
  have r1 := Group.release_from ((s.group s.chain.core s.chain.grp).advance s.chain (timeAfter s) oks)
  have r2 := Group.release_masks ((s.group s.chain.core s.chain.grp).advance s.chain (timeAfter s) oks)
  generalize hA : (s.group s.chain.core s.chain.grp).advance s.chain (timeAfter s) oks = A at *
  obtain ⟨r3, r4⟩ := r1
  have hteam : A.release.team = (s.group s.chain.core s.chain.grp).team := by rw [r3, a1]
  have hlane : ∀ l ∈ lanesOf s.chain.lanes, (s.chain.fate l).isOk = false →
      A.release.lane l = s.clane l ∨ A.release.lane l = { s.clane l with mode := .ready } := by
    intro l hl' ho
    have e : A.lane l = s.clane l := by rw [a2 l, if_neg fun h => by rw [((hmem l).mp h).2] at ho; cases ho]; rfl
    rcases r4 l with h | ⟨_, h⟩
    · exact .inl (h.trans e)
    · exact .inr (by rw [h, e])
  obtain ⟨G, g1, g2, g3⟩ := failLanes_trap (s := s) (c := s.chain) (t := timeAfter s) hl.1 (lanesOf s.chain.lanes) s.chain.fate hf (lanesOf_nodup _)
    A.release hteam (by
      intro l hl' ho
      obtain ⟨b1, b2⟩ := hl.2 l (List.mem_filter.mpr ⟨hl', by rw [ho]; rfl⟩)
      rcases hlane l hl' ho with h | h <;> rw [h]
      · exact ⟨b1, b2⟩
      · exact ⟨b1, fun h => by cases h⟩)
  refine ⟨G, ?_, ?_, ?_, ?_, ?_, ?_⟩
  · exact frames a1 r3 g1
  · rw [hfates] at hu
    unfold State.endChain
    simp only [hfates, hu, okLanes_fates, hoks, Bool.not_false, Bool.and_true, Bool.false_eq_true, if_false]
    rw [fail_plain _ _ _ _ hf]
    have ht : (if s.chain.broadcast = true then s.now + 1 else s.now) = timeAfter s := rfl
    have hc : (if (!s.chain.broadcast && s.chain.later.isEmpty) = true then timeAfter s + 1 else timeAfter s) = clockAfter s := by
      unfold timeAfter clockAfter
      cases s.chain.broadcast <;> simp
    rw [ht, heff, g2, hc]
  · intro l hl' k a hk
    rw [g3 l, if_pos hl', hk]
    rcases hlane l hl' (by rw [hk]; rfl) with h | h <;> rw [h]
    · exact enterTrap_entered (s := s) (s.clane l) k a
    · exact enterTrap_entered (s := s) { s.clane l with mode := .ready } k a
  · intro l hl' ho
    have e : G.lane l = A.release.lane l := by
      rw [g3 l, if_pos hl']
      split
      · rename_i h; rw [h] at ho; cases ho
      · rfl
    have e2 : A.lane l = advanced s.chain (timeAfter s) (s.clane l) := by rw [a2 l, if_pos ((hmem l).mpr ⟨hl', ho⟩)]; rfl
    rcases r4 l with h | ⟨h, _⟩
    · rw [e, h, e2]
    · obtain ⟨j, h⟩ := h
      rw [e2] at h; cases h
  · intro l hl'
    have e : G.lane l = A.release.lane l := by rw [g3 l, if_neg hl']
    have e2 : A.lane l = s.clane l := by rw [a2 l, if_neg fun h => hl' ((hmem l).mp h).1]; rfl
    rw [e, ← e2]; exact r4 l
  · intro j
    have : G.j = A.release.j := by rw [g1]
    rw [this]
    have e2 : A.j = s.cgroup.j := by rw [a1]; rfl
    rw [← e2]; exact r2 j

/-! ### A word that traps -/
variable {i : Instr} {f : Form} {vs : Nat → List Nat} {go : Body}
/-- A word that ends the executing lanes on a cause, or is rejected in every lane. -/
def trapWord (s : State) (ls : List Nat) (pops : Nat) (dflt : List Shadow) (c : Cause) (a : Nat → DWord) : WordOut :=
  { slot := s.chain.slot, pops := pops, dflt := dflt, outs := ls.map fun l => (l, .trap c (a l)) }
theorem find_trapWord (ls : List Nat) (pops : Nat) (dflt : List Shadow) (k : Cause) (a : Nat → DWord) (l : Nat) :
    Tbl.find (trapWord s ls pops dflt k a).outs l = if l ∈ ls then some (.trap k (a l)) else none := find_map_pair _ _ l
/-- A chain whose last word ends the lanes `ls` on a cause. -/
theorem trap_outs {c1 : Chain} {ls : List Nat} {pops : Nat} {dflt : List Shadow} {k : Cause} {a : Nat → DWord} (hq : Quiet s.chain)
    (hlanes : lanesOf s.chain.lanes ≠ []) (hspec : s.cgroup.spec = none) (hls : ∀ l ∈ ls, l ∈ lanesOf s.chain.lanes) (H : Handles s ls)
    (h2 : c1.core = s.chain.core) (h3 : c1.grp = s.chain.grp) (h4 : c1.lanes = s.chain.lanes) (h5 : c1.first = s.chain.first)
    (h6 : c1.broadcast = s.chain.broadcast) (h7 : c1.finished = s.chain.finished) (h9 : c1.later = s.chain.later)
    (h10 : c1.words = s.chain.words) (h8 : c1.pc = s.chain.pc)
    (ho : c1.outs = s.chain.outs ++ [trapWord s ls pops dflt k a])
    (hsl : (∃ l ∈ lanesOf s.chain.lanes, l ∉ ls) → c1.slot = s.chain.slot + 1 + f.lits) :
    Trapped s f ls k a { s with chain := c1 : State }.commit := by
  have hown : (c1.outs.all fun w => w.own.isEmpty && !w.isSpawn) = true := by
    rw [ho, List.all_eq_true]
    intro w hw
    rcases List.mem_append.mp hw with hw | hw
    · rw [(hq w hw).2.1, quiet_isSpawn hq hw]; rfl
    · rw [List.mem_singleton.mp hw]
      have : (trapWord s ls pops dflt k a).isSpawn = false := by
        unfold WordOut.isSpawn
        rw [List.any_eq_false]; intro p hp
        obtain ⟨l, _, rfl⟩ := List.mem_map.mp hp
        exact Bool.false_ne_true
      rw [this]; rfl
  have hcommit : ({ s with chain := c1 } : State).commit = ({ s with chain := c1 } : State).endChain := by
    unfold State.commit State.settledChain
    rw [if_pos hown]
  rw [hcommit]
  have hfate : ∀ l, c1.fate l = if l ∈ ls then .trap k (a l) else .ok [] := by
    intro l
    unfold Chain.fate
    rw [ho, List.findSome?_append, List.findSome?_eq_none_iff.mpr fun w hw => quiet_fail hq hw l]
    have : (trapWord s ls pops dflt k a).failIn l = if l ∈ ls then some (.trap k (a l)) else none := by
      unfold WordOut.failIn
      rw [find_trapWord]
      by_cases h : l ∈ ls <;> simp [h]
    simp only [Option.none_or, List.findSome?_cons, List.findSome?_nil, this]
    by_cases h : l ∈ ls <;> simp [h]
  have heffs : ∀ l, l ∉ ls → c1.effs l = [] := by
    intro l hl
    unfold Chain.effs
    rw [ho, List.flatMap_append, List.flatMap_eq_nil_iff.mpr fun w hw => quiet_effs hq hw l, List.nil_append]
    have : (trapWord s ls pops dflt k a).effsIn l = [] := by
      unfold WordOut.effsIn; rw [find_trapWord, if_neg hl]
    simp [this]
  have hoks : ∀ l, l ∈ (lanesOf c1.lanes).filter (fun l => (c1.fate l).isOk) → l ∉ ls := by
    intro l hl h
    have := (List.mem_filter.mp hl).2
    rw [hfate, if_pos h] at this; cases this
  have hrows : (trapWord s ls pops dflt k a).rows ((lanesOf c1.lanes).filter fun l => (c1.fate l).isOk) = [] := by
    unfold WordOut.rows
    rw [List.filterMap_eq_nil_iff]
    intro l hl
    unfold WordOut.row
    rw [find_trapWord, if_neg (hoks l hl)]
  have hbad : ∀ l, l ∈ (lanesOf s.chain.lanes).filter (fun l => !(c1.fate l).isOk) → l ∈ ls := by
    intro l hl
    have := (List.mem_filter.mp hl).2
    by_cases h : l ∈ ls
    · exact h
    · rw [hfate, if_neg h] at this; cases this
  have hcases : ∀ w ∈ c1.outs, w ∈ s.chain.outs ∨ w = trapWord s ls pops dflt k a := by
    intro w hw
    rw [ho] at hw
    rcases List.mem_append.mp hw with h | h
    · exact .inl h
    · exact .inr (List.mem_singleton.mp h)
  generalize hs1 : ({ s with chain := c1 } : State) = s1
  have e1 : s1.chain = c1 := by rw [← hs1]
  have e2 : s1.group c1.core c1.grp = s.cgroup := by rw [← hs1, h2, h3]; rfl
  have e3 : s1.cgroup = s.cgroup := by show s1.group s1.chain.core s1.chain.grp = _; rw [e1]; exact e2
  have e4 : ∀ l, s1.clane l = s.clane l := fun l => by
    show s1.cgroup.lane l = s.cgroup.lane l
    rw [e3]
  have e5 : s1.ctx s1.cctx = s.ctx s.cctx := by
    show s1.ctx (s1.ctxOf s1.chain.core s1.chain.grp) = _
    rw [e1, h2, h3, ← hs1]; rfl
  have e6 : timeAfter s1 = timeAfter s := by
    unfold timeAfter; rw [e1, h6, ← hs1]
  have e7 : clockAfter s1 = clockAfter s := by
    unfold clockAfter; rw [e1, h6, h9, ← hs1]
  obtain ⟨G, g1, g2, g3, g4, g5, g6⟩ := endChain_plain (s := s1) (by rw [e1, ho]; simp) (by rw [e1, h4]; exact hlanes)
    (by intro l _; rw [e1, hfate]; split <;> rfl)
    (by intro l _ h; rw [e1] at h ⊢; refine heffs l fun h2 => ?_; rw [hfate, if_pos h2] at h; cases h)
    (by
      intro w hw p hp
      rw [e1] at hw hp
      rcases hcases w hw with h | rfl
      · exact rows_quiet hq h _ p hp
      · rw [hrows] at hp; cases hp)
    (by
      intro w hw
      rw [e1] at hw ⊢
      rcases hcases w hw with h | rfl
      · exact .inl (hq w h).1
      · exact .inr hrows)
    (by rw [e1, e2]; exact hspec)
    (by
      rw [e1, h4]
      refine ⟨by rw [e5]; exact H.1, fun l hl => ?_⟩
      rw [e4]; exact H.2 l (hbad l hl))
  rw [e3] at g1 g6
  rw [e1] at g2 g3 g4 g5
  rw [h2, h3, e7, h7] at g2
  have hset : ∀ g : Group, ({ s1.setGroup s.chain.core s.chain.grp g with chain := s.chain.finished, now := clockAfter s } : State) =
      { s.setGroup s.chain.core s.chain.grp g with chain := s.chain.finished, now := clockAfter s } := by
    intro g; rw [← hs1]; rfl
  have hgi : groupIn s s1.endChain = G := by rw [g2]; exact State.group_setGroup_same ..
  constructor
  · rw [hgi, g2, hset]
  · rw [hgi]; exact g1
  · intro l hl
    rw [hgi, g3 l (by rw [h4]; exact hls l hl) k (a l) (by rw [hfate, if_pos hl]), e4]
    unfold entered
    rw [e5, e6, e1, h5]
  · intro l hl hn
    rw [hgi, g4 l (by rw [h4]; exact hl) (by rw [hfate, if_neg hn]; rfl), e4, e6]
    unfold advanced stand
    rw [hsl ⟨l, hl, hn⟩, h8, h10]
  · intro l hl
    rw [hgi]
    have := g5 l (by rw [h4]; exact hl)
    rw [e4] at this; exact this
  · rw [hgi]; exact g6
/-- A word whose executing lanes all trap. -/
theorem traps (R : Ready s i f vs) (H : Handles s (executing s i)) {k : Cause} {a : Nat → DWord} {b : Nat → LaneOut}
    (hgo : go s (rowsOf s i vs) = (executing s i).map fun l => (l, b l)) (hfin : ∀ l ∈ executing s i, s.finish f (b l) = .trap k (a l))
    (hp : performedOnce i = false) :
    ∃ t, s.word false i go = .next t ∧ Trapped s f (executing s i) k a t := by
  have hheld : s.held i f = false := by simp [State.held, R.plain]
  have hrs : s.wordRows i f = (executing s i).map fun l => (l, Except.ok (vs l)) := by
    unfold State.wordRows executing
    exact List.map_congr_left fun l hl => by rw [R.reads l hl]
  have hout : ∃ p d, s.wordOut i f go = trapWord s (executing s i) p d k a := by
    unfold State.wordOut
    simp only [hheld, hrs, badRows_ok, goodRows_ok, hp, Bool.false_eq_true, if_false, List.nil_append]
    refine ⟨bit01 ((poppedBy f).contains .mqo) + 2 * bit01 ((poppedBy f).contains .wqi),
      if (poppedBy f).contains .mqo then (match s.cgroup.mqo with | e :: _ => e.shadow | [] => []) else [], ?_⟩
    unfold trapWord
    congr 1
    show (go s (rowsOf s i vs)).map _ = _
    rw [hgo, List.map_map]
    exact List.map_congr_left fun l hl => by simp only [Function.comp]; rw [hfin l hl]
  obtain ⟨p, d, hout⟩ := hout
  refine ⟨(s.addWord i f (s.wordOut i f go)).commit, ?_, ?_⟩
  · unfold State.word
    rw [R.form]
    dsimp only
    rw [if_pos R.active]
    unfold State.runWord
    rw [R.checks]
    rfl
  · rw [hout]
    exact trap_outs R.quiet R.lanes R.plain (fun l h => executing_sub s i h) H rfl rfl rfl rfl rfl rfl rfl rfl rfl rfl (fun _ => rfl)
theorem traps_each {k : Cause} {o : State → Nat → List Nat → DWord → Prop} {b : State → Nat → List Nat → LaneOut}
    (hb : ∀ z l v a, o z l v a → b z l v = .trap k a) (hk : k ≠ .illegalOperand) {i : Instr}
    (hx : ∀ s, Sys2Proof.Machine.exec i s = s.word false i (bodyEach b)) (hp : performedOnce i = false := by rfl) : Traps i k o := by
  intro s f vs a R H ho
  rw [hx]
  refine traps R H (b := fun l => .trap k (a l)) ?_ ?_ hp
  · show ((executing s i).map fun l => (l, vs l)).map _ = _
    rw [List.map_map]
    exact List.map_congr_left fun l hl => by simp only [Function.comp]; rw [hb _ _ _ _ (ho l hl)]
  · intro l _
    unfold State.finish
    split
    · rename_i e; cases e; exact absurd rfl hk
    · rename_i e; cases e
    · rfl
/-- A word that fails a check. -/
theorem rejects {k : Cause} {sub : Nat} {ch : Bool} (h : s.wordCheck ch i f = some (k, sub)) (hx : Sys2Proof.Machine.exec i s = s.word ch i go) :
    Rejects s i f k sub := by
  intro hform hact hlanes hq hspec H
  refine ⟨s.failWord k sub, ?_, ?_⟩
  · rw [hx]
    unfold State.word
    rw [hform]
    dsimp only
    rw [if_pos hact]
    unfold State.runWord
    rw [h]
  · unfold State.failWord
    exact trap_outs (f := f) (pops := 0) (dflt := []) hq hlanes hspec (fun l h => h) H rfl rfl rfl rfl rfl rfl rfl rfl rfl rfl
      fun ⟨l, h1, h2⟩ => absurd h1 h2
end Sys2Proof.Machine
end

