-- ==== Sys2Proof/Tests/Slice0.lean ====
section
/-! SUPPORT. Tests of this model: every word of the opcode table decodes to its instruction, each check of the decoder refuses, single
steps against the spec's worked examples and hand calculations, and for each statement a state that meets its hypotheses. -/
open Sys2Proof Sys2Proof.Machine Sys2Proof.Safety Sys2Proof.Rules

namespace Sys2Proof.Tests
set_option Elab.async false

/-! ### Helpers -/
/-- A device that runs one group: lane 0 stands at address 0, changed by `f`, and the page there is mapped. -/
def lane0 (w : Nat) (f : Lane → Lane) : State := (State.reset.withFetchWord 96 w).updLane 0 0 0 f
/-- Lane 0 with values in registers. -/
def regs (xs : List (Nat × Nat)) (x : Lane) : Lane := xs.foldl (fun x p => x.setReg p.1 { v := BitVec.ofNat 32 p.2 }) x
/-- One step of the machine: lane 0 executes the word `w`, with values in registers. -/
def stepped (w : Nat) (xs : List (Nat × Nat)) : State := match step (lane0 w (regs xs)) with | .next t => t | _ => State.reset
/-- A register of lane 0 after one step. -/
def regAfter (w : Nat) (xs : List (Nat × Nat)) (r : Nat) : Nat := (((stepped w xs).lane 0 0 0).reg r).v.toNat
/-- The flags of lane 0 after one step. -/
def statusAfter (w : Nat) (xs : List (Nat × Nat)) : Nat := ((stepped w xs).lane 0 0 0).status.toNat
/-- A chain in progress in lane 0, at its first word; the team has a region of 128 KiB. -/
def live (f : Lane → Lane) : State :=
  { (lane0 0 f).setTeam 0 { slots := [0], st := .resident, scrLen := 0x20000 } with chain := { active := true, lanes := 1 }, agenda := [] }
/-- The form of an instruction that has one. -/
def formOf (i : Instr) : Form := i.form.getD { pipe := .b }
/-- A word stands to complete in lane 0, the only lane of a chain. -/
def stands (s : State) (i : Instr) (f : Form) : Bool :=
  s.chain.active && lanesOf s.chain.lanes == [0] && s.chain.outs.isEmpty && s.cgroup.spec.isNone && (s.wordCheck false i f).isNone &&
    executing s i == [0] && (match s.readSrcs 0 f.srcs (s.chain.lits f) with | .ok _ => true | .error _ => false)
/-- The operands that a word reads in lane 0. -/
def operands (s : State) (f : Form) : List Nat := match s.readSrcs 0 f.srcs (s.chain.lits f) with | .ok vs => vs | .error _ => []
theorem ready_of {s : State} {i : Instr} {f : Form} (h : i.form = some f) (hs : stands s i f = true) : Ready s i f fun _ => operands s f := by
  unfold stands at hs
  simp only [Bool.and_eq_true, beq_iff_eq, List.isEmpty_iff, Option.isNone_iff_eq_none] at hs
  obtain ⟨⟨⟨⟨⟨⟨ha, hl⟩, hq⟩, hp⟩, hc⟩, he⟩, hr⟩ := hs
  refine ⟨h, ha, ?_, ?_, hc, hp, ?_⟩
  · rw [hl]; exact List.cons_ne_nil _ _
  · intro w hw; rw [hq] at hw; cases hw
  · intro l hl'
    rw [he] at hl'
    rw [List.mem_singleton.mp hl']
    unfold operands
    split at hr
    · rename_i h; rw [h]
    · cases hr
/-- What is asked of each executing lane is asked of lane 0. -/
theorem in_lane0 {s : State} {i : Instr} {p : Nat → Prop} (h : executing s i = [0]) (hp : p 0) : ∀ l ∈ executing s i, p l := by
  intro l hl; rw [h] at hl; rw [List.mem_singleton.mp hl]; exact hp
/-- The hypotheses of each shape of statement, met. -/
def MeetsGives (i : Instr) (d : Dst) (n : Nat) : Prop := ∃ s f vs, Ready s i f vs ∧ Takes s d n
def MeetsDoes (i : Instr) (ok : State → Nat → List Nat → Prop) : Prop := ∃ s f vs, Ready s i f vs ∧ ∀ l ∈ executing s i, ok s l (vs l)
def MeetsEach (i : Instr) (o : State → Nat → List Nat → List Eff → Prop) : Prop :=
  ∃ s f vs es, Ready s i f vs ∧ Held s f ∧ (∀ l ∈ executing s i, o s l (vs l) (es l)) ∧ Room s i f es
def MeetsLeaves (i : Instr) (o : State → Nat → List Nat → List Eff → Prop) : Prop :=
  ∃ s f vs es l, Ready s i f vs ∧ Held s f ∧ executing s i = [l] ∧ o s l (vs l) (es l) ∧ Room s i f es ∧ noCopies s l
def MeetsAcross (i : Instr) (o : State → Rows → Nat → List Nat → List Eff → Prop) : Prop :=
  ∃ s f vs es, Ready s i f vs ∧ Held s f ∧ (∀ l ∈ executing s i, o s ((executing s i).map fun l => (l, vs l)) l (vs l) (es l)) ∧ Room s i f es
def MeetsOnce (i : Instr) (o : State → LaneSet → Nat → List Nat → List Eff → Prop) : Prop :=
  ∃ s f vs l rest es, Ready s i f vs ∧ Held s f ∧ executing s i = l :: rest ∧ o s (laneSetOf (executing s i)) l (vs l) es ∧
    Room s i f fun k => if k = l then es else []
def MeetsInTurn (i : Instr) (o : State → Nat → List Nat → List Eff → Prop) : Prop :=
  ∃ s f vs es, Ready s i f vs ∧ Held s f ∧ InTurn o es s ((executing s i).map fun l => (l, vs l)) ∧ Room s i f es
def MeetsTraps (i : Instr) (o : State → Nat → List Nat → DWord → Prop) : Prop :=
  ∃ s f vs, ∃ a : Nat → DWord, Ready s i f vs ∧ Handles s (executing s i) ∧ ∀ l ∈ executing s i, o s l (vs l) (a l)
/-- The destination needs no reservation, or it is held. -/
def heldOk (s : State) (f : Form) : Bool := match f.dst with | some x => (mqOf x.1).isNone || s.holds s.chain.core s.chain.grp | none => true
theorem held_of {s : State} {f : Form} (h : heldOk s f = true) : Held s f := by
  intro x hx hm
  unfold heldOk at h
  rw [hx] at h
  cases hq : mqOf x.1 with
  | none => exact absurd hq hm
  | some k => simpa [hq] using h
theorem stands_lane0 {s : State} {i : Instr} {f : Form} (hs : stands s i f = true) : executing s i = [0] := by
  unfold stands at hs
  simp only [Bool.and_eq_true, beq_iff_eq] at hs
  exact hs.1.2
section
variable {s : State} {i : Instr} {f : Form}
theorem meets_gives {d : Dst} {n : Nat} (h : i.form = some f) (hs : stands s i f = true) (ht : Takes s d n) : MeetsGives i d n :=
  ⟨s, f, _, ready_of h hs, ht⟩
theorem meets_does {ok : State → Nat → List Nat → Prop} (h : i.form = some f) (hs : stands s i f = true) (ho : ok s 0 (operands s f)) :
    MeetsDoes i ok := ⟨s, f, _, ready_of h hs, in_lane0 (p := fun l => ok s l (operands s f)) (stands_lane0 hs) ho⟩
theorem meets_each {o : State → Nat → List Nat → List Eff → Prop} (es : List Eff) (h : i.form = some f) (hs : stands s i f = true)
    (hh : heldOk s f = true) (ho : o s 0 (operands s f) es) (hr : Room s i f fun _ => es) : MeetsEach i o :=
  ⟨s, f, _, fun _ => es, ready_of h hs, held_of hh, in_lane0 (p := fun l => o s l (operands s f) es) (stands_lane0 hs) ho, hr⟩
theorem meets_leaves {o : State → Nat → List Nat → List Eff → Prop} (es : List Eff) (h : i.form = some f) (hs : stands s i f = true)
    (hh : heldOk s f = true) (ho : o s 0 (operands s f) es) (hr : Room s i f fun _ => es) (hn : noCopies s 0) : MeetsLeaves i o :=
  ⟨s, f, _, fun _ => es, 0, ready_of h hs, held_of hh, stands_lane0 hs, ho, hr, hn⟩
theorem meets_across {o : State → Rows → Nat → List Nat → List Eff → Prop} (es : List Eff) (h : i.form = some f) (hs : stands s i f = true)
    (hh : heldOk s f = true) (ho : o s [(0, operands s f)] 0 (operands s f) es) (hr : Room s i f fun _ => es) : MeetsAcross i o :=
  ⟨s, f, _, fun _ => es, ready_of h hs, held_of hh,
    in_lane0 (p := fun l => o s _ l (operands s f) es) (stands_lane0 hs) (by rw [stands_lane0 hs]; exact ho), hr⟩
theorem meets_once {o : State → LaneSet → Nat → List Nat → List Eff → Prop} (es : List Eff) (h : i.form = some f) (hs : stands s i f = true)
    (hh : heldOk s f = true) (ho : o s (laneSetOf [0]) 0 (operands s f) es) (hr : Room s i f fun k => if k = 0 then es else []) : MeetsOnce i o :=
  ⟨s, f, _, 0, [], es, ready_of h hs, held_of hh, stands_lane0 hs, by rw [stands_lane0 hs]; exact ho, hr⟩
theorem meets_in_turn {o : State → Nat → List Nat → List Eff → Prop} (es : List Eff) (h : i.form = some f) (hs : stands s i f = true)
    (hh : heldOk s f = true) (ho : o s 0 (operands s f) es) (hr : Room s i f fun _ => es) : MeetsInTurn i o :=
  ⟨s, f, _, fun _ => es, ready_of h hs, held_of hh, by rw [stands_lane0 hs]; exact ⟨ho, trivial⟩, hr⟩
theorem meets_traps {o : State → Nat → List Nat → DWord → Prop} (a : DWord) (h : i.form = some f) (hs : stands s i f = true)
    (hv : (s.ctx s.cctx).tvec ≠ 0 ∧ (s.clane 0).h = false ∧ (s.clane 0).mode ≠ .exited) (ho : o s 0 (operands s f) a) : MeetsTraps i o :=
  ⟨s, f, _, fun _ => a, ready_of h hs,
    ⟨hv.1, in_lane0 (p := fun l => (s.clane l).h = false ∧ (s.clane l).mode ≠ .exited) (stands_lane0 hs) hv.2⟩,
    in_lane0 (p := fun l => o s l (operands s f) a) (stands_lane0 hs) ho⟩
end
/-- Lane 0's group holds the matrix reservation. -/
def reserving (f : Lane → Lane) : State := (live f).reserve 0 0
/-- A check that passes, by evaluation. -/
theorem ok_of {ε α : Type} [DecidableEq α] {x : Except ε α} {v : α} (h : (match x with | .ok w => decide (w = v) | .error _ => false) = true) : x = .ok v := by
  split at h
  · rw [of_decide_eq_true h]
  · cases h
/-- The effect of a plan, and a plan that passes. -/
def planned {α : Type} (x : Except LaneOut α) (e : α → List Eff) : List Eff := match x with | .ok v => e v | .error _ => []
theorem plan_of {α : Type} {x : Except LaneOut α} {e : α → List Eff} (h : (match x with | .ok _ => true | .error _ => false) = true) :
    ∃ v, x = .ok v ∧ planned x e = e v := by
  split at h
  · exact ⟨_, rfl, rfl⟩
  · cases h
/-- What a check answers, and that it passes. -/
def got {ε α : Type} [Inhabited α] (x : Except ε α) : α := match x with | .ok v => v | .error _ => default
theorem ok_got {ε α : Type} [Inhabited α] {x : Except ε α} (h : (match x with | .ok _ => true | .error _ => false) = true) : x = .ok (got x) := by
  cases x with
  | ok v => rfl
  | error e => cases h


/-! ### Every word of the opcode table, each written out from the fields of its row, decodes to its instruction -/
theorem test_words_sys :
    decodeWord 0x80000000 = .ok (.nop true) ∧
    decodeWord 0x00000008 = .ok (.exit false) ∧
    decodeWord 0x80000B10 = .ok (.trap true 11) ∧
    decodeWord 0x00000018 = .ok (.brk false) ∧
    decodeWord 0x8082C020 = .ok (.rdsr true (.n 8) 11) ∧
    decodeWord 0x00B10028 = .ok (.wrsr false 11 (.n 4)) ∧
    decodeWord 0x80010030 = .ok (.sleep true (.n 4)) ∧
    decodeWord 0x00000038 = .ok (.yield false) ∧
    decodeWord 0x80014040 = .ok (.prio true 5) ∧
    decodeWord 0x00000048 = .ok (.rfe false) ∧
    decodeWord 0x80810C50 = .ok (.kreq true (.n 8) (.n 4) (.n 12)) := by
  refine ⟨?_, ?_, ?_, ?_, ?_, ?_, ?_, ?_, ?_, ?_, ?_⟩ <;> rfl
theorem test_words_ialu_1 :
    decodeWord 0x84810C07 = .ok (.iadd true (.n 8) (.n 4) (.n 12) true true true) ∧
    decodeWord 0x04810C0F = .ok (.isub false (.n 8) (.n 4) (.n 12) true true true) ∧
    decodeWord 0x84810C14 = .ok (.imul true (.n 8) (.n 4) (.n 12) true) ∧
    decodeWord 0x04810C1E = .ok (.imulh false (.n 8) (.n 4) (.n 12) true true) ∧
    decodeWord 0x84810C26 = .ok (.idiv true (.n 8) (.n 4) (.n 12) true true) ∧
    decodeWord 0x04810C2E = .ok (.irem false (.n 8) (.n 4) (.n 12) true true) ∧
    decodeWord 0x84810C36 = .ok (.imin true (.n 8) (.n 4) (.n 12) true true) ∧
    decodeWord 0x04810C3E = .ok (.imax false (.n 8) (.n 4) (.n 12) true true) ∧
    decodeWord 0x84810044 = .ok (.iabs true (.n 8) (.n 4) true) ∧
    decodeWord 0x0481004C = .ok (.ineg false (.n 8) (.n 4) true) ∧
    decodeWord 0x84810C54 = .ok (.and true (.n 8) (.n 4) (.n 12) true) ∧
    decodeWord 0x04810C5C = .ok (.or false (.n 8) (.n 4) (.n 12) true) := by
  refine ⟨?_, ?_, ?_, ?_, ?_, ?_, ?_, ?_, ?_, ?_, ?_, ?_⟩ <;> rfl
theorem test_words_ialu_2 :
    decodeWord 0x84810C64 = .ok (.xor true (.n 8) (.n 4) (.n 12) true) ∧
    decodeWord 0x04810C6C = .ok (.andn false (.n 8) (.n 4) (.n 12) true) ∧
    decodeWord 0x84810074 = .ok (.not true (.n 8) (.n 4) true) ∧
    decodeWord 0x04810C7C = .ok (.shl false (.n 8) (.n 4) (.n 12) true) ∧
    decodeWord 0x84810C84 = .ok (.shr true (.n 8) (.n 4) (.n 12) true) ∧
    decodeWord 0x04810C8C = .ok (.sar false (.n 8) (.n 4) (.n 12) true) ∧
    decodeWord 0x84810C94 = .ok (.rol true (.n 8) (.n 4) (.n 12) true) ∧
    decodeWord 0x04810C9C = .ok (.ror false (.n 8) (.n 4) (.n 12) true) ∧
    decodeWord 0x848100A4 = .ok (.clz true (.n 8) (.n 4) true) ∧
    decodeWord 0x048100AC = .ok (.ctz false (.n 8) (.n 4) true) ∧
    decodeWord 0x848100B4 = .ok (.popc true (.n 8) (.n 4) true) ∧
    decodeWord 0x048100BC = .ok (.brev false (.n 8) (.n 4) true) := by
  refine ⟨?_, ?_, ?_, ?_, ?_, ?_, ?_, ?_, ?_, ?_, ?_, ?_⟩ <;> rfl
theorem test_words_ialu_3 :
    decodeWord 0x848100C4 = .ok (.bswap true (.n 8) (.n 4) true) ∧
    decodeWord 0x04810CCE = .ok (.bfe false (.n 8) (.n 4) (.n 12) true true) ∧
    decodeWord 0x84810CD4 = .ok (.lea true (.n 8) (.n 4) (.n 12) true) ∧
    decodeWord 0x048100DC = .ok (.mov false (.n 8) (.n 4) true) ∧
    decodeWord 0x84810CE6 = .ok (.shrr true (.n 8) (.n 4) (.n 12) true true) ∧
    decodeWord 0x04810CEC = .ok (.sel false (.n 8) (.n 4) (.n 12) true) := by
  refine ⟨?_, ?_, ?_, ?_, ?_, ?_⟩ <;> rfl
theorem test_words_iimm :
    decodeWord 0x88810401 = .ok (.iaddi true (.n 8) (.n 4) 1025) ∧
    decodeWord 0x08810C01 = .ok (.andi false (.n 8) (.n 4) 1025) ∧
    decodeWord 0x88811401 = .ok (.ori true (.n 8) (.n 4) 1025) ∧
    decodeWord 0x08811C01 = .ok (.xori false (.n 8) (.n 4) 1025) ∧
    decodeWord 0x88812429 = .ok (.shli true (.n 8) (.n 4) true true 9) ∧
    decodeWord 0x08812C29 = .ok (.shri false (.n 8) (.n 4) true true 9) ∧
    decodeWord 0x88813429 = .ok (.sari true (.n 8) (.n 4) true true 9) ∧
    decodeWord 0x08883802 = .ok (.movi false (.n 8) 65538) := by
  refine ⟨?_, ?_, ?_, ?_, ?_, ?_, ?_, ?_⟩ <;> rfl
theorem test_words_icmp :
    decodeWord 0x8C310C02 = .ok (.icmpS true ⟨3, 0⟩ (.n 4) (.n 12) .lt) ∧
    decodeWord 0x0C310C0A = .ok (.icmpU false ⟨3, 0⟩ (.n 4) (.n 12) .lt) ∧
    decodeWord 0x8C310C12 = .ok (.icmpSW true ⟨3, 0⟩ (.n 4) (.n 12) .lt) ∧
    decodeWord 0x0C310C1A = .ok (.icmpUW false ⟨3, 0⟩ (.n 4) (.n 12) .lt) ∧
    decodeWord 0x8C310C22 = .ok (.fcmpF32 true ⟨3, 0⟩ (.n 4) (.n 12) .lt) ∧
    decodeWord 0x0C310C2A = .ok (.fcmpF16 false ⟨3, 0⟩ (.n 4) (.n 12) .lt) ∧
    decodeWord 0x8C310C31 = .ok (.fclass true ⟨3, 0⟩ (.n 4) (.n 12) .f16) ∧
    decodeWord 0x0C328A3B = .ok (.plog false ⟨3, 0⟩ ⟨2, true⟩ ⟨2, true⟩ .andn) ∧
    decodeWord 0x8C310040 = .ok (.setp true ⟨3, 0⟩ (.n 4)) := by
  refine ⟨?_, ?_, ?_, ?_, ?_, ?_, ?_, ?_, ?_⟩ <;> rfl
theorem test_words_branch :
    decodeWord 0x92C10002 = .ok (.bra true true 3 65538) ∧
    decodeWord 0x12DB0002 = .ok (.braEnrol false true 3 3 65538) ∧
    decodeWord 0x92DD0002 = .ok (.strike true true 3 3 65538) ∧
    decodeWord 0x12C70002 = .ok (.call false true 3 65538) := by
  refine ⟨?_, ?_, ?_, ?_⟩ <;> rfl
theorem test_words_ctrl :
    decodeWord 0x94010000 = .ok (.brx true (.n 4)) ∧
    decodeWord 0x1400C008 = .ok (.join false 3) ∧
    decodeWord 0x94028010 = .ok (.guard ⟨2, true⟩) ∧
    decodeWord 0x1400CC18 = .ok (.rjset false 3 (.n 12)) ∧
    decodeWord 0x9480C020 = .ok (.rjget true (.n 8) 3) := by
  refine ⟨?_, ?_, ?_, ?_, ?_⟩ <;> rfl
theorem test_words_falu :
    decodeWord 0x98810C01 = .ok (.fadd true (.n 8) (.n 4) (.n 12) .f16) ∧
    decodeWord 0x18810C09 = .ok (.fsub false (.n 8) (.n 4) (.n 12) .f16) ∧
    decodeWord 0x98810C11 = .ok (.fmul true (.n 8) (.n 4) (.n 12) .f16) ∧
    decodeWord 0x18810C19 = .ok (.fmin false (.n 8) (.n 4) (.n 12) .f16) ∧
    decodeWord 0x98810C21 = .ok (.fmax true (.n 8) (.n 4) (.n 12) .f16) ∧
    decodeWord 0x18810C29 = .ok (.fminm false (.n 8) (.n 4) (.n 12) .f16) ∧
    decodeWord 0x98810C31 = .ok (.fmaxm true (.n 8) (.n 4) (.n 12) .f16) ∧
    decodeWord 0x18810039 = .ok (.fabs false (.n 8) (.n 4) .f16) ∧
    decodeWord 0x98810041 = .ok (.fneg true (.n 8) (.n 4) .f16) ∧
    decodeWord 0x18810C49 = .ok (.fcopysign false (.n 8) (.n 4) (.n 12) .f16) ∧
    decodeWord 0x98810351 = .ok (.fround true (.n 8) (.n 4) 3 .f16) ∧
    decodeWord 0x18810C58 = .ok (.twosum false (.n 8) (.n 4) (.n 12)) := by
  refine ⟨?_, ?_, ?_, ?_, ?_, ?_, ?_, ?_, ?_, ?_, ?_, ?_⟩ <;> rfl
theorem test_words_ffma :
    decodeWord 0x9C810C40 = .ok (.ffmaF32 true (.n 8) (.n 4) (.n 12) (.n 16)) ∧
    decodeWord 0x1C810C41 = .ok (.ffmaF16x2 false (.n 8) (.n 4) (.n 12) (.n 16)) ∧
    decodeWord 0x9C810C42 = .ok (.ffmaBf16x2 true (.n 8) (.n 4) (.n 12) (.n 16)) := by
  refine ⟨?_, ?_, ?_⟩ <;> rfl
theorem test_words_fspec :
    decodeWord 0xA0810001 = .ok (.frcp true (.n 8) (.n 4) true) ∧
    decodeWord 0x20810009 = .ok (.frsq false (.n 8) (.n 4) true) ∧
    decodeWord 0xA0810011 = .ok (.fsqrt true (.n 8) (.n 4) true) ∧
    decodeWord 0x20810019 = .ok (.fexp2 false (.n 8) (.n 4) true) ∧
    decodeWord 0xA0810021 = .ok (.flog2 true (.n 8) (.n 4) true) ∧
    decodeWord 0x20810029 = .ok (.fsin false (.n 8) (.n 4) true) ∧
    decodeWord 0xA0810031 = .ok (.fcos true (.n 8) (.n 4) true) ∧
    decodeWord 0x20810039 = .ok (.ftanh false (.n 8) (.n 4) true) ∧
    decodeWord 0xA0810041 = .ok (.fsigm true (.n 8) (.n 4) true) ∧
    decodeWord 0x20810C49 = .ok (.fdiv false (.n 8) (.n 4) (.n 12) true) := by
  refine ⟨?_, ?_, ?_, ?_, ?_, ?_, ?_, ?_, ?_, ?_⟩ <;> rfl
theorem test_words_cvt :
    decodeWord 0xA4810603 = .ok (.cvtF true (.n 8) (.n 4) 0x06 3) ∧
    decodeWord 0x2481120B = .ok (.cvtIf false (.n 8) (.n 4) 0x12 3) ∧
    decodeWord 0xA4811813 = .ok (.cvtFi true (.n 8) (.n 4) 0x18 3) ∧
    decodeWord 0x2481241B = .ok (.qnt false (.n 8) (.n 4) 0x24 3) ∧
    decodeWord 0xA4812823 = .ok (.dqnt true (.n 8) (.n 4) 0x28 3) ∧
    decodeWord 0x2481302B = .ok (.fldexp false (.n 8) (.n 4) 0x30 3) ∧
    decodeWord 0xA4813233 = .ok (.fexpo true (.n 8) (.n 4) 0x32 3) ∧
    decodeWord 0x24813A3B = .ok (.srnd false (.n 8) (.n 4) 0x3A 3) := by
  refine ⟨?_, ?_, ?_, ?_, ?_, ?_, ?_, ?_⟩ <;> rfl
theorem test_words_pack :
    decodeWord 0xA8810C07 = .ok (.padd2 true (.n 8) (.n 4) (.n 12) true true true) ∧
    decodeWord 0x28810C0F = .ok (.psub2 false (.n 8) (.n 4) (.n 12) true true true) ∧
    decodeWord 0xA8810C17 = .ok (.pmul2 true (.n 8) (.n 4) (.n 12) true true true) ∧
    decodeWord 0x28810C1E = .ok (.pmin2 false (.n 8) (.n 4) (.n 12) true true) ∧
    decodeWord 0xA8810C26 = .ok (.pmax2 true (.n 8) (.n 4) (.n 12) true true) ∧
    decodeWord 0x28810C2E = .ok (.pshr2 false (.n 8) (.n 4) (.n 12) true true) ∧
    decodeWord 0xA8810C37 = .ok (.ppack true (.n 8) (.n 4) (.n 12) true true true) ∧
    decodeWord 0x2881003E = .ok (.punpkLo false (.n 8) (.n 4) true true) ∧
    decodeWord 0xA8810046 = .ok (.punpkHi true (.n 8) (.n 4) true true) ∧
    decodeWord 0x2881004D = .ok (.pabs2 false (.n 8) (.n 4) true true) := by
  refine ⟨?_, ?_, ?_, ?_, ?_, ?_, ?_, ?_, ?_, ?_⟩ <;> rfl
theorem test_words_xlane :
    decodeWord 0xAC810C02 = .ok (.slideUp true (.n 8) (.n 4) (.n 12) .carry) ∧
    decodeWord 0x2C810C0A = .ok (.slideDn false (.n 8) (.n 4) (.n 12) .carry) ∧
    decodeWord 0xAC810C12 = .ok (.slideH true (.n 8) (.n 4) (.n 12) .carry) ∧
    decodeWord 0x2C810C18 = .ok (.shfl false (.n 8) (.n 4) (.n 12)) ∧
    decodeWord 0xAC810C20 = .ok (.shflx true (.n 8) (.n 4) (.n 12)) ∧
    decodeWord 0x2C810C28 = .ok (.bcast false (.n 8) (.n 4) (.n 12)) ∧
    decodeWord 0xAC810032 = .ok (.vote true (.n 8) (.n 4) .ballot) ∧
    decodeWord 0x2C81003B = .ok (.gred false (.n 8) (.n 4) .minU) ∧
    decodeWord 0xAC810043 = .ok (.gscan true (.n 8) (.n 4) .minU) ∧
    decodeWord 0x2C81004B = .ok (.qred false (.n 8) (.n 4) .minU) ∧
    decodeWord 0xAC810050 = .ok (.xmatch true (.n 8) (.n 4)) := by
  refine ⟨?_, ?_, ?_, ?_, ?_, ?_, ?_, ?_, ?_, ?_, ?_⟩ <;> rfl
theorem test_words_block :
    decodeWord 0xB0810004 = .ok (.bmax true (.n 8) (.n 4) .e2m1) ∧
    decodeWord 0x3081020C = .ok (.bscale false (.n 8) (.n 4) 2 .e2m1) ∧
    decodeWord 0xB0810C14 = .ok (.bqnt true (.n 8) (.n 4) (.n 12) .e2m1) ∧
    decodeWord 0x3081001C = .ok (.bdqnt false (.n 8) (.n 4) .e2m1) ∧
    decodeWord 0xB0810C24 = .ok (.bsetsc true (.n 8) (.n 4) (.n 12) .e2m1) ∧
    decodeWord 0x3081002C = .ok (.bgetsc false (.n 8) (.n 4) .e2m1) ∧
    decodeWord 0xB0810C34 = .ok (.bshift true (.n 8) (.n 4) (.n 12) .e2m1) ∧
    decodeWord 0x30810C3C = .ok (.brescale false (.n 8) (.n 4) (.n 12) .e2m1) ∧
    decodeWord 0xB0810C44 = .ok (.bdot true (.n 8) (.n 4) (.n 12) .e2m1) := by
  refine ⟨?_, ?_, ?_, ?_, ?_, ?_, ?_, ?_, ?_⟩ <;> rfl
theorem test_words_ld_1 :
    decodeWord 0xB4810201 = .ok (.ldB8u true (.n 8) (.n 4) 513) ∧
    decodeWord 0x34810601 = .ok (.ldB8s false (.n 8) (.n 4) 513) ∧
    decodeWord 0xB4810A01 = .ok (.ldB16u true (.n 8) (.n 4) 513) ∧
    decodeWord 0x34810E01 = .ok (.ldB16s false (.n 8) (.n 4) 513) ∧
    decodeWord 0xB4811201 = .ok (.ldB32 true (.n 8) (.n 4) 513) ∧
    decodeWord 0x34811601 = .ok (.ldB64 false (.n 8) (.n 4) 513) ∧
    decodeWord 0xB4811A01 = .ok (.ldB128 true (.n 8) (.n 4) 513) ∧
    decodeWord 0x34811E01 = .ok (.ldacqB32 false (.n 8) (.n 4) 513) ∧
    decodeWord 0xB4812201 = .ok (.ldacqB64 true (.n 8) (.n 4) 513) ∧
    decodeWord 0x34812601 = .ok (.ldsB32 false (.n 8) (.n 4) 513) ∧
    decodeWord 0xB4812A01 = .ok (.ldsB64 true (.n 8) (.n 4) 513) ∧
    decodeWord 0x34812E01 = .ok (.ldsB128 false (.n 8) (.n 4) 513) := by
  refine ⟨?_, ?_, ?_, ?_, ?_, ?_, ?_, ?_, ?_, ?_, ?_, ?_⟩ <;> rfl
theorem test_words_ld_2 :
    decodeWord 0xB4813246 = .ok (.ldb true (.n 8) (.n 4) .e2m1 70) ∧
    decodeWord 0x34813646 = .ok (.ldbs false (.n 8) (.n 4) .e2m1 70) ∧
    decodeWord 0xB4813A01 = .ok (.ldncB32 true (.n 8) (.n 4) 513) := by
  refine ⟨?_, ?_, ?_⟩ <;> rfl
theorem test_words_st_1 :
    decodeWord 0xB9410201 = .ok (.stB8 true (.n 20) (.n 4) 513) ∧
    decodeWord 0x39410601 = .ok (.stB16 false (.n 20) (.n 4) 513) ∧
    decodeWord 0xB9410A01 = .ok (.stB32 true (.n 20) (.n 4) 513) ∧
    decodeWord 0x39410E01 = .ok (.stB64 false (.n 20) (.n 4) 513) ∧
    decodeWord 0xB9411201 = .ok (.stB128 true (.n 20) (.n 4) 513) ∧
    decodeWord 0x39411601 = .ok (.strelB32 false (.n 20) (.n 4) 513) ∧
    decodeWord 0xB9411A01 = .ok (.strelB64 true (.n 20) (.n 4) 513) ∧
    decodeWord 0x39411E01 = .ok (.stsB8 false (.n 20) (.n 4) 513) ∧
    decodeWord 0xB9412201 = .ok (.stsB32 true (.n 20) (.n 4) 513) ∧
    decodeWord 0x39412601 = .ok (.stsB64 false (.n 20) (.n 4) 513) ∧
    decodeWord 0xB9412A01 = .ok (.stsB128 true (.n 20) (.n 4) 513) ∧
    decodeWord 0x39412E46 = .ok (.stb false (.n 20) (.n 4) .e2m1 70) := by
  refine ⟨?_, ?_, ?_, ?_, ?_, ?_, ?_, ?_, ?_, ?_, ?_, ?_⟩ <;> rfl
theorem test_words_st_2 : decodeWord 0xB9413246 = .ok (.stbs true (.n 20) (.n 4) .e2m1 70) := by rfl
theorem test_words_atom_1 :
    decodeWord 0xBC810C02 = .ok (.atomB32 true (.n 8) (.n 4) (.n 12) .minU) ∧
    decodeWord 0x3C810C12 = .ok (.atomB64 false (.n 8) (.n 4) (.n 12) .minU) ∧
    decodeWord 0xBC010C22 = .ok (.redB32 true (.n 4) (.n 12) .minU) ∧
    decodeWord 0x3C010C32 = .ok (.redB64 false (.n 4) (.n 12) .minU) ∧
    decodeWord 0xBC810C47 = .ok (.atomf true (.n 8) (.n 4) (.n 12) .maxAbs) ∧
    decodeWord 0x3C010C57 = .ok (.redf false (.n 4) (.n 12) .maxAbs) ∧
    decodeWord 0xBC810C60 = .ok (.casB32 true (.n 8) (.n 4) (.n 12)) ∧
    decodeWord 0x3C810C70 = .ok (.casB64 false (.n 8) (.n 4) (.n 12)) ∧
    decodeWord 0xBC810C80 = .ok (.cas2 true (.n 8) (.n 4) (.n 12)) ∧
    decodeWord 0x3C810090 = .ok (.amaxrst false (.n 8) (.n 4)) ∧
    decodeWord 0xBC810CA2 = .ok (.atoms true (.n 8) (.n 4) (.n 12) .minU) ∧
    decodeWord 0x3C010CB2 = .ok (.reds false (.n 4) (.n 12) .minU) := by
  refine ⟨?_, ?_, ?_, ?_, ?_, ?_, ?_, ?_, ?_, ?_, ?_, ?_⟩ <;> rfl
theorem test_words_atom_2 :
    decodeWord 0xBC810CC0 = .ok (.cass true (.n 8) (.n 4) (.n 12)) ∧
    decodeWord 0x3C810CD7 = .ok (.atomfs false (.n 8) (.n 4) (.n 12) .maxAbs) := by
  refine ⟨?_, ?_⟩ <;> rfl
theorem test_words_sync :
    decodeWord 0xC0000001 = .ok (.bar true true) ∧
    decodeWord 0x40010C09 = .ok (.minit false (.n 4) (.n 12) true) ∧
    decodeWord 0xC0810C11 = .ok (.marrive true (.n 8) (.n 4) (.n 12) true) ∧
    decodeWord 0x40010C19 = .ok (.mexpect false (.n 4) (.n 12) true) ∧
    decodeWord 0xC0010C21 = .ok (.mwait true (.n 4) (.n 12) true) ∧
    decodeWord 0x40310C29 = .ok (.mtest false ⟨3, 0⟩ (.n 4) (.n 12) true) ∧
    decodeWord 0xC0000033 = .ok (.fence true .dev) ∧
    decodeWord 0x4002CB3B = .ok (.xfence false 11 11 .dev) := by
  refine ⟨?_, ?_, ?_, ?_, ?_, ?_, ?_, ?_⟩ <;> rfl
theorem test_words_cache :
    decodeWord 0xC4010C00 = .ok (.cinv true (.n 4) (.n 12)) ∧
    decodeWord 0x44010C08 = .ok (.cwb false (.n 4) (.n 12)) ∧
    decodeWord 0xC4010011 = .ok (.pfetch true (.n 4) true) ∧
    decodeWord 0x44010C18 = .ok (.smap false (.n 4) (.n 12)) ∧
    decodeWord 0xC4000C20 = .ok (.sunmap true (.n 12)) ∧
    decodeWord 0x44000C28 = .ok (.sflush false (.n 12)) ∧
    decodeWord 0xC4810030 = .ok (.pinfo true (.n 8) (.n 4)) ∧
    decodeWord 0x44010C38 = .ok (.tlbi false (.n 4) (.n 12)) := by
  refine ⟨?_, ?_, ?_, ?_, ?_, ?_, ?_, ?_⟩ <;> rfl
theorem test_words_tend :
    decodeWord 0xC8010C02 = .ok (.cpy true (.n 4) (.n 12) 2) ∧
    decodeWord 0x48010C08 = .ok (.seal false (.n 4) (.n 12)) ∧
    decodeWord 0xC8010C10 = .ok (.tile true (.n 4) (.n 12)) ∧
    decodeWord 0x48010C18 = .ok (.relay false (.n 4) (.n 12)) ∧
    decodeWord 0xC8010020 = .ok (.gath true (.n 4)) := by
  refine ⟨?_, ?_, ?_, ?_, ?_⟩ <;> rfl
theorem test_words_mtx :
    decodeWord 0xCC300000 = .ok (.mrsv true ⟨3, 0⟩) ∧
    decodeWord 0x4C000008 = .ok (.mrel false) ∧
    decodeWord 0xCC010010 = .ok (.mcvn true (.n 4)) ∧
    decodeWord 0x4C010018 = .ok (.mma false (.n 4)) ∧
    decodeWord 0xCC010020 = .ok (.mmd true (.n 4)) ∧
    decodeWord 0x4C010028 = .ok (.mzero false (.n 4)) ∧
    decodeWord 0xCC010C33 = .ok (.mdrain true (.n 4) (.n 12) .e5m2) ∧
    decodeWord 0x4C010C38 = .ok (.mload false (.n 4) (.n 12)) ∧
    decodeWord 0xCC010C40 = .ok (.mcfg true (.n 4) (.n 12)) ∧
    decodeWord 0x4C010048 = .ok (.mcmplx false (.n 4)) := by
  refine ⟨?_, ?_, ?_, ?_, ?_, ?_, ?_, ?_, ?_, ?_⟩ <;> rfl
theorem test_words_glog :
    decodeWord 0xD0010C00 = .ok (.glapp true (.n 4) (.n 12)) ∧
    decodeWord 0x50010C08 = .ok (.glfold false (.n 4) (.n 12)) := by
  refine ⟨?_, ?_⟩ <;> rfl
theorem test_words_work :
    decodeWord 0xD4010C00 = .ok (.emit true (.n 4) (.n 12)) ∧
    decodeWord 0x54010C08 = .ok (.spawn false (.n 4) (.n 12)) ∧
    decodeWord 0xD4010010 = .ok (.jdec true (.n 4)) := by
  refine ⟨?_, ?_, ?_⟩ <;> rfl
theorem test_words_win :
    decodeWord 0xD8010000 = .ok (.wtag true (.n 4)) ∧
    decodeWord 0x58810C08 = .ok (.wclose false (.n 8) (.n 4) (.n 12)) ∧
    decodeWord 0xD8000010 = .ok (.wfence true) := by
  refine ⟨?_, ?_, ?_⟩ <;> rfl
theorem test_words_bcn :
    decodeWord 0xDC010C00 = .ok (.bcas true (.n 4) (.n 12)) ∧
    decodeWord 0x5C010C08 = .ok (.benq false (.n 4) (.n 12)) ∧
    decodeWord 0xDC010C10 = .ok (.bchase true (.n 4) (.n 12)) ∧
    decodeWord 0x5C010C18 = .ok (.bred false (.n 4) (.n 12)) := by
  refine ⟨?_, ?_, ?_, ?_⟩ <;> rfl
theorem test_words_coll :
    decodeWord 0xE0010C00 = .ok (.xev true (.n 4) (.n 12)) ∧
    decodeWord 0x60310C08 = .ok (.xtest false ⟨3, 0⟩ (.n 4) (.n 12)) := by
  refine ⟨?_, ?_⟩ <;> rfl
theorem test_words_mdl :
    decodeWord 0xE4310000 = .ok (.tmchk true ⟨3, 0⟩ (.n 4)) ∧
    decodeWord 0x64010008 = .ok (.tmwait false (.n 4)) ∧
    decodeWord 0xE4010010 = .ok (.tmpin true (.n 4)) ∧
    decodeWord 0x64010018 = .ok (.tmunpin false (.n 4)) := by
  refine ⟨?_, ?_, ?_, ?_⟩ <;> rfl
theorem test_words_ffnma :
    decodeWord 0xE8810C40 = .ok (.ffnmaF32 true (.n 8) (.n 4) (.n 12) (.n 16)) ∧
    decodeWord 0x68810C41 = .ok (.ffnmaF16x2 false (.n 8) (.n 4) (.n 12) (.n 16)) ∧
    decodeWord 0xE8810C42 = .ok (.ffnmaBf16x2 true (.n 8) (.n 4) (.n 12) (.n 16)) := by
  refine ⟨?_, ?_, ?_⟩ <;> rfl
theorem test_words_qdot :
    decodeWord 0xEC810C40 = .ok (.pmac2 true (.n 8) (.n 4) (.n 12) (.n 16)) ∧
    decodeWord 0x6C810C41 = .ok (.pmac4 false (.n 8) (.n 4) (.n 12) (.n 16)) ∧
    decodeWord 0xEC810C42 = .ok (.fdot2F16 true (.n 8) (.n 4) (.n 12) (.n 16)) ∧
    decodeWord 0x6C810C43 = .ok (.fdot2Bf16 false (.n 8) (.n 4) (.n 12) (.n 16)) := by
  refine ⟨?_, ?_, ?_, ?_⟩ <;> rfl
theorem test_words_qmisc :
    decodeWord 0xF0810C40 = .ok (.cfma true (.n 8) (.n 4) (.n 12) (.n 16)) ∧
    decodeWord 0x70810C41 = .ok (.cfmaj false (.n 8) (.n 4) (.n 12) (.n 16)) ∧
    decodeWord 0xF0810C42 = .ok (.bfi true (.n 8) (.n 4) (.n 12) (.n 16)) ∧
    decodeWord 0x70810C43 = .ok (.mad false (.n 8) (.n 4) (.n 12) (.n 16)) := by
  refine ⟨?_, ?_, ?_, ?_⟩ <;> rfl
theorem test_words_wait : decodeWord 0xF555B000 = .ok (.wait true 5 5 3 3) := by rfl

/-! ### Witnesses: words with results -/
theorem witness_IntegerArithmetic : MeetsGives (.iadd false (.n 2) (.n 4) (.n 6) true false false) (.n 2) 64 := meets_gives (s := live id) rfl (by decide) trivial
/-- A result in a matrix queue, whose engine the team holds. -/
theorem witness_queue_destination : MeetsGives (.isub false .mqa (.n 4) (.n 6) true true true) .mqa 64 :=
  meets_gives (s := reserving id) rfl (by decide) ⟨by decide, by decide⟩
theorem witness_IntegerLogicAndShifts : MeetsGives (.shl false .push (.n 4) .zero false) .push 32 := meets_gives (s := live id) rfl (by decide) trivial
theorem witness_BitCountsAndReversals : (0x00F00000 : Nat) < 2 ^ 32 ∧ 3 < leadZeros 32 0x00F00000 ∧ 3 < trailZeros 32 0x00F00000 ∧
    (0x00F00000 : Nat) < 256 ^ 4 := by decide
theorem witness_FieldsMovesAndSelects : MeetsGives (.bfe false (.n 2) (.n 4) .ln false true) (.n 2) 32 := meets_gives (s := live id) rfl (by decide) trivial
/-- `sel` after a `guard`. -/
theorem witness_sel : MeetsGives (.sel false (.n 2) (.n 4) (.g 1) false) (.n 2) 32 :=
  meets_gives (s := { live id with chain := { (live id).chain with guard := some ⟨2, true⟩, slot := 1 } }) rfl (by decide) trivial
theorem witness_ImmediateForms : MeetsGives (.iaddi false (.g 2) (.n 4) 0x400) (.g 2) 32 := meets_gives (s := live id) rfl (by decide) trivial
theorem witness_Compares : MeetsDoes (.icmpS false ⟨3, 1⟩ (.n 1) (.n 2) .lt) always := meets_does (s := live id) rfl (by decide) trivial
theorem witness_FloatComparisons : (0xFFC00000 : Nat) < 2 ^ 32 ∧ 0xFFC00000 % 2 ^ 31 > 0x7F800000 ∧ fclassIdx f32 0xFFC00000 = 8 := by decide
theorem witness_FloatArithmetic : MeetsGives (.fadd false (.n 2) (.n 4) (.n 5) .f32) (.n 2) 32 := meets_gives (s := live id) rfl (by decide) trivial
theorem witness_FusedMultiplyAdds : MeetsGives (.cfma false (.n 4) (.n 8) (.n 10) (.n 12)) (.n 4) 128 := meets_gives (s := live id) rfl (by decide) trivial
theorem witness_SpecialFunctions : MeetsGives (.frcp false (.n 2) (.n 4) true) (.n 2) 32 := meets_gives (s := live id) rfl (by decide) trivial
theorem witness_Conversions : MeetsGives (.cvtFi false (.n 2) (.n 4) 0x1A 1) (.n 2) 64 := meets_gives (s := live id) rfl (by decide) trivial
theorem witness_FloatToInteger : f32.decode 0x7FC00000 = .nan ∧ f32.decode 0xFF800000 = .inf true ∧ f32.decode 0x3F800000 = .fin ⟨false, 0x800000, -23, false⟩ := by decide
theorem witness_PackedArithmetic : MeetsGives (.padd2 false (.n 2) (.n 4) (.n 5) true false true) (.n 2) 32 := meets_gives (s := live id) rfl (by decide) trivial
theorem witness_PackedDotProducts : MeetsGives (.pmac4 false (.n 2) (.n 4) (.n 5) (.n 2)) (.n 2) 32 := meets_gives (s := live id) rfl (by decide) trivial
theorem witness_Slides : MeetsGives (.slideUp false (.n 2) (.n 4) (.n 5) .carry) (.n 2) 64 := meets_gives (s := live id) rfl (by decide) trivial
theorem witness_ShufflesAndReductions : MeetsGives (.gred false (.n 2) (.n 4) .maxF) (.n 2) 32 := meets_gives (s := live id) rfl (by decide) trivial
theorem witness_BlockWords : MeetsGives (.bdqnt false (.n 4) (.n 9) .e2m1) (.n 4) 128 := meets_gives (s := live id) rfl (by decide) trivial
theorem witness_BlockScales : (0x7F800000 : Nat) ≤ 0xFF800000 % 2 ^ 31 ∧ 0x80000000 % 2 ^ 31 = 0 ∧ 0x00800000 ≤ 0xC0490FDB % 2 ^ 31 ∧
    0xC0490FDB % 2 ^ 31 < 0x7F800000 ∧ 0xC0490FDB < 2 ^ 32 := by decide
theorem witness_SpecialRegisterReads : MeetsGives (.rdsr false (.n 2) 14) (.n 2) 64 := meets_gives (s := live id) rfl (by decide) trivial

/-- Operands of every kind in the value clauses: numbers, an infinity and a NaN of each format; two signed zeros and two numbers, in order; and finite parts
of a complex product and a pair. -/
theorem witness_values : (∀ t : FTy, (1 : Nat) ≤ (if t.packed then 2 else 1)) ∧ f32.decode 0x3F800000 = .fin ⟨false, 0x800000, -23, false⟩ ∧
    f16.decode 0x7C00 = .inf false ∧ bf16.decode 0x7FC0 = .nan ∧ (0x7F800000 : Nat) < 0xFFC00000 % 2 ^ 31 ∧ ¬(0x7F800000 : Nat) < 0x80000000 % 2 ^ 31 ∧
    place 32 0x80000000 < place 32 0 ∧ place 16 0x8001 < place 16 0x8000 := by
  refine ⟨fun t => by cases t <;> decide, by decide, by decide, by decide, by decide, by decide, by decide, by decide⟩
/-- 1 + 2⁻³⁰ rounds to 1, with the error 2⁻³⁰; the largest number doubled overflows, with no error; and a half rounds to even. -/
theorem test_twosum : twoSum 0x3F800000 0x30800000 = (0x3F800000, 0x30800000) ∧ twoSum 0x7F7FFFFF 0x7F7FFFFF = (0x7F800000, 0) ∧
    fpRound .f32 ⟨.rne, 0, 0⟩ 0xBF000000 = 0x80000000 ∧ maxP f32 true 0x80000000 0 = 0 ∧ maxN f32 false 0x7FC00000 0x3F800000 = 0x3F800000 := by decide +kernel
/-- (1 + 2i)(3 + 4i) accumulated onto 0: −5 and 10; with the conjugate of the second: 11 and 2. -/
theorem test_cfma : fpCfma false (0x3F800000 + 0x40000000 * 2 ^ 32) (0x40400000 + 0x40800000 * 2 ^ 32) 0 = 0xC0A00000 + 0x41200000 * 2 ^ 64 ∧
    fpCfma true (0x3F800000 + 0x40000000 * 2 ^ 32) (0x40400000 + 0x40800000 * 2 ^ 32) 0 = 0x41300000 + 0x40000000 * 2 ^ 64 := by decide +kernel
/-- 1.5 · 2³ and its exponent; 1.5 as BF16; and the blocks' members, present and absent. -/
theorem test_conversions : fpLdexp .f32 ⟨.rne, 0, 0⟩ (0x3FC00000 + 3 * 2 ^ 32) = 0x41400000 ∧ fpExpo .f32 0x41400000 = 3 ∧ fpExpo .f32 1 = 0xFFFFFF6B ∧
    cvtFPair 3 ⟨.rne, 0, 0⟩ 0x3FC00000 = 0x3FC0 ∧ cvtIfPair 0x10 ⟨.rne, 0, 0⟩ 0xFFFFFFFF = 0xBF800000 := by decide +kernel
theorem witness_block_values : members .e2m1 0 1 [(4, [1]), (9, [1])] = [4] ∧ members .e4m3 3 0 [] = [] ∧ leader .e4m3 0 0 [(0, [1, 0x180])] = 0x80 ∧
    (0x00000001 : Nat) % 2 ^ 31 / 2 ^ 0 = 1 ∧ 0x00700000 % 2 ^ 31 / 2 ^ 22 = 1 := by decide

/-! ### Witnesses: words of control -/
theorem witness_LaneControl : MeetsDoes (.wrsr false 11 (.n 1)) fun _ _ v => ¬((11 : BitVec 6) = 11 ∧ 5 ≤ arg v 0 % 8) :=
  meets_does (s := live id) rfl (by decide) (by decide)
theorem witness_brx : MeetsDoes (.brx false (.n 2)) fun _ _ v => arg v 0 % 4 = 0 := meets_does (s := live (regs [(2, 64)])) rfl (by decide) (by decide)
theorem witness_GroupControl : MeetsEach (.call false false 0 7) (sends fun s l _ =>
    if goes s l false 0 then [.result .push 64 ((s.chain.pc + 12).setWidth 128) none, .jump (dest s 7)] else []) :=
  meets_each _ (s := live id) rfl (by decide) (by decide) rfl ⟨by decide, by decide⟩
theorem witness_rjset : MeetsOnce (.rjset false 3 (.n 1)) (sendsOnce fun _ _ v => [.setJ 3 (BitVec.ofNat 32 (arg v 0))]) :=
  meets_once _ (s := live (regs [(1, 5)])) rfl (by decide) (by decide) rfl ⟨by decide, by decide⟩
theorem witness_TrapWords : MeetsTraps (.trap false 5) fun _ _ _ t => t = (5 : BitVec 6).setWidth 64 := meets_traps 5 (s := live id) rfl (by decide) (by decide) rfl
theorem witness_brx_misaligned : MeetsTraps (.brx false (.n 2)) fun _ _ v t => arg v 0 % 4 ≠ 0 ∧ t = BitVec.ofNat 64 (arg v 0) :=
  meets_traps 66 (s := live (regs [(2, 66)])) rfl (by decide) (by decide) (by decide)
/-- A lane in its handler, in a privileged context. -/
def handling : State := (live fun x => { x with h := true }).setCtx 0 { (live id).ctx 0 with priv := true }
theorem witness_rfe : MeetsEach (.rfe false) fun s l _ es => (s.clane l).h = true ∧ es = [.rfe] :=
  meets_each _ (s := handling) rfl (by decide) (by decide) ⟨by decide, rfl⟩ ⟨by decide, by decide⟩
/-- A word refused as it executes, met. -/
def refusal (when : State → Nat → List Nat → Prop) (s : State) (l : Nat) (v : List Nat) (t : DWord) : Prop :=
  when s l v ∧ t = BitVec.ofNat 64 (0x14 + 2 ^ 8 * s.chain.slot + 2 ^ 32 * (s.chain.words.getD s.chain.slot 0).toNat)
theorem meets_refusal {s : State} {i : Instr} {f : Form} {when : State → Nat → List Nat → Prop} (h : i.form = some f) (hs : stands s i f = true)
    (hv : (s.ctx s.cctx).tvec ≠ 0 ∧ (s.clane 0).h = false ∧ (s.clane 0).mode ≠ .exited) (ho : when s 0 (operands s f)) : MeetsTraps i (refusal when) :=
  meets_traps _ h hs hv ⟨ho, rfl⟩
theorem witness_wrsr_refused : MeetsTraps (.wrsr false 11 (.n 4)) (refusal fun _ _ v => (11 : BitVec 6) = 11 ∧ 5 ≤ arg v 0 % 8) :=
  meets_refusal (s := live (regs [(4, 5)])) rfl (by decide) (by decide) (by decide)
/-- A privileged context, whose lane is in no handler. -/
def keeping (f : Lane → Lane) : State := (live f).setCtx 0 { (live f).ctx 0 with priv := true }
theorem witness_rfe_refused : MeetsTraps (.rfe false) (refusal fun s l _ => (s.clane l).h = false) :=
  meets_refusal (s := keeping id) rfl (by decide) (by decide) (by decide)
theorem witness_kreq_refused (n : Nat) (h : n = 7 ∨ n = 14 ∨ n = 15 ∨ n = 16) : MeetsTraps (.kreq false .drop (.n 4) (.n 6))
    (refusal fun s l v => 16 ≤ arg v 1 ∨ 7 ≤ arg v 1 ∧ arg v 1 ≤ 14 ∨ arg v 1 = 15 ∧ (arg v 0 ≠ 0 ∨ (s.clane l).h = false)) := by
  rcases h with rfl | rfl | rfl | rfl
  · exact meets_refusal (s := live (regs [(6, 7)])) rfl (by decide) (by decide) (by decide)
  · exact meets_refusal (s := live (regs [(6, 14)])) rfl (by decide) (by decide) (by decide)
  · exact meets_refusal (s := live (regs [(6, 15)])) rfl (by decide) (by decide) (by decide)
  · exact meets_refusal (s := live (regs [(6, 16)])) rfl (by decide) (by decide) (by decide)
theorem witness_cwb_refused : MeetsTraps (.cwb false (.n 4) .zero) (refusal fun _ _ v => arg v 1 = 0 ∨ 2 ^ 28 < arg v 1) :=
  meets_refusal (s := live id) rfl (by decide) (by decide) (by decide)
theorem witness_tlbi_refused : MeetsTraps (.tlbi false (.n 4) (.n 6)) (refusal fun _ _ v => 2 ^ 18 ≤ arg v 1) :=
  meets_refusal (s := keeping (regs [(6, 2 ^ 18)])) rfl (by decide) (by decide) (by decide)
theorem witness_tmwait_refused : MeetsTraps (.tmwait false (.n 4)) (refusal fun s _ v => 4096 ≤ arg v 0 ∨ (s.ctx s.cctx).nlayer ≤ arg v 0) :=
  meets_refusal (s := live id) rfl (by decide) (by decide) (by decide)
theorem witness_xev_refused : MeetsTraps (.xev false (.n 4) (.n 6)) (refusal fun _ _ v => arg v 1 % 4 = 3 ∨ arg v 1 / 4 % 2 ^ 30 ≠ 0) :=
  meets_refusal (s := live (regs [(6, 3)])) rfl (by decide) (by decide) (by decide)
theorem witness_wtag_refused : MeetsTraps (.wtag false (.n 4)) (refusal fun _ _ v => 4 ≤ arg v 0) :=
  meets_refusal (s := live (regs [(4, 4)])) rfl (by decide) (by decide) (by decide)
theorem witness_seal_refused : MeetsTraps (.seal false (.n 4) (.n 6)) (refusal fun _ _ v => 3 ≤ arg v 1) :=
  meets_refusal (s := live (regs [(6, 3)])) rfl (by decide) (by decide) (by decide)
theorem witness_amaxrst_refused : MeetsTraps (.amaxrst false (.n 2) (.n 3)) (refusal fun _ _ v => 16 ≤ arg v 0) :=
  meets_refusal (s := live (regs [(3, 16)])) rfl (by decide) (by decide) (by decide)
/-- The frame that an entry saves meets both returns of the statement. -/
theorem witness_TrapEntryAndReturn : let y := ({} : Lane).enterTrap 0x800 .breakpoint 0 12 1
    y.frame = y.frame ∧ y.tpc = 12 ∧ { y with tpc := 24 }.frame = y.frame ∧ { y with tpc := 24 }.tpc ≠ 12 := by decide
/-- A mask with a joined lane, and one with a lane that has not joined. -/
theorem witness_RejoinRelease : let g : Group := { lanes := [(0, { mode := .joined 3 })], j := [(3, 1)] }
    let h : Group := { lanes := [(0, { mode := .joined 3 }), (1, {})], j := [(3, 3)] }
    (∀ l ∈ lanesOf (Tbl.get g.j 3 0), ∃ p ∈ g.lanes, p.1 = l ∧ p.2.mode = .joined 3) ∧
    (∃ l ∈ lanesOf (Tbl.get h.j 3 0), ∀ p ∈ h.lanes, p.1 = l → p.2.mode ≠ .joined 3) ∧ (h.lane 0).mode = .joined 3 := by decide

/-! ### Witnesses: memory words -/
/-- The page of address 0x100, and the place of that address. -/
def at100 : State := live (regs [(4, 0x100), (6, 1), (7, 2)])
def loc100 : Loc := .dev 0x40100 0 0x100 0
theorem xlat100 (n : Need) (h : n = .load ∨ n = .store ∨ n = .atomic ∨ n = .red ∨ n = .objR ∨ n = .objRW) :
    at100.xlat (some 0) 0 n 0x100 = .ok 0x40100 0 0 0 0x800006F false 0x20000 := by
  rcases h with rfl | rfl | rfl | rfl | rfl | rfl <;> decide
theorem translated100 {n : Need} (h : n = .load ∨ n = .store ∨ n = .atomic ∨ n = .red ∨ n = .objR ∨ n = .objRW) : translated at100 n 0x100 loc100 :=
  ⟨_, _, _, _, _, _, _, xlat100 n h, rfl⟩
theorem witness_Loads : MeetsEach (.ldB32 false (.n 2) (.n 4) 0) (loads false 4 false false false (.n 2) 0) :=
  meets_each _ (s := at100) rfl (by decide) (by decide) ⟨0x100, loc100, ⟨by decide, by decide, translated100 (by decide)⟩, rfl⟩ ⟨by decide, by decide⟩
theorem witness_ldacq : MeetsEach (.ldacqB64 false (.n 2) (.n 4) 0) (loads false 8 false true false (.n 2) 0) :=
  meets_each _ (s := at100) rfl (by decide) (by decide) ⟨0x100, loc100, ⟨by decide, by decide, translated100 (by decide)⟩, rfl⟩ ⟨by decide, by decide⟩
/-- The highest scratch word of the region, at the lowest offset. -/
theorem witness_lds : MeetsEach (.ldsB128 false (.n 8) (.n 4) 0x200) (loads true 16 false false false (.n 8) 0x200) :=
  meets_each _ (s := live (regs [(4, 0x21FF0)])) rfl (by decide) (by decide) ⟨0x1FFF0, .scr 0 0x1FFF0, ⟨by decide, ok_of (by decide)⟩, rfl⟩ ⟨by decide, by decide⟩
theorem witness_ldb : MeetsAcross (.ldb false (.n 2) (.n 4) .e2m1 0) (blockLoads false (.n 2) .e2m1 0) :=
  meets_across _ (s := at100) rfl (by decide) (by decide) ⟨[loc100], 0x100, ok_of (by decide), rfl⟩ ⟨by decide, by decide⟩
theorem witness_Stores : MeetsEach (.strelB32 false (.n 6) (.n 4) 0) (stores false 4 true 0) :=
  meets_each _ (s := at100) rfl (by decide) (by decide)
    ⟨0x100, loc100, ⟨by decide, by decide, translated100 (by decide)⟩, ok_of (by decide), fun _ => by decide, rfl⟩ ⟨by decide, by decide⟩
theorem witness_sts : MeetsEach (.stsB8 false (.n 6) (.n 4) 0x3FF) (stores true 1 false 0x3FF) :=
  meets_each _ (s := at100) rfl (by decide) (by decide) ⟨0xFF, .scr 0 0xFF, ⟨by decide, ok_of (by decide)⟩, ok_of (by decide), (by intro h; cases h), rfl⟩ ⟨by decide, by decide⟩
theorem witness_stb : MeetsAcross (.stb false (.n 6) (.n 4) .e4m3 0) (blockStores false (.n 6) .e4m3 0) :=
  meets_across _ (s := at100) rfl (by decide) (by decide) ⟨[loc100], 0x100, ok_of (by decide), ok_of (by decide), rfl⟩ ⟨by decide, by decide⟩
theorem witness_Atomics : MeetsEach (.casB32 false (.n 2) (.n 4) (.n 6)) (atomics (some (.n 2)) (.cas 32)) :=
  meets_each _ (s := at100) rfl (by decide) (by decide)
    ⟨fun _ => by decide, 0x40100, 0, 0, 0, 0x800006F, false, 0x20000, by decide, by decide, xlat100 .atomic (by decide), rfl⟩ ⟨by decide, by decide⟩
theorem witness_red : MeetsEach (.redB32 false (.n 4) (.n 6) .add) (atomics none (.int 32 .add)) :=
  meets_each _ (s := at100) rfl (by decide) (by decide)
    ⟨(by intro h; cases h), 0x40100, 0, 0, 0, 0x800006F, false, 0x20000, by decide, by decide, xlat100 .red (by decide), rfl⟩ ⟨by decide, by decide⟩
theorem witness_atoms : MeetsEach (.atoms false (.n 2) (.n 4) (.n 6) .xchg) (scratchAtomics (some (.n 2)) (.int 32 .xchg)) :=
  meets_each _ (s := at100) rfl (by decide) (by decide) ⟨fun _ => by decide, .scr 0 0x100, ok_of (by decide), rfl⟩ ⟨by decide, by decide⟩
theorem copies100 : noCopies at100 0 := by
  refine ⟨by decide, fun c => ?_, by decide⟩
  cases c with
  | zero => decide
  | succ n => rfl
theorem witness_storeFrame : MeetsLeaves (.strelB32 false (.n 6) (.n 4) 0) (stores false 4 true 0) :=
  meets_leaves _ (s := at100) rfl (by decide) (by decide)
    ⟨0x100, loc100, ⟨by decide, by decide, translated100 (by decide)⟩, ok_of (by decide), fun _ => by decide, rfl⟩ ⟨by decide, by decide⟩ copies100
theorem witness_scratchFrame : MeetsLeaves (.stsB8 false (.n 6) (.n 4) 0x3FF) (stores true 1 false 0x3FF) :=
  meets_leaves _ (s := at100) rfl (by decide) (by decide) ⟨0xFF, .scr 0 0xFF, ⟨by decide, ok_of (by decide)⟩, ok_of (by decide), (by intro h; cases h), rfl⟩
    ⟨by decide, by decide⟩ copies100
theorem witness_loadFrame : MeetsLeaves (.ldB32 false (.n 2) (.n 4) 0) (loads false 4 false false false (.n 2) 0) :=
  meets_leaves _ (s := at100) rfl (by decide) (by decide) ⟨0x100, loc100, ⟨by decide, by decide, translated100 (by decide)⟩, rfl⟩ ⟨by decide, by decide⟩ copies100
theorem witness_atomicFrame : MeetsLeaves (.redB32 false (.n 4) (.n 6) .add) (atomics none (.int 32 .add)) :=
  meets_leaves _ (s := at100) rfl (by decide) (by decide)
    ⟨(by intro h; cases h), 0x40100, 0, 0, 0, 0x800006F, false, 0x20000, by decide, by decide, xlat100 .red (by decide), rfl⟩ ⟨by decide, by decide⟩ copies100
/-- A store changes its bytes and the mark of its page, and no other byte near them. -/
def storing : State := match Sys2Proof.Machine.exec (.stB32 false (.n 6) (.n 4) 0) at100 with | .next t => t | _ => at100
theorem test_store_frame : (List.range 8).map (fun k => storing.mem.getKey 0 (0x400FE + k)) = [0, 0, 1, 0, 0, 0, 0, 0] ∧
    storing.mem.getKey 0 0x20000 = 0x6F ∧ storing.mem.getKey 0 0x20001 = 0 ∧ (storing.lane 0 0 0).regs = (at100.lane 0 0 0).regs ∧
    storing.keeper = at100.keeper ∧ (storing.core 0).engines = (at100.core 0).engines := by decide +kernel
/-- The last amax cell. -/
theorem witness_amax : MeetsEach (.amaxrst false (.n 2) (.n 3)) fun s l v es =>
    arg v 0 < 16 ∧ settled s l (some (.n 2)) ∧ es = [.sync, .amax (.n 2) (arg v 0) true 0] :=
  meets_each _ (s := live (regs [(3, 15)])) rfl (by decide) (by decide) ⟨by decide, fun _ => by decide, rfl⟩ ⟨by decide, by decide⟩
/-- A page of another device. -/
def atPeer : State := { at100 with mem := at100.mem.writeKey 0 0x20000 (toBytesLE 8 (0xEF + 5 * 2 ^ 8 + 2 ^ 49)) false }
theorem witness_peerAtomics : MeetsEach (.redB32 false (.n 4) (.n 6) .add) (peerAtomics (.int 32 .add)) :=
  meets_each _ (s := atPeer) rfl (by decide) (by decide)
    ⟨by decide, by decide, 0x100, 0, 1, 0xEF + 5 * 2 ^ 8 + 2 ^ 49, false, 0x20000, by decide, rfl⟩ ⟨by decide, by decide⟩
theorem witness_AtomicValues : (0x80000000 : Nat) < 2 ^ 32 ∧ (0xFFFFFFFF : Nat) < 2 ^ 32 ∧ sgn 32 0x80000000 ≤ sgn 32 0xFFFFFFFF ∧
    ¬sgn 32 1 ≤ sgn 32 0x80000000 := by decide
theorem witness_MisalignedAccesses : MeetsTraps (.ldB32 false (.n 2) (.n 4) 0) (strays false 4 0) :=
  meets_traps 0x102 (s := live (regs [(4, 0x102)])) rfl (by decide) (by decide) ⟨by decide, .inl (by decide)⟩
/-- A scratch address with a bit that R122 reserves. -/
theorem witness_scratch_form : MeetsTraps (.stsB8 false (.n 6) (.n 4) 0) (strays true 1 0) :=
  meets_traps 0x80000 (s := live (regs [(4, 0x80000)])) rfl (by decide) (by decide) ⟨by decide, .inr ⟨rfl, by decide⟩⟩

/-- Lane 0 reads 0x100 and lane 1 a place that is not aligned. -/
def astray : State :=
  let s := (live (regs [(4, 0x100), (6, 1)])).updLane 0 0 1 fun x => regs [(4, 0x102), (6, 1)] { x with mode := .ready }
  { s with chain := { s.chain with lanes := 3 } }
/-- The hypotheses of a word of which one lane traps and another does not, met in those two lanes. -/
def MeetsSome (i : Instr) (c : Cause) (bad : State → Rows → Nat → List Nat → DWord → Prop) (good : State → Rows → Nat → List Nat → List Eff → Prop) : Prop :=
  ∃ s f vs es a, Ready s i f vs ∧ Held s f ∧
    (∀ l ∈ executing s i, match a l with
      | some x => bad s ((executing s i).map fun l => (l, vs l)) l (vs l) x ∧ Handles s [l]
      | none => good s ((executing s i).map fun l => (l, vs l)) l (vs l) (es l) ∧ ∀ e ∈ es l, e.loadsMq = false) ∧
    (∃ l ∈ executing s i, (a l).isSome = true) ∧ (∃ l ∈ executing s i, (a l).isSome = false) ∧
    let s1 := s.addWord i f (mixedWith s i f es c a)
    let ok := (lanesOf s.chain.lanes).filter fun l => !((executing s i).contains l && (a l).isSome)
    s1.races s1.chain ok = [] ∧ s1.hasRoom s1.chain ok = true
theorem of_lanes01 {s : State} {i : Instr} {p : Nat → Prop} (h : executing s i = [0, 1]) (h0 : p 0) (h1 : p 1) : ∀ l ∈ executing s i, p l := by
  intro l hl; rw [h] at hl
  rcases List.mem_cons.mp hl with rfl | hl
  · exact h0
  · rw [List.mem_singleton.mp hl]; exact h1
def strayLoad : Instr := .ldB32 false (.n 2) (.n 4) 0
theorem exec_astray : executing astray strayLoad = [0, 1] := by decide
theorem witness_some_astray : MeetsSome strayLoad .misaligned (fun s _ l v a => strays false 4 0 s l v a)
    fun s _ l v es => loads false 4 false false false (.n 2) 0 s l v es := by
  refine ⟨astray, formOf strayLoad, fun l => [if l = 0 then 0x100 else 0x102],
    fun _ => astray.touches 0 0 false [loc100] ++ [.load (.n 2) 4 false loc100 0x100 false false], fun l => if l = 0 then none else some 0x102,
    ⟨rfl, by decide, by decide, (by intro w hw; cases hw), by decide, by decide, ?_⟩, held_of (by decide), ?_, ⟨1, by decide, by decide⟩, ⟨0, by decide, by decide⟩,
    by decide, by decide⟩
  · exact of_lanes01 (p := fun l => astray.readSrcs l (formOf strayLoad).srcs (astray.chain.lits (formOf strayLoad)) = .ok [if l = 0 then 0x100 else 0x102])
      exec_astray (ok_of (by decide)) (ok_of (by decide))
  · intro l hl
    rw [exec_astray] at hl
    rcases List.mem_cons.mp hl with rfl | hl
    · exact ⟨⟨0x100, loc100, ⟨by decide, by decide, 0x40100, 0, 0, 0, 0x800006F, false, 0x20000, by decide, rfl⟩, rfl⟩, by decide⟩
    · rw [List.mem_singleton.mp hl]
      exact ⟨⟨by decide, .inl (by decide)⟩, by decide, fun l hl => by rw [List.mem_singleton.mp hl]; decide⟩
/-- A block of a quarter that is not aligned. -/
theorem witness_block_astray : strayBlock false 0 at100 [(0, [0x104])] 0 [0x104] 0x104 ∧ strayBlock true 1 at100 [(0, [0x104])] 0 [0x104] 0x124 := by
  refine ⟨⟨by decide, .inl (by decide)⟩, ⟨by decide, .inl (by decide)⟩⟩
/-- A load at 0x100 reads what stands there: no store is late, and the walker marks no sector of it. -/
theorem witness_readsPlain : readsPlain at100 [loc100] ∧ littleEndian 4 (byteRead at100 false loc100) 0 := by
  refine ⟨⟨by decide, ?_⟩, by decide, by decide⟩
  intro loc hl
  rw [List.mem_singleton.mp hl]
  refine ⟨?_, ?_⟩
  · intro loc' hl'
    rw [List.mem_singleton.mp hl']
    rintro ⟨x, b, e, hw, hk⟩
    have hw' : at100.walk 0 0x100 = .leaf 0x800006F false 0x20000 := by decide
    have : (Walk.leaf 0x800006F false 0x20000) = .leaf x b e := hw'.symm.trans hw
    injection this with _ _ h3
    subst h3
    exact absurd hk (by decide)
  · intro x b hx
    have hx' : at100.leafFor (some 0) 0 0x100 = some (0x800006F, false) := by decide
    have : some ((0x800006F : Nat), false) = some (x, b) := hx'.symm.trans hx
    injection this with h
    injection h with h1 _
    subst h1
    decide
theorem witness_celled : MeetsLeaves (.amaxrst false (.n 2) (.n 3)) fun s l v es =>
    arg v 0 < 16 ∧ settled s l (some (.n 2)) ∧ es = [.sync, .amax (.n 2) (arg v 0) true 0] :=
  meets_leaves _ (s := live (regs [(3, 15)])) rfl (by decide) (by decide) ⟨by decide, fun _ => by decide, rfl⟩ ⟨by decide, by decide⟩ (by
    refine ⟨by decide, fun c => ?_, by decide⟩
    cases c with
    | zero => decide
    | succ n => rfl)
theorem witness_blockFrame : MeetsLeaves (.ldb false (.n 2) (.n 4) .e2m3 0) (fun s l v es => blockLoads false (.n 2) .e2m3 0 s [(l, v)] l v es) :=
  meets_leaves _ (s := at100) rfl (by decide) (by decide)
    ⟨[loc100, .dev 0x40120 0 0x120 0, .dev 0x40140 0 0x140 0], 0x100, ok_of (by decide), rfl⟩ ⟨by decide, by decide⟩ copies100
theorem witness_blockStoreFrame : MeetsLeaves (.stb false (.n 6) (.n 4) .e4m3 0) (fun s l v es => blockStores false (.n 6) .e4m3 0 s [(l, v)] l v es) :=
  meets_leaves _ (s := at100) rfl (by decide) (by decide) ⟨[loc100], 0x100, ok_of (by decide), ok_of (by decide), rfl⟩ ⟨by decide, by decide⟩ copies100
/-- The codes 1, 2, 3 and 63 of six bits each, packed. -/
theorem witness_packs : packs .e2m3 0x3F030201 (1 + 2 * 2 ^ 6 + 3 * 2 ^ 12 + 63 * 2 ^ 18) ∧ packs .e4m3 0xFF000001 0xFF000001 := by
  refine ⟨⟨by decide, ?_⟩, ⟨by decide, ?_⟩⟩
  · rw [if_pos (by decide)]; decide
  · rw [if_neg (by decide)]

/-! ### Witnesses: moorings, fences, caches -/
/-- A mooring of two arrivals at 0x100. -/
def moored : State := { at100 with mem := at100.mem.writeKey 0 0x40100 (toBytesLE 16 (Mooring.word ⟨false, false, true, 2, 2, 0⟩)) false }
theorem translated_moored : translated moored .objRW 0x100 loc100 := ⟨0x40100, 0, 0, 0, 0x800006F, false, 0x20000, by decide, rfl⟩
theorem witness_MooringWords : MeetsInTurn (.marrive false (.n 2) (.n 4) (.n 6) false) (posts 1 (.n 2) false) :=
  meets_in_turn _ (s := moored) rfl (by decide) (by decide)
    ⟨loc100.moor 0x100 0 0, ⟨loc100, ⟨by decide, translated_moored⟩, by decide⟩, by decide, rfl⟩ ⟨by decide, by decide⟩
theorem witness_minit : MeetsInTurn (.minit false (.n 4) (.n 6) true) (posts 0 .drop true) :=
  meets_in_turn _ (s := at100) rfl (by decide) (by decide)
    ⟨(Loc.scr 0 0x100).moor 0x100 0 0, ⟨.scr 0 0x100, ok_of (by decide), by decide⟩, by decide, rfl⟩ ⟨by decide, by decide⟩
/-- A token whose phase has passed, and one whose phase stands. -/
theorem witness_mtest : MeetsEach (.mtest false ⟨2, 0⟩ (.n 4) (.n 6) false) fun s l v es => ∃ m t, looks s l false (arg v 0) (arg v 1) m t ∧
    es = [.object m.loc 0 false, .sync, .acquire (t && wide false (arg v 0)), .pred 2 t] :=
  meets_each _ (s := moored) rfl (by decide) (by decide)
    ⟨loc100.moor 0x100 0 0, true, ⟨⟨loc100, ⟨by decide, translated_moored⟩, by decide⟩, by decide, by decide, by decide⟩, rfl⟩ ⟨by decide, by decide⟩
theorem witness_mwait : MeetsEach (.mwait false (.n 4) (.n 7) false) fun s l v es => ∃ m t, looks s l false (arg v 0) (arg v 1) m t ∧
    es = [.object m.loc 0 (!t), .sync, if t then .acquire (wide false (arg v 0)) else .mwait m ((arg v 1).testBit 0) (wide false (arg v 0))] :=
  meets_each _ (s := moored) rfl (by decide) (by decide)
    ⟨loc100.moor 0x100 0 0, false, ⟨⟨loc100, ⟨by decide, translated_moored⟩, by decide⟩, by decide, by decide, by decide⟩, rfl⟩ ⟨by decide, by decide⟩
/-- Counters at the ends of their ranges. -/
theorem witness_MooringOperations : let m : Mooring := ⟨false, false, true, 1, 1, 2 ^ 31 - 2⟩
    (m.op 1 1).isSome = true ∧ m.op 1 2 = none ∧ (m.ret 1 1).isSome = true ∧ ({ m with pend := 0, units := 0 } : Mooring).adv ≠ { m with pend := 0, units := 0 } ∧
    ({ m with wtr := true } : Mooring).op 0 1 = none ∧ (m.op 0 1).isSome = true := by decide
theorem witness_FencesAndWaits : MeetsEach (.fence false .clu) (sends fun _ _ _ => [.sync, .fence .clu 1 true]) :=
  meets_each _ (s := at100) rfl (by decide) (by decide) rfl ⟨by decide, by decide⟩
theorem witness_wait : MeetsEach (.wait false 0 15 0 7) fun s _ _ es =>
    (within s.cgroup.ld 0 15 ∧ within s.cgroup.st 15 15 ∧ within s.cgroup.cp 0 7 ∧ within s.cgroup.tl 7 7) ∧ es = [.sync, .acquire true] :=
  meets_each _ (s := at100) rfl (by decide) (by decide) ⟨⟨.inr (by decide), .inl rfl, .inr (by decide), .inl rfl⟩, rfl⟩ ⟨by decide, by decide⟩
theorem witness_CacheAndMapWords : MeetsEach (.cwb false (.n 4) (.n 8)) fun _ _ v es =>
    arg v 1 ≠ 0 ∧ arg v 1 ≤ 2 ^ 28 ∧ es = [.cwb (BitVec.ofNat 64 (arg v 0)) (arg v 1)] :=
  meets_each _ (s := live (regs [(4, 0x100), (8, 2 ^ 28)])) rfl (by decide) (by decide) ⟨by decide, by decide, rfl⟩ ⟨by decide, by decide⟩
theorem witness_tlbi : MeetsEach (.tlbi false (.n 4) (.n 8)) fun _ _ v es => arg v 1 < 2 ^ 18 ∧ es = [.tlbi (BitVec.ofNat 64 (arg v 0)) (BitVec.ofNat 32 (arg v 1))] :=
  meets_each _ (s := handling.updLane 0 0 0 (regs [(8, 2 ^ 18 - 1)])) rfl (by decide) (by decide) ⟨by decide, rfl⟩ ⟨by decide, by decide⟩
/-- A map of the last chunk of the region. -/
def mapped : State := (live (regs [(4, 0x1000), (6, 0x1F000 + 2 ^ 24), (8, 0x1F000)]))
theorem witness_smap : MeetsOnce (.smap false (.n 4) (.n 6)) fun s _ _ v es =>
    let t := s.cteam
    let sofs := arg v 1 % 2 ^ 19
    let n := arg v 1 / 2 ^ 24 % 2 ^ 8
    arg v 0 % 4096 = 0 ∧ sofs % 4096 = 0 ∧ arg v 1 / 2 ^ 20 % 2 ^ 4 = 0 ∧ n ≠ 0 ∧ n ≤ 128 ∧ sofs + 4096 * n ≤ t.scrLen ∧ t.maps.length < 8 ∧
      (∀ p ∈ t.maps, p.2.sofs + 4096 * p.2.nchk ≤ sofs ∨ sofs + 4096 * n ≤ p.2.sofs) ∧
      es = [.smap (BitVec.ofNat 64 (arg v 0)) (BitVec.ofNat 32 (arg v 1))] :=
  meets_once _ (s := mapped) rfl (by decide) (by decide) ⟨by decide, by decide, by decide, by decide, by decide, by decide, by decide, by decide, rfl⟩
    ⟨by decide, by decide⟩
def withMap : State := mapped.setTeam 0 { mapped.team 0 with maps := [(0, { va := 0x1000, sofs := 0x1F000, nchk := 1 })] }
theorem witness_sunmap : MeetsOnce (.sunmap false (.n 8)) fun s _ _ v es => ∃ ks,
    ks = (s.cteam.maps.filter fun p => p.2.sofs == arg v 0 % 2 ^ 19).map (·.1) ∧ ks ≠ [] ∧ arg v 0 / 2 ^ 19 % 2 ^ 13 = 0 ∧
      s.flushFault (s.chain.core, s.chain.grp) s.cgroup.team ks = none ∧ es = [.sflush ks true] :=
  meets_once _ (s := withMap) rfl (by decide) (by decide) ⟨[0], by decide, by decide, by decide, by decide, rfl⟩ ⟨by decide, by decide⟩
/-- A map with one dirty sector that a write-back may write, and a lane at a barrier of a team of one group. -/
def dirtyMap : State := withMap.setTeam 0 { withMap.team 0 with maps := [(0, { va := 0x1000, sofs := 0x1F000, nchk := 1, dirtyData := [0xF80] })] }
theorem witness_write_back : (dirtyMap.team 0).dirtyOf [0] = [(0, 0xF80)] ∧ dirtyMap.wbFault (0, 0) 0 ((dirtyMap.team 0).dirtyVa (0, 0xF80)) = none ∧
    (withMap.team 0).dirtyOf [0] = [] := by decide +kernel
def atBar : State := live fun x => { x with mode := .stalled .bar }
theorem witness_barrier : (atBar.team 0).cluster = none ∧ (0, 0) ∈ (atBar.groupsOf 0).filter (fun p => !(atBar.group p.1 p.2).ended) ∧
    (atBar.lane 0 0 0).mode = .stalled .bar ∧ (∀ y ∈ (atBar.group 0 0).lanes, y.2.mode = .exited ∨ y.2.mode = .stalled .bar) ∧
    ((live id).group 0 0).lanes.any (fun y => y.2.mode == .ready) = true := by decide +kernel

/-! ### Witnesses: engines, work, windows -/
/-- Lane 0 with a descriptor of `n` bytes in scratch, or in memory at the page of address 0. -/
def scrDesc (s : State) (a n v : Nat) : State := s.scrWrite none 0 a (toBytesLE n v) false
def memDesc (s : State) (a n v : Nat) : State := { s with mem := s.mem.writeKey 0 (0x40000 + a) (toBytesLE n v) false }
section
variable {s : State} {i : Instr} {f : Form} {α : Type} {e : State → List Nat → α → List Eff}
/-- A plan that passes in lane 0 is what each word with a plan asks. -/
def passes (x : Except LaneOut α) : Bool := match x with | .ok _ => true | .error _ => false
theorem plan_ok {x : Except LaneOut α} {r : α → List Eff} (h : passes x = true) : ∃ v, x = .ok v ∧ planned x r = r v := plan_of h
theorem meets_plan_each {plan : State → Nat → List Nat → Except LaneOut α} (h : i.form = some f) (hs : stands s i f = true) (hh : heldOk s f = true)
    (hp : passes (plan s 0 (operands s f)) = true) (hr : Room s i f fun _ => planned (plan s 0 (operands s f)) (e s (operands s f))) :
    MeetsEach i fun s l v es => ∃ x, plan s l v = .ok x ∧ es = e s v x := meets_each _ h hs hh (plan_ok hp) hr
theorem meets_plan {plan : State → Nat → List Nat → Except LaneOut α} (h : i.form = some f) (hs : stands s i f = true) (hh : heldOk s f = true)
    (hp : passes (plan s 0 (operands s f)) = true) (hr : Room s i f fun k => if k = 0 then planned (plan s 0 (operands s f)) (e s (operands s f)) else []) :
    MeetsOnce i fun s _ l v es => ∃ x, plan s l v = .ok x ∧ es = e s v x := meets_once _ h hs hh (plan_ok hp) hr
theorem meets_issue {plan : State → Nat → List Nat → Except LaneOut TlOp} {reads : State → List Nat → TlOp → List Eff} (h : i.form = some f) (hs : stands s i f = true) (hh : heldOk s f = true)
    (hp : passes (plan s 0 (operands s f)) = true) (ht : s.cgroup.tlOps.length < 7)
    (hr : Room s i f fun k => if k = 0 then planned (plan s 0 (operands s f)) (fun x => reads s (operands s f) x ++ [.tend x]) else []) :
    MeetsOnce i (issues plan reads) :=
  meets_once _ h hs hh (let ⟨x, hx, he⟩ := plan_ok hp; ⟨x, hx, ht, he⟩) hr
end
theorem witness_TenderWords : MeetsEach (.cpy false (.n 4) (.n 8) 2) fun s _ v es =>
    ∃ x, s.planCpy s.chain.core s.chain.grp (4 * 2 ^ (2 : BitVec 2).toNat) (arg v 0) (arg v 1) = .ok x ∧ es = [.object (.dev x.src x.key (BitVec.ofNat 64 (arg v 1)) 0) 0 false, .cpy x] :=
  meets_plan_each (plan := fun s _ v => s.planCpy s.chain.core s.chain.grp (4 * 2 ^ (2 : BitVec 2).toNat) (arg v 0) (arg v 1))
    (e := fun _ v x => [.object (.dev x.src x.key (BitVec.ofNat 64 (arg v 1)) 0) 0 false, .cpy x])
    (s := live (regs [(4, 0x100), (8, 0x100)])) rfl (by decide +kernel) (by decide +kernel) (by decide +kernel) ⟨by decide +kernel, by decide +kernel⟩
theorem witness_seal : MeetsOnce (.seal false (.n 4) .zero) fun s _ _ v es => arg v 1 < 3 ∧ s.cgroup.batches.length < 7 ∧ ∃ r : Retire,
    (if arg v 1 = 0 then r = {} else ∃ loc, s.cmdOffset s.chain.core s.chain.grp (arg v 0) 16 16 = .ok loc ∧ s.chunksOk s.chain.core s.chain.grp loc.place 16 = .ok () ∧ r = loc.moor (BitVec.ofNat 64 (arg v 0)) (arg v 1) 0) ∧
      es = [.seal r] :=
  meets_once [.seal {}] (s := at100) rfl (by decide +kernel) (by decide +kernel) ⟨by decide +kernel, by decide +kernel, {}, by rw [if_pos (by decide +kernel)], rfl⟩ ⟨by decide +kernel, by decide +kernel⟩
/-- A window of 1 row and 32 FP32 columns to FP32 in scratch, from the page of address 0. -/
def tileD : Nat := 0x100 + 2 ^ 64 * (7 + 7 * 16 + 5 * 2 ^ 11 + 2 ^ 27 + 2 ^ 40 + 32 * 2 ^ 52) + 0x400 * 2 ^ 128 + 4 * 2 ^ 208
def atTile : State := scrDesc (live (regs [(4, 0x200)])) 0x200 32 tileD
theorem witness_tile : MeetsOnce (.tile false (.n 4) (.n 8)) (issues (fun s l v => s.planTile s.chain.core s.chain.grp (s.clane l).rnd (arg v 0) (arg v 1)) fun s v _ => readsScr s (arg v 0) 32) :=
  meets_issue (s := atTile) rfl (by decide +kernel) (by decide +kernel) (by decide +kernel) (by decide +kernel) ⟨by decide +kernel, by decide +kernel⟩
def atGath : State := scrDesc (live (regs [(4, 0x200)])) 0x200 32 (32 * 2 ^ 64 + 2 ^ 96 + 0x300 * 2 ^ 128 + 0x400 * 2 ^ 160 + 2 ^ 224 + 2 ^ 232)
theorem witness_gath : MeetsOnce (.gath false (.n 4)) (issues (fun s _ v => s.planGath s.chain.core s.chain.grp (arg v 0)) fun s v x =>
    readsScr s (arg v 0) 32 ++ readsScr s (ofBytesLE x.desc / 2 ^ 128 % 2 ^ 32) (4 * (ofBytesLE x.desc / 2 ^ 232 % 2 ^ 6))) :=
  meets_issue (s := atGath) rfl (by decide +kernel) (by decide +kernel) (by decide +kernel) (by decide +kernel) ⟨by decide +kernel, by decide +kernel⟩
/-- Two members of a cluster of two by one, on cores 0 and 1; a relay of one sector to member 1. -/
def atRelay : State :=
  let s := scrDesc (live (regs [(4, 0x200), (8, 0x400), (9, 0x600)])) 0x200 16 (0x300 + 2 ^ 32 + 2 ^ 48 + 2 ^ 56)
  let s := s.setTeam 0 { s.team 0 with cluster := some 0, member := 0 }
  let s := s.setTeam 1 { s.team 0 with core := 1, member := 1, idx := 1 }
  { s with lantern := { s.lantern with grids := Tbl.put s.lantern.grids 0 { s.grid 0 with clw := 2, nteam := 2 } } }
theorem witness_relay : MeetsOnce (.relay false (.n 4) (.n 8)) (issues (fun s _ v => s.planRelay s.chain.core s.chain.grp (arg v 0) (arg v 1)) fun s v _ => readsScr s (arg v 0) 16) :=
  meets_issue (s := atRelay) rfl (by decide +kernel) (by decide +kernel) (by decide +kernel) (by decide +kernel) ⟨by decide +kernel, by decide +kernel⟩
/-- A log descriptor at 0x100; its ring stands in a page of aperture 1 at 0x10000. -/
def ringPage (s : State) : State :=
  { s.setCore 0 { s.core 0 with vm := 1 } with mem := s.mem.writeKey 0 0x20008 (toBytesLE 8 (0x6F + 2 ^ 8)) false }
def logD : Nat := 0x10000 + 2 * 2 ^ 64 + 0x10000 * 2 ^ 128 + 4 * 2 ^ 192
def atLog : State := ringPage (memDesc (reserving (regs [(4, 0x100), (9, 3)])) 0x100 64 logD)
theorem witness_glapp : MeetsOnce (.glapp false (.n 4) (.n 8)) fun s _ _ v es =>
    ∃ x, s.planGlapp s.chain.core s.chain.grp (arg v 0) (arg v 1) = .ok x ∧
      es = readsLog s x.log x.logKey (arg v 0) ++ [.object (.dev x.log x.logKey (BitVec.ofNat 64 (arg v 0)) 0) 0 true, .glapp x] :=
  meets_plan (plan := fun s _ v => s.planGlapp s.chain.core s.chain.grp (arg v 0) (arg v 1))
    (e := fun s v x => readsLog s x.log x.logKey (arg v 0) ++ [.object (.dev x.log x.logKey (BitVec.ofNat 64 (arg v 0)) 0) 0 true, .glapp x]) (s := atLog) rfl (by decide +kernel) (by decide +kernel) (by decide +kernel) ⟨by decide +kernel, by decide +kernel⟩
theorem witness_glfold : MeetsOnce (.glfold false (.n 4) (.n 8)) fun s _ _ v es =>
    ∃ x, s.planGlfold s.chain.core s.chain.grp (arg v 0) (arg v 1) = .ok x ∧ es = readsLog s x.log x.key (arg v 0) ++ [.glfold x] :=
  meets_plan (plan := fun s _ v => s.planGlfold s.chain.core s.chain.grp (arg v 0) (arg v 1))
    (e := fun s v x => readsLog s x.log x.key (arg v 0) ++ [.glfold x]) (s := atLog) rfl (by decide +kernel) (by decide +kernel) (by decide +kernel) ⟨by decide +kernel, by decide +kernel⟩
/-- A free engine, and one that the group already holds. -/
theorem witness_MatrixWords : (∃ f vs es, Ready (live id) (.mrsv false ⟨1, 0⟩) f vs ∧
    (∀ l ∈ executing (live id) (.mrsv false ⟨1, 0⟩), es l = [.pred 1 ((live id).mayReserve 0 0), .mrsv]) ∧ Room (live id) (.mrsv false ⟨1, 0⟩) f es) :=
  ⟨_, _, fun _ => [.pred 1 ((live id).mayReserve 0 0), .mrsv], ready_of (s := live id) rfl (by decide +kernel), fun _ _ => rfl, ⟨by decide +kernel, by decide +kernel⟩⟩
theorem witness_mrel : MeetsOnce (.mrel false) fun s _ _ _ es => s.holds s.chain.core s.chain.grp = true ∧
    (s.engine s.chain.core (s.partOf s.chain.core s.chain.grp)).ops = [] ∧ es = [.mrel] :=
  meets_once _ (s := reserving id) rfl (by decide +kernel) (by decide +kernel) ⟨by decide +kernel, by decide +kernel, rfl⟩ ⟨by decide +kernel, by decide +kernel⟩
/-- A convening of the group alone. -/
theorem witness_mcvn : MeetsOnce (.mcvn false (.n 6)) fun s _ _ v es =>
    let e := s.engine s.chain.core (s.partOf s.chain.core s.chain.grp)
    let slots := s.cteam.slots
    s.cgroup.atJoint = none ∧ s.holds s.chain.core s.chain.grp = true ∧
    popCount 32 (arg v 0) ∈ [1, 2, 4] ∧ (arg v 0).testBit s.cgroup.idx = true ∧
    (∀ i, i < 32 → (arg v 0).testBit i = true → i < slots.length) ∧
    ((s.core s.chain.core).partitioned = true → ∀ i k, slots[i]? = some k → (arg v 0).testBit i = true → k / 8 = s.chain.grp / 8) ∧
    (∀ p ∈ e.proposals, p.1 ≠ s.cgroup.idx → p.2.getLsbD s.cgroup.idx = true → p.2.toNat = arg v 0) ∧
    (∀ i, i < 32 → (arg v 0).testBit i = true → i = s.cgroup.idx ∨ Tbl.find e.proposals i = some (BitVec.ofNat 32 (arg v 0))) ∧
    es = [.mcvn (BitVec.ofNat 32 (arg v 0))] :=
  meets_once _ (s := reserving (regs [(6, 1)])) rfl (by decide +kernel) (by decide +kernel)
    ⟨by decide +kernel, by decide +kernel, by decide +kernel, by decide +kernel, by decide +kernel, (fun h => absurd h (by decide +kernel)), by decide +kernel,
      by decide +kernel, rfl⟩ ⟨by decide +kernel, by decide +kernel⟩
/-- The group waits at a joint word that its engine has accepted. -/
def joint (idx : Nat) : AtJoint := { idx := idx, modi := 0, a := 0, b := 0, rnd := 0, lanes := 1, accepted := true }
def passing (idx : Nat) : State := (reserving id).updGroup 0 0 fun g => { g with atJoint := some (joint idx) }
theorem witness_mma : MeetsOnce (.mma false (.n 4)) (acceptedJoint 3) :=
  meets_once _ (s := passing 3) rfl (by decide +kernel) (by decide +kernel) ⟨⟨joint 3, by decide +kernel, by decide +kernel, by decide +kernel, fun _ h => h⟩, rfl⟩ ⟨by decide +kernel, by decide +kernel⟩
theorem witness_mcvn_accepted : MeetsOnce (.mcvn false (.n 4)) (acceptedJoint 2) :=
  meets_once _ (s := passing 2) rfl (by decide +kernel) (by decide +kernel) ⟨⟨joint 2, by decide +kernel, by decide +kernel, by decide +kernel, fun _ h => h⟩, rfl⟩ ⟨by decide +kernel, by decide +kernel⟩
theorem witness_mdrain : MeetsOnce (.mdrain false (.n 4) (.n 8) .f32) (acceptedJoint 6) :=
  meets_once _ (s := passing 6) rfl (by decide +kernel) (by decide +kernel) ⟨⟨joint 6, by decide +kernel, by decide +kernel, by decide +kernel, fun _ h => h⟩, rfl⟩ ⟨by decide +kernel, by decide +kernel⟩
/-- A table at the end of the team's region. -/
theorem witness_mcfg : MeetsOnce (.mcfg false (.n 4) (.n 8)) fun s _ _ v es => s.holds s.chain.core s.chain.grp = true ∧
    ∃ place : Nat × Nat, ((arg v 0 = 0 ∧ arg v 1 ≤ 1 ∧ place = (0, 0)) ∨ (arg v 0 = 2 ∧ arg v 1 = 0 ∧ place = (0, 0)) ∨
      (arg v 0 = 1 ∧ ∃ loc, s.cmdOffset s.chain.core s.chain.grp (arg v 1) 32 512 = .ok loc ∧ s.chunksOk s.chain.core s.chain.grp loc.place 512 = .ok () ∧
        place = loc.place)) ∧
    es = [.mcfg { idx := 8, a := BitVec.ofNat 32 (arg v 0), b := BitVec.ofNat 64 (arg v 1), groups := [s.chain.grp], ctx := s.cctx, place := place }] :=
  meets_once _ (s := reserving (regs [(4, 1), (8, 0x1FE00)])) rfl (by decide +kernel) (by decide +kernel)
    ⟨by decide +kernel, (0, 0x1FE00), .inr (.inr ⟨by decide +kernel, .scr 0 0x1FE00, ok_of (by decide +kernel), ok_of (by decide +kernel), by decide +kernel⟩), rfl⟩ ⟨by decide +kernel, by decide +kernel⟩
/-- A return from a handler, and a request on a record. -/
theorem witness_WorkAndModelWords : MeetsInTurn (.kreq false .drop .zero (.n 6)) fun s l v es =>
    let r (x : Dst) : KReq := ⟨s.cgroup.team, s.cgroup.idx, l, x, BitVec.ofNat 64 (arg v 0), arg v 1, 0, 0⟩
    (arg v 1 = 15 ∧ arg v 0 = 0 ∧ (s.clane l).h = true ∧ es = [.sync, .acquire true, .kreq (r .drop)]) ∨
    (arg v 1 < 7 ∧ arg v 0 % 64 = 0 ∧ (∃ loc, translated s .load (arg v 0) loc) ∧ es = [.sync, .acquire true, .kreq (r .drop)]) :=
  meets_in_turn _ (s := live fun x => regs [(6, 15)] { x with h := true }) rfl (by decide +kernel) (by decide +kernel)
    (.inl ⟨by decide +kernel, by decide +kernel, by decide +kernel, rfl⟩) ⟨by decide +kernel, by decide +kernel⟩
theorem witness_kreq : MeetsInTurn (.kreq false (.n 2) (.n 4) (.n 6)) fun s l v es =>
    let r (x : Dst) : KReq := ⟨s.cgroup.team, s.cgroup.idx, l, x, BitVec.ofNat 64 (arg v 0), arg v 1, 0, 0⟩
    (arg v 1 = 15 ∧ arg v 0 = 0 ∧ (s.clane l).h = true ∧ es = [.sync, .acquire true, .kreq (r .drop)]) ∨
    (arg v 1 < 7 ∧ arg v 0 % 64 = 0 ∧ (∃ loc, translated s .load (arg v 0) loc) ∧ es = [.sync, .acquire true, .kreq (r (.n 2))]) :=
  meets_in_turn _ (s := live (regs [(4, 0x100), (6, 6)])) rfl (by decide +kernel) (by decide +kernel)
    (.inr ⟨by decide +kernel, by decide +kernel, ⟨loc100, 0x40100, 0, 0, 0, 0x800006F, false, 0x20000, by decide +kernel, rfl⟩, rfl⟩) ⟨by decide +kernel, by decide +kernel⟩
/-- A join record at 0x100. -/
theorem witness_jdec : MeetsInTurn (.jdec false (.n 4)) fun s _ v es => arg v 0 % 32 = 0 ∧ ∃ pa key va apt, translated s .objRW (arg v 0) (.dev pa key va apt) ∧
    es = [.object (.dev pa key va apt) 0 true, .sync, .acquire true, .jdec ⟨s.chain.core, s.chain.grp, s.cteam.idx, pa + 24, key, BitVec.ofNat 64 (arg v 0), s.cctx, s.chain.grp⟩] :=
  meets_in_turn _ (s := at100) rfl (by decide +kernel) (by decide +kernel)
    ⟨by decide +kernel, 0x40100, 0, 0x100, 0, ⟨0x40100, 0, 0, 0, 0x800006F, false, 0x20000, by decide +kernel, rfl⟩, rfl⟩ ⟨by decide +kernel, by decide +kernel⟩
/-- A legal record of one team of one group, with its context's layer, if any. -/
def recordD : Nat := 2 ^ 217 + 2 ^ 220 + 2 ^ 233
/-- A node at 0x100, with room, whose record stands at 0x200. -/
def nodeD : Nat := 0x200 + 0x1000 * 2 ^ 64 + 0x2000 * 2 ^ 128 + 32 * 2 ^ 208 + 2 ^ 255
def atNode : State :=
  let s := memDesc (memDesc (live (regs [(4, 0x100), (8, 0x300)])) 0x100 64 nodeD) 0x200 32 recordD
  { s with lantern := { s.lantern with nodes := [(0, { addr := 0x100, st := 1 })] } }
theorem witness_emit : MeetsInTurn (.emit false (.n 4) (.n 8)) fun s _ v es => arg v 0 % 64 = 0 ∧
    (∃ n, s.laneGet (arg v 0) 64 = .ok n ∧ n.testBit 255 = true) ∧ ∃ loc reads, translated s .objRW (arg v 0) loc ∧ s.laneNode (arg v 0) = .ok reads ∧
    ∃ k, s.nodeAtPa loc.place.2 = some k ∧ (s.node k).st = 1 ∧ s.nodeRoom k = true ∧
      es = reads ++ [.sync, .acquire true, .emit k (BitVec.ofNat 64 (arg v 1))] :=
  meets_in_turn _ (s := atNode) rfl (by decide +kernel) (by decide +kernel)
    ⟨by decide +kernel, ⟨got (atNode.laneGet 0x100 64), ok_got (by decide +kernel), by decide +kernel⟩,
      loc100, got (atNode.laneNode 0x100), ⟨0x40100, 0, 0, 0, 0x800006F, false, 0x20000, by decide +kernel, rfl⟩, ok_got (by decide +kernel), 0, by decide +kernel, by decide +kernel, by decide +kernel, rfl⟩
    ⟨by decide +kernel, by decide +kernel⟩
def spawnable (s : State) (_ : Nat) (v : List Nat) (es : List Eff) : Prop :=
    arg v 0 % 32 = 0 ∧ arg v 1 % 16 = 0 ∧
    s.workTable < 4096 ∧ ∃ loc r reads, translated s .objRW (arg v 0) loc ∧ s.laneGet (arg v 0) 32 = .ok r ∧
    (ofBytesLE (s.locRead (loc.plus 24) 8).1).testBit 62 = false ∧ (r.testBit 255 = true → ofBytesLE (s.locRead (loc.plus 44) 4).1 % 4 = 0) ∧
    (if r.testBit 255 then arg v 0 % 64 = 0 ∧ arg v 1 = 0 ∧ s.laneNode (arg v 0) = .ok reads
    else arg v 1 ≠ 0 ∧ recLegal r = true ∧ s.laneInputs r = .ok () ∧
      reads = s.laneReads (arg v 0) 32 ++ [.object (s.laneLoc (arg v 0)) 0 true] ++ s.listReads r) ∧
    es = reads ++ [.sync, .acquire true, .spawn (BitVec.ofNat 64 (arg v 0)) (BitVec.ofNat 64 (arg v 1)) loc.place.2]
def spawning : State := memDesc (live (regs [(4, 0x100), (8, 0x300)])) 0x100 32 recordD
theorem witness_spawn : MeetsEach (.spawn false (.n 4) (.n 8)) spawnable :=
  meets_each _ (s := spawning) rfl (by decide +kernel) (by decide +kernel)
    ⟨by decide +kernel, by decide +kernel, by decide +kernel,
      loc100, recordD, spawning.laneReads 0x100 32 ++ [.object (spawning.laneLoc 0x100) 0 true] ++ spawning.listReads recordD,
      ⟨0x40100, 0, 0, 0, 0x800006F, false, 0x20000, by decide +kernel, rfl⟩, ok_of (by decide +kernel), by decide +kernel, by decide +kernel,
      by rw [if_neg (by decide +kernel)]; exact ⟨by decide +kernel, by decide +kernel, ok_of (by decide +kernel), rfl⟩, rfl⟩ ⟨by decide +kernel, by decide +kernel⟩
/-- A context of two layers whose topmarks stand from 0x200: layer 1 is resident, layer 0 absent. -/
def layered (f : Lane → Lane) : State :=
  let s := memDesc (live f) 0x200 16 (2 * 2 ^ 64)
  s.setCtx 0 { s.ctx 0 with nlayer := 2, tmbase := 0x200 }
theorem witness_tmpin : MeetsInTurn (.tmpin false (.n 4)) fun s _ v es =>
    layerOk s (arg v 0) ∧ tmPins (s.topmark s.cctx (arg v 0)) ≠ 65535 ∧ es = [.tmPin (arg v 0) true] :=
  meets_in_turn _ (s := layered (regs [(4, 1)])) rfl (by decide +kernel) (by decide +kernel) ⟨⟨by decide +kernel, by decide +kernel⟩, by decide +kernel, rfl⟩ ⟨by decide +kernel, by decide +kernel⟩
theorem witness_tmchk : MeetsEach (.tmchk false ⟨1, 0⟩ (.n 4)) fun s _ v es =>
    layerOk s (arg v 0) ∧ es = .pred 1 (here s (arg v 0)) :: acquired (here s (arg v 0)) :=
  meets_each _ (s := layered id) rfl (by decide +kernel) (by decide +kernel) ⟨⟨by decide +kernel, by decide +kernel⟩, rfl⟩ ⟨by decide +kernel, by decide +kernel⟩
theorem witness_tmwait : MeetsEach (.tmwait false (.n 4)) fun s _ v es => layerOk s (arg v 0) ∧ here s (arg v 0) = true ∧ es = [.sync, .acquire true] :=
  meets_each _ (s := layered (regs [(4, 1)])) rfl (by decide +kernel) (by decide +kernel) ⟨⟨by decide +kernel, by decide +kernel⟩, by decide +kernel, rfl⟩ ⟨by decide +kernel, by decide +kernel⟩
/-- The event count 0 has reached 0. -/
theorem witness_xev : MeetsEach (.xev false (.n 4) .zero) fun s _ v es => ∃ loc, event s (arg v 0) (arg v 1) loc true ∧
    es = [.object loc 0 false, .sync, .acquire true] :=
  meets_each _ (s := at100) rfl (by decide +kernel) (by decide +kernel)
    ⟨loc100, ⟨by decide +kernel, by decide +kernel, by decide +kernel, ⟨0x40100, 0, 0, 0, 0x800006F, false, 0x20000, by decide +kernel, rfl⟩, 0x40100, 0, 0x100, 0, rfl, by decide +kernel⟩, rfl⟩ ⟨by decide +kernel, by decide +kernel⟩
theorem witness_xtest : MeetsEach (.xtest false ⟨1, 0⟩ (.n 4) (.n 8)) fun s _ v es => ∃ loc t, event s (arg v 0) (arg v 1) loc t ∧
    es = .object loc 0 false :: .pred 1 t :: acquired t :=
  meets_each _ (s := live (regs [(4, 0x100), (8, 2), (9, 1)])) rfl (by decide +kernel) (by decide +kernel)
    ⟨loc100, false, ⟨by decide +kernel, by decide +kernel, by decide +kernel, ⟨0x40100, 0, 0, 0, 0x800006F, false, 0x20000, by decide +kernel, rfl⟩, 0x40100, 0, 0x100, 0, rfl, by decide +kernel⟩, rfl⟩
    ⟨by decide +kernel, by decide +kernel⟩
theorem witness_WindowWords : MeetsOnce (.wtag false (.n 4)) fun s _ _ v es => arg v 0 < 4 ∧ (s.cgroup.bslot (arg v 0)).st ≠ 2 ∧ es = [.wtag (arg v 0)] :=
  meets_once _ (s := live (regs [(4, 3)])) rfl (by decide +kernel) (by decide +kernel) ⟨by decide +kernel, by decide +kernel, rfl⟩ ⟨by decide +kernel, by decide +kernel⟩
/-- The operands and the destination of that `wclose`. -/
def closeForm : Form := { pipe := .b, srcs := [(.n 4, .w64), (.zero, .w32)], dst := some (.n 2, .small, .w32, false) }
theorem witness_wclose : ∃ f vs r n es, Ready at100 (.wclose false (.n 2) (.n 4) .zero) f vs ∧ Held at100 f ∧
    executing at100 (.wclose false (.n 2) (.n 4) .zero) = [0] ∧ at100.planWclose (arg (vs 0) 0) (arg (vs 0) 1) = .ok (r, n) ∧
    es 0 = [.wclose (arg (vs 0) 1) r, .result (.n 2) 32 (BitVec.ofNat 128 n) none] ∧ Room at100 (.wclose false (.n 2) (.n 4) .zero) f es :=
  ⟨closeForm, _, loc100.moor 0x100 0 0, 0, fun _ => [.wclose 0 (loc100.moor 0x100 0 0), .result (.n 2) 32 0 none],
    ready_of (s := at100) (i := .wclose false (.n 2) (.n 4) .zero) (f := closeForm) rfl (by decide +kernel), held_of (by decide +kernel),
    by decide +kernel, ok_of (by decide +kernel), by decide +kernel, ⟨by decide +kernel, by decide +kernel⟩⟩
/-- A lane whose `wfence` waits for nothing. -/
theorem witness_wfence : MeetsEach (.wfence false) fun s l _ es =>
    ∃ t, (s.clane l).ticket = some t ∧ s.fenced s.cgroup.team s.cgroup.idx t = true ∧ es = [.sync, .wfenceEnd] :=
  meets_each _ (s := live fun x => { x with ticket := some 5 }) rfl (by decide +kernel) (by decide +kernel) ⟨5, by decide +kernel, by decide +kernel, rfl⟩ ⟨by decide +kernel, by decide +kernel⟩
/-- A reduction of one word at a page of another device, from an operation block at scratch 0x200. -/
def atBeacon : State :=
  let s := live (regs [(4, 0x100), (8, 0x200)])
  { s with mem := s.mem.writeKey 0 0x20000 (toBytesLE 8 (0xEF + 5 * 2 ^ 8 + 2 ^ 49)) false }
def reduces (x : BeaconOp × Nat) : List Eff :=
  atBeacon.blockTouches 0x200 ++ [.object (.dev x.1.addr 0 0x100 5) 0 true, .beacon x.1 x.2 0]
theorem witness_bred : MeetsEach (.bred false (.n 4) (.n 8)) (beacons .bred) :=
  meets_each (planned (atBeacon.planBeacon 0 0 .bred 0x100 0x200) reduces) (s := atBeacon) rfl (by decide +kernel) (by decide +kernel)
    (let ⟨x, h, e⟩ := plan_of (x := atBeacon.planBeacon 0 0 .bred 0x100 0x200) (e := reduces) (by decide +kernel)
     ⟨x.1, x.2, h, by rw [e]; rfl⟩) ⟨by decide +kernel, by decide +kernel⟩

/-! ### Witnesses: chains and memory -/
theorem witness_GuardWord : (Instr.guard ⟨3, false⟩).form = some (formOf (.guard ⟨3, false⟩)) ∧ (live id).chain.active = true ∧
    (live id).wordCheck true (.guard ⟨3, false⟩) (formOf (.guard ⟨3, false⟩)) = none := ⟨rfl, by decide, by decide⟩
/-- A chain in progress, with what its earlier words have taken. -/
def inChain (slot : Nat) (pipes : List Pipe) (writes : List (Nat × Nat)) (pops : List Src) : State :=
  { live id with chain := { (live id).chain with slot := slot, pipes := pipes, writes := writes, pops := pops } }
/-- A word with a further word, the last word, and one that fails step 13. -/
def addn (ch : Bool) (d a : Src) (x : Dst) : Instr := .iadd ch x a d false false false
theorem witness_WordsOfAChain : (live id).chain.active = true ∧ (live id).wordCheck true (addn true (.n 1) (.n 2) (.n 3)) (formOf (addn true (.n 1) (.n 2) (.n 3))) = none ∧
    (live id).wordCheck false (addn false (.n 1) (.n 2) (.n 3)) (formOf (addn false (.n 1) (.n 2) (.n 3))) = none ∧
    (inChain 1 [.i] [] []).wordCheck false (addn false (.n 1) (.n 2) (.n 3)) (formOf (addn false (.n 1) (.n 2) (.n 3))) = some (.illegalChain, 0x30) := by decide
/-- A chain in progress whose word decodes, one whose word does not, an agenda, and an empty one. -/
def wordsIn (ws : List Word) : State := { live id with chain := { (live id).chain with words := ws } }
theorem witness_StepRunsTheDecodedWord : (wordsIn [0x04304200, 0xFFFFFFFF]).chain.active = true ∧
    decodeWord ((wordsIn [0x04304200, 0xFFFFFFFF]).chain.words.getD 0 0).toNat = .ok (addn false (.n 2) (.n 1) (.n 3)) ∧
    decodeWord ((wordsIn [0x04304200, 0xFFFFFFFF]).chain.words.getD 1 0).toNat = .error 0x01 := ⟨by decide, rfl, rfl⟩
theorem witness_agenda : (lane0 0 id).chain.active = false ∧ (lane0 0 id).chain.later = [] ∧ (lane0 0 id).agenda = [.issue 0 0] ∧
    State.reset.agenda = [] ∧ State.reset.chain.active = false ∧ State.reset.chain.later = [] := by decide
theorem witness_DecodeOfEncode : (addn true .lit (.n 31) .push).wf = true ∧ (Instr.movi false (.n 4) 0x1FFFE).wf = true := by decide
/-- A word of three slots at each slot, and a word that fails each check. -/
theorem witness_RejectedWords : let i : Instr := addn false (.n 1) (.n 2) (.n 3)
    let l : Instr := addn false .lit (.n 2) (.n 3)
    let f := formOf i
    (i.form = some f ∧ l.form = some (formOf l) ∧ (live id).chain.active = true ∧ lanesOf (live id).chain.lanes ≠ [] ∧ (live id).cgroup.spec = none ∧
      (live id).chain.outs = [] ∧ ((live id).ctx (live id).cctx).tvec ≠ 0 ∧ lanesOf (live id).chain.lanes = [0] ∧ ((live id).clane 0).h = false ∧
      ((live id).clane 0).mode ≠ .exited) ∧
    3 < (inChain 2 [] [] []).chain.slot + 1 + (formOf l).lits ∧ (inChain 2 [] [] []).chain.slot + 1 + f.lits = 3 ∧
    isPrivileged (.rfe false) = true ∧ ((live id).ctx (live id).cctx).priv = false ∧ (handling.ctx handling.cctx).priv = true ∧
    f.pipe ∈ (inChain 1 [.i] [] []).chain.pipes ∧ f.pipe ∉ (inChain 1 [.f] [(3, 2)] []).chain.pipes ∧
    namedBy f = some (3, 1) ∧ (3, 2) ∈ (inChain 1 [.f] [(3, 2)] []).chain.writes ∧ ¬(3 + 1 ≤ 3 ∨ 3 + 2 ≤ 3) ∧
    (.mqo : Src) ∈ poppedBy (formOf (addn false .mqo (.n 2) (.n 3))) ∧ (.mqo : Src) ∈ (inChain 1 [.f] [] [.mqo]).chain.pops ∧
    isSel (.sel false (.n 2) (.n 4) (.n 6) false) = true ∧ (live id).chain.guard = none := by decide
theorem exists_next {o : Outcome} (h : (match o with | .next _ => true | _ => false) = true) : ∃ t, o = .next t := by
  split at h
  · exact ⟨_, rfl⟩
  · cases h
theorem witness_ResultsInTheQueue : ({} : Lane).queue.length = 16 ∧ (15 : Nat) < 16 := by decide
theorem witness_MemoryBytes : State.reset.mem.wf = true ∧ (lane0 0x04304200 id).mem.wf = true := by decide +kernel
theorem witness_MemoryStaysCanonical : ((lane0 0 id).mem.wf = true ∧ ∀ c, ((lane0 0 id).core c).scr.wf = true) ∧ ∃ t, step (lane0 0 id) = .next t := by
  refine ⟨⟨by decide +kernel, fun c => ?_⟩, exists_next (by decide +kernel)⟩
  cases c with
  | zero => decide
  | succ n => rfl
/-- A load of two lanes is outstanding. -/
def loadTxn : Txn := { id := 5, store := false, fills := [⟨0, 7, 32, false, 0x100⟩] }
def loading : State := (live id).updGroup 0 0 fun g => { g with ld := 1, txns := [loadTxn] }
theorem witness_LoadsReturn : loadTxn ∈ (loading.group 0 0).txns ∧
    (∀ y ∈ (loading.group 0 0).txns, y.id = 5 → y = loadTxn) ∧
    brings loadTxn 0 = [⟨0, 7, 32, false, 0x100⟩] ∧ brings loadTxn 1 = [] := by decide
/-- A lane whose registers 8 to 11 and newest queue entries are reserved. -/
def reservedLane : Lane := { regs := [(8, ⟨0, some 20, false, 0⟩), (11, ⟨0, some 23, false, 0⟩)], queue := ⟨0, some 21, false, 0⟩ :: List.replicate 15 {} }
theorem witness_fills : (reservedLane.reg 8).busy = some (4 * 5 + 0) ∧ (reservedLane.reg 11).busy = some (4 * 5 + 3) ∧
    (reservedLane.age 1).busy = some (4 * 5 + 1) ∧ (∀ b, (reservedLane.reg 9).busy = some b → b / 4 ≠ 5) := by
  refine ⟨by decide, by decide, by decide, fun b h => ?_⟩
  have e : (reservedLane.reg 9).busy = none := by decide
  rw [e] at h; cases h

/-! ### Witnesses: lanes, groups and teams -/
def grp0 (f : Group → Group) : State := (lane0 0 id).updGroup 0 0 f
def fencing (hit : Bool) : Spec :=
  { lanes := 1, scope := .dev, dropsL1 := true, waits := [], ticket := 4, snap := [(0, ⟨0, 0, [], [], 1, 0, 0, .ready, []⟩)], g := [], j := [], quarters := [], hit := hit }
def fenced (hit : Bool) : State := grp0 fun g => { g with spec := some (fencing hit) }
theorem witness_LaneEvents : ((fenced false).group 0 0).spec = some (fencing false) ∧ (fencing false).hit = false ∧ (fenced false).fenceReady 0 0 (fencing false) = true ∧
    ((fenced true).group 0 0).spec = some (fencing true) ∧ (fencing true).hit = true ∧ (Tbl.find ((fenced true).group 0 0).lanes 0).isSome = true ∧
    (Tbl.find (fencing true).snap 0).isSome = true := by decide
/-- A lane that wakes at the time that stands. -/
theorem witness_sleepExpiry : let s := lane0 0 fun x => { x with mode := .sleeping 0 }
    s.hasGroup 0 0 = true ∧ (s.lane 0 0 0).mode = .sleeping 0 ∧ 0 ≤ s.now := by decide
/-- Posted operations on a mooring of two arrivals in scratch: an arrival, an expectation, and a misuse. -/
def posting (kind units : Nat) : State :=
  let s := scrDesc (lane0 0 id) 0x100 16 (Mooring.word ⟨false, false, true, 2, 2, 0⟩)
  { s with posted := [(3, ⟨0, 0, 0, kind, { core := some 0, addr := 0x100, va := 0x100 }, BitVec.ofNat 32 units, 9, 0⟩)] }
theorem first_of {s : State} {k : Nat} {p : Posted} (h : s.posted = [(k, p)]) : firstPosted s k p := by
  unfold firstPosted
  rw [h]
  refine ⟨by simp [Tbl.find], fun q hq hk => ?_⟩
  rw [List.mem_singleton.mp hq] at hk
  exact absurd hk (Nat.lt_irrefl k)
theorem witness_mooringOpAtHome (kind units : Nat) : ∃ p : Posted, firstPosted (posting kind units) 3 p ∧ p.kind = kind := ⟨_, first_of rfl, rfl⟩
def scrMoor : Retire := { core := some 0, addr := 0x100, va := 0x100 }
theorem witness_mooring_kinds : (((posting 1 1).mooring scrMoor).op 1 1).isSome = true ∧ (((posting 2 5).mooring scrMoor).op 2 5).isSome = true ∧
    ((posting 0 0).mooring scrMoor).op 0 0 = none ∧ (posting 1 1).hasGroup 0 0 = true := by decide +kernel
/-- A lane stalled for the last chunk of a map of one chunk. -/
def stalledChunk : State :=
  let s := lane0 0 fun x => { x with mode := .stalled (.chunk 0 2 0) }
  s.setTeam 0 { s.team 0 with scrLen := 0x20000, maps := [(2, { sofs := 0x1F000, nchk := 1, va := 0x1000 })] }
theorem witness_chunkFill : waitsFor stalledChunk 0 2 0 ∧ Tbl.find (stalledChunk.team 0).maps 2 = some { sofs := 0x1F000, nchk := 1, va := 0x1000 } ∧
    (stalledChunk.team 0).st ≠ .suspended ∧
    stalledChunk.rangeFault none (stalledChunk.grid (stalledChunk.team 0).grid).ctx .load 0x1000 4096 = none := by
  refine ⟨⟨(0, stalledChunk.core 0), by decide +kernel, (0, stalledChunk.group 0 0), by decide +kernel, (0, stalledChunk.lane 0 0 0), by decide +kernel, by decide⟩, by decide, by decide, by decide +kernel⟩
theorem witness_scratchWriteback : ((withMap.setTeam 0 { withMap.team 0 with flush := true }).team 0).flush = true ∧
    (∀ p ∈ withMap.keeper.parks, p.2.flush = true → p.2.team ≠ 0) := by decide
/-- A group whose lanes have all exited, and a grid whose only team has ended. -/
def over0 : State := lane0 0 fun x => { x with mode := .exited }
theorem witness_groupEnd : over0.hasGroup 0 0 = true ∧ (over0.group 0 0).ended = false ∧ (over0.group 0 0).ld = 0 ∧ (over0.group 0 0).st = 0 ∧
    ∀ p ∈ (over0.group 0 0).lanes, p.2.mode = .exited := by decide
def ended0 : State :=
  let s := State.reset
  { s with lantern := { s.lantern with grids := [(0, { placed := 1, st := .running })], teams := [(0, { st := .ended })] } }
theorem witness_gridRetirement : (Tbl.find ended0.settleAll.lantern.grids 0).isSome = true ∧ ended0.settleAll.gridIdle 0 = true ∧
    (∀ p ∈ ended0.settleAll.lantern.grids, p.2.node = none ∧ p.2.collInst = none ∧ p.2.coll = none ∧ p.2.parent ≠ some 0) ∧
    ∀ p ∈ ended0.settleAll.lantern.nodes, p.2.parent ≠ 0 := by decide +kernel
theorem witness_preemption : ((lane0 0 id).team 0).st = .resident ∧ (lane0 0 id).gangOf 0 = [0] ∧
    (((lane0 0 id).setTeam 0 { (lane0 0 id).team 0 with st := .halted }).team 0).st = .halted ∧
    ((lane0 0 id).setTeam 0 { (lane0 0 id).team 0 with st := .halted }).gangOf 0 = [0] := by decide
def illegal : State := wordsIn [0xFFFFFFFF, 0, 0]
theorem witness_illegalOp : illegal.chain.active = true ∧ lanesOf illegal.chain.lanes = [0] ∧ illegal.chain.outs = [] ∧ illegal.cgroup.spec = none ∧
    (illegal.ctx illegal.cctx).tvec ≠ 0 ∧ (illegal.clane 0).h = false ∧ (illegal.clane 0).mode ≠ .exited ∧
    illegal.nextWord = .error 0x01 ∧ causeOf 0x01 = .illegalOp :=
  ⟨by decide, by decide, by decide, by decide, by decide, by decide, by decide, rfl, rfl⟩
theorem witness_packetFetch : (lane0 0 id).chain.active = false ∧ (lane0 0 id).issues 0 0 = true ∧ ((lane0 0 id).group 0 0).fetchers 1 = [0] ∧
    (lane0 0 id).fetchCheck 0 ((lane0 0 id).ctxOf 0 0) 0 = none := by decide +kernel
/-- A lane that holds the packet at its position, and executes its copy. -/
def buffered : State := lane0 0 fun x => { x with loop := [(0, [0x04304200, 0, 0])] }
theorem witness_copies : buffered.chain.active = false ∧ buffered.issues 0 0 = true ∧ (buffered.group 0 0).fetchers 1 = [0] ∧
    (buffered.lane 0 0 0).served = some [0x04304200, 0, 0] ∧ ((lane0 0 id).lane 0 0 0).served = none := by decide +kernel
/-- Posted decrements of counts of 0, 1 and 2. -/
def counting (n : Nat) : State :=
  let s := memDesc (lane0 0 id) 0x118 8 (n + 2 ^ 62)
  { s with lantern := { s.lantern with jdecs := [⟨0, 0, 0, 0x40118, 0, 0x100, 0, 0⟩] } }
theorem witness_jdecAtHome : (counting 1).lantern.jdecs[0]? = some ⟨0, 0, 0, 0x40118, 0, 0x100, 0, 0⟩ ∧
    ofBytesLE ((counting 0).devRead 0 0x40118 8).1 % 65536 = 0 ∧ ofBytesLE ((counting 1).devRead 0 0x40118 8).1 % 65536 = 1 ∧
    1 < ofBytesLE ((counting 2).devRead 0 0x40118 8).1 % 65536 := by decide +kernel

/-! ### Witnesses: the Keeper -/
/-- Lane 0, in a privileged context, is parked on a page-class fault of the page of address 0; its record, if any, is number 7 at 0x100. -/
def parkRec (c : Cause) (r : Option Nat) : ParkRec := { ctx := 0, team := 0, gi := 0, rec_ := r, lanes := 1, cause := c, va := 0x100 }
def parked (c : Cause) (r : Option Nat) : State :=
  let s := lane0 0 fun x => { x with mode := .parked (.fault c 0x100 r) }
  let s := s.setCtx 0 { s.ctx 0 with priv := true }
  { s with keeper := { s.keeper with parks := [(2, parkRec c r)] } }
theorem witness_KeeperEvents : undecided (parked .pagePermission none) 2 (parkRec .pagePermission none) ∧
    undecided (parked .layerWithdrawn none) 2 (parkRec .layerWithdrawn none) := ⟨⟨by decide, by decide, by decide⟩, ⟨by decide, by decide, by decide⟩⟩
theorem witness_policy : (parked .pagePermission none).memberAt 0 0 = some (0, 0) ∧
    0 ∈ (parked .pagePermission none).parkedLanes (parkRec .pagePermission none) ∧
    (match (parked .pagePermission none).walk 0 0x100 with | .leaf .. => true | _ => false) = true ∧
    (match (parked .pagePermission none).migratePage 0 0 0x100 0 with | .ok _ => true | .error _ => false) = true ∧
    (parked .pagePermission none).judgeLeaf 0 0x100 (plainLeaf 0x6F) = 0 ∧ (parked .pagePermission none).canInstall 0 0x100 false = true := by
  decide +kernel
/-- A request of a service on that record; the REPLY stands at 0x120. -/
def record7 (park done : Bool) : FSlot := { id := 7, r := { cause := .pagePermission, park := park }, slot := some 0, va := 0x100, done := done }
def serving (svc reply : Nat) (park done : Bool) : State :=
  let s := memDesc (parked .pagePermission (some 7)) 0x120 16 reply
  let s := s.setCtx 0 { s.ctx 0 with pending := [record7 park done] }
  let s := s.updLane 0 0 1 fun x => { x with mode := .stalled .kreq }
  { s with keeper := { s.keeper with kreqs := [(4, ⟨0, 0, 1, .drop, 0x100, svc, 0, 0⟩)] } }
theorem serving_waits : ∀ svc ∈ [0, 1, 2, 3, 4, 5, 6], (serving svc 0 true false).parkedLanes (parkRec .pagePermission (some 7)) ≠ [] := by decide +kernel
theorem witness_services : ∀ svc ∈ [0, 1, 2, 3, 4, 5, 6], serves (serving svc 0 true false) 4 svc 0 (record7 true false) 2 (parkRec .pagePermission (some 7)) :=
  fun svc h => ⟨⟨0, 0, 1, .drop, 0x100, svc, 0, 0⟩, rfl, rfl, rfl, rfl, rfl, rfl, rfl, rfl, serving_waits svc h⟩
/-- REPLY: a leaf, the kinds of MIGRATE. -/
theorem witness_replies : (serving 1 0x6F true false).judgeLeaf 0 0x100 (plainLeaf (reply (serving 1 0x6F true false) 0 (record7 true false) % 2 ^ 64)) = 0 ∧
    (serving 1 0 true false).judgeLeaf 0 0x100 (plainLeaf (reply (serving 1 0 true false) 0 (record7 true false) % 2 ^ 64)) ≠ 0 ∧
    reply (serving 3 1 true false) 0 (record7 true false) < 2 ∧ ¬reply (serving 3 2 true false) 0 (record7 true false) < 2 := by decide +kernel
theorem witness_refusals : (serving 0 0 true false).recordAt 0 0x140 = none ∧ (serving 0 0 false false).recordAt 0 0x100 = some (record7 false false) ∧
    (serving 0 0 true true).recordAt 0 0x100 = some (record7 true true) ∧ (serving 0 0 true false).memberAt 0 0 = some (0, 0) ∧
    (Tbl.find ((serving 0 0 true false).group 0 0).lanes 1).isSome = true ∧ ((serving 15 0 true false).lane 0 0 1).mode = .stalled .kreq := by decide
/-- A record without PARK, in a context without a fault queue. -/
theorem witness_faultRecordDelivery : let s := (lane0 0 id).setCtx 0 { (lane0 0 id).ctx 0 with pending := [{ id := 7, r := { cause := .pagePermission } }] }
    (s.ctx 0).nextPending = some { id := 7, r := { cause := .pagePermission } } ∧ s.fqOpen 0 = false := by decide
/-- A record for an open fault queue whose node has room. -/
def queueing : State :=
  let s := (lane0 0 id).setCtx 0 { (lane0 0 id).ctx 0 with pending := [{ id := 7, r := { cause := .pagePermission } }], nfq := 4, fqring := 0x200, fqnode := 0x100 }
  { s with lantern := { s.lantern with nodes := [(3, { addr := 0x100, st := 1 })] } }
theorem witness_fault_queue : (queueing.ctx 0).nextPending = some { id := 7, r := { cause := .pagePermission } } ∧ queueing.fqOpen 0 = true ∧
    queueing.nodeAt 0 0x100 = some 3 ∧ queueing.nodeRoom 3 = true ∧ queueing.vok 0 .store 0x200 64 = true ∧
    ∀ y ∈ (queueing.ctx 0).pending, y.slot = some 0 → queueing.slotHeld 0 y = false := by decide +kernel
/-- Layer 0 of two is arriving from another device; layer 1 is resident. -/
def arrivingS : State :=
  let s := memDesc (lane0 0 id) 0x200 16 (1 + 2 * 2 ^ 64)
  s.setCtx 0 { s.ctx 0 with nlayer := 2, tmbase := 0x200, sources := [(0, { layer := 0, pages := [(0, false)], rd := true, wr := false, ex := false, key := 0, pin := false, peer := some 5 })], wanted := [0], layerFrames := [(1, [9])], gate := [] }
theorem witness_layers : arriving arrivingS 0 0 ∧ ((arrivingS.ctx 0).source 0).peer.isSome = true :=
  ⟨⟨by decide, by decide, by decide⟩, by decide⟩
theorem witness_layerEviction : arrivingS.victim 0 = some (0, 1) ∧ ((arrivingS.keeper.ctxs.map fun p => p.2.wanted) = [[0]]) := by decide +kernel
/-- Lane 0 waits for layer 0. -/
theorem witness_awaits : awaits (lane0 0 fun x => { x with mode := .parked (.layer 0 0) }) 0 0 :=
  ⟨(0, (lane0 0 fun x => { x with mode := .parked (.layer 0 0) }).core 0), by decide +kernel, (0, (lane0 0 fun x => { x with mode := .parked (.layer 0 0) }).group 0 0),
    by decide +kernel, (0, (lane0 0 fun x => { x with mode := .parked (.layer 0 0) }).lane 0 0 0), by decide +kernel, .inl (by decide)⟩

/-- In STATE 5 the Keeper's events do nothing. -/
theorem witness_keepers : ({ State.reset with keeper := { State.reset.keeper with status := { st := 5 } } } : State).keeper.status.st = 5 ∧
    keepers (.retry 0) ∧ keepers (.faultRecordDelivery 0) ∧ (serving 0 0 true false).keeper.status.st ≠ 5 :=
  ⟨rfl, .inr (.inr (.inr (.inr (.inr ⟨0, .head _⟩)))), .inr (.inl ⟨0, rfl⟩), by decide⟩
/-- Two requests of one chain of one group: the second waits for the first. -/
theorem witness_reqAhead : let s := { serving 0 0 true false with keeper := { (serving 0 0 true false).keeper with
      kreqs := [(4, ⟨0, 0, 1, .drop, 0x100, 0, 0, 0⟩), (5, ⟨0, 0, 2, .drop, 0x100, 0, 0, 0⟩)] } }
    s.reqAhead 5 ⟨0, 0, 2, .drop, 0x100, 0, 0, 0⟩ = true ∧ s.reqAhead 4 ⟨0, 0, 1, .drop, 0x100, 0, 0, 0⟩ = false := by decide
/-- A core whose slice has no vault memory: MIGRATE to it is refused. -/
theorem witness_migrate_refused : (match (serving 3 1 true false).migratePage 0 0 0x100 1 with | .error n => n == 1 | .ok _ => false) = true := by decide +kernel
/-- Every frame is in use, and an address whose tables are missing. -/
def fullWith (svc : Nat) (used : List Nat) : State :=
  let s := (serving svc 0x6F true false).updLane 0 0 0 fun x => { x with mode := .parked (.fault .pagePermission (2 ^ 60) (some 7)) }
  { s with keeper := { s.keeper with usedFrames := used, parks := [(2, { parkRec .pagePermission (some 7) with va := 2 ^ 60 })] } }
def full (svc : Nat) : State := fullWith svc (List.range hbmFrames)
theorem freeBelow_none {used : List Nat} : ∀ n f, (∀ g, g ≤ f → used.contains g = true) → freeBelow used n f = none
  | 0, _, _ => rfl
  | n + 1, f, h => by
    unfold freeBelow
    rw [if_pos (h f (Nat.le_refl f))]
    by_cases hf : f = 0
    · rw [if_pos hf]
    · rw [if_neg hf]; exact freeBelow_none n (f - 1) fun g hg => h g (Nat.le_trans hg (Nat.sub_le f 1))
theorem takeFrame_none {s : State} (h : ∀ f, f < hbmFrames → s.keeper.usedFrames.contains f = true) : s.takeFrame false = none := by
  have e := freeBelow_none (s.keeper.usedFrames.length + 1) (hbmFrames - 1) fun g hg => h g (Nat.lt_of_le_pred (by decide) hg)
  simp only [State.takeFrame, Bool.false_eq_true, if_false, e, Option.map_none]
theorem full_used (svc : Nat) (used : List Nat) : (fullWith svc used).keeper.usedFrames = used := rfl
theorem no_frame (svc : Nat) : (full svc).takeFrame false = none :=
  takeFrame_none fun f hf => by unfold full; rw [full_used]; exact List.contains_iff_mem.mpr (List.mem_range.mpr hf)
theorem witness_noFrame : (full 1).canInstall 0 (2 ^ 60) false = false ∧ (full 1).parkedLanes { parkRec .pagePermission (some 7) with va := 2 ^ 60 } ≠ [] ∧
    (full 1).judgeLeaf 0 (2 ^ 60) (plainLeaf 0x6F) = 0 := by
  refine ⟨?_, by decide +kernel, by decide +kernel⟩
  have hr : ((full 1).ctx 0).root = 0x8000 := by decide +kernel
  have hx : bitAt ((full 1).phys64 (0x8000 + 8 * bits (2 ^ 60) 63 52)) 0 = false := by decide +kernel
  unfold State.canInstall State.mapTables
  rw [hr]
  unfold State.mapAt
  simp only [show (16 + 12 * 3 + 11 : Nat) = 63 from rfl, show (16 + 12 * 3 : Nat) = 52 from rfl, hx, no_frame]
  rfl

/-! ### Witnesses: tenders and engines -/
def withOp (o : TlOp) : State := grp0 fun g => { g with tlOps := [o], tl := 1 }
theorem witness_not_posted : (withOp { id := 3, kind := .tile }).postedBefore 0 0 0 3 = false ∧ (posting 1 1).postedBefore 0 0 0 10 = true := by decide
theorem witness_TenderEvents : ((grp0 fun g => { g with batches := [{ id := 3 }], cp := 1 }).group 0 0).batches = [{ id := 3 }] ∧
    outstanding (withOp { id := 3, kind := .tile }) 0 0 3 .tile { id := 3, kind := .tile } ∧
    outstanding (withOp { id := 3, kind := .tile, entries := 17 }) 0 0 3 .tile { id := 3, kind := .tile, entries := 17 } ∧
    outstanding (withOp { id := 3, kind := .relay }) 0 0 3 .relay { id := 3, kind := .relay } ∧
    outstanding (withOp { id := 3, kind := .gath }) 0 0 3 .gath { id := 3, kind := .gath } :=
  ⟨by decide, ⟨by decide, rfl⟩, ⟨by decide, rfl⟩, ⟨by decide, rfl⟩, ⟨by decide, rfl⟩⟩
/-- The team holds the engine and its group is convened alone; it waits at a joint word, with headers at the heads of its streams. -/
def headerA : Nat := 7 + 16 * 2 ^ 4 + 8 * 2 ^ 12
def vent (w : Nat) : VEnt := ⟨BitVec.ofNat 32 w :: List.replicate 31 0, List.replicate 4 {}, false, []⟩
def atWord (idx : Nat) : AtJoint := { idx := idx, modi := 0, a := 0, b := 0, rnd := 0, lanes := 1 }
def convening (idx : Nat) (ha hb : Nat) : State :=
  let s := (lane0 0 id).reserve 0 0
  let s := s.setEngine 0 0 { s.engine 0 0 with conv := 1 }
  s.updGroup 0 0 fun g => { g with atJoint := some (atWord idx), mqa := [vent ha], mqb := [vent hb] }
theorem agreed_of (idx ha hb : Nat) (h : idx ≠ 2) (hc : (convening idx ha hb).convened 0 0 = [0]) (hj : ((convening idx ha hb).group 0 0).atJoint = some (atWord idx)) :
    agreed (convening idx ha hb) 0 0 (atWord idx) := by
  refine ⟨by rw [hc]; exact List.cons_ne_nil _ _, fun k hk => ?_⟩
  rw [hc] at hk
  rw [List.mem_singleton.mp hk]
  exact ⟨atWord idx, hj, rfl, h, rfl, rfl, rfl, rfl⟩
theorem witness_EngineEvents : agreed (convening 5 0 0) 0 0 (atWord 5) ∧ agreed (convening 6 0 0) 0 0 (atWord 6) ∧ agreed (convening 7 0 0) 0 0 (atWord 7) ∧
    (∀ k ∈ (convening 6 0 0).convened 0 0, ((convening 6 0 0).group 0 k).tl < 7) :=
  ⟨agreed_of 5 0 0 (by decide) (by decide) (by decide), agreed_of 6 0 0 (by decide) (by decide) (by decide), agreed_of 7 0 0 (by decide) (by decide) (by decide), by decide⟩
/-- `mma`, `mcmplx` and `mmd` with the headers of R264 for one group. -/
def header (f rows cols : Nat) : Nat := f + rows * 2 ^ 4 + cols * 2 ^ 12
theorem witness_headers : agreed (convening 3 (header 0 32 64) (header 1 32 64)) 0 0 (atWord 3) ∧
    heads (convening 3 (header 0 32 64) (header 1 32 64)) 0 0 (vent (header 0 32 64)) (vent (header 1 32 64)) ∧
    headerOk 3 1 false false 0 0 1 ((vent (header 0 32 64)).word 0) = true ∧ headerOk 3 1 false true 1 0 1 ((vent (header 1 32 64)).word 0) = true ∧
    headerOk 9 1 false false 0 7 7 ((vent (header 7 16 8)).word 0) = true ∧ headerOk 9 1 false true 1 7 7 ((vent (header 7 16 8)).word 0) = true :=
  ⟨agreed_of 3 _ _ (by decide) (by decide) (by decide), ⟨by decide, by decide⟩, by decide, by decide, by decide, by decide⟩
/-- Without an accepted operation nothing is taken before a joint word is looked at. -/
theorem witness_nothing_taken : (convening 5 0 0).takeEntries 0 0 = convening 5 0 0 ∧ (∀ st, st < 2 → ¬takes (convening 5 0 0) 0 0 st 0) :=
  ⟨by decide +kernel, fun _ _ ⟨_, ho, _⟩ => absurd ho (by have : ((convening 5 0 0).engine 0 0).ops = [] := by decide
                                                          rw [this]; exact List.not_mem_nil)⟩
/-- A group at a joint word whose earlier operation still takes entries. -/
def behind : State :=
  let s := convening 3 0 0
  let s := s.setEngine 0 0 { s.engine 0 0 with ops := [{ idx := 3, groups := [0] }] }
  s.updGroup 0 0 fun g => { g with mqa := [], mqb := [] }
theorem witness_takes : behind.takeEntries 0 0 = behind ∧ behind.convened 0 0 = [0] ∧ takes behind 0 0 0 0 ∧ agreed behind 0 0 (atWord 3) := by
  have hc : behind.convened 0 0 = [0] := by decide
  refine ⟨by decide +kernel, hc, ⟨{ idx := 3, groups := [0] }, by decide, by decide, by decide⟩, by rw [hc]; exact List.cons_ne_nil _ _, fun k hk => ?_⟩
  rw [hc] at hk
  rw [List.mem_singleton.mp hk]
  exact ⟨atWord 3, by decide, rfl, by decide, rfl, rfl, rfl, rfl⟩
/-- The engine's oldest operation. -/
def running0 (o : MxOp) : State := (lane0 0 id).setEngine 0 0 { ops := [o], holder := some 0, conv := 1 }
theorem witness_oldest (o : MxOp) : oldest (running0 o) 0 0 o := ⟨[], rfl⟩
/-- An `mma` with both of its segments, each one header of no data; headers the checks of acceptance have passed. -/
def fed : MxOp := { idx := 3, groups := [0], gotA := [(0, vent (header 0 32 64) :: List.replicate 16 (vent 0))], gotB := [(0, vent (header 1 32 64) :: List.replicate 16 (vent 0))] }
theorem witness_pass : fed.passed = false ∧ 0 < fed.segs ∧ fed.dataDone = true ∧ ((running0 fed).takeEntries 0 0).engine 0 0 = (running0 fed).engine 0 0 := by decide +kernel
theorem witness_groups_share : (3 : Nat) = 3 ∧ (31 : Nat) < 32 ∧ 31 / (32 / [0, 1, 2, 3].length) < [0, 1, 2, 3].length := by decide
/-- The second A segment of an `mmd` under LOAD, whose header fails. -/
def badOp : MxOp := { idx := 4, a := 2 ^ 17, groups := [0], gotA := [(0, vent (header 0 32 32) :: List.replicate 8 (vent 0))] }
def badS : State := (running0 badOp).updGroup 0 0 fun g => { g with mqa := [vent 99] }
theorem witness_matrixHeaderFailure : badS.badHeader 0 0 = some (0, 99) ∧ (badS.engine 0 0).ops[0]? = some badOp := by decide +kernel
/-- A drain of a tile to `mqo`, with room for its first entry, and one that has delivered all. -/
def drain (n : Nat) : MxOp := { idx := 6, groups := [0], sent := [(0, n)] }
theorem witness_mdrainEntryDelivery : (drain 0).groups.zipIdx.find? (fun (k, b) => decide (Tbl.get (drain 0).sent k 0 <
      (((running0 (drain 0)).engine 0 0).drainEntries 0 (drain 0) b).length) && decide (((running0 (drain 0)).group 0 k).mqo.length < 16)) = some (0, 0) ∧
    ((((running0 (drain 0)).engine 0 0).drainEntries ((running0 (drain 0)).gridOf 0 0).seed.toNat (drain 0) 0)[0]?).isSome = true ∧
    Tbl.get (drain 32).sent 0 0 = (((running0 (drain 32)).engine 0 0).drainEntries 0 (drain 32) 0).length := by decide +kernel
/-- A record whose slot is free. -/
def logging : State := memDesc (running0 { idx := 10, log := 0x40100, seq := 0 }) 0x100 64 (0x200 + 2 * 2 ^ 64 + 4 * 2 ^ 192)
theorem witness_glapp_room : (0 + 2 ^ 32 - ldGet (logging.logDesc 0x40100 0)) % 2 ^ 32 < ldNrec (logging.logDesc 0x40100 0) ∧
    logging.engineWait 0 .store (recordVa (logging.logDesc 0x40100 0) 0) 4128 = none := by decide +kernel
/-- The one record of a log, at 0x200, of a worker past the last weight tile; and a fold request with nothing left to fold. -/
def foldable : State :=
  let s := memDesc (memDesc (lane0 0 id) 0x100 64 (0x200 + 2 * 2 ^ 64 + 4 * 2 ^ 192)) 0x200 32 5
  { s with merge := { s.merge with logs := [(0x40100, { key := 0, ctx := 0, va := 0x100, recs := [⟨0, 5, true, 0, 0, 0⟩] })] } }
theorem witness_recordFold : (Tbl.find foldable.merge.logs 0x40100).isSome = true ∧ ldNwt (foldable.logDesc 0x40100 0) ≤
    ofBytesLE (foldable.logRead 0 (recordVa (foldable.logDesc 0x40100 0) 0) 32).1 % 2 ^ 16 ∧
    foldable.engineWait 0 .load (recordVa (foldable.logDesc 0x40100 0) 0) 4128 = none := by decide +kernel
/-- A record of worker 0 whose master row of 192 bytes stands at 0x4000, which one log alone asks for. -/
def folds (row : Nat) (asked : Option Nat) : State :=
  let s := memDesc (memDesc (lane0 0 id) 0x100 64 (0x200 + 2 * 2 ^ 64 + 0x4000 * 2 ^ 128 + 4 * 2 ^ 192)) (0x220) 4 0x3F800000
  { s with merge := { s.merge with logs := [(0x40100, { key := 0, ctx := 0, va := 0x100, recs := [⟨0, 0, true, 0, 0, 0⟩], row := row, asked := asked })] } }
theorem witness_ordinary_fold : let s := folds 0 none
    ofBytesLE (s.logRead 0 (recordVa (s.logDesc 0x40100 0) 0) 32).1 % 2 ^ 16 < ldNwt (s.logDesc 0x40100 0) ∧
    s.engineWait 0 .store (rowVa (s.logDesc 0x40100 0) 0 0) 192 = none ∧
    (Tbl.find s.merge.logs 0x40100).all (fun x => s.lockFirst 0x40100 x ⟨0, 0, true, 0, 0, 0⟩ 0) = true := by decide +kernel
/-- A row asked for at time 0 and granted at time 1 is folded: the row of 0 takes up 1.0 as 2^38 at the exponent that R282 gives it, and the next row is asked for. -/
theorem test_recordFold : (match Sys2Proof.Machine.exec (.recordFold 0x40100) { folds 0 (some 0) with now := 1 } with
    | .next t => (mrowOf (t.logRead 0 0x4000 192).1 == (foldRow (mrowOf (List.replicate 192 0)) (f32.decode 0x3F800000 :: List.replicate 31 (f32.decode 0))).1) &&
        (Tbl.find t.merge.logs 0x40100).any (fun x => x.row == 1)
    | _ => false) = true := by decide +kernel
def theFold : Fold := ⟨0x40100, 0, 0, 0, 1, 0, 0, 0, 0, 0x100, 0, 0⟩
def folding : State :=
  let s := scrDesc (lane0 0 id) 0x100 16 (Mooring.word ⟨false, false, true, 1, 1, 0⟩)
  { s with merge := { s.merge with folds := [(2, theFold)] } }
theorem witness_glfoldRetirement : Tbl.find folding.merge.folds 2 = some theFold ∧ folding.foldReady theFold = true ∧ (folding.team 0).st = .resident ∧
    folding.scrPlace 0 0x100 = (0, 0x100) ∧ ((folding.mooring scrMoor).ret 1 0).isSome = true := by decide +kernel

/-! ### Witnesses: the Lantern -/
/-- Queue 1 of context 0, whose next packet stands at 0x400: its words. -/
def packet (ws : List Nat) : State :=
  let s := ws.zipIdx.foldl (fun s p => memDesc s (0x400 + 8 * p.2) 8 p.1) (lane0 0 id)
  s.setQueue 1 { base := 0x400, nslot := 4, en := true, wptr := 1 }
theorem starts_of {s : State} {q type : Nat} (h : (s.serving && s.startable q && (s.nextQueue == some q) && decide (s.pktCheck q = .go) && (pktType (s.pktWords q) == type)) = true) :
    starts s q type := by
  simp only [Bool.and_eq_true, beq_iff_eq, decide_eq_true_eq] at h
  exact ⟨h.1.1.1.1, h.1.1.1.2, h.1.1.2, h.1.2, h.2⟩
theorem witness_LanternEvents : starts (packet []) 1 0 := starts_of (by decide +kernel)
theorem witness_launch : starts (memDesc (packet [1, 0x100, 0x300]) 0x100 32 recordD) 1 1 := starts_of (by decide +kernel)
theorem witness_signalmem : starts (packet [4 + 2 ^ 16, 0x200, 7]) 1 4 := starts_of (by decide +kernel)
theorem witness_qbarrier : starts (packet [6, 2 ^ 63]) 1 6 := starts_of (by decide +kernel)
/-- A context of two layers. -/
def model (act : Nat) : State := let s := packet [5 + act * 2 ^ 16, 1, 1]; s.setCtx 0 { s.ctx 0 with nlayer := 2, tmbase := 0x200 }
theorem witness_model : starts (model 2) 1 5 := starts_of (by decide +kernel)
/-- A packet of a reserved TYPE. -/
theorem witness_rejected : (packet [7]).serving = true ∧ (packet [7]).startable 1 = true ∧ (packet [7]).nextQueue = some 1 ∧ (packet [7]).pktCheck 1 = .bad 1 := by decide +kernel
/-- Packets in service. -/
def midway (ws : List DWord) : State := (lane0 0 id).setQueue 1 { base := 0x400, nslot := 4, en := true, wptr := 1, rptr := 1, pkt := { started := true, words := ws, inst := some 2 } }
theorem midway_serves (ws : List DWord) (t : Nat) (h : pktType ws = t) : inService (midway ws) 1 t := ⟨rfl, rfl, rfl, rfl, h⟩
theorem witness_inService : inService (midway [3, 0x200]) 1 3 ∧ inService (midway [5]) 1 5 ∧ inService (midway [6]) 1 6 ∧ inService (midway [2]) 1 2 ∧
    (midway [3, 0x200]).pktRange 0 .load 0x200 8 = .go :=
  ⟨midway_serves _ _ rfl, midway_serves _ _ rfl, midway_serves _ _ rfl, midway_serves _ _ rfl, by decide +kernel⟩
def collOver : State := let s := midway [2]; { s with lantern := { s.lantern with insts := [(2, { finished := true, stat := 4 })] } }
theorem witness_coll : (collOver.queue 1).pkt.inst = some 2 ∧ (collOver.inst 2).finished = true ∧ (collOver.inst 2).stat ≠ 0 := by decide
/-- A grid of one team that is ready, and nothing reserved. -/
def placeable : State :=
  let s := State.reset
  { s with
    lantern := { s.lantern with grids := [(0, { st := .ready, nteam := 1 })], attempts := [(0, (0, 256))] }
    keeper := { s.keeper with ctxs := [(0, { root := 0x8000 })], status := { s.keeper.status with st := 3 } } }
theorem witness_candidateReservation : placeable.headOf 0 0 = some (.grid 0) ∧ Tbl.find placeable.lantern.reserved 0 = none ∧
    (Tbl.get placeable.lantern.attempts 0 (0, 0)) = (0, 256) ∧ (placeable.grid 0).res = false ∧ isCandidate placeable 0 0 [23] :=
  ⟨by decide +kernel, by decide, by decide, by decide, 23, by decide, by decide, by decide +kernel, by decide⟩
/-- One team, on a hot core, resident for longer than a millisecond. -/
def hotCore : State := let s := lane0 0 id; { s.setCore 0 { s.core 0 with hot := true } with now := 2500000 }
theorem witness_thermalMigration : longest hotCore 0 0 ∧ (hotCore.core 0).hot = true ∧
    (∀ m ∈ hotCore.gangOf 0, (hotCore.team m).placedAt + 1000 * hotCore.keeper.power.clockMHz ≤ hotCore.now) ∧
    ∀ m ∈ hotCore.gangOf 0, (hotCore.core (hotCore.team m).core).thermalCount = 0 := by
  refine ⟨⟨⟨hotCore.team 0, by decide, by decide, by decide⟩, by decide⟩, by decide, by decide, by decide⟩

/-- A die with one core in service, where a group of team 0 stands in the way of a team of 32 groups and of a higher priority. -/
def crowded : State :=
  let s := (List.range 23).foldl (fun s c => s.setCore (c + 1) { s.core (c + 1) with failed := true }) (lane0 0 id)
  { s with lantern := { s.lantern with grids := [(0, { placed := 1, st := .running }), (1, { st := .ready, nteam := 1, ngrp := 32, prio := 5 })] }, now := 10000000 }
theorem witness_makeRoom : crowded.victims 0 1 = [0] ∧ placeable.victims 0 0 = [] := by decide +kernel
/-- A read of a word in a page that is not mapped, and a table of 4,096 entries. -/
theorem witness_waitmem_bad : inService (midway [3, 0x20000]) 1 3 ∧ (midway [3, 0x20000]).pktRange 0 .load 0x20000 8 = .bad 3 := ⟨midway_serves _ _ rfl, by decide +kernel⟩
theorem witness_packet_marks : starts (packet [3, 0x200, 0]) 1 3 := starts_of (by decide +kernel)

/-! ### Witnesses: windows, Beacons, collectives -/
def theRefl : Reflect := ⟨0, 0, 0, 0, [1], [], 0, 0, 0, []⟩
def flight (c : Cargo) (tgt ack : Nat) (d : Option (BitVec 16)) : Flight := { id := 4, tgt := tgt, path := 0, cargo := c, team := 0, gi := 0, core := 0, grp := 0, tag := 1, ack := ack, done := d }
def carrying (f : Flight) : State := let s := lane0 0 id; { s with fabric := { s.fabric with net := [f] } }
theorem witness_FabricEvents : loopNext (carrying (flight (.refl theRefl) 0 2 none)) 0 (flight (.refl theRefl) 0 2 none) ∧ (carrying (flight (.refl theRefl) 0 2 none)).me = 0 :=
  ⟨by unfold loopNext; decide, by decide⟩
/-- A device without a panel: every other device is absent. -/
def alone (f : Flight) : State := let s := carrying f; { s with fabric := { s.fabric with noPanel := true } }
theorem witness_absent : loopNext (alone (flight (.refl theRefl) 5 2 none)) 0 (flight (.refl theRefl) 5 2 none) ∧ (alone (flight (.refl theRefl) 5 2 none)).me ≠ 5 :=
  ⟨by unfold loopNext; decide, by decide⟩
theorem witness_landing : landing State.reset theRefl = 1 ∧ State.reset.replyTo theRefl = none := by decide +kernel
theorem witness_acknowledgement : flying (carrying (flight (.refl theRefl) 0 1 (some 0))) 4 (flight (.refl theRefl) 0 1 (some 0)) ∧
    (carrying (flight (.refl theRefl) 0 1 (some 0))).localTarget 0 = true ∧ flying (carrying (flight (.refl theRefl) 5 1 none)) 4 (flight (.refl theRefl) 5 1 none) ∧
    (carrying (flight (.refl theRefl) 5 1 none)).localTarget 5 = false ∧ (carrying (flight (.refl theRefl) 5 1 none)).flightFirst (flight (.refl theRefl) 5 1 none) = true :=
  ⟨by unfold flying; decide, by decide, by unfold flying; decide, by decide, by decide⟩
/-- A close marker to device 5 of a slot that waits for devices 5 and 6. -/
def closing : State := (carrying (flight (.close 1) 5 0 none)).updGroup 0 0 fun g => g.setBslot 1 { st := 2, fence := true, await := [5, 6] }
theorem witness_daymark : (closing.fabric.net.find? fun x => x.id == 4 && x.tgt == 5) = some (flight (.close 1) 5 0 none) ∧ closing.localTarget 5 = false ∧
    ofBatch closing (flight (.close 1) 5 0 none) = [flight (.close 1) 5 0 none] ∧ ((closing.member 0 0).bslot 1).fence = true ∧
    (∃ y ∈ ((closing.member 0 0).bslot 1).await, y ≠ 5) := ⟨by decide, by decide, by decide, by decide, 6, by decide, by decide⟩
/-- Operations of the device's own Beacon on ordinary memory: a match, a mismatch, a range of no frame, a full ring, the end of a chain. -/
def bop (k : BKind) (a : Nat) : BeaconOp := ⟨k, 0, a, 0, 0, 0, 0, 0, 0, 1, 0, 9, 0⟩
theorem witness_beacon : (∀ k ∈ [BKind.bcas, .benq, .bchase, .bred], loopNext (carrying (flight (.beacon (bop k 0x50000)) 0 2 none)) 0 (flight (.beacon (bop k 0x50000)) 0 2 none)) ∧
    allowed (lane0 0 id) (bop .bcas 0x50000) 0x50000 8 ∧ homeWord (lane0 0 id) 0x50000 8 = 0 % 2 ^ (8 * 8) ∧
    (lane0 0 id).bcnBit 0 .bcas (2 ^ 50) 8 ≠ 0 := ⟨by unfold loopNext; decide, ⟨by decide +kernel, by decide +kernel⟩, by decide +kernel, by decide +kernel⟩
/-- An instance of two members, this device the first. -/
def inst2 (agreed : List Nat) : CollInst := { mesh := [0, 5], digests := agreed }
def collS (c : CollInst) : State := let s := lane0 0 id; { s with lantern := { s.lantern with insts := [(2, c)] } }
theorem witness_collectives : running (collS (inst2 [])) 2 (inst2 []) ∧ 1 ∈ (inst2 []).others ∧ 1 ∉ (inst2 []).reports ∧ 1 ∉ (inst2 []).digests ∧
    (0 : Nat) ≠ collDigest (inst2 []) ∧ (inst2 []).others ≠ [] := ⟨⟨by decide, rfl⟩, by decide, by decide, by decide, by decide, by decide⟩
/-- Without a panel a member of the mesh is out of the domain. -/
theorem witness_collectiveFailure : let s := { collS (inst2 []) with fabric := { (collS (inst2 [])).fabric with noPanel := true } }
    ¬(inst2 []).mesh.all s.inDomain = true := by decide

/-- In STATE 5 the events of the fabric do nothing. -/
theorem witness_stopped : let s := { State.reset with keeper := { State.reset.keeper with status := { st := 5 } } }
    s.keeper.status.st = 5 ∧ fabricEvents (.reflectionArrival (.loop 0)) ∧ fabricEvents (.readyWordPoll 2) ∧ State.reset.keeper.status.st ≠ 5 :=
  ⟨rfl, .inl ⟨_, rfl⟩, by simp [fabricEvents], by decide⟩
/-- A second page, of aperture 4, at 0x10000, and a receive entry of one page there for context 0 and every sender; with and without NOTE 1. -/
def receiving (note : Nat) : State :=
  let s := lane0 0 id
  { s with mem := s.mem.writeKey 0 0x20008 (toBytesLE 8 (0x46F + 8 * 2 ^ 25)) false
           fabric := { s.fabric with rx := [(0, BitVec.ofNat 256 (1 + 2 * note + 0x10000 * 2 ^ 64 + 2 ^ 128 + 4095 * 2 ^ 172))] } }
theorem witness_landing_good : landing (receiving 0) theRefl = 0 ∧ bits ((receiving 0).rxEntry 0).toNat 2 1 ≠ 1 ∧
    landing (receiving 1) theRefl = 0 ∧ bits ((receiving 1).rxEntry 0).toNat 2 1 = 1 := by decide +kernel
/-- The last byte of its page lands; the byte after it does not. -/
theorem test_landing_bound : landing (receiving 0) { theRefl with off := 65535 } = 0 ∧ landing (receiving 0) { theRefl with off := 65536 } = 2 := by decide +kernel
theorem witness_runs : theRefl.gaps = [] ∧ reflRuns { theRefl with bytes := [1, 2, 3], gaps := [1] } 31 = [(31, [1]), (33, [3])] ∧
    reflRuns { theRefl with bytes := [1, 2, 3] } 31 = [(31, [1]), (32, [2, 3])] := by decide +kernel
theorem witness_put : ((receiving 0).pa none 0 .store 0x1001F).1 % 32 + ([7] : List Byte).length ≤ 32 ∧ (put (receiving 0) 0 0x1001F [7] true).mem.getKey 0 0x8001F = 7 ∧
    (putSlot (receiving 0) 0 0x10000 1 9).mem.slot 0x80000 1 = 9 := by decide +kernel
/-- A suspended team, whose reflection has come back, and whose close marker is acknowledged. -/
def asleep (c : Cargo) (tgt : Nat) : State := let s := carrying (flight c tgt 1 (some 0)); s.setTeam 0 { s.team 0 with st := .suspended }
theorem witness_suspended : flying (asleep (.refl theRefl) 0) 4 (flight (.refl theRefl) 0 1 (some 0)) ∧ ((asleep (.refl theRefl) 0).team 0).st = .suspended ∧
    ((asleep (.close 1) 5).fabric.net.find? fun x => x.id == 4 && x.tgt == 5) = some (flight (.close 1) 5 1 (some 0)) :=
  ⟨by unfold flying; decide, by decide, by decide⟩
/-- A reflection to another device that asks for no acknowledgement of its own. -/
theorem witness_performed : flying (carrying (flight (.refl theRefl) 5 2 none)) 4 (flight (.refl theRefl) 5 2 none) ∧
    (carrying (flight (.refl theRefl) 5 2 none)).localTarget 5 = false ∧ (carrying (flight (.refl theRefl) 5 2 none)).flightFirst (flight (.refl theRefl) 5 2 none) = true :=
  ⟨by unfold flying; decide, by decide, by decide⟩
/-- An all-gather of two elements in e4m3 between two members, of one staging slot at an address and one bucket. -/
def gathering (stage : Nat) : CollInst :=
  { mesh := [0, 5], d := 2 ^ 28 + 2 ^ 32 + (2 ^ 64 + stage) * 2 ^ 192 * 2 ^ 192, slay := { map := [(true, 0)], part := 1 }, dlay := { map := [(false, 0)] }, digests := [1], given := [(1, 1)] }
def arrived : Contribution := ⟨1, 1, [0x38], [0x7F]⟩
theorem witness_slotGrant : running (collS (gathering 0)) 2 (gathering 0) ∧ (gathering 0).agreed = true ∧ 1 ∈ (gathering 0).others ∧ (1, 0) ∉ (gathering 0).sent ∧
    (1, 0) ∉ (gathering 0).grants ∧ ∃ r ∈ (gathering 0).runs (gathering 0).me 1, r.headD 0 = 0 :=
  ⟨⟨by decide, rfl⟩, by decide +kernel, by decide, by decide, by decide, [0], by decide +kernel, rfl⟩
/-- Its contribution, with the staging slot readable and with none of its pages mapped. -/
theorem witness_contribution (a : Nat) (h : a = 0 ∨ a = 0x20000) : running (collS (gathering a)) 2 (gathering a) ∧
    ((gathering a).runs 1 (gathering a).me).find? (fun r => r.headD 0 == 1) = some [1] ∧ (1, 1) ∈ (gathering a).given ∧ arrived.codes.length = [1].length := by
  rcases h with rfl | rfl <;> exact ⟨⟨by decide, rfl⟩, by decide +kernel, by decide, rfl⟩
theorem witness_contribution_range : (collS (gathering 0)).pktRange 0 .store 0 65536 = .go ∧ (collS (gathering 0x20000)).pktRange 0 .store 0x20000 65536 = .bad 3 := by
  decide +kernel
theorem witness_readyWordPoll : (collS (gathering 0)).pktRange 0 .load (cdRdy (gathering 0).d) (8 * cdNbkt (gathering 0).d) = .go ∧
    (collS (gathering 0)).pktRange 0 .load 0x20000 8 = .bad 3 := by decide +kernel

/-! ### Witnesses: failures, host, starts -/
def startIn (fails : Option Nat) : StartInputs := ⟨[], fails, 0, false, 0⟩
def atStart (warm : Bool) (k : Nat) (fails : Option Nat) : State :=
  { State.reset with keeper := { State.reset.keeper with starting := some ⟨warm, true, startIn fails⟩, status := { st := 1, stepNo := k } } }
theorem witness_FailureAndHostEvents : (215 : Nat) < 216 ∧ 7 ∉ (State.reset.core 215).sparedRows ∧ (∀ p ∈ State.reset.keeper.sparedChannels, p.1 ≠ 11) ∧
    (11, 3) ∉ State.reset.fabric.lostLanes ∧ 23 ∉ State.reset.fabric.deadPorts ∧ (State.reset.core 215).failed = false ∧ (State.reset.core 215).vaultFailed = false ∧
    (∀ p ∈ State.reset.lantern.teams, p.2.st ≠ .resident ∧ p.2.st ≠ .halted) ∧ State.reset.keeper.ctxs = [] ∧ State.reset.keeper.pair.standby = false ∧
    State.reset.keeper.cxlDown = false ∧ State.reset.keeper.usedFrames = [] := by decide
theorem witness_hostMemory : hdmOff 0 hdm0Size 0 1 = some 0 ∧ hdmOff 0 hdm0Size (hdm0Size - 1) 1 = some (hdm0Size - 1) ∧ hdmOff 0 hdm0Size hdm0Size 1 = none ∧
    hdmOff 0 hdm1Size 1 1 = some 1 ∧ hdmOff (BitVec.ofNat 64 hdm0Size) bar0Size (hdm0Size + 0x10000 + 8 * 63) 4 = some (0x10000 + 8 * 63) := by
  decide +kernel
/-- An idle mailbox of a device that serves, with one context. -/
def hostS : State := lane0 0 id
theorem witness_mailbox : idle hostS ∧ hostS.hasCtx 0 = true ∧ hostS.hasCtx 1 = false ∧ leafFormed 0x6F = true ∧ leafFormed 0 = false ∧
    (∃ x b e, hostS.walk 0 0 = .leaf x b e) ∧ (Tbl.find hostS.fabric.tx 1023).isSome = false ∧ 0 ∉ mailboxCodes := by
  refine ⟨⟨by decide, by decide, by decide⟩, by decide, by decide, by decide, by decide, ⟨0x800006F, false, 0x20000, by decide +kernel⟩, by decide, by decide⟩
theorem witness_mailbox_busy : ({ hostS with keeper := { hostS.keeper with mailbox := { busy := true } } } : State).keeper.mailbox.busy = true ∧
    ({ hostS with keeper := { hostS.keeper with mailbox := { unread := true } } } : State).keeper.mailbox.unread = true ∧
    (∀ f ∈ hostS.keeper.usedFrames, f < vaultFrame0 + 64 * 215 ∨ vaultFrame0 + 64 * 215 + 64 ≤ f) := by decide
/-- A core with a resident team, which a failure of it suspends, or loses with its state. -/
theorem witness_coreFailure : (hostS.core 0).failed = false ∧ (hostS.core 0).vaultFailed = false ∧ teamsOn hostS 0 = [0] := by decide
theorem witness_scarTeam : (((hostS.suspendGang 0).team 0).saved.isSome = true) ∧
    (match Sys2Proof.Machine.exec (.coreFailure 0 []) hostS with
      | .next t => (t.team 0).st == .suspended && decide (t.keeper.status.ncore + 1 = hostS.keeper.status.ncore ∨ hostS.keeper.status.ncore = 0) &&
          (t.team 0).saved.any fun v => v.groups.all fun g => g.2.lanes.all fun l => l.2.mode == .exited || l.2.pend == some (.uncorrectable, 0xFFFFFFFFFFFFFFFF)
      | _ => false) = true := by decide +kernel
/-- The ends of a host write within one sector. -/
theorem witness_hostPut : 31 % 32 + ([7] : List Byte).length ≤ 32 ∧ 0 % 32 + (List.replicate 32 (7 : Byte)).length ≤ 32 ∧
    splitSecs 4 31 [1, 2, 3] = [(31, [1]), (32, [2, 3])] := by decide +kernel
def ctx7 : CtxParams := ⟨0x8000, 7, 15, 4096, 0x1000, 4, 0⟩
/-- Context 5, whose queue 2 has a priority above its own, or not above it. -/
def reused (p : BitVec 4) : State := hostS.setQueue 2 { ctx := 5, prio := p }
theorem witness_ctxCreate : Tbl.find (reused 8).keeper.ctxs 5 = none ∧ ctx7.root % 32768 = 0 ∧ ctx7.root + 32768 ≤ hbmFrames * 65536 ∧ ctx7.prio < 16 ∧
    ctx7.eclass < 16 ∧ ctx7.nlayer ≤ 4096 ∧ ctx7.tmbase % 4096 = 0 ∧ ctx7.tvec.toNat % 4 = 0 ∧
    (∃ q ∈ (reused 8).lantern.queues, q.2.ctx.toNat = 5 ∧ ctx7.prio < q.2.prio.toNat) ∧ (∀ q ∈ (reused 7).lantern.queues, q.2.ctx.toNat = 5 → q.2.prio.toNat ≤ ctx7.prio) := by
  refine ⟨by decide, by decide, by decide, by decide, by decide, by decide, by decide, by decide, ?_, by decide⟩
  exact ⟨(2, { ctx := 5, prio := 8 }), by decide, by decide, by decide⟩
/-- A queue of context 0, of priority 3 where the context's is 0; and one of priority 0. -/
theorem witness_queueClear : let s := hostS.setQueue 2 { ctx := 0, prio := 3, err := true }
    s.hasCtx (s.queue 2).ctx.toNat = true ∧ (s.ctx (s.queue 2).ctx.toNat).prio < (s.queue 2).prio.toNat ∧
    (s.queue 3).prio.toNat ≤ (s.ctx (s.queue 3).ctx.toNat).prio ∧ (s.queue 2).prio.toNat ≤ 3 := by decide
/-- Transmit entry 0 of one page at address 0, through which a reflection is outstanding, and a multicast entry of group 4. -/
def sending (mc : Nat) : State :=
  let s := carrying (flight (.refl theRefl) 5 2 none)
  { s with fabric := { s.fabric with tx := [(0, BitVec.ofNat 512 (1 + 2 * mc + 2 ^ 128 + 4 * 2 ^ 256))] } }
theorem witness_stillOut : stillOut (sending 0) (Tbl.get (sending 0).fabric.tx 0 0) ∧ ¬stillOut hostS (Tbl.get hostS.fabric.tx 0 0) ∧ (sending 0).txOk 0 0 = true :=
  ⟨⟨_, List.mem_singleton.mpr rfl, ⟨_, rfl⟩, by decide +kernel⟩, (fun ⟨_, hf, _⟩ => nomatch hf), by decide +kernel⟩
theorem witness_group_busy : ∃ p ∈ (sending 1).fabric.tx, txAt p.2 1 1 = 1 ∧ txAt p.2 263 256 = 4 ∧ stillOut (sending 1) p.2 :=
  ⟨_, List.mem_singleton.mpr rfl, by decide +kernel, by decide +kernel, _, List.mem_singleton.mpr rfl, ⟨_, rfl⟩, by decide +kernel⟩
/-- An UNMAP of the page at 0 of context 0 while a gradient log is registered there, and after. -/
def unmapping : State :=
  { hostS with merge := { hostS.merge with logs := [(0x40100, { key := 0, ctx := 0, va := 0x100, recs := [] })] }
               keeper := { hostS.keeper with mailbox := { busy := true, unmapping := some (0, 0) } } }
theorem witness_mbAnswer : unmapping.keeper.mailbox.unmapping = some (0, 0) ∧ unmapping.tlbiBusy 0 0 = true ∧ unmapping.keeper.mailbox.busy = true ∧
    ({ unmapping with merge := {} } : State).tlbiBusy 0 0 = false := by decide +kernel
theorem witness_starts : Rules.startable (startIn none) ∧ Rules.startable (startIn (some 6)) ∧
    (atStart false 6 none).imageGood = true ∧ (∃ b, (atStart false 3 none).keeper.starting = some b) ∧ State.reset.keeper.power.tripped = false :=
  ⟨⟨by decide +kernel, fun k h => by cases h⟩, ⟨by decide +kernel, fun k h => by cases h; decide⟩, by decide +kernel, ⟨_, rfl⟩, by decide⟩
/-- A failing step 2 stops the start in STATE 5; a warm start skips step 4 (R403, R404). -/
theorem test_start_steps : ((atStart false 2 (some 2)).startStep.keeper.status.st = 5 ∧ (atStart false 2 (some 2)).startStep.keeper.status.ecode = 2) ∧
    (atStart true 4 (some 4)).startStep.keeper.status.stepNo = 5 := by decide +kernel
/-- The ends of PLIM's range. -/
theorem witness_power : (1200 : Nat) ≤ 1200 ∧ (1199 : Nat) < 1200 ∧ (2800 : Nat) ≤ 2800 ∧ 2800 < 2801 ∧ State.reset.keeper.power.plim = 2800 := by decide

/-! ### What the decoder refuses (R49, and the spec's list of words) -/
theorem test_refused_words : decodeWord 0xFFFFFFFF = .error 0x01 ∧ decodeWord 0x78000000 = .error 0x02 ∧ decodeWord 0x040000F0 = .error 0x03 ∧
    decodeWord 0x04000002 = .error 0x04 ∧ decodeWord 0x00000001 = .error 0x04 ∧ decodeWord 0x04003D00 = .error 0x10 := by
  refine ⟨?_, ?_, ?_, ?_, ?_, ?_⟩ <;> rfl
/-- Step 5: `nop` with a D field; step 9: a scalar destination of a word that reads a register, code 42; step 10: `iadd.w` of an odd
register, and a 128-bit store of `~1`; step 11: a compare into `p0`. -/
theorem test_refused_fields : decodeWord 0x00100000 = .error 0x05 ∧ decodeWord 0x06A04200 = .error 0x11 ∧ decodeWord 0x04204404 = .error 0x12 ∧
    decodeWord 0x0C004202 = .error 0x13 := by refine ⟨?_, ?_, ?_, ?_⟩ <;> rfl
/-- A term for each check of well-formedness that refuses it: a modifier, a source, a destination, an alignment, a raw field, and an
event, which has no word. -/
theorem test_ill_formed : (Instr.iadd false (.n 0) (.n 0) (.n 0) false true false).wf = false ∧ (Instr.shli false (.n 0) (.n 0) true false 1).wf = false ∧
    (Instr.icmpS false ⟨1, 0⟩ (.n 0) (.n 0) .un).wf = false ∧ (Instr.fclass false ⟨1, 0⟩ (.n 0) (.n 0) .f16x2).wf = false ∧
    (Instr.cvtF false (.n 0) (.n 0) 0x10 0).wf = false ∧ (Instr.cvtF false (.n 0) (.n 0) 0 5).wf = false ∧ (Instr.slideUp false (.n 0) (.n 0) (.n 1) .zero).wf = false ∧
    (Instr.cpy false (.n 0) (.n 2) 3).wf = false ∧ (Instr.iadd false (.n 0) .mqo .mqo false false false).wf = false ∧
    (Instr.iadd false (.g 0) (.n 0) .zero false false false).wf = false ∧ (Instr.iadd false (.n 1) (.n 2) (.n 4) true false false).wf = false ∧
    (Instr.icmpS false ⟨0, 0⟩ (.n 0) (.n 0) .lt).wf = false ∧ (Instr.rdsr false (.n 0) 16).wf = false ∧ (Instr.packetNop 0).wf = false := by decide

/-! ### Single steps (the spec's worked examples, and hand calculation from its rules) -/
/-- "Ages by hand": 5 + 7 in `n3`, and in `~1`. -/
theorem test_iadd : regAfter 0x04304200 [(1, 5), (2, 7)] 3 = 12 ∧ (((stepped 0x04304200 [(1, 5), (2, 7)]).lane 0 0 0).age 1).v = 12 := by decide +kernel
/-- "A guarded call with a saturating add": `iadd.s n3, n1, n2`, and SAT. -/
theorem test_iadd_s : regAfter 0x04304201 [(1, 0x7FFFFFF0), (2, 0x20)] 3 = 0x7FFFFFFF ∧ statusAfter 0x04304201 [(1, 0x7FFFFFF0), (2, 0x20)] = 1 := by decide +kernel
/-- `icmp.s.gt p2, n1, zero`, and `p0` stays true. -/
theorem test_icmp : ((stepped 0x0C207804 [(1, 0x7FFFFFF0)]).lane 0 0 0).preds = 5 := by decide +kernel
/-- `movi n4, #-2` (R84). -/
theorem test_movi : regAfter 0x084FFFFE [] 4 = 0xFFFFFFFE := by decide +kernel
/-- R81: division by zero sets DZ; the most negative number by −1 saturates. -/
theorem test_idiv : regAfter 0x04810C20 [(4, 7), (12, 0)] 8 = 0 ∧ statusAfter 0x04810C20 [(4, 7), (12, 0)] = 2 ∧
    regAfter 0x04810C20 [(4, 0x80000000), (12, 0xFFFFFFFF)] 8 = 0x7FFFFFFF ∧ statusAfter 0x04810C20 [(4, 0x80000000), (12, 0xFFFFFFFF)] = 1 := by decide +kernel
/-- R81: the high half of −1 × 2; a shift count modulo 32. -/
theorem test_imulh_shl : regAfter 0x04810C18 [(4, 0xFFFFFFFF), (12, 2)] 8 = 0xFFFFFFFF ∧ regAfter 0x04810C78 [(4, 3), (12, 33)] 8 = 6 := by decide +kernel
/-- `fmul.f32 ~, n2, n3` of 2.0 and 3.0 (R104). -/
theorem test_fmul : (((stepped 0x1A008310 [(2, 0x40000000), (3, 0x40400000)]).lane 0 0 0).age 1).v = 0x40C00000 := by decide +kernel
/-- `ffma.f32 n4, n1, n2, n3` of 1.5, 2.0 and 1.0 (R106). -/
theorem test_ffma : regAfter 0x1C40420C [(1, 0x3FC00000), (2, 0x40000000), (3, 0x3F800000)] 4 = 0x40800000 := by decide +kernel
/-- The table of borderline conversions: 3.0 × 10⁹ clamps; −2.5 to even. -/
theorem test_cvt : regAfter 0x24305811 [(1, 0x4F32D05E)] 3 = 0x7FFFFFFF ∧ statusAfter 0x24305811 [(1, 0x4F32D05E)] = 4 ∧
    regAfter 0x24305810 [(1, 0xC0200000)] 3 = 0xFFFFFFFE := by decide +kernel
/-- R107, R108: 1/3, the root of 2, 2^0.5, log2 8 and sin 1, each rounded to the nearest. -/
theorem test_special : specFn .rcp f32 .rne 0 0x40400000 = 0x3EAAAAAB ∧ specFn .sqrt f32 .rne 0 0x40000000 = 0x3FB504F3 ∧
    specFn .exp2 f32 .rne 0 0x3F000000 = 0x3FB504F3 ∧ specFn .log2 f32 .rne 0 0x41000000 = 0x40400000 ∧ specFn .sin f32 .rne 0 0x3F800000 = 0x3F576AA4 := by
  decide +kernel
/-- `trap 11`: the lane enters the handler at TVEC with SOFTWARE_TRAP and the operand (R96, R318). -/
theorem test_trap : let x := (stepped 0x00000B10 []).lane 0 0 0
    x.pc = 0x800 ∧ x.tcause = 0x11 ∧ x.taddr = 11 ∧ x.tpc = 0 ∧ x.h = true := by decide +kernel
/-- The erased word: ILLEGAL_OP with its decode report (R49, R52). -/
theorem test_erased : let x := (stepped 0xFFFFFFFF []).lane 0 0 0
    x.pc = 0x800 ∧ x.tcause = 1 ∧ x.taddr = 0xFFFFFFFF00000001 := by decide +kernel
/-- `rfe` at user privilege: PRIVILEGE, SUBC 0x20. -/
theorem test_rfe : let x := (stepped 0x00000048 []).lane 0 0 0
    x.tcause = 4 ∧ x.taddr = 0x0000004800000020 := by decide +kernel
/-- `exit` (R155); `?p2 call` with `p2` false falls through, without a push (R90). -/
theorem test_control : ((stepped 0x00000008 []).lane 0 0 0).mode = .exited ∧ ((stepped 0x10860002 []).lane 0 0 0).slot = 1 ∧
    (((stepped 0x10860002 []).lane 0 0 0).age 1).v = 0 := by decide +kernel
/-- The value that stands at 0x100 after one step, where it stood before. -/
def wordAfter (w : Nat) (xs : List (Nat × Nat)) (old : Nat) : Nat :=
  match step (memDesc (lane0 w (regs xs)) 0x100 4 old) with | .next t => t.vget 0 0x100 4 | _ => 0
/-- "Worked atomics": 10 + 1; `atom.b32.add n5, [n2], n6`, where the address is the pair `n2`, `n3`. -/
theorem test_atom : wordAfter 0x3C508600 [(2, 0x100), (6, 1)] 10 = 11 := by decide +kernel

/-! ### The worked computations -/
/-- The stochastic bits of R69 at seed 0x5EED0000 and position 3, and the two roundings there. -/
theorem test_stochastic : srBits 0x5EED0000 3 = 0x7DA7E78C ∧ enc .e4m3 (.fin ⟨false, 17, -4, false⟩) .sr 0x7DA7E78C = (0x39, false) ∧
    enc .e4m3 (.fin ⟨false, 33, -5, false⟩) .sr 0x7DA7E78C = (0x38, false) := by decide +kernel
/-- The base entry 0x2D of R62. -/
theorem test_base : (List.range 8).map (resetBase 0x2D) = [2, 1, 3, 1, 1, 2, 0, 2] ∧ (List.range 8).map (fun j => baseEntry [] 0x2D / 4 ^ j % 4) = [2, 1, 3, 1, 1, 2, 0, 2] := by decide
/-- "One block quantised and restored": the scale of 1000.0, and lane 0's codes and values under it. -/
theorem test_blocks : (bscaleLane .e4m3 0 0x447A0000).v = 0x80 ∧
    (bqntLane .e4m3 0x80 ⟨.rne, 0, 0⟩ (0x3F800000 + 0x40200000 * 2 ^ 32 + 0xC0400000 * 2 ^ 64)).v = 0x00BC3A30 ∧
    bdqntLane .e4m3 0x80 0x00BC3A30 = 0x3F800000 + 0x40200000 * 2 ^ 32 + 0xC0400000 * 2 ^ 64 := by decide +kernel
/-- The worked step of the window sum (R72). -/
def codes (xs : List (Nat × Nat)) (s : Nat) : Block := ⟨s, (List.range 32).map fun i => some (dec .e4m3 ((xs.find? (·.1 == i)).elim 0 (·.2)))⟩
theorem test_windowSum : wsum 0x3F400000 [(⟨0x7F, List.replicate 32 (some (dec .e4m3 0x38))⟩, ⟨0x7F, List.replicate 32 (some (dec .e4m3 0x38))⟩),
    (codes [(0, 0x38)] 0x68, codes [(0, 0x39)] 0x7F), (codes [(0, 0xB8)] 0x7F, codes [(0, 0x38)] 0x7F),
    (codes [(0, 0x38), (1, 0x36)] 0x6C, codes [(0, 0x38), (1, 0x30)] 0x7F)] = 0x41FE0001 := by decide +kernel
/-- R218 names AES-256: the example of FIPS 197, appendix C.3, both ways. -/
theorem test_aes : aesEnc (aesRounds (List.range 32)) ((List.range 16).map (17 * ·)) =
    [0x8E, 0xA2, 0xB7, 0xCA, 0x51, 0x67, 0x45, 0xBF, 0xEA, 0xFC, 0x49, 0x90, 0x4B, 0x49, 0x60, 0x89] := by decide +kernel
theorem test_aes_back : aesDec (aesRounds (List.range 32))
    [0x8E, 0xA2, 0xB7, 0xCA, 0x51, 0x67, 0x45, 0xBF, 0xEA, 0xFC, 0x49, 0x90, 0x4B, 0x49, 0x60, 0x89] = (List.range 16).map (17 * ·) := by
  decide +kernel
/-- "A fold that grows the exponent". -/
theorem test_fold : let r := (foldRow ⟨135, 3 :: 300 * 2 ^ 30 :: List.replicate 30 0⟩ (f32.decode 0x3F800000 :: f32.decode 0x43960000 :: List.replicate 30 (f32.decode 0))).1
    r.e = 136 ∧ r.m.take 2 = [0x20000002, 0x4B00000000] := by decide +kernel

end Sys2Proof.Tests
end

section
/-! PROOFS. The sequential machine: predicates, registers and the result queue, reset and team start, the step, the words of a chain,
returning loads, and what one access leaves. -/
open Sys2Proof Sys2Proof.Machine Sys2Proof.Safety Sys2Proof.Rules

namespace Sys2Proof.SequentialMachine

/-! ### Predicates (R21) -/

/-- A predicate write as one case split: `p0` is left alone, another bit takes the value. -/
theorem getLsbD_writePred (x : Lane) {p k : Nat} (v : Bool) (hp : p < 8) (hk : k < 8) :
    (x.writePred p v).preds.getLsbD k = if k = p ∧ p ≠ 0 then v else x.preds.getLsbD k := by
  unfold Lane.writePred
  by_cases h0 : p = 0
  · simp [h0]
  · have hbit : (BitVec.ofNat 8 (2 ^ p)).getLsbD k = decide (k = p) := by
      rw [BitVec.getLsbD_ofNat, Nat.testBit_two_pow]; simp [hk, eq_comm]
    rw [if_neg h0]
    cases v with
    | true => rw [if_pos rfl, BitVec.getLsbD_or, hbit]; by_cases h : k = p <;> simp [h, h0]
    | false => rw [if_neg Bool.false_ne_true, BitVec.getLsbD_and, BitVec.getLsbD_not, hbit]; by_cases h : k = p <;> simp [h, h0, hk, hp]

theorem writePred_preds_only (x : Lane) (p : Nat) (v : Bool) : { x.writePred p v with preds := x.preds } = x := by
  unfold Lane.writePred
  split <;> rfl

/-- Settles O7, by the case split of a predicate write. -/
theorem predicateWrites : Obligations.PredicateWrites :=
  fun x p _ v hp hk => ⟨getLsbD_writePred x v hp hk, writePred_preds_only x p v⟩

/-! ### Registers and the result queue (R15 to R18) -/

@[simp] theorem writeRegs_queue (x : Lane) (r n v : Nat) : (x.writeRegs r n v).queue = x.queue := by
  induction n generalizing x r v with
  | zero => rfl
  | succ n ih => rw [Lane.writeRegs, ih]; rfl

@[simp] theorem pushVal_regs (x : Lane) (n v : Nat) : (x.pushVal n v).regs = x.regs := by
  unfold Lane.pushVal; split <;> rfl

theorem reg_pushVal (x : Lane) (n v j : Nat) : (x.pushVal n v).reg j = x.reg j := by
  unfold Lane.reg; rw [pushVal_regs]

theorem reg_setReg (x : Lane) (r j : Nat) (v : Reg) : (x.setReg r v).reg j = if r = j then v else x.reg j :=
  Tbl.get_put ..

/-- The named registers take the parts of the value, least significant first (R15). -/
theorem reg_writeRegs (x : Lane) (r n v j : Nat) :
    (x.writeRegs r n v).reg j = if r ≤ j ∧ j < r + n then { v := BitVec.ofNat 32 (v / 2 ^ (32 * (j - r))) } else x.reg j := by
  induction n generalizing x r v with
  | zero => rw [Lane.writeRegs, if_neg (by omega)]
  | succ n ih =>
    rw [Lane.writeRegs, ih, reg_setReg]
    by_cases hj : r = j
    · subst hj
      rw [if_neg (by omega), if_pos rfl, if_pos (by omega)]; simp
    · rw [if_neg hj]
      by_cases hin : r + 1 ≤ j ∧ j < r + 1 + n
      · have hexp : 32 * (j - r) = 32 + 32 * (j - (r + 1)) := by omega
        rw [if_pos hin, if_pos (by omega), Nat.div_div_eq_div_mul, ← pow_add, hexp]
      · rw [if_neg hin, if_neg (by omega)]

/-- One push: the newest entry is the one pushed, and everything older moves one place on (R16). -/
theorem age_push_one (x : Lane) (e : QEnt) : (x.push e).age 1 = e := rfl
theorem age_push_succ (x : Lane) (e : QEnt) {k : Nat} (h1 : 1 ≤ k) (hk : k < 16) : (x.push e).age (k + 1) = x.age k := by
  obtain ⟨k, rfl⟩ : ∃ m, k = m + 1 := ⟨k - 1, by omega⟩
  have hlt : k < 15 := by omega
  simp [Lane.age, Lane.push, List.getD, hlt]
theorem length_push (x : Lane) (e : QEnt) (h : x.queue.length = 16) : (x.push e).queue.length = 16 := by
  simp [Lane.push, h]

theorem pushVal_narrow (x : Lane) {n : Nat} (v : Nat) (h : n ≤ 64) : x.pushVal n v = x.push { v := BitVec.ofNat 64 (v % 2 ^ n) } :=
  if_pos h
theorem pushVal_wide (x : Lane) (v : Nat) :
    x.pushVal 128 v = (x.push { v := BitVec.ofNat 64 v }).push { v := BitVec.ofNat 64 (v / 2 ^ 64) } := rfl

/-- What a named destination pushes is what `~` pushes (R16). -/
theorem write_named_queue (x : Lane) (r : Fin 32) (n v : Nat) : (x.write (.n r) n v).queue = (x.write .push n v).queue := by
  show ((x.writeRegs r ((n + 31) / 32) v).pushVal n v).queue = (x.pushVal n v).queue
  unfold Lane.pushVal
  split <;> simp [Lane.push]
theorem reg_write_named (x : Lane) (r : Fin 32) {n : Nat} (v j : Nat) (h : 32 ∣ n) :
    (x.write (.n r) n v).reg j = if r.val ≤ j ∧ j < r.val + n / 32 then { v := BitVec.ofNat 32 (v / 2 ^ (32 * (j - r.val))) } else x.reg j := by
  have hparts : (n + 31) / 32 = n / 32 := by omega
  show ((x.writeRegs r ((n + 31) / 32) v).pushVal n v).reg j = _
  rw [reg_pushVal, reg_writeRegs, hparts]

theorem lane_startGroup (g : Grid) (team idx i member : Nat) {l : Nat} (h : l < 32) :
    (startGroup g team idx i member).lane l = startLane g := by
  show (Tbl.find ((List.range 32).map fun l => (l, startLane g)) l).getD {} = _
  rw [find_map_pair, if_pos (List.mem_range.mpr h)]
  rfl

/-- Settles O48, from the rules of one push and of the named registers. -/
theorem resultsInTheQueue : Obligations.ResultsInTheQueue := by
  refine ⟨fun x r v k hq hk => ⟨fun n hn => ?_, ?_, fun n j hn => reg_write_named x r v j (by omega), fun _ => rfl⟩, ?_⟩
  · have hw : x.write .push n v = x.push { v := BitVec.ofNat 64 (v % 2 ^ n) } := pushVal_narrow x v hn
    refine ⟨?_, fun h1 => ?_, ?_, pushVal_regs x n v, write_named_queue x r n v⟩
    · rw [hw, age_push_one]
    · rw [hw, age_push_succ x _ h1 hk]
    · rw [hw, length_push x _ hq]
  · have hw : x.write .push 128 v = (x.push { v := BitVec.ofNat 64 v }).push { v := BitVec.ofNat 64 (v / 2 ^ 64) } := pushVal_wide x v
    refine ⟨?_, ?_, fun h1 h15 => ?_, ?_, pushVal_regs x 128 v, write_named_queue x r 128 v⟩
    · rw [hw, age_push_succ _ _ (by omega) (by omega), age_push_one]
    · rw [hw, age_push_one]
    · rw [hw, age_push_succ _ _ (by omega) (by omega), age_push_succ _ _ h1 hk]
    · rw [hw, length_push _ _ (length_push _ _ hq)]
  · intro g team idx i member l hl
    rw [lane_startGroup _ _ _ _ _ hl]
    exact ⟨rfl, fun e he => List.eq_of_mem_replicate he⟩

/-! ### Reset and team start (R14, R62, R159) -/

theorem resetBase_lt (k j : Nat) : resetBase k j < 4 := by
  have h1 := Laws.bit01_le (k.testBit j)
  have h2 := Laws.bit01_le (k.testBit ((j + 1) % 8))
  have h3 := Laws.bit01_le (k.testBit ((j + 3) % 8))
  unfold resetBase; omega

/-- The number with the base-4 digits `d 0`, …, `d (n - 1)`, summed as the model's base table sums its weights. -/
def fromDigits (d : Nat → Nat) (n : Nat) : Nat := (List.range n).foldl (fun acc i => acc + d i * 4 ^ i) 0
theorem fromDigits_succ (d : Nat → Nat) (n : Nat) : fromDigits d (n + 1) = fromDigits d n + d n * 4 ^ n := by
  simp only [fromDigits, List.range_succ, List.foldl_append, List.foldl_cons, List.foldl_nil]

section
variable {d : Nat → Nat} (hd : ∀ j, d j < 4)
include hd
theorem fromDigits_lt (n : Nat) : fromDigits d n < 4 ^ n := by
  induction n with
  | zero => exact Nat.one_pos
  | succ n ih =>
    have hlast := Nat.mul_le_mul_right (4 ^ n) (Nat.le_of_lt_succ (hd n))
    rw [fromDigits_succ, pow_succ]; omega
theorem digit_fromDigits {n j : Nat} (hj : j < n) : fromDigits d n / 4 ^ j % 4 = d j := by
  induction n with
  | zero => exact absurd hj (Nat.not_lt_zero j)
  | succ n ih =>
    rw [fromDigits_succ]
    rcases Nat.lt_succ_iff_lt_or_eq.mp hj with hj | rfl
    · have hpow : 4 ^ n = 4 ^ j * (4 * 4 ^ (n - j - 1)) := by
        rw [← pow_succ', ← pow_add]; congr 1; omega
      have hmul : d n * 4 ^ n = 4 ^ j * (4 * (d n * 4 ^ (n - j - 1))) := by rw [hpow]; ring
      rw [hmul, Nat.add_mul_div_left _ _ (by positivity), Nat.add_mul_mod_self_left, ih hj]
    · rw [Nat.add_mul_div_right _ _ (by positivity), Nat.div_eq_of_lt (fromDigits_lt hd j), Nat.zero_add, Nat.mod_eq_of_lt (hd j)]
end

/-- R62: an entry of the base table that nothing has loaded holds its reset value, weight by weight. -/
theorem baseEntry_nil (k : Nat) {j : Nat} (hj : j < 8) : baseEntry [] k / 4 ^ j % 4 = resetBase k j :=
  digit_fromDigits (resetBase_lt k) hj

/-- R22, R23: the shadow queue of a quarter nothing has pushed on. -/
theorem fresh_quarter_queue (k : Nat) : (({} : Quarter).queue).getD k {} = ⟨0x7F, 0x7F⟩ := by
  show (List.replicate 16 ({} : Shadow)).getD k {} = _
  rw [List.getD, List.getElem?_replicate]
  split <;> rfl
theorem startLane_age (g : Grid) {k : Nat} (h1 : 1 ≤ k) (hk : k ≤ 16) : ((startLane g).age k).v = 0 := by
  have : (List.replicate 16 ({} : QEnt))[k - 1]? = some {} := List.getElem?_replicate_of_lt (by omega)
  show ((List.replicate 16 ({} : QEnt)).getD (k - 1) {}).v = 0
  rw [List.getD, this]; rfl

theorem startLane_pred_zero (g : Grid) : (startLane g).preds.getLsbD 0 = true := by
  show (1 : BitVec 8).getLsbD 0 = true
  decide
theorem startLane_pred (g : Grid) {k : Nat} (h : 1 ≤ k) : (startLane g).preds.getLsbD k = false := by
  show (1 : BitVec 8).getLsbD k = false
  simp [BitVec.getLsbD_one]; omega
theorem startGroup_scalar (g : Grid) (team idx i member : Nat) {k : Nat} (h : 5 ≤ k) : Tbl.get (startGroup g team idx i member).g k 0 = 0 := by
  simp only [startGroup, Tbl.get, Tbl.find]
  iterate 5 rw [if_neg (by omega)]
  rfl

/-- Settles O52: the fields of the reset state and of a starting group, and the base table's reset entries digit by digit. -/
theorem resetAndTeamStart : Obligations.ResetAndTeamStart := by
  refine ⟨⟨rfl, rfl, rfl, fun _ => rfl, rfl, rfl, rfl, rfl, rfl, fun _ _ _ _ => ⟨rfl, rfl, fun _ _ _ hj => baseEntry_nil _ hj⟩⟩, ?_, ?_,
    fun _ _ _ _ _ _ _ hj => baseEntry_nil _ hj⟩
  · intro g team idx i member l hl
    rw [lane_startGroup _ _ _ _ _ hl]
    exact ⟨rfl, rfl, fun _ => rfl, fun _ h1 hk => startLane_age g h1 hk, startLane_pred_zero g, fun _ h1 _ => startLane_pred g h1, rfl, rfl, rfl, rfl⟩
  · intro g team idx i member
    exact ⟨fun q r k => ⟨rfl, fresh_quarter_queue k⟩, fun _ => rfl, rfl, rfl, rfl, rfl, rfl, fun k h5 _ => startGroup_scalar g team idx i member h5⟩

/-! ### Steps and turns (log entries 2 and 6) -/

theorem step_active {s : State} (h : s.chain.active = true) : step s = s.runChain := if_pos h
theorem step_idle {s : State} (h : s.chain.active = false) (hl : s.chain.later = []) :
    step s = match s.agenda with
      | t :: rest => { s with agenda := rest }.turn t
      | [] => .next { s with agenda := s.round } := by
  unfold step; rw [h, hl]; rfl

theorem nextWord_ok {s : State} {i : Instr} (h : decodeWord (s.chain.words.getD s.chain.slot 0).toNat = .ok i) : s.nextWord = .ok i := by
  unfold State.nextWord; simp only [h]
/-- A word whose subcode is below 0x10 fails that check, whatever its literals and chain bit (R49). -/
theorem nextWord_error {s : State} {n : Nat} (h : decodeWord (s.chain.words.getD s.chain.slot 0).toNat = .error n) (hn : n < 0x10) :
    s.nextWord = .error n := by
  unfold State.nextWord State.failingCheck; simp only [h, hn, if_true]

theorem runChain_ok {s : State} {i : Instr} (h : s.nextWord = .ok i) : s.runChain = exec i s := by
  unfold State.runChain; rw [h]
theorem runChain_error {s : State} {n : Nat} (h : s.nextWord = .error n) :
    s.runChain = exec (.illegalOp s.chain.core s.chain.grp s.chain.lanes (causeOf n) n) s := by
  unfold State.runChain; rw [h]; rfl

/-- The event whose instruction a turn runs, where it runs one (the compiler does not represent the last constructors of `Instr`). -/
noncomputable def eventOf : Turn → Option Instr
  | .loadDataReturn core grp txn bad => some (.loadDataReturn core grp txn bad) | .fenceCompletion core grp => some (.fenceCompletion core grp)
  | .speculationRollback core grp => some (.speculationRollback core grp) | .sleepExpiry core grp lane => some (.sleepExpiry core grp lane)
  | .mooringOpAtHome k => some (.mooringOpAtHome k) | .chunkFill team map chunk => some (.chunkFill team map chunk)
  | .scratchWriteback team => some (.scratchWriteback team) | .groupEnd core grp => some (.groupEnd core grp)
  | .gridRetirement grid => some (.gridRetirement grid) | .preemptionRequest team => some (.preemptionRequest team)
  | .contextSave team => some (.contextSave team) | .faultService k how => some (.faultService k how)
  | .faultRecordDelivery ctx => some (.faultRecordDelivery ctx) | .retry k => some (.retry k) | .remap k => some (.remap k)
  | .setrap k => some (.setrap k) | .migrate k => some (.migrate k) | .restream k => some (.restream k) | .deliver k => some (.deliver k)
  | .abort k => some (.abort k) | .ret k => some (.ret k) | .copyBatchCompletion core grp => some (.copyBatchCompletion core grp)
  | .tileCompletion core grp op => some (.tileCompletion core grp op) | .relayHopCompletion core grp op => some (.relayHopCompletion core grp op)
  | .gatherCompletion core grp op => some (.gatherCompletion core grp op) | .jointIssue core part => some (.jointIssue core part)
  | .matrixPass core part => some (.matrixPass core part) | .matrixOpCompletion core part => some (.matrixOpCompletion core part)
  | .matrixHeaderFailure core part => some (.matrixHeaderFailure core part)
  | .mdrainEntryDelivery core part => some (.mdrainEntryDelivery core part) | .glappRecordWrite core part => some (.glappRecordWrite core part)
  | .recordFold log => some (.recordFold log) | .glfoldRetirement k => some (.glfoldRetirement k) | .doorbell q wptr => some (.doorbell q wptr)
  | .packetNop q => some (.packetNop q) | .launch q => some (.launch q) | .coll q => some (.coll q) | .waitmem q => some (.waitmem q)
  | .waitmemReread q => some (.waitmemReread q) | .signalmem q => some (.signalmem q) | .modelRequest q => some (.modelRequest q)
  | .modelWithdraw q => some (.modelWithdraw q) | .modelPin q => some (.modelPin q) | .modelUnpin q => some (.modelUnpin q)
  | .qbarrier q => some (.qbarrier q) | .workTableTimeout q => some (.workTableTimeout q) | .placementAttempt die => some (.placementAttempt die)
  | .candidateReservation die level => some (.candidateReservation die level) | .thermalMigration core => some (.thermalMigration core)
  | .jdecAtHome k => some (.jdecAtHome k) | .layerArrival ctx layer bytes => some (.layerArrival ctx layer bytes)
  | .layerFetchFailure ctx layer abandon => some (.layerFetchFailure ctx layer abandon)
  | .layerEviction ctx layer => some (.layerEviction ctx layer) | .reflectionArrival a => some (.reflectionArrival a)
  | .reflectionAcknowledgement k bitmap => some (.reflectionAcknowledgement k bitmap) | .closeMarkerArrival a => some (.closeMarkerArrival a)
  | .daymarkArrival k tgt bitmap => some (.daymarkArrival k tgt bitmap) | .beaconBcasStep a => some (.beaconBcasStep a)
  | .beaconBenqStep a => some (.beaconBenqStep a) | .beaconBchaseStep a => some (.beaconBchaseStep a)
  | .beaconBredStep a => some (.beaconBredStep a) | .ualinkReadReceived src => some (.ualinkReadReceived src)
  | .slotGrant k peer e0 => some (.slotGrant k peer e0) | .contributionArrival k c => some (.contributionArrival k c)
  | .memberReport k m => some (.memberReport k m) | .readyWordPoll k => some (.readyWordPoll k)
  | .collectiveFailure k why => some (.collectiveFailure k why) | .vaultRowSparing vault row => some (.vaultRowSparing vault row)
  | .hbmChannelFailure stack ch => some (.hbmChannelFailure stack ch) | .dieLinkLaneFailure link lane => some (.dieLinkLaneFailure link lane)
  | .ualinkPortFailure port => some (.ualinkPortFailure port) | .coreFailure core lost => some (.coreFailure core lost)
  | .vaultFailure core => some (.vaultFailure core) | .heartbeatTakeover => some (.heartbeatTakeover) | .cxlPortFailure => some (.cxlPortFailure)
  | .patrolScrub sector => some (.patrolScrub sector) | .hostMemAccess hpa a => some (.hostMemAccess hpa a)
  | .scaleViewWrite hpa v => some (.scaleViewWrite hpa v) | .ctxCreate ctx x => some (.ctxCreate ctx x) | .ctxSet ctx x => some (.ctxSet ctx x)
  | .ctxDestroy ctx => some (.ctxDestroy ctx) | .map ctx va leaf => some (.map ctx va leaf) | .unmap ctx va => some (.unmap ctx va)
  | .xlate ctx va => some (.xlate ctx va) | .keyLoad key pair => some (.keyLoad key pair) | .keyClear key => some (.keyClear key)
  | .winSet x => some (.winSet x) | .queueSet q x => some (.queueSet q x) | .queueClear q => some (.queueClear q)
  | .layerDone ctx layer => some (.layerDone ctx layer) | .fwWrite off data => some (.fwWrite off data)
  | .fwCommit digest => some (.fwCommit digest) | .warm preserve => some (.warm preserve)
  | .mailboxUnknownCode code => some (.mailboxUnknownCode code) | .bar0WriteIgnored off v => some (.bar0WriteIgnored off v)
  | .coldStart x => some (.coldStart x) | .warmReset preserve x => some (.warmReset preserve x)
  | .managementRead what => some (.managementRead what) | .plimWrite watts => some (.plimWrite watts)
  | .coldResetRequest => some (.coldResetRequest) | .powerWindow watts => some (.powerWindow watts)
  | .temperatureHot core => some (.temperatureHot core) | .temperatureTrip => some (.temperatureTrip) | .mbstsRead => some (.mbstsRead)
  | .hdmDecoderWrite which base => some (.hdmDecoderWrite which base) | .digestExchange k m digest => some (.digestExchange k m digest)
  | .vaultSplitChange core vm => some (.vaultSplitChange core vm)
  | _ => none

/-- An event's turn runs the event's instruction, which is no word of a chain. -/
theorem turn_eventOf {t : Turn} {i : Instr} (h : eventOf t = some i) : i.form = none ∧ ∀ s : State, s.turn t = exec i s := by
  cases t
  any_goals contradiction
  all_goals
    cases h
    exact ⟨rfl, fun _ => rfl⟩

/-- The turns that run no event: fetch slots, time, and what the model's own agents do. -/
theorem other_turns {t : Turn} (h : eventOf t = none) :
    (∃ core grp, t = .issue core grp) ∨ (∃ n, t = .clock n) ∨ (∃ core grp txn, t = .storeDone core grp txn) ∨
    (∃ core grp txn, t = .loadLate core grp txn) ∨ (∃ r on, t = .lagging r on) ∨ (∃ line, t = .l2WriteBack line) ∨
    (∃ core k, t = .l1Drop core k) ∨ (∃ core k, t = .icDrop core k) ∨ (∃ core k, t = .tlbDrop core k) ∨ (∃ sec, t = .memError sec) ∨
    (∃ core part tile, t = .accError core part tile) ∨ t = .startStep ∨ t = .mbAnswer := by
  cases t
  any_goals contradiction
  all_goals simp

/-- Settles O44, from the cases of a step and the event of each turn. -/
theorem stepRunsTheDecodedWord : Obligations.StepRunsTheDecodedWord := by
  intro s
  refine ⟨fun ha i hi => ?_, fun ha n he hn => ?_, fun ha hl t rest hg => ?_, fun ha hl hg => ⟨s.round, ?_⟩, fun t => ?_,
    fun _ _ _ _ => rfl, fun _ _ => rfl, fun _ => rfl, fun _ => rfl, fun _ _ => rfl⟩
  · rw [step_active ha, runChain_ok (nextWord_ok hi)]
  · rw [step_active ha, runChain_error (nextWord_error he hn), causeOf, if_pos hn]
  · rw [step_idle ha hl, hg]
  · rw [step_idle ha hl, hg]
  · cases he : eventOf t with
    | some i => exact .inl ⟨i, turn_eventOf he⟩
    | none => exact .inr (other_turns he)

/-! ### Words of a chain (R28, R29, R49) -/

/-- Every instruction word's meaning is that of a word of a chain, by some body; an event has no form. -/
theorem exec_eq_word {i : Instr} {f : Form} (h : i.form = some f) : ∃ go : Body, ∀ s, exec i s = s.word i.ch i go := by
  cases i
  any_goals contradiction
  all_goals exact ⟨_, fun _ => rfl⟩

/-- Settles O43: every word runs as `State.runWord` does, by its check. -/
theorem wordsOfAChain : Obligations.WordsOfAChain := by
  intro i f s hform hactive
  obtain ⟨go, hexec⟩ := exec_eq_word hform
  have hrun : exec i s = .next (s.runWord i.ch i f go) := by
    rw [hexec]; unfold State.word; simp only [hform, hactive, if_true]
  refine ⟨fun hok => ⟨s.wordOut i f go, rfl, rfl, rfl, rfl, ?_⟩, fun c n hfail => ?_⟩
  · rw [hrun]; unfold State.runWord; rw [hok]
  · rw [hrun]; unfold State.runWord; rw [hfail]

/-! ### Filling what a load reserved (R19, R133) -/

/-- A register, and a queue entry, after transaction `t` brings the value `v`: what it reserved takes its part, anything else stays. -/
def filledReg (t v : Nat) (p : Bool) (ea : DWord) (q : Reg) : Reg :=
  match q.busy with
  | some b => if b / 4 = t then ⟨BitVec.ofNat 32 (v / 2 ^ (32 * (b % 4))), none, p, ea⟩ else q
  | none => q
def filledEnt (t v : Nat) (p : Bool) (ea : DWord) (q : QEnt) : QEnt :=
  match q.busy with
  | some b => if b / 4 = t then ⟨BitVec.ofNat 64 (v / 2 ^ (64 * (b % 4))), none, p, ea⟩ else q
  | none => q

section
variable {t v k : Nat} {p : Bool} {ea : DWord}

theorem filledReg_reserved {q : Reg} (h : q.busy = some (4 * t + k)) (hk : k < 4) :
    filledReg t v p ea q = ⟨BitVec.ofNat 32 (v / 2 ^ (32 * k)), none, p, ea⟩ := by
  have hdiv : (4 * t + k) / 4 = t := by omega
  have hmod : (4 * t + k) % 4 = k := by omega
  simp only [filledReg, h, hdiv, hmod, if_true]
theorem filledReg_other {q : Reg} (h : ∀ b, q.busy = some b → b / 4 ≠ t) : filledReg t v p ea q = q := by
  unfold filledReg
  split
  · exact if_neg (h _ ‹_›)
  · rfl
theorem filledEnt_reserved {q : QEnt} (h : q.busy = some (4 * t + k)) (hk : k < 4) :
    filledEnt t v p ea q = ⟨BitVec.ofNat 64 (v / 2 ^ (64 * k)), none, p, ea⟩ := by
  have hdiv : (4 * t + k) / 4 = t := by omega
  have hmod : (4 * t + k) % 4 = k := by omega
  simp only [filledEnt, h, hdiv, hmod, if_true]
end

theorem reg_fill (x : Lane) (t v : Nat) (p : Bool) (ea : DWord) (r : Nat) : (x.fill t v p ea).reg r = filledReg t v p ea (x.reg r) := by
  show (Tbl.find (Tbl.mapV x.regs fun _ => filledReg t v p ea) r).getD {} = filledReg t v p ea ((Tbl.find x.regs r).getD {})
  rw [Tbl.find_mapV]
  cases Tbl.find x.regs r <;> rfl
theorem age_fill (x : Lane) (t v : Nat) (p : Bool) (ea : DWord) (j : Nat) : (x.fill t v p ea).age j = filledEnt t v p ea (x.age j) := by
  show (x.queue.map (filledEnt t v p ea)).getD (j - 1) {} = filledEnt t v p ea (x.queue.getD (j - 1) {})
  rw [List.getD, List.getElem?_map, List.getD]
  cases x.queue[j - 1]? <;> rfl
/-- A lane that a group does not list has nothing reserved. -/
theorem fill_unlisted (t v : Nat) (p : Bool) (ea : DWord) : ({} : Lane).fill t v p ea = {} := rfl

/-! ### One transaction's values reach their lanes -/

theorem lane_fill1 (g : Group) (t : Nat) (f : Fill1) (bad : Bool) (l : Nat) :
    (g.fill1 t f bad).lane l = if f.lane = l then (g.lane l).fill t f.v.toNat (f.poison || bad) f.ea else g.lane l := by
  show (match Tbl.find g.lanes f.lane with
      | some x => g.setLane f.lane (x.fill t f.v.toNat (f.poison || bad) f.ea)
      | none => g).lane l = _
  cases hx : Tbl.find g.lanes f.lane with
  | some x =>
    have hlane : g.lane f.lane = x := by simp only [Group.lane, Tbl.get, hx, Option.getD_some]
    show (g.setLane f.lane (x.fill t f.v.toNat (f.poison || bad) f.ea)).lane l = _
    rw [Group.lane_setLane]
    split
    · rename_i h; rw [← h, hlane]
    · rfl
  | none =>
    have hlane : g.lane f.lane = {} := by simp only [Group.lane, Tbl.get, hx, Option.getD_none]
    show g.lane l = _
    split
    · rename_i h; rw [← h, hlane, fill_unlisted]
    · rfl
theorem txns_fill1 (g : Group) (t : Nat) (f : Fill1) (bad : Bool) : (g.fill1 t f bad).txns = g.txns := by
  show (match Tbl.find g.lanes f.lane with
      | some x => g.setLane f.lane (x.fill t f.v.toNat (f.poison || bad) f.ea)
      | none => g).txns = g.txns
  split <;> rfl
theorem ld_fill1 (g : Group) (t : Nat) (f : Fill1) (bad : Bool) : (g.fill1 t f bad).ld = g.ld := by
  show (match Tbl.find g.lanes f.lane with
      | some x => g.setLane f.lane (x.fill t f.v.toNat (f.poison || bad) f.ea)
      | none => g).ld = g.ld
  split <;> rfl

/-- The values of a transaction, one after another. -/
def fillAll (t : Nat) (bad : Bool) (fs : List Fill1) (g : Group) : Group := fs.foldl (fun g f => g.fill1 t f bad) g

theorem txns_fillAll (t : Nat) (bad : Bool) (fs : List Fill1) (g : Group) : (fillAll t bad fs g).txns = g.txns := by
  induction fs generalizing g with
  | nil => rfl
  | cons f fs ih => exact (ih _).trans (txns_fill1 g t f bad)
theorem ld_fillAll (t : Nat) (bad : Bool) (fs : List Fill1) (g : Group) : (fillAll t bad fs g).ld = g.ld := by
  induction fs generalizing g with
  | nil => rfl
  | cons f fs ih => exact (ih _).trans (ld_fill1 g t f bad)
/-- A lane takes the values that name it, and no other. -/
theorem lane_fillAll (t : Nat) (bad : Bool) (fs : List Fill1) (g : Group) (l : Nat) :
    (fillAll t bad fs g).lane l =
      (fs.filter (·.lane == l)).foldl (fun y f => y.fill t f.v.toNat (f.poison || bad) f.ea) (g.lane l) := by
  induction fs generalizing g with
  | nil => rfl
  | cons f fs ih =>
    have hstep : (fillAll t bad (f :: fs) g).lane l = (fillAll t bad fs (g.fill1 t f bad)).lane l := rfl
    rw [hstep, ih, lane_fill1, List.filter_cons]
    by_cases h : f.lane = l <;> simp [h]

/-! ### An uncorrectable error (R217) -/

theorem poison_harm (m : Mem) (k a : Nat) : ((m.harm k).sector a).poison = ((m.sector a).poison || decide (a / 32 = k)) := by
  have hk : 32 * k / 32 = k := by omega
  unfold Mem.harm
  rw [Mem.sector_setSector, hk]
  by_cases h : k = a / 32
  · simp [h]
  · have h' : ¬ a / 32 = k := fun e => h e.symm
    simp [h, h']
theorem core_scr_harm_odd (s : State) {sec : Nat} (h : sec % 2 = 1) :
    ((s.harm sec).core (sec / 2 / 16384)).scr = (s.core (sec / 2 / 16384)).scr.harm (sec / 2 % 16384) := by
  unfold State.harm
  rw [if_neg (by omega), State.core_setCore_same]
theorem group_harm (s : State) (sec core grp : Nat) : (s.harm sec).group core grp = s.group core grp := by
  unfold State.harm State.group
  split
  · simp only [State.core, Tbl.get, Tbl.find_mapV]
    cases Tbl.find s.cores core <;> rfl
  · rw [State.core_setCore]
    split
    · rename_i h; rw [← h]
    · rfl
theorem group_harms (secs : List Nat) (s : State) (core grp : Nat) : (secs.foldl State.harm s).group core grp = s.group core grp := by
  induction secs generalizing s with
  | nil => rfl
  | cons sec secs ih => exact (ih _).trans (group_harm s sec core grp)
theorem group_harmsIf (bad : Bool) (secs : List Nat) (s : State) (core grp : Nat) :
    (if bad then secs.foldl State.harm s else s).group core grp = s.group core grp := by
  cases bad
  · rfl
  · exact group_harms secs s core grp

/-! ### A returning load (R133) -/

/-- The group after a load returns: its values filled, its transaction over, its count one less. -/
def returnedGroup (x : Txn) (bad : Bool) (g : Group) : Group :=
  { fillAll x.id bad x.fills g with
    txns := (fillAll x.id bad x.fills g).txns.filter fun y => y.id != x.id, ld := (fillAll x.id bad x.fills g).ld - 1 }

theorem loadReturn_eq {s : State} {core grp : Nat} {bad : Bool} {x : Txn} (hx : x ∈ (s.group core grp).txns) (hload : x.store = false)
    (huniq : ∀ y ∈ (s.group core grp).txns, y.id = x.id → y = x) :
    s.loadReturn core grp x.id bad = (if bad then x.secs.foldl State.harm s else s).updGroup core grp (returnedGroup x bad) := by
  have hfind : (s.group core grp).txns.find? (fun y => y.id == x.id && !y.store) = some x := by
    cases hf : (s.group core grp).txns.find? (fun y => y.id == x.id && !y.store) with
    | none => exact absurd (List.find?_eq_none.mp hf x hx) (by simp [hload])
    | some y =>
      have hy := List.find?_some hf
      rw [Bool.and_eq_true, beq_iff_eq] at hy
      rw [huniq y (List.mem_of_find?_eq_some hf) hy.1]
  unfold State.loadReturn
  rw [hfind]
  rfl

/-- Settles O53: the equation of a returning load, with the rules of `fill` and of an uncorrectable error. -/
theorem loadsReturn : Obligations.LoadsReturn := by
  refine ⟨?_, fun s sec a => ⟨fun h => ?_, fun h => ⟨?_, ?_⟩⟩, fun x t v r k p a h hk => ?_, fun x t v r p a h => ?_,
    fun x t v k j p a h hk => ?_⟩
  · rintro s core grp txn bad x hx rfl hload huniq
    have hgroup : ((if bad then x.secs.foldl State.harm s else s).updGroup core grp (returnedGroup x bad)).group core grp =
        returnedGroup x bad (s.group core grp) := by rw [State.group_updGroup_same, group_harmsIf]
    refine ⟨_, congrArg Host.Outcome.next (loadReturn_eq hx hload huniq), ?_, ?_, fun y => ?_, fun l => ?_⟩
    · unfold atGroup; rw [State.group_updGroup_same]; rfl
    · rw [hgroup]; show (fillAll x.id bad x.fills _).ld - 1 = _; rw [ld_fillAll]
    · rw [hgroup]
      show y ∈ (fillAll x.id bad x.fills _).txns.filter _ ↔ _
      rw [txns_fillAll, List.mem_filter, bne_iff_ne]
    · have hlane : ((if bad then x.secs.foldl State.harm s else s).updGroup core grp (returnedGroup x bad)).lane core grp l =
          (brings x l).foldl (fun y f => y.fill x.id f.v.toNat (f.poison || bad) f.ea) (s.lane core grp l) := by
        unfold State.lane; rw [hgroup]; exact lane_fillAll x.id bad x.fills _ l
      exact ⟨fun h => by rw [hlane, h]; rfl, fun f h => by rw [hlane, h]; rfl⟩
  · unfold State.harm; rw [if_pos h]; exact ⟨poison_harm .., rfl⟩
  · unfold State.harm; rw [if_neg (by omega)]; rfl
  · rw [core_scr_harm_odd s h, poison_harm]; simp
  · rw [reg_fill, filledReg_reserved h hk]
  · rw [reg_fill, filledReg_other h]
  · rw [age_fill, filledEnt_reserved h hk]

/-! ### A block load whose first sector's mark moves the walk of its second (R130, R219, R221)

`AccessFrames` allows a change only in the sectors of the leaf entries that walks from the state *before* the access reach.  A 6-bit block
load may cross into a second page, and its marks are made one after another: the second walk reads the tables with the first page's ACC bit
set.  The statement asks nothing of the context's root table, and a root that is not a multiple of 8 can overlap a leaf entry, so that the
ACC bit of the first page is a bit of the root entry's table pointer.  The second walk then goes to other tables, and marks an entry there.
(CTX_CREATE takes only roots that are multiples of 32 KiB, where this cannot happen.) -/

/-- Where the words of the tables stand.  The root's entry 0, at 0xFFFC, has its high half in the leaf entry of page 0, at 0x10000: it points to
0x3_0000_0000, and to 0x23_0000_0000 once that leaf has its ACC bit. -/
def twistedTables : List (Nat × Nat) :=
  [(0xFFFC, 1), (0x10000, 3 + 2 ^ 32), (0x10008, 3 + 5 * 2 ^ 25), (0x300000000, 0x8001), (0x8000, 0x10001),
   (0x2300000000, 0x18001), (0x18000, 0x20001), (0x20008, 3 + 6 * 2 ^ 25)]
/-- A chain in lane 0, whose register `n4` holds the address of the last sector of page 0. -/
def twisted : State :=
  { mem := twistedTables.foldl (fun m p => m.writeKey 0 p.1 (toBytesLE 8 p.2) false) {}
    cores := [(0, { groups := [(0, { lanes := [(0, { regs := [(4, { v := 0xFFE0 })] })] })] })]
    keeper := { ctxs := [(0, { root := 0xFFFC })] }
    chain := { active := true, lanes := 1 } }
/-- The block load: its three sectors are the last of page 0 and the first two of page 1. -/
def twistedLoad : Instr := .ldb false (.n 3) (.n 4) .e3m2 0
def twistedForm : Form := twistedLoad.form.getD { pipe := .b }
def twistedLocs : List Loc := [.dev 0x80FFE0 0 0xFFE0 0, .dev 0x50000 0 0x10000 0, .dev 0x50020 0 0x10020 0]
def twistedEffs : List Eff := [.loadBlk (.n 3) .e3m2 twistedLocs 0xFFE0 {}]

theorem twisted_executing : executing twisted twistedLoad = [0] := by decide
theorem ok_of_toOption {α β : Type} {x : Except α β} {v : β} (h : x.toOption = some v) : x = .ok v := by
  cases x with
  | error e => cases h
  | ok w => exact congrArg Except.ok (Option.some.inj h)
theorem twisted_ready : Ready twisted twistedLoad twistedForm fun _ => [0xFFE0] where
  form := rfl
  active := rfl
  lanes := by decide
  quiet := fun _ h => nomatch h
  checks := by decide
  plain := rfl
  reads := by
    intro l hl
    rw [twisted_executing, List.mem_singleton] at hl
    subst hl
    exact ok_of_toOption (by decide)
theorem twisted_held : Held twisted twistedForm := by
  intro x hx hmq
  cases hx
  exact absurd rfl hmq
theorem twisted_plan : twisted.planBlock 0 0 .load false .e3m2 0xFFE0 0 = .ok (twistedLocs, 0xFFE0) := ok_of_toOption (by decide +kernel)
theorem twisted_loads : blockLoads false (.n 3) .e3m2 0 twisted [(0, [0xFFE0])] 0 [0xFFE0] twistedEffs :=
  ⟨twistedLocs, 0xFFE0, twisted_plan, by decide +kernel⟩
theorem twisted_room : Room twisted twistedLoad twistedForm fun _ => twistedEffs := by
  refine ⟨by decide +kernel, by decide +kernel, by decide +kernel, by decide +kernel⟩
theorem twisted_noCopies : noCopies twisted 0 := by
  refine ⟨by decide +kernel, fun c => ?_, fun _ h => nomatch h⟩
  cases c <;> rfl

/-- The sector of 0x20008 holds no leaf entry that a walk of the three places reaches. -/
theorem twisted_unmarked : ∀ loc ∈ twistedLocs, ¬ mayMark twisted loc (0x20008 / 32) := by
  have h0 : twisted.walk 0 0xFFE0 = .leaf (3 + 2 ^ 32) false 0x10000 := by decide +kernel
  have h1 : twisted.walk 0 0x10000 = .leaf (3 + 5 * 2 ^ 25) false 0x10008 := by decide +kernel
  have h2 : twisted.walk 0 0x10020 = .leaf (3 + 5 * 2 ^ 25) false 0x10008 := by decide +kernel
  have key : ∀ {va x entry : Nat}, twisted.walk 0 va = .leaf x false entry → 0x20008 / 32 ∉ sectorsOf entry 8 →
      ¬ ∃ x big entry, twisted.walk 0 va = .leaf x big entry ∧ 0x20008 / 32 ∈ sectorsOf entry 8 := by
    rintro va x entry hw hs ⟨x', big, entry', hw', hs'⟩
    rw [hw] at hw'
    cases hw'
    exact hs hs'
  intro loc hloc
  simp only [twistedLocs, List.mem_cons, List.not_mem_nil, or_false] at hloc
  rcases hloc with rfl | rfl | rfl
  · exact key h0 (by decide)
  · exact key h1 (by decide)
  · exact key h2 (by decide)

/-- Yet the byte at 0x20008 takes the ACC bit. -/
def byteAfter (o : Host.Outcome State Fault Refusal) : Byte := match o with
  | .next t => t.mem.getKey 0 0x20008
  | _ => 0
theorem twisted_marks : twisted.mem.getKey 0 0x20008 = 0x03 ∧ byteAfter (exec twistedLoad twisted) = 0x23 := by decide +kernel

/-- The part of `AccessFrames` that speaks of `ldb`. -/
theorem ldb_of_accessFrames (h : Obligations.AccessFrames) (d : Dst) (a : Src) (f : EFmt) (o7 : BitVec 7) :
    Leaves (.ldb false d a f o7) (fun s l v es => blockLoads false d f o7 s [(l, v)] l v es) (blockLoaded false d f o7) := by
  obtain ⟨-, -, -, -, -, -, -, -, -, -, -, -, -, -, -, -, -, -, -, -, -, -, -, -, -, -, -, -, -, -, -, -, -, -, -, -, -, -, -, -, hldb, -⟩ :=
    h .zero d a .zero 0 .add .addF32 f o7
  exact hldb

/-- Refutes O32: the block load `twistedLoad`, with an unaligned root table, marks a leaf entry that no walk from the state before it reaches. -/
theorem not_accessFrames : ¬ Obligations.AccessFrames := by
  intro h
  obtain ⟨t, hexec, hloaded⟩ := ldb_of_accessFrames h (.n 3) (.n 4) .e3m2 0 twisted twistedForm (fun _ => [0xFFE0]) (fun _ => twistedEffs) 0
    twisted_ready twisted_held twisted_executing twisted_loads twisted_room twisted_noCopies
  obtain ⟨⟨hkept, -⟩, -⟩ := hloaded twistedLocs 0xFFE0 twisted_plan
  have hsame : t.mem.getKey 0 0x20008 = twisted.mem.getKey 0 0x20008 :=
    hkept 0x20008 0 (fun i hi => absurd hi (Nat.not_lt_zero i)) twisted_unmarked
  obtain ⟨hbefore, hafter⟩ := twisted_marks
  have hchanged : t.mem.getKey 0 0x20008 = 0x23 := by
    rw [show exec twistedLoad twisted = .next t from hexec] at hafter
    exact hafter
  rw [hchanged, hbefore] at hsame
  exact absurd hsame (by decide)

end Sys2Proof.SequentialMachine
end

section
/-! PROOFS. Instruction encoding: the decoder on written-out words and on every encoded word, the checks of a word in its chain, guards,
and the events of lanes, groups, teams and grids. -/
open Sys2Proof Sys2Proof.Machine Sys2Proof.Safety Sys2Proof.Rules

namespace Sys2Proof.InstructionEncoding

/-! ### Decoding what is encoded (R33 to R47) -/
open Laws in
/-- Settles O46: by cases on the constructor, each by the round trip of its word's fields; an event has no word and is not well-formed. -/
theorem decodeOfEncode : Obligations.DecodeOfEncode := fun i => Instr.casesOn (motive := RoundTrip.Statement) i
    RoundTrip.nop RoundTrip.exit RoundTrip.trap RoundTrip.brk RoundTrip.rdsr RoundTrip.wrsr RoundTrip.sleep RoundTrip.yield RoundTrip.prio
    RoundTrip.rfe RoundTrip.kreq RoundTrip.iadd RoundTrip.isub RoundTrip.imul RoundTrip.imulh RoundTrip.idiv RoundTrip.irem RoundTrip.imin
    RoundTrip.imax RoundTrip.iabs RoundTrip.ineg RoundTrip.and RoundTrip.or RoundTrip.xor RoundTrip.andn RoundTrip.not RoundTrip.shl
    RoundTrip.shr RoundTrip.sar RoundTrip.rol RoundTrip.ror RoundTrip.clz RoundTrip.ctz RoundTrip.popc RoundTrip.brev RoundTrip.bswap
    RoundTrip.bfe RoundTrip.lea RoundTrip.mov RoundTrip.shrr RoundTrip.sel RoundTrip.iaddi RoundTrip.andi RoundTrip.ori RoundTrip.xori
    RoundTrip.shli RoundTrip.shri RoundTrip.sari RoundTrip.movi RoundTrip.icmpS RoundTrip.icmpU RoundTrip.icmpSW RoundTrip.icmpUW
    RoundTrip.fcmpF32 RoundTrip.fcmpF16 RoundTrip.fclass RoundTrip.plog RoundTrip.setp RoundTrip.bra RoundTrip.braEnrol RoundTrip.strike
    RoundTrip.call RoundTrip.brx RoundTrip.join RoundTrip.guard RoundTrip.rjset RoundTrip.rjget RoundTrip.fadd RoundTrip.fsub RoundTrip.fmul
    RoundTrip.fmin RoundTrip.fmax RoundTrip.fminm RoundTrip.fmaxm RoundTrip.fabs RoundTrip.fneg RoundTrip.fcopysign RoundTrip.fround
    RoundTrip.twosum RoundTrip.ffmaF32 RoundTrip.ffmaF16x2 RoundTrip.ffmaBf16x2 RoundTrip.ffnmaF32 RoundTrip.ffnmaF16x2
    RoundTrip.ffnmaBf16x2 RoundTrip.frcp RoundTrip.frsq RoundTrip.fsqrt RoundTrip.fexp2 RoundTrip.flog2 RoundTrip.fsin RoundTrip.fcos
    RoundTrip.ftanh RoundTrip.fsigm RoundTrip.fdiv RoundTrip.cvtF RoundTrip.cvtIf RoundTrip.cvtFi RoundTrip.qnt RoundTrip.dqnt
    RoundTrip.fldexp RoundTrip.fexpo RoundTrip.srnd RoundTrip.padd2 RoundTrip.psub2 RoundTrip.pmul2 RoundTrip.pmin2 RoundTrip.pmax2
    RoundTrip.pshr2 RoundTrip.ppack RoundTrip.punpkLo RoundTrip.punpkHi RoundTrip.pabs2 RoundTrip.pmac2 RoundTrip.pmac4 RoundTrip.fdot2F16
    RoundTrip.fdot2Bf16 RoundTrip.cfma RoundTrip.cfmaj RoundTrip.bfi RoundTrip.mad RoundTrip.slideUp RoundTrip.slideDn RoundTrip.slideH
    RoundTrip.shfl RoundTrip.shflx RoundTrip.bcast RoundTrip.vote RoundTrip.gred RoundTrip.gscan RoundTrip.qred RoundTrip.xmatch
    RoundTrip.bmax RoundTrip.bscale RoundTrip.bqnt RoundTrip.bdqnt RoundTrip.bsetsc RoundTrip.bgetsc RoundTrip.bshift RoundTrip.brescale
    RoundTrip.bdot RoundTrip.ldB8u RoundTrip.ldB8s RoundTrip.ldB16u RoundTrip.ldB16s RoundTrip.ldB32 RoundTrip.ldB64 RoundTrip.ldB128
    RoundTrip.ldacqB32 RoundTrip.ldacqB64 RoundTrip.ldsB32 RoundTrip.ldsB64 RoundTrip.ldsB128 RoundTrip.ldb RoundTrip.ldbs RoundTrip.ldncB32
    RoundTrip.stB8 RoundTrip.stB16 RoundTrip.stB32 RoundTrip.stB64 RoundTrip.stB128 RoundTrip.strelB32 RoundTrip.strelB64 RoundTrip.stsB8
    RoundTrip.stsB32 RoundTrip.stsB64 RoundTrip.stsB128 RoundTrip.stb RoundTrip.stbs RoundTrip.atomB32 RoundTrip.atomB64 RoundTrip.redB32
    RoundTrip.redB64 RoundTrip.atomf RoundTrip.redf RoundTrip.casB32 RoundTrip.casB64 RoundTrip.cas2 RoundTrip.amaxrst RoundTrip.atoms
    RoundTrip.reds RoundTrip.cass RoundTrip.atomfs RoundTrip.bar RoundTrip.minit RoundTrip.marrive RoundTrip.mexpect RoundTrip.mwait
    RoundTrip.mtest RoundTrip.fence RoundTrip.xfence RoundTrip.wait RoundTrip.cinv RoundTrip.cwb RoundTrip.pfetch RoundTrip.smap
    RoundTrip.sunmap RoundTrip.sflush RoundTrip.pinfo RoundTrip.tlbi RoundTrip.cpy RoundTrip.seal RoundTrip.tile RoundTrip.relay
    RoundTrip.gath RoundTrip.mrsv RoundTrip.mrel RoundTrip.mcvn RoundTrip.mma RoundTrip.mmd RoundTrip.mzero RoundTrip.mdrain RoundTrip.mload
    RoundTrip.mcfg RoundTrip.mcmplx RoundTrip.glapp RoundTrip.glfold RoundTrip.emit RoundTrip.spawn RoundTrip.jdec RoundTrip.wtag
    RoundTrip.wclose RoundTrip.wfence RoundTrip.bcas RoundTrip.benq RoundTrip.bchase RoundTrip.bred RoundTrip.xev RoundTrip.xtest
    RoundTrip.tmchk RoundTrip.tmwait RoundTrip.tmpin RoundTrip.tmunpin RoundTrip.loadDataReturn RoundTrip.fenceCompletion
    RoundTrip.speculationRollback RoundTrip.sleepExpiry RoundTrip.mooringOpAtHome RoundTrip.chunkFill RoundTrip.scratchWriteback
    RoundTrip.groupEnd RoundTrip.gridRetirement RoundTrip.preemptionRequest RoundTrip.contextSave RoundTrip.faultService
    RoundTrip.faultRecordDelivery RoundTrip.retry RoundTrip.remap RoundTrip.setrap RoundTrip.migrate RoundTrip.restream RoundTrip.deliver
    RoundTrip.abort RoundTrip.ret RoundTrip.copyBatchCompletion RoundTrip.tileCompletion RoundTrip.relayHopCompletion
    RoundTrip.gatherCompletion RoundTrip.jointIssue RoundTrip.matrixPass RoundTrip.matrixOpCompletion RoundTrip.matrixHeaderFailure
    RoundTrip.mdrainEntryDelivery RoundTrip.glappRecordWrite RoundTrip.recordFold RoundTrip.glfoldRetirement RoundTrip.doorbell
    RoundTrip.packetNop RoundTrip.launch RoundTrip.coll RoundTrip.waitmem RoundTrip.waitmemReread RoundTrip.signalmem RoundTrip.modelRequest
    RoundTrip.modelWithdraw RoundTrip.modelPin RoundTrip.modelUnpin RoundTrip.qbarrier RoundTrip.workTableTimeout RoundTrip.placementAttempt
    RoundTrip.candidateReservation RoundTrip.thermalMigration RoundTrip.jdecAtHome RoundTrip.layerArrival RoundTrip.layerFetchFailure
    RoundTrip.layerEviction RoundTrip.reflectionArrival RoundTrip.reflectionAcknowledgement RoundTrip.closeMarkerArrival
    RoundTrip.daymarkArrival RoundTrip.beaconBcasStep RoundTrip.beaconBenqStep RoundTrip.beaconBchaseStep RoundTrip.beaconBredStep
    RoundTrip.ualinkReadReceived RoundTrip.slotGrant RoundTrip.contributionArrival RoundTrip.memberReport RoundTrip.readyWordPoll
    RoundTrip.collectiveFailure RoundTrip.vaultRowSparing RoundTrip.hbmChannelFailure RoundTrip.dieLinkLaneFailure
    RoundTrip.ualinkPortFailure RoundTrip.coreFailure RoundTrip.vaultFailure RoundTrip.heartbeatTakeover RoundTrip.cxlPortFailure
    RoundTrip.patrolScrub RoundTrip.hostMemAccess RoundTrip.scaleViewWrite RoundTrip.ctxCreate RoundTrip.ctxSet RoundTrip.ctxDestroy
    RoundTrip.map RoundTrip.unmap RoundTrip.xlate RoundTrip.keyLoad RoundTrip.keyClear RoundTrip.winSet RoundTrip.queueSet
    RoundTrip.queueClear RoundTrip.layerDone RoundTrip.fwWrite RoundTrip.fwCommit RoundTrip.warm RoundTrip.mailboxUnknownCode
    RoundTrip.bar0WriteIgnored RoundTrip.coldStart RoundTrip.warmReset RoundTrip.managementRead RoundTrip.plimWrite
    RoundTrip.coldResetRequest RoundTrip.powerWindow RoundTrip.temperatureHot RoundTrip.temperatureTrip RoundTrip.illegalOp
    RoundTrip.packetFetch RoundTrip.mbstsRead RoundTrip.hdmDecoderWrite RoundTrip.digestExchange RoundTrip.vaultSplitChange

/-! ### Written-out words (R40, R49, R50) -/
/-- The two reserved major opcodes are those of the words that the last table entries leave (R40). -/
theorem decodeWord_reserved {w : Nat} (hmaj : 30 ≤ fMaj w) (hne : w ≠ 0xFFFFFFFF) : decodeWord w = .error 0x02 := by
  have hlt : fMaj w < 32 := Nat.mod_lt _ (by decide)
  obtain h | h : fMaj w = 30 ∨ fMaj w = 31 := by omega
  · rw [decodeWord, if_neg hne, h]; rfl
  · rw [decodeWord, if_neg hne, h]; rfl

theorem thirty_le_fMaj {w : Nat} (h : 0x78000000 ≤ w % 2 ^ 31) : 30 ≤ fMaj w := by
  simp only [fMaj, bits, Nat.shiftRight_eq_div_pow]; omega

/-- Settles O45: each written-out word by evaluation of the decoder, the reserved majors for every word that has one. -/
theorem decodedWords : Obligations.DecodedWords :=
  ⟨rfl, rfl, rfl, rfl, rfl, rfl, rfl, rfl, rfl, fun _ hmaj hne _ => decodeWord_reserved (thirty_le_fMaj hmaj) hne, rfl, rfl, rfl, rfl, rfl⟩

/-! ### Checks of a word in its chain (R41, R49) -/
theorem isPrivileged_iff (i : Instr) : isPrivileged i = true ↔ (∃ ch, i = .rfe ch) ∨ ∃ ch a b, i = .tlbi ch a b := by
  constructor
  · intro h
    unfold isPrivileged at h
    split at h
    · exact .inl ⟨_, rfl⟩
    · exact .inr ⟨_, _, _, rfl⟩
    · cases h
  · rintro (⟨ch, rfl⟩ | ⟨ch, a, b, rfl⟩) <;> rfl

/-- A word that fails a check of its chain is rejected with that check's cause, whatever word it is. -/
theorem rejects_of_wordCheck {s : State} {i : Instr} {f : Form} {c : Cause} {sub : Nat} (h : s.wordCheck i.ch i f = some (c, sub)) :
    Rejects s i f c sub := by
  intro hform
  obtain ⟨go, hexec⟩ := SequentialMachine.exec_eq_word hform
  exact rejects h (hexec s) hform

theorem overlap_iff (a b : Nat × Nat) : overlap a b = true ↔ ¬(a.1 + a.2 ≤ b.1 ∨ b.1 + b.2 ≤ a.1) := by
  simp only [overlap, Bool.and_eq_true, decide_eq_true_eq]; omega

/-- Step 13 of R49: some register the word writes is written by an earlier word of the chain. -/
def writesTwice (c : Chain) (f : Form) : Bool := match namedBy f with | some w => c.writes.any (overlap w) | none => false

theorem writesTwice_iff (c : Chain) (f : Form) :
    writesTwice c f = true ↔ ∃ a b, namedBy f = some a ∧ b ∈ c.writes ∧ ¬(a.1 + a.2 ≤ b.1 ∨ b.1 + b.2 ≤ a.1) := by
  unfold writesTwice
  cases h : namedBy f with
  | none => simp
  | some a => simp [List.any_eq_true, overlap_iff]
theorem popsTwice_iff (c : Chain) (f : Form) : (poppedBy f).any (c.pops.contains ·) = true ↔ ∃ x ∈ poppedBy f, x ∈ c.pops := by
  simp [List.any_eq_true]

section
variable {s : State} {ch : Bool} {i : Instr} {f : Form}

/-- Step 6: the literals end past the packet. -/
theorem wordCheck_literals (h : 3 < s.chain.slot + 1 + f.lits) : s.wordCheck ch i f = some (.illegalOp, 0x06) := if_pos h
/-- Step 7: the chain bit on the packet's last word. -/
theorem wordCheck_chainEnd (h : s.chain.slot + 1 + f.lits = 3) (hch : ch = true) : s.wordCheck ch i f = some (.illegalOp, 0x07) := by
  rw [State.wordCheck, if_neg (by omega), if_pos (by simp [h, hch])]

/-- The word fits its packet: steps 6 and 7 pass. -/
def Fits (s : State) (ch : Bool) (f : Form) : Prop := s.chain.slot + 1 + f.lits < 3 ∨ s.chain.slot + 1 + f.lits = 3 ∧ ch = false
theorem wordCheck_fits (h : Fits s ch f) : s.wordCheck ch i f =
    if isPrivileged i && !(s.ctx s.cctx).priv then some (.privilege, 0x20)
    else if s.chain.pipes.contains f.pipe then some (.illegalChain, 0x30)
    else if writesTwice s.chain f then some (.illegalChain, 0x31)
    else if (poppedBy f).any (s.chain.pops.contains ·) then some (.illegalChain, 0x32)
    else if isSel i && s.chain.guard.isNone then some (.illegalChain, 0x34)
    else none := by
  have hlits : ¬ 3 < s.chain.slot + 1 + f.lits := by rcases h with h | ⟨h, -⟩ <;> omega
  have hend : ¬ (ch && s.chain.slot + 1 + f.lits == 3) = true := by
    rcases h with h | ⟨-, rfl⟩
    · simp; omega
    · simp
  rw [State.wordCheck, if_neg hlits, if_neg hend]; rfl

/-- No register is written twice where every register that the word writes lies apart from those written before. -/
theorem not_writesTwice {c : Chain} (h : ∀ a b, namedBy f = some a → b ∈ c.writes → a.1 + a.2 ≤ b.1 ∨ b.1 + b.2 ≤ a.1) : ¬ writesTwice c f = true := by
  rw [writesTwice_iff]
  rintro ⟨a, b, ha, hb, hover⟩
  exact hover (h a b ha hb)
theorem not_popsTwice {c : Chain} (h : ∀ x ∈ poppedBy f, x ∉ c.pops) : ¬ (poppedBy f).any (c.pops.contains ·) = true := by
  rw [popsTwice_iff]
  rintro ⟨x, hx, hin⟩
  exact h x hx hin
end

/-- Settles O47: the checks in the order of R49, each reached by the words that pass those before it. -/
theorem rejectedWords : Obligations.RejectedWords := by
  intro i f s next fits allowed apart clear
  refine ⟨fun h => rejects_of_wordCheck (wordCheck_literals h), fun h hch => rejects_of_wordCheck (wordCheck_chainEnd h hch),
    ?privileged, ?pipe, ?write, ?pop, ?sel, isPrivileged_iff i⟩
  case privileged =>
    intro hfit hp hu
    refine rejects_of_wordCheck ?_
    rw [wordCheck_fits hfit, if_pos (by simp [hp, hu])]
  case pipe =>
    rintro ⟨hfit, hpriv⟩ hused
    refine rejects_of_wordCheck ?_
    rw [wordCheck_fits hfit, if_neg (by simpa using hpriv), if_pos (by simpa using hused)]
  case write =>
    rintro ⟨⟨hfit, hpriv⟩, hpipe⟩ hwrite
    refine rejects_of_wordCheck ?_
    rw [wordCheck_fits hfit, if_neg (by simpa using hpriv), if_neg (by simpa using hpipe), if_pos ((writesTwice_iff ..).mpr hwrite)]
  case pop =>
    rintro ⟨⟨⟨hfit, hpriv⟩, hpipe⟩, hwrites⟩ hpop
    refine rejects_of_wordCheck ?_
    rw [wordCheck_fits hfit, if_neg (by simpa using hpriv), if_neg (by simpa using hpipe), if_neg (not_writesTwice hwrites),
      if_pos ((popsTwice_iff ..).mpr hpop)]
  case sel =>
    rintro ⟨⟨⟨hfit, hpriv⟩, hpipe⟩, hwrites⟩ hpops hsel hguard
    refine rejects_of_wordCheck ?_
    rw [wordCheck_fits hfit, if_neg (by simpa using hpriv), if_neg (by simpa using hpipe), if_neg (not_writesTwice hwrites),
      if_neg (not_popsTwice hpops), if_pos (by simp [hsel, hguard])]

/-! ### A guard and the word after it (R28, R50) -/
section
variable {s : State} {x : PSrc}

/-- The form of a `guard`: no source, no destination. -/
def guardForm (x : PSrc) : Form := ⟨.b, [], none, !(x.p == 0 && x.neg)⟩
/-- The body of a `guard`: no lane does anything. -/
def guardBody : Body := bodyEach fun _ _ _ => .ok []
theorem exec_guard (h : s.chain.active = true) : exec (.guard x) s = .next (s.runWord true (.guard x) (guardForm x) guardBody) := by
  show Host.Outcome.next (if s.chain.active then _ else _) = _
  rw [h]; rfl

/-- Every lane that executes a `guard` completes it with nothing to do. -/
theorem outs_guard : ∀ p ∈ (s.wordOut (.guard x) (guardForm x) guardBody).outs, p.2 = .ok [] := by
  have hheld : s.held (.guard x) (guardForm x) = false := by simp [State.held, guardForm, speculates, poppedBy]
  have hrows : s.wordRows (.guard x) (guardForm x) = (executing s (.guard x)).map fun l => (l, Except.ok []) := rfl
  intro p hp
  simp only [State.wordOut, hheld, hrows, badRows_ok, goodRows_ok] at hp
  obtain ⟨q, hq, rfl⟩ := List.mem_map.mp hp
  obtain ⟨r, -, rfl⟩ := List.mem_map.mp hq
  rfl

/-- A word whose lanes have nothing to do leaves each lane of its chain as it was. -/
theorem fate_append {c : Chain} {w : WordOut} (h : ∀ p ∈ w.outs, p.2 = .ok []) (l : Nat) :
    Chain.fate { c with outs := c.outs ++ [w] } l = c.fate l ∧ Chain.effs { c with outs := c.outs ++ [w] } l = c.effs l := by
  have hnone : w.failIn l = none ∧ w.effsIn l = [] := by
    unfold WordOut.failIn WordOut.effsIn
    cases e : Tbl.find w.outs l with
    | none => exact ⟨rfl, rfl⟩
    | some o => obtain rfl := h _ (find_mem e); exact ⟨rfl, rfl⟩
  constructor
  · simp [Chain.fate, List.findSome?_append, hnone.1]
  · simp [Chain.effs, hnone.2]
end

/-- Settles O42: the word joins the chain with nothing to do in any lane, and its predicate is the guard of the next word. -/
theorem guardWord : Obligations.GuardWord := by
  intro x s f hform hactive hcheck
  obtain rfl : guardForm x = f := Option.some.inj hform
  refine ⟨s.addWord (.guard x) (guardForm x) (s.wordOut (.guard x) (guardForm x) guardBody), ?_, rfl, hactive, rfl, rfl, rfl, fun l => ?_⟩
  · rw [exec_guard hactive, State.runWord, hcheck]; rfl
  · obtain ⟨hfate, heffs⟩ := fate_append (c := s.chain) (outs_guard (s := s) (x := x)) l
    exact ⟨hfate, heffs, rfl⟩

/-! ### Fences, sleep and moorings (R96, R183, R186, R189 to R191) -/
section
variable {s : State} {core grp : Nat}

theorem atGroup_updGroup (s : State) (core grp : Nat) (f : Group → Group) : atGroup s core grp (s.updGroup core grp f) := by
  unfold atGroup
  rw [State.group_updGroup_same]; rfl

theorem fenceDone_eq {sp : Spec} (hspec : (s.group core grp).spec = some sp) (hhit : sp.hit = false) (hready : s.fenceReady core grp sp = true)
    (hkept : ((s.fenceCopies core grp sp).group core grp).isHit = false) :
    s.fenceDone core grp = (s.fenceCopies core grp sp).fenceEnd core grp sp := by
  simp only [State.fenceDone, hspec, hhit, hready, hkept]; rfl

theorem spec_fenceEnd (s : State) (core grp : Nat) (sp : Spec) : ((s.fenceEnd core grp sp).group core grp).spec = none := by
  simp only [State.fenceEnd, State.group_updGroup_same]

theorem fenceEnd_atGroup {sp : Spec} (h : sp.dropsL1 = false) : atGroup s core grp (s.fenceEnd core grp sp) := by
  simp only [State.fenceEnd, h]; exact atGroup_updGroup ..

theorem fenceEnd_l1 {sp : Spec} (h : sp.dropsL1 = true) : ((s.fenceEnd core grp sp).core core).l1 = [] := by
  simp [State.fenceEnd, h, State.updGroup, State.setGroup, State.l1DropAll]

theorem fenceCopies_none {sp : Spec} (h : sp.copies = false) : s.fenceCopies core grp sp = s := by
  simp [State.fenceCopies, h]

theorem rollback_eq {sp : Spec} (hspec : (s.group core grp).spec = some sp) (hhit : sp.hit = true) :
    s.rollback core grp = s.updGroup core grp fun g => g.rollback sp := by
  simp only [State.rollback, hspec, hhit, if_true]

theorem mem_txns_rollback (g : Group) (sp : Spec) (x : Txn) :
    x ∈ (g.rollback sp).txns ↔ x ∈ g.txns ∧ (sp.ticket ≤ x.id → x.store = true) := by
  simp [Group.rollback, Group.mapLanes, imp_iff_not_or]

theorem find_lanes_rollback {g : Group} {sp : Spec} {l : Nat} {x : Lane} {y : LaneSnap} (hx : Tbl.find g.lanes l = some x)
    (hy : Tbl.find sp.snap l = some y) : Tbl.find (g.rollback sp).lanes l = some (x.restore y) := by
  simp only [Group.rollback, Group.mapLanes, Tbl.find_mapV, hx, Option.map_some, hy]

theorem wakeSleep_eq {l u : Nat} (hgrp : s.hasGroup core grp = true) (hmode : (s.lane core grp l).mode = .sleeping u) (hdue : u ≤ s.now) :
    s.wakeSleep core grp l = s.updLane core grp l fun x => { x with mode := .ready } := by
  simp only [State.wakeSleep, hgrp, hmode, if_pos hdue]; rfl

theorem mooringHome_eq {k : Nat} {p : Posted} (h : firstPosted s k p) : s.mooringHome k = s.performPosted k p := by
  obtain ⟨hfind, hfirst⟩ := h
  have hahead : s.postedAhead k p = false := by
    simp only [State.postedAhead, List.any_eq_false, Bool.and_eq_true, decide_eq_true_eq, beq_iff_eq, not_and]
    exact hfirst
  simp only [State.mooringHome, hfind, hahead]; rfl

section
variable {k : Nat} {p : Posted} {m : Mooring}

/-- The state without a posted operation. -/
def unposted (s : State) (k : Nat) : State := { s with posted := Tbl.del s.posted k }
theorem performPosted_some (hop : (s.mooring p.moor).op p.kind p.units.toNat = some m) :
    s.performPosted k p = if p.kind = 1 && ((unposted s k).moorPut none p.moor m).hasGroup p.core p.grp then
        ((unposted s k).moorPut none p.moor m).updGroup p.core p.grp fun g =>
          g.fill1 p.txn ⟨p.lane, BitVec.ofNat 128 (bit01 (s.mooring p.moor).phase), 32, false, 0⟩ false
      else (unposted s k).moorPut none p.moor m := by
  have hop' : ((unposted s k).mooring p.moor).op p.kind p.units.toNat = some m := hop
  unfold unposted at hop' ⊢
  simp only [State.performPosted, hop']; rfl
theorem performPosted_other (hop : (s.mooring p.moor).op p.kind p.units.toNat = some m) (hkind : p.kind ≠ 1) :
    s.performPosted k p = (unposted s k).moorPut none p.moor m := by
  rw [performPosted_some hop, if_neg (by simp [hkind])]
theorem performPosted_arrival (hop : (s.mooring p.moor).op p.kind p.units.toNat = some m) (hkind : p.kind = 1)
    (hgrp : ((unposted s k).moorPut none p.moor m).hasGroup p.core p.grp = true) :
    s.performPosted k p = ((unposted s k).moorPut none p.moor m).updGroup p.core p.grp fun g =>
      g.fill1 p.txn ⟨p.lane, BitVec.ofNat 128 (bit01 (s.mooring p.moor).phase), 32, false, 0⟩ false := by
  rw [performPosted_some hop, if_pos (by simp [hkind, hgrp])]
theorem performPosted_misuse (hop : (s.mooring p.moor).op p.kind p.units.toNat = none) (hgrp : s.hasGroup p.core p.grp = true) :
    s.performPosted k p = (unposted s k).updLane p.core p.grp p.lane fun x => { x with pend := some (.mooringMisuse, p.moor.va) } := by
  have hop' : ((unposted s k).mooring p.moor).op p.kind p.units.toNat = none := hop
  have hgrp' : (unposted s k).hasGroup p.core p.grp = true := hgrp
  unfold unposted at hop' hgrp' ⊢
  simp only [State.performPosted, hop', hgrp', if_true]
end

/-! ### Posted decrements (R309) -/
/-- The word of the counter that a posted decrement names, the state without the decrement, and that state with the counter one less. -/
def jdecWord (s : State) (p : PJdec) : Nat := ofBytesLE (s.devRead p.key p.addr 8).1
def jdecTaken (s : State) (k : Nat) : State := { s with lantern := { s.lantern with jdecs := s.lantern.jdecs.eraseIdx k } }
def jdecMade (s : State) (k : Nat) (p : PJdec) : State :=
  (jdecTaken s k).devWrite none p.key p.addr (toBytesLE 2 (jdecWord s p % 65536 - 1)) false
section
variable {k : Nat} {p : PJdec} (h : s.lantern.jdecs[k]? = some p)
include h
theorem jdecHome_underflow (hw : jdecWord s p % 65536 = 0) : s.jdecHome k = (jdecTaken s k).record
    { cause := .countUnderflow, src := 9, ctx := p.ctx, core := p.core, gslot := p.gslot, team := p.team, addr := p.va } := by
  unfold State.jdecHome
  rw [h]
  exact if_pos hw
theorem jdecHome_counts (hw : jdecWord s p % 65536 ≠ 0) : s.jdecHome k =
    if jdecWord s p % 65536 = 1 ∧ bitAt (jdecWord s p) 62 then (jdecMade s k p).joinZero p.addr else jdecMade s k p := by
  unfold State.jdecHome
  rw [h]
  exact if_neg hw
theorem jdecHome_positive (hw : 1 < jdecWord s p % 65536) : s.jdecHome k = jdecMade s k p := by
  rw [jdecHome_counts h (by omega), if_neg (by omega)]
theorem jdecHome_zero (hw : jdecWord s p % 65536 = 1) :
    s.jdecHome k = if (jdecWord s p).testBit 62 then (jdecMade s k p).joinZero p.addr else jdecMade s k p := by
  rw [jdecHome_counts h (by omega)]
  simp only [hw, true_and, bitAt]
end
end

/-! ### The end of a group, and its place (R157, R162, R314) -/
section
variable {s : State} {core grp : Nat}

/-- The group in a place marked ended, with its open batch slots closed. -/
def groupClosed (s : State) (core grp : Nat) : State :=
  (s.setGroup core grp { (s.group core grp).sealAtExit with ended := true }).closeAll core grp
/-- What the group's team does: it ends with its last group, and evaluates its barriers before. -/
def groupLeft (s : State) (core grp : Nat) : State :=
  let t := groupClosed s core grp
  if (t.groupsOf (s.group core grp).team).all fun p => (t.group p.1 p.2).ended then t.teamEnd (s.group core grp).team
  else t.barriers (s.group core grp).team
theorem groupEnd_eq (hgrp : s.hasGroup core grp = true) (hended : (s.group core grp).ended = false) (hld : (s.group core grp).ld = 0)
    (hst : (s.group core grp).st = 0) (hexit : ∀ p ∈ (s.group core grp).lanes, p.2.mode = .exited) :
    s.groupEnd core grp = (if (groupLeft s core grp).groupClear core grp then groupLeft s core grp
      else (groupLeft s core grp).vacate core grp).settle (s.group core grp).team := by
  have hlanes : (s.group core grp).lanes.any (fun p => p.2.mode != .exited) = false := by
    rw [List.any_eq_false]; intro p hp; simp [hexit p hp]
  unfold State.groupEnd
  rw [if_neg (by simp [hgrp, hended, hld, hst, hlanes])]
  rfl

theorem mem_keys_iff {α : Type} {t : Tbl α} {k : Nat} : k ∈ t.keys ↔ (Tbl.find t k).isSome = true := by
  induction t with
  | nil => simp [Tbl.keys]
  | cons p t ih =>
    obtain ⟨i, v⟩ := p
    rw [Tbl.find_cons]
    simp only [Tbl.keys, List.map_cons, List.mem_cons] at ih ⊢
    by_cases e : i = k
    · simp [e]
    · rw [if_neg e, ← ih]; simp [Ne.symm e]

theorem foldl_max_ge (l : List Nat) (m : Nat) :
    m ≤ l.foldl (fun m k => max m (k + 1)) m ∧ ∀ k ∈ l, k < l.foldl (fun m k => max m (k + 1)) m := by
  induction l generalizing m with
  | nil => simp
  | cons a l ih =>
    obtain ⟨hm, hl⟩ := ih (max m (a + 1))
    rw [List.foldl_cons]
    refine ⟨by omega, fun k hk => ?_⟩
    rcases List.mem_cons.mp hk with rfl | hk
    · omega
    · exact hl k hk

theorem offSlot_spec (s : State) (core : Nat) : 32 ≤ s.offSlot core ∧ ∀ k ∈ s.usedSlots core, k < s.offSlot core := foldl_max_ge ..

theorem hasGroup_offSlot (s : State) (core : Nat) : s.hasGroup core (s.offSlot core) = false := by
  rw [← Bool.not_eq_true, State.hasGroup, ← mem_keys_iff]
  exact fun h => Nat.lt_irrefl _ ((offSlot_spec s core).2 _ h)

theorem groups_vacate (h : grp < 32) : ((s.vacate core grp).core core).groups =
    Tbl.put (Tbl.del (s.core core).groups grp) (s.offSlot core) { s.group core grp with home := some grp } := by
  unfold State.vacate
  rw [if_neg (by omega)]
  exact congrArg Core.groups (State.core_setCore_same ..)

theorem mem_freeSlots_vacate (h : grp < 32) : grp ∈ (s.vacate core grp).freeSlots core := by
  have hoff := (offSlot_spec s core).1
  have hused : grp ∉ (s.vacate core grp).usedSlots core := by
    rw [State.usedSlots, mem_keys_iff, groups_vacate h, Tbl.find_put, if_neg (by omega), Tbl.find_del, if_pos rfl]
    simp
  exact List.mem_filter.mpr ⟨List.mem_range.mpr h, by simpa using hused⟩
end

/-! ### Pre-emption and saving (R329, R330) -/
section
variable {s : State} {team : Nat}
theorem preempt_alone (hst : (s.team team).st = .resident) (hgang : s.gangOf team = [team]) :
    ((s.preempt team).team team).st = .halted ∨ ((s.preempt team).team team).st = .ended := by
  simp only [State.preempt, hst, hgang, List.foldl_cons, List.foldl_nil]
  rw [if_neg (by decide), State.team_setTeam, if_pos rfl]
  generalize (List.foldl _ s _).team team = x
  by_cases h : x.st = .ended <;> simp [h]
theorem contextSave_alone (hst : (s.team team).st = .halted) (hgang : s.gangOf team = [team]) :
    s.contextSave team = (s.saveTeam team).askInputs (s.grid (s.team team).grid) := by
  simp only [State.contextSave, hst, hgang, List.foldl_cons, List.foldl_nil]
  exact if_neg (by decide)
theorem team_saveTeam (s : State) (team : Nat) :
    ((s.saveTeam team).team team).st = .suspended ∧ ((s.saveTeam team).team team).saved.isSome = true := by
  simp only [State.saveTeam, State.team_setTeam, if_true]
  exact ⟨trivial, rfl⟩
end

/-! ### Chunk fills (R211) -/
section
variable {s : State} {team map chunk : Nat}
/-- The state whose waiting lanes are ready. -/
def chunkWoken (s : State) (team map chunk : Nat) : State :=
  s.mapGroups fun _ _ g => g.mapLanes fun _ x => if x.mode == .stalled (.chunk team map chunk) then { x with mode := .ready } else x
theorem not_waitsFor_chunkWoken (s : State) : ¬ waitsFor (chunkWoken s team map chunk) team map chunk := by
  rintro ⟨p, hp, q, hq, l, hl, hmode⟩
  obtain ⟨p', -, rfl⟩ := List.mem_map.mp hp
  obtain ⟨q', -, rfl⟩ := List.mem_map.mp hq
  obtain ⟨l', -, rfl⟩ := List.mem_map.mp hl
  by_cases h : l'.2.mode = .stalled (.chunk team map chunk)
  · simp [h] at hmode
  · simp [h] at hmode
theorem maps_mapGroups (s : State) (f : Nat → Nat → Group → Group) (t : Nat) : ((s.mapGroups f).team t).maps = (s.team t).maps := by
  simp only [State.team, State.mapGroups, Tbl.get, Tbl.find_mapV]
  cases Tbl.find s.lantern.teams t <;> rfl
theorem any_of_waitsFor (h : waitsFor s team map chunk) : (s.cores.any fun p => p.2.groups.any fun q => q.2.lanes.any fun l =>
    l.2.mode == .stalled (.chunk team map chunk)) = true := by
  obtain ⟨p, hp, q, hq, l, hl, hmode⟩ := h
  simp only [List.any_eq_true]
  exact ⟨p, hp, q, hq, l, hl, by simp [hmode]⟩
theorem chunkFill_spec {m : ScrMap} (hwait : waitsFor s team map chunk) (hmap : Tbl.find (s.team team).maps map = some m)
    (hnew : chunk ∉ m.filled) (hst : (s.team team).st ≠ .suspended) :
    ¬ waitsFor (s.chunkFill team map chunk) team map chunk ∧
      (s.rangeFault none (s.grid (s.team team).grid).ctx .load (m.va.toNat + 4096 * chunk) 4096 = none →
        ∃ m', Tbl.find ((s.chunkFill team map chunk).team team).maps map = some m' ∧ chunk ∈ m'.filled) := by
  have hany := any_of_waitsFor hwait
  have hdue : ¬ (!true || m.filled.contains chunk || (s.team team).st == .suspended) = true := by simp [hnew, hst]
  simp only [State.chunkFill, hmap, hany, if_neg hdue]
  refine ⟨not_waitsFor_chunkWoken _, fun hfault => ?_⟩
  rw [hfault, maps_mapGroups, State.team_setTeam, if_pos rfl, Tbl.find_put_same]
  exact ⟨_, rfl, List.mem_cons_self ..⟩
end

/-! ### The write-back at a team's end (R211) -/
/-- What each step of a fold keeps, the fold keeps. -/
theorem foldl_keeps {α β γ : Type} {f : α → β → α} (p : α → γ) (h : ∀ s a, p (f s a) = p s) (l : List β) (s : α) :
    p (l.foldl f s) = p s := by
  induction l generalizing s with
  | nil => rfl
  | cons a l ih => rw [List.foldl_cons, ih, h]

section
variable {γ : Type} {p : State → γ} (hset : ∀ s c g x, p (State.setGroup s c g x) = p s) (hlaunch : ∀ s f, p (State.launchFlight s f) = p s)
include hset hlaunch
/-- Closing batch slots sets groups and sends markers. -/
theorem closeSlot_keeps (s : State) (core grp t : Nat) (r : Option Retire) : p (s.closeSlot core grp t r).2 = p s := by
  unfold State.closeSlot
  dsimp only
  split
  · rfl
  · exact (foldl_keeps p (by intros; exact hlaunch ..) _ _).trans (hset ..)
theorem closeAll_keeps (s : State) (core grp : Nat) : p (s.closeAll core grp) = p s :=
  foldl_keeps p (fun s t => closeSlot_keeps hset hlaunch s core grp t none) _ _
end
theorem mem_closeAll (s : State) (core grp : Nat) : (s.closeAll core grp).mem = s.mem :=
  closeAll_keeps (p := State.mem) (fun _ _ _ _ => rfl) (fun _ _ => rfl) ..
theorem lantern_closeAll (s : State) (core grp : Nat) : (s.closeAll core grp).lantern = s.lantern :=
  closeAll_keeps (p := State.lantern) (fun _ _ _ _ => rfl) (fun _ _ => rfl) ..

section
variable {s : State} {team : Nat}
/-- The maps of a team, the group whose stores their write-back makes, and the state after it. -/
def flushMapsOf (s : State) (team : Nat) : List Nat := (s.team team).maps.map (·.1)
def flushWho (s : State) (team : Nat) : Nat × Nat := (s.groupsOf team).headD (0, 0)
def flushed (s : State) (team : Nat) : State := s.flushMaps (flushWho s team) team (flushMapsOf s team)
/-- A write-back is due: the team has one to make and the Keeper serves no fault of it. -/
def FlushDue (s : State) (team : Nat) : Prop := (s.team team).flush = true ∧ ∀ p ∈ s.keeper.parks, p.2.flush = true → p.2.team ≠ team

theorem teamFlush_guard (h : FlushDue s team) : ¬ (!(s.team team).flush || s.keeper.parks.any fun p => p.2.flush && p.2.team == team) = true := by
  obtain ⟨hflush, hparks⟩ := h
  have hany : s.keeper.parks.any (fun p => p.2.flush && p.2.team == team) = false := by
    rw [List.any_eq_false]; intro p hp; simpa using hparks p hp
  simp [hflush, hany]

theorem teamFlush_clean_eq (h : FlushDue s team) (hclean : ((flushed s team).team team).dirtyOf (flushMapsOf s team) = []) :
    s.teamFlush team = ((flushed s team).setTeam team { (flushed s team).team team with flush := false }).closeAll
      (flushWho s team).1 (flushWho s team).2 := by
  unfold State.teamFlush
  rw [if_neg (teamFlush_guard h)]
  simp only [flushed, flushWho, flushMapsOf] at hclean ⊢
  rw [hclean]; rfl

theorem teamFlush_clean (h : FlushDue s team) (hclean : ((flushed s team).team team).dirtyOf (flushMapsOf s team) = []) :
    ((s.teamFlush team).team team).flush = false ∧
      (s.teamFlush team).mem = ((flushed s team).closeAll (flushWho s team).1 (flushWho s team).2).mem := by
  rw [teamFlush_clean_eq h hclean]
  constructor
  · rw [State.team, lantern_closeAll]
    exact congrArg Team.flush ((State.team_setTeam ..).trans (if_pos rfl))
  · rw [mem_closeAll, mem_closeAll, State.setTeam_mem]

/-- A fault of the write-back, as the Keeper serves it. -/
def flushPark (s : State) (team : Nat) (c : Cause) (a : DWord) : State :=
  { s with keeper := { s.keeper with
    nextPark := s.keeper.nextPark + 1
    parks := Tbl.put s.keeper.parks s.keeper.nextPark ⟨(s.grid (s.team team).grid).ctx, team, 0, none, 0, c, a, true⟩ } }
theorem teamFlush_park_eq {p : Nat × Nat} {ps : List (Nat × Nat)} {c : Cause} {a : DWord} (h : FlushDue s team)
    (hdirty : ((flushed s team).team team).dirtyOf (flushMapsOf s team) = p :: ps)
    (hfault : (flushed s team).wbFault (flushWho s team) ((flushed s team).grid ((flushed s team).team team).grid).ctx
      (((flushed s team).team team).dirtyVa p) = some (.park c a)) : s.teamFlush team = flushPark (flushed s team) team c a := by
  unfold State.teamFlush
  rw [if_neg (teamFlush_guard h)]
  simp only [flushed, flushWho, flushMapsOf] at hdirty hfault ⊢
  rw [hdirty]
  dsimp only [List.head?_cons]
  rw [hfault]; rfl
theorem mem_parks_flushPark (s : State) (team : Nat) (c : Cause) (a : DWord) :
    ∃ q ∈ (flushPark s team c a).keeper.parks, q.2.flush = true ∧ q.2.team = team ∧ q.2.cause = c ∧ q.2.va = a :=
  ⟨_, find_mem (Tbl.find_put_same ..), rfl, rfl, rfl, rfl⟩
end

/-! ### What leaves the Lantern's grids alone -/
/-- The Lantern's grids. -/
def gridsOf (s : State) : Tbl Grid := s.lantern.grids
@[simp] theorem gridsOf_dirtyLine (s : State) (pa : Nat) : gridsOf (s.dirtyLine pa) = gridsOf s := by
  unfold State.dirtyLine; split <;> rfl
@[simp] theorem gridsOf_noteWrite (s : State) (who : Option (Nat × Nat)) (secs : List Nat) : gridsOf (s.noteWrite who secs) = gridsOf s := rfl
@[simp] theorem gridsOf_devWrite (s : State) (who : Option (Nat × Nat)) (key pa : Nat) (bs : List Byte) (b : Bool) :
    gridsOf (s.devWrite who key pa bs b) = gridsOf s := by
  unfold State.devWrite
  dsimp only
  rw [gridsOf_noteWrite]
  exact (foldl_keeps gridsOf (fun s k => gridsOf_dirtyLine s (32 * k)) _ _).trans rfl
@[simp] theorem gridsOf_touch (s : State) (ctx : Nat) (write : Bool) (va : Nat) : gridsOf (s.touch none ctx write va) = gridsOf s := by
  unfold State.touch
  dsimp only
  split <;> rfl
@[simp] theorem gridsOf_vwrite (s : State) (ctx va : Nat) (bs : List Byte) : gridsOf (s.vwrite ctx va bs) = gridsOf s := by
  induction bs generalizing s va with
  | nil => rfl
  | cons b bs ih =>
    unfold State.vwrite
    rw [ih, gridsOf_devWrite, gridsOf_touch]
@[simp] theorem gridsOf_setWatch (s : State) (ctx : Nat) (addr : DWord) (on : Bool) : gridsOf (s.setWatch ctx addr on) = gridsOf s :=
  gridsOf_vwrite ..
@[simp] theorem gridsOf_toHost (s : State) (kind addr : Nat) (bs : List Byte) : gridsOf (s.toHost kind addr bs) = gridsOf s := by
  unfold State.toHost; split <;> rfl
@[simp] theorem gridsOf_tellHost (s : State) (kind ctx va : Nat) (bs : List Byte) : gridsOf (s.tellHost kind ctx va bs) = gridsOf s := by
  unfold State.tellHost
  split
  · split
    · rw [gridsOf_toHost]
    · rfl
  · rfl
@[simp] theorem gridsOf_tmSet (s : State) (ctx layer st : Nat) : gridsOf (s.tmSet ctx layer st) = gridsOf s := by
  unfold State.tmSet State.setTopmark
  dsimp only
  split
  · rw [gridsOf_devWrite, gridsOf_touch]
  · rfl
theorem gridsOf_takeFrame {s t : State} {big : Bool} {f : Nat} (h : s.takeFrame big = some (f, t)) : gridsOf t = gridsOf s := by
  unfold State.takeFrame at h
  obtain ⟨k, -, hk⟩ := Option.map_eq_some_iff.mp h
  cases hk; rfl
theorem gridsOf_takeFrames {ps : List (Nat × Bool)} {s t : State} {fs : List Nat} (h : s.takeFrames ps = some (fs, t)) : gridsOf t = gridsOf s := by
  induction ps generalizing s t fs with
  | nil => cases h; rfl
  | cons p ps ih =>
    unfold State.takeFrames at h
    split at h
    · cases h
    next f u hu =>
      obtain ⟨⟨gs, v⟩, hv, e⟩ := Option.map_eq_some_iff.mp h
      cases e
      rw [ih hv, gridsOf_takeFrame hu]
theorem gridsOf_mapAt {va lv table : Nat} {leaf : Option Nat} {big : Bool} {s t : State} (h : s.mapAt va leaf big lv table = some t) :
    gridsOf t = gridsOf s := by
  induction lv generalizing s table with
  | zero => cases h; rfl
  | succ lv ih =>
    unfold State.mapAt at h
    dsimp only at h
    split at h
    · cases h
      split
      · rw [gridsOf_devWrite]
      · rfl
    · split at h
      · exact ih h
      · split at h
        · cases h
        next f u hu =>
          rw [ih h, gridsOf_devWrite]
          exact show gridsOf u = gridsOf s from gridsOf_takeFrame hu
theorem gridsOf_takeTables {ctx : Nat} {ps : List (Nat × Bool)} {s t : State} (h : s.takeTables ctx ps = some t) : gridsOf t = gridsOf s := by
  induction ps generalizing s with
  | nil => cases h; rfl
  | cons p ps ih =>
    obtain ⟨u, hu, ht⟩ := Option.bind_eq_some_iff.mp h
    rw [ih ht, gridsOf_mapAt hu]
@[simp] theorem gridsOf_requestLayer (s : State) (ctx layer : Nat) : gridsOf (s.requestLayer ctx layer) = gridsOf s := by
  unfold State.requestLayer
  dsimp only
  split
  · rfl
  · split
    · rfl
    next fs u hu =>
      obtain ⟨⟨gs, v⟩, hv, hw⟩ := Option.bind_eq_some_iff.mp hu
      obtain ⟨w, hw, e⟩ := Option.map_eq_some_iff.mp hw
      cases e
      rw [gridsOf_tmSet]
      exact (gridsOf_takeTables hw).trans (gridsOf_takeFrames hv)
@[simp] theorem gridsOf_retryWanted (s : State) : gridsOf s.retryWanted = gridsOf s :=
  foldl_keeps gridsOf (fun _ _ => foldl_keeps gridsOf (fun _ _ => gridsOf_requestLayer ..) _ _) _ _
@[simp] theorem gridsOf_reapCtx (s : State) (ctx : Nat) : gridsOf (s.reapCtx ctx) = gridsOf s := by
  unfold State.reapCtx
  dsimp only
  split
  · rfl
  · rw [gridsOf_retryWanted]; rfl
@[simp] theorem gridsOf_record (s : State) (r : FRec) : gridsOf (s.record r) = gridsOf s := by
  unfold State.record
  split
  · rfl
  · rw [State.keepLog, gridsOf_toHost]; rfl
@[simp] theorem gridsOf_rejectAt (s : State) (q code : Nat) (a : DWord) (back : Bool) : gridsOf (s.rejectAt q code a back) = gridsOf s := by
  unfold State.rejectAt
  dsimp only
  rw [gridsOf_record]; rfl
@[simp] theorem gridsOf_finishPacket (s : State) (q gid : Nat) : gridsOf (s.finishPacket q gid) = gridsOf s := by
  unfold State.finishPacket
  dsimp only
  split <;> rfl
@[simp] theorem gridsOf_tableFreed (s : State) : gridsOf s.tableFreed = gridsOf s := by
  unfold State.tableFreed
  split <;> rfl
@[simp] theorem gridsOf_dropReserved (s : State) (gid : Nat) : gridsOf (s.dropReserved gid) = gridsOf s := rfl

/-! ### Retirement of a grid (R315) -/
section
variable {s : State} {gid : Nat} {g : Grid}
theorem startAttached_none (hgrid : s.grid gid = g) (hinst : g.collInst = none) (hcoll : g.coll = none ∨ g.placed = 0) :
    s.startAttached gid = s := by
  unfold State.startAttached
  rcases hcoll with h | h
  · simp only [hgrid, h]
  · cases hc : g.coll with
    | none => simp only [hgrid, hc]
    | some d =>
      simp only [hgrid, hc, hinst]
      exact if_pos (by simp [h])
/-- A grid whose work is over, with no child and no node, and with no collective to wait for, goes from the Lantern's grids. -/
theorem gridsOf_gridRetire (hfind : Tbl.find s.settleAll.lantern.grids gid = some g)
    (hidle : s.settleAll.gridIdle gid = true) (hnode : g.node = none) (hinst : g.collInst = none)
    (hcoll : g.coll = none ∨ g.aborted = true ∨ g.placed = 0) (hkids : ∀ p ∈ s.settleAll.lantern.grids, p.2.parent ≠ some gid)
    (hnodes : ∀ p ∈ s.settleAll.lantern.nodes, p.2.parent ≠ gid) : gridsOf (s.gridRetire gid) = Tbl.del (gridsOf s.settleAll) gid := by
  have hgrid : s.settleAll.grid gid = g := by simp [State.grid, Tbl.get, hfind]
  have hopen : (s.settleAll.lantern.nodes.filter fun p => p.2.parent == gid && p.2.st == 1) = [] :=
    List.filter_eq_nil_iff.mpr fun p hp => by simp [hnodes p hp]
  have hall : (s.settleAll.lantern.nodes.filter fun p => p.2.parent == gid) = [] :=
    List.filter_eq_nil_iff.mpr fun p hp => by simp [hnodes p hp]
  have hkid : s.settleAll.lantern.grids.any (fun p => p.2.parent == some gid) = false := by
    rw [List.any_eq_false]; intro p hp; simp [hkids p hp]
  have hstand : s.settleAll.lantern.nodes.any (fun p => p.2.parent == gid && p.2.st != 0) = false := by
    rw [List.any_eq_false]; intro p hp; simp [hnodes p hp]
  have hstart : (if g.aborted then s.settleAll else s.settleAll.startAttached gid) = s.settleAll := by
    by_cases habort : g.aborted = true
    · rw [if_pos habort]
    · rw [if_neg habort, startAttached_none hgrid hinst (hcoll.imp_right fun h => h.resolve_left habort)]
  have hover : (g.coll.isNone || g.aborted || g.placed == 0) = true := by
    rcases hcoll with h | h | h <;> simp [h]
  unfold State.gridRetire
  simp only [hfind, hidle, hopen, hall, List.map_nil, List.foldl_nil, hkid, hstand, hstart, hgrid, hinst, hover, hnode, Bool.not_true,
    Bool.false_eq_true, Bool.or_self, Bool.false_and, if_false, gridsOf_reapCtx, apply_ite gridsOf, gridsOf_finishPacket, ite_self,
    gridsOf_tableFreed, gridsOf_dropReserved, Option.isNone_none, if_true]
  refine congrArg (Tbl.del · gid) ?_
  change gridsOf (State.setWatch _ _ _ _) = _
  simp only [gridsOf_setWatch, apply_ite gridsOf, gridsOf_tellHost, gridsOf_vwrite, ite_self]
end

/-! ### A word that decodes to nothing (R49, R51) -/
theorem trapped_illegal {s : State} {n : Nat} (f : Form) (hactive : s.chain.active = true)
    (hlanes : lanesOf s.chain.lanes ≠ []) (hquiet : Quiet s.chain)
    (hspec : s.cgroup.spec = none) (hhandles : Handles s (lanesOf s.chain.lanes)) (hword : s.nextWord = .error n) :
    Trapped s f (lanesOf s.chain.lanes) (causeOf n) (fun _ => s.report n)
      (s.illegal s.chain.core s.chain.grp s.chain.lanes (causeOf n) n) := by
  have hfail : s.illegal s.chain.core s.chain.grp s.chain.lanes (causeOf n) n = s.failWord (causeOf n) n := by
    simp only [State.illegal, hword, hactive, beq_self_eq_true, Bool.and_self, if_true]
  rw [hfail, State.failWord]
  exact trap_outs (f := f) (pops := 0) (dflt := []) hquiet hlanes hspec (fun _ h => h) hhandles rfl rfl rfl rfl rfl rfl rfl rfl rfl rfl
    fun ⟨_, hin, hout⟩ => absurd hin hout

/-! ### Fetching a packet (R48, R150) -/
theorem group_setCore_of_groups {s : State} {c : Nat} {x : Core} (h : x.groups = (s.core c).groups) (core grp : Nat) :
    (s.setCore c x).group core grp = s.group core grp := by
  simp only [State.group, State.core_setCore]
  by_cases e : c = core
  · subst e; rw [if_pos rfl, h]
  · rw [if_neg e]
theorem group_touch (s : State) (c : Option Nat) (ctx : Nat) (write : Bool) (va core grp : Nat) :
    (s.touch c ctx write va).group core grp = s.group core grp := by
  cases c with
  | none =>
    unfold State.touch
    dsimp only
    split <;> rfl
  | some c =>
    unfold State.touch
    dsimp only
    split
    · rfl
    · split
      · apply group_setCore_of_groups; rfl
      · rfl
theorem group_icFill (s : State) (c ctx va core grp : Nat) : (s.icFill c ctx va).group core grp = s.group core grp := by
  unfold State.icFill
  dsimp only
  split
  · rfl
  · apply group_setCore_of_groups; rfl
/-- A fetch leaves every group alone: it touches memory, cached translations and the instruction cache. -/
theorem group_fetched (s : State) (c ctx pc core grp : Nat) :
    ((s.fetchMark c ctx pc).fetchFill c ctx pc).group core grp = s.group core grp := by
  simp only [State.fetchFill, State.fetchMark, group_icFill, group_touch]

section
variable {s : State} {core grp : Nat} {ls : List Nat} {ws : List Word}

/-- A lane holds no other copy of its packet than these words. -/
def sameCopy (s : State) (core grp : Nat) (ws : List Word) (l : Nat) : Bool :=
  match (s.lane core grp l).served with | some c => c == ws | none => true
theorem openWith_eq (s : State) (core grp : Nat) (ls : List Nat) (ws : List Word) : s.openWith core grp ls true ws =
    (s.openChain core grp (ls.filter (sameCopy s core grp ws)) true ws).follow (ls.filter fun l => !sameCopy s core grp ws l) := rfl
/-- Lanes of which none holds another copy of the packet begin its chain together. -/
theorem openWith_of_served (h : ∀ l ∈ ls, (s.lane core grp l).served = none ∨ (s.lane core grp l).served = some ws) :
    s.openWith core grp ls true ws = (s.openChain core grp ls true ws).follow [] := by
  have hsame : ∀ l ∈ ls, sameCopy s core grp ws l = true := by
    intro l hl
    rcases h l hl with e | e <;> simp [sameCopy, e]
  rw [openWith_eq, List.filter_eq_self.mpr hsame, List.filter_eq_nil_iff.mpr fun l hl => by simp [hsame l hl]]

theorem packetFetch_eq {lanes : LaneSet} (hactive : s.chain.active = false) (hissues : s.issues core grp = true)
    (hls : (s.group core grp).fetchers lanes ≠ []) :
    s.packetFetch core grp lanes = s.fetch core grp ((s.group core grp).fetchers lanes) true := by
  unfold State.packetFetch
  exact if_neg (by simp [hactive, hissues, hls])

/-- Lanes without a copy fetch the packet from memory. -/
theorem fetch_memory (hls : ls ≠ []) (hnone : ∀ l ∈ ls, (s.lane core grp l).served = none)
    (hcheck : s.fetchCheck core (s.ctxOf core grp) (s.lane core grp (ls.headD 0)).pc.toNat = none) :
    let ctx := s.ctxOf core grp
    let pc := (s.lane core grp (ls.headD 0)).pc.toNat
    s.fetch core grp ls true =
      (((s.fetchMark core ctx pc).fetchFill core ctx pc).openChain core grp ls true (s.packetAt core ctx pc)).follow [] := by
  intro ctx pc
  have hout : (ls.filter fun l => ((s.group core grp).lane l).served.isNone) = ls :=
    List.filter_eq_self.mpr fun l hl => by rw [show ((s.group core grp).lane l).served = none from hnone l hl]; rfl
  unfold State.fetch
  dsimp only
  rw [hout, if_neg (by simp [hls]), hcheck]
  exact openWith_of_served fun l hl => .inl (by rw [State.lane, group_fetched]; exact hnone l hl)

/-- Lanes that hold the same copy begin from it. -/
theorem fetch_copy (hls : ls ≠ []) (hsome : ∀ l ∈ ls, (s.lane core grp l).served = some ws) :
    s.fetch core grp ls true = (s.openChain core grp ls true ws).follow [] := by
  have hout : (ls.filter fun l => ((s.group core grp).lane l).served.isNone) = [] :=
    List.filter_eq_nil_iff.mpr fun l hl => by rw [show ((s.group core grp).lane l).served = some ws from hsome l hl]; simp
  obtain ⟨l, rest, rfl⟩ := List.exists_cons_of_ne_nil hls
  have hhead : ((s.group core grp).lane l).served = some ws := hsome l (List.mem_cons_self ..)
  unfold State.fetch
  dsimp only
  rw [hout, if_pos (by rfl), List.headD_cons, hhead]
  exact openWith_of_served fun l hl => .inr (hsome l hl)

theorem cores_openChain (s : State) (core grp : Nat) (ls : List Nat) (ws : List Word) :
    ∃ x, ((s.openChain core grp ls true ws).follow []).cores = (s.setGroup core grp x).cores := ⟨_, rfl⟩
theorem icache_openChain (s : State) (core grp : Nat) (ls : List Nat) (ws : List Word) :
    (((s.openChain core grp ls true ws).follow []).core core).icache = (s.core core).icache := by
  obtain ⟨x, hx⟩ := cores_openChain s core grp ls ws
  have hcore : ((s.openChain core grp ls true ws).follow []).core core = (s.setGroup core grp x).core core := by rw [State.core, hx]; rfl
  rw [hcore, State.setGroup, State.core_setCore_same]

/-- What a chain holds that lanes at one place begin. -/
structure Begun (core grp : Nat) (ls : List Nat) (pc : DWord) (ws : List Word) (c : Chain) : Prop where
  active : c.active = true
  core : c.core = core
  grp : c.grp = grp
  lanes : c.lanes = laneSetOf ls
  pc : c.pc = pc
  words : c.words = ws
  outs : c.outs = []
theorem begun_openChain (s : State) (core grp : Nat) (ls : List Nat) (ws : List Word) {pc : DWord}
    (hpc : (s.lane core grp (ls.headD 0)).pc = pc) : Begun core grp ls pc ws ((s.openChain core grp ls true ws).follow []).chain :=
  ⟨rfl, rfl, rfl, rfl, hpc, rfl, rfl⟩

/-- A fetch of lanes without a copy, or with one copy: the chain begins with those words, and a copy is used without a fetch. -/
theorem begun_fetch (hls : ls ≠ [])
    (h : (∀ l ∈ ls, (s.lane core grp l).served = none) ∧
        s.fetchCheck core (s.ctxOf core grp) (s.lane core grp (ls.headD 0)).pc.toNat = none ∧
        ws = s.packetAt core (s.ctxOf core grp) (s.lane core grp (ls.headD 0)).pc.toNat ∨
      ∀ l ∈ ls, (s.lane core grp l).served = some ws) :
    Begun core grp ls (s.lane core grp (ls.headD 0)).pc ws (s.fetch core grp ls true).chain := by
  rcases h with ⟨hnone, hcheck, rfl⟩ | hsome
  · rw [fetch_memory hls hnone hcheck]
    exact begun_openChain _ core grp ls _ (by rw [State.lane, group_fetched]; rfl)
  · rw [fetch_copy hls hsome]
    exact begun_openChain s core grp ls ws rfl
theorem fetch_copy_keeps (hls : ls ≠ []) (hsome : ∀ l ∈ ls, (s.lane core grp l).served = some ws) :
    (s.fetch core grp ls true).mem = s.mem ∧ ((s.fetch core grp ls true).core core).icache = (s.core core).icache := by
  rw [fetch_copy hls hsome]
  exact ⟨rfl, icache_openChain ..⟩
end

/-- Settles O54: each event by what its rule answers on a state in which it is due. -/
theorem laneEvents : Obligations.LaneEvents := by
  intro s core grp team
  refine ⟨?fence, ?rollback, ?sleep, ?mooring, ?arrival, ?misuse, ?chunk, ?writeback, ?groupEnd, ?place, ?grid, ?preempt, ?save, ?illegal, ?fetch,
    ?decrement⟩
  case fence =>
    intro sp hspec hhit hready u hkept
    exact ⟨u.fenceEnd core grp sp, congrArg Host.Outcome.next (fenceDone_eq hspec hhit hready hkept), spec_fenceEnd .., fenceEnd_atGroup,
      fenceCopies_none, fenceEnd_l1⟩
  case rollback =>
    intro sp hspec hhit
    refine ⟨s.updGroup core grp fun g => g.rollback sp, congrArg Host.Outcome.next (rollback_eq hspec hhit), atGroup_updGroup .., ?_⟩
    rw [State.group_updGroup_same]
    exact ⟨rfl, mem_txns_rollback _ _, fun l x y hx hy => ⟨_, find_lanes_rollback hx hy, rfl, rfl, rfl, rfl, rfl, rfl, rfl, rfl⟩⟩
  case sleep =>
    intro l u hgrp hmode hdue
    exact congrArg Host.Outcome.next (wakeSleep_eq hgrp hmode hdue)
  case mooring =>
    intro k p m hfirst hop hkind
    exact congrArg Host.Outcome.next ((mooringHome_eq hfirst).trans (performPosted_other hop hkind))
  case arrival =>
    intro k p m hfirst hop hkind t hgrp
    exact congrArg Host.Outcome.next ((mooringHome_eq hfirst).trans (performPosted_arrival hop hkind hgrp))
  case misuse =>
    intro k p hfirst hop hgrp
    exact congrArg Host.Outcome.next ((mooringHome_eq hfirst).trans (performPosted_misuse hop hgrp))
  case chunk =>
    intro map chunk m hwait hmap hnew hst
    exact ⟨s.chunkFill team map chunk, rfl, chunkFill_spec hwait hmap hnew hst⟩
  case writeback =>
    intro hflush hparks all who u
    refine ⟨s.teamFlush team, rfl, teamFlush_clean ⟨hflush, hparks⟩, fun p ps c a hdirty hfault => ?_⟩
    rw [teamFlush_park_eq ⟨hflush, hparks⟩ hdirty hfault]
    exact ⟨rfl, mem_parks_flushPark ..⟩
  case groupEnd =>
    intro hgrp hended hld hst hexit
    exact congrArg Host.Outcome.next (groupEnd_eq hgrp hended hld hst hexit)
  case place =>
    intro _ hgrp
    exact ⟨hasGroup_offSlot s core, mem_freeSlots_vacate hgrp⟩
  case grid =>
    intro gid g hfind hidle hnode hinst hcoll hkids hnodes
    refine ⟨s.gridRetire gid, rfl, ?_⟩
    have hgrids : (s.gridRetire gid).lantern.grids = _ := gridsOf_gridRetire hfind hidle hnode hinst hcoll hkids hnodes
    rw [hgrids, Tbl.find_del, if_pos rfl]
  case preempt =>
    intro hst hgang
    exact ⟨s.preempt team, rfl, preempt_alone hst hgang⟩
  case save =>
    intro hst hgang
    exact ⟨s.contextSave team, rfl, contextSave_alone hst hgang, team_saveTeam s team⟩
  case illegal =>
    rintro lanes k n f hactive rfl rfl rfl hlanes hquiet hspec hhandles hword rfl
    exact ⟨_, rfl, trapped_illegal f hactive hlanes hquiet hspec hhandles hword⟩
  case fetch =>
    intro lanes ls pc copies hactive hissues hls ws hws
    refine ⟨s.packetFetch core grp lanes, rfl, ?_⟩
    rw [packetFetch_eq hactive hissues hls]
    have hbegun := begun_fetch hls hws
    exact ⟨hbegun.active, hbegun.core, hbegun.grp, hbegun.lanes, congrArg _ hbegun.pc, hbegun.words, hbegun.outs, fetch_copy_keeps hls⟩
  case decrement =>
    intro k p hp w u v
    exact ⟨fun hw => congrArg Host.Outcome.next (jdecHome_underflow hp hw), fun hw => congrArg Host.Outcome.next (jdecHome_positive hp hw),
      fun hw => congrArg Host.Outcome.next (jdecHome_zero hp hw)⟩

end Sys2Proof.InstructionEncoding
end

section
/-! PROOFS. Number formats: what a magnitude rounds to at a unit above its exponent, and where a NaN comes from. -/
open Sys2Proof Sys2Proof.Machine

namespace Sys2Proof.NumberFormats

/-! ### Rounding at a unit above the exponent (R65, R68) -/

/-- Whether rounding `d` to a multiple of `2^(d.exp + k)` takes the neighbour away from zero: the choice inside `roundAt`
(`roundAt_above`). -/
def awayFromZero (d : Dy) (k r : Nat) : RMode → Bool
  | .rne => decide (2 ^ k < 2 * (d.mag % 2 ^ k)) || (decide (2 * (d.mag % 2 ^ k) = 2 ^ k) && (d.sticky || d.mag / 2 ^ k % 2 == 1))
  | .rtz => false
  | .rdn => d.neg && (d.mag % 2 ^ k != 0 || d.sticky)
  | .rup => !d.neg && (d.mag % 2 ^ k != 0 || d.sticky)
  | .sr => (d.mag % 2 ^ k != 0 || d.sticky) && decide (r < d.mag % 2 ^ k * 2 ^ 32 / 2 ^ k)

theorem add_bit01 (n : Nat) (b : Bool) : n + bit01 b = if b then n + 1 else n := by cases b <;> rfl

/-- Every mode gives the quotient or its successor. -/
theorem roundAt_above (d : Dy) {k : Nat} (hk : 0 < k) (mode : RMode) (r : Nat) :
    roundAt d (d.exp + k) mode r = d.mag / 2 ^ k + bit01 (awayFromZero d k r mode) := by
  have hshift : d.exp + (k : Int) - d.exp = k := by omega
  have hpos : ¬ (k : Int) ≤ 0 := by omega
  unfold roundAt
  simp only [hshift, if_neg hpos, Int.toNat_natCast, Nat.shiftRight_eq_div_pow, Nat.shiftLeft_eq]
  rw [add_bit01]
  cases mode <;> rfl

/-- The ceiling of a quotient is its floor, plus one where there is a remainder. -/
theorem ceil_div_eq (n : Nat) {m : Nat} (hm : 0 < m) : (n + m - 1) / m = n / m + bit01 (n % m != 0) := by
  have hlt : m - 1 < m := by omega
  have hiff : m ≤ n % m + (m - 1) ↔ n % m ≠ 0 := by omega
  rw [Nat.add_sub_assoc hm, Nat.add_div hm, Nat.div_eq_of_lt hlt, Nat.mod_eq_of_lt hlt]
  simp [hiff, bit01]

/-- `n` units are nearest to `mag`, and `n` is even where two multiples are equally near. -/
def NearestEven (mag unit n : Nat) : Prop :=
  2 * mag ≤ (2 * n + 1) * unit ∧ 2 * n * unit ≤ 2 * mag + unit ∧
    (2 * mag = (2 * n + 1) * unit ∨ 2 * n * unit = 2 * mag + unit → n % 2 = 0)

section
variable {mag unit q rem : Nat}

theorem nearestEven_of_lt (hmag : unit * q + rem = mag) (h : 2 * rem < unit) : NearestEven mag unit q := by
  have hup : (2 * q + 1) * unit = 2 * (unit * q) + unit := by ring
  have hdown : 2 * q * unit = 2 * (unit * q) := by ring
  rw [NearestEven, hup, hdown]
  omega

theorem nearestEven_of_gt (hmag : unit * q + rem = mag) (hrem : rem < unit) (h : unit < 2 * rem) : NearestEven mag unit (q + 1) := by
  have hup : (2 * (q + 1) + 1) * unit = 2 * (unit * q) + 3 * unit := by ring
  have hdown : 2 * (q + 1) * unit = 2 * (unit * q) + 2 * unit := by ring
  rw [NearestEven, hup, hdown]
  omega

/-- Halfway, either neighbour is nearest and the even one is taken. -/
theorem nearestEven_of_tie (hmag : unit * q + rem = mag) (h : 2 * rem = unit) : NearestEven mag unit (q + q % 2) := by
  rcases Nat.mod_two_eq_zero_or_one q with e | e <;> rw [e]
  · exact ⟨by nlinarith, by nlinarith, fun _ => e⟩
  · exact ⟨by nlinarith, by nlinarith, fun _ => by omega⟩
end

theorem nearestEven_roundAt {d : Dy} (hexact : d.sticky = false) {k : Nat} (hk : 0 < k) (r : Nat) :
    NearestEven d.mag (2 ^ k) (roundAt d (d.exp + k) .rne r) := by
  have hrem : d.mag % 2 ^ k < 2 ^ k := Nat.mod_lt _ (Nat.two_pow_pos k)
  have hmag : 2 ^ k * (d.mag / 2 ^ k) + d.mag % 2 ^ k = d.mag := Nat.div_add_mod ..
  rw [roundAt_above d hk, awayFromZero, hexact]
  rcases Nat.lt_trichotomy (2 * (d.mag % 2 ^ k)) (2 ^ k) with h | h | h
  · simpa [h.not_gt, h.ne, bit01] using nearestEven_of_lt hmag h
  · rcases Nat.mod_two_eq_zero_or_one (d.mag / 2 ^ k) with e | e <;> simpa [h, e, bit01] using nearestEven_of_tie hmag h
  · simpa [h, bit01] using nearestEven_of_gt hmag hrem h

/-- Settles O14: each mode by whether it takes the neighbour away from zero. -/
theorem roundingModes : Obligations.RoundingModes := by
  intro neg mag e k r hk d
  have habove (mode : RMode) : roundAt d (e + k) mode r = mag / 2 ^ k + bit01 (awayFromZero d k r mode) := roundAt_above d hk mode r
  have hceil : (mag + 2 ^ k - 1) / 2 ^ k = mag / 2 ^ k + bit01 (mag % 2 ^ k != 0) := ceil_div_eq mag (Nat.two_pow_pos k)
  refine ⟨habove .rtz, ?rdn, ?rup, nearestEven_roundAt (d := d) rfl hk r, ?neighbours, ?upper⟩
  case rdn => rw [habove, hceil]; cases neg <;> simp [d, awayFromZero, bit01]
  case rup => rw [habove, hceil]; cases neg <;> simp [d, awayFromZero, bit01]
  case neighbours => rw [habove, add_bit01]; split <;> simp
  case upper => rw [habove, add_bit01]; simp [d, awayFromZero]

/-! ### Where a NaN comes from (R54) -/

theorem sum_eq_nan_of_mem (mode : RMode) {vs : List Val} (h : Val.nan ∈ vs) : Val.sum mode vs = .nan := by
  have hany : vs.any (· == .nan) = true := List.any_eq_true.mpr ⟨.nan, h, beq_self_eq_true _⟩
  rw [Val.sum, hany]; rfl

theorem sum_eq_nan_of_infinities (mode : RMode) {vs : List Val} (hpos : Val.inf false ∈ vs) (hneg : Val.inf true ∈ vs) :
    Val.sum mode vs = .nan := by
  have hp : vs.any (· == .inf false) = true := List.any_eq_true.mpr ⟨_, hpos, beq_self_eq_true _⟩
  have hn : vs.any (· == .inf true) = true := List.any_eq_true.mpr ⟨_, hneg, beq_self_eq_true _⟩
  rw [Val.sum, hp, hn, Bool.and_self, Bool.or_true]; rfl

theorem mul_nan (x : Val) : x.mul .nan = .nan := by cases x <;> rfl

/-- Settles O15: the three formats by evaluation, the sums by their members. -/
theorem nanResults : Obligations.NanResults := fun f mode r x y =>
  ⟨rfl, by decide, by decide, by decide, rfl, mul_nan x, sum_eq_nan_of_mem mode (by simp), sum_eq_nan_of_mem mode (by simp),
    sum_eq_nan_of_infinities mode (by simp) (by simp), sum_eq_nan_of_infinities mode (by simp) (by simp), fun _ => rfl, rfl,
    sum_eq_nan_of_mem mode (by simp)⟩

end Sys2Proof.NumberFormats
end

section
/-! PROOFS. Floating point and packed words: the packed words and the conversions to an integer, as clamped exact integers. -/
open Sys2Proof Sys2Proof.Machine Sys2Proof.Safety Sys2Proof.Rules

namespace Sys2Proof.FloatingPointAndPacked

/-! ### Integers in a range (R7, R79) -/

theorem bits_eq (x hi lo : Nat) : bits x hi lo = x / 2 ^ lo % 2 ^ (hi + 1 - lo) := by
  rw [bits, Nat.shiftRight_eq_div_pow]

/-- SAT of R7 is a clamp wherever the range is not empty. -/
theorem satI_eq_clamp (x : Int) {lo hi : Int} (h : lo ≤ hi) : satI x lo hi = max lo (min x hi) := by
  unfold satI
  split
  · omega
  · split <;> omega

theorem range_nonempty (w : Nat) (u : Bool) :
    (if u then 0 else -((2 ^ (w - 1) : Nat) : Int)) ≤ if u then ((2 ^ w - 1 : Nat) : Int) else ((2 ^ (w - 1) - 1 : Nat) : Int) := by
  have hpos : 0 < 2 ^ (w - 1) := Nat.two_pow_pos _
  cases u
  · simp only [Bool.false_eq_true, if_false]; omega
  · simp only [if_true]; omega

theorem satRes_eq_saturated (w : Nat) (u : Bool) (x : Int) : satRes w u x = saturated w u x := by
  unfold satRes saturated
  dsimp only
  rw [satI_eq_clamp x (range_nonempty w u)]
  rfl

/-! ### Packed words (R115 to R117) -/

theorem packEl_eq_packed (ew : Nat) (u : Bool) (x k : Nat) (hew : 0 < ew) : packEl ew u x k = packed ew u x k := by
  have hwidth : ew * k + ew - 1 + 1 - ew * k = ew := by omega
  rw [packEl, bits_eq, hwidth]
  rfl

/-- The model's fold over the elements of a result is the sum of the elements in their places. -/
theorem foldl_zipIdx_eq_sum (ew : Nat) (rs : List Res) (acc k : Nat) :
    (rs.zipIdx k).foldl (fun acc p => acc + p.1.v <<< (ew * p.2)) acc =
      acc + ((rs.zipIdx k).map fun p => p.1.v * 2 ^ (ew * p.2)).sum := by
  induction rs generalizing acc k with
  | nil => rfl
  | cons r rs ih => rw [List.zipIdx_cons, List.foldl_cons, ih, List.map_cons, List.sum_cons, Nat.shiftLeft_eq, Nat.add_assoc]

theorem packOut_eq_assembled (ew n : Nat) (u s : Bool) (x : Nat → Int) :
    packOut ew u s ((List.range n).map x) = assembled ew n u s x := by
  have hel (y : Int) : (if s then satRes ew u y else Res.of (wrapI ew y)) = if s then saturated ew u y else ⟨wrap ew y, {}⟩ := by
    rw [satRes_eq_saturated]; rfl
  have hplaces (r : Nat → Res) : (((List.range n).map r).zipIdx.map fun p => p.1.v * 2 ^ (ew * p.2)) =
      (List.range n).map fun k => (r k).v * 2 ^ (ew * k) := by
    apply List.ext_getElem <;> simp
  unfold packOut assembled
  simp only [hel, List.map_map, List.any_map]
  congr 1
  refine (foldl_zipIdx_eq_sum ew _ 0 0).trans ?_
  rw [Nat.zero_add, hplaces]
  rfl

/-- An elementwise operation on the packed elements of both operands (R116). -/
theorem packMap_eq_assembled (e8 u s : Bool) (op : Int → Int → Int) (a b : Nat) :
    packMap e8 u s op a b =
      assembled (packW e8) (packN e8) u s fun k => op (packed (packW e8) u a k) (packed (packW e8) u b k) := by
  have hpos : 0 < packW e8 := by cases e8 <;> decide
  simp only [packMap, packOut_eq_assembled, packEl_eq_packed _ _ _ _ hpos]

theorem packShr_eq_assembled (e8 u : Bool) (a b : Nat) :
    packShr e8 u a b = assembled (packW e8) (packN e8) u false fun k =>
      packed (packW e8) u a k / (2 ^ ((packed (packW e8) true b k).toNat % packW e8) : Nat) := by
  have hpos : 0 < packW e8 := by cases e8 <;> decide
  simp only [packShr, packOut_eq_assembled, packEl_eq_packed _ _ _ _ hpos]
  rfl

theorem packAbs_eq_assembled (e8 s : Bool) (a : Nat) :
    packAbs e8 s a = assembled (packW e8) (packN e8) false s fun k => ((packed (packW e8) false a k).natAbs : Int) := by
  have hpos : 0 < packW e8 := by cases e8 <;> decide
  simp only [packAbs, packOut_eq_assembled, packEl_eq_packed _ _ _ _ hpos]

theorem packPack_eq_assembled (e8 u s : Bool) (a b : Nat) :
    packPack e8 u s a b = if e8 then assembled 8 4 u s fun k => packed 16 u (if k < 2 then a else b) (k % 2)
      else assembled 16 2 u s fun k => read 32 u ((if k = 0 then a else b) % 2 ^ 32) := by
  cases e8
  · exact packOut_eq_assembled 16 2 u s fun k => read 32 u ((if k = 0 then a else b) % 2 ^ 32)
  · have h := packOut_eq_assembled 8 4 u s fun k => packed 16 u (if k < 2 then a else b) (k % 2)
    simp only [packPack, if_true, packEl_eq_packed _ _ _ _ (show 0 < 16 by decide)]
    exact h

theorem packUnpk_eq_assembled (e8 u hi : Bool) (a : Nat) :
    packUnpk e8 u hi a = if e8 then assembled 16 2 u false fun k => packed 8 u a (2 * bit01 hi + k)
      else ⟨wrap 32 (packed 16 u a (bit01 hi)), {}⟩ := by
  cases e8
  · simp only [packUnpk, packEl_eq_packed _ _ _ _ (show 0 < 16 by decide)]
    rfl
  · have h := packOut_eq_assembled 16 2 u false fun k => packed 8 u a (2 * bit01 hi + k)
    simp only [packUnpk, if_true, packEl_eq_packed _ _ _ _ (show 0 < 8 by decide)]
    exact h

/-- A word with one result in each lane gives every result that the model's equals. -/
theorem gives_of_result {i : Instr} {d : Dst} {n : Nat} {m r : State → Nat → List Nat → Res}
    (hexec : ∀ s, exec i s = s.word false i (bodyEach fun z l v => .res d n (m z l v))) (hd : formDst i = some d)
    (h : ∀ z l v, m z l v = r z l v) : Gives i d n r :=
  gives_each hexec hd fun z l v => congrArg (LaneOut.res d n) (h z l v)

/-- Settles O16: each word gives the packed operation, whose elements the model lists and the statement indexes. -/
theorem packedArithmetic : Obligations.PackedArithmetic := fun _ _ _ e8 u s =>
  ⟨gives_of_result (fun _ => rfl) rfl fun _ _ _ => packMap_eq_assembled e8 u s (· + ·) _ _,
    gives_of_result (fun _ => rfl) rfl fun _ _ _ => packMap_eq_assembled e8 u s (· - ·) _ _,
    gives_of_result (fun _ => rfl) rfl fun _ _ _ => packMap_eq_assembled e8 u s (· * ·) _ _,
    gives_of_result (fun _ => rfl) rfl fun _ _ _ => packMap_eq_assembled e8 u false min _ _,
    gives_of_result (fun _ => rfl) rfl fun _ _ _ => packMap_eq_assembled e8 u false max _ _,
    gives_of_result (fun _ => rfl) rfl fun _ _ _ => packShr_eq_assembled e8 u _ _,
    gives_of_result (fun _ => rfl) rfl fun _ _ _ => packPack_eq_assembled e8 u s _ _,
    gives_of_result (fun _ => rfl) rfl fun _ _ _ => packUnpk_eq_assembled e8 u false _,
    gives_of_result (fun _ => rfl) rfl fun _ _ _ => packUnpk_eq_assembled e8 u true _,
    gives_of_result (fun _ => rfl) rfl fun _ _ _ => packAbs_eq_assembled e8 s _⟩

theorem packMac_pairs (a b c : Nat) : packMac false a b c = saturated 32 false (sgn 32 c +
    packed 16 false a 0 * packed 16 false b 0 + packed 16 false a 1 * packed 16 false b 1) := by
  have hsum (x y z : Int) : z + (0 + x + y) = z + x + y := by ring
  rw [packMac, satRes_eq_saturated]
  simp only [packEl_eq_packed _ _ _ _ (show 0 < packW false by decide)]
  exact congrArg (saturated 32 false) (hsum _ _ _)

theorem packMac_quads (a b c : Nat) : packMac true a b c = saturated 32 false (sgn 32 c +
    packed 8 false a 0 * packed 8 false b 0 + packed 8 false a 1 * packed 8 false b 1 +
    packed 8 false a 2 * packed 8 false b 2 + packed 8 false a 3 * packed 8 false b 3) := by
  have hsum (x y z w c : Int) : c + (0 + x + y + z + w) = c + x + y + z + w := by ring
  rw [packMac, satRes_eq_saturated]
  simp only [packEl_eq_packed _ _ _ _ (show 0 < packW true by decide)]
  exact congrArg (saturated 32 false) (hsum _ _ _ _ _)

/-- Settles O17: both words give the accumulator and the exact products, saturated. -/
theorem packedDotProducts : Obligations.PackedDotProducts := fun _ _ _ _ =>
  ⟨gives_of_result (fun _ => rfl) rfl fun _ _ _ => packMac_pairs _ _ _, gives_of_result (fun _ => rfl) rfl fun _ _ _ => packMac_quads _ _ _,
    by simp [Instr.form]⟩

/-! ### Conversions to an integer (R111) -/

/-- A rounded value that lies outside the range becomes the nearer end, and only there is CLAMP set. -/
theorem clamped_satI (w : Nat) (n lo hi : Int) :
    (⟨wrapI w (satI n lo hi), { clamp := decide (satI n lo hi ≠ n) }⟩ : Res) =
      if n < lo then ⟨wrap w lo, { clamp := true }⟩ else if hi < n then ⟨wrap w hi, { clamp := true }⟩ else ⟨wrap w n, {}⟩ := by
  unfold satI
  by_cases hlo : n < lo
  · simp [hlo, hlo.ne', wrapI, wrap]
  · by_cases hhi : hi < n
    · simp [hlo, hhi, hhi.ne, wrapI, wrap]
    · simp [hlo, hhi, wrapI, wrap]

theorem cvtFI_nan {f : FFmt} {x : Nat} (h : f.decode (x % 2 ^ f.width) = .nan) (w : Nat) (u : Bool) (r : Rnd) :
    cvtFI f w u r x = ⟨0, { clamp := true }⟩ := by
  simp only [cvtFI, trunc, h]

theorem cvtFI_inf {f : FFmt} {x : Nat} {neg : Bool} (h : f.decode (x % 2 ^ f.width) = .inf neg) (w : Nat) (u : Bool) (r : Rnd) :
    cvtFI f w u r x = ⟨wrap w (if neg then (if u then 0 else -((2 ^ (w - 1) : Nat) : Int))
      else if u then ((2 ^ w - 1 : Nat) : Int) else ((2 ^ (w - 1) - 1 : Nat) : Int)), { clamp := true }⟩ := by
  simp only [cvtFI, trunc, h]; rfl

/-- The type pairs of `cvt.fi` (R75) with their formats, widths and signs. -/
def intPairs : List (Nat × FFmt × Nat × Bool) :=
  [(0x18, f32, 32, false), (0x19, f32, 32, true), (0x1A, f32, 64, false), (0x1B, f32, 64, true), (0x1C, f16, 32, false), (0x1D, bf16, 32, false),
    (0x1E, f32, 16, false), (0x1F, f32, 8, false)]

theorem cvtFiPair_eq {x : Nat × FFmt × Nat × Bool} (hx : x ∈ intPairs) (r : Rnd) (v : Nat) :
    cvtFiPair x.1 r v = cvtFI x.2.1 x.2.2.1 x.2.2.2 r v := by
  simp only [intPairs, List.mem_cons, List.not_mem_nil, or_false] at hx
  rcases hx with rfl | rfl | rfl | rfl | rfl | rfl | rfl | rfl <;> rfl

theorem exists_intPair (p : BitVec 6) (h : 0x18 ≤ p.toNat ∧ p.toNat ≤ 0x1F) : ∃ x ∈ intPairs, x.1 = p.toNat := by
  obtain ⟨hlo, hhi⟩ := h
  generalize p.toNat = n at hlo hhi
  interval_cases n <;> simp [intPairs]

/-- A result of 64 bits is the result of the pairs that R75 gives an even pair of registers. -/
theorem cvtDstWd_of_intPair {x : Nat × FFmt × Nat × Bool} (hx : x ∈ intPairs) {p : BitVec 6} (hp : x.1 = p.toNat) (hw : x.2.2.1 = 64) :
    cvtDstWd p = .w64 := by
  have hcode : p = BitVec.ofNat 6 x.1 := by rw [hp, BitVec.ofNat_toNat, BitVec.setWidth_eq]
  simp only [intPairs, List.mem_cons, List.not_mem_nil, or_false] at hx
  rcases hx with rfl | rfl | rfl | rfl | rfl | rfl | rfl | rfl <;> subst hcode <;> revert hw <;> decide

theorem even_of_wf_cvtFi {ch : Bool} {d : Dst} {a : Src} {p : BitVec 6} {m : BitVec 3} (hwf : (Instr.cvtFi ch d a p m).wf = true)
    (hw : cvtDstWd p = .w64) {n : Fin 32} (hd : d = .n n) : n.val % 2 = 0 := by
  obtain ⟨_, _, haligned, _⟩ := Laws.form_ok (i := .cvtFi ch d a p m) rfl hwf
  subst hd
  simp only [Form.aligned, dstAligned, hw, Bool.and_eq_true, beq_iff_eq] at haligned
  exact haligned.2

/-- Settles O13: the value by the class of the source, the pair by its row of R75, and the even pair by the alignment check. -/
theorem floatToInteger : Obligations.FloatToInteger := by
  refine ⟨fun f w u r x _ _ => ?value, fun ch d a p m hwf => ⟨?pair, fun _ => gives_of_result (fun _ => rfl) rfl fun _ _ _ => rfl⟩⟩
  case value =>
    intro lo hi
    split
    case _ h => exact cvtFI_nan h w u r
    case _ h => exact cvtFI_inf h w u r
    case _ dy h =>
      intro n
      rw [← clamped_satI]
      simp only [cvtFI, trunc, h]
      rfl
  case pair =>
    have hrange : (decide (0x18 ≤ p.toNat ∧ p.toNat ≤ 0x1F) && rndOk m) = true := Laws.mods_ok hwf
    rw [Bool.and_eq_true, decide_eq_true_eq] at hrange
    obtain ⟨x, hx, hp⟩ := exists_intPair p hrange.1
    exact ⟨x, hx, hp, fun r v => hp ▸ cvtFiPair_eq hx r v, fun hw n hd => even_of_wf_cvtFi hwf (cvtDstWd_of_intPair hx hp hw) hd⟩

end Sys2Proof.FloatingPointAndPacked
end

section
/-! PROOFS. Exact values and rounding to a format: a finite value as a real number, exact sums and products, what a code stands for, and
that rounding keeps what the format holds, and takes to nearest even the nearest value it holds. -/
open Sys2Proof Sys2Proof.Machine Sys2Proof.Rules

namespace Sys2Proof.ExactValues

/-! ### A finite value as a real number -/

theorem two_zpow_pos (e : ℤ) : (0 : ℝ) < 2 ^ e := zpow_pos two_pos e

theorem two_zpow_add (a b : ℤ) : (2 : ℝ) ^ (a + b) = 2 ^ a * 2 ^ b := zpow_add₀ two_ne_zero a b

/-- The factor of a sign. -/
def sgnOf (neg : Bool) : ℝ := if neg then -1 else 1

theorem real_def (d : Dy) : real d = sgnOf d.neg * d.mag * 2 ^ d.exp := rfl

theorem sgnOf_not (neg : Bool) : sgnOf (!neg) = -sgnOf neg := by cases neg <;> simp [sgnOf]

theorem sgnOf_xor (a b : Bool) : sgnOf (xor a b) = sgnOf a * sgnOf b := by cases a <;> cases b <;> simp [sgnOf]

theorem abs_sgnOf_mul (neg : Bool) (v : ℝ) : |sgnOf neg * v| = |v| := by cases neg <;> simp [sgnOf]

theorem abs_real (d : Dy) : |real d| = d.mag * 2 ^ d.exp := by
  rw [real_def, mul_assoc, abs_sgnOf_mul, abs_of_nonneg (mul_nonneg (Nat.cast_nonneg _) (two_zpow_pos _).le)]

theorem real_eq_sgnOf (d : Dy) : real d = sgnOf d.neg * |real d| := by rw [abs_real, ← mul_assoc, ← real_def]

theorem real_eq_zero_iff (d : Dy) : real d = 0 ↔ d.mag = 0 := by
  rw [← abs_eq_zero, abs_real, mul_eq_zero, or_iff_left (two_zpow_pos _).ne', Nat.cast_eq_zero]

theorem real_of_mag_zero {d : Dy} (h : d.mag = 0) : real d = 0 := (real_eq_zero_iff d).mpr h

@[simp] theorem real_zero (neg : Bool) : real (Dy.zero neg) = 0 := real_of_mag_zero rfl

@[simp] theorem real_neg' (d : Dy) : real d.neg' = -real d := by
  simp only [real_def, Dy.neg', sgnOf_not]; ring

@[simp] theorem real_mul (a b : Dy) : real (a.mul b) = real a * real b := by
  simp only [real_def, Dy.mul, sgnOf_xor, Nat.cast_mul, two_zpow_add]; ring

@[simp] theorem real_ofInt (i e : ℤ) : real (Dy.ofInt i e) = i * 2 ^ e := by
  have habs : (if i < 0 then (-1 : ℝ) else 1) * (i.natAbs : ℝ) = i := by
    rw [Nat.cast_natAbs]
    split
    case isTrue h => rw [abs_of_neg h]; push_cast; ring
    case isFalse h => rw [abs_of_nonneg (not_lt.mp h), one_mul]
  simp only [real, Dy.ofInt, decide_eq_true_eq, habs]

/-- The signed magnitude at an exponent at most the value's is exact. -/
theorem at_mul_zpow (d : Dy) {e : ℤ} (h : e ≤ d.exp) : (d.at e : ℝ) * 2 ^ e = real d := by
  have hexp : (2 : ℝ) ^ d.exp = 2 ^ (d.exp - e).toNat * 2 ^ e := by
    rw [← zpow_natCast, ← two_zpow_add]; congr 1; omega
  rw [real, hexp, Dy.at, Nat.shiftLeft_eq]
  cases d.neg <;> simp <;> ring

theorem lt_iff_real (a b : Dy) : a.lt b = true ↔ real a < real b := by
  have ha := at_mul_zpow a (min_le_left a.exp b.exp)
  have hb := at_mul_zpow b (min_le_right a.exp b.exp)
  rw [← ha, ← hb, mul_lt_mul_iff_left₀ (two_zpow_pos _), Int.cast_lt, Dy.lt, decide_eq_true_eq]

/-! ### Exact sums -/

theorem foldl_min_le (ds : List Dy) (m : ℤ) :
    ds.foldl (fun m d => min m d.exp) m ≤ m ∧ ∀ d ∈ ds, ds.foldl (fun m d => min m d.exp) m ≤ d.exp := by
  induction ds generalizing m with
  | nil => simp
  | cons d ds ih =>
    obtain ⟨hm, hds⟩ := ih (min m d.exp)
    refine ⟨hm.trans (min_le_left _ _), fun x hx => ?_⟩
    rcases List.mem_cons.mp hx with rfl | hx
    · exact hm.trans (min_le_right _ _)
    · exact hds x hx

theorem foldl_at (ds : List Dy) {e : ℤ} (h : ∀ d ∈ ds, e ≤ d.exp) (acc : ℤ) :
    ((ds.foldl (fun acc d => acc + d.at e) acc : ℤ) : ℝ) * 2 ^ e = acc * 2 ^ e + (ds.map real).sum := by
  induction ds generalizing acc with
  | nil => simp
  | cons d ds ih =>
    rw [List.foldl_cons, ih fun x hx => h x (List.mem_cons_of_mem _ hx), List.map_cons, List.sum_cons, Int.cast_add, add_mul,
      at_mul_zpow d (h d List.mem_cons_self), add_assoc]

theorem real_sum (mode : RMode) (ds : List Dy) : real (Dy.sum mode ds) = (ds.map real).sum := by
  have hsum := foldl_at ds (foldl_min_le ds (ds.headD (Dy.zero false)).exp).2 0
  rw [Int.cast_zero, zero_mul, zero_add] at hsum
  rw [← hsum, Dy.sum]
  split
  case isTrue h =>
    rw [h, Int.cast_zero, zero_mul]
    split_ifs <;> exact real_zero _
  case isFalse => exact real_ofInt _ _

theorem sum_sticky (mode : RMode) (ds : List Dy) : (Dy.sum mode ds).sticky = false := by
  unfold Dy.sum
  dsimp only
  split_ifs <;> rfl

theorem sum_fin (mode : RMode) (ds : List Dy) : Val.sum mode (ds.map .fin) = .fin (Dy.sum mode ds) := by
  have hnone (v : Val) (hv : ∀ d, v ≠ .fin d) : (ds.map Val.fin).any (· == v) = false := by
    rw [List.any_eq_false]
    intro x hx
    obtain ⟨d, _, rfl⟩ := List.mem_map.mp hx
    simpa using (hv d).symm
  have hfin : (ds.map Val.fin).filterMap (fun v => match v with | .fin d => some d | _ => none) = ds := by
    rw [List.filterMap_map]; exact List.filterMap_some
  simp only [Val.sum, hnone .nan (by simp), hnone (.inf false) (by simp), hnone (.inf true) (by simp), Bool.and_self, Bool.or_self,
    Bool.false_eq_true, if_false]
  exact congrArg (fun l => Val.fin (Dy.sum mode l)) hfin

/-! ### Multiples of a power of two -/

/-- `v` is an integer multiple of `2^u`. -/
def OnGrid (u : ℤ) (v : ℝ) : Prop := ∃ n : ℤ, v = n * 2 ^ u

theorem onGrid_nat (u : ℤ) (n : ℕ) : OnGrid u (n * 2 ^ u) := ⟨n, by simp⟩

theorem onGrid_zero (u : ℤ) : OnGrid u 0 := ⟨0, by simp⟩

theorem OnGrid.neg {u : ℤ} {v : ℝ} (h : OnGrid u v) : OnGrid u (-v) := by
  obtain ⟨n, rfl⟩ := h
  exact ⟨-n, by push_cast; ring⟩

theorem OnGrid.add {u : ℤ} {v w : ℝ} (hv : OnGrid u v) (hw : OnGrid u w) : OnGrid u (v + w) := by
  obtain ⟨n, rfl⟩ := hv
  obtain ⟨m, rfl⟩ := hw
  exact ⟨n + m, by push_cast; ring⟩

theorem OnGrid.sub {u : ℤ} {v w : ℝ} (hv : OnGrid u v) (hw : OnGrid u w) : OnGrid u (v - w) := by
  rw [sub_eq_add_neg]; exact hv.add hw.neg

theorem OnGrid.mono {t u : ℤ} {v : ℝ} (h : OnGrid u v) (htu : t ≤ u) : OnGrid t v := by
  obtain ⟨n, rfl⟩ := h
  refine ⟨n * 2 ^ (u - t).toNat, ?_⟩
  have hexp : (2 : ℝ) ^ u = 2 ^ (u - t).toNat * 2 ^ t := by
    rw [← zpow_natCast, ← two_zpow_add]; congr 1; omega
  push_cast
  rw [hexp, mul_assoc]

theorem OnGrid.abs {u : ℤ} {v : ℝ} (h : OnGrid u v) : OnGrid u |v| := by
  rcases abs_choice v with e | e <;> rw [e]
  · exact h
  · exact h.neg

theorem OnGrid.sgnOf_mul {u : ℤ} {v : ℝ} (h : OnGrid u v) (neg : Bool) : OnGrid u (sgnOf neg * v) := by
  cases neg
  · simpa [sgnOf] using h
  · simpa [sgnOf] using h.neg

theorem onGrid_real (d : Dy) : OnGrid d.exp (real d) := by
  rw [real_eq_sgnOf, abs_real]; exact (onGrid_nat _ _).sgnOf_mul _

/-! ### Rounding at a unit (R65, R68) -/

/-- At a unit that divides the exponent's nothing is lost. -/
theorem roundAt_below (d : Dy) {u : ℤ} (h : u ≤ d.exp) (mode : RMode) (r : ℕ) : (roundAt d u mode r : ℝ) * 2 ^ u = |real d| := by
  have hneg : u - d.exp ≤ 0 := by omega
  have hexp : (2 : ℝ) ^ d.exp = 2 ^ (-(u - d.exp)).toNat * 2 ^ u := by
    rw [← zpow_natCast, ← two_zpow_add]; congr 1; omega
  unfold roundAt
  simp only [if_pos hneg, Nat.shiftLeft_eq]
  rw [abs_real, hexp]
  push_cast
  ring

/-- An exponent below the unit, and the shift between them. -/
theorem exists_shift {e u : ℤ} (h : e < u) : ∃ k : ℕ, 0 < k ∧ u = e + k := ⟨(u - e).toNat, by omega, by omega⟩

theorem mag_mul_shift (n : ℕ) (e : ℤ) (k : ℕ) : (n : ℝ) * 2 ^ (e + (k : ℤ)) = ((n * 2 ^ k : ℕ) : ℝ) * 2 ^ e := by
  rw [two_zpow_add, zpow_natCast]; push_cast; ring

/-- A value on the unit's grid is its own rounding in every mode. -/
theorem roundAt_of_onGrid {d : Dy} (hexact : d.sticky = false) {u : ℤ} (h : OnGrid u (real d)) (mode : RMode) (r : ℕ) :
    (roundAt d u mode r : ℝ) * 2 ^ u = |real d| := by
  rcases le_or_gt u d.exp with hle | hlt
  · exact roundAt_below d hle mode r
  · obtain ⟨k, hk, rfl⟩ := exists_shift hlt
    obtain ⟨n, hn⟩ := h.abs
    have hnat : (n.natAbs : ℝ) * 2 ^ (d.exp + (k : ℤ)) = |real d| := by
      rw [Nat.cast_natAbs, Int.cast_abs, ← abs_of_pos (two_zpow_pos (d.exp + k)), ← abs_mul, ← hn, abs_abs]
    have hmag : d.mag = n.natAbs * 2 ^ k := by
      rw [mag_mul_shift, abs_real] at hnat
      exact_mod_cast (mul_right_cancel₀ (two_zpow_pos _).ne' hnat).symm
    have hrem : d.mag % 2 ^ k = 0 := by rw [hmag]; exact Nat.mul_mod_left _ _
    have haway : NumberFormats.awayFromZero d k r mode = false := by
      have hpos : 0 ≠ 2 ^ k := (Nat.two_pow_pos k).ne
      cases mode <;> simp [NumberFormats.awayFromZero, hrem, hexact, hpos]
    rw [NumberFormats.roundAt_above d hk, haway, ← hnat, hmag, Nat.mul_div_cancel _ (Nat.two_pow_pos k)]
    rfl

/-- A value of at least `n` units rounds to at least `n`. -/
theorem le_roundAt {d : Dy} {u : ℤ} {n : ℕ} (h : (n : ℝ) * 2 ^ u ≤ |real d|) (mode : RMode) (r : ℕ) : n ≤ roundAt d u mode r := by
  rcases le_or_gt u d.exp with hle | hlt
  · rw [← roundAt_below d hle mode r] at h
    exact_mod_cast le_of_mul_le_mul_right h (two_zpow_pos u)
  · obtain ⟨k, hk, rfl⟩ := exists_shift hlt
    rw [mag_mul_shift, abs_real] at h
    have hmag : n * 2 ^ k ≤ d.mag := by exact_mod_cast le_of_mul_le_mul_right h (two_zpow_pos _)
    rw [NumberFormats.roundAt_above d hk]
    exact ((Nat.le_div_iff_mul_le (Nat.two_pow_pos k)).mpr hmag).trans (Nat.le_add_right _ _)

/-- A value below `n` units rounds to at most `n`. -/
theorem roundAt_le {d : Dy} {u : ℤ} {n : ℕ} (h : |real d| < (n : ℝ) * 2 ^ u) (mode : RMode) (r : ℕ) : roundAt d u mode r ≤ n := by
  rcases le_or_gt u d.exp with hle | hlt
  · rw [← roundAt_below d hle mode r] at h
    exact_mod_cast (lt_of_mul_lt_mul_right h (two_zpow_pos u).le).le
  · obtain ⟨k, hk, rfl⟩ := exists_shift hlt
    rw [mag_mul_shift, abs_real] at h
    have hmag : d.mag < n * 2 ^ k := by exact_mod_cast lt_of_mul_lt_mul_right h (two_zpow_pos _).le
    have hdiv : d.mag / 2 ^ k < n := (Nat.div_lt_iff_lt_mul (Nat.two_pow_pos k)).mpr hmag
    have hbit := Laws.bit01_le (NumberFormats.awayFromZero d k r mode)
    rw [NumberFormats.roundAt_above d hk]
    omega

/-- To nearest even, no multiple of the unit is nearer. -/
theorem roundAt_nearest {d : Dy} (hexact : d.sticky = false) (u : ℤ) (r : ℕ) (n : ℤ) :
    |(|real d|) - (roundAt d u .rne r : ℝ) * 2 ^ u| ≤ |(|real d|) - (n : ℝ) * 2 ^ u| := by
  rcases le_or_gt u d.exp with hle | hlt
  · rw [roundAt_below d hle, sub_self, abs_zero]
    exact abs_nonneg _
  · obtain ⟨k, hk, rfl⟩ := exists_shift hlt
    obtain ⟨hup, hdown, -⟩ := NumberFormats.nearestEven_roundAt hexact hk r
    generalize roundAt d (d.exp + k) .rne r = m at hup hdown
    have hunit (x : ℝ) : |real d| - x * 2 ^ (d.exp + (k : ℤ)) = (d.mag - x * 2 ^ k) * 2 ^ d.exp := by
      rw [abs_real, two_zpow_add, zpow_natCast]; ring
    have hup' : (2 * d.mag : ℝ) ≤ (2 * m + 1) * 2 ^ k := by exact_mod_cast hup
    have hdown' : (2 * m * 2 ^ k : ℝ) ≤ 2 * d.mag + 2 ^ k := by exact_mod_cast hdown
    have hhalf : |(d.mag - m * 2 ^ k : ℝ)| ≤ 2 ^ k / 2 := abs_le.mpr ⟨by linarith, by linarith⟩
    rw [hunit, hunit, abs_mul, abs_mul]
    refine mul_le_mul_of_nonneg_right ?_ (abs_nonneg _)
    rcases lt_trichotomy n m with hn | rfl | hn
    · have hn' : (n : ℝ) + 1 ≤ m := by exact_mod_cast hn
      have hstep := mul_le_mul_of_nonneg_right hn' (pow_pos (two_pos (α := ℝ)) k).le
      exact hhalf.trans ((by linarith : (2 ^ k / 2 : ℝ) ≤ d.mag - n * 2 ^ k).trans (le_abs_self _))
    · exact_mod_cast le_refl _
    · have hn' : (m : ℝ) + 1 ≤ n := by exact_mod_cast hn
      have hstep := mul_le_mul_of_nonneg_right hn' (pow_pos (two_pos (α := ℝ)) k).le
      exact hhalf.trans ((by linarith : (2 ^ k / 2 : ℝ) ≤ -(d.mag - n * 2 ^ k)).trans (neg_le_abs _))

/-! ### The binade of a value -/

theorem le_abs_real {d : Dy} (h : d.mag ≠ 0) : (2 : ℝ) ^ d.log2 ≤ |real d| := by
  rw [abs_real, Dy.log2, two_zpow_add, zpow_natCast]
  exact mul_le_mul_of_nonneg_right (by exact_mod_cast Nat.log2_self_le h) (two_zpow_pos _).le

theorem abs_real_lt (d : Dy) : |real d| < 2 ^ (d.log2 + 1) := by
  have hlt : d.mag < 2 ^ (Nat.log2 d.mag + 1) := Nat.lt_log2_self
  rw [abs_real, Dy.log2, add_right_comm, two_zpow_add]
  exact mul_lt_mul_of_pos_right (by exact_mod_cast hlt) (two_zpow_pos _)

end Sys2Proof.ExactValues
end

section
/-! PROOFS. Codes of a format: what a code stands for, what a value's rounded code stands for, and that both agree on what the format
holds. -/
open Sys2Proof Sys2Proof.Machine Sys2Proof.Rules Sys2Proof.ExactValues

namespace Sys2Proof.FormatCodes

/-! ### The value of a magnitude code (R53, R55, R56) -/

/-- The significand of a magnitude code with `mb` fraction bits. -/
def magOf (mb c : ℕ) : ℕ := if c / 2 ^ mb = 0 then c % 2 ^ mb else 2 ^ mb + c % 2 ^ mb
/-- The exponent of that significand's unit, where the smallest is `q`. -/
def expOf (mb : ℕ) (q : ℤ) (c : ℕ) : ℤ := q + (c / 2 ^ mb - 1 : ℕ)
/-- The value of a magnitude code. -/
noncomputable def codeReal (mb : ℕ) (q : ℤ) (c : ℕ) : ℝ := magOf mb c * 2 ^ expOf mb q c

section
variable {mb k n : ℕ} {q : ℤ}

@[simp] theorem codeReal_zero (mb : ℕ) (q : ℤ) : codeReal mb q 0 = 0 := by simp [codeReal, magOf]

theorem codeReal_nonneg (mb : ℕ) (q : ℤ) (c : ℕ) : 0 ≤ codeReal mb q c := mul_nonneg (Nat.cast_nonneg _) (two_zpow_pos _).le

theorem magOf_lt (mb c : ℕ) : magOf mb c < 2 ^ (mb + 1) := by
  have hmod := Nat.mod_lt c (Nat.two_pow_pos mb)
  unfold magOf
  split <;> omega

/-- A significand of at most `mb + 1` bits, or the one above, at unit `q + k`: the carry into the exponent is exact. -/
theorem codeReal_parts (hn : n ≤ 2 ^ (mb + 1)) (hk : k = 0 ∨ 2 ^ mb ≤ n) : codeReal mb q (k * 2 ^ mb + n) = n * 2 ^ (q + (k : ℤ)) := by
  have hpos := Nat.two_pow_pos mb
  have hdiv : (k * 2 ^ mb + n) / 2 ^ mb = k + n / 2 ^ mb := by rw [Nat.add_comm, Nat.add_mul_div_right _ _ hpos, Nat.add_comm]
  have hmod : (k * 2 ^ mb + n) % 2 ^ mb = n % 2 ^ mb := by rw [Nat.add_comm, Nat.add_mul_mod_self_right]
  have hsplit := Nat.div_add_mod n (2 ^ mb)
  rw [codeReal, magOf, expOf, hdiv, hmod]
  rcases Nat.lt_or_ge n (2 ^ mb) with hlt | hge
  · obtain rfl : k = 0 := by omega
    rw [Nat.div_eq_of_lt hlt, Nat.mod_eq_of_lt hlt]
    simp
  · rcases Nat.lt_or_ge n (2 ^ (mb + 1)) with hlt | htop
    · have hone : n / 2 ^ mb = 1 := Nat.div_eq_of_lt_le (by omega) (by omega)
      rw [hone, if_neg (Nat.succ_ne_zero k), Nat.add_sub_cancel]
      rw [hone, Nat.mul_one] at hsplit
      rw [hsplit]
    · obtain rfl : n = 2 ^ mb * 2 := by omega
      have hexp : q + ((k + 2 - 1 : ℕ) : ℤ) = q + k + 1 := by omega
      rw [Nat.mul_div_cancel_left _ hpos, Nat.mul_mod_right, if_neg (Nat.succ_ne_zero _), hexp, two_zpow_add (q + k) 1]
      push_cast
      ring

end

/-- The codes of a sign's magnitudes rise with the values. -/
theorem codeReal_strictMono (mb : ℕ) (q : ℤ) : StrictMono (codeReal mb q) := by
  refine strictMono_nat_of_lt_succ fun c => ?_
  have hpos := Nat.two_pow_pos mb
  have hsplit := Nat.div_add_mod c (2 ^ mb)
  have hmod := Nat.mod_lt c hpos
  obtain ⟨k, n, hk, hn, rfl⟩ : ∃ k n, (k = 0 ∨ 2 ^ mb ≤ n) ∧ n < 2 ^ (mb + 1) ∧ c = k * 2 ^ mb + n := by
    rcases Nat.eq_zero_or_pos (c / 2 ^ mb) with h | h
    · exact ⟨0, c, .inl rfl, by rw [h] at hsplit; omega, by simp⟩
    · refine ⟨c / 2 ^ mb - 1, 2 ^ mb + c % 2 ^ mb, .inr (by omega), by omega, ?_⟩
      obtain ⟨j, hj⟩ : ∃ j, c / 2 ^ mb = j + 1 := ⟨c / 2 ^ mb - 1, by omega⟩
      rw [hj] at hsplit ⊢
      rw [Nat.add_sub_cancel]
      linarith
  have hnext : k = 0 ∨ 2 ^ mb ≤ n + 1 := hk.imp_right fun h => by omega
  rw [Nat.add_assoc, codeReal_parts hn.le hk, codeReal_parts hn hnext]
  exact mul_lt_mul_of_pos_right (by push_cast; linarith) (two_zpow_pos _)

/-! ### The rounded code of a value (R66, R67) -/

/-- The unit a nonzero value is rounded at. -/
def unitAt (mb : ℕ) (q : ℤ) (d : Dy) : ℤ := max (d.log2 - mb) q

section
variable {mb : ℕ} {q : ℤ} {d : Dy}

theorem roundCode_of_zero (h : d.mag = 0) (mode : RMode) (r : ℕ) : roundCode mb q d mode r = 0 := by rw [roundCode, if_pos h]

theorem roundCode_eq (h : d.mag ≠ 0) (mode : RMode) (r : ℕ) :
    roundCode mb q d mode r = (unitAt mb q d - q).toNat * 2 ^ mb + roundAt d (unitAt mb q d) mode r := by rw [roundCode, if_neg h]; rfl

theorem abs_real_lt_unit (mb : ℕ) (q : ℤ) (d : Dy) : |real d| < ((2 ^ (mb + 1) : ℕ) : ℝ) * 2 ^ unitAt mb q d := by
  have hle : d.log2 + 1 ≤ ((mb + 1 : ℕ) : ℤ) + unitAt mb q d := by unfold unitAt; omega
  refine (abs_real_lt d).trans_le ?_
  rw [Nat.cast_pow, Nat.cast_ofNat, ← zpow_natCast, ← two_zpow_add]
  exact zpow_le_zpow_right₀ one_le_two hle

/-- Above the smallest unit, the value fills the significand. -/
theorem le_abs_real_unit (h : d.mag ≠ 0) (hu : unitAt mb q d ≠ q) : ((2 ^ mb : ℕ) : ℝ) * 2 ^ unitAt mb q d ≤ |real d| := by
  have hlog : ((mb : ℕ) : ℤ) + unitAt mb q d = d.log2 := by unfold unitAt at hu ⊢; omega
  refine le_trans ?_ (le_abs_real h)
  rw [Nat.cast_pow, Nat.cast_ofNat, ← zpow_natCast, ← two_zpow_add, hlog]

/-- The rounded code stands for the rounded multiple of the unit. -/
theorem codeReal_roundCode (h : d.mag ≠ 0) (mode : RMode) (r : ℕ) :
    codeReal mb q (roundCode mb q d mode r) = roundAt d (unitAt mb q d) mode r * 2 ^ unitAt mb q d := by
  have hq : q ≤ unitAt mb q d := le_max_right _ _
  have hunit : q + ((unitAt mb q d - q).toNat : ℤ) = unitAt mb q d := by omega
  rw [roundCode_eq h, codeReal_parts (roundAt_le (abs_real_lt_unit mb q d) mode r), hunit]
  by_cases hu : unitAt mb q d = q
  · exact .inl (by omega)
  · exact .inr (le_roundAt (le_abs_real_unit h hu) mode r)

end

/-! ### What a format holds -/

/-- A value that significands of `mb + 1` bits hold at a unit from `q` to `q + K`. -/
def Holds (mb : ℕ) (q : ℤ) (K : ℕ) (v : ℝ) : Prop :=
  ∃ k : ℕ, k ≤ K ∧ OnGrid (q + (k : ℤ)) v ∧ |v| < 2 ^ ((mb : ℤ) + 1 + (q + k))

section
variable {mb K : ℕ} {q : ℤ} {d : Dy} {v : ℝ}

theorem unitAt_le_of_holds (h : d.mag ≠ 0) (hv : Holds mb q K (real d)) :
    ∃ k : ℕ, k ≤ K ∧ OnGrid (q + (k : ℤ)) (real d) ∧ unitAt mb q d ≤ q + k := by
  obtain ⟨k, hk, hgrid, hlt⟩ := hv
  have hlog : d.log2 < (mb : ℤ) + 1 + (q + k) := (zpow_lt_zpow_iff_right₀ one_lt_two).mp ((le_abs_real h).trans_lt hlt)
  exact ⟨k, hk, hgrid, by unfold unitAt; omega⟩

/-- Rounding keeps a value the format holds, in every mode. -/
theorem codeReal_roundCode_of_holds (hexact : d.sticky = false) (hv : Holds mb q K (real d)) (mode : RMode) (r : ℕ) :
    codeReal mb q (roundCode mb q d mode r) = |real d| ∧ roundCode mb q d mode r < (K + 2) * 2 ^ mb := by
  by_cases h : d.mag = 0
  · rw [roundCode_of_zero h, codeReal_zero, real_of_mag_zero h, abs_zero]
    exact ⟨rfl, Nat.mul_pos (by omega) (Nat.two_pow_pos mb)⟩
  · obtain ⟨k, hk, hgrid, hu⟩ := unitAt_le_of_holds h hv
    have hround := roundAt_of_onGrid hexact (hgrid.mono hu) mode r
    refine ⟨(codeReal_roundCode h mode r).trans hround, ?_⟩
    have hlt := abs_real_lt_unit mb q d
    rw [← hround] at hlt
    have hnat : roundAt d (unitAt mb q d) mode r < 2 ^ (mb + 1) := by exact_mod_cast lt_of_mul_lt_mul_right hlt (two_zpow_pos _).le
    have hmul : (unitAt mb q d - q).toNat * 2 ^ mb ≤ K * 2 ^ mb := Nat.mul_le_mul_right _ (by omega)
    rw [roundCode_eq h, Nat.add_mul]
    omega

/-- Rounding stays on every grid the value is on. -/
theorem onGrid_codeReal_roundCode (hexact : d.sticky = false) {g : ℤ} (hg : OnGrid g (real d)) (mode : RMode) (r : ℕ) :
    OnGrid g (codeReal mb q (roundCode mb q d mode r)) := by
  by_cases h : d.mag = 0
  · rw [roundCode_of_zero h, codeReal_zero]; exact onGrid_zero g
  · rw [codeReal_roundCode h]
    rcases le_or_gt (unitAt mb q d) g with hle | hlt
    · rw [roundAt_of_onGrid hexact (hg.mono hle)]; exact hg.abs
    · exact (onGrid_nat _ _).mono hlt.le

/-- To nearest even, the format holds no value nearer. -/
theorem codeReal_nearest (hexact : d.sticky = false) {z : ℝ} (hz : Holds mb q K z) (r : ℕ) :
    |(|real d|) - codeReal mb q (roundCode mb q d .rne r)| ≤ |(|real d|) - (|z|)| := by
  by_cases h : d.mag = 0
  · rw [roundCode_of_zero h, codeReal_zero, real_of_mag_zero h, abs_zero, sub_zero, abs_zero]
    exact abs_nonneg _
  · obtain ⟨k, -, hgrid, hlt⟩ := hz
    rw [codeReal_roundCode h]
    rcases le_or_gt (unitAt mb q d) (q + k) with hle | hgt
    · obtain ⟨n, hn⟩ := hgrid.abs.mono hle
      rw [hn]
      exact roundAt_nearest hexact _ r n
    · -- `z` lies below the value's binade, whose first value is a multiple of the unit
      have hu : unitAt mb q d ≠ q := by omega
      have hbinade := le_abs_real_unit h hu
      have hz : |z| ≤ ((2 ^ mb : ℕ) : ℝ) * 2 ^ unitAt mb q d := by
        refine hlt.le.trans ?_
        rw [Nat.cast_pow, Nat.cast_ofNat, ← zpow_natCast, ← two_zpow_add]
        exact zpow_le_zpow_right₀ one_le_two (by omega)
      refine (roundAt_nearest hexact _ r (2 ^ mb : ℕ)).trans ?_
      rw [Int.cast_natCast, abs_of_nonneg (sub_nonneg.mpr hbinade), abs_of_nonneg (sub_nonneg.mpr (hz.trans hbinade))]
      linarith

end

/-! ### Codes of the lane formats (R53, R54) -/

section
variable (f : FFmt)

/-- The largest unit of a format lies this far above the smallest. -/
def topUnit (f : FFmt) : ℕ := 2 ^ f.ebits - 3

theorem infCode_eq : f.infCode = (2 ^ f.ebits - 1) * 2 ^ f.mbits := by rw [FFmt.infCode, Nat.shiftLeft_eq]

theorem signBit_eq : f.signBit = 2 ^ f.ebits * 2 ^ f.mbits := pow_add ..

theorem infCode_lt_signBit : f.infCode < f.signBit := by
  rw [infCode_eq, signBit_eq]
  exact Nat.mul_lt_mul_of_pos_right (Nat.sub_lt (Nat.two_pow_pos _) one_pos) (Nat.two_pow_pos _)

theorem width_eq : 2 ^ f.width = 2 * f.signBit := by rw [FFmt.width, FFmt.signBit, Nat.add_assoc, pow_add, pow_one]

theorem topUnit_codes {f : FFmt} (h : 2 ≤ f.ebits) : (topUnit f + 2) * 2 ^ f.mbits = f.infCode := by
  have hpow : 2 ^ 2 ≤ 2 ^ f.ebits := Nat.pow_le_pow_right two_pos h
  rw [infCode_eq, topUnit]
  congr 1
  omega

end

section
variable {f : FFmt}

/-- What a code of a lane format stands for, by its magnitude. -/
theorem decode_eq (h : 2 ≤ f.ebits) (x : ℕ) : f.decode x =
    if x % f.signBit < f.infCode then
      .fin ⟨bitAt x (f.ebits + f.mbits), magOf f.mbits (x % f.signBit), expOf f.mbits f.qmin (x % f.signBit), false⟩
    else if x % f.signBit = f.infCode then .inf (bitAt x (f.ebits + f.mbits)) else .nan := by
  have hpos := Nat.two_pow_pos f.mbits
  have hexp : bits x (f.ebits + f.mbits - 1) f.mbits = x % f.signBit / 2 ^ f.mbits := by
    have hw : f.ebits + f.mbits - 1 + 1 - f.mbits = f.ebits := by omega
    rw [bits, Nat.shiftRight_eq_div_pow, hw, signBit_eq, Nat.mul_comm, Nat.mod_mul_right_div_self]
  have hfrac : x % 2 ^ f.mbits = x % f.signBit % 2 ^ f.mbits := by
    rw [signBit_eq, Nat.mod_mod_of_dvd _ (Nat.dvd_mul_left _ _)]
  have hlt : x % f.signBit / 2 ^ f.mbits < 2 ^ f.ebits := by
    rw [Nat.div_lt_iff_lt_mul hpos, ← signBit_eq]
    exact Nat.mod_lt _ (Nat.two_pow_pos _)
  have hsplit := Nat.div_add_mod (x % f.signBit) (2 ^ f.mbits)
  unfold FFmt.decode
  simp only [hexp, hfrac]
  generalize x % f.signBit = c at hlt hsplit
  have hfull : c / 2 ^ f.mbits = 2 ^ f.ebits - 1 ↔ ¬ c < f.infCode := by
    rw [infCode_eq, not_lt, ← Nat.le_div_iff_mul_le hpos]
    omega
  by_cases hc : c < f.infCode
  · rw [if_neg (fun e => hfull.mp e hc), if_pos hc]
    by_cases he : c / 2 ^ f.mbits = 0
    · rw [if_pos he, magOf, expOf, if_pos he, he]
      simp
    · rw [if_neg he, magOf, expOf, if_neg he]
  · have he := hfull.mpr hc
    have hmod : c % 2 ^ f.mbits = 0 ↔ c = f.infCode := by
      rw [he, Nat.mul_comm, ← infCode_eq] at hsplit
      omega
    rw [if_pos he, if_neg hc]
    simp only [hmod]

theorem testBit_code {c : ℕ} (neg : Bool) (hc : c < f.signBit) : bitAt (bit01 neg * f.signBit + c) (f.ebits + f.mbits) = neg := by
  rw [bitAt, FFmt.signBit, Nat.mul_comm, Nat.testBit_two_pow_mul_add _ hc, if_neg (lt_irrefl _), Nat.sub_self, Laws.bit01_testBit]

theorem mod_code {c : ℕ} (neg : Bool) (hc : c < f.signBit) : (bit01 neg * f.signBit + c) % f.signBit = c := by
  rw [Nat.mul_add_mod_self_right, Nat.mod_eq_of_lt hc]

theorem decode_code (h : 2 ≤ f.ebits) (neg : Bool) {c : ℕ} (hc : c < f.infCode) :
    f.decode (bit01 neg * f.signBit + c) = .fin ⟨neg, magOf f.mbits c, expOf f.mbits f.qmin c, false⟩ := by
  have hlt := hc.trans (infCode_lt_signBit f)
  rw [decode_eq h, mod_code neg hlt, testBit_code neg hlt, if_pos hc]

theorem decode_infinity (h : 2 ≤ f.ebits) (neg : Bool) : f.decode (bit01 neg * f.signBit + f.infCode) = .inf neg := by
  have hlt := infCode_lt_signBit f
  rw [decode_eq h, mod_code neg hlt, testBit_code neg hlt, if_neg (lt_irrefl _), if_pos rfl]

/-- A decoded value is exact, within the format's significand, at one of its units. -/
theorem decode_fin_bounds (h : 2 ≤ f.ebits) {x : ℕ} {d : Dy} (hd : f.decode x = .fin d) :
    d.sticky = false ∧ d.mag < 2 ^ (f.mbits + 1) ∧ ∃ k : ℕ, k ≤ topUnit f ∧ d.exp = f.qmin + k := by
  rw [decode_eq h] at hd
  split_ifs at hd with hc
  cases hd
  refine ⟨rfl, magOf_lt _ _, _, ?_, rfl⟩
  rw [← topUnit_codes h] at hc
  have hdiv := (Nat.div_lt_iff_lt_mul (Nat.two_pow_pos f.mbits)).mpr hc
  omega

/-- A format holds what lies on a decoded value's grid and is no larger than it. -/
theorem holds_of_le_decoded (h : 2 ≤ f.ebits) {x : ℕ} {d : Dy} (hd : f.decode x = .fin d) {v : ℝ} (hgrid : OnGrid d.exp v)
    (hle : |v| ≤ |real d|) : Holds f.mbits f.qmin (topUnit f) v := by
  obtain ⟨-, hmag, k, hk, hexp⟩ := decode_fin_bounds h hd
  have hmag' : (d.mag : ℝ) < 2 ^ ((f.mbits : ℤ) + 1) := by exact_mod_cast hmag
  refine ⟨k, hk, hexp ▸ hgrid, hle.trans_lt ?_⟩
  rw [abs_real, two_zpow_add, ← hexp]
  exact mul_lt_mul_of_pos_right hmag' (two_zpow_pos _)

theorem holds_of_decode (h : 2 ≤ f.ebits) {x : ℕ} {d : Dy} (hd : f.decode x = .fin d) : Holds f.mbits f.qmin (topUnit f) (real d) :=
  holds_of_le_decoded h hd (onGrid_real d) le_rfl

/-! ### Rounding to a lane format (R66) -/

/-- The magnitude code of a result past the largest finite one (R66). -/
def overflowCode (f : FFmt) (neg : Bool) : RMode → ℕ
  | .rtz => f.infCode - 1
  | .rdn => if neg then f.infCode else f.infCode - 1
  | .rup => if neg then f.infCode - 1 else f.infCode
  | .rne | .sr => f.infCode

theorem overflowCode_le (f : FFmt) (neg : Bool) (mode : RMode) : overflowCode f neg mode ≤ f.infCode := by
  cases mode <;> cases neg <;> simp [overflowCode]

theorem round_fin (f : FFmt) (d : Dy) (mode : RMode) (r : ℕ) : f.round (.fin d) mode r = bit01 d.neg * f.signBit +
    if roundCode f.mbits f.qmin d mode r < f.infCode then roundCode f.mbits f.qmin d mode r else overflowCode f d.neg mode := by
  cases mode <;> rfl

/-- Rounding a value the format holds gives it back, with its sign, in every mode. -/
theorem decode_round_of_holds (h : 2 ≤ f.ebits) {d : Dy} (hexact : d.sticky = false) (hd : Holds f.mbits f.qmin (topUnit f) (real d))
    (mode : RMode) (r : ℕ) : ∃ w, f.decode (f.round (.fin d) mode r) = .fin w ∧ w.neg = d.neg ∧ real w = real d := by
  obtain ⟨hval, hlt⟩ := codeReal_roundCode_of_holds hexact hd mode r
  rw [topUnit_codes h] at hlt
  rw [round_fin, if_pos hlt]
  refine ⟨_, decode_code h d.neg hlt, rfl, ?_⟩
  rw [real_eq_sgnOf, abs_real, real_eq_sgnOf d, ← hval]
  rfl

/-- What a code rounded to nearest even stands for, where that is finite. -/
theorem real_of_decode_round (h : 2 ≤ f.ebits) {d w : Dy} {r : ℕ} (hw : f.decode (f.round (.fin d) .rne r) = .fin w) :
    real w = sgnOf d.neg * codeReal f.mbits f.qmin (roundCode f.mbits f.qmin d .rne r) := by
  rw [round_fin] at hw
  split_ifs at hw with hc
  · rw [decode_code h d.neg hc] at hw
    cases hw
    rw [real_eq_sgnOf, abs_real]
    rfl
  · rw [overflowCode, decode_infinity h] at hw
    cases hw

/-- A finite result to nearest even is at least as near as every value of the format. -/
theorem round_nearest (h : 2 ≤ f.ebits) {d w : Dy} (hexact : d.sticky = false) {r : ℕ} (hw : f.decode (f.round (.fin d) .rne r) = .fin w)
    {z : ℝ} (hz : Holds f.mbits f.qmin (topUnit f) z) : |real d - real w| ≤ |real d - z| := by
  have hfactor : real d - real w = sgnOf d.neg * (|real d| - codeReal f.mbits f.qmin (roundCode f.mbits f.qmin d .rne r)) := by
    rw [mul_sub, ← real_eq_sgnOf, real_of_decode_round h hw]
  rw [hfactor, abs_sgnOf_mul]
  exact (codeReal_nearest hexact hz r).trans (abs_abs_sub_abs_le_abs_sub _ _)

/-- A finite result to nearest even stays on every grid its operand is on. -/
theorem onGrid_round (h : 2 ≤ f.ebits) {d w : Dy} (hexact : d.sticky = false) {r : ℕ} (hw : f.decode (f.round (.fin d) .rne r) = .fin w)
    {g : ℤ} (hg : OnGrid g (real d)) : OnGrid g (real w) := by
  rw [real_of_decode_round h hw]
  exact (onGrid_codeReal_roundCode hexact hg .rne r).sgnOf_mul _

/-- A value past the largest unit has no finite code. -/
theorem infCode_le_roundCode {d : Dy} (hmag : d.mag ≠ 0) (h : f.qmin + f.mbits + (2 ^ f.ebits : ℕ) ≤ d.log2) (mode : RMode) (r : ℕ) :
    f.infCode ≤ roundCode f.mbits f.qmin d mode r := by
  rw [roundCode_eq hmag, infCode_eq]
  exact (Nat.mul_le_mul_right _ (by unfold unitAt; omega)).trans (Nat.le_add_right _ _)

theorem round_lt (f : FFmt) (hm : 1 ≤ f.mbits) (v : Val) (mode : RMode) (r : ℕ) : f.round v mode r < 2 ^ f.width := by
  have hinf := infCode_lt_signBit f
  rw [width_eq]
  rcases v with _ | neg | d
  · have hfrac : 2 ^ (f.mbits - 1) < 2 ^ f.mbits := Nat.pow_lt_pow_right one_lt_two (by omega)
    have hnan : f.infCode + 2 ^ f.mbits = f.signBit := by
      have hpos := Nat.two_pow_pos f.ebits
      rw [infCode_eq, signBit_eq, ← Nat.succ_mul]
      congr 1
      omega
    show f.infCode + 2 ^ (f.mbits - 1) < _
    omega
  · have hbit := Laws.bit01_le neg
    have hsign : bit01 neg * f.signBit ≤ 1 * f.signBit := Nat.mul_le_mul_right _ hbit
    show bit01 neg * f.signBit + f.infCode < _
    omega
  · have hsign : bit01 d.neg * f.signBit ≤ 1 * f.signBit := Nat.mul_le_mul_right _ (Laws.bit01_le d.neg)
    have hover := overflowCode_le f d.neg mode
    rw [round_fin]
    split <;> omega

end
end Sys2Proof.FormatCodes
end

section
/-! PROOFS. Floating point and packed words: FALU (R104, R105), with the integral rounding, the order of R74 and the exact pair of a sum. -/
open Sys2Proof Sys2Proof.Machine Sys2Proof.Safety Sys2Proof.Rules Sys2Proof.ExactValues Sys2Proof.FormatCodes

namespace Sys2Proof.FloatingPointAndPacked

/-! ### The lane types (R101) -/

theorem lane_ebits (t : FTy) : 2 ≤ t.fmt.ebits := by cases t <;> decide

theorem lane_mbits (t : FTy) : 1 ≤ t.fmt.mbits := by cases t <;> decide

theorem signBit_eq_two_pow (f : FFmt) : f.signBit = 2 ^ (f.width - 1) := by
  rw [FFmt.signBit, FFmt.width, Nat.add_assoc, Nat.add_sub_cancel_left]

theorem packed_width {t : FTy} (h : t.packed = true) : t.fmt.width = 16 := by cases t <;> simp_all [FTy.packed, FTy.fmt, f16, bf16, FFmt.width]

/-- An element of a result whose elements fit their type is that element. -/
theorem elemOf_overTy {t : FTy} {g : ℕ → ℕ} (hg : ∀ e, g e < 2 ^ t.fmt.width) {e : ℕ} (he : e < if t.packed then 2 else 1) :
    elemOf t (overTy t g) e = g e := by
  cases hp : t.packed
  · obtain rfl : e = 0 := by simpa [hp] using he
    simp only [elemOf, overTy, hp, Bool.false_eq_true, if_false]
    exact Nat.mod_eq_of_lt (hg 0)
  · have h0 := hg 0
    have h1 := hg 1
    rw [packed_width hp] at h0 h1
    rw [hp, if_pos rfl] at he
    simp only [elemOf, overTy, hp, if_true, bits_eq, Nat.shiftLeft_eq]
    interval_cases e <;> omega

theorem elemOf_lt (t : FTy) (x e : ℕ) : elemOf t x e < 2 ^ t.fmt.width := by
  unfold elemOf
  cases hp : t.packed
  · exact Nat.mod_lt _ (Nat.two_pow_pos _)
  · have hw : 16 * e + 15 + 1 - 16 * e = 16 := by omega
    rw [if_pos rfl, bits_eq, hw, packed_width hp]
    exact Nat.mod_lt _ (Nat.two_pow_pos _)

/-! ### Rounding to an integral value (R104) -/

/-- One element of `fround`. -/
def integral (f : FFmt) (mode : RMode) (r x : ℕ) : ℕ :=
  match f.decode x with
  | .nan => f.canonNan
  | .inf _ => x
  | .fin d => if 0 ≤ d.exp then x else f.round (.fin ⟨d.neg, roundAt d 0 mode r, 0, false⟩) .rne 0

theorem fpRound_eq (t : FTy) (r : Rnd) (a : ℕ) : fpRound t r a = overTy t fun e => integral t.fmt r.mode (r.bits e) (elemOf t a e) := rfl

section
variable {f : FFmt} {x : ℕ} (mode : RMode) (r : ℕ)

theorem integral_nan (h : f.decode x = .nan) : integral f mode r x = f.canonNan := by simp only [integral, h]

theorem integral_inf {neg : Bool} (h : f.decode x = .inf neg) : integral f mode r x = x := by simp only [integral, h]

theorem integral_fin {d : Dy} (h : f.decode x = .fin d) :
    integral f mode r x = if 0 ≤ d.exp then x else f.round (.fin ⟨d.neg, roundAt d 0 mode r, 0, false⟩) .rne 0 := by simp only [integral, h]

theorem integral_lt (hm : 1 ≤ f.mbits) (hx : x < 2 ^ f.width) : integral f mode r x < 2 ^ f.width := by
  rcases h : f.decode x with _ | neg | d
  · rw [integral_nan mode r h]; exact round_lt f hm .nan mode r
  · rwa [integral_inf mode r h]
  · rw [integral_fin mode r h]
    split
    · exact hx
    · exact round_lt f hm _ _ _

/-- A finite element becomes the integer its magnitude rounds to, with its sign: that integer is short enough for the format. -/
theorem decode_integral (he : 2 ≤ f.ebits) (hq : f.qmin ≤ 0) (htop : (-f.qmin).toNat ≤ topUnit f) {d : Dy} (h : f.decode x = .fin d) :
    ∃ w, f.decode (integral f mode r x) = .fin w ∧ w.neg = d.neg ∧ real w = sgnOf d.neg * roundAt d 0 mode r := by
  rw [integral_fin mode r h]
  split
  case isTrue hexp =>
    have hround := roundAt_below d hexp mode r
    rw [zpow_zero, mul_one] at hround
    exact ⟨d, h, rfl, by rw [hround]; exact real_eq_sgnOf d⟩
  case isFalse hexp =>
    have hreal : real ⟨d.neg, roundAt d 0 mode r, 0, false⟩ = sgnOf d.neg * roundAt d 0 mode r := by
      rw [real_def, zpow_zero, mul_one]
    obtain ⟨-, hmag, -⟩ := decode_fin_bounds he h
    have hmag' : (d.mag : ℝ) < 2 ^ ((f.mbits : ℤ) + 1) := by exact_mod_cast hmag
    have hsmall : |real d| < ((2 ^ f.mbits : ℕ) : ℝ) * 2 ^ (0 : ℤ) := by
      have hunit : (2 : ℝ) ^ d.exp ≤ 2 ^ (-1 : ℤ) := zpow_le_zpow_right₀ one_le_two (by omega)
      calc |real d| = d.mag * 2 ^ d.exp := abs_real d
        _ < 2 ^ ((f.mbits : ℤ) + 1) * 2 ^ (-1 : ℤ) := mul_lt_mul hmag' hunit (two_zpow_pos _) (two_zpow_pos _).le
        _ = ((2 ^ f.mbits : ℕ) : ℝ) * 2 ^ (0 : ℤ) := by rw [← two_zpow_add]; simp
    have hint : ((roundAt d 0 mode r : ℕ) : ℝ) < 2 ^ (f.mbits + 1) := by
      have hle := roundAt_le hsmall mode r
      have hlt : roundAt d 0 mode r < 2 ^ (f.mbits + 1) := by rw [pow_succ]; have := Nat.two_pow_pos f.mbits; omega
      exact_mod_cast hlt
    have hunit : f.qmin + ((-f.qmin).toNat : ℤ) = 0 := by omega
    have hholds : Holds f.mbits f.qmin (topUnit f) (real ⟨d.neg, roundAt d 0 mode r, 0, false⟩) := by
      refine ⟨_, htop, hunit ▸ onGrid_real _, ?_⟩
      rw [hreal, abs_sgnOf_mul, Nat.abs_cast, hunit, add_zero]
      exact_mod_cast hint
    obtain ⟨w, hw, hneg, hval⟩ := decode_round_of_holds he rfl hholds .rne 0
    exact ⟨w, hw, hneg, hval.trans hreal⟩

end

theorem fpRound_elem (t : FTy) (r : Rnd) (x : ℕ) {e : ℕ} (he : e < if t.packed then 2 else 1) :
    elemOf t (fpRound t r x) e = integral t.fmt r.mode (r.bits e) (elemOf t x e) := by
  rw [fpRound_eq]
  exact elemOf_overTy (fun e => integral_lt _ _ (lane_mbits t) (elemOf_lt t x e)) he

/-! ### The order of R74 -/

section
variable {f : FFmt}

theorem isNan_decode (h : 2 ≤ f.ebits) (x : ℕ) : (f.decode x).isNan = true ↔ f.infCode < x % f.signBit := by
  rw [decode_eq h]
  split_ifs with hlt heq
  · simp only [Val.isNan, Bool.false_eq_true, false_iff]; omega
  · simp only [Val.isNan, Bool.false_eq_true, false_iff]; omega
  · simp only [Val.isNan, true_iff]; omega

/-- A code is its sign and its magnitude. -/
theorem code_split {x : ℕ} (hx : x < 2 ^ f.width) : x = bit01 (decide (f.signBit ≤ x)) * f.signBit + x % f.signBit := by
  rw [width_eq] at hx
  rcases Nat.lt_or_ge x f.signBit with hlt | hge
  · rw [Nat.mod_eq_of_lt hlt, decide_eq_false (not_le.mpr hlt)]
    simp [bit01]
  · have hmod : x % f.signBit = x - f.signBit := by rw [Nat.mod_eq_sub_mod hge, Nat.mod_eq_of_lt (by omega)]
    rw [hmod, decide_eq_true hge, bit01, if_pos rfl]
    omega

theorem place_code (neg : Bool) {c : ℕ} (hc : c < f.signBit) :
    place f.width (bit01 neg * f.signBit + c) = if neg then -(c : ℤ) - 1 else c := by
  rw [place, ← signBit_eq_two_pow]
  cases neg
  · simp [bit01, hc]
  · simp [bit01]

theorem magOf_eq_zero_iff (mb c : ℕ) : magOf mb c = 0 ↔ c = 0 := by
  have hpos := Nat.two_pow_pos mb
  have hsplit := Nat.div_add_mod c (2 ^ mb)
  unfold magOf
  split
  case isTrue h => rw [h] at hsplit; omega
  case isFalse h => exact ⟨fun _ => by omega, fun hc => absurd (by rw [hc, Nat.zero_div]) h⟩

/-- Of two finite values, the one below has the lower place. -/
theorem below_iff_of_codes (mb : ℕ) (q : ℤ) (s t : Bool) (c k : ℕ) :
    (Val.fin ⟨s, magOf mb c, expOf mb q c, false⟩).below (.fin ⟨t, magOf mb k, expOf mb q k, false⟩) = true ↔
      (if s then -(c : ℤ) - 1 else c) < if t then -(k : ℤ) - 1 else k := by
  have hmono := codeReal_strictMono mb q
  have hreal (s : Bool) (c : ℕ) : real ⟨s, magOf mb c, expOf mb q c, false⟩ = sgnOf s * codeReal mb q c := by
    rw [real_def, mul_assoc]; rfl
  have hposc : 0 < c → 0 < codeReal mb q c := fun h => by simpa using hmono h
  have hposk : 0 < k → 0 < codeReal mb q k := fun h => by simpa using hmono h
  have hnonc := codeReal_nonneg mb q c
  have hnonk := codeReal_nonneg mb q k
  simp only [Val.below, magOf_eq_zero_iff]
  split
  case isTrue hzero =>
    obtain ⟨rfl, rfl⟩ := hzero
    cases s <;> cases t <;> simp
  case isFalse hzero =>
    rw [lt_iff_real, hreal, hreal]
    have hsome : 0 < codeReal mb q c + codeReal mb q k := by
      rcases Nat.eq_zero_or_pos c with h | h
      · exact add_pos_of_nonneg_of_pos hnonc (hposk (by omega))
      · exact add_pos_of_pos_of_nonneg (hposc h) hnonk
    cases s <;> cases t <;> simp only [sgnOf, Bool.false_eq_true, if_true, if_false, one_mul, neg_one_mul]
    · rw [hmono.lt_iff_lt]; omega
    · exact ⟨fun h => by linarith, fun h => by omega⟩
    · exact ⟨fun _ => by omega, fun _ => by linarith⟩
    · rw [neg_lt_neg_iff, hmono.lt_iff_lt]; omega

/-- The order of R74 is that of the places, −0 lying under +0 and the infinities at the ends. -/
theorem below_iff_place (h : 2 ≤ f.ebits) {x y : ℕ} (hx : x < 2 ^ f.width) (hy : y < 2 ^ f.width) (hnx : x % f.signBit ≤ f.infCode)
    (hny : y % f.signBit ≤ f.infCode) : (f.decode x).below (f.decode y) = true ↔ place f.width x < place f.width y := by
  have hinf := infCode_lt_signBit f
  rw [code_split hx, code_split hy]
  generalize decide (f.signBit ≤ x) = s at *
  generalize decide (f.signBit ≤ y) = t at *
  generalize x % f.signBit = c at *
  generalize y % f.signBit = k at *
  rw [place_code s (hnx.trans_lt hinf), place_code t (hny.trans_lt hinf)]
  rcases hnx.lt_or_eq with hc | rfl <;> rcases hny.lt_or_eq with hk | rfl
  · rw [decode_code h s hc, decode_code h t hk]
    exact below_iff_of_codes _ _ _ _ _ _
  · rw [decode_code h s hc, decode_infinity h]
    cases s <;> cases t <;> simp [Val.below] <;> omega
  · rw [decode_infinity h, decode_code h t hk]
    cases s <;> cases t <;> simp [Val.below] <;> omega
  · rw [decode_infinity h, decode_infinity h]
    cases s <;> cases t <;> simp [Val.below]
    omega

theorem maxP_of_nan (h : 2 ≤ f.ebits) {x y : ℕ} (hnan : f.infCode < x % f.signBit ∨ f.infCode < y % f.signBit) (k : Bool) :
    maxP f k x y = f.canonNan := by
  rw [← isNan_decode h, ← isNan_decode h, ← Bool.or_eq_true] at hnan
  simp only [maxP, hnan, if_true]

theorem maxN_of_nans (h : 2 ≤ f.ebits) {x y : ℕ} (hx : f.infCode < x % f.signBit) (hy : f.infCode < y % f.signBit) (k : Bool) :
    maxN f k x y = f.canonNan := by
  rw [← isNan_decode h] at hx hy
  simp only [maxN, hx, hy, Bool.and_self, if_true]

theorem maxN_of_nan_left (h : 2 ≤ f.ebits) {x y : ℕ} (hx : f.infCode < x % f.signBit) (hy : ¬ f.infCode < y % f.signBit) (k : Bool) :
    maxN f k x y = y := by
  rw [← isNan_decode h] at hx hy
  simp only [maxN, hx, hy, Bool.and_false, Bool.false_eq_true, if_true, if_false]

theorem maxN_of_nan_right (h : 2 ≤ f.ebits) {x y : ℕ} (hx : ¬ f.infCode < x % f.signBit) (hy : f.infCode < y % f.signBit) (k : Bool) :
    maxN f k x y = x := by
  rw [← isNan_decode h] at hx hy
  simp only [maxN, hx, hy, Bool.false_and, Bool.false_eq_true, if_true, if_false]

section
variable (h : 2 ≤ f.ebits) {x y : ℕ} (hx : ¬ f.infCode < x % f.signBit) (hy : ¬ f.infCode < y % f.signBit)
include h hx hy

theorem maxP_of_numbers (k : Bool) : maxP f k x y =
    if k then (if (f.decode x).below (f.decode y) then y else x) else if (f.decode y).below (f.decode x) then y else x := by
  rw [← isNan_decode h] at hx hy
  simp only [maxP, hx, hy, Bool.or_self, Bool.false_eq_true, if_false]

theorem maxN_of_numbers (k : Bool) : maxN f k x y = maxP f k x y := by
  rw [maxP_of_numbers h hx hy]
  rw [← isNan_decode h] at hx hy
  simp only [maxN, hx, hy, Bool.and_self, Bool.false_eq_true, if_false]

theorem max_by_place (hxw : x < 2 ^ f.width) (hyw : y < 2 ^ f.width) :
    maxP f true x y = if place f.width x < place f.width y then y else x := by
  simp only [maxP_of_numbers h hx hy, if_true, below_iff_place h hxw hyw (not_lt.mp hx) (not_lt.mp hy)]

theorem min_by_place (hxw : x < 2 ^ f.width) (hyw : y < 2 ^ f.width) :
    maxP f false x y = if place f.width y < place f.width x then y else x := by
  simp only [maxP_of_numbers h hx hy, Bool.false_eq_true, if_false, below_iff_place h hyw hxw (not_lt.mp hy) (not_lt.mp hx)]

end

end

/-! ### The exact pair of a sum (R73, R105) -/

section
variable {a b : ℕ} {u v w : Dy}

theorem twoSum_fst (a b : ℕ) : (twoSum a b).1 = f32.round (.sum .rne [f32.decode a, f32.decode b]) .rne 0 := by
  unfold twoSum
  dsimp only
  split <;> rfl

theorem twoSum_snd_of_fin (h : f32.decode (twoSum a b).1 = .fin w) :
    (twoSum a b).2 = f32.round (.sum .rne [.sum .rne [f32.decode a, f32.decode b], .fin w.neg']) .rne 0 := by
  rw [twoSum_fst] at h
  simp only [twoSum, h]

theorem twoSum_snd_of_not_fin (h : ∀ w, f32.decode (twoSum a b).1 ≠ .fin w) : (twoSum a b).2 = 0 := by
  rw [twoSum_fst] at h
  unfold twoSum
  dsimp only
  split
  case _ w hw => exact absurd hw (h w)
  case _ => rfl

/-- The sum of two values, exact. -/
theorem sum_pair (mode : RMode) (u v : Dy) : Val.sum mode [.fin u, .fin v] = .fin (Dy.sum mode [u, v]) := sum_fin mode [u, v]

theorem real_sum_pair (mode : RMode) (u v : Dy) : real (Dy.sum mode [u, v]) = real u + real v := by
  rw [real_sum]; simp

/-- The error of a sum rounded to nearest even is held by the format: it is on the finer operand's grid, and no larger than that operand,
because the other operand is a value the sum could have been rounded to. -/
theorem holds_sum_error {f : FFmt} (h : 2 ≤ f.ebits) (hu : f.decode a = .fin u) (hv : f.decode b = .fin v)
    (hw : f.decode (f.round (.fin (Dy.sum .rne [u, v])) .rne 0) = .fin w) :
    Holds f.mbits f.qmin (topUnit f) (real u + real v - real w) := by
  have hsum := real_sum_pair .rne u v
  have hexact := sum_sticky .rne [u, v]
  have hgrid {g : ℤ} (hug : OnGrid g (real u)) (hvg : OnGrid g (real v)) : OnGrid g (real u + real v - real w) :=
    (hug.add hvg).sub (onGrid_round h hexact hw (hsum ▸ hug.add hvg))
  have hleft := round_nearest h hexact hw (holds_of_decode h hv)
  have hright := round_nearest h hexact hw (holds_of_decode h hu)
  rw [hsum] at hleft hright
  rw [add_sub_cancel_right] at hleft
  rw [add_sub_cancel_left] at hright
  rcases le_total u.exp v.exp with hle | hle
  · exact holds_of_le_decoded h hu (hgrid (onGrid_real u) ((onGrid_real v).mono hle)) hleft
  · exact holds_of_le_decoded h hv (hgrid ((onGrid_real u).mono hle) (onGrid_real v)) hright

/-- Where the sum is finite, the pair is exact. -/
theorem twoSum_exact (hu : f32.decode a = .fin u) (hv : f32.decode b = .fin v) (hw : f32.decode (twoSum a b).1 = .fin w) :
    ∃ e, f32.decode (twoSum a b).2 = .fin e ∧ real e = real u + real v - real w := by
  have hsnd := twoSum_snd_of_fin hw
  rw [twoSum_fst, hu, hv, sum_pair] at hw
  have hreal : real (Dy.sum .rne [Dy.sum .rne [u, v], w.neg']) = real u + real v - real w := by
    rw [real_sum_pair, real_sum_pair, real_neg', sub_eq_add_neg]
  obtain ⟨e, he, -, hval⟩ := decode_round_of_holds (f := f32) (by decide) (sum_sticky .rne [Dy.sum .rne [u, v], w.neg'])
    (hreal ▸ holds_sum_error (by decide) hu hv hw) .rne 0
  rw [hsnd, hu, hv, sum_pair, sum_pair]
  exact ⟨e, he, hval.trans hreal⟩

end

/-! ### FALU (R104, R105) -/

theorem fpCopysign_eq (t : FTy) (a b : ℕ) : fpCopysign t a b = overTy t fun e => elemOf t a e % 2 ^ (t.fmt.width - 1) +
    if (elemOf t b e).testBit (t.fmt.width - 1) then 2 ^ (t.fmt.width - 1) else 0 := by
  have hterm (s : Bool) (n : ℕ) : bit01 s * n = if s then n else 0 := by cases s <;> simp [bit01]
  simp only [fpCopysign, hterm, signBit_eq_two_pow]
  rfl

theorem lane_qmin (t : FTy) : t.fmt.qmin ≤ 0 ∧ (-t.fmt.qmin).toNat ≤ topUnit t.fmt := by cases t <;> decide

/-- Settles O9: the words by their results, then `fround` by the class of its element, the extrema by the order of places, and the error of
`twosum` by what FP32 holds. -/
theorem floatArithmetic : Obligations.FloatArithmetic := by
  intro d a b t m
  refine ⟨gives_of_result (fun _ => rfl) rfl fun _ _ _ => rfl, gives_of_result (fun _ => rfl) rfl fun _ _ _ => rfl,
    gives_of_result (fun _ => rfl) rfl fun _ _ _ => rfl, gives_of_result (fun _ => rfl) rfl fun _ _ _ => rfl,
    gives_of_result (fun _ => rfl) rfl fun _ _ _ => rfl, gives_of_result (fun _ => rfl) rfl fun _ _ _ => rfl,
    gives_of_result (fun _ => rfl) rfl fun _ _ _ => rfl, gives_of_result (fun _ => rfl) rfl ?abs, gives_of_result (fun _ => rfl) rfl ?neg,
    gives_of_result (fun _ => rfl) rfl ?copysign, gives_of_result (fun _ => rfl) rfl fun _ _ _ => rfl,
    gives_of_result (fun _ => rfl) rfl fun _ _ _ => rfl, ?integral, ?extrema, ?pair⟩
  case abs => intro _ _ v; simp only [fpAbs, signBit_eq_two_pow]; rfl
  case neg => intro _ _ v; simp only [fpNeg, signBit_eq_two_pow]; rfl
  case copysign => intro _ _ v; exact congrArg Res.of (fpCopysign_eq t _ _)
  case integral =>
    intro r x e he
    obtain ⟨hq, htop⟩ := lane_qmin t
    dsimp only
    rw [fpRound_elem t r x he]
    exact ⟨integral_nan _ _, fun n h => integral_inf _ _ h, fun u h => decode_integral _ _ (lane_ebits t) hq htop h⟩
  case extrema =>
    intro f w inf hf x y hx hy nan
    obtain ⟨hebits, rfl, rfl, hsign⟩ : 2 ≤ f.ebits ∧ w = f.width ∧ inf = f.infCode ∧ 2 ^ (w - 1) = f.signBit := by
      simp only [Prod.mk.injEq] at hf
      rcases hf with ⟨rfl, rfl, rfl⟩ | ⟨rfl, rfl, rfl⟩ | ⟨rfl, rfl, rfl⟩ <;> decide
    simp only [nan, hsign]
    exact ⟨maxP_of_nan hebits, maxN_of_nans hebits, maxN_of_nan_left hebits, maxN_of_nan_right hebits, fun hnx hny =>
      ⟨maxN_of_numbers hebits hnx hny, max_by_place hebits hnx hny hx hy, min_by_place hebits hnx hny hx hy⟩⟩
  case pair =>
    intro x y _ _ s
    exact ⟨twoSum_fst x y, twoSum_snd_of_not_fin, fun u v w hu hv hw => twoSum_exact hu hv hw⟩

end Sys2Proof.FloatingPointAndPacked
end

section
/-! PROOFS. Floating point and packed words: the fused multiply-adds, the dot products and the compensated complex ones (R106, R118, R120,
R73). -/
open Sys2Proof Sys2Proof.Machine Sys2Proof.Safety Sys2Proof.Rules Sys2Proof.ExactValues Sys2Proof.FormatCodes

namespace Sys2Proof.FloatingPointAndPacked

/-! ### Compensated accumulation (R73) -/

/-- What rounding a sum to FP32 leaves of it. -/
def residue (e : Val) (x : ℕ) : ℕ :=
  match f32.decode x with
  | .fin dx => f32.round (Val.sum .rne [e, .fin dx.neg']) .rne 0
  | _ => 0

theorem residue_fin {e : Val} {x : ℕ} {dx : Dy} (h : f32.decode x = .fin dx) :
    residue e x = f32.round (Val.sum .rne [e, .fin dx.neg']) .rne 0 := by simp only [residue, h]

/-- The low part of a pair after a step, by the high part. -/
def lowPart (lo h err d : ℕ) : ℕ :=
  match f32.decode h with
  | .inf _ => 0
  | _ => f32.round (Val.sum .rne [f32.decode lo, f32.decode err, f32.decode d]) .rne 0

theorem lowPart_inf {lo h err d : ℕ} {n : Bool} (hh : f32.decode h = .inf n) : lowPart lo h err d = 0 := by simp only [lowPart, hh]

theorem lowPart_fin {lo h err d : ℕ} {w : Dy} (hh : f32.decode h = .fin w) :
    lowPart lo h err d = f32.round (Val.sum .rne [f32.decode lo, f32.decode err, f32.decode d]) .rne 0 := by simp only [lowPart, hh]

section
variable {hi lo : ℕ} {p q : Val}

theorem cacc_of_nan (h : ((Val.sum .rne [p, q]).isNan || (f32.decode hi).isNan || (f32.decode lo).isNan) = true) :
    cacc hi lo p q = (f32.canonNan, f32.canonNan) := by
  simp only [cacc, h, if_true]

theorem cacc_of_numbers (h : ((Val.sum .rne [p, q]).isNan || (f32.decode hi).isNan || (f32.decode lo).isNan) = false) :
    cacc hi lo p q = ((twoSum hi (f32.round (Val.sum .rne [p, q]) .rne 0)).1,
      lowPart lo (twoSum hi (f32.round (Val.sum .rne [p, q]) .rne 0)).1 (twoSum hi (f32.round (Val.sum .rne [p, q]) .rne 0)).2
        (residue (Val.sum .rne [p, q]) (f32.round (Val.sum .rne [p, q]) .rne 0))) := by
  simp only [cacc, h, Bool.false_eq_true, if_false]
  generalize hs : twoSum hi (f32.round (Val.sum .rne [p, q]) .rne 0) = s
  rcases hd : f32.decode s.1 with _ | n | w <;> simp only [lowPart, hd] <;> rfl

theorem cacc_of_nan_product (h : p = .nan ∨ q = .nan) : cacc hi lo p q = (f32.canonNan, f32.canonNan) := by
  have hmem : Val.nan ∈ [p, q] := by rcases h with rfl | rfl <;> simp
  exact cacc_of_nan (by rw [NumberFormats.sum_eq_nan_of_mem .rne hmem]; rfl)

theorem cacc_of_nan_pair (h : f32.decode hi = .nan ∨ f32.decode lo = .nan) : cacc hi lo p q = (f32.canonNan, f32.canonNan) := by
  refine cacc_of_nan ?_
  rcases h with h | h <;> simp [h, Val.isNan]

theorem nearest_sum (ds : List Dy) : nearest (ds.map real).sum (f32.round (.fin (Dy.sum .rne ds)) .rne 0) :=
  ⟨_, sum_sticky .rne ds, real_sum .rne ds, rfl⟩

theorem nearest_sum_pair (u v : Dy) : nearest (real u + real v) (f32.round (.fin (Dy.sum .rne [u, v])) .rne 0) := by
  simpa using nearest_sum [u, v]

/-- Two finite products are accumulated, as their exact sum, by the step of R73. -/
theorem compensated_cacc (u v : Dy) :
    compensated hi lo (real u + real v) (cacc hi lo (.fin u) (.fin v)).1 (cacc hi lo (.fin u) (.fin v)).2 := by
  intro dh dl hdh hdl
  have hnumbers : ((Val.sum .rne [.fin u, .fin v]).isNan || (f32.decode hi).isNan || (f32.decode lo).isNan) = false := by
    rw [sum_pair, hdh, hdl]; rfl
  rw [cacc_of_numbers hnumbers, sum_pair]
  generalize hx : f32.round (.fin (Dy.sum .rne [u, v])) .rne 0 = x
  refine ⟨x, residue (.fin (Dy.sum .rne [u, v])) x, (twoSum hi x).2, hx ▸ nearest_sum_pair u v, fun dx hdx => ?_⟩
  have hsum := real_sum_pair .rne u v
  refine ⟨?residue, ?high, fun n hn => lowPart_inf hn, fun ds hds => ⟨?error, fun dd de hdd hde => ?low⟩⟩
  case residue =>
    rw [residue_fin hdx, sum_pair]
    simpa [hsum, sub_eq_add_neg] using nearest_sum_pair (Dy.sum .rne [u, v]) dx.neg'
  case high =>
    rw [twoSum_fst, hdh, hdx, sum_pair]
    exact nearest_sum_pair dh dx
  case error =>
    rw [twoSum_snd_of_fin hds, hdh, hdx, sum_pair, sum_pair]
    simpa [real_sum_pair, sub_eq_add_neg] using nearest_sum_pair (Dy.sum .rne [dh, dx]) ds.neg'
  case low =>
    rw [lowPart_fin hds, hdl, hde, hdd]
    have hlow := nearest_sum [dl, de, dd]
    rw [← sum_fin] at hlow
    simpa [add_assoc] using hlow

end

theorem f32_round_lt (v : Val) (mode : RMode) (r : ℕ) : f32.round v mode r < 2 ^ 32 := round_lt f32 (by decide) v mode r

theorem twoSum_fst_lt (a b : ℕ) : (twoSum a b).1 < 2 ^ 32 := by rw [twoSum_fst]; exact f32_round_lt _ _ _

theorem lowPart_lt (lo h err d : ℕ) : lowPart lo h err d < 2 ^ 32 := by
  unfold lowPart
  split
  · exact Nat.two_pow_pos 32
  · exact f32_round_lt _ _ _

theorem cacc_lt (hi lo : ℕ) (p q : Val) : (cacc hi lo p q).1 < 2 ^ 32 ∧ (cacc hi lo p q).2 < 2 ^ 32 := by
  cases h : (Val.sum .rne [p, q]).isNan || (f32.decode hi).isNan || (f32.decode lo).isNan
  · rw [cacc_of_numbers h]; exact ⟨twoSum_fst_lt _ _, lowPart_lt _ _ _ _⟩
  · rw [cacc_of_nan h]; exact ⟨by decide, by decide⟩

theorem mul_fin (u v : Dy) : (Val.fin u).mul (.fin v) = .fin (u.mul v) := rfl

theorem neg_fin (u : Dy) : (Val.fin u).neg = .fin u.neg' := rfl

/-! ### The parts of a complex accumulation (R120) -/

/-- Word `k` of an operand. -/
def wordOf (k n : ℕ) : ℕ := bits n (32 * k + 31) (32 * k)
/-- Part `k` of a complex operand: real 0, imaginary 1. -/
def part (k n : ℕ) : Val := f32.decode (wordOf k n)
/-- The real pair after a complex accumulation. -/
def realPair (conj : Bool) (x y z : ℕ) : ℕ × ℕ :=
  cacc (wordOf 0 z) (wordOf 1 z) ((part 0 x).mul (part 0 y)) (if conj then (part 1 x).mul (part 1 y) else ((part 1 x).mul (part 1 y)).neg)
/-- The imaginary pair after a complex accumulation. -/
def imagPair (conj : Bool) (x y z : ℕ) : ℕ × ℕ :=
  cacc (wordOf 2 z) (wordOf 3 z) (if conj then ((part 0 x).mul (part 1 y)).neg else (part 0 x).mul (part 1 y)) ((part 1 x).mul (part 0 y))

theorem wordOf_eq (k n : ℕ) : wordOf k n = n / 2 ^ (32 * k) % 2 ^ 32 := by
  have hw : 32 * k + 31 + 1 - 32 * k = 32 := by omega
  rw [wordOf, bits_eq, hw]

theorem fpCfma_eq (conj : Bool) (x y z : ℕ) : fpCfma conj x y z = (realPair conj x y z).1 + (realPair conj x y z).2 * 2 ^ 32 +
    (imagPair conj x y z).1 * 2 ^ 64 + (imagPair conj x y z).2 * 2 ^ 96 := by
  have hpairs : fpCfma conj x y z = match realPair conj x y z with
    | (rh, rl) => match imagPair conj x y z with
      | (ih, il) => rh + rl <<< 32 + ih <<< 64 + il <<< 96 := rfl
  rw [hpairs]
  rcases realPair conj x y z with ⟨rh, rl⟩
  rcases imagPair conj x y z with ⟨ih, il⟩
  simp only [Nat.shiftLeft_eq]

section
variable (conj : Bool) (x y z : ℕ)

/-- The four words of the result are the two pairs. -/
theorem wordOf_fpCfma : wordOf 0 (fpCfma conj x y z) = (realPair conj x y z).1 ∧ wordOf 1 (fpCfma conj x y z) = (realPair conj x y z).2 ∧
    wordOf 2 (fpCfma conj x y z) = (imagPair conj x y z).1 ∧ wordOf 3 (fpCfma conj x y z) = (imagPair conj x y z).2 := by
  obtain ⟨hr1, hr2⟩ : (realPair conj x y z).1 < 2 ^ 32 ∧ (realPair conj x y z).2 < 2 ^ 32 := cacc_lt _ _ _ _
  obtain ⟨hi1, hi2⟩ : (imagPair conj x y z).1 < 2 ^ 32 ∧ (imagPair conj x y z).2 < 2 ^ 32 := cacc_lt _ _ _ _
  rw [fpCfma_eq]
  simp only [wordOf_eq]
  omega

variable {conj x y z}

/-- A NaN part of an operand makes both pairs NaN: each pair reads every part. -/
theorem pairs_of_nan_part {k : ℕ} (hk : k < 2) (h : part k x = .nan ∨ part k y = .nan) :
    realPair conj x y z = (f32.canonNan, f32.canonNan) ∧ imagPair conj x y z = (f32.canonNan, f32.canonNan) := by
  have hneg (v : Val) (hv : v = .nan) (c : Bool) : (if c then v else v.neg) = .nan ∧ (if c then v.neg else v) = .nan := by
    subst hv; cases c <;> exact ⟨rfl, rfl⟩
  have hmul (v w : Val) (hv : v = .nan ∨ w = .nan) : v.mul w = .nan := by
    rcases hv with rfl | rfl
    · rfl
    · exact NumberFormats.mul_nan v
  interval_cases k
  · rcases h with h | h
    · exact ⟨cacc_of_nan_product (.inl (hmul _ _ (.inl h))), cacc_of_nan_product (.inl (hneg _ (hmul _ _ (.inl h)) _).2)⟩
    · exact ⟨cacc_of_nan_product (.inl (hmul _ _ (.inr h))), cacc_of_nan_product (.inr (hmul _ _ (.inr h)))⟩
  · rcases h with h | h
    · exact ⟨cacc_of_nan_product (.inr (hneg _ (hmul _ _ (.inl h)) _).1), cacc_of_nan_product (.inr (hmul _ _ (.inl h)))⟩
    · exact ⟨cacc_of_nan_product (.inr (hneg _ (hmul _ _ (.inr h)) _).1), cacc_of_nan_product (.inl (hneg _ (hmul _ _ (.inr h)) _).2)⟩

section
variable {ar ai br bi : Dy} (har : part 0 x = .fin ar) (hai : part 1 x = .fin ai) (hbr : part 0 y = .fin br) (hbi : part 1 y = .fin bi)
include har hai hbr hbi

theorem compensated_realPair : compensated (wordOf 0 z) (wordOf 1 z) (real ar * real br + (if conj then 1 else -1) * (real ai * real bi))
    (realPair conj x y z).1 (realPair conj x y z).2 := by
  rw [realPair, har, hai, hbr, hbi, mul_fin, mul_fin, neg_fin]
  cases conj
  · simpa using compensated_cacc (hi := wordOf 0 z) (lo := wordOf 1 z) (ar.mul br) (ai.mul bi).neg'
  · simpa using compensated_cacc (hi := wordOf 0 z) (lo := wordOf 1 z) (ar.mul br) (ai.mul bi)

theorem compensated_imagPair : compensated (wordOf 2 z) (wordOf 3 z) ((if conj then -1 else 1) * (real ar * real bi) + real ai * real br)
    (imagPair conj x y z).1 (imagPair conj x y z).2 := by
  rw [imagPair, har, hai, hbr, hbi, mul_fin, mul_fin, neg_fin]
  cases conj
  · simpa using compensated_cacc (hi := wordOf 2 z) (lo := wordOf 3 z) (ar.mul bi) (ai.mul br)
  · simpa using compensated_cacc (hi := wordOf 2 z) (lo := wordOf 3 z) (ar.mul bi).neg' (ai.mul br)

end
end

/-- Settles O10: the words by their results, the complex ones pair by pair. -/
theorem fusedMultiplyAdds : Obligations.FusedMultiplyAdds := by
  intro d a b c fused dot
  refine ⟨gives_of_result (fun _ => rfl) rfl fun _ _ _ => rfl, gives_of_result (fun _ => rfl) rfl fun _ _ _ => rfl,
    gives_of_result (fun _ => rfl) rfl fun _ _ _ => rfl, gives_of_result (fun _ => rfl) rfl fun _ _ _ => rfl,
    gives_of_result (fun _ => rfl) rfl fun _ _ _ => rfl, gives_of_result (fun _ => rfl) rfl fun _ _ _ => rfl,
    gives_of_result (fun _ => rfl) rfl fun _ _ _ => rfl, gives_of_result (fun _ => rfl) rfl fun _ _ _ => rfl,
    gives_of_result (fun _ => rfl) rfl fun _ _ _ => rfl, gives_of_result (fun _ => rfl) rfl fun _ _ _ => rfl, ?complex⟩
  case complex =>
    intro conj x y z
    obtain ⟨h0, h1, h2, h3⟩ := wordOf_fpCfma conj x y z
    simp only [← wordOf_eq]
    rw [h0, h1, h2, h3]
    refine ⟨fun ar ai br bi har hai hbr hbi => ⟨compensated_realPair har hai hbr hbi, compensated_imagPair har hai hbr hbi⟩, ?_, ?_, ?_⟩
    · rintro ⟨k, hk, h⟩ j hj
      obtain ⟨hr, hi⟩ := pairs_of_nan_part (conj := conj) (z := z) hk h
      rw [hr] at h0 h1
      rw [hi] at h2 h3
      interval_cases j
      exacts [h0, h1, h2, h3]
    · intro h
      rw [realPair, cacc_of_nan_pair h]
      exact ⟨rfl, rfl⟩
    · intro h
      rw [imagPair, cacc_of_nan_pair h]
      exact ⟨rfl, rfl⟩

end Sys2Proof.FloatingPointAndPacked
end

section
/-! PROOFS. Floating point and packed words: the special functions (R107, R108). The quotient and the roots are cut off far below the
format's precision with a mark that says whether anything was cut, so that one rounding of what is left rounds the exact value. -/
open Sys2Proof Sys2Proof.Machine Sys2Proof.Safety Sys2Proof.Rules Sys2Proof.ExactValues Sys2Proof.FormatCodes

namespace Sys2Proof.FloatingPointAndPacked

/-! ### Values cut off with a mark -/

theorem real_neg_iff {d : Dy} (h : d.mag ≠ 0) : real d < 0 ↔ d.neg = true := by
  have hpos : 0 < |real d| := abs_pos.mpr fun e => h ((real_eq_zero_iff d).mp e)
  rw [real_eq_sgnOf]
  cases d.neg
  · simp [sgnOf, hpos.le]
  · simp [sgnOf, hpos]

/-- A value that lies between two neighbouring significands at the exponent, the mark telling whether it is the lower one. -/
theorem standsFor_of_between {q : Dy} {v X : ℝ} (hv : |v| = X * 2 ^ q.exp) (hbig : 2 ^ 64 ≤ q.mag) (hlo : (q.mag : ℝ) ≤ X)
    (hhi : X < q.mag + 1) (hmark : q.sticky = false ↔ X = q.mag) (hneg : q.neg = true ↔ v < 0) : standsFor q v := by
  have hpos := two_zpow_pos q.exp
  refine ⟨hbig, ?_, ?_, ?_, hneg⟩
  · rw [hv]; exact mul_le_mul_of_nonneg_right hlo hpos.le
  · rw [hv]; exact mul_lt_mul_of_pos_right hhi hpos
  · rw [hv, hmark, mul_left_inj' hpos.ne']

/-! ### The quotient -/

theorem natCast_div_between (n : ℕ) {m : ℕ} (hm : 0 < m) :
    ((n / m : ℕ) : ℝ) ≤ (n : ℝ) / m ∧ (n : ℝ) / m < ((n / m : ℕ) : ℝ) + 1 ∧
      ((n % m != 0) = false ↔ (n : ℝ) / m = ((n / m : ℕ) : ℝ)) := by
  have hm' : (0 : ℝ) < m := by exact_mod_cast hm
  have hsplit : ((m * (n / m) + n % m : ℕ) : ℝ) = n := by exact_mod_cast Nat.div_add_mod n m
  have hlt : ((n % m : ℕ) : ℝ) < m := by exact_mod_cast Nat.mod_lt n hm
  have hnon : (0 : ℝ) ≤ (n % m : ℕ) := Nat.cast_nonneg _
  push_cast at hsplit
  refine ⟨(le_div_iff₀ hm').mpr (by linarith), (div_lt_iff₀ hm').mpr (by linarith), ?_⟩
  rw [div_eq_iff hm'.ne', bne_eq_false_iff_eq, ← Nat.cast_eq_zero (R := ℝ)]
  exact ⟨fun h => by linarith, fun h => by linarith⟩

theorem standsFor_div {a b : Dy} (ha : a.mag ≠ 0) (hb : b.mag ≠ 0) : standsFor (a.div b) (real a / real b) := by
  obtain ⟨hlo, hhi, hmark⟩ := natCast_div_between (a.mag * 2 ^ (96 + Nat.log2 b.mag)) (Nat.pos_of_ne_zero hb)
  have hb' : (b.mag : ℝ) ≠ 0 := by exact_mod_cast hb
  simp only [← Nat.shiftLeft_eq] at hlo hhi hmark
  refine standsFor_of_between (X := ((a.mag <<< (96 + Nat.log2 b.mag) : ℕ) : ℝ) / b.mag) ?value ?big hlo hhi hmark ?sign
  case value =>
    rw [abs_div, abs_real, abs_real]
    simp only [Dy.div, Nat.shiftLeft_eq]
    rw [sub_eq_add_neg, two_zpow_add, sub_eq_add_neg, two_zpow_add, zpow_neg, zpow_neg, zpow_natCast]
    have hexp := (two_zpow_pos b.exp).ne'
    push_cast
    field_simp
  case big =>
    have hlog : b.mag < 2 ^ (Nat.log2 b.mag + 1) := Nat.lt_log2_self
    have ha' : 1 ≤ a.mag := Nat.pos_of_ne_zero ha
    refine (Nat.le_div_iff_mul_le (Nat.pos_of_ne_zero hb)).mpr ?_
    rw [Nat.shiftLeft_eq]
    calc 2 ^ 64 * b.mag ≤ 2 ^ 64 * 2 ^ (Nat.log2 b.mag + 1) := Nat.mul_le_mul_left _ hlog.le
      _ = 2 ^ (65 + Nat.log2 b.mag) := by rw [← pow_add]; congr 1; omega
      _ ≤ 2 ^ (96 + Nat.log2 b.mag) := Nat.pow_le_pow_right two_pos (by omega)
      _ ≤ a.mag * 2 ^ (96 + Nat.log2 b.mag) := Nat.le_mul_of_pos_left _ ha'
  case sign =>
    have hsa := real_neg_iff ha
    have hsb := real_neg_iff hb
    have hra : real a ≠ 0 := fun e => ha ((real_eq_zero_iff a).mp e)
    have hrb : real b ≠ 0 := fun e => hb ((real_eq_zero_iff b).mp e)
    show xor a.neg b.neg = true ↔ _
    rw [div_neg_iff, hsa, hsb, ← not_le, ← not_le, hra.le_iff_lt, hrb.le_iff_lt, hsa, hsb]
    cases a.neg <;> cases b.neg <;> simp

/-! ### The roots -/

/-- The bits of the root still to be found leave it between its square and the next. -/
theorem isqrtAux_between (fuel n r : ℕ) (hlo : r * r ≤ n) (hhi : n < (r + 2 ^ fuel) * (r + 2 ^ fuel)) :
    isqrtAux fuel n r * isqrtAux fuel n r ≤ n ∧ n < (isqrtAux fuel n r + 1) * (isqrtAux fuel n r + 1) := by
  induction fuel generalizing r with
  | zero => exact ⟨hlo, hhi⟩
  | succ fuel ih =>
    have hdouble : 2 ^ (fuel + 1) = 2 ^ fuel + 2 ^ fuel := by ring
    rw [isqrtAux]
    split
    case isTrue h => exact ih _ h (by rw [Nat.add_assoc, ← hdouble]; exact hhi)
    case isFalse h => exact ih _ hlo (not_le.mp h)

theorem isqrt_eq_sqrt (n : ℕ) : isqrt n = Nat.sqrt n := by
  have hlog : n < 2 ^ (Nat.log2 n + 1) := Nat.lt_log2_self
  have hfuel : 2 ^ (Nat.log2 n + 1) ≤ 2 ^ (Nat.log2 n / 2 + 1) * 2 ^ (Nat.log2 n / 2 + 1) := by
    rw [← pow_add]; exact Nat.pow_le_pow_right two_pos (by omega)
  obtain ⟨hlo, hhi⟩ := isqrtAux_between (Nat.log2 n / 2 + 1) n 0 (Nat.zero_le _) (by rw [Nat.zero_add]; omega)
  exact Nat.eq_sqrt.mpr ⟨hlo, hhi⟩

/-- The integer root of `⌊Y⌋` is the integer part of `√Y`. -/
theorem natSqrt_between {n : ℕ} {Y : ℝ} (hlo : (n : ℝ) ≤ Y) (hhi : Y < n + 1) :
    (Nat.sqrt n : ℝ) ≤ Real.sqrt Y ∧ Real.sqrt Y < Nat.sqrt n + 1 ∧ (Real.sqrt Y = Nat.sqrt n ↔ Y = Nat.sqrt n * Nat.sqrt n) := by
  have hY : 0 ≤ Y := (Nat.cast_nonneg n).trans hlo
  have hsq : ((Nat.sqrt n * Nat.sqrt n : ℕ) : ℝ) ≤ n := by exact_mod_cast Nat.sqrt_le n
  have hnext : (n : ℝ) + 1 ≤ (((Nat.sqrt n + 1) * (Nat.sqrt n + 1) : ℕ) : ℝ) := by exact_mod_cast Nat.lt_succ_sqrt n
  push_cast at hsq hnext
  refine ⟨Real.le_sqrt_of_sq_le (by nlinarith), (Real.sqrt_lt' (by positivity)).mpr (by nlinarith), ?_⟩
  rw [Real.sqrt_eq_iff_mul_self_eq hY (Nat.cast_nonneg _)]

theorem le_natSqrt {n : ℕ} (h : 2 ^ 128 ≤ n) : 2 ^ 64 ≤ Nat.sqrt n := Nat.le_sqrt.mpr (by simpa [← pow_add] using h)

/-- The magnitude over an even exponent. -/
def evenMag (d : Dy) : ℕ := if d.exp % 2 != 0 then d.mag * 2 else d.mag
/-- Half that even exponent. -/
def halfExp (d : Dy) : ℤ := (if d.exp % 2 != 0 then d.exp - 1 else d.exp) / 2

theorem abs_real_even (d : Dy) : |real d| = evenMag d * ((2 : ℝ) ^ halfExp d) ^ 2 := by
  rw [abs_real, evenMag, halfExp, ← zpow_natCast, ← zpow_mul]
  split
  case isTrue h =>
    have hexp : d.exp = 1 + (d.exp - 1) / 2 * (2 : ℕ) := by simp only [bne_iff_ne, ne_eq] at h; omega
    conv_lhs => rw [hexp, two_zpow_add]
    push_cast
    ring
  case isFalse h =>
    have hexp : d.exp / 2 * (2 : ℕ) = d.exp := by simp only [bne_iff_ne, ne_eq, not_not] at h; omega
    rw [hexp]

theorem evenMag_bounds {d : Dy} (h : d.mag ≠ 0) : 1 ≤ evenMag d ∧ evenMag d < 2 ^ (Nat.log2 d.mag + 2) := by
  have hlog : d.mag < 2 ^ (Nat.log2 d.mag + 1) := Nat.lt_log2_self
  rw [pow_succ 2 (Nat.log2 d.mag + 1), evenMag]
  split <;> omega

theorem real_of_pos {d : Dy} (h : d.neg = false) : real d = |real d| :=
  (real_eq_sgnOf d).trans (by rw [h, sgnOf, if_neg Bool.false_ne_true, one_mul])

theorem sqrt_eq (d : Dy) : d.sqrt = ⟨false, Nat.sqrt (evenMag d * 2 ^ 200), halfExp d - 100,
    Nat.sqrt (evenMag d * 2 ^ 200) * Nat.sqrt (evenMag d * 2 ^ 200) != evenMag d * 2 ^ 200⟩ := by
  simp only [Dy.sqrt, isqrt_eq_sqrt, Nat.shiftLeft_eq]
  rfl

theorem standsFor_sqrt {d : Dy} (h : d.mag ≠ 0) (hneg : d.neg = false) : standsFor d.sqrt (Real.sqrt (real d)) := by
  obtain ⟨hpos, -⟩ := evenMag_bounds h
  obtain ⟨hlo, hhi, heq⟩ := natSqrt_between (le_refl ((evenMag d * 2 ^ 200 : ℕ) : ℝ)) (lt_add_one _)
  rw [sqrt_eq]
  refine standsFor_of_between (X := Real.sqrt ((evenMag d * 2 ^ 200 : ℕ) : ℝ)) ?value ?big hlo hhi ?mark ?sign
  case value =>
    have hscale : real d = ((evenMag d * 2 ^ 200 : ℕ) : ℝ) * ((2 : ℝ) ^ (halfExp d - 100)) ^ 2 := by
      rw [real_of_pos hneg, abs_real_even, sub_eq_add_neg, two_zpow_add, zpow_neg]
      push_cast
      norm_num
      ring
    rw [abs_of_nonneg (Real.sqrt_nonneg _), hscale, Real.sqrt_mul (Nat.cast_nonneg _), Real.sqrt_sq (two_zpow_pos _).le]
  case big => exact le_natSqrt (by calc 2 ^ 128 ≤ 1 * 2 ^ 200 := by norm_num
      _ ≤ evenMag d * 2 ^ 200 := Nat.mul_le_mul_right _ hpos)
  case mark =>
    rw [heq, bne_eq_false_iff_eq, eq_comm]
    exact_mod_cast Iff.rfl
  case sign => simp [Real.sqrt_nonneg]

/-- The inverse root as the model cuts it off. -/
def invSqrt (d : Dy) : Dy :=
  ⟨false, Nat.sqrt (2 ^ (2 * (200 + Nat.log2 d.mag)) / evenMag d), -(((2 * (200 + Nat.log2 d.mag) : ℕ) : ℤ) / 2) - halfExp d,
    Nat.sqrt (2 ^ (2 * (200 + Nat.log2 d.mag)) / evenMag d) * Nat.sqrt (2 ^ (2 * (200 + Nat.log2 d.mag)) / evenMag d) * evenMag d !=
      2 ^ (2 * (200 + Nat.log2 d.mag))⟩

theorem standsFor_invSqrt {d : Dy} (h : d.mag ≠ 0) (hneg : d.neg = false) : standsFor (invSqrt d) (1 / Real.sqrt (real d)) := by
  obtain ⟨hpos, hlt⟩ := evenMag_bounds h
  have hm : (0 : ℝ) < evenMag d := by exact_mod_cast hpos
  obtain ⟨hqlo, hqhi, -⟩ := natCast_div_between (2 ^ (2 * (200 + Nat.log2 d.mag))) hpos
  obtain ⟨hlo, hhi, heq⟩ := natSqrt_between hqlo hqhi
  refine standsFor_of_between (X := Real.sqrt (((2 ^ (2 * (200 + Nat.log2 d.mag)) : ℕ) : ℝ) / evenMag d)) ?value ?big hlo hhi ?mark ?sign
  case value =>
    have hexp : -(((2 * (200 + Nat.log2 d.mag) : ℕ) : ℤ) / 2) - halfExp d = -((200 + Nat.log2 d.mag : ℕ) : ℤ) + -halfExp d := by omega
    have hk : ((2 ^ (2 * (200 + Nat.log2 d.mag)) : ℕ) : ℝ) = ((2 : ℝ) ^ (200 + Nat.log2 d.mag)) ^ 2 := by
      rw [← pow_mul, Nat.mul_comm (200 + _)]; push_cast; rfl
    have hroot : Real.sqrt (real d) = Real.sqrt (evenMag d) * 2 ^ halfExp d := by
      rw [real_of_pos hneg, abs_real_even, Real.sqrt_mul hm.le, Real.sqrt_sq (two_zpow_pos _).le]
    have hunit := (two_zpow_pos (halfExp d)).ne'
    have hsq := (Real.sqrt_pos.mpr hm).ne'
    rw [abs_of_nonneg (by positivity), hroot, hk, Real.sqrt_div (by positivity), Real.sqrt_sq (by positivity)]
    simp only [invSqrt]
    rw [hexp, two_zpow_add, zpow_neg, zpow_neg, zpow_natCast]
    field_simp
  case big =>
    refine le_natSqrt ((Nat.le_div_iff_mul_le hpos).mpr ?_)
    calc 2 ^ 128 * evenMag d ≤ 2 ^ 128 * 2 ^ (Nat.log2 d.mag + 2) := Nat.mul_le_mul_left _ hlt.le
      _ = 2 ^ (130 + Nat.log2 d.mag) := by rw [← pow_add]; congr 1; omega
      _ ≤ 2 ^ (2 * (200 + Nat.log2 d.mag)) := Nat.pow_le_pow_right two_pos (by omega)
  case mark =>
    simp only [invSqrt]
    rw [heq, div_eq_iff hm.ne', bne_eq_false_iff_eq, eq_comm]
    exact_mod_cast Iff.rfl
  case sign => simp [invSqrt, Real.sqrt_nonneg]

end Sys2Proof.FloatingPointAndPacked
end

section
/-! PROOFS. Floating point and packed words: the special operands of R108, the exact powers and logarithms, and the special functions'
words. -/
open Sys2Proof Sys2Proof.Machine Sys2Proof.Safety Sys2Proof.Rules Sys2Proof.ExactValues Sys2Proof.FormatCodes

namespace Sys2Proof.FloatingPointAndPacked

/-! ### Powers of two with an integer exponent -/

/-- Half a unit of the smallest subnormal or less rounds to zero. -/
theorem round_two_zpow_low {f : FFmt} {n : ℤ} (h : n + 2 ≤ f.qmin) : f.round (.fin ⟨false, 1, n, false⟩) .rne 0 = 0 := by
  obtain ⟨k, hk, hq⟩ : ∃ k : ℕ, 2 ≤ k ∧ f.qmin = n + k := ⟨(f.qmin - n).toNat, by omega, by omega⟩
  have hlog : (Nat.log2 1 : ℤ) = 0 := by decide
  have hunit : unitAt f.mbits f.qmin ⟨false, 1, n, false⟩ = f.qmin := by
    unfold unitAt; simp only [Dy.log2, hlog]; omega
  have hpow : 2 ^ 2 ≤ 2 ^ k := Nat.pow_le_pow_right two_pos hk
  have hzero : roundAt ⟨false, 1, n, false⟩ f.qmin .rne 0 = 0 := by
    have hone : 1 % 2 ^ k = 1 := Nat.mod_eq_of_lt (by omega)
    have hdiv : 1 / 2 ^ k = 0 := Nat.div_eq_of_lt (by omega)
    have habove := NumberFormats.roundAt_above ⟨false, 1, n, false⟩ (show 0 < k by omega) .rne 0
    have hlt : ¬ 2 ^ k < 2 := by omega
    have hne : ¬ 2 = 2 ^ k := by omega
    simp only [← hq] at habove
    rw [habove]
    simp [NumberFormats.awayFromZero, hone, hdiv, hlt, hne, bit01]
  have hcode : roundCode f.mbits f.qmin ⟨false, 1, n, false⟩ .rne 0 = 0 := by
    rw [roundCode_eq one_ne_zero, hunit, hzero, sub_self]; simp
  rw [round_fin, hcode, overflowCode]
  simp only [bit01, Bool.false_eq_true, if_false, Nat.zero_mul, Nat.zero_add]
  split <;> omega

/-- A power of two past the largest unit rounds to infinity. -/
theorem round_two_zpow_high {f : FFmt} {n : ℤ} (h : f.qmin + f.mbits + (2 ^ f.ebits : ℕ) ≤ n) :
    f.round (.fin ⟨false, 1, n, false⟩) .rne 0 = f.infCode := by
  have hlog : (Nat.log2 1 : ℤ) = 0 := by decide
  have hcode : f.infCode ≤ roundCode f.mbits f.qmin ⟨false, 1, n, false⟩ .rne 0 := by
    refine infCode_le_roundCode one_ne_zero ?_ .rne 0
    rw [Dy.log2, hlog, zero_add]
    exact h
  rw [round_fin, if_neg (not_lt.mpr hcode)]
  simp [bit01, overflowCode]

/-- An integer power of two is exact before it is rounded (R107). -/
theorem exp2Fin_of_int {f : FFmt} (hlow : -(2 ^ 13) + 2 ≤ f.qmin) (hhigh : f.qmin + f.mbits + (2 ^ f.ebits : ℕ) ≤ 2 ^ 13) {d : Dy} {n : ℤ}
    (hmag : d.mag ≠ 0) (hn : real d = n) (arg : ℕ) : exp2Fin f d arg = f.round (.fin ⟨false, 1, n, false⟩) .rne 0 := by
  rw [exp2Fin]
  split
  case isTrue hbig =>
    obtain ⟨hlog, -⟩ := hbig
    have habs : (2 : ℝ) ^ (13 : ℤ) ≤ |(n : ℝ)| := by
      rw [← hn]
      exact (zpow_le_zpow_right₀ one_le_two (by omega)).trans (le_abs_real hmag)
    have habs' : 2 ^ 13 ≤ |n| := by exact_mod_cast habs
    have hsign := real_neg_iff hmag
    rw [hn, Int.cast_lt_zero] at hsign
    split
    case isTrue hneg =>
      have hlt := hsign.mpr hneg
      rw [abs_of_neg hlt] at habs'
      exact (round_two_zpow_low (by omega)).symm
    case isFalse hneg =>
      have hge := mt hsign.mp hneg
      rw [abs_of_nonneg (not_lt.mp hge)] at habs'
      exact (round_two_zpow_high (by omega)).symm
  case isFalse =>
    have hat := at_mul_zpow d (min_le_left d.exp 0)
    have hpow : (2 : ℝ) ^ min d.exp 0 * ((2 ^ (-(min d.exp 0)).toNat : ℕ) : ℝ) = 1 := by
      have hzero : min d.exp 0 + (-(min d.exp 0)).toNat = 0 := by omega
      rw [Nat.cast_pow, Nat.cast_ofNat, ← zpow_natCast, ← two_zpow_add, hzero, zpow_zero]
    have hint : d.at (min d.exp 0) = n * (2 ^ (-(min d.exp 0)).toNat : ℕ) := by
      have hreal : (d.at (min d.exp 0) : ℝ) = n * ((2 ^ (-(min d.exp 0)).toNat : ℕ) : ℝ) := by
        rw [← hn, ← hat, mul_assoc, hpow, mul_one]
      exact_mod_cast hreal
    have hfloor : floorShift (d.at (min d.exp 0)) (-(min d.exp 0)).toNat = n := by
      rw [floorShift, hint, Int.mul_ediv_cancel _ (by positivity)]
    dsimp only
    rw [hfloor, hint, sub_self]
    exact if_pos rfl

/-- The logarithm of a power of two is its exponent (R107). -/
theorem log2Fin_of_zpow {f : FFmt} {d : Dy} {n : ℤ} (hmag : d.mag ≠ 0) (hn : |real d| = 2 ^ n) (arg : ℕ) :
    log2Fin f d arg = f.round (.fin (Dy.ofInt n 0)) .rne 0 := by
  have hlo : d.log2 ≤ n := (zpow_le_zpow_iff_right₀ one_lt_two).mp (hn ▸ le_abs_real hmag)
  have hhi : n < d.log2 + 1 := (zpow_lt_zpow_iff_right₀ one_lt_two).mp (hn ▸ abs_real_lt d)
  obtain rfl : n = d.log2 := by omega
  have hpow : d.mag = 2 ^ Nat.log2 d.mag := by
    rw [abs_real, Dy.log2, two_zpow_add, zpow_natCast] at hn
    exact_mod_cast mul_right_cancel₀ (two_zpow_pos d.exp).ne' hn
  rw [log2Fin]
  exact if_pos hpow

/-! ### Operands by their class -/

/-- The sign of a code. -/
def negOf (f : FFmt) (x : ℕ) : Bool := decide (f.signBit ≤ x)

section
variable {f : FFmt} {x : ℕ}

theorem bitAt_sign (hx : x < 2 ^ f.width) : bitAt x (f.ebits + f.mbits) = negOf f x := by
  conv_lhs => rw [code_split hx]
  exact testBit_code _ (Nat.mod_lt _ (Nat.two_pow_pos _))

theorem decode_nan (h : 2 ≤ f.ebits) (hx : f.infCode < x % f.signBit) : f.decode x = .nan := by
  rw [decode_eq h, if_neg (by omega), if_neg (by omega)]

theorem decode_inf (h : 2 ≤ f.ebits) (hw : x < 2 ^ f.width) (hx : x % f.signBit = f.infCode) : f.decode x = .inf (negOf f x) := by
  rw [decode_eq h, if_neg (by omega), if_pos hx, bitAt_sign hw]

theorem decode_number (h : 2 ≤ f.ebits) (hw : x < 2 ^ f.width) (hx : x % f.signBit < f.infCode) :
    ∃ d, f.decode x = .fin d ∧ d.neg = negOf f x ∧ (d.mag = 0 ↔ x % f.signBit = 0) := by
  rw [decode_eq h, if_pos hx, bitAt_sign hw]
  exact ⟨_, rfl, rfl, magOf_eq_zero_iff _ _⟩

/-- The weight of a code's sign. -/
theorem sign_weight (hw : x < 2 ^ f.width) : bit01 (negOf f x) * f.signBit + x % f.signBit = x := (code_split hw).symm

theorem negOf_iff (hw : x < 2 ^ f.width) : negOf f x = true ↔ x / f.signBit = 1 := by
  have hpos : 0 < f.signBit := Nat.two_pow_pos _
  rw [width_eq] at hw
  rw [negOf, decide_eq_true_eq, Nat.div_eq_iff hpos]
  omega

end

theorem infCode_pos {f : FFmt} (he : 2 ≤ f.ebits) : 0 < f.infCode := by
  have hpow : 2 ^ 2 ≤ 2 ^ f.ebits := Nat.pow_le_pow_right two_pos he
  rw [infCode_eq]
  exact Nat.mul_pos (by omega) (Nat.two_pow_pos _)

/-! ### The special operands (R108) -/

section
variable {f : FFmt} (mode : RMode) (r : ℕ) {x : ℕ} (hw : x < 2 ^ f.width)
include hw

theorem specFn_nan (h : f.decode x = .nan) (op : SpecFn) : specFn op f mode r x = f.canonNan := by
  simp only [specFn, Nat.mod_eq_of_lt hw, h]

/-- The code of 1. -/
abbrev oneCode (f : FFmt) : ℕ := f.round (.fin ⟨false, 1, 0, false⟩) .rne 0

theorem specFn_inf {neg : Bool} (h : f.decode x = .inf neg) :
    specFn .rcp f mode r x = bit01 neg * f.signBit ∧ specFn .rsq f mode r x = (if neg then f.canonNan else 0) ∧
    specFn .sqrt f mode r x = (if neg then f.canonNan else f.infCode) ∧ specFn .exp2 f mode r x = (if neg then 0 else f.infCode) ∧
    specFn .log2 f mode r x = (if neg then f.canonNan else f.infCode) ∧ specFn .sin f mode r x = f.canonNan ∧
    specFn .cos f mode r x = f.canonNan ∧ specFn .tanh f mode r x = bit01 neg * f.signBit + oneCode f ∧
    specFn .sigm f mode r x = if neg then 0 else oneCode f := by
  simp only [specFn, Nat.mod_eq_of_lt hw, h, and_self]

theorem specFn_zero {d : Dy} (h : f.decode x = .fin d) (hd : d.mag = 0) :
    specFn .rcp f mode r x = bit01 d.neg * f.signBit + f.infCode ∧ specFn .rsq f mode r x = bit01 d.neg * f.signBit + f.infCode ∧
    specFn .sqrt f mode r x = x ∧ specFn .exp2 f mode r x = oneCode f ∧ specFn .log2 f mode r x = f.signBit + f.infCode ∧
    specFn .sin f mode r x = x ∧ specFn .cos f mode r x = oneCode f ∧ specFn .tanh f mode r x = x ∧
    specFn .sigm f mode r x = f.round (.fin ⟨false, 1, -1, false⟩) .rne 0 := by
  simp only [specFn, sigmFin, Nat.mod_eq_of_lt hw, h, hd, if_true, and_self]

theorem specFn_negative {d : Dy} (h : f.decode x = .fin d) (hd : d.mag ≠ 0) (hneg : d.neg = true) :
    specFn .rsq f mode r x = f.canonNan ∧ specFn .sqrt f mode r x = f.canonNan ∧ specFn .log2 f mode r x = f.canonNan := by
  simp only [specFn, Nat.mod_eq_of_lt hw, h, hd, hneg, if_true, if_false, and_self]

theorem specFn_number {d : Dy} (h : f.decode x = .fin d) (hd : d.mag ≠ 0) :
    specFn .rcp f mode r x = f.round (.fin ((⟨false, 1, 0, false⟩ : Dy).div d)) mode r ∧ specFn .exp2 f mode r x = exp2Fin f d x := by
  simp only [specFn, Nat.mod_eq_of_lt hw, h, hd, if_false, and_self]

theorem specFn_positive {d : Dy} (h : f.decode x = .fin d) (hd : d.mag ≠ 0) (hneg : d.neg = false) :
    specFn .sqrt f mode r x = f.round (.fin d.sqrt) mode r ∧ specFn .rsq f mode r x = f.round (.fin (invSqrt d)) .rne 0 ∧
    specFn .log2 f mode r x = log2Fin f d x := by
  simp only [specFn, Nat.mod_eq_of_lt hw, h, hd, hneg, if_false, Bool.false_eq_true, isqrt_eq_sqrt, true_and, and_true]
  rfl

variable (he : 2 ≤ f.ebits)
include he

theorem specFn_of_zero (h : x % f.signBit = 0) :
    specFn .rcp f mode r x = x + f.infCode ∧ specFn .rsq f mode r x = x + f.infCode ∧
    specFn .sqrt f mode r x = x ∧ specFn .exp2 f mode r x = oneCode f ∧ specFn .log2 f mode r x = f.signBit + f.infCode ∧
    specFn .sin f mode r x = x ∧ specFn .cos f mode r x = oneCode f ∧ specFn .tanh f mode r x = x ∧
    specFn .sigm f mode r x = f.round (.fin ⟨false, 1, -1, false⟩) .rne 0 := by
  obtain ⟨d, hd, hneg, hmag⟩ := decode_number he hw (h ▸ infCode_pos he)
  have hsplit := sign_weight hw
  rw [h, Nat.add_zero, ← hneg] at hsplit
  have hzero := specFn_zero mode r hw hd (hmag.mpr h)
  rwa [hsplit] at hzero

theorem specFn_of_inf (h : x % f.signBit = f.infCode) :
    specFn .rcp f mode r x = x - f.infCode ∧ specFn .sin f mode r x = f.canonNan ∧ specFn .cos f mode r x = f.canonNan ∧
    specFn .tanh f mode r x = x - f.infCode + oneCode f := by
  obtain ⟨hrcp, -, -, -, -, hsin, hcos, htanh, -⟩ := specFn_inf mode r hw (decode_inf he hw h)
  have hsplit := sign_weight hw
  have hweight : bit01 (negOf f x) * f.signBit = x - f.infCode := by omega
  rw [hweight] at hrcp htanh
  exact ⟨hrcp, hsin, hcos, htanh⟩

theorem specFn_of_posInf (h : x = f.infCode) :
    specFn .rsq f mode r x = 0 ∧ specFn .sqrt f mode r x = f.infCode ∧ specFn .exp2 f mode r x = f.infCode ∧
    specFn .log2 f mode r x = f.infCode ∧ specFn .sigm f mode r x = oneCode f := by
  have hlt := infCode_lt_signBit f
  have hmod : x % f.signBit = f.infCode := by rw [h, Nat.mod_eq_of_lt hlt]
  have hpos : negOf f x = false := decide_eq_false (by omega)
  have hdec := decode_inf he hw hmod
  rw [hpos] at hdec
  obtain ⟨-, hrsq, hsqrt, hexp, hlog, -, -, -, hsigm⟩ := specFn_inf mode r hw hdec
  exact ⟨hrsq, hsqrt, hexp, hlog, hsigm⟩

theorem specFn_of_negInf (h : x = f.signBit + f.infCode) : specFn .exp2 f mode r x = 0 ∧ specFn .sigm f mode r x = 0 := by
  have hlt := infCode_lt_signBit f
  have hmod : x % f.signBit = f.infCode := by rw [h, Nat.add_mod_left, Nat.mod_eq_of_lt hlt]
  have hneg : negOf f x = true := decide_eq_true (by omega)
  have hdec := decode_inf he hw hmod
  rw [hneg] at hdec
  obtain ⟨-, -, -, hexp, -, -, -, -, hsigm⟩ := specFn_inf mode r hw hdec
  exact ⟨hexp, hsigm⟩

/-- Below −0 the roots and the logarithm give NaN, as they do for the NaNs above it. -/
theorem specFn_of_negative (h : f.signBit < x) :
    specFn .rsq f mode r x = f.canonNan ∧ specFn .sqrt f mode r x = f.canonNan ∧ specFn .log2 f mode r x = f.canonNan := by
  have hneg : negOf f x = true := decide_eq_true h.le
  have hsplit := sign_weight hw
  rw [hneg, bit01, if_pos rfl, one_mul] at hsplit
  rcases lt_trichotomy (x % f.signBit) f.infCode with hlt | heq | hgt
  · obtain ⟨d, hd, hdneg, hmag⟩ := decode_number he hw hlt
    exact specFn_negative mode r hw hd (mt hmag.mp (by omega)) (hdneg.trans hneg)
  · have hdec := decode_inf he hw heq
    rw [hneg] at hdec
    obtain ⟨-, hrsq, hsqrt, -, hlog, -⟩ := specFn_inf mode r hw hdec
    exact ⟨hrsq, hsqrt, hlog⟩
  · have hnan := specFn_nan mode r hw (decode_nan he hgt)
    exact ⟨hnan .rsq, hnan .sqrt, hnan .log2⟩

end

/-! ### Division (R107, R108) -/

section
variable {f : FFmt} (mode : RMode) (r : ℕ) {x y : ℕ}

theorem fdivOp_nan (h : f.decode x = .nan ∨ f.decode y = .nan) : fdivOp f mode r x y = f.canonNan := by
  rcases h with h | h
  · simp only [fdivOp, h]
  · rcases hx : f.decode x with _ | s | d <;> simp only [fdivOp, h, hx]

theorem fdivOp_infs {s t : Bool} (hx : f.decode x = .inf s) (hy : f.decode y = .inf t) : fdivOp f mode r x y = f.canonNan := by
  simp only [fdivOp, hx, hy]

theorem fdivOp_inf_fin {s : Bool} {b : Dy} (hx : f.decode x = .inf s) (hy : f.decode y = .fin b) :
    fdivOp f mode r x y = bit01 (xor s b.neg) * f.signBit + f.infCode := by simp only [fdivOp, hx, hy]

theorem fdivOp_fin_inf {s : Bool} {a : Dy} (hx : f.decode x = .fin a) (hy : f.decode y = .inf s) :
    fdivOp f mode r x y = bit01 (xor s a.neg) * f.signBit := by simp only [fdivOp, hx, hy]

theorem fdivOp_fins {a b : Dy} (hx : f.decode x = .fin a) (hy : f.decode y = .fin b) : fdivOp f mode r x y =
    if b.mag = 0 then (if a.mag = 0 then f.canonNan else bit01 (xor a.neg b.neg) * f.signBit + f.infCode)
    else if a.mag = 0 then bit01 (xor a.neg b.neg) * f.signBit else f.round (.fin (a.div b)) mode r := by simp only [fdivOp, hx, hy]

/-- The sign of a quotient, as the weights of the operands' signs give it. -/
theorem quotient_sign (hxw : x < 2 ^ f.width) (hyw : y < 2 ^ f.width) :
    bit01 (xor (negOf f x) (negOf f y)) * f.signBit = if x / f.signBit = y / f.signBit then 0 else f.signBit := by
  have hpos : 0 < f.signBit := Nat.two_pow_pos _
  have hx := negOf_iff hxw
  have hy := negOf_iff hyw
  rw [width_eq, ← Nat.div_lt_iff_lt_mul hpos] at hxw hyw
  generalize x / f.signBit = p at *
  generalize y / f.signBit = q at *
  cases hnx : negOf f x <;> cases hny : negOf f y <;> simp only [hnx, hny, Bool.false_eq_true, false_iff, true_iff] at hx hy
  · rw [if_pos (by omega)]; simp [bit01]
  · rw [if_neg (by omega)]; simp [bit01]
  · rw [if_neg (by omega)]; simp [bit01]
  · rw [if_pos (by omega)]; simp [bit01]

/-- The special quotients of R108. -/
theorem fdivOp_special (he : 2 ≤ f.ebits) (hxw : x < 2 ^ f.width) (hyw : y < 2 ^ f.width) :
    let quo : ℕ := if x / f.signBit = y / f.signBit then 0 else f.signBit
    ((f.infCode < x % f.signBit ∨ f.infCode < y % f.signBit ∨ (x % f.signBit = 0 ∧ y % f.signBit = 0) ∨
        (x % f.signBit = f.infCode ∧ y % f.signBit = f.infCode)) → fdivOp f mode r x y = f.canonNan) ∧
      (0 < x % f.signBit → x % f.signBit ≤ f.infCode → y % f.signBit = 0 → fdivOp f mode r x y = quo + f.infCode) ∧
      (x % f.signBit = f.infCode → y % f.signBit < f.infCode → fdivOp f mode r x y = quo + f.infCode) ∧
      (x % f.signBit < f.infCode → y % f.signBit = f.infCode → fdivOp f mode r x y = quo) ∧
      (x % f.signBit = 0 → 0 < y % f.signBit → y % f.signBit < f.infCode → fdivOp f mode r x y = quo) := by
  intro quo
  have hquo : bit01 (xor (negOf f x) (negOf f y)) * f.signBit = quo := quotient_sign hxw hyw
  have hinf := infCode_pos he
  have hinfs (hx : x % f.signBit = f.infCode) (hy : y % f.signBit < f.infCode) : fdivOp f mode r x y = quo + f.infCode := by
    obtain ⟨b, hb, hbneg, -⟩ := decode_number he hyw hy
    rw [fdivOp_inf_fin mode r (decode_inf he hxw hx) hb, hbneg, hquo]
  refine ⟨?nan, fun h0 hle hy => ?infinite, hinfs, fun hx hy => ?overInf, fun hx h0 hy => ?zero⟩
  case nan =>
    rintro (hx | hy | ⟨hx, hy⟩ | ⟨hx, hy⟩)
    · exact fdivOp_nan mode r (.inl (decode_nan he hx))
    · exact fdivOp_nan mode r (.inr (decode_nan he hy))
    · obtain ⟨a, ha, -, ha0⟩ := decode_number he hxw (hx ▸ hinf)
      obtain ⟨b, hb, -, hb0⟩ := decode_number he hyw (hy ▸ hinf)
      rw [fdivOp_fins mode r ha hb, if_pos (hb0.mpr hy), if_pos (ha0.mpr hx)]
    · exact fdivOp_infs mode r (decode_inf he hxw hx) (decode_inf he hyw hy)
  case infinite =>
    rcases hle.lt_or_eq with hx | hx
    · obtain ⟨a, ha, haneg, ha0⟩ := decode_number he hxw hx
      obtain ⟨b, hb, hbneg, hb0⟩ := decode_number he hyw (hy ▸ hinf)
      rw [fdivOp_fins mode r ha hb, if_pos (hb0.mpr hy), if_neg (mt ha0.mp h0.ne'), haneg, hbneg, hquo]
    · exact hinfs hx (hy ▸ hinf)
  case overInf =>
    obtain ⟨a, ha, haneg, -⟩ := decode_number he hxw hx
    rw [fdivOp_fin_inf mode r ha (decode_inf he hyw hy), haneg, Bool.xor_comm, hquo]
  case zero =>
    obtain ⟨a, ha, haneg, ha0⟩ := decode_number he hxw (hx ▸ hinf)
    obtain ⟨b, hb, hbneg, hb0⟩ := decode_number he hyw hy
    rw [fdivOp_fins mode r ha hb, if_neg (mt hb0.mp h0.ne'), if_pos (ha0.mpr hx), haneg, hbneg, hquo]

end

/-! ### Exact values, rounded once (R66, R107) -/

section
variable {f : FFmt} (mode : RMode) (r : ℕ) {x y : ℕ} (hw : x < 2 ^ f.width)

include hw in
theorem roundsTo_rcp {a : Dy} (h : f.decode x = .fin a) (ha : a.mag ≠ 0) : roundsTo f mode r (1 / real a) (specFn .rcp f mode r x) := by
  have hone : real ⟨false, 1, 0, false⟩ = 1 := by simp [real_def, sgnOf]
  exact ⟨_, hone ▸ standsFor_div (a := ⟨false, 1, 0, false⟩) one_ne_zero ha, (specFn_number mode r hw h ha).1⟩

include hw in
theorem roundsTo_roots {a : Dy} (h : f.decode x = .fin a) (ha : a.mag ≠ 0) (hneg : a.neg = false) :
    roundsTo f mode r (Real.sqrt (real a)) (specFn .sqrt f mode r x) ∧ roundsTo f .rne 0 (1 / Real.sqrt (real a)) (specFn .rsq f mode r x) := by
  obtain ⟨hsqrt, hrsq, -⟩ := specFn_positive mode r hw h ha hneg
  exact ⟨⟨_, standsFor_sqrt ha hneg, hsqrt⟩, _, standsFor_invSqrt ha hneg, hrsq⟩

theorem roundsTo_fdiv {a b : Dy} (h : f.decode x = .fin a) (ha : a.mag ≠ 0) (hy : f.decode y = .fin b) (hb : b.mag ≠ 0) :
    roundsTo f mode r (real a / real b) (fdivOp f mode r x y) :=
  ⟨_, standsFor_div ha hb, by rw [fdivOp_fins mode r h hy, if_neg hb, if_neg ha]⟩

end

/-! ### The words -/

/-- Settles O11: the special operands by the class of the operand, the exact values by what the quotient and the roots keep of them. -/
theorem specialFunctions : Obligations.SpecialFunctions := by
  refine ⟨fun f s inf one' half' w hf mode r x y hx hy => ?values, fun d a b half => ?words⟩
  case words =>
    exact ⟨gives_of_result (fun _ => rfl) rfl fun _ _ _ => rfl, gives_of_result (fun _ => rfl) rfl fun _ _ _ => rfl,
      gives_of_result (fun _ => rfl) rfl fun _ _ _ => rfl, gives_of_result (fun _ => rfl) rfl fun _ _ _ => rfl,
      gives_of_result (fun _ => rfl) rfl fun _ _ _ => rfl, gives_of_result (fun _ => rfl) rfl fun _ _ _ => rfl,
      gives_of_result (fun _ => rfl) rfl fun _ _ _ => rfl, gives_of_result (fun _ => rfl) rfl fun _ _ _ => rfl,
      gives_of_result (fun _ => rfl) rfl fun _ _ _ => rfl, gives_of_result (fun _ => rfl) rfl fun _ _ _ => rfl⟩
  case values =>
    obtain ⟨rfl, rfl, rfl, rfl, rfl, he, hlow, hhigh⟩ : s = f.signBit ∧ inf = f.infCode ∧ one' = oneCode f ∧
        half' = f.round (.fin ⟨false, 1, -1, false⟩) .rne 0 ∧ w = f.width ∧ 2 ≤ f.ebits ∧ -(2 ^ 13) + 2 ≤ f.qmin ∧
        f.qmin + f.mbits + (2 ^ f.ebits : ℕ) ≤ 2 ^ 13 := by
      simp only [Prod.mk.injEq] at hf
      rcases hf with ⟨rfl, rfl, rfl, rfl, rfl, rfl⟩ | ⟨rfl, rfl, rfl, rfl, rfl, rfl⟩ <;> decide
    refine ⟨fun h => specFn_nan mode r hx (decode_nan he h), specFn_of_zero mode r hx he, specFn_of_inf mode r hx he, specFn_of_posInf mode r hx he,
      specFn_of_negInf mode r hx he, specFn_of_negative mode r hx he, fdivOp_special mode r he hx hy, fun a ha hmag => ?exact⟩
    case exact =>
      refine ⟨roundsTo_rcp mode r hx ha hmag, roundsTo_roots mode r hx ha hmag, fun b hb hbmag => roundsTo_fdiv mode r ha hmag hb hbmag,
        fun n hn => ?_, fun n hn => ?_⟩
      · exact (specFn_number mode r hx ha hmag).2.trans (exp2Fin_of_int hlow hhigh hmag hn x)
      · have hneg : a.neg = false := by
          rw [← Bool.not_eq_true, ← real_neg_iff hmag, hn, not_lt]
          exact (two_zpow_pos n).le
        rw [real_of_pos hneg] at hn
        exact (specFn_positive mode r hx ha hmag hneg).2.2.trans (log2Fin_of_zpow hmag hn x)

end Sys2Proof.FloatingPointAndPacked
end

section
/-! PROOFS. Floating point and packed words: the conversions (R75, R110, R112 to R114): what widens exactly, what a scaling past every
exponent gives, and the words. -/
open Sys2Proof Sys2Proof.Machine Sys2Proof.Safety Sys2Proof.Rules Sys2Proof.ExactValues Sys2Proof.FormatCodes

namespace Sys2Proof.FloatingPointAndPacked

/-! ### Exact widening (R110, R114) -/

/-- A format with more fraction bits, a unit as small and a range as large holds every value of the other. -/
theorem holds_widen {mb mb' K K' : ℕ} {q q' : ℤ} (hmb : mb ≤ mb') (hq : q' ≤ q) (htop : mb + q + K ≤ mb' + q' + K')
    {v : ℝ} (h : Holds mb q K v) : Holds mb' q' K' v := by
  obtain ⟨k, hk, hgrid, hlt⟩ := h
  refine ⟨(mb + q + k - mb' - q').toNat, by omega, hgrid.mono (by omega), hlt.trans_le (zpow_le_zpow_right₀ one_le_two (by omega))⟩

theorem round_widened {f : FFmt} (he : 2 ≤ f.ebits) (hmb : f.mbits ≤ 23) (hq : f32.qmin ≤ f.qmin)
    (htop : f.mbits + f.qmin + topUnit f ≤ f32.mbits + f32.qmin + topUnit f32) {x : ℕ} {u : Dy} (hu : f.decode x = .fin u)
    (mode : RMode) (r : ℕ) :
    ∃ w, f32.decode (f32.round (.fin u) mode r) = .fin w ∧ w.neg = u.neg ∧ real w = real u :=
  decode_round_of_holds (by decide) (decode_fin_bounds he hu).1 (holds_widen hmb hq htop (holds_of_decode he hu)) mode r

theorem round_widened_half {f : FFmt} (hf : f = f16 ∨ f = bf16) {x : ℕ} {u : Dy} (hu : f.decode x = .fin u) (mode : RMode) (r : ℕ) :
    ∃ w, f32.decode (f32.round (.fin u) mode r) = .fin w ∧ w.neg = u.neg ∧ real w = real u := by
  rcases hf with rfl | rfl
  · exact round_widened (by decide) (by decide) (by decide) (by decide) hu mode r
  · exact round_widened (by decide) (by decide) (by decide) (by decide) hu mode r

/-! ### Pairs of elements (R110) -/

theorem cvtF_pair {s t : FFmt} (hs : 1 ≤ s.width) (r : Rnd) (x : ℕ) :
    cvtF s t r 0 (bits x (s.width - 1) 0) + cvtF s t r 1 (bits x (2 * s.width - 1) s.width) <<< t.width =
      t.round (s.decode (x % 2 ^ s.width)) r.mode (r.bits 0) +
        t.round (s.decode (x / 2 ^ s.width % 2 ^ s.width)) r.mode (r.bits 1) * 2 ^ t.width := by
  have hlow : s.width - 1 + 1 - 0 = s.width := by omega
  have hhigh : 2 * s.width - 1 + 1 - s.width = s.width := by omega
  simp only [cvtF, trunc, bits_eq, hlow, hhigh, pow_zero, Nat.div_one, Nat.mod_mod, Nat.shiftLeft_eq]

/-! ### Scaling by a power of two (R113) -/

section
variable {f : FFmt} {d : Dy} (mode : RMode) (r : ℕ)

/-- The code that a nonzero value far below the smallest unit rounds to. -/
def tinyCode (neg : Bool) : RMode → ℕ
  | .rdn => bit01 neg
  | .rup => bit01 !neg
  | .rne | .rtz | .sr => 0

theorem roundCode_tiny (hexact : d.sticky = false) (hmag : d.mag ≠ 0) {k : ℕ} (hq : f.qmin = d.exp + k) (hsmall : d.mag * 2 ^ 33 < 2 ^ k) :
    roundCode f.mbits f.qmin d mode r = tinyCode d.neg mode := by
  have hk : 0 < k := by
    rcases Nat.eq_zero_or_pos k with rfl | h
    · omega
    · exact h
  have hlog : Nat.log2 d.mag < k := (Nat.log2_lt hmag).mpr (by omega)
  have hunit : unitAt f.mbits f.qmin d = f.qmin := by unfold unitAt Dy.log2; omega
  have hdiv : d.mag / 2 ^ k = 0 := Nat.div_eq_of_lt (by omega)
  have hmod : d.mag % 2 ^ k = d.mag := Nat.mod_eq_of_lt (by omega)
  have hsr : d.mag * 2 ^ 32 / 2 ^ k = 0 :=
    Nat.div_eq_of_lt ((Nat.mul_le_mul_left _ (Nat.pow_le_pow_right two_pos (by norm_num))).trans_lt hsmall)
  have hlt : ¬ 2 ^ k < 2 * d.mag := by omega
  have hne : ¬ 2 * d.mag = 2 ^ k := by omega
  have hnonzero : (d.mag != 0) = true := bne_iff_ne.mpr hmag
  rw [roundCode_eq hmag, hunit, sub_self, Int.toNat_zero, Nat.zero_mul, Nat.zero_add, hq, NumberFormats.roundAt_above d hk, hdiv, Nat.zero_add]
  cases mode <;> simp only [NumberFormats.awayFromZero, tinyCode, hmod, hsr, hexact, Bool.or_false]
  case rne => simp [hlt, hne, bit01]
  case rtz => rfl
  case rdn => rw [hnonzero, Bool.and_true]
  case rup => rw [hnonzero, Bool.and_true]
  case sr => simp [bit01]

/-- Past every exponent of the format, up or down, one scaling rounds as another. -/
theorem round_scale_sat (he : 2 ≤ f.ebits) (hup : f.mbits + 2 ^ f.ebits ≤ 2000) (hdown : topUnit f + f.mbits + 34 ≤ 2000) {x : ℕ}
    (hd : f.decode x = .fin d) (hmag : d.mag ≠ 0) (n : ℤ) :
    f.round (.fin (d.scale (satI n (-2000) 2000))) mode r = f.round (.fin (d.scale n)) mode r := by
  obtain ⟨hexact, hlt, k, hk, hexp⟩ := decode_fin_bounds he hd
  have hlarge (m : ℤ) (hm : 2000 ≤ m) : f.round (.fin (d.scale m)) mode r = bit01 d.neg * f.signBit + overflowCode f d.neg mode := by
    rw [round_fin, if_neg (not_lt.mpr (infCode_le_roundCode (d := d.scale m) hmag ?_ mode r))]
    · rfl
    · show _ ≤ (Nat.log2 d.mag : ℤ) + (d.exp + m)
      omega
  have htiny (m : ℤ) (hm : m ≤ -2000) : roundCode f.mbits f.qmin (d.scale m) mode r = tinyCode d.neg mode := by
    obtain ⟨j, hj, hq⟩ : ∃ j : ℕ, f.mbits + 34 ≤ j ∧ f.qmin = d.exp + m + j := ⟨(f.qmin - d.exp - m).toNat, by omega, by omega⟩
    refine roundCode_tiny (d := d.scale m) mode r hexact hmag hq ?_
    calc d.mag * 2 ^ 33 < 2 ^ (f.mbits + 1) * 2 ^ 33 := Nat.mul_lt_mul_of_pos_right hlt (Nat.two_pow_pos _)
      _ = 2 ^ (f.mbits + 34) := by rw [← pow_add]
      _ ≤ 2 ^ j := Nat.pow_le_pow_right two_pos hj
  unfold satI
  split
  case isTrue hn => rw [round_fin, round_fin, htiny _ le_rfl, htiny n hn.le]; rfl
  case isFalse =>
    split
    case isTrue hn => rw [hlarge _ le_rfl, hlarge n hn.le]
    case isFalse => rfl

end

section
variable {t : FTy} {x : ℕ} (r : Rnd)

theorem fpLdexp_nan (h : t.fmt.decode (x % 2 ^ t.fmt.width) = .nan) : fpLdexp t r x = t.fmt.canonNan ∧ fpExpo t x = 0x7FFFFFFF := by
  simp only [fpLdexp, fpExpo, trunc, h, and_self]

theorem fpLdexp_inf {s : Bool} (h : t.fmt.decode (x % 2 ^ t.fmt.width) = .inf s) :
    fpLdexp t r x = x % 2 ^ t.fmt.width ∧ fpExpo t x = 0x7FFFFFFF := by
  simp only [fpLdexp, fpExpo, trunc, h, and_self]

theorem fpLdexp_zero {u : Dy} (h : t.fmt.decode (x % 2 ^ t.fmt.width) = .fin u) (hu : u.mag = 0) :
    fpLdexp t r x = x % 2 ^ t.fmt.width ∧ fpExpo t x = 0x80000000 := by
  simp only [fpLdexp, fpExpo, trunc, h, hu, if_true, and_self]

theorem fpLdexp_number {u : Dy} (h : t.fmt.decode (x % 2 ^ t.fmt.width) = .fin u) (hu : u.mag ≠ 0) :
    fpLdexp t r x = t.fmt.round (.fin (u.scale (sgn 32 (x / 2 ^ 32 % 2 ^ 32)))) r.mode (r.bits 0) ∧
      ∃ k : ℤ, (2 : ℝ) ^ k ≤ |real u| ∧ |real u| < (2 : ℝ) ^ (k + 1) ∧ fpExpo t x = wrap 32 k := by
  have hrange : t.fmt.mbits + 2 ^ t.fmt.ebits ≤ 2000 ∧ topUnit t.fmt + t.fmt.mbits + 34 ≤ 2000 := by cases t <;> decide
  have hcount : bits x 63 32 = x / 2 ^ 32 % 2 ^ 32 := bits_eq x 63 32
  refine ⟨?_, u.log2, le_abs_real hu, abs_real_lt u, ?_⟩
  · simp only [fpLdexp, trunc, h, hu, if_false, hcount]
    exact round_scale_sat _ _ (lane_ebits t) hrange.1 hrange.2 h hu _
  · simp only [fpExpo, trunc, h, hu, if_false]
    rfl

end

/-! ### Element formats (R56, R112, R114) -/

/-- The element formats with an exponent. -/
def floating (f : EFmt) : Prop := f ≠ .i8

theorem dec_eq {f : EFmt} (hf : floating f) (code : ℕ) :
    ∃ neg c, c < 2 ^ (f.bits - 1) ∧ dec f code = ⟨neg && magOf f.mant c != 0, magOf f.mant c, expOf f.mant f.qmin c, false⟩ := by
  refine ⟨bitAt (code % 2 ^ f.bits) (f.bits - 1), code % 2 ^ f.bits % 2 ^ (f.bits - 1), Nat.mod_lt _ (Nat.two_pow_pos _), ?_⟩
  have hpos := Nat.two_pow_pos f.mant
  cases f
  case i8 => exact absurd rfl hf
  all_goals
    simp only [dec, magOf, expOf, Nat.shiftRight_eq_div_pow]
    split
    case isTrue h => simp [h]
    case isFalse h => simp

/-- The significand, the smallest unit and the largest exponent of the format lie within FP32's. -/
theorem floating_within_f32 {f : EFmt} (hf : floating f) : f.mant ≤ f32.mbits ∧ f32.qmin ≤ f.qmin ∧
    (f.mant : ℤ) + f.qmin + (2 ^ (f.bits - 1) / 2 ^ f.mant : ℕ) ≤ f32.mbits + f32.qmin + topUnit f32 := by
  cases f
  case i8 => exact absurd rfl hf
  all_goals decide

/-- A decoded element is exact, is not −0, and FP32 holds it. -/
theorem dec_bounds {f : EFmt} (hf : floating f) (code : ℕ) : (dec f code).sticky = false ∧ ((dec f code).mag = 0 → (dec f code).neg = false) ∧
    Holds f32.mbits f32.qmin (topUnit f32) (real (dec f code)) := by
  obtain ⟨neg, c, hc, heq⟩ := dec_eq hf code
  obtain ⟨hmant, hqmin, htop⟩ := floating_within_f32 hf
  rw [heq]
  refine ⟨rfl, fun hzero => ?_, holds_widen hmant hqmin htop ?_⟩
  · have hmag : magOf f.mant c = 0 := hzero
    simp [hmag]
  · have hmag : (magOf f.mant c : ℝ) < 2 ^ ((f.mant : ℤ) + 1) := by exact_mod_cast magOf_lt f.mant c
    refine ⟨c / 2 ^ f.mant - 1, ?_, onGrid_real _, ?_⟩
    · exact (Nat.sub_le _ _).trans (Nat.div_le_div_right hc.le)
    · rw [abs_real, two_zpow_add]
      exact mul_lt_mul_of_pos_right hmag (two_zpow_pos _)

theorem cvtSrndE_nan {x : ℕ} (h : f32.decode (x % 2 ^ 32) = .nan) (f : EFmt) (r : Rnd) : cvtSrndE f r x = ⟨f32.canonNan, {}⟩ := by
  simp only [cvtSrndE, trunc, h]; rfl

theorem cvtSrndE_number {x : ℕ} (h : f32.decode (x % 2 ^ 32) ≠ .nan) (f : EFmt) (r : Rnd) :
    cvtSrndE f r x = ⟨f32.round (.fin (dec f (enc f (f32.decode (x % 2 ^ 32)) r.mode (r.bits 0)).1)) .rne 0,
      { clamp := (enc f (f32.decode (x % 2 ^ 32)) r.mode (r.bits 0)).2 }⟩ := by
  rcases hv : f32.decode (x % 2 ^ 32) with _ | s | d
  · exact absurd hv h
  · simp only [cvtSrndE, trunc, hv]
  · simp only [cvtSrndE, trunc, hv]

theorem srnd_element {f : EFmt} (hf : floating f) {x : ℕ} (h : f32.decode (x % 2 ^ 32) ≠ .nan) (r : Rnd) :
    (cvtSrndE f r x).fl = { clamp := (enc f (f32.decode (x % 2 ^ 32)) r.mode (r.bits 0)).2 } ∧
      ∃ w, f32.decode (cvtSrndE f r x).v = .fin w ∧ real w = real (dec f (enc f (f32.decode (x % 2 ^ 32)) r.mode (r.bits 0)).1) ∧
        (real w = 0 → w.neg = false) := by
  rw [cvtSrndE_number h]
  obtain ⟨hexact, hzero, hholds⟩ := dec_bounds hf (enc f (f32.decode (x % 2 ^ 32)) r.mode (r.bits 0)).1
  obtain ⟨w, hw, hneg, hval⟩ := decode_round_of_holds (f := f32) (by decide) hexact hholds .rne 0
  exact ⟨rfl, w, hw, hval, fun h0 => hneg.trans (hzero ((real_eq_zero_iff _).mp (hval ▸ h0)))⟩

/-- `srnd` to a narrower lane format gives that format's value (R114). -/
theorem srnd_half {f : FFmt} (hf : f = f16 ∨ f = bf16) (r : Rnd) (x : ℕ) :
    let c := f.round (f32.decode (x % 2 ^ 32)) r.mode (r.bits 0)
    let z := (cvtSrndF f r x).v
    (cvtSrndF f r x).fl = {} ∧ (f.decode c = .nan → z = f32.canonNan) ∧ (∀ k, f.decode c = .inf k → f32.decode z = .inf k) ∧
      ∀ u, f.decode c = .fin u → ∃ w, f32.decode z = .fin w ∧ w.neg = u.neg ∧ real w = real u := by
  intro c z
  have hz : z = f32.round (f.decode c) .rne 0 := rfl
  refine ⟨rfl, fun h => ?_, fun k h => ?_, fun u h => ?_⟩
  · rw [hz, h]; rfl
  · rw [hz, h]; exact decode_infinity (f := f32) (by decide) k
  · rw [hz, h]; exact round_widened_half hf h .rne 0

/-! ### Codes under a scale (R112) -/

theorem cvtDqnt_eq (f : EFmt) (t : FFmt) (c : ℕ) (r : Rnd) (x : ℕ) : (cvtDqnt f t c r x).fl = {} ∧ (cvtDqnt f t c r x).v =
    if c = 0xFF then t.canonNan else t.round (.fin ((dec f (x % 2 ^ f.bits)).scale ((c : ℤ) - 127))) r.mode (r.bits 0) := by
  refine ⟨rfl, ?_⟩
  show t.round (scaled (dec f (x % 2 ^ f.bits)) c) r.mode (r.bits 0) = _
  unfold scaled
  split <;> rfl

/-- The source of `qnt` by its type pair. -/
theorem cvtQnt_eq (wide : Prop) [Decidable wide] (f : EFmt) (c : ℕ) (r : Rnd) (x : ℕ) :
    cvtQnt (if wide then f32 else bf16) f c r x = if c = 0xFF then ⟨0, {}⟩ else
      ⟨(enc f (((if wide then f32 else bf16).decode (x % 2 ^ (if wide then 32 else 16))).scale (127 - c)) r.mode (r.bits 0)).1,
        { clamp := (enc f (((if wide then f32 else bf16).decode (x % 2 ^ (if wide then 32 else 16))).scale (127 - c)) r.mode (r.bits 0)).2 }⟩ := by
  by_cases h : wide <;> simp only [h, if_true, if_false] <;> rfl

/-! ### The words -/

/-- Settles O12: the words by their results, then each type pair by its row of R75. -/
theorem conversions : Obligations.Conversions := by
  intro d a p m
  refine ⟨gives_of_result (fun _ => rfl) rfl fun _ _ _ => rfl, gives_of_result (fun _ => rfl) rfl fun _ _ _ => rfl,
    gives_of_result (fun _ => rfl) rfl fun _ _ _ => rfl, ?qnt, gives_each_shadow (fun _ => rfl) rfl fun _ _ _ => rfl,
    gives_of_result (fun _ => rfl) rfl fun _ _ _ => rfl, gives_of_result (fun _ => rfl) rfl fun _ _ _ => rfl,
    gives_of_result (fun _ => rfl) rfl fun _ _ _ => rfl, fun r x =>
      ⟨?scalar, ?widening, ?pairs, ?integers, fun f t c => cvtDqnt_eq f t c r x, ?ldexp, ?half, ?element⟩⟩
  case qnt =>
    refine gives_each_shadow (fun _ => rfl) rfl fun z l v => congrArg (fun x => LaneOut.resSh d 32 x (z.srcShadow l a)) ?_
    exact cvtQnt_eq (p.toNat < 0x28) _ _ _ _
  case scalar =>
    intro y hy
    simp only [List.mem_cons, List.not_mem_nil, or_false] at hy
    rcases hy with rfl | rfl | rfl | rfl | rfl | rfl <;> rfl
  case widening =>
    intro y hy u hu
    simp only [List.mem_cons, List.not_mem_nil, or_false] at hy
    rcases hy with rfl | rfl
    · have hpair : cvtFPair 0 r x = f32.round (.fin u) r.mode (r.bits 0) := congrArg (fun v => f32.round v r.mode (r.bits 0)) hu
      exact hpair ▸ round_widened_half (.inl rfl) hu r.mode (r.bits 0)
    · have hpair : cvtFPair 1 r x = f32.round (.fin u) r.mode (r.bits 0) := congrArg (fun v => f32.round v r.mode (r.bits 0)) hu
      exact hpair ▸ round_widened_half (.inr rfl) hu r.mode (r.bits 0)
  case pairs =>
    intro y hy
    simp only [List.mem_cons, List.not_mem_nil, or_false] at hy
    rcases hy with rfl | rfl | rfl | rfl
    · exact cvtF_pair (s := f32) (t := f16) (by decide) r x
    · exact cvtF_pair (s := f32) (t := bf16) (by decide) r x
    · exact cvtF_pair (s := f16) (t := f32) (by decide) r x
    · exact cvtF_pair (s := bf16) (t := f32) (by decide) r x
  case integers =>
    intro y hy
    simp only [List.mem_cons, List.not_mem_nil, or_false] at hy
    rcases hy with rfl | rfl | rfl | rfl | rfl | rfl | rfl | rfl <;> rfl
  case ldexp =>
    intro t _ w n
    split
    case _ h => exact fpLdexp_nan r h
    case _ h => exact fpLdexp_inf r h
    case _ u h => exact ⟨fpLdexp_zero r h, fpLdexp_number r h⟩
  case half =>
    intro y hy
    simp only [List.mem_cons, List.not_mem_nil, or_false] at hy
    rcases hy with rfl | rfl
    · exact srnd_half (.inr rfl) r x
    · exact srnd_half (.inl rfl) r x
  case element =>
    intro y hy v
    obtain ⟨hf, hpair⟩ : floating y.2 ∧ srndPair y.1 r x = cvtSrndE y.2 r x := by
      simp only [List.mem_cons, List.not_mem_nil, or_false] at hy
      rcases hy with rfl | rfl | rfl | rfl | rfl <;> exact ⟨by simp [floating], rfl⟩
    rw [hpair]
    exact ⟨fun h => cvtSrndE_nan h _ _, fun h => srnd_element hf h r⟩

end Sys2Proof.FloatingPointAndPacked
end

section
/-! PROOFS. Lane memory: bytes and slots at a home unit, the values of atomics, and the accesses of loads, stores and atomics that
pass their checks or are astray. -/
-- One declaration at a time: each thread that elaborates reserves a stack of 256 MiB of the check's memory.
set_option Elab.async false
open Sys2Proof Sys2Proof.Machine Sys2Proof.Safety Sys2Proof.Rules

namespace Sys2Proof.LaneMemory

/-! ### Bytes and slots at a home unit (R59, R124, R217, R218) -/

theorem slot_setSector (m : Mem) (a b j : Nat) (x : Sector) :
    (m.setSector a x).slot b j = if a / 32 = b / 32 then (if j = 0 then x.s0 else x.s1) else m.slot b j := by
  unfold Mem.slot
  rw [Mem.sector_setSector]
  by_cases h : a / 32 = b / 32
  · rw [if_pos h, if_pos h]
  · rw [if_neg h, if_neg h]

/-- Replacing a sector's key or poison leaves every slot. -/
theorem slot_setSector_keep (m : Mem) (k b j : Nat) {x : Sector} (h0 : x.s0 = (Tbl.get m.sectors k {}).s0)
    (h1 : x.s1 = (Tbl.get m.sectors k {}).s1) : (m.setSector (32 * k) x).slot b j = m.slot b j := by
  rw [slot_setSector, Nat.mul_div_cancel_left k (by decide : 0 < 32)]
  split
  · rename_i hk
    rw [h0, h1, hk]; rfl
  · rfl

theorem slot_write (m : Mem) (a : Nat) (bs : List Byte) (b j : Nat) : (m.write a bs).slot b j = m.slot b j := by
  simp only [Mem.slot, Mem.sector_write]

theorem slot_rekey (m : Mem) (key k b j : Nat) : (m.rekey key k).slot b j = m.slot b j := by
  unfold Mem.rekey
  dsimp only
  split
  · rfl
  · rw [slot_setSector_keep _ _ _ _ (by rw [Mem.write_sectors]) (by rw [Mem.write_sectors]), slot_write]

theorem slot_mark (m : Mem) (a n : Nat) (p : Bool) (k b j : Nat) : (m.mark a n p k).slot b j = m.slot b j :=
  slot_setSector_keep _ _ _ _ rfl rfl

/-- What each step of a fold over memories keeps, the fold keeps. -/
theorem foldl_mem_keeps {β : Type} {ks : List Nat} {f : Mem → Nat → Mem} (p : Mem → β) (h : ∀ m, ∀ k ∈ ks, p (f m k) = p m) (m : Mem) :
    p (ks.foldl f m) = p m := by
  induction ks generalizing m with
  | nil => rfl
  | cons k ks ih => rw [List.foldl_cons, ih fun m j hj => h m j (List.mem_cons_of_mem _ hj), h m k (List.mem_cons_self ..)]

theorem slot_writeKey (m : Mem) (key a : Nat) (bs : List Byte) (p : Bool) (b j : Nat) : (m.writeKey key a bs p).slot b j = m.slot b j :=
  (foldl_mem_keeps (·.slot b j) (fun m k _ => slot_mark m a bs.length p k b j) _).trans
    ((slot_write ..).trans (foldl_mem_keeps (·.slot b j) (fun m k _ => slot_rekey m key k b j) m))

theorem sector_rekey_ne (m : Mem) (key : Nat) {k b : Nat} (h : k ≠ b / 32) : (m.rekey key k).sector b = m.sector b := by
  unfold Mem.rekey
  dsimp only
  split
  · rfl
  · rw [Mem.sector_setSector, Nat.mul_div_cancel_left k (by decide : 0 < 32), if_neg h, Mem.sector_write]

theorem sector_mark_ne (m : Mem) (a n : Nat) (p : Bool) {k b : Nat} (h : k ≠ b / 32) : (m.mark a n p k).sector b = m.sector b := by
  unfold Mem.mark
  dsimp only
  rw [Mem.sector_setSector, Nat.mul_div_cancel_left k (by decide : 0 < 32), if_neg h]

/-- A write leaves what the sectors it does not reach carry. -/
theorem sector_writeKey (m : Mem) (key a : Nat) (bs : List Byte) (p : Bool) {b : Nat} (h : b / 32 ∉ sectorsOf a bs.length) :
    (m.writeKey key a bs p).sector b = m.sector b := by
  have hne : ∀ k ∈ sectorsOf a bs.length, k ≠ b / 32 := fun k hk e => h (e ▸ hk)
  exact (foldl_mem_keeps (·.sector b) (fun m k hk => sector_mark_ne m a bs.length p (hne k hk)) _).trans
    ((Mem.sector_write ..).trans (foldl_mem_keeps (·.sector b) (fun m k hk => sector_rekey_ne m key (hne k hk)) m))

theorem mem_dirtyLine (s : State) (pa : Nat) : (s.dirtyLine pa).mem = s.mem := by
  unfold State.dirtyLine; split <;> rfl

theorem mem_devWrite (s : State) (who : Option (Nat × Nat)) (key a : Nat) (bs : List Byte) (p : Bool) :
    (s.devWrite who key a bs p).mem = s.mem.writeKey key a bs p :=
  InstructionEncoding.foldl_keeps State.mem (fun s k => mem_dirtyLine s (32 * k)) _ _

theorem mem_devSetSlot (s : State) (b j : Nat) (v : Byte) : (s.devSetSlot b j v).mem = s.mem.setSlot b j v := mem_dirtyLine ..

theorem slot_setSlot (m : Mem) (b j c i : Nat) (v : Byte) :
    (m.setSlot b j v).slot c i = if c / 32 = b / 32 ∧ (i = 0 ↔ j = 0) then v else m.slot c i := by
  rw [Mem.setSlot, slot_setSector]
  by_cases hc : b / 32 = c / 32
  · have hsec : m.sector b = m.sector c := by simp only [Mem.sector, hc]
    by_cases hi : i = 0 <;> by_cases hj : j = 0 <;> simp [hc, hi, hj, hsec, Mem.slot]
  · have hc' : ¬ c / 32 = b / 32 := fun e => hc e.symm
    rw [if_neg hc, if_neg fun h => hc' h.1]

/-- Settles O49, by the rules of reads after `writeKey` and `setSlot`. -/
theorem memoryBytes : Obligations.MemoryBytes := by
  intro s who key a bs p hwf t
  have ht : t.mem = s.mem.writeKey key a bs p := mem_devWrite ..
  refine ⟨fun k hk => ?written, fun b hb => ?others, fun b j => ?slots, fun k hk => ?sectors, fun b j v => ?slot⟩
  case written => rw [ht, Mem.getKey_writeKey hwf, if_pos (by omega), Nat.add_sub_cancel_left]
  case others => rw [ht, Mem.getKey_writeKey hwf, if_neg (by omega)]
  case slots => rw [State.devSlot, ht, slot_writeKey]; rfl
  case sectors => rw [ht, sector_writeKey _ _ _ _ _ (by rwa [Nat.mul_div_cancel_left k (by decide : 0 < 32)])]
  case slot =>
    have hu (c i : Nat) : (s.devSetSlot b j v).devSlot c i = if c / 32 = b / 32 ∧ (i = 0 ↔ j = 0) then v else s.mem.slot c i := by
      rw [State.devSlot, mem_devSetSlot, slot_setSlot]
    refine ⟨fun c => by rw [mem_devSetSlot]; rfl, ?_, fun c i h => ?_⟩
    · rw [hu, if_pos ⟨rfl, Iff.rfl⟩]
    · rw [hu, if_neg]; · rfl
      rintro ⟨hc, hi⟩
      rcases h with h | h
      · exact h hc
      · exact iff_not_self (hi.symm.trans h)

/-! ### What an atomic stores (R135, R136) -/

/-- A low half and a high half, taken apart. -/
theorem halves_mod {x m : Nat} (h : x < m) (y : Nat) : (x + y * m) % m = x := by rw [Nat.add_mul_mod_self_right, Nat.mod_eq_of_lt h]
theorem halves_div {x m : Nat} (h : x < m) (y : Nat) : (x + y * m) / m = y := by
  rw [Nat.add_mul_div_right _ _ (by omega), Nat.div_eq_of_lt h, Nat.zero_add]

theorem casNew_halves {w b : Nat} (o n : Nat) (hb : b < 2 ^ w) : casNew w o (b + n * 2 ^ w) = if o = b then some n else none := by
  rw [casNew, halves_mod hb, halves_div hb]

theorem cas2New_halves {o b : Nat} (ver n : Nat) (ho : o < 2 ^ 64) (hb : b < 2 ^ 64) :
    cas2New (o + ver * 2 ^ 64) (b + n * 2 ^ 64) = if o = b then some (n + (ver + 1) % 2 ^ 64 * 2 ^ 64) else none := by
  rw [cas2New, halves_mod ho, halves_div ho, halves_mod hb, halves_div hb]

theorem atomInt_minU (w o b : Nat) : atomInt w .minU o b = min o b := by
  show (if (o : Int) ≤ b then o else b) = min o b
  simp only [Int.ofNat_le, Nat.min_def]
theorem atomInt_maxU (w o b : Nat) : atomInt w .maxU o b = max o b := by
  show (if (o : Int) ≤ b then b else o) = max o b
  simp only [Int.ofNat_le, Nat.max_def]

/-- Settles O33, by the operations' rows and the halves of a compare-and-swap's operand. -/
theorem atomicValues : Obligations.AtomicValues := by
  refine ⟨fun o b => ⟨rfl, rfl, rfl, rfl, rfl, rfl, rfl, rfl⟩, fun w o b _ ho hb => ⟨rfl, rfl, rfl, rfl, rfl,
    ⟨atomInt_minU w o b, atomInt_maxU w o b⟩, rfl, rfl, fun n _ => casNew_halves o n hb, fun ver n _ _ hw => ?_⟩⟩
  subst hw
  exact cas2New_halves ver n ho hb

/-! ### Checks of an address (R121 to R123) -/

theorem checkGlobal_ok {s : State} {core grp ea align pa key apt dev leaf entry : Nat} {n : Need} {big : Bool} (ha : ea % align = 0)
    (hx : s.xlat (some core) (s.ctxOf core grp) n ea = .ok pa key apt dev leaf big entry) :
    s.checkGlobal core grp n ea align = .ok (.dev pa key (BitVec.ofNat 64 ea) apt) := by
  unfold State.checkGlobal
  rw [if_neg (not_not_intro ha), hx]

theorem checkGlobal_misaligned {s : State} {core grp ea align : Nat} {n : Need} (ha : ea % align ≠ 0) :
    s.checkGlobal core grp n ea align = .error (.trap .misaligned (BitVec.ofNat 64 ea)) := if_pos ha

/-- The form of R122, bit by bit. -/
theorem scrFormOk_false_iff (ea : Nat) : scrFormOk ea = false ↔
    ea / 2 ^ 19 % 32 ≠ 0 ∨ ea.testBit 29 = true ∨ ea.testBit 30 = true ∨ ea.testBit 31 = true := by
  have hfield : bits ea 23 19 = ea / 2 ^ 19 % 32 := FloatingPointAndPacked.bits_eq ea 23 19
  simp only [scrFormOk, bitAt, hfield, Bool.and_eq_false_iff, beq_eq_false_iff_ne, Bool.not_eq_false', or_assoc]

theorem checkScratch_misaligned {s : State} {core grp ea align n : Nat} {a : DWord} (h : stray true align ea a) :
    s.checkScratch core grp ea align n = .error (.trap .misaligned a) := by
  obtain ⟨rfl, h⟩ := h
  unfold State.checkScratch
  dsimp only
  split
  · rfl
  · rename_i hform
    rw [if_pos]
    rcases h with h | ⟨-, h⟩
    · exact h
    · rw [(scrFormOk_false_iff ea).mpr h] at hform
      exact absurd rfl hform

theorem checkGlobal_stray {s : State} {core grp ea align : Nat} {n : Need} {a : DWord} (h : stray false align ea a) :
    s.checkGlobal core grp n ea align = .error (.trap .misaligned a) := by
  obtain ⟨rfl, h | ⟨h, -⟩⟩ := h
  · exact checkGlobal_misaligned h
  · cases h

theorem planAccess_ok {s : State} {n : Need} {scr : Bool} {size base w off ea : Nat} {loc : Loc} (h : reaches s n scr size base w off ea loc) :
    s.planAccess s.cc s.cg n scr size base w off = .ok (loc, ea) := by
  unfold reaches at h
  unfold State.planAccess
  cases scr with
  | true =>
    obtain ⟨hea, hloc⟩ := h
    have haddr : eaScratch base w off size = ea := hea.symm
    have hcheck : s.checkScratch s.cc s.cg ea size size = .ok loc := hloc
    simp only [if_true, haddr, hcheck, Except.map]
  | false =>
    obtain ⟨hea, halign, pa, key, apt, dev, leaf, big, entry, hx, rfl⟩ := h
    have haddr : eaGlobal base w off size = ea := hea.symm
    have hcheck := checkGlobal_ok (core := s.cc) (grp := s.cg) halign hx
    simp only [Bool.false_eq_true, if_false, haddr, hcheck, Except.map]

theorem planAccess_misaligned {s : State} {n : Need} {scr : Bool} {size base : Nat} {off : BitVec 10} {a : DWord}
    (h : stray scr size (address scr size base off) a) : s.planAccess s.cc s.cg n scr size base 10 off.toNat = .error (.trap .misaligned a) := by
  unfold State.planAccess
  cases scr with
  | true =>
    have hcheck : s.checkScratch s.cc s.cg (eaScratch base 10 off.toNat size) size size = _ := checkScratch_misaligned h
    simp only [if_true, hcheck]; rfl
  | false =>
    have hcheck : s.checkGlobal s.cc s.cg n (eaGlobal base 10 off.toNat size) size = _ := checkGlobal_stray h
    simp only [Bool.false_eq_true, if_false, hcheck]; rfl

/-! ### What a load, a store and an atomic do in a lane -/

/-- One lane of `loadBody`. -/
def loadOut (scr : Bool) (size : Nat) (sign acq nc : Bool) (d : Dst) (off : BitVec 10) (z : State) (_ : Nat) (v : List Nat) : LaneOut :=
  outOf (z.planAccess z.cc z.cg .load scr size (arg v 0) 10 off.toNat) fun (loc, ea) =>
    .ok (z.touches z.cc z.cg false [loc] ++ (if acq then [.sync] else []) ++ [.load d size sign loc (BitVec.ofNat 64 ea) acq nc])
theorem loadBody_eq (scr : Bool) (size : Nat) (sign acq nc : Bool) (d : Dst) (off : BitVec 10) :
    loadBody scr size sign acq nc d off = bodyEach (loadOut scr size sign acq nc d off) := rfl

/-- One lane of `storeBody`. -/
def storeOut (scr : Bool) (size : Nat) (rel : Bool) (off : BitVec 10) (z : State) (l : Nat) (v : List Nat) : LaneOut :=
  outOf (z.planAccess z.cc z.cg .store scr size (arg v 0) 10 off.toNat) fun (loc, _) =>
    outOf (z.planWindow z.cc z.cg loc size) fun _ =>
      if rel && !z.releaseReady z.cc z.cg l then .stall .again
      else .ok (z.touches z.cc z.cg (!rel) [loc] ++ (if rel then [.sync] else []) ++ [.store loc (toBytesLE size (arg v 1)) rel])
theorem storeBody_eq (scr : Bool) (size : Nat) (rel : Bool) (off : BitVec 10) :
    storeBody scr size rel off = bodyEach (storeOut scr size rel off) := rfl

section
variable {z : State} {l : Nat} {v : List Nat} {es : List Eff} {a : DWord}

theorem loadOut_ok {scr : Bool} {size : Nat} {sign acq nc : Bool} {d : Dst} {off : BitVec 10} (h : loads scr size sign acq nc d off z l v es) :
    loadOut scr size sign acq nc d off z l v = .ok es := by
  obtain ⟨ea, loc, hreach, rfl⟩ := h
  unfold loadOut
  rw [planAccess_ok hreach]; rfl

theorem loadOut_stray {scr : Bool} {size : Nat} {sign acq nc : Bool} {d : Dst} {off : BitVec 10} (h : strays scr size off z l v a) :
    loadOut scr size sign acq nc d off z l v = .trap .misaligned a := by
  unfold loadOut
  rw [planAccess_misaligned h]; rfl

theorem storeOut_ok {scr : Bool} {size : Nat} {rel : Bool} {off : BitVec 10} (h : stores scr size rel off z l v es) :
    storeOut scr size rel off z l v = .ok es := by
  obtain ⟨ea, loc, hreach, hwindow, hrel, rfl⟩ := h
  have hready : ¬ (rel && !z.releaseReady z.cc z.cg l) = true := by
    cases rel with
    | true => rw [show z.releaseReady z.cc z.cg l = true from hrel rfl]; decide
    | false => exact Bool.false_ne_true
  have hwindow' : z.planWindow z.cc z.cg loc size = .ok () := hwindow
  unfold storeOut
  rw [planAccess_ok hreach]
  dsimp only [outOf]
  rw [hwindow']
  dsimp only
  rw [if_neg hready]; rfl

theorem storeOut_stray {scr : Bool} {size : Nat} {rel : Bool} {off : BitVec 10} (h : strays scr size off z l v a) :
    storeOut scr size rel off z l v = .trap .misaligned a := by
  unfold storeOut
  rw [planAccess_misaligned h]; rfl

/-- A lane whose return-form atomic is settled does not wait. -/
theorem not_waiting {d : Option Dst} (h : settled z l d) : ¬ (d.isSome && !z.releaseReady z.chain.core z.chain.grp l) = true := by
  cases hd : d.isSome with
  | true => rw [h hd]; decide
  | false => exact Bool.false_ne_true

theorem planAtom_ok {d : Option Dst} {op : AtomOp} (h : atomics d op z l v es) :
    z.planAtom z.cc z.cg l d op (arg v 0) (arg v 1) = .ok es := by
  obtain ⟨hsettled, pa, key, apt, dev, leaf, big, entry, hapt, halign, hx, rfl⟩ := h
  have hcheck := checkGlobal_ok (core := z.chain.core) (grp := z.chain.grp) halign hx
  show z.planAtom z.chain.core z.chain.grp l d op (arg v 0) (arg v 1) = _
  unfold State.planAtom
  dsimp only
  rw [if_neg (not_waiting hsettled), hcheck]
  dsimp only
  split
  · rename_i heq
    injection heq with _ _ _ h5
    exact absurd h5 hapt
  · rfl

theorem planAtom_peer {op : AtomOp} (h : peerAtomics op z l v es) : z.planAtom z.cc z.cg l none op (arg v 0) (arg v 1) = .ok es := by
  obtain ⟨halign, htag, pa, key, dev, leaf, big, entry, hx, rfl⟩ := h
  have hcheck := checkGlobal_ok (core := z.chain.core) (grp := z.chain.grp) halign hx
  have hx' : z.xlat (some z.chain.core) (z.ctxOf z.chain.core z.chain.grp) .red (arg v 0) = _ := hx
  show z.planAtom z.chain.core z.chain.grp l none op (arg v 0) (arg v 1) = _
  unfold State.planAtom
  simp only [Option.isSome_none, Bool.false_and, Bool.false_eq_true, if_false, hcheck, hx', htag]

theorem planAtom_stray {d : Option Dst} {op : AtomOp} (h : strayAtomic false d op.size z l v a) :
    z.planAtom z.cc z.cg l d op (arg v 0) (arg v 1) = .trap .misaligned a := by
  obtain ⟨hsettled, hstray : stray false op.size (arg v 0) a⟩ := h
  show z.planAtom z.chain.core z.chain.grp l d op (arg v 0) (arg v 1) = _
  unfold State.planAtom
  dsimp only
  rw [if_neg (not_waiting hsettled), checkGlobal_stray hstray]

/-- A scratch atomic at an address that names no cell. -/
theorem planAtomS_ok {d : Option Dst} {op : AtomOp} {cell : Bool} (hcell : (cell && bitAt (arg v 0 % 2 ^ 32) 30) = false)
    (h : scratchAtomics d op z l v es) : z.planAtomS z.cc z.cg l d op cell (arg v 0) (arg v 1) = .ok es := by
  obtain ⟨hsettled, loc, hcheck, rfl⟩ := h
  show z.planAtomS z.chain.core z.chain.grp l d op cell (arg v 0) (arg v 1) = _
  unfold State.planAtomS
  dsimp only
  rw [if_neg (not_waiting hsettled), hcell, if_neg Bool.false_ne_true, hcheck]; rfl

theorem planAtomS_stray {d : Option Dst} {op : AtomOp} (h : strayAtomic true d op.size z l v a) :
    z.planAtomS z.cc z.cg l d op false (arg v 0) (arg v 1) = .trap .misaligned a := by
  obtain ⟨hsettled, hstray : stray true op.size (arg v 0 % 2 ^ 32) a⟩ := h
  show z.planAtomS z.chain.core z.chain.grp l d op false (arg v 0) (arg v 1) = _
  unfold State.planAtomS
  dsimp only
  rw [if_neg (not_waiting hsettled), Bool.false_and, if_neg Bool.false_ne_true, checkScratch_misaligned hstray]

theorem cellOf_address {k : Nat} (hk : k < 16) : cellOf (2 ^ 30 + 4 * k) = some k := by
  have hfield : bits (2 ^ 30 + 4 * k) 5 2 = k := by rw [FloatingPointAndPacked.bits_eq]; omega
  have hbit : bitAt (2 ^ 30 + 4 * k) 30 = true := by
    rw [bitAt, Nat.testBit_eq_decide_div_mod_eq, decide_eq_true_eq]; omega
  rw [cellOf, if_pos hbit, hfield, if_pos rfl]

/-- An update of an amax cell (R122, R141). -/
theorem planAtomS_cell {d : Dst} {op : AtomOp} {k : Nat} (hsettled : settled z l (some d)) (hk : k < 16)
    (haddr : arg v 0 % 2 ^ 32 = 2 ^ 30 + 4 * k) :
    z.planAtomS z.cc z.cg l (some d) op true (arg v 0) (arg v 1) = .ok [.sync, .amax d k false (BitVec.ofNat 32 (arg v 1))] := by
  have hcell := cellOf_address hk
  have hbit : bitAt (2 ^ 30 + 4 * k) 30 = true := by
    by_contra hne
    rw [cellOf, if_neg hne] at hcell
    cases hcell
  show z.planAtomS z.chain.core z.chain.grp l (some d) op true (arg v 0) (arg v 1) = _
  unfold State.planAtomS
  dsimp only
  rw [if_neg (not_waiting hsettled), haddr, hbit, Bool.and_self, if_pos rfl, hcell]; rfl
end

/-! ### Loads, stores and atomics that pass their checks -/

theorem performs_load {i : Instr} {scr : Bool} {size : Nat} {sign acq nc : Bool} {d : Dst} {off : BitVec 10}
    (hx : ∀ s, exec i s = s.word false i (loadBody scr size sign acq nc d off)) : PerformsEach i (loads scr size sign acq nc d off) :=
  performs_each hx fun _ _ _ _ => loadOut_ok
theorem performs_store {i : Instr} {scr : Bool} {size : Nat} {rel : Bool} {off : BitVec 10}
    (hx : ∀ s, exec i s = s.word false i (storeBody scr size rel off)) : PerformsEach i (stores scr size rel off) :=
  performs_each hx fun _ _ _ _ => storeOut_ok
theorem performs_atom {i : Instr} {d : Option Dst} {op : AtomOp}
    (hx : ∀ s, exec i s = s.word false i (bodyEach fun z l v => z.planAtom z.cc z.cg l d op (arg v 0) (arg v 1))) :
    PerformsEach i (atomics d op) := performs_each hx fun _ _ _ _ => planAtom_ok
theorem performs_peer {i : Instr} {op : AtomOp}
    (hx : ∀ s, exec i s = s.word false i (bodyEach fun z l v => z.planAtom z.cc z.cg l none op (arg v 0) (arg v 1))) :
    PerformsEach i (peerAtomics op) := performs_each hx fun _ _ _ _ => planAtom_peer
theorem performs_atomS {i : Instr} {d : Option Dst} {op : AtomOp}
    (hx : ∀ s, exec i s = s.word false i (bodyEach fun z l v => z.planAtomS z.cc z.cg l d op false (arg v 0) (arg v 1))) :
    PerformsEach i (scratchAtomics d op) := performs_each hx fun _ _ _ _ => planAtomS_ok rfl

/-! ### Block accesses at the address of a quarter's leader (R130, R131) -/

/-- One lane of `loadBlkBody`. -/
def blockLoadOut (i : Instr) (scr : Bool) (d : Dst) (f : EFmt) (off : BitVec 7) (z : State) (l : Nat) (_ : List Nat) : LaneOut :=
  outOf (z.leadAddr i 0 l) fun a => outOf (z.planBlock z.cc z.cg .load scr f a off.toNat) fun (locs, ea) =>
    .ok (z.touches z.cc z.cg false (blkOwn f locs l) ++
      [.loadBlk d f locs (BitVec.ofNat 64 ea) (z.blkShadow z.cc (z.cachedNow z.cc z.cg) f locs (quarterOf l))])
theorem loadBlkBody_eq (i : Instr) (scr : Bool) (d : Dst) (f : EFmt) (off : BitVec 7) :
    loadBlkBody i scr d f off = bodyEach (blockLoadOut i scr d f off) := rfl

/-- One lane of `storeBlkBody`. -/
def blockStoreOut (i : Instr) (scr : Bool) (c : Src) (f : EFmt) (off : BitVec 7) (z : State) (l : Nat) (v : List Nat) : LaneOut :=
  outOf (z.leadAddr i 0 l) fun a => outOf (z.planBlock z.cc z.cg .store scr f a off.toNat) fun (locs, ea) =>
    outOf (z.planWindowBlk z.cc z.cg (quarterOf l) f locs ea) fun _ =>
      .ok (z.touches z.cc z.cg true (blkOwn f locs l) ++ [.storeBlk f locs (BitVec.ofNat 32 (arg v 1)) (z.srcShadow l c)])
theorem storeBlkBody_eq (i : Instr) (scr : Bool) (c : Src) (f : EFmt) (off : BitVec 7) :
    storeBlkBody i scr c f off = bodyEach (blockStoreOut i scr c f off) := rfl

/-- The first source, read alone, is the first of the sources read together. -/
theorem readNth_zero {s : State} {l : Nat} {f : Form} {v : List Nat} (h : s.readSrcs l f.srcs (s.chain.lits f) = .ok v) :
    s.readNth l f 0 = .ok (arg v 0) := by
  unfold State.readNth
  cases hsrcs : f.srcs with
  | nil =>
    rw [hsrcs] at h
    cases h; rfl
  | cons p t =>
    obtain ⟨c, w⟩ := p
    rw [hsrcs, State.readSrcs] at h
    have hlit : ∀ ls : List Nat, ls.getD 0 0 = ls.headD 0 := fun ls => by cases ls <;> rfl
    simp only [List.getElem?_cons_zero, List.take_zero, List.filter_nil, List.length_nil, hlit]
    cases hread : s.readSrc l w ((s.chain.lits f).headD 0) c with
    | error e => rw [hread] at h; cases h
    | ok x =>
      rw [hread] at h
      cases htail : s.readSrcs l t (if c = .lit then (s.chain.lits f).tail else s.chain.lits f) with
      | error e => simp only [htail] at h; cases h
      | ok ys => simp only [htail] at h; cases h; rfl

section
variable {s : State} {i : Instr} {f : Form} {vs : Nat → List Nat} {l : Nat}

theorem executing_of_not_sel (hq : Quiet s.chain) (hsel : isSel i = false) :
    executing s i = (lanesOf s.chain.lanes).filter fun l => s.guardOn l := by
  simp only [executing, live_quiet hq, hsel, Bool.false_or]

/-- The leader of an executing lane's quarter is its lowest executing lane. -/
theorem leadAddr_ready (R : Ready s i f vs) (hsel : isSel i = false) (hl : l ∈ executing s i) :
    s.leadAddr i 0 l = .ok (quarterBase (rowsOf s i vs) l) := by
  have hexec := executing_of_not_sel R.quiet hsel
  have hfind : (lanesOf s.chain.lanes).find? (fun m => quarterOf m == quarterOf l && s.guardOn m) =
      (executing s i).find? fun m => quarterOf m == quarterOf l := by
    rw [hexec, List.find?_filter]
    exact congrArg (List.find? · _) (funext fun m => by rw [Bool.decide_and, Bool.decide_eq_true, Bool.decide_eq_true, Bool.and_comm])
  have hrow : (rowsOf s i vs).find? (fun r => r.1 / 8 == l / 8) = ((executing s i).find? fun m => quarterOf m == quarterOf l).map fun m => (m, vs m) := by
    rw [rowsOf, List.find?_map]; rfl
  obtain ⟨m, hm⟩ : ∃ m, (executing s i).find? (fun m => quarterOf m == quarterOf l) = some m := Option.isSome_iff_exists.mp (List.find?_isSome.mpr ⟨l, hl, beq_self_eq_true (quarterOf l)⟩)
  unfold State.leadAddr
  rw [R.form, hfind, hm]
  dsimp only
  rw [readNth_zero (R.reads m (List.mem_of_find?_eq_some hm)), quarterBase, hrow, hm]; rfl

theorem planBlock_stray {n : Need} {scr : Bool} {e : EFmt} {base : Nat} {off : BitVec 7} {a : DWord}
    (h : stray scr 32 (if scr then wrap 32 ((base % 2 ^ 32 : Nat) + sgn 7 off.toNat * 32) else wrap 64 (base + sgn 7 off.toNat * 32)) a) :
    s.planBlock s.cc s.cg n scr e base off.toNat = .error (.trap .misaligned a) := by
  unfold State.planBlock
  cases scr with
  | true =>
    have hcheck : s.checkScratch s.cc s.cg (eaScratch base 7 off.toNat 32) 32 (32 * blkSecs e) = _ := checkScratch_misaligned h
    simp only [if_true, hcheck]; rfl
  | false =>
    have haddr : eaGlobal base 7 off.toNat 32 < 2 ^ 64 := by unfold eaGlobal wrapI; omega
    have hcheck : s.checkGlobal s.cc s.cg n (eaGlobal base 7 off.toNat 32) 32 = _ := checkGlobal_stray h
    have ha : BitVec.ofNat 64 (eaGlobal base 7 off.toNat 32) = a := h.1.symm
    obtain ⟨k, hk⟩ : ∃ k, blkSecs e = k + 1 := by unfold blkSecs; split <;> exact ⟨_, rfl⟩
    simp only [Bool.false_eq_true, if_false, hk, List.range_succ_eq_map, List.foldr_cons, Nat.mul_zero, Nat.add_zero, Nat.mod_eq_of_lt haddr, hcheck, ha]
    rfl

section
variable {scr : Bool} {e : EFmt} {off : BitVec 7} {es : List Eff} {a : DWord} (R : Ready s i f vs) (hsel : isSel i = false) (hl : l ∈ executing s i)
include R hsel hl

theorem blockLoadOut_ok {d : Dst} (h : blockLoads scr d e off s (rowsOf s i vs) l (vs l) es) : blockLoadOut i scr d e off s l (vs l) = .ok es := by
  obtain ⟨locs, ea, hplan, rfl⟩ := h
  have hplan' : s.planBlock s.cc s.cg .load scr e (quarterBase (rowsOf s i vs) l) off.toNat = .ok (locs, ea) := hplan
  unfold blockLoadOut
  rw [leadAddr_ready R hsel hl]
  dsimp only [outOf]
  rw [hplan']; rfl

theorem blockLoadOut_stray {d : Dst} (h : strayBlock scr off s (rowsOf s i vs) l (vs l) a) :
    blockLoadOut i scr d e off s l (vs l) = .trap .misaligned a := by
  unfold blockLoadOut
  rw [leadAddr_ready R hsel hl]
  dsimp only [outOf]
  rw [planBlock_stray h]

theorem blockStoreOut_ok {c : Src} (h : blockStores scr c e off s (rowsOf s i vs) l (vs l) es) : blockStoreOut i scr c e off s l (vs l) = .ok es := by
  obtain ⟨locs, ea, hplan, hwindow, rfl⟩ := h
  have hplan' : s.planBlock s.cc s.cg .store scr e (quarterBase (rowsOf s i vs) l) off.toNat = .ok (locs, ea) := hplan
  have hwindow' : s.planWindowBlk s.cc s.cg (quarterOf l) e locs ea = .ok () := hwindow
  unfold blockStoreOut
  rw [leadAddr_ready R hsel hl]
  dsimp only [outOf]
  rw [hplan']
  dsimp only
  rw [hwindow']; rfl

theorem blockStoreOut_stray {c : Src} (h : strayBlock scr off s (rowsOf s i vs) l (vs l) a) :
    blockStoreOut i scr c e off s l (vs l) = .trap .misaligned a := by
  unfold blockStoreOut
  rw [leadAddr_ready R hsel hl]
  dsimp only [outOf]
  rw [planBlock_stray h]
end

/-- A word of each lane by itself whose lanes' outcomes `o` says from every executing lane's operands. -/
theorem performs_across {o : State → Rows → Nat → List Nat → List Eff → Prop} {b : State → Nat → List Nat → LaneOut} {i : Instr}
    (hx : ∀ s, exec i s = s.word false i (bodyEach b))
    (hb : ∀ {s f vs l es}, Ready s i f vs → l ∈ executing s i → o s (rowsOf s i vs) l (vs l) es → b s l (vs l) = .ok es) : PerformsAcross i o := by
  intro s f vs es R H ho hroom
  rw [hx]
  exact exec_ready R (rowsOf_map (b s) es fun l hl => hb R hl (ho l hl)) (fun d c w x e hm => H _ e hm) hroom
end

theorem performs_blockLoad {i : Instr} {scr : Bool} {d : Dst} {e : EFmt} {off : BitVec 7} (hsel : isSel i = false)
    (hx : ∀ s, exec i s = s.word false i (loadBlkBody i scr d e off)) : PerformsAcross i (blockLoads scr d e off) :=
  performs_across hx fun R hl h => blockLoadOut_ok R hsel hl h
theorem performs_blockStore {i : Instr} {scr : Bool} {c : Src} {e : EFmt} {off : BitVec 7} (hsel : isSel i = false)
    (hx : ∀ s, exec i s = s.word false i (storeBlkBody i scr c e off)) : PerformsAcross i (blockStores scr c e off) :=
  performs_across hx fun R hl h => blockStoreOut_ok R hsel hl h
end Sys2Proof.LaneMemory
end

section
/-! PROOFS. Lane memory: what the accesses of a chain leave as a trap of another lane finds it. -/
-- One declaration at a time: each thread that elaborates reserves a stack of 256 MiB of the check's memory.
set_option Elab.async false
open Sys2Proof Sys2Proof.Machine Sys2Proof.Safety Sys2Proof.Rules

namespace Sys2Proof.LaneMemory

/-! ### What a trap looks at (R318) -/

/-- A lane as it was, or ready where it waited. -/
def LaneKept (x y : Lane) : Prop := y = x ∨ y = { x with mode := .ready }
theorem LaneKept.refl (x : Lane) : LaneKept x x := .inl rfl
theorem LaneKept.trans {x y z : Lane} (h : LaneKept x y) (k : LaneKept y z) : LaneKept x z := by
  rcases h with rfl | rfl
  · exact k
  · rcases k with rfl | rfl
    · exact .inr rfl
    · exact .inr rfl
theorem LaneKept.mode_ne_exited {x y : Lane} (h : LaneKept x y) (hx : x.mode ≠ .exited) : y.mode ≠ .exited := by
  rcases h with rfl | rfl
  · exact hx
  · exact fun h => nomatch h
theorem LaneKept.h_eq {x y : Lane} (h : LaneKept x y) : y.h = x.h := by rcases h with rfl | rfl <;> rfl
/-- A lane enters the handler alike whether it waited or not. -/
theorem LaneKept.entered_eq {x y : Lane} (h : LaneKept x y) (s : State) (c : Cause) (a : DWord) : entered s c a y = entered s c a x := by
  rcases h with rfl | rfl <;> rfl

/-- A group whose team and lane `l` are as they were. -/
def GroupKept (l : Nat) (x y : Group) : Prop := y.team = x.team ∧ LaneKept (x.lane l) (y.lane l)
theorem GroupKept.refl (l : Nat) (x : Group) : GroupKept l x x := ⟨rfl, .refl _⟩
theorem GroupKept.trans {l : Nat} {x y z : Group} (h : GroupKept l x y) (k : GroupKept l y z) : GroupKept l x z :=
  ⟨k.1.trans h.1, h.2.trans k.2⟩
/-- An update of the rest of a group. -/
theorem GroupKept.of_lanes {l : Nat} {x y : Group} (ht : y.team = x.team := by rfl) (hl : y.lanes = x.lanes := by rfl) : GroupKept l x y :=
  ⟨ht, .inl (by simp only [Group.lane, hl])⟩
theorem GroupKept.foldl {α : Type} {l : Nat} {xs : List α} {f : Group → α → Group} (hf : ∀ x, ∀ a ∈ xs, GroupKept l x (f x a)) (x : Group) :
    GroupKept l x (xs.foldl f x) := by
  induction xs generalizing x with
  | nil => exact .refl l x
  | cons a xs ih => exact (hf x a (List.mem_cons_self ..)).trans (ih (fun x b hb => hf x b (List.mem_cons_of_mem _ hb)) _)
theorem GroupKept.setLane {l k : Nat} (hne : k ≠ l) (x : Group) (y : Lane) : GroupKept l x (x.setLane k y) :=
  ⟨rfl, .inl (by rw [Group.lane_setLane, if_neg hne])⟩
theorem GroupKept.mapLanes {l : Nat} {f : Nat → Lane → Lane} (hf : ∀ k x, LaneKept x (f k x)) (h0 : f l {} = {}) (x : Group) :
    GroupKept l x (x.mapLanes f) := ⟨rfl, by rw [Group.lane_mapLanes x f l h0]; exact hf l _⟩
theorem GroupKept.release (l : Nat) (x : Group) : GroupKept l x x.release := by
  obtain ⟨hrest, hlanes⟩ := x.release_from
  refine ⟨by rw [hrest], ?_⟩
  rcases hlanes l with h | ⟨-, h⟩
  · exact .inl h
  · exact .inr h

/-- What a trap of lane `l` looks at is in `t` as in `s`: the lane, and the way from its group to its context's vector. -/
structure TrapKept (c g l : Nat) (s t : State) : Prop where
  group : GroupKept l (s.group c g) (t.group c g)
  grids : ∀ k, (t.team k).grid = (s.team k).grid
  ctxs : ∀ k, (t.grid k).ctx = (s.grid k).ctx
  vectors : ∀ k, (t.ctx k).tvec = (s.ctx k).tvec

namespace TrapKept
variable {c g l : Nat} {s t : State}

theorem refl (c g l : Nat) (s : State) : TrapKept c g l s s := ⟨.refl .., fun _ => rfl, fun _ => rfl, fun _ => rfl⟩
theorem trans {u : State} (h : TrapKept c g l s t) (k : TrapKept c g l t u) : TrapKept c g l s u :=
  ⟨h.group.trans k.group, fun i => (k.grids i).trans (h.grids i), fun i => (k.ctxs i).trans (h.ctxs i), fun i => (k.vectors i).trans (h.vectors i)⟩
theorem vector (h : TrapKept c g l s t) : (t.ctx (t.ctxOf c g)).tvec = (s.ctx (s.ctxOf c g)).tvec := by
  have hctx : t.ctxOf c g = s.ctxOf c g := by
    unfold State.ctxOf State.gridOf State.teamOf
    rw [h.ctxs, h.grids, h.group.1]
  rw [hctx, h.vectors]

/-! ### The updates of the state -/

variable (h : TrapKept c g l s t)
include h

theorem foldl {α : Type} {xs : List α} {f : State → α → State} (hf : ∀ u, ∀ a ∈ xs, TrapKept c g l s u → TrapKept c g l s (f u a)) :
    TrapKept c g l s (xs.foldl f t) := by
  induction xs generalizing t with
  | nil => exact h
  | cons a xs ih => exact ih (hf t a (List.mem_cons_self ..) h) fun u b hb => hf u b (List.mem_cons_of_mem _ hb)
theorem ite {p : Prop} [Decidable p] {u : State} (k : TrapKept c g l s u) : TrapKept c g l s (if p then t else u) := by
  split
  · exact h
  · exact k
/-- An update of the rest of the state. -/
theorem of_parts {u : State} (hcores : u.cores = t.cores := by rfl) (hlantern : u.lantern = t.lantern := by rfl)
    (hctxs : u.keeper.ctxs = t.keeper.ctxs := by rfl) :
    TrapKept c g l s u :=
  h.trans ⟨by simp only [State.group, State.core, hcores]; exact .refl .., fun k => by simp only [State.team, hlantern],
    fun k => by simp only [State.grid, hlantern], fun k => by simp only [State.ctx, hctxs]⟩
/-- An update of the cores that leaves the group. -/
theorem of_group {u : State} (hgroup : u.group c g = t.group c g) (hlantern : u.lantern = t.lantern) (hkeeper : u.keeper = t.keeper) :
    TrapKept c g l s u :=
  h.trans ⟨by rw [hgroup]; exact .refl .., fun k => by simp only [State.team, hlantern], fun k => by simp only [State.grid, hlantern],
    fun k => by simp only [State.ctx, hkeeper]⟩
theorem setCore {k : Nat} {x : Core} (hx : x.groups = (t.core k).groups := by rfl) : TrapKept c g l s (t.setCore k x) := by
  refine h.of_group ?_ rfl rfl
  simp only [State.group, State.core_setCore]
  split
  · rename_i hk; rw [hx, hk]
  · rfl
theorem setGroup {x : Group} (hx : GroupKept l (t.group c g) x) : TrapKept c g l s (t.setGroup c g x) :=
  h.trans ⟨by rw [State.group_setGroup_same]; exact hx, fun _ => rfl, fun _ => rfl, fun _ => rfl⟩
theorem updGroup {f : Group → Group} (hf : ∀ x, GroupKept l x (f x)) : TrapKept c g l s (t.updGroup c g f) := h.setGroup (hf _)
theorem setLane {k : Nat} (hne : k ≠ l) (x : Lane) : TrapKept c g l s (t.setLane c g k x) := h.setGroup (.setLane hne _ x)
theorem updLane {k : Nat} (hne : k ≠ l) (f : Lane → Lane) : TrapKept c g l s (t.updLane c g k f) := h.setLane hne _
theorem mapGroups {f : Nat → Nat → Group → Group} (hf : ∀ c g x, GroupKept l x (f c g x)) : TrapKept c g l s (t.mapGroups f) := by
  refine h.trans ⟨?_, fun k => ?_, fun _ => rfl, fun _ => rfl⟩
  · simp only [State.group, State.core, State.mapGroups, Tbl.get, Tbl.find_mapV]
    cases Tbl.find t.cores c with
    | none => exact .refl ..
    | some x =>
      simp only [Option.map_some, Option.getD_some, Tbl.find_mapV]
      cases Tbl.find x.groups g with
      | none => exact .refl ..
      | some y => exact hf c g y
  · simp only [State.team, State.mapGroups, Tbl.get, Tbl.find_mapV]
    cases Tbl.find t.lantern.teams k <;> rfl
theorem setTeam {k : Nat} {x : Team} (hx : x.grid = (t.team k).grid := by rfl) : TrapKept c g l s (t.setTeam k x) := by
  refine h.trans ⟨.refl .., fun j => ?_, fun _ => rfl, fun _ => rfl⟩
  rw [State.team_setTeam]
  split
  · rename_i hj; rw [hx, hj]
  · rfl
theorem setCtx {k : Nat} {x : Ctx} (hx : x.tvec = (t.ctx k).tvec := by rfl) : TrapKept c g l s (t.setCtx k x) := by
  refine h.trans ⟨.refl .., fun _ => rfl, fun _ => rfl, fun j => ?_⟩
  rw [State.ctx_setCtx]
  split
  · rename_i hj; rw [hx, hj]
  · rfl
/-- A change of every core that leaves its groups. -/
theorem mapCores {f : Nat → Core → Core} (hf : ∀ k x, (f k x).groups = x.groups) : TrapKept c g l s { t with cores := t.cores.mapV f } := by
  refine h.of_group ?_ rfl rfl
  simp only [State.group, State.core, Tbl.get, Tbl.find_mapV]
  cases Tbl.find t.cores c with
  | none => rfl
  | some x => simp only [Option.map_some, Option.getD_some, hf]

/-! ### Writes at home units -/

theorem dirtyLine (pa : Nat) : TrapKept c g l s (t.dirtyLine pa) := by
  unfold State.dirtyLine
  split
  · exact h
  · exact h.of_parts
theorem noteWrite (who : Option (Nat × Nat)) (secs : List Nat) : TrapKept c g l s (t.noteWrite who secs) := by
  refine h.mapGroups fun c g x => ?_
  split
  · split
    · exact .refl ..
    · split
      · exact .of_lanes
      · exact .refl ..
  · exact .refl ..
theorem devWrite (who : Option (Nat × Nat)) (key pa : Nat) (bs : List Byte) (p : Bool) : TrapKept c g l s (t.devWrite who key pa bs p) :=
  (h.of_parts.foldl fun _ _ _ hu => hu.dirtyLine _).noteWrite ..
theorem devSetSlot (pa k : Nat) (v : Byte) : TrapKept c g l s (t.devSetSlot pa k v) :=
  (h.of_parts.dirtyLine _).noteWrite ..
theorem markDirty (core off n : Nat) (scale : Bool) : TrapKept c g l s (t.markDirty core off n scale) := by
  refine h.foldl fun u k _ hu => ?_
  split
  · exact hu
  · dsimp only
    split
    · exact hu
    · exact hu.setTeam
theorem scrWrite (who : Option (Nat × Nat)) (core off : Nat) (bs : List Byte) (p : Bool) : TrapKept c g l s (t.scrWrite who core off bs p) :=
  (h.of_parts.setCore.markDirty ..).noteWrite ..
theorem scrSetSlot (core off k : Nat) (v : Byte) : TrapKept c g l s (t.scrSetSlot core off k v) :=
  (h.setCore.markDirty ..).noteWrite ..
theorem locWrite (who : Option (Nat × Nat)) (loc : Loc) (bs : List Byte) (p : Bool) : TrapKept c g l s (t.locWrite who loc bs p) := by
  cases loc with
  | dev pa key va apt => exact h.devWrite ..
  | scr d off => exact h.scrWrite ..
theorem locSetSlot (loc : Loc) (k : Nat) (v : Byte) : TrapKept c g l s (t.locSetSlot loc k v) := by
  cases loc with
  | dev pa key va apt => exact h.devSetSlot ..
  | scr d off => exact h.scrSetSlot ..
theorem copy1 (x : CopyItem) : TrapKept c g l s (t.copy1 x) := by
  unfold State.copy1
  split
  · exact h
  · dsimp only
    split
    · exact (((h.scrWrite ..).scrSetSlot ..).scrSetSlot ..).setCore
    · exact h.scrWrite ..
theorem copiesNow (k : Nat) : TrapKept c g l s (t.copiesNow c g k) := by
  unfold State.copiesNow
  refine updGroup (h.foldl fun u x _ hu => ?_) fun x => ?_
  case refine_2 => exact .of_lanes
  split
  · exact hu.copy1 x
  · exact hu

/-! ### Caches and translations -/

theorem l1DropAll (core : Nat) : TrapKept c g l s (t.l1DropAll core) := h.setCore
theorem l1DropLine (pa : Nat) : TrapKept c g l s (t.l1DropLine pa) := h.mapCores fun _ _ => rfl
theorem l1DropOthers (core pa : Nat) : TrapKept c g l s (t.l1DropOthers core pa) := h.mapCores fun k x => by split <;> rfl
theorem l1Fill (core key : Nat) (ks : List Nat) : TrapKept c g l s (t.l1Fill core key ks) := h.foldl fun _ _ _ hu => hu.setCore
theorem l1Update (core key : Nat) (ks : List Nat) : TrapKept c g l s (t.l1Update core key ks) := by
  refine h.foldl fun u k _ hu => ?_
  split
  · exact hu.setCore
  · exact hu
theorem touch (core : Option Nat) (ctx : Nat) (write : Bool) (va : Nat) : TrapKept c g l s (t.touch core ctx write va) := by
  unfold State.touch
  dsimp only
  split
  · exact h
  · split
    · split
      · exact h.of_parts
      · exact h.of_parts.setCore
    · exact h
theorem markLoc (core grp : Nat) (write : Bool) (loc : Loc) : TrapKept c g l s (t.markLoc core grp write loc) := by
  cases loc with
  | dev pa key va apt =>
    unfold State.markLoc
    dsimp only
    split
    · split
      · exact (h.touch ..).l1DropAll _
      · exact h.touch ..
    · exact h.touch ..
  | scr d off => exact h

/-! ### Waits, transactions and stores on their way -/

theorem wake (r : Retire) (phase : Bool) : TrapKept c g l s (t.wake r phase) := by
  refine (h.mapGroups fun c g x => ?_).foldl fun _ _ _ hu => hu.l1DropAll _
  split
  · exact .refl ..
  · refine .mapLanes (fun _ x => ?_) rfl x
    unfold Lane.endWait
    split
    · exact .inr rfl
    · exact .inl rfl
theorem rewait (loc : Loc) : TrapKept c g l s (t.rewait loc) := by
  unfold State.rewait
  dsimp only
  split
  · exact h.wake ..
  · exact h
theorem newTxn (store : Bool) (fills : List Fill1) (secs : List Nat) (late : Option Late) :
    TrapKept c g l s (t.newTxn c g store fills secs late).2 := by
  unfold State.newTxn
  dsimp only
  refine h.of_parts.updGroup fun x => ?_
  exact .of_lanes
theorem noteRead (secs : List Nat) : TrapKept c g l s (t.noteRead c g secs) := h.updGroup fun _ => .of_lanes
theorem afterLoads (k : Nat) (loc : Loc) (every : Bool) : TrapKept c g l s (t.afterLoads c g k loc every) := by
  unfold State.afterLoads
  split
  · exact h.mapGroups fun _ _ _ => .of_lanes
  · exact h.updGroup fun _ => .of_lanes
theorem syncLane {k : Nat} (hne : k ≠ l) : TrapKept c g l s (t.syncLane c g k) :=
  (((h.updLane hne fun x => { x with region := [] }).updGroup (f := fun x => x.settleLoads (·.lane == k)) fun _ => .of_lanes)).of_parts
theorem sendStore (k n : Nat) (loc : Loc) (old : List Byte × Bool) : TrapKept c g l s (t.sendStore c g k n loc old) := by
  unfold State.sendStore
  split
  · exact h
  · cases loc <;> exact h.of_parts

/-! ### Reflections and records -/

theorem reflectVia (ctx : Nat) (e : BitVec 512) (va : Nat) (bs : List Byte) (side : List (Nat × Nat × Byte)) (p : Bool) (gaps : List Nat) :
    TrapKept c g l s (t.reflectVia c g ctx e va bs side p gaps) := by
  refine h.foldl fun u d _ hu => ?_
  dsimp only
  split
  · exact (hu.updGroup (f := fun x => x.touchBatch d (txAt e 5 3)) fun _ => .of_lanes).of_parts
  · exact hu.of_parts
theorem reflect (ctx va : Nat) (bs : List Byte) : TrapKept c g l s (t.reflect c g ctx va bs) := by
  unfold State.reflect
  split
  · exact h
  · exact h.reflectVia ..
theorem reflectBlk (q : Nat) (f : EFmt) (locs : List Loc) (xs : List (Nat × Word)) (slots : List ((Nat × Nat) × Byte)) :
    TrapKept c g l s (t.reflectBlk c g q f locs xs slots) := by
  unfold State.reflectBlk
  split
  · split
    · exact h.reflectVia ..
    · exact h
  · exact h
theorem keepLog (r : FRec) : TrapKept c g l s (t.keepLog r) := by
  unfold State.keepLog State.toHost
  split
  · exact h.of_parts
  · exact h.of_parts
theorem record (r : FRec) : TrapKept c g l s (t.record r) := by
  unfold State.record
  split
  · exact (h.setCtx (k := r.ctx)
      (x := { t.ctx r.ctx with pending := (t.ctx r.ctx).pending ++ [⟨t.keeper.nextRec, r, none, 0, 0, false⟩] })).of_parts
  · exact h.keepLog r
theorem droppedAtoms (pc : DWord) (xs : List (Nat × DWord)) : TrapKept c g l s (t.droppedAtoms c g pc xs) := h.foldl fun _ _ _ hu => hu.record _
theorem clearStores (core : Nat) (xs : List (Loc × Nat)) : TrapKept c g l s (t.clearStores core xs) := by
  unfold State.clearStores
  refine TrapKept.foldl (TrapKept.foldl ?_ fun u p _ hu => ?_) fun u k _ hu => hu.setCore
  · split
    · exact h
    · exact h.of_parts
  · obtain ⟨loc, n⟩ := p
    cases loc with
    | dev pa key va apt => exact hu.l1Update ..
    | scr d off => exact hu

/-! ### The accesses of another lane -/

theorem awaitMq (d : Dst) (bits k n : Nat) : TrapKept c g l s (t.updGroup c g fun x => x.awaitMq d bits k n) := by
  refine h.updGroup fun x => ?_
  unfold Group.awaitMq Group.setMq
  split
  · exact .refl ..
  · split <;> exact .of_lanes
theorem doLoad {k : Nat} (hne : k ≠ l) (d : Dst) (size : Nat) (sign : Bool) (loc : Loc) (ea : DWord) (acq nc : Bool) :
    TrapKept c g l s (t.doLoad c g k d size sign loc ea acq nc).2 := by
  have hread (fills : List Fill1) (late : Option Late) : TrapKept c g l s (((t.markLoc c g false loc).newTxn c g false fills [loc.sec] late).2.updLane c g k
      fun x => x.reserve d (loadBits size) ((t.markLoc c g false loc).newTxn c g false fills [loc.sec] late).1) :=
    ((h.markLoc ..).newTxn ..).updLane hne _
  unfold State.doLoad
  dsimp only
  cases loc with
  | dev pa key va apt =>
    dsimp only
    split <;> split
    · exact ((hread ..).l1Fill ..).noteRead _ |>.l1DropAll _
    · exact (hread ..).noteRead _ |>.l1DropAll _
    · exact ((hread ..).l1Fill ..).noteRead _
    · exact (hread ..).noteRead _
  | scr d off =>
    dsimp only
    split
    · exact ((hread ..).noteRead _).l1DropAll _
    · exact (hread ..).noteRead _
theorem doStore (k : Nat) (loc : Loc) (bs : List Byte) (rel : Bool) : TrapKept c g l s (t.doStore c g k loc bs rel) := by
  have hwritten := ((((h.copiesNow k).ite (p := rel) h).markLoc c g true loc).locWrite (some (c, g)) loc bs false).rewait loc |>.afterLoads k loc rel
  unfold State.doStore
  cases loc with
  | dev pa key va apt =>
    have hcached := ((hwritten.l1DropOthers c pa).ite (p := rel) hwritten).l1Update c key (sectorsOf pa bs.length)
    have hsent (ctx : Nat) := ((hcached.reflect ctx va.toNat bs).ite (p := apt = 3) hcached).newTxn true [] [] none
    exact (hsent _).ite ((hsent _).sendStore ..)
  | scr d off =>
    have hsent := hwritten.newTxn true [] [] none
    exact hsent.ite (hsent.sendStore ..)
theorem doAtom {k : Nat} (hne : k ≠ l) (d : Option Dst) (op : AtomOp) (loc : Loc) (b : QWord) (ea : DWord) :
    TrapKept c g l s (t.doAtom c g k d op loc b ea) := by
  have hmarked := ((h.copiesNow k).ite (p := d.isSome = true) h).markLoc c g true loc
  have hstored (new : Option Nat) : TrapKept c g l s (match new with
      | some v => (((if d.isSome then t.copiesNow c g k else t).markLoc c g true loc).locWrite (some (c, g)) loc (toBytesLE op.size v) false).rewait loc
      | none => (if d.isSome then t.copiesNow c g k else t).markLoc c g true loc) := by
    cases new with
    | some v => exact (hmarked.locWrite ..).rewait loc
    | none => exact hmarked
  have hmade (bad : Bool) (new : Option Nat) := hmarked.ite (p := bad = true) (hstored new)
  have hdropped (u : State) (hu : TrapKept c g l s u) :
      TrapKept c g l s ((match loc with | .dev pa _ _ _ => u.l1DropLine pa | .scr .. => u).afterLoads c g k loc true) := by
    cases loc with
    | dev pa key va apt => exact (hu.l1DropLine pa).afterLoads ..
    | scr d off => exact hu.afterLoads ..
  unfold State.doAtom
  cases d with
  | none => exact (hdropped _ (hmade ..)).newTxn ..
  | some d =>
    have hread (bad : Bool) (new : Option Nat) (fills : List Fill1) (w : Lane → Lane) := ((hdropped _ (hmade bad new)).newTxn false fills [loc.sec] none).updLane hne w
    exact ((hread ..).l1DropAll _).ite (hread ..)
theorem doLoadBlk (q : Nat) {ks : List Nat} (hne : ∀ k ∈ ks, k ≠ l) (d : Dst) (f : EFmt) (locs : List Loc) (ea : DWord) :
    TrapKept c g l s (t.doLoadBlk c g q ks d f locs ea).2 := by
  have hmarked : TrapKept c g l s (locs.foldl (fun s l => s.markLoc c g false l) t) := h.foldl fun _ _ _ hu => hu.markLoc ..
  have hread (fills : List Fill1) (n : Nat) := (hmarked.newTxn false fills (locs.map (·.sec)) none).foldl (xs := ks)
    (f := fun s k => s.updLane c g k fun x => x.reserve d 32 n) fun u k hk hu => hu.updLane (hne k hk) _
  unfold State.doLoadBlk
  refine TrapKept.noteRead (TrapKept.foldl (hread ..) fun u loc _ hu => ?_) _
  cases loc with
  | dev pa key va apt => exact (hu.l1Fill ..).ite hu
  | scr d off => exact hu
theorem doStoreBlk (q : Nat) (xs : List (Nat × Word)) (f : EFmt) (locs : List Loc) (sh : Shadow) :
    TrapKept c g l s (t.doStoreBlk c g q xs f locs sh) := by
  have hmarked : TrapKept c g l s (locs.foldl (fun s l => s.markLoc c g true l) t) := h.foldl fun _ _ _ hu => hu.markLoc ..
  unfold State.doStoreBlk
  refine TrapKept.foldl (TrapKept.newTxn (TrapKept.reflectBlk (TrapKept.foldl (TrapKept.foldl (TrapKept.foldl (TrapKept.foldl (TrapKept.foldl hmarked ?bytes) ?waits) ?slots)
    ?lines) ?loads) ..) ..) ?sent
  case bytes => exact fun u x _ hu => hu.foldl fun v y _ hv => hv.locWrite ..
  case waits => exact fun u x _ hu => (hu.rewait _).rewait _
  case slots => exact fun u x _ hu => hu.locSetSlot ..
  case lines =>
    intro u loc _ hu
    cases loc with
    | dev pa key va apt => exact hu.l1Update ..
    | scr d off => exact hu
  case loads => exact fun u x _ hu => (hu.afterLoads ..).afterLoads ..
  case sent => exact fun u x _ hu => hu.foldl fun v y _ hv => hv.sendStore ..
end TrapKept

/-! ### A chain of accesses -/

/-- The effects of loads, stores and atomics, with what goes before them (R198, R129, R140). -/
def isAccess : Eff → Bool
  | .touch _ | .sync | .load .. | .store .. | .atom .. | .loadBlk .. | .storeBlk .. => true
  | _ => false

/-- A test that no access passes finds nothing among accesses. -/
theorem any_access {es : List Eff} (h : ∀ e ∈ es, isAccess e = true) (p : Eff → Bool) (hp : ∀ e, isAccess e = true → p e = false) :
    es.any p = false := by
  rw [List.any_eq_false]
  intro e he
  rw [hp e (h e he)]
  exact Bool.false_ne_true

theorem mem_rows {w : WordOut} {oks : List Nat} {p : Nat × List Eff} (h : p ∈ w.rows oks) : p.1 ∈ oks ∧ p.2 = w.effsIn p.1 := by
  obtain ⟨k, hk, hrow⟩ := List.mem_filterMap.mp h
  unfold WordOut.row at hrow
  split at hrow
  · rename_i es hfind
    cases hrow
    exact ⟨hk, by simp only [WordOut.effsIn, hfind]⟩
  · cases hrow

namespace TrapKept
variable {c g l : Nat} {s t : State} (h : TrapKept c g l s t)
include h

theorem perform {k : Nat} (hne : k ≠ l) {e : Eff} (he : isAccess e = true) : TrapKept c g l s (t.perform c g k e) := by
  cases e with
  | touch a => exact h.updLane hne fun x => { x with region := a :: x.region }
  | sync => exact h.syncLane hne
  | load d size sign loc ea acq nc => exact (h.doLoad hne d size sign loc ea acq nc).awaitMq ..
  | store loc bs rel => exact h.doStore ..
  | atom d op loc b ea => exact h.doAtom hne ..
  | loadBlk d f locs ea sh => exact h
  | storeBlk f locs code sh => exact h
  | _ => exact Bool.noConfusion he
theorem blockLoad (q : Nat) {mine : List (Nat × List Eff)} (hne : ∀ p ∈ mine, p.1 ≠ l) : TrapKept c g l s (t.blockLoad c g q mine) := by
  unfold State.blockLoad
  split
  · rename_i d f locs ea _
    have hks : ∀ k ∈ mine.map (·.1), k ≠ l := fun k hk => by
      obtain ⟨p, hp, rfl⟩ := List.mem_map.mp hk
      exact hne p hp
    refine (h.doLoadBlk q hks d f locs ea).updGroup fun x => .foldl (fun x k _ => ?_) x
    unfold Group.awaitMq Group.setMq
    split
    · exact .refl ..
    · split <;> exact .of_lanes
  · exact h
theorem blockStore (q : Nat) (mine : List (Nat × List Eff)) : TrapKept c g l s (t.blockStore c g q mine) := by
  unfold State.blockStore
  split
  · exact h.doStoreBlk ..
  · exact h
theorem blocks {xs : List (Nat × List Eff)} (hne : ∀ p ∈ xs, p.1 ≠ l) : TrapKept c g l s (t.blocks c g xs) :=
  h.foldl fun _ q _ hu => (hu.blockLoad q fun p hp => hne p (List.mem_filter.mp hp).1).blockStore ..
theorem addCopies (xs : List (Nat × List Eff)) : TrapKept c g l s (t.addCopies c g xs) := by
  unfold State.addCopies
  refine h.ite (h.updGroup fun x => ?_)
  exact .of_lanes
theorem performWord (pc : DWord) {w : WordOut} {oks : List Nat} (hl : l ∉ oks) (hacc : ∀ k ∈ oks, ∀ e ∈ w.effsIn k, isAccess e = true) :
    TrapKept c g l s (t.performWord c g pc w oks) := by
  have hne : ∀ p ∈ w.rows oks, p.1 ≠ l := fun p hp hpl => hl (hpl ▸ (mem_rows hp).1)
  have hrows : ∀ p ∈ w.rows oks, ∀ e ∈ p.2, isAccess e = true := fun p hp e he => by
    obtain ⟨hk, hes⟩ := mem_rows hp
    exact hacc p.1 hk e (hes ▸ he)
  unfold State.performWord
  refine TrapKept.updGroup (TrapKept.droppedAtoms (TrapKept.clearStores (TrapKept.foldl (TrapKept.addCopies (TrapKept.blocks (TrapKept.updGroup h ?shadows)
    hne) _) ?effects) ..) ..) ?pops
  case shadows =>
    intro x
    obtain ⟨q, hq⟩ := regShadows_same w (w.rows oks) { x with mqa := x.mqa ++ w.entries (w.rows oks) 0, mqb := x.mqb ++ w.entries (w.rows oks) 1 }
    exact hq ▸ .of_lanes
  case effects => exact fun u p hp hu => hu.foldl fun v e he hv => hv.perform (hne p hp) (hrows p hp e he)
  case pops =>
    intro x
    obtain ⟨q, hq⟩ := writeScalar_same (w.rows oks) x
    rw [pop_same, hq]
    exact .of_lanes
end TrapKept

section
variable {s : State} {c : Chain} {t : Nat} {oks : List Nat} (hacc : ∀ k ∈ oks, ∀ e ∈ c.effs k, isAccess e = true)
include hacc

theorem returns_access (z : State) : z.returns c oks = z := by
  refine foldl_id _ _ _ fun k hk => if_neg ?_
  rw [any_access (hacc k hk) Eff.isRfe fun e he => by cases e <;> first | rfl | exact Bool.noConfusion he]
  exact Bool.false_ne_true
theorem leaves_access (z : State) : z.leaves' c oks = z := by
  have hnone (p : Eff → Bool) (hp : ∀ e, isAccess e = true → p e = false) : (oks.any fun k => (c.effs k).any p) = false := by
    rw [List.any_eq_false]
    intro k hk
    rw [any_access (hacc k hk) p hp]
    exact Bool.false_ne_true
  unfold State.leaves'
  rw [hnone Eff.isExit fun e he => by cases e <;> first | rfl | exact Bool.noConfusion he,
    hnone Eff.isBar fun e he => by cases e <;> first | rfl | exact Bool.noConfusion he]
  rfl
theorem fences_access (z : State) : z.fences c oks = z := by
  have hnone : (oks.filterMap fun k => (c.effs k).findSome? (Eff.fenceBy k)) = [] := by
    rw [List.filterMap_eq_nil_iff]
    intro k hk
    rw [List.findSome?_eq_none_iff]
    intro e he
    have := hacc k hk e he
    cases e <;> first | rfl | exact Bool.noConfusion this
  unfold State.fences
  rw [hnone]
/-- The words of a chain of accesses act in slot order, and the queue shadows and the rejoin masks follow. -/
theorem effects_access : s.effects c t oks =
    ((c.outs.foldl (fun s w => s.performWord c.core c.grp c.pc w oks) (s.advanceLanes c t oks)).queueShadows c.core c.grp c.outs oks).joins c oks := by
  unfold State.effects
  dsimp only
  rw [returns_access hacc, leaves_access hacc, fences_access hacc]
/-- What a chain of accesses leaves as a trap of a lane outside it finds it. -/
theorem trapKept_effects {l : Nat} (hl : l ∉ oks) : TrapKept c.core c.grp l s (s.effects c t oks) := by
  have hne : ∀ k ∈ oks, k ≠ l := fun k hk e => hl (e ▸ hk)
  rw [effects_access hacc]
  refine TrapKept.updGroup (TrapKept.updGroup (TrapKept.foldl (TrapKept.foldl (TrapKept.refl ..) ?advance) ?words) ?shadows) ?joins
  case advance => exact fun u k hk hu => hu.updLane (hne k hk) _
  case words => exact fun u w hw hu => hu.performWord c.pc hl fun k hk e he => hacc k hk e (List.mem_flatMap.mpr ⟨w, hw, he⟩)
  case shadows =>
    intro x
    obtain ⟨q, hq⟩ := Group.queueShadows_same c.outs oks x
    show GroupKept l x (x.queueShadows c.outs oks)
    exact hq ▸ .of_lanes
  case joins =>
    intro x
    refine GroupKept.trans (.foldl (fun x k hk => .foldl (fun x e _ => ?_) x) x) (.release ..)
    unfold Group.joinBy
    split
    · split
      · exact .refl ..
      · exact .setLane (hne k hk) ..
    · exact .refl ..
/-- Its state is as its group was last set. -/
theorem setGroup_effects : (s.effects c t oks).setGroup c.core c.grp ((s.effects c t oks).group c.core c.grp) = s.effects c t oks := by
  rw [effects_access hacc]
  unfold State.joins State.updGroup
  rw [State.group_setGroup_same, setGroup_setGroup]
end
end Sys2Proof.LaneMemory
end

section
/-! PROOFS. Lane memory: a chain of accesses of which some lanes are astray, and the words of lane memory. -/
-- One declaration at a time: each thread that elaborates reserves a stack of 256 MiB of the check's memory.
set_option Elab.async false
open Sys2Proof Sys2Proof.Machine Sys2Proof.Safety Sys2Proof.Rules

namespace Sys2Proof.LaneMemory

/-! ### How a chain ends where lanes trap beside lanes that complete (R29) -/

section
variable {s : State} {c : Chain}

/-- Each lane ends as its words alone say: no conflict completes, there is room, and no lane loads a queue register. -/
theorem fates_beside (hf : ∀ l ∈ lanesOf c.lanes, plainFate (c.fate l) = true) (hspec : (s.group c.core c.grp).spec = none)
    (hmq : ∀ l ∈ lanesOf c.lanes, (c.fate l).isOk = true → ∀ e ∈ c.effs l, e.loadsMq = false)
    (hraces : s.races c ((lanesOf c.lanes).filter fun l => (c.fate l).isOk) = [])
    (hroom : s.hasRoom c ((lanesOf c.lanes).filter fun l => (c.fate l).isOk) = true) :
    s.fates c = (lanesOf c.lanes).map fun l => (l, c.fate l) := by
  have hoks := okLanes_fates (lanesOf c.lanes) c.fate
  have hloads : ((lanesOf c.lanes).filter fun l => (c.fate l).isOk).any (fun l => (c.effs l).any Eff.loadsMq) = false := by
    rw [List.any_eq_false]
    intro l hl
    obtain ⟨hl, hok⟩ := List.mem_filter.mp hl
    rw [Bool.not_eq_true, List.any_eq_false]
    intro e he
    rw [hmq l hl hok e he]
    exact Bool.false_ne_true
  have hstalls : ((lanesOf c.lanes).map fun l => (l, c.fate l)).any (fun p => p.2.stalls) = false := by
    rw [List.any_eq_false]
    intro p hp
    obtain ⟨l, hl, rfl⟩ := List.mem_map.mp hp
    have hplain := hf l hl
    dsimp only
    cases h : c.fate l <;> first | exact Bool.false_ne_true | (rw [h] at hplain; cases hplain)
  have hwords : s.wordFates c = (lanesOf c.lanes).map fun l => (l, c.fate l) := by
    unfold State.wordFates
    rw [hspec]; rfl
  have hconflicts : ((lanesOf c.lanes).map fun l => (l, c.fate l)).map (fun p => (p.1, conflictOr [] p.1 p.2)) =
      (lanesOf c.lanes).map fun l => (l, c.fate l) := List.map_id _
  unfold State.fates
  simp only [hwords, hoks, hraces, hconflicts, hspec, Option.isSome_none, Bool.false_eq_true, if_false, hloads, Bool.and_false, hroom, Bool.not_true,
    Chain.holdMq, Chain.waits, hstalls]

theorem unused_beside {fs : Tbl LaneOut} {o : Nat → LaneOut} (hlanes : lanesOf c.lanes ≠ []) (hf : ∀ l ∈ lanesOf c.lanes, plainFate (o l) = true)
    (hfs : fs = (lanesOf c.lanes).map fun l => (l, o l)) : c.unused fs = false := by
  obtain ⟨l, rest, hl⟩ := List.exists_cons_of_ne_nil hlanes
  have hplain := hf l (by rw [hl]; exact List.mem_cons_self ..)
  have hstall : (o l).stalls = false := by
    cases h : o l <;> first | rfl | (rw [h] at hplain; cases hplain)
  rw [hfs, hl, Chain.unused]
  simp [hstall]

/-- The lanes that trap enter the handler, on their group; without any, nothing happens. -/
theorem fail_beside {t : Nat} {o : Nat → LaneOut} (ls : List Nat) (hn : ls.Nodup) (ho : ∀ l ∈ ls, plainFate (o l) = true)
    (hset : s.setGroup c.core c.grp (s.group c.core c.grp) = s)
    (hl : ∀ l ∈ ls, (o l).isOk = false → (s.ctx (s.ctxOf c.core c.grp)).tvec ≠ 0 ∧ ((s.group c.core c.grp).lane l).h = false ∧
      ((s.group c.core c.grp).lane l).mode ≠ .exited) :
    ∃ G : Group, (s.group c.core c.grp).sameBut G ∧ s.fail c t (ls.map fun l => (l, o l)) = s.setGroup c.core c.grp G ∧
      ∀ k, G.lane k = if k ∈ ls then (match o k with
        | .trap w a => Lane.enterTrap { (s.group c.core c.grp).lane k with since := t } (s.ctx (s.ctxOf c.core c.grp)).tvec w a
            ((s.group c.core c.grp).lane k).pc c.first
        | _ => (s.group c.core c.grp).lane k) else (s.group c.core c.grp).lane k := by
  rw [fail_plain s t ls o ho]
  by_cases hv : (s.ctx (s.ctxOf c.core c.grp)).tvec = 0
  · have hok : ∀ l ∈ ls, (o l).isOk = true := fun l hm => by
      by_contra hno
      exact (hl l hm (Bool.eq_false_of_not_eq_true hno)).1 hv
    refine ⟨s.group c.core c.grp, rfl, ?_, fun k => ?_⟩
    · rw [hset]
      refine foldl_id _ _ _ fun l hm => ?_
      cases h : o l with
      | ok es => exact failLane_ok ..
      | _ => have := hok l hm; rw [h] at this; cases this
    · split
      · rename_i hk
        split
        · rename_i h; have := hok k hk; rw [h] at this; cases this
        · rfl
      · rfl
  · obtain ⟨G, hsame, hfold, hlane⟩ := failLanes_trap (s := s) (c := c) (t := t) hv ls o ho hn (s.group c.core c.grp) rfl fun l hm hno => (hl l hm hno).2
    rw [hset] at hfold
    exact ⟨G, hsame, hfold, hlane⟩
end

/-- A chain of accesses in its last word, where each lane completes or traps. -/
theorem endChain_beside {s : State} {oks : List Nat} (hoks : oks = (lanesOf s.chain.lanes).filter fun l => (s.chain.fate l).isOk)
    (hlanes : lanesOf s.chain.lanes ≠ []) (hf : ∀ l ∈ lanesOf s.chain.lanes, plainFate (s.chain.fate l) = true)
    (hspec : (s.group s.chain.core s.chain.grp).spec = none) (hacc : ∀ k ∈ oks, ∀ e ∈ s.chain.effs k, isAccess e = true)
    (hmq : ∀ k ∈ oks, ∀ e ∈ s.chain.effs k, e.loadsMq = false) (hraces : s.races s.chain oks = []) (hroom : s.hasRoom s.chain oks = true)
    (hl : ∀ l ∈ lanesOf s.chain.lanes, (s.chain.fate l).isOk = false → Handles s [l]) :
    ∃ G : Group, (groupIn s (s.effects s.chain (timeAfter s) oks)).sameBut G ∧
      s.endChain = { (s.effects s.chain (timeAfter s) oks).setGroup s.chain.core s.chain.grp G with chain := s.chain.finished, now := clockAfter s } ∧
      ∀ k, (∀ w a, k ∈ lanesOf s.chain.lanes → s.chain.fate k = .trap w a → G.lane k = entered s w a (s.clane k)) ∧
        (k ∉ lanesOf s.chain.lanes ∨ (s.chain.fate k).isOk = true → G.lane k = (groupIn s (s.effects s.chain (timeAfter s) oks)).lane k) := by
  have hfates := fates_beside hf hspec (fun l hm hok => hmq l (hoks ▸ List.mem_filter.mpr ⟨hm, hok⟩)) (hoks ▸ hraces) (hoks ▸ hroom)
  have hkept : ∀ l, (s.chain.fate l).isOk = false → TrapKept s.chain.core s.chain.grp l s (s.effects s.chain (timeAfter s) oks) := fun l hno =>
    trapKept_effects hacc fun hm => by rw [hoks] at hm; rw [(List.mem_filter.mp hm).2] at hno; cases hno
  have hset := setGroup_effects (s := s) (t := timeAfter s) hacc
  generalize hu : s.effects s.chain (timeAfter s) oks = u at hkept hset ⊢
  obtain ⟨G, hsame, hfail, hlane⟩ := fail_beside (s := u) (c := s.chain) (t := timeAfter s) (o := s.chain.fate) (lanesOf s.chain.lanes) (lanesOf_nodup _)
    hf hset fun l hm hno => by
      obtain ⟨hv, hh⟩ := hl l hm hno
      obtain ⟨hh, hmode⟩ := hh l (List.mem_singleton.mpr rfl)
      exact ⟨(hkept l hno).vector ▸ hv, (hkept l hno).group.2.h_eq.trans hh, (hkept l hno).group.2.mode_ne_exited hmode⟩
  refine ⟨G, hsame, ?_, fun k => ⟨fun w a hk hfate => ?_, fun hk => ?_⟩⟩
  · have htime : (if s.chain.broadcast = true then s.now + 1 else s.now) = timeAfter s := rfl
    have hclock : (if (!s.chain.broadcast && s.chain.later.isEmpty) = true then timeAfter s + 1 else timeAfter s) = clockAfter s := by
      unfold timeAfter clockAfter
      cases s.chain.broadcast <;> simp
    unfold State.endChain
    simp only [hfates, unused_beside hlanes hf rfl, okLanes_fates, ← hoks, Bool.not_false, Bool.and_true, Bool.false_eq_true, if_false, htime, hu,
      hfail, hclock]
  · have hno : (s.chain.fate k).isOk = false := by rw [hfate]; rfl
    rw [hlane k, if_pos hk, hfate]
    dsimp only
    rw [(hkept k hno).vector]
    exact (enterTrap_entered (s := s) _ w a).trans ((hkept k hno).group.2.entered_eq ..)
  · rw [hlane k]
    rcases hk with hk | hk
    · rw [if_neg hk]; rfl
    · split
      · split
        · rename_i h; rw [h] at hk; cases hk
        · rfl
      · rfl

/-! ### A word of which some lanes trap -/

section
variable {s : State} {i : Instr} {f : Form} {vs : Nat → List Nat} {es : Nat → List Eff} {cause : Cause} {a : Nat → Option DWord} {go : Body}

/-- How the word ends a lane. -/
def mixedOut (es : Nat → List Eff) (cause : Cause) (a : Nat → Option DWord) (l : Nat) : LaneOut :=
  match a l with
  | some x => .trap cause x
  | none => .ok (es l)
theorem mixedOut_some {l : Nat} {x : DWord} (h : a l = some x) : mixedOut es cause a l = .trap cause x := by simp only [mixedOut, h]
theorem mixedOut_none {l : Nat} (h : a l = none) : mixedOut es cause a l = .ok (es l) := by simp only [mixedOut, h]

theorem find_mixedWith (s : State) (i : Instr) (f : Form) (es : Nat → List Eff) (cause : Cause) (a : Nat → Option DWord) (l : Nat) :
    Tbl.find (mixedWith s i f es cause a).outs l = if l ∈ executing s i then some (mixedOut es cause a l) else none :=
  find_map_pair (executing s i) (mixedOut es cause a) l

theorem wordOut_mixed (R : Ready s i f vs) (H : Held s f) (hcause : cause ≠ .illegalOperand) (honce : performedOnce i = false)
    (hgo : go s (rowsOf s i vs) = (executing s i).map fun l => (l, mixedOut es cause a l)) :
    s.wordOut i f go = mixedWith s i f es cause a := by
  have hheld : s.held i f = false := by simp only [State.held, R.plain, Option.isSome_none, Bool.false_and]
  have hrows : s.wordRows i f = (executing s i).map fun l => (l, Except.ok (vs l)) := by
    unfold State.wordRows executing
    exact List.map_congr_left fun l hl => by rw [R.reads l hl]
  have hfinish : ∀ l, s.finish f (mixedOut es cause a l) = mixedOut es cause a l := by
    intro l
    cases h : a l with
    | some x =>
      rw [mixedOut_some h]
      unfold State.finish
      split
      · rename_i e; cases e; exact absurd rfl hcause
      · rename_i e; cases e
      · rfl
    | none =>
      rw [mixedOut_none h]
      exact finish_ok_of fun d c w b e hm => H _ e hm
  unfold State.wordOut
  simp only [hheld, hrows, badRows_ok, goodRows_ok, honce, Bool.false_eq_true, if_false, List.nil_append]
  unfold mixedWith wordWith
  simp only [honce, Bool.false_eq_true, if_false]
  congr 1
  show (go s (rowsOf s i vs)).map _ = _
  rw [hgo, List.map_map]
  exact List.map_congr_left fun l _ => by simp only [Function.comp, hfinish]; rfl

theorem failIn_mixedWith (l : Nat) : (mixedWith s i f es cause a).failIn l = if l ∈ executing s i then (a l).map (.trap cause) else none := by
  unfold WordOut.failIn
  rw [find_mixedWith]
  by_cases hl : l ∈ executing s i
  · cases h : a l with
    | some x => simp [hl, mixedOut_some h]
    | none => simp [hl, mixedOut_none h]
  · simp [hl]

theorem effsIn_mixedWith (l : Nat) : (mixedWith s i f es cause a).effsIn l = if l ∈ executing s i ∧ a l = none then es l else [] := by
  unfold WordOut.effsIn
  rw [find_mixedWith]
  by_cases hl : l ∈ executing s i
  · cases h : a l with
    | some x => simp [hl, mixedOut_some h]
    | none => simp [hl, mixedOut_none h]
  · simp [hl]

theorem fate_mixed (hq : Quiet s.chain) (l : Nat) : (s.addWord i f (mixedWith s i f es cause a)).chain.fate l =
    if l ∈ executing s i then (match a l with | some x => .trap cause x | none => .ok []) else .ok [] := by
  show ((s.chain.outs ++ [mixedWith s i f es cause a]).findSome? (·.failIn l)).getD (.ok []) = _
  rw [List.findSome?_append, List.findSome?_eq_none_iff.mpr fun w hw => quiet_fail hq hw l, Option.none_or, List.findSome?_cons, failIn_mixedWith]
  by_cases hl : l ∈ executing s i
  · cases h : a l <;> simp [hl]
  · simp [hl]

theorem effs_mixed (hq : Quiet s.chain) (l : Nat) : (s.addWord i f (mixedWith s i f es cause a)).chain.effs l =
    if l ∈ executing s i ∧ a l = none then es l else [] := by
  show (s.chain.outs ++ [mixedWith s i f es cause a]).flatMap (·.effsIn l) = _
  rw [List.flatMap_append, List.flatMap_eq_nil_iff.mpr fun w hw => quiet_effs hq hw l, List.nil_append, List.flatMap_singleton, effsIn_mixedWith]

theorem isSpawn_mixedWith (hacc : ∀ l ∈ executing s i, a l = none → ∀ e ∈ es l, isAccess e = true) : (mixedWith s i f es cause a).isSpawn = false := by
  unfold WordOut.isSpawn
  rw [List.any_eq_false]
  intro p hp
  obtain ⟨l, hl, rfl⟩ := List.mem_map.mp hp
  show ¬ (LaneOut.spawns (mixedOut es cause a l)).isSome = true
  cases h : a l with
  | some x => rw [mixedOut_some h]; exact Bool.false_ne_true
  | none =>
    have hnone : (es l).findSome? Eff.spawns = none := by
      rw [List.findSome?_eq_none_iff]
      intro e he
      have := hacc l hl h e he
      cases e <;> first | rfl | exact Bool.noConfusion this
    rw [mixedOut_none h, LaneOut.spawns, hnone]
    exact Bool.false_ne_true

/-- A chain of quiet words and this one stands settled. -/
theorem settledChain_mixed (hq : Quiet s.chain) (hacc : ∀ l ∈ executing s i, a l = none → ∀ e ∈ es l, isAccess e = true) :
    (s.addWord i f (mixedWith s i f es cause a)).settledChain = (s.addWord i f (mixedWith s i f es cause a)).chain := by
  refine if_pos (List.all_eq_true.mpr fun w hw => ?_)
  rcases List.mem_append.mp hw with hw | hw
  · rw [(hq w hw).2.1, quiet_isSpawn hq hw]; rfl
  · rw [List.mem_singleton.mp hw, isSpawn_mixedWith hacc]; rfl

/-- A word of accesses of which some lanes trap: those enter the handler, the others take their effects. -/
theorem trapsSome_word (R : Ready s i f vs) (H : Held s f) (hcause : cause ≠ .illegalOperand) (honce : performedOnce i = false)
    (hgo : go s (rowsOf s i vs) = (executing s i).map fun l => (l, mixedOut es cause a l))
    (hhandles : ∀ l ∈ executing s i, ∀ x, a l = some x → Handles s [l])
    (hacc : ∀ l ∈ executing s i, a l = none → ∀ e ∈ es l, isAccess e = true ∧ e.loadsMq = false)
    {ok : List Nat} (hok : ok = (lanesOf s.chain.lanes).filter fun l => !((executing s i).contains l && (a l).isSome))
    (hraces : (s.addWord i f (mixedWith s i f es cause a)).races (s.addWord i f (mixedWith s i f es cause a)).chain ok = [])
    (hroom : (s.addWord i f (mixedWith s i f es cause a)).hasRoom (s.addWord i f (mixedWith s i f es cause a)).chain ok = true) :
    ∃ t, s.word false i go = .next t ∧ TrappedSome s i cause a
      ((s.addWord i f (mixedWith s i f es cause a)).effects (s.addWord i f (mixedWith s i f es cause a)).chain (timeAfter s) ok) t := by
  generalize hs1 : s.addWord i f (mixedWith s i f es cause a) = s1 at hraces hroom ⊢
  have hfate : ∀ l, s1.chain.fate l = if l ∈ executing s i then (match a l with | some x => .trap cause x | none => .ok []) else .ok [] :=
    fun l => hs1 ▸ fate_mixed R.quiet l
  have heffs : ∀ l, s1.chain.effs l = if l ∈ executing s i ∧ a l = none then es l else [] := fun l => hs1 ▸ effs_mixed R.quiet l
  have hisOk : ∀ l, (s1.chain.fate l).isOk = !((executing s i).contains l && (a l).isSome) := by
    intro l
    rw [hfate]
    by_cases hl : l ∈ executing s i
    · cases h : a l <;> simp [hl, LaneOut.isOk]
    · simp [hl, LaneOut.isOk]
  have heffs_ok : ∀ k, ∀ e ∈ s1.chain.effs k, isAccess e = true ∧ e.loadsMq = false := by
    intro k e he
    rw [heffs] at he
    split at he
    · rename_i hk; exact hacc k hk.1 hk.2 e he
    · cases he
  have hoks : ok = (lanesOf s1.chain.lanes).filter fun l => (s1.chain.fate l).isOk := by
    rw [hok, ← hs1]
    exact List.filter_congr fun l _ => by rw [hs1, hisOk]
  obtain ⟨G, hsame, hend, hlane⟩ := endChain_beside (s := s1) hoks (by rw [← hs1]; exact R.lanes)
    (fun l _ => by rw [hfate]; split <;> [(split <;> rfl); rfl]) (by rw [← hs1]; exact R.plain) (fun k _ e he => (heffs_ok k e he).1)
    (fun k _ e he => (heffs_ok k e he).2) hraces hroom fun l _ hno => by
      rw [hisOk, Bool.not_eq_false', Bool.and_eq_true, List.contains_iff_mem] at hno
      obtain ⟨x, hx⟩ := Option.isSome_iff_exists.mp hno.2
      have := hhandles l hno.1 x hx
      rw [← hs1]; exact this
  refine ⟨s1.endChain, ?_, ?_⟩
  · unfold State.word
    rw [R.form]
    dsimp only
    rw [if_pos R.active]
    unfold State.runWord
    rw [R.checks]
    dsimp only
    rw [if_neg Bool.false_ne_true, wordOut_mixed R H hcause honce hgo, State.commit,
      settledChain_mixed R.quiet fun l hl hn e he => (hacc l hl hn e he).1, hs1]
  · have htime : timeAfter s1 = timeAfter s := by rw [← hs1]; rfl
    have hclock : clockAfter s1 = clockAfter s := by rw [← hs1]; rfl
    have hfinished : s1.chain.finished = s.chain.finished := by rw [← hs1]; rfl
    have hcore : s1.chain.core = s.chain.core := by rw [← hs1]; rfl
    have hgrp : s1.chain.grp = s.chain.grp := by rw [← hs1]; rfl
    have hlanes : s1.chain.lanes = s.chain.lanes := by rw [← hs1]; rfl
    rw [htime] at hsame hend hlane
    generalize s1.effects s1.chain (timeAfter s) ok = u at hsame hend hlane ⊢
    rw [hclock, hfinished, hcore, hgrp] at hend
    have hin : ∀ z, groupIn s1 z = groupIn s z := fun z => by unfold groupIn; rw [hcore, hgrp]
    have hG : groupIn s s1.endChain = G := by rw [hend]; exact State.group_setGroup_same ..
    rw [hin] at hsame
    constructor
    case whole => rw [hG]; exact hend
    case group =>
      rw [hG]
      unfold Group.sameBut at hsame
      rw [hsame]
    case traps =>
      intro l hl x hx
      have henter := (hlane l).1 cause x (by rw [hlanes]; exact executing_sub s i hl) (by rw [hfate, if_pos hl, hx])
      rw [hG, henter, ← hs1]; rfl
    case rest =>
      intro l hl hrest
      rw [hG, (hlane l).2 (.inr ?_), hin]
      rw [hisOk]
      rcases hrest with h | h
      · simp [h]
      · simp [h]
    case others =>
      intro l hl
      rw [hG, (hlane l).2 (.inl (by rw [hlanes]; exact hl)), hin]
      exact .inl rfl
end

/-- A word of each lane by itself whose lanes are accesses or astray. -/
theorem trapsSome_each {i : Instr} {cause : Cause} {bad : State → Rows → Nat → List Nat → DWord → Prop}
    {good : State → Rows → Nat → List Nat → List Eff → Prop} {b : State → Nat → List Nat → LaneOut}
    (hx : ∀ s, exec i s = s.word false i (bodyEach b)) (hcause : cause ≠ .illegalOperand) (honce : performedOnce i = false)
    (hbad : ∀ {s f vs l x}, Ready s i f vs → l ∈ executing s i → bad s (rowsOf s i vs) l (vs l) x → b s l (vs l) = .trap cause x)
    (hgood : ∀ {s f vs l es}, Ready s i f vs → l ∈ executing s i → good s (rowsOf s i vs) l (vs l) es →
      b s l (vs l) = .ok es ∧ ∀ e ∈ es, isAccess e = true) : TrapsSome i cause bad good := by
  intro s f vs es a R H hlanes s1 ok hraces hroom
  have hout : ∀ l ∈ executing s i, b s l (vs l) = mixedOut es cause a l ∧ (∀ x, a l = some x → Handles s [l]) ∧
      (a l = none → ∀ e ∈ es l, isAccess e = true ∧ e.loadsMq = false) := by
    intro l hl
    have hcase := hlanes l hl
    cases ha : a l with
    | some x =>
      rw [ha] at hcase
      exact ⟨(hbad R hl hcase.1).trans (mixedOut_some ha).symm, fun _ _ => hcase.2, fun h => nomatch h⟩
    | none =>
      rw [ha] at hcase
      obtain ⟨hok, hacc⟩ := hgood R hl hcase.1
      exact ⟨hok.trans (mixedOut_none ha).symm, fun _ h => (nomatch h), fun _ e he => ⟨hacc e he, hcase.2 e he⟩⟩
  rw [hx]
  refine trapsSome_word (ok := ok) R H hcause honce ?_ (fun l hl => (hout l hl).2.1) (fun l hl => (hout l hl).2.2) rfl hraces hroom
  show (rowsOf s i vs).map (fun p => (p.1, b s p.1 p.2)) = _
  rw [rowsOf, List.map_map]
  exact List.map_congr_left fun l hl => by simp only [Function.comp, (hout l hl).1]

/-! ### Loads, stores and atomics astray -/

theorem isAccess_touches {s : State} {core grp : Nat} {store : Bool} {locs : List Loc} {e : Eff} (h : e ∈ s.touches core grp store locs) :
    isAccess e = true := by
  obtain ⟨loc, -, rfl⟩ := List.mem_map.mp h
  rfl
/-- What a word's conflict detection sees, its synchronisation and its access. -/
theorem isAccess_of_mem {s : State} {core grp : Nat} {store sync : Bool} {locs : List Loc} {x e : Eff} (hx : isAccess x = true)
    (h : e ∈ s.touches core grp store locs ++ (if sync then [.sync] else []) ++ [x]) : isAccess e = true := by
  rcases List.mem_append.mp h with h | h
  · rcases List.mem_append.mp h with h | h
    · exact isAccess_touches h
    · cases sync with
      | true => rw [List.mem_singleton.mp h]; rfl
      | false => cases h
  · rw [List.mem_singleton.mp h]; exact hx

section
variable {z : State} {rows : Rows} {l : Nat} {v : List Nat} {es : List Eff}
theorem loads_access {scr : Bool} {size : Nat} {sign acq nc : Bool} {d : Dst} {off : BitVec 10} (h : loads scr size sign acq nc d off z l v es) :
    ∀ e ∈ es, isAccess e = true := by
  obtain ⟨ea, loc, -, rfl⟩ := h
  exact fun e => isAccess_of_mem rfl
theorem stores_access {scr : Bool} {size : Nat} {rel : Bool} {off : BitVec 10} (h : stores scr size rel off z l v es) :
    ∀ e ∈ es, isAccess e = true := by
  obtain ⟨ea, loc, -, -, -, rfl⟩ := h
  exact fun e => isAccess_of_mem rfl
theorem atomics_access {d : Option Dst} {op : AtomOp} (h : atomics d op z l v es) : ∀ e ∈ es, isAccess e = true := by
  obtain ⟨-, pa, key, apt, dev, leaf, big, entry, -, -, -, rfl⟩ := h
  exact fun e => isAccess_of_mem rfl
theorem scratchAtomics_access {d : Option Dst} {op : AtomOp} (h : scratchAtomics d op z l v es) : ∀ e ∈ es, isAccess e = true := by
  obtain ⟨-, loc, -, rfl⟩ := h
  exact fun e => isAccess_of_mem rfl
theorem blockLoads_access {scr : Bool} {d : Dst} {f : EFmt} {off : BitVec 7} (h : blockLoads scr d f off z rows l v es) :
    ∀ e ∈ es, isAccess e = true := by
  obtain ⟨locs, ea, -, rfl⟩ := h
  exact fun e he => isAccess_of_mem (sync := false) rfl (by rwa [if_neg Bool.false_ne_true, List.append_nil])
theorem blockStores_access {scr : Bool} {c : Src} {f : EFmt} {off : BitVec 7} (h : blockStores scr c f off z rows l v es) :
    ∀ e ∈ es, isAccess e = true := by
  obtain ⟨locs, ea, -, -, rfl⟩ := h
  exact fun e he => isAccess_of_mem (sync := false) rfl (by rwa [if_neg Bool.false_ne_true, List.append_nil])
end

/-- A word whose lanes are each astray or make their access. -/
theorem misses_each {i : Instr} {bad : State → Nat → List Nat → DWord → Prop} {good : State → Nat → List Nat → List Eff → Prop}
    {b : State → Nat → List Nat → LaneOut} (hx : ∀ s, exec i s = s.word false i (bodyEach b)) (honce : performedOnce i = false)
    (hbad : ∀ {z l v x}, bad z l v x → b z l v = .trap .misaligned x) (hgood : ∀ {z l v e}, good z l v e → b z l v = .ok e)
    (hacc : ∀ {z l v es}, good z l v es → ∀ e ∈ es, isAccess e = true) : misses i bad good :=
  ⟨traps_each (fun _ _ _ _ h => hbad h) (fun h => nomatch h) hx honce,
    trapsSome_each (b := b) hx (fun h => nomatch h) honce (fun _ _ h => hbad h) fun _ _ h => ⟨hgood h, hacc h⟩⟩

theorem misses_load {i : Instr} {scr : Bool} {size : Nat} {sign acq nc : Bool} {d : Dst} {off : BitVec 10}
    (hx : ∀ s, exec i s = s.word false i (loadBody scr size sign acq nc d off)) (honce : performedOnce i = false) :
    misses i (strays scr size off) (loads scr size sign acq nc d off) := misses_each hx honce loadOut_stray loadOut_ok loads_access
theorem misses_store {i : Instr} {scr : Bool} {size : Nat} {rel : Bool} {off : BitVec 10}
    (hx : ∀ s, exec i s = s.word false i (storeBody scr size rel off)) (honce : performedOnce i = false) :
    misses i (strays scr size off) (stores scr size rel off) := misses_each hx honce storeOut_stray storeOut_ok stores_access
theorem misses_atom {i : Instr} {d : Option Dst} {op : AtomOp}
    (hx : ∀ s, exec i s = s.word false i (bodyEach fun z l v => z.planAtom z.cc z.cg l d op (arg v 0) (arg v 1)))
    (honce : performedOnce i = false) : misses i (strayAtomic false d op.size) (atomics d op) :=
  misses_each hx honce planAtom_stray planAtom_ok atomics_access
theorem misses_atomS {i : Instr} {d : Option Dst} {op : AtomOp}
    (hx : ∀ s, exec i s = s.word false i (bodyEach fun z l v => z.planAtomS z.cc z.cg l d op false (arg v 0) (arg v 1)))
    (honce : performedOnce i = false) : misses i (strayAtomic true d op.size) (scratchAtomics d op) :=
  misses_each hx honce planAtomS_stray (planAtomS_ok rfl) scratchAtomics_access
theorem trapsSome_blockLoad {i : Instr} {scr : Bool} {d : Dst} {f : EFmt} {off : BitVec 7}
    (hx : ∀ s, exec i s = s.word false i (loadBlkBody i scr d f off)) (hsel : isSel i = false) (honce : performedOnce i = false) :
    TrapsSome i .misaligned (strayBlock scr off) (blockLoads scr d f off) :=
  trapsSome_each hx (by decide) honce (fun R hl h => blockLoadOut_stray R hsel hl h) fun R hl h => ⟨blockLoadOut_ok R hsel hl h, blockLoads_access h⟩
theorem trapsSome_blockStore {i : Instr} {scr : Bool} {c : Src} {f : EFmt} {off : BitVec 7}
    (hx : ∀ s, exec i s = s.word false i (storeBlkBody i scr c f off)) (hsel : isSel i = false) (honce : performedOnce i = false) :
    TrapsSome i .misaligned (strayBlock scr off) (blockStores scr c f off) :=
  trapsSome_each hx (by decide) honce (fun R hl h => blockStoreOut_stray R hsel hl h) fun R hl h => ⟨blockStoreOut_ok R hsel hl h, blockStores_access h⟩

/-! ### The words -/

/-- Settles O50, by what a stray and an aligned address give in a lane and how a chain of both ends. -/
theorem misalignedAccesses : Obligations.MisalignedAccesses := by
  intro d c a b off op fo f o7
  refine ⟨misses_load (fun _ => rfl) rfl, misses_load (fun _ => rfl) rfl, misses_load (fun _ => rfl) rfl, misses_load (fun _ => rfl) rfl, misses_load (fun _ => rfl) rfl,
    misses_load (fun _ => rfl) rfl, misses_load (fun _ => rfl) rfl, misses_load (fun _ => rfl) rfl, misses_load (fun _ => rfl) rfl, misses_load (fun _ => rfl) rfl,
    misses_load (fun _ => rfl) rfl, misses_store (fun _ => rfl) rfl, misses_store (fun _ => rfl) rfl, misses_store (fun _ => rfl) rfl, misses_store (fun _ => rfl) rfl,
    misses_store (fun _ => rfl) rfl, misses_store (fun _ => rfl) rfl, misses_store (fun _ => rfl) rfl, misses_store (fun _ => rfl) rfl, misses_store (fun _ => rfl) rfl,
    misses_store (fun _ => rfl) rfl,
    misses_atom (op := .int 32 op) (fun _ => rfl) rfl, misses_atom (op := .int 64 op) (fun _ => rfl) rfl,
    misses_atom (op := .int 32 op) (fun _ => rfl) rfl, misses_atom (op := .int 64 op) (fun _ => rfl) rfl,
    misses_atom (op := .cas 32) (fun _ => rfl) rfl, misses_atom (op := .cas 64) (fun _ => rfl) rfl, misses_atom (op := .cas2) (fun _ => rfl) rfl,
    misses_atom (op := .flt fo) (fun _ => rfl) rfl, misses_atom (op := .flt fo) (fun _ => rfl) rfl,
    misses_atomS (op := .int 32 op) (fun _ => rfl) rfl, misses_atomS (op := .int 32 op) (fun _ => rfl) rfl, misses_atomS (op := .cas 32) (fun _ => rfl) rfl,
    fun hfo => misses_atomS (op := .flt fo) (fun s => ?float) rfl,
    trapsSome_blockLoad (fun _ => rfl) rfl rfl, trapsSome_blockLoad (fun _ => rfl) rfl rfl, trapsSome_blockStore (fun _ => rfl) rfl rfl, trapsSome_blockStore (fun _ => rfl) rfl rfl⟩
  case float =>
    have hcell : (fo == .maxAbs) = false := beq_false_of_ne hfo
    refine Eq.trans (b := s.word false (.atomfs false d a b fo) (bodyEach fun z l v =>
      z.planAtomS z.cc z.cg l (some d) (.flt fo) (fo == .maxAbs) (arg v 0) (arg v 1))) rfl ?_
    rw [hcell]

/-- Settles O29, by what a load and a block load do in a lane. -/
theorem loads : Obligations.Loads := fun _ _ _ _ _ =>
  ⟨performs_load fun _ => rfl, performs_load fun _ => rfl, performs_load fun _ => rfl, performs_load fun _ => rfl, performs_load fun _ => rfl,
    performs_load fun _ => rfl, performs_load fun _ => rfl, performs_load fun _ => rfl, performs_load fun _ => rfl, performs_load fun _ => rfl,
    performs_load fun _ => rfl, performs_load fun _ => rfl, performs_load fun _ => rfl, performs_blockLoad rfl fun _ => rfl,
    performs_blockLoad rfl fun _ => rfl⟩

/-- Settles O30, by what a store and a block store do in a lane. -/
theorem stores : Obligations.Stores := fun _ _ _ _ _ =>
  ⟨performs_store fun _ => rfl, performs_store fun _ => rfl, performs_store fun _ => rfl, performs_store fun _ => rfl, performs_store fun _ => rfl,
    performs_store fun _ => rfl, performs_store fun _ => rfl, performs_store fun _ => rfl, performs_store fun _ => rfl, performs_store fun _ => rfl,
    performs_store fun _ => rfl, performs_blockStore rfl fun _ => rfl, performs_blockStore rfl fun _ => rfl⟩
/-- Settles O31, by what a global and a scratch atomic plan in a lane. -/
theorem atomics : Obligations.Atomics := by
  intro d a b op fo
  refine ⟨performs_atom fun _ => rfl, performs_atom fun _ => rfl, performs_atom fun _ => rfl, performs_atom fun _ => rfl,
    performs_atom fun _ => rfl, performs_atom fun _ => rfl, performs_atom fun _ => rfl, performs_atom fun _ => rfl, performs_atom fun _ => rfl,
    performs_peer fun _ => rfl, performs_peer fun _ => rfl, performs_peer fun _ => rfl, performs_atomS fun _ => rfl, performs_atomS fun _ => rfl,
    performs_atomS fun _ => rfl, fun hfo => ?float, ?cell, ?reset⟩
  case float =>
    refine performs_each (fun _ => rfl) fun z l v e h => planAtomS_ok ?_ h
    rw [beq_false_of_ne hfo, Bool.false_and]
  case cell =>
    refine performs_each (fun _ => rfl) fun z l v e h => ?_
    split at h
    · obtain ⟨hsettled, k, hk, haddr, rfl⟩ := h
      exact planAtomS_cell hsettled hk haddr
    · rename_i hbit
      exact planAtomS_ok (by rw [bitAt, Bool.eq_false_of_not_eq_true hbit, Bool.and_false]) h
  case reset =>
    refine performs_each (fun _ => rfl) fun z l v e h => ?_
    obtain ⟨hk, hsettled, rfl⟩ := h
    have hready : z.releaseReady z.cc z.cg l = true := hsettled rfl
    rw [if_neg (Nat.not_le.mpr hk), if_pos hready]
end Sys2Proof.LaneMemory
end

section
/-! PROOFS. Parallel execution: when a rejoin mask releases the lanes joined on it, and when it holds them. -/
open Sys2Proof Sys2Proof.Machine

namespace Sys2Proof.ParallelExecution

/-! ### What the release condition of one mask looks at, and what its release does (R153) -/

/-- The group lists lane `l` as joined on mask `j`. -/
def JoinedAt (g : Group) (j l : Nat) : Prop := ∃ x, (l, x) ∈ g.lanes ∧ x.mode = .joined j
/-- The release condition: every lane of mask `j` is joined on it. -/
def Complete (g : Group) (j : Nat) : Prop := ∀ l ∈ lanesOf (Tbl.get g.j j 0), JoinedAt g j l
/-- A lane once mask `j` has released: ready where it was joined on it. -/
def woken (j : Nat) (x : Lane) : Lane := if x.mode == .joined j then { x with mode := .ready } else x

theorem woken_joined {j : Nat} {x : Lane} (h : x.mode = .joined j) : woken j x = { x with mode := .ready } := if_pos (beq_iff_eq.mpr h)
theorem woken_unjoined {j : Nat} {x : Lane} (h : x.mode ≠ .joined j) : woken j x = x := if_neg fun e => h (beq_iff_eq.mp e)

/-- The lane numbers that `Group.release1` collects are those of the lanes joined on the mask. -/
theorem mem_joinedOn (g : Group) (j l : Nat) :
    l ∈ (g.lanes.filter fun (_, x) => x.mode == .joined j).map (·.1) ↔ JoinedAt g j l := by
  simp [JoinedAt]

theorem lane_mapLanes_woken (g : Group) (j l : Nat) : (g.mapLanes fun _ => woken j).lane l = woken j (g.lane l) :=
  Group.lane_mapLanes g _ l rfl

theorem mapLanes_woken_of_no_joined {g : Group} {j : Nat} (h : ∀ l, ¬ JoinedAt g j l) : (g.mapLanes fun _ => woken j) = g := by
  have hsame : ∀ p ∈ g.lanes, (p.1, woken j p.2) = p := fun p hp => by
    rw [woken_unjoined fun hmode => h p.1 ⟨p.2, hp, hmode⟩]
  have hlanes : Tbl.mapV g.lanes (fun _ => woken j) = g.lanes := (List.map_congr_left hsame).trans (List.map_id _)
  rw [Group.mapLanes, hlanes]

/-! ### The three cases of `Group.release1` -/

theorem release1_of_complete {g : Group} {j : Nat} (hm : Tbl.get g.j j 0 ≠ 0) (h : Complete g j) :
    g.release1 j = { g.mapLanes fun _ => woken j with j := Tbl.del g.j j } := by
  refine if_pos (Bool.and_eq_true_iff.mpr ⟨decide_eq_true hm, List.all_eq_true.mpr fun l hl => ?_⟩)
  exact List.contains_iff_mem.mpr ((mem_joinedOn g j l).mpr (h l hl))

theorem release1_of_empty {g : Group} {j : Nat} (hm : Tbl.get g.j j 0 = 0) : g.release1 j = g.mapLanes fun _ => woken j := by
  unfold Group.release1
  rw [if_neg fun hfull => absurd hm (of_decide_eq_true (Bool.and_eq_true_iff.mp hfull).1)]
  split
  case isTrue => rfl
  case isFalse hnone =>
    refine (mapLanes_woken_of_no_joined fun l ⟨x, hx, hmode⟩ => hnone ?_).symm
    exact Bool.and_eq_true_iff.mpr ⟨decide_eq_true hm, by simpa using ⟨l, x, hx, hmode⟩⟩

theorem release1_of_incomplete {g : Group} {j : Nat} (h : ¬ Complete g j) : g.release1 j = g := by
  have hm : Tbl.get g.j j 0 ≠ 0 := fun hm => h fun l hl => by
    rw [hm] at hl
    simp [lanesOf] at hl
  unfold Group.release1
  rw [if_neg, if_neg fun hempty => hm (of_decide_eq_true (Bool.and_eq_true_iff.mp hempty).1)]
  intro hfull
  refine h fun l hl => (mem_joinedOn g j l).mp (List.contains_iff_mem.mp ?_)
  exact List.all_eq_true.mp (Bool.and_eq_true_iff.mp hfull).2 l hl

/-- What a complete mask leaves: itself empty, and its joined lanes ready. -/
theorem release1_releases {g : Group} {j : Nat} (h : Complete g j) :
    Tbl.get (g.release1 j).j j 0 = 0 ∧ ∀ l, (g.release1 j).lane l = woken j (g.lane l) := by
  by_cases hm : Tbl.get g.j j 0 = 0
  · rw [release1_of_empty hm]
    exact ⟨hm, lane_mapLanes_woken g j⟩
  · rw [release1_of_complete hm h]
    exact ⟨by rw [Tbl.get_del, if_pos rfl], lane_mapLanes_woken g j⟩

/-! ### What the other masks leave of mask `j` -/

/-- A lane that waits at no mask but `j`. -/
def OnlyJoins (j : Nat) (x : Lane) : Prop := ∀ k, x.mode = .joined k → k = j

/-- From `g` to `h` mask `j` is the same, so are the lanes joined on it, and so is every lane that no other mask holds. -/
structure MaskKept (j : Nat) (g h : Group) : Prop where
  mask : Tbl.get h.j j 0 = Tbl.get g.j j 0
  joined : ∀ l, JoinedAt h j l ↔ JoinedAt g j l
  lane : ∀ l, OnlyJoins j (g.lane l) → h.lane l = g.lane l

theorem MaskKept.refl (j : Nat) (g : Group) : MaskKept j g g := ⟨rfl, fun _ => .rfl, fun _ _ => rfl⟩
theorem MaskKept.trans {j : Nat} {a b c : Group} (h : MaskKept j a b) (k : MaskKept j b c) : MaskKept j a c where
  mask := k.mask.trans h.mask
  joined l := (k.joined l).trans (h.joined l)
  lane l hl := by
    have hab := h.lane l hl
    exact (k.lane l (hab ▸ hl)).trans hab
theorem MaskKept.complete_iff {j : Nat} {g h : Group} (k : MaskKept j g h) : Complete h j ↔ Complete g j := by
  simp only [Complete, k.mask, k.joined]

theorem woken_mode_eq_joined_iff {j k : Nat} (hk : k ≠ j) (x : Lane) : (woken k x).mode = .joined j ↔ x.mode = .joined j := by
  by_cases h : x.mode = .joined k
  · simp [woken_joined h, h, hk]
  · rw [woken_unjoined h]

/-- Waking the lanes of another mask. -/
theorem MaskKept.mapLanes_woken {j k : Nat} (hk : k ≠ j) (g : Group) : MaskKept j g (g.mapLanes fun _ => woken k) where
  mask := rfl
  joined l := by
    have hmem : ∀ x, (l, x) ∈ (g.mapLanes fun _ => woken k).lanes ↔ ∃ y, (l, y) ∈ g.lanes ∧ woken k y = x := fun x => by
      simp [Group.mapLanes, Tbl.mapV]
    constructor
    · rintro ⟨x, hx, hmode⟩
      obtain ⟨y, hy, rfl⟩ := (hmem x).mp hx
      exact ⟨y, hy, (woken_mode_eq_joined_iff hk y).mp hmode⟩
    · rintro ⟨y, hy, hmode⟩
      exact ⟨woken k y, (hmem _).mpr ⟨y, hy, rfl⟩, (woken_mode_eq_joined_iff hk y).mpr hmode⟩
  lane l hl := by rw [lane_mapLanes_woken, woken_unjoined fun hmode => hk (hl k hmode)]

theorem MaskKept.release1 {j k : Nat} (hk : k ≠ j) (g : Group) : MaskKept j g (g.release1 k) := by
  have hwoken := MaskKept.mapLanes_woken hk g
  by_cases hc : Complete g k
  · by_cases hm : Tbl.get g.j k 0 = 0
    · rw [release1_of_empty hm]
      exact hwoken
    · rw [release1_of_complete hm hc]
      exact { hwoken with mask := by rw [Tbl.get_del, if_neg hk] }
  · rw [release1_of_incomplete hc]
    exact .refl j g

theorem MaskKept.foldl_release1 {j : Nat} {ks : List Nat} (hks : j ∉ ks) (g : Group) : MaskKept j g (ks.foldl Group.release1 g) := by
  induction ks generalizing g with
  | nil => exact .refl j g
  | cons k ks ih =>
    obtain ⟨hk, hks⟩ := not_or.mp (mt List.mem_cons.mpr hks)
    exact (MaskKept.release1 (Ne.symm hk) g).trans (ih hks _)

/-- A release is the step of mask `j` between steps that leave mask `j` as it is. -/
theorem release_around {j : Nat} (hj : j < 8) (g : Group) : ∃ g', MaskKept j g g' ∧ MaskKept j (g'.release1 j) g.release := by
  obtain ⟨before, after, hsplit⟩ := List.append_of_mem (List.mem_range.mpr hj)
  have hnodup := List.nodup_range (n := 8)
  rw [hsplit, List.nodup_middle, List.nodup_cons, List.mem_append, not_or] at hnodup
  obtain ⟨⟨hbefore, hafter⟩, -⟩ := hnodup
  refine ⟨before.foldl Group.release1 g, .foldl_release1 hbefore g, ?_⟩
  rw [Group.release, hsplit, List.foldl_append, List.foldl_cons]
  exact .foldl_release1 hafter _

theorem onlyJoins_of_joined {j : Nat} {x : Lane} (h : x.mode = .joined j) : OnlyJoins j x := fun k hk => by
  rw [h] at hk
  cases hk
  rfl

/-! ### The release of a group -/

theorem release_of_complete {g : Group} {j : Nat} (hj : j < 8) (h : Complete g j) :
    Tbl.get g.release.j j 0 = 0 ∧ ∀ l, (g.lane l).mode = .joined j → g.release.lane l = { g.lane l with mode := .ready } := by
  obtain ⟨g', hbefore, hafter⟩ := release_around hj g
  obtain ⟨hmask, hlane⟩ := release1_releases (hbefore.complete_iff.mpr h)
  refine ⟨hafter.mask.trans hmask, fun l hl => ?_⟩
  have hready : (g'.release1 j).lane l = { g.lane l with mode := .ready } := by
    rw [hlane, hbefore.lane l (onlyJoins_of_joined hl), woken_joined hl]
  rw [hafter.lane l (by rw [hready]; exact fun k hk => nomatch hk), hready]

theorem release_of_incomplete {g : Group} {j : Nat} (hj : j < 8) (h : ¬ Complete g j) : MaskKept j g g.release := by
  obtain ⟨g', hbefore, hafter⟩ := release_around hj g
  rw [release1_of_incomplete fun hc => h (hbefore.complete_iff.mp hc)] at hafter
  exact hbefore.trans hafter

/-- Settles O27: only the step of mask `j` itself touches what its release condition looks at. -/
theorem rejoinRelease : Obligations.RejoinRelease := by
  intro g j hj
  refine ⟨release_of_complete hj, fun ⟨l, hl, hnot⟩ => ?_⟩
  have hincomplete : ¬ Complete g j := fun hc => by
    obtain ⟨x, hx, hmode⟩ := hc l hl
    exact hnot x hx hmode
  have hkept := release_of_incomplete hj hincomplete
  exact ⟨hkept.mask, fun k hk => hkept.lane k (onlyJoins_of_joined hk)⟩

end Sys2Proof.ParallelExecution
end

section
/-! PROOFS. Cross-lane words (R164 to R170): the operands of the executing lanes as the model's row of 32 lanes, the slides, and the shuffles, votes,
reductions, scans and matches. -/
open Sys2Proof Sys2Proof.Machine Sys2Proof.Safety Sys2Proof.Rules

namespace Sys2Proof.CrossLane

/-! ### The operands of the executing lanes (R164, R165) -/

/-- One entry for each lane of a set, in ascending order: what a cross-lane word is given (`laneRows_executing`). -/
structure LaneRows (rows : Rows) : Prop where
  ascending : rows.Pairwise fun x y => x.1 < y.1
  small : ∀ x ∈ rows, x.1 < 32

theorem executing_ascending (s : State) (i : Instr) : (executing s i).Pairwise (· < ·) :=
  ((List.pairwise_lt_range.filter _).filter _).filter _

theorem executing_lt {s : State} {i : Instr} {l : ℕ} (h : l ∈ executing s i) : l < 32 :=
  List.mem_range.mp (List.mem_filter.mp (executing_sub s i h)).1

theorem laneRows_executing (s : State) (i : Instr) (vs : ℕ → List ℕ) : LaneRows (rowsOf s i vs) where
  ascending := List.pairwise_map.mpr (executing_ascending s i)
  small x hx := by
    obtain ⟨l, hl, rfl⟩ := List.mem_map.mp hx
    exact executing_lt hl

theorem mem_rowsOf {s : State} {i : Instr} {vs : ℕ → List ℕ} {l : ℕ} (h : l ∈ executing s i) : (l, vs l) ∈ rowsOf s i vs :=
  List.mem_map.mpr ⟨l, h, rfl⟩

/-- A word whose lanes read each other's operands gives every result that the model's equals on the operands of ascending lanes. -/
theorem givesAcross_of_result {i : Instr} {d : Dst} {n : ℕ} {m r : State → Rows → ℕ → List ℕ → Res}
    (hexec : ∀ s, exec i s = s.word false i (bodyRow fun z rows l v => .res d n (m z rows l v))) (hd : formDst i = some d)
    (h : ∀ z {rows l v}, LaneRows rows → (l, v) ∈ rows → m z rows l v = r z rows l v) : GivesAcross i d n r plain :=
  gives_row hexec hd fun s vs _ hl => congrArg (LaneOut.res d n) (h s (laneRows_executing s i vs) (mem_rowsOf hl))

theorem across_of_result {i : Instr} {d : Dst} {m r : Rows → ℕ → List ℕ → ℕ}
    (hexec : ∀ s, exec i s = s.word false i (bodyRow fun _ rows l v => .res d 32 (.of (m rows l v)))) (hd : formDst i = some d)
    (h : ∀ {rows l v}, LaneRows rows → (l, v) ∈ rows → m rows l v = r rows l v) : across i d r :=
  givesAcross_of_result hexec hd fun _ _ _ _ hrows hv => congrArg Res.of (h hrows hv)

/-! ### The row of 32 lanes -/

theorem operandRow_eq (rows : Rows) (k : ℕ) : operandRow rows k = (List.range 32).map (present rows k) :=
  List.map_congr_left fun m hm => by rw [present, if_pos (List.mem_range.mp hm)]

theorem join_operandRow (rows : Rows) (k m : ℕ) : ((operandRow rows k)[m]?).join = present rows k m := by
  rw [operandRow_eq, List.getElem?_map]
  by_cases hm : m < 32
  · rw [List.getElem?_range hm]; rfl
  · rw [List.getElem?_eq_none (by simpa using hm), present, if_neg hm]; rfl

theorem of_eq (rows : Rows) (k m : ℕ) : of rows k m = (present rows k m).getD 0 := by
  unfold of present
  split <;> rfl

@[simp] theorem e_operandRow (rows : Rows) (k m : ℕ) : (operandRow rows k).e m = of rows k m := by
  rw [Row.e, join_operandRow, of_eq]

@[simp] theorem half_operandRow (rows : Rows) (k e : ℕ) : (operandRow rows k).half e = half rows k e := by
  have hwidth : 16 * (e % 2) + 15 + 1 - 16 * (e % 2) = 16 := by omega
  rw [Row.half, e_operandRow, FloatingPointAndPacked.bits_eq, hwidth, half]

/-- The entry of a lane that is in ascending rows. -/
theorem find_of_mem {rows : Rows} (hrows : LaneRows rows) {x : ℕ × List ℕ} (hx : x ∈ rows) : rows.find? (·.1 == x.1) = some x := by
  obtain ⟨hascending, -⟩ := hrows
  induction rows with
  | nil => cases hx
  | cons y rows ih =>
    obtain ⟨hy, hrest⟩ := List.pairwise_cons.mp hascending
    rcases List.mem_cons.mp hx with rfl | hx
    · rw [List.find?_cons, beq_self_eq_true]
    · rw [List.find?_cons, beq_false_of_ne (hy x hx).ne, ih hx hrest]

theorem present_of_mem {rows : Rows} (hrows : LaneRows rows) {l : ℕ} {v : List ℕ} (h : (l, v) ∈ rows) (k : ℕ) :
    present rows k l = some (arg v k) := by
  rw [present, if_pos (hrows.small _ h), find_of_mem hrows h]; rfl

theorem of_of_mem {rows : Rows} (hrows : LaneRows rows) {l : ℕ} {v : List ℕ} (h : (l, v) ∈ rows) (k : ℕ) : of rows k l = arg v k := by
  rw [of_eq, present_of_mem hrows h, Option.getD_some]

/-- In ascending rows, the entries below a lane's successor are those below the lane and the lane's own. -/
theorem filter_lt_succ {rows : Rows} (h : rows.Pairwise fun x y => x.1 < y.1) (m : ℕ) :
    rows.filter (·.1 < m + 1) = rows.filter (·.1 < m) ++ (rows.find? (·.1 == m)).toList := by
  induction rows with
  | nil => rfl
  | cons x rows ih =>
    obtain ⟨hx, hrest⟩ := List.pairwise_cons.mp h
    rw [List.filter_cons, List.filter_cons, List.find?_cons, ih hrest]
    rcases Nat.lt_trichotomy x.1 m with hlt | rfl | hgt
    · have hle : x.1 < m + 1 := by omega
      simp [hlt, beq_false_of_ne hlt.ne, hle]
    · have hlow : rows.filter (·.1 < x.1) = [] := List.filter_eq_nil_iff.mpr fun y hy => by simpa using (hx y hy).le
      have hnone : rows.find? (·.1 == x.1) = none := List.find?_eq_none.mpr fun y hy => by simpa using (hx y hy).ne'
      simp [hlow, hnone]
    · have hge : ¬ x.1 < m + 1 := by omega
      simp [hgt.not_gt, beq_false_of_ne hgt.ne', hge]

/-- The operands present below a lane are those of the rows below it, in their order. -/
theorem filterMap_present {rows : Rows} (hrows : LaneRows rows) (k : ℕ) {n : ℕ} (hn : n ≤ 32) :
    (List.range n).filterMap (present rows k) = (rows.filter (·.1 < n)).map fun x => arg x.2 k := by
  induction n with
  | zero => simp
  | succ m ih =>
    have hm : present rows k m = (rows.find? (·.1 == m)).map fun x => arg x.2 k := by rw [present, if_pos (by omega)]
    rw [List.range_succ, List.filterMap_append, ih (by omega), filter_lt_succ hrows.ascending, List.map_append, List.filterMap_cons, hm]
    cases rows.find? (·.1 == m) <;> rfl

theorem filterMap_operandRow {rows : Rows} (hrows : LaneRows rows) (k : ℕ) :
    (operandRow rows k).filterMap id = rows.map fun x => arg x.2 k := by
  have hall : rows.filter (·.1 < 32) = rows := List.filter_eq_self.mpr fun x hx => decide_eq_true (hrows.small x hx)
  rw [operandRow_eq, List.filterMap_map, ← congrArg (List.map fun x => arg x.2 k) hall]
  exact filterMap_present hrows k le_rfl

/-! ### Slides (R168) -/

/-- Settles O18: in each lane, by whether the slide reads another lane of its row or fills. -/
theorem slides : Obligations.Slides := by
  intro d a b fill n wide
  refine ⟨givesAcross_of_result (fun _ => rfl) rfl fun _ {rows l v} hrows hv => ?up,
    givesAcross_of_result (fun _ => rfl) rfl fun _ {rows l v} hrows hv => ?down,
    givesAcross_of_result (fun _ => rfl) rfl fun _ {rows l v} hrows hv => ?half⟩
  case up =>
    unfold slideLane
    dsimp only
    rcases Nat.eq_zero_or_pos l with rfl | hl
    · cases fill <;> simp [wide, Res.of]
    · cases fill <;> simp [wide, Res.of, hl, hl.ne', Nat.shiftLeft_eq]
  case down =>
    unfold slideLane
    dsimp only
    have hlt : l < 32 := hrows.small _ hv
    rcases (Nat.le_of_lt_succ hlt).eq_or_lt with rfl | hl
    · cases fill <;> simp [wide, Res.of]
    · cases fill <;> simp [wide, Res.of, hl, hl.ne, Nat.shiftLeft_eq]
  case half =>
    unfold slideH
    dsimp only
    rcases Nat.eq_zero_or_pos l with rfl | hl
    · cases fill <;> simp [wide, Res.of, Nat.shiftLeft_eq]
    · have hl' : 1 ≤ 2 * l := by omega
      cases fill <;> simp [wide, Res.of, hl.ne', hl', Nat.shiftLeft_eq]

/-! ### Masks (R169) -/

theorem foldl_mask (p : ℕ → Bool) (f : ℕ → Option ℕ) (ms : List ℕ) (acc : ℕ) :
    (ms.map fun m => (f m, m)).foldl (fun acc (x, m) => match x with
      | some v => if p v then acc + 2 ^ m else acc
      | none => acc) acc = acc + (ms.map fun m => if (f m).any p then 2 ^ m else 0).sum := by
  induction ms generalizing acc with
  | nil => rfl
  | cons m ms ih =>
    rw [List.map_cons, List.foldl_cons, ih, List.map_cons, List.sum_cons]
    cases f m with
    | none => simp
    | some v => cases h : p v <;> simp [h, Nat.add_assoc]

theorem mask_operandRow (rows : Rows) (p : ℕ → Bool) : (operandRow rows 0).mask p = maskOf rows p := by
  have hplaces : (operandRow rows 0).zipIdx = (List.range 32).map fun m => (present rows 0 m, m) := by
    rw [operandRow_eq]
    apply List.ext_getElem <;> simp
  rw [Row.mask, hplaces, maskOf, ← Nat.zero_add (List.sum _)]
  exact foldl_mask p (present rows 0) (List.range 32) 0

/-! ### Votes (R169) -/

theorem vote_any {rows : Rows} (hrows : LaneRows rows) :
    voteOp .any (operandRow rows 0) = if rows.any fun r => arg r.2 0 != 0 then 1 else 0 := by
  simp only [voteOp, filterMap_operandRow hrows, List.any_map, bit01]; rfl

theorem vote_all {rows : Rows} (hrows : LaneRows rows) :
    voteOp .all (operandRow rows 0) = if rows.all fun r => arg r.2 0 != 0 then 1 else 0 := by
  simp only [voteOp, filterMap_operandRow hrows, List.all_map, bit01]; rfl

/-- All values of a list equal its first exactly where all equal any one of them. -/
theorem all_eq_head {vs : List ℕ} {v : ℕ} (hv : v ∈ vs) : (vs.all fun x => x == vs.headD 0) = vs.all fun x => x == v := by
  cases vs with
  | nil => cases hv
  | cons y ys =>
    rw [Bool.eq_iff_iff, List.all_eq_true, List.all_eq_true]
    simp only [beq_iff_eq, List.headD_cons]
    exact ⟨fun h x hx => (h x hx).trans (h v hv).symm, fun h x hx => (h x hx).trans (h y List.mem_cons_self).symm⟩

theorem vote_uniform {rows : Rows} (hrows : LaneRows rows) {l : ℕ} {v : List ℕ} (hv : (l, v) ∈ rows) :
    voteOp .uniform (operandRow rows 0) = if rows.all fun r => arg r.2 0 == arg v 0 then 1 else 0 := by
  have hmem : arg v 0 ∈ rows.map fun x => arg x.2 0 := List.mem_map.mpr ⟨_, hv, rfl⟩
  simp only [voteOp, filterMap_operandRow hrows, all_eq_head hmem, List.all_map, bit01]; rfl

/-! ### The lowest executing lane (R169) -/

theorem e_lead (r : Row) : r.e r.lead = ((r.filterMap id).head?).getD 0 := by
  induction r with
  | nil => rfl
  | cons x r ih =>
    cases x with
    | some v => rfl
    | none =>
      rw [List.filterMap_cons_none rfl, ← ih]
      simp only [Row.e, Row.lead, List.findIdx?_cons, Option.isSome_none, Bool.false_eq_true, if_false]
      cases hr : r.findIdx? (·.isSome) with
      | some j => rfl
      | none =>
        have hnone : ∀ x ∈ r, x = none := by simpa using List.findIdx?_eq_none_iff.mp hr
        cases r with
        | nil => rfl
        | cons y r => rw [hnone y List.mem_cons_self]; rfl

theorem of_lead {rows : Rows} (hrows : LaneRows rows) (k : ℕ) :
    of rows k (operandRow rows k).lead = (rows.head?.map fun r => arg r.2 k).getD 0 := by
  rw [← e_operandRow, e_lead, filterMap_operandRow hrows, List.head?_map]

/-! ### Reductions (R170) -/

section
variable (o : RedOp)

@[simp] theorem opt_none_left (x : Option ℕ) : o.opt none x = x := by cases x <;> rfl
@[simp] theorem opt_none_right (x : Option ℕ) : o.opt x none = x := by cases x <;> rfl

/-- Neighbours combine within two parts of a row, where the first is of even length. -/
theorem pairUp_append (n : ℕ) (r r' : Row) (h : r.length = 2 * n) : pairUp o (r ++ r') = pairUp o r ++ pairUp o r' ∧ (pairUp o r).length = n := by
  induction n generalizing r with
  | zero => rw [List.length_eq_zero_iff.mp h]; exact ⟨rfl, rfl⟩
  | succ n ih =>
    match r, h with
    | x :: y :: r, h =>
      obtain ⟨happend, hlength⟩ := ih r (by simp only [List.length_cons] at h; omega)
      simp only [List.cons_append, pairUp, happend, List.length_cons, hlength, and_self]

/-- The tree over a row is the trees over its halves, combined. -/
theorem tree_append (k : ℕ) (r r' : Row) (h : r.length = 2 ^ k) (h' : r'.length = 2 ^ k) :
    tree o (k + 1) (r ++ r') = o.opt (tree o k r) (tree o k r') := by
  induction k generalizing r r' with
  | zero =>
    obtain ⟨x, rfl⟩ := List.length_eq_one_iff.mp h
    obtain ⟨y, rfl⟩ := List.length_eq_one_iff.mp h'
    rfl
  | succ k ih =>
    obtain ⟨happend, hlength⟩ := pairUp_append o (2 ^ k) r r' (by omega)
    obtain ⟨-, hlength'⟩ := pairUp_append o (2 ^ k) r' [] (by omega)
    rw [tree, happend, ih _ _ hlength hlength', tree, tree]

theorem tree_map_range' (v : ℕ → Option ℕ) (k p : ℕ) : tree o k ((List.range' p (2 ^ k)).map v) = treeAt o v k p := by
  induction k generalizing p with
  | zero => rfl
  | succ k ih =>
    have hsplit : List.range' p (2 ^ (k + 1)) = List.range' p (2 ^ k) ++ List.range' (p + 2 ^ k) (2 ^ k) := by
      rw [List.range'_append_1, ← Nat.two_mul, ← Nat.pow_succ']
    rw [hsplit, List.map_append, tree_append o k _ _ (by simp) (by simp), ih, ih, treeAt]

theorem gred_eq (rows : Rows) : gred o (operandRow rows 0) = (treeAt o (present rows 0) 5 0).getD 0 := by
  rw [gred, operandRow_eq, List.range_eq_range', ← tree_map_range']; rfl

theorem qred_eq (rows : Rows) {l : ℕ} (hl : l < 32) :
    qred o (operandRow rows 0) l = (treeAt o (present rows 0) 3 (8 * (l / 8))).getD 0 := by
  have hquarter : ((List.range 32).drop (8 * quarterOf l)).take 8 = List.range' (8 * (l / 8)) (2 ^ 3) := by
    refine List.ext_getElem ?_ fun _ _ _ => ?_ <;> simp [quarterOf]; omega
  rw [qred, operandRow_eq, ← List.map_drop, ← List.map_take, hquarter, tree_map_range']

/-- Absent entries leave a fold of combinations as it is. -/
theorem foldl_opt (r : Row) (acc : Option ℕ) :
    r.foldl (fun acc x => o.opt acc x) acc = (r.filterMap id).foldl (fun acc v => o.opt acc (some v)) acc := by
  induction r generalizing acc with
  | nil => rfl
  | cons x r ih => cases x <;> simp [ih]

theorem gscan_eq {rows : Rows} (hrows : LaneRows rows) {l : ℕ} (hl : l < 32) : gscan o (operandRow rows 0) l =
    ((rows.filter (·.1 ≤ l)).foldl (fun acc r => o.opt acc (some (arg r.2 0))) none).getD 0 := by
  have hbelow : (rows.filter (·.1 ≤ l)) = rows.filter (·.1 < l + 1) := by simp only [Nat.lt_succ_iff]
  have hlanes : (operandRow rows 0).take (l + 1) = (List.range (l + 1)).map (present rows 0) := by
    rw [operandRow_eq, ← List.map_take, List.take_range, Nat.min_eq_left (by omega)]
  rw [gscan, hlanes, foldl_opt, List.filterMap_map, Function.id_comp, filterMap_present hrows 0 hl, List.foldl_map, hbelow]

end

/-- Settles O19: each word by its value on the operands of the executing lanes. -/
theorem shufflesAndReductions : Obligations.ShufflesAndReductions := by
  intro d a b o
  refine ⟨across_of_result (fun _ => rfl) rfl fun {rows l v} hrows hv => e_operandRow rows 0 _,
    across_of_result (fun _ => rfl) rfl fun {rows l v} hrows hv => e_operandRow rows 0 _,
    across_of_result (fun _ => rfl) rfl fun {rows l v} hrows hv => ?bcast,
    across_of_result (fun _ => rfl) rfl fun {rows l v} hrows hv => vote_any hrows,
    across_of_result (fun _ => rfl) rfl fun {rows l v} hrows hv => vote_all hrows,
    across_of_result (fun _ => rfl) rfl fun {rows l v} hrows hv => mask_operandRow rows (· != 0),
    across_of_result (fun _ => rfl) rfl fun {rows l v} hrows hv => vote_uniform hrows hv,
    across_of_result (fun _ => rfl) rfl fun {rows l v} hrows hv => gred_eq o rows,
    across_of_result (fun _ => rfl) rfl fun {rows l v} hrows hv => qred_eq o rows (hrows.small _ hv),
    across_of_result (fun _ => rfl) rfl fun {rows l v} hrows hv => gscan_eq o hrows (hrows.small _ hv),
    across_of_result (fun _ => rfl) rfl fun {rows l v} hrows hv => ?xmatch⟩
  case bcast => rw [e_operandRow, e_operandRow, of_lead hrows]
  case xmatch => rw [matchOp, mask_operandRow, e_operandRow, of_of_mem hrows hv]

end Sys2Proof.CrossLane
end

section
/-! PROOFS. Exact values at a lower exponent, and block scales (R70, R173): what rounding gives does not depend on the exponent an exact value
is held at, so BF16 elements round as the FP32 codes they begin. -/
open Sys2Proof Sys2Proof.Machine Sys2Proof.Rules Sys2Proof.ExactValues Sys2Proof.FormatCodes

namespace Sys2Proof.BlockOperations

/-! ### The binade of a value, by its bounds -/

theorem log2_eq_of_bounds {d : Dy} (h : d.mag ≠ 0) {n : ℤ} (hlo : (2 : ℝ) ^ n ≤ |real d|) (hhi : |real d| < 2 ^ (n + 1)) : d.log2 = n := by
  have hle : d.log2 < n + 1 := (zpow_lt_zpow_iff_right₀ one_lt_two).mp ((le_abs_real h).trans_lt hhi)
  have hge : n < d.log2 + 1 := (zpow_lt_zpow_iff_right₀ one_lt_two).mp (hlo.trans_lt (abs_real_lt d))
  omega

theorem log2_of_div_eq_one {m k : ℕ} (h : m / 2 ^ k = 1) : Nat.log2 m = k := by
  have hpos := Nat.two_pow_pos k
  have hsplit := Nat.div_add_mod m (2 ^ k)
  have hmod := Nat.mod_lt m hpos
  rw [h] at hsplit
  exact (Nat.log2_eq_iff (by omega)).mpr ⟨by omega, by rw [pow_succ]; omega⟩

/-! ### Block scales (R70, R173) -/

theorem scaleOf_eq (f : EFmt) {d : Dy} (h : d.mag ≠ 0) (pol : ℕ) : (scaleOf f d pol).1 =
    (max 0 (min (d.log2 + (if pol = 1 ∧ d.isPow2 = false then 1 else 0) - f.emax + 127) 254)).toNat := by
  rw [← FloatingPointAndPacked.satI_eq_clamp _ (by norm_num)]
  simp only [scaleOf, if_neg h]
  by_cases hpol : pol = 1
  · cases hpow : d.isPow2 <;> simp [hpol]
  · simp [hpol]

theorem isPow2_iff {d : Dy} {k : ℕ} (hexact : d.sticky = false) (hlog : Nat.log2 d.mag = k) : d.isPow2 = true ↔ d.mag = 2 ^ k := by
  have hpos := Nat.two_pow_pos k
  simp only [Dy.isPow2, hexact, hlog, Bool.not_false, Bool.and_true, Bool.and_eq_true, bne_iff_ne, beq_iff_eq]
  omega

/-- The code that `bscale` gives a number whose magnitude has its leading bit at `k`. -/
theorem bscaleLane_number (f : EFmt) (pol : ℕ) {a k : ℕ} {d : Dy} (hd : f32.decode (a % 2 ^ 31) = .fin d) (hk : d.mag / 2 ^ k = 1) :
    (bscaleLane f pol a).v =
      (max 0 (min ((k : ℤ) + d.exp + (if pol = 1 ∧ d.mag ≠ 2 ^ k then 1 else 0) - f.emax + 127) 254)).toNat := by
  have hmag : d.mag ≠ 0 := fun h0 => by rw [h0, Nat.zero_div] at hk; exact absurd hk (by decide)
  have hlog := log2_of_div_eq_one hk
  have hpow : d.isPow2 = false ↔ d.mag ≠ 2 ^ k := by
    rw [← Bool.not_eq_true, isPow2_iff (decode_fin_bounds (by decide) hd).1 hlog]
  simp only [bscaleLane, hd, if_neg hmag, Res.of, scaleOf_eq f hmag, Dy.log2, hlog, hpow]

theorem bscaleLane_zero (f : EFmt) (pol : ℕ) {a : ℕ} (h : a % 2 ^ 31 = 0) : (bscaleLane f pol a).v = 0 := by
  rw [bscaleLane, h]; rfl

theorem decode_magnitude (a : ℕ) : f32.decode (a % 2 ^ 31) =
    if a % 2 ^ 31 < 0x7F800000 then .fin ⟨bitAt (a % 2 ^ 31) 31, magOf 23 (a % 2 ^ 31), expOf 23 (-149) (a % 2 ^ 31), false⟩
    else if a % 2 ^ 31 = 0x7F800000 then .inf (bitAt (a % 2 ^ 31) 31) else .nan := by
  have hmod : a % 2 ^ 31 % f32.signBit = a % 2 ^ 31 := Nat.mod_mod _ _
  rw [decode_eq (by decide), hmod]
  rfl

theorem bscaleLane_special (f : EFmt) (pol : ℕ) {a : ℕ} (h : 0x7F800000 ≤ a % 2 ^ 31) : (bscaleLane f pol a).v = 0xFF := by
  have hspecial : ∀ d, f32.decode (a % 2 ^ 31) ≠ .fin d := fun d => by
    rw [decode_magnitude, if_neg (not_lt.mpr h)]
    split <;> exact nofun
  rw [bscaleLane]
  split
  case _ d hd => exact absurd hd (hspecial d)
  case _ => rfl

/-- Settles O21: the operand's class gives the value, and a number's leading bit its logarithm. -/
theorem blockScales : Obligations.BlockScales := by
  intro f pol a _ _
  refine ⟨bscaleLane_special f pol, bscaleLane_zero f pol, fun hnormal hfinite => ?normal, fun k hk hlead => ?subnormal⟩
  case normal =>
    intro e up
    have hmod : a % 2 ^ 31 % 2 ^ 23 = a % 2 ^ 23 := Nat.mod_mod_of_dvd _ (by decide)
    have hexp : a % 2 ^ 31 / 2 ^ 23 ≠ 0 := by omega
    have hd := decode_magnitude a
    rw [if_pos hfinite, magOf, if_neg hexp, hmod] at hd
    have hlead : (2 ^ 23 + a % 2 ^ 23) / 2 ^ 23 = 1 := by omega
    rw [bscaleLane_number f pol hd hlead]
    have hlog : ((23 : ℕ) : ℤ) + expOf 23 (-149) (a % 2 ^ 31) = e := by unfold expOf; omega
    have hup : (if pol = 1 ∧ 2 ^ 23 + a % 2 ^ 23 ≠ 2 ^ 23 then (1 : ℤ) else 0) = up := by simp [up]
    simp only [hlog, hup]
  case subnormal =>
    intro up
    have hsmall : a % 2 ^ 31 < 2 ^ 23 := by
      have hlt : a % 2 ^ 31 < 2 * 2 ^ k := (Nat.div_lt_iff_lt_mul (Nat.two_pow_pos k)).mp (by omega)
      have hpow : 2 ^ k ≤ 2 ^ 22 := Nat.pow_le_pow_right two_pos (by omega)
      omega
    have hexp : a % 2 ^ 31 / 2 ^ 23 = 0 := Nat.div_eq_of_lt hsmall
    have hd := decode_magnitude a
    rw [if_pos (hsmall.trans (by norm_num)), magOf, if_pos hexp, Nat.mod_eq_of_lt hsmall, expOf, hexp] at hd
    rw [bscaleLane_number f pol hd hlead]
    have hlog : (k : ℤ) + (-149 + ((0 - 1 : ℕ) : ℤ)) = k - 149 := by omega
    simp only [hlog, up]

/-! ### The same value at a lower exponent -/

/-- A value with its magnitude at an exponent `j` lower. -/
def refined (j : ℕ) (d : Dy) : Dy := { d with mag := d.mag * 2 ^ j, exp := d.exp - j }
/-- The same for any value of a format. -/
def refinedVal (j : ℕ) : Val → Val
  | .fin d => .fin (refined j d)
  | v => v
/-- Whether a value is exact, where it is finite. -/
def Exact (v : Val) : Prop := ∀ d, v = .fin d → d.sticky = false

section
variable {d : Dy} (j : ℕ)

@[simp] theorem refined_neg : (refined j d).neg = d.neg := rfl

@[simp] theorem real_refined : real (refined j d) = real d := by
  have h := mag_mul_shift d.mag (d.exp - j) j
  rw [sub_add_cancel] at h
  rw [real_def, real_def, mul_assoc, mul_assoc, h]
  rfl

theorem refined_mag_eq_zero_iff : (refined j d).mag = 0 ↔ d.mag = 0 := by
  rw [← real_eq_zero_iff, real_refined, real_eq_zero_iff]

theorem refined_log2 (h : d.mag ≠ 0) : (refined j d).log2 = d.log2 :=
  log2_eq_of_bounds (mt (refined_mag_eq_zero_iff j).mp h) ((le_abs_real h).trans_eq (by rw [real_refined]))
    ((real_refined (d := d) j).symm ▸ abs_real_lt d)

theorem awayFromZero_refined (k r : ℕ) (mode : RMode) :
    NumberFormats.awayFromZero (refined j d) (k + j) r mode = NumberFormats.awayFromZero d k r mode := by
  have hpos := Nat.two_pow_pos j
  have hdiv : d.mag * 2 ^ j / 2 ^ (k + j) = d.mag / 2 ^ k := by rw [pow_add, Nat.mul_div_mul_right _ _ hpos]
  have hmod : d.mag * 2 ^ j % 2 ^ (k + j) = d.mag % 2 ^ k * 2 ^ j := by rw [pow_add, Nat.mul_mod_mul_right]
  have hlt : 2 ^ (k + j) < 2 * (d.mag % 2 ^ k * 2 ^ j) ↔ 2 ^ k < 2 * (d.mag % 2 ^ k) := by
    rw [pow_add, ← mul_assoc, Nat.mul_lt_mul_right hpos]
  have heq : 2 * (d.mag % 2 ^ k * 2 ^ j) = 2 ^ (k + j) ↔ 2 * (d.mag % 2 ^ k) = 2 ^ k := by
    rw [pow_add, ← mul_assoc, Nat.mul_left_inj hpos.ne']
  have hne : (d.mag % 2 ^ k * 2 ^ j != 0) = (d.mag % 2 ^ k != 0) := by
    rw [Bool.eq_iff_iff, bne_iff_ne, bne_iff_ne, Nat.mul_ne_zero_iff, and_iff_left hpos.ne']
  have hsr : d.mag % 2 ^ k * 2 ^ j * 2 ^ 32 / 2 ^ (k + j) = d.mag % 2 ^ k * 2 ^ 32 / 2 ^ k := by
    rw [mul_right_comm, pow_add, Nat.mul_div_mul_right _ _ hpos]
  cases mode
  case rne => simp only [NumberFormats.awayFromZero, refined, hdiv, hmod, hlt, heq]
  case rtz => rfl
  case rdn => simp only [NumberFormats.awayFromZero, refined, hmod, hne]
  case rup => simp only [NumberFormats.awayFromZero, refined, hmod, hne]
  case sr => simp only [NumberFormats.awayFromZero, refined, hmod, hne, hsr]

theorem roundAt_refined (hexact : d.sticky = false) (u : ℤ) (mode : RMode) (r : ℕ) : roundAt (refined j d) u mode r = roundAt d u mode r := by
  rcases le_or_gt u d.exp with hle | hlt
  · have hfine := roundAt_of_onGrid (d := refined j d) hexact (by rw [real_refined]; exact (onGrid_real d).mono hle) mode r
    rw [real_refined, ← roundAt_below d hle mode r] at hfine
    exact_mod_cast mul_right_cancel₀ (two_zpow_pos u).ne' hfine
  · obtain ⟨k, hk, rfl⟩ := exists_shift hlt
    have hunit : d.exp + k = (refined j d).exp + ((k + j : ℕ) : ℤ) := by simp only [refined]; omega
    rw [NumberFormats.roundAt_above d hk, hunit, NumberFormats.roundAt_above (refined j d) (by omega), awayFromZero_refined]
    congr 1
    simp only [refined, pow_add]
    exact Nat.mul_div_mul_right _ _ (Nat.two_pow_pos j)

theorem roundCode_refined (hexact : d.sticky = false) (mb : ℕ) (q : ℤ) (mode : RMode) (r : ℕ) :
    roundCode mb q (refined j d) mode r = roundCode mb q d mode r := by
  by_cases h : d.mag = 0
  · rw [roundCode_of_zero h, roundCode_of_zero ((refined_mag_eq_zero_iff j).mpr h)]
  · rw [roundCode_eq h, roundCode_eq (mt (refined_mag_eq_zero_iff j).mp h), roundAt_refined j hexact]
    simp only [unitAt, refined_log2 j h]

theorem encFin_refined (hexact : d.sticky = false) (f : EFmt) (mode : RMode) (r : ℕ) : encFin f (refined j d) mode r = encFin f d mode r := by
  cases f <;> simp only [encFin, roundAt_refined j hexact, roundCode_refined j hexact, refined_neg]

theorem scale_refined (n : ℤ) : (refined j d).scale n = refined j (d.scale n) := by
  simp only [Dy.scale, refined, Dy.mk.injEq, true_and, and_true]; omega

theorem enc_scale_refinedVal {v : Val} (hexact : Exact v) (f : EFmt) (n : ℤ) (mode : RMode) (r : ℕ) :
    enc f ((refinedVal j v).scale n) mode r = enc f (v.scale n) mode r := by
  cases v with
  | nan => rfl
  | inf s => rfl
  | fin d =>
    show encFin f ((refined j d).scale n) mode r = encFin f (d.scale n) mode r
    rw [scale_refined]
    exact encFin_refined j (d := d.scale n) (hexact d rfl) f mode r

theorem round_refinedVal {v : Val} (hexact : Exact v) (f : FFmt) (mode : RMode) (r : ℕ) :
    f.round (refinedVal j v) mode r = f.round v mode r := by
  cases v with
  | nan => rfl
  | inf s => rfl
  | fin d => rw [refinedVal, round_fin, round_fin, roundCode_refined j (hexact d rfl), refined_neg]

theorem refinedVal_fin_iff {v : Val} : (∃ d, refinedVal j v = .fin d) ↔ ∃ d, v = .fin d := by
  cases v <;> simp [refinedVal]

end

@[simp] theorem refinedVal_zero (v : Val) : refinedVal 0 v = v := by
  cases v with
  | nan => rfl
  | inf s => rfl
  | fin d => simp [refinedVal, refined]

theorem exact_decode {f : FFmt} (h : 2 ≤ f.ebits) (x : ℕ) : Exact (f.decode x) := fun _ hd => (decode_fin_bounds h hd).1

/-! ### BF16 codes as FP32 codes (R53) -/

/-- A BF16 code with sixteen zeros behind it is the FP32 code of the same value. -/
theorem decode_bf16 (c : ℕ) : f32.decode (c * 2 ^ 16) = refinedVal 16 (bf16.decode c) := by
  have hmod : c * 2 ^ 16 % f32.signBit = c % bf16.signBit * 2 ^ 16 := Nat.mul_mod_mul_right (2 ^ 16) c bf16.signBit
  have hbit : bitAt (c * 2 ^ 16) (f32.ebits + f32.mbits) = bitAt c (bf16.ebits + bf16.mbits) := by
    rw [bitAt, Nat.testBit_mul_two_pow]; rfl
  have hinf : f32.infCode = bf16.infCode * 2 ^ 16 := by decide
  rw [decode_eq (by decide), decode_eq (by decide), hmod, hbit, hinf]
  generalize c % bf16.signBit = m
  have hdiv : m * 2 ^ 16 / 2 ^ 23 = m / 2 ^ 7 := Nat.mul_div_mul_right m (2 ^ 7) (Nat.two_pow_pos 16)
  have hrem : m * 2 ^ 16 % 2 ^ 23 = m % 2 ^ 7 * 2 ^ 16 := Nat.mul_mod_mul_right (2 ^ 16) m (2 ^ 7)
  have hmag : magOf f32.mbits (m * 2 ^ 16) = magOf bf16.mbits m * 2 ^ 16 := by
    show magOf 23 _ = magOf 7 m * 2 ^ 16
    rw [magOf, magOf, hdiv, hrem]
    split <;> omega
  have hexp : expOf f32.mbits f32.qmin (m * 2 ^ 16) = expOf bf16.mbits bf16.qmin m - (16 : ℕ) := by
    show -149 + ((m * 2 ^ 16 / 2 ^ 23 - 1 : ℕ) : ℤ) = -133 + ((m / 2 ^ 7 - 1 : ℕ) : ℤ) - (16 : ℕ)
    rw [hdiv]; omega
  have hlt : m * 2 ^ 16 < bf16.infCode * 2 ^ 16 ↔ m < bf16.infCode := Nat.mul_lt_mul_right (Nat.two_pow_pos 16)
  have heq : m * 2 ^ 16 = bf16.infCode * 2 ^ 16 ↔ m = bf16.infCode := Nat.mul_left_inj (Nat.two_pow_pos 16).ne'
  simp only [hlt, heq, hmag, hexp]
  split_ifs <;> rfl

/-- The value of a code, rounded to its own format, is the code (R66). -/
theorem round_decode {f : FFmt} (h : 2 ≤ f.ebits) {x : ℕ} (hw : x < 2 ^ f.width) (hx : x % f.signBit ≤ f.infCode) (mode : RMode) (r : ℕ) :
    f.round (f.decode x) mode r = x := by
  rw [FloatingPointAndPacked.code_split hw]
  generalize decide (f.signBit ≤ x) = neg
  rcases hx.lt_or_eq with hlt | heq
  · generalize x % f.signBit = c at hlt
    have hd := decode_code h neg hlt
    obtain ⟨hreal, -⟩ := codeReal_roundCode_of_holds rfl (holds_of_decode h hd) mode r
    rw [abs_real] at hreal
    have hcode := (codeReal_strictMono f.mbits f.qmin).injective hreal
    rw [hd, round_fin, hcode, if_pos hlt]
  · rw [heq, decode_infinity h]
    rfl

end Sys2Proof.BlockOperations
end

section
/-! PROOFS. Block words (R171 to R176): the codes and elements of a lane, the members, scales and shadows of a block, and the words' results
in each lane. -/
open Sys2Proof Sys2Proof.Machine Sys2Proof.Safety Sys2Proof.Rules Sys2Proof.ExactValues Sys2Proof.FormatCodes Sys2Proof.CrossLane

namespace Sys2Proof.BlockOperations

/-! ### Elements of a lane (R60, R171) -/

theorem codeAt_eq_codeOf (f : EFmt) (x k : ℕ) : codeAt f x k = codeOf f x k := by
  have hnarrow : 4 * k + 3 + 1 - 4 * k = 4 := by omega
  have hwide : 8 * k + 7 + 1 - 8 * k = 8 := by omega
  cases f
  case e2m1 =>
    simp only [codeAt, codeOf, if_true, FloatingPointAndPacked.bits_eq, hnarrow]
    exact (Nat.mod_mod _ _).symm
  all_goals
    simp only [codeAt, reduceCtorEq, if_false, trunc, FloatingPointAndPacked.bits_eq, hwide]
    rfl

theorem realBits_le (f : EFmt) : realBits f ≤ 32 := by cases f <;> decide

theorem realFmt_width (f : EFmt) : (realFmt f).width = realBits f := by cases f <;> rfl

theorem realFmt_ebits (f : EFmt) : 2 ≤ (realFmt f).ebits := by cases f <;> decide

theorem realFmt_mbits (f : EFmt) : 1 ≤ (realFmt f).mbits := by cases f <;> decide

theorem realCode_eq (f : EFmt) (x k : ℕ) : realCode f x k = x / 2 ^ (realBits f * k) % 2 ^ realBits f := by
  have hnarrow : 16 * k + 15 + 1 - 16 * k = 16 := by omega
  have hwide : 32 * k + 31 + 1 - 32 * k = 32 := by omega
  simp only [realCode, realBits, FloatingPointAndPacked.bits_eq, hnarrow, hwide]
  split <;> rfl

theorem realOf_eq (f : EFmt) (x k : ℕ) : realOf f x k = realCode f x k * 2 ^ (32 - realBits f) := by rw [realCode_eq, realOf]

theorem realOf_lt (f : EFmt) (x k : ℕ) : realOf f x k < 2 ^ f32.width := by
  have hsplit : 2 ^ f32.width = 2 ^ realBits f * 2 ^ (32 - realBits f) := by
    rw [← pow_add, Nat.add_sub_of_le (realBits_le f)]; rfl
  rw [hsplit]
  exact Nat.mul_lt_mul_of_pos_right (Nat.mod_lt _ (Nat.two_pow_pos _)) (Nat.two_pow_pos _)

/-- An element and its FP32 code have one value, at exponents apart by the fraction bits that BF16 leaves out. -/
theorem decode_realOf (f : EFmt) (x k : ℕ) : ∃ j, f32.decode (realOf f x k) = refinedVal j (realVal f x k) := by
  rw [realOf_eq, realVal]
  by_cases hf : f = .e2m1
  · subst hf
    exact ⟨16, decode_bf16 _⟩
  · refine ⟨0, ?_⟩
    simp only [realBits, realFmt, if_neg hf, Nat.sub_self, pow_zero, Nat.mul_one, refinedVal_zero]

theorem exact_realVal (f : EFmt) (x k : ℕ) : Exact (realVal f x k) := exact_decode (realFmt_ebits f) _

theorem decode_fin_iff {f : FFmt} (h : 2 ≤ f.ebits) (x : ℕ) : (∃ d, f.decode x = .fin d) ↔ x % f.signBit < f.infCode := by
  rw [decode_eq h]
  split_ifs with hlt heq <;> simp [hlt]

/-- An element is finite where its magnitude lies under the infinities. -/
theorem realVal_fin_iff (f : EFmt) (x k : ℕ) : (∃ d, realVal f x k = .fin d) ↔ realOf f x k % 2 ^ 31 < 0x7F800000 := by
  obtain ⟨j, hj⟩ := decode_realOf f x k
  rw [← refinedVal_fin_iff j, ← hj]
  exact decode_fin_iff (by decide) _

theorem enc_element (f : EFmt) (n : ℤ) (r : Rnd) (x k : ℕ) : enc f ((realVal f x k).scale n) r.mode (r.bits k) =
    enc f ((f32.decode (realOf f x k)).scale n) r.mode (r.bits k) := by
  obtain ⟨j, hj⟩ := decode_realOf f x k
  rw [hj, enc_scale_refinedVal j (exact_realVal f x k)]

theorem round_element (f : EFmt) (x k : ℕ) : f32.round (realVal f x k) .rne 0 = f32.round (f32.decode (realOf f x k)) .rne 0 := by
  obtain ⟨j, hj⟩ := decode_realOf f x k
  rw [hj, round_refinedVal j (exact_realVal f x k)]

/-! ### Maxima of magnitudes (R74, R173) -/

theorem maxA_eq {f : FFmt} (h : 2 ≤ f.ebits) (x y : ℕ) : maxA f x y =
    if f.infCode < x % f.signBit ∨ f.infCode < y % f.signBit then f.canonNan else max (x % f.signBit) (y % f.signBit) := by
  simp only [maxA, Bool.or_eq_true, FloatingPointAndPacked.isNan_decode h]

theorem maxA_magnitude {f : FFmt} (h : 2 ≤ f.ebits) (x y : ℕ) : maxA f x (y % f.signBit) = maxA f x y := by
  rw [maxA_eq h, maxA_eq h, Nat.mod_mod]

theorem maxA_element (f : EFmt) (d x k : ℕ) : maxA f32 d (f32.round (realVal f x k) .rne 0) = maxA f32 d (realOf f x k % 2 ^ 31) := by
  have hcode := maxA_magnitude (f := f32) (by decide) d (realOf f x k)
  rw [round_element]
  refine Eq.trans ?_ hcode.symm
  rcases Nat.lt_or_ge f32.infCode (realOf f x k % f32.signBit) with hnan | hnum
  · have hcanon : f32.infCode < f32.canonNan % f32.signBit := by decide
    rw [FloatingPointAndPacked.decode_nan (by decide) hnan, maxA_eq (by decide), maxA_eq (by decide), if_pos (.inr hcanon), if_pos (.inr hnan)]
  · rw [round_decode (by decide) (realOf_lt f x k) hnum]

theorem maxA_numbers {x y : ℕ} (hx : x ≤ 0x7F800000) (hy : y ≤ 0x7F800000) : maxA f32 x y = max x y := by
  have hinf : f32.infCode = 0x7F800000 := by decide
  have hsign : f32.signBit = 2 ^ 31 := by decide
  rw [maxA_eq (by decide), hinf, hsign, Nat.mod_eq_of_lt (by omega), Nat.mod_eq_of_lt (by omega), if_neg (by omega)]

theorem maxA_nan {x y : ℕ} (h : x = f32.canonNan ∨ 0x7F800000 < y % 2 ^ 31) : maxA f32 x y = f32.canonNan := by
  rw [maxA_eq (by decide), if_pos]
  rcases h with rfl | h
  · exact .inl (by decide)
  · exact .inr h

/-- A NaN stays through the fold of maxima. -/
theorem foldl_maxA_nan {vs : List ℕ} {d : ℕ} (h : d = f32.canonNan ∨ ∃ v ∈ vs, 0x7F800000 < v % 2 ^ 31) :
    vs.foldl (maxA f32) d = f32.canonNan := by
  induction vs generalizing d with
  | nil => exact h.elim id fun ⟨_, hv, _⟩ => absurd hv List.not_mem_nil
  | cons w vs ih =>
    refine ih ?_
    rcases h with hd | ⟨v, hv, hnan⟩
    · exact .inl (maxA_nan (.inl hd))
    · rcases List.mem_cons.mp hv with rfl | hv
      · exact .inl (maxA_nan (.inr hnan))
      · exact .inr ⟨v, hv, hnan⟩

/-- Over numbers the fold is their maximum. -/
theorem foldl_maxA_numbers {vs : List ℕ} {d : ℕ} (hd : d ≤ 0x7F800000) (hvs : ∀ v ∈ vs, v ≤ 0x7F800000) :
    d ≤ vs.foldl (maxA f32) d ∧ (∀ v ∈ vs, v ≤ vs.foldl (maxA f32) d) ∧ (vs.foldl (maxA f32) d = d ∨ vs.foldl (maxA f32) d ∈ vs) := by
  induction vs generalizing d with
  | nil => simp
  | cons w vs ih =>
    have hw := hvs w List.mem_cons_self
    obtain ⟨hstart, hall, hsome⟩ := ih (max_le hd hw) fun v hv => hvs v (List.mem_cons_of_mem _ hv)
    rw [List.foldl_cons, maxA_numbers hd hw]
    obtain ⟨hdz, hwz⟩ := max_le_iff.mp hstart
    refine ⟨hdz, List.forall_mem_cons.mpr ⟨hwz, hall⟩, ?_⟩
    rcases hsome with heq | hmem
    · rcases max_choice d w with hmax | hmax
      · exact .inl (heq.trans hmax)
      · exact .inr (List.mem_cons.mpr (.inl (heq.trans hmax)))
    · exact .inr (List.mem_cons_of_mem _ hmem)

/-! ### The members of a block (R171) -/

theorem blkPresent_eq (f : EFmt) (q b : ℕ) (rows : Rows) : blkPresent f q b (operandRow rows 0) = members f q b rows := by
  simp only [blkPresent, join_operandRow, members, blkMembers]
  by_cases hf : f = .e2m1 <;> simp [hf]

theorem blkMembers_lt (f : EFmt) {q b m : ℕ} (hq : q < 4) (hb : b < 2) (hm : m ∈ blkMembers f q b) : m < 32 := by
  unfold blkMembers at hm
  split at hm <;> obtain ⟨j, hj, rfl⟩ := List.mem_map.mp hm <;> have hlt := List.mem_range.mp hj <;> omega

theorem present_isSome (rows : Rows) (k : ℕ) {m : ℕ} (hm : m < 32) : (present rows k m).isSome = rows.any (·.1 == m) := by
  rw [present, if_pos hm, Option.isSome_map, Bool.eq_iff_iff, List.find?_isSome, List.any_eq_true]

/-- A block has a member in the executing set. -/
theorem blkPresent_nonempty (f : EFmt) {q b : ℕ} (hq : q < 4) (hb : b < 2) (rows : Rows) :
    (!(blkPresent f q b (operandRow rows 0)).isEmpty) = (blkMembers f q b).any fun m => rows.any (·.1 == m) := by
  rw [Bool.eq_iff_iff, Bool.not_eq_true', List.isEmpty_eq_false_iff_exists_mem, List.any_eq_true]
  refine exists_congr fun m => ?_
  rw [blkPresent, List.mem_filter, join_operandRow]
  exact and_congr_right fun hm => by rw [present_isSome rows 0 (blkMembers_lt f hq hb hm)]

theorem bmaxLane_eq (f : EFmt) (rows : Rows) (l : ℕ) : bmaxLane f (operandRow rows 0) l =
    ((members f (l / 8) (blkOf f l) rows).flatMap fun m => (List.range (perLane f)).map fun k => realOf f (of rows 0 m) k % 2 ^ 31).foldl
      (maxA f32) 0 := by
  simp only [bmaxLane, blkPresent_eq, e_operandRow, maxA_element, List.foldl_flatMap, List.foldl_map]
  rfl

/-- The leader's operand is the first present one. -/
theorem leadByte_eq_leader (f : EFmt) (q b : ℕ) (rows : Rows) : leadByte f q b rows 1 = leader f q b rows := by
  unfold leadByte leader blkLead blkPresent
  congr 1
  generalize blkMembers f q b = ms
  induction ms with
  | nil => rfl
  | cons m ms ih =>
    have hsome : (present rows 0 m).isSome = (present rows 1 m).isSome := by
      unfold present
      split
      · rw [Option.isSome_map, Option.isSome_map]
      · rfl
    rw [List.filter_cons, join_operandRow, hsome, List.findSome?_cons]
    cases h : present rows 1 m with
    | none => exact ih
    | some v => exact (e_operandRow rows 1 m).trans (by rw [of_eq, h])

/-! ### The shadow of a block word (R173, R174) -/

/-- The shadow that `slots` gives: it always gives one. -/
def slotsOf (f : EFmt) (l : ℕ) (rows : Rows) (c : ℕ → ℕ) : Shadow := (slots f l rows c).getD {}

theorem blkSlots_eq (f : EFmt) {l : ℕ} (hl : l < 32) (rows : Rows) (c : ℕ → ℕ) :
    blkSlots' f (l / 8) (operandRow rows 0) c = slotsOf f l rows c := by
  have hq : l / 8 < 4 := by omega
  have hfirst : (blksOf f).contains 0 = true := by cases f <;> rfl
  have hsecond : (blksOf f).contains 1 = decide (f = .e2m1) := by cases f <;> rfl
  simp only [blkSlots', slotsOf, slots, Option.getD_some, blkPresent_nonempty f hq Nat.two_pos, blkPresent_nonempty f hq Nat.one_lt_two,
    hfirst, hsecond, Bool.true_and, Bool.and_eq_true, decide_eq_true_eq, true_or, true_and, Nat.one_ne_zero, false_or]

/-- A block word gives the result and the slots that the model's equal on the operands of ascending lanes. -/
theorem givesAcross_slots {i : Instr} {d : Dst} {f : EFmt} {m r : State → Rows → ℕ → List ℕ → Res} {c c' : State → Rows → ℕ → ℕ → ℕ}
    (hexec : ∀ s, exec i s = s.word false i (bodyRow fun z rows l v =>
      .resSh d 32 (m z rows l v) (blkSlots' f (quarterOf l) (operandRow rows 0) (c z rows l))))
    (hd : formDst i = some d) (h : ∀ z rows l v, m z rows l v = r z rows l v) (hc : ∀ z rows l k, c z rows l k = c' z rows l k) :
    GivesAcross i d 32 r fun z rows l => slots f l rows (c' z rows l) := by
  refine gives_row_shadow (sh := fun z rows l => slotsOf f l rows (c' z rows l)) hexec hd fun s vs l hl => ?_
  rw [h, funext (hc s (rowsOf s i vs) l)]
  exact congrArg (LaneOut.resSh d 32 _) (blkSlots_eq f (executing_lt hl) _ _)

/-- A scale a quantisation uses: 0xFF where a present element is not finite (R173). -/
theorem bqntScale_eq (f : EFmt) (q k c : ℕ) (rows : Rows) : bqntScale f q k (operandRow rows 0) c =
    if c = 0xFF ∨ ∃ m ∈ members f q k rows, ∃ i, i < perLane f ∧ 0x7F800000 ≤ realOf f (of rows 0 m) i % 2 ^ 31 then 0xFF else c := by
  unfold bqntScale
  refine if_congr ?_ rfl rfl
  rw [Bool.or_eq_true, decide_eq_true_eq, List.any_eq_true, blkPresent_eq]
  refine or_congr_right (exists_congr fun m => and_congr_right fun _ => ?_)
  rw [List.any_eq_true]
  refine exists_congr fun i => and_congr List.mem_range ?_
  rw [e_operandRow, ← not_lt, ← realVal_fin_iff]
  cases realVal f (of rows 0 m) i <;> simp

/-! ### Codes and elements in their places (R60, R171) -/

/-- Fields of one width, put together, read back each by itself. -/
theorem sum_places {w n : ℕ} {g : ℕ → ℕ} (hg : ∀ k, g k < 2 ^ w) :
    ((List.range n).map fun k => g k * 2 ^ (w * k)).sum < 2 ^ (w * n) ∧
      ∀ k, k < n → ((List.range n).map fun k => g k * 2 ^ (w * k)).sum / 2 ^ (w * k) % 2 ^ w = g k := by
  induction n with
  | zero => simp
  | succ n ih =>
    obtain ⟨hlt, hread⟩ := ih
    have hpos := Nat.two_pow_pos (w * n)
    have htop : (g n + 1) * 2 ^ (w * n) ≤ 2 ^ w * 2 ^ (w * n) := Nat.mul_le_mul_right _ (hg n)
    rw [Nat.add_mul, Nat.one_mul] at htop
    simp only [List.range_succ, List.map_append, List.sum_append, List.map_cons, List.map_nil, List.sum_cons, List.sum_nil, Nat.add_zero]
    refine ⟨by rw [Nat.mul_succ, Nat.add_comm (w * n) w, pow_add]; omega, fun k hk => ?_⟩
    rcases Nat.lt_succ_iff_lt_or_eq.mp hk with hk | rfl
    · have hshift : g n * 2 ^ (w * n) = g n * 2 ^ (w * (n - k - 1)) * 2 ^ w * 2 ^ (w * k) := by
        have hexp : w * n = w * (n - k - 1) + (w + w * k) := by
          rw [Nat.add_comm w, ← Nat.mul_succ, ← Nat.mul_add]
          congr 1
          omega
        rw [mul_assoc, mul_assoc, ← pow_add, ← pow_add, ← hexp]
      rw [hshift, Nat.add_mul_div_right _ _ (Nat.two_pow_pos _), Nat.add_mul_mod_self_right, hread k hk]
    · rw [Nat.add_mul_div_right _ _ hpos, Nat.div_eq_of_lt hlt, Nat.zero_add, Nat.mod_eq_of_lt (hg k)]

/-- The model's fold over the elements of a lane is the sum of the elements in their places. -/
theorem foldl_places (w n : ℕ) (g : ℕ → ℕ) :
    (List.range n).foldl (fun acc k => acc + g k <<< (w * k)) 0 = ((List.range n).map fun k => g k * 2 ^ (w * k)).sum := by
  simp only [Nat.shiftLeft_eq, List.sum_eq_foldl, List.foldl_map]

theorem codesWord_eq (f : EFmt) (n : ℕ) (g : ℕ → ℕ) :
    codesWord f ((List.range n).map g) = ((List.range n).map fun k => g k * 2 ^ (codeBits f * k)).sum := by
  have hplaces : ((List.range n).map g).zipIdx = (List.range n).map fun k => (g k, k) := by apply List.ext_getElem <;> simp
  rw [codesWord, hplaces, List.foldl_map]
  exact foldl_places (codeBits f) n g

theorem maxCode_lt (f : EFmt) (neg : Bool) : f.maxCode neg < 2 ^ codeBits f := by
  cases f <;> cases neg <;> decide

theorem encFin_floating {f : EFmt} (hf : f ≠ .i8) (d : Dy) (mode : RMode) (r : ℕ) : encFin f d mode r =
    if roundCode f.mant f.qmin d mode r = 0 then (0, false)
    else if 2 ^ (f.bits - 1) ≤ roundCode f.mant f.qmin d mode r then (f.maxCode d.neg, true)
    else (bit01 d.neg * 2 ^ (f.bits - 1) + roundCode f.mant f.qmin d mode r, false) := by
  cases f
  case i8 => exact absurd rfl hf
  all_goals rfl

theorem encFin_i8_lt (d : Dy) (mode : RMode) (r : ℕ) : (encFin .i8 d mode r).1 < 2 ^ 8 := by
  have hwrap (n : ℤ) : wrapI 8 n < 2 ^ 8 := by unfold wrapI; omega
  unfold encFin
  dsimp only
  split_ifs
  · decide
  · exact hwrap _
  · decide
  · show _ < 2 ^ 8
    omega

theorem encFin_lt (f : EFmt) (d : Dy) (mode : RMode) (r : ℕ) : (encFin f d mode r).1 < 2 ^ codeBits f := by
  by_cases hf : f = .i8
  · subst hf
    exact encFin_i8_lt d mode r
  · have hbits : 2 ^ (f.bits - 1) + 2 ^ (f.bits - 1) ≤ 2 ^ codeBits f := by cases f <;> decide
    have hsign : bit01 d.neg * 2 ^ (f.bits - 1) ≤ 1 * 2 ^ (f.bits - 1) := Nat.mul_le_mul_right _ (Laws.bit01_le d.neg)
    rw [encFin_floating hf]
    split_ifs
    · exact Nat.two_pow_pos _
    · exact maxCode_lt f d.neg
    · show _ < 2 ^ codeBits f
      omega

theorem enc_lt (f : EFmt) (v : Val) (mode : RMode) (r : ℕ) : (enc f v mode r).1 < 2 ^ codeBits f := by
  cases v with
  | nan => exact Nat.two_pow_pos _
  | inf s => exact maxCode_lt f s
  | fin d => exact encFin_lt f d mode r

/-- Codes of a lane that fit their containers, with the mark that one of them saturated. -/
theorem codes_read (f : EFmt) {e : ℕ → ℕ × Bool} (he : ∀ k, (e k).1 < 2 ^ codeBits f) :
    let es := (List.range (blkN f)).map e
    (∀ k, k < perLane f → codesWord f (es.map (·.1)) / 2 ^ (codeBits f * k) % 2 ^ codeBits f = (e k).1) ∧
      codesWord f (es.map (·.1)) < 2 ^ 32 ∧ (es.any (·.2) = true ↔ ∃ k, k < perLane f ∧ (e k).2 = true) := by
  intro es
  have hword : codesWord f (es.map (·.1)) = ((List.range (perLane f)).map fun k => (e k).1 * 2 ^ (codeBits f * k)).sum := by
    rw [← codesWord_eq, List.map_map]; rfl
  have hbits : codeBits f * perLane f = 32 := by cases f <;> rfl
  obtain ⟨hlt, hread⟩ := sum_places (n := perLane f) he
  rw [hbits] at hlt
  rw [hword]
  refine ⟨hread, hlt, ?_⟩
  simp only [es, List.any_map, List.any_eq_true, List.mem_range]
  rfl

/-! ### Quantisation, dequantisation and rescaling (R173, R174) -/

theorem bqntLane_of_scale (f : EFmt) {c : ℕ} (hc : c ≠ 0xFF) (r : Rnd) (x : ℕ) :
    let es := (List.range (blkN f)).map fun k => enc f ((f32.decode (realOf f x k)).scale (127 - (c : ℤ))) r.mode (r.bits k)
    bqntLane f c r x = ⟨codesWord f (es.map (·.1)), { clamp := es.any (·.2) }⟩ := by
  simp only [bqntLane, if_neg hc, bposBits, enc_element]

theorem brescaleLane_of_special (f : EFmt) {c c' : ℕ} (hc : c = 0xFF ∨ c' = 0xFF) (r : Rnd) (x : ℕ) :
    brescaleLane f c c' r x = ⟨0, { snan := true }⟩ := by
  simp only [brescaleLane, Bool.or_eq_true, decide_eq_true_eq, if_pos hc]

theorem brescaleLane_of_scales (f : EFmt) {c c' : ℕ} (hc : c ≠ 0xFF) (hc' : c' ≠ 0xFF) (r : Rnd) (x : ℕ) :
    let es := (List.range (blkN f)).map fun k => enc f (.fin ((dec f (codeOf f x k)).scale ((c : ℤ) - c'))) r.mode (r.bits k)
    brescaleLane f c c' r x = ⟨codesWord f (es.map (·.1)), { clamp := es.any (·.2) }⟩ := by
  simp only [brescaleLane, Bool.or_eq_true, decide_eq_true_eq, hc, hc', or_self, if_false, bposBits, codeAt_eq_codeOf]

theorem round_scaled (t : FFmt) (d : Dy) (c : ℕ) :
    t.round (scaled d c) .rne 0 = if c = 0xFF then t.canonNan else t.round (.fin (d.scale ((c : ℤ) - 127))) .rne 0 := by
  unfold scaled
  split <;> rfl

/-- Each element of a dequantised lane. -/
theorem bdqntLane_element (f : EFmt) (c x : ℕ) {k : ℕ} (hk : k < perLane f) :
    bdqntLane f c x / 2 ^ (realBits f * k) % 2 ^ realBits f = if c = 0xFF then (realFmt f).canonNan
      else (realFmt f).round (.fin ((dec f (codeOf f x k)).scale ((c : ℤ) - 127))) .rne 0 := by
  have hfits (k : ℕ) : (realFmt f).round (scaled (dec f (codeAt f x k)) c) .rne 0 < 2 ^ (realFmt f).width :=
    round_lt _ (realFmt_mbits f) _ _ _
  obtain ⟨-, hread⟩ := sum_places (n := perLane f) hfits
  rw [← codeAt_eq_codeOf, ← round_scaled, ← hread k hk, ← foldl_places, ← realFmt_width]
  rfl

/-- The slot that `bshift` leaves, and whether it was cut off at an end. -/
theorem bshiftScale_eq (c s : ℕ) : bshiftScale c s =
    (if c = 0xFF then 0xFF else (max 0 (min ((c : ℤ) + sgn 8 s) 254)).toNat,
      decide (c ≠ 0xFF ∧ ((c : ℤ) + sgn 8 s < 0 ∨ 254 < (c : ℤ) + sgn 8 s))) := by
  unfold bshiftScale
  by_cases hc : c = 0xFF
  · simp [hc]
  · have hcut : max 0 (min ((c : ℤ) + sgn 8 s) 254) ≠ (c : ℤ) + sgn 8 s ↔ (c : ℤ) + sgn 8 s < 0 ∨ 254 < (c : ℤ) + sgn 8 s := by omega
    simp only [FloatingPointAndPacked.satI_eq_clamp _ (show (0 : ℤ) ≤ 254 by norm_num), hcut, ne_eq, hc, not_false_eq_true,
      true_and, if_false]

theorem rescaled_eq (c c' : ℕ) : rescaled c c' = if c = 0xFF ∨ c' = 0xFF then 0xFF else c' := by
  simp only [rescaled, Bool.or_eq_true, decide_eq_true_eq]

end Sys2Proof.BlockOperations
end

section
/-! PROOFS. Block words (R56, R72, R171 to R176): DEC of a code as a real number, the windowed sum of block products, and the words. -/
open Sys2Proof Sys2Proof.Machine Sys2Proof.Safety Sys2Proof.Rules Sys2Proof.ExactValues Sys2Proof.FormatCodes Sys2Proof.CrossLane

namespace Sys2Proof.BlockOperations

/-! ### DEC as a real number (R56) -/

/-- A magnitude code with its bias: below the smallest normal, and from it on. -/
theorem codeReal_biased (mb : ℕ) (bias : ℤ) (g : ℕ) : codeReal mb (1 - bias - mb) g =
    if g / 2 ^ mb = 0 then ((g % 2 ^ mb : ℕ) : ℝ) / 2 ^ mb * (2 : ℝ) ^ (1 - bias)
    else (1 + ((g % 2 ^ mb : ℕ) : ℝ) / 2 ^ mb) * (2 : ℝ) ^ ((g / 2 ^ mb : ℕ) - bias) := by
  have hpow : (2 : ℝ) ^ mb ≠ 0 := (pow_pos two_pos mb).ne'
  have hunit (e : ℤ) : (2 : ℝ) ^ e = 2 ^ mb * 2 ^ (e - mb) := by rw [← zpow_natCast, ← two_zpow_add, add_sub_cancel]
  rw [codeReal, magOf, expOf]
  split
  case isTrue h =>
    rw [h, hunit (1 - bias)]
    field_simp
    simp
  case isFalse h =>
    have hexp : 1 - bias - (mb : ℤ) + ((g / 2 ^ mb - 1 : ℕ) : ℤ) = ((g / 2 ^ mb : ℕ) : ℤ) - bias - mb := by
      rw [Nat.cast_pred (Nat.pos_of_ne_zero h)]; ring
    rw [hexp, hunit ((g / 2 ^ mb : ℕ) - bias)]
    push_cast
    field_simp

theorem dec_floating {f : EFmt} (hf : f ≠ .i8) (c : ℕ) : let g := c % 2 ^ f.bits % 2 ^ (f.bits - 1)
    dec f c = ⟨(c % 2 ^ f.bits).testBit (f.bits - 1) && magOf f.mant g != 0, magOf f.mant g, expOf f.mant f.qmin g, false⟩ := by
  intro g
  cases f
  case i8 => exact absurd rfl hf
  all_goals
    simp only [dec, magOf, expOf, Nat.shiftRight_eq_div_pow, bitAt, g]
    split
    case isTrue h => simp [h]
    case isFalse h => simp

theorem real_dec_floating {f : EFmt} (hf : f ≠ .i8) (c : ℕ) : real (dec f c) =
    (if (c % 2 ^ f.bits).testBit (f.bits - 1) then -1 else 1) * codeReal f.mant (1 - f.bias - f.mant) (c % 2 ^ f.bits % 2 ^ (f.bits - 1)) := by
  rw [dec_floating hf, real_def, mul_assoc]
  show sgnOf _ * codeReal f.mant f.qmin _ = sgnOf _ * _
  by_cases hzero : magOf f.mant (c % 2 ^ f.bits % 2 ^ (f.bits - 1)) = 0
  · have hcode : codeReal f.mant f.qmin (c % 2 ^ f.bits % 2 ^ (f.bits - 1)) = 0 := by rw [codeReal, hzero, Nat.cast_zero, zero_mul]
    rw [← EFmt.qmin, hcode, mul_zero, mul_zero]
  · rw [bne_iff_ne.mpr hzero, Bool.and_true]
    rfl

theorem real_dec_i8 (c : ℕ) : real (dec .i8 c) = (sgn 8 (c % 256) : ℝ) * (2 : ℝ) ^ (-6 : ℤ) := by
  have hmod : c % 256 % 2 ^ 8 = c % 2 ^ 8 := Nat.mod_mod _ _
  have hsgn : sgn 8 (c % 256) = sgn 8 c := by simp only [sgn, hmod]
  rw [hsgn]
  exact real_ofInt _ _

/-! ### Terms of a windowed sum (R72) -/

/-- The exact product of a pair of blocks, as the model forms it. -/
def pairTerm (p : Block × Block) : Dy :=
  (Dy.sum .rne ((p.1.vals.zip p.2.vals).map fun x => x.1.mul x.2)).scale ((p.1.eff : ℤ) + p.2.eff - 254)

theorem real_scale (d : Dy) (n : ℤ) : real (d.scale n) = 2 ^ n * real d := by
  simp only [real_def, Dy.scale, two_zpow_add]; ring

theorem real_pairTerm (p : Block × Block) : real (pairTerm p) = term p.1 p.2 := by
  rw [pairTerm, real_scale, real_sum, List.map_map, term]
  simp only [Function.comp_def, real_mul]

/-- The magnitude cut off at a unit. -/
theorem roundAt_rtz (d : Dy) (u : ℤ) : ((roundAt d u .rtz 0 : ℕ) : ℤ) = ⌊|real d| / (2 : ℝ) ^ u⌋ := by
  have hpos := two_zpow_pos u
  rcases le_or_gt u d.exp with hle | hlt
  · rw [← roundAt_below d hle .rtz 0, mul_div_cancel_right₀ _ hpos.ne', Int.floor_natCast]
  · obtain ⟨k, hk, rfl⟩ := exists_shift hlt
    obtain ⟨hlo, hhi, -⟩ := FloatingPointAndPacked.natCast_div_between d.mag (Nat.two_pow_pos k)
    have hquot : |real d| / (2 : ℝ) ^ (d.exp + (k : ℤ)) = (d.mag : ℝ) / (2 ^ k : ℕ) := by
      rw [abs_real, two_zpow_add, zpow_natCast, mul_comm (2 ^ d.exp : ℝ), mul_div_mul_right _ _ (two_zpow_pos _).ne', Nat.cast_pow,
        Nat.cast_ofNat]
    rw [hquot, eq_comm, Int.floor_eq_iff, NumberFormats.roundAt_above d hk]
    exact ⟨by exact_mod_cast hlo, by exact_mod_cast hhi⟩

theorem truncAt_eq (d : Dy) (u : ℤ) :
    ((truncAt d u : ℤ) : ℝ) = (if real d < 0 then -1 else 1) * (⌊|real d| / (2 : ℝ) ^ u⌋ : ℝ) := by
  rw [← roundAt_rtz, truncAt]
  by_cases h : d.mag = 0
  · have hzero : roundAt d u .rtz 0 = 0 := by
      have hfloor := roundAt_rtz d u
      rw [real_of_mag_zero h, abs_zero, zero_div, Int.floor_zero] at hfloor
      exact_mod_cast hfloor
    simp [hzero]
  · simp only [FloatingPointAndPacked.real_neg_iff h]
    cases d.neg <;> simp

/-- Terms that are zero contribute nothing. -/
theorem foldl_truncAt (ts : List Dy) (u : ℤ) :
    (((ts.filter fun t => t.mag != 0).foldl (fun s t => s + truncAt t u) 0 : ℤ) : ℝ) = (ts.map fun t => (truncAt t u : ℝ)).sum := by
  have hsum (l : List Dy) (s : ℤ) : ((l.foldl (fun s t => s + truncAt t u) s : ℤ) : ℝ) = s + (l.map fun t => (truncAt t u : ℝ)).sum := by
    induction l generalizing s with
    | nil => simp
    | cons t l ih => rw [List.foldl_cons, ih, List.map_cons, List.sum_cons]; push_cast; ring
  rw [hsum, Int.cast_zero, zero_add]
  induction ts with
  | nil => rfl
  | cons t ts ih =>
    rw [List.filter_cons, List.map_cons, List.sum_cons, ← ih]
    by_cases h : t.mag = 0
    · have hzero : (truncAt t u : ℝ) = 0 := by rw [truncAt_eq, real_of_mag_zero h]; simp
      simp [h, hzero]
    · simp [h]

/-! ### The window (R72) -/

theorem foldl_max_log2 (ts : List Dy) (m : ℤ) : m ≤ ts.foldl (fun m t => max m t.log2) m ∧
    (∀ t ∈ ts, t.log2 ≤ ts.foldl (fun m t => max m t.log2) m) ∧ ∀ n, m ≤ n → (∀ t ∈ ts, t.log2 ≤ n) → ts.foldl (fun m t => max m t.log2) m ≤ n := by
  induction ts generalizing m with
  | nil => simp
  | cons t ts ih =>
    obtain ⟨hstart, hall, hleast⟩ := ih (max m t.log2)
    obtain ⟨hm, ht⟩ := max_le_iff.mp hstart
    refine ⟨hm, List.forall_mem_cons.mpr ⟨ht, hall⟩, fun n hn htn => ?_⟩
    obtain ⟨htn, hrest⟩ := List.forall_mem_cons.mp htn
    exact hleast n (max_le hn htn) hrest

/-- The sum of terms cut off at the window under the greatest, rounded once: what `wsum` makes of finite terms (`wsum_fin`). -/
def windowed (ts : List Dy) : ℕ :=
  let nz := ts.filter fun t => t.mag != 0
  match nz with
  | [] => 0
  | t0 :: _ =>
    let u := nz.foldl (fun m t => max m t.log2) t0.log2 - 27
    f32.round (.fin (Dy.ofInt (nz.foldl (fun s t => s + truncAt t u) 0) u)) .rne 0

theorem windowed_zero {ts : List Dy} (h : ∀ t ∈ ts, real t = 0) : windowed ts = 0 := by
  have hnone : ts.filter (fun t => t.mag != 0) = [] := List.filter_eq_nil_iff.mpr fun t ht => by simp [(real_eq_zero_iff t).mp (h t ht)]
  rw [windowed, hnone]

theorem windowed_nearest {ts : List Dy} {n : ℤ} (hlead : ∃ t ∈ ts, (2 : ℝ) ^ n ≤ |real t|) (hbound : ∀ t ∈ ts, |real t| < (2 : ℝ) ^ (n + 1)) :
    nearest (ts.map fun t => (if real t < 0 then -1 else 1) * (⌊|real t| / (2 : ℝ) ^ (n - 27)⌋ : ℝ) * (2 : ℝ) ^ (n - 27)).sum (windowed ts) := by
  obtain ⟨lead, hmem, hlo⟩ := hlead
  have hmag : lead.mag ≠ 0 := fun h => by
    rw [real_of_mag_zero h, abs_zero] at hlo
    exact absurd hlo (not_le.mpr (two_zpow_pos n))
  have hlog := log2_eq_of_bounds hmag hlo (hbound lead hmem)
  have hlead : lead ∈ ts.filter fun t => t.mag != 0 := List.mem_filter.mpr ⟨hmem, bne_iff_ne.mpr hmag⟩
  have htop : ∀ t ∈ ts.filter fun t => t.mag != 0, t.log2 ≤ n := fun t ht => by
    obtain ⟨ht, hne⟩ := List.mem_filter.mp ht
    have hlt := (zpow_lt_zpow_iff_right₀ one_lt_two).mp ((le_abs_real (bne_iff_ne.mp hne)).trans_lt (hbound t ht))
    omega
  have hsum := foldl_truncAt ts (n - 27)
  rw [windowed]
  generalize ts.filter (fun t => t.mag != 0) = nz at hlead htop hsum
  cases nz with
  | nil => exact absurd hlead List.not_mem_nil
  | cons t0 rest =>
    obtain ⟨-, hall, hleast⟩ := foldl_max_log2 (t0 :: rest) t0.log2
    have hwindow : (t0 :: rest).foldl (fun m t => max m t.log2) t0.log2 = n :=
      le_antisymm (hleast n (htop t0 List.mem_cons_self) htop) (hlog ▸ hall lead hlead)
    dsimp only
    rw [hwindow]
    refine ⟨_, rfl, ?_, rfl⟩
    rw [real_ofInt, hsum, List.sum_map_mul_right]
    simp only [truncAt_eq]

/-! ### The sum by its class (R72) -/

section
variable {acc : ℕ} {ps : List (Block × Block)}

/-- A NaN accumulator, or a block of which the scale is 0xFF (R57, R72). -/
def Bad (acc : ℕ) (ps : List (Block × Block)) : Prop := f32.decode acc = .nan ∨ ∃ p ∈ ps, p.1.eff = 0xFF ∨ p.2.eff = 0xFF

theorem bad_iff (acc : ℕ) (ps : List (Block × Block)) :
    ((f32.decode acc).isNan || ps.any fun p => p.1.eff == 0xFF || p.2.eff == 0xFF) = true ↔ Bad acc ps := by
  have hnan : (f32.decode acc).isNan = true ↔ f32.decode acc = .nan := by cases f32.decode acc <;> simp [Val.isNan]
  simp only [Bool.or_eq_true, hnan, List.any_eq_true, beq_iff_eq, Bad]

theorem wsum_bad (h : Bad acc ps) : wsum acc ps = f32.canonNan := by
  unfold wsum
  exact if_pos ((bad_iff acc ps).mpr h)

theorem wsum_inf (h : ¬ Bad acc ps) {n : Bool} (hinf : f32.decode acc = .inf n) : wsum acc ps = acc := by
  have hgood := mt (bad_iff acc ps).mp h
  unfold wsum
  dsimp only
  rw [if_neg hgood, hinf]

theorem wsum_fin (h : ¬ Bad acc ps) {u : Dy} (hfin : f32.decode acc = .fin u) : wsum acc ps = windowed (u :: ps.map pairTerm) := by
  have hgood := mt (bad_iff acc ps).mp h
  unfold wsum windowed
  dsimp only
  rw [if_neg hgood, hfin]
  rfl

end

/-! ### The dot product of a quarter (R174) -/

theorem codeBlock_eq_blockOf (f : EFmt) (q b k : ℕ) (rows : Rows) (c : ℕ) : codeBlock f q b (operandRow rows k) c = blockOf f q b k rows c := by
  simp only [codeBlock, blockOf, e_operandRow, codeAt_eq_codeOf, blkMembers]
  by_cases hf : f = .e2m1 <;> simp [hf, blkN, perLane]

theorem bdotQuarter_eq (f : EFmt) (q : ℕ) (rows : Rows) (x y : ℕ → ℕ) : bdotQuarter f q (operandRow rows 0) (operandRow rows 1) x y =
    wsum 0 (((List.range (if f = .e2m1 then 2 else 1)).filter fun k => members f q k rows ≠ []).map fun k =>
      (blockOf f q k 0 rows (x k), blockOf f q k 1 rows (y k))) := by
  have hblocks : blksOf f = List.range (if f = .e2m1 then 2 else 1) := by cases f <;> rfl
  have hsome (k : ℕ) : (!(members f q k rows).isEmpty) = decide (members f q k rows ≠ []) := by rw [Bool.eq_iff_iff]; simp
  simp only [bdotQuarter, blkPresent_eq, codeBlock_eq_blockOf, hblocks, hsome]

/-! ### The words -/

/-- Settles O20: the words by their results and slots in each lane, then each value by what its format and its block make of it. -/
theorem blockWords : Obligations.BlockWords := by
  intro d a b f pol
  refine ⟨?bmax, ?bscale, ?bqnt, ?bdqnt, ?bsetsc, ?bgetsc, ?bshift, ?brescale, ?bdot, ?codes, ?maxima, ?scales, ?quantised, ?elements,
    ?rescaled, ?products, ?sums⟩
  case bmax => exact across_of_result (fun _ => rfl) rfl fun {_ _ _} _ _ => rfl
  case bscale => exact givesAcross_of_result (fun _ => rfl) rfl fun _ {_ _ _} _ _ => rfl
  case bqnt =>
    exact givesAcross_slots (fun _ => rfl) rfl (fun _ _ _ _ => by rw [← leadByte_eq_leader]; rfl)
      fun _ _ _ _ => by rw [← leadByte_eq_leader]; rfl
  case bdqnt => exact givesAcross_of_result (fun _ => rfl) rfl fun _ {_ _ _} _ _ => rfl
  case bsetsc => exact givesAcross_slots (fun _ => rfl) rfl (fun _ _ _ _ => rfl) fun _ _ _ _ => leadByte_eq_leader ..
  case bgetsc => exact givesAcross_of_result (fun _ => rfl) rfl fun _ {_ _ _} _ _ => rfl
  case bshift =>
    exact givesAcross_slots (fun _ => rfl) rfl (fun _ _ _ _ => by simp only [leadByte_eq_leader, bshiftScale_eq]; rfl)
      fun _ _ _ _ => by simp only [leadByte_eq_leader, bshiftScale_eq]; rfl
  case brescale =>
    exact givesAcross_slots (fun _ => rfl) rfl (fun _ _ _ _ => by rw [← leadByte_eq_leader]; rfl)
      fun _ _ _ _ => by simp only [leadByte_eq_leader, rescaled_eq]; rfl
  case bdot => exact givesAcross_of_result (fun _ => rfl) rfl fun _ {_ _ _} _ _ => rfl
  case codes =>
    intro c g
    split
    case isTrue h => subst h; exact real_dec_i8 c
    case isFalse h => rw [real_dec_floating h, codeReal_biased]
  case maxima =>
    intro rows l _ vs z
    have hz : z = vs.foldl (maxA f32) 0 := bmaxLane_eq f rows l
    have hmag : ∀ v ∈ vs, v % 2 ^ 31 = v := fun v hv => by
      obtain ⟨m, -, hv⟩ := List.mem_flatMap.mp hv
      obtain ⟨k, -, rfl⟩ := List.mem_map.mp hv
      exact Nat.mod_mod _ _
    refine ⟨fun ⟨v, hv, hnan⟩ => hz.trans (foldl_maxA_nan (.inr ⟨v, hv, by rw [hmag v hv]; exact hnan⟩)), fun hnumbers => ?_⟩
    obtain ⟨-, hall, hsome⟩ := foldl_maxA_numbers (Nat.zero_le _) hnumbers
    rw [hz]
    exact ⟨hall, hsome⟩
  case scales => exact fun rows q k c _ _ _ => bqntScale_eq f q k c rows
  case quantised =>
    intro c r x y e
    refine ⟨fun hc => ?_, fun hc => ?_⟩
    · subst hc; exact ⟨rfl, rfl⟩
    · have hy : y = _ := bqntLane_of_scale f hc r x
      rw [hy]
      exact codes_read f fun k => enc_lt f _ _ _
  case elements =>
    intro c x k hk t
    have ht : t = realFmt f := rfl
    rw [ht]
    exact bdqntLane_element f c x hk
  case rescaled =>
    intro c c' r x y e
    refine ⟨fun hc => ?_, fun hc hc' => ?_⟩
    · have hy : y = _ := brescaleLane_of_special f hc r x
      rw [hy]; exact ⟨rfl, rfl⟩
    · have hy : y = _ := brescaleLane_of_scales f hc hc' r x
      rw [hy]
      exact codes_read f fun k => enc_lt f _ _ _
  case products => exact fun rows q x y _ => bdotQuarter_eq f q rows x y
  case sums =>
    intro acc ps _ bad
    refine ⟨wsum_bad, fun h n hinf => wsum_inf h hinf, fun u h hfin => ?_⟩
    intro ts
    have hts : ts = (u :: ps.map pairTerm).map real := by
      simp only [ts, List.map_cons, List.map_map, Function.comp_def, real_pairTerm]
    rw [wsum_fin h hfin, hts]
    refine ⟨fun hzero => windowed_zero (List.forall_mem_map.mp hzero), fun n hlead hbound => ?_⟩
    rw [List.map_map]
    refine windowed_nearest ?_ (List.forall_mem_map.mp hbound)
    obtain ⟨_, hmem, hlo⟩ := hlead
    obtain ⟨t, ht, rfl⟩ := List.mem_map.mp hmem
    exact ⟨t, ht, hlo⟩

end Sys2Proof.BlockOperations
end

section
/-! PROOFS. Synchronisation: the fields of a mooring under its operations, the mooring words, fences and `wait` (R182 to R192, R208). -/
open Sys2Proof Sys2Proof.Machine Sys2Proof.Safety Sys2Proof.Rules

namespace Sys2Proof.Synchronisation

/-! ### The fields of a mooring under each operation (R183) -/

section
variable (m : Mooring) (n : Nat)

theorem inI32_eq_false_iff (x : Int) : inI32 x = false ↔ ¬(-(2 ^ 31 : Nat) ≤ x ∧ x < (2 ^ 31 : Nat)) := by
  rw [← Bool.not_eq_true, inI32, Bool.and_eq_true, decide_eq_true_eq, decide_eq_true_eq]

theorem op_init : m.op 0 n = if (m.val = true ∧ m.wtr = true) ∨ n = 0 then none
    else some { phase := false, wtr := m.wtr, val := true, expect := n, pend := n, units := 0 } := by
  simp only [Mooring.op, Bool.or_eq_true, Bool.and_eq_true, decide_eq_true_eq]

theorem op_arrive : m.op 1 n = if m.val = false ∨ m.pend = 0 ∨ inI32 (m.units + n) = false then none
    else some { m with units := m.units + n, pend := m.pend - 1 } := by
  simp only [Mooring.op, Bool.or_eq_true, Bool.not_eq_true', decide_eq_true_eq, or_assoc]

theorem op_expect : m.op 2 n = if m.val = false ∨ inI32 (m.units + n) = false then none else some { m with units := m.units + n } := by
  simp only [Mooring.op, Bool.or_eq_true, Bool.not_eq_true']

theorem ret_arrival : m.ret 1 n = if m.val = false ∨ m.pend = 0 then none else some { m with pend := m.pend - 1 } := by
  simp only [Mooring.ret, Bool.not_eq_true', if_true, ite_or]

theorem ret_units : m.ret 2 n = if m.val = false ∨ inI32 (m.units - n) = false then none else some { m with units := m.units - n } := by
  simp only [Mooring.ret, Bool.not_eq_true', OfNat.ofNat_ne_one, if_false, ite_or]

theorem turns_iff : m.turns = true ↔ m.val = true ∧ m.pend = 0 ∧ m.units = 0 := by
  simp only [Mooring.turns, Bool.and_eq_true, beq_iff_eq, and_assoc]
end

/-! ### The 16-byte form (R182) -/

/-- A 32-bit pattern of an integer in range is read back as that integer. -/
theorem sgn_wrapI {x : Int} (hlo : -(2 ^ 31 : Nat) ≤ x) (hhi : x < (2 ^ 31 : Nat)) : sgn 32 (wrapI 32 x) = x := by
  unfold sgn wrapI
  split <;> omega

theorem wrapI_lt (x : Int) : wrapI 32 x < 2 ^ 32 := by
  unfold wrapI
  omega

/-- Three flags, then three 32-bit fields from bit 32 up. -/
theorem fields_of_word {e p u : Nat} (a b c : Bool) (he : e < 2 ^ 32) (hp : p < 2 ^ 32) (hu : u < 2 ^ 32) :
    let w := bit01 a + 2 * bit01 b + 4 * bit01 c + e * 2 ^ 32 + p * 2 ^ 64 + u * 2 ^ 96
    bitAt w 0 = a ∧ bitAt w 1 = b ∧ bitAt w 2 = c ∧ bits w 63 32 = e ∧ bits w 95 64 = p ∧ bits w 127 96 = u := by
  intro w
  have ha := Laws.bit01_le a
  have hb := Laws.bit01_le b
  have hc := Laws.bit01_le c
  have hflag (k : Nat) (x : Bool) (h : w / 2 ^ k % 2 = bit01 x) : bitAt w k = x := by
    rw [bitAt, Nat.testBit_eq_decide_div_mod_eq, h]
    cases x <;> rfl
  refine ⟨hflag 0 a ?_, hflag 1 b ?_, hflag 2 c ?_, ?_, ?_, ?_⟩
  all_goals
    simp only [FloatingPointAndPacked.bits_eq, w]
    omega

theorem mooringOf_word {m : Mooring} (hexpect : m.expect < 2 ^ 32) (hpend : m.pend < 2 ^ 32) (hlo : -(2 ^ 31 : Nat) ≤ m.units)
    (hhi : m.units < (2 ^ 31 : Nat)) : mooringOf m.word = m := by
  obtain ⟨hphase, hwtr, hval, he, hp, hu⟩ := fields_of_word m.phase m.wtr m.val hexpect hpend (wrapI_lt m.units)
  unfold mooringOf Mooring.word
  rw [hphase, hwtr, hval, he, hp, hu, sgn_wrapI hlo hhi]

/-- Settles O35, by the fields each operation leaves and the fields its word holds. -/
theorem mooringOperations : Obligations.MooringOperations := by
  intro m n _ fits
  have hfits (x : Int) : inI32 x = false ↔ ¬fits x := inI32_eq_false_iff x
  simp only [op_init, op_arrive, op_expect, ret_arrival, ret_units, hfits, Mooring.adv, turns_iff]
  refine ⟨trivial, fun hfit hval => ⟨?expect, fun hpend => ?arrive⟩, fun hbad => ⟨?noArrive, ?noExpect⟩, fun hpend => ?notPending,
    fun hval hpend => ?arrival, fun hval hfit => ?units, fun hval hpend hunits => ?turned, fun hstays => ?same,
    fun hexpect hpend hfit => mooringOf_word hexpect hpend hfit.1 hfit.2⟩
  case expect => rw [if_neg (by simp [hval, hfit])]
  case arrive => rw [if_neg (by simp [hval, hpend, hfit])]
  case noArrive => rw [if_pos (hbad.imp_right .inr)]
  case noExpect => rw [if_pos hbad]
  case notPending => rw [if_pos (.inr (.inl hpend))]
  case arrival => rw [if_neg (by simp [hval, hpend])]
  case units => rw [if_neg (by simp [hval, hfit])]
  case turned => rw [if_pos ⟨hval, hpend, hunits⟩]
  case same =>
    rw [if_neg]
    rintro ⟨hval, hpend, hunits⟩
    simp [hval, hpend, hunits] at hstays

/-! ### The mooring words in a lane (R183, R185, R186) -/

section
variable {z : State} {scr : Bool} {a b l : Nat} {m : Retire}

theorem planMoor_ok (h : moorAt z scr a m) : ∃ loc, z.planMoor scr a = .ok loc ∧ loc.moor (moorAddr scr a) 0 0 = m := by
  obtain ⟨loc, hloc, rfl⟩ := h
  refine ⟨loc, ?_, rfl⟩
  cases scr with
  | true => exact hloc
  | false =>
    obtain ⟨halign, pa, key, apt, dev, leaf, big, entry, hx, rfl⟩ := hloc
    exact LaneMemory.checkGlobal_ok halign hx

theorem postMoor_ok {kind : Nat} {d : Dst} {v : List Nat} {es : List Eff} (h : posts kind d scr z l v es) :
    z.postMoor kind d scr (arg v 0) (arg v 1) = .ok es := by
  obtain ⟨m, hm, hop, rfl⟩ := h
  obtain ⟨loc, hplan, rfl⟩ := planMoor_ok hm
  obtain ⟨m', hop⟩ := Option.isSome_iff_exists.mp hop
  unfold State.postMoor
  rw [hplan]
  dsimp only [outOf]
  rw [hop]

theorem turned_ok {t : Bool} (h : looks z l scr a b m t) : z.turned l scr a b = .ok (t, m) := by
  obtain ⟨hm, hposted, hval, rfl⟩ := h
  obtain ⟨loc, hplan, rfl⟩ := planMoor_ok hm
  have hnone : ¬ (z.posted.any fun p => p.2.core == z.cc && p.2.grp == z.cg && p.2.lane == l &&
      p.2.moor.id == (loc.moor (moorAddr scr a) 0 0).id) = true := by
    rw [List.all_eq_not_any_not, Bool.not_eq_true'] at hposted
    simp only [Bool.not_not] at hposted
    exact ne_true_of_eq_false hposted
  unfold State.turned
  rw [hplan]
  dsimp only [bind, Except.bind]
  rw [if_neg hnone, hval]
  rfl
end

/-- Settles O34, by what a posting, and a look at a mooring, give in a lane. -/
theorem mooringWords : Obligations.MooringWords := by
  intro d a b scr p
  refine ⟨performs_serial (fun _ => rfl) fun _ _ _ _ => postMoor_ok, performs_serial (fun _ => rfl) fun _ _ _ _ => postMoor_ok,
    performs_serial (fun _ => rfl) fun _ _ _ _ => postMoor_ok, performs_each (fun _ => rfl) ?mwait, performs_each (fun _ => rfl) ?mtest⟩
  case mwait =>
    rintro z l v _ ⟨m, t, hlooks, rfl⟩
    rw [turned_ok hlooks]
    rfl
  case mtest =>
    rintro z l v _ ⟨m, t, hlooks, rfl⟩
    rw [turned_ok hlooks]
    rfl

/-! ### Fences and `wait` (R188 to R192, R208) -/

theorem wideScope_eq (scope : Scope) : wideScope scope = decide (scope ≠ .grp ∧ scope ≠ .team) := by cases scope <;> rfl

theorem under_iff (n lim all : Nat) : under n lim all = true ↔ within n lim all := by
  simp only [under, within, Bool.or_eq_true, beq_iff_eq, decide_eq_true_eq]

/-- Settles O36, by the scopes a fence names and the limits that `wait` compares. -/
theorem fencesAndWaits : Obligations.FencesAndWaits := by
  intro scope x y ld st cp tl far
  have hfar : wideScope scope = far := wideScope_eq scope
  refine ⟨performs_each (fun _ => rfl) ?fence, performs_each (fun _ => rfl) ?xfence, performs_each (fun _ => rfl) ?wait⟩
  case fence =>
    rintro z l v _ rfl
    rw [hfar]
  case xfence =>
    rintro z l v _ rfl
    rw [hfar]
    rfl
  case wait =>
    rintro z l v _ ⟨⟨hld, hst, hcp, htl⟩, rfl⟩
    simp only [(under_iff ..).mpr hld, (under_iff ..).mpr hst, (under_iff ..).mpr hcp, (under_iff ..).mpr htl, Bool.and_self, if_true]

end Sys2Proof.Synchronisation
end

section
/-! PROOFS. Memory levels and translation: the cache, map and translation words (R223 to R227). -/
open Sys2Proof Sys2Proof.Machine Sys2Proof.Safety Sys2Proof.Rules

namespace Sys2Proof.MemoryLevels

/-! ### What the words plan (R224 to R227) -/

theorem bits_low (x hi : Nat) : bits x hi 0 = x % 2 ^ (hi + 1) := by
  rw [FloatingPointAndPacked.bits_eq, Nat.pow_zero, Nat.div_one, Nat.sub_zero]

section
variable {z : State} {a b : Nat}

/-- The operands of `smap` pass its checks, in their order (R224). -/
theorem planSmap_ok {sofs n : Nat} (hsofs : sofs = b % 2 ^ 19) (hn : n = b / 2 ^ 24 % 2 ^ 8) (halign : a % 4096 = 0)
    (halignS : sofs % 4096 = 0) (hzero : b / 2 ^ 20 % 2 ^ 4 = 0) (hpos : n ≠ 0) (hmost : n ≤ 128) (hfits : sofs + 4096 * n ≤ z.cteam.scrLen)
    (hroom : z.cteam.maps.length < 8) (hapart : ∀ p ∈ z.cteam.maps, p.2.sofs + 4096 * p.2.nchk ≤ sofs ∨ sofs + 4096 * n ≤ p.2.sofs) :
    z.planSmap z.cc z.cg a b = .ok [.smap (BitVec.ofNat 64 a) (BitVec.ofNat 32 b)] := by
  have hmeets : z.cteam.maps.any (fun p => p.2.sofs < sofs + 4096 * n && sofs < p.2.sofs + 4096 * p.2.nchk) = false := by
    rw [List.any_eq_false]
    intro p hp
    rcases hapart p hp with h | h
    · simp [Nat.not_lt.mpr h]
    · simp [Nat.not_lt.mpr h]
  unfold State.planSmap
  rw [show z.teamOf z.cc z.cg = z.cteam from rfl, show bits b 18 0 = sofs from (bits_low b 18).trans hsofs.symm,
    show bits b 31 24 = n from (FloatingPointAndPacked.bits_eq b 31 24).trans hn.symm,
    show bits b 23 20 = 0 from (FloatingPointAndPacked.bits_eq b 23 20).trans hzero]
  dsimp only
  rw [if_neg (by omega), if_neg (by simp [halignS, hpos, hmost]), if_neg (by omega), if_neg (by simp [hmeets, hroom])]

/-- A write-back that names maps, none of whose sectors fails (R225). -/
theorem planFlush_ok {unmap : Bool} {ks : List Nat}
    (hks : ks = if bitAt b 31 && !unmap then z.cteam.maps.keys else (z.cteam.maps.filter fun p => p.2.sofs == b % 2 ^ 19).map (·.1))
    (hzero : b / 2 ^ 19 % 2 ^ 12 = 0) (hone : bitAt b 31 = true → unmap = false) (hsome : bitAt b 31 = true ∨ ks ≠ [])
    (hfault : z.flushFault (z.chain.core, z.chain.grp) z.cgroup.team ks = none) :
    z.planFlush z.cc z.cg b unmap = .ok (z.touches z.chain.core z.chain.grp false (z.flushLocs z.chain.core z.chain.grp ks) ++ [.sflush ks unmap]) := by
  unfold State.planFlush
  rw [show z.teamOf z.cc z.cg = z.cteam from rfl, bits_low, show bits b 30 19 = 0 from (FloatingPointAndPacked.bits_eq b 30 19).trans hzero]
  dsimp only
  rw [← hks, show z.flushFault (z.cc, z.cg) (z.group z.cc z.cg).team ks = none from hfault, if_neg]
  · rfl
  · cases hb : bitAt b 31 with
    | false => simp [hb] at hsome; simp [hsome]
    | true => simp [hone hb]
end

/-! ### Tables -/

theorem find_keep {α : Type} (t : Tbl α) (f : Nat → Bool) (k : Nat) :
    Tbl.find (t.keep fun j _ => f j) k = if f k then Tbl.find t k else none := by
  induction t with
  | nil => simp [Tbl.keep]
  | cons p t ih =>
    obtain ⟨i, x⟩ := p
    unfold Tbl.keep at ih ⊢
    rw [List.filter_cons]
    by_cases hk : i = k
    · subst hk
      cases hf : f i
      · rw [if_neg (by simp [hf]), ih, hf]; rfl
      · rw [if_pos (by simp [hf]), Tbl.find_cons]; simp [Tbl.find_cons]
    · split
      · rw [Tbl.find_cons, if_neg hk, ih, Tbl.find_cons, if_neg hk]
      · rw [ih, Tbl.find_cons, if_neg hk]

/-- A table of fewer than `n` entries leaves a key below `n` free. -/
theorem exists_free {α : Type} {t : Tbl α} {n : Nat} (h : t.length < n) : ∃ k ∈ List.range n, (Tbl.find t k).isNone = true := by
  by_contra hnone
  have hsub : List.range n ⊆ t.keys := fun k hk => by
    rw [InstructionEncoding.mem_keys_iff, Option.isSome_iff_ne_none]
    exact fun hfree => hnone ⟨k, hk, Option.isNone_iff_eq_none.mpr hfree⟩
  have hlen := (List.subperm_of_subset List.nodup_range hsub).length_le
  rw [List.length_range, Tbl.keys, List.length_map] at hlen
  omega

/-! ### Lines and maps (R224, R226) -/
section
variable (s : State) (c g l : Nat)

theorem l1_cinv_all (va : DWord) : ((s.perform c g l (.cinv va 0)).core c).l1 = [] := by
  simp [State.perform, State.doCinv, State.l1DropAll]

theorem l1_cinv {n : Nat} (hn : n ≠ 0) (va : DWord) (k : Nat) : Tbl.find ((s.perform c g l (.cinv va n)).core c).l1 k =
    if lineIn (s.runs c (s.ctxOf c g) va.toNat n) (k / 4) then none else Tbl.find (s.core c).l1 k := by
  simp only [State.perform, State.doCinv, if_neg hn, State.core_setCore_same]
  rw [find_keep _ fun j => !lineIn (s.runs c (s.ctxOf c g) va.toNat n) (j / 4)]
  cases lineIn (s.runs c (s.ctxOf c g) va.toNat n) (k / 4) <;> rfl

theorem dirty_cwb (va : DWord) (n k : Nat) : Tbl.find (s.perform c g l (.cwb va n)).dirty k =
    if lineIn (s.runs c (s.ctxOf c g) va.toNat n) k then none else Tbl.find s.dirty k := by
  have hdirty : (s.perform c g l (.cwb va n)).dirty = s.dirty.keep fun k _ => !lineIn (s.runs c (s.ctxOf c g) va.toNat n) k := rfl
  rw [hdirty, find_keep _ fun k => !lineIn (s.runs c (s.ctxOf c g) va.toNat n) k]
  cases lineIn (s.runs c (s.ctxOf c g) va.toNat n) k <;> rfl

theorem st_cwb (va : DWord) (n : Nat) : ((s.perform c g l (.cwb va n)).group c g).st = (s.group c g).st + 1 := by
  simp only [State.perform, State.doCwb, State.newTxn, State.group_updGroup_same, if_true]
  rfl

theorem maps_smap (va : DWord) (w : Word) (hroom : (s.team (s.group c g).team).maps.length < 8) :
    ∃ k, k < 8 ∧ Tbl.find (s.team (s.group c g).team).maps k = none ∧ ((s.perform c g l (.smap va w)).team (s.group c g).team).maps =
      Tbl.put (s.team (s.group c g).team).maps k
        ⟨w.toNat % 2 ^ 19, w.toNat / 2 ^ 24, va, if w.getLsbD 19 then List.range (w.toNat / 2 ^ 24) else [], [], []⟩ := by
  obtain ⟨k, hk⟩ := Option.isSome_iff_exists.mp
    (List.find?_isSome (p := fun k => (Tbl.find (s.team (s.group c g).team).maps k).isNone) |>.mpr (exists_free hroom))
  have hn : bits w.toNat 31 24 = w.toNat / 2 ^ 24 := by
    rw [FloatingPointAndPacked.bits_eq]
    have := w.isLt
    omega
  refine ⟨k, List.mem_range.mp (List.mem_of_find?_eq_some hk), Option.isNone_iff_eq_none.mp (List.find?_some (p := fun k => (Tbl.find (s.team (s.group c g).team).maps k).isNone) hk), ?_⟩
  simp only [State.perform, State.doSmap, State.team_setTeam, if_true, hk, Option.getD_some, bits_low, hn]
  rfl
end

/-! ### Cached translations (R227) -/

/-- A cached translation that `tlbDrop` drops: of a context or of any, and for an address or for any. -/
def dropped (ctx va : Option Nat) (e : TlbEnt) : Bool :=
  (match ctx with | some x => e.ctx == x | none => true) &&
    (match va with
      | some a => if e.big then a / 2 ^ 28 == e.page / 2 ^ 28 else a / 2 ^ 16 == e.page / 2 ^ 16
      | none => true)
theorem tlb_tlbDrop (s : State) (ctx va : Option Nat) (c : Nat) :
    ((s.tlbDrop ctx va).core c).tlb = (s.core c).tlb.filter fun e => !dropped ctx va e := by
  simp only [State.core, State.tlbDrop, Tbl.get, Tbl.find_mapV]
  cases Tbl.find s.cores c <;> rfl

theorem tlb_updGroup (s : State) (core grp : Nat) (f : Group → Group) (c : Nat) : ((s.updGroup core grp f).core c).tlb = (s.core c).tlb := by
  simp only [State.updGroup, State.setGroup, State.core_setCore]
  split
  · rename_i h; rw [h]
  · rfl

theorem tlb_mapGroups (s : State) (f : Nat → Nat → Group → Group) (c : Nat) : ((s.mapGroups f).core c).tlb = (s.core c).tlb := by
  simp only [State.core, State.mapGroups, Tbl.get, Tbl.find_mapV]
  cases Tbl.find s.cores c <;> rfl

/-- No copy of a group waits, and as in `s` nothing is posted and the same translations are cached. -/
structure CopiesOver (s u : State) : Prop where
  items : ∀ c g, (u.group c g).openBatch = [] ∧ (u.group c g).batches = []
  posted : u.posted = s.posted
  lantern : u.lantern = s.lantern
  tlb : ∀ c, (u.core c).tlb = (s.core c).tlb

/-- Finishing the copies of a group that has none changes nothing of that. -/
theorem CopiesOver.updGroup {s u : State} (h : CopiesOver s u) (core grp : Nat) {f : Group → Group}
    (hf : ∀ x, x.openBatch = [] → x.batches = [] → (f x).openBatch = [] ∧ (f x).batches = []) : CopiesOver s (u.updGroup core grp f) where
  items c g := by
    rw [State.group_updGroup]
    split
    · exact hf _ (h.items ..).1 (h.items ..).2
    · exact h.items c g
  posted := h.posted
  lantern := h.lantern
  tlb c := (tlb_updGroup ..).trans (h.tlb c)

theorem CopiesOver.foldl {α : Type} {s u : State} {f : State → α → State} (h : CopiesOver s u)
    (hf : ∀ u a, CopiesOver s u → CopiesOver s (f u a)) (xs : List α) : CopiesOver s (xs.foldl f u) :=
  List.foldlRecOn xs f h fun u hu a _ => hf u a hu

/-- With nothing posted, what settles are loads only. -/
theorem CopiesOver.tlb_settleUses {s u : State} (h : CopiesOver s u) (hposted : s.posted = []) (hjdecs : s.lantern.jdecs = [])
    (pick : Nat → Nat → Bool) (c : Nat) : ((u.settleUses pick).core c).tlb = (s.core c).tlb := by
  simp only [State.settleUses, h.posted, hposted, h.lantern, hjdecs, List.filter_nil, List.foldl_nil, List.length_nil, List.range_zero]
  exact (tlb_mapGroups ..).trans (h.tlb c)

theorem copiesOver_of_groups {s : State} (h : ∀ p ∈ s.cores, ∀ q ∈ p.2.groups, q.2.openBatch = [] ∧ q.2.batches = []) : CopiesOver s s where
  items c g := by
    simp only [State.group, State.core, Tbl.get]
    cases hc : Tbl.find s.cores c with
    | none => exact ⟨rfl, rfl⟩
    | some k =>
      cases hg : Tbl.find k.groups g with
      | none => simp [hg]
      | some x => simpa [hg] using h _ (find_mem hc) _ (find_mem hg)
  posted := rfl
  lantern := rfl
  tlb _ := rfl

/-- Where nothing waits for its turn, `tlbi` only drops translations. -/
theorem tlb_doTlbi_quiet {s : State} (va sel : Nat) (hposted : s.posted = []) (hjdecs : s.lantern.jdecs = [])
    (hcopies : ∀ p ∈ s.cores, ∀ q ∈ p.2.groups, q.2.openBatch = [] ∧ q.2.batches = []) (c : Nat) :
    ((s.doTlbi va sel).core c).tlb = (s.core c).tlb.filter fun e =>
      !dropped (if bitAt sel 16 then none else some (sel % 65536)) (if bitAt sel 17 then none else some va) e := by
  unfold State.doTlbi
  rw [tlb_tlbDrop]
  refine congrArg (List.filter _) (CopiesOver.tlb_settleUses ((copiesOver_of_groups hcopies).foldl (fun u p hu => ?_) _) hposted hjdecs _ c)
  obtain ⟨hopen, hbatches⟩ := hu.items p.1 p.2
  split
  · exact hu
  · dsimp only
    rw [hopen, hbatches]
    refine hu.updGroup p.1 p.2 fun x hx hy => ?_
    rw [hx, hy]
    exact ⟨rfl, rfl⟩

/-- The translations that `tlbi` selects (R227). -/
theorem dropped_tlbi (va sel : Nat) (e : TlbEnt) :
    dropped (if bitAt sel 16 then none else some (sel % 65536)) (if bitAt sel 17 then none else some va) e = true ↔
      (bitAt sel 16 = true ∨ e.ctx = sel % 65536) ∧
        (bitAt sel 17 = true ∨ if e.big = true then va / 2 ^ 28 = e.page / 2 ^ 28 else va / 2 ^ 16 = e.page / 2 ^ 16) := by
  unfold dropped
  rw [Bool.and_eq_true]
  refine and_congr ?_ ?_
  · cases bitAt sel 16 <;> simp
  · cases bitAt sel 17
    · cases e.big <;> simp
    · simp

section
variable (s : State) (c g l : Nat) (va : DWord) (sel : Word) {core : Nat} {e : TlbEnt}

theorem not_selected_of_mem_tlbi (h : e ∈ ((s.perform c g l (.tlbi va sel)).core core).tlb) :
    ¬((sel.getLsbD 16 = true ∨ e.ctx = sel.toNat % 65536) ∧
      (sel.getLsbD 17 = true ∨ if e.big = true then va.toNat / 2 ^ 28 = e.page / 2 ^ 28 else va.toNat / 2 ^ 16 = e.page / 2 ^ 16)) := by
  simp only [State.perform, State.doTlbi, tlb_tlbDrop, List.mem_filter, Bool.not_eq_true'] at h
  exact fun hsel => ne_true_of_eq_false h.2 ((dropped_tlbi ..).mpr hsel)

theorem mem_tlbi_of_other (hposted : s.posted = []) (hjdecs : s.lantern.jdecs = [])
    (hcopies : ∀ p ∈ s.cores, ∀ q ∈ p.2.groups, q.2.openBatch = [] ∧ q.2.batches = []) (he : e ∈ (s.core core).tlb)
    (hone : sel.getLsbD 16 = false) (hctx : e.ctx ≠ sel.toNat % 65536) : e ∈ ((s.perform c g l (.tlbi va sel)).core core).tlb := by
  simp only [State.perform, tlb_doTlbi_quiet _ _ hposted hjdecs hcopies, List.mem_filter, Bool.not_eq_true']
  refine ⟨he, Bool.eq_false_iff.mpr fun hdrop => ?_⟩
  rcases ((dropped_tlbi ..).mp hdrop).1 with h | h
  · exact Bool.false_ne_true (hone.symm.trans h)
  · exact hctx h
end

/-! ### Writing maps back (R211, R225) -/

theorem find_maps_cleanSector {s : State} {team : Nat} {p : Nat × Nat} {m : ScrMap}
    (h : Tbl.find ((s.cleanSector team p).team team).maps p.1 = some m) : p.2 ∉ m.dirtyData ∧ p.2 ∉ m.dirtyScale := by
  unfold State.cleanSector at h
  rw [State.team_setTeam, if_pos rfl, Tbl.find_mapV] at h
  obtain ⟨y, -, rfl⟩ := Option.map_eq_some_iff.mp h
  rw [if_pos rfl]
  simp

theorem mem_l1Update (s : State) (core key : Nat) (ks : List Nat) : (s.l1Update core key ks).mem = s.mem :=
  InstructionEncoding.foldl_keeps State.mem (fun u k => by split <;> rfl) _ _

theorem scr_touch (s : State) (c : Option Nat) (ctx : Nat) (write : Bool) (va core : Nat) :
    ((s.touch c ctx write va).core core).scr = (s.core core).scr := by
  unfold State.touch
  dsimp only
  split
  · rfl
  · split
    · split
      · rfl
      · rw [State.core_setCore]
        split
        · rename_i h; rw [← h]; rfl
        · rfl
    · rfl

/-- The data of a sector goes out as a store of the group, where its slots are clean and it lies in no window. -/
theorem mem_wbSector {s : State} {who : Nat × Nat} {core ctx va k pa key apt dev leaf entry : Nat} {big : Bool}
    (hx : s.xlat (some who.1) ctx .store va = .ok pa key apt dev leaf big entry) (hapt : apt ≠ 3) :
    (s.wbSector who core ctx va k true false).mem =
      ((s.touch (some who.1) ctx true va).devWrite (some who) key pa (s.scrRead core (32 * k) 32).1 (s.scrRead core (32 * k) 32).2).mem := by
  have hread : (s.touch (some who.1) ctx true va).scrRead core (32 * k) 32 = s.scrRead core (32 * k) 32 := by
    simp only [State.scrRead, scr_touch]
  unfold State.wbSector
  simp only [hx, hread, Bool.false_and, if_true, if_false, Bool.false_eq_true, if_neg hapt]
  exact mem_l1Update ..

section
variable {s : State} {c g l : Nat} {ks : List Nat}

theorem find_maps_sunmap : ∀ k ∈ ks, Tbl.find ((s.perform c g l (.sflush ks true)).team (s.group c g).team).maps k = none := by
  intro k hk
  simp only [State.perform, State.doFlush, if_true, State.team_setTeam]
  rw [find_keep _ fun k => !ks.contains k, if_neg (by simpa using hk)]

theorem perform_sflush : s.perform c g l (.sflush ks false) = s.flushList (c, g) (s.group c g).team ((s.team (s.group c g).team).dirtyOf ks) := rfl

/-- A map with a clean slot and dirty data: what one sector's write-back leaves in memory. -/
theorem mem_flushSector {t : Nat} {p : Nat × Nat} {m : ScrMap} {pa key apt dev leaf entry : Nat} {big : Bool}
    (hmap : Tbl.find (s.team t).maps p.1 = some m) (hdata : p.2 ∈ m.dirtyData) (hscale : p.2 ∉ m.dirtyScale)
    (hx : s.xlat (some c) (s.grid (s.team t).grid).ctx .store ((s.team t).dirtyVa p) = .ok pa key apt dev leaf big entry) (hapt : apt ≠ 3) :
    (s.flushSector (c, g) t p).mem = ((s.touch (some c) (s.grid (s.team t).grid).ctx true ((s.team t).dirtyVa p)).devWrite (some (c, g)) key pa
      (s.scrRead (s.team t).core (32 * p.2) 32).1 (s.scrRead (s.team t).core (32 * p.2) 32).2).mem := by
  have hmap' : Tbl.get (s.team t).maps p.1 ⟨0, 0, 0, [], [], []⟩ = m := by rw [Tbl.get, hmap]; rfl
  have hd : m.dirtyData.contains p.2 = true := by simpa using hdata
  have hs : m.dirtyScale.contains p.2 = false := by simpa using hscale
  unfold State.flushSector
  simp only [hmap', hd, hs]
  exact mem_wbSector hx hapt
end

/-- Settles O37, by what each word plans in a lane, and by what the effects do to lines, translations and maps. -/
theorem cacheAndMapWords : Obligations.CacheAndMapWords := by
  intro a b l2
  refine ⟨performs_each (fun _ => rfl) ?cinv, performs_each (fun _ => rfl) ?cwb, performs_each (fun _ => rfl) ?pfetch,
    performs_each (fun _ => rfl) ?tlbi, performs_once (fun _ => rfl) ?smap, performs_once (fun _ => rfl) ?sunmap, performs_once (fun _ => rfl) ?sflush,
    fun s c g l n va => ⟨l1_cinv_all s c g l va, fun hn k => l1_cinv s c g l hn va k, dirty_cwb s c g l va n, st_cwb s c g l va n, fun sel core e =>
      ⟨not_selected_of_mem_tlbi s c g l va sel, mem_tlbi_of_other s c g l va sel⟩⟩, ?maps, ?flush⟩
  case cinv => rintro z l v _ rfl; rfl
  case cwb =>
    rintro z l v _ ⟨hpos, hmost, rfl⟩
    rw [if_neg (by simpa [hpos] using hmost)]
  case pfetch => rintro z l v _ rfl; rfl
  case tlbi =>
    rintro z l v _ ⟨hsel, hfree, rfl⟩
    rw [if_neg (by simpa using hsel), hfree]
    rfl
  case smap =>
    rintro z m l v _ ⟨halign, hsofs, hzero, hpos, hmost, hfits, hroom, hapart, rfl⟩
    exact planSmap_ok rfl rfl halign hsofs hzero hpos hmost hfits hroom hapart
  case sunmap =>
    rintro z m l v _ ⟨ks, hks, hsome, hzero, hfault, rfl⟩
    have hbit : bitAt (arg v 0) 31 = false := by
      rw [bitAt, Nat.testBit_eq_decide_div_mod_eq]
      simp only [decide_eq_false_iff_not]
      omega
    exact planFlush_ok (by rw [hbit]; exact hks) (by omega) (fun h => absurd h (by simp [hbit])) (.inr hsome) hfault
  case sflush =>
    rintro z m l v _ ⟨ks, hks, hsome, hzero, hfault, rfl⟩
    exact planFlush_ok (by rw [Bool.not_false, Bool.and_true]; exact hks) hzero (fun _ => rfl) hsome hfault
  case maps =>
    intro s c g l va w t hroom
    obtain ⟨k, hk, hfree, hmaps⟩ := maps_smap s c g l va w hroom
    refine ⟨k, hk, hfree, ?_, fun i hi => ?_⟩
    · rw [hmaps, Tbl.find_put_same]
    · rw [hmaps, Tbl.find_put_ne hi.symm]
  case flush =>
    intro s c g l ks t ctx
    refine ⟨find_maps_sunmap, fun hclean => ?_, fun p ps hdirty hfault => ⟨?_, fun m hm => find_maps_cleanSector hm, ?_⟩⟩
    · rw [perform_sflush, hclean]; rfl
    · rw [perform_sflush, hdirty, State.flushList, hfault]
    · intro m pa key apt dev leaf big entry hmap hdata hscale hx hapt
      exact mem_flushSector hmap hdata hscale hx hapt

end Sys2Proof.MemoryLevels
end

section
/-! PROOFS. Traps, faults and model contexts: the events of the Keeper (R319, R323 to R328, R340 to R348). -/
open Sys2Proof Sys2Proof.Machine Sys2Proof.Safety Sys2Proof.Rules

namespace Sys2Proof.KeeperService

/-! ### STATE 5 (R403, R405) -/

theorem unlessStopped_stopped {s : State} (h : s.keeper.status.st = 5) (t : State) : s.unlessStopped t = .next s := by
  rw [State.unlessStopped, if_pos h]
theorem unlessStopped_runs {s : State} (h : s.keeper.status.st ≠ 5) (t : State) : s.unlessStopped t = .next t := by
  rw [State.unlessStopped, if_neg h]

/-- Each event of the Keeper is one that STATE 5 leaves undone. -/
theorem keepers_unlessStopped {i : Instr} (h : keepers i) (s : State) : ∃ t, Sys2Proof.Machine.exec i s = s.unlessStopped t := by
  rcases h with ⟨k, how, rfl⟩ | ⟨c, rfl⟩ | ⟨c, l, b, rfl⟩ | ⟨c, l, a, rfl⟩ | ⟨c, l, rfl⟩ | ⟨k, hi⟩
  · exact ⟨_, rfl⟩
  · exact ⟨_, rfl⟩
  · exact ⟨_, rfl⟩
  · exact ⟨_, rfl⟩
  · exact ⟨_, rfl⟩
  · simp only [List.mem_cons, List.not_mem_nil, or_false] at hi
    rcases hi with rfl | rfl | rfl | rfl | rfl | rfl | rfl | rfl <;> exact ⟨_, rfl⟩

/-! ### The policy's choice (R323) -/
section
variable {s : State} {k : Nat} {p : ParkRec} (h : undecided s k p)
include h

/-- An undecided fault is there, no upcall decides it, and something waits for its outcome: the policy's choice is made. -/
theorem due_of_undecided : Tbl.find s.keeper.parks k = some p ∧ s.upcall p = false ∧ s.parkWaits p = true := by
  obtain ⟨hfind, hup, hwait⟩ := h
  refine ⟨hfind, hup, ?_⟩
  rcases hwait with hflush | hlanes
  · rw [State.parkWaits, hflush]; rfl
  · simp [State.parkWaits, hlanes]

theorem service_leave : s.service k .leave = s := by
  obtain ⟨hfind, hup, hwait⟩ := due_of_undecided h
  simp [State.service, hfind, hup, hwait]
theorem service_retry : s.service k .retry = (s.unpark p).dropPark k := by
  obtain ⟨hfind, hup, hwait⟩ := due_of_undecided h
  simp [State.service, hfind, hup, hwait]
theorem service_deliver : s.service k .deliver = (s.deliverPark p).dropPark k := by
  obtain ⟨hfind, hup, hwait⟩ := due_of_undecided h
  simp [State.service, hfind, hup, hwait]
theorem service_abort : s.service k .abort = (s.abortGrid (s.team p.team).grid).dropPark k := by
  obtain ⟨hfind, hup, hwait⟩ := due_of_undecided h
  simp [State.service, hfind, hup, hwait]
theorem service_setrap {x : Nat} {big : Bool} {e : Nat} (hleaf : s.walk p.ctx p.va.toNat = .leaf x big e) :
    s.service k .setrap = ((s.setLeaf p.ctx p.va.toNat (· ||| 128)).unpark p).dropPark k := by
  obtain ⟨hfind, hup, hwait⟩ := due_of_undecided h
  simp [State.service, hfind, hup, hwait, hleaf]
theorem service_migrate {v : Bool} {t : State} (hmoved : s.migratePage p.ctx (s.team p.team).core p.va.toNat (bit01 v) = .ok t) :
    s.service k (.migrate v) = (t.unpark p).dropPark k := by
  obtain ⟨hfind, hup, hwait⟩ := due_of_undecided h
  simp [State.service, hfind, hup, hwait, hmoved]
theorem service_request (hcause : p.cause = .layerWithdrawn) : s.service k .request = (s.serviceLayer p).dropPark k := by
  obtain ⟨hfind, hup, hwait⟩ := due_of_undecided h
  simp [State.service, hfind, hup, hwait, hcause]
theorem service_map {leaf : DWord} (hjudge : s.judgeLeaf p.ctx p.va.toNat (plainLeaf leaf.toNat) = 0)
    (hroom : s.canInstall p.ctx p.va.toNat ((plainLeaf leaf.toNat).testBit 61) = true) : s.service k (.map leaf) =
      ((s.install p.ctx p.va.toNat (plainLeaf leaf.toNat) ((plainLeaf leaf.toNat).testBit 61)).unpark p).dropPark k := by
  obtain ⟨hfind, hup, hwait⟩ := due_of_undecided h
  have hdue : (decide (s.judgeLeaf p.ctx p.va.toNat (plainLeaf leaf.toNat) = 0) &&
      s.canInstall p.ctx p.va.toNat (bitAt (plainLeaf leaf.toNat) 61)) = true := by simp [hjudge, bitAt, hroom]
  simp only [State.service, hfind, hup, hwait, Bool.not_true, Bool.false_eq_true, if_false]
  exact if_pos hdue
end

/-! ### A team's group, resident (R156, R361) -/

/-- The groups of a core, as the places of a team's. -/
def placesIn (team : Nat) (p : Nat × Core) : List (Nat × Nat) := (p.2.groups.filter fun q => q.2.team == team).map fun q => (p.1, q.1)

theorem core_of_placesIn {team : Nat} {p : Nat × Core} {f : Nat × Nat → Bool} {q : Nat × Nat} (h : (placesIn team p).find? f = some q) : q.1 = p.1 := by
  obtain ⟨x, -, rfl⟩ := List.mem_map.mp (List.mem_of_find?_eq_some h)
  rfl

/-- The first place in a table of cores is that of the first core listed under its number, if it has one there. -/
theorem first_place {team : Nat} {f : Nat × Nat → Bool} {t : Tbl Core} {c g : Nat} {x : Core}
    (h : (t.flatMap (placesIn team)).find? f = some (c, g)) (hx : Tbl.find t c = some x) {q : Nat × Nat}
    (hq : (placesIn team (c, x)).find? f = some q) : q = (c, g) := by
  induction t with
  | nil => cases hx
  | cons p t ih =>
    obtain ⟨i, y⟩ := p
    rw [List.flatMap_cons, List.find?_append] at h
    rw [Tbl.find_cons] at hx
    split at hx
    · rename_i hi
      cases hx; subst hi
      rw [hq, Option.some_or] at h
      exact Option.some.inj h
    · rename_i hi
      cases hy : (placesIn team (i, y)).find? f with
      | none => rw [hy, Option.none_or] at h; exact ih h hx
      | some r =>
        rw [hy, Option.some_or] at h
        cases h
        exact absurd (core_of_placesIn hy).symm hi

/-- Replacing a core by one with the same groups leaves the first place. -/
theorem first_place_put {team : Nat} {f : Nat × Nat → Bool} {t : Tbl Core} {c g : Nat} {x : Core}
    (h : (t.flatMap (placesIn team)).find? f = some (c, g)) (hx : x.groups = (Tbl.get t c {}).groups) :
    ((Tbl.put t c x).flatMap (placesIn team)).find? f = some (c, g) := by
  induction t with
  | nil => cases h
  | cons p t ih =>
    obtain ⟨i, y⟩ := p
    have hsame : ∀ z : Core, x.groups = z.groups → placesIn team (c, x) = placesIn team (c, z) := fun z hz => by rw [placesIn, placesIn, hz]
    unfold Tbl.put
    split
    · rename_i hi
      subst hi
      rw [Tbl.get, Tbl.find_cons, if_pos rfl] at hx
      rw [List.flatMap_cons] at h ⊢
      rw [hsame y hx]
      exact h
    · rename_i hi
      have hget : Tbl.get ((i, y) :: t) c {} = Tbl.get t c {} := by rw [Tbl.get, Tbl.find_cons, if_neg hi]; rfl
      split
      · rw [List.flatMap_cons, List.find?_append]
        cases hq : (placesIn team (c, x)).find? f with
        | none => rw [Option.none_or]; exact h
        | some q =>
          rw [Option.some_or]
          cases hz : Tbl.find ((i, y) :: t) c with
          | none =>
            rw [Tbl.get, hz] at hx
            rw [hsame {} hx] at hq
            cases hq
          | some z =>
            rw [Tbl.get, hz] at hx
            rw [hsame z hx] at hq
            rw [first_place h hz hq]
      · rw [hget] at hx
        rw [List.flatMap_cons, List.find?_append] at h ⊢
        cases hy : (placesIn team (i, y)).find? f with
        | none =>
          rw [hy, Option.none_or] at h
          rw [Option.none_or]
          exact ih h hx
        | some r => rw [hy] at h; exact h

section
variable {s : State} {team gi core grp : Nat} (h : s.memberAt team gi = some (core, grp))
include h

theorem member_eq : s.member team gi = s.group core grp := by
  simp only [State.member, h]
theorem updMember_eq (f : Group → Group) : s.updMember team gi f = s.updGroup core grp f := by
  simp only [State.updMember, h]
theorem memberAt_l1DropAll : (s.l1DropAll core).memberAt team gi = some (core, grp) := by
  have hgroup : ∀ p : Nat × Nat, (s.l1DropAll core).group p.1 p.2 = s.group p.1 p.2 := fun p => by
    simp only [State.l1DropAll, State.group, State.core_setCore]
    split
    · rename_i hp; rw [hp]
    · rfl
  unfold State.memberAt at h ⊢
  simp only [hgroup]
  exact first_place_put h rfl

/-- What `updLanes` makes of a listed lane. -/
theorem lane_updLanes {ls : List Nat} {l : Nat} (hl : l ∈ ls) (hlane : (Tbl.find (s.group core grp).lanes l).isSome = true) (f : Lane → Lane) :
    (s.updLanes team gi ls f).lane core grp l = f (s.lane core grp l) := by
  obtain ⟨x, hx⟩ := Option.isSome_iff_exists.mp hlane
  have hls : ls.contains l = true := by simpa using hl
  simp only [State.updLanes, updMember_eq h, State.lane, State.group_updGroup_same, Group.lane, Group.mapLanes, Tbl.get, Tbl.find_mapV, hx,
    Option.map_some, Option.getD_some, hls, if_true]
end

theorem keeper_updLanes (s : State) (team gi : Nat) (ls : List Nat) (f : Lane → Lane) : (s.updLanes team gi ls f).keeper = s.keeper := by
  unfold State.updLanes State.updMember
  split
  · rfl
  · split <;> rfl

/-- A lane that waits on a fault stands in its group. -/
theorem isSome_of_mem_parkedLanes {s : State} {p : ParkRec} {l : Nat} (hl : l ∈ s.parkedLanes p) :
    (Tbl.find (s.member p.team p.gi).lanes l).isSome = true := by
  obtain ⟨x, hx, rfl⟩ := List.mem_map.mp hl
  rw [← InstructionEncoding.mem_keys_iff]
  exact List.mem_map_of_mem (List.mem_filter.mp hx).1

/-- The lanes that waited are ready, and their core's L1 data cache is empty (R156, R328). -/
theorem unpark_spec {s : State} {p : ParkRec} {core grp l : Nat} (h : s.memberAt p.team p.gi = some (core, grp)) (hl : l ∈ s.parkedLanes p) :
    (s.unpark p).lane core grp l = { s.lane core grp l with mode := .ready } ∧ ((s.unpark p).core core).l1 = [] := by
  have hdrop := memberAt_l1DropAll h
  have hgroup : (s.l1DropAll core).group core grp = s.group core grp := by
    simp only [State.l1DropAll, State.group, State.core_setCore_same]
  have hlanes : (s.l1DropAll core).parkedLanes p = s.parkedLanes p := by
    simp only [State.parkedLanes, member_eq h, member_eq hdrop, hgroup]
  have hlane := isSome_of_mem_parkedLanes hl
  rw [member_eq h] at hlane
  have hunpark : s.unpark p = (s.l1DropAll core).updLanes p.team p.gi (s.parkedLanes p) fun x => { x with mode := .ready } := by
    simp only [State.unpark, h, hlanes]
  rw [hunpark]
  refine ⟨?_, ?_⟩
  · rw [lane_updLanes hdrop hl (by rw [hgroup]; exact hlane), State.lane, hgroup]; rfl
  · rw [State.updLanes, updMember_eq hdrop]
    simp [State.updGroup, State.setGroup, State.l1DropAll]

/-! ### Answers and trap returns (R319, R327) -/
section
variable {s : State} {k core grp : Nat} {r : KReq} (hfind : Tbl.find s.keeper.kreqs k = some r)
include hfind

theorem find_kreqs_answer (n : Nat) : Tbl.find (s.answer k n).keeper.kreqs k = none := by
  simp only [State.answer, hfind, keeper_updLanes, Tbl.find_del, if_true]

variable (h : s.memberAt r.team r.gi = some (core, grp)) (hlane : (Tbl.find (s.group core grp).lanes r.lane).isSome = true)
  (hmode : (s.lane core grp r.lane).mode = .stalled .kreq)
include h hlane hmode

theorem lane_answer (n : Nat) : (s.answer k n).lane core grp r.lane = { (s.lane core grp r.lane).fill r.txn n false 0 with mode := .ready } := by
  simp only [State.answer, hfind]
  refine (lane_updLanes h (List.mem_singleton.mpr rfl) hlane _).trans ?_
  rw [hmode, if_pos (by decide)]

theorem svcReturn_spec : Tbl.find (s.svcReturn k).keeper.kreqs k = none ∧ (s.svcReturn k).lane core grp r.lane =
    { (s.lane core grp r.lane).leaveTrap (s.afterChain (s.team r.team).core (s.teamCtx r.team) (s.lane core grp r.lane).frame.rpPc
      (s.lane core grp r.lane).frame.rpSlot) with mode := .ready } := by
  simp only [State.svcReturn, hfind]
  refine ⟨?_, (lane_updLanes h (List.mem_singleton.mpr rfl) hlane _).trans ?_⟩
  · simp only [keeper_updLanes, Tbl.find_del, if_true]
  · rw [hmode, if_pos (by decide)]
end

/-! ### Services of `kreq` (R327, R328) -/

theorem reqIs_of_turn {s : State} {k svc : Nat} {r : KReq} (hfind : Tbl.find s.keeper.kreqs k = some r) (hsvc : r.svc = svc)
    (hturn : s.reqAhead k r = false) : s.reqIs k svc = true := by
  simp [State.reqIs, hfind, hsvc, hturn]

/-- A request behind another of its chain is not answered. -/
theorem reqIs_of_behind {s : State} {k : Nat} {r : KReq} (hfind : Tbl.find s.keeper.kreqs k = some r) (hbehind : s.reqAhead k r = true) (svc : Nat) :
    s.reqIs k svc = false := by
  simp [State.reqIs, hfind, hbehind]

/-- The rows of the services on a record: an event, its code, and what it does. -/
def isService (s : State) (i : Instr) (k svc : Nat) (f : Nat → FSlot → ParkRec → Nat → Except Nat State) : Prop :=
  Sys2Proof.Machine.exec i s = s.unlessStopped (if s.reqIs k svc then s.onRecord k f else s)

section
variable {s : State} {i : Instr} {k svc ctx pk : Nat} {x : FSlot} {p : ParkRec} {f : Nat → FSlot → ParkRec → Nat → Except Nat State}
  (hst : s.keeper.status.st ≠ 5) (hi : isService s i k svc f)
include hst hi

theorem exec_service_onRecord (hturn : s.reqIs k svc = true) : Sys2Proof.Machine.exec i s = .next (s.onRecord k f) := by
  rw [hi, hturn, if_pos rfl, unlessStopped_runs hst]

section
variable (h : serves s k svc ctx x pk p)
include h
/-- A service performed: DONE in the record, and status 0. -/
theorem exec_service_ok {t : State} (hf : f ctx x p (reply s ctx x) = .ok t) :
    Sys2Proof.Machine.exec i s = .next ((t.serviced ctx x pk).answer k 0) := by
  obtain ⟨r, hfind, hsvc, hturn, rfl, hrec, hpark, hdone, hparkOf, hlanes⟩ := h
  rw [exec_service_onRecord hst hi (reqIs_of_turn hfind hsvc hturn)]
  rw [reply] at hf
  simp [State.onRecord, hfind, hrec, hpark, hdone, hparkOf, hlanes, hf]
/-- A service refused: its status, and nothing else. -/
theorem exec_service_error {n : Nat} (hf : f ctx x p (reply s ctx x) = .error n) : Sys2Proof.Machine.exec i s = .next (s.answer k n) := by
  obtain ⟨r, hfind, hsvc, hturn, rfl, hrec, hpark, hdone, hparkOf, hlanes⟩ := h
  rw [exec_service_onRecord hst hi (reqIs_of_turn hfind hsvc hturn)]
  rw [reply] at hf
  simp [State.onRecord, hfind, hrec, hpark, hdone, hparkOf, hlanes, hf]
end

/-- Requests that name no record with PARK, or one whose fault is over (R327). -/
theorem exec_service_unnamed {r : KReq} (hfind : Tbl.find s.keeper.kreqs k = some r) (hsvc : r.svc = svc) (hturn : s.reqAhead k r = false) :
    (s.recordAt (s.teamCtx r.team) r.a = none → Sys2Proof.Machine.exec i s = .next (s.answer k 3)) ∧
    ∀ x, s.recordAt (s.teamCtx r.team) r.a = some x → (x.r.park = false → Sys2Proof.Machine.exec i s = .next (s.answer k 3)) ∧
      (x.r.park = true → x.done = true → Sys2Proof.Machine.exec i s = .next (s.answer k 2)) := by
  rw [exec_service_onRecord hst hi (reqIs_of_turn hfind hsvc hturn)]
  refine ⟨fun hrec => ?_, fun x hrec => ⟨fun hpark => ?_, fun hpark hdone => ?_⟩⟩
  · simp [State.onRecord, hfind, hrec]
  · simp [State.onRecord, hfind, hrec, hpark]
  · simp [State.onRecord, hfind, hrec, hpark, hdone]
end

section
variable (s : State) (k : Nat)
theorem retry_isService : isService s (.retry k) k 0 s.svcRetry := rfl
theorem remap_isService : isService s (.remap k) k 1 s.svcRemap := rfl
theorem setrap_isService : isService s (.setrap k) k 2 s.svcSetrap := rfl
theorem migrate_isService : isService s (.migrate k) k 3 s.svcMigrate := rfl
theorem restream_isService : isService s (.restream k) k 4 s.svcRestream := rfl
theorem deliver_isService : isService s (.deliver k) k 5 s.svcDeliver := rfl
theorem abort_isService : isService s (.abort k) k 6 s.svcAbort := rfl
end

/-- None of the services is performed on a request behind another of its chain. -/
theorem exec_behind {s : State} (hst : s.keeper.status.st ≠ 5) {k : Nat} {r : KReq} (hfind : Tbl.find s.keeper.kreqs k = some r)
    (hbehind : s.reqAhead k r = true) {i : Instr} (hi : i ∈ [Instr.retry k, .remap k, .setrap k, .migrate k, .restream k, .deliver k, .abort k, .ret k]) :
    Sys2Proof.Machine.exec i s = .next s := by
  have hnot (svc : Nat) (t : State) : s.unlessStopped (if s.reqIs k svc then t else s) = .next s := by
    rw [reqIs_of_behind hfind hbehind svc, unlessStopped_runs hst]; rfl
  simp only [List.mem_cons, List.not_mem_nil, or_false] at hi
  rcases hi with rfl | rfl | rfl | rfl | rfl | rfl | rfl | rfl <;> exact hnot _ _

/-! ### What each service makes of a record (R328) -/
section
variable {s : State} {ctx : Nat} {x : FSlot} {p : ParkRec} {n : Nat}

theorem svcRemap_ok (hjudge : s.judgeLeaf ctx p.va.toNat (plainLeaf (n % 2 ^ 64)) = 0)
    (hroom : s.canInstall ctx p.va.toNat ((plainLeaf (n % 2 ^ 64)).testBit 61) = true) : s.svcRemap ctx x p n =
      .ok ((s.install ctx p.va.toNat (plainLeaf (n % 2 ^ 64)) ((plainLeaf (n % 2 ^ 64)).testBit 61)).unpark p) := by
  unfold plainLeaf at hjudge hroom
  simp only [State.svcRemap, hjudge, bitAt, hroom, if_true, plainLeaf]
theorem svcRemap_noRoom (hjudge : s.judgeLeaf ctx p.va.toNat (plainLeaf (n % 2 ^ 64)) = 0)
    (hroom : s.canInstall ctx p.va.toNat ((plainLeaf (n % 2 ^ 64)).testBit 61) = false) : s.svcRemap ctx x p n = .error 1 := by
  unfold plainLeaf at hjudge hroom
  simp only [State.svcRemap, hjudge, bitAt, hroom]
  rfl
theorem svcRemap_refused (hjudge : s.judgeLeaf ctx p.va.toNat (plainLeaf (n % 2 ^ 64)) ≠ 0) :
    s.svcRemap ctx x p n = .error (s.judgeLeaf ctx p.va.toNat (plainLeaf (n % 2 ^ 64))) := by
  unfold plainLeaf at hjudge ⊢
  unfold State.svcRemap
  dsimp only
  split
  · rename_i h; exact absurd h hjudge
  · rfl
theorem svcSetrap_ok {y : Nat} {big : Bool} {e : Nat} (hleaf : s.walk ctx p.va.toNat = .leaf y big e) :
    s.svcSetrap ctx x p n = .ok ((s.setLeaf ctx p.va.toNat (· ||| 128)).unpark p) := by
  simp only [State.svcSetrap, hleaf]
theorem svcMigrate_eq (hn : n < 2) : s.svcMigrate ctx x p n = (s.migratePage ctx x.r.core p.va.toNat n).map (·.unpark p) := by
  have hkind : ¬ (1 < n % 16 || bits n 127 4 != 0) = true := by
    rw [FloatingPointAndPacked.bits_eq]
    simp
    omega
  unfold State.svcMigrate
  rw [if_neg hkind, Nat.mod_eq_of_lt (by omega)]
  cases s.migratePage ctx x.r.core p.va.toNat n <;> rfl
theorem svcRestream_ok (hlayer : ((s.ctx ctx).layerOf p.va.toNat).isSome = true) : s.svcRestream ctx x p n = .ok (s.serviceLayer p) := by
  obtain ⟨l, hl⟩ := Option.isSome_iff_exists.mp hlayer
  simp only [State.svcRestream, hl]
end

/-! ### The fault queue (R324, R325) -/
section
variable {s : State} {ctx : Nat} {f : FSlot} (hnext : (s.ctx ctx).nextPending = some f)
include hnext

theorem deliverRecord_written {n : Nat} (hopen : s.fqOpen ctx = true) (hnode : s.nodeAt ctx (s.ctx ctx).fqnode = some n) (hroom : s.nodeRoom n = true)
    (hok : s.vok ctx .store ((s.ctx ctx).fqring.toNat + 64 * ((s.ctx ctx).nextRec % (s.ctx ctx).nfq)) 64 = true)
    (hfree : ∀ y ∈ (s.ctx ctx).pending, y.slot = some ((s.ctx ctx).nextRec % (s.ctx ctx).nfq) → s.slotHeld ctx y = false) :
    let c := s.ctx ctx
    let va := c.fqring.toNat + 64 * (c.nextRec % c.nfq)
    let written := { f with slot := some (c.nextRec % c.nfq), va := BitVec.ofNat 64 va, seq := s.nodePut (s.node n) }
    let rest := (c.pending.filter fun (y : FSlot) => y.slot != some (c.nextRec % c.nfq)).map fun (y : FSlot) => if y.id = f.id then written else y
    s.deliverRecord ctx =
      (((s.setCtx ctx { c with nextRec := c.nextRec + 1, pending := rest }).vwrite ctx va f.r.bytes).nodeEmit n (BitVec.ofNat 64 va)) := by
  have hheld : ((s.ctx ctx).pending.any fun y => y.slot == some ((s.ctx ctx).nextRec % (s.ctx ctx).nfq) && s.slotHeld ctx y) = false := by
    rw [List.any_eq_false]
    intro y hy hslot
    rw [Bool.and_eq_true, beq_iff_eq] at hslot
    exact Bool.false_ne_true ((hfree y hy hslot.1).symm.trans hslot.2)
  intro c va written rest
  simp only [State.deliverRecord, hnext, hopen, hnode, hheld, hroom, hok, Bool.not_true, Bool.or_self, Bool.false_eq_true, if_false]
  rfl

/-- Without an open queue the record goes to the Keeper's log. -/
theorem log_deliverRecord (hopen : s.fqOpen ctx = false) (hpark : f.r.park = false) :
    (s.deliverRecord ctx).keeper.log = s.keeper.log ++ [f.r] := by
  simp only [State.deliverRecord, hnext, hopen, hpark, Bool.not_false, if_true, Bool.false_eq_true, if_false, State.keepLog, State.toHost]
  split <;> rfl
end

/-! ### What leaves lanes alone

A layer's fetch takes frames, adds tables and writes a topmark: writes at home units, which reach a group only to note that its
speculation is hit (R191, R343). -/

/-- The lanes of the groups on the cores. -/
def lanesIn (s : State) : List (List (Tbl Lane)) := s.cores.map fun c => c.2.groups.map fun q => q.2.lanes

theorem awaits_iff (s : State) (ctx layer : Nat) : awaits s ctx layer ↔
    ∃ gs ∈ lanesIn s, ∃ ls ∈ gs, ∃ l ∈ ls, l.2.mode = .parked (.layer ctx layer) ∨ l.2.mode = .stalled (.layer ctx layer) := by
  simp only [awaits, lanesIn, List.mem_map, exists_exists_and_eq_and]

theorem lanesIn_mapGroups (s : State) {f : Nat → Nat → Group → Group} (hf : ∀ c g x, (f c g x).lanes = x.lanes) :
    lanesIn (s.mapGroups f) = lanesIn s := by
  simp only [lanesIn, State.mapGroups, Tbl.mapV, List.map_map, Function.comp_def, hf]
@[simp] theorem lanesIn_dirtyLine (s : State) (pa : Nat) : lanesIn (s.dirtyLine pa) = lanesIn s := by
  unfold State.dirtyLine; split <;> rfl
@[simp] theorem lanesIn_noteWrite (s : State) (who : Option (Nat × Nat)) (secs : List Nat) : lanesIn (s.noteWrite who secs) = lanesIn s := by
  refine lanesIn_mapGroups s fun c g x => ?_
  split
  · split
    · rfl
    · split <;> rfl
  · rfl
@[simp] theorem lanesIn_devWrite (s : State) (who : Option (Nat × Nat)) (key pa : Nat) (bs : List Byte) (b : Bool) :
    lanesIn (s.devWrite who key pa bs b) = lanesIn s :=
  (lanesIn_noteWrite ..).trans (InstructionEncoding.foldl_keeps lanesIn (fun s k => lanesIn_dirtyLine s (32 * k)) _ _)
@[simp] theorem lanesIn_touch (s : State) (ctx : Nat) (write : Bool) (va : Nat) : lanesIn (s.touch none ctx write va) = lanesIn s := by
  unfold State.touch
  dsimp only
  split <;> rfl
@[simp] theorem lanesIn_tmSet (s : State) (ctx layer st : Nat) : lanesIn (s.tmSet ctx layer st) = lanesIn s := by
  unfold State.tmSet State.setTopmark
  dsimp only
  split
  · rw [lanesIn_devWrite, lanesIn_touch]
  · rfl
theorem lanesIn_takeFrame {s t : State} {big : Bool} {f : Nat} (h : s.takeFrame big = some (f, t)) : lanesIn t = lanesIn s := by
  obtain ⟨k, -, hk⟩ := Option.map_eq_some_iff.mp h
  cases hk; rfl
theorem lanesIn_takeFrames {ps : List (Nat × Bool)} {s t : State} {fs : List Nat} (h : s.takeFrames ps = some (fs, t)) : lanesIn t = lanesIn s := by
  induction ps generalizing s t fs with
  | nil => cases h; rfl
  | cons p ps ih =>
    unfold State.takeFrames at h
    split at h
    · cases h
    next f u hu =>
      obtain ⟨⟨gs, v⟩, hv, e⟩ := Option.map_eq_some_iff.mp h
      cases e
      rw [ih hv, lanesIn_takeFrame hu]
theorem lanesIn_mapAt {va lv table : Nat} {leaf : Option Nat} {big : Bool} {s t : State} (h : s.mapAt va leaf big lv table = some t) :
    lanesIn t = lanesIn s := by
  induction lv generalizing s table with
  | zero => cases h; rfl
  | succ lv ih =>
    unfold State.mapAt at h
    dsimp only at h
    split at h
    · cases h
      split
      · exact lanesIn_devWrite ..
      · rfl
    · split at h
      · exact ih h
      · split at h
        · cases h
        next f u hu =>
          rw [ih h, lanesIn_devWrite]
          exact show lanesIn u = lanesIn s from lanesIn_takeFrame hu
theorem lanesIn_takeTables {ctx : Nat} {ps : List (Nat × Bool)} {s t : State} (h : s.takeTables ctx ps = some t) : lanesIn t = lanesIn s := by
  induction ps generalizing s with
  | nil => cases h; rfl
  | cons p ps ih =>
    obtain ⟨u, hu, ht⟩ := Option.bind_eq_some_iff.mp h
    rw [ih ht, lanesIn_mapAt hu]
theorem lanesIn_requestLayer (s : State) (ctx layer : Nat) : lanesIn (s.requestLayer ctx layer) = lanesIn s := by
  unfold State.requestLayer
  dsimp only
  split
  · rfl
  · split
    · rfl
    next fs u hu =>
      obtain ⟨⟨gs, v⟩, hv, hw⟩ := Option.bind_eq_some_iff.mp hu
      obtain ⟨w, hw, e⟩ := Option.map_eq_some_iff.mp hw
      cases e
      exact (lanesIn_tmSet ..).trans ((lanesIn_takeTables hw).trans (lanesIn_takeFrames hv))
theorem lanesIn_retryWanted (s : State) : lanesIn s.retryWanted = lanesIn s :=
  InstructionEncoding.foldl_keeps lanesIn (fun _ _ => InstructionEncoding.foldl_keeps lanesIn (fun _ _ => lanesIn_requestLayer ..) _ _) _ _

/-! ### Layers (R340 to R348) -/
section
variable {s : State} {ctx layer : Nat}

theorem not_awaits_wakeLayer (s : State) (ctx layer : Nat) : ¬ awaits (s.wakeLayer ctx layer) ctx layer := by
  rintro ⟨c, hc, q, hq, l, hl, hmode⟩
  obtain ⟨c', -, rfl⟩ := List.mem_map.mp hc
  obtain ⟨q', -, rfl⟩ := List.mem_map.mp hq
  obtain ⟨l', -, rfl⟩ := List.mem_map.mp hl
  dsimp only at hmode
  split at hmode
  · rcases hmode with h | h <;> cases h
  · rename_i hnot
    simp only [Lane.wantsLayer, Bool.or_eq_true, beq_iff_eq] at hnot
    exact hnot hmode

/-- An arriving layer passes the checks of the events that concern it. -/
theorem arriving_due (h : arriving s ctx layer) :
    (!s.hasCtx ctx || decide ((s.ctx ctx).nlayer ≤ layer) || tmState (s.topmark ctx layer) != 1) = false := by
  obtain ⟨hctx, hlayer, hstate⟩ := h
  simp [hctx, Nat.not_le.mpr hlayer, tmState, hstate]

theorem layerArrive_eq (h : arriving s ctx layer) (hpeer : ((s.ctx ctx).source layer).peer.isSome = true) (bytes : List LayerBytes) :
    s.layerArrive ctx layer bytes =
      let u := s.layerBytes ctx layer bytes
      let v := u.setCtx ctx ((u.ctx ctx).noteCame layer bytes)
      if (v.ctx ctx).allCame layer then v.landLayer ctx layer else v := by
  have hnone : ((s.ctx ctx).source layer).peer.isNone = false := by rw [Option.isNone_eq_false_iff]; exact hpeer
  unfold State.layerArrive
  rw [arriving_due h, hnone]
  rfl

theorem fetchFailure_retry (h : arriving s ctx layer) : s.fetchFailure ctx layer false = s.settleLayers ctx := by
  unfold State.fetchFailure
  rw [arriving_due h]
  rfl

/-- After an abandoned fetch no lane on a core waits for the layer. -/
theorem not_awaits_abandoned (h : arriving s ctx layer) : ¬ awaits (s.fetchFailure ctx layer true) ctx layer := by
  unfold State.fetchFailure
  rw [arriving_due h, awaits_iff]
  dsimp only
  rw [if_neg Bool.false_ne_true, if_neg (by decide), lanesIn_retryWanted, ← awaits_iff]
  exact not_awaits_wakeLayer _ _ _

theorem layerEvict_eq {c : Nat} (hwants : ∃ x, (c, x) ∈ s.keeper.ctxs ∧ x.wanted ≠ []) (hvictim : s.victim c = some (ctx, layer)) :
    s.layerEvict ctx layer = (s.evict ctx layer).retryWanted := by
  obtain ⟨x, hx, hwanted⟩ := hwants
  have hmem : (c, x) ∈ s.keeper.ctxs.filter fun p => !p.2.wanted.isEmpty := List.mem_filter.mpr ⟨hx, by simpa using hwanted⟩
  unfold State.layerEvict
  exact if_pos (List.any_eq_true.mpr ⟨_, hmem, by simp [hvictim]⟩)
end

/-- Settles O55, by the policy's choice, the services on the record that a request names, and what an abandoned fetch leaves. -/
theorem keeperEvents : Obligations.KeeperEvents := by
  intro s
  refine ⟨fun hst i hi => ?stopped, fun hst => ?runs⟩
  case stopped =>
    obtain ⟨t, ht⟩ := keepers_unlessStopped hi s
    rw [ht, unlessStopped_stopped hst]
  have run {t u : State} (h : t = u) : s.unlessStopped t = .next u := by rw [unlessStopped_runs hst, h]
  refine ⟨fun k p h => ?policy, fun p core grp l hat hl => unpark_spec hat hl, fun k p _ hflush => ?writeback, fun ctx f n => ?queue,
    fun ctx f hnext hopen hpark => ⟨_, run rfl, log_deliverRecord hnext hopen hpark⟩, fun k ctx x pk p h => ?retry, fun k ctx x pk p h => ?remap,
    fun k ctx x pk p h y big e hleaf => ?setrap, fun k ctx x pk p h hreply => ?migrate, fun k ctx x pk p h hlayer => ?restream,
    fun k ctx x pk p h => ?deliver, fun k ctx x pk p h => ?abort, fun k r hfind hbehind i hi => exec_behind hst hfind hbehind hi,
    fun k r hfind hsvc hturn => exec_service_unnamed hst (retry_isService s k) hfind hsvc hturn,
    fun k r core grp n hfind hat hlane hmode => ⟨lane_answer hfind hat hlane hmode n, find_kreqs_answer hfind n⟩,
    fun k r core grp hfind hsvc hturn hat hlane hmode => ?ret,
    fun ctx layer bytes h hpeer => run (layerArrive_eq h hpeer bytes),
    fun ctx layer h => ⟨run (fetchFailure_retry h), _, run rfl, not_awaits_abandoned h⟩,
    fun ctx layer c hwants hvictim => run (layerEvict_eq hwants hvictim)⟩
  case policy =>
    exact ⟨run (service_leave h), run (service_retry h), run (service_deliver h), run (service_abort h), fun _ _ _ hleaf => run (service_setrap h hleaf),
      fun _ _ hmoved => run (service_migrate h hmoved), fun hcause => run (service_request h hcause), fun _ hjudge hroom => run (service_map h hjudge hroom)⟩
  case writeback => rw [State.deliverPark, if_pos hflush]
  case queue => exact fun hnext hopen hnode hroom hok hfree => run (deliverRecord_written hnext hopen hnode hroom hok hfree)
  case retry => exact exec_service_ok hst (retry_isService s k) h rfl
  case remap =>
    exact ⟨fun hjudge hroom => exec_service_ok hst (remap_isService s k) h (svcRemap_ok hjudge hroom),
      fun hjudge hroom => exec_service_error hst (remap_isService s k) h (svcRemap_noRoom hjudge hroom),
      fun hjudge => exec_service_error hst (remap_isService s k) h (svcRemap_refused hjudge)⟩
  case setrap => exact exec_service_ok hst (setrap_isService s k) h (svcSetrap_ok hleaf)
  case migrate =>
    exact ⟨fun t hmoved => exec_service_ok hst (migrate_isService s k) h (by rw [svcMigrate_eq hreply, hmoved]; rfl),
      fun n hmoved => exec_service_error hst (migrate_isService s k) h (by rw [svcMigrate_eq hreply, hmoved]; rfl)⟩
  case restream => exact exec_service_ok hst (restream_isService s k) h (svcRestream_ok hlayer)
  case deliver => exact exec_service_ok hst (deliver_isService s k) h rfl
  case abort => exact exec_service_ok hst (abort_isService s k) h rfl
  case ret =>
    obtain ⟨hgone, hreturned⟩ := svcReturn_spec hfind hat hlane hmode
    exact ⟨s.svcReturn k, _, run (if_pos (reqIs_of_turn hfind hsvc hturn)), hgone, hreturned, rfl⟩

end Sys2Proof.KeeperService
end

section
/-! PROOFS. Memory levels and translation: a host's write within one sector (R396), on a memory in canonical form and on one that is not. -/
open Sys2Proof Sys2Proof.Machine Sys2Proof.Safety Sys2Proof.Rules

namespace Sys2Proof.MemoryLevels

/-! ### Bytes of other sectors -/

theorem get_rekeys_ne {ks : List Nat} {m : Mem} (hwf : m.wf = true) (key : Nat) {a : Nat} (h : a / 32 ∉ ks) :
    (ks.foldl (fun m k => m.rekey key k) m).get a = m.get a := by
  induction ks generalizing m with
  | nil => rfl
  | cons k ks ih =>
    obtain ⟨hk, hks⟩ := not_or.mp (mt List.mem_cons.mpr h)
    rw [List.foldl_cons, ih (Mem.wf_rekey hwf key k) hks]
    unfold Mem.rekey
    dsimp only
    split
    · rfl
    · rw [Mem.get_setSector, Mem.get_write hwf, Mem.length_readKey, if_neg (by omega)]

/-- A write leaves the bytes of the sectors that it does not reach. -/
theorem get_writeKey_ne {m : Mem} (hwf : m.wf = true) (key a : Nat) (bs : List Byte) (p : Bool) {b : Nat} (h : b / 32 ∉ sectorsOf a bs.length) :
    (m.writeKey key a bs p).get b = m.get b := by
  have hout : ¬ (a ≤ b ∧ b < a + bs.length) := fun hin => h ((mem_sectorsOf (by omega)).mpr (by omega))
  unfold Mem.writeKey
  dsimp only
  rw [LaneMemory.foldl_mem_keeps (f := fun m k => m.mark a bs.length p k) (·.get b) (fun _ _ _ => rfl), Mem.get_write (Mem.rekeys hwf key _).1, if_neg hout, get_rekeys_ne hwf key h]

/-- Nor does what they read as under any key change. -/
theorem getKey_writeKey_ne {m : Mem} (hwf : m.wf = true) (key a : Nat) (bs : List Byte) (p : Bool) {b : Nat} (k : Nat)
    (h : b / 32 ∉ sectorsOf a bs.length) : (m.writeKey key a bs p).getKey k b = m.getKey k b := by
  unfold Mem.getKey
  simp only [LaneMemory.sector_writeKey _ _ _ _ _ h, get_writeKey_ne hwf key a bs p h]
  rw [Mem.read_congr (m' := m) fun c hc => get_writeKey_ne hwf key a bs p (hc ▸ h)]

/-! ### A host's write (R396) -/

/-- What the host wrote stands there under the frame's key, and what it did not reach stands as it did. -/
def HostPutReads (s : State) : Prop := ∀ d (bs : List Byte), bs ≠ [] → d % 32 + bs.length ≤ 32 → let m := (hostPut s d bs).mem
  (∀ i, i < bs.length → m.getKey (s.hostKey d) (d + i) = bs.getD i 0) ∧
  (∀ a, (a < d ∨ d + bs.length ≤ a) → m.getKey (s.hostKey d) a = s.mem.getKey (s.hostKey d) a) ∧
  ∀ a k, a / 32 ≠ d / 32 → m.getKey k a = s.mem.getKey k a

/-- On a memory in canonical form this holds. -/
theorem hostPutReads_of_wf {s : State} (hwf : s.mem.wf = true) : HostPutReads s := by
  intro d bs hne hfit m
  have hm : m = s.mem.writeKey (s.hostKey d) d bs false := LaneMemory.mem_devWrite ..
  have hpos : 0 < bs.length := List.length_pos_iff.mpr hne
  refine ⟨fun i hi => ?_, fun a ha => ?_, fun a k ha => ?_⟩
  · rw [hm, Mem.getKey_writeKey hwf, if_pos (by omega), Nat.add_sub_cancel_left]
  · rw [hm, Mem.getKey_writeKey hwf, if_neg (by omega)]
  · rw [hm, getKey_writeKey_ne hwf]
    rw [mem_sectorsOf hpos]
    omega

/-- A memory that lists address 0 twice, not in canonical form: a write of the blank byte takes away the first entry only. -/
def doubled : State := { mem := { bytes := [(0, 1), (0, 1)] } }
theorem doubled_not_wf : doubled.mem.wf = false := by decide
theorem doubled_keeps : (hostPut doubled 0 [0]).mem.getKey (doubled.hostKey 0) 0 = 1 := by decide +kernel

theorem not_hostPutReads_doubled : ¬ HostPutReads doubled := by
  intro h
  obtain ⟨hwritten, -⟩ := h 0 [0] (by decide) (by decide)
  exact absurd (doubled_keeps.symm.trans (hwritten 0 (by decide))) (by decide)

/-- The part of `FailureAndHostEvents` that speaks of a host's write within one sector. -/
theorem hostPutReads_of_failureAndHostEvents (h : Obligations.FailureAndHostEvents) (s : State) : HostPutReads s := by
  obtain ⟨-, -, -, -, -, -, -, -, -, -, -, -, -, -, hput, -⟩ := h s
  exact hput

/-- Refutes O60: the statement asks nothing of the memory's form, and where an address is listed twice (`doubled`) a host's write of a zero
byte leaves the second entry to be read.  This part holds where the memory is in canonical form
(`hostPutReads_of_wf`). -/
theorem not_failureAndHostEvents : ¬ Obligations.FailureAndHostEvents := fun h =>
  not_hostPutReads_doubled (hostPutReads_of_failureAndHostEvents h doubled)

end Sys2Proof.MemoryLevels
end

section
/-! PROOFS. Engine queues and tenders: the events of the tenders, and the tender and gradient-log words with what a seal and an accepted
operation make of the group (R235 to R254, R284 to R287). -/
open Sys2Proof Sys2Proof.Machine Sys2Proof.Safety Sys2Proof.Rules

namespace Sys2Proof.Tenders

/-! ### The oldest sealed batch (R240, R248) -/
section
variable {s : State} {core grp : Nat} {b : Batch} {rest : List Batch} (hbatches : (s.group core grp).batches = b :: rest)
include hbatches

theorem batchDone_of_posted (hposted : s.postedBefore core grp b.lane b.txn = true) : s.batchDone core grp = s := by
  unfold State.batchDone
  rw [hbatches]
  exact if_pos hposted

theorem batchDone_of_due (hdue : s.postedBefore core grp b.lane b.txn = false) : s.batchDone core grp =
    ((b.items.foldl State.copy1 s).updGroup core grp fun g => ({ g with batches := rest, cp := g.cp - 1 }).sealAtExit).retire core grp
      { b.act with units := if b.act.kind = 2 then (b.items.map (·.size)).sum else 0 } := by
  unfold State.batchDone
  rw [hbatches]
  exact if_neg (ne_true_of_eq_false hdue)
end

/-! ### Operations of the tl counter: what holds an event back, and what it does once due (R245 to R252) -/

/-- The command of a tile operation: its descriptor and its origin (R241, R242). -/
def tileOf (o : TlOp) : TileD := ⟨ofBytesLE o.desc, o.b.toNat % 2 ^ 32, o.b.toNat / 2 ^ 32⟩
/-- The end of a tile whose rows or entries all stand in `u`: the amax update with what `s` holds, the count and the retirement (R245, R247). -/
def tileEnd (s : State) (core grp id : Nat) (o : TlOp) (u : State) : State :=
  ((if (tileOf o).amxe then u.cellMax core (tileOf o).amc (s.ctxOf core grp) (s.tileAmax o.pages (tileOf o)) else u).updGroup core grp
    fun g => g.tlDone id).retire core grp o.act
/-- Entries of a tile that its held places take at one delivery (R246). -/
def tileRoom (s : State) (core grp : Nat) (o : TlOp) : Nat := min (heldIn o.id ((s.group core grp).mq o.queue)) (o.entries - o.given)
/-- The queue register with those entries in their places. -/
def tileGiven (s : State) (core grp id : Nat) (o : TlOp) : State :=
  let q := (s.group core grp).mq o.queue
  let es := (s.tileEntries o.pages (s.gridOf core grp).seed.toNat (rmode o.rnd) (tileOf o)).drop o.given
  s.setGroup core grp (((s.group core grp).setMq o.queue (deliver id (tileRoom s core grp o) es q)).updTl id
    fun x => { x with given := x.given + tileRoom s core grp o })

section
variable {s : State} {core grp id : Nat} {o : TlOp}

section
variable {k : TlKind} (hop : outstanding s core grp id k o) (hposted : s.postedBefore core grp o.lane id = true)
include hop hposted

theorem tileDone_of_posted : s.tileDone core grp id = s := by
  unfold State.tileDone
  rw [hop.1]
  exact if_pos (by rw [hposted, Bool.or_true])

theorem relayHop_of_posted : s.relayHop core grp id = s := by
  unfold State.relayHop
  rw [hop.1]
  exact if_pos (by rw [hposted, Bool.or_true])

theorem gathDone_of_posted : s.gathDone core grp id = s := by
  unfold State.gathDone
  rw [hop.1]
  exact if_pos (by rw [hposted, Bool.or_true])
end

section
variable (hdue : s.postedBefore core grp o.lane id = false)
include hdue

/-- The test that holds an operation's event back fails for one of its kind with nothing posted before it. -/
theorem not_held_back {k : TlKind} (hkind : o.kind = k) : ¬(decide (o.kind ≠ k) || s.postedBefore core grp o.lane id) = true := by
  simp [hkind, hdue]

theorem tileDone_of_rows (hop : outstanding s core grp id .tile o) (hentries : o.entries = 0) : s.tileDone core grp id =
    tileEnd s core grp id o (s.writeTile o.pages (s.gridOf core grp).seed.toNat (rmode o.rnd) (tileOf o) o.dst) := by
  unfold State.tileDone
  rw [hop.1]
  dsimp only
  rw [if_neg (not_held_back hdue hop.2), if_pos hentries]
  rfl

theorem tileDone_of_entries (hop : outstanding s core grp id .tile o) (hentries : o.entries ≠ 0) : s.tileDone core grp id =
    if o.given + tileRoom s core grp o = o.entries then tileEnd s core grp id o (tileGiven s core grp id o) else tileGiven s core grp id o := by
  unfold State.tileDone
  rw [hop.1]
  dsimp only
  rw [if_neg (not_held_back hdue hop.2), if_neg hentries]
  rfl

theorem relayHop_of_due (hop : outstanding s core grp id .relay o) : s.relayHop core grp id =
    (((s.copyScr (if o.hop = 0 then o.dst else o.hops.getD (o.hop - 1) (0, 0)) (o.hops.getD o.hop (0, 0)) (o.idx.headD 0)).retire core grp
      (o.moors.getD o.hop {})).updGroup core grp fun g =>
        if o.hop + 1 = o.hops.length then g.tlDone id else g.updTl id fun x => { x with hop := x.hop + 1 }) := by
  unfold State.relayHop
  rw [hop.1]
  dsimp only
  rw [if_neg (not_held_back hdue hop.2)]
  split
  · rfl
  · rfl

theorem gathDone_of_due (hop : outstanding s core grp id .gath o) : s.gathDone core grp id =
    ((s.gatherRows o).updGroup core grp fun g => g.tlDone id).retire core grp o.act := by
  unfold State.gathDone
  rw [hop.1]
  exact if_neg (not_held_back hdue hop.2)
end
end

/-- Settles O56: each event by whether its operation is due, a tile's by its rows or its entries. -/
theorem tenderEvents : Obligations.TenderEvents := by
  intro s core grp id
  refine ⟨fun b rest hbatches hdue => congrArg Host.Outcome.next (batchDone_of_due hbatches hdue),
    fun o hop hdue => ⟨fun hentries => congrArg Host.Outcome.next (tileDone_of_rows hdue hop hentries),
      fun hentries => congrArg Host.Outcome.next (tileDone_of_entries hdue hop hentries)⟩,
    fun o hop hdue => congrArg Host.Outcome.next (relayHop_of_due hdue hop),
    fun o hop hdue => congrArg Host.Outcome.next (gathDone_of_due hdue hop),
    fun b rest hbatches hposted => congrArg Host.Outcome.next (batchDone_of_posted hbatches hposted),
    fun k o hop hposted => ⟨congrArg Host.Outcome.next (tileDone_of_posted hop hposted),
      congrArg Host.Outcome.next (relayHop_of_posted hop hposted), congrArg Host.Outcome.next (gathDone_of_posted hop hposted)⟩⟩

/-! ### What the words plan (R238, R239, R247) -/
section
variable {z : State}

/-- The operation goes with the lane's loads where the tl counter has room (R247). -/
theorem issue_ok {plan : Except LaneOut TlOp} {x : TlOp} {f : TlOp → List Eff} {es : List Eff} (hplan : plan = .ok x)
    (hroom : z.cgroup.tlOps.length < 7) (hes : es = f x) : outOf plan (fun o => z.tlRoom (f o)) = .ok es := by
  rw [hplan, hes]
  exact if_neg (Nat.not_le.mpr hroom)

theorem indexReads_eq (o : TlOp) : z.indexReads o =
    readsScr z (ofBytesLE o.desc / 2 ^ 128 % 2 ^ 32) (4 * (ofBytesLE o.desc / 2 ^ 232 % 2 ^ 6)) := by
  unfold State.indexReads
  dsimp only
  rw [FloatingPointAndPacked.bits_eq, FloatingPointAndPacked.bits_eq]
  rfl

/-- A mooring action of 0 takes no operand; another names a mooring whose chunk is filled (R239). -/
theorem planSeal_ok {a b : Nat} {r : Retire} (hb : b < 3) (hroom : z.cgroup.batches.length < 7)
    (hr : if b = 0 then r = {} else ∃ loc, z.cmdOffset z.chain.core z.chain.grp a 16 16 = .ok loc ∧
      z.chunksOk z.chain.core z.chain.grp loc.place 16 = .ok () ∧ r = loc.moor (BitVec.ofNat 64 a) b 0) :
    z.planSeal a b = .ok [.seal r] := by
  unfold State.planSeal
  rw [if_neg (Nat.not_le.mpr hb)]
  by_cases hzero : b = 0
  · rw [if_pos hzero] at hr ⊢
    rw [hr]
    exact if_neg (Nat.not_le.mpr hroom)
  · rw [if_neg hzero] at hr ⊢
    obtain ⟨loc, hloc, hchunks, rfl⟩ := hr
    rw [show z.cmdOffset z.cc z.cg a 16 16 = .ok loc from hloc]
    dsimp only [bind, Except.bind]
    rw [show z.chunksOk z.cc z.cg loc.place 16 = .ok () from hchunks]
    exact if_neg (Nat.not_le.mpr hroom)
end

/-! ### What a seal makes of its group (R239) -/

theorem le_foldl_max {x : Nat} {l : List Nat} (hx : x ∈ l) : x ≤ l.foldl max 0 := by
  rw [List.foldl_eq_foldr]
  exact List.le_max_of_le' 0 hx le_rfl

/-- The batch that a seal makes of the open one; its number is above those of the batches before it. -/
def sealedBatch (g : Group) (act : Retire) (lane txn : Nat) : Batch := ⟨(g.batches.map (·.id)).foldl max 0 + 1, g.openBatch, act, lane, txn⟩

theorem id_lt_sealedBatch {g : Group} {y : Batch} (hy : y ∈ g.batches) (act : Retire) (lane txn : Nat) : y.id < (sealedBatch g act lane txn).id :=
  Nat.lt_succ_of_le (le_foldl_max (List.mem_map_of_mem hy))

section
variable (s : State) (c g l : Nat)

theorem group_seal (act : Retire) : (s.perform c g l (.seal act)).group c g =
    { s.group c g with batches := (s.group c g).batches ++ [sealedBatch (s.group c g) act l s.nextTxn], cp := (s.group c g).cp + 1, openBatch := [] } :=
  State.group_updGroup_same ..

/-! ### What an accepted operation makes of its group (R246, R247) -/

/-- The operation as the group holds it: its lane and its number are given at acceptance. -/
def acceptedOp (o : TlOp) : TlOp := { o with lane := l, id := s.nextTxn }
/-- The group counts the operation on tl. -/
def countedGroup (o : TlOp) : Group := (s.group c g).tlAdd (acceptedOp s l o)
/-- A place held for an entry of the operation numbered `id`. -/
def heldPlace (id : Nat) : VEnt := { words := [], shadow := noShadow, poison := false, awaiting := [(32, id)] }

theorem mq_setMq (x : Group) (k : Nat) (q : List VEnt) : (x.setMq k q).mq k = q := by
  unfold Group.setMq Group.mq
  split <;> rfl

theorem tlOps_setMq (x : Group) (k : Nat) (q : List VEnt) : (x.setMq k q).tlOps = x.tlOps := by
  unfold Group.setMq
  split <;> rfl
theorem tl_setMq (x : Group) (k : Nat) (q : List VEnt) : (x.setMq k q).tl = x.tl := by
  unfold Group.setMq
  split <;> rfl

theorem group_tend (o : TlOp) : (s.perform c g l (.tend o)).group c g = if o.entries = 0 then countedGroup s c g l o
    else (countedGroup s c g l o).setMq o.queue ((s.group c g).mq o.queue ++ List.replicate o.entries (heldPlace s.nextTxn)) := by
  have htouched (ps : Tbl (Nat × Nat)) : (ps.foldl (fun (u : State) p => u.touch (some c) (u.ctxOf c g) false (65536 * p.1))
      { s with nextTxn := s.nextTxn + 1 }).group c g = s.group c g :=
    InstructionEncoding.foldl_keeps (·.group c g) (fun u p => InstructionEncoding.group_touch u ..) ps _
  simp only [State.perform, State.acceptTl, State.group_updGroup_same, htouched]
  rfl

theorem tlOps_tend (o : TlOp) : ((s.perform c g l (.tend o)).group c g).tlOps = (s.group c g).tlOps ++ [acceptedOp s l o] := by
  rw [group_tend]
  split
  · rfl
  · exact tlOps_setMq ..

theorem tl_tend (o : TlOp) : ((s.perform c g l (.tend o)).group c g).tl = (s.group c g).tlOps.length + 1 := by
  rw [group_tend]
  split
  · rfl
  · exact tl_setMq ..

theorem mq_tend (o : TlOp) : ((s.perform c g l (.tend o)).group c g).mq o.queue =
    (s.group c g).mq o.queue ++ List.replicate o.entries (heldPlace s.nextTxn) := by
  rw [group_tend]
  split
  next hnone => rw [hnone, List.replicate_zero, List.append_nil]; rfl
  next => rw [mq_setMq]
end

/-- Settles O38, by what each word plans in a lane, and by what a seal and an accepted operation make of the group. -/
theorem tenderWords : Obligations.TenderWords := by
  intro a b size
  refine ⟨performs_each (fun _ => rfl) ?cpy, performs_once (fun _ => rfl) ?sealing, performs_once (fun _ => rfl) ?tile,
    performs_once (fun _ => rfl) ?relay, performs_once (fun _ => rfl) ?gath, performs_once (fun _ => rfl) ?glapp,
    performs_once (fun _ => rfl) ?glfold, fun s c g l act o => ⟨?cp, ?openBatch, ?batches, tlOps_tend s c g l o, tl_tend s c g l o, mq_tend s c g l o⟩⟩
  case cpy =>
    rintro z l v _ ⟨x, hplan, rfl⟩
    rw [Nat.shiftLeft_eq, show z.planCpy z.cc z.cg _ _ _ = .ok x from hplan]
    rfl
  case sealing =>
    rintro z m l v _ ⟨hkind, hroom, r, hr, rfl⟩
    exact planSeal_ok hkind hroom hr
  case tile => exact fun _ _ _ _ _ ⟨_, hplan, hroom, hes⟩ => issue_ok hplan hroom hes
  case relay => exact fun _ _ _ _ _ ⟨_, hplan, hroom, hes⟩ => issue_ok hplan hroom hes
  case gath =>
    intro z _ l v es ⟨x, hplan, hroom, hes⟩
    exact issue_ok hplan hroom (by rw [hes, indexReads_eq]; rfl)
  case glapp =>
    rintro z m l v _ ⟨x, hplan, rfl⟩
    rw [show z.planGlapp z.cc z.cg _ _ = .ok x from hplan]
    simp only [outOf, State.logReads, if_true, List.append_assoc]
    rfl
  case glfold =>
    rintro z m l v _ ⟨x, hplan, rfl⟩
    rw [show z.planGlfold z.cc z.cg _ _ = .ok x from hplan]
    simp only [outOf, State.logReads, Bool.false_eq_true, if_false, List.append_nil]
    rfl
  case cp => rw [group_seal]
  case openBatch => rw [group_seal]
  case batches => exact ⟨_, by rw [group_seal], rfl, rfl, rfl, fun y hy => id_lt_sealedBatch hy ..⟩

end Sys2Proof.Tenders
end

section
/-! PROOFS. Traps: what entry saves and a return restores (R318, R319, R322). -/
open Sys2Proof Sys2Proof.Machine Sys2Proof.Safety Sys2Proof.Rules
namespace Sys2Proof.TrapReturn
section
variable {z x : Lane} {v a pc : DWord} {c : Cause} {slot : Nat} (hframe : z.frame = (x.enterTrap v c a pc slot).frame) (next : DWord × Nat)
include hframe

/-- A return whose handler left tpc as entry wrote it goes to the saved place, past the chain for the two software causes. -/
theorem leaveTrap_of_tpc_eq (htpc : z.tpc = pc) : z.leaveTrap next =
    { z with queue := x.queue, preds := x.preds, h := false, frame := {},
             pc := (if c = .softwareTrap ∨ c = .breakpoint then next else (pc, slot)).1,
             slot := (if c = .softwareTrap ∨ c = .breakpoint then next else (pc, slot)).2 } := by
  unfold Lane.leaveTrap
  rw [hframe]
  refine (if_neg (not_not.mpr htpc)).trans ?_
  by_cases hsoftware : c = .softwareTrap ∨ c = .breakpoint
  · rw [if_pos hsoftware]
    exact if_neg (by simpa [Lane.enterTrap, or_iff_not_imp_left] using hsoftware)
  · rw [if_neg hsoftware]
    exact if_pos (by simpa [Lane.enterTrap] using not_or.mp hsoftware)

/-- A return whose handler wrote tpc goes there. -/
theorem leaveTrap_of_tpc_ne (htpc : z.tpc ≠ pc) : z.leaveTrap next =
    { z with queue := x.queue, preds := x.preds, h := false, frame := {}, pc := z.tpc, slot := 0 } := by
  unfold Lane.leaveTrap
  rw [hframe]
  exact if_pos htpc
end

/-- Settles O26, by the two ways a return can go, according to whether the handler wrote tpc. -/
theorem trapEntryAndReturn : Obligations.TrapEntryAndReturn := by
  refine ⟨performs_each (fun _ => rfl) ?rfe, fun x v a pc c slot next => ⟨rfl, rfl, rfl, rfl, rfl, rfl, rfl, rfl, rfl, rfl, rfl, rfl, ?resumed, ?moved⟩⟩
  case rfe =>
    rintro z l v _ ⟨hhandler, rfl⟩
    exact if_pos hhandler
  case resumed =>
    intro z hframe htpc
    rw [leaveTrap_of_tpc_eq hframe next htpc]
    exact ⟨rfl, rfl, rfl, rfl, rfl, rfl⟩
  case moved =>
    intro z hframe htpc
    rw [leaveTrap_of_tpc_ne hframe next htpc]
    exact ⟨rfl, rfl, rfl, rfl, rfl⟩
end Sys2Proof.TrapReturn
end

section
/-! PROOFS. The matrix engine: the matrix words, and what the reservation, the convening and the configuration make of the engine (R255 to R274). -/
open Sys2Proof Sys2Proof.Machine Sys2Proof.Safety Sys2Proof.Rules
namespace Sys2Proof.MatrixEngine

/-! ### Words at which a group waits (log entry 74) -/
section
variable {s : State} {i : Instr} {f : Form} {vs : Nat → List Nat} {es : List Eff}

theorem getLsbD_laneSetOf {ls : List Nat} {k : Nat} (hk : k < 32) : (laneSetOf ls).getLsbD k = true ↔ k ∈ ls := by
  have hgen (m : LaneSet) : (ls.foldl (fun m l => m ||| BitVec.ofNat 32 (1 <<< l)) m).getLsbD k = true ↔ m.getLsbD k = true ∨ k ∈ ls := by
    induction ls generalizing m with
    | nil => simp
    | cons l ls ih =>
      rw [List.foldl_cons, ih, BitVec.getLsbD_or, BitVec.getLsbD_ofNat, Nat.one_shiftLeft, Nat.testBit_two_pow, List.mem_cons, Bool.or_eq_true,
        decide_eq_true hk, Bool.true_and, decide_eq_true_iff, or_assoc, eq_comm (a := l)]
  exact (hgen 0).trans (by rw [show (0 : LaneSet).getLsbD k = false from BitVec.getLsbD_zero]; simp)

theorem lt_of_executing {l : Nat} (h : l ∈ executing s i) : l < 32 := List.mem_range.mp (List.mem_filter.mp (executing_sub s i h)).1

/-- The lanes need not wait for others of their group: none waits at a joint word, or they are among those whose operation was accepted. -/
def Passes (s : State) (ls : LaneSet) : Prop :=
  ∀ y, s.cgroup.atJoint = some y → y.accepted = true ∧ ∀ k, ls.getLsbD k = true → y.lanes.getLsbD k = true

theorem waiters_of_passes (h : Passes s (laneSetOf (executing s i))) : waiters s (rowsOf s i vs) = rowsOf s i vs := by
  unfold waiters
  split
  next => rfl
  next y hy =>
    obtain ⟨haccepted, hlanes⟩ := h y hy
    refine List.filter_eq_self.mpr fun r hr => ?_
    obtain ⟨l, hl, rfl⟩ := List.mem_map.mp hr
    rw [haccepted, hlanes l ((getLsbD_laneSetOf (lt_of_executing hl)).mpr hl)]
    rfl

theorem bodyWaiting_of_passes (b : State → LaneSet → Nat → List Nat → LaneOut) (h : Passes s (laneSetOf (executing s i))) :
    bodyWaiting b s (rowsOf s i vs) = bodyGroup b s (rowsOf s i vs) := by
  have hnone : (rowsOf s i vs).filter (fun r => !(rowsOf s i vs).any (·.1 == r.1)) = [] :=
    List.filter_eq_nil_iff.mpr fun r hr => by
      have hself : (rowsOf s i vs).any (·.1 == r.1) = true := List.any_eq_true.mpr ⟨r, hr, beq_self_eq_true _⟩
      simp [hself]
  unfold bodyWaiting
  rw [waiters_of_passes h, hnone]
  exact List.append_nil _

/-- Such a word is performed once, by lanes that pass. -/
theorem performs_waiting {o : State → LaneSet → Nat → List Nat → List Eff → Prop} {b : State → LaneSet → Nat → List Nat → LaneOut}
    (hx : ∀ s, Sys2Proof.Machine.exec i s = s.word false i (bodyWaiting b)) (hpass : ∀ z m l v e, o z m l v e → Passes z m)
    (hb : ∀ z m l v e, o z m l v e → b z m l v = .ok e) : PerformsOnce i o := by
  intro s f vs l rest es hready hheld hlanes ho hroom
  rw [hx]
  refine exec_ready (es := fun k => if k = l then es else []) hready ?_ (fun _ _ _ _ hdst => hheld _ hdst) hroom
  rw [bodyWaiting_of_passes b (hpass _ _ _ _ _ ho)]
  have hrows : (rowsOf s i vs).map (·.1) = executing s i := by simp [rowsOf, Function.comp_def]
  show bodyOnce (b · (laneSetOf ((rowsOf s i vs).map (·.1)))) s (rowsOf s i vs) = _
  rw [hrows]
  exact once_ok hlanes (hb s _ l (vs l) es ho)

theorem passes_of_accepted {idx : Nat} {ls : LaneSet} {l : Nat} {v : List Nat} (h : acceptedJoint idx s ls l v es) : Passes s ls := by
  obtain ⟨⟨y, hy, haccepted, -, hlanes⟩, -⟩ := h
  intro y' hy'
  obtain rfl : y = y' := Option.some.inj (hy.symm.trans hy')
  exact ⟨haccepted, hlanes⟩

theorem AtJoint_holds_iff {y : AtJoint} {ls : LaneSet} : y.holds ls = true ↔ ∀ k, ls.getLsbD k = true → y.lanes.getLsbD k = true := by
  unfold AtJoint.holds
  rw [beq_iff_eq]
  constructor
  · intro h k hk
    have hbit := congrArg (·.getLsbD k) h
    simpa [hk, BitVec.lt_of_getLsbD hk] using hbit
  · intro h
    ext k hk
    have := h k
    simp only [BitVec.getLsbD_eq_getElem hk] at this
    simpa using this

/-- The lanes find their operation accepted. -/
theorem any_accepted {idx : Nat} {ls : LaneSet} {l : Nat} {v : List Nat} (h : acceptedJoint idx s ls l v es) :
    s.cgroup.atJoint.any (fun y => y.accepted && y.idx == idx && y.holds ls) = true ∧ es = [.accepted] := by
  obtain ⟨⟨y, hy, haccepted, rfl, hlanes⟩, hes⟩ := h
  rw [hy, Option.any_some, haccepted, AtJoint_holds_iff.mpr hlanes]
  simp [hes]

theorem planJoint_accepted {idx modi : Nat} {ls : LaneSet} {l : Nat} {v : List Nat} (h : acceptedJoint idx s ls l v es) :
    s.planJoint s.cc s.cg idx modi (arg v 0) (arg v 1) (s.clane l).rnd ls (s.report 0x14) = .ok es := by
  obtain ⟨hany, rfl⟩ := any_accepted h
  exact if_pos hany

/-- A joint word completes once its operation was accepted (R261). -/
theorem performs_joint {idx modi : Nat} (hx : ∀ s, Sys2Proof.Machine.exec i s = s.word false i (jointBody idx modi)) :
    PerformsOnce i (acceptedJoint idx) :=
  performs_waiting hx (fun _ _ _ _ _ => passes_of_accepted) fun _ _ _ _ _ => planJoint_accepted
end

/-! ### `mcvn` (R260) -/
section
variable {s : State} {a : Nat} {ls : LaneSet} {report : DWord}

theorem planMcvn_accepted {l : Nat} {v : List Nat} {es : List Eff} (h : acceptedJoint 2 s ls l v es) : s.planMcvn s.cc s.cg a ls report = .ok es := by
  obtain ⟨hany, rfl⟩ := any_accepted h
  exact if_pos hany

/-- The mask is one that `mcvn` takes: 1, 2 or 4 groups of the team, the proposing one among them, all on its partition. -/
theorem mask_ok {n idx part : Nat} {partitioned : Bool} {slots : List Nat} (hn : n ∈ [1, 2, 4]) (hself : a.testBit idx = true)
    (hslots : ∀ i, i < 32 → a.testBit i = true → i < slots.length)
    (hpart : partitioned = true → ∀ i k, slots[i]? = some k → a.testBit i = true → k / 8 = part) :
    ((n != 1 && n != 2 && n != 4) || !bitAt a idx || (List.range 32).any (fun i => bitAt a i && slots.length ≤ i) ||
      (partitioned && slots.zipIdx.any fun m => bitAt a m.2 && m.1 / 8 != part)) = false := by
  have hcount : (n != 1 && n != 2 && n != 4) = false := by
    simp only [List.mem_cons, List.not_mem_nil, or_false] at hn
    rcases hn with rfl | rfl | rfl <;> rfl
  have hrange : (List.range 32).any (fun i => bitAt a i && slots.length ≤ i) = false := by
    rw [List.any_eq_false]
    intro i hi
    have := hslots i (List.mem_range.mp hi)
    unfold bitAt
    grind
  have hzip : (partitioned && slots.zipIdx.any fun m => bitAt a m.2 && m.1 / 8 != part) = false := by
    cases partitioned with
    | false => rfl
    | true =>
      rw [Bool.true_and, List.any_eq_false]
      intro m hm
      have := hpart rfl m.2 m.1 (List.mk_mem_zipIdx_iff_getElem?.mp hm)
      unfold bitAt
      grind
  rw [hcount, hrange, hzip, show bitAt a idx = true from hself]
  rfl

theorem planMcvn_agreed (hjoint : s.cgroup.atJoint = none) (hholds : s.holds s.cc s.cg = true) (hn : popCount 32 a ∈ [1, 2, 4])
    (hself : a.testBit s.cgroup.idx = true) (hslots : ∀ i, i < 32 → a.testBit i = true → i < s.cteam.slots.length)
    (hpart : (s.core s.cc).partitioned = true → ∀ i k, s.cteam.slots[i]? = some k → a.testBit i = true → k / 8 = s.cg / 8)
    (hothers : ∀ p ∈ (s.engine s.cc (s.partOf s.cc s.cg)).proposals, p.1 ≠ s.cgroup.idx → p.2.getLsbD s.cgroup.idx = true → p.2.toNat = a)
    (hall : ∀ i, i < 32 → a.testBit i = true → i = s.cgroup.idx ∨
      Tbl.find (s.engine s.cc (s.partOf s.cc s.cg)).proposals i = some (BitVec.ofNat 32 a)) :
    s.planMcvn s.cc s.cg a ls report = .ok [.mcvn (BitVec.ofNat 32 a)] := by
  have hconflict : ((s.engine s.cc (s.partOf s.cc s.cg)).proposals.any fun p => p.1 != s.cgroup.idx && bitAt p.2.toNat s.cgroup.idx && p.2.toNat != a) = false := by
    rw [List.any_eq_false]
    intro p hp
    have := hothers p hp
    unfold bitAt
    rw [← BitVec.getLsbD] 
    grind
  have hagreed : ((lanesOf (BitVec.ofNat 32 a)).all fun i =>
      i == s.cgroup.idx || Tbl.find (s.engine s.cc (s.partOf s.cc s.cg)).proposals i == some (BitVec.ofNat 32 a)) = true := by
    rw [List.all_eq_true]
    intro i hi
    obtain ⟨hi, hbit⟩ := List.mem_filter.mp hi
    have hi := List.mem_range.mp hi
    have := hall i hi (by rw [BitVec.getLsbD_ofNat, Bool.and_eq_true] at hbit; exact hbit.2)
    simpa using this
  unfold State.planMcvn
  dsimp only
  rw [show (s.group s.cc s.cg).atJoint = none from hjoint, hholds]
  rw [if_neg (by simp), if_neg (by simp)]
  refine (if_neg (Bool.not_eq_true _ ▸ mask_ok hn hself hslots hpart)).trans ?_
  refine (if_neg (Bool.not_eq_true _ ▸ hconflict)).trans ?_
  exact if_pos hagreed
end

/-! ### `mrel`, `mcfg` and `mrsv` (R255, R273) -/
section
variable {s z : State}

theorem mrel_ok {es : List Eff} (h : z.holds z.cc z.cg = true ∧ (z.engine z.cc (z.partOf z.cc z.cg)).ops = [] ∧ es = [.mrel]) :
    (if !z.holds z.cc z.cg then .trap .engineNotReserved 0
      else if (z.engine z.cc (z.partOf z.cc z.cg)).ops.isEmpty then .ok [.mrel] else .stall .again : LaneOut) = .ok es := by
  obtain ⟨hholds, hidle, rfl⟩ := h
  rw [hholds, hidle]
  rfl

/-- What `mcfg` takes: an item, its value, and the place of a table (R273). -/
def CfgPlace (z : State) (a b : Nat) (place : Nat × Nat) : Prop :=
  (a = 0 ∧ b ≤ 1 ∧ place = (0, 0)) ∨ (a = 2 ∧ b = 0 ∧ place = (0, 0)) ∨
    (a = 1 ∧ ∃ loc, z.cmdOffset z.cc z.cg b 32 512 = .ok loc ∧ z.chunksOk z.cc z.cg loc.place 512 = .ok () ∧ place = loc.place)

theorem planMcfg_ok {a b : Nat} {place : Nat × Nat} (hholds : z.holds z.cc z.cg = true) (h : CfgPlace z a b place) : z.planMcfg a b =
    .ok [.mcfg { idx := 8, a := BitVec.ofNat 32 a, b := BitVec.ofNat 64 b, groups := [z.cg], ctx := z.cctx, place := place }] := by
  unfold State.planMcfg
  rw [hholds]
  rcases h with ⟨rfl, hb, rfl⟩ | ⟨rfl, rfl, rfl⟩ | ⟨rfl, loc, hloc, hchunks, rfl⟩
  · exact if_neg (Nat.not_lt.mpr hb)
  · rfl
  · dsimp only [outOf]
    rw [hloc]
    dsimp only
    rw [hchunks]
    rfl

/-- The rows of `mrsv`: the predicate in every lane, and the reservation in the lowest. -/
theorem mrsv_rows {p : PDst} {vs : Nat → List Nat} {es : Nat → List Eff}
    (hes : ∀ l ∈ executing s (.mrsv false p), es l = .pred p.p.toNat (s.mayReserve s.chain.core s.chain.grp) ::
      if (executing s (.mrsv false p)).head? = some l ∧ s.mayReserve s.chain.core s.chain.grp = true then [.mrsv] else []) :
    ((rowsOf s (.mrsv false p) vs).zipIdx.map fun (r, k) =>
      (r.1, LaneOut.ok (.pred p.p.toNat (s.mayReserve s.cc s.cg) :: if k = 0 && s.mayReserve s.cc s.cg then [.mrsv] else []))) =
    (executing s (.mrsv false p)).map fun l => (l, .ok (es l)) := by
  unfold rowsOf
  apply List.ext_getElem (by simp)
  intro k hk hk'
  have hk : k < (executing s (.mrsv false p)).length := by simpa using hk'
  have hhead : (executing s (.mrsv false p)).head? = some (executing s (.mrsv false p))[k] ↔ k = 0 := by
    rw [List.head?_eq_getElem?, List.getElem?_eq_some_iff]
    constructor
    · rintro ⟨h0, heq⟩
      exact ((executing_nodup s _).getElem_inj_iff.mp heq).symm
    · rintro rfl
      exact ⟨hk, rfl⟩
  simp only [List.getElem_map, List.getElem_zipIdx, Nat.zero_add]
  rw [hes _ (List.getElem_mem hk)]
  simp only [hhead]
  simp [State.cc, State.cg]
end

/-! ### What performing them makes of the engine -/
section
variable {s : State} {c g l p : Nat}

@[simp] theorem engine_setEngine_same (e : Engine) : (s.setEngine c p e).engine c p = e := by
  simp [State.engine, State.setEngine]
theorem engine_updGroup (f : Group → Group) (k : Nat) : (s.updGroup c k f).engine c p = s.engine c p := by
  simp [State.engine, State.updGroup, State.setGroup]
@[simp] theorem group_setEngine (e : Engine) (k : Nat) : (s.setEngine c p e).group c k = s.group c k := by
  simp [State.group, State.setEngine]

theorem engine_setOrphaned (part team : Nat) (on : Bool) : (s.setOrphaned c part team on).engine c p = s.engine c p :=
  InstructionEncoding.foldl_keeps (State.engine · c p) (fun _ _ => engine_updGroup ..) _ _

theorem holder_mrsv (hfree : (s.engine c (s.partOf c g)).holder = none) :
    ((s.perform c g l .mrsv).engine c (s.partOf c g)).holder = some (s.group c g).team := by
  show ((s.reserve c g).engine c _).holder = _
  unfold State.reserve
  dsimp only
  rw [hfree, if_pos Option.isNone_none, engine_setOrphaned, engine_setEngine_same]
  rfl

theorem atJoint_loseEngine (x : Group) : x.loseEngine.atJoint = x.atJoint := rfl

/-- With no group at a joint word, a release leaves the groups so, and traps none. -/
theorem atJoint_loseEngines (gs : List Nat) (h : ∀ k, (s.group c k).atJoint = none) (k : Nat) :
    ((gs.foldl (fun s g => s.updGroup c g Group.loseEngine) s).group c k).atJoint = none := by
  induction gs generalizing s with
  | nil => exact h k
  | cons j gs ih =>
    refine ih fun k => ?_
    rw [State.group_updGroup]
    split
    next hk => rw [atJoint_loseEngine]; exact h _
    next => exact h k

theorem holder_release (hwait : ∀ k, (s.group c k).atJoint = none) : ((s.release c p).engine c p).holder = none := by
  unfold State.release
  dsimp only
  split
  next hfree => exact hfree
  next t _ =>
    have hwait' : ∀ k, ((s.setEngine c p { s.engine c p with holder := none, ops := [], dY := none, proposals := [], conv := 0 }).group c k).atJoint = none :=
      fun k => by rw [group_setEngine]; exact hwait k
    rw [List.foldl_fixed' fun k => by rw [atJoint_loseEngines _ hwait']]
    rw [InstructionEncoding.foldl_keeps (State.engine · c p) (fun _ _ => engine_updGroup ..), engine_setEngine_same]

theorem conv_mcvn (mask : BitVec 32) : ((s.perform c g l (.mcvn mask)).engine c (s.partOf c g)).conv = mask := by
  show ((s.convene c g mask).engine c _).conv = mask
  unfold State.convene
  dsimp only
  rw [InstructionEncoding.foldl_keeps (State.engine · c (s.partOf c g)) (fun _ _ => engine_updGroup ..), engine_setEngine_same]

theorem ops_mcfg (o : MxOp) : ((s.perform c g l (.mcfg o)).engine c (s.partOf c g)).ops =
    (s.engine c (s.partOf c g)).ops ++ [{ o with id := s.nextTxn, by_ := [(g, l)] }] := by
  show ((State.setEngine _ c _ _).engine c _).ops = _
  rw [engine_setEngine_same]
end

/-- Settles O39, by what each word plans: a joint word passes where its operation was accepted, and `mcvn` where the proposals agree. -/
theorem matrixWords : Obligations.MatrixWords := by
  intro p a b f
  refine ⟨?mrsv, performs_once (fun _ => rfl) fun _ _ _ _ _ => mrel_ok, ?accepted, ?mcvn, performs_joint fun _ => rfl, performs_joint fun _ => rfl,
    performs_joint fun _ => rfl, performs_joint fun _ => rfl, performs_joint fun _ => rfl, performs_joint fun _ => rfl,
    performs_once (fun _ => rfl) ?mcfg, fun s c g l mask o => ⟨holder_mrsv, holder_release, conv_mcvn mask, ops_mcfg o⟩⟩
  case mrsv =>
    intro s fm vs es hready hes hroom
    have hnoQueue : fm.dst = none := by
      have hform := hready.form
      cases hform
      rfl
    exact exec_ready hready (mrsv_rows hes) (fun _ _ _ _ hdst => by rw [hnoQueue] at hdst; cases hdst) hroom
  case accepted => exact performs_waiting (fun _ => rfl) (fun _ _ _ _ _ => passes_of_accepted) fun _ _ _ _ _ => planMcvn_accepted
  case mcvn =>
    refine performs_waiting (fun _ => rfl) ?_ ?_
    · rintro z m l v _ ⟨hjoint, -⟩ y hy
      rw [hjoint] at hy
      cases hy
    · rintro z m l v _ ⟨hjoint, hholds, hn, hself, hslots, hpart, hothers, hall, rfl⟩
      exact planMcvn_agreed hjoint hholds hn hself hslots hpart hothers hall
  case mcfg =>
    rintro z m l v _ ⟨hholds, place, hplace, rfl⟩
    exact planMcfg_ok hholds hplace

end Sys2Proof.MatrixEngine
end

section
/-! PROOFS. Work creation: the work and model words, and what their effects make of the Lantern, the Keeper and memory (R306 to R311, R327, R346,
R386). -/
open Sys2Proof Sys2Proof.Machine Sys2Proof.Safety Sys2Proof.Rules
namespace Sys2Proof.WorkCreation

/-! ### The work table under writes of memory -/
/-- The grids and nodes that the Lantern holds, and the number that the next one takes. -/
def workOf (s : State) : Tbl Grid × Tbl Node × Nat := (s.lantern.grids, s.lantern.nodes, s.lantern.nextGrid)
section
variable (s : State)
@[simp] theorem workOf_dirtyLine (pa : Nat) : workOf (s.dirtyLine pa) = workOf s := by
  unfold State.dirtyLine
  split <;> rfl
@[simp] theorem workOf_noteWrite (who : Option (Nat × Nat)) (secs : List Nat) : workOf (s.noteWrite who secs) = workOf s := rfl
@[simp] theorem workOf_devWrite (who : Option (Nat × Nat)) (key pa : Nat) (bs : List Byte) (poison : Bool) :
    workOf (s.devWrite who key pa bs poison) = workOf s := by
  unfold State.devWrite
  dsimp only
  rw [workOf_noteWrite]
  exact (InstructionEncoding.foldl_keeps workOf (fun s k => workOf_dirtyLine s (32 * k)) _ _).trans rfl
@[simp] theorem workOf_touch (ctx : Nat) (write : Bool) (va : Nat) : workOf (s.touch none ctx write va) = workOf s := by
  unfold State.touch
  dsimp only
  split <;> rfl
@[simp] theorem workOf_vwrite (ctx va : Nat) (bs : List Byte) : workOf (s.vwrite ctx va bs) = workOf s := by
  induction bs generalizing s va with
  | nil => rfl
  | cons b bs ih =>
    unfold State.vwrite
    rw [ih, workOf_devWrite, workOf_touch]
@[simp] theorem workOf_readMark (ctx : Nat) (n : Need) (va len : Nat) : workOf (s.readMark ctx n va len) = workOf s := by
  unfold State.readMark State.touchRange
  split
  · rfl
  · split
    · rfl
    · rw [workOf_touch, workOf_touch]
@[simp] theorem workOf_inputMarks (ctx n a : Nat) : workOf (s.inputMarks ctx n a) = workOf s := by
  induction n generalizing s a with
  | zero => rfl
  | succ n ih =>
    unfold State.inputMarks
    split
    · rw [ih, workOf_readMark]
    · rw [workOf_readMark]
@[simp] theorem workOf_recordMarks (ctx a : Nat) : workOf (s.recordMarks ctx a) = workOf s := by
  unfold State.recordMarks
  dsimp only
  split
  · rw [workOf_readMark]
  · rw [workOf_inputMarks, workOf_readMark]
@[simp] theorem workOf_setWatch (ctx : Nat) (addr : DWord) (on : Bool) : workOf (s.setWatch ctx addr on) = workOf s := workOf_vwrite ..
@[simp] theorem workOf_writeHeader (ctx : Nat) (args : DWord) (g : Grid) : workOf (s.writeHeader ctx args g) = workOf s := workOf_vwrite ..
@[simp] theorem workOf_nodeWrite (n : Node) (off v : Nat) : workOf (s.nodeWrite n off v) = workOf s := workOf_vwrite ..
end

/-! ### What the words plan (R307 to R313, R327, R346, R386) -/
section
variable {z : State} {es : List Eff}

theorem checkGlobal_of_translated {n : Need} {ea align : Nat} {loc : Loc} (halign : ea % align = 0) (h : translated z n ea loc) :
    z.checkGlobal z.cc z.cg n ea align = .ok loc := by
  obtain ⟨pa, key, apt, dev, leaf, big, entry, hxlat, rfl⟩ := h
  exact LaneMemory.checkGlobal_ok halign hxlat

theorem planEmit_ok {a b n k : Nat} {loc : Loc} {reads : List Eff} (halign : a % 64 = 0) (hget : z.laneGet a 64 = .ok n)
    (hkind : n.testBit 255 = true) (hloc : translated z .objRW a loc) (hnode : z.laneNode a = .ok reads)
    (hat : z.nodeAtPa loc.place.2 = some k) (hopen : (z.node k).st = 1) (hroom : z.nodeRoom k = true) :
    z.planEmit a b = .ok (reads ++ [.sync, .acquire true, .emit k (BitVec.ofNat 64 b)]) := by
  unfold State.planEmit
  rw [checkGlobal_of_translated halign hloc, hget, hnode]
  simp only [outOf, show bitAt n 255 = true from hkind, hat, hopen, hroom]
  rfl

theorem objFree_of {loc : Loc} {node : Bool} (hwatch : (ofBytesLE (z.locRead (loc.plus 24) 8).1).testBit 62 = false)
    (hstate : node = true → ofBytesLE (z.locRead (loc.plus 44) 4).1 % 4 = 0) : z.objFree loc node = true := by
  unfold State.objFree
  rw [show bitAt _ 62 = false from hwatch, FloatingPointAndPacked.bits_eq]
  cases node with
  | false => rfl
  | true => simpa using hstate rfl

/-- A registration from a place: a free object, room in the table, and the loads, a node's or a record's. -/
theorem planSpawn_ok {a b r : Nat} {loc : Loc} {reads : List Eff} (ha : a % 32 = 0) (hb : b % 16 = 0) (htable : z.workTable < 4096)
    (hloc : translated z .objRW a loc) (hget : z.laneGet a 32 = .ok r) (hfree : z.objFree loc (r.testBit 255) = true)
    (hreads : if r.testBit 255 then a % 64 = 0 ∧ b = 0 ∧ z.laneNode a = .ok reads
      else b ≠ 0 ∧ recLegal r = true ∧ z.laneInputs r = .ok () ∧
        reads = z.laneReads a 32 ++ [.object (z.laneLoc a) 0 true] ++ z.listReads r) :
    z.planSpawn a b = .ok (reads ++ [.sync, .acquire true, .spawn (BitVec.ofNat 64 a) (BitVec.ofNat 64 b) loc.place.2]) := by
  unfold State.planSpawn
  rw [if_neg (not_not.mpr ha), if_neg (not_not.mpr hb), checkGlobal_of_translated ha hloc, hget]
  dsimp only [outOf]
  rw [show bitAt r 255 = r.testBit 255 from rfl, hfree]
  simp only [Bool.not_true, Bool.false_eq_true, if_false, if_neg (Nat.not_le.mpr htable)]
  split at hreads
  next hnode =>
    obtain ⟨halign, rfl, hplan⟩ := hreads
    rw [if_pos hnode, hplan, halign]
    rfl
  next hrecord =>
    obtain ⟨hargs, hlegal, hinputs, rfl⟩ := hreads
    rw [if_neg hrecord, hlegal, hinputs, if_neg (by simp [hargs])]
    rfl

theorem planJdec_ok {a pa key apt : Nat} {va : DWord} (halign : a % 32 = 0) (hloc : translated z .objRW a (.dev pa key va apt)) :
    z.planJdec a = .ok [.object (.dev pa key va apt) 0 true, .sync, .acquire true,
      .jdec ⟨z.cc, z.cg, z.cteam.idx, pa + 24, key, BitVec.ofNat 64 a, z.cctx, z.cg⟩] := by
  unfold State.planJdec
  rw [checkGlobal_of_translated halign hloc]
  rfl

theorem planKreq_ret {l : Nat} (d : Dst) (hhandler : (z.clane l).h = true) :
    z.planKreq l d 0 15 = .ok [.sync, .acquire true, .kreq ⟨z.cgroup.team, z.cgroup.idx, l, .drop, 0, 15, 0, 0⟩] := by
  unfold State.planKreq
  simp [hhandler]

theorem planKreq_service {l a svc : Nat} {d : Dst} {loc : Loc} (hsvc : svc < 7) (halign : a % 64 = 0) (hloc : translated z .load a loc) :
    z.planKreq l d a svc = .ok [.sync, .acquire true, .kreq ⟨z.cgroup.team, z.cgroup.idx, l, d, BitVec.ofNat 64 a, svc, 0, 0⟩] := by
  have hmod : svc % 16 = svc := Nat.mod_eq_of_lt (by omega)
  have hother : svc ≠ 15 := by omega
  have hknown : (decide (svc / 16 ≠ 0) || decide (7 ≤ svc) && decide (svc ≤ 14)) = false := by
    rw [Nat.div_eq_of_lt (by omega), decide_eq_false (Nat.not_le.mpr hsvc)]
    rfl
  unfold State.planKreq
  rw [checkGlobal_of_translated halign hloc]
  simp only [hmod, if_neg hother, hknown, Bool.false_eq_true, if_false, outOf]

theorem planLayer_ok {a : Nat} (h : layerOk z a) : z.planLayer a = .ok a := by
  obtain ⟨hrange, hlayer⟩ := h
  exact if_neg (by simp [hrange, hlayer])

theorem planXev_ok {a b : Nat} {loc : Loc} {t : Bool} (h : event z a b loc t) : z.planXev a b = .ok (loc, t) := by
  obtain ⟨hkind, hzero, halign, hloc, pa, key, va, apt, rfl, rfl⟩ := h
  unfold State.planXev
  dsimp only
  rw [FloatingPointAndPacked.bits_eq, checkGlobal_of_translated halign hloc, if_neg (by simp [Nat.ne_of_lt hkind]; exact hzero)]
  rfl
end

/-! ### What `spawn` registers (R295, R308, R310) -/
section
variable {s : State} {c g l : Nat} {a b : DWord} (pa : Nat)

/-- The grid that a record of a work item describes. -/
def spawnedGrid (s : State) (c g : Nat) (a b : DWord) : Grid :=
  let ctx := s.ctxOf c g
  let me := (s.teamOf c g).grid
  let r := s.vget ctx a.toNat 32
  { recGrid ctx a r ((s.inputsOf ctx r).getD []) (s.grid me).ceiling (s.grid me).source (some me) b (s.ctx ctx).seed with pkt := (s.grid me).pkt }

theorem perform_spawn_record (hkind : (s.vget (s.ctxOf c g) (a.toNat + 24) 8).testBit 63 = false) :
    s.perform c g l (.spawn a b pa) = (s.registerGrid (spawnedGrid s c g a b)).2 :=
  if_neg (by simpa [bitAt] using hkind)

theorem perform_spawn_node (hkind : (s.vget (s.ctxOf c g) (a.toNat + 24) 8).testBit 63 = true) :
    s.perform c g l (.spawn a b pa) = s.registerNode (s.ctxOf c g) a (s.teamOf c g).grid :=
  if_pos hkind

/-- A grid that waits for its JOIN word stays as it is. -/
theorem advance_unjoined {u : State} {k : Nat} (hwait : (u.grid k).st = .waiting) : u.advance k false = u := by
  unfold State.advance
  simp [hwait]

/-- A record whose JOIN word does not read 0 is registered waiting. -/
theorem registerGrid_unjoined {x : Grid} (hwait : x.st = .waiting) (hjoin : s.vget x.ctx (x.rec_.toNat + 24) 2 ≠ 0) :
    (s.registerGrid x).2.mem = (((s.recordMarks x.ctx x.rec_.toNat).setWatch x.ctx x.rec_ true).writeHeader x.ctx x.args x).mem ∧
      workOf (s.registerGrid x).2 = (Tbl.put s.lantern.grids s.lantern.nextGrid x, s.lantern.nodes, s.lantern.nextGrid + 1) := by
  have hwork : workOf (((s.recordMarks x.ctx x.rec_.toNat).setWatch x.ctx x.rec_ true).writeHeader x.ctx x.args x) = workOf s := by
    rw [workOf_writeHeader, workOf_setWatch, workOf_recordMarks]
  obtain ⟨hgrids, hnodes, -⟩ : _ ∧ _ ∧ _ := by simpa only [workOf, Prod.mk.injEq] using hwork
  unfold State.registerGrid
  dsimp only
  rw [beq_eq_false_iff_ne.mpr hjoin, advance_unjoined (by simp [State.grid, Tbl.get, hwait])]
  exact ⟨rfl, by rw [workOf, hgrids, hnodes]⟩

/-- The node that a descriptor of 64 bytes describes, when it is registered. -/
def spawnedNode (s : State) (ctx : Nat) (a : DWord) (parent n : Nat) : Node :=
  { ctx := ctx, addr := a, rec_ := BitVec.ofNat 64 (bits n 63 0), args := BitVec.ofNat 64 (bits n 127 64)
    ring := BitVec.ofNat 64 (bits n 191 128), nring := bits n 223 208, parent := parent
    tmpl :=
      let r := s.vget ctx (BitVec.ofNat 64 (bits n 63 0)).toNat 32
      recGrid ctx (BitVec.ofNat 64 (bits n 63 0)) r ((s.inputsOf ctx r).getD []) (s.grid parent).ceiling (s.grid parent).source (some parent)
        (BitVec.ofNat 64 (bits n 127 64)) 0
    st := 1 }

theorem ofNat_bits (n lo : Nat) : BitVec.ofNat 64 (bits n (lo + 63) lo) = BitVec.ofNat 64 (n / 2 ^ lo) := by
  apply BitVec.eq_of_toNat_eq
  rw [FloatingPointAndPacked.bits_eq, show lo + 63 + 1 - lo = 64 by omega, BitVec.toNat_ofNat, BitVec.toNat_ofNat, Nat.mod_mod]

/-- A node whose count of producers is not 0 is registered, and is not closed. -/
theorem workOf_registerNode {ctx parent : Nat} (hopen : s.vget ctx a.toNat 64 / 2 ^ 192 % 65536 ≠ 0) :
    workOf (s.registerNode ctx a parent) =
      (s.lantern.grids, Tbl.put s.lantern.nodes s.lantern.nextGrid (spawnedNode s ctx a parent (s.vget ctx a.toNat 64)),
        s.lantern.nextGrid + 1) := by
  have hcount : bits (s.vget ctx a.toNat 64) 207 192 ≠ 0 := by rw [FloatingPointAndPacked.bits_eq]; exact hopen
  unfold State.registerNode
  extract_lets n recA r p tmpl k x u _ v
  have hwork : workOf u = workOf s := by
    rw [workOf_writeHeader, workOf_setWatch, workOf_recordMarks, workOf_readMark]
  obtain ⟨hgrids, hnodes, -⟩ : _ ∧ _ ∧ _ := by simpa only [workOf, Prod.mk.injEq] using hwork
  clear_value u
  have hv : workOf v = (s.lantern.grids, Tbl.put s.lantern.nodes s.lantern.nextGrid x, s.lantern.nextGrid + 1) := by
    rw [workOf_nodeWrite, ← hgrids, ← hnodes]
    rfl
  clear_value v
  rw [if_neg hcount, hv]
  rfl
end

/-! ### What a pin writes (R346) -/
section
variable {s : State} {ctx k at_ : Nat}

theorem mem_tmPinBy (up : Bool) (hat : s.topmarkPa ctx k = some at_) : (s.tmPinBy ctx k up).mem =
    ((s.touch none ctx true ((s.ctx ctx).tmbase.toNat + 8 * k)).devWrite none (s.topmarkKey ctx k) at_
      (toBytesLE 8 (s.topmark ctx k % 4 + (if up then s.topmark ctx k / 65536 + 1 else s.topmark ctx k / 65536 % 65536 - 1) % 65536 * 65536 +
        s.topmark ctx k / 2 ^ 32 % 2 ^ 32 * 2 ^ 32)) false).mem := by
  have hpins : (if up then tmPins (s.topmark ctx k) + 1 else tmPins (s.topmark ctx k) - 1) % 65536 =
      (if up then s.topmark ctx k / 65536 + 1 else s.topmark ctx k / 65536 % 65536 - 1) % 65536 := by
    have hfield : tmPins (s.topmark ctx k) = s.topmark ctx k / 65536 % 65536 := FloatingPointAndPacked.bits_eq ..
    rw [hfield]
    cases up with
    | false => rfl
    | true => exact Nat.mod_add_mod ..
  have hepoch : tmEpoch (s.topmark ctx k) = s.topmark ctx k / 2 ^ 32 % 2 ^ 32 := FloatingPointAndPacked.bits_eq ..
  unfold State.tmPinBy State.setTopmark tmWith
  dsimp only
  rw [hat, hpins, hepoch, Nat.mod_mod]
  rfl
end

/-- Settles O40, by what each word plans, and by what each effect leaves of the Lantern, the Keeper and memory. -/
theorem workAndModelWords : Obligations.WorkAndModelWords := by
  intro d p a b
  refine ⟨performs_serial (fun _ => rfl) ?emit, performs_each (fun _ => rfl) ?spawn, performs_serial (fun _ => rfl) ?jdec,
    performs_serial (fun _ => rfl) ?kreq, performs_serial (fun _ => rfl) ?tmpin, performs_serial (fun _ => rfl) ?tmunpin,
    performs_each (fun _ => rfl) ?tmchk, performs_each (fun _ => rfl) ?tmwait, performs_each (fun _ => rfl) ?xev, performs_each (fun _ => rfl) ?xtest,
    fun s c g l => ⟨fun _ _ => rfl, fun a b pa => ⟨?grid, ?node⟩, fun _ => rfl, fun r => ⟨rfl, ?waits⟩, fun k up at_ => mem_tmPinBy up⟩⟩
  case emit =>
    rintro z l v _ ⟨halign, ⟨n, hget, hkind⟩, loc, reads, hloc, hnode, k, hat, hopen, hroom, rfl⟩
    exact planEmit_ok halign hget hkind hloc hnode hat hopen hroom
  case spawn =>
    rintro z l v _ ⟨ha, hb, htable, loc, r, reads, hloc, hget, hwatch, hstate, hreads, rfl⟩
    exact planSpawn_ok ha hb htable hloc hget (objFree_of hwatch hstate) hreads
  case jdec =>
    rintro z l v _ ⟨halign, pa, key, va, apt, hloc, rfl⟩
    exact planJdec_ok halign hloc
  case kreq =>
    rintro z l v _ (⟨hsvc, hzero, hhandler, rfl⟩ | ⟨hsvc, halign, ⟨loc, hloc⟩, rfl⟩)
    · rw [hsvc, hzero]
      exact planKreq_ret d hhandler
    · exact planKreq_service hsvc halign hloc
  case tmpin =>
    rintro z l v _ ⟨hlayer, hpins, rfl⟩
    rw [planLayer_ok hlayer]
    exact if_neg hpins
  case tmunpin =>
    rintro z l v _ ⟨hlayer, hpins, rfl⟩
    rw [planLayer_ok hlayer]
    exact if_neg hpins
  case tmchk =>
    rintro z l v _ ⟨hlayer, rfl⟩
    rw [planLayer_ok hlayer]
    rfl
  case tmwait =>
    rintro z l v _ ⟨hlayer, hhere, rfl⟩
    rw [planLayer_ok hlayer]
    exact if_pos hhere
  case xev =>
    rintro z l v _ ⟨loc, hevent, rfl⟩
    rw [planXev_ok hevent]
    rfl
  case xtest =>
    rintro z l v _ ⟨loc, t, hevent, rfl⟩
    rw [planXev_ok hevent]
    rfl
  case grid =>
    intro hkind hjoin
    obtain ⟨hmem, hwork⟩ := registerGrid_unjoined (s := s) (x := spawnedGrid s c g a b) rfl hjoin
    obtain ⟨hgrids, -, hnext⟩ : _ ∧ _ ∧ _ := by simpa only [workOf, Prod.mk.injEq] using hwork
    rw [perform_spawn_record pa hkind]
    exact ⟨hnext, _, hgrids, rfl, rfl, rfl, rfl, rfl, rfl, rfl, rfl, rfl, rfl, rfl, rfl, rfl, hmem⟩
  case node =>
    intro hkind n hopen
    obtain ⟨-, hnodes, hnext⟩ : _ ∧ _ ∧ _ := by simpa only [workOf, Prod.mk.injEq] using workOf_registerNode (parent := (s.teamOf c g).grid) hopen
    rw [perform_spawn_node pa hkind]
    exact ⟨hnext, _, hnodes, rfl, rfl, rfl, rfl, (ofNat_bits n 0).trans (by rw [pow_zero, Nat.div_one]), ofNat_bits n 64, ofNat_bits n 128,
      FloatingPointAndPacked.bits_eq ..⟩
  case waits => exact congrArg Lane.mode ((State.lane_updLane ..).trans (if_pos ⟨rfl, rfl, rfl⟩))

end Sys2Proof.WorkCreation
end

section
/-! PROOFS. Windows: the window and Beacon words (R361 to R368). -/
open Sys2Proof Sys2Proof.Machine Sys2Proof.Safety Sys2Proof.Rules
namespace Sys2Proof.Windows
variable {s z : State} {i : Instr}

/-! ### What the words plan (R362, R363, R368) -/
theorem wtag_ok {v : List Nat} {es : List Eff}
    (h : arg v 0 < 4 ∧ (z.cgroup.bslot (arg v 0)).st ≠ 2 ∧ es = [.wtag (arg v 0)]) :
    (if 4 ≤ arg v 0 then badValue else if z.slotSt (arg v 0) = 2 then .stall .again else .ok [.wtag (arg v 0)] : LaneOut) = .ok es := by
  obtain ⟨htag, hopen, rfl⟩ := h
  rw [if_neg (Nat.not_le.mpr htag)]
  exact if_neg hopen

/-- A `wfence` is over once its ticket is fenced. -/
theorem planWfence_ok {l t : Nat} (hticket : (z.clane l).ticket = some t) (hfenced : z.fenced z.cgroup.team z.cgroup.idx t = true) :
    z.planWfence l = .ok [.sync, .wfenceEnd] := by
  unfold State.planWfence
  rw [hticket]
  exact if_pos hfenced

/-- `wclose` closes the slot once, in the lowest executing lane, and gives each lane the count of targets. -/
theorem wcloseBody_ok {d : Dst} {a b : Src} {vs : Nat → List Nat} {l : Nat} {rest : List Nat} {r : Retire} {n : Nat} {es : Nat → List Eff}
    (hlanes : executing s (.wclose false d a b) = l :: rest) (hplan : s.planWclose (arg (vs l) 0) (arg (vs l) 1) = .ok (r, n))
    (hes : ∀ k ∈ executing s (.wclose false d a b),
      es k = (if k = l then [.wclose (arg (vs l) 1) r] else []) ++ [.result d 32 (BitVec.ofNat 128 n) none]) :
    wcloseBody d s (rowsOf s (.wclose false d a b) vs) = (executing s (.wclose false d a b)).map fun k => (k, .ok (es k)) := by
  have hnew : l ∉ rest := (List.nodup_cons.mp (hlanes ▸ executing_nodup s _)).1
  have hrest : ∀ k ∈ rest, es k = [.result d 32 (BitVec.ofNat 128 n) none] := fun k hk => by
    rw [hes k (hlanes ▸ List.mem_cons_of_mem _ hk), if_neg (fun he : k = l => hnew (he ▸ hk))]
    rfl
  have hfirst : es l = .wclose (arg (vs l) 1) r :: [.result d 32 (BitVec.ofNat 128 n) none] := by
    rw [hes l (hlanes ▸ List.mem_cons_self ..), if_pos rfl]
    rfl
  unfold rowsOf wcloseBody
  rw [hlanes]
  simp only [List.map_cons, hplan, List.zipIdx_cons, if_true, hfirst, List.singleton_append, List.cons.injEq, true_and]
  apply List.ext_getElem (by simp)
  intro k hk _
  simp [hrest _ (List.getElem_mem ..)]

theorem beaconBody_ok {k : BKind} {l : Nat} {v : List Nat} {es : List Eff} (h : beacons k z l v es) :
    (outOf (z.planBeacon z.cc z.cg k (arg v 0) (arg v 1)) fun (o, tgt) =>
      .ok (z.blockTouches (arg v 1) ++ [.object (.dev o.addr 0 (BitVec.ofNat 64 (arg v 0)) 5) 0 (k != .bchase), .beacon o tgt 0])) = .ok es := by
  obtain ⟨o, tgt, hplan, rfl⟩ := h
  rw [show z.planBeacon z.cc z.cg k (arg v 0) (arg v 1) = .ok (o, tgt) from hplan]
  cases k <;> rfl

/-- Settles O41, by what each word plans. -/
theorem windowWords : Obligations.WindowWords := by
  intro d a b
  refine ⟨performs_once (fun _ => rfl) fun _ _ _ _ _ => wtag_ok, ?wclose, performs_each (fun _ => rfl) ?wfence,
    performs_each (fun _ => rfl) fun _ _ _ _ => beaconBody_ok, performs_each (fun _ => rfl) fun _ _ _ _ => beaconBody_ok,
    performs_each (fun _ => rfl) fun _ _ _ _ => beaconBody_ok, performs_each (fun _ => rfl) fun _ _ _ _ => beaconBody_ok,
    fun s c g l t => ⟨State.group_updGroup_same .., rfl⟩⟩
  case wclose =>
    intro s f vs l rest r n es hready hheld hlanes hplan hes hroom
    exact exec_ready hready (wcloseBody_ok hlanes hplan hes) (fun _ _ _ _ hdst hqueue => hheld _ hdst hqueue) hroom
  case wfence =>
    rintro z l v _ ⟨t, hticket, hfenced, rfl⟩
    exact planWfence_ok hticket hfenced
end Sys2Proof.Windows
end

section
/-! PROOFS. Memory: every step keeps the canonical form of device memory and of every scratchpad (log entry 5).  `Canon` says it of a state;
each function of the state that a step may run has its lemma, in the model's order, and a step is then one of them. -/
open Sys2Proof Sys2Proof.Machine Sys2Proof.Safety Sys2Proof.Rules
namespace Sys2Proof.CanonicalMemory

theorem wf_overlay {m : Mem} (h : m.wf = true) (x : Mem) (a n : Nat) : (m.overlay x a n).wf = true :=
  Mem.wf_foldl _ (fun _ _ hm => Mem.wf_setSector hm ..) _ (Mem.wf_foldl _ (fun _ _ hm => Mem.wf_put hm ..) _ (Mem.wf_keep h ..))

/-- A memory and the scratchpads of a table of cores are in canonical form. -/
def CanonAt (m : Mem) (cores : Tbl Core) : Prop := m.wf = true ∧ ∀ c, (Tbl.get cores c {}).scr.wf = true
/-- Device memory and every scratchpad are in canonical form. -/
def Canon (s : State) : Prop := CanonAt s.mem s.cores

namespace Canon
variable {s t : State}

theorem of_parts (h : Canon s) (hmem : t.mem = s.mem := by rfl) (hcores : t.cores = s.cores := by rfl) : Canon t := by
  unfold Canon at *
  rwa [hmem, hcores]

theorem setMem (h : Canon s) {m : Mem} (hm : m.wf = true) : Canon { s with mem := m } := ⟨hm, h.2⟩

theorem setScr (h : Canon s) {c : Nat} {x : Core} (hx : x.scr.wf = true) : Canon (s.setCore c x) := by
  refine ⟨h.1, fun k => ?_⟩
  unfold State.setCore
  rw [Tbl.get_put]
  split
  · exact hx
  · exact h.2 k

@[simp] theorem setCore (h : Canon s) {c : Nat} {x : Core} (hx : x.scr = (s.core c).scr) : Canon (s.setCore c x) :=
  h.setScr (hx ▸ h.2 c)

theorem mapCores (h : Canon s) {f : Nat → Core → Core} (hf : ∀ c k, (f c k).scr = k.scr) : Canon { s with cores := s.cores.mapV f } := by
  refine ⟨h.1, fun c => ?_⟩
  have hc := h.2 c
  unfold Tbl.get at hc ⊢
  rw [Tbl.find_mapV]
  cases hfind : Tbl.find s.cores c with
  | none => rw [hfind] at hc; exact hc
  | some k => rw [hfind] at hc; exact (hf c k).symm ▸ hc

@[simp] theorem foldl {α : Type} {xs : List α} {f : State → α → State} (h : Canon s) (hf : ∀ u a, Canon u → Canon (f u a)) : Canon (xs.foldl f s) := by
  induction xs generalizing s with
  | nil => exact h
  | cons x xs ih => exact ih (hf s x h)

@[simp] theorem ite {p : Prop} [Decidable p] (hs : Canon s) (ht : Canon t) : Canon (if p then s else t) := by
  split
  · exact hs
  · exact ht

/-- Only the memory and the cores count. -/
@[simp] theorem mk_iff {m d c l k f mg p np lg lgg nt nf nw ch ag} : Canon (State.mk m d c l k f mg p np lg lgg nt nf nw ch ag) ↔ CanonAt m c := Iff.rfl
/-- The state of a pair that a function gives. -/
theorem fst {α : Type} {p : State × α} {a : α} (h : Canon p.1) (hp : p = (s, a)) : Canon s := by
  rw [hp] at h
  exact h
theorem snd {α : Type} {p : α × State} {a : α} (h : Canon p.2) (hp : p = (a, s)) : Canon s := by
  rw [hp] at h
  exact h
theorem of_at {m d c l k f mg p np lg lgg nt nf nw ch ag} (h : CanonAt m c) : Canon (State.mk m d c l k f mg p np lg lgg nt nf nw ch ag) := h
@[simp] theorem at_iff : CanonAt s.mem s.cores ↔ Canon s := Iff.rfl

/-! ### Writes of memory -/
@[simp] theorem tlbDrop (h : Canon s) (ctx va : Option Nat) : Canon (s.tlbDrop ctx va) := h.mapCores fun _ _ => rfl
@[simp] theorem mapGroups (h : Canon s) (f : Nat → Nat → Group → Group) : Canon (s.mapGroups f) :=
  (h.mapCores (f := fun c k => { k with groups := k.groups.mapV fun g x => f c g x }) fun _ _ => rfl).of_parts
@[simp] theorem noteWrite (h : Canon s) (who : Option (Nat × Nat)) (secs : List Nat) : Canon (s.noteWrite who secs) := h.mapGroups _
@[simp] theorem dirtyLine (h : Canon s) (pa : Nat) : Canon (s.dirtyLine pa) := by
  unfold State.dirtyLine
  split
  · exact h
  · exact h
@[simp] theorem devWrite (h : Canon s) (who : Option (Nat × Nat)) (key pa : Nat) (bs : List Byte) (p : Bool) : Canon (s.devWrite who key pa bs p) :=
  (foldl ((h.setMem (Mem.wf_writeKey h.1 key pa bs p)).of_parts) fun _ _ hu => hu.dirtyLine _).noteWrite _ _
@[simp] theorem devSetSlot (h : Canon s) (pa k : Nat) (v : Byte) : Canon (s.devSetSlot pa k v) :=
  ((h.setMem (Mem.wf_setSlot h.1 pa k v)).dirtyLine pa).noteWrite _ _
@[simp] theorem touch (h : Canon s) (core : Option Nat) (ctx : Nat) (write : Bool) (va : Nat) : Canon (s.touch core ctx write va) := by
  have marked (entry : Nat) (bs : List Byte) : Canon { s with mem := s.mem.writeKey 0 entry bs false } := h.setMem (Mem.wf_writeKey h.1 ..)
  unfold State.touch
  cases core with
  | none =>
    dsimp only
    split
    · exact marked ..
    · exact h
  | some c =>
    dsimp only
    split
    · exact h
    · split
      · exact (marked ..).setCore rfl
      · exact h
@[simp] theorem vwrite (h : Canon s) (ctx va : Nat) (bs : List Byte) : Canon (s.vwrite ctx va bs) := by
  induction bs generalizing s va with
  | nil => exact h
  | cons b bs ih => exact ih ((h.touch ..).devWrite ..) _
@[simp] theorem setTeam (h : Canon s) (k : Nat) (x : Team) : Canon (s.setTeam k x) := h
@[simp] theorem setGrid (h : Canon s) (k : Nat) (x : Grid) : Canon (s.setGrid k x) := h
@[simp] theorem setCtx (h : Canon s) (k : Nat) (x : Ctx) : Canon (s.setCtx k x) := h
@[simp] theorem setGroup (h : Canon s) (c g : Nat) (x : Group) : Canon (s.setGroup c g x) := h.setCore rfl
@[simp] theorem updGroup (h : Canon s) (c g : Nat) (f : Group → Group) : Canon (s.updGroup c g f) := h.setGroup ..
@[simp] theorem markDirty (h : Canon s) (core off n : Nat) (scale : Bool) : Canon (s.markDirty core off n scale) := by
  refine h.foldl fun u a hu => ?_
  split
  · exact hu
  · dsimp only
    split
    · exact hu
    · exact hu
@[simp] theorem scrWrite (h : Canon s) (who : Option (Nat × Nat)) (core off : Nat) (bs : List Byte) (p : Bool) :
    Canon (s.scrWrite who core off bs p) :=
  ((setScr (s := { s with lag := s.overtake (some core) off bs.length }) h (Mem.wf_writeKey (h.2 core) 0 off bs p)).markDirty ..).noteWrite ..
@[simp] theorem scrSetSlot (h : Canon s) (core off k : Nat) (v : Byte) : Canon (s.scrSetSlot core off k v) :=
  ((h.setScr (Mem.wf_setSlot (h.2 core) off k v)).markDirty ..).noteWrite ..
@[simp] theorem locWrite (h : Canon s) (who : Option (Nat × Nat)) (l : Loc) (bs : List Byte) (p : Bool) : Canon (s.locWrite who l bs p) := by
  cases l with
  | dev => exact h.devWrite ..
  | scr => exact h.scrWrite ..
@[simp] theorem locSetSlot (h : Canon s) (l : Loc) (k : Nat) (v : Byte) : Canon (s.locSetSlot l k v) := by
  cases l with
  | dev => exact h.devSetSlot ..
  | scr => exact h.scrSetSlot ..
@[simp] theorem l1DropLine (h : Canon s) (pa : Nat) : Canon (s.l1DropLine pa) := h.mapCores fun _ _ => rfl
@[simp] theorem l1DropOthers (h : Canon s) (core pa : Nat) : Canon (s.l1DropOthers core pa) := h.mapCores fun c k => by split <;> rfl
@[simp] theorem l1Update (h : Canon s) (core key : Nat) (ks : List Nat) : Canon (s.l1Update core key ks) := by
  refine h.foldl fun u a hu => ?_
  split
  · exact hu.setCore rfl
  · exact hu
@[simp] theorem zeroMem (h : Canon s) (a n : Nat) : Canon { s with mem := s.mem.zero a n } := h.setMem (Mem.wf_keep h.1 ..)
theorem takeFrame (h : Canon s) {big : Bool} {f : Nat} (ht : s.takeFrame big = some (f, t)) : Canon t := by
  obtain ⟨g, -, hg⟩ := Option.map_eq_some_iff.mp ht
  cases hg
  exact h
theorem mapAt (h : Canon s) {va : Nat} {leaf : Option Nat} {big : Bool} {lv table : Nat} (ht : s.mapAt va leaf big lv table = some t) : Canon t := by
  induction lv generalizing s table with
  | zero => cases ht; exact h
  | succ lv ih =>
    unfold State.mapAt at ht
    dsimp only at ht
    split at ht
    · cases ht
      split
      · exact h.devWrite ..
      · exact h
    · split at ht
      · exact ih h ht
      · split at ht
        · cases ht
        · next f u hu => exact ih ((h.takeFrame hu).zeroMem _ _ |>.devWrite ..) ht

/-! ### Address translation (R219 to R222) -/
@[simp] theorem setLane (h : Canon s) (c g l : Nat) (x : Lane) : Canon (s.setLane c g l x) := by
  unfold State.setLane
  simp [h]
@[simp] theorem updLane (h : Canon s) (c g l : Nat) (f : Lane → Lane) : Canon (s.updLane c g l f) := by
  unfold State.updLane
  simp [h]

/-! ### Writes, rounds and lanes -/
@[simp] theorem storesDone (h : Canon s) (core grp lane : Nat) : Canon (s.storesDone core grp lane) := h
@[simp] theorem l1Fill (h : Canon s) (core key : Nat) (ks : List Nat) : Canon (s.l1Fill core key ks) := by
  unfold State.l1Fill
  refine h.foldl fun u a hu => ?_
  simp [hu]
@[simp] theorem l1DropAll (h : Canon s) (core : Nat) : Canon (s.l1DropAll core) := by
  unfold State.l1DropAll
  simp [h]
@[simp] theorem tick (h : Canon s) : Canon s.tick := h
@[simp] theorem toHost (h : Canon s) (kind addr : Nat) (bs : List Byte) : Canon (s.toHost kind addr bs) := by
  unfold State.toHost
  simp [h]
@[simp] theorem keepLog (h : Canon s) (r : FRec) : Canon (s.keepLog r) := by
  unfold State.keepLog
  simp [h]
@[simp] theorem tellHost (h : Canon s) (kind ctx va : Nat) (bs : List Byte) : Canon (s.tellHost kind ctx va bs) := by
  unfold State.tellHost
  split <;> simp [h]
@[simp] theorem record (h : Canon s) (r : FRec) : Canon (s.record r) := by
  unfold State.record
  simp [h]

/-! ### Layers and leaves (R338 to R346) -/
@[simp] theorem freeFrames (h : Canon s) (fs : List Nat) : Canon (s.freeFrames fs) := h
@[simp] theorem setTopmark (h : Canon s) (ctx layer v : Nat) : Canon (s.setTopmark ctx layer v) := by
  unfold State.setTopmark
  split <;> simp [h]
@[simp] theorem tmSet (h : Canon s) (ctx layer st : Nat) : Canon (s.tmSet ctx layer st) := by
  unfold State.tmSet
  simp [h]
@[simp] theorem tmPinBy (h : Canon s) (ctx layer : Nat) (up : Bool) : Canon (s.tmPinBy ctx layer up) := by
  unfold State.tmPinBy
  simp [h]
theorem mapTables (h : Canon s) {ctx va : Nat} {big : Bool} (ht : s.mapTables ctx va big = some t) : Canon t := h.mapAt ht
@[simp] theorem freshTopmarks (h : Canon s) (ctx : Nat) : Canon (s.freshTopmarks ctx) := by
  unfold State.freshTopmarks
  dsimp only
  split
  · exact h
  · exact (h.setCtx _ _).foldl fun _ _ hu => hu.setTopmark ..
@[simp] theorem install (h : Canon s) (ctx va leaf : Nat) (big : Bool) : Canon (s.install ctx va leaf big) := by
  have mapped : Canon ((s.mapAt va (some leaf) big 4 (s.ctx ctx).root).getD s) := by
    cases ht : s.mapAt va (some leaf) big 4 (s.ctx ctx).root with
    | none => exact h
    | some t => exact h.mapAt ht
  exact (mapped.tlbDrop ..).freshTopmarks _
@[simp] theorem setLeaf (h : Canon s) (ctx va : Nat) (f : Nat → Nat) : Canon (s.setLeaf ctx va f) := by
  unfold State.setLeaf
  split <;> simp [h]
theorem takeFrames (h : Canon s) {ps : List (Nat × Bool)} {fs : List Nat} (ht : s.takeFrames ps = some (fs, t)) : Canon t := by
  induction ps generalizing s fs with
  | nil => cases ht; exact h
  | cons p ps ih =>
    unfold State.takeFrames at ht
    split at ht
    · cases ht
    · next f u hu =>
      obtain ⟨⟨gs, v⟩, hv, he⟩ := Option.map_eq_some_iff.mp ht
      cases he
      exact ih (h.takeFrame hu) hv
theorem takeTables (h : Canon s) {ctx : Nat} {ps : List (Nat × Bool)} (ht : s.takeTables ctx ps = some t) : Canon t := by
  induction ps generalizing s with
  | nil => cases ht; exact h
  | cons p ps ih =>
    obtain ⟨u, hu, hrest⟩ := Option.bind_eq_some_iff.mp ht
    exact ih (h.mapTables hu) hrest
@[simp] theorem requestLayer (h : Canon s) (ctx layer : Nat) : Canon (s.requestLayer ctx layer) := by
  unfold State.requestLayer
  dsimp only
  split
  · exact h
  · split
    · exact h.setCtx ..
    · next fs u hu =>
      obtain ⟨⟨gs, v⟩, hv, hrest⟩ := Option.bind_eq_some_iff.mp hu
      obtain ⟨w, hw, he⟩ := Option.map_eq_some_iff.mp hrest
      cases he
      exact (((h.takeFrames hv).takeTables hw).setCtx ..).tmSet ..
@[simp] theorem retryWanted (h : Canon s) : Canon s.retryWanted :=
  h.foldl fun _ _ hu => hu.foldl fun _ _ hv => hv.requestLayer ..
@[simp] theorem wakeLayer (h : Canon s) (ctx layer : Nat) : Canon (s.wakeLayer ctx layer) :=
  (h.foldl fun _ _ hu => hu.l1DropAll _).mapGroups _
@[simp] theorem layerBytes (h : Canon s) (ctx layer : Nat) (xs : List LayerBytes) : Canon (s.layerBytes ctx layer xs) := by
  refine h.foldl fun u x hu => foldl (foldl hu fun v p hv => ?_) fun v p hv => ?_
  · dsimp only
    split
    · exact hv.devWrite ..
    · exact hv
  · dsimp only
    split
    · exact (hv.devSetSlot ..).devSetSlot ..
    · exact hv
@[simp] theorem layerReady (h : Canon s) (ctx layer : Nat) : Canon (s.layerReady ctx layer) :=
  (((h.foldl fun _ _ hu => hu.install ..).setCtx ..).tmSet ..).wakeLayer ..

/-! ### Registration and placement (R291 to R302) -/
@[simp] theorem touchRange (h : Canon s) (ctx : Nat) (write : Bool) (va n : Nat) : Canon (s.touchRange ctx write va n) := by
  unfold State.touchRange
  split <;> simp [h]
@[simp] theorem readMark (h : Canon s) (ctx : Nat) (n : Need) (va len : Nat) : Canon (s.readMark ctx n va len) := by
  unfold State.readMark
  simp [h]
@[simp] theorem inputMarks (h : Canon s) (ctx n a : Nat) : Canon (s.inputMarks ctx n a) := by
  induction n generalizing s a with
  | zero => exact h
  | succ n ih =>
    unfold State.inputMarks
    split
    · exact ih (h.readMark ..) _
    · exact h.readMark ..
@[simp] theorem recordMarks (h : Canon s) (ctx a : Nat) : Canon (s.recordMarks ctx a) := by
  unfold State.recordMarks
  dsimp only
  split <;> simp [h]
@[simp] theorem askInputs (h : Canon s) (g : Grid) : Canon (s.askInputs g) := by
  refine h.foldl fun u ⟨a, len, kind⟩ hu => ?_
  dsimp only
  split
  · split
    · exact hu
    · exact hu.requestLayer ..
  · refine hu.foldl fun v p hv => ?_
    split
    · exact hv
    · split
      · split
        · split
          · exact hv.record _
          · split
            · exact hv.requestLayer ..
            · exact hv
        · exact hv
      · exact hv
@[simp] theorem advance (h : Canon s) (gid : Nat) (joined : Bool) : Canon (s.advance gid joined) := by
  unfold State.advance
  extract_lets g u v
  have asked : Canon u := .ite ((h.setGrid ..).askInputs _) h
  exact .ite asked asked
@[simp] theorem writeHeader (h : Canon s) (ctx : Nat) (args : DWord) (g : Grid) : Canon (s.writeHeader ctx args g) := by
  unfold State.writeHeader
  simp [h]
@[simp] theorem tableFreed (h : Canon s) : Canon s.tableFreed := by
  unfold State.tableFreed
  simp [h]
@[simp] theorem setWatch (h : Canon s) (ctx : Nat) (addr : DWord) (on : Bool) : Canon (s.setWatch ctx addr on) := by
  unfold State.setWatch
  simp [h]
@[simp] theorem registerGrid (h : Canon s) (g : Grid) : Canon (s.registerGrid g).2 := by
  unfold State.registerGrid
  extract_lets gid join u _ v
  have written : Canon u := ((h.recordMarks ..).setWatch ..).writeHeader ..
  have listed : Canon v := of_at written
  clear_value v u
  exact listed.advance gid _
@[simp] theorem nodeWrite (h : Canon s) (n : Node) (off v : Nat) : Canon (s.nodeWrite n off v) := by
  unfold State.nodeWrite
  simp [h]
@[simp] theorem setNode (h : Canon s) (k : Nat) (n : Node) : Canon (s.setNode k n) := h
@[simp] theorem nodeGroup (h : Canon s) (k n : Nat) : Canon (s.nodeGroup k n) := by
  unfold State.nodeGroup
  simp [h]
@[simp] theorem nodeStart (h : Canon s) (k fuel : Nat) : Canon (s.nodeStart k fuel) := by
  induction fuel generalizing s with
  | zero => exact h
  | succ fuel ih => exact .ite h (.ite (ih (h.nodeGroup ..)) (.ite (h.nodeGroup ..) h))
@[simp] theorem nodeEmit (h : Canon s) (k : Nat) (payload : DWord) : Canon (s.nodeEmit k payload) :=
  ((h.vwrite ..).nodeWrite ..).nodeStart ..
@[simp] theorem nodeRetire (h : Canon s) (k : Nat) : Canon (s.nodeRetire k) :=
  .ite (tableFreed (((h.nodeWrite ..).setWatch ..).of_parts)) h
@[simp] theorem nodeClose (h : Canon s) (k : Nat) : Canon (s.nodeClose k) :=
  .ite ((((h.setNode ..).nodeWrite ..).nodeStart ..).nodeRetire _) h
@[simp] theorem registerNode (h : Canon s) (ctx : Nat) (addr : DWord) (parent : Nat) : Canon (s.registerNode ctx addr parent) := by
  unfold State.registerNode
  extract_lets n recA r p tmpl k x u _ v
  have written : Canon u := (((h.readMark ..).recordMarks ..).setWatch ..).writeHeader ..
  have noted : Canon v := (setNode (of_at written) ..).nodeWrite ..
  exact .ite (noted.nodeClose _) noted
@[simp] theorem zeroScr (h : Canon s) (core base len : Nat) : Canon (s.zeroScr core base len) :=
  (h.setScr (Mem.wf_keep (h.2 core) ..)).noteWrite ..
@[simp] theorem icDropAll (h : Canon s) (core : Nat) : Canon (s.icDropAll core) := by
  unfold State.icDropAll
  simp [h]
@[simp] theorem dropReserved (h : Canon s) (gid : Nat) : Canon (s.dropReserved gid) := h
@[simp] theorem placeTeam (h : Canon s) (gid idx member core : Nat) (cluster : Option Nat) : Canon (s.placeTeam gid idx member core cluster) :=
  (foldl ((((h.setTeam ..).zeroScr ..).l1DropAll _).icDropAll _) fun _ _ hu => hu.setGroup ..).of_parts
@[simp] theorem placeNext (h : Canon s) (gid : Nat) (cores : List Nat) : Canon (s.placeNext gid cores) := by
  unfold State.placeNext
  extract_lets g inClu cl u placed v _ w
  have hu : Canon u := h.foldl fun _ _ hu => hu.placeTeam ..
  have hw : Canon w := (hu.setGrid ..).setCtx ..
  split
  · exact hw
  · exact hw.nodeWrite ..
theorem placeAll (h : Canon s) {gid : Nat} (ht : s.placeAll gid = some t) : Canon t := by
  obtain ⟨rs, -, he⟩ := Option.map_eq_some_iff.mp ht
  exact he ▸ h.foldl fun _ _ hu => hu.placeNext ..
@[simp] theorem barrier (h : Canon s) (teams : List Nat) (atBar : LaneMode → Bool) (clu : Bool) : Canon (s.barrier teams atBar clu) := by
  have released (ls : List (Nat × Nat)) (f : Group → Group) : Canon (ls.foldl (fun s p => s.updGroup p.1 p.2 f) s) := h.foldl fun _ _ hu => hu.updGroup ..
  exact .ite (.ite ((released ..).foldl fun _ _ hu => hu.l1DropAll _) (released ..)) h
@[simp] theorem barriers (h : Canon s) (t : Nat) : Canon (s.barriers t) := by
  unfold State.barriers
  split <;> simp [h]
@[simp] theorem setQueue (h : Canon s) (q : Nat) (x : Queue) : Canon (s.setQueue q x) := h
@[simp] theorem rejectAt (h : Canon s) (q code : Nat) (addr : DWord) (back : Bool) : Canon (s.rejectAt q code addr back) := by
  unfold State.rejectAt
  simp [h]
@[simp] theorem rejectQueue (h : Canon s) (q code : Nat) : Canon (s.rejectQueue q code) := by
  unfold State.rejectQueue
  simp [h]
@[simp] theorem abortGrid (h : Canon s) (gid : Nat) : Canon (s.abortGrid gid) := by
  have discarded (f : Nat → Nat → Group → Group) (l : Lantern) (k : Keeper) : Canon { s.mapGroups f with lantern := l, keeper := k } := h.mapGroups f
  unfold State.abortGrid
  exact foldl (foldl (foldl (discarded ..) fun _ _ hu => hu.dropReserved _) fun _ _ hu => (hu.setNode ..).nodeWrite ..) fun _ _ hu => hu.rejectAt ..
@[simp] theorem takeTrap (h : Canon s) (core grp lane : Nat) (c : Cause) (taddr : DWord) (slot : Nat) : Canon (s.takeTrap core grp lane c taddr slot) :=
  .ite h (.ite ((h.record _).abortGrid _) (h.setLane ..))
@[simp] theorem parkLanes (h : Canon s) (core grp : Nat) (ls : List (Nat × DWord)) (c : Cause) (pc : DWord) : Canon (s.parkLanes core grp ls c pc) := by
  unfold State.parkLanes
  extract_lets ctx up k id lanes va upcall _ u v _
  have recorded : Canon u := .ite (h.record _) h
  have parked : Canon v := recorded.updGroup ..
  exact parked

/-! ### Moorings (R182 to R187) -/
@[simp] theorem setMooring (h : Canon s) (who : Option (Nat × Nat)) (r : Retire) (m : Mooring) : Canon (s.setMooring who r m) := by
  unfold State.setMooring
  simp [h]
@[simp] theorem wake (h : Canon s) (r : Retire) (phase : Bool) : Canon (s.wake r phase) :=
  (h.mapGroups _).foldl fun _ _ hu => hu.l1DropAll _
@[simp] theorem rewait (h : Canon s) (l : Loc) : Canon (s.rewait l) := by
  unfold State.rewait
  simp [h]
@[simp] theorem moorPut (h : Canon s) (who : Option (Nat × Nat)) (r : Retire) (m : Mooring) : Canon (s.moorPut who r m) :=
  .ite (((h.setMooring ..).tick).wake ..) ((h.setMooring ..).tick)
@[simp] theorem performPosted (h : Canon s) (k : Nat) (p : Posted) : Canon (s.performPosted k p) := by
  have taken : Canon { s with posted := Tbl.del s.posted k } := h
  unfold State.performPosted
  dsimp only
  split
  · exact .ite ((taken.moorPut ..).updGroup ..) (taken.moorPut ..)
  · exact .ite (taken.updLane ..) taken
@[simp] theorem arrive (h : Canon s) (r : Retire) : Canon (s.arrive r) := by
  unfold State.arrive
  refine h.foldl fun u a hu => ?_
  simp [hu]
@[simp] theorem retire (h : Canon s) (core grp : Nat) (r : Retire) : Canon (s.retire core grp r) := by
  unfold State.retire
  split
  · exact h
  · extract_lets u
    have hu : Canon u := h.arrive r
    split
    · exact hu.moorPut ..
    · exact (hu.record _).tick
@[simp] theorem moorWait (h : Canon s) (who : Option (Nat × Nat)) (r : Retire) : Canon (s.moorWait who r) := by
  unfold State.moorWait
  simp [h]
@[simp] theorem joinZero (h : Canon s) (pa : Nat) : Canon (s.joinZero pa) := by
  unfold State.joinZero
  split
  · exact h.advance ..
  · split
    · exact h.nodeClose _
    · exact h
@[simp] theorem jdecHome (h : Canon s) (k : Nat) : Canon (s.jdecHome k) := by
  unfold State.jdecHome
  split
  · exact h
  · have taken : Canon { s with lantern := { s.lantern with jdecs := s.lantern.jdecs.eraseIdx k } } := h
    exact .ite (taken.record _) (.ite ((taken.devWrite ..).joinZero _) (taken.devWrite ..))
@[simp] theorem settleUses (h : Canon s) (pick : Nat → Nat → Bool) : Canon (s.settleUses pick) := by
  refine mapGroups (foldl (foldl h fun _ _ hu => hu.arrive _) fun u _ hu => ?_) _
  split
  · exact hu.jdecHome _
  · exact hu

/-! ### Copies and tenders (R237 to R252) -/
@[simp] theorem setEngine (h : Canon s) (core part : Nat) (e : Engine) : Canon (s.setEngine core part e) := by
  unfold State.setEngine
  simp [h]
@[simp] theorem setCell (h : Canon s) (core k ctx : Nat) (v : Word) : Canon (s.setCell core k ctx v) := by
  unfold State.setCell
  simp [h]
@[simp] theorem cellMax (h : Canon s) (core k ctx : Nat) (xs : List Nat) : Canon (s.cellMax core k ctx xs) := by
  unfold State.cellMax
  simp [h]
@[simp] theorem copy1 (h : Canon s) (x : CopyItem) : Canon (s.copy1 x) := by
  have written (bs : List Byte) (p : Bool) : Canon (s.scrWrite none x.dcore x.daddr bs p) := h.scrWrite ..
  have slots (bs : List Byte) (p : Bool) : Canon (((s.scrWrite none x.dcore x.daddr bs p).scrSetSlot x.dcore x.daddr 0 (s.devSlot x.src 0)).scrSetSlot
      x.dcore x.daddr 1 (s.devSlot x.src 1)) := ((written bs p).scrSetSlot ..).scrSetSlot ..
  exact .ite h (.ite ((slots ..).setScr (Mem.wf_setSector ((slots ..).2 _) ..)) (written ..))
@[simp] theorem batchDone (h : Canon s) (core grp : Nat) : Canon (s.batchDone core grp) := by
  unfold State.batchDone
  split
  · exact h
  · exact .ite h (((h.foldl fun _ _ hu => hu.copy1 _).updGroup ..).retire ..)
@[simp] theorem writeRow (h : Canon s) (core a n : Nat) (bs : List (Byte × Bool)) : Canon (s.writeRow core a n bs) := by
  induction n generalizing s a bs with
  | zero => exact h
  | succ n ih => exact .ite h (ih (h.scrWrite ..) _ _)
@[simp] theorem writeTile (h : Canon s) (ps : Tbl (Nat × Nat)) (seed : Nat) (mode : RMode) (t : TileD) (p : Nat × Nat) :
    Canon (s.writeTile ps seed mode t p) :=
  h.foldl fun _ _ hu => (hu.writeRow ..).foldl fun _ _ hv => hv.scrSetSlot ..
@[simp] theorem acceptTl (h : Canon s) (core grp : Nat) (o : TlOp) : Canon (s.acceptTl core grp o) :=
  updGroup (foldl (h.of_parts) fun _ _ hu => hu.touch ..) ..
@[simp] theorem tileDone (h : Canon s) (core grp id : Nat) : Canon (s.tileDone core grp id) := by
  unfold State.tileDone
  split
  · exact h
  · next o _ =>
    have finished {u : State} (hu : Canon u) (k : Nat) (xs : List Nat) (b : Bool) : Canon (((if b then u.cellMax core k (s.ctxOf core grp) xs else u).updGroup core grp
        fun g => g.tlDone id).retire core grp o.act) := (updGroup (.ite (hu.cellMax ..) hu) ..).retire ..
    exact .ite h (.ite (finished (h.writeTile ..) ..) (.ite (finished (h.setGroup ..) ..) (h.setGroup ..)))
@[simp] theorem copyScr (h : Canon s) (a b : Nat × Nat) (n : Nat) : Canon (s.copyScr a b n) :=
  h.foldl fun _ _ hu => ((hu.scrWrite ..).scrSetSlot ..).scrSetSlot ..
@[simp] theorem relayHop (h : Canon s) (core grp id : Nat) : Canon (s.relayHop core grp id) := by
  unfold State.relayHop
  split
  · exact h
  · exact .ite h (.ite (((h.copyScr ..).retire ..).updGroup ..) (((h.copyScr ..).retire ..).updGroup ..))
theorem gatherSec (h : Canon t) (s : State) (o : TlOp) (i k u : Nat) : Canon (s.gatherSec t o i k u) :=
  .ite (((h.scrWrite ..).scrSetSlot ..).scrSetSlot ..) (((h.scrWrite ..).scrSetSlot ..).scrSetSlot ..)
@[simp] theorem gatherRows (h : Canon s) (o : TlOp) : Canon (s.gatherRows o) :=
  h.foldl fun _ _ hu => hu.foldl fun _ _ hv => hv.gatherSec ..
@[simp] theorem gathDone (h : Canon s) (core grp id : Nat) : Canon (s.gathDone core grp id) := by
  unfold State.gathDone
  split
  · exact h
  · exact .ite h (((h.gatherRows _).updGroup ..).retire ..)

/-! ### The matrix engine (R255 to R274) -/
@[simp] theorem setOrphaned (h : Canon s) (core part team : Nat) (on : Bool) : Canon (s.setOrphaned core part team on) := by
  unfold State.setOrphaned
  refine h.foldl fun u a hu => ?_
  simp [hu]
@[simp] theorem reserve (h : Canon s) (core grp : Nat) : Canon (s.reserve core grp) := by
  unfold State.reserve
  dsimp only
  split <;> simp [h]
@[simp] theorem trapJoint (h : Canon s) (core grp : Nat) (c : Cause) (taddr : DWord) : Canon (s.trapJoint core grp c taddr) := by
  unfold State.trapJoint
  simp +contextual [h]
@[simp] theorem release (h : Canon s) (core part : Nat) : Canon (s.release core part) := by
  unfold State.release
  extract_lets e
  split
  · exact h
  · refine foldl (foldl (h.setEngine ..) fun _ _ hu => hu.updGroup ..) fun u g hu => ?_
    split
    · exact .ite hu (hu.trapJoint ..)
    · exact hu
@[simp] theorem convene (h : Canon s) (core grp : Nat) (mask : BitVec 32) : Canon (s.convene core grp mask) := by
  unfold State.convene
  simp +contextual [h]
@[simp] theorem beginJoint (h : Canon s) (core grp : Nat) (x : AtJoint) : Canon (s.beginJoint core grp x) := by
  unfold State.beginJoint
  split <;> simp [h]
theorem take1 (h : Canon s) {core part stream grp : Nat} (ht : s.take1 core part stream grp = some t) : Canon t := by
  unfold State.take1 at ht
  dsimp only at ht
  split at ht
  · split at ht
    · cases ht
    · split at ht
      · cases ht
      · cases ht
        exact (h.setEngine ..).updGroup ..
  · cases ht
@[simp] theorem takeStream (h : Canon s) (core part stream grp n : Nat) : Canon (s.takeStream core part stream grp n) := by
  induction n generalizing s with
  | zero => exact h
  | succ n ih =>
    unfold State.takeStream
    split
    · next ht => exact ih (h.take1 ht)
    · exact h
@[simp] theorem takeEntries (h : Canon s) (core part : Nat) : Canon (s.takeEntries core part) :=
  h.foldl fun _ _ hu => (hu.takeStream ..).takeStream ..
@[simp] theorem jointIssue (h : Canon s) (core part : Nat) : Canon (s.jointIssue core part) := by
  unfold State.jointIssue
  extract_lets u e gs ws w agree counted streams heads trapAll ha hb a0 b0 same good bad
  have hu : Canon u := h.takeEntries ..
  split
  · exact hu
  · have trapped (c : Cause) (f : AtJoint → DWord) : Canon (trapAll c f) := hu.foldl fun _ _ hv => hv.trapJoint ..
    clear_value trapAll
    split
    · exact trapped ..
    · split
      · exact hu
      · split
        · exact hu
        · split
          · exact trapped ..
          · split
            · exact trapped ..
            · split
              · exact trapped ..
              · exact foldl (setEngine (of_at hu) ..) fun _ _ hv => hv.updGroup ..
@[simp] theorem matrixPass (h : Canon s) (core part : Nat) : Canon (s.matrixPass core part) := by
  unfold State.matrixPass
  extract_lets u e
  have hu : Canon u := h.takeEntries ..
  split
  · exact .ite (hu.setEngine ..) hu
  · exact hu
@[simp] theorem drainDeliver (h : Canon s) (core part : Nat) : Canon (s.drainDeliver core part) := by
  unfold State.drainDeliver
  extract_lets e
  split
  · split
    · split
      · exact h
      · exact (h.setEngine ..).updGroup ..
    · exact h
  · exact h
@[simp] theorem drainEnd (h : Canon s) (core part : Nat) (o : MxOp) : Canon (s.drainEnd core part o) := by
  unfold State.drainEnd
  extract_lets e t u
  have hu : Canon u := .ite (h.record _) (.ite (h.cellMax ..) h)
  exact .ite (hu.setEngine ..) hu
@[simp] theorem drainRows (h : Canon s) (core part : Nat) (o : MxOp) : Canon (s.drainRows core part o) := by
  refine h.foldl fun u i hu => ?_
  split
  exact .ite ((hu.writeRow ..).scrSetSlot ..) (hu.writeRow ..)
@[simp] theorem loadTile (h : Canon s) (core part : Nat) (o : MxOp) : Canon (s.loadTile core part o) := by
  unfold State.loadTile
  simp [h]
@[simp] theorem configure (h : Canon s) (core part : Nat) (o : MxOp) : Canon (s.configure core part o) := by
  unfold State.configure
  split <;> simp [h]
@[simp] theorem retireOp (h : Canon s) (core part : Nat) (o : MxOp) : Canon (s.retireOp core part o) :=
  foldl (h.setEngine ..) fun _ _ hu => hu.updGroup ..
@[simp] theorem matrixDone (h : Canon s) (core part : Nat) : Canon (s.matrixDone core part) := by
  unfold State.matrixDone
  extract_lets e
  split
  · exact h
  · split
    · exact .ite (h.retireOp ..) h
    · exact .ite (h.retireOp ..) h
    · exact .ite (h.retireOp ..) h
    · exact (h.setEngine ..).retireOp ..
    · exact .ite (((h.drainRows ..).drainEnd ..).retireOp ..) (.ite ((h.drainEnd ..).retireOp ..) h)
    · exact (h.loadTile ..).retireOp ..
    · exact (h.configure ..).retireOp ..
    · exact h
@[simp] theorem abandon (h : Canon s) (core part : Nat) (os : List MxOp) : Canon (s.abandon core part os) :=
  h.foldl fun _ _ hu => (foldl (hu.setEngine ..) fun _ _ hv => hv.updGroup ..).record _
@[simp] theorem headerFailure (h : Canon s) (core part : Nat) : Canon (s.headerFailure core part) := by
  unfold State.headerFailure
  split
  · exact h
  · extract_lets e
    split
    · exact h
    · exact ((h.foldl fun _ _ hu => hu.updGroup ..).record _).abandon ..
@[simp] theorem abandonShort (h : Canon s) (core part : Nat) : Canon (s.abandonShort core part) := by
  unfold State.abandonShort
  simp [h]

/-! ### The gradient log (R276 to R287) -/
@[simp] theorem logField (h : Canon s) (pa key off v : Nat) : Canon (s.logField pa key off v) := by
  unfold State.logField
  simp [h]
@[simp] theorem setLog (h : Canon s) (pa : Nat) (x : GLog) : Canon (s.setLog pa x) := h
@[simp] theorem acceptGlapp (h : Canon s) (core grp lane : Nat) (o : MxOp) : Canon (s.acceptGlapp core grp lane o) :=
  (((logField (of_at h) ..).setLog ..).setEngine ..).updGroup ..
@[simp] theorem acceptGlfold (h : Canon s) (f : Fold) : Canon (s.acceptGlfold f) := h
@[simp] theorem logSector (h : Canon s) (ctx va : Nat) (bs : List Byte) (poison : Bool) : Canon (s.logSector ctx va bs poison) := by
  unfold State.logSector
  split
  exact (((h.touch ..).devWrite ..).devSetSlot ..).devSetSlot ..
theorem engineWait (h : Canon s) {ctx va len : Nat} {n : Need} (ht : s.engineWait ctx n va len = some t) : Canon t := by
  unfold State.engineWait at ht
  split at ht
  · cases ht
  · cases ht
    split
    · exact h.requestLayer ..
    · exact h
  · cases ht
    exact h
@[simp] theorem glappWrite (h : Canon s) (core part : Nat) : Canon (s.glappWrite core part) := by
  unfold State.glappWrite
  extract_lets e
  split
  · exact h
  · extract_lets d
    refine .ite h ?_
    extract_lets
    split
    · next ht => exact h.engineWait ht
    · exact (setLog (.ite (setEngine (foldl (h.logSector ..) fun _ _ hu => hu.logSector ..) ..) (foldl (h.logSector ..) fun _ _ hu => hu.logSector ..)) ..).retireOp ..
@[simp] theorem foldOne (h : Canon s) (x : GLog) (pa d r wid i : Nat) : Canon (s.foldOne x pa d r wid i) := by
  have written {u : State} (hu : Canon u) (bs : Nat → List Byte) (p : Bool) (va : Nat) : Canon ((List.range 6).foldl (fun u k =>
      (u.touch none x.ctx true (va + 32 * k)).devWrite none (u.pa none x.ctx .store (va + 32 * k)).2 (u.pa none x.ctx .store (va + 32 * k)).1 (bs k) p) u) :=
    hu.foldl fun _ _ hv => (hv.touch ..).devWrite ..
  unfold State.foldOne
  extract_lets va
  split
  split
  split
  exact .ite ((written ((h.touchRange ..).touchRange ..) ..).logField ..) (written ((h.touchRange ..).touchRange ..) ..)
@[simp] theorem foldEnd (h : Canon s) (pa : Nat) (x : GLog) : Canon (s.foldEnd pa x) := by
  unfold State.foldEnd
  split <;> simp [h]
@[simp] theorem foldNext (h : Canon s) (pa : Nat) (x : GLog) (r : GRec) : Canon (s.foldNext pa x r) := by
  unfold State.foldNext
  extract_lets d va wid
  split
  · next ht => exact h.engineWait ht
  · split
    · exact h.setLog ..
    · have hrow := (h.foldOne x pa d va wid x.row).tick
      exact .ite h (.ite (hrow.setLog ..) (foldEnd (.ite (hrow.record _) hrow) ..))
@[simp] theorem recordFold (h : Canon s) (pa : Nat) : Canon (s.recordFold pa) := by
  unfold State.recordFold
  split
  · exact h
  · split
    · exact h
    · refine .ite h ?_
      split
      · next ht => exact h.engineWait ht
      · exact .ite ((h.record _).foldEnd ..) (h.foldNext ..)
@[simp] theorem dropRows (h : Canon s) (core : Nat) (f : Fold) : Canon (s.dropRows core f) := by
  unfold State.dropRows
  simp [h]
@[simp] theorem glfoldDone (h : Canon s) (k : Nat) : Canon (s.glfoldDone k) := by
  unfold State.glfoldDone
  split
  · exact h
  · extract_lets team p _ u r v
    have hu : Canon u := h
    have hv : Canon v := hu.arrive r
    clear_value v
    refine .ite h (.ite hu ?_)
    split
    · exact (hv.dropRows ..).moorPut ..
    · exact (hv.record _).tick

/-! ### Windows and Beacons (R350 to R370) -/
@[simp] theorem updMember (h : Canon s) (team gi : Nat) (f : Group → Group) : Canon (s.updMember team gi f) := by
  unfold State.updMember
  split
  · exact h.updGroup ..
  · split
    · exact h.setTeam ..
    · exact h
@[simp] theorem retireOn (h : Canon s) (r : Option Retire) (kind units : Nat) (rec_ : FRec) : Canon (s.retireOn r kind units rec_) := by
  unfold State.retireOn
  extract_lets u
  have hu : Canon u := by
    cases r with
    | none => exact h
    | some r => exact h.arrive r
  clear_value u
  split
  · exact (hu.touch ..).moorPut ..
  · exact (hu.record _).tick
@[simp] theorem launchFlight (h : Canon s) (f : Flight) : Canon (s.launchFlight f) := h
@[simp] theorem reflectVia (h : Canon s) (core grp ctx : Nat) (e : BitVec 512) (va : Nat) (bs : List Byte) (side : List (Nat × Nat × Byte)) (poison : Bool) (gaps : List Nat) : Canon (s.reflectVia core grp ctx e va bs side poison gaps) := by
  unfold State.reflectVia
  refine h.foldl fun u a hu => ?_
  dsimp only
  split <;> simp [hu]
@[simp] theorem reflect (h : Canon s) (core grp ctx va : Nat) (bs : List Byte) : Canon (s.reflect core grp ctx va bs) := by
  unfold State.reflect
  split <;> simp [h]
@[simp] theorem sendBeacon (h : Canon s) (core grp tgt : Nat) (o : BeaconOp) (va : DWord) : Canon (s.sendBeacon core grp tgt o va) := by
  unfold State.sendBeacon
  simp [h]
@[simp] theorem closeSlot (h : Canon s) (core grp t : Nat) (r : Option Retire) : Canon (s.closeSlot core grp t r).2 := by
  unfold State.closeSlot
  extract_lets g b
  split
  · exact h
  · exact foldl (h.setGroup ..) fun _ _ hu => hu.launchFlight _
@[simp] theorem closeAll (h : Canon s) (core grp : Nat) : Canon (s.closeAll core grp) := by
  unfold State.closeAll
  refine h.foldl fun u a hu => ?_
  simp [hu]
@[simp] theorem performRefl (h : Canon s) (r : Reflect) : Canon (s.performRefl r).1 := by
  have written (xs : List (Nat × List Byte)) (ctx va : Nat) : ∀ acc : State × Bool, Canon acc.1 → Canon (xs.foldl (fun (acc : State × Bool) (a, bs) =>
      let (pa, key) := acc.1.pa none ctx .store a
      let s := (acc.1.touch none ctx true a).devWrite none key pa bs (decide (a - va < r.bad))
      (s, acc.2 || (s.mem.sector pa).poison)) acc).1 := by
    induction xs with
    | nil => exact fun _ hacc => hacc
    | cons x xs ih => exact fun acc hacc => ih _ ((hacc.touch ..).devWrite ..)
  unfold State.performRefl
  extract_lets e ctx va
  split
  · exact h
  · split
    · exact h
    · split
      · exact h
      · split
        · exact h
        · split
          next u bad hu =>
            have hslots := fst (written _ _ _ (s, false) h) hu |>.foldl (xs := r.side) (f := fun s p => (s.touch none ctx true (rxAt e 127 64 + p.1)).devSetSlot
              (s.pa none ctx .store (rxAt e 127 64 + p.1)).1 p.2.1 p.2.2) fun _ _ hv => (hv.touch ..).devSetSlot ..
            exact .ite (hslots.retireOn ..) hslots
@[simp] theorem noteBatch (h : Canon s) (k : Nat) : Canon (s.noteBatch k) := by
  unfold State.noteBatch
  simp [h]
@[simp] theorem dropFlight (h : Canon s) (id : Nat) : Canon (s.dropFlight id) := h
@[simp] theorem markFlight (h : Canon s) (id : Nat) (b : BitVec 16) : Canon (s.markFlight id b) := h
@[simp] theorem addErr (h : Canon s) (f : Flight) (b : BitVec 16) : Canon (s.addErr f b) := by
  unfold State.addErr
  simp [h]
@[simp] theorem performed (h : Canon s) (f : Flight) (b : BitVec 16) : Canon (s.performed f b) := by
  unfold State.performed
  split
  · exact h.markFlight ..
  · exact .ite (h.markFlight ..) (.ite ((h.addErr ..).dropFlight _) (.ite (h.dropFlight _) ((h.dropFlight _).record _)))
@[simp] theorem noteRx (h : Canon s) (f : Flight) (k : Nat) : Canon (s.noteRx f k) := by
  unfold State.noteRx
  simp [h]
@[simp] theorem noteRemote (h : Canon s) (r : Reflect) (b : BitVec 16) : Canon (s.noteRemote r b) := h
@[simp] theorem sendOut (h : Canon s) (kind dst : Nat) (data : List Nat) : Canon (s.sendOut kind dst data) := h
@[simp] theorem reflArrive (h : Canon s) (a : ReflArrival) : Canon (s.reflArrive a) := by
  unfold State.reflArrive
  split
  · split
    · exact h
    · split
      · split
        · split
          next hu =>
            have hu := fst (h.performRefl _) hu
            exact performed (.ite (hu.noteRx ..) hu) ..
        · exact h.performed ..
      · split
        next hu => exact (fst (h.performRefl _) hu).performed ..
      · exact h
  · split
    · split
      next hu => exact (fst (h.performRefl _) hu).performed ..
    · split
      next hu =>
        have hu := fst (h.performRefl _) hu
        exact .ite (hu.sendOut ..) (.ite (hu.noteRemote ..) hu)
@[simp] theorem ackArrive (h : Canon s) (k : Nat) (b : BitVec 16) : Canon (s.ackArrive k b) := by
  unfold State.ackArrive
  split
  · exact h
  · extract_lets back
    have hback (b : BitVec 16) : Canon (back s b) := .ite ((h.dropFlight _).retireOn ..) (((h.dropFlight _).retireOn ..).record _)
    refine .ite h ?_
    split
    · exact h
    · refine .ite (.ite ?_ h) (.ite h (.ite (hback _) (h.performed ..)))
      split
      · exact hback _
      · exact h
    · exact .ite h (h.performed ..)
    · exact h
@[simp] theorem markerArrive (h : Canon s) (a : CloseArrival) : Canon (s.markerArrive a) := by
  unfold State.markerArrive
  split
  · split
    · exact h
    · split
      · exact .ite (h.markFlight ..) ((h.markFlight ..).foldl fun _ _ hu => hu.noteBatch _)
      · exact h
  · exact .ite h (of_at (h.foldl fun _ _ hu => hu.noteBatch _))
@[simp] theorem freeSlot (h : Canon s) (f : Flight) (b : BSlot) : Canon (s.freeSlot f b) := by
  unfold State.freeSlot
  dsimp only
  split <;> simp [h]
@[simp] theorem daymark (h : Canon s) (k tgt : Nat) (bitmap : BitVec 16) : Canon (s.daymark k tgt bitmap) := by
  unfold State.daymark
  split
  · exact h
  · split
    · extract_lets same isClose isReturn mine batch due b bm ids _ u a n x v c w
      have hu : Canon u := h
      have hv : Canon v := .ite hu ((hu.devWrite ..).retireOn ..)
      have hw : Canon w := hv.updMember ..
      clear_value w
      exact .ite h (.ite (hw.freeSlot ..) hw)
    · exact h
@[simp] theorem bcnWrite (h : Canon s) (a n v : Nat) : Canon (s.bcnWrite a n v) := by
  unfold State.bcnWrite
  simp [h]
@[simp] theorem doBcas (h : Canon s) (o : BeaconOp) : Canon (s.doBcas o).1 := by
  unfold State.doBcas
  extract_lets n b
  split
  · exact h
  · split
    split
    · exact h
    · split
      · exact h.bcnWrite ..
      · exact h
@[simp] theorem doBenq (h : Canon s) (o : BeaconOp) : Canon (s.doBenq o).1 := by
  unfold State.doBenq
  extract_lets b
  split
  · exact h
  · split
    extract_lets nslot put a c
    split
    · exact h
    · split
      · exact h
      · split
        · exact h
        · split
          · exact h
          · exact (h.bcnWrite ..).bcnWrite ..
@[simp] theorem doBred (h : Canon s) (o : BeaconOp) : Canon (s.doBred o).1 := by
  unfold State.doBred
  extract_lets w b
  split
  · exact h
  · refine List.foldlRecOn (motive := fun acc : State × BOut => Canon acc.1) _ _ h fun acc hacc e _ => ?_
    dsimp only
    split
    · exact hacc
    · exact hacc.bcnWrite ..
@[simp] theorem doBeacon (h : Canon s) (o : BeaconOp) : Canon (s.doBeacon o).1 := by
  unfold State.doBeacon
  split <;> simp [h]
@[simp] theorem beaconStep (h : Canon s) (k : BKind) (a : BeaconArrival) : Canon (s.beaconStep k a) := by
  unfold State.beaconStep
  split
  · split
    · exact h
    · next f _ =>
      split
      · next o _ =>
        refine .ite h ?_
        split
        next u x hu =>
          have hu : Canon u := by
            split at hu
            · exact fst (h.doBeacon o) hu
            · cases hu; exact h
          exact .ite ((hu.addErr ..).dropFlight _) (of_at ((hu.addErr ..).dropFlight _))
      · exact h
  · refine .ite h ?_
    split
    next u x hu =>
      have hu : Canon u := fst (h.doBeacon _) hu
      exact .ite (of_at hu) (sendOut (of_at hu) ..)

/-! ### Collectives (R371 to R386) -/
@[simp] theorem askFor (h : Canon s) (ctx : Nat) (l : Option Nat) : Canon (s.askFor ctx l) := by
  unfold State.askFor
  split <;> simp [h]
@[simp] theorem collMarks (h : Canon s) (ctx : Nat) (desc : DWord) : Canon (s.collMarks ctx desc) := by
  unfold State.collMarks
  extract_lets d lay u
  have hlay {v : State} (hv : Canon v) (va : Nat) : Canon (lay v va) := (hv.readMark ..).readMark ..
  have hu : Canon u := h.readMark ..
  exact .ite hu ((hlay (hlay hu _) _).readMark ..)
@[simp] theorem vwriteSecs (h : Canon s) (ctx : Nat) (xs : List (Nat × Byte)) : Canon (s.vwriteSecs ctx xs) := by
  refine h.foldl fun u k hu => ?_
  extract_lets here at_
  split
  exact .ite ((hu.touch ..).devWrite ..) ((hu.touch ..).foldl fun _ _ hv => hv.devWrite ..)
@[simp] theorem collStore (h : Canon s) (x : CollInst) : Canon (s.collStore x) := by
  have stored (xs : List (Nat × Byte)) : Canon (s.vwriteSecs x.ctx xs) := h.vwriteSecs ..
  exact .ite ((stored _).foldl fun _ _ hu => hu.devSetSlot ..) (stored _)
@[simp] theorem setInst (h : Canon s) (k : Nat) (x : CollInst) : Canon (s.setInst k x) := h
@[simp] theorem collEvent (h : Canon s) (k n : Nat) : Canon (s.collEvent k n) := by
  unfold State.collEvent
  extract_lets x a u va v ev
  have hu : Canon u := .ite (h.vwrite ..) h
  have hv : Canon v := .ite hu (hu.retireOn ..)
  exact .ite h (hv.setInst ..)
@[simp] theorem collFail (h : Canon s) (k why : Nat) : Canon (s.collFail k why) := by
  unfold State.collFail
  extract_lets x u v w
  have hu : Canon u := .ite (h.vwrite ..) h
  have hv : Canon v := hu.record _
  have hw : Canon w := hv.setInst ..
  exact .ite h (((hw.collEvent ..).collEvent ..).collEvent ..)
theorem collAccess (h : Canon s) (k : Nat) (rs : List (Need × Nat × Nat)) {go : State → State} (hgo : ∀ u, Canon u → Canon (go u)) :
    Canon (s.collAccess k rs go) := by
  unfold State.collAccess
  extract_lets x
  split
  · exact hgo _ (h.foldl fun _ _ hu => hu.touchRange ..)
  · exact h.collFail ..
  · exact h.askFor ..
  · exact h
@[simp] theorem collRaise (h : Canon s) (k n : Nat) : Canon (s.collRaise k n) := h.collAccess _ _ fun _ hu => hu.collEvent ..
@[simp] theorem collTell (h : Canon s) (x : CollInst) (kind : Nat) (data : List Nat) : Canon (s.collTell x kind data) := by
  unfold State.collTell
  refine h.foldl fun u a hu => ?_
  simp [hu]
@[simp] theorem collGrant (h : Canon s) (k : Nat) : Canon (s.collGrant k) :=
  .ite h (foldl (h.setInst ..) fun _ _ hu => hu.sendOut ..)
@[simp] theorem collOwn (h : Canon s) (k : Nat) : Canon (s.collOwn k) :=
  h.foldl fun _ _ hu => .ite hu (hu.collAccess _ _ fun _ hv => .ite (hv.collFail ..) (hv.setInst ..))
@[simp] theorem collSend (h : Canon s) (k : Nat) : Canon (s.collSend k) := by
  refine h.foldl fun u p hu => ?_
  split
  extract_lets x
  split
  · exact hu
  · exact .ite hu (hu.collAccess _ _ fun _ hv => .ite (hv.collFail ..) ((hv.setInst ..).sendOut ..))
@[simp] theorem collEv0 (h : Canon s) (k : Nat) : Canon (s.collEv0 k) := by
  unfold State.collEv0
  simp [h]
@[simp] theorem collEv1 (h : Canon s) (k : Nat) : Canon (s.collEv1 k) :=
  .ite (h.collAccess _ _ fun _ hu => (hu.collStore _).collRaise ..) h
@[simp] theorem collEv2 (h : Canon s) (k : Nat) (before : BitVec 3) : Canon (s.collEv2 k before) := by
  unfold State.collEv2
  extract_lets x u
  have hu : Canon u := .ite (h.collTell ..) h
  exact .ite (hu.collAccess _ _ fun _ hv => (hv.vwrite ..).collRaise ..) hu
@[simp] theorem collRun (h : Canon s) (k : Nat) : Canon (s.collRun k) :=
  (((((h.collGrant _).collOwn _).collSend _).collEv0 _).collEv1 _).collEv2 ..
@[simp] theorem collStart (h : Canon s) (ctx q : Nat) (desc : DWord) (grid : Option Nat) (seed : Nat) (open_ : Bool) :
    Canon (s.collStart ctx q desc grid seed open_).2 := by
  unfold State.collStart
  extract_lets d mesh key n k x _ u v
  have hu : Canon u := h
  have hv : Canon v := ((hu.collMarks ..).setInst ..).collTell ..
  exact .ite (hv.collRun _) (hv.collFail ..)
@[simp] theorem collOpen (h : Canon s) (k : Nat) : Canon (s.collOpen k) := by
  unfold State.collOpen
  dsimp only
  split <;> simp [h]
@[simp] theorem collDigestIn (h : Canon s) (k m digest : Nat) : Canon (s.collDigestIn k m digest) :=
  .ite h (.ite (h.collFail ..) ((h.setInst ..).collRun _))
@[simp] theorem collGranted (h : Canon s) (k peer e0 : Nat) : Canon (s.collGranted k peer e0) := by
  unfold State.collGranted
  dsimp only
  split <;> simp [h]
@[simp] theorem collArrive (h : Canon s) (k : Nat) (c : Contribution) : Canon (s.collArrive k c) := by
  unfold State.collArrive
  extract_lets x
  split
  · exact h
  · exact .ite h (h.collAccess _ _ fun _ hu => (hu.setInst ..).collRun _)
@[simp] theorem collReport (h : Canon s) (k m : Nat) : Canon (s.collReport k m) := by
  unfold State.collReport
  dsimp only
  split <;> simp [h]
@[simp] theorem collPoll (h : Canon s) (k : Nat) : Canon (s.collPoll k) :=
  .ite h (h.collAccess _ _ fun _ hu => (hu.setInst ..).collRun _)
@[simp] theorem collFailure (h : Canon s) (k why : Nat) : Canon (s.collFailure k why) := by
  unfold State.collFailure
  simp [h]

/-! ### Eviction and translation caches (R339, R341) -/
@[simp] theorem dropLines (h : Canon s) (fs : List Nat) : Canon (s.dropLines fs) :=
  of_parts (h.mapCores (f := fun _ k => { k with l1 := k.l1.filter fun p => !fs.contains (32 * p.1 / 65536) }) fun _ _ => rfl)
@[simp] theorem evict (h : Canon s) (ctx layer : Nat) : Canon (s.evict ctx layer) :=
  (setCtx (dropLines (foldl ((h.tmSet ..).settleUses _) fun _ _ hu => hu.tlbDrop ..) _) ..).freeFrames _
@[simp] theorem reapCtx (h : Canon s) (ctx : Nat) : Canon (s.reapCtx ctx) :=
  .ite h (retryWanted (of_at (((h.tlbDrop ..).dropLines _).freeFrames _)))
@[simp] theorem doTlbi (h : Canon s) (va sel : Nat) : Canon (s.doTlbi va sel) :=
  (settleUses (h.foldl fun _ _ hu => .ite hu ((hu.foldl fun _ _ hv => hv.copy1 _).updGroup ..)) _).tlbDrop ..

/-! ### Barriers, fences and their ends -/
@[simp] theorem harm (h : Canon s) (sec : Nat) : Canon (s.harm sec) :=
  .ite ((h.setMem (Mem.wf_setSector h.1 ..)).mapCores fun _ _ => rfl) (h.setScr (Mem.wf_setSector (h.2 _) ..))
@[simp] theorem loadReturn (h : Canon s) (core grp k : Nat) (bad : Bool) : Canon (s.loadReturn core grp k bad) := by
  unfold State.loadReturn
  split
  · exact h
  · exact updGroup (.ite (h.foldl fun _ _ hu => hu.harm _) h) ..
@[simp] theorem storeDone (h : Canon s) (core grp t : Nat) : Canon (s.storeDone core grp t) := by
  unfold State.storeDone
  split <;> simp [h]
@[simp] theorem wakeSleep (h : Canon s) (core grp lane : Nat) : Canon (s.wakeSleep core grp lane) := by
  unfold State.wakeSleep
  split
  · exact h
  · split
    · exact .ite (h.updLane ..) h
    · exact h
@[simp] theorem fenceCopies (h : Canon s) (core grp : Nat) (sp : Spec) : Canon (s.fenceCopies core grp sp) :=
  .ite ((h.foldl fun _ _ hu => hu.copy1 _).updGroup ..) h
@[simp] theorem fenceEnd (h : Canon s) (core grp : Nat) (sp : Spec) : Canon (s.fenceEnd core grp sp) := by
  unfold State.fenceEnd
  split <;> simp [h]
@[simp] theorem fenceDone (h : Canon s) (core grp : Nat) : Canon (s.fenceDone core grp) := by
  unfold State.fenceDone
  split
  · exact h
  · exact .ite h (.ite (h.fenceCopies ..) ((h.fenceCopies ..).fenceEnd ..))
@[simp] theorem rollback (h : Canon s) (core grp : Nat) : Canon (s.rollback core grp) := by
  unfold State.rollback
  split <;> simp [h]
@[simp] theorem mooringHome (h : Canon s) (k : Nat) : Canon (s.mooringHome k) := by
  unfold State.mooringHome
  split <;> simp [h]
@[simp] theorem quiesce (h : Canon s) (core grp : Nat) : Canon (s.quiesce core grp) := by
  unfold State.quiesce
  extract_lets a b c d
  have ha : Canon a := by
    dsimp only [a]
    split
    · exact h.updGroup ..
    · exact h
  have hb : Canon b := ha.foldl fun _ _ hu => .ite (hu.storeDone ..) (hu.loadReturn ..)
  have hc : Canon c := by
    dsimp only [c]
    split
    · exact .ite ((hb.fenceCopies ..).fenceEnd ..) hb
    · exact hb
  have hd : Canon d := hc.foldl fun _ _ hu => hu.arrive _
  refine hd.foldl fun u _ hu => ?_
  split
  · exact hu.jdecHome _
  · exact hu

/-! ### Groups, teams and grids to their ends (R314 to R316, R344) -/
@[simp] theorem chunkFill (h : Canon s) (team map chunk : Nat) : Canon (s.chunkFill team map chunk) := by
  unfold State.chunkFill
  extract_lets x waits any
  split
  · exact h
  · refine .ite h (mapGroups ?_ _)
    split
    · exact h
    · extract_lets u
      have hu : Canon u := h.touchRange ..
      split
      exact (hu.setScr (Mem.wf_foldl _ (fun _ _ hm => Mem.wf_setSlot (Mem.wf_setSlot (Mem.wf_writeKey hm ..) ..) ..) _ (hu.2 _))).setTeam ..
@[simp] theorem wbSector (h : Canon s) (who : Nat × Nat) (core ctx va k : Nat) (data scale : Bool) : Canon (s.wbSector who core ctx va k data scale) := by
  unfold State.wbSector
  split
  · extract_lets u
    have hu : Canon u := h.touch ..
    clear_value u
    split
    next bs p _ =>
      extract_lets a b c d
      have ha : Canon a := .ite (hu.devWrite ..) hu
      have hb : Canon b := .ite ((ha.devSetSlot ..).devSetSlot ..) ha
      have hc : Canon c := .ite (hb.setMem (Mem.wf_setSector hb.1 ..)) hb
      have hd : Canon d := hc.l1Update ..
      clear_value d
      split
      · split
        · exact hd.reflectVia ..
        · exact hd
      · exact hd
  · exact h
@[simp] theorem cleanSector (h : Canon s) (team : Nat) (p : Nat × Nat) : Canon (s.cleanSector team p) := h
@[simp] theorem flushSector (h : Canon s) (who : Nat × Nat) (team : Nat) (p : Nat × Nat) : Canon (s.flushSector who team p) := by
  unfold State.flushSector
  simp [h]
@[simp] theorem flushList (h : Canon s) (who : Nat × Nat) (team : Nat) (ps : List (Nat × Nat)) : Canon (s.flushList who team ps) := by
  induction ps generalizing s with
  | nil => exact h
  | cons p ps ih =>
    unfold State.flushList
    split
    · exact ih (h.flushSector ..)
    · exact h
@[simp] theorem flushMaps (h : Canon s) (who : Nat × Nat) (team : Nat) (maps : List Nat) : Canon (s.flushMaps who team maps) := by
  unfold State.flushMaps
  simp [h]
@[simp] theorem dropSector (h : Canon s) (team : Nat) (p : Nat × Nat) (c : Cause) : Canon (s.dropSector team p c) := by
  unfold State.dropSector
  simp [h]
@[simp] theorem teamFlush (h : Canon s) (team : Nat) : Canon (s.teamFlush team) := by
  unfold State.teamFlush
  split
  · exact h
  · extract_lets all who u x ctx
    have hu : Canon u := h.flushMaps ..
    clear_value u
    split
    · exact (hu.setTeam ..).closeAll ..
    · split
      · exact of_at hu
      · exact hu.dropSector ..
      · exact hu
@[simp] theorem settleEngine (h : Canon s) (core team : Nat) : Canon (s.settleEngine core team) := by
  unfold State.settleEngine
  refine h.foldl fun u a hu => ?_
  simp [hu]
@[simp] theorem settle (h : Canon s) (team : Nat) : Canon (s.settle team) := by
  unfold State.settle
  extract_lets x u v members finish
  have hu : Canon u := h.foldl fun _ _ hw => .ite (hw.setCore rfl) hw
  have hv : Canon v := hu.settleEngine ..
  exact .ite (of_at hv) hv
@[simp] theorem settleAll (h : Canon s) : Canon s.settleAll := by
  unfold State.settleAll
  refine h.foldl fun u a hu => ?_
  simp [hu]
@[simp] theorem teamEnd (h : Canon s) (team : Nat) : Canon (s.teamEnd team) := by
  unfold State.teamEnd
  extract_lets x u v g live w
  have hv : Canon v := (h.setTeam ..).foldl fun _ _ hu => .ite (hu.abandonShort ..) hu
  have hw : Canon w := .ite (hv.setGrid ..) hv
  exact hw.barriers _
@[simp] theorem vacate (h : Canon s) (core grp : Nat) : Canon (s.vacate core grp) :=
  .ite h (of_at (setCore h rfl))
@[simp] theorem groupEnd (h : Canon s) (core grp : Nat) : Canon (s.groupEnd core grp) := by
  unfold State.groupEnd
  extract_lets g _ u v
  have hu : Canon u := (h.setGroup ..).closeAll ..
  have hv : Canon v := .ite (hu.teamEnd _) (hu.barriers _)
  exact .ite h (settle (.ite hv (hv.vacate ..)) _)
@[simp] theorem finishPacket (h : Canon s) (q gid : Nat) : Canon (s.finishPacket q gid) := by
  unfold State.finishPacket
  simp [h]
@[simp] theorem startAttached (h : Canon s) (gid : Nat) : Canon (s.startAttached gid) := by
  unfold State.startAttached
  extract_lets g
  split
  · split
    · exact h
    · split
      · split
        next hu => exact (snd (h.collStart ..) hu).setGrid ..
      · exact h.askFor ..
      · exact ((setInst (of_at (h.collMarks ..)) ..).collFail ..).setGrid ..
  · exact h
@[simp] theorem gridRetire (h : Canon s) (gid : Nat) : Canon (s.gridRetire gid) := by
  unfold State.gridRetire
  extract_lets u open_ v w kids nodes
  have hu : Canon u := h.settleAll
  have hw : Canon w := (hu.foldl fun _ _ hx => hx.nodeClose _).foldl fun _ _ hx => hx.nodeRetire _
  clear_value w
  split
  · exact hu
  · extract_lets attached g opened coll bad signalled unwatched ts _ deleted freed retired finished rejected
    have hattached : Canon attached := .ite hw (hw.startAttached _)
    have hopened : Canon opened := by
      dsimp only [opened]
      split
      · exact hattached.collOpen _
      · exact hattached
    have hsignalled : Canon signalled := .ite ((hopened.vwrite ..).tellHost ..) hopened
    have hunwatched : Canon unwatched := .ite (hsignalled.setWatch ..) hsignalled
    have hfreed : Canon freed := (dropReserved (of_at hunwatched) _).tableFreed
    have hretired : Canon retired := by
      dsimp only [retired]
      split
      · exact hfreed.nodeRetire _
      · exact hfreed
    have hfinished : Canon finished := .ite (hretired.finishPacket ..) hretired
    have hrejected : Canon rejected := .ite (hfinished.rejectAt ..) hfinished
    exact .ite hu (.ite hw (.ite hopened (hrejected.reapCtx _)))
@[simp] theorem preempt (h : Canon s) (k : Nat) : Canon (s.preempt k) :=
  .ite h (h.foldl fun _ _ hu => (hu.foldl fun _ _ hv => hv.quiesce ..).setTeam ..)
@[simp] theorem saveTeam (h : Canon s) (k : Nat) : Canon (s.saveTeam k) := (setCore (of_at h) (by rfl)).setTeam ..
@[simp] theorem contextSave (h : Canon s) (k : Nat) : Canon (s.contextSave k) := .ite h ((h.foldl fun _ _ hu => hu.saveTeam _).askInputs _)
@[simp] theorem putTeam (h : Canon s) (k core : Nat) : Canon (s.putTeam k core).1 := by
  unfold State.putTeam
  extract_lets x
  split
  · exact h
  · exact (h.setScr (wf_overlay (h.2 core) ..)).setTeam ..
@[simp] theorem restoreGang (h : Canon s) (ts cores : List Nat) : Canon (s.restoreGang ts cores) := by
  have restored (xs : List (Nat × Nat)) : ∀ acc : State × Moves, Canon acc.1 →
      Canon (xs.foldl (fun (acc : State × Moves) p => let y := acc.1.putTeam p.1 p.2; (y.1, acc.2 ++ y.2)) acc).1 := by
    induction xs with
    | nil => exact fun _ hacc => hacc
    | cons x xs ih => exact fun acc hacc => ih _ (hacc.putTeam ..)
  unfold State.restoreGang
  split
  next u r hu =>
    exact (fst (restored _ (s, []) h) hu).foldl fun _ _ hv => (setCore (hv.foldl fun _ _ hw => hw.updGroup ..) (by rfl)).setCtx ..
theorem tryRestore (h : Canon s) {die k : Nat} (ht : s.tryRestore die k = some t) : Canon t := by
  unfold State.tryRestore at ht
  extract_lets ts gid at ht
  split at ht
  · cases ht
  · split at ht
    · obtain ⟨_, -, he⟩ := Option.map_eq_some_iff.mp ht
      exact he ▸ h.restoreGang ..
    · obtain ⟨_, -, he⟩ := Option.map_eq_some_iff.mp ht
      exact he ▸ h.restoreGang ..
theorem tryUnit (h : Canon s) {die : Nat} {u : DUnit} (ht : s.tryUnit die u = some t) : Canon t := by
  cases u with
  | gang k => exact h.tryRestore ht
  | grid gid =>
    obtain ⟨v, hv, he⟩ := Option.map_eq_some_iff.mp ht
    refine he ▸ startAttached ?_ _
    split at hv
    · exact h.placeAll hv
    · obtain ⟨_, -, hp⟩ := Option.map_eq_some_iff.mp hv
      exact hp ▸ h.placeNext ..
@[simp] theorem clearReserved (h : Canon s) (die : Nat) : Canon (s.clearReserved die) := by
  unfold State.clearReserved
  split <;> simp +contextual [h]
@[simp] theorem countHeads (h : Canon s) (die : Nat) : Canon (s.countHeads die) := by
  unfold State.countHeads
  refine h.foldl fun u a hu => ?_
  dsimp only
  split <;> simp [hu]
@[simp] theorem makeRoom (h : Canon s) (die : Nat) (us : List DUnit) : Canon (s.makeRoom die us) := by
  unfold State.makeRoom
  split <;> simp +contextual [h]
@[simp] theorem attempt (h : Canon s) (die : Nat) : Canon (s.attempt die) := by
  unfold State.attempt
  extract_lets a b c d us
  have hb : Canon b := h.settleAll.foldl fun _ _ hu => hu.advance ..
  have hd : Canon d := (hb.clearReserved _).foldl fun _ _ hu => hu.startAttached _
  clear_value d
  split
  · next hfound =>
    obtain ⟨y, -, htry⟩ := List.exists_of_findSome?_eq_some hfound
    obtain ⟨t, ht, he⟩ := Option.map_eq_some_iff.mp htry
    cases he
    exact makeRoom (of_at ((hd.tryUnit ht).dropReserved _)) ..
  · exact (hd.countHeads _).makeRoom ..
@[simp] theorem reserveFor (h : Canon s) (die level : Nat) : Canon (s.reserveFor die level) := by
  unfold State.reserveFor
  split
  · exact h
  · extract_lets gid g a cost cands
    split
    · exact h
    · split
      · exact h
      · exact clearReserved (of_at h) _
@[simp] theorem thermal (h : Canon s) (core : Nat) : Canon (s.thermal core) := by
  unfold State.thermal
  extract_lets ms here oldest
  clear_value oldest
  split
  · exact h
  · exact .ite h (((h.preempt _).foldl fun _ _ hu => hu.setTeam ..).foldl fun _ _ hu => hu.setCore rfl)

/-! ### Packets (R288 to R305) -/
@[simp] theorem pktMarks (h : Canon s) (q : Nat) : Canon (s.pktMarks q) := by
  unfold State.pktMarks
  extract_lets ctx ws u v
  have hu : Canon u := h.readMark ..
  clear_value u
  split
  · exact hu
  · split
    · exact .ite ((hu.recordMarks ..).collMarks ..) (hu.recordMarks ..)
    · exact hu.collMarks ..
    · exact hu
@[simp] theorem startPkt (h : Canon s) (q : Nat) (ws : List DWord) : Canon (s.startPkt q ws) := h
@[simp] theorem endPkt (h : Canon s) (q : Nat) : Canon (s.endPkt q) := h
@[simp] theorem updPkt (h : Canon s) (q : Nat) (f : PktSt → PktSt) : Canon (s.updPkt q f) := h
@[simp] theorem waitRead (h : Canon s) (q : Nat) : Canon (s.waitRead q) := by
  unfold State.waitRead
  extract_lets x ctx a
  split
  · exact h.rejectQueue ..
  · split
    · exact h.requestLayer ..
    · exact h
  · exact h
  · exact .ite ((h.touch ..).endPkt _) (h.touch ..)
@[simp] theorem acceptLaunch (h : Canon s) (q : Nat) (ws : List DWord) : Canon (s.acceptLaunch q ws) := by
  unfold State.acceptLaunch
  extract_lets x ctx r g g' u
  have hu : Canon u := h.startPkt ..
  clear_value u
  split
  next hv =>
    have hv := snd (hu.registerGrid _) hv
    exact .ite (hv.endPkt _) (hv.updPkt ..)
@[simp] theorem performPkt (h : Canon s) (q : Nat) (ws : List DWord) : Canon (s.performPkt q ws) := by
  have started := h.startPkt q ws
  unfold State.performPkt
  extract_lets x ctx u a v act ls snap
  split
  · exact started.endPkt _
  · exact h.acceptLaunch ..
  · split
    next hu => exact (snd (started.collStart ..) hu).updPkt ..
  · exact started.waitRead _
  · have hu : Canon u := started
    clear_value u
    split
    exact (((hu.touch ..).devWrite ..).tellHost ..).endPkt _
  · exact .ite ((started.updPkt ..).foldl fun _ _ hu => hu.requestLayer ..) (.ite (started.updPkt ..)
      (((started.updPkt ..).foldl fun _ _ hu => hu.tmPinBy ..).endPkt _))
  · exact started.updPkt ..
@[simp] theorem withdrawRun (h : Canon s) (q : Nat) : Canon (s.withdrawRun q) := by
  unfold State.withdrawRun
  extract_lets x ctx u v
  have hu : Canon u := h.foldl fun _ _ hw => .ite (hw.evict ..) hw
  have hv : Canon v := hu.retryWanted
  exact .ite (hv.endPkt _) hv
@[simp] theorem resumePkt (h : Canon s) (q : Nat) : Canon (s.resumePkt q) := by
  unfold State.resumePkt
  extract_lets x ws
  split
  · split
    · exact h
    · refine .ite h (.ite (rejectAt (endPkt (of_at h) _) ..) (endPkt (of_at h) _))
  · exact h.waitRead _
  · exact .ite (.ite (h.endPkt _) (h.foldl fun _ _ hu => .ite (hu.requestLayer ..) hu)) (h.withdrawRun _)
  · exact .ite (h.endPkt _) h
  · exact h
@[simp] theorem serve (h : Canon s) (q type : Nat) (act : Option Nat) : Canon (s.serve q type act) := by
  have marked := h.pktMarks q
  unfold State.serve
  extract_lets x
  refine .ite h (.ite (.ite (h.resumePkt _) h) (.ite h ?_))
  extract_lets
  split
  · exact .ite (marked.rejectQueue ..) h
  · refine .ite h ?_
    split
    · exact (marked.updPkt ..).requestLayer ..
    · exact marked.updPkt ..
  · exact .ite (marked.updPkt ..) h
  · exact .ite (.ite (.ite ((marked.performPkt ..).resumePkt _) (marked.performPkt ..)) (marked.performPkt ..)) h
@[simp] theorem reread (h : Canon s) (q : Nat) : Canon (s.reread q) := by
  unfold State.reread
  simp [h]
@[simp] theorem tableTimeout (h : Canon s) (q : Nat) : Canon (s.tableTimeout q) := by
  unfold State.tableTimeout
  dsimp only
  split <;> simp [h]
@[simp] theorem ring (h : Canon s) (q : Nat) (wptr : BitVec 32) : Canon (s.ring q wptr) := by
  unfold State.ring
  simp [h]

/-! ### Instruction fetch -/
@[simp] theorem icFill (h : Canon s) (core ctx va : Nat) : Canon (s.icFill core ctx va) := by
  unfold State.icFill
  simp [h]

/-! ### Fault service (R323 to R330, R340 to R346) -/
@[simp] theorem updLanes (h : Canon s) (team gi : Nat) (ls : List Nat) (f : Lane → Lane) : Canon (s.updLanes team gi ls f) := by
  unfold State.updLanes
  simp [h]
@[simp] theorem trapMember (h : Canon s) (team gi lane : Nat) (c : Cause) (va : DWord) : Canon (s.trapMember team gi lane c va) := by
  unfold State.trapMember
  split
  · exact h.takeTrap ..
  · exact .ite h (.ite ((h.record _).abortGrid _) (h.updLanes ..))
@[simp] theorem unpark (h : Canon s) (p : ParkRec) : Canon (s.unpark p) := by
  unfold State.unpark
  split <;> simp [h]
@[simp] theorem parkLayer (h : Canon s) (p : ParkRec) (layer : Nat) : Canon (s.parkLayer p layer) := by
  unfold State.parkLayer
  simp [h]
@[simp] theorem deliverPark (h : Canon s) (p : ParkRec) : Canon (s.deliverPark p) := by
  unfold State.deliverPark
  split <;> simp +contextual [h]
@[simp] theorem serviceLayer (h : Canon s) (p : ParkRec) : Canon (s.serviceLayer p) := by
  unfold State.serviceLayer
  split
  · exact h
  · exact .ite ((h.requestLayer ..).unpark _) ((h.requestLayer ..).parkLayer ..)
@[simp] theorem dropPark (h : Canon s) (k : Nat) : Canon (s.dropPark k) := h
@[simp] theorem deliverRecord (h : Canon s) (ctx : Nat) : Canon (s.deliverRecord ctx) := by
  unfold State.deliverRecord
  dsimp only
  split
  · exact h
  · split
    · exact .ite h (keepLog (h.setCtx ..) _)
    · split
      · exact h
      · exact .ite h (((h.setCtx ..).vwrite ..).nodeEmit ..)
@[simp] theorem answer (h : Canon s) (k status : Nat) : Canon (s.answer k status) := by
  unfold State.answer
  split <;> simp [h]
@[simp] theorem serviced (h : Canon s) (ctx : Nat) (f : FSlot) (park : Nat) : Canon (s.serviced ctx f park) := by
  unfold State.serviced
  exact (ite ((h.setCtx ..).vwrite ..) (h.setCtx ..)).dropPark _
theorem onRecord (h : Canon s) (k : Nat) {f : Nat → FSlot → ParkRec → Nat → Except Nat State}
    (hf : ∀ ctx x p n t, f ctx x p n = .ok t → Canon t) : Canon (s.onRecord k f) := by
  unfold State.onRecord
  split
  · exact h
  · dsimp only
    split
    · exact h.answer ..
    · refine .ite (h.answer ..) (.ite (h.answer ..) ?_)
      split
      · exact h.answer ..
      · refine .ite (h.answer ..) ?_
        split
        · exact h.answer ..
        next hu => exact ((hf _ _ _ _ _ hu).serviced ..).answer ..
theorem svcRetry (h : Canon s) (ctx : Nat) (x : FSlot) (p : ParkRec) (n : Nat) (t : State) (ht : s.svcRetry ctx x p n = .ok t) : Canon t := by
  cases ht
  exact h.unpark _
theorem svcRemap (h : Canon s) (ctx : Nat) (x : FSlot) (p : ParkRec) (n : Nat) (t : State) (ht : s.svcRemap ctx x p n = .ok t) : Canon t := by
  unfold State.svcRemap at ht
  dsimp only at ht
  split at ht
  · split at ht
    · cases ht
      exact (h.install ..).unpark _
    · cases ht
  · cases ht
theorem svcSetrap (h : Canon s) (ctx : Nat) (x : FSlot) (p : ParkRec) (n : Nat) (t : State) (ht : s.svcSetrap ctx x p n = .ok t) : Canon t := by
  unfold State.svcSetrap at ht
  split at ht
  · cases ht
    exact (h.setLeaf ..).unpark _
  · cases ht
theorem svcRestream (h : Canon s) (ctx : Nat) (x : FSlot) (p : ParkRec) (n : Nat) (t : State) (ht : s.svcRestream ctx x p n = .ok t) : Canon t := by
  unfold State.svcRestream at ht
  split at ht
  · cases ht
  · cases ht
    exact h.serviceLayer _
theorem svcDeliver (h : Canon s) (ctx : Nat) (x : FSlot) (p : ParkRec) (n : Nat) (t : State) (ht : s.svcDeliver ctx x p n = .ok t) : Canon t := by
  cases ht
  exact h.deliverPark _
theorem svcAbort (h : Canon s) (ctx : Nat) (x : FSlot) (p : ParkRec) (n : Nat) (t : State) (ht : s.svcAbort ctx x p n = .ok t) : Canon t := by
  cases ht
  exact h.abortGrid _
theorem takeVault (h : Canon s) {core f : Nat} (ht : s.takeVault core = some (f, t)) : Canon t := by
  unfold State.takeVault at ht
  dsimp only at ht
  split at ht
  · cases ht
  · obtain ⟨g, -, hg⟩ := Option.map_eq_some_iff.mp ht
    cases hg
    exact h
theorem getFrame (h : Canon s) {ctx n f : Nat} {big : Bool} (ht : s.getFrame ctx big n = some (f, t)) : Canon t := by
  induction n generalizing s with
  | zero => exact h.takeFrame ht
  | succ n ih =>
    unfold State.getFrame at ht
    split at ht
    next hr =>
      cases ht
      exact h.takeFrame hr
    · split at ht
      · exact ih (h.evict ..) ht
      · cases ht
@[simp] theorem moveSectors (h : Canon s) (src srcKey dst dstKey n : Nat) : Canon (s.moveSectors src srcKey dst dstKey n) :=
  h.foldl fun _ _ hu => ((hu.devWrite ..).devSetSlot ..).devSetSlot ..
@[simp] theorem fetchPeer (h : Canon s) (leaf dst dstKey : Nat) : Canon (s.fetchPeer leaf dst dstKey) := by
  unfold State.fetchPeer
  generalize List.range 2048 = ks
  exact h.foldl fun _ _ hu => ((hu.devWrite ..).devSetSlot ..).devSetSlot ..
theorem migratePage (h : Canon s) {ctx core va kind : Nat} (ht : s.migratePage ctx core va kind = .ok t) : Canon t := by
  unfold State.migratePage at ht
  split at ht
  next leaf big _ _ =>
    extract_lets apt base at ht
    split at ht
    · cases ht
    · split at ht
      · cases ht
      · split at ht
        · cases ht
        next f u hu =>
          have hu : Canon u := by
            split at hu
            · exact h.takeVault hu
            · exact h.getFrame hu
          extract_lets key srcKey dstKey local_ v frame new w c owned x at ht
          have hv : Canon v := .ite (hu.moveSectors ..) (hu.fetchPeer ..)
          clear_value v
          cases ht
          exact .ite ((((hv.setLeaf ..).setCtx ..).dropLines _).freeFrames _).retryWanted ((hv.setLeaf ..).setCtx ..)
  · cases ht
theorem svcMigrate (h : Canon s) (ctx : Nat) (x : FSlot) (p : ParkRec) (n : Nat) (t : State) (ht : s.svcMigrate ctx x p n = .ok t) : Canon t := by
  unfold State.svcMigrate at ht
  split at ht
  · cases ht
  · split at ht
    next hu =>
      cases ht
      exact (h.migratePage hu).unpark _
    · cases ht
@[simp] theorem service (h : Canon s) (k : Nat) (how : Service) : Canon (s.service k how) := by
  unfold State.service
  split
  · exact h
  · refine .ite h (.ite (h.dropPark _) ?_)
    split
    · exact h
    · exact (h.unpark _).dropPark _
    · split
      · exact ((h.setLeaf ..).unpark _).dropPark _
      · exact h
    · split
      next hu => exact ((h.migratePage hu).unpark _).dropPark _
      · exact h
    · exact (h.deliverPark _).dropPark _
    · exact (h.abortGrid _).dropPark _
    · exact .ite ((h.serviceLayer _).dropPark _) h
    · exact .ite (((h.install ..).unpark _).dropPark _) h
@[simp] theorem svcReturn (h : Canon s) (k : Nat) : Canon (s.svcReturn k) := by
  unfold State.svcReturn
  split <;> simp [h]
@[simp] theorem settleLayers (h : Canon s) (ctx : Nat) : Canon (s.settleLayers ctx) := by
  unfold State.settleLayers
  refine h.foldl fun u a hu => ?_
  dsimp only
  split <;> simp [hu]
@[simp] theorem landLayer (h : Canon s) (ctx layer : Nat) : Canon (s.landLayer ctx layer) := by
  unfold State.landLayer
  simp [h]
@[simp] theorem layerArrive (h : Canon s) (ctx layer : Nat) (xs : List LayerBytes) : Canon (s.layerArrive ctx layer xs) := by
  have came := (h.layerBytes ctx layer xs).setCtx ctx (((s.layerBytes ctx layer xs).ctx ctx).noteCame layer xs)
  exact .ite h (.ite (came.landLayer ..) came)
@[simp] theorem fetchFailure (h : Canon s) (ctx layer : Nat) (abandon : Bool) : Canon (s.fetchFailure ctx layer abandon) :=
  .ite h (.ite (h.settleLayers _) ((wakeLayer (foldl (freeFrames (setCtx (h.tmSet ..) ..) _) fun _ _ hu => hu.abortGrid _) ..).retryWanted))
@[simp] theorem layerEvict (h : Canon s) (ctx layer : Nat) : Canon (s.layerEvict ctx layer) := by
  unfold State.layerEvict
  dsimp only
  split <;> simp [h]
@[simp] theorem suspendGang (h : Canon s) (t : Nat) : Canon (s.suspendGang t) := by
  have saved : Canon (((s.preempt t).gangOf t).foldl (fun s m => if (s.team m).st == .halted then s.saveTeam m else s) (s.preempt t)) :=
    (h.preempt _).foldl fun _ _ hu => .ite (hu.saveTeam _) hu
  exact .ite (saved.askInputs _) saved
@[simp] theorem scarTeam (h : Canon s) (t : Nat) : Canon (s.scarTeam t) := by
  unfold State.scarTeam
  dsimp only
  split <;> simp [h]
@[simp] theorem coreFail (h : Canon s) (core : Nat) (lost : List Nat) : Canon (s.coreFail core lost) := by
  refine .ite h (setCore (foldl (of_at (h.setCore (c := core) (x := { s.core core with failed := true }) rfl)) fun u t hu => ?_) rfl)
  exact .ite ((hu.record _).abortGrid _) (((hu.record _).suspendGang _).scarTeam _)
@[simp] theorem vaultFail (h : Canon s) (core : Nat) : Canon (s.vaultFail core) := by
  unfold State.vaultFail
  extract_lets u ts v mine w x y
  refine .ite h (foldl ?_ fun _ _ hu => hu.foldl fun _ _ hw => (hw.setLeaf ..).record _)
  have hv : Canon v := (h.coreFail ..).foldl fun _ _ hu => hu.suspendGang _
  have hx : Canon x := foldl (of_at hv) fun _ _ hu => hu.foldl fun _ _ hw => hw.setMem (Mem.wf_setSector hw.1 ..)
  exact hx.setCore rfl
@[simp] theorem takeover (h : Canon s) : Canon s.takeover :=
  .ite h (foldl (of_at h) fun _ _ hu => .ite hu (.ite (hu.updPkt ..) (.ite (hu.updPkt ..) hu)))
@[simp] theorem spareRow (h : Canon s) (vault row : Nat) : Canon (s.spareRow vault row) := by
  unfold State.spareRow
  simp [h]
@[simp] theorem spareChannel (h : Canon s) (stack ch : Nat) : Canon (s.spareChannel stack ch) := by
  unfold State.spareChannel
  simp [h]
@[simp] theorem loseLane (h : Canon s) (link lane : Nat) : Canon (s.loseLane link lane) := by
  unfold State.loseLane
  simp [h]
@[simp] theorem losePort (h : Canon s) (port : Nat) : Canon (s.losePort port) := by
  unfold State.losePort
  simp [h]

/-! ### Failures, the host and the mailbox (R333 to R406) -/
theorem mailbox (h : Canon s) (code ctx : Nat) {run : State → State × Nat} (hrun : Canon (run s).1) : Canon (s.mailbox code ctx run) := by
  unfold State.mailbox
  dsimp only
  split
  · exact h
  · split
    · exact of_at h
    · exact of_at hrun
@[simp] theorem mbAnswer (h : Canon s) : Canon s.mbAnswer := by
  unfold State.mbAnswer
  simp [h]
@[simp] theorem mbRead (h : Canon s) : Canon s.mbRead := by
  unfold State.mbRead
  simp [h]
@[simp] theorem unknownCommand (h : Canon s) (ctx code : Nat) : Canon (s.unknownCommand ctx code) := .ite h (h.mailbox _ _ h)
@[simp] theorem bar0Read (h : Canon s) (o n : Nat) : Canon (s.bar0Read o n) := by
  unfold State.bar0Read
  simp [h]
@[simp] theorem bar0Write (h : Canon s) (_off : Nat) (_v : DWord) : Canon (s.bar0Write _off _v) := h
@[simp] theorem bar0Store (h : Canon s) (o : Nat) (bs : List Byte) : Canon (s.bar0Store o bs) :=
  .ite (h.ring ..) (.ite h (.ite (.ite (h.unknownCommand ..) h) (h.bar0Write ..)))
theorem hostAccess (h : Canon s) {hpa : Nat} {a : HostAccess} (ht : s.hostAccess hpa a = some t) : Canon t := by
  unfold State.hostAccess at ht
  split at ht
  · cases ht
    exact h
  · split at ht
    · split at ht <;> cases ht
      · exact h
      · exact h.foldl fun _ _ hu => hu.devWrite ..
    · split at ht
      · obtain ⟨o, -, rfl⟩ := Option.map_eq_some_iff.mp ht
        cases a with
        | read n => exact h.bar0Read ..
        | write bs => exact h.bar0Store ..
      · split at ht <;> cases ht
        · exact h
        · exact h.foldl fun _ _ hu => hu.devSetSlot ..
@[simp] theorem scaleWrite (h : Canon s) (hpa : Nat) (v : Byte) : Canon (s.scaleWrite hpa v) := by
  refine .ite h ?_
  split
  · exact h.devSetSlot ..
  · exact h
@[simp] theorem setDecoder (h : Canon s) (which : BitVec 2) (base : DWord) : Canon (s.setDecoder which base) := by
  unfold State.setDecoder
  simp [h]
@[simp] theorem ctxCreate (h : Canon s) (ctx : Nat) (x : CtxParams) : Canon (s.ctxCreate ctx x).1 := by
  unfold State.ctxCreate
  split
  · exact h
  · split
    · exact h
    · exact ((h.setCtx ..).setCtx ..).foldl fun _ _ hu => hu.setTopmark ..
@[simp] theorem ctxSet (h : Canon s) (ctx : Nat) (x : CtxChange) : Canon (s.ctxSet ctx x).1 := by
  unfold State.ctxSet
  dsimp only
  split
  · exact h
  · split
    · exact h
    · exact h.setCtx ..
@[simp] theorem ctxDestroy (h : Canon s) (ctx : Nat) : Canon (s.ctxDestroy ctx).1 := by
  unfold State.ctxDestroy
  split
  · exact h
  · exact ((h.foldl fun _ _ hu => hu.abortGrid _).setCtx ..).reapCtx _
@[simp] theorem mapLeaf (h : Canon s) (ctx : Nat) (va leaf : DWord) : Canon (s.mapLeaf ctx va leaf).1 := by
  unfold State.mapLeaf
  dsimp only
  split
  · exact h
  · split
    · exact h
    · split
      · exact h.install ..
      · exact of_at ((h.install ..).setCtx ..)
@[simp] theorem unmapLeaf (h : Canon s) (ctx : Nat) (va : DWord) : Canon (s.unmapLeaf ctx va).1 := by
  unfold State.unmapLeaf
  split <;> simp [h]
@[simp] theorem xlateCmd (h : Canon s) (ctx : Nat) (va : DWord) : Canon (s.xlateCmd ctx va).1 := by
  unfold State.xlateCmd
  split <;> simp [h]
@[simp] theorem keyLoad (h : Canon s) (k pair : Nat) : Canon (s.keyLoad k pair).1 := by
  unfold State.keyLoad
  split <;> simp [h]
@[simp] theorem keyClear (h : Canon s) (k : Nat) : Canon (s.keyClear k).1 := by
  unfold State.keyClear
  split <;> simp [h]
@[simp] theorem winSet (h : Canon s) (x : WinEntry) : Canon (s.winSet x).1 := by
  unfold State.winSet
  dsimp only
  split
  · split
    · exact h
    · split <;> exact h
  · split <;> exact h
  · split <;> exact h
  · split
    · exact h
    · split <;> exact h
@[simp] theorem queueSet (h : Canon s) (q : Nat) (x : QueueFields) : Canon (s.queueSet q x).1 := by
  unfold State.queueSet
  split
  · exact h
  · split
    · exact h
    · exact h.setQueue ..
@[simp] theorem queueClear (h : Canon s) (q : Nat) : Canon (s.queueClear q).1 := by
  unfold State.queueClear
  split
  · exact h
  · split
    · exact h
    · exact h.setQueue ..
@[simp] theorem layerDone (h : Canon s) (ctx layer : Nat) : Canon (s.layerDone ctx layer).1 := by
  unfold State.layerDone
  split <;> simp [h]
@[simp] theorem splitChange (h : Canon s) (core vm : Nat) : Canon (s.splitChange core vm) :=
  .ite h (setCore (of_at (h.zeroMem ..)) rfl)
@[simp] theorem powerWindow (h : Canon s) (watts : Nat) : Canon (s.powerWindow watts) := h
@[simp] theorem hotCore (h : Canon s) (core : Nat) : Canon (s.hotCore core) := by
  unfold State.hotCore
  simp [h]
@[simp] theorem trip (h : Canon s) : Canon s.trip := of_at (h.mapCores (f := fun _ k => { k with groups := [], engines := [] }) fun _ _ => rfl)
@[simp] theorem plimWrite (h : Canon s) (watts : Nat) : Canon (s.plimWrite watts) := by
  unfold State.plimWrite
  simp [h]
@[simp] theorem mgmtRead (h : Canon s) (what : MgmtItem) : Canon (s.mgmtRead what) := by
  unfold State.mgmtRead
  simp [h]

/-! ### Loads, stores and atomics of lanes -/
@[simp] theorem newTxn (h : Canon s) (core grp : Nat) (store : Bool) (fills : List Fill1) (secs : List Nat) (late : Option Late) : Canon (s.newTxn core grp store fills secs late).2 := by
  unfold State.newTxn
  simp [h]
@[simp] theorem markLoc (h : Canon s) (core grp : Nat) (write : Bool) (l : Loc) : Canon (s.markLoc core grp write l) := by
  unfold State.markLoc
  split
  · dsimp only
    split
    · exact .ite ((h.touch ..).l1DropAll _) (h.touch ..)
    · exact h.touch ..
  · exact h
@[simp] theorem noteRead (h : Canon s) (core grp : Nat) (secs : List Nat) : Canon (s.noteRead core grp secs) := by
  unfold State.noteRead
  simp [h]
@[simp] theorem copiesNow (h : Canon s) (core grp l : Nat) : Canon (s.copiesNow core grp l) :=
  (h.foldl fun _ _ hu => .ite (hu.copy1 _) hu).updGroup ..
@[simp] theorem syncLane (h : Canon s) (core grp l : Nat) : Canon (s.syncLane core grp l) := ((h.updLane ..).updGroup ..).storesDone ..
@[simp] theorem afterLoads (h : Canon s) (core grp lane : Nat) (loc : Loc) (every : Bool) : Canon (s.afterLoads core grp lane loc every) := by
  unfold State.afterLoads
  simp [h]
@[simp] theorem sendStore (h : Canon s) (core grp lane t : Nat) (loc : Loc) (old : List Byte × Bool) : Canon (s.sendStore core grp lane t loc old) := by
  unfold State.sendStore
  cases loc <;> exact .ite h h
@[simp] theorem loadLate (h : Canon s) (core grp t : Nat) : Canon (s.loadLate core grp t) := by
  unfold State.loadLate
  split <;> simp [h]
/-- Loads from device memory fill the L1 cache. -/
theorem filled (h : Canon s) (core : Nat) {cached : Bool} (loc : Loc) (ks : Nat → List Nat) :
    Canon (match loc with
      | .dev pa key _ _ => if cached then s.l1Fill core key (ks pa) else s
      | .scr .. => s) := by
  cases loc with
  | dev => exact .ite (h.l1Fill ..) h
  | scr => exact h
/-- Stores to device memory update the L1 cache. -/
theorem updated (h : Canon s) (core : Nat) (loc : Loc) (ks : Nat → List Nat) :
    Canon (match loc with
      | .dev pa key _ _ => s.l1Update core key (ks pa)
      | .scr .. => s) := by
  cases loc with
  | dev => exact h.l1Update ..
  | scr => exact h
@[simp] theorem doLoad (h : Canon s) (core grp lane : Nat) (d : Dst) (size : Nat) (sign : Bool) (loc : Loc) (ea : DWord) (acq nc : Bool) :
    Canon (s.doLoad core grp lane d size sign loc ea acq nc).2 := by
  unfold State.doLoad
  extract_lets cached u
  have hu : Canon u := h.markLoc ..
  clear_value u
  split
  extract_lets fill
  split
  next hv =>
  extract_lets w x y
  have hw : Canon w := (snd (hu.newTxn _ _ _ _ _ _) hv).updLane ..
  have hx : Canon x := filled hw core loc fun pa => sectorsOf pa size
  exact .ite ((hx.noteRead ..).l1DropAll _) (hx.noteRead ..)
@[simp] theorem doObject (h : Canon s) (core grp : Nat) (loc : Loc) (n : Nat) (write : Bool) : Canon (s.doObject core grp loc n write) :=
  filled (h.markLoc ..) core loc fun pa => sectorsOf pa n
@[simp] theorem doLoadBlk (h : Canon s) (core grp q : Nat) (lanes : List Nat) (d : Dst) (f : EFmt) (locs : List Loc) (ea : DWord) :
    Canon (s.doLoadBlk core grp q lanes d f locs ea).2 := by
  unfold State.doLoadBlk
  extract_lets cached u fills
  have hu : Canon u := h.foldl fun _ _ hw => hw.markLoc ..
  split
  next hv =>
  extract_lets w x
  have hw : Canon w := (snd (hu.newTxn _ _ _ _ _ _) hv).foldl fun _ _ hw => hw.updLane ..
  have hx : Canon x := hw.foldl fun _ l hy => hy.filled core l fun pa => [pa / 32]
  exact hx.noteRead ..
@[simp] theorem reflectBlk (h : Canon s) (core grp q : Nat) (f : EFmt) (locs : List Loc) (xs : List (Nat × Word)) (slots : List ((Nat × Nat) × Byte)) :
    Canon (s.reflectBlk core grp q f locs xs slots) := by
  unfold State.reflectBlk
  split
  · split
    · exact h.reflectVia ..
    · exact h
  · exact h
@[simp] theorem doStoreBlk (h : Canon s) (core grp q : Nat) (xs : List (Nat × Word)) (f : EFmt) (locs : List Loc) (sh : Shadow) :
    Canon (s.doStoreBlk core grp q xs f locs sh) := by
  have marked : Canon (locs.foldl (fun s l => s.markLoc core grp true l) s) := h.foldl fun _ _ hu => hu.markLoc ..
  have written (u : State) (hu : Canon u) : Canon (xs.foldl (fun s (l, code) =>
      ((blkBytesOf f code.toNat).zipIdx).foldl (fun s (b, i) => s.locWrite (some (core, grp)) (blkLoc locs ((blkSpan f l).1 + i)) [b] false) s) u) :=
    hu.foldl fun _ _ hv => hv.foldl fun _ _ hw => hw.locWrite ..
  have slotted (u : State) (hu : Canon u) (slots : List ((Nat × Nat) × Byte)) : Canon (slots.foldl (fun s (p, v) => s.locSetSlot (locs.getD p.1 (.scr 0 0)) p.2 v) u) :=
    hu.foldl fun _ _ hv => hv.locSetSlot ..
  unfold State.doStoreBlk
  refine foldl (newTxn (reflectBlk (foldl (foldl (slotted _ (foldl (written _ marked) ?_) _) ?_) ?_) ..) ..) fun _ _ hu => hu.foldl fun _ _ hv => hv.sendStore ..
  · exact fun _ _ hu => (hu.rewait _).rewait _
  · exact fun _ l hu => hu.updated core l fun pa => [pa / 32]
  · exact fun _ _ hu => (hu.afterLoads ..).afterLoads ..
@[simp] theorem doStore (h : Canon s) (core grp lane : Nat) (loc : Loc) (bs : List Byte) (rel : Bool) : Canon (s.doStore core grp lane loc bs rel) := by
  unfold State.doStore
  extract_lets u v old w x
  have hu : Canon u := .ite (h.copiesNow ..) h
  have hw : Canon w := (((hu.markLoc ..).locWrite ..).rewait _).afterLoads ..
  have hx : Canon x := by
    clear_value w
    dsimp only [x]
    split
    · exact .ite ((ite (hw.l1DropOthers ..) hw).l1Update .. |>.reflect ..) ((ite (hw.l1DropOthers ..) hw).l1Update ..)
    · exact hw
  exact .ite (hx.newTxn ..) ((hx.newTxn ..).sendStore ..)
@[simp] theorem clearStores (h : Canon s) (core : Nat) (xs : List (Loc × Nat)) : Canon (s.clearStores core xs) := by
  unfold State.clearStores
  refine foldl (foldl (ite h (h.setMem (Mem.wf_clearCovered h.1 _))) ?_) ?_
  · exact fun _ p hu => hu.updated core p.1 fun pa => sectorsOf pa p.2
  · exact fun _ _ hu => hu.setScr (Mem.wf_clearCovered (hu.2 _) _)
@[simp] theorem doAtom (h : Canon s) (core grp lane : Nat) (d : Option Dst) (op : AtomOp) (loc : Loc) (b : QWord) (ea : DWord) :
    Canon (s.doAtom core grp lane d op loc b ea) := by
  unfold State.doAtom
  extract_lets u v
  have hv : Canon v := (ite (h.copiesNow ..) h).markLoc ..
  clear_value v
  split
  extract_lets o w x
  have hw : Canon w := by
    refine .ite hv ?_
    split
    · exact (hv.locWrite ..).rewait _
    · exact hv
  have hx : Canon x := by
    refine afterLoads ?_ ..
    split
    · exact hw.l1DropLine _
    · exact hw
  split
  · exact hx.newTxn ..
  · clear_value x
    split
    next hy =>
    have hy := (snd (hx.newTxn _ _ _ _ _ _) hy).updLane
    exact .ite ((hy ..).l1DropAll _) (hy ..)
@[simp] theorem droppedAtoms (h : Canon s) (core grp : Nat) (pc : DWord) (xs : List (Nat × DWord)) : Canon (s.droppedAtoms core grp pc xs) := by
  unfold State.droppedAtoms
  refine h.foldl fun u a hu => ?_
  simp [hu]
@[simp] theorem doAmax (h : Canon s) (core grp lane : Nat) (d : Dst) (k : Nat) (reset : Bool) (b : Word) : Canon (s.doAmax core grp lane d k reset b) := by
  have hu (w : Word) (ctx : Nat) (fills : List Fill1) (t : Nat) : Canon (State.updLane (State.newTxn ((s.copiesNow core grp lane).setCell core k ctx w) core grp false fills).2 core grp lane
    fun x => x.reserve d 32 t) := (newTxn (setCell (h.copiesNow ..) ..) ..).updLane ..
  exact .ite ((hu ..).l1DropAll _) (hu ..)
@[simp] theorem doCinv (h : Canon s) (core grp va n : Nat) : Canon (s.doCinv core grp va n) := by
  unfold State.doCinv
  simp [h]
@[simp] theorem doCwb (h : Canon s) (core grp va n : Nat) : Canon (s.doCwb core grp va n) := by
  unfold State.doCwb
  simp [h]
@[simp] theorem doPfetch (h : Canon s) (core grp va : Nat) (l2 : Bool) : Canon (s.doPfetch core grp va l2) := by
  refine .ite h ?_
  split
  · exact .ite h (h.l1Fill ..)
  · exact h
@[simp] theorem doSmap (h : Canon s) (core grp : Nat) (va : DWord) (b : Nat) : Canon (s.doSmap core grp va b) := by
  unfold State.doSmap
  dsimp only
  split <;> simp [h]
@[simp] theorem doFlush (h : Canon s) (core grp : Nat) (ks : List Nat) (unmap : Bool) : Canon (s.doFlush core grp ks unmap) := by
  unfold State.doFlush
  split <;> simp [h]

/-! ### The end of a chain (R29) -/
@[simp] theorem perform (h : Canon s) (core grp l : Nat) (a4 : Eff) : Canon (s.perform core grp l a4) := by
  unfold State.perform
  split <;> simp [h]
@[simp] theorem queueShadows (h : Canon s) (core grp : Nat) (ws : List WordOut) (oks : List Nat) : Canon (s.queueShadows core grp ws oks) := by
  unfold State.queueShadows
  simp [h]
@[simp] theorem blockLoad (h : Canon s) (core grp q : Nat) (mine : List (Nat × List Eff)) : Canon (s.blockLoad core grp q mine) := by
  unfold State.blockLoad
  split <;> simp [h]
@[simp] theorem blockStore (h : Canon s) (core grp q : Nat) (mine : List (Nat × List Eff)) : Canon (s.blockStore core grp q mine) := by
  unfold State.blockStore
  split <;> simp [h]
@[simp] theorem blocks (h : Canon s) (core grp : Nat) (xs : List (Nat × List Eff)) : Canon (s.blocks core grp xs) := by
  unfold State.blocks
  refine h.foldl fun u a hu => ?_
  simp [hu]
@[simp] theorem addCopies (h : Canon s) (core grp : Nat) (xs : List (Nat × List Eff)) : Canon (s.addCopies core grp xs) := by
  unfold State.addCopies
  simp [h]
@[simp] theorem performWord (h : Canon s) (core grp : Nat) (pc : DWord) (w : WordOut) (oks : List Nat) : Canon (s.performWord core grp pc w oks) :=
  (((foldl (((h.updGroup ..).blocks ..).addCopies ..) fun _ _ hu => hu.foldl fun _ _ hv => hv.perform ..).clearStores ..).droppedAtoms ..).updGroup ..
@[simp] theorem failLane (h : Canon s) (c : Chain) (t l : Nat) (o : LaneOut) : Canon (s.failLane c t l o) := by
  unfold State.failLane
  refine .ite h ?_
  split
  · exact (h.updLane ..).takeTrap ..
  · exact h.updLane ..
  · exact (h.updLane ..).requestLayer ..
  · exact h.updLane ..
  · exact h.updLane ..
  · exact (h.closeSlot ..).updLane ..
  all_goals exact h
@[simp] theorem failParks (h : Canon s) (c : Chain) (fs : Tbl LaneOut) : Canon (s.failParks c fs) := by
  unfold State.failParks
  refine h.foldl fun u a hu => ?_
  simp [hu]
@[simp] theorem fail (h : Canon s) (c : Chain) (t : Nat) (fs : Tbl LaneOut) : Canon (s.fail c t fs) := by
  unfold State.fail
  extract_lets u gs v w
  have hu : Canon u := by
    dsimp only [u]
    split
    · exact h.flushMaps ..
    · exact h
  have hw : Canon w := (hu.foldl fun _ _ hx => hx.failLane ..).failParks ..
  split
  · exact hw.beginJoint ..
  · exact hw
@[simp] theorem beginFence (h : Canon s) (core grp : Nat) (lanes : LaneSet) (scope : Scope) (classes : Nat) (dropsL1 : Bool) : Canon (s.beginFence core grp lanes scope classes dropsL1) := by
  unfold State.beginFence
  simp [h]
@[simp] theorem advanceLanes (h : Canon s) (c : Chain) (t : Nat) (oks : List Nat) : Canon (s.advanceLanes c t oks) := by
  unfold State.advanceLanes
  refine h.foldl fun u a hu => ?_
  simp [hu]
@[simp] theorem returns (h : Canon s) (c : Chain) (oks : List Nat) : Canon (s.returns c oks) := by
  unfold State.returns
  refine h.foldl fun u a hu => ?_
  simp [hu]
@[simp] theorem joins (h : Canon s) (c : Chain) (oks : List Nat) : Canon (s.joins c oks) := by
  unfold State.joins
  simp [h]
@[simp] theorem leaves' (h : Canon s) (c : Chain) (oks : List Nat) : Canon (s.leaves' c oks) := by
  have hu (p : Prop) [Decidable p] : Canon (if p then (s.closeAll c.core c.grp).updGroup c.core c.grp fun g => g.sealAtExit else s) :=
    .ite ((h.closeAll ..).updGroup ..) h
  exact .ite ((hu _).barriers _) (hu _)
@[simp] theorem fences (h : Canon s) (c : Chain) (oks : List Nat) : Canon (s.fences c oks) := by
  unfold State.fences
  dsimp only
  split <;> simp [h]
@[simp] theorem effects (h : Canon s) (c : Chain) (t : Nat) (oks : List Nat) : Canon (s.effects c t oks) :=
  ((((queueShadows ((h.advanceLanes ..).foldl fun _ _ hu => hu.performWord ..) ..).returns ..).joins ..).leaves' ..).fences ..
@[simp] theorem reissue (h : Canon s) (c : Chain) : Canon (s.reissue c) := of_at (h.updGroup ..)
@[simp] theorem endChain (h : Canon s) : Canon s.endChain := by
  unfold State.endChain
  extract_lets c fs unused t u
  have hu : Canon u := (h.effects ..).fail ..
  clear_value u
  exact .ite (hu.reissue _) (of_at hu)
@[simp] theorem commit (h : Canon s) : Canon s.commit := by
  unfold State.commit
  simp [h]

/-! ### Chains -/
@[simp] theorem addWord (h : Canon s) (i : Instr) (f : Form) (w : WordOut) : Canon (s.addWord i f w) := h
@[simp] theorem failWord (h : Canon s) (cause : Cause) (sub : Nat) : Canon (s.failWord cause sub) := by
  unfold State.failWord
  simp [h]
@[simp] theorem runWord (h : Canon s) (ch : Bool) (i : Instr) (f : Form) (go : Body) : Canon (s.runWord ch i f go) := by
  unfold State.runWord
  split
  · exact h.failWord ..
  · exact .ite (h.addWord ..) (h.addWord ..).commit
theorem word (h : Canon s) {ch : Bool} {i : Instr} {go : Body} (ht : s.word ch i go = .next t) : Canon t := by
  unfold State.word at ht
  split at ht
  · cases ht
    exact .ite (h.runWord ..) h
  · cases ht
    exact h

/-! ### Events of the fabric -/
@[simp] theorem linkRead (h : Canon s) (src : Nat) : Canon (s.linkRead src) := by
  unfold State.linkRead
  simp [h]

/-! ### Failures -/
@[simp] theorem hostPortDown (h : Canon s) : Canon s.hostPortDown := h
@[simp] theorem scrub (h : Canon s) (_sector : Nat) : Canon (s.scrub _sector) := h

/-! ### Starts (R397 to R404) -/
@[simp] theorem fwWrite (h : Canon s) (off : Nat) (data : List Byte) : Canon (s.fwWrite off data).1 := by
  unfold State.fwWrite
  split <;> simp [h]
@[simp] theorem fwCommit (h : Canon s) (digest : Nat) : Canon (s.fwCommit digest).1 := by
  unfold State.fwCommit
  split <;> simp [h]
/-- The cores of a memory image that a start clears have empty scratchpads. -/
@[simp] theorem cleared (h : Canon s) : Canon s.cleared := by
  refine ⟨Mem.wf_keep h.1 .., fun c => ?_⟩
  unfold Tbl.get
  cases hfind : Tbl.find s.cleared.cores c with
  | none => exact Mem.wf_empty
  | some k =>
    obtain ⟨j, -, hj⟩ := List.mem_map.mp (find_mem hfind)
    cases hj
    exact Mem.wf_empty
@[simp] theorem beginStart (h : Canon s) (b : Starting) : Canon (s.beginStart b) := by
  unfold State.beginStart
  simp [h]
@[simp] theorem startWork (h : Canon s) (b : Starting) (k : Nat) : Canon (s.startWork b k) := by
  unfold State.startWork
  split
  · exact of_at (h.mapCores (f := fun c x => { x with physical := b.x.spares.getD c c, vm := min 4 b.x.vm }) fun _ _ => rfl)
  · exact h
  · cases b.preserve with
    | true => exact h
    | false => exact of_at (h.setMem Mem.wf_empty)
  · exact h
  · exact h
@[simp] theorem startEnd (h : Canon s) (b : Starting) : Canon (s.startEnd b) := h
@[simp] theorem startStep (h : Canon s) : Canon s.startStep := by
  unfold State.startStep
  split
  · exact h
  · exact .ite h (.ite (of_at (h.startWork ..)) (h.startEnd _))
@[simp] theorem coldStart (h : Canon s) (x : StartInputs) : Canon (s.coldStart x) := by
  unfold State.coldStart
  simp [h]
@[simp] theorem warmStart (h : Canon s) (preserve : Bool) (x : StartInputs) : Canon (s.warmStart preserve x) := by
  unfold State.warmStart
  simp [h]

/-! ### Events of the host -/
@[simp] theorem askCold (h : Canon s) : Canon s.askCold := by
  unfold State.askCold
  simp [h]

/-! ### Issue of chains (R26 to R29) -/
@[simp] theorem fetchMark (h : Canon s) (core ctx pc : Nat) : Canon (s.fetchMark core ctx pc) := by
  unfold State.fetchMark
  simp [h]
@[simp] theorem fetchFill (h : Canon s) (core ctx pc : Nat) : Canon (s.fetchFill core ctx pc) := by
  unfold State.fetchFill
  simp [h]
@[simp] theorem openChain (h : Canon s) (core grp : Nat) (ls : List Nat) (broadcast : Bool) (words : List Word) :
    Canon (s.openChain core grp ls broadcast words) := of_at (h.updGroup ..)
@[simp] theorem follow (h : Canon s) (ls : List Nat) : Canon (s.follow ls) := h
@[simp] theorem openWith (h : Canon s) (core grp : Nat) (ls : List Nat) (broadcast : Bool) (ws : List Word) : Canon (s.openWith core grp ls broadcast ws) := by
  unfold State.openWith
  simp [h]
@[simp] theorem fetch (h : Canon s) (core grp : Nat) (ls : List Nat) (broadcast : Bool) : Canon (s.fetch core grp ls broadcast) := by
  unfold State.fetch
  refine .ite (h.openWith ..) ?_
  split
  · exact commit (of_at ((h.openChain ..).follow _))
  · exact ((h.fetchMark ..).fetchFill ..).openWith ..
@[simp] theorem payPend (h : Canon s) (core grp l : Nat) : Canon (s.payPend core grp l) := by
  unfold State.payPend
  dsimp only
  split
  · exact .ite ((h.updLane ..).takeTrap ..) h
  · exact h
@[simp] theorem payPends (h : Canon s) (core grp : Nat) : Canon (s.payPends core grp) := .ite h (h.foldl fun _ _ hu => hu.payPend ..)
@[simp] theorem markStalled (h : Canon s) (core grp : Nat) (ready : List Nat) : Canon (s.markStalled core grp ready) := by
  unfold State.markStalled
  simp [h]
@[simp] theorem beginSlot (h : Canon s) (core grp : Nat) : Canon (s.beginSlot core grp).1 := by
  unfold State.beginSlot
  split <;> simp [h]
@[simp] theorem nextLater (h : Canon s) : Canon s.nextLater := by
  unfold State.nextLater
  extract_lets c
  split
  · exact h
  · extract_lets u g x
    have hu : Canon u := h
    clear_value u
    split
    · exact .ite (hu.openChain ..) hu
    · exact hu

/-! ### Events of a lane -/
@[simp] theorem packetFetch (h : Canon s) (core grp : Nat) (lanes : LaneSet) : Canon (s.packetFetch core grp lanes) := by
  unfold State.packetFetch
  simp [h]
@[simp] theorem illegal (h : Canon s) (core grp : Nat) (lanes : LaneSet) (cause : Cause) (sub : Nat) : Canon (s.illegal core grp lanes cause sub) := by
  unfold State.illegal
  simp [h]

/-! ### Instructions and steps -/
theorem next {u : State} (hu : Canon u) : ∀ t, (Host.Outcome.next u : Outcome) = .next t → Canon t := by
  intro t ht
  cases ht
  exact hu
theorem unlessStopped {u : State} (h : Canon s) (hu : Canon u) : ∀ t, s.unlessStopped u = .next t → Canon t := next (.ite h hu)

theorem hostMemAccess_none {hpa : Nat} {a : HostAccess} (h : s.hostAccess hpa a = none) :
    execHostMemAccess hpa a s = .fault (.noSuchAddress hpa) := by
  unfold execHostMemAccess
  rw [h]
theorem hostMemAccess_some {hpa : Nat} {a : HostAccess} {u : State} (h : s.hostAccess hpa a = some u) : execHostMemAccess hpa a s = .next u := by
  unfold execHostMemAccess
  rw [h]

/-- An event keeps the canonical form: each is one function of the state. -/
theorem exec_event (h : Canon s) {i : Instr} (hform : i.form = none) : ∀ t, exec i s = .next t → Canon t := by
  cases i
  any_goals contradiction
  case loadDataReturn => exact next (h.loadReturn ..)
  case fenceCompletion => exact next (h.fenceDone ..)
  case speculationRollback => exact next (h.rollback ..)
  case sleepExpiry => exact next (h.wakeSleep ..)
  case mooringOpAtHome => exact next (h.mooringHome ..)
  case chunkFill => exact next (h.chunkFill ..)
  case scratchWriteback => exact next (h.teamFlush ..)
  case groupEnd => exact next (h.groupEnd ..)
  case gridRetirement => exact next (h.gridRetire ..)
  case preemptionRequest => exact next (h.preempt ..)
  case contextSave => exact next (h.contextSave ..)
  case faultService => exact unlessStopped h (h.service ..)
  case faultRecordDelivery => exact unlessStopped h (h.deliverRecord ..)
  case retry => exact unlessStopped h (.ite (h.onRecord _ h.svcRetry) h)
  case remap => exact unlessStopped h (.ite (h.onRecord _ h.svcRemap) h)
  case setrap => exact unlessStopped h (.ite (h.onRecord _ h.svcSetrap) h)
  case migrate => exact unlessStopped h (.ite (h.onRecord _ h.svcMigrate) h)
  case restream => exact unlessStopped h (.ite (h.onRecord _ h.svcRestream) h)
  case deliver => exact unlessStopped h (.ite (h.onRecord _ h.svcDeliver) h)
  case abort => exact unlessStopped h (.ite (h.onRecord _ h.svcAbort) h)
  case ret => exact unlessStopped h (.ite (h.svcReturn ..) h)
  case copyBatchCompletion => exact next (h.batchDone ..)
  case tileCompletion => exact next (h.tileDone ..)
  case relayHopCompletion => exact next (h.relayHop ..)
  case gatherCompletion => exact next (h.gathDone ..)
  case jointIssue => exact next (h.jointIssue ..)
  case matrixPass => exact next (h.matrixPass ..)
  case matrixOpCompletion => exact next (h.matrixDone ..)
  case matrixHeaderFailure => exact next (h.headerFailure ..)
  case mdrainEntryDelivery => exact next (h.drainDeliver ..)
  case glappRecordWrite => exact next (h.glappWrite ..)
  case recordFold => exact next (h.recordFold ..)
  case glfoldRetirement => exact next (h.glfoldDone ..)
  case doorbell => exact next (h.ring ..)
  case packetNop => exact next (h.serve ..)
  case launch => exact next (h.serve ..)
  case coll => exact next (h.serve ..)
  case waitmem => exact next (h.serve ..)
  case waitmemReread => exact next (h.reread ..)
  case signalmem => exact next (h.serve ..)
  case modelRequest => exact next (h.serve ..)
  case modelWithdraw => exact next (h.serve ..)
  case modelPin => exact next (h.serve ..)
  case modelUnpin => exact next (h.serve ..)
  case qbarrier => exact next (h.serve ..)
  case workTableTimeout => exact next (h.tableTimeout ..)
  case placementAttempt => exact next (h.attempt ..).tick
  case candidateReservation => exact next (h.reserveFor ..)
  case thermalMigration => exact next (h.thermal ..)
  case jdecAtHome => exact next (h.jdecHome ..)
  case layerArrival => exact unlessStopped h (h.layerArrive ..)
  case layerFetchFailure => exact unlessStopped h (h.fetchFailure ..)
  case layerEviction => exact unlessStopped h (h.layerEvict ..)
  case reflectionArrival => exact unlessStopped h (h.reflArrive ..)
  case reflectionAcknowledgement => exact unlessStopped h (h.ackArrive ..)
  case closeMarkerArrival => exact unlessStopped h (h.markerArrive ..)
  case daymarkArrival => exact unlessStopped h (h.daymark ..)
  case beaconBcasStep => exact unlessStopped h (h.beaconStep ..).tick
  case beaconBenqStep => exact unlessStopped h (h.beaconStep ..).tick
  case beaconBchaseStep => exact unlessStopped h (h.beaconStep ..).tick
  case beaconBredStep => exact unlessStopped h (h.beaconStep ..).tick
  case ualinkReadReceived => exact unlessStopped h (h.linkRead ..)
  case slotGrant => exact unlessStopped h (h.collGranted ..)
  case contributionArrival => exact unlessStopped h (h.collArrive ..)
  case memberReport => exact unlessStopped h (h.collReport ..)
  case readyWordPoll => exact unlessStopped h (h.collPoll ..)
  case collectiveFailure => exact unlessStopped h (h.collFailure ..)
  case vaultRowSparing => exact next (h.spareRow ..)
  case hbmChannelFailure => exact next (h.spareChannel ..)
  case dieLinkLaneFailure => exact next (h.loseLane ..)
  case ualinkPortFailure => exact next (h.losePort ..)
  case coreFailure => exact next (h.coreFail ..)
  case vaultFailure => exact next (h.vaultFail ..)
  case heartbeatTakeover => exact next (h.takeover ..)
  case cxlPortFailure => exact next (h.hostPortDown ..)
  case patrolScrub => exact next (h.scrub ..)
  case hostMemAccess hpa a =>
    intro t ht
    cases haccess : s.hostAccess hpa a with
    | none =>
      rw [show exec (.hostMemAccess hpa a) s = .fault (.noSuchAddress hpa) from hostMemAccess_none haccess] at ht
      cases ht
    | some u =>
      rw [show exec (.hostMemAccess hpa a) s = .next u from hostMemAccess_some haccess] at ht
      cases ht
      exact h.hostAccess haccess
  case scaleViewWrite => exact next (h.scaleWrite ..)
  case ctxCreate => exact next (h.mailbox _ _ (h.ctxCreate ..))
  case ctxSet => exact next (h.mailbox _ _ (h.ctxSet ..))
  case ctxDestroy => exact next (h.mailbox _ _ (h.ctxDestroy ..))
  case map => exact next (h.mailbox _ _ (h.mapLeaf ..))
  case unmap => exact next (h.mailbox _ _ (h.unmapLeaf ..))
  case xlate => exact next (h.mailbox _ _ (h.xlateCmd ..))
  case keyLoad => exact next (h.mailbox _ _ (h.keyLoad ..))
  case keyClear => exact next (h.mailbox _ _ (h.keyClear ..))
  case winSet => exact next (h.mailbox _ _ (h.winSet ..))
  case queueSet => exact next (h.mailbox _ _ (h.queueSet ..))
  case queueClear => exact next (h.mailbox _ _ (h.queueClear ..))
  case layerDone => exact next (h.mailbox _ _ (h.layerDone ..))
  case fwWrite => exact next (h.mailbox _ _ (h.fwWrite ..))
  case fwCommit => exact next (h.mailbox _ _ (h.fwCommit ..))
  case warm => exact next (h.mailbox _ _ (h.warmStart ..))
  case mailboxUnknownCode => exact next (h.unknownCommand ..)
  case bar0WriteIgnored => exact next (h.bar0Write ..)
  case coldStart => exact next (h.coldStart ..)
  case warmReset => exact next (h.warmStart ..)
  case managementRead => exact next (h.mgmtRead ..)
  case plimWrite => exact next (h.plimWrite ..)
  case coldResetRequest => exact next (h.askCold ..)
  case powerWindow => exact next (h.powerWindow ..)
  case temperatureHot => exact next (h.hotCore ..)
  case temperatureTrip => exact next (h.trip ..)
  case illegalOp => exact next (h.illegal ..)
  case packetFetch => exact next (h.packetFetch ..)
  case mbstsRead => exact next (h.mbRead ..)
  case hdmDecoderWrite => exact next (h.setDecoder ..)
  case digestExchange => exact unlessStopped h (h.collDigestIn ..)
  case vaultSplitChange => exact next (h.splitChange ..)

/-- An instruction keeps the canonical form: a word by what its body does, an event by its function. -/
theorem exec (h : Canon s) (i : Instr) : ∀ t, Sys2Proof.Machine.exec i s = .next t → Canon t := by
  intro t ht
  cases hform : i.form with
  | none => exact h.exec_event hform t ht
  | some f =>
    obtain ⟨go, hgo⟩ := SequentialMachine.exec_eq_word hform
    exact h.word (hgo s ▸ ht)

theorem runChain (h : Canon s) (t : State) (ht : s.runChain = .next t) : Canon t := by
  unfold State.runChain at ht
  dsimp only at ht
  split at ht
  · exact h.exec _ t ht
  · exact h.exec (.illegalOp ..) t ht

theorem issueLater (h : Canon s) (t : State) (ht : s.issueLater = .next t) : Canon t := by
  unfold State.issueLater at ht
  dsimp only at ht
  split at ht
  · exact h.nextLater.runChain t ht
  · cases ht
    exact h.nextLater

theorem issue (h : Canon s) {core grp : Nat} (t : State) (ht : s.issue core grp = .next t) : Canon t := by
  unfold State.issue at ht
  split at ht
  · cases ht
    exact h
  · split at ht
    next hu =>
      cases ht
      exact fst (h.beginSlot ..) hu
    next u ls _ hu =>
      have hu := (fst (h.beginSlot ..) hu).packetFetch core grp (laneSetOf ls)
      have hfetched : execPacketFetch core grp (laneSetOf ls) u = .next (u.packetFetch core grp (laneSetOf ls)) := rfl
      rw [hfetched] at ht
      dsimp only at ht
      split at ht
      · exact hu.runChain t ht
      · cases ht
        exact hu

theorem turn (h : Canon s) (r : Turn) (t : State) (ht : s.turn r = .next t) : Canon t := by
  cases hevent : SequentialMachine.eventOf r with
  | some i =>
    obtain ⟨-, hrun⟩ := SequentialMachine.turn_eventOf hevent
    exact h.exec i t (hrun s ▸ ht)
  | none =>
    rcases SequentialMachine.other_turns hevent with ⟨core, grp, rfl⟩ | ⟨n, rfl⟩ | ⟨core, grp, txn, rfl⟩ | ⟨core, grp, txn, rfl⟩ | ⟨r, on, rfl⟩ |
      ⟨line, rfl⟩ | ⟨core, k, rfl⟩ | ⟨core, k, rfl⟩ | ⟨core, k, rfl⟩ | ⟨sec, rfl⟩ | ⟨core, part, tile, rfl⟩ | rfl | rfl
    · exact h.issue t ht
    · exact next (of_at h) t ht
    · exact next (h.storeDone ..) t ht
    · exact next (h.loadLate ..) t ht
    · exact next (of_at h) t ht
    · exact next (of_at h) t ht
    · cases ht
      exact h.setCore rfl
    · cases ht
      exact h.setCore rfl
    · cases ht
      exact h.setCore rfl
    · exact next (h.harm _) t ht
    · exact next (h.setEngine ..) t ht
    · exact next h.startStep t ht
    · exact next h.mbAnswer t ht

theorem step (h : Canon s) (t : State) (ht : Sys2Proof.Machine.step s = .next t) : Canon t := by
  unfold Sys2Proof.Machine.step at ht
  split at ht
  · exact h.runChain t ht
  · split at ht
    · exact h.issueLater t ht
    · split at ht
      · exact turn (of_at h) _ t ht
      · cases ht
        exact of_at h
end Canon

/-- Settles O51, from the canonical form of every function of the state that a step runs. -/
theorem memoryStaysCanonical : Obligations.MemoryStaysCanonical := fun _ t h ht => Canon.step (s := _) h t ht
end Sys2Proof.CanonicalMemory
end

section
/-! PROOFS. The events of the matrix engines: the acceptance of a joint operation, its passes, the drains, the failing header and the
completion (R261 to R278). -/
open Sys2Proof Sys2Proof.Machine Sys2Proof.Safety Sys2Proof.Rules
namespace Sys2Proof.MatrixEvents
open Sys2Proof.MatrixEngine (engine_updGroup engine_setEngine_same group_setEngine)

/-! ### The words at which the convened groups wait (R260, R261) -/
section
variable {u : State} {core part : Nat} {w : AtJoint}
/-- The joint word, not yet accepted, at which a group waits. -/
def waitsAt (u : State) (core k : Nat) : Option AtJoint := (u.group core k).atJoint.filter fun x => x.idx != 2 && !x.accepted
/-- The words of the convened groups. -/
def waiting (u : State) (core part : Nat) : List AtJoint := (u.convened core part).filterMap (waitsAt u core)
/-- A word that says the same as another (R261). -/
def SameWord (x w : AtJoint) : Prop := x.idx = w.idx ∧ x.modi = w.modi ∧ x.a = w.a ∧ x.b = w.b

theorem waitsAt_of_agreed (h : agreed u core part w) {k : Nat} (hk : k ∈ u.convened core part) : ∃ x, waitsAt u core k = some x ∧ SameWord x w := by
  obtain ⟨-, hall⟩ := h
  obtain ⟨x, hx, haccepted, hidx, hword⟩ := hall k hk
  refine ⟨x, ?_, hword⟩
  unfold waitsAt
  rw [hx]
  simp [haccepted, hidx]
theorem length_waiting (h : agreed u core part w) : (waiting u core part).length = (u.convened core part).length :=
  List.filterMap_length_eq_length.mpr fun k hk => by
    obtain ⟨x, hx, -⟩ := waitsAt_of_agreed h hk
    rw [hx]
    rfl
theorem sameWord_of_waiting (h : agreed u core part w) {x : AtJoint} (hx : x ∈ waiting u core part) : SameWord x w := by
  obtain ⟨k, hk, hxk⟩ := List.mem_filterMap.mp hx
  obtain ⟨y, hy, hword⟩ := waitsAt_of_agreed h hk
  obtain rfl : y = x := Option.some.inj (hy.symm.trans hxk)
  exact hword
theorem headD_waiting (h : agreed u core part w) (d : AtJoint) : (waiting u core part).headD d ∈ waiting u core part := by
  have hlen := length_waiting h
  obtain ⟨hne, -⟩ := h
  cases hw : waiting u core part with
  | nil =>
    rw [hw] at hlen
    exact absurd (List.length_eq_zero_iff.mp hlen.symm) hne
  | cons x xs => exact List.mem_cons_self
theorem waiting_agree (h : agreed u core part w) {y : AtJoint} (hy : SameWord y w) :
    (waiting u core part).all (fun x => x.idx == y.idx && x.modi == y.modi && x.a == y.a && x.b == y.b) = true := by
  rw [List.all_eq_true]
  intro x hx
  obtain ⟨hidx, hmodi, ha, hb⟩ := sameWord_of_waiting h hx
  obtain ⟨yidx, ymodi, ya, yb⟩ := hy
  simp [hidx, hmodi, ha, hb, yidx, ymodi, ya, yb]
end

/-! ### Acceptance (R261) -/
section
variable {u : State} {core part : Nat}
/-- What the acceptance of an operation makes of a convened group. -/
def takeJoint (o : MxOp) (counted streams : Bool) (k : Nat) (g : Group) : Group :=
  let g := g.acceptJoint
  let g := if counted then g.tlAdd { id := o.id, kind := .matrix, lane := Tbl.get o.by_ k 0 } else g
  if streams then { g with mqa := g.mqa.drop 1, mqb := g.mqb.drop 1 } else g
/-- The operation is the engine's youngest, and the convened groups go on. -/
def acceptJointly (u : State) (core part : Nat) (o : MxOp) (counted streams : Bool) : State :=
  o.groups.foldl (fun s k => s.updGroup core k (takeJoint o counted streams k))
    (State.setEngine { u with nextTxn := u.nextTxn + 1 } core part { u.engine core part with ops := (u.engine core part).ops ++ [o] })

theorem engine_acceptJointly (o : MxOp) (counted streams : Bool) :
    (acceptJointly u core part o counted streams).engine core part = { u.engine core part with ops := (u.engine core part).ops ++ [o] } := by
  unfold acceptJointly
  rw [InstructionEncoding.foldl_keeps (State.engine · core part) (fun _ _ => engine_updGroup ..), engine_setEngine_same]
theorem atJoint_takeJoint (o : MxOp) (counted streams : Bool) (k : Nat) (g : Group) :
    (takeJoint o counted streams k g).atJoint = g.atJoint.map fun y => { y with accepted := true } := by
  unfold takeJoint
  cases counted <;> cases streams <;> rfl
theorem mqs_takeJoint (o : MxOp) (counted : Bool) (k : Nat) (g : Group) :
    (takeJoint o counted true k g).mqa = g.mqa.drop 1 ∧ (takeJoint o counted true k g).mqb = g.mqb.drop 1 := by
  unfold takeJoint
  cases counted <;> exact ⟨rfl, rfl⟩
/-- A group that a fold over groups names once is changed once. -/
theorem group_foldl_updGroup {f : Nat → Group → Group} {ks : List Nat} (hnodup : ks.Nodup) {k : Nat} (hk : k ∈ ks) (s : State) :
    (ks.foldl (fun s k => s.updGroup core k (f k)) s).group core k = f k (s.group core k) := by
  induction ks generalizing s with
  | nil => cases hk
  | cons j ks ih =>
    obtain ⟨hj, hnodup⟩ := List.nodup_cons.mp hnodup
    rw [List.foldl_cons]
    rcases List.mem_cons.mp hk with rfl | hk
    · have hrest (s : State) (ls : List Nat) (hls : k ∉ ls) : (ls.foldl (fun s k => s.updGroup core k (f k)) s).group core k = s.group core k := by
        induction ls generalizing s with
        | nil => rfl
        | cons i ls ih =>
          rw [List.foldl_cons, ih _ (List.not_mem_of_not_mem_cons hls), State.group_updGroup, if_neg (by grind)]
      rw [hrest _ _ hj, State.group_updGroup_same]
    · rw [ih hnodup hk, State.group_updGroup, if_neg (by grind)]
/-- What the change makes of a group, and keeps, holds of each group that the fold names. -/
theorem of_foldl_updGroup {Q : Group → Prop} {f : Nat → Group → Group} {k : Nat} (hkeep : ∀ j g, Q g → Q (f j g)) {ks : List Nat} (hk : k ∈ ks)
    (s : State) (hset : Q (f k (s.group core k))) : Q ((ks.foldl (fun s k => s.updGroup core k (f k)) s).group core k) := by
  have hrest (ls : List Nat) (s : State) (hQ : Q (s.group core k)) : Q ((ls.foldl (fun s k => s.updGroup core k (f k)) s).group core k) := by
    induction ls generalizing s with
    | nil => exact hQ
    | cons j ls ih =>
      refine ih _ ?_
      rw [State.group_updGroup]
      split
      next hj => exact hkeep _ _ (hj.2 ▸ hQ)
      next => exact hQ
  induction ks generalizing s with
  | nil => cases hk
  | cons j ks ih =>
    by_cases hj : j = k
    · subst hj
      refine hrest ks _ ?_
      rw [State.group_updGroup_same]
      exact hset
    · refine ih ((List.mem_cons.mp hk).resolve_left (Ne.symm hj)) _ ?_
      rw [State.group_updGroup, if_neg (by simp [hj])]
      exact hset
theorem atJoint_acceptJointly {o : MxOp} {counted streams : Bool} {k : Nat} {x : AtJoint} (hk : k ∈ o.groups)
    (hwaits : (u.group core k).atJoint = some x) :
    ∃ y, ((acceptJointly u core part o counted streams).group core k).atJoint = some y ∧ y.accepted = true := by
  refine of_foldl_updGroup (Q := fun g => ∃ y, g.atJoint = some y ∧ y.accepted = true) ?_ hk _ ?_
  · rintro j g ⟨y, hy, -⟩
    exact ⟨{ y with accepted := true }, by rw [atJoint_takeJoint, hy]; rfl, rfl⟩
  · refine ⟨{ x with accepted := true }, ?_, rfl⟩
    rw [atJoint_takeJoint, group_setEngine]
    exact congrArg _ hwaits
theorem mqs_acceptJointly {o : MxOp} {counted : Bool} {k : Nat} (hnodup : o.groups.Nodup) (hk : k ∈ o.groups) :
    ((acceptJointly u core part o counted true).group core k).mqa = (u.group core k).mqa.drop 1 ∧
      ((acceptJointly u core part o counted true).group core k).mqb = (u.group core k).mqb.drop 1 := by
  unfold acceptJointly
  rw [group_foldl_updGroup (f := takeJoint o counted true) hnodup hk, group_setEngine]
  exact mqs_takeJoint ..
/-- The operation that an acceptance makes: of a word that says what `w` says, for the convened groups. -/
def MadeFrom (u : State) (core part : Nat) (w : AtJoint) (o : MxOp) : Prop :=
  o.idx = w.idx ∧ o.modi = w.modi ∧ o.a = w.a ∧ o.b = w.b ∧ o.groups = u.convened core part ∧ o.passed = false
theorem accepted_acceptJointly {w : AtJoint} {o : MxOp} {counted streams : Bool} (h : agreed u core part w) (ho : MadeFrom u core part w o) :
    accepted u core part w (acceptJointly u core part o counted streams) := by
  refine ⟨⟨o, ?_, ho⟩, fun k hk => ?_⟩
  · rw [engine_acceptJointly]
  · obtain ⟨-, hall⟩ := h
    obtain ⟨x, hx, -⟩ := hall k hk
    obtain ⟨-, -, -, -, hgroups, -⟩ := ho
    exact atJoint_acceptJointly (hgroups ▸ hk) hx
end

/-! ### The issue of a joint operation (R261, R264, R274) -/
section
variable {s u : State} {core part : Nat} {w : AtJoint}
/-- The operation counts in its groups, and takes headers from their streams. -/
def countedIdx (idx : Nat) : Bool := idx == 3 || idx == 4 || idx == 6
def streamsIdx (idx : Nat) : Bool := idx == 3 || idx == 4 || idx == 9
/-- An accepted operation still takes entries of a convened group's streams. -/
def taken (u : State) (core part : Nat) : Bool :=
  (u.convened core part).any fun k => ((u.engine core part).taker 0 k).isSome || ((u.engine core part).taker 1 k).isSome
/-- The headers at the heads of the streams of the convened groups. -/
def headsOf (u : State) (core part : Nat) : List (Option VEnt × Option VEnt) :=
  (u.convened core part).map fun k => (headOf (u.group core k).mqa, headOf (u.group core k).mqb)
def aWords (u : State) (core part : Nat) : List Nat := (headsOf u core part).map fun h => (h.1.map (·.word 0)).getD 0
def bWords (u : State) (core part : Nat) : List Nat := (headsOf u core part).map fun h => (h.2.map (·.word 0)).getD 0
/-- The headers of the groups agree, and each is good (R264). -/
def sameHeaders (u : State) (core part : Nat) : Bool :=
  (aWords u core part).all (fun x => hFmt x == hFmt ((aWords u core part).headD 0)) &&
    ((bWords u core part).drop 1).all fun x => bAgrees ((bWords u core part).headD 0) x
def goodHeader (u : State) (core part idx : Nat) (lead : Bool) (stream x : Nat) : Bool :=
  headerOk idx (u.convened core part).length ((u.engine core part).escapeAfter (u.engine core part).ops) lead stream
    (hFmt ((aWords u core part).headD 0)) (hFmt ((bWords u core part).headD 0)) x
def badHeaders (u : State) (core part idx : Nat) : Option Nat :=
  ((aWords u core part).find? fun x => !goodHeader u core part idx false 0 x).or
    (((bWords u core part).zipIdx.find? fun (x, i) => !goodHeader u core part idx (i == 0) 1 x).map (·.1))

/-- Where the words agree, the counters have room, the streams stand at good headers and a dY is there for a backward step, the operation is accepted. -/
theorem jointIssue_accepts (hu : s.takeEntries core part = u) (h : agreed u core part w)
    (hstreams : streamsIdx w.idx = true → taken u core part = false ∧ ((headsOf u core part).any fun h => h.1.isNone || h.2.isNone) = false ∧
      sameHeaders u core part = true ∧ badHeaders u core part w.idx = none)
    (hcounted : countedIdx w.idx = true → ((u.convened core part).any fun k => 7 ≤ (u.group core k).tl) = false)
    (hdY : (w.idx == 4 && !cwLoad w.a.toNat && (u.engine core part).dY.isNone && !(u.engine core part).ops.any fun o => o.idx == 4 && cwLoad o.a.toNat) = false) :
    ∃ o, MadeFrom u core part w o ∧ s.jointIssue core part = acceptJointly u core part o (countedIdx w.idx) (streamsIdx w.idx) := by
  unfold State.jointIssue
  extract_lets u' e gs ws w' agree counted streams heads trapAll ha hb a0 b0 same good bad t o v
  have hu' : u' = u := hu
  clear_value u'
  subst hu'
  have hsame : SameWord w' w := sameWord_of_waiting h (headD_waiting h _)
  have hagree : agree = true := waiting_agree h hsame
  have hwaiting : (gs.isEmpty || ws.length != gs.length) = false := by
    have hlen : ws.length = gs.length := length_waiting h
    obtain ⟨hne, -⟩ := h
    rw [hlen]
    simpa [gs] using hne
  obtain ⟨hidx, hmodi, ha', hb'⟩ := hsame
  have hcount : counted = countedIdx w.idx := by rw [← hidx]; rfl
  have hstream : streams = streamsIdx w.idx := by rw [← hidx]; rfl
  refine ⟨o, ⟨hidx, hmodi, ha', hb', rfl, rfl⟩, ?_⟩
  have hready : (streams && (gs.any (fun k => (e.taker 0 k).isSome || (e.taker 1 k).isSome) || heads.any fun h => h.1.isNone || h.2.isNone)) = false := by
    rw [hstream, Bool.and_eq_false_iff, ← Bool.not_eq_true, ← imp_iff_not_or]
    intro hs
    obtain ⟨htaken, hheads, -⟩ := hstreams hs
    exact Bool.or_eq_false_iff.mpr ⟨htaken, hheads⟩
  have hroom : (counted && gs.any fun k => 7 ≤ (u'.group core k).tl) = false := by
    rw [hcount, Bool.and_eq_false_iff, ← Bool.not_eq_true, ← imp_iff_not_or]
    exact hcounted
  have hagreeing : (streams && !same) = false := by
    rw [hstream, Bool.and_eq_false_iff, ← Bool.not_eq_true, ← imp_iff_not_or]
    intro hs
    obtain ⟨-, -, hsame, -⟩ := hstreams hs
    exact congrArg (!·) hsame
  have hgood : (streams && bad.isSome) = false := by
    rw [hstream, Bool.and_eq_false_iff, ← Bool.not_eq_true, ← imp_iff_not_or]
    intro hs
    obtain ⟨-, -, -, hbad⟩ := hstreams hs
    rw [← hidx] at hbad
    exact congrArg Option.isSome hbad
  have hdY' : (w'.idx == 4 && !cwLoad w'.a.toNat && e.dY.isNone && !e.ops.any (fun o => o.idx == 4 && cwLoad o.a.toNat)) = false := by
    rw [hidx, ha']
    exact hdY
  rw [hwaiting, hagree, hready, hroom, hagreeing, hgood, hdY', ← hcount, ← hstream]
  rfl
/-- While an accepted operation takes entries of a stream, no other takes headers there (R264). -/
theorem jointIssue_taken (hu : s.takeEntries core part = u) (h : agreed u core part w) (hstreams : streamsIdx w.idx = true)
    (htaken : taken u core part = true) : s.jointIssue core part = u := by
  unfold State.jointIssue
  extract_lets u' e gs ws w' agree counted streams heads trapAll
  have hu' : u' = u := hu
  clear_value u'
  subst hu'
  have hsame : SameWord w' w := sameWord_of_waiting h (headD_waiting h _)
  have hagree : agree = true := waiting_agree h hsame
  obtain ⟨hidx, -⟩ := hsame
  have hstream : streams = true := by rw [← hstreams, ← hidx]; rfl
  have hwait : (gs.any (fun k => (e.taker 0 k).isSome || (e.taker 1 k).isSome) || heads.any fun h => h.1.isNone || h.2.isNone) = true :=
    Bool.or_eq_true_iff.mpr (.inl htaken)
  rw [hagree, hstream, hwait]
  split
  · rfl
  · rfl
theorem taker_isSome_iff {st k : Nat} : ((u.engine core part).taker st k).isSome = true ↔ takes u core part st k := by
  unfold Engine.taker takes MxOp.streamDone
  simp
theorem noneFull (h : ∀ k ∈ u.convened core part, (u.group core k).tl < 7) :
    ((u.convened core part).any fun k => 7 ≤ (u.group core k).tl) = false := by
  rw [List.any_eq_false]
  intro k hk
  simpa using h k hk
/-- A backward step finds a resident dY, or one that an accepted operation brings (R270). -/
theorem dY_of (h : w.idx = 3 ∨ w.idx = 9 ∨ w.idx = 4 ∧ (cwLoad w.a.toNat = true ∨ (u.engine core part).dY.isSome = true ∨
    ∃ o ∈ (u.engine core part).ops, o.idx = 4 ∧ cwLoad o.a.toNat = true)) :
    (w.idx == 4 && !cwLoad w.a.toNat && (u.engine core part).dY.isNone && !(u.engine core part).ops.any fun o => o.idx == 4 && cwLoad o.a.toNat) = false := by
  rcases h with h | h | ⟨-, h | h | ⟨o, ho, hidx, hload⟩⟩
  · simp [h]
  · simp [h]
  · simp [h]
  · simp [Option.isNone_eq_false_iff.mpr h]
  · have hany : (u.engine core part).ops.any (fun o => o.idx == 4 && cwLoad o.a.toNat) = true :=
      List.any_eq_true.mpr ⟨o, ho, by simp [hidx, hload]⟩
    simp [hany]
theorem taken_iff : taken u core part = true ↔ ∃ k ∈ u.convened core part, ∃ st, st < 2 ∧ takes u core part st k := by
  unfold taken
  rw [List.any_eq_true]
  refine exists_congr fun k => and_congr_right fun _ => ?_
  rw [Bool.or_eq_true, taker_isSome_iff, taker_isSome_iff]
  constructor
  · rintro (h | h)
    · exact ⟨0, by decide, h⟩
    · exact ⟨1, by decide, h⟩
  · rintro ⟨st, hst, h⟩
    interval_cases st
    · exact .inl h
    · exact .inr h
end

/-! ### Headers at the heads of every stream (R264) -/
section
variable {u : State} {core part : Nat} {A B : Nat → VEnt}
variable (hheads : ∀ k ∈ u.convened core part, heads u core k (A k) (B k))
include hheads
theorem headsOf_eq : headsOf u core part = (u.convened core part).map fun k => (some (A k), some (B k)) :=
  List.map_congr_left fun k hk => by
    obtain ⟨ha, hb⟩ := hheads k hk
    rw [ha, hb]
theorem aWords_eq : aWords u core part = (u.convened core part).map fun k => (A k).word 0 := by
  unfold aWords
  rw [headsOf_eq hheads, List.map_map]
  rfl
theorem bWords_eq : bWords u core part = (u.convened core part).map fun k => (B k).word 0 := by
  unfold bWords
  rw [headsOf_eq hheads, List.map_map]
  rfl
theorem heads_present : ((headsOf u core part).any fun h => h.1.isNone || h.2.isNone) = false := by
  rw [headsOf_eq hheads, List.any_eq_false]
  intro h hh
  obtain ⟨k, -, rfl⟩ := List.mem_map.mp hh
  simp

omit hheads in
theorem headD_eq_getElem {l : List Nat} (h : 0 < l.length) : l.headD 0 = l[0] := by
  cases l with
  | nil => exact absurd h (lt_irrefl 0)
  | cons a l => rfl
omit hheads in
theorem headD_map {f : Nat → Nat} {l : List Nat} (hne : l ≠ []) : (l.map f).headD 0 = f (l.headD 0) := by
  cases l with
  | nil => exact absurd rfl hne
  | cons a l => rfl

variable (hne : u.convened core part ≠ [])
include hne
/-- The groups' headers agree with the lead's. -/
theorem sameHeaders_of (hagree : ∀ k ∈ u.convened core part, let lead := (u.convened core part).headD 0
    hFmt ((A k).word 0) = hFmt ((A lead).word 0) ∧
      (hShr ((B k).word 0) = true → (B k).word 0 = (B lead).word 0 + 2 ^ 20) ∧
      (hShr ((B k).word 0) = false → hFmt ((B k).word 0) = hFmt ((B lead).word 0) ∧ hRows ((B k).word 0) = hRows ((B lead).word 0) ∧
        hCols ((B k).word 0) = hCols ((B lead).word 0))) : sameHeaders u core part = true := by
  unfold sameHeaders
  rw [aWords_eq hheads, bWords_eq hheads, headD_map hne, headD_map hne, Bool.and_eq_true, List.all_eq_true, List.all_eq_true]
  constructor
  · intro x hx
    obtain ⟨k, hk, rfl⟩ := List.mem_map.mp hx
    obtain ⟨hfmt, -⟩ := hagree k hk
    exact beq_iff_eq.mpr hfmt
  · intro x hx
    obtain ⟨k, hk, rfl⟩ := List.mem_map.mp (List.mem_of_mem_drop hx)
    obtain ⟨-, hshr, hown⟩ := hagree k hk
    unfold bAgrees
    cases hs : hShr ((B k).word 0) with
    | true => simp [hshr hs]
    | false =>
      obtain ⟨hfmt, hrows, hcols⟩ := hown hs
      simp [hfmt, hrows, hcols]
/-- Every header passes the table. -/
theorem badHeaders_of {idx : Nat} (hnodup : (u.convened core part).Nodup) (hgood : ∀ k ∈ u.convened core part,
    let lead := (u.convened core part).headD 0
    let n := (u.convened core part).length
    headerOk idx n (escaping u core part) false 0 (hFmt ((A lead).word 0)) (hFmt ((B lead).word 0)) ((A k).word 0) = true ∧
      headerOk idx n (escaping u core part) (k == lead) 1 (hFmt ((A lead).word 0)) (hFmt ((B lead).word 0)) ((B k).word 0) = true) :
    badHeaders u core part idx = none := by
  unfold badHeaders goodHeader
  rw [aWords_eq hheads, bWords_eq hheads, headD_map hne, headD_map hne, Option.or_eq_none_iff, Option.map_eq_none_iff, List.find?_eq_none,
    List.find?_eq_none]
  constructor
  · intro x hx
    obtain ⟨k, hk, rfl⟩ := List.mem_map.mp hx
    obtain ⟨ha, -⟩ := hgood k hk
    rw [Bool.not_eq_true', Bool.not_eq_false]
    exact ha
  · rintro ⟨x, i⟩ hx
    obtain ⟨hi, hxi⟩ := List.getElem?_eq_some_iff.mp (List.mk_mem_zipIdx_iff_getElem?.mp hx)
    rw [List.length_map] at hi
    rw [List.getElem_map] at hxi
    subst hxi
    obtain ⟨-, hb⟩ := hgood _ (List.getElem_mem hi)
    have hlead : ((u.convened core part)[i] == (u.convened core part).headD 0) = (i == 0) := by
      rw [headD_eq_getElem (Nat.zero_lt_of_lt hi), Bool.eq_iff_iff, beq_iff_eq, beq_iff_eq, hnodup.getElem_inj_iff]
    rw [hlead] at hb
    rw [Bool.not_eq_true', Bool.not_eq_false]
    exact hb
end
end Sys2Proof.MatrixEvents
end

section
/-! PROOFS. The tiles of a matrix engine: passes, drains and the completion of its oldest operation (R267 to R278). -/
open Sys2Proof Sys2Proof.Machine Sys2Proof.Safety Sys2Proof.Rules
namespace Sys2Proof.MatrixEvents
open Sys2Proof.MatrixEngine (engine_updGroup engine_setEngine_same group_setEngine)

/-! ### Tiles (R267) -/
section
variable {e : Engine} {t i j : Nat} {f : Nat → Nat → Nat}
theorem find_append {α : Type} (a b : Tbl α) (k : Nat) : Tbl.find (a ++ b : List (Nat × α)) k = (Tbl.find a k).or (Tbl.find b k) := by
  induction a with
  | nil => rfl
  | cons p a ih =>
    rw [List.cons_append, Tbl.find_cons, Tbl.find_cons, ih]
    split <;> rfl
/-- A table written out place by place has, at a place, what is written there. -/
theorem find_tile {g : Nat → Nat} (n b k : Nat) :
    Tbl.find ((List.range n).filterMap fun k => if g k = 0 then none else some (b + k, BitVec.ofNat 32 (g k)) : Tbl Word) (b + k) =
      if k < n ∧ g k ≠ 0 then some (BitVec.ofNat 32 (g k)) else none := by
  induction n with
  | zero => simp
  | succ n ih =>
    rw [List.range_succ, List.filterMap_append, find_append, ih, List.filterMap_cons, List.filterMap_nil]
    by_cases hk : k < n ∧ g k ≠ 0
    · obtain ⟨hlt, hg⟩ := hk
      rw [if_pos ⟨hlt, hg⟩, Option.some_or, if_pos (show k < n + 1 ∧ g k ≠ 0 from ⟨Nat.lt_succ_of_lt hlt, hg⟩)]
    · rw [if_neg hk]
      by_cases hn : n = k
      · subst hn
        by_cases hg : g n = 0
        · simp [hg]
        · simp [hg, Tbl.find_cons]
      · have hnot : ¬ (k < n + 1 ∧ g k ≠ 0) := fun h => hk ⟨by omega, h.2⟩
        rw [if_neg hnot]
        by_cases hg : g n = 0
        · simp [hg]
        · simp [hg, Tbl.find_cons, hn]
theorem find_tile_other {g : Nat → Nat} {n b k : Nat} (h : k < b ∨ b + n ≤ k) :
    Tbl.find ((List.range n).filterMap fun k => if g k = 0 then none else some (b + k, BitVec.ofNat 32 (g k)) : Tbl Word) k = none := by
  rcases h with h | h
  · induction n with
    | zero => rfl
    | succ n ih =>
      rw [List.range_succ, List.filterMap_append, find_append, ih]
      by_cases hg : g n = 0
      · simp [hg]
      · simp [hg, Tbl.find_cons, show b + n ≠ k by omega]
  · obtain ⟨d, rfl⟩ := Nat.exists_eq_add_of_le (Nat.le_of_add_right_le h)
    rw [find_tile, if_neg (by omega)]

theorem find_acc_setTile (k : Nat) : Tbl.find (e.setTile t f).acc k =
    if 1024 * t ≤ k ∧ k < 1024 * (t + 1) then
      (if f ((k - 1024 * t) / 32) ((k - 1024 * t) % 32) ≠ 0 then some (BitVec.ofNat 32 (f ((k - 1024 * t) / 32) ((k - 1024 * t) % 32))) else none)
    else Tbl.find e.acc k := by
  have hlow := MemoryLevels.find_keep e.acc (fun j => decide (j < 1024 * t)) k
  have hhigh := MemoryLevels.find_keep e.acc (fun j => decide (1024 * (t + 1) ≤ j)) k
  unfold Tbl.keep at hlow hhigh
  unfold Engine.setTile
  dsimp only
  rw [find_append, find_append, hlow, hhigh]
  by_cases hin : 1024 * t ≤ k ∧ k < 1024 * (t + 1)
  · obtain ⟨d, rfl⟩ := Nat.exists_eq_add_of_le hin.1
    rw [if_pos hin, find_tile (g := fun k => f (k / 32) (k % 32)), Nat.add_sub_cancel_left]
    simp [show d < 1024 by omega, show ¬ 1024 * (t + 1) ≤ 1024 * t + d by omega]
  · rw [if_neg hin, find_tile_other (by omega)]
    by_cases hlow : k < 1024 * t
    · simp [hlow, show ¬ 1024 * (t + 1) ≤ k by omega]
    · simp [hlow, show 1024 * (t + 1) ≤ k by omega]
theorem acc'_setTile_same (hi : i < 32) (hj : j < 32) : (e.setTile t f).acc' t i j = f i j % 2 ^ 32 := by
  unfold Engine.acc' Tbl.get
  rw [find_acc_setTile, if_pos (by omega), show 1024 * t + 32 * i + j - 1024 * t = 32 * i + j by omega, show (32 * i + j) / 32 = i by omega,
    show (32 * i + j) % 32 = j by omega]
  by_cases hf : f i j = 0
  · simp [hf]
  · simp [hf]
theorem acc'_setTile_ne {t' : Nat} (h : t ≠ t') (hi : i < 32) (hj : j < 32) : (e.setTile t f).acc' t' i j = e.acc' t' i j := by
  unfold Engine.acc' Tbl.get
  rw [find_acc_setTile, if_neg (by omega)]
theorem acc'_mark (p : Bool) (t' : Nat) : (e.mark t p).acc' t' i j = e.acc' t' i j := rfl
end

/-! ### Passes (R268 to R270, R275) -/
section
variable {s : State} {core part : Nat} {e : Engine} {o : MxOp} {i j : Nat}
/-- An element of a table of 32 rows of 32. -/
theorem getD_rows {g : Nat → Nat → Nat} (hi : i < 32) (hj : j < 32) :
    ((((List.range 32).map fun i => (List.range 32).map fun j => g i j).getD i []).getD j 0) = g i j := by
  simp [List.getD, hi, hj]
theorem getD_map {α β : Type} {f : α → β} {l : List α} {b : Nat} (d : α) (d' : β) (h : b < l.length) : (l.map f).getD b d' = f (l.getD b d) := by
  simp [List.getD, h]
theorem max_one_length {α : Type} {l : List α} (h : l ≠ []) : max 1 l.length = l.length :=
  Nat.max_eq_right (List.length_pos_iff.mpr h)

theorem pass_product (hidx : o.idx = 3) (hi : i < 32) (hj : j < 32) (hne : o.groups ≠ []) (hband : i / (32 / o.groups.length) < o.groups.length) :
    let g := o.groups.getD (i / (32 / o.groups.length)) 0
    (e.pass o).acc' (cwTile o.a.toNat) i j =
      wsum (if cwClr o.a.toNat then 0 else e.acc' (cwTile o.a.toNat) i j)
        (((aSide e o g).rows.getD (i % (32 / o.groups.length)) []).zip ((bSide e o g).rows.getD j [])) % 2 ^ 32 := by
  unfold Engine.pass
  dsimp only
  rw [hidx, max_one_length hne]
  simp only
  rw [acc'_mark, acc'_setTile_same hi hj]
  refine congrArg (· % 2 ^ 32) ((getD_rows hi hj).trans ?_)
  unfold bandOf rowOf'
  dsimp only
  rw [getD_map 0 _ hband, getD_map 0 _ hband]
  rfl
theorem pass_backward (hidx : o.idx = 4) (hload : cwLoad o.a.toNat = true) (htiles : cwTile o.a.toNat ≠ cwTile2 o.a.toNat) (hi : i < 32) (hj : j < 32)
    (hne : o.groups ≠ []) (hband : i / (32 / o.groups.length) < o.groups.length) :
    let g := o.groups.getD (i / (32 / o.groups.length)) 0
    let dY := o.groups.flatMap fun k => (aSide e o k).rows
    let seg (stream : Nat) : Operand := segOperand e.base (if stream = 0 then segment 1 (o.got 0 g) else o.bSeg g 1)
    (e.pass o).acc' (cwTile o.a.toNat) i j =
      wsum (if cwClr o.a.toNat then 0 else e.acc' (cwTile o.a.toNat) i j) ((dY.getD i []).zip ((seg 1).rows.getD j [])) % 2 ^ 32 ∧
    (e.pass o).acc' (cwTile2 o.a.toNat) i j =
      wsum (if cwClr o.a.toNat then 0 else e.acc' (cwTile2 o.a.toNat) i j)
        (((seg 0).rows.getD (i % (32 / o.groups.length)) []).zip ((bSide e o g).rows.getD j [])) % 2 ^ 32 := by
  unfold Engine.pass
  dsimp only
  rw [hidx, max_one_length hne, hload]
  simp only
  constructor
  · rw [acc'_mark, acc'_setTile_ne htiles.symm hi hj, acc'_mark, acc'_setTile_same hi hj]
    refine congrArg (· % 2 ^ 32) ((getD_rows hi hj).trans ?_)
    unfold bandOf rowOf'
    dsimp only
    rw [getD_map 0 _ hband]
    rfl
  · rw [acc'_mark, acc'_setTile_same hi hj]
    refine congrArg (· % 2 ^ 32) ((getD_rows hi hj).trans ?_)
    unfold bandOf rowOf'
    dsimp only
    rw [getD_map 0 _ hband]
    rfl
theorem matrixPass_next (h : oldest (s.takeEntries core part) core part o) (hpassed : o.passed = false) (hsegs : 0 < o.segs) (hdata : o.dataDone = true) :
    ∃ t, s.matrixPass core part = t ∧ (t.engine core part).acc = (((s.takeEntries core part).engine core part).pass o).acc ∧
      oldest t core part { o with passed := true } := by
  obtain ⟨rest, hops⟩ := h
  refine ⟨_, rfl, ?_⟩
  unfold State.matrixPass oldest
  generalize s.takeEntries core part = u at hops ⊢
  dsimp only
  rw [hops]
  dsimp only
  rw [hpassed, hdata, decide_eq_true hsegs, Bool.not_false, Bool.and_self, Bool.and_self, if_pos rfl, engine_setEngine_same]
  exact ⟨rfl, rest, rfl⟩
end

/-! ### Completion (R272, R276, R277) -/
section
variable {s : State} {core part : Nat} {o : MxOp}
theorem engine_retireOp : (s.retireOp core part o).engine core part = { s.engine core part with ops := (s.engine core part).ops.drop 1 } := by
  unfold State.retireOp
  dsimp only
  rw [InstructionEncoding.foldl_keeps (State.engine · core part) (fun _ _ => engine_updGroup ..), engine_setEngine_same]
theorem matrixDone_eq (h : oldest s core part o) : s.matrixDone core part =
    match o.idx with
    | 3 | 4 | 9 => if o.passed then s.retireOp core part o else s
    | 5 => (s.setEngine core part (o.tiles.foldl (fun e t => (e.setTile t fun _ _ => 0).mark t false) (s.engine core part))).retireOp core part o
    | 6 =>
      if cwDst o.a.toNat then ((s.drainRows core part o).drainEnd core part o).retireOp core part o
      else if o.groups.zipIdx.all fun (k, b) => Tbl.get o.sent k 0 == ((s.engine core part).drainEntries 0 o b).length then
        (s.drainEnd core part o).retireOp core part o
      else s
    | 7 => (s.loadTile core part o).retireOp core part o
    | 8 => (s.configure core part o).retireOp core part o
    | _ => s := by
  obtain ⟨rest, hops⟩ := h
  unfold State.matrixDone
  dsimp only
  rw [hops] <;> rfl
theorem matrixDone_passed (h : oldest s core part o) (hidx : o.idx = 3 ∨ o.idx = 4 ∨ o.idx = 9) (hpassed : o.passed = true) :
    s.matrixDone core part = s.retireOp core part o := by
  rw [matrixDone_eq h]
  rcases hidx with hidx | hidx | hidx <;> rw [hidx] <;> exact if_pos hpassed
/-- A tile is zero, and not poisoned. -/
def Cleared (e : Engine) (k : Nat) : Prop := (∀ i j, i < 32 → j < 32 → e.acc' k i j = 0) ∧ k ∉ e.poisoned
theorem cleared_setTile (e : Engine) (t : Nat) : Cleared ((e.setTile t fun _ _ => 0).mark t false) t := by
  refine ⟨fun i j hi hj => ?_, ?_⟩
  · rw [acc'_mark, acc'_setTile_same hi hj]
    rfl
  · simp [Engine.mark]
theorem cleared_setTile_other {e : Engine} {k : Nat} (t : Nat) (h : Cleared e k) : Cleared ((e.setTile t fun _ _ => 0).mark t false) k := by
  by_cases ht : t = k
  · exact ht ▸ cleared_setTile e t
  · obtain ⟨hzero, hclean⟩ := h
    refine ⟨fun i j hi hj => ?_, ?_⟩
    · rw [acc'_mark, acc'_setTile_ne ht hi hj]
      exact hzero i j hi hj
    · exact fun hmem => hclean (List.mem_filter.mp hmem).1
theorem cleared_tiles {ts : List Nat} {e : Engine} {k : Nat} (h : k ∈ ts ∨ Cleared e k) :
    Cleared (ts.foldl (fun e t => (e.setTile t fun _ _ => 0).mark t false) e) k := by
  induction ts generalizing e with
  | nil => exact h.resolve_left List.not_mem_nil
  | cons t ts ih =>
    refine ih ?_
    rcases h with h | h
    · rcases List.mem_cons.mp h with rfl | h
      · exact .inr (cleared_setTile ..)
      · exact .inl h
    · exact .inr (cleared_setTile_other t h)
theorem matrixDone_cleared (h : oldest s core part o) (hidx : o.idx = 5) {k i j : Nat} (hk : k ∈ o.tiles) (hi : i < 32) (hj : j < 32) :
    ((s.matrixDone core part).engine core part).acc' k i j = 0 ∧ k ∉ ((s.matrixDone core part).engine core part).poisoned := by
  rw [matrixDone_eq h, hidx]
  simp only
  rw [engine_retireOp, engine_setEngine_same]
  obtain ⟨hzero, hclean⟩ := cleared_tiles (e := s.engine core part) (.inl hk)
  exact ⟨hzero i j hi hj, hclean⟩
theorem matrixDone_scratch (h : oldest s core part o) (hidx : o.idx = 6) (hdst : cwDst o.a.toNat = true) :
    s.matrixDone core part = ((s.drainRows core part o).drainEnd core part o).retireOp core part o := by
  rw [matrixDone_eq h, hidx]
  exact if_pos hdst
theorem matrixDone_delivered (h : oldest s core part o) (hidx : o.idx = 6) (hdst : cwDst o.a.toNat = false)
    (hsent : ∀ p ∈ o.groups.zipIdx, Tbl.get o.sent p.1 0 = ((s.engine core part).drainEntries 0 o p.2).length) :
    s.matrixDone core part = (s.drainEnd core part o).retireOp core part o := by
  rw [matrixDone_eq h, hidx]
  refine (if_neg ((Bool.not_eq_true _).mpr hdst)).trans ?_
  exact if_pos (List.all_eq_true.mpr fun p hp => beq_iff_eq.mpr (hsent p hp))
theorem matrixDone_load (h : oldest s core part o) (hidx : o.idx = 7) : s.matrixDone core part = (s.loadTile core part o).retireOp core part o := by
  rw [matrixDone_eq h, hidx]
  rfl
theorem matrixDone_configure (h : oldest s core part o) (hidx : o.idx = 8) : s.matrixDone core part = (s.configure core part o).retireOp core part o := by
  rw [matrixDone_eq h, hidx]
  rfl

/-! ### The failing header and the delivery of a drain (R264, R272) -/
theorem headerFailure_next {i w : Nat} (hbad : s.badHeader core part = some (i, w)) (ho : (s.engine core part).ops[i]? = some o) :
    s.headerFailure core part =
      let discarded := o.groups.foldl (fun (s : State) k => s.updGroup core k fun g => { g with mqa := g.mqa.filter (·.held), mqb := g.mqb.filter (·.held) }) s
      (discarded.record (discarded.groupRec core (o.groups.headD 0) .illegalOperand 2 0 w)).abandon core part
        (((s.engine core part).ops.drop i).filter fun x => x.idx != 8 && x.idx != 10) := by
  unfold State.headerFailure
  rw [hbad]
  dsimp only
  rw [ho]
theorem drainDeliver_next {k b : Nat} {x : VEnt} (h : oldest s core part o) (hidx : o.idx = 6) (hdst : cwDst o.a.toNat = false)
    (hroom : o.groups.zipIdx.find? (fun (k, b) =>
      decide (Tbl.get o.sent k 0 < ((s.engine core part).drainEntries 0 o b).length) && decide ((s.group core k).mqo.length < 16)) = some (k, b))
    (hx : ((s.engine core part).drainEntries (s.gridOf core k).seed.toNat o b)[Tbl.get o.sent k 0]? = some x) :
    ((s.drainDeliver core part).group core k).mqo = (s.group core k).mqo ++ [x] ∧
      oldest (s.drainDeliver core part) core part { o with sent := Tbl.put o.sent k (Tbl.get o.sent k 0 + 1) } := by
  obtain ⟨rest, hops⟩ := h
  unfold State.drainDeliver oldest
  dsimp only
  rw [hops]
  dsimp only
  rw [if_pos (by simp [hidx, hdst]), hroom]
  dsimp only
  rw [State.group_updGroup_same, group_setEngine, engine_updGroup, engine_setEngine_same, hx]
  exact ⟨rfl, rest, rfl⟩
end
end Sys2Proof.MatrixEvents
end

section
/-! PROOFS. The gradient logs and the merge engines: the record written, its fold row by row, and the retirement of a fold request (R279 to R287). -/
open Sys2Proof Sys2Proof.Machine Sys2Proof.Safety Sys2Proof.Rules
namespace Sys2Proof.MergeEvents
open Sys2Proof.MatrixEngine (engine_updGroup engine_setEngine_same)
open Sys2Proof.MatrixEvents

/-! ### What writes of memory leave alone -/
section
variable (s : State) {core part : Nat}
/-- An engine, and the merge engines. -/
def enginesOf (core part : Nat) (s : State) : Engine × Merge := (s.engine core part, s.merge)
@[simp] theorem enginesOf_dirtyLine (pa : Nat) : enginesOf core part (s.dirtyLine pa) = enginesOf core part s := by
  unfold State.dirtyLine
  split <;> rfl
theorem engine_mapGroups (f : Nat → Nat → Group → Group) : (s.mapGroups f).engine core part = s.engine core part := by
  have hengines : (s.mapGroups f |>.core core).engines = (s.core core).engines := by
    unfold State.core Tbl.get
    rw [show (s.mapGroups f).cores = Tbl.mapV s.cores (fun c k => { k with groups := Tbl.mapV k.groups fun g x => f c g x }) from rfl, Tbl.find_mapV]
    cases Tbl.find s.cores core <;> rfl
  unfold State.engine
  rw [hengines]
@[simp] theorem enginesOf_noteWrite (who : Option (Nat × Nat)) (secs : List Nat) : enginesOf core part (s.noteWrite who secs) = enginesOf core part s :=
  Prod.ext (engine_mapGroups s _) rfl
@[simp] theorem enginesOf_devWrite (who : Option (Nat × Nat)) (key pa : Nat) (bs : List Byte) (poison : Bool) :
    enginesOf core part (s.devWrite who key pa bs poison) = enginesOf core part s := by
  unfold State.devWrite
  dsimp only
  rw [enginesOf_noteWrite]
  exact (InstructionEncoding.foldl_keeps (enginesOf core part) (fun s k => enginesOf_dirtyLine s (32 * k)) _ _).trans rfl
@[simp] theorem enginesOf_touch (ctx : Nat) (write : Bool) (va : Nat) : enginesOf core part (s.touch none ctx write va) = enginesOf core part s := by
  unfold State.touch
  dsimp only
  split <;> rfl
@[simp] theorem enginesOf_devSetSlot (pa k : Nat) (v : Byte) : enginesOf core part (s.devSetSlot pa k v) = enginesOf core part s := by
  unfold State.devSetSlot
  rw [enginesOf_noteWrite, enginesOf_dirtyLine]
  rfl
@[simp] theorem enginesOf_logSector (ctx va : Nat) (bs : List Byte) (poison : Bool) :
    enginesOf core part (s.logSector ctx va bs poison) = enginesOf core part s := by
  unfold State.logSector
  dsimp only
  rw [enginesOf_devSetSlot, enginesOf_devSetSlot, enginesOf_devWrite, enginesOf_touch]
theorem merge_retireOp (o : MxOp) : (s.retireOp core part o).merge = s.merge := by
  unfold State.retireOp
  dsimp only
  rw [InstructionEncoding.foldl_keeps State.merge (fun _ _ => State.updGroup_merge ..)]
  rfl
end

/-! ### The record (R280, R286) -/
section
variable {s : State} {core part : Nat} {o : MxOp}
/-- The record's header and its sectors are written. -/
def recordWritten (s : State) (core part : Nat) (o : MxOp) : State :=
  let e := s.engine core part
  let t := cwTile o.a.toNat
  let va := recordVa (s.logDesc o.log o.logKey) o.seq
  (List.range 128).foldl (fun s k => s.logSector o.ctx (va + 32 + 32 * k) (e.tileSector t k) (e.bad t))
    (s.logSector o.ctx va (toBytesLE 32 (o.wid + o.seq * 2 ^ 32)) false)
theorem enginesOf_recordWritten : enginesOf core part (recordWritten s core part o) = enginesOf core part s := by
  unfold recordWritten
  dsimp only
  rw [InstructionEncoding.foldl_keeps (enginesOf core part) (fun _ _ => enginesOf_logSector ..), enginesOf_logSector]
/-- The tile is cleared where CLR asks it. -/
def recordCleared (s : State) (core part : Nat) (o : MxOp) : State :=
  let u := recordWritten s core part o
  if bitAt o.a.toNat 8 then u.setEngine core part ((s.engine core part).setTile (cwTile o.a.toNat) fun _ _ => 0) else u
theorem ops_recordCleared : ((recordCleared s core part o).engine core part).ops = (s.engine core part).ops := by
  unfold recordCleared
  dsimp only
  split
  · rw [engine_setEngine_same]
    rfl
  · exact congrArg (fun p : Engine × Merge => p.1.ops) enginesOf_recordWritten
/-- The record of a log that has a number is ready. -/
def readied (x : GLog) (seq : Nat) : GLog := { x with recs := x.recs.map fun (r : GRec) => if r.seq = seq then { r with ready := true } else r }
theorem ready_readied {x : GLog} {seq : Nat} {r : GRec} (hr : r ∈ (readied x seq).recs) (hseq : r.seq = seq) : r.ready = true := by
  obtain ⟨q, -, rfl⟩ := List.mem_map.mp hr
  split at hseq
  next h => rw [if_pos h]
  next h => exact absurd hseq h
theorem glappWrite_eq (h : oldest s core part o) (hidx : o.idx = 10)
    (hslot : (o.seq + 2 ^ 32 - ldGet (s.logDesc o.log o.logKey)) % 2 ^ 32 < ldNrec (s.logDesc o.log o.logKey))
    (hwait : s.engineWait o.ctx .store (recordVa (s.logDesc o.log o.logKey) o.seq) 4128 = none) : s.glappWrite core part =
    let u := recordCleared s core part o
    (u.setLog o.log (readied (u.theLog o.log o.logKey o.ctx o.va) o.seq)).retireOp core part o := by
  obtain ⟨rest, hops⟩ := h
  unfold State.glappWrite
  dsimp only
  rw [hops]
  dsimp only
  rw [if_neg (by omega), hwait]
  rfl
theorem glappRecordWrite_next (h : oldest s core part o) (hidx : o.idx = 10)
    (hslot : (o.seq + 2 ^ 32 - ldGet (s.logDesc o.log o.logKey)) % 2 ^ 32 < ldNrec (s.logDesc o.log o.logKey))
    (hwait : s.engineWait o.ctx .store (recordVa (s.logDesc o.log o.logKey) o.seq) 4128 = none) :
    ((s.glappWrite core part).engine core part).ops = (s.engine core part).ops.tail ∧
      ∃ x : GLog, Tbl.find (s.glappWrite core part).merge.logs o.log = some x ∧ ∀ r ∈ x.recs, r.seq = o.seq → r.ready = true := by
  rw [glappWrite_eq h hidx hslot hwait]
  dsimp only
  constructor
  · rw [engine_retireOp]
    exact (congrArg (List.drop 1) ops_recordCleared).trans List.drop_one
  · rw [merge_retireOp]
    exact ⟨_, Tbl.find_put_same .., fun r hr hseq => ready_readied hr hseq⟩
end

/-! ### The fold of a record (R282, R283) -/
section
variable {s : State} {pa : Nat} {x : GLog} {r : GRec} {rest : List GRec}
theorem recordWid_eq : s.recordWid pa x r = ofBytesLE (s.logRead x.ctx (recordVa (s.logDesc pa x.key) r.seq) 32).1 % 2 ^ 16 := by
  unfold State.recordWid bits
  rw [Nat.shiftRight_zero]
/-- A ready record whose bytes can be read is skipped, or goes on with its next row. -/
theorem recordFold_ready (hlog : Tbl.find s.merge.logs pa = some x) (hrecs : x.recs = r :: rest) (hready : r.ready = true)
    (hwait : s.engineWait x.ctx .load (recordVa (s.logDesc pa x.key) r.seq) 4128 = none) : s.recordFold pa =
    if ldNwt (s.logDesc pa x.key) ≤ s.recordWid pa x r then (s.record (x.fault r .recordSkipped)).foldEnd pa x else s.foldNext pa x r := by
  unfold State.recordFold
  rw [hlog]
  dsimp only
  rw [hrecs]
  dsimp only
  rw [hready, hwait]
  rfl
theorem foldNext_asked {t : Nat} (hasked : x.asked = some t)
    (hwait : s.engineWait x.ctx .store (rowVa (s.logDesc pa x.key) (s.recordWid pa x r) x.row) 192 = none) : s.foldNext pa x r =
    let row := (folded s x pa (s.logDesc pa x.key) (recordVa (s.logDesc pa x.key) r.seq) x.row (s.recordWid pa x r)).tick
    if s.now ≤ t || !s.lockFirst pa x r t then s
    else if x.row < 31 then row.setLog pa { x with row := x.row + 1, asked := some row.now }
    else (if (s.logRead x.ctx (recordVa (s.logDesc pa x.key) r.seq) 4128).2 then row.record (x.fault r .uncorrectable) else row).foldEnd pa x := by
  unfold State.foldNext
  dsimp only
  rw [hwait, hasked]
  rfl
theorem foldNext_unasked (hasked : x.asked = none)
    (hwait : s.engineWait x.ctx .store (rowVa (s.logDesc pa x.key) (s.recordWid pa x r) x.row) 192 = none) :
    s.foldNext pa x r = s.setLog pa { x with asked := some s.now } := by
  unfold State.foldNext
  dsimp only
  rw [hwait, hasked]
theorem foldEnd_next : let u := s.logField pa x.key 36 (ldGet (s.logDesc pa x.key) + 1)
    (s.foldEnd pa x).mem = u.mem ∧ Tbl.find (s.foldEnd pa x).merge.logs pa =
      if x.recs.length ≤ 1 then none else some { x with recs := x.recs.drop 1, row := 0, asked := none } := by
  intro u
  unfold State.foldEnd
  dsimp only
  split
  · exact ⟨rfl, (Tbl.find_del ..).trans (if_pos rfl)⟩
  · exact ⟨rfl, Tbl.find_put_same ..⟩
/-- Requests for the lock of a row go first in the order in which they came, and in one clock in the order of the dies (R282). -/
theorem lockFirst_order {t pb u : Nat} {y : GLog} {q : GRec} (hfirst : s.lockFirst pa x r t = true) (hy : (pb, y) ∈ s.merge.logs) (hne : pb ≠ pa)
    (hasked : y.asked = some u) (hrecs : y.recs = q :: rest) (hrow : s.rowPa pb y q = s.rowPa pa x r) :
    t < u ∨ t = u ∧ (s.logDie pa x < s.logDie pb y ∨ s.logDie pa x = s.logDie pb y ∧ pa < pb) := by
  unfold State.lockFirst at hfirst
  rw [Bool.not_eq_true', List.any_eq_false] at hfirst
  have h := hfirst _ hy
  dsimp only at h
  rw [hasked, hrecs] at h
  simp only [hrow, beq_self_eq_true, Bool.true_and, Bool.and_eq_true, bne_iff_ne, Bool.or_eq_true, decide_eq_true_eq, beq_iff_eq] at h
  omega
end

/-! ### FOLD (R282) -/
section
variable {r : MRow} {xs : List Val} {ds : List Dy}
/-- The values that are finite. -/
def finiteOf (xs : List Val) : List Dy := xs.filterMap fun v => match v with | .fin d => some d | _ => none
theorem finiteOf_map : finiteOf (ds.map Val.fin) = ds := by
  unfold finiteOf
  rw [List.filterMap_map]
  exact List.filterMap_some
theorem foldRow_eq (he : r.e ≠ 0xFF) : foldRow r xs =
    if (finiteOf xs).length ≠ xs.length then (⟨0xFF, List.replicate 32 0⟩, false)
    else match foldGrow r (finiteOf xs) 256 0 with
      | some k => (⟨r.e + k, foldSums r (finiteOf xs) k⟩, false)
      | none => (⟨r.e + (0xFE - r.e), (foldSums r (finiteOf xs) (0xFE - r.e)).map fun t => satI t (-mantMax) mantMax⟩, true) := by
  unfold foldRow
  rw [if_neg he]
  simp only [bne_iff_ne]
  rfl
theorem foldRow_nonfinite (he : r.e ≠ 0xFF) (h : ∃ v ∈ xs, v = .nan ∨ ∃ b, v = .inf b) : foldRow r xs = (⟨0xFF, List.replicate 32 0⟩, false) := by
  rw [foldRow_eq he]
  refine if_pos fun hlen => ?_
  obtain ⟨v, hv, hkind⟩ := h
  have hsome := List.filterMap_length_eq_length.mp hlen v hv
  rcases hkind with rfl | ⟨b, rfl⟩ <;> cases hsome

/-- The sum of element `j` with growth `k`, and whether every sum fits. -/
def foldSum (r : MRow) (ds : List Dy) (k j : Nat) : Int :=
  roundInt (Dy.ofInt (r.m.getD j 0) 0) k + roundInt (ds.getD j (Dy.zero false)) ((r.e + k : Nat) - 165 : Int)
def foldFits (r : MRow) (ds : List Dy) (k : Nat) : Prop := r.e + k ≤ 0xFE ∧ ∀ j < 32, (foldSum r ds k j).natAbs < 2 ^ 39
section
variable (hm : r.m.length = 32) (hds : ds.length = 32)
include hm hds
theorem foldSums_eq (k : Nat) : foldSums r ds k = (List.range 32).map (foldSum r ds k) := by
  unfold foldSums foldSum
  apply List.ext_getElem
  · simp [hm, hds]
  · intro j hj hj'
    have hlt : j < 32 := by simpa using hj'
    simp [List.getD, hm, hds, hlt]
theorem fits_iff (k : Nat) : (r.e + k ≤ 0xFE ∧ (foldSums r ds k).all (fun t => decide (t.natAbs < 2 ^ 39)) = true) ↔ foldFits r ds k := by
  rw [foldSums_eq hm hds, List.all_eq_true]
  unfold foldFits
  simp
theorem foldGrow_least {n k k₀ : Nat} (hfits : foldFits r ds k) (hleast : ∀ k' < k, ¬ foldFits r ds k') (hstart : k₀ ≤ k) (hfuel : k < k₀ + n) :
    foldGrow r ds n k₀ = some k := by
  induction n generalizing k₀ with
  | zero => omega
  | succ n ih =>
    unfold foldGrow
    rw [if_neg (by have := hfits.1; omega)]
    by_cases hk : k₀ = k
    · subst hk
      exact if_pos ((fits_iff hm hds k₀).mpr hfits).2
    · rw [if_neg fun hall => hleast k₀ (by omega) ((fits_iff hm hds k₀).mp ⟨by have := hfits.1; omega, hall⟩)]
      exact ih (by omega) (by omega)
theorem foldGrow_none (hnever : ∀ k, ¬ foldFits r ds k) (n k₀ : Nat) : foldGrow r ds n k₀ = none := by
  induction n generalizing k₀ with
  | zero => rfl
  | succ n ih =>
    unfold foldGrow
    split
    · rfl
    next hle =>
      rw [if_neg fun hall => hnever k₀ ((fits_iff hm hds k₀).mp ⟨by omega, hall⟩)]
      exact ih _
theorem foldRow_fits (he : r.e < 0xFF) {k : Nat} (hfits : foldFits r ds k) (hleast : ∀ k' < k, ¬ foldFits r ds k') :
    foldRow r (ds.map Val.fin) = (⟨r.e + k, (List.range 32).map (foldSum r ds k)⟩, false) := by
  have hgrow : foldGrow r ds 256 0 = some k := foldGrow_least hm hds hfits hleast (Nat.zero_le k) (by have := hfits.1; omega)
  rw [foldRow_eq (by omega), finiteOf_map, if_neg (by simp), hgrow]
  dsimp only
  rw [foldSums_eq hm hds]
omit hm hds in
theorem satI_mant (t : Int) : satI t (-mantMax) mantMax = max (1 - 2 ^ 39) (min t (2 ^ 39 - 1)) := by
  unfold satI mantMax
  grind
theorem foldRow_saturates (he : r.e < 0xFF) (hnever : ∀ k, ¬ foldFits r ds k) : foldRow r (ds.map Val.fin) =
    (⟨0xFE, (List.range 32).map fun j => max (1 - 2 ^ 39) (min (foldSum r ds (0xFE - r.e) j) (2 ^ 39 - 1))⟩, true) := by
  rw [foldRow_eq (by omega), finiteOf_map, if_neg (by simp), foldGrow_none hm hds hnever]
  dsimp only
  rw [foldSums_eq hm hds, List.map_map, show r.e + (0xFE - r.e) = 0xFE by omega]
  simp only [Function.comp_def, satI_mant]
end
end

/-! ### The retirement of a fold request (R287) -/
section
variable {s : State} {k : Nat} {f : Fold}
/-- The request is over. -/
def unfolding (s : State) (k : Nat) : State := { s with merge := { s.merge with folds := Tbl.del s.merge.folds k } }
/-- Its arrival, on the mooring that it named. -/
def foldArrival (s : State) (f : Fold) : Retire :=
  { kind := 1, core := some (s.scrPlace f.team f.va.toNat).1, addr := (s.scrPlace f.team f.va.toNat).2, va := f.va }
theorem glfoldDone_eq (hf : Tbl.find s.merge.folds k = some f) (hready : s.foldReady f = true) (hsuspended : (s.team f.team).st ≠ .suspended)
    (hhalted : (s.team f.team).st ≠ .halted) (hregion : (s.team f.team).scrLen ≠ 0) : s.glfoldDone k =
    let u := (unfolding s k).arrive (foldArrival s f)
    match (u.mooring (foldArrival s f)).ret 1 0 with
    | some m => (u.dropRows (s.scrPlace f.team f.va.toNat).1 f).moorPut none (foldArrival s f) m
    | none => (u.record
      { cause := .mooringMisuse, src := 5, ctx := f.ctx, core := f.core, gslot := f.gslot, team := (s.team f.team).idx, addr := f.va }).tick := by
  unfold State.glfoldDone
  rw [hf]
  dsimp only
  rw [if_neg (by simp [hready, hsuspended, hhalted]), if_neg hregion]
  rfl
end

/-- Settles O57: the acceptance by what `jointIssue` passes where the words agree and the headers are good, a pass by the tiles it writes, the
record by what it leaves of the engine and of the log, and a fold by the least growth that fits. -/
theorem engineEvents : Obligations.EngineEvents := by
  intro s core part
  have hnext {t t' : State} (h : t = t') : (Host.Outcome.next t : Sys2Proof.Machine.Outcome) = .next t' := congrArg Host.Outcome.next h
  refine ⟨?tiles, ?drain, ?streamBusy, ?streams, fun o h hpassed hsegs hdata => ?pass, fun e o i j => pass_product, fun e o i j => pass_backward, ?completion,
    fun i w o hbad ho => hnext (headerFailure_next hbad ho), ?delivery, ?written, ?fold, fun pa x => foldEnd_next,
    fun pa x r t pb y q rest u => lockFirst_order, ?row, ?retired⟩
  case tiles =>
    intro w u h hidx
    have hnone : streamsIdx w.idx = false ∧ countedIdx w.idx = false ∧ (w.idx == 4) = false := by
      rcases hidx with hidx | hidx | hidx <;> rw [hidx] <;> decide
    obtain ⟨hstreams, hcounted, hfour⟩ := hnone
    obtain ⟨o, ho, hissue⟩ := jointIssue_accepts (s := s) rfl h (fun e => absurd (hstreams.symm.trans e) Bool.false_ne_true)
      (fun e => absurd (hcounted.symm.trans e) Bool.false_ne_true) (by rw [hfour]; rfl)
    exact ⟨_, hnext hissue, accepted_acceptJointly h ho⟩
  case drain =>
    intro w u h hidx hroom
    obtain ⟨o, ho, hissue⟩ := jointIssue_accepts (s := s) rfl h (by rw [hidx]; exact fun e => nomatch e)
      (fun _ => noneFull hroom) (by rw [hidx]; rfl)
    exact ⟨_, hnext hissue, accepted_acceptJointly h ho⟩
  case streamBusy =>
    intro w u h hidx htakes
    exact hnext (jointIssue_taken rfl h (by unfold streamsIdx; simpa [or_assoc] using hidx) (taken_iff.mpr htakes))
  case streams =>
    intro w A B u h hidx hroom hheads hfree lead n hagree hgood hnodup
    have ⟨hne, _⟩ := h
    have hstreams : streamsIdx w.idx = true := by unfold streamsIdx; grind
    have hfree' : taken u core part = false := by
      rw [← Bool.not_eq_true, taken_iff]
      rintro ⟨k, hk, st, hst, htakes⟩
      exact hfree k hk st hst htakes
    obtain ⟨o, ho, hissue⟩ := jointIssue_accepts (s := s) rfl h
      (fun _ => ⟨hfree', heads_present hheads, sameHeaders_of hheads hne hagree, badHeaders_of hheads hne hnodup hgood⟩)
      (fun hcounted => noneFull (hroom fun h9 => by rw [h9] at hcounted; cases hcounted)) (dY_of hidx)
    have hgroups : o.groups = u.convened core part := by
      obtain ⟨-, -, -, -, hgroups, -⟩ := ho
      exact hgroups
    rw [hstreams] at hissue
    exact ⟨_, hnext hissue, accepted_acceptJointly h ho, fun k hk => mqs_acceptJointly (hgroups ▸ hnodup) (hgroups ▸ hk)⟩
  case pass =>
    obtain ⟨t, ht, hacc, hold⟩ := matrixPass_next h hpassed hsegs hdata
    exact ⟨t, hnext ht, hacc, hold⟩
  case completion =>
    intro o h
    exact ⟨fun hidx hpassed => hnext (matrixDone_passed h hidx hpassed),
      fun hidx => ⟨_, rfl, fun k i j hk hi hj => matrixDone_cleared h hidx hk hi hj⟩, fun hidx hdst => hnext (matrixDone_scratch h hidx hdst),
      fun hidx hdst hsent => hnext (matrixDone_delivered h hidx hdst hsent), fun hidx => hnext (matrixDone_load h hidx),
      fun hidx => hnext (matrixDone_configure h hidx), (congrArg Engine.ops engine_retireOp).trans List.drop_one⟩
  case delivery => exact fun o k b x h hidx hdst hroom hx => ⟨_, rfl, drainDeliver_next h hidx hdst hroom hx⟩
  case written => exact fun o h hidx hslot hwait => ⟨_, rfl, glappRecordWrite_next h hidx hslot hwait⟩
  case fold =>
    intro pa x r rest hlog hrecs hready d va wid row hwait
    have hwid : s.recordWid pa x r = wid := recordWid_eq
    have hfold := recordFold_ready hlog hrecs hready hwait
    refine ⟨fun hskip => hnext (hfold.trans (if_pos (hwid.symm ▸ hskip))), fun hlt hstore => ?_⟩
    replace hfold := hfold.trans (if_neg (Nat.not_le.mpr (hwid.symm ▸ hlt)))
    rw [← hwid] at hstore
    refine ⟨fun hasked => hnext (hfold.trans (foldNext_unasked hasked hstore)), fun t hasked => ?_⟩
    replace hfold := hfold.trans (foldNext_asked hasked hstore)
    dsimp only at hfold
    rw [hwid] at hfold
    refine ⟨fun hearly => hnext (hfold.trans (if_pos (by simp [hearly]))), fun hlate hfirst hmore => ?_, fun hlate hfirst hlast => ?_⟩
    · exact hnext (hfold.trans ((if_neg (by simp [hfirst, Nat.not_le.mpr hlate])).trans (if_pos hmore)))
    · exact hnext (hfold.trans ((if_neg (by simp [hfirst, Nat.not_le.mpr hlate])).trans (if_neg (Nat.not_lt.mpr hlast))))
  case row =>
    intro r xs ds hm hxs
    refine ⟨fun he => if_pos he, foldRow_nonfinite, ?_⟩
    intro hfin he sum fits
    obtain rfl : xs = ds.map Val.fin := hfin
    have hds : ds.length = 32 := by simpa using hxs
    exact ⟨fun k hfits hleast => foldRow_fits hm hds he hfits hleast, fun hnever => foldRow_saturates hm hds he hnever⟩
  case retired =>
    intro k f hf hready hsuspended hhalted hregion p r u
    have hdone := glfoldDone_eq hf hready hsuspended hhalted hregion
    refine ⟨fun m hm => hnext (hdone.trans ?_), fun hm => hnext (hdone.trans ?_)⟩
    · dsimp only
      rw [show (((unfolding s k).arrive (foldArrival s f)).mooring (foldArrival s f)).ret 1 0 = some m from hm]
      rfl
    · dsimp only
      rw [show (((unfolding s k).arrive (foldArrival s f)).mooring (foldArrival s f)).ret 1 0 = none from hm]
      rfl
end Sys2Proof.MergeEvents
end

section
/-! PROOFS. The Lantern: the doorbell, the packets of a queue, their rejection, and the dispatchers (R288 to R305, R345, R383). -/
open Sys2Proof Sys2Proof.Machine Sys2Proof.Safety Sys2Proof.Rules
namespace Sys2Proof.LanternQueues

/-! ### Reading a packet sets marks alone (R221) -/
/-- Memory is all that differs. -/
def MemoryAlone (s t : State) : Prop := t = { s with mem := t.mem }
namespace MemoryAlone
variable {s t u : State}
theorem trans (hst : MemoryAlone s t) (htu : MemoryAlone t u) : MemoryAlone s u := by
  unfold MemoryAlone at *
  rw [hst] at htu
  exact htu
theorem touch (ctx : Nat) (write : Bool) (va : Nat) : MemoryAlone s (s.touch none ctx write va) := by
  unfold State.touch
  dsimp only
  split <;> rfl
theorem readMark (ctx : Nat) (n : Need) (va len : Nat) : MemoryAlone s (s.readMark ctx n va len) := by
  unfold State.readMark State.touchRange
  split
  · rfl
  · split
    · rfl
    · exact (touch ..).trans (touch ..)
theorem inputMarks (ctx n a : Nat) : MemoryAlone s (s.inputMarks ctx n a) := by
  induction n generalizing s a with
  | zero => rfl
  | succ n ih =>
    unfold State.inputMarks
    split
    · exact (readMark ..).trans (ih _)
    · exact readMark ..
theorem recordMarks (ctx a : Nat) : MemoryAlone s (s.recordMarks ctx a) := by
  unfold State.recordMarks
  dsimp only
  split
  · exact readMark ..
  · exact (readMark ..).trans (inputMarks ..)
theorem collMarks (ctx : Nat) (desc : DWord) : MemoryAlone s (s.collMarks ctx desc) := by
  unfold State.collMarks
  dsimp only
  split
  · exact readMark ..
  · exact (readMark ..).trans <| (readMark ..).trans <| (readMark ..).trans <| (readMark ..).trans <| (readMark ..).trans (readMark ..)
theorem pktMarks (q : Nat) : MemoryAlone s (s.pktMarks q) := by
  unfold State.pktMarks
  dsimp only
  split
  · exact readMark ..
  · split
    · split
      · exact ((readMark ..).trans (recordMarks ..)).trans (collMarks ..)
      · exact (readMark ..).trans (recordMarks ..)
    · exact (readMark ..).trans (collMarks ..)
    · exact readMark ..
end MemoryAlone

/-! ### Queues -/
section
variable (s : State) (q : Nat)
@[simp] theorem queue_setQueue_same (x : Queue) : (s.setQueue q x).queue q = x := Tbl.get_put_same ..
theorem queue_setQueue_ne {k : Nat} (x : Queue) (h : k ≠ q) : (s.setQueue q x).queue k = s.queue k := Tbl.get_put_ne h.symm
@[simp] theorem queue_startPkt_same (ws : List DWord) : (s.startPkt q ws).queue q =
    { s.queue q with rptr := (s.queue q).rptr + 1, pkt := { started := true, words := ws, since := s.now } } := queue_setQueue_same ..
@[simp] theorem queue_endPkt_same : (s.endPkt q).queue q = { s.queue q with cptr := (s.queue q).cptr + 1, pkt := {} } := queue_setQueue_same ..
@[simp] theorem queue_updPkt_same (f : PktSt → PktSt) : (s.updPkt q f).queue q = { s.queue q with pkt := f (s.queue q).pkt } := queue_setQueue_same ..
@[simp] theorem queue_toHost (kind addr : Nat) (bs : List Byte) : (s.toHost kind addr bs).queue q = s.queue q := by
  unfold State.toHost
  split <;> rfl
@[simp] theorem queue_record (r : FRec) : (s.record r).queue q = s.queue q := by
  unfold State.record State.keepLog
  split
  · rfl
  · exact queue_toHost ..
@[simp] theorem queue_pktMarks (k : Nat) : (s.pktMarks q).queue k = s.queue k := by
  rw [MemoryAlone.pktMarks (s := s) q]
  rfl
theorem lantern_pktMarks : (s.pktMarks q).lantern = s.lantern := by rw [MemoryAlone.pktMarks (s := s) q]
theorem ctx_pktMarks (k : Nat) : (s.pktMarks q).ctx k = s.ctx k := by
  rw [MemoryAlone.pktMarks (s := s) q]
  rfl
theorem queue_rejectAt (code : Nat) (a : DWord) :
    (s.rejectAt q code a false).queue q = { s.queue q with err := true, en := false, ecode := BitVec.ofNat 16 code } := by
  unfold State.rejectAt
  exact (queue_record ..).trans (queue_setQueue_same ..)
theorem queue_rejectQueue (code : Nat) (hwaiting : (s.queue q).pkt.started = false) :
    (s.rejectQueue q code).queue q = { s.queue q with err := true, en := false, ecode := BitVec.ofNat 16 code, pkt := {} } := by
  unfold State.rejectQueue State.rejectAt
  refine (queue_record ..).trans ((queue_setQueue_same ..).trans ?_)
  simp [hwaiting]
theorem doorbell_next (w : BitVec 32) (hq : q < 64) (hlink : s.keeper.cxlDown = false) :
    s.ring q w = s.setQueue q { s.queue q with wptr := w } := by
  unfold State.ring
  exact if_neg (by simp [hlink, hq])
end

/-! ### Asking for a layer leaves the queues alone -/
section
/-- The Lantern's queues. -/
def queuesOf (s : State) : Tbl Queue := s.lantern.queues
@[simp] theorem queuesOf_dirtyLine (s : State) (pa : Nat) : queuesOf (s.dirtyLine pa) = queuesOf s := by
  unfold State.dirtyLine
  split <;> rfl
@[simp] theorem queuesOf_noteWrite (s : State) (who : Option (Nat × Nat)) (secs : List Nat) : queuesOf (s.noteWrite who secs) = queuesOf s := rfl
@[simp] theorem queuesOf_devWrite (s : State) (who : Option (Nat × Nat)) (key pa : Nat) (bs : List Byte) (poison : Bool) :
    queuesOf (s.devWrite who key pa bs poison) = queuesOf s := by
  unfold State.devWrite
  dsimp only
  rw [queuesOf_noteWrite]
  exact (InstructionEncoding.foldl_keeps queuesOf (fun s k => queuesOf_dirtyLine s (32 * k)) _ _).trans rfl
@[simp] theorem queuesOf_touch (s : State) (ctx : Nat) (write : Bool) (va : Nat) : queuesOf (s.touch none ctx write va) = queuesOf s := by
  rw [MemoryAlone.touch (s := s) ctx write va]
  rfl
@[simp] theorem queuesOf_tmSet (s : State) (ctx layer st : Nat) : queuesOf (s.tmSet ctx layer st) = queuesOf s := by
  unfold State.tmSet State.setTopmark
  dsimp only
  split
  · rw [queuesOf_devWrite, queuesOf_touch]
  · rfl
theorem queuesOf_takeFrame {s t : State} {big : Bool} {f : Nat} (h : s.takeFrame big = some (f, t)) : queuesOf t = queuesOf s := by
  unfold State.takeFrame at h
  obtain ⟨k, -, hk⟩ := Option.map_eq_some_iff.mp h
  cases hk
  rfl
theorem queuesOf_takeFrames {ps : List (Nat × Bool)} {s t : State} {fs : List Nat} (h : s.takeFrames ps = some (fs, t)) : queuesOf t = queuesOf s := by
  induction ps generalizing s t fs with
  | nil => cases h; rfl
  | cons p ps ih =>
    unfold State.takeFrames at h
    split at h
    · cases h
    next f u hu =>
      obtain ⟨⟨gs, v⟩, hv, e⟩ := Option.map_eq_some_iff.mp h
      cases e
      rw [ih hv, queuesOf_takeFrame hu]
theorem queuesOf_mapAt {va lv table : Nat} {leaf : Option Nat} {big : Bool} {s t : State} (h : s.mapAt va leaf big lv table = some t) :
    queuesOf t = queuesOf s := by
  induction lv generalizing s table with
  | zero => cases h; rfl
  | succ lv ih =>
    unfold State.mapAt at h
    dsimp only at h
    split at h
    · cases h
      split
      · rw [queuesOf_devWrite]
      · rfl
    · split at h
      · exact ih h
      · split at h
        · cases h
        next f u hu =>
          rw [ih h, queuesOf_devWrite]
          exact show queuesOf u = queuesOf s from queuesOf_takeFrame hu
theorem queuesOf_takeTables {ctx : Nat} {ps : List (Nat × Bool)} {s t : State} (h : s.takeTables ctx ps = some t) : queuesOf t = queuesOf s := by
  induction ps generalizing s with
  | nil => cases h; rfl
  | cons p ps ih =>
    obtain ⟨u, hu, ht⟩ := Option.bind_eq_some_iff.mp h
    rw [ih ht, queuesOf_mapAt hu]
@[simp] theorem queuesOf_requestLayer (s : State) (ctx layer : Nat) : queuesOf (s.requestLayer ctx layer) = queuesOf s := by
  unfold State.requestLayer
  dsimp only
  split
  · rfl
  · split
    · rfl
    next fs u hu =>
      obtain ⟨⟨gs, v⟩, hv, hw⟩ := Option.bind_eq_some_iff.mp hu
      obtain ⟨w, hw, e⟩ := Option.map_eq_some_iff.mp hw
      cases e
      rw [queuesOf_tmSet]
      exact (queuesOf_takeTables hw).trans (queuesOf_takeFrames hv)
theorem queue_requestLayers (s : State) (q ctx : Nat) (ls : List Nat) : (ls.foldl (fun s l => s.requestLayer ctx l) s).queue q = s.queue q := by
  unfold State.queue
  exact congrArg (Tbl.get · q {}) (InstructionEncoding.foldl_keeps queuesOf (fun s l => queuesOf_requestLayer s ctx l) ..)
end

/-! ### Serving a queue (R289) -/
section
variable {s : State} {q type : Nat} {act : Option Nat}
theorem type_of_starts (h : starts s q type) : pktType (s.pktWords q) = type := by
  obtain ⟨-, -, -, -, htype⟩ := h
  exact htype
/-- What the start of a packet asks of its queue. -/
theorem startable_queue (h : s.startable q = true) : (s.queue q).en = true ∧ (s.queue q).err = false ∧ (s.queue q).pkt.started = false := by
  unfold State.startable at h
  simp only [Bool.and_eq_true, Bool.not_eq_true'] at h
  obtain ⟨⟨⟨⟨⟨hen, herr⟩, hst⟩, -⟩, -⟩, -⟩ := h
  exact ⟨hen, herr, hst⟩
/-- The Lantern looks at the next packet of a queue that may start. -/
theorem serve_startable (hserving : s.serving = true) (h : s.startable q = true) : s.serve q type act =
    match s.pktCheck q with
    | .bad c => if s.nextQueue == some q && (c == 3 || pktKind (s.pktWords q) type act) then (s.pktMarks q).rejectQueue q c else s
    | .wait l =>
      if !pktKind (s.pktWords q) type act then s
      else match l with
        | some l => ((s.pktMarks q).updPkt q fun _ => {}).requestLayer (s.queue q).ctx.toNat l
        | none => (s.pktMarks q).updPkt q fun _ => {}
    | .full => if pktKind (s.pktWords q) type act && (s.queue q).pkt.words.isEmpty then
        (s.pktMarks q).updPkt q fun _ => { words := s.pktWords q, since := s.now } else s
    | .go => if s.nextQueue == some q && pktKind (s.pktWords q) type act then
        (let s := (s.pktMarks q).performPkt q (s.pktWords q)
         if type = 5 || type = 6 then (if (s.queue q).pkt.started then s.resumePkt q else s) else s)
      else s := by
  obtain ⟨hen, herr, hst⟩ := startable_queue h
  unfold State.serve
  simp only [hserving, hen, herr, hst, h]
  rfl
theorem pktKind_of_type {ws : List DWord} (h : pktType ws = type) (hact : act = none ∨ act = some (actionOf ws)) :
    pktKind ws type act = true := by
  unfold pktKind
  rcases hact with rfl | rfl
  · simp [h]
  · simp [h, actionOf]
theorem serve_starts (h : starts s q type) (hact : act = none ∨ act = some (actionOf (s.pktWords q))) : s.serve q type act =
    let t := (s.pktMarks q).performPkt q (s.pktWords q)
    if type = 5 ∨ type = 6 then (if (t.queue q).pkt.started then t.resumePkt q else t) else t := by
  obtain ⟨hserving, hstartable, hnext, hcheck, hkind⟩ := h
  rw [serve_startable hserving hstartable, hcheck]
  dsimp only
  rw [pktKind_of_type hkind hact, hnext]
  simp
theorem serve_inService (h : inService s q type) (hact : act = none ∨ act = some (actionOf (s.queue q).pkt.words)) :
    s.serve q type act = s.resumePkt q := by
  obtain ⟨hserving, hen, herr, hst, hkind⟩ := h
  unfold State.serve
  simp only [hserving, hen, herr, hst, pktKind_of_type hkind hact]
  rfl
theorem serve_rejects {c : Nat} (hserving : s.serving = true) (hstartable : s.startable q = true) (hnext : s.nextQueue = some q)
    (hcheck : s.pktCheck q = .bad c) (hmet : c = 3 ∨ pktKind (s.pktWords q) type act = true) :
    s.serve q type act = (s.pktMarks q).rejectQueue q c := by
  rw [serve_startable hserving hstartable, hcheck]
  refine if_pos ?_
  rw [hnext]
  simpa using hmet
theorem exec_packetEvent {i : Instr} (h : isPacketEvent q i type act) : Sys2Proof.Machine.exec i s = .next (s.serve q type act) := by
  unfold isPacketEvent at h
  simp only [List.mem_cons, Prod.mk.injEq, List.not_mem_nil, or_false] at h
  rcases h with ⟨rfl, rfl, rfl⟩ | ⟨rfl, rfl, rfl⟩ | ⟨rfl, rfl, rfl⟩ | ⟨rfl, rfl, rfl⟩ | ⟨rfl, rfl, rfl⟩ | ⟨rfl, rfl, rfl⟩ | ⟨rfl, rfl, rfl⟩ |
    ⟨rfl, rfl, rfl⟩ | ⟨rfl, rfl, rfl⟩ | ⟨rfl, rfl, rfl⟩ <;> rfl

/-! ### What starting a packet does (R290, R291, R345) -/
section
variable {ws : List DWord}
theorem performPkt_nop (h : pktType ws = 0) : s.performPkt q ws = (s.startPkt q ws).endPkt q := by
  unfold State.performPkt
  rw [h]
  rfl
theorem performPkt_launch (h : pktType ws = 1) : s.performPkt q ws = s.acceptLaunch q ws := by
  unfold State.performPkt
  rw [h]
  rfl
theorem performPkt_coll (h : pktType ws = 2) : s.performPkt q ws =
    let c := (s.startPkt q ws).collStart (s.queue q).ctx.toNat q (ws.getD 1 0) none (s.ctx (s.queue q).ctx.toNat).seed.toNat true
    c.2.updPkt q fun p => { p with inst := some c.1 } := by
  unfold State.performPkt
  rw [h]
  rfl
theorem performPkt_waitmem (h : pktType ws = 3) : s.performPkt q ws = (s.startPkt q ws).waitRead q := by
  unfold State.performPkt
  rw [h]
  rfl
theorem performPkt_signalmem (h : pktType ws = 4) : s.performPkt q ws =
    let u := s.startPkt q ws
    let ctx := (s.queue q).ctx.toNat
    let a := pw ws 1
    let v := if (pw ws 0).testBit 16 then (u.vget ctx a 8 + pw ws 2) % 2 ^ 64 else pw ws 2
    ((((u.touch none ctx true a).devWrite none (u.pa none ctx .store a).2 (u.pa none ctx .store a).1 (toBytesLE 8 v) false).tellHost 1 ctx a
      (toBytesLE 8 v)).endPkt q) := by
  unfold State.performPkt
  rw [h]
  rfl
/-- A MODEL packet starts and remembers its layers. -/
def modelBegun (s : State) (q : Nat) (ws : List DWord) : State :=
  (s.startPkt q ws).updPkt q fun p => { p with snapshot := epochs s (s.queue q).ctx.toNat ws }
theorem performPkt_model (h : pktType ws = 5) : s.performPkt q ws =
    let u := modelBegun s q ws
    let ctx := (s.queue q).ctx.toNat
    if actionOf ws = 0 then (layersOf ws).foldl (fun s l => s.requestLayer ctx l) u
    else if actionOf ws = 1 then u
    else ((layersOf ws).foldl (fun s l => s.tmPinBy ctx l (actionOf ws == 2)) u).endPkt q := by
  unfold State.performPkt
  rw [h]
  rfl
theorem performPkt_qbarrier (h : pktType ws = 6) : s.performPkt q ws = (s.startPkt q ws).updPkt q fun p =>
    { p with snapshot := ((List.range 64).filter fun k => (pw ws 1).testBit k).map fun k => (k, (s.queue k).rptr) } := by
  unfold State.performPkt
  rw [h]
  rfl
end

/-! ### The grid that a LAUNCH registers -/
section
variable {ctx : Nat} {ws : List DWord}
/-- The grid that a LAUNCH registers (R291, R295). -/
def launchGrid (s : State) (q : Nat) (ws : List DWord) : Grid :=
  let x := s.queue q
  let ctx := x.ctx.toNat
  let r := s.vget ctx (pw ws 1) 32
  let g := recGrid ctx (ws.getD 1 0) r ((s.inputsOf ctx r).getD []) x.prio.toNat q none (ws.getD 2 0) (s.ctx ctx).seed
  { g with signal := ws.getD 3 0, sigVal := ws.getD 4 0, coll := if pktAtt ws then some (ws.getD 5 0) else none, pkt := s.pktAddr q }
theorem registerGrid_fst (g : Grid) : (s.registerGrid g).1 = s.lantern.nextGrid := rfl
theorem acceptLaunch_eq : s.acceptLaunch q ws =
    let u := ((s.startPkt q ws).registerGrid (launchGrid s q ws)).2
    if pktAsync ws then u.endPkt q else u.updPkt q fun p => { p with grid := some s.lantern.nextGrid } := by
  unfold State.acceptLaunch launchGrid
  extract_lets x ctx r g0 g s1 u
  have hfst : (s1.registerGrid g).1 = s.lantern.nextGrid := registerGrid_fst g
  have hu : u = (s1.registerGrid g).2 := rfl
  clear_value u s1 g
  rw [hu, ← hfst]
/-- The packets of a queue look at memory; the rest of the state reads as before it was read. -/
theorem launchGrid_memory {m : State} (hm : MemoryAlone s m) : launchGrid m q ws =
    let ctx := (s.queue q).ctx.toNat
    let r := m.vget ctx (pw ws 1) 32
    let g := recGrid ctx (ws.getD 1 0) r ((m.inputsOf ctx r).getD []) (s.queue q).prio.toNat q none (ws.getD 2 0) (s.ctx ctx).seed
    { g with signal := ws.getD 3 0, sigVal := ws.getD 4 0, coll := if pktAtt ws then some (ws.getD 5 0) else none, pkt := s.pktAddr q } := by
  have hqueue : m.queue q = s.queue q := congrArg (·.queue q) hm
  have hctx (c : Nat) : m.ctx c = s.ctx c := congrArg (·.ctx c) hm
  have haddr : m.pktAddr q = s.pktAddr q := congrArg (·.pktAddr q) hm
  unfold launchGrid
  rw [hqueue, haddr]
  dsimp only
  rw [hctx]
end

/-! ### The check that waits for the work table (R292, R308) -/
/-- A check that never waits for room in the work table. -/
def neverFull : PktCheck → Bool
  | .full => false
  | _ => true
theorem neverFull_firstCheck {xs : List PktCheck} (h : ∀ x ∈ xs, neverFull x = true) : neverFull (firstCheck xs) = true := by
  unfold firstCheck
  cases hfind : xs.find? (· != .go) with
  | none => rfl
  | some x => exact h x (List.mem_of_find?_eq_some hfind)
theorem neverFull_need (ok : Bool) (code : Nat) : neverFull (need ok code) = true := by
  unfold need
  split <;> rfl
theorem neverFull_pktRange (ctx : Nat) (n : Need) (va len : Nat) : neverFull (s.pktRange ctx n va len) = true := by
  unfold State.pktRange
  split
  · rfl
  · rfl
  · split <;> rfl
  · rfl
theorem neverFull_collRange (ctx : Nat) (n : Need) (va len : Nat) : neverFull (s.collRange ctx n va len) = true := by
  unfold State.collRange
  split
  · rfl
  · exact neverFull_pktRange ..
theorem neverFull_collCheck (ctx : Nat) (desc : DWord) : neverFull (s.collCheck ctx desc) = true := by
  have hgo : neverFull .go = true := rfl
  have hbad (c : Nat) : neverFull (.bad c) = true := rfl
  unfold State.collCheck
  split
  · extract_lets d ln mesh
    clear_value d
    split
    · exact hbad _
    · split
      · split
        · split
          · split
            · exact hbad _
            · refine neverFull_firstCheck fun x hx => ?_
              simp only [List.mem_append, List.mem_cons, List.not_mem_nil, or_false, List.mem_map] at hx
              rcases hx with ((rfl | rfl | rfl) | hx) | ⟨k, -, rfl⟩
              · exact neverFull_collRange ..
              · exact neverFull_collRange ..
              · exact neverFull_collRange ..
              · split at hx
                · cases hx
                · exact List.mem_singleton.mp hx ▸ neverFull_collRange ..
              · split
                · exact hgo
                · exact neverFull_collRange ..
          · exact hbad _
        · refine neverFull_firstCheck fun x hx => ?_
          simp only [List.mem_cons, List.not_mem_nil, or_false] at hx
          rcases hx with rfl | rfl | rfl <;> exact neverFull_collRange ..
      · refine neverFull_firstCheck fun x hx => ?_
        simp only [List.mem_cons, List.not_mem_nil, or_false] at hx
        rcases hx with rfl | rfl <;> exact neverFull_collRange ..
  · exact neverFull_collRange ..
theorem neverFull_recordCheck (ctx a : Nat) : neverFull (s.recordCheck ctx a) = true := by
  unfold State.recordCheck
  split
  · refine neverFull_firstCheck fun x hx => ?_
    simp only [List.mem_cons, List.not_mem_nil, or_false] at hx
    rcases hx with rfl | rfl | rfl | rfl
    · exact neverFull_need ..
    · exact neverFull_need ..
    · exact neverFull_need ..
    · split
      · rfl
      · split
        · rfl
        · split
          · exact neverFull_pktRange ..
          · exact neverFull_need ..
  · exact neverFull_pktRange ..
/-- The checks of a LAUNCH, the last of them of the work table. -/
theorem neverFull_launchCheck {c : PktCheck} (hroom : neverFull c = true) (ctx : Nat) (ws : List DWord) :
    neverFull (firstCheck [s.recordCheck ctx (pw ws 1), if pktAtt ws then s.collCheck ctx (ws.getD 5 0) else .go,
      s.pktRange ctx .store (pw ws 2) 16, if pw ws 3 = 0 then .go else s.pktRange ctx .store (pw ws 3) 8,
      c]) = true := by
  refine neverFull_firstCheck fun x hx => ?_
  simp only [List.mem_cons, List.not_mem_nil, or_false] at hx
  rcases hx with rfl | rfl | rfl | rfl | rfl
  · exact neverFull_recordCheck ..
  · split
    · exact neverFull_collCheck ..
    · rfl
  · exact neverFull_pktRange ..
  · split
    · rfl
    · exact neverFull_pktRange ..
  · exact hroom
/-- Only a LAUNCH waits for the work table, and it does where the table is full. -/
theorem workTable_of_full (h : s.pktCheck q = .full) : 4096 ≤ s.workTable := by
  by_contra hroom
  have hfull : neverFull (s.pktCheck q) = false := by rw [h]; rfl
  refine absurd hfull (Bool.not_eq_false _ |>.mpr ?_)
  have hgo : neverFull .go = true := rfl
  have hbad (c : Nat) : neverFull (.bad c) = true := rfl
  unfold State.pktCheck
  extract_lets x ctx va ring ws act ls
  have hring : neverFull ring = true := by
    dsimp only [ring]
    split
    · exact neverFull_need ..
    · exact neverFull_pktRange ..
  clear_value ring act ls ws ctx va
  split
  · exact hbad _
  · split
    · split
      · exact hbad _
      · split
        · exact hbad _
        · split
          · exact neverFull_launchCheck rfl ..
          · split
            · rfl
            · exact neverFull_collCheck ..
          · exact neverFull_pktRange ..
          · exact neverFull_pktRange ..
          · split
            · exact hbad _
            · split
              · exact hbad _
              · exact hgo
          · exact hgo
    · exact hring

/-! ### Each packet, as it starts and in service -/
section
/-- A packet that starts has its effect, and waits no further where it is of TYPE 0 to 4. -/
theorem serve_effect (h : starts s q type) (htype : type < 5) : s.serve q type none = (s.pktMarks q).performPkt q (s.pktWords q) := by
  rw [serve_starts h (.inl rfl)]
  exact if_neg (by omega)
theorem nop_next (h : starts s q 0) : s.serve q 0 none = ((s.pktMarks q).startPkt q (s.pktWords q)).endPkt q :=
  (serve_effect h (by decide)).trans (performPkt_nop (type_of_starts h))
theorem launch_next (h : starts s q 1) : s.serve q 1 none =
    let m := s.pktMarks q
    let ws := s.pktWords q
    let u := ((m.startPkt q ws).registerGrid (launchGrid m q ws)).2
    if pktAsync ws then u.endPkt q else u.updPkt q fun p => { p with grid := some s.lantern.nextGrid } := by
  rw [serve_effect h (by decide), performPkt_launch (type_of_starts h), acceptLaunch_eq,
    lantern_pktMarks]
theorem coll_next (h : starts s q 2) : s.serve q 2 none =
    let ctx := (s.queue q).ctx.toNat
    let ws := s.pktWords q
    let c := ((s.pktMarks q).startPkt q ws).collStart ctx q (ws.getD 1 0) none (s.ctx ctx).seed.toNat true
    c.2.updPkt q fun p => { p with inst := some c.1 } := by
  rw [serve_effect h (by decide), performPkt_coll (type_of_starts h), queue_pktMarks, ctx_pktMarks]
theorem waitmem_next (h : starts s q 3) : s.serve q 3 none = ((s.pktMarks q).startPkt q (s.pktWords q)).waitRead q :=
  (serve_effect h (by decide)).trans (performPkt_waitmem (type_of_starts h))
theorem signalmem_next (h : starts s q 4) : s.serve q 4 none =
    let ctx := (s.queue q).ctx.toNat
    let ws := s.pktWords q
    let u := (s.pktMarks q).startPkt q ws
    let a := pw ws 1
    let v := if (pw ws 0).testBit 16 then (u.vget ctx a 8 + pw ws 2) % 2 ^ 64 else pw ws 2
    ((((u.touch none ctx true a).devWrite none (u.pa none ctx .store a).2 (u.pa none ctx .store a).1 (toBytesLE 8 v) false).tellHost 1 ctx a
      (toBytesLE 8 v)).endPkt q) := by
  rw [serve_effect h (by decide), performPkt_signalmem (type_of_starts h), queue_pktMarks]

/-- What a collective's packet comes to, once its collective is over (R383). -/
theorem collOver_next {k : Nat} (h : inService s q 2) (hinst : (s.queue q).pkt.inst = some k) (hover : (s.inst k).finished = true) :
    s.serve q 2 none =
      let t := { s with lantern := { s.lantern with insts := Tbl.del s.lantern.insts k } }.endPkt q
      if (s.inst k).stat ≠ 0 then t.rejectAt q 13 (s.pktAddr q) false else t := by
  rw [serve_inService h (.inl rfl)]
  obtain ⟨-, -, -, -, htype⟩ := h
  unfold State.resumePkt
  dsimp only
  rw [htype, hinst]
  dsimp only
  rw [hover]
  rfl
theorem insts_record (r : FRec) : (s.record r).lantern.insts = s.lantern.insts := by
  unfold State.record State.keepLog State.toHost
  split
  · rfl
  · split <;> rfl
theorem insts_rejectAt (code : Nat) (a : DWord) : (s.rejectAt q code a false).lantern.insts = s.lantern.insts := by
  unfold State.rejectAt
  exact insts_record ..

theorem waitRead_of_ok (h : s.pktRange (s.queue q).ctx.toNat .load (pw (s.queue q).pkt.words 1) 8 = .go) : s.waitRead q =
    let ctx := (s.queue q).ctx.toNat
    let a := pw (s.queue q).pkt.words 1
    let u := s.touch none ctx false a
    if waitCond (s.queue q).pkt.words (u.vget ctx a 8) then u.endPkt q else u := by
  unfold State.waitRead
  dsimp only
  rw [h]
theorem waitRead_of_bad {c : Nat} (h : s.pktRange (s.queue q).ctx.toNat .load (pw (s.queue q).pkt.words 1) 8 = .bad c) :
    s.waitRead q = s.rejectQueue q c := by
  unfold State.waitRead
  dsimp only
  rw [h]
theorem reread_next (h : inService s q 3) : s.reread q = s.waitRead q := by
  obtain ⟨hserving, hen, herr, hst, htype⟩ := h
  unfold State.reread
  exact if_pos (by simp [hserving, hen, herr, hst, htype])

/-- A MODEL packet that starts, with each of its actions (R345). -/
theorem modelBegun_eq : modelBegun (s.pktMarks q) q (s.pktWords q) = begun s q (epochs (s.pktMarks q) (s.queue q).ctx.toNat (s.pktWords q)) := by
  unfold modelBegun begun
  rw [queue_pktMarks]
theorem queue_begun (snap : Tbl (BitVec 32)) :
    ((begun s q snap).queue q).pkt = { started := true, words := s.pktWords q, since := (s.pktMarks q).now, snapshot := snap } := by
  unfold begun
  rw [queue_updPkt_same, queue_startPkt_same]
theorem resumePkt_model (htype : pktType (s.queue q).pkt.words = 5) : s.resumePkt q =
    if actionOf (s.queue q).pkt.words = 0 then
      (if s.requestMet q then s.endPkt q else (s.queue q).pkt.snapshot.foldl (fun t p =>
        if tmEpoch (t.topmark (s.queue q).ctx.toNat p.1) = p.2.toNat then t.requestLayer (s.queue q).ctx.toNat p.1 else t) s)
    else s.withdrawRun q := by
  unfold State.resumePkt
  dsimp only
  rw [htype]
  rfl
theorem serve_model {a : Nat} (h : starts s q 5) (hact : actionOf (s.pktWords q) = a) : s.serve q 5 (some a) =
    let t := (s.pktMarks q).performPkt q (s.pktWords q)
    if (t.queue q).pkt.started then t.resumePkt q else t := by
  rw [serve_starts h (.inr (congrArg some hact.symm))]
  exact if_pos (.inl rfl)
theorem serve_model_started {a : Nat} {t : State} (h : starts s q 5) (hact : actionOf (s.pktWords q) = a)
    (ht : (s.pktMarks q).performPkt q (s.pktWords q) = t) (hstarted : (t.queue q).pkt.started = true) : s.serve q 5 (some a) = t.resumePkt q := by
  rw [serve_model h hact, ht]
  exact if_pos hstarted
theorem modelRequest_next (h : starts s q 5) (hact : actionOf (s.pktWords q) = 0) :
    let ctx := (s.queue q).ctx.toNat
    let u := begun s q (epochs (s.pktMarks q) ctx (s.pktWords q))
    ∃ t, t = (layersOf (s.pktWords q)).foldl (fun s l => s.requestLayer ctx l) u ∧ t.queue q = u.queue q ∧ s.serve q 5 (some 0) = t.resumePkt q := by
  intro ctx u
  have hbegun : (s.pktMarks q).performPkt q (s.pktWords q) = (layersOf (s.pktWords q)).foldl (fun s l => s.requestLayer ctx l) u := by
    rw [performPkt_model (type_of_starts h), modelBegun_eq, queue_pktMarks]
    exact if_pos hact
  refine ⟨_, rfl, queue_requestLayers .., serve_model_started h hact hbegun ?_⟩
  rw [queue_requestLayers, queue_begun]
theorem modelWithdraw_next (h : starts s q 5) (hact : actionOf (s.pktWords q) = 1) : s.serve q 5 (some 1) =
    (begun s q (epochs (s.pktMarks q) (s.queue q).ctx.toNat (s.pktWords q))).withdrawRun q := by
  have hbegun : (s.pktMarks q).performPkt q (s.pktWords q) = begun s q (epochs (s.pktMarks q) (s.queue q).ctx.toNat (s.pktWords q)) := by
    rw [performPkt_model (type_of_starts h), modelBegun_eq, queue_pktMarks]
    exact (if_neg (by rw [hact]; decide)).trans (if_pos hact)
  generalize epochs (s.pktMarks q) (s.queue q).ctx.toNat (s.pktWords q) = snap at hbegun ⊢
  have hpkt := queue_begun (s := s) (q := q) snap
  rw [serve_model_started h hact hbegun (by rw [hpkt]), resumePkt_model (by rw [hpkt]; exact type_of_starts h)]
  refine if_neg ?_
  rw [hpkt, hact]
  decide
theorem serve_model_over {a : Nat} {t : State} (h : starts s q 5) (hact : actionOf (s.pktWords q) = a)
    (ht : (s.pktMarks q).performPkt q (s.pktWords q) = t) (hover : (t.queue q).pkt.started = false) : s.serve q 5 (some a) = t := by
  rw [serve_model h hact, ht]
  dsimp only
  rw [hover]
  rfl
theorem modelPins_next {a : Nat} {up : Bool} (h : starts s q 5) (hact : actionOf (s.pktWords q) = a) (hpin : 2 ≤ a) (hup : (a == 2) = up) :
    s.serve q 5 (some a) = ((layersOf (s.pktWords q)).foldl (fun t l => t.tmPinBy (s.queue q).ctx.toNat l up)
      (begun s q (epochs (s.pktMarks q) (s.queue q).ctx.toNat (s.pktWords q)))).endPkt q := by
  refine serve_model_over h hact ?_ (by rw [queue_endPkt_same])
  rw [performPkt_model (type_of_starts h), modelBegun_eq, queue_pktMarks, hact, hup]
  dsimp only
  rw [if_neg (by omega), if_neg (by omega)]
theorem requestMet_iff : s.requestMet q = true ↔
    ∀ p ∈ (s.queue q).pkt.snapshot, tmEpoch (s.topmark (s.queue q).ctx.toNat p.1) ≠ p.2.toNat := by
  unfold State.requestMet
  simp
theorem modelServed_next {a : Nat} (h : inService s q 5) (hact : actionOf (s.queue q).pkt.words = a) : s.serve q 5 (some a) =
    if a = 0 then
      (if s.requestMet q then s.endPkt q else (s.queue q).pkt.snapshot.foldl (fun t p =>
        if tmEpoch (t.topmark (s.queue q).ctx.toNat p.1) = p.2.toNat then t.requestLayer (s.queue q).ctx.toNat p.1 else t) s)
    else s.withdrawRun q := by
  have htype : pktType (s.queue q).pkt.words = 5 := by
    obtain ⟨-, -, -, -, htype⟩ := h
    exact htype
  rw [serve_inService h (.inr (congrArg some hact.symm)), resumePkt_model htype, hact]

/-- The queues that a QBARRIER waits for, with how far each has come (R289). -/
def barrierSnap (s : State) (ws : List DWord) : Tbl (BitVec 32) :=
  ((List.range 64).filter fun k => (pw ws 1).testBit k).map fun k => (k, (s.queue k).rptr)
theorem resumePkt_qbarrier (htype : pktType (s.queue q).pkt.words = 6) : s.resumePkt q =
    if (s.queue q).pkt.snapshot.all fun p => reached (s.queue p.1).cptr p.2 then s.endPkt q else s := by
  unfold State.resumePkt
  dsimp only
  rw [htype]
  rfl
theorem qbarrier_next (h : starts s q 6) : s.serve q 6 none =
    let u := begun s q (barrierSnap s (s.pktWords q))
    if (barrierSnap s (s.pktWords q)).all fun p => reached (u.queue p.1).cptr p.2 then u.endPkt q else u := by
  have hsnap : barrierSnap (s.pktMarks q) (s.pktWords q) = barrierSnap s (s.pktWords q) := by
    unfold barrierSnap
    simp only [queue_pktMarks]
  have hbegun : (s.pktMarks q).performPkt q (s.pktWords q) = begun s q (barrierSnap s (s.pktWords q)) := by
    rw [performPkt_qbarrier (type_of_starts h), ← hsnap]
    rfl
  rw [serve_starts h (.inl rfl), hbegun]
  dsimp only
  rw [if_pos (.inr rfl), queue_begun, if_pos rfl, resumePkt_qbarrier (by rw [queue_begun]; exact type_of_starts h), queue_begun]
theorem qbarrierServed_next (h : inService s q 6) (hreached : ∀ p ∈ (s.queue q).pkt.snapshot, reached (s.queue p.1).cptr p.2 = true) :
    s.serve q 6 none = s.endPkt q := by
  have htype : pktType (s.queue q).pkt.words = 6 := by
    obtain ⟨-, -, -, -, htype⟩ := h
    exact htype
  rw [serve_inService h (.inl rfl), resumePkt_qbarrier htype]
  exact if_pos (List.all_eq_true.mpr hreached)
theorem tableTimeout_next (hstartable : s.startable q = true) (hwords : (s.queue q).pkt.words ≠ []) (hfull : s.pktCheck q = .full)
    (hlong : (s.queue q).pkt.since + 100000 * s.keeper.power.clockMHz < s.now) : s.tableTimeout q = (s.pktMarks q).rejectQueue q 8 := by
  unfold State.tableTimeout
  refine if_pos ?_
  rw [hstartable, hfull, decide_eq_true hlong]
  simpa using hwords
end

/-! ### The dispatchers (R299 to R305) -/
section
variable {die : Nat}
theorem makeRoom_none {us : List DUnit} (h : ∀ gid, DUnit.grid gid ∈ us → s.victims die gid = []) : s.makeRoom die us = s := by
  unfold State.makeRoom
  rw [List.findSome?_eq_none_iff.mpr]
  intro u hu
  cases u with
  | gang t => rfl
  | grid gid => simp [h gid hu]
theorem makeRoom_first {gid : Nat} {us : List DUnit} (h : s.victims die gid ≠ []) :
    s.makeRoom die (.grid gid :: us) = (s.victims die gid).foldl State.preempt s := by
  unfold State.makeRoom
  have hfirst : (let vs := s.victims die gid; if vs.isEmpty then none else some vs) = some (s.victims die gid) :=
    if_neg (by simpa using h)
  rw [List.findSome?_cons]
  simp only [hfirst]

/-- The state that a placement attempt places a unit in: what ended teams leave settled, inputs examined again, reserved cores cleared, and
attached collectives that waited started. -/
def prepared (s : State) (die : Nat) : State :=
  let v := (((s.settleAll.lantern.grids.filter fun p => p.2.st == .inputs).map (·.1)).foldl (fun s g => s.advance g true) s.settleAll).clearReserved die
  (v.lantern.grids.map (·.1)).foldl State.startAttached v
/-- The first unit, of those to be tried, that can be placed. -/
def firstFit (u : State) (die : Nat) : Option (Nat × Nat × DUnit × State) :=
  (u.attemptList die).findSome? fun (l, k, y) => (u.tryUnit die y).map fun t => (l, k, y, t)
/-- A unit was placed: its reservation is given up, its source was served, and its attempts are forgotten. -/
def placed (u : State) (die l k : Nat) (y : DUnit) (t : State) : State :=
  { t.dropReserved (u.unitGrid y) with lantern := { (t.dropReserved (u.unitGrid y)).lantern with
    lastSource := Tbl.put t.lantern.lastSource (16 * die + l) k
    attempts := (u.countHeads die).lantern.attempts.keep fun _ a => a.1 != u.unitGrid y } }
theorem attempt_placed {l k : Nat} {y : DUnit} {t : State} (h : firstFit (prepared s die) die = some (l, k, y, t)) :
    s.attempt die = (placed (prepared s die) die l k y t).makeRoom die
      ((((prepared s die).attemptList die).takeWhile fun x => x.2.2 != y).map (·.2.2)) := by
  unfold State.attempt
  extract_lets s1 s2 s3 s4 us
  have hs4 : s4 = prepared s die := rfl
  clear_value s4
  subst hs4
  unfold firstFit at h
  rw [h]
  rfl
theorem attempt_none (h : firstFit (prepared s die) die = none) :
    s.attempt die = ((prepared s die).countHeads die).makeRoom die (((prepared s die).attemptList die).map (·.2.2)) := by
  unfold State.attempt
  extract_lets s1 s2 s3 s4 us
  have hs4 : s4 = prepared s die := rfl
  clear_value s4
  subst hs4
  unfold firstFit at h
  rw [h]
theorem reserved_placed {l k : Nat} {y : DUnit} {t u : State} {p : Nat × Reservation} (h : p ∈ (placed u die l k y t).lantern.reserved) :
    p.2.grid ≠ u.unitGrid y := by
  obtain ⟨-, hother⟩ := List.mem_filter.mp (show p ∈ (t.lantern.reserved.keep fun _ r => r.grid != u.unitGrid y) from h)
  simpa using hother

/-! ### The cheapest candidate (R302) -/
theorem costLt_iff {a b : Nat × Nat} : costLt a b = true ↔ cheaper a b := by
  unfold costLt cheaper
  simp
/-- The first of the cheapest is one of them, and none is cheaper. -/
theorem cheapest_least {α : Type} (cost : α → Nat × Nat) {xs : List α} (hne : xs ≠ []) :
    ∃ x ∈ xs, cheapest cost xs = some x ∧ ∀ y ∈ xs, ¬ cheaper (cost y) (cost x) := by
  have hfold (xs : List α) (b : α) : ∃ x, xs.foldl (fun (best : Option α) x => match best with
      | none => some x
      | some y => if costLt (cost x) (cost y) then some x else some y) (some b) = some x ∧ x ∈ b :: xs ∧ ∀ y ∈ b :: xs, ¬ cheaper (cost y) (cost x) := by
    induction xs generalizing b with
    | nil => exact ⟨b, rfl, List.mem_singleton.mpr rfl, by simp [cheaper]⟩
    | cons a xs ih =>
      rw [List.foldl_cons]
      dsimp only
      by_cases hlt : costLt (cost a) (cost b) = true
      · rw [if_pos hlt]
        obtain ⟨x, hx, hmem, hleast⟩ := ih a
        refine ⟨x, hx, by grind, fun y hy => ?_⟩
        have := costLt_iff.mp hlt
        have := hleast a List.mem_cons_self
        rcases List.mem_cons.mp hy with rfl | hy
        · unfold cheaper at *
          omega
        · exact hleast y hy
      · rw [if_neg hlt]
        obtain ⟨x, hx, hmem, hleast⟩ := ih b
        refine ⟨x, hx, by grind, fun y hy => ?_⟩
        have := mt costLt_iff.mpr hlt
        have := hleast b List.mem_cons_self
        rcases List.mem_cons.mp hy with rfl | hy
        · assumption
        · rcases List.mem_cons.mp hy with rfl | hy
          · unfold cheaper at *
            omega
          · exact hleast y (List.mem_cons_of_mem _ hy)
  cases xs with
  | nil => exact absurd rfl hne
  | cons a xs =>
    obtain ⟨x, hx, hmem, hleast⟩ := hfold xs a
    exact ⟨x, hmem, hx, hleast⟩
/-- The candidates of a die for a grid. -/
def candidates (s : State) (die gid : Nat) : List (List Nat) :=
  ((List.range 24).map fun i => 24 * die + i).filterMap fun c => match rect c (s.grid gid).clw (s.grid gid).clh with
    | some cs => if cs.all fun k => !(s.core k).failed && !s.reservedFor k gid then some cs else none
    | none => none
theorem mem_candidates {gid : Nat} {cs : List Nat} : cs ∈ candidates s die gid ↔ isCandidate s die gid cs := by
  unfold candidates isCandidate
  simp only [List.mem_filterMap, List.mem_map, List.mem_range]
  constructor
  · rintro ⟨_, ⟨i, hi, rfl⟩, hc⟩
    split at hc
    next ds hrect =>
      obtain ⟨hall, rfl⟩ : _ ∧ ds = cs := by simpa using hc
      exact ⟨24 * die + i, by omega, by omega, hrect, hall⟩
    · cases hc
  · rintro ⟨c, hlo, hhi, hrect, hall⟩
    refine ⟨c, ⟨c - 24 * die, by omega, by omega⟩, ?_⟩
    rw [hrect]
    simpa using hall
theorem reserveFor_cheapest {level gid : Nat} {y : DUnit} (hhead : s.headOf die level = some y) (hgid : s.unitGrid y = gid)
    (hfree : Tbl.find s.lantern.reserved die = none) (hsame : (Tbl.get s.lantern.attempts (16 * die + level) (gid, 0)).1 = gid)
    (hcount : 256 ≤ (Tbl.get s.lantern.attempts (16 * die + level) (gid, 0)).2) (hres : (s.grid gid).res = false) :
    s.reserveFor die level = match cheapest (fun cs => s.victimCost (inTheWay s cs)) (candidates s die gid) with
      | none => s
      | some cs => { s with lantern := { s.lantern with reserved := Tbl.put s.lantern.reserved die ⟨level, gid, cs⟩ } }.clearReserved die := by
  unfold State.reserveFor
  rw [hhead]
  dsimp only
  rw [hgid, if_neg (by simp [hsame, hfree, hcount]), hres]
  rfl
theorem candidateReservation_next {level gid : Nat} {y : DUnit} (hhead : s.headOf die level = some y) (hgid : s.unitGrid y = gid)
    (hfree : Tbl.find s.lantern.reserved die = none) (hsame : (Tbl.get s.lantern.attempts (16 * die + level) (gid, 0)).1 = gid)
    (hcount : 256 ≤ (Tbl.get s.lantern.attempts (16 * die + level) (gid, 0)).2) (hres : (s.grid gid).res = false)
    (hsome : ∃ cs, isCandidate s die gid cs) :
    ∃ cs, isCandidate s die gid cs ∧ (∀ ds, isCandidate s die gid ds → ¬ cheaper (s.victimCost (inTheWay s ds)) (s.victimCost (inTheWay s cs))) ∧
      s.reserveFor die level =
        { s with lantern := { s.lantern with reserved := Tbl.put s.lantern.reserved die ⟨level, gid, cs⟩ } }.clearReserved die := by
  obtain ⟨c, hc⟩ := hsome
  obtain ⟨cs, hmem, hcheapest, hleast⟩ := cheapest_least (fun cs => s.victimCost (inTheWay s cs)) (List.ne_nil_of_mem (mem_candidates.mpr hc))
  refine ⟨cs, mem_candidates.mp hmem, fun ds hds => hleast ds (mem_candidates.mpr hds), ?_⟩
  rw [reserveFor_cheapest hhead hgid hfree hsame hcount hres, hcheapest]

/-! ### Thermal migration (R305) -/
section
variable {core t : Nat}
/-- The longest resident of some teams, as the fold finds it. -/
theorem foldl_oldest {ts : List Nat} (hmem : t ∈ ts) (hleast : ∀ m ∈ ts, m ≠ t → (s.team t).placedAt < (s.team m).placedAt) :
    ts.foldl (fun (m : Option Nat) t => match m with
      | none => some t
      | some u => if (s.team t).placedAt < (s.team u).placedAt then some t else some u) none = some t := by
  have hfold (ts : List Nat) (b : Option Nat) (hb : ∀ m, b = some m → m ≠ t → (s.team t).placedAt < (s.team m).placedAt)
      (hin : t ∈ ts ∨ b = some t) (hleast : ∀ m ∈ ts, m ≠ t → (s.team t).placedAt < (s.team m).placedAt) :
      ts.foldl (fun (m : Option Nat) t => match m with
        | none => some t
        | some u => if (s.team t).placedAt < (s.team u).placedAt then some t else some u) b = some t := by
    induction ts generalizing b with
    | nil => simpa using hin
    | cons a ts ih =>
      rw [List.foldl_cons]
      refine ih _ ?_ ?_ fun m hm => hleast m (List.mem_cons_of_mem _ hm)
      · intro m hm hne
        cases b with
        | none => exact Option.some.inj hm ▸ hleast a List.mem_cons_self (Option.some.inj hm ▸ hne)
        | some u => grind
      · by_cases hat : a = t
        · cases b with
          | none => exact .inr (hat ▸ rfl)
          | some u => grind
        · have := hleast a List.mem_cons_self hat
          cases b with
          | none => grind
          | some u => grind
  exact hfold ts none (fun _ e => nomatch e) (.inl hmem) hleast
/-- The longest resident of a core is the team that migrates. -/
theorem oldest_of_longest (h : longest s core t) :
    ((s.lantern.teams.filter fun p => p.2.core == core && p.2.st == .resident).map (·.1)).foldl (fun (m : Option Nat) t => match m with
      | none => some t
      | some u => if (s.team t).placedAt < (s.team u).placedAt then some t else some u) none = some t := by
  obtain ⟨⟨x, hx, hcore, hst⟩, hleast⟩ := h
  refine foldl_oldest ?_ ?_
  · exact List.mem_map.mpr ⟨(t, x), List.mem_filter.mpr ⟨hx, by simp [hcore, hst]⟩, rfl⟩
  · intro m hm hne
    obtain ⟨p, hp, rfl⟩ := List.mem_map.mp hm
    obtain ⟨hp, hat⟩ := List.mem_filter.mp hp
    simp only [Bool.and_eq_true, beq_iff_eq] at hat
    obtain ⟨hcore, hst⟩ := hat
    exact hleast p hp hcore hst hne
/-- The cores of a gang are counted once each. -/
def gangCores (s : State) (t : Nat) : List Nat := ((s.gangOf t).map fun m => (s.team m).core).eraseDups
theorem thermal_next (h : longest s core t) (hhot : (s.core core).hot = true)
    (hresident : ∀ m ∈ s.gangOf t, (s.team m).st = .ended ∨ (s.team m).placedAt + 1000 * s.keeper.power.clockMHz ≤ s.now)
    (hcores : ∀ m ∈ s.gangOf t, (s.core (s.team m).core).thermalCount = 0 ∨
      (s.core (s.team m).core).lastThermal + 4 * (1000 * s.keeper.power.clockMHz) ≤ s.now) :
    s.thermal core = (gangCores s t).foldl (fun u c => u.setCore c { u.core c with lastThermal := u.now, thermalCount := (u.core c).thermalCount + 1 })
      ((s.gangOf t).foldl (fun s m => s.setTeam m { s.team m with avoidHot := true }) (s.preempt t)) := by
  have hok : ((s.gangOf t).all (fun m => (s.team m).st == .ended || (s.team m).placedAt + 1000 * s.keeper.power.clockMHz ≤ s.now) &&
      (gangCores s t).all fun c => (s.core c).thermalCount == 0 || decide ((s.core c).lastThermal + 4 * (1000 * s.keeper.power.clockMHz) ≤ s.now)) =
        true := by
    rw [Bool.and_eq_true, List.all_eq_true, List.all_eq_true]
    refine ⟨fun m hm => by simpa using hresident m hm, fun c hc => ?_⟩
    obtain ⟨m, hm, rfl⟩ := List.mem_map.mp (List.mem_eraseDups.mp hc)
    simpa using hcores m hm
  unfold State.thermal
  extract_lets ms here oldest
  have holdest : oldest = some t := oldest_of_longest h
  clear_value oldest
  subst holdest
  dsimp only
  refine if_neg ?_
  intro e
  rw [hhot, Bool.not_true, Bool.false_or, Bool.not_eq_true'] at e
  exact Bool.noConfusion (hok.symm.trans e)
end
end
end

/-- Settles O58: what an event does where the Lantern starts a packet is `performPkt`, in service `resumePkt`, and reading it has changed
memory alone; the dispatchers' events by the first unit that fits, the cheapest candidate and the longest resident. -/
theorem lanternEvents : Obligations.LanternEvents := by
  intro s q x ctx ws m
  have hm : MemoryAlone s m := MemoryAlone.pktMarks q
  have hqueue (k : Nat) : m.queue k = s.queue k := queue_pktMarks ..
  refine ⟨hm, fun w hq hlink => congrArg Host.Outcome.next (doorbell_next s q w hq hlink),
    ⟨queue_startPkt_same .., queue_endPkt_same .., fun k hk => ⟨queue_setQueue_ne _ _ _ hk, queue_setQueue_ne _ _ _ hk⟩⟩, ?nop, ?launch, ?coll,
    ?collOver, ?waitmem, ?reread, ?signalmem, ?model, ?modelServed, ?qbarrier, ?qbarrierServed, ?bad, ?timeout, workTable_of_full, ?placement,
    fun v die us => makeRoom_none, fun v die gid us => makeRoom_first, ?reservation, ?thermal⟩
  case nop => exact fun h => congrArg Host.Outcome.next (nop_next h)
  case launch =>
    intro h r g g'
    have hgrid : launchGrid m q ws = g' := launchGrid_memory hm
    have hnext := launch_next h
    dsimp only at hnext
    rw [show launchGrid (s.pktMarks q) q (s.pktWords q) = g' from hgrid] at hnext
    refine ⟨_, congrArg Host.Outcome.next hnext, fun hasync => if_pos hasync, fun hasync => if_neg ?_⟩
    rw [Bool.not_eq_true]
    exact hasync
  case coll => exact fun h => congrArg Host.Outcome.next (coll_next h)
  case collOver =>
    intro k h hinst hover
    have hnext : Sys2Proof.Machine.exec (.coll q) s = .next _ := congrArg Host.Outcome.next (collOver_next h hinst hover)
    by_cases hstat : (s.inst k).stat = 0
    · refine ⟨_, hnext.trans (congrArg Host.Outcome.next (if_neg (not_not_intro hstat))), ?_, ?_, fun _ => ⟨?_, ?_⟩, fun hne => absurd hstat hne⟩
      · exact (Tbl.find_del ..).trans (if_pos rfl)
      all_goals rw [queue_endPkt_same]; rfl
    · refine ⟨_, hnext.trans (congrArg Host.Outcome.next (if_pos hstat)), ?_, ?_, fun hzero => absurd hzero hstat, fun _ => ⟨?_, ?_, ?_⟩⟩
      · rw [insts_rejectAt]
        exact (Tbl.find_del ..).trans (if_pos rfl)
      · rw [queue_rejectAt, queue_endPkt_same]; rfl
      all_goals rw [queue_rejectAt]
      rfl
  case waitmem => exact fun h => congrArg Host.Outcome.next (waitmem_next h)
  case reread =>
    intro h a u
    refine ⟨congrArg Host.Outcome.next (reread_next h), fun hgo => ?_, fun c => waitRead_of_bad⟩
    have hread := waitRead_of_ok hgo
    exact ⟨fun hc => hread.trans (if_pos hc), fun hc => hread.trans (if_neg ((Bool.not_eq_true _).mpr hc))⟩
  case signalmem => exact fun h => congrArg Host.Outcome.next (signalmem_next h)
  case model =>
    intro h u
    refine ⟨fun hact => ?_, fun hact => congrArg Host.Outcome.next (modelWithdraw_next h hact),
      fun hact => congrArg Host.Outcome.next (modelPins_next h hact (by decide) rfl),
      fun hact => congrArg Host.Outcome.next (modelPins_next h hact (by decide) rfl)⟩
    obtain ⟨t, ht, hq, hnext⟩ := modelRequest_next h hact
    exact ⟨t, ht, hq, congrArg Host.Outcome.next hnext⟩
  case modelServed =>
    intro h
    constructor
    · intro hact was
      have hnext := (modelServed_next h hact).trans (if_pos rfl)
      exact ⟨fun hall => congrArg Host.Outcome.next (hnext.trans (if_pos (requestMet_iff.mpr hall))),
        fun hall => congrArg Host.Outcome.next (hnext.trans (if_neg (mt requestMet_iff.mp hall)))⟩
    · exact fun hact => congrArg Host.Outcome.next ((modelServed_next h hact).trans (if_neg (by decide)))
  case qbarrier =>
    intro h snap u
    have hnext := qbarrier_next h
    exact ⟨fun hall => congrArg Host.Outcome.next (hnext.trans (if_pos (List.all_eq_true.mpr hall))),
      fun hall => congrArg Host.Outcome.next (hnext.trans (if_neg (mt List.all_eq_true.mp hall)))⟩
  case qbarrierServed => exact fun h hall => congrArg Host.Outcome.next (qbarrierServed_next h hall)
  case bad =>
    intro c hserving hstartable hnext hcheck
    refine ⟨fun i type act hi hmet => ?_, ?_⟩
    · rw [exec_packetEvent hi, serve_rejects hserving hstartable hnext hcheck hmet]
    · obtain ⟨-, -, hst⟩ := startable_queue hstartable
      rw [queue_rejectQueue m q c (by rw [hqueue]; exact hst), hqueue]
  case timeout => exact fun _ hstartable hwords hfull hlong => congrArg Host.Outcome.next (tableTimeout_next hstartable hwords hfull hlong)
  case placement =>
    intro die v u try_
    refine ⟨fun l k y t ht => ⟨placed u die l k y t, ?_, rfl, rfl, rfl, rfl, Tbl.find_put_same .., fun p => reserved_placed⟩, fun hnone => ?_⟩
    · exact congrArg (Host.Outcome.next ∘ State.tick) (attempt_placed ht)
    · exact congrArg (Host.Outcome.next ∘ State.tick) (attempt_none hnone)
  case reservation =>
    intro die level y hhead gid hfree hsame hcount hres hsome
    obtain ⟨cs, hcs, hleast, hnext⟩ := candidateReservation_next hhead rfl hfree hsame hcount hres hsome
    exact ⟨cs, hcs, hleast, congrArg Host.Outcome.next hnext⟩
  case thermal =>
    intro core t h hhot ms hresident hcores
    exact congrArg Host.Outcome.next (thermal_next h hhot hresident hcores)
end Sys2Proof.LanternQueues
end

section
/-! PROOFS. Windows and Beacons: what a packet writes within one sector, on a memory that is not in canonical form (R357). -/
open Sys2Proof Sys2Proof.Machine Sys2Proof.Safety Sys2Proof.Rules
namespace Sys2Proof.Fabric

/-- What a packet wrote within one sector stands there under the sector's key. -/
def PutReads (s : State) : Prop := ∀ ctx a (bs : List Byte) bad, bs ≠ [] → let p := s.pa none ctx .store a
  p.1 % 32 + bs.length ≤ 32 → ∀ i, i < bs.length → (put s ctx a bs bad).mem.getKey p.2 (p.1 + i) = bs.getD i 0

/-- On a state whose memory is in canonical form this holds. -/
theorem putReads_of_canon {s : State} (h : CanonicalMemory.Canon s) : PutReads s := by
  intro ctx a bs bad _ p _ i hi
  have hmem : (put s ctx a bs bad).mem = (s.touch none ctx true a).mem.writeKey p.2 p.1 bs bad := LaneMemory.mem_devWrite ..
  rw [hmem, Mem.getKey_writeKey (h.touch ..).1, if_pos (by omega), Nat.add_sub_cancel_left]

theorem doubled_keeps_put : (put MemoryLevels.doubled 0 0 [0] false).mem.getKey (MemoryLevels.doubled.pa none 0 .store 0).2 (MemoryLevels.doubled.pa none 0 .store 0).1 = 1 := by
  decide +kernel
theorem doubled_fits : (MemoryLevels.doubled.pa none 0 .store 0).1 % 32 + 1 ≤ 32 := by decide +kernel
theorem not_putReads_doubled : ¬ PutReads MemoryLevels.doubled := by
  intro h
  exact absurd (doubled_keeps_put.symm.trans (h 0 0 [0] false (by decide) doubled_fits 0 (by decide))) (by decide)

/-- The part of `FabricEvents` that speaks of a write within one sector. -/
theorem putReads_of_fabricEvents (h : Obligations.FabricEvents) {s : State} (hst : s.keeper.status.st ≠ 5) : PutReads s := by
  obtain ⟨-, hlive⟩ := h s
  obtain ⟨-, -, -, -, -, hput, -⟩ := hlive hst
  exact fun ctx a bs bad hne hfit => (hput ctx a bs bad hne hfit).1

/-- Refutes O59: the statement asks nothing of the memory's form, and where an address is listed twice (`MemoryLevels.doubled`) a write of a
zero byte leaves the second entry to be read.  This part
holds where the memory is in canonical form (`putReads_of_canon`). -/
theorem not_fabricEvents : ¬ Obligations.FabricEvents := fun h =>
  not_putReads_doubled (putReads_of_fabricEvents h (s := MemoryLevels.doubled) (by decide))
end Sys2Proof.Fabric
end
